-- ==== Sys2Proof/Word.lean ====
section
/-! DEFINITION. Word types and sparse maps: the words of R6 and R34, rows of 64 lanes, and lists of key and value
pairs in ascending key order, which hold every collection of the machine that is sparse by number. -/

namespace Sys2Proof

abbrev Byte := BitVec 8
abbrev Half := BitVec 16
abbrev Word := BitVec 32
abbrev Dword := BitVec 64

/-- One value for each of the 64 lanes of a wave (R2). -/
abbrev Lanes (α : Type) := Vector α 64

/-- A set of lanes: bit L stands for lane L. -/
abbrev Mask := BitVec 64

/-- Lane `l` is in the set `m`. -/
def Mask.has (m : Mask) (l : Nat) : Bool := m.getLsbD l

/-- A sparse collection: keys in ascending order, each at most once. -/
abbrev Map (α : Type) := List (Nat × α)

/-- The value at key `k`, if the map lists it. -/
def Map.find {α : Type} (m : Map α) (k : Nat) : Option α :=
  match m with
  | [] => none
  | (j, v) :: t => if j = k then some v else Map.find t k

/-- The value at key `k`, or `d`. -/
def Map.getD {α : Type} (m : Map α) (k : Nat) (d : α) : α := (Map.find m k).getD d

/-- The map with `v` at key `k`, keys kept ascending. -/
def Map.put {α : Type} (m : Map α) (k : Nat) (v : α) : Map α :=
  match m with
  | [] => [(k, v)]
  | (j, w) :: t =>
    if k < j then (k, v) :: (j, w) :: t
    else if k = j then (k, v) :: t
    else (j, w) :: Map.put t k v

/-- The map without key `k`. -/
def Map.del {α : Type} (m : Map α) (k : Nat) : Map α :=
  match m with
  | [] => []
  | (j, w) :: t => if j = k then Map.del t k else (j, w) :: Map.del t k

/-- The keys of a map rise strictly. -/
def Map.sorted {α : Type} (m : Map α) : Bool :=
  match m with
  | [] => true
  | [_] => true
  | (j, _) :: (k, w) :: t => decide (j < k) && Map.sorted ((k, w) :: t)

end Sys2Proof
end

