-- ==== Sys2Proof/Syntax.lean ====
section
/-! DEFINITION. The syntax of the machine's steps: operand forms, the fields of a lane word (R145 to R149), and Instr,
one constructor per row of spec/opcode_table.json: instructions of the scalar harts, lane instructions, and the
operations and events of the part. -/

namespace Sys2Proof

/-- A scalar register number, x0-x31 or f0-f31 (R14). -/
abbrev Reg := BitVec 5

/-- A scalar hart of the package: a strand context by DIE-free dstrand value (cluster·512 + core·8 + context, R19), the
uniform hart of a wave by wave number (cluster·128 + engine·16 + slot, R125), or an engine hart by cluster·7 + instance
(R319). -/
inductive HartId where
  | strand (k : Nat)
  | uniform (k : Nat)
  | engine (k : Nat)
deriving DecidableEq, Repr

/-- Kind of a memory access for translation (R266). -/
inductive AccessKind where
  | load | store | fetch
deriving DecidableEq, Repr

/-- Target of a register write that has no row of its own (REGISTER_WRITE): a device register by physical address
(R429), or a CSR of a hart. -/
inductive RegTarget where
  | device (pa : Nat)
  | csr (h : HartId) (addr : BitVec 12)
deriving DecidableEq, Repr

/-- The unit that a freed slot of a cluster is, for CONTINUATION_POP (R242): a strand context (core, context) or a wave
slot (engine, slot). -/
inductive UnitSlot where
  | context (core ctx : Nat)
  | waveSlot (engine slot : Nat)
deriving DecidableEq, Repr

/-- Access that arrives from a peer package (R422): an atomic by its operation code (R68). -/
inductive PeerOp where
  | fill | writeBack | atomic (code : Nat)
deriving DecidableEq, Repr

inductive LoadWidth where
  | b | h | w | d | bu | hu | wu
deriving DecidableEq, Repr

inductive StoreWidth where
  | b | h | w | d
deriving DecidableEq, Repr

/-- The standard loads and stores (R15); `dbl` selects D over F. -/
inductive LsOp where
  | load (width : LoadWidth) (rd rs1 : Reg) (imm : BitVec 12)
  | store (width : StoreWidth) (rs1 rs2 : Reg) (imm : BitVec 12)
  | fload (dbl : Bool) (rd rs1 : Reg) (imm : BitVec 12)
  | fstore (dbl : Bool) (rs1 rs2 : Reg) (imm : BitVec 12)
deriving DecidableEq, Repr

/-- The standard AMO operations (R16). -/
inductive AmoOp where
  | swap | add | xor | and | or | min | max | minu | maxu
deriving DecidableEq, Repr

inductive BrCond where
  | eq | ne | lt | ge | ltu | geu
deriving DecidableEq, Repr

/-- I-format operations with a 12-bit immediate. -/
inductive ImmOp where
  | addi | slti | sltiu | xori | ori | andi
deriving DecidableEq, Repr

/-- Shifts by a 6-bit immediate (with Zbb rori and Zba slli.uw). -/
inductive ShOp where
  | slli | srli | srai | rori | slliUw
deriving DecidableEq, Repr

/-- 32-bit shifts by a 5-bit immediate. -/
inductive ShWOp where
  | slliw | srliw | sraiw | roriw
deriving DecidableEq, Repr

/-- R-format 64-bit operations of I, M, Zba and Zbb. -/
inductive AluOp where
  | add | sub | sll | slt | sltu | xor | srl | sra | or | and
  | mul | mulh | mulhsu | mulhu | div | divu | rem | remu
  | sh1add | sh2add | sh3add
  | andn | orn | xnor | max | maxu | min | minu | rol | ror
deriving DecidableEq, Repr

/-- R-format operations of the 32-bit opcode of I, M, Zba and Zbb. -/
inductive AluWOp where
  | addw | subw | sllw | srlw | sraw | mulw | divw | divuw | remw | remuw
  | addUw | sh1addUw | sh2addUw | sh3addUw | rolw | rorw
deriving DecidableEq, Repr

/-- One-operand operations of Zbb. -/
inductive UnOp where
  | clz | ctz | cpop | sextB | sextH | zextH | rev8 | orcB | clzw | ctzw | cpopw
deriving DecidableEq, Repr

inductive CsrOp where
  | rw | rs | rc
deriving DecidableEq, Repr

inductive FmaOp where
  | madd | msub | nmsub | nmadd
deriving DecidableEq, Repr

inductive FpOp where
  | add | sub | mul | div
deriving DecidableEq, Repr

inductive FsgnOp where
  | j | jn | jx
deriving DecidableEq, Repr

inductive FcmpOp where
  | eq | lt | le
deriving DecidableEq, Repr

inductive IntFmt where
  | w | wu | l | lu
deriving DecidableEq, Repr

/-- The standard computational, floating-point, branch, jump and CSR instructions of a hart (R10), and a word that
encodes no instruction of the hart. A branch or jump immediate holds the offset bits above bit 0. -/
inductive RvOp where
  | lui (rd : Reg) (imm : BitVec 20)
  | auipc (rd : Reg) (imm : BitVec 20)
  | jal (rd : Reg) (off : BitVec 20)
  | jalr (rd rs1 : Reg) (imm : BitVec 12)
  | branch (c : BrCond) (rs1 rs2 : Reg) (off : BitVec 12)
  | opImm (o : ImmOp) (rd rs1 : Reg) (imm : BitVec 12)
  | shImm (o : ShOp) (rd rs1 : Reg) (sh : BitVec 6)
  | addiw (rd rs1 : Reg) (imm : BitVec 12)
  | shImmW (o : ShWOp) (rd rs1 : Reg) (sh : BitVec 5)
  | op (o : AluOp) (rd rs1 rs2 : Reg)
  | opW (o : AluWOp) (rd rs1 rs2 : Reg)
  | un (o : UnOp) (rd rs1 : Reg)
  | csr (o : CsrOp) (imm : Bool) (rd src : Reg) (addr : BitVec 12)
  | fma (o : FmaOp) (dbl : Bool) (rd rs1 rs2 rs3 : Reg) (rm : BitVec 3)
  | fop (o : FpOp) (dbl : Bool) (rd rs1 rs2 : Reg) (rm : BitVec 3)
  | fsqrt (dbl : Bool) (rd rs1 : Reg) (rm : BitVec 3)
  | fsgn (o : FsgnOp) (dbl : Bool) (rd rs1 rs2 : Reg)
  | fminmax (max dbl : Bool) (rd rs1 rs2 : Reg)
  | fcmp (o : FcmpOp) (dbl : Bool) (rd rs1 rs2 : Reg)
  | fclass (dbl : Bool) (rd rs1 : Reg)
  | fcvtInt (t : IntFmt) (dbl : Bool) (rd rs1 : Reg) (rm : BitVec 3)
  | fcvtFrom (t : IntFmt) (dbl : Bool) (rd rs1 : Reg) (rm : BitVec 3)
  | fcvtFmt (toDbl : Bool) (rd rs1 : Reg) (rm : BitVec 3)
  | fmvToX (dbl : Bool) (rd rs1 : Reg)
  | fmvFromX (dbl : Bool) (rd rs1 : Reg)
  | illegal (w : Word)
deriving DecidableEq, Repr

/-- Operands of a scoped atomic of custom-3 (R67, R68): scope and semantics codes, size, registers. -/
structure AmoArgs where
  scope : BitVec 2
  sem : BitVec 4
  dbl : Bool
  rs2 : Reg
  rs1 : Reg
  rd : Reg
deriving DecidableEq, Repr

/-- The fields of a lane word other than OP and FUNC (R145). `hi` is parcel 2, bits [95:64], which the format classes
divide in their own ways. -/
structure LaneWord where
  vd : BitVec 8
  va : BitVec 8
  vb : BitVec 8
  vc : BitVec 8
  gp : BitVec 3
  gn : Bool
  lra : Bool
  lrb : Bool
  lrc : Bool
  sm : Bool
  mh : Bool
  ty : BitVec 4
  rm : BitVec 3
  hi : Word
deriving DecidableEq, Repr

namespace LaneWord

/-- [71:64] WAITN, classes L, LM and LC. -/
def waitn (w : LaneWord) : BitVec 8 := w.hi.extractLsb' 0 8
/-- [77:72] WAITT. -/
def waitt (w : LaneWord) : BitVec 6 := w.hi.extractLsb' 8 6
/-- [85:78] SIGN, classes L and LM. -/
def sign (w : LaneWord) : BitVec 8 := w.hi.extractLsb' 14 8
/-- [87:86] SIGI. -/
def sigi (w : LaneWord) : BitVec 2 := w.hi.extractLsb' 22 2
/-- [95:88] EXT. -/
def ext (w : LaneWord) : BitVec 8 := w.hi.extractLsb' 24 8
/-- [91:88] STYPE, class L (R155). -/
def stype (w : LaneWord) : BitVec 4 := w.hi.extractLsb' 24 4
/-- [92] SAT, class L. -/
def sat (w : LaneWord) : Bool := w.hi.getLsbD 28
/-- [94:93] KHI, class L. -/
def khi (w : LaneWord) : BitVec 2 := w.hi.extractLsb' 29 2
/-- [95] U, class L. -/
def u (w : LaneWord) : Bool := w.hi.getLsbD 31
/-- [95:64] IMM32, class LI (R147). -/
def imm32 (w : LaneWord) : Word := w.hi
/-- [91:88] SEM, class LM (R148). -/
def sem (w : LaneWord) : BitVec 4 := w.hi.extractLsb' 24 4
/-- [93:92] HINT, class LM. -/
def hint (w : LaneWord) : BitVec 2 := w.hi.extractLsb' 28 2
/-- [95:94], class LM, reserved. -/
def lmRsv (w : LaneWord) : BitVec 2 := w.hi.extractLsb' 30 2
/-- [35:32] SLOT, class LM. -/
def slot (w : LaneWord) : BitVec 4 := w.vb.extractLsb' 0 4
/-- [38:36] SCOPE, class LM. -/
def scope (w : LaneWord) : BitVec 3 := w.vb.extractLsb' 4 3
/-- [39], class LM, reserved. -/
def lmBit39 (w : LaneWord) : Bool := w.vb.getLsbD 7
/-- [47:40] OFS, class LM. -/
def ofs (w : LaneWord) : BitVec 8 := w.vc
/-- [47:24] OFF24, class LC (R149). -/
def off24 (w : LaneWord) : BitVec 24 := w.vc ++ w.vb ++ w.va
/-- [95:78] RCV, class LC. -/
def rcv (w : LaneWord) : BitVec 18 := w.hi.extractLsb' 14 18

end LaneWord

/-- One constructor per row of the table of operations and events. -/
inductive Instr where
  /-- SEM_WAIT (R94): Parks until the semaphore holds the amount and no older wait is pending, then subtracts it; this is an acquire at crew scope. -/
  | semWait (rd rs1 rs2 : Reg)
  /-- SEM_SIG (R94): Adds rs2 to the semaphore as a release at crew scope; SEM_OVERFLOW is judged on the sum of the clk's signals. -/
  | semSig (rd rs1 rs2 : Reg)
  /-- SEM_TRY (R94): Subtracts the amount if it can be granted now; otherwise returns the count with bit 63 set. -/
  | semTry (rd rs1 rs2 : Reg)
  /-- SEM_READ (R94): Returns the semaphore count, relaxed. -/
  | semRead (rd rs1 : Reg)
  /-- SEM_WAITI (R94): Immediate form of sem.wait, with index N and amount n from 1 to 15. -/
  | semWaiti (rd : Reg) (sem : BitVec 8) (n : BitVec 4)
  /-- SEM_SIGI (R94): Immediate form of sem.sig, with index N and amount n from 1 to 15. -/
  | semSigi (rd : Reg) (sem : BitVec 8) (n : BitVec 4)
  /-- FUT_NEW (R98): Allocates an empty future entry on the hart's die, or returns 0 if the die's table is full. -/
  | futNew (rd : Reg)
  /-- FUT_SET (R98): Sets the value and the ready state and wakes every waiter, as a release at package scope. -/
  | futSet (rs1 rs2 : Reg)
  /-- FUT_WAIT (R98): Returns the value of a ready future, or marks it pending and parks the hart; a poisoned future raises POISON. -/
  | futWait (rd rs1 : Reg)
  /-- FUT_POLL (R98): Returns the state code of the future; this is an acquire when the code is ready. -/
  | futPoll (rd rs1 : Reg)
  /-- FUT_POISON (R98): Poisons an empty or pending future and wakes its waiters into POISON. -/
  | futPoison (rs1 : Reg)
  /-- FUT_FREE (R98): Frees the entry and increments its generation modulo 256; a pending entry raises FUTURE_STALE. -/
  | futFree (rs1 : Reg)
  /-- CONT_SPAWN (R99): Adds n to the join counter, releases at package scope and enqueues n children built from the record. -/
  | contSpawn (rs1 rs2 : Reg)
  /-- JOIN_ADD (R101): Adds a signed value to a join counter as a release and enqueues the parent when the counter reaches 0. -/
  | joinAdd (rd rs1 rs2 : Reg)
  /-- MSG_SEND (R103): Checks the destination word, reads a 64-byte body and places it in the send queue on the request network. -/
  | msgSend (rs1 rs2 : Reg)
  /-- MSG_REPLY (R103): Sends a 64-byte body on the reply network to a MODE 0 destination. -/
  | msgReply (rs1 rs2 : Reg)
  /-- MSG_SENDH (R103): Sends a payload together with a handler of at most 8 instructions to run at the destination context. -/
  | msgSendh (rs1 rs2 : Reg)
  /-- MSG_RECV (R104): Parks until the inbox holds a message, then takes the oldest high-priority message first and returns the payload and sender word. -/
  | msgRecv (rd rs1 : Reg)
  /-- MB_READ (R105): Reads a mailbox register as an acquire and clears its FULL bit. -/
  | mbRead (rd : Reg) (mb : BitVec 3)
  /-- MB_WRITE (R105): Writes a mailbox register; a deposit in the same clk wins and sets the overrun bit. -/
  | mbWrite (mb : BitVec 3) (rs1 : Reg)
  /-- MB_SWAP (R105): Reads and then writes a mailbox register as an acquire, with the same-clk deposit rule. -/
  | mbSwap (rd : Reg) (mb : BitVec 3) (rs1 : Reg)
  /-- ENG_KICK (R107): Releases at the encoded scope and stores the argument pointer to the engine's kick queue, parking if the queue is full. -/
  | engKick (rs1 rs2 : Reg) (scope : BitVec 3)
  /-- ENG_RDV (R108): Parks until every kick this hart issued to the engine has completed, then returns the last completion word. -/
  | engRdv (rd rs1 : Reg)
  /-- COH_DECL (R109): Declares a coherence object from a shape record and gathers its single token set at its home. -/
  | cohDecl (rd rs1 : Reg)
  /-- COH_REL (R110): Returns the lines of an object to per-line granules, as an sc fence. -/
  | cohRel (rs1 : Reg)
  /-- SCALAR_CWB (R111): Writes back the dirty bytes of the untracked lines in the range that the cluster holds. -/
  | scalarCwb (rs1 rs2 : Reg)
  /-- SCALAR_CINV (R111): Drops the untracked lines of the range that the cluster holds, losing their dirty bytes. -/
  | scalarCinv (rs1 rs2 : Reg)
  /-- SCALAR_CFLUSH (R111): Writes back and then drops the untracked lines of the range. -/
  | scalarCflush (rs1 rs2 : Reg)
  /-- HOT_READ (R112): Returns the hotness counter of the 64 KiB DRAM region. -/
  | hotRead (rd rs1 : Reg)
  /-- HOT_CLR (R112): Clears the hotness counter of a region. -/
  | hotClr (rs1 : Reg)
  /-- FENCE_S (R114): A fence of the encoded order at the encoded scope. -/
  | fenceS (scope : BitVec 2) (sem : BitVec 4)
  /-- SCALAR_STQ (R115): Reads a descriptor and payload and queues a write-with-enqueue to the target. -/
  | scalarStq (rs1 rs2 : Reg)
  /-- TLB_INV (R271): Invalidates translations by the named or the broadcast form and parks until every target cluster acknowledges. -/
  | tlbInv (rs1 rs2 : Reg)
  /-- AMO_ADD (R285): Scoped atomic integer add on the location. -/
  | amoAdd (a : AmoArgs)
  /-- AMO_SWAP (R285): Scoped atomic exchange. -/
  | amoSwap (a : AmoArgs)
  /-- AMO_AND (R285): Scoped atomic bitwise AND. -/
  | amoAnd (a : AmoArgs)
  /-- AMO_OR (R285): Scoped atomic bitwise OR. -/
  | amoOr (a : AmoArgs)
  /-- AMO_XOR (R285): Scoped atomic bitwise XOR. -/
  | amoXor (a : AmoArgs)
  /-- AMO_MAX (R285): Scoped atomic signed maximum. -/
  | amoMax (a : AmoArgs)
  /-- AMO_FADD (R285): Scoped atomic floating-point add with nearest-even rounding and no flags. -/
  | amoFadd (a : AmoArgs)
  /-- AMO_CAS (R285): Scoped atomic compare with rd and store rs2 if equal; returns the old value. -/
  | amoCas (a : AmoArgs)
  /-- STANDARD_LOAD_STORE (R15): A standard scalar load or store at system scope, with the misalignment handling of the line rule. -/
  | standardLoadStore (op : LsOp)
  /-- LR (R17): Load-reserved, reserving the coherence granule. -/
  | lr (d aq rl : Bool) (rd rs1 : Reg)
  /-- SC (R17): Store-conditional, which fails if the reservation was broken. -/
  | sc (d aq rl : Bool) (rd rs1 rs2 : Reg)
  /-- STANDARD_AMO (R16): A standard AMO at system scope, with its order taken from aq and rl. -/
  | standardAmo (op : AmoOp) (d aq rl : Bool) (rd rs1 rs2 : Reg)
  /-- FENCE_RV (R16): A standard FENCE or FENCE.TSO, mapped to a system-scope fence of the device memory model. -/
  | fenceRv (fm pred succ : BitVec 4) (rd rs1 : Reg)
  /-- FENCE_I (R16): Makes the context's later fetches see its own earlier stores. -/
  | fenceI (imm : BitVec 12) (rd rs1 : Reg)
  /-- SFENCE_VMA (R16): Orders the context after its page-table stores and drops entries of its core TLB. -/
  | sfenceVma (rs1 rs2 : Reg)
  /-- ADD (R171): Lane integer add, wrapping or saturating. -/
  | laneAdd (w : LaneWord)
  /-- SUB (R171): Lane integer subtract. -/
  | laneSub (w : LaneWord)
  /-- MUL (R171): Lane integer multiply, keeping the low N bits or saturating. -/
  | laneMul (w : LaneWord)
  /-- MULHI (R171): High half of the exact lane product. -/
  | mulhi (w : LaneWord)
  /-- MIN (R171): Lane integer minimum. -/
  | laneMin (w : LaneWord)
  /-- MAX (R171): Lane integer maximum. -/
  | laneMax (w : LaneWord)
  /-- ABS (R171): Lane integer absolute value. -/
  | laneAbs (w : LaneWord)
  /-- NEG (R171): Lane integer negate. -/
  | laneNeg (w : LaneWord)
  /-- ADD_LI (R169): ADD with IMM32 as the second operand. -/
  | addLi (w : LaneWord)
  /-- SUB_LI (R169): SUB with IMM32. -/
  | subLi (w : LaneWord)
  /-- MUL_LI (R169): MUL with IMM32. -/
  | mulLi (w : LaneWord)
  /-- MULHI_LI (R169): MULHI with IMM32. -/
  | mulhiLi (w : LaneWord)
  /-- MIN_LI (R169): MIN with IMM32. -/
  | minLi (w : LaneWord)
  /-- MAX_LI (R169): MAX with IMM32. -/
  | maxLi (w : LaneWord)
  /-- IMAD (R171): Lane integer multiply-add. -/
  | imad (w : LaneWord)
  /-- AND (R172): Lane bitwise AND. -/
  | laneAnd (w : LaneWord)
  /-- OR (R172): Lane bitwise OR. -/
  | laneOr (w : LaneWord)
  /-- XOR (R172): Lane bitwise XOR. -/
  | laneXor (w : LaneWord)
  /-- NOT (R172): Lane bitwise NOT. -/
  | laneNot (w : LaneWord)
  /-- ANDN (R172): Lane AND with the complement of b. -/
  | andn (w : LaneWord)
  /-- AND_LI (R169): AND with IMM32. -/
  | andLi (w : LaneWord)
  /-- OR_LI (R169): OR with IMM32. -/
  | orLi (w : LaneWord)
  /-- XOR_LI (R169): XOR with IMM32. -/
  | xorLi (w : LaneWord)
  /-- ANDN_LI (R169): ANDN with IMM32. -/
  | andnLi (w : LaneWord)
  /-- SHL (R173): Lane shift left. -/
  | shl (w : LaneWord)
  /-- SHR (R173): Lane logical shift right. -/
  | shr (w : LaneWord)
  /-- SHA (R173): Lane arithmetic shift right. -/
  | sha (w : LaneWord)
  /-- ROL (R173): Lane rotate left. -/
  | rol (w : LaneWord)
  /-- ROR (R173): Lane rotate right. -/
  | ror (w : LaneWord)
  /-- SHL_LI (R169): SHL with IMM32. -/
  | shlLi (w : LaneWord)
  /-- SHR_LI (R169): SHR with IMM32. -/
  | shrLi (w : LaneWord)
  /-- SHA_LI (R169): SHA with IMM32. -/
  | shaLi (w : LaneWord)
  /-- ROL_LI (R169): ROL with IMM32. -/
  | rolLi (w : LaneWord)
  /-- ROR_LI (R169): ROR with IMM32. -/
  | rorLi (w : LaneWord)
  /-- POPC (R174): Counts the set bits. -/
  | popc (w : LaneWord)
  /-- CLZ (R174): Counts the leading zeros. -/
  | clz (w : LaneWord)
  /-- CTZ (R174): Counts the trailing zeros. -/
  | ctz (w : LaneWord)
  /-- BREV (R174): Reverses the bit order. -/
  | brev (w : LaneWord)
  /-- BFX (R174): Extracts a bit field. -/
  | bfx (w : LaneWord)
  /-- BFI (R174): Inserts a bit field. -/
  | bfi (w : LaneWord)
  /-- FADD (R175): Lane floating-point add, rounded once. -/
  | fadd (w : LaneWord)
  /-- FSUB (R175): Lane floating-point subtract. -/
  | fsub (w : LaneWord)
  /-- FMUL (R175): Lane floating-point multiply. -/
  | fmul (w : LaneWord)
  /-- FMIN (R175): IEEE minimumNumber. -/
  | fmin (w : LaneWord)
  /-- FMAX (R175): IEEE maximumNumber. -/
  | fmax (w : LaneWord)
  /-- FABS (R175): Clears the sign. -/
  | fabs (w : LaneWord)
  /-- FNEG (R175): Inverts the sign. -/
  | fneg (w : LaneWord)
  /-- FADD_LI (R169): FADD with IMM32. -/
  | faddLi (w : LaneWord)
  /-- FSUB_LI (R169): FSUB with IMM32. -/
  | fsubLi (w : LaneWord)
  /-- FMUL_LI (R169): FMUL with IMM32. -/
  | fmulLi (w : LaneWord)
  /-- FMIN_LI (R169): FMIN with IMM32. -/
  | fminLi (w : LaneWord)
  /-- FMAX_LI (R169): FMAX with IMM32. -/
  | fmaxLi (w : LaneWord)
  /-- FMA (R175): Fused multiply-add a·b + c. -/
  | fma (w : LaneWord)
  /-- FMS (R175): Fused a·b − c. -/
  | fms (w : LaneWord)
  /-- FNMA (R175): Fused c − a·b. -/
  | fnma (w : LaneWord)
  /-- FDIV (R175): Lane floating-point divide. -/
  | fdiv (w : LaneWord)
  /-- FSQRT (R175): Lane floating-point square root. -/
  | fsqrt (w : LaneWord)
  /-- ICMP (R177): Integer compare into a predicate. -/
  | icmp (w : LaneWord)
  /-- FCMP (R177): Floating-point compare into a predicate. -/
  | fcmp (w : LaneWord)
  /-- FCLASS (R177): Writes the one-hot class code. -/
  | fclass (w : LaneWord)
  /-- ICMP_LI (R169): ICMP with IMM32. -/
  | icmpLi (w : LaneWord)
  /-- FCMP_LI (R169): FCMP with IMM32. -/
  | fcmpLi (w : LaneWord)
  /-- SEL (R178): Selects a or b by a predicate. -/
  | sel (w : LaneWord)
  /-- SEL_LI (R169): SEL with IMM32 as b. -/
  | selLi (w : LaneWord)
  /-- PAND (R179): Predicate AND. -/
  | pand (w : LaneWord)
  /-- POR (R179): Predicate OR. -/
  | por (w : LaneWord)
  /-- PXOR (R179): Predicate XOR. -/
  | pxor (w : LaneWord)
  /-- PNOT (R179): Predicate NOT. -/
  | pnot (w : LaneWord)
  /-- PMOV (R179): Sets the predicate bit where the register is non-zero. -/
  | pmov (w : LaneWord)
  /-- CVT (R180): Converts elements between types, with widening or narrowing selectors. -/
  | cvt (w : LaneWord)
  /-- QNT (R181): Quantises eight inputs to OQ4 by the quad procedure. -/
  | qnt (w : LaneWord)
  /-- ALN (R182): Computes a block exponent (mode 1) or applies it to integer mantissas (mode 0). -/
  | aln (w : LaneWord)
  /-- SHFL_IDX (R183): Reads a from the lane that b indexes. -/
  | shflIdx (w : LaneWord)
  /-- SHFL_XOR (R183): Reads a from lane L XOR c. -/
  | shflXor (w : LaneWord)
  /-- SHFL_UP (R183): Reads a from lane L − c. -/
  | shflUp (w : LaneWord)
  /-- SHFL_DN (R183): Reads a from lane L + c. -/
  | shflDn (w : LaneWord)
  /-- BCST (R183): Broadcasts lane c's value. -/
  | bcst (w : LaneWord)
  /-- VOTE_ANY (R184): OR of the predicate over the active lanes. -/
  | voteAny (w : LaneWord)
  /-- VOTE_ALL (R184): AND of the predicate over the active lanes. -/
  | voteAll (w : LaneWord)
  /-- VOTE_MASK (R184): Writes the active predicate bits as a 64-bit mask. -/
  | voteMask (w : LaneWord)
  /-- REDUCE (R186): Fixed pairwise tree reduction over the lanes. -/
  | reduce (w : LaneWord)
  /-- SCAN (R187): Fixed doubling-network prefix scan. -/
  | scan (w : LaneWord)
  /-- MOV (R188): Lane register move. -/
  | mov (w : LaneWord)
  /-- MOVU (R188): Moves a uniform register into every active lane. -/
  | movu (w : LaneWord)
  /-- MOVX (R188): Writes 1 or 0 from a predicate bit. -/
  | movx (w : LaneWord)
  /-- MOVI (R188): Moves the IMM32 immediate. -/
  | movi (w : LaneWord)
  /-- KRD (R191): Reads an accumulator row into a lane register. -/
  | krd (w : LaneWord)
  /-- KWR (R191): Writes a lane register into an accumulator row. -/
  | kwr (w : LaneWord)
  /-- LFM_RD (R189): Reads the lane float-mode state. -/
  | lfmRd (w : LaneWord)
  /-- LFM_WR (R189): Writes the lane float-mode state. -/
  | lfmWr (w : LaneWord)
  /-- SFX (R328): Enters a special function into the queue under a token. -/
  | sfx (fn : BitVec 8) (w : LaneWord)
  /-- SFX_WAIT (R329): Holds the group until the named tokens arrive. -/
  | sfxWait (w : LaneWord)
  /-- RSV_SEED (R224): Sets the draw key and zeroes the counter. -/
  | rsvSeed (w : LaneWord)
  /-- RSV_UPD (R224): Streams one weighted candidate into the reservoir. -/
  | rsvUpd (w : LaneWord)
  /-- RSV_MRG (R225): Merges a finalised reservoir image. -/
  | rsvMrg (w : LaneWord)
  /-- RSV_FIN (R224): Finalises the contribution weight W. -/
  | rsvFin (w : LaneWord)
  /-- RSV_GET (R224): Copies the reservoir to four registers, optionally clearing it. -/
  | rsvGet (w : LaneWord)
  /-- RSV_DRAW (R224): Returns one draw of the lane's counter-based generator. -/
  | rsvDraw (w : LaneWord)
  /-- LD (R196): Plain lane load through a buffer record. -/
  | ld (w : LaneWord)
  /-- ST (R196): Plain lane store through a buffer record. -/
  | st (w : LaneWord)
  /-- STN (R278): Atomic nibble store. -/
  | stn (w : LaneWord)
  /-- ATOM_ADD (R280): Lane atomic add. -/
  | atomAdd (w : LaneWord)
  /-- ATOM_SWAP (R280): Lane atomic swap. -/
  | atomSwap (w : LaneWord)
  /-- ATOM_AND (R280): Lane atomic AND. -/
  | atomAnd (w : LaneWord)
  /-- ATOM_OR (R280): Lane atomic OR. -/
  | atomOr (w : LaneWord)
  /-- ATOM_XOR (R280): Lane atomic XOR. -/
  | atomXor (w : LaneWord)
  /-- ATOM_MAX (R280): Lane atomic maximum. -/
  | atomMax (w : LaneWord)
  /-- ATOM_FADD (R280): Lane atomic floating-point add. -/
  | atomFadd (w : LaneWord)
  /-- ATOM_CAS (R281): Lane atomic compare-and-swap. -/
  | atomCas (w : LaneWord)
  /-- LDS (R277): Single-copy atomic lane load with order and declared use. -/
  | lds (w : LaneWord)
  /-- STS (R277): Single-copy atomic lane store with order and declared use. -/
  | sts (w : LaneWord)
  /-- FENCE (R286): Wave-wide fence of the given order and scope. -/
  | fence (w : LaneWord)
  /-- CWB (R287): Lane range write-back over the union of the lanes' ranges. -/
  | cwb (w : LaneWord)
  /-- CINV (R287): Lane range invalidate. -/
  | cinv (w : LaneWord)
  /-- CFLUSH (R287): Lane range write-back and invalidate. -/
  | cflush (w : LaneWord)
  /-- STQ (R288): Lane write-with-enqueue, one per active lane. -/
  | stq (w : LaneWord)
  /-- PFH (R289): Prefetches lines into the L1 or the home slice. -/
  | pfh (w : LaneWord)
  /-- TEX_SMP (R389): Filtered texture sample from a VRB texture. -/
  | texSmp (w : LaneWord)
  /-- TEX_FCH (R388): Texel fetch by integer coordinates. -/
  | texFch (w : LaneWord)
  /-- BRA (R202): Predicated branch that may diverge and create a reconvergence record. -/
  | bra (w : LaneWord)
  /-- BRX (R204): Indirect branch that splits lanes into target sets. -/
  | brx (w : LaneWord)
  /-- RECONV (R206): A group arrives at its reconvergence point and merges when the record completes. -/
  | reconv (w : LaneWord)
  /-- EXIT (R207): Removes the active lanes and discharges their join duties. -/
  | exit (w : LaneWord)
  /-- MIG (R208): Turns the active lanes into bound strand continuations through migration blocks. -/
  | mig (w : LaneWord)
  /-- BAR_ARV (R210): Records the group's arrival and completes a phase when every wave has arrived. -/
  | barArv (w : LaneWord)
  /-- BAR_WAIT (R211): Stalls while the wave's phase is held. -/
  | barWait (w : LaneWord)
  /-- SAFE (R213): No-op that carries a safe mark or a wait. -/
  | safe (w : LaneWord)
  /-- YIELD (R213): Ends the wave's greedy turn. -/
  | yield (w : LaneWord)
  /-- NOP (R213): No operation. -/
  | nop (w : LaneWord)
  /-- SPAWN (R214): Each active lane enqueues one child continuation. -/
  | spawn (w : LaneWord)
  /-- FWAIT (R216): Lanes take a ready future's value or leave the wave as continuation waiters. -/
  | fwait (w : LaneWord)
  /-- SEND (R217): Each active lane sends one message. -/
  | send (w : LaneWord)
  /-- MLD (R340): Releases and queues a B tile load into a macro's idle bank. -/
  | mld (w : LaneWord)
  /-- MMA_G (R343): A gang member arrives at the rendezvous latch with its format and place words. -/
  | mmaG (w : LaneWord)
  /-- ACC_ZERO (R346): Zeroes accumulator rows. -/
  | accZero (w : LaneWord)
  /-- RING_ADV (R347): Releases and marks a ring stage filled. -/
  | ringAdv (w : LaneWord)
  /-- RING_WAIT (R348): Waits for free stages and returns the next stage to fill. -/
  | ringWait (w : LaneWord)
  /-- BLM_EMIT (R370): Sends the lanes' event words after a release. -/
  | blmEmit (w : LaneWord)
  /-- BLM_READ (R371): Returns a bank status value. -/
  | blmRead (w : LaneWord)
  /-- BLM_ADVANCE (R371): BLM.WRITE sel 0: advances the horizon and drains. -/
  | blmAdvance (w : LaneWord)
  /-- BLM_FLUSH (R371): BLM.WRITE sel 1: delivers every queued event. -/
  | blmFlush (w : LaneWord)
  /-- BLM_CLEAR (R371): BLM.WRITE sel 2: clears LATE, FIRES and DROP. -/
  | blmClear (w : LaneWord)
  /-- RESV (R377): Reserves node records per lane, returning handles or 0. -/
  | resv (w : LaneWord)
  /-- COMMIT (R378): Releases and passes records to their node, enqueuing continuations for program nodes. -/
  | commit (w : LaneWord)
  /-- CANCEL (R378): Frees reserved or delivered records. -/
  | cancel (w : LaneWord)
  /-- EMIT_V (R380): Writes a mesh vertex, or counts an overflow. -/
  | emitV (w : LaneWord)
  /-- EMIT_P (R380): Writes a mesh primitive, or counts an overflow. -/
  | emitP (w : LaneWord)
  /-- STANDARD_INSTRUCTION (R10): A standard RV64IMAFD computational, floating-point, branch, jump or CSR instruction executes on a hart, or an unimplemented or reserved encoding raises illegal instruction. -/
  | standardInstruction (op : RvOp)
  /-- RESERVED_LANE_OPCODE (R165): A lane word with a reserved OP, or a FUNC that names no member of its family, raises ILLEGAL_OPCODE precisely at decode. -/
  | reservedLaneOpcode (w : BitVec 96)
  /-- MESSAGE_DEPART (R103): A message leaves the send queue for the network and frees its entry. -/
  | messageDepart (queue : Nat) (n : Nat)
  /-- MESSAGE_ARRIVAL (R416): A message reaches its destination inbox, mailbox deposit or overflow queue. -/
  | messageArrival (n : Nat)
  /-- LANE_SIGNAL_LAND (R159): A lane instruction's semaphore signal lands after its completion, or raises SEM_OVERFLOW. -/
  | laneSignalLand (waves : List Nat)
  /-- LANE_MEMORY_COMPLETE (R196): The data of a lane access returns and is written, or the access is performed. -/
  | laneMemoryComplete (wave : Nat) (n : Nat)
  /-- SFX_RESULT (R328): A special-function result arrives, writes vd and lfm and frees its token. -/
  | sfxResult (wave : Nat) (tok : Nat)
  /-- MIGRATION_BLOCK_GRANT (R138): A stalled MIG or mig.w proceeds once enough migration blocks are free. -/
  | migrationBlockGrant (crew : Nat)
  /-- MLD_START (R339): A queued MLD starts once its macro's earlier commands allow. -/
  | mldStart (cluster : Nat) (n : Nat)
  /-- MLD_COMPLETE (R340): The tile is in the bank; the command frees its entry and signals. -/
  | mldComplete (cluster : Nat) (n : Nat)
  /-- MMA_LATCH (R343): Once all gang members have arrived, the latch checks and accepts or refuses the command. -/
  | mmaLatch (crew : Nat)
  /-- MMA_START (R344): The command waits for a filled stage, acquires, swaps banks and accumulates. -/
  | mmaStart (cluster : Nat)
  /-- MMA_COMPLETE (R345): Every accumulator element has been written; each member's signal is applied. -/
  | mmaComplete (cluster : Nat)
  /-- LAUNCH_RECORD_TAKE (R232): The front end acquires and checks the next launch record of a queue. -/
  | launchRecordTake (q : Nat)
  /-- CREW_ADMIT (R239): A cluster admits an admission-queue head that fits and zeroes its units. -/
  | crewAdmit (cluster : Nat) (cls : Nat)
  /-- ADMISSION_AGE_LIMIT (R239): A class 1–3 head that has waited 262,144 clk blocks the admission of other class 1–3 crews. -/
  | admissionAgeLimit (cluster : Nat)
  /-- WAVE_START (R125): The front end starts a crew wave, reading its buffer-record copies. -/
  | waveStart (crew : Nat) (rank : Nat)
  /-- FRONT_END_STRAND_START (R125): The front end starts a crew strand at the kernel entry. -/
  | frontEndStrandStart (crew : Nat) (rank : Nat)
  /-- CONTINUATION_POP (R242): A freed wave slot or context takes a queued continuation and starts it. -/
  | continuationPop (cluster : Nat) (slot : UnitSlot)
  /-- ATOMISER_ARRIVAL (R140): A lane continuation or mig.w arrival joins or opens a gather. -/
  | atomiserArrival (cluster : Nat)
  /-- GATHER_WINDOW_EXPIRY (R140): A gather closes 4,096 clk after it opened. -/
  | gatherWindowExpiry (cluster : Nat)
  /-- ATOMISER_WAVE_FORM (R140): A closed gather becomes a wave when a crew slot frees. -/
  | atomiserWaveForm (cluster : Nat) (n : Nat)
  /-- FRAGMENT_AGE_LIMIT (R136): A fragment that has waited 1,024 clk is swapped into the secondary slot. -/
  | fragmentAgeLimit (wave : Nat)
  /-- GTO_AGEING_LIMIT (R247): A wave current for 1,024 clk is switched out under greedy-then-oldest. -/
  | gtoAgeingLimit (engine : Nat)
  /-- CREW_END (R124): A crew with no units, continuations, gathers or blocks ends and releases its resources. -/
  | crewEnd (crew : Nat)
  /-- HELD_MESSAGE_DELIVERY (R102): Messages held at the front end are delivered once the target crew is resident. -/
  | heldMessageDelivery (crew : Nat)
  /-- HANDLER_START (R402): A handler message starts its handler at the destination context and frees its sender's entry. -/
  | handlerStart (strand : Nat)
  /-- STQ_TARGET (R115): The target validates the pages, writes the payload, enqueues the continuation and signals. -/
  | stqTarget (n : Nat)
  /-- ENGINE_KICK_START (R320): The engine takes the next kick, acquires, checks the record and enters the microcode. -/
  | engineKickStart (engine : Nat)
  /-- COPY_MOVE (R324): Copy-channel MOVE of LEN bytes. -/
  | copyMove (engine : Nat)
  /-- COPY_GATHER (R324): Copy-channel indexed gather. -/
  | copyGather (engine : Nat)
  /-- COPY_SCATTER (R324): Copy-channel indexed scatter. -/
  | copyScatter (engine : Nat)
  /-- COPY_CONVERT (R324): Copy-channel type conversion. -/
  | copyConvert (engine : Nat)
  /-- COPY_DELTA (R324): Copy-channel decode of VRB blocks. -/
  | copyDelta (engine : Nat)
  /-- COPY_RLE (R324): Copy-channel run-length decode. -/
  | copyRle (engine : Nat)
  /-- BLOOM_EVENT_ARRIVAL (R366): An event is dropped or accepted into its bank queue, delivered and drained. -/
  | bloomEventArrival (n : Nat)
  /-- BLOOM_FANOUT_JOB (R368): A copy channel sends a firing's fan-out event list. -/
  | bloomFanoutJob (engine : Nat)
  /-- RASTER_MESH (R381): The rasteriser takes a committed mesh record and culls and covers its primitives. -/
  | rasterMesh (cluster : Nat)
  /-- RASTER_BLOCK_EMIT (R381): Once both records are reserved, the rasteriser writes the blend and fragment records and commits. -/
  | rasterBlockEmit (cluster : Nat)
  /-- BLEND_TICKET (R383): The blender applies or passes a block's head ticket and frees its record. -/
  | blendTicket (node : Nat) (block : Nat)
  /-- TRAVERSE_RAY (R385): The traversal unit tests a ray against a box node and commits a hit record. -/
  | traverseRay (cluster : Nat)
  /-- INTERRUPT_TAKE (R27): A pending enabled interrupt traps the context into S. -/
  | interruptTake (h : HartId)
  /-- TIMER_COMPARE (R25): time reaching dtimecmp sets sip.STIP. -/
  | timerCompare (h : HartId)
  /-- CREW_SAVE (R405): When every unit has stopped, the crew is saved, released and STATE 1 is written. -/
  | crewSave (crew : Nat)
  /-- PREEMPT_DEADLINE (R406): A save not done 420,000 clk after REQ kills the crew. -/
  | preemptDeadline (cluster : Nat)
  /-- INVALIDATION_RECEIVE (R271): A cluster drops matching translations and index cache entries. -/
  | invalidationReceive (inv : Nat) (cluster : Nat)
  /-- INVALIDATION_ACK (R272): A cluster acknowledges once its accesses through dropped translations are done. -/
  | invalidationAck (inv : Nat) (cluster : Nat)
  /-- HOTNESS_HALVING (R261): Every 4,194,304 clk all counters of a die halve. -/
  | hotnessHalving (die : Nat)
  /-- QUANTUM_FLUSH (R304): A quantum update is performed by its 4,096 clk deadline. -/
  | quantumFlush (n : Nat)
  /-- WQ_DOORBELL (R230): A write to WQTAIL advances the producer count of a work queue. -/
  | wqDoorbell (q : Nat) (v : Dword)
  /-- DMGANG_WRITE (R338): Sets or releases the crew's gang and macro window. -/
  | dmgangWrite (cluster : Nat) (v : Dword)
  /-- DMRING_WRITE (R338): Sets a ring descriptor and resets its counters. -/
  | dmringWrite (cluster : Nat) (ring : Nat) (v : Dword)
  /-- MATRIX_KILLED (R350): An operand fault kills the issuing crew, scrubs its state and logs the kill. -/
  | matrixKilled (cluster : Nat) (crew : Nat) (code : Nat) (addr : Dword)
  /-- SILLAGE_INSTALL (R353): A dsprog write copies, checks and installs a mask program. -/
  | sillageInstall (cluster : Nat) (addr : Dword)
  /-- SILLAGE_TILE_REQUEST (R357): A dstile write classes the request's tiles and writes the masks and class bytes. -/
  | sillageTileRequest (cluster : Nat) (addr : Dword)
  /-- BLOOM_INSTALL (R365): A dbbank write installs a bank and its dynamics. -/
  | bloomInstall (cluster : Nat) (addr : Dword)
  /-- BLOOM_UNINSTALL (R365): A dbfree write uninstalls a bank and discards its queue. -/
  | bloomUninstall (cluster : Nat) (v : Dword)
  /-- LANE_HANDLER_RUN (R397): A dwhrun write runs the supervisor's lane handler over the wave's lanes. -/
  | laneHandlerRun (wave : Nat) (offset : Dword)
  /-- PREEMPT_REQUEST (R404): A PREEMPT write asks for a crew to be saved, or refuses. -/
  | preemptRequest (cluster : Nat) (v : Dword)
  /-- RESUME (R409): A RESUME write places, admits and restores a saved crew. -/
  | resume (v : Dword)
  /-- CREW_KILL (R410): Stops the crew's units, frees and scrubs its resources and logs the kill. -/
  | crewKill (crew : Nat) (code : Nat)
  /-- DOORBELL (R427): A host DBELL write sets sip.SSIP of the named context. -/
  | doorbell (v : Dword)
  /-- HOST_INTERRUPT (R427): A HIRQ write sends the MSI-X vector to the host. -/
  | hostInterrupt (v : Dword)
  /-- WECTL_WRITE (R244): Sets the issue policy and restarts the ageing count at the next clk. -/
  | wectlWrite (engine : Nat) (v : Dword)
  /-- DLSPLIT_WRITE (R254): Applies a new local SRAM split when the core is alone, dropping and zeroing. -/
  | dlsplitWrite (h : HartId) (v : Dword)
  /-- DLGROUP_WRITE (R254): Applies a new victim-cache group under the same condition. -/
  | dlgroupWrite (h : HartId) (v : Dword)
  /-- REGISTER_WRITE (R7): A write to a CSR or device register that has no row of its own, by its access codes. -/
  | registerWrite (t : RegTarget) (v : Dword)
  /-- PAGE_WALK (R266): A walker walks the page table for a TLB miss and fills or faults. -/
  | pageWalk (h : HartId) (va : Dword) (kind : AccessKind)
  /-- TOKEN_REQUEST (R312): The home and the holders answer a transient token request. -/
  | tokenRequest (cluster : Nat) (granule : Nat) (write : Bool)
  /-- PERSISTENT_REQUEST (R312): A request not satisfied in 2,048 clk becomes persistent. -/
  | persistentRequest (cluster : Nat) (granule : Nat) (write : Bool)
  /-- TOKEN_EVICTION (R311): An evicting L1 returns its tokens, and its data if it owns a dirty line. -/
  | tokenEviction (cluster : Nat) (granule : Nat)
  /-- HOME_RECALL (R317): An uncorrectable home-record error recalls every token and restores or poisons the granule. -/
  | homeRecall (granule : Nat)
  /-- HOST_SNOOP (R424): The home gathers the tokens and answers a host CXL.cache snoop. -/
  | hostSnoop (line : Nat) (invalidate : Bool)
  /-- HOST_MEM_ACCESS (R425): A host CXL.mem read or write is served at the home and filtered. -/
  | hostMemAccess (write : Bool) (addr : Nat) (data : List Byte)
  /-- BACK_INVALIDATION_RESPONSE (R426): The host's snoop response arrives; a racing host request makes the home reissue the snoop. -/
  | backInvalidationResponse (line : Nat)
  /-- FLIT_REPLAY (R419): A CRC mismatch replays the flit and every later flit. -/
  | flitReplay (link : Nat) (seq : Nat)
  /-- LINK_RETRAIN (R419): A module failing 16 replays retrains or is dropped. -/
  | linkRetrain (pair : Nat) (module : Nat) (ok : Bool)
  /-- HALHEL_FAILOVER (R421): A failed Halhel link moves traffic to another link. -/
  | halhelFailover (link : Nat)
  /-- ECC_CORRECTED (R412): A corrected error is counted and logged at a limited rate. -/
  | eccCorrected (cluster : Nat) (addr : Nat)
  /-- ECC_UNCORRECTED (R412): An uncorrected error poisons the affected words. -/
  | eccUncorrected (addr : Nat)
  /-- CORE_RESET (R32): Idles every context and resets the CSRs. -/
  | coreReset (core : Nat)
  /-- ATTESTATION (R433): Answers a host nonce with signed digests. -/
  | attestation (nonce : List Byte)
  /-- GOVERNOR_WINDOW (R434): Each 1 ms window the governor sets STEP to keep power within the cap. -/
  | governorWindow (watts : Nat) (tj : Nat)
  /-- THERMAL_TRIP (R434): A junction at 110 °C stops every clock and ends every launch. -/
  | thermalTrip (tj : Nat)
  /-- PEER_WINDOW_ACCESS (R422): A fill, write-back or atomic from a peer package arrives over a Halhel link and is performed as a system-scope access at the line's home, collecting its tokens. -/
  | peerWindowAccess (op : PeerOp) (addr : Nat) (data : List Byte)
  /-- THERMAL_THROTTLE (R434): The hottest junction reaching 100 °C makes the governor raise STEP, with GOVSTAT.CAUSE thermal. -/
  | thermalThrottle (tj : Nat)
  /-- CONT_EXIT (R100): Drains the sends, releases, decrements the join counter and frees the context; on an engine it ends the kick with a completion word. -/
  | contExit
  /-- MIG_W (R106): Migrates the strand into a lane continuation through a migration block and hands it to the Atomiser. -/
  | migW
  /-- SCALAR_YIELD (R116): Gives up the hart's issue turn, or the wave's lane issue turn on a uniform hart. -/
  | scalarYield
  /-- SCALAR_SAFE (R116): Marks a safe point that the scheduler honours when the table names it. -/
  | scalarSafe
  /-- ECALL (R29): Raises an environment-call exception to the S handler. -/
  | ecall
  /-- EBREAK (R29): Raises a breakpoint exception with dcause BREAK. -/
  | ebreak
  /-- SRET (R398): Returns from S and clears TN; on a uniform hart with ACT set it returns the wave's lanes. -/
  | sret
  /-- WFI (R12): Parks the context in S until an interrupt is pending. -/
  | wfi
  /-- CREW_EXPAND (R233): Each clk the front end expands one crew of a chosen queue and places it. -/
  | crewExpand
  /-- IMAGE_LOAD (R430): A load request verifies, places, relocates and distributes an image. -/
  | imageLoad
  /-- IMAGE_UNLOAD (R430): An unload request frees an image number. -/
  | imageUnload
  /-- BRING_UP (R432): Verifies, trains, loads the boot blob and starts the bring-up context. -/
  | bringUp
deriving DecidableEq, Repr

end Sys2Proof
end

