-- ==== Sys2Proof/Decode.lean ====
section
/-! DEFINITION. Decoding and encoding: the published RISC-V encodings of R10, the custom opcodes of R64 to R69 and the
lane words of R144 to R164. Decoding is total. A scalar word that encodes no instruction gives
`standardInstruction (illegal w)`, a lane word with a reserved OP or FUNC gives `reservedLaneOpcode w`: both are steps
whose meaning is the trap of R10, R69 or R165. -/

namespace Sys2Proof

/-- The word read as no instruction. -/
def illegal (w : Word) : Instr := .standardInstruction (.illegal w)

namespace Dec

def rd (w : Word) : Reg := w.extractLsb' 7 5
def rs1 (w : Word) : Reg := w.extractLsb' 15 5
def rs2 (w : Word) : Reg := w.extractLsb' 20 5
def rs3 (w : Word) : Reg := w.extractLsb' 27 5
def f3 (w : Word) : BitVec 3 := w.extractLsb' 12 3
def f7 (w : Word) : BitVec 7 := w.extractLsb' 25 7
def imm12 (w : Word) : BitVec 12 := w.extractLsb' 20 12
def immS (w : Word) : BitVec 12 := w.extractLsb' 25 7 ++ w.extractLsb' 7 5
/-- Offset bits [12:1] of a B-format branch. -/
def immB (w : Word) : BitVec 12 :=
  w.extractLsb' 31 1 ++ w.extractLsb' 7 1 ++ w.extractLsb' 25 6 ++ w.extractLsb' 8 4
/-- Offset bits [20:1] of a J-format jump. -/
def immJ (w : Word) : BitVec 20 :=
  w.extractLsb' 31 1 ++ w.extractLsb' 12 8 ++ w.extractLsb' 20 1 ++ w.extractLsb' 21 10

/-- custom-0: semaphores and futures (R65). -/
def custom0 (w : Word) : Instr :=
  match (f3 w).toNat, (f7 w).toNat with
  | 0, 0 => .semWait (rd w) (rs1 w) (rs2 w)
  | 0, 1 => .semSig (rd w) (rs1 w) (rs2 w)
  | 0, 2 => .semTry (rd w) (rs1 w) (rs2 w)
  | 0, 3 => if rs2 w = 0 then .semRead (rd w) (rs1 w) else illegal w
  | 1, _ => if rs1 w = 0 then .semWaiti (rd w) (w.extractLsb' 20 8) (w.extractLsb' 28 4) else illegal w
  | 2, _ => if rs1 w = 0 then .semSigi (rd w) (w.extractLsb' 20 8) (w.extractLsb' 28 4) else illegal w
  | 3, 0 => if rs1 w = 0 ∧ rs2 w = 0 then .futNew (rd w) else illegal w
  | 3, 1 => if rd w = 0 then .futSet (rs1 w) (rs2 w) else illegal w
  | 3, 2 => if rs2 w = 0 then .futWait (rd w) (rs1 w) else illegal w
  | 3, 3 => if rs2 w = 0 then .futPoll (rd w) (rs1 w) else illegal w
  | 3, 4 => if rd w = 0 ∧ rs2 w = 0 then .futPoison (rs1 w) else illegal w
  | 3, 5 => if rd w = 0 ∧ rs2 w = 0 then .futFree (rs1 w) else illegal w
  | _, _ => illegal w

/-- custom-1: continuations, messages, mailboxes, migration (R65). -/
def custom1 (w : Word) : Instr :=
  let noRegs := rd w = 0 ∧ rs1 w = 0 ∧ rs2 w = 0
  let mbHigh := w.extractLsb' 23 9 = 0#9
  match (f3 w).toNat, (f7 w).toNat with
  | 0, 0 => if rd w = 0 then .contSpawn (rs1 w) (rs2 w) else illegal w
  | 0, 1 => if noRegs then .contExit else illegal w
  | 0, 2 => .joinAdd (rd w) (rs1 w) (rs2 w)
  | 1, 0 => if rd w = 0 then .msgSend (rs1 w) (rs2 w) else illegal w
  | 1, 1 => if rd w = 0 then .msgReply (rs1 w) (rs2 w) else illegal w
  | 1, 2 => if rd w = 0 then .msgSendh (rs1 w) (rs2 w) else illegal w
  | 1, 3 => if rs2 w = 0 then .msgRecv (rd w) (rs1 w) else illegal w
  | 2, _ => if rs1 w = 0 ∧ mbHigh then .mbRead (rd w) (w.extractLsb' 20 3) else illegal w
  | 3, _ => if rd w = 0 ∧ mbHigh then .mbWrite (w.extractLsb' 20 3) (rs1 w) else illegal w
  | 4, _ => if mbHigh then .mbSwap (rd w) (w.extractLsb' 20 3) (rs1 w) else illegal w
  | 5, 0 => if noRegs then .migW else illegal w
  | _, _ => illegal w

/-- custom-2: engines, coherence, hotness, fences, write-with-enqueue, hints (R65). -/
def custom2 (w : Word) : Instr :=
  let noRegs := rd w = 0 ∧ rs1 w = 0 ∧ rs2 w = 0
  match (f3 w).toNat, (f7 w).toNat with
  | 0, _ => if rd w = 0 ∧ w.extractLsb' 28 4 = 0#4 then .engKick (rs1 w) (rs2 w) (w.extractLsb' 25 3) else illegal w
  | 1, 0 => if rs2 w = 0 then .engRdv (rd w) (rs1 w) else illegal w
  | 2, 0 => if rs2 w = 0 then .cohDecl (rd w) (rs1 w) else illegal w
  | 2, 1 => if rd w = 0 ∧ rs2 w = 0 then .cohRel (rs1 w) else illegal w
  | 3, 0 => if rd w = 0 then .scalarCwb (rs1 w) (rs2 w) else illegal w
  | 3, 1 => if rd w = 0 then .scalarCinv (rs1 w) (rs2 w) else illegal w
  | 3, 2 => if rd w = 0 then .scalarCflush (rs1 w) (rs2 w) else illegal w
  | 4, 0 => if rs2 w = 0 then .hotRead (rd w) (rs1 w) else illegal w
  | 4, 1 => if rd w = 0 ∧ rs2 w = 0 then .hotClr (rs1 w) else illegal w
  | 5, _ => if noRegs ∧ w.extractLsb' 25 1 = 0#1 then .fenceS (w.extractLsb' 30 2) (w.extractLsb' 26 4) else illegal w
  | 6, 0 => if rd w = 0 then .scalarStq (rs1 w) (rs2 w) else illegal w
  | 7, 0 => if noRegs then .scalarYield else illegal w
  | 7, 1 => if noRegs then .scalarSafe else illegal w
  | 7, 2 => if rd w = 0 then .tlbInv (rs1 w) (rs2 w) else illegal w
  | _, _ => illegal w

def amoArgs (w : Word) : AmoArgs :=
  { scope := w.extractLsb' 30 2, sem := w.extractLsb' 26 4, dbl := w.getLsbD 25, rs2 := rs2 w, rs1 := rs1 w, rd := rd w }

/-- custom-3: scoped atomics (R68). -/
def custom3 (w : Word) : Instr :=
  match (f3 w).toNat with
  | 0 => .amoAdd (amoArgs w)
  | 1 => .amoSwap (amoArgs w)
  | 2 => .amoAnd (amoArgs w)
  | 3 => .amoOr (amoArgs w)
  | 4 => .amoXor (amoArgs w)
  | 5 => .amoMax (amoArgs w)
  | 6 => .amoFadd (amoArgs w)
  | _ => .amoCas (amoArgs w)

def load (w : Word) : Instr :=
  let l (x : LoadWidth) := Instr.standardLoadStore (.load x (rd w) (rs1 w) (imm12 w))
  match (f3 w).toNat with
  | 0 => l .b | 1 => l .h | 2 => l .w | 3 => l .d | 4 => l .bu | 5 => l .hu | 6 => l .wu | _ => illegal w

def store (w : Word) : Instr :=
  let l (x : StoreWidth) := Instr.standardLoadStore (.store x (rs1 w) (rs2 w) (immS w))
  match (f3 w).toNat with
  | 0 => l .b | 1 => l .h | 2 => l .w | 3 => l .d | _ => illegal w

def loadFp (w : Word) : Instr :=
  match (f3 w).toNat with
  | 2 => .standardLoadStore (.fload false (rd w) (rs1 w) (imm12 w))
  | 3 => .standardLoadStore (.fload true (rd w) (rs1 w) (imm12 w))
  | _ => illegal w

def storeFp (w : Word) : Instr :=
  match (f3 w).toNat with
  | 2 => .standardLoadStore (.fstore false (rs1 w) (rs2 w) (immS w))
  | 3 => .standardLoadStore (.fstore true (rs1 w) (rs2 w) (immS w))
  | _ => illegal w

def miscMem (w : Word) : Instr :=
  match (f3 w).toNat with
  | 0 => .fenceRv (w.extractLsb' 28 4) (w.extractLsb' 24 4) (w.extractLsb' 20 4) (rd w) (rs1 w)
  | 1 => .fenceI (imm12 w) (rd w) (rs1 w)
  | _ => illegal w

def opImm (w : Word) : Instr :=
  let i (o : ImmOp) := Instr.standardInstruction (.opImm o (rd w) (rs1 w) (imm12 w))
  let s (o : ShOp) := Instr.standardInstruction (.shImm o (rd w) (rs1 w) (w.extractLsb' 20 6))
  let u (o : UnOp) := Instr.standardInstruction (.un o (rd w) (rs1 w))
  match (f3 w).toNat with
  | 0 => i .addi
  | 1 =>
    if w.extractLsb' 26 6 = 0#6 then s .slli else
    match (imm12 w).toNat with
    | 0x600 => u .clz | 0x601 => u .ctz | 0x602 => u .cpop | 0x604 => u .sextB | 0x605 => u .sextH | _ => illegal w
  | 2 => i .slti
  | 3 => i .sltiu
  | 4 => i .xori
  | 5 =>
    match (w.extractLsb' 26 6).toNat with
    | 0 => s .srli
    | 0x10 => s .srai
    | 0x18 => s .rori
    | _ => match (imm12 w).toNat with | 0x6B8 => u .rev8 | 0x287 => u .orcB | _ => illegal w
  | 6 => i .ori
  | _ => i .andi

def opImm32 (w : Word) : Instr :=
  let s (o : ShWOp) := Instr.standardInstruction (.shImmW o (rd w) (rs1 w) (rs2 w))
  let u (o : UnOp) := Instr.standardInstruction (.un o (rd w) (rs1 w))
  match (f3 w).toNat with
  | 0 => .standardInstruction (.addiw (rd w) (rs1 w) (imm12 w))
  | 1 =>
    if w.extractLsb' 26 6 = 2#6 then .standardInstruction (.shImm .slliUw (rd w) (rs1 w) (w.extractLsb' 20 6)) else
    if f7 w = 0 then s .slliw else
    match (imm12 w).toNat with | 0x600 => u .clzw | 0x601 => u .ctzw | 0x602 => u .cpopw | _ => illegal w
  | 5 => match (f7 w).toNat with | 0 => s .srliw | 0x20 => s .sraiw | 0x30 => s .roriw | _ => illegal w
  | _ => illegal w

/-- The operation of the OP opcode by funct7 and funct3. -/
def aluOp (f7 f3 : Nat) : Option AluOp :=
  match f7, f3 with
  | 0, 0 => some .add | 0, 1 => some .sll | 0, 2 => some .slt | 0, 3 => some .sltu
  | 0, 4 => some .xor | 0, 5 => some .srl | 0, 6 => some .or | 0, 7 => some .and
  | 0x20, 0 => some .sub | 0x20, 5 => some .sra | 0x20, 4 => some .xnor | 0x20, 6 => some .orn | 0x20, 7 => some .andn
  | 1, 0 => some .mul | 1, 1 => some .mulh | 1, 2 => some .mulhsu | 1, 3 => some .mulhu
  | 1, 4 => some .div | 1, 5 => some .divu | 1, 6 => some .rem | 1, 7 => some .remu
  | 5, 4 => some .min | 5, 5 => some .minu | 5, 6 => some .max | 5, 7 => some .maxu
  | 0x30, 1 => some .rol | 0x30, 5 => some .ror
  | 0x10, 2 => some .sh1add | 0x10, 4 => some .sh2add | 0x10, 6 => some .sh3add
  | _, _ => none

/-- The operation of the OP-32 opcode by funct7 and funct3. -/
def aluWOp (f7 f3 : Nat) : Option AluWOp :=
  match f7, f3 with
  | 0, 0 => some .addw | 0, 1 => some .sllw | 0, 5 => some .srlw
  | 0x20, 0 => some .subw | 0x20, 5 => some .sraw
  | 1, 0 => some .mulw | 1, 4 => some .divw | 1, 5 => some .divuw | 1, 6 => some .remw | 1, 7 => some .remuw
  | 4, 0 => some .addUw
  | 0x10, 2 => some .sh1addUw | 0x10, 4 => some .sh2addUw | 0x10, 6 => some .sh3addUw
  | 0x30, 1 => some .rolw | 0x30, 5 => some .rorw
  | _, _ => none

def op (w : Word) : Instr :=
  match aluOp (f7 w).toNat (f3 w).toNat with
  | some o => .standardInstruction (.op o (rd w) (rs1 w) (rs2 w))
  | none => illegal w

def op32 (w : Word) : Instr :=
  match aluWOp (f7 w).toNat (f3 w).toNat with
  | some o => .standardInstruction (.opW o (rd w) (rs1 w) (rs2 w))
  | none => if f7 w = 4 ∧ f3 w = 4 ∧ rs2 w = 0 then .standardInstruction (.un .zextH (rd w) (rs1 w)) else illegal w

def amoOp (f5 : Nat) : Option AmoOp :=
  match f5 with
  | 1 => some .swap | 0 => some .add | 4 => some .xor | 0xC => some .and | 8 => some .or
  | 0x10 => some .min | 0x14 => some .max | 0x18 => some .minu | 0x1C => some .maxu | _ => none

def amo (w : Word) : Instr :=
  let aq := w.getLsbD 26
  let rl := w.getLsbD 25
  let go (d : Bool) : Instr :=
    match (rs3 w).toNat with
    | 2 => if rs2 w = 0 then .lr d aq rl (rd w) (rs1 w) else illegal w
    | 3 => .sc d aq rl (rd w) (rs1 w) (rs2 w)
    | f5 => match amoOp f5 with
      | some o => .standardAmo o d aq rl (rd w) (rs1 w) (rs2 w)
      | none => illegal w
  match (f3 w).toNat with
  | 2 => go false
  | 3 => go true
  | _ => illegal w

def fmaD (o : FmaOp) (w : Word) : Instr :=
  match (w.extractLsb' 25 2).toNat with
  | 0 => .standardInstruction (.fma o false (rd w) (rs1 w) (rs2 w) (rs3 w) (f3 w))
  | 1 => .standardInstruction (.fma o true (rd w) (rs1 w) (rs2 w) (rs3 w) (f3 w))
  | _ => illegal w

def intFmt (n : Nat) : Option IntFmt :=
  match n with
  | 0 => some .w | 1 => some .wu | 2 => some .l | 3 => some .lu | _ => none

def opFp (w : Word) : Instr :=
  let std := Instr.standardInstruction
  let dbl := w.getLsbD 25
  let r2 := (rs2 w).toNat
  if w.getLsbD 26 then illegal w else
  match (rs3 w).toNat with
  | 0x00 => std (.fop .add dbl (rd w) (rs1 w) (rs2 w) (f3 w))
  | 0x01 => std (.fop .sub dbl (rd w) (rs1 w) (rs2 w) (f3 w))
  | 0x02 => std (.fop .mul dbl (rd w) (rs1 w) (rs2 w) (f3 w))
  | 0x03 => std (.fop .div dbl (rd w) (rs1 w) (rs2 w) (f3 w))
  | 0x0B => if r2 = 0 then std (.fsqrt dbl (rd w) (rs1 w) (f3 w)) else illegal w
  | 0x04 => match (f3 w).toNat with
    | 0 => std (.fsgn .j dbl (rd w) (rs1 w) (rs2 w))
    | 1 => std (.fsgn .jn dbl (rd w) (rs1 w) (rs2 w))
    | 2 => std (.fsgn .jx dbl (rd w) (rs1 w) (rs2 w))
    | _ => illegal w
  | 0x05 => match (f3 w).toNat with
    | 0 => std (.fminmax false dbl (rd w) (rs1 w) (rs2 w))
    | 1 => std (.fminmax true dbl (rd w) (rs1 w) (rs2 w))
    | _ => illegal w
  | 0x14 => match (f3 w).toNat with
    | 2 => std (.fcmp .eq dbl (rd w) (rs1 w) (rs2 w))
    | 1 => std (.fcmp .lt dbl (rd w) (rs1 w) (rs2 w))
    | 0 => std (.fcmp .le dbl (rd w) (rs1 w) (rs2 w))
    | _ => illegal w
  | 0x18 => match intFmt r2 with
    | some t => std (.fcvtInt t dbl (rd w) (rs1 w) (f3 w))
    | none => illegal w
  | 0x1A => match intFmt r2 with
    | some t => std (.fcvtFrom t dbl (rd w) (rs1 w) (f3 w))
    | none => illegal w
  | 0x08 =>
    if dbl = false ∧ r2 = 1 then std (.fcvtFmt false (rd w) (rs1 w) (f3 w))
    else if dbl = true ∧ r2 = 0 then std (.fcvtFmt true (rd w) (rs1 w) (f3 w))
    else illegal w
  | 0x1C =>
    if r2 = 0 ∧ f3 w = 0 then std (.fmvToX dbl (rd w) (rs1 w))
    else if r2 = 0 ∧ f3 w = 1 then std (.fclass dbl (rd w) (rs1 w))
    else illegal w
  | 0x1E => if r2 = 0 ∧ f3 w = 0 then std (.fmvFromX dbl (rd w) (rs1 w)) else illegal w
  | _ => illegal w

def branchD (w : Word) : Instr :=
  let b (c : BrCond) := Instr.standardInstruction (.branch c (rs1 w) (rs2 w) (immB w))
  match (f3 w).toNat with
  | 0 => b .eq | 1 => b .ne | 4 => b .lt | 5 => b .ge | 6 => b .ltu | 7 => b .geu | _ => illegal w

def system (w : Word) : Instr :=
  let csr (o : CsrOp) (i : Bool) := Instr.standardInstruction (.csr o i (rd w) (rs1 w) (imm12 w))
  match (f3 w).toNat with
  | 0 =>
    if f7 w = 9 ∧ rd w = 0 then .sfenceVma (rs1 w) (rs2 w) else
    if rd w = 0 ∧ rs1 w = 0 then
      match (imm12 w).toNat with
      | 0 => .ecall | 1 => .ebreak | 0x102 => .sret | 0x105 => .wfi | _ => illegal w
    else illegal w
  | 1 => csr .rw false
  | 2 => csr .rs false
  | 3 => csr .rc false
  | 5 => csr .rw true
  | 6 => csr .rs true
  | 7 => csr .rc true
  | _ => illegal w

end Dec

/-- The instruction that a 32-bit scalar word encodes, by major opcode. -/
def decodeScalar (w : Word) : Instr :=
  match (w.extractLsb' 0 7).toNat with
  | 0x03 => Dec.load w
  | 0x07 => Dec.loadFp w
  | 0x0B => Dec.custom0 w
  | 0x0F => Dec.miscMem w
  | 0x13 => Dec.opImm w
  | 0x17 => .standardInstruction (.auipc (Dec.rd w) (w.extractLsb' 12 20))
  | 0x1B => Dec.opImm32 w
  | 0x23 => Dec.store w
  | 0x27 => Dec.storeFp w
  | 0x2B => Dec.custom1 w
  | 0x2F => Dec.amo w
  | 0x33 => Dec.op w
  | 0x37 => .standardInstruction (.lui (Dec.rd w) (w.extractLsb' 12 20))
  | 0x3B => Dec.op32 w
  | 0x43 => Dec.fmaD .madd w
  | 0x47 => Dec.fmaD .msub w
  | 0x4B => Dec.fmaD .nmsub w
  | 0x4F => Dec.fmaD .nmadd w
  | 0x53 => Dec.opFp w
  | 0x5B => Dec.custom2 w
  | 0x63 => Dec.branchD w
  | 0x67 => if Dec.f3 w = 0 then .standardInstruction (.jalr (Dec.rd w) (Dec.rs1 w) (Dec.imm12 w)) else illegal w
  | 0x6F => .standardInstruction (.jal (Dec.rd w) (Dec.immJ w))
  | 0x73 => Dec.system w
  | 0x7B => Dec.custom3 w
  | _ => illegal w

/-- The fields of a lane word other than OP and FUNC (R145). -/
def laneFields (w : BitVec 96) : LaneWord :=
  { vd := w.extractLsb' 16 8, va := w.extractLsb' 24 8, vb := w.extractLsb' 32 8, vc := w.extractLsb' 40 8,
    gp := w.extractLsb' 48 3, gn := w.getLsbD 51, lra := w.getLsbD 52, lrb := w.getLsbD 53, lrc := w.getLsbD 54,
    sm := w.getLsbD 55, mh := w.getLsbD 56, ty := w.extractLsb' 57 4, rm := w.extractLsb' 61 3, hi := w.extractLsb' 64 32 }

/-- BLM.WRITE by its sel, VC[6:4] (R369, R371); a sel that names no effect stays with the last member, whose
well-formedness refuses it. -/
def blmWrite (w : LaneWord) : Instr :=
  match (w.vc.extractLsb' 4 3).toNat with
  | 0 => .blmAdvance w
  | 1 => .blmFlush w
  | _ => .blmClear w

/-- The constructor of a lane word by OP and FUNC (R164): none for a reserved OP or a FUNC outside its family. -/
def laneCtor (op func : Nat) (w : LaneWord) : Option Instr :=
  match op with
  | 0x00 => match func with | 0 => some (.laneAdd w) | 1 => some (.laneSub w) | 2 => some (.laneMul w) | 3 => some (.mulhi w) | 4 => some (.laneMin w) | 5 => some (.laneMax w) | 6 => some (.laneAbs w) | 7 => some (.laneNeg w) | _ => none
  | 0x01 => match func with | 0 => some (.imad w) | _ => none
  | 0x02 => match func with | 0 => some (.laneAnd w) | 1 => some (.laneOr w) | 2 => some (.laneXor w) | 3 => some (.laneNot w) | 4 => some (.andn w) | _ => none
  | 0x03 => match func with | 0 => some (.shl w) | 1 => some (.shr w) | 2 => some (.sha w) | 3 => some (.rol w) | 4 => some (.ror w) | _ => none
  | 0x04 => match func with | 0 => some (.popc w) | 1 => some (.clz w) | 2 => some (.ctz w) | 3 => some (.brev w) | 4 => some (.bfx w) | 5 => some (.bfi w) | _ => none
  | 0x05 => match func with | 0 => some (.fadd w) | 1 => some (.fsub w) | 2 => some (.fmul w) | 3 => some (.fmin w) | 4 => some (.fmax w) | 5 => some (.fabs w) | 6 => some (.fneg w) | _ => none
  | 0x06 => match func with | 0 => some (.fma w) | 1 => some (.fms w) | 2 => some (.fnma w) | _ => none
  | 0x07 => match func with | 0 => some (.fdiv w) | 1 => some (.fsqrt w) | _ => none
  | 0x08 => match func with | 0 => some (.icmp w) | 1 => some (.fcmp w) | 2 => some (.fclass w) | _ => none
  | 0x09 => match func with | 0 => some (.sel w) | _ => none
  | 0x0A => match func with | 0 => some (.cvt w) | _ => none
  | 0x0B => match func with | 0 => some (.qnt w) | _ => none
  | 0x0C => match func with | 0 => some (.aln w) | _ => none
  | 0x0D => match func with | 0 => some (.shflIdx w) | 1 => some (.shflXor w) | 2 => some (.shflUp w) | 3 => some (.shflDn w) | _ => none
  | 0x0E => match func with | 0 => some (.bcst w) | _ => none
  | 0x0F => match func with | 0 => some (.voteAny w) | 1 => some (.voteAll w) | 2 => some (.voteMask w) | _ => none
  | 0x10 => match func with | 0 => some (.reduce w) | _ => none
  | 0x11 => match func with | 0 => some (.scan w) | _ => none
  | 0x12 => match func with | 0 => some (.mov w) | 1 => some (.movu w) | 2 => some (.movx w) | _ => none
  | 0x13 => match func with | 0 => some (.pand w) | 1 => some (.por w) | 2 => some (.pxor w) | 3 => some (.pnot w) | 4 => some (.pmov w) | _ => none
  | 0x14 => match func with | 0 => some (.krd w) | 1 => some (.kwr w) | _ => none
  | 0x15 => match func with | 0 => some (.lfmRd w) | 1 => some (.lfmWr w) | _ => none
  | 0x16 => if func ≤ 8 then some (.sfx (BitVec.ofNat 8 func) w) else none
  | 0x17 => match func with | 0 => some (.sfxWait w) | _ => none
  | 0x20 => match func with | 0 => some (.rsvSeed w) | 1 => some (.rsvUpd w) | 2 => some (.rsvMrg w) | 3 => some (.rsvFin w) | 4 => some (.rsvGet w) | 5 => some (.rsvDraw w) | _ => none
  | 0x21 => match func with | 0 => some (.mld w) | _ => none
  | 0x22 => match func with | 0 => some (.mmaG w) | _ => none
  | 0x23 => match func with | 0 => some (.accZero w) | 1 => some (.ringAdv w) | 2 => some (.ringWait w) | _ => none
  | 0x24 => match func with | 0 => some (.blmEmit w) | 1 => some (.blmRead w) | 2 => some (blmWrite w) | _ => none
  | 0x25 => match func with | 0 => some (.resv w) | 1 => some (.commit w) | 2 => some (.cancel w) | 3 => some (.emitV w) | 4 => some (.emitP w) | _ => none
  | 0x40 => match func with | 0 => some (.addLi w) | 1 => some (.subLi w) | 2 => some (.mulLi w) | 3 => some (.mulhiLi w) | 4 => some (.minLi w) | 5 => some (.maxLi w) | _ => none
  | 0x42 => match func with | 0 => some (.andLi w) | 1 => some (.orLi w) | 2 => some (.xorLi w) | 4 => some (.andnLi w) | _ => none
  | 0x43 => match func with | 0 => some (.shlLi w) | 1 => some (.shrLi w) | 2 => some (.shaLi w) | 3 => some (.rolLi w) | 4 => some (.rorLi w) | _ => none
  | 0x45 => match func with | 0 => some (.faddLi w) | 1 => some (.fsubLi w) | 2 => some (.fmulLi w) | 3 => some (.fminLi w) | 4 => some (.fmaxLi w) | _ => none
  | 0x48 => match func with | 0 => some (.icmpLi w) | 1 => some (.fcmpLi w) | _ => none
  | 0x49 => match func with | 0 => some (.selLi w) | _ => none
  | 0x52 => match func with | 0 => some (.movi w) | _ => none
  | 0x80 => match func with | 0 => some (.ld w) | _ => none
  | 0x81 => match func with | 0 => some (.st w) | _ => none
  | 0x82 => match func with | 0 => some (.stn w) | _ => none
  | 0x83 => match func with | 0 => some (.atomAdd w) | 1 => some (.atomSwap w) | 2 => some (.atomAnd w) | 3 => some (.atomOr w) | 4 => some (.atomXor w) | 5 => some (.atomMax w) | 6 => some (.atomFadd w) | 7 => some (.atomCas w) | _ => none
  | 0x84 => match func with | 0 => some (.lds w) | _ => none
  | 0x85 => match func with | 0 => some (.sts w) | _ => none
  | 0x86 => match func with | 0 => some (.fence w) | _ => none
  | 0x87 => match func with | 0 => some (.cwb w) | 1 => some (.cinv w) | 2 => some (.cflush w) | _ => none
  | 0x88 => match func with | 0 => some (.stq w) | _ => none
  | 0x89 => match func with | 0 => some (.pfh w) | _ => none
  | 0x8A => match func with | 0 => some (.texSmp w) | 1 => some (.texFch w) | _ => none
  | 0xC0 => match func with | 0 => some (.bra w) | _ => none
  | 0xC1 => match func with | 0 => some (.brx w) | _ => none
  | 0xC2 => match func with | 0 => some (.reconv w) | _ => none
  | 0xC3 => match func with | 0 => some (.exit w) | _ => none
  | 0xC4 => match func with | 0 => some (.mig w) | _ => none
  | 0xC5 => match func with | 0 => some (.barArv w) | 1 => some (.barWait w) | _ => none
  | 0xC6 => match func with | 0 => some (.safe w) | _ => none
  | 0xC7 => match func with | 0 => some (.yield w) | _ => none
  | 0xC8 => match func with | 0 => some (.spawn w) | _ => none
  | 0xC9 => match func with | 0 => some (.fwait w) | _ => none
  | 0xCA => match func with | 0 => some (.send w) | _ => none
  | 0xCB => match func with | 0 => some (.nop w) | _ => none
  | _ => none

/-- OP and FUNC of a lane instruction (R164), with its fields. -/
def laneParts (i : Instr) : Option (Nat × Nat × LaneWord) :=
  match i with
  | .laneAdd w => some (0x00, 0, w)
  | .laneSub w => some (0x00, 1, w)
  | .laneMul w => some (0x00, 2, w)
  | .mulhi w => some (0x00, 3, w)
  | .laneMin w => some (0x00, 4, w)
  | .laneMax w => some (0x00, 5, w)
  | .laneAbs w => some (0x00, 6, w)
  | .laneNeg w => some (0x00, 7, w)
  | .imad w => some (0x01, 0, w)
  | .laneAnd w => some (0x02, 0, w)
  | .laneOr w => some (0x02, 1, w)
  | .laneXor w => some (0x02, 2, w)
  | .laneNot w => some (0x02, 3, w)
  | .andn w => some (0x02, 4, w)
  | .shl w => some (0x03, 0, w)
  | .shr w => some (0x03, 1, w)
  | .sha w => some (0x03, 2, w)
  | .rol w => some (0x03, 3, w)
  | .ror w => some (0x03, 4, w)
  | .popc w => some (0x04, 0, w)
  | .clz w => some (0x04, 1, w)
  | .ctz w => some (0x04, 2, w)
  | .brev w => some (0x04, 3, w)
  | .bfx w => some (0x04, 4, w)
  | .bfi w => some (0x04, 5, w)
  | .fadd w => some (0x05, 0, w)
  | .fsub w => some (0x05, 1, w)
  | .fmul w => some (0x05, 2, w)
  | .fmin w => some (0x05, 3, w)
  | .fmax w => some (0x05, 4, w)
  | .fabs w => some (0x05, 5, w)
  | .fneg w => some (0x05, 6, w)
  | .fma w => some (0x06, 0, w)
  | .fms w => some (0x06, 1, w)
  | .fnma w => some (0x06, 2, w)
  | .fdiv w => some (0x07, 0, w)
  | .fsqrt w => some (0x07, 1, w)
  | .icmp w => some (0x08, 0, w)
  | .fcmp w => some (0x08, 1, w)
  | .fclass w => some (0x08, 2, w)
  | .sel w => some (0x09, 0, w)
  | .cvt w => some (0x0A, 0, w)
  | .qnt w => some (0x0B, 0, w)
  | .aln w => some (0x0C, 0, w)
  | .shflIdx w => some (0x0D, 0, w)
  | .shflXor w => some (0x0D, 1, w)
  | .shflUp w => some (0x0D, 2, w)
  | .shflDn w => some (0x0D, 3, w)
  | .bcst w => some (0x0E, 0, w)
  | .voteAny w => some (0x0F, 0, w)
  | .voteAll w => some (0x0F, 1, w)
  | .voteMask w => some (0x0F, 2, w)
  | .reduce w => some (0x10, 0, w)
  | .scan w => some (0x11, 0, w)
  | .mov w => some (0x12, 0, w)
  | .movu w => some (0x12, 1, w)
  | .movx w => some (0x12, 2, w)
  | .pand w => some (0x13, 0, w)
  | .por w => some (0x13, 1, w)
  | .pxor w => some (0x13, 2, w)
  | .pnot w => some (0x13, 3, w)
  | .pmov w => some (0x13, 4, w)
  | .krd w => some (0x14, 0, w)
  | .kwr w => some (0x14, 1, w)
  | .lfmRd w => some (0x15, 0, w)
  | .lfmWr w => some (0x15, 1, w)
  | .sfxWait w => some (0x17, 0, w)
  | .rsvSeed w => some (0x20, 0, w)
  | .rsvUpd w => some (0x20, 1, w)
  | .rsvMrg w => some (0x20, 2, w)
  | .rsvFin w => some (0x20, 3, w)
  | .rsvGet w => some (0x20, 4, w)
  | .rsvDraw w => some (0x20, 5, w)
  | .mld w => some (0x21, 0, w)
  | .mmaG w => some (0x22, 0, w)
  | .accZero w => some (0x23, 0, w)
  | .ringAdv w => some (0x23, 1, w)
  | .ringWait w => some (0x23, 2, w)
  | .blmEmit w => some (0x24, 0, w)
  | .blmRead w => some (0x24, 1, w)
  | .resv w => some (0x25, 0, w)
  | .commit w => some (0x25, 1, w)
  | .cancel w => some (0x25, 2, w)
  | .emitV w => some (0x25, 3, w)
  | .emitP w => some (0x25, 4, w)
  | .addLi w => some (0x40, 0, w)
  | .subLi w => some (0x40, 1, w)
  | .mulLi w => some (0x40, 2, w)
  | .mulhiLi w => some (0x40, 3, w)
  | .minLi w => some (0x40, 4, w)
  | .maxLi w => some (0x40, 5, w)
  | .andLi w => some (0x42, 0, w)
  | .orLi w => some (0x42, 1, w)
  | .xorLi w => some (0x42, 2, w)
  | .andnLi w => some (0x42, 4, w)
  | .shlLi w => some (0x43, 0, w)
  | .shrLi w => some (0x43, 1, w)
  | .shaLi w => some (0x43, 2, w)
  | .rolLi w => some (0x43, 3, w)
  | .rorLi w => some (0x43, 4, w)
  | .faddLi w => some (0x45, 0, w)
  | .fsubLi w => some (0x45, 1, w)
  | .fmulLi w => some (0x45, 2, w)
  | .fminLi w => some (0x45, 3, w)
  | .fmaxLi w => some (0x45, 4, w)
  | .icmpLi w => some (0x48, 0, w)
  | .fcmpLi w => some (0x48, 1, w)
  | .selLi w => some (0x49, 0, w)
  | .movi w => some (0x52, 0, w)
  | .ld w => some (0x80, 0, w)
  | .st w => some (0x81, 0, w)
  | .stn w => some (0x82, 0, w)
  | .atomAdd w => some (0x83, 0, w)
  | .atomSwap w => some (0x83, 1, w)
  | .atomAnd w => some (0x83, 2, w)
  | .atomOr w => some (0x83, 3, w)
  | .atomXor w => some (0x83, 4, w)
  | .atomMax w => some (0x83, 5, w)
  | .atomFadd w => some (0x83, 6, w)
  | .atomCas w => some (0x83, 7, w)
  | .lds w => some (0x84, 0, w)
  | .sts w => some (0x85, 0, w)
  | .fence w => some (0x86, 0, w)
  | .cwb w => some (0x87, 0, w)
  | .cinv w => some (0x87, 1, w)
  | .cflush w => some (0x87, 2, w)
  | .stq w => some (0x88, 0, w)
  | .pfh w => some (0x89, 0, w)
  | .texSmp w => some (0x8A, 0, w)
  | .texFch w => some (0x8A, 1, w)
  | .bra w => some (0xC0, 0, w)
  | .brx w => some (0xC1, 0, w)
  | .reconv w => some (0xC2, 0, w)
  | .exit w => some (0xC3, 0, w)
  | .mig w => some (0xC4, 0, w)
  | .barArv w => some (0xC5, 0, w)
  | .barWait w => some (0xC5, 1, w)
  | .safe w => some (0xC6, 0, w)
  | .yield w => some (0xC7, 0, w)
  | .spawn w => some (0xC8, 0, w)
  | .fwait w => some (0xC9, 0, w)
  | .send w => some (0xCA, 0, w)
  | .nop w => some (0xCB, 0, w)
  | .sfx fn w => some (0x16, fn.toNat, w)
  | .blmAdvance w => some (0x24, 2, w)
  | .blmFlush w => some (0x24, 2, w)
  | .blmClear w => some (0x24, 2, w)
  | _ => none

/-- The instruction that a 96-bit lane word encodes. -/
def decodeLane (w : BitVec 96) : Instr :=
  match laneCtor (w.extractLsb' 0 8).toNat (w.extractLsb' 8 8).toNat (laneFields w) with
  | some i => i
  | none => .reservedLaneOpcode w

/-- Little-endian value of a list of bytes (R5). -/
def leNat (bs : List Byte) : Nat :=
  match bs with
  | [] => 0
  | b :: t => b.toNat + 256 * leNat t

/-- The `n` bytes of a number, lowest first (R5). -/
def leBytes (n v : Nat) : List Byte :=
  match n with
  | 0 => []
  | k + 1 => BitVec.ofNat 8 v :: leBytes k (v / 256)

/-- The instruction at the head of a stream of bytes, 12 bytes for a lane stream and 4 for a scalar one (R144, R10), with
the rest of the stream; none when the stream is too short. -/
def decodeBytes (lane : Bool) (bs : List Byte) : Option (Instr × List Byte) :=
  let n := if lane then 12 else 4
  if bs.length < n then none
  else if lane then some (decodeLane (BitVec.ofNat 96 (leNat (bs.take 12))), bs.drop 12)
  else some (decodeScalar (BitVec.ofNat 32 (leNat (bs.take 4))), bs.drop 4)

/-- The instruction the decoder reads from a row's word of `nbits` bits: a row of 32 bits or fewer is a scalar word, a
longer one a lane word of three parcels. -/
def decodeTableWord (nbits w : Nat) : Option Instr :=
  let lane := decide (32 < nbits)
  (decodeBytes lane (leBytes (if lane then 12 else 4) w)).map (·.1)

/-! ## The encoder -/

namespace Enc

def b1 (b : Bool) : BitVec 1 := BitVec.ofBool b
/-- R layout (R64). -/
def r (op : BitVec 7) (rd : Reg) (f3 : BitVec 3) (rs1 rs2 : Reg) (f7 : BitVec 7) : Word :=
  f7 ++ rs2 ++ rs1 ++ f3 ++ rd ++ op
/-- I layout (R64). -/
def i (op : BitVec 7) (rd : Reg) (f3 : BitVec 3) (rs1 : Reg) (imm : BitVec 12) : Word :=
  imm ++ rs1 ++ f3 ++ rd ++ op
def s (op : BitVec 7) (f3 : BitVec 3) (rs1 rs2 : Reg) (imm : BitVec 12) : Word :=
  imm.extractLsb' 5 7 ++ rs2 ++ rs1 ++ f3 ++ imm.extractLsb' 0 5 ++ op
def b (f3 : BitVec 3) (rs1 rs2 : Reg) (off : BitVec 12) : Word :=
  off.extractLsb' 11 1 ++ off.extractLsb' 4 6 ++ rs2 ++ rs1 ++ f3 ++ off.extractLsb' 0 4 ++ off.extractLsb' 10 1 ++ 0x63#7
def j (rd : Reg) (off : BitVec 20) : Word :=
  off.extractLsb' 19 1 ++ off.extractLsb' 0 10 ++ off.extractLsb' 10 1 ++ off.extractLsb' 11 8 ++ rd ++ 0x6F#7
def u (op : BitVec 7) (rd : Reg) (imm : BitVec 20) : Word := imm ++ rd ++ op

def amo3 (f3 : BitVec 3) (a : AmoArgs) : Word :=
  r 0x7B#7 a.rd f3 a.rs1 a.rs2 (a.scope ++ a.sem ++ b1 a.dbl)

def lsOp (o : LsOp) : Word :=
  match o with
  | .load x rd rs1 imm =>
    i 0x03#7 rd (match x with | .b => 0#3 | .h => 1#3 | .w => 2#3 | .d => 3#3 | .bu => 4#3 | .hu => 5#3 | .wu => 6#3) rs1 imm
  | .store x rs1 rs2 imm => s 0x23#7 (match x with | .b => 0#3 | .h => 1#3 | .w => 2#3 | .d => 3#3) rs1 rs2 imm
  | .fload d rd rs1 imm => i 0x07#7 rd (if d then 3#3 else 2#3) rs1 imm
  | .fstore d rs1 rs2 imm => s 0x27#7 (if d then 3#3 else 2#3) rs1 rs2 imm

def amoF5 (o : AmoOp) : BitVec 5 :=
  match o with
  | .swap => 1#5 | .add => 0#5 | .xor => 4#5 | .and => 0xC#5 | .or => 8#5
  | .min => 0x10#5 | .max => 0x14#5 | .minu => 0x18#5 | .maxu => 0x1C#5

def aluCodes (o : AluOp) : BitVec 7 × BitVec 3 :=
  match o with
  | .add => (0#7, 0#3) | .sub => (0x20#7, 0#3) | .sll => (0#7, 1#3) | .slt => (0#7, 2#3) | .sltu => (0#7, 3#3)
  | .xor => (0#7, 4#3) | .srl => (0#7, 5#3) | .sra => (0x20#7, 5#3) | .or => (0#7, 6#3) | .and => (0#7, 7#3)
  | .mul => (1#7, 0#3) | .mulh => (1#7, 1#3) | .mulhsu => (1#7, 2#3) | .mulhu => (1#7, 3#3)
  | .div => (1#7, 4#3) | .divu => (1#7, 5#3) | .rem => (1#7, 6#3) | .remu => (1#7, 7#3)
  | .sh1add => (0x10#7, 2#3) | .sh2add => (0x10#7, 4#3) | .sh3add => (0x10#7, 6#3)
  | .andn => (0x20#7, 7#3) | .orn => (0x20#7, 6#3) | .xnor => (0x20#7, 4#3)
  | .max => (5#7, 6#3) | .maxu => (5#7, 7#3) | .min => (5#7, 4#3) | .minu => (5#7, 5#3)
  | .rol => (0x30#7, 1#3) | .ror => (0x30#7, 5#3)

def aluWCodes (o : AluWOp) : BitVec 7 × BitVec 3 :=
  match o with
  | .addw => (0#7, 0#3) | .subw => (0x20#7, 0#3) | .sllw => (0#7, 1#3) | .srlw => (0#7, 5#3) | .sraw => (0x20#7, 5#3)
  | .mulw => (1#7, 0#3) | .divw => (1#7, 4#3) | .divuw => (1#7, 5#3) | .remw => (1#7, 6#3) | .remuw => (1#7, 7#3)
  | .addUw => (4#7, 0#3) | .sh1addUw => (0x10#7, 2#3) | .sh2addUw => (0x10#7, 4#3) | .sh3addUw => (0x10#7, 6#3)
  | .rolw => (0x30#7, 1#3) | .rorw => (0x30#7, 5#3)

def intCode (t : IntFmt) : Reg :=
  match t with
  | .w => 0#5 | .wu => 1#5 | .l => 2#5 | .lu => 3#5

/-- OP-FP word: funct5, format, rs2, rs1, funct3, rd. -/
def fp (f5 : BitVec 5) (dbl : Bool) (rs2 rs1 : Reg) (f3 : BitVec 3) (rd : Reg) : Word :=
  f5 ++ 0#1 ++ b1 dbl ++ rs2 ++ rs1 ++ f3 ++ rd ++ 0x53#7

def rvOp (o : RvOp) : Word :=
  match o with
  | .lui rd imm => u 0x37#7 rd imm
  | .auipc rd imm => u 0x17#7 rd imm
  | .jal rd off => j rd off
  | .jalr rd rs1 imm => i 0x67#7 rd 0#3 rs1 imm
  | .branch c rs1 rs2 off =>
    b (match c with | .eq => 0#3 | .ne => 1#3 | .lt => 4#3 | .ge => 5#3 | .ltu => 6#3 | .geu => 7#3) rs1 rs2 off
  | .opImm o rd rs1 imm =>
    i 0x13#7 rd (match o with | .addi => 0#3 | .slti => 2#3 | .sltiu => 3#3 | .xori => 4#3 | .ori => 6#3 | .andi => 7#3) rs1 imm
  | .shImm o rd rs1 sh =>
    match o with
    | .slli => i 0x13#7 rd 1#3 rs1 (0#6 ++ sh)
    | .srli => i 0x13#7 rd 5#3 rs1 (0#6 ++ sh)
    | .srai => i 0x13#7 rd 5#3 rs1 (0x10#6 ++ sh)
    | .rori => i 0x13#7 rd 5#3 rs1 (0x18#6 ++ sh)
    | .slliUw => i 0x1B#7 rd 1#3 rs1 (2#6 ++ sh)
  | .addiw rd rs1 imm => i 0x1B#7 rd 0#3 rs1 imm
  | .shImmW o rd rs1 sh =>
    match o with
    | .slliw => r 0x1B#7 rd 1#3 rs1 sh 0#7
    | .srliw => r 0x1B#7 rd 5#3 rs1 sh 0#7
    | .sraiw => r 0x1B#7 rd 5#3 rs1 sh 0x20#7
    | .roriw => r 0x1B#7 rd 5#3 rs1 sh 0x30#7
  | .op o rd rs1 rs2 => r 0x33#7 rd (aluCodes o).2 rs1 rs2 (aluCodes o).1
  | .opW o rd rs1 rs2 => r 0x3B#7 rd (aluWCodes o).2 rs1 rs2 (aluWCodes o).1
  | .un o rd rs1 =>
    match o with
    | .clz => i 0x13#7 rd 1#3 rs1 0x600#12
    | .ctz => i 0x13#7 rd 1#3 rs1 0x601#12
    | .cpop => i 0x13#7 rd 1#3 rs1 0x602#12
    | .sextB => i 0x13#7 rd 1#3 rs1 0x604#12
    | .sextH => i 0x13#7 rd 1#3 rs1 0x605#12
    | .zextH => r 0x3B#7 rd 4#3 rs1 0#5 4#7
    | .rev8 => i 0x13#7 rd 5#3 rs1 0x6B8#12
    | .orcB => i 0x13#7 rd 5#3 rs1 0x287#12
    | .clzw => i 0x1B#7 rd 1#3 rs1 0x600#12
    | .ctzw => i 0x1B#7 rd 1#3 rs1 0x601#12
    | .cpopw => i 0x1B#7 rd 1#3 rs1 0x602#12
  | .csr o imm rd src addr =>
    i 0x73#7 rd (b1 imm ++ (match o with | .rw => 1#2 | .rs => 2#2 | .rc => 3#2)) src addr
  | .fma o dbl rd rs1 rs2 rs3 rm =>
    rs3 ++ 0#1 ++ b1 dbl ++ rs2 ++ rs1 ++ rm ++ rd ++
      (match o with | .madd => 0x43#7 | .msub => 0x47#7 | .nmsub => 0x4B#7 | .nmadd => 0x4F#7)
  | .fop o dbl rd rs1 rs2 rm =>
    fp (match o with | .add => 0#5 | .sub => 1#5 | .mul => 2#5 | .div => 3#5) dbl rs2 rs1 rm rd
  | .fsqrt dbl rd rs1 rm => fp 0x0B#5 dbl 0#5 rs1 rm rd
  | .fsgn o dbl rd rs1 rs2 => fp 4#5 dbl rs2 rs1 (match o with | .j => 0#3 | .jn => 1#3 | .jx => 2#3) rd
  | .fminmax mx dbl rd rs1 rs2 => fp 5#5 dbl rs2 rs1 (if mx then 1#3 else 0#3) rd
  | .fcmp o dbl rd rs1 rs2 => fp 0x14#5 dbl rs2 rs1 (match o with | .eq => 2#3 | .lt => 1#3 | .le => 0#3) rd
  | .fclass dbl rd rs1 => fp 0x1C#5 dbl 0#5 rs1 1#3 rd
  | .fcvtInt t dbl rd rs1 rm => fp 0x18#5 dbl (intCode t) rs1 rm rd
  | .fcvtFrom t dbl rd rs1 rm => fp 0x1A#5 dbl (intCode t) rs1 rm rd
  | .fcvtFmt toDbl rd rs1 rm => fp 8#5 toDbl (if toDbl then 0#5 else 1#5) rs1 rm rd
  | .fmvToX dbl rd rs1 => fp 0x1C#5 dbl 0#5 rs1 0#3 rd
  | .fmvFromX dbl rd rs1 => fp 0x1E#5 dbl 0#5 rs1 0#3 rd
  | .illegal w => w

end Enc

/-- The 32-bit word of a scalar instruction; none for a step that has no scalar word. -/
def encodeScalar (i : Instr) : Option Word :=
  match i with
  | .semWait rd rs1 rs2 => some (Enc.r 0x0B#7 rd 0#3 rs1 rs2 0#7)
  | .semSig rd rs1 rs2 => some (Enc.r 0x0B#7 rd 0#3 rs1 rs2 1#7)
  | .semTry rd rs1 rs2 => some (Enc.r 0x0B#7 rd 0#3 rs1 rs2 2#7)
  | .semRead rd rs1 => some (Enc.r 0x0B#7 rd 0#3 rs1 0#5 3#7)
  | .semWaiti rd sem n => some (Enc.i 0x0B#7 rd 1#3 0#5 (n ++ sem))
  | .semSigi rd sem n => some (Enc.i 0x0B#7 rd 2#3 0#5 (n ++ sem))
  | .futNew rd => some (Enc.r 0x0B#7 rd 3#3 0#5 0#5 0#7)
  | .futSet rs1 rs2 => some (Enc.r 0x0B#7 0#5 3#3 rs1 rs2 1#7)
  | .futWait rd rs1 => some (Enc.r 0x0B#7 rd 3#3 rs1 0#5 2#7)
  | .futPoll rd rs1 => some (Enc.r 0x0B#7 rd 3#3 rs1 0#5 3#7)
  | .futPoison rs1 => some (Enc.r 0x0B#7 0#5 3#3 rs1 0#5 4#7)
  | .futFree rs1 => some (Enc.r 0x0B#7 0#5 3#3 rs1 0#5 5#7)
  | .contSpawn rs1 rs2 => some (Enc.r 0x2B#7 0#5 0#3 rs1 rs2 0#7)
  | .contExit => some (Enc.r 0x2B#7 0#5 0#3 0#5 0#5 1#7)
  | .joinAdd rd rs1 rs2 => some (Enc.r 0x2B#7 rd 0#3 rs1 rs2 2#7)
  | .msgSend rs1 rs2 => some (Enc.r 0x2B#7 0#5 1#3 rs1 rs2 0#7)
  | .msgReply rs1 rs2 => some (Enc.r 0x2B#7 0#5 1#3 rs1 rs2 1#7)
  | .msgSendh rs1 rs2 => some (Enc.r 0x2B#7 0#5 1#3 rs1 rs2 2#7)
  | .msgRecv rd rs1 => some (Enc.r 0x2B#7 rd 1#3 rs1 0#5 3#7)
  | .mbRead rd mb => some (Enc.i 0x2B#7 rd 2#3 0#5 (0#9 ++ mb))
  | .mbWrite mb rs1 => some (Enc.i 0x2B#7 0#5 3#3 rs1 (0#9 ++ mb))
  | .mbSwap rd mb rs1 => some (Enc.i 0x2B#7 rd 4#3 rs1 (0#9 ++ mb))
  | .migW => some (Enc.r 0x2B#7 0#5 5#3 0#5 0#5 0#7)
  | .engKick rs1 rs2 scope => some (Enc.r 0x5B#7 0#5 0#3 rs1 rs2 (0#4 ++ scope))
  | .engRdv rd rs1 => some (Enc.r 0x5B#7 rd 1#3 rs1 0#5 0#7)
  | .cohDecl rd rs1 => some (Enc.r 0x5B#7 rd 2#3 rs1 0#5 0#7)
  | .cohRel rs1 => some (Enc.r 0x5B#7 0#5 2#3 rs1 0#5 1#7)
  | .scalarCwb rs1 rs2 => some (Enc.r 0x5B#7 0#5 3#3 rs1 rs2 0#7)
  | .scalarCinv rs1 rs2 => some (Enc.r 0x5B#7 0#5 3#3 rs1 rs2 1#7)
  | .scalarCflush rs1 rs2 => some (Enc.r 0x5B#7 0#5 3#3 rs1 rs2 2#7)
  | .hotRead rd rs1 => some (Enc.r 0x5B#7 rd 4#3 rs1 0#5 0#7)
  | .hotClr rs1 => some (Enc.r 0x5B#7 0#5 4#3 rs1 0#5 1#7)
  | .fenceS scope sem => some (Enc.r 0x5B#7 0#5 5#3 0#5 0#5 (scope ++ sem ++ 0#1))
  | .scalarStq rs1 rs2 => some (Enc.r 0x5B#7 0#5 6#3 rs1 rs2 0#7)
  | .scalarYield => some (Enc.r 0x5B#7 0#5 7#3 0#5 0#5 0#7)
  | .scalarSafe => some (Enc.r 0x5B#7 0#5 7#3 0#5 0#5 1#7)
  | .tlbInv rs1 rs2 => some (Enc.r 0x5B#7 0#5 7#3 rs1 rs2 2#7)
  | .amoAdd a => some (Enc.amo3 0#3 a)
  | .amoSwap a => some (Enc.amo3 1#3 a)
  | .amoAnd a => some (Enc.amo3 2#3 a)
  | .amoOr a => some (Enc.amo3 3#3 a)
  | .amoXor a => some (Enc.amo3 4#3 a)
  | .amoMax a => some (Enc.amo3 5#3 a)
  | .amoFadd a => some (Enc.amo3 6#3 a)
  | .amoCas a => some (Enc.amo3 7#3 a)
  | .standardLoadStore o => some (Enc.lsOp o)
  | .lr d aq rl rd rs1 => some (2#5 ++ Enc.b1 aq ++ Enc.b1 rl ++ 0#5 ++ rs1 ++ (if d then 3#3 else 2#3) ++ rd ++ 0x2F#7)
  | .sc d aq rl rd rs1 rs2 => some (3#5 ++ Enc.b1 aq ++ Enc.b1 rl ++ rs2 ++ rs1 ++ (if d then 3#3 else 2#3) ++ rd ++ 0x2F#7)
  | .standardAmo o d aq rl rd rs1 rs2 =>
    some (Enc.amoF5 o ++ Enc.b1 aq ++ Enc.b1 rl ++ rs2 ++ rs1 ++ (if d then 3#3 else 2#3) ++ rd ++ 0x2F#7)
  | .fenceRv fm pred succ rd rs1 => some (Enc.i 0x0F#7 rd 0#3 rs1 (fm ++ pred ++ succ))
  | .fenceI imm rd rs1 => some (Enc.i 0x0F#7 rd 1#3 rs1 imm)
  | .sfenceVma rs1 rs2 => some (Enc.r 0x73#7 0#5 0#3 rs1 rs2 9#7)
  | .ecall => some 0x00000073#32
  | .ebreak => some 0x00100073#32
  | .sret => some 0x10200073#32
  | .wfi => some 0x10500073#32
  | .standardInstruction o => some (Enc.rvOp o)
  | _ => none

/-- The lane word of OP, FUNC and the other fields (R145). -/
def encodeLaneFields (op func : Nat) (w : LaneWord) : BitVec 96 :=
  w.hi ++ w.rm ++ w.ty ++ Enc.b1 w.mh ++ Enc.b1 w.sm ++ Enc.b1 w.lrc ++ Enc.b1 w.lrb ++ Enc.b1 w.lra ++ Enc.b1 w.gn ++
    w.gp ++ w.vc ++ w.vb ++ w.va ++ w.vd ++ BitVec.ofNat 8 func ++ BitVec.ofNat 8 op

/-- The 96-bit word of a lane instruction; none for a step that has no lane word. -/
def encodeLane (i : Instr) : Option (BitVec 96) :=
  match i with
  | .reservedLaneOpcode w => some w
  | i => (laneParts i).map fun p => encodeLaneFields p.1 p.2.1 p.2.2

/-- The bytes of an instruction in memory, parcels little-endian (R5, R144); none for an event. -/
def encode (i : Instr) : Option (List Byte) :=
  match encodeScalar i with
  | some w => some (leBytes 4 w.toNat)
  | none => (encodeLane i).map fun w => leBytes 12 w.toNat

/-! # The decode-time field checks of lane words (R147 to R157) -/

/-! ## Type codes (R150) -/

/-- Width in bits of an element of a type code. -/
def tyWidth (t : BitVec 4) : Nat :=
  match t.toNat with
  | 0 => 32 | 1 => 8 | 2 => 16 | 3 => 32 | 4 => 64 | 5 => 8 | 6 => 16 | 7 => 32 | 8 => 64
  | 9 => 16 | 10 => 16 | 11 => 32 | 12 => 64 | 13 => 8 | 14 => 8 | _ => 4

/-- Elements per 32-bit register, or 1 for a register pair (R36, R180). -/
def tyCount (t : BitVec 4) : Nat := if tyWidth t = 64 then 1 else 32 / tyWidth t

/-- A 64-bit type: .i64, .n64, .f64. -/
def ty64 (t : BitVec 4) : Bool := t = 4 || t = 8 || t = 12
/-- A floating-point type. -/
def tyFloat (t : BitVec 4) : Bool := decide (9 ≤ t.toNat ∧ t.toNat ≤ 14)
/-- A signed integer type. -/
def tySigned (t : BitVec 4) : Bool := decide (1 ≤ t.toNat ∧ t.toNat ≤ 4)
/-- A natural integer type. -/
def tyNatural (t : BitVec 4) : Bool := decide (5 ≤ t.toNat ∧ t.toNat ≤ 8)
/-- An integer type. -/
def tyInt (t : BitVec 4) : Bool := tySigned t || tyNatural t

/-! ## Rules -/

/-- What an operand field of a lane word holds. -/
inductive Opd where
  /-- unused: 0 (R156) -/
  | zero
  /-- a lane register, or the even pair of a 64-bit TYPE, read -/
  | src
  /-- one lane register whatever TYPE, read -/
  | src1
  /-- a group of `n` lane registers read, starting on a multiple of `align` and ending by v255 -/
  | grp (n align : Nat)
  /-- the source of CVT: width by STYPE -/
  | srcS
  /-- a lane register, or the even pair of a 64-bit TYPE, written (or the VD of a store) -/
  | dst
  /-- a group written -/
  | dstGrp (n align : Nat)
  /-- a predicate that is written, p1 to p7 -/
  | pw
  /-- a predicate that is read, p0 to p7 -/
  | pr
  /-- a uniform register number -/
  | uni
  /-- an immediate up to `n` -/
  | imm (n : Nat)
deriving DecidableEq, Repr

inductive RmRule where
  | zero | round
deriving DecidableEq, Repr

inductive URule where
  | no | may | must
deriving DecidableEq, Repr

inductive LaneClass where
  | L | LI | LM | LC
deriving DecidableEq, Repr

/-- The decode rule of a lane instruction: what each field may hold. -/
structure LaneRule where
  cls : LaneClass := .L
  vd : Opd := .zero
  va : Opd := .zero
  vb : Opd := .zero
  vc : Opd := .zero
  types : List Nat := [0]
  rm : RmRule := .zero
  sat : Bool := false
  stype : Bool := false
  khi : Bool := false
  u : URule := .no
  guard : Bool := true
  sm : Bool := true
  mh : Bool := false
  /-- LM: the SEM codes accepted -/
  sems : List Nat := [0]
  /-- LM: SCOPE 0 to 4 accepted, else 0 -/
  scope : Bool := false
  /-- LM: HINT accepted -/
  hint : Bool := false
  /-- LM: SLOT and OFS used -/
  slot : Bool := true
  ofs : Bool := true
  /-- LC: OFF24 and RCV used -/
  off : Bool := false
  rcv : Bool := false
deriving DecidableEq, Repr

def Opd.isLaneSrc (o : Opd) : Bool :=
  match o with
  | .src | .src1 | .srcS | .grp _ _ => true
  | _ => false

/-- The field value `v` suits the operand kind. -/
def Opd.ok (o : Opd) (ty sty : BitVec 4) (v : BitVec 8) : Bool :=
  match o with
  | .zero => v = 0
  | .src | .dst => !ty64 ty || v.getLsbD 0 = false
  | .srcS => !ty64 sty || v.getLsbD 0 = false
  | .src1 => true
  | .grp n a | .dstGrp n a => decide (v.toNat % a = 0 ∧ v.toNat + n ≤ 256)
  | .pw => decide (1 ≤ v.toNat ∧ v.toNat ≤ 7)
  | .pr => decide (v.toNat ≤ 7)
  | .uni => decide (v.toNat ≤ 31)
  | .imm n => decide (v.toNat ≤ n)

/-- Semaphore fields: an index is 0 when its count is 0 (R156). -/
def semFieldsOk (w : LaneWord) (signal : Bool) : Bool :=
  (w.waitt ≠ 0 || w.waitn = 0) && (!signal || w.sigi ≠ 0 || w.sign = 0)

/-- The fields that every class shares: guard (R152), last-read bits (R153), marks (R154), TYPE and RM. -/
def LaneRule.commonOk (r : LaneRule) (w : LaneWord) : Bool :=
  (if r.guard then !(w.gp = 0 && w.gn) else w.gp = 0 && !w.gn) &&
  (!w.sm || r.sm) && (!w.mh || r.mh) &&
  (!w.lra || r.va.isLaneSrc) && (!w.lrb || r.vb.isLaneSrc) && (!w.lrc || r.vc.isLaneSrc) &&
  r.types.contains w.ty.toNat &&
  (match r.rm with | .zero => w.rm = 0 | .round => w.rm ≠ 6)

def LaneRule.classOk (r : LaneRule) (w : LaneWord) : Bool :=
  match r.cls with
  | .L =>
    r.vd.ok w.ty w.stype w.vd && r.va.ok w.ty w.stype w.va && r.vc.ok w.ty w.stype w.vc &&
    (match r.u with
      | .no => !w.u && r.vb.ok w.ty w.stype w.vb
      | .must => w.u && decide (w.vb.toNat ≤ 31)
      | .may => if w.u then decide (w.vb.toNat ≤ 31) && !w.lrb else r.vb.ok w.ty w.stype w.vb) &&
    (!w.sat || r.sat) && (w.stype = 0 || r.stype) && (w.khi = 0 || r.khi) && semFieldsOk w true
  | .LI =>
    r.vd.ok w.ty 0 w.vd && r.va.ok w.ty 0 w.va && w.vb = 0 && r.vc.ok w.ty 0 w.vc
  | .LM =>
    r.vd.ok w.ty 0 w.vd && r.va.ok w.ty 0 w.va && w.lmRsv = 0 && !w.lmBit39 &&
    r.sems.contains w.sem.toNat && (if r.scope then decide (w.scope.toNat ≤ 4) else w.scope = 0) &&
    (r.hint || w.hint = 0) && (r.slot || w.slot = 0) && (r.ofs || w.ofs = 0) && semFieldsOk w true
  | .LC =>
    r.vd.ok w.ty 0 w.vd && (r.off || w.off24 = 0) && decide (w.off24.toInt % 3 = 0) &&
    decide (w.rcv.toInt % 3 = 0) && (if r.rcv then w.rcv ≠ 0 else w.rcv = 0) && semFieldsOk w false

/-! ## The rule of each lane instruction -/

namespace Rule

def allTypes : List Nat := [0, 1, 2, 3, 4, 5, 6, 7, 8, 9, 10, 11, 12, 13, 14, 15]
def intTypes : List Nat := [1, 2, 3, 4, 5, 6, 7, 8]
def bTypes : List Nat := [0, 8]
def shiftTypes : List Nat := [0, 5, 6, 8]
def fTypes : List Nat := [9, 10, 11, 12]
def wordTypes : List Nat := [0, 3, 4, 7, 8, 11, 12]

/-- INT, LOGIC and SHIFT members with two sources (R171 to R173). -/
def bin (types : List Nat) (sat : Bool) : LaneRule := { vd := .dst, va := .src, vb := .src, types := types, sat := sat, u := .may }
/-- Members with one source. -/
def un (types : List Nat) (sat : Bool) : LaneRule := { vd := .dst, va := .src, types := types, sat := sat }
/-- The immediate form of a two-source member (R169). -/
def li (types : List Nat) : LaneRule := { cls := .LI, vd := .dst, va := .src, types := types }
def fbin (sat round : Bool) : LaneRule :=
  { vd := .dst, va := .src, vb := .src, types := fTypes, sat := sat, u := .may, rm := if round then .round else .zero }
def fun1 (round : Bool) : LaneRule := { vd := .dst, va := .src, types := fTypes, rm := if round then .round else .zero }
def fli (round : Bool) : LaneRule := { cls := .LI, vd := .dst, va := .src, types := fTypes, rm := if round then .round else .zero }
def fma : LaneRule :=
  { vd := .dst, va := .src, vb := .src, vc := .src, types := fTypes, sat := true, u := .may, rm := .round }
def pred2 : LaneRule := { vd := .pw, va := .pr, vb := .pr }
def shfl : LaneRule := { vd := .dst, va := .src, vc := .imm 63, types := bTypes }
def atom (types : List Nat) (sems : List Nat) : LaneRule :=
  { cls := .LM, vd := .dst, va := .grp 3 1, types := types, sems := sems, scope := true, hint := true, sm := false }
def rng : LaneRule := { cls := .LM, vd := .dst, va := .grp 3 1, sm := false }
def tex : LaneRule :=
  { cls := .LM, vd := .dstGrp 4 4, va := .grp 4 4, types := [11], scope := true, hint := true, ofs := false }
def lc : LaneRule := { cls := .LC, sm := false }

end Rule

/-- The decode rule of a lane instruction; none for other steps. -/
def laneRule (i : Instr) : Option LaneRule :=
  match i with
  | .laneAdd _ => some (Rule.bin Rule.intTypes true)
  | .laneSub _ => some (Rule.bin Rule.intTypes true)
  | .laneMul _ => some (Rule.bin Rule.intTypes true)
  | .mulhi _ => some (Rule.bin Rule.intTypes false)
  | .laneMin _ => some (Rule.bin Rule.intTypes false)
  | .laneMax _ => some (Rule.bin Rule.intTypes false)
  | .laneAbs _ => some (Rule.un [1, 2, 3, 4] true)
  | .laneNeg _ => some (Rule.un Rule.intTypes true)
  | .addLi _ => some (Rule.li Rule.intTypes)
  | .subLi _ => some (Rule.li Rule.intTypes)
  | .mulLi _ => some (Rule.li Rule.intTypes)
  | .mulhiLi _ => some (Rule.li Rule.intTypes)
  | .minLi _ => some (Rule.li Rule.intTypes)
  | .maxLi _ => some (Rule.li Rule.intTypes)
  | .imad _ => some { Rule.bin Rule.intTypes true with vc := .src }
  | .laneAnd _ => some (Rule.bin Rule.bTypes false)
  | .laneOr _ => some (Rule.bin Rule.bTypes false)
  | .laneXor _ => some (Rule.bin Rule.bTypes false)
  | .laneNot _ => some (Rule.un Rule.bTypes false)
  | .andn _ => some (Rule.bin Rule.bTypes false)
  | .andLi _ => some (Rule.li Rule.bTypes)
  | .orLi _ => some (Rule.li Rule.bTypes)
  | .xorLi _ => some (Rule.li Rule.bTypes)
  | .andnLi _ => some (Rule.li Rule.bTypes)
  | .shl _ => some (Rule.bin Rule.shiftTypes false)
  | .shr _ => some (Rule.bin Rule.shiftTypes false)
  | .sha _ => some (Rule.bin Rule.shiftTypes false)
  | .rol _ => some (Rule.bin Rule.shiftTypes false)
  | .ror _ => some (Rule.bin Rule.shiftTypes false)
  | .shlLi _ => some (Rule.li Rule.shiftTypes)
  | .shrLi _ => some (Rule.li Rule.shiftTypes)
  | .shaLi _ => some (Rule.li Rule.shiftTypes)
  | .rolLi _ => some (Rule.li Rule.shiftTypes)
  | .rorLi _ => some (Rule.li Rule.shiftTypes)
  | .popc _ => some (Rule.un Rule.bTypes false)
  | .clz _ => some (Rule.un Rule.bTypes false)
  | .ctz _ => some (Rule.un Rule.bTypes false)
  | .brev _ => some (Rule.un Rule.bTypes false)
  | .bfx _ => some (Rule.bin [3, 7] false)
  | .bfi _ => some { Rule.bin [0] false with vc := .src }
  | .fadd _ => some (Rule.fbin true true)
  | .fsub _ => some (Rule.fbin true true)
  | .fmul _ => some (Rule.fbin true true)
  | .fmin _ => some (Rule.fbin false false)
  | .fmax _ => some (Rule.fbin false false)
  | .fabs _ => some (Rule.fun1 false)
  | .fneg _ => some (Rule.fun1 false)
  | .faddLi _ => some (Rule.fli true)
  | .fsubLi _ => some (Rule.fli true)
  | .fmulLi _ => some (Rule.fli true)
  | .fminLi _ => some (Rule.fli false)
  | .fmaxLi _ => some (Rule.fli false)
  | .fma _ => some (Rule.fma)
  | .fms _ => some (Rule.fma)
  | .fnma _ => some (Rule.fma)
  | .fdiv _ => some (Rule.fbin true true)
  | .fsqrt _ => some (Rule.fun1 true)
  | .icmp _ => some { vd := .pw, va := .src, vb := .src, vc := .imm 5, types := [3, 4, 7, 8], u := .may }
  | .fcmp _ => some { vd := .pw, va := .src, vb := .src, vc := .imm 7, types := [11, 12], u := .may }
  | .fclass _ => some (Rule.fun1 false)
  | .icmpLi _ => some { cls := .LI, vd := .pw, va := .src, vc := .imm 5, types := [3, 4, 7, 8] }
  | .fcmpLi _ => some { cls := .LI, vd := .pw, va := .src, vc := .imm 7, types := [11, 12] }
  | .sel _ => some { vd := .dst, va := .src, vb := .src, vc := .pr, types := Rule.bTypes, u := .may }
  | .selLi _ => some { cls := .LI, vd := .dst, va := .src, vc := .pr, types := Rule.bTypes }
  | .pand _ => some (Rule.pred2)
  | .por _ => some (Rule.pred2)
  | .pxor _ => some (Rule.pred2)
  | .pnot _ => some { vd := .pw, va := .pr }
  | .pmov _ => some { vd := .pw, va := .src1 }
  | .cvt _ => some { vd := .dst, va := .srcS, vb := .src1, vc := .imm 7, types := Rule.allTypes, sat := true, stype := true, u := .may, rm := .round }
  | .qnt _ => some { vd := .dst, va := .src1, vb := .src1, types := [15], stype := true, u := .may }
  | .aln _ => some { vd := .dst, va := .src1, vb := .src1, vc := .imm 1, types := [1, 2], stype := true, u := .may }
  | .shflIdx _ => some { vd := .dst, va := .src, vb := .src, types := Rule.bTypes, u := .may }
  | .shflXor _ => some (Rule.shfl)
  | .shflUp _ => some (Rule.shfl)
  | .shflDn _ => some (Rule.shfl)
  | .bcst _ => some (Rule.shfl)
  | .voteAny _ => some { vd := .pw, va := .pr }
  | .voteAll _ => some { vd := .pw, va := .pr }
  | .voteMask _ => some { vd := .dstGrp 2 2, va := .pr }
  | .reduce _ => some { vd := .dst, va := .src, vc := .imm 15, types := Rule.wordTypes, sat := true, rm := .round }
  | .scan _ => some { vd := .dst, va := .src, vc := .imm 31, types := Rule.wordTypes, sat := true, rm := .round }
  | .mov _ => some (Rule.un Rule.bTypes false)
  | .movu _ => some { vd := .dst, va := .uni, types := Rule.bTypes }
  | .movx _ => some { vd := .dst, va := .pr }
  | .movi _ => some { cls := .LI, vd := .dst, types := [0, 4, 8, 12] }
  | .krd _ => some { vd := .dst, va := .imm 255, khi := true }
  | .kwr _ => some { vd := .imm 255, va := .src, khi := true }
  | .lfmRd _ => some { vd := .dst }
  | .lfmWr _ => some { va := .src }
  | .sfx _ _ => some { vd := .dst, va := .src1, vc := .imm 15, types := [9, 10, 11] }
  | .sfxWait _ => some { va := .imm 255, vb := .imm 255, guard := false, sm := false }
  | .rsvSeed _ => some { va := .grp 2 2, vb := .grp 2 2, types := [8], u := .may }
  | .rsvUpd _ => some { va := .src1, vb := .src1, vc := .src1, types := [11] }
  | .rsvMrg _ => some { va := .grp 4 4, vb := .src1, vc := .imm 255, types := [11] }
  | .rsvFin _ => some { types := [11] }
  | .rsvGet _ => some { vd := .dstGrp 4 4, vc := .imm 1 }
  | .rsvDraw _ => some { vd := .dst, types := [11] }
  | .ld _ => some { cls := .LM, vd := .dst, va := .grp 3 1, types := Rule.allTypes, scope := true, hint := true }
  | .st _ => some { cls := .LM, vd := .dst, va := .grp 3 1, types := Rule.allTypes, scope := true, hint := true }
  | .stn _ => some { cls := .LM, vd := .dst, va := .grp 3 1, types := [15], scope := true, hint := true, sm := false }
  | .atomAdd _ => some (Rule.atom [3, 4, 7, 8] [0, 1, 2, 3, 4, 5, 6, 7, 8])
  | .atomSwap _ => some (Rule.atom Rule.bTypes [0, 2, 3, 4, 5, 6, 7, 8])
  | .atomAnd _ => some (Rule.atom Rule.bTypes [0, 1, 2, 3, 4, 5, 6, 7, 8])
  | .atomOr _ => some (Rule.atom Rule.bTypes [0, 1, 2, 3, 4, 5, 6, 7, 8])
  | .atomXor _ => some (Rule.atom Rule.bTypes [0, 1, 2, 3, 4, 5, 6, 7, 8])
  | .atomMax _ => some (Rule.atom [3, 4, 7, 8] [0, 1, 2, 3, 4, 5, 6, 7, 8])
  | .atomFadd _ => some (Rule.atom [11, 12] [0, 1, 2, 3, 4, 5, 6, 7, 8])
  | .atomCas _ => some { Rule.atom Rule.bTypes [0, 2, 3, 4, 5, 6, 7, 8] with vd := .dstGrp 2 2 }
  | .lds _ => some { Rule.atom Rule.wordTypes [0, 1, 2, 3, 4, 5, 8] with vd := .dst }
  | .sts _ => some { Rule.atom Rule.wordTypes [0, 1, 2, 3, 4, 6, 8] with vd := .dst }
  | .fence _ => some { cls := .LM, sems := [5, 6, 7, 8], scope := true, slot := false, ofs := false, guard := false, sm := false }
  | .cwb _ => some (Rule.rng)
  | .cinv _ => some (Rule.rng)
  | .cflush _ => some (Rule.rng)
  | .stq _ => some { cls := .LM, vd := .dst, va := .grp 3 1, types := [8], sm := false }
  | .pfh _ => some { cls := .LM, va := .grp 3 1, types := Rule.allTypes, hint := true, sm := false }
  | .texSmp _ => some (Rule.tex)
  | .texFch _ => some (Rule.tex)
  | .bra _ => some { Rule.lc with vd := .imm 15, off := true, rcv := true }
  | .brx _ => some { Rule.lc with vd := .src1, rcv := true }
  | .reconv _ => some { Rule.lc with guard := false }
  | .exit _ => some (Rule.lc)
  | .mig _ => some { Rule.lc with mh := true }
  | .barArv _ => some { Rule.lc with vd := .imm 15, guard := false }
  | .barWait _ => some { Rule.lc with vd := .imm 15, guard := false, sm := true }
  | .safe _ => some { Rule.lc with sm := true }
  | .yield _ => some (Rule.lc)
  | .nop _ => some { Rule.lc with sm := true }
  | .spawn _ => some { Rule.lc with vd := .dstGrp 2 2 }
  | .fwait _ => some { Rule.lc with vd := .dstGrp 4 4 }
  | .send _ => some { Rule.lc with vd := .dstGrp 4 4 }
  | .mld _ => some { vc := .imm 63, types := [1, 2, 15], u := .must }
  | .mmaG _ => some { va := .src1, vb := .src1 }
  | .accZero _ => some { vd := .imm 255, vc := .imm 255, khi := true }
  | .ringAdv _ => some { vc := .imm 3 }
  | .ringWait _ => some { vd := .dst, vc := .imm 127 }
  | .blmEmit _ => some { va := .grp 2 2, types := [8] }
  | .blmRead _ => some { vd := .dst, vc := .imm 127 }
  | .blmAdvance _ => some { vc := .imm 127, u := .must }
  | .blmFlush _ => some { vc := .imm 127, u := .must }
  | .blmClear _ => some { vc := .imm 127, u := .must }
  | .resv _ => some { vd := .dst, vc := .pw, types := [8], u := .must }
  | .commit _ => some { va := .grp 2 2, types := [8], u := .must }
  | .cancel _ => some { va := .grp 2 2, types := [8], u := .must }
  | .emitV _ => some { va := .grp 2 2, vb := .src1, vc := .grp 8 8 }
  | .emitP _ => some { va := .grp 2 2, vb := .src1, vc := .src1 }
  | _ => none

/-- The checks of single entries beyond their rule's fields. -/
def laneExtra (i : Instr) : Bool :=
  match i with
  | .sfx fn _ => decide (fn.toNat ≤ 8)
  | .cvt w =>
    -- R180: pairs refused, selector range, vb only with .oq4
    let t := w.ty
    let s := w.stype
    decide (s ≠ t) && decide (t ≠ 0 ∧ s ≠ 0 ∧ t ≠ 15) && (decide (s ≠ 15) || decide (t = 11)) &&
    (decide (s = 15) || (decide (w.vb = 0) && !w.u && !w.lrb)) &&
    (let ns := tyCount s
     let nd := tyCount t
     let n := min ns nd
     if ns = nd then w.vc = 0 else if ns > nd then decide (w.vc.toNat < ns / n) else decide (w.vc.toNat < nd / n))
  | .qnt w =>
    -- R181: .f32 reads va to va + 7, .bf16 va to va + 3
    (w.stype = 11 && decide (w.va.toNat ≤ 248)) || (w.stype = 10 && decide (w.va.toNat ≤ 252))
  | .aln w =>
    -- R182: type pairs
    (w.ty = 1 && (w.stype = 13 || w.stype = 14)) || (w.ty = 2 && w.stype = 10)
  | .reduce w => redOk w (w.vc.toNat)
  | .scan w => redOk w (w.vc.toNat % 16)
  | .atomCas w => w.ty = 0 || decide (w.vd.toNat % 4 = 0)
  | .ringWait w => decide (1 ≤ w.vc.toNat / 4 ∧ w.vc.toNat / 4 ≤ 16)
  | .blmRead w => decide (w.vc.toNat / 16 ≤ 4)
  | .blmAdvance w => decide (w.vc.toNat / 16 = 0)
  | .blmFlush w => decide (w.vc.toNat / 16 = 1)
  | .blmClear w => decide (w.vc.toNat / 16 = 2)
  | .bra w => w.vd ≠ 8
  | _ => true
where
  /-- R185: operation codes by type, rounding only for a floating add, SAT only for an integer add. -/
  redOk (w : LaneWord) (op : Nat) : Bool :=
    let ti := tyInt w.ty
    let tf := w.ty = 11 || w.ty = 12
    (match op with
      | 0 => ti || tf
      | 1 | 2 => ti || tf
      | 3 | 4 | 5 => w.ty = 0
      | _ => false) &&
    (if tf && op = 0 then decide (w.rm.toNat ≤ 4) else w.rm = 0) &&
    (!w.sat || (ti && op = 0))

/-- The lane word passes every decode check of R157 step 2. -/
def laneOk (i : Instr) : Bool :=
  match laneRule i, laneParts i with
  | some r, some (_, _, w) => r.commonOk w && r.classOk w && laneExtra i
  | _, _ => false

end Sys2Proof
end

