-- ==== Sys2Proof/Config.lean ====
section
/-! DEFINITION. What an implementation fixes and what the spec leaves open: constants without a body, so that nothing can
prove a value of them. Each is applied to State's counter of free draws, or to the operands it depends on. The log
entries 6 and later say which rule leaves each open. -/

namespace Sys2Proof.Config

/-- A fresh 64-bit free value for the draw numbered `n` (log 6). -/
opaque freeDword : Nat → BitVec 64

/-- A free choice below `bound` (when it is above 0) for the draw `n`: which of several permitted outcomes happens. -/
opaque freeNat : Nat → Nat

/-- Result bits of a special function within its bound: function, type code, input bits (R327). -/
opaque sfxBits : BitVec 8 → BitVec 4 → Word → Word

/-- Entries that the spill ring of a cluster's class queue holds (R128): cluster, class. -/
opaque ringEntries : Nat → Nat → Nat

/-- The value that lane `lane` would take from an operation the spec gives no result for: operation, operand bits. -/
opaque openResult : Nat → Dword → Dword → Dword

/-- Signature bytes of an attestation (R433) for the signed bytes. -/
opaque attestSignature : List Byte → List Byte

/-- SHA-384 digest of the management firmware of the part (R433). -/
opaque firmwareDigest : List Byte

end Sys2Proof.Config
end

