-- ==== Sys2Proof/Machine/Float.lean ====
section
/-! DEFINITION. Number formats and exact arithmetic (R34 to R48): unpacking to exact values, one rounding per operation in
every mode of R43, overflow by R46, tininess after rounding (R39), flags as fcsr[4:0] numbers them. -/

namespace Sys2Proof.Machine

/-! ## Formats (R37, R38, R40) -/

/-- A floating-point format: exponent and fraction bits, bias, whether it has infinities. -/
structure FFmt where
  ebits : Nat
  mbits : Nat
  bias : Nat
  hasInf : Bool
deriving DecidableEq, Repr

namespace FFmt

def f64 : FFmt := { ebits := 11, mbits := 52, bias := 1023, hasInf := true }
def f32 : FFmt := { ebits := 8, mbits := 23, bias := 127, hasInf := true }
def f16 : FFmt := { ebits := 5, mbits := 10, bias := 15, hasInf := true }
def bf16 : FFmt := { ebits := 8, mbits := 7, bias := 127, hasInf := true }
def e5m2 : FFmt := { ebits := 5, mbits := 2, bias := 15, hasInf := true }
def e4m3 : FFmt := { ebits := 4, mbits := 3, bias := 7, hasInf := false }

def width (f : FFmt) : Nat := 1 + f.ebits + f.mbits
def signBit (f : FFmt) : Nat := 2 ^ (f.ebits + f.mbits)
def expMax (f : FFmt) : Nat := 2 ^ f.ebits - 1
/-- Canonical NaN (R40). -/
def nan (f : FFmt) : Nat := if f.hasInf then f.expMax * 2 ^ f.mbits + 2 ^ (f.mbits - 1) else 0x7F
/-- +∞, or the NaN that stands for it in .e4m3 (R46). -/
def inf (f : FFmt) : Nat := if f.hasInf then f.expMax * 2 ^ f.mbits else 0x7F
/-- Largest finite value. -/
def maxFin (f : FFmt) : Nat := if f.hasInf then f.expMax * 2 ^ f.mbits - 1 else 0x7E
/-- Its significand and the exponent of its last place. -/
def maxSig (f : FFmt) : Nat := if f.hasInf then 2 ^ (f.mbits + 1) - 1 else 14
def maxExp (f : FFmt) : Int := if f.hasInf then (f.expMax - 1 : Int) - f.bias - f.mbits else 5
/-- Exponent of the last place of subnormals. -/
def minExp (f : FFmt) : Int := 1 - (f.bias : Int) - f.mbits

end FFmt

/-- An exact value: NaN (signalling or not), infinity, or ±m·2^e. -/
inductive FVal where
  | nan (signalling : Bool)
  | inf (neg : Bool)
  | fin (neg : Bool) (m : Nat) (e : Int)
deriving DecidableEq, Repr

/-- The value that bits encode in a format (R37, R38). -/
def unpack (f : FFmt) (b : Nat) : FVal :=
  let frac := b % 2 ^ f.mbits
  let ex := b / 2 ^ f.mbits % 2 ^ f.ebits
  let neg := b / f.signBit % 2 = 1
  if ex = f.expMax ∧ f.hasInf then
    if frac = 0 then .inf neg else .nan (frac < 2 ^ (f.mbits - 1))
  else if ex = f.expMax ∧ frac = 7 ∧ !f.hasInf then .nan false
  else if ex = 0 then .fin neg frac f.minExp
  else .fin neg (frac + 2 ^ f.mbits) ((ex : Int) - f.bias - f.mbits)

namespace Flag
def nv : Nat := 16
def dz : Nat := 8
def ofl : Nat := 4
def uf : Nat := 2
def nx : Nat := 1
end Flag

/-- A result with the flags it raises. -/
structure FRes where
  bits : Nat
  flags : Nat := 0
deriving DecidableEq, Repr

/-- A rounding: a mode of R43 (0 to 5), with the 24-bit draw of stochastic rounding (R45). -/
structure Rnd where
  mode : Nat
  u : Nat := 0
deriving DecidableEq, Repr

/-- Whether the magnitude (sig + rem/2^sh + sticky below)·2^q goes up to the next value (R44, R45). -/
def roundUp (r : Rnd) (neg : Bool) (sig rem sh : Nat) (sticky : Bool) : Bool :=
  let inexact := rem != 0 || sticky
  match r.mode with
  | 0 => decide (2 ^ sh < 2 * rem) || (decide (2 * rem = 2 ^ sh) && sh != 0 && (sticky || sig % 2 = 1))
  | 1 => false
  | 2 => neg && inexact
  | 3 => !neg && inexact
  | 4 => decide (2 ^ sh ≤ 2 * rem) && sh != 0
  | _ => decide (r.u * 2 ^ sh < rem * 2 ^ 24) || (decide (r.u * 2 ^ sh = rem * 2 ^ 24) && sticky)

/-- The value m·2^e, with a tail below its last place when `sticky`, as a significand at exponent `q` and what remains. -/
def splitAt (m : Nat) (e q : Int) : Nat × Nat × Nat :=
  if q ≤ e then (m * 2 ^ (e - q).toNat, 0, 0)
  else (m / 2 ^ (q - e).toNat, m % 2 ^ (q - e).toNat, (q - e).toNat)

def log2 (m : Nat) : Nat := Nat.log2 m

/-- The overflow result of R46, with .sat. -/
def overflowBits (f : FFmt) (r : Rnd) (sat neg : Bool) : Nat :=
  let s := if neg then f.signBit else 0
  let toInf := if f.hasInf then s + f.inf else 0x7F
  if sat then s + f.maxFin else
  match r.mode with
  | 1 => s + f.maxFin
  | 2 => if neg then toInf else f.maxFin
  | 3 => if neg then s + f.maxFin else toInf
  | _ => toInf

/-- Rounding of the exact magnitude m·2^e (with a tail when `sticky`) and sign to a format (R44 to R46). -/
def roundTo (f : FFmt) (r : Rnd) (sat neg : Bool) (m : Nat) (e : Int) (sticky : Bool) : FRes :=
  let s := if neg then f.signBit else 0
  if m = 0 then { bits := s } else
  let top : Int := (log2 m : Int) + e
  let q := max (top - f.mbits) f.minExp
  let (sig, rem, sh) := splitAt m e q
  let inexact := rem != 0 || sticky
  let sig := if roundUp r neg sig rem sh sticky then sig + 1 else sig
  let (sig, q) := if sig = 2 ^ (f.mbits + 1) then (2 ^ f.mbits, q + 1) else (sig, q)
  if f.maxExp < q ∨ (q = f.maxExp ∧ f.maxSig < sig) then
    { bits := overflowBits f r sat neg, flags := Flag.ofl + Flag.nx }
  else
    let emin := f.minExp + f.mbits
    let tiny :=
      if emin ≤ top then false else
      let (sig2, rem2, sh2) := splitAt m e (top - f.mbits)
      let sig2 := if roundUp r neg sig2 rem2 sh2 sticky then sig2 + 1 else sig2
      !(top = emin - 1 && sig2 = 2 ^ (f.mbits + 1))
    let bits :=
      if sig < 2 ^ f.mbits then sig else (q + f.mbits + f.bias).toNat * 2 ^ f.mbits + (sig - 2 ^ f.mbits)
    { bits := s + bits, flags := (if inexact then Flag.nx else 0) + (if inexact && tiny then Flag.uf else 0) }

/-! ## Operations -/

def FVal.isNan (v : FVal) : Bool := match v with
  | .nan _ => true
  | _ => false
def FVal.isSig (v : FVal) : Bool := match v with
  | .nan sg => sg
  | _ => false
def FVal.isZero (v : FVal) : Bool := match v with
  | .fin _ m _ => m = 0
  | _ => false
def FVal.isInf (v : FVal) : Bool := match v with
  | .inf _ => true
  | _ => false
def FVal.neg (v : FVal) : Bool := match v with
  | .inf n => n
  | .fin n _ _ => n
  | .nan _ => false
def FVal.negate (v : FVal) : FVal := match v with
  | .inf n => .inf (!n)
  | .fin n m e => .fin (!n) m e
  | .nan sg => .nan sg

/-- A NaN result (R40): NV from a signalling operand, or as the operation says. -/
def nanRes (f : FFmt) (nv : Bool) : FRes := { bits := f.nan, flags := if nv then Flag.nv else 0 }

def infRes (f : FFmt) (neg : Bool) : FRes := { bits := (if neg then f.signBit else 0) + f.inf }

/-- An exact value in a format, rounded once. -/
def roundVal (f : FFmt) (r : Rnd) (sat : Bool) (v : FVal) : FRes :=
  match v with
  | .nan sg => nanRes f sg
  | .inf n => infRes f n
  | .fin n m e => roundTo f r sat n m e false

/-- The exact sum of two finite values; an exact zero takes the sign of equal-signed zeros, else + (− when rounding
down). -/
def sumVal (down : Bool) (n1 : Bool) (m1 : Nat) (e1 : Int) (n2 : Bool) (m2 : Nat) (e2 : Int) : FVal :=
  let e := min e1 e2
  let a : Int := (if n1 then -1 else 1) * (m1 * 2 ^ (e1 - e).toNat : Nat)
  let b : Int := (if n2 then -1 else 1) * (m2 * 2 ^ (e2 - e).toNat : Nat)
  let c := a + b
  if c = 0 then .fin (if m1 = 0 ∧ m2 = 0 ∧ n1 = n2 then n1 else down) 0 0
  else .fin (c < 0) c.natAbs e

def fadd (f : FFmt) (r : Rnd) (sat : Bool) (a b : FVal) : FRes :=
  match a, b with
  | .nan s1, .nan s2 => nanRes f (s1 || s2)
  | .nan s1, _ => nanRes f s1
  | _, .nan s2 => nanRes f s2
  | .inf n1, .inf n2 => if n1 = n2 then infRes f n1 else nanRes f true
  | .inf n1, .fin _ _ _ => infRes f n1
  | .fin _ _ _, .inf n2 => infRes f n2
  | .fin n1 m1 e1, .fin n2 m2 e2 => roundVal f r sat (sumVal (r.mode = 2) n1 m1 e1 n2 m2 e2)

def fsub (f : FFmt) (r : Rnd) (sat : Bool) (a b : FVal) : FRes := fadd f r sat a b.negate

def fmul (f : FFmt) (r : Rnd) (sat : Bool) (a b : FVal) : FRes :=
  match a, b with
  | .nan s1, .nan s2 => nanRes f (s1 || s2)
  | .nan s1, _ => nanRes f s1
  | _, .nan s2 => nanRes f s2
  | .inf n1, .inf n2 => infRes f (n1 != n2)
  | .inf n1, .fin n2 m2 _ => if m2 = 0 then nanRes f true else infRes f (n1 != n2)
  | .fin n1 m1 _, .inf n2 => if m1 = 0 then nanRes f true else infRes f (n1 != n2)
  | .fin n1 m1 e1, .fin n2 m2 e2 => roundTo f r sat (n1 != n2) (m1 * m2) (e1 + e2) false

/-- a·b + c with one rounding. A NaN addend with ∞·0 sets NV, as IEEE 754-2019 permits and RISC-V requires. -/
def ffma (f : FFmt) (r : Rnd) (sat : Bool) (a b c : FVal) : FRes :=
  let bad := (a.isInf && b.isZero) || (a.isZero && b.isInf)
  if a.isNan || b.isNan || c.isNan || bad then nanRes f (a.isSig || b.isSig || c.isSig || bad)
  else if a.isInf || b.isInf then
    let n := a.neg != b.neg
    if c.isInf && c.neg != n then nanRes f true else infRes f n
  else
    match a, b, c with
    | .fin n1 m1 e1, .fin n2 m2 e2, .fin n3 m3 e3 =>
      roundVal f r sat (sumVal (r.mode = 2) (n1 != n2) (m1 * m2) (e1 + e2) n3 m3 e3)
    | _, _, _ => infRes f c.neg

/-- Bits of quotient and root kept below the leading one before the tail. -/
def extraBits : Nat := 120

def fdiv (f : FFmt) (r : Rnd) (sat : Bool) (a b : FVal) : FRes :=
  let n := a.neg != b.neg
  if a.isNan || b.isNan then nanRes f (a.isSig || b.isSig) else
  match a, b with
  | .inf _, .inf _ => nanRes f true
  | .inf _, _ => infRes f n
  | _, .inf _ => { bits := if n then f.signBit else 0 }
  | .fin _ m1 e1, .fin _ m2 e2 =>
    if m2 = 0 then (if m1 = 0 then nanRes f true else { infRes f n with flags := Flag.dz })
    else if m1 = 0 then { bits := if n then f.signBit else 0 }
    else
      let k := extraBits + log2 m2
      let num := m1 * 2 ^ k
      roundTo f r sat n (num / m2) (e1 - e2 - k) (num % m2 != 0)
  | _, _ => nanRes f false

/-- The integer square root of `n` by its bits, from bit `k` down. -/
def isqrtFrom (n k acc : Nat) : Nat :=
  match k with
  | 0 => if (acc + 1) * (acc + 1) ≤ n then acc + 1 else acc
  | k + 1 =>
    let t := acc + 2 ^ (k + 1)
    isqrtFrom n k (if t * t ≤ n then t else acc)

def isqrt (n : Nat) : Nat := isqrtFrom n (log2 n / 2 + 1) 0

def fsqrt (f : FFmt) (r : Rnd) (sat : Bool) (a : FVal) : FRes :=
  match a with
  | .nan sg => nanRes f sg
  | .inf n => if n then nanRes f true else infRes f false
  | .fin n m e =>
    if m = 0 then { bits := if n then f.signBit else 0 }
    else if n then nanRes f true
    else
      let k := 2 * extraBits + (if e % 2 = 0 then 0 else 1)
      let v := m * 2 ^ k
      let q := isqrt v
      roundTo f r sat false q ((e - k) / 2) (q * q != v)

/-! ## Comparison -/

/-- m1·2^e1 against m2·2^e2 with signs, as an integer comparison. -/
def cmpFin (n1 : Bool) (m1 : Nat) (e1 : Int) (n2 : Bool) (m2 : Nat) (e2 : Int) : Ordering :=
  let e := min e1 e2
  let a : Int := (if n1 then -1 else 1) * (m1 * 2 ^ (e1 - e).toNat : Nat)
  let b : Int := (if n2 then -1 else 1) * (m2 * 2 ^ (e2 - e).toNat : Nat)
  compare a b

/-- The order of two values, none when unordered. -/
def fcompare (a b : FVal) : Option Ordering :=
  match a, b with
  | .nan _, _ => none
  | _, .nan _ => none
  | .inf n1, .inf n2 => some (if n1 = n2 then .eq else if n1 then .lt else .gt)
  | .inf n1, _ => some (if n1 then .lt else .gt)
  | _, .inf n2 => some (if n2 then .gt else .lt)
  | .fin n1 m1 e1, .fin n2 m2 e2 => some (cmpFin n1 m1 e1 n2 m2 e2)

/-! ## Conversions -/

/-- A finite value rounded to an integer, and whether that was inexact (R47). -/
def roundInt (r : Rnd) (n : Bool) (m : Nat) (e : Int) : Int × Bool :=
  let (sig, rem, sh) := splitAt m e 0
  let sig := if roundUp r n sig rem sh false then sig + 1 else sig
  (if n then -(sig : Int) else sig, rem != 0)

/-- The range of an integer type. -/
def intRange (signed : Bool) (w : Nat) : Int × Int :=
  if signed then (-(2 ^ (w - 1) : Nat), (2 ^ (w - 1) : Nat) - 1) else (0, (2 ^ w : Nat) - 1)

def clampInt (lo hi x : Int) : Int := if x < lo then lo else if hi < x then hi else x

/-- The low `w` bits of an integer. -/
def wrapInt (w : Nat) (x : Int) : Nat := (x % (2 ^ w : Nat)).toNat

/-- Conversion to an integer type by R47: NaN gives 0, clamping sets NV. -/
def toIntSat (r : Rnd) (signed : Bool) (w : Nat) (v : FVal) : FRes :=
  let (lo, hi) := intRange signed w
  match v with
  | .nan _ => { bits := 0, flags := Flag.nv }
  | .inf n => { bits := wrapInt w (if n then lo else hi), flags := Flag.nv }
  | .fin n m e =>
    let (x, inexact) := roundInt r n m e
    if x < lo ∨ hi < x then { bits := wrapInt w (clampInt lo hi x), flags := Flag.nv }
    else { bits := wrapInt w x, flags := if inexact then Flag.nx else 0 }

/-- Conversion to an integer type by the RISC-V standard: NaN gives the largest value. -/
def toIntStd (r : Rnd) (signed : Bool) (w : Nat) (v : FVal) : FRes :=
  match v with
  | .nan _ => { bits := wrapInt w (intRange signed w).2, flags := Flag.nv }
  | v => toIntSat r signed w v

/-- An integer as an exact value. -/
def intVal (x : Int) : FVal := .fin (x < 0) x.natAbs 0

/-- Conversion between floating-point formats (R46, R48): infinities and NaN by R46. -/
def convertFmt (f : FFmt) (r : Rnd) (sat : Bool) (v : FVal) : FRes :=
  match v with
  | .nan sg => nanRes f sg
  | .inf n =>
    if sat then { bits := (if n then f.signBit else 0) + f.maxFin }
    else if f.hasInf then infRes f n
    else { bits := 0x7F, flags := Flag.nv }
  | .fin n m e => roundTo f r sat n m e false

/-- The class mask of the RISC-V FCLASS: bit 0 −∞ to bit 9 quiet NaN. -/
def fclassOf (f : FFmt) (b : Nat) : Nat :=
  match unpack f b with
  | .nan sg => if sg then 2 ^ 8 else 2 ^ 9
  | .inf n => if n then 1 else 2 ^ 7
  | .fin n m _ =>
    if m = 0 then (if n then 2 ^ 3 else 2 ^ 4)
    else if m < 2 ^ f.mbits then (if n then 2 ^ 2 else 2 ^ 5)
    else (if n then 2 else 2 ^ 6)

end Sys2Proof.Machine
end

