-- ==== Sys2Proof/WellFormed.lean ====
section
/-! DEFINITION. Well-formedness: the decode-time field checks of a lane word (laneOk, R147 to R157), the static limits
of the scalar operands (R69), and the ranges of event operands. A lane word that breaks its rule is a word the machine
traps on with RESERVED_FIELD (R157 step 2); a well-formed one is not. -/

namespace Sys2Proof

/-! ## Scalar operands and events -/

/-- The semantics code is one of R67. -/
def semOk (c : BitVec 4) : Bool := decide (c.toNat ≤ 8)

/-- Static limits of a scalar instruction's operand fields (R66 to R69), and the ranges of an event's operands. -/
def wf (i : Instr) : Bool :=
  match i with
  | .semWaiti _ _ n => n ≠ 0
  | .semSigi _ _ n => n ≠ 0
  | .engKick _ _ scope => decide (scope.toNat ≤ 4)
  | .fenceS _ sem => decide (5 ≤ sem.toNat ∧ sem.toNat ≤ 8)
  | .amoAdd a => semOk a.sem
  | .amoSwap a => semOk a.sem && a.sem ≠ 1
  | .amoAnd a => semOk a.sem
  | .amoOr a => semOk a.sem
  | .amoXor a => semOk a.sem
  | .amoMax a => semOk a.sem
  | .amoFadd a => semOk a.sem
  | .amoCas a => semOk a.sem && a.sem ≠ 1
  | .standardInstruction (.illegal w) => decodeScalar w = illegal w
  | .reservedLaneOpcode w => decodeLane w = .reservedLaneOpcode w
  | .wqDoorbell q _ => decide (q < 4096)
  | .launchRecordTake q => decide (q < 4096)
  | .crewAdmit c cls => decide (c < 128 ∧ cls < 4)
  | .dmringWrite c r _ => decide (c < 128 ∧ r < 4)
  | .hotnessHalving d => decide (d < 4)
  | .coreReset c => decide (c < 8192)
  | .attestation n => decide (n.length = 48)
  | i => match laneParts i with
    | some _ => laneOk i
    | none => true

end Sys2Proof
end

