-- ==== Sys2Proof/Machine/State.lean ====
section
/-! DEFINITION. The state of the package as plain data: harts, waves, clusters, memory, coherence, front end, engines,
host ports and the model's own schedule; the ways a step can stop; the state after reset. Numbers of units: a strand is
cluster·512 + core·8 + context (R19), a core cluster·64 + core, a wave engine cluster·8 + engine, a wave
cluster·128 + engine·16 + slot (R125), an engine instance cluster·7 + instance (R319), a crew cluster·8 + slot, a
semaphore cluster·4096 + physical index (R241), a die 0 to 3. Lines, pages and regions are physical addresses divided by
their size. -/

namespace Sys2Proof.Machine

/-! ## Scalar harts -/

/-- Privilege level of a hart (R11). -/
inductive Priv where
  | u | s
deriving DecidableEq, Repr

/-- A load reservation (R17): the granule it covers and the line of its address. -/
structure Reservation where
  granule : Nat
  line : Nat
  untracked : Bool
deriving DecidableEq, Repr

/-- What a parked hart waits for (R91). -/
inductive Park where
  | wfi | sem | fut | recv | kickFull | rendezvous | inval | migBlock | ringFull | sends | replySlot | laneHandler | datapath
  | retire | safe
deriving DecidableEq, Repr

/-- Whether a hart issues (R28, R31, R91, R100). -/
inductive Run where
  | idle | running | parked (p : Park) | stopped
deriving DecidableEq, Repr

/-- What a wake-up granted to a parked hart before it runs its instruction again (R91). -/
inductive Grant where
  | value (v : Dword) | poison | fault (code detail : Nat) (addr : Dword)
deriving DecidableEq, Repr

/-- A crew of a cluster slot, with the generation a continuation carries (R126). -/
structure CrewRef where
  cluster : Nat
  slot : Nat
  gen : Nat
deriving DecidableEq, Repr

/-- A record of a graphics node (R375): the node by physical address of its descriptor divided by 128, the slot, and the
number of the reservation. -/
structure GfxRef where
  node : Nat
  slot : Nat
  id : Nat
deriving DecidableEq, Repr

/-- A message (R102, R103): its network, priority, destination word, resolved target context, sender word and bytes. -/
structure Msg where
  reply : Bool := false
  pri : Bool := false
  /-- bits [31:0] of the destination word -/
  dest : Dword := 0
  /-- the context a MODE 0 message names; a rank of a crew of the launch for MODE 1 and 2 -/
  target : Nat := 0
  /-- the launch and the linear index of the target crew, for MODE 1 and 2 -/
  rank : Option (Nat × Nat) := none
  /-- the package it goes to, when that is not this one -/
  pkg : Option Nat := none
  sender : Dword := 0
  /-- number of the send queue that holds its entry: a core, or 8192 + a wave engine -/
  queue : Nat := 0
  /-- entry number in that send queue -/
  entry : Nat := 0
  payload : List Byte := []
  /-- the handler of a msg.sendh message -/
  handler : Option (List Byte) := none
  /-- the scalar hart, or the wave, that sent it -/
  origin : Option HartId := none
  wave : Option Nat := none
deriving DecidableEq, Repr

/-- A handler that runs on a context (R402): its code, the offset of the next instruction, the registers it shadows, the
interrupted pc and run state. -/
structure Handler where
  code : List Byte
  off : Nat
  saved : List Dword
  sender : Dword
  dest : Dword
  replied : Bool
  wasParked : Option Park
deriving DecidableEq, Repr

/-- What a hart knows of its kicks to one engine (R107, R108, R321). -/
structure KickRec where
  outstanding : Nat := 0
  word : Dword := 0
  scope : Nat := 0
  /-- no eng.rdv has completed since the last kick (R405) -/
  unmet : Bool := false
deriving DecidableEq, Repr

/-- One scalar hart (R14, R18, R33, R319): registers, standard and device CSRs, and what the hardware keeps of the
running continuation. -/
structure Hart where
  pc : Dword := 0
  x : Vector Dword 32 := Vector.replicate 32 0
  f : Vector Dword 32 := Vector.replicate 32 0
  fcsr : Byte := 0
  mb : Vector Dword 8 := Vector.replicate 8 0
  mbFull : Byte := 0
  mbOvr : Byte := 0
  /-- deposits of the present clk, which land at its end (R105) -/
  deps : List (Nat × Dword) := []
  priv : Priv := .u
  /-- sstatus without SD, which reads as derived from FS -/
  sstatus : Dword := 0
  stvec : Dword := 0
  sscratch : Dword := 0
  sepc : Dword := 0
  scause : Dword := 0
  stval : Dword := 0
  sie : Dword := 0
  /-- sip.SSIP; STIP and SEIP are derived (R25, R414) -/
  ssip : Bool := false
  scounteren : Dword := 0
  dcrew : Dword := 0
  dcause : Dword := 0
  /-- dstatus.TN and dstatus.HM -/
  tn : Bool := false
  hm : Bool := false
  dptb : Dword := 0
  dtimecmp : Dword := BitVec.allOnes 64
  instret : Dword := 0
  resv : Option Reservation := none
  run : Run := .idle
  granted : Option Grant := none
  /-- the crew of the running continuation and its launch -/
  crew : Option CrewRef := none
  launch : Nat := 0
  /-- strand rank in the crew, or stack index for a continuation -/
  rank : Nat := 0
  stack : Option Nat := none
  /-- the unit belongs to its crew's reserved units (R127, R240) -/
  bound : Bool := false
  /-- the join pointer held apart from x11 (R31, R100), and whether there is a duty -/
  join : Dword := 0
  duty : Bool := false
  /-- the record whose continuation the unit runs (R378) -/
  gfx : Option GfxRef := none
  handler : Option Handler := none
  /-- handler messages offered and waiting (R402) -/
  handlerQueue : List Msg := []
  /-- messages of the inbox, oldest first (R104), and of the overflow queue behind it (R416) -/
  inbox : List Msg := []
  overflow : List Msg := []
  kicks : Map KickRec := []
deriving DecidableEq, Repr

/-! ## Waves -/

/-- A code section as placed: role, virtual base, size. -/
structure Section where
  role : Nat := 0
  va : Nat := 0
  pa : Nat := 0
  size : Nat := 0
deriving DecidableEq, Repr

/-- A group of lanes (R132): mask, lane pc as a byte offset in the lane section, token (0 none, else a record number),
whether its next instruction's wait has been granted (R158), whether it waits in a semaphore's queue, and the clk at which
it joined the fragments (R136). -/
structure Group where
  mask : Mask
  pc : Nat
  token : Nat := 0
  granted : Bool := false
  waiting : Bool := false
  since : Nat := 0
deriving DecidableEq, Repr

/-- A reconvergence record (R133). -/
structure RecRec where
  addr : Nat
  parent : Nat
  pending : Mask
  arrived : Mask
deriving DecidableEq, Repr

/-- What a pending lane access does when it is performed (R196). -/
inductive AccessOp where
  | load | store
deriving DecidableEq, Repr

/-- Where a run of bytes of an access lies. -/
inductive Loc where
  /-- physical memory, within one line -/
  | mem (pa : Nat) (untracked : Bool)
  /-- device registers (R429) -/
  | device (pa : Nat)
  /-- on-chip storage by key -/
  | key (k : Nat)
  /-- the context block of a strand (R142) -/
  | ctx (strand off : Nat)
  /-- the shape store of a crew slot (R122) -/
  | shape (cluster slot off : Nat)
deriving DecidableEq, Repr

structure Seg where
  loc : Loc
  len : Nat
deriving DecidableEq, Repr

/-- One element of a pending lane access: lane, virtual address, places, data of a store. -/
structure Elem where
  lane : Nat
  va : Nat
  segs : List Seg
  data : Dword := 0
deriving DecidableEq, Repr

/-- A lane access issued and not yet performed (R196, R159). -/
structure PendAccess where
  n : Nat
  op : AccessOp
  vd : Nat
  ty : BitVec 4
  /-- bytes per element -/
  size : Nat
  elems : List Elem
  scope : Nat
  hint : Nat := 0
  /-- an acquire: later accesses of the wave wait for it (R275) -/
  hold : Bool := false
  /-- a quantum or speculative load, which may return an earlier value (R303, R304) -/
  lag : Bool := false
  /-- ASID whose translations it used, for R272 -/
  asid : Nat := 0
deriving DecidableEq, Repr

/-- What a signal waits for beside accesses: a token's result (R328), a matrix command (R340, R345), the events of a
BLM.EMIT by their first and last number (R370). -/
structure Await where
  token : Option Nat := none
  cmd : Option Nat := none
  events : Option (Nat × Nat) := none
deriving DecidableEq, Repr

/-- A lane signal not yet landed (R159): semaphore, amount, the number below which every access must be performed, what
else it waits for. -/
structure PendSignal where
  sem : Nat
  amount : Nat
  after : Nat
  on : Await := {}
  /-- the lowest lane of the signalling group, which finds the group again, and its pc after the instruction -/
  lane : Nat := 0
  pc : Nat := 0
deriving DecidableEq, Repr

/-- An outstanding special-function instruction (R327, R328). -/
structure SfxOp where
  fn : BitVec 8
  ty : BitVec 4
  vd : Nat
  mask : Mask
  src : Lanes Word
deriving DecidableEq, Repr

/-- Accord state of one lane (R220). -/
structure Accord where
  smp : Word := 0
  ph : Word := 0
  ws : Word := 0
  m : Half := 0
  fin : Bool := false
  key : Dword := 0
  ctr : Dword := 0
deriving DecidableEq, Repr

/-- A wave's part of one barrier (R209): arrival mask, ticket, held bit. -/
structure BarWave where
  arrived : Mask := 0
  ticket : Byte := 0
  held : Bool := false
deriving DecidableEq, Repr

/-- The wave trap state (R395, R396). -/
structure WaveTrap where
  act : Bool := false
  src : Nat := 0
  grp : Bool := false
  held : Bool := false
  code : BitVec 16 := 0
  detail : BitVec 16 := 0
  lpc : Word := 0
  mask : Mask := 0
  sp7 : Mask := 0
  lvec : Dword := 0
  /-- lfm as it stood at entry (R398) -/
  lfm : Lanes Byte := Vector.replicate 64 0
  /-- the uniform hart was revived for the trap (R394) -/
  revived : Bool := false
  /-- the lanes that failed the trapping check (R397) -/
  failed : Mask := 0
deriving DecidableEq, Repr

/-- The supervisor's lane handler while it runs (R397): its group, its registers v248 to v255. -/
structure LaneHandler where
  group : Group
  base : Nat
  regs : Map (Lanes Word)
deriving DecidableEq, Repr

/-- One wave slot (R125, R132 to R136, R161, R220). -/
structure Wave where
  live : Bool := false
  hart : Hart := {}
  /-- the lane section of its role (R144) -/
  code : Section := {}
  /-- the uniform stream has ended, or never ran (R100, R140) -/
  uended : Bool := false
  /-- its buffer records are still to be copied (R193) -/
  bufDue : Bool := false
  rank : Nat := 0
  /-- the front end started it, so that it takes part in barriers (R209) -/
  front : Bool := false
  /-- its frame, to whose first 4 KiB fragments and records spill (R136); an Atomiser wave has none -/
  frame : Option Dword := none
  /-- start clk (R240) -/
  age : Nat := 0
  /-- lanes that have not exited or migrated -/
  lanes : Mask := 0
  pri : Option Group := none
  sec : Option Group := none
  frags : List Group := []
  recs : Map RecRec := []
  /-- the secondary slot issues next (R132) -/
  turnSec : Bool := false
  v : Map (Lanes Word) := []
  p : Vector Mask 8 := Vector.replicate 8 0
  lfm : Lanes Byte := Vector.replicate 64 0
  accord : Lanes Accord := Vector.replicate 64 {}
  /-- copies of the buffer records b0 to b15 and which are bound (R193) -/
  buf : Map (BitVec 256) := []
  /-- the join pointer and duty of each lane (R129) -/
  laneJoin : Map Dword := []
  /-- the record whose continuation each lane runs (R378) -/
  laneGfx : Map GfxRef := []
  dwstat : BitVec 2 := 0
  /-- wait-held bit and address (R160) -/
  waitHeld : Option Nat := none
  bars : Map BarWave := []
  accesses : List PendAccess := []
  nextAccess : Nat := 0
  signals : List PendSignal := []
  sfx : Map SfxOp := []
  trap : WaveTrap := {}
  lhandler : Option LaneHandler := none
  /-- the wave stopped at an honoured safe point for a pre-emption (R405) -/
  saved : Bool := false
  /-- poisoned 8-byte words of its registers (R412, R413): of v(n) word j, which lanes 2j and 2j + 1 share, is 32n + j; of
  predicate p 8192 + p; of the Accord of lane l word j is 8200 + 4l + j -/
  bad : List Nat := []
deriving DecidableEq, Repr

/-! ## Continuations, crews, launches, images -/

/-- A continuation record (R126) as its four doublewords. -/
structure Cont where
  w0 : Dword
  w1 : Dword
  w2 : Dword
  w3 : Dword
deriving DecidableEq, Repr

/-- A queued continuation with the clk it joined (R242), and the launch it belongs to. -/
structure QCont where
  c : Cont
  launch : Nat
  since : Nat
  /-- dcrew of the enqueuing unit (R127) and the page table of its address space -/
  dcrew : Dword := 0
  dptb : Dword := 0
  /-- the record that a program node passed on with it (R378) -/
  gfx : Option GfxRef := none
deriving DecidableEq, Repr

/-- An entry of the migration table (R85). -/
structure MigEntry where
  src : Nat
  srcRole : Nat
  lane : Bool
  dst : Nat
  dstRole : Nat
deriving DecidableEq, Repr

/-- An entry of the safe-point table (R85). -/
structure SafeEntry where
  off : Nat
  role : Nat
  lane : Bool
  count : Nat
deriving DecidableEq, Repr

/-- A kernel of an image (R85). -/
structure Kernel where
  name : List Byte := []
  role : Nat := 0
  entry : Nat := 0
  stages : Nat := 1
  waves : Nat := 0
  strands : Nat := 0
  regs : Nat := 0
  scr : Nat := 0
  acc : Nat := 0
  peak : Nat := 1
  gx : Nat := 1
  gy : Nat := 1
  gz : Nat := 1
  slotMask : Nat := 0
  shapes : Nat := 0
deriving DecidableEq, Repr

/-- An image as the loader holds it (R83 to R89, R430). -/
structure Image where
  /-- kind of each role: 0 strand, 1 wave, 2 engine -/
  roles : List Nat := []
  kernels : List Kernel := []
  strandCode : List Section := []
  uniformCode : List Section := []
  laneCode : List Section := []
  engineCode : List Section := []
  dataVa : Nat := 0
  /-- buffer bindings: kernel, slot, data offset -/
  bindings : List (Nat × Nat × Nat) := []
  /-- shape records: kernel, index, physical address of the 64-byte record -/
  shapes : List (Nat × Nat × Nat) := []
  /-- placement: clusters first and last, units first and last, role -/
  placement : List (Nat × Nat × Nat × Nat × Nat) := []
  boot : List (Nat × Nat × Nat) := []
  migs : List MigEntry := []
  safes : List SafeEntry := []
  digest : List Byte := []
  loaded : Bool := true
deriving DecidableEq, Repr

/-- A launch under way (R119, R232). -/
structure Launch where
  queue : Nat
  record : Nat
  addr : Nat
  bytes : List Byte := []
  image : Nat
  img : Image
  kernelIx : Nat
  kernel : Kernel
  cls : Nat
  idem : Bool
  gx : Nat
  gy : Nat
  gz : Nat
  stages : Nat
  partition : Word
  arg : Dword
  join : Dword
  stack : Dword
  stackSize : Nat
  migpool : Dword
  migblk : Nat
  place : Bool
  hx : Nat
  hy : Nat
  radius : Nat
  /-- the next crew to expand, and crews expanded and not yet ended -/
  next : Nat := 0
  alive : Nat := 0
  /-- crews killed and to be admitted again (R410) -/
  again : List Nat := []
  /-- kills of each crew position (R410) -/
  kills : Map Nat := []
  /-- crews that ended, by linear index (R102) -/
  endedCrews : List Nat := []
  ended : Bool := false
deriving DecidableEq, Repr

/-- A crew request at a cluster (R234): launch, linear index, clk of arrival. -/
structure CrewReq where
  launch : Nat
  linear : Nat
  since : Nat
  /-- the save area of a crew that is resumed (R409) -/
  save : Option Nat := none
deriving DecidableEq, Repr

/-- A barrier object (R209). -/
structure Barrier where
  expect : Nat
  count : Nat := 0
  phase : Byte := 0
deriving DecidableEq, Repr

/-- A deferred-fault record of a semaphore (R400). -/
structure Deferred where
  code : Nat
  detail : Nat
  addr : Dword
  /-- the sender: a scalar hart, or a wave's lanes by wave number -/
  sender : Option HartId
  wave : Option Nat
deriving DecidableEq, Repr

/-- A waiter of a semaphore (R95, R158): a scalar hart or a wave's group, with its amount. -/
inductive Waiter where
  | hart (h : HartId) (a : Nat)
  /-- the group of a wave that holds the lane -/
  | lane (wave lane : Nat) (a : Nat)
deriving DecidableEq, Repr

/-- A resident crew (R122, R240). -/
structure Crew where
  gen : Nat
  launch : Nat
  linear : Nat
  x : Nat
  y : Nat
  z : Nat
  stage : Nat
  cls : Nat
  partition : Word
  /-- semaphore window -/
  window : Nat
  /-- cluster and slot its SCRBASE names (R409) -/
  home : Nat
  homeSlot : Nat
  engine : Nat := 0
  /-- wave slots of the engine by rank, contexts (global strand numbers) by rank -/
  waveSlots : List Nat := []
  ctxs : List Nat := []
  /-- pool units of the engine: registers, scratch, accumulators -/
  regUnits : List Nat := []
  scrUnits : List Nat := []
  accUnits : List Nat := []
  /-- shape store bytes that are not zero, by offset (R122) -/
  store : Map Byte := []
  barriers : Map Barrier := []
  /-- migration blocks in use, by number in the crew's share -/
  blocks : List Nat := []
  /-- migrations that wait for blocks, in order, with the blocks each needs; those granted (R138, R208) -/
  blockWait : List (Waiter) := []
  blockGrant : List (Waiter) := []
  /-- stacks in use -/
  stackUse : List Nat := []
  /-- front-end starts still to make: wave ranks and strand ranks -/
  toStart : Nat := 0
  deferred : Map Deferred := []
  /-- strand ranks that have started (R102) -/
  started : List Nat := []
  /-- pre-emption in progress (R405) -/
  preempt : Bool := false
deriving DecidableEq, Repr

/-- A semaphore (R94, R95). -/
structure Sem where
  count : Nat := 0
  waiters : List Waiter := []
deriving DecidableEq, Repr

/-- A waiter of a future (R131, R215): a hart, or a continuation with the place of its block and who enqueues it. -/
inductive FutWaiter where
  | hart (h : HartId)
  | cont (c : Cont) (pa : Nat) (launch : Nat) (crew : Option CrewRef) (cluster : Nat) (dcrew dptb : Dword) (gfx : Option GfxRef)
deriving DecidableEq, Repr

/-- A future entry (R130): state 0 empty, 1 pending, 2 ready, 3 poisoned. -/
structure Future where
  value : Dword := 0
  st : Nat := 0
  gen : Nat := 0
  allocated : Bool := false
  waiters : List FutWaiter := []
deriving DecidableEq, Repr

/-- A gather of the Atomiser (R140). -/
structure Gather where
  crew : CrewRef
  target : Nat
  arrivals : List QCont
  isOpen : Bool := true
  since : Nat
deriving DecidableEq, Repr

/-! ## Translation and coherence -/

/-- A translation held by a TLB (R269). -/
structure TlbEntry where
  asid : Nat
  /-- virtual page base and size in bytes -/
  va : Nat
  size : Nat
  /-- the leaf -/
  pte : Dword
  /-- the line of the leaf, physical -/
  line : Nat
deriving DecidableEq, Repr

/-- A cluster L1's copy of an untracked line: data and dirty bytes (R258, R315). -/
structure ULine where
  data : List Byte
  dirty : BitVec 256 := 0
deriving DecidableEq, Repr

/-- Tokens of a granule away from its home (R310): tokens by cluster, and which cluster holds the owner token. -/
structure Tokens where
  held : Map Nat := []
  owner : Option Nat := none
  dirty : Bool := false
deriving DecidableEq, Repr

/-- A coherence object (R109): launch, and the physical 4 KiB pages of its region in order. -/
structure CohObj where
  launch : Nat
  pages : List Nat
deriving DecidableEq, Repr

/-- A mode record of the alias detector (R316), for the pages of one leaf from its first page. -/
structure ModeRec where
  pages : Nat
  untracked : Bool
  holders : BitVec 128
deriving DecidableEq, Repr

/-- An invalidation in flight (R271, R272): the page or line it names, the clusters still to receive it, the clusters
still to acknowledge it. -/
structure Inval where
  hart : Option HartId
  /-- a directory line, or none for the broadcast form -/
  line : Option Nat
  va : Nat
  asid : Nat
  allVa : Bool
  allAsid : Bool
  /-- a page to write back as cflush does before the acknowledgement (R316) -/
  flushPage : Option Nat := none
  toReceive : BitVec 128
  toAck : BitVec 128
deriving DecidableEq, Repr

/-- A persistent request (R312). -/
structure PersReq where
  cluster : Nat
  granule : Nat
  write : Bool
  clk : Nat
deriving DecidableEq, Repr

/-- A quantum update not yet performed (R304). -/
structure QUpdate where
  pa : Nat
  op : Nat
  dbl : Bool
  data : Dword
  data2 : Dword
  deadline : Nat
  unit : Nat
  scope : Nat
deriving DecidableEq, Repr

/-- A write-with-enqueue in flight (R115, R288): the translated target is found at the target. -/
structure StqOp where
  queue : Nat
  target : Nat
  payload : List Byte
  sem : Nat
  inc : Nat
  cont : Cont
  launch : Nat
  crew : Option CrewRef
  cluster : Nat
  dptb : Dword
  priv : Priv
  bound : Bool
  dcrew : Dword := 0
  /-- cluster and semaphore window that its completion signal addresses (R241) -/
  window : Option (Nat × Nat) := none
  sender : Option HartId
  wave : Option Nat
  lane : Nat := 0
deriving DecidableEq, Repr

/-- An entry of a send queue (R103, R218). -/
inductive SendEntry where
  | msg (m : Msg)
  | stq (o : StqOp)
  /-- a handler message that has departed and whose handler has not started (R402) -/
  | held (origin : Option HartId)
deriving DecidableEq, Repr

/-! ## Clusters, cores, front end -/

/-- A swarm core (R14, R18, R103, R269). -/
structure Core where
  /-- dlsplit.SCR -/
  scr : Nat := 8
  /-- dlgroup.MASK, when it is not its reset value -/
  dlgroup : Option (BitVec 8) := none
  tlb : List TlbEntry := []
  sendq : Map SendEntry := []
  /-- clk of core reset (R12) -/
  since : Nat := 0
  /-- the context served last (R143) -/
  rr : Nat := 7
deriving DecidableEq, Repr

/-- A wave engine (R218, R244 to R248). -/
structure WaveEngine where
  roundRobin : Bool := false
  sendq : Map SendEntry := []
  tlb : List TlbEntry := []
  current : Option Nat := none
  /-- clk since which the current wave is current -/
  currentSince : Nat := 0
  /-- the next choice is another wave: the current one yielded or reached the limit (R213, R247) -/
  switch : Bool := false
  last : Nat := 15
  /-- lane instructions issued -/
  issued : Nat := 0
deriving DecidableEq, Repr

/-! ## Matrix engine -/

/-- A ring of a crew's matrix configuration (R336): dmring and its counters. -/
structure Ring where
  desc : Dword := 0
  filled : Nat := 0
  consumed : Nat := 0
  freed : Nat := 0
deriving DecidableEq, Repr

/-- A gang member's MMA.G at the latch (R343): its group by lowest lane and pc, its active mask, the words of va and vb in
the active lanes. -/
structure MmaArrival where
  wave : Nat
  rank : Nat
  lane : Nat
  pc : Nat
  act : Mask
  vals : List (Nat × Word × Word)
deriving DecidableEq, Repr

/-- What the latch decided for an MMA.G that waits at it: the cause and DETAIL of its trap, or the command, if one was
formed. -/
structure MmaVerdict where
  wave : Nat
  lane : Nat
  pc : Nat
  refused : Option (Nat × Nat)
  cmd : Option Nat
deriving DecidableEq, Repr

/-- A crew's copy of the matrix configuration (R334 to R338, R343). -/
structure MatCrew where
  gang : Dword := 0
  rings : Vector Ring 4 := Vector.replicate 4 {}
  flags : BitVec 5 := 0
  anom : Nat := 0
  arrivals : List MmaArrival := []
  verdicts : List MmaVerdict := []
deriving DecidableEq, Repr

/-- An output element of a running MMA.G (R344): its place, the value read before the first add, the block terms in order
with the flags of each. -/
structure MatOut where
  key : Nat
  c0 : Word
  blks : List (Word × Nat)
deriving DecidableEq, Repr

/-- What a command of the queue does. -/
inductive MatOp where
  /-- MLD (R340): form, source address, NS, page table -/
  | mld (form : Nat) (src : Dword) (ns : Bool) (dptb : Dword)
  /-- MMA.G (R341): format word, and the ranks and first rows of the gang members in order -/
  | mma (fmt : Word) (members : List (Nat × Nat))
deriving DecidableEq, Repr

/-- A command of the matrix engine's queue (R339): its number in queue order, entry, crew, class, macros; whether it runs;
the fault its operand fetch met (cause, address); the outputs of a running MMA.G. -/
structure MatCmd where
  n : Nat
  entry : Nat
  crew : CrewRef
  cls : Nat
  macs : List Nat
  op : MatOp
  started : Bool := false
  fault : Option (Nat × Dword) := none
  outs : List MatOut := []
deriving DecidableEq, Repr

/-- What a bank of a macro holds: the form it was loaded in (1 OQ4, 2 I8, 3 and 4 the two macros of an I12 pair) and the
number of the load. -/
structure MacroBank where
  form : Nat
  load : Nat
deriving DecidableEq, Repr

/-- The matrix engine of a cluster (R331, R334, R339). The bytes of a bank are on-chip storage of the memory list. -/
structure Matrix where
  slots : Map MatCrew := []
  cmds : List MatCmd := []
  next : Nat := 0
  /-- the active bank of each macro -/
  active : BitVec 32 := 0
  banks : Map MacroBank := []
deriving DecidableEq, Repr

/-! ## Bloom -/

/-- A bank (R365 to R367): its crew and what an enqueue of the crew needs, the descriptor and the dynamics record, times,
queue in order of acceptance, counters. -/
structure BloomBank where
  crew : CrewRef
  launch : Nat
  dcrew : Dword
  dptb : Dword
  rank : Nat
  plain : Bool
  vrow : Nat
  arow : Nat
  ncount : Nat
  leak : Word
  theta : Word
  vreset : Word
  refr : Nat
  reset : Nat
  fire : Nat
  ch : Nat
  target : Dword
  td : Half
  h : Half
  queue : List Dword := []
  late : Word := 0
  fires : Word := 0
  drop : Word := 0
deriving DecidableEq, Repr

/-- An event word on its way to a cluster's Bloom unit (R363, R370), with the number of the unit that sent it. -/
structure BloomEvent where
  n : Nat
  cluster : Nat
  word : Dword
  unit : Nat
deriving DecidableEq, Repr

/-- A fan-out job of a copy channel (R368). -/
structure FanJob where
  list : Dword
  count : Nat
  ts : Half
  crew : CrewRef
  dptb : Dword
deriving DecidableEq, Repr

/-! ## Graphics -/

/-- State of a reserved record (R375, R378, R383): reserved; in a queue, committed for the blender; with the unit its node
delivered it to; taken by a fixed-function unit; skipped by the blender. -/
inductive GfxSt where
  | reserved | queued | delivered | taken | skipped
deriving DecidableEq, Repr

/-- A record in use: what its header keeps, and what the hardware needs to reach it. -/
structure GfxRec where
  id : Nat
  /-- linear index of the charged crew, and that crew -/
  c : Nat
  crew : Option CrewRef
  launch : Nat
  dcrew : Dword
  dptb : Dword
  cluster : Nat
  nodeVa : Dword
  handle : Dword
  st : GfxSt
  /-- of a fragment record: its mesh -/
  mesh : Option GfxRef := none
  /-- of a blend record: it carries a ticket -/
  ticket : Bool := false
deriving DecidableEq, Repr

/-- A graphics node in use: records by slot; of a blender, the tickets of each block in order as slots, and each block's
next ticket (R383). -/
structure GfxNode where
  recs : Map GfxRec := []
  tickets : Map (List Nat) := []
  nextTicket : Map Nat := []
deriving DecidableEq, Repr

/-- A block of a primitive still to emit (R381). -/
structure RasterBlock where
  prim : Nat
  bx : Nat
  bY : Nat
  mask : Dword
deriving DecidableEq, Repr

/-- The mesh that a rasteriser works on, and its blocks still to emit. -/
structure RasterJob where
  mesh : GfxRef
  work : List RasterBlock
deriving DecidableEq, Repr

/-- A line of side index in a texture unit's index cache (R390), with the translation it was filled through. -/
structure TexLine where
  unit : Nat
  va : Nat
  data : List Byte
  tr : TlbEntry
deriving DecidableEq, Repr

/-! ## Sillage -/

/-- A crew's copy of the Sillage state (R351, R352). -/
structure SilCrew where
  prog : List Word := []
  pv : Bool := false
  done : Nat := 0
  skip : Dword := 0
  part : Dword := 0
  full : Dword := 0
deriving DecidableEq, Repr

/-- A tile request under way (R357): its fields, the two buffer records, the next tile. -/
structure TileReq where
  addr : Dword
  q0 : Nat
  k0 : Nat
  nqt : Nat
  nkt : Nat
  dq : BitVec 256
  dk : BitVec 256
  cls : Dword
  mask : Dword
  qlen : Nat
  klen : Nat
  next : Nat := 0
deriving DecidableEq, Repr

/-- A cluster (R94, R122, R128, R140, R236 to R241, R269). -/
structure Cluster where
  crews : Map Crew := []
  gens : Map Nat := []
  sems : Map Sem := []
  /-- admission queues by class -/
  adm : Map (List CrewReq) := []
  /-- the class whose head has reached the age limit (R239) -/
  blocking : Option Nat := none
  /-- continuation queues by class -/
  conts : Map (List QCont) := []
  gathers : List Gather := []
  tlb : List TlbEntry := []
  /-- lines of untracked pages the L1 holds, by line -/
  lines : Map ULine := []
  /-- PREEMPT: SAVE, REQ, SLOT and the clk of the request -/
  preSave : Nat := 0
  preReq : Bool := false
  preSlot : Nat := 0
  preClk : Nat := 0
  /-- corrected errors: clk of the last entry made (R412) -/
  eccClk : Option Nat := none
  /-- TLBs of the graphics units, by unit (R269) -/
  gtlbs : Map (List TlbEntry) := []
  /-- lane continuations on their way into the Atomiser, in order (R140) -/
  atomiser : List QCont := []
  matrix : Matrix := {}
  sillage : Map SilCrew := []
  bloom : Map BloomBank := []
  /-- committed records of the rasteriser's nodes and of traversal nodes, in order; the rasteriser's mesh (R381, R385) -/
  rasterQ : List GfxRef := []
  traverseQ : List GfxRef := []
  raster : Option RasterJob := none
  texLines : List TexLine := []
  /-- dbdrop (R364) -/
  bloomDrop : Dword := 0
deriving DecidableEq, Repr

/-- A work queue (R227 to R232). -/
structure WorkQueue where
  base : Nat := 0
  en : Bool := false
  cls : Nat := 3
  weight : Nat := 1
  logn : Nat := 4
  tail : Nat := 0
  head : Nat := 0
  errIdx : Nat := 0
  lerr : Bool := false
  badTail : Bool := false
  /-- records taken -/
  taken : Nat := 0
  /-- taken nothing more until TAIL is written (R232) -/
  blocked : Bool := false
  current : Option Nat := none
  /-- records ended or refused at or after HEAD -/
  done : List Nat := []
deriving DecidableEq, Repr

/-- The front end's turns (R233): the place in the pattern of classes 1 to 3, the turn under way there and the one of
class 0, each as a queue with the crews it may still expand; the queue served last in each class. -/
structure FrontEnd where
  pattern : Nat := 0
  turn : Option (Nat × Nat) := none
  turn0 : Option (Nat × Nat) := none
  lastQueue : Map Nat := []
deriving DecidableEq, Repr

/-- A crew saved by a pre-emption (R405 to R409), as the hardware restores it: its reference and record, waves and strands
by rank, semaphores by number in the window, continuations and gathers, its copies of the units' state, the bytes and
forms of its macro banks. Its scratch lies in the save area alone. -/
structure SavedCrew where
  ref : CrewRef
  crew : Crew
  waves : List (Nat × Wave)
  strands : List (Nat × Hart)
  sems : Map Sem
  conts : List QCont
  gathers : List Gather
  matrix : Option MatCrew
  banks : Map MacroBank
  bankBytes : List Host.Cell
  sillage : Option SilCrew
  bloom : Map BloomBank
deriving DecidableEq, Repr

/-! ## The schedule -/

/-- The unit that a step acts for. -/
inductive Actor where
  | hart (h : HartId)
  | lanes (wave : Nat) (secondary : Bool)
  | event
deriving DecidableEq, Repr

/-- One turn of the schedule (log 1): a unit issues, clks pass, or an event or input takes place. -/
inductive Turn where
  /-- a swarm core issues from its next context that can issue (R143) -/
  | core (k : Nat)
  | strand (k : Nat)
  | uniform (k : Nat)
  | lanes (wave : Nat) (secondary : Bool)
  /-- a wave engine issues by its policy (R245 to R249) -/
  | issue (e : Nat)
  | engine (k : Nat)
  | clk (n : Nat)
  | event (i : Instr)
deriving DecidableEq, Repr

/-! ## Engines -/

/-- A kick (R107): kick word, argument pointer, kicker, its identity word (R320), scope, crew, launch and table. -/
structure Kick where
  word : Dword
  arg : Dword
  kicker : HartId
  ident : Dword
  scope : Nat
  crew : Option CrewRef
  launch : Nat
  dcrew : Dword
  dptb : Dword
deriving DecidableEq, Repr

/-- The copy operation that runs (R323 to R325): its descriptor, elements moved, the count P, and for RLE the stream bytes
used, the elements left of the run and the element it repeats. -/
structure CopyJob where
  desc : List Byte
  moved : Nat := 0
  acct : Nat := 0
  used : Nat := 0
  run : Nat := 0
  rep : Option (List Byte) := none
deriving DecidableEq, Repr

/-- One engine instance (R319, R320, R322). -/
structure Engine where
  hart : Hart := {}
  running : Option Kick := none
  queue : List Kick := []
  /-- harts parked on the full queue, in order (R320) -/
  parked : List HartId := []
  /-- copy descriptors held, by address: the running one and one queued (R322) -/
  ops : List Dword := []
  copy : Option CopyJob := none
  flags : BitVec 5 := 0
  tlb : List TlbEntry := []
  sendq : Map SendEntry := []
  dxwp : Dword := 0
  /-- the tile request that Sillage works on (R357) -/
  tiles : Option TileReq := none
  /-- Bloom's fan-out jobs of a copy channel, in order (R368) -/
  jobs : List FanJob := []
deriving DecidableEq, Repr

/-! ## The package -/

/-- The machine. Fields that the spec does not name are the model's own: actor, sched, free (log 1, log 6). -/
structure State where
  /-- the unit that the current step acts for -/
  actor : Option Actor := none
  /-- turns placed for the next steps -/
  sched : List Turn := []
  /-- draws of free values made -/
  free : Nat := 0
  /-- clk count of the package, and the time count in units of 1/15135120 of a 100 MHz tick (R6, R12, R435) -/
  clk : Nat := 0
  time : Nat := 0
  /-- clocks stopped (R434) -/
  halted : Bool := false
  /-- bytes of memory that are not zero (log 3), by key: physical addresses, then on-chip storage -/
  mem : List Host.Cell := []
  /-- poisoned 8-byte words, by key divided by 8, ascending (R412) -/
  poison : List Nat := []
  strands : Map Hart := []
  cores : Map Core := []
  waves : Map Wave := []
  wengines : Map WaveEngine := []
  engines : Map Engine := []
  clusters : Map Cluster := []
  queues : Map WorkQueue := []
  fe : FrontEnd := {}
  launches : Map Launch := []
  nextLaunch : Nat := 0
  images : Map Image := []
  /-- messages held at the front end, by launch and linear index (R102) -/
  heldMsgs : List Msg := []
  /-- messages that have left a send queue (R103), and stq operations that have (R115) -/
  net : List Msg := []
  stqs : List StqOp := []
  saved : Map SavedCrew := []
  futures : Map Future := []
  /-- tokens away from home by granule (R310) -/
  tokens : Map Tokens := []
  objects : Map CohObj := []
  persistent : List PersReq := []
  /-- translation directory: sharers by page-table line (R270) -/
  directory : Map (BitVec 128) := []
  modes : Map ModeRec := []
  invals : Map Inval := []
  nextInval : Nat := 0
  /-- hotness counters that are not 0, by 64 KiB region, and the halvings of each die so far (R261) -/
  hot : Map Nat := []
  halvings : Vector Nat 4 := Vector.replicate 4 0
  /-- lines held by the LLC slices (R260, R261) -/
  llc : List Nat := []
  quantum : List QUpdate := []
  hostFilter : List Nat := []
  /-- back-invalidation snoops outstanding, by line, and whether a host request raced with the snoop (R425, R426) -/
  snoops : Map Bool := []
  /-- RESUME writes accepted and not yet served (R409) -/
  resumes : List Dword := []
  /-- event words on their way (R363), and the number of the next one -/
  events : List BloomEvent := []
  nextEvent : Nat := 0
  /-- graphics nodes with records in use (R375), and the number of the next reservation -/
  nodes : Map GfxNode := []
  nextRec : Nat := 0
  /-- MSI-X vectors sent to the host, newest first (R427) -/
  msix : List Nat := []
  /-- answers to attestation nonces, newest first (R433) -/
  attested : List (List Byte) := []
  -- package control block (R414, R429)
  elBase : Nat := 0
  elEn : Bool := false
  elLogn : Nat := 0
  elCtx : Nat := 0
  elTail : Nat := 0
  elHead : Nat := 0
  elLost : Nat := 0
  hirqElen : Bool := false
  ldReq : Dword := 0
  ldBusy : Bool := false
  ldResult : Nat := 0
  ldImage : Nat := 0
  pkg : Nat := 0xFF
  govStep : Nat := 0
  govCause : Nat := 0
  govPwr : Nat := 0
  govTj : Nat := 0
  govCap : Nat := 8000
  /-- physical address of the capability list (R26, R429; per part, log 5) -/
  dcap : Dword := 0x300000001000
  /-- bring-up has ended: none before it, then whether it succeeded (R432) -/
  up : Option Bool := none
  /-- the package flash, bytes that are not zero, and the root key digest in fuses (R431; per part, log 5) -/
  flash : Map Byte := []
  rootDigest : List Byte := []
  plimit : Nat := 8000
  links : Vector Byte 8 := Vector.replicate 8 0xFF
  linkUp : BitVec 8 := 0
  /-- the read-only copy of the configuration record (R429) -/
  config : Map Byte := []
  /-- UCIe modules alive of the pairs 0-1, 0-2, 1-3, 2-3, and by link the sequence number last replayed with its replays in a
  row (R418, R419) -/
  modules : Vector (BitVec 24) 4 := Vector.replicate 4 (BitVec.allOnes 24)
  replays : Map (Nat × Nat) := []
deriving DecidableEq, Repr

/-! ## How a step can stop -/

/-- Why a step can stop. Raised only where the model is driven by a turn that no unit can take; safe. -/
inductive Fault where
  /-- raised by the meaning of an instruction when State.actor names no unit of the kind that executes it: the machine
  never issues it there. Safe. -/
  | wrongActor
deriving DecidableEq, Repr

/-- Why an instruction has no meaning. -/
inductive Refusal where
  /-- raised by the dispatch for an instruction that has no meaning yet. Safe. -/
  | notModelled (mnemonic : String)
deriving DecidableEq, Repr

/-- The package at power-on (R32, R432): every field at the default of its declaration, which is the reset value the spec
gives, or the one that a log entry names. -/
def State.reset : State := {}

end Sys2Proof.Machine
end

