-- ==== Sys2Proof/Machine/Base.lean ====
section
/-! DEFINITION. Plain operations on State: bytes of memory in canonical form, poison, the units by number, free draws,
tokens, the error log. -/

namespace Sys2Proof

/-- The cluster of a hart. -/
def HartId.cluster (h : HartId) : Nat :=
  match h with
  | .strand k => k / 512
  | .uniform k => k / 128
  | .engine k => k / 7

/-- The UNIT code of a hart (R415). -/
def HartId.unit (h : HartId) : Nat :=
  match h with
  | .strand k => k % 512 / 8
  | .uniform k => 64 + k % 128 / 16
  | .engine k => 72 + k % 7

end Sys2Proof

namespace Sys2Proof.Machine

/-! ## Bytes -/

/-- The natural number of little-endian bytes (R5). -/
def natOfBytes (l : List Byte) : Nat :=
  match l with
  | [] => 0
  | b :: t => b.toNat + 256 * natOfBytes t

/-- Bits `lo` to `lo + len - 1` of a number. -/
def bits (v lo len : Nat) : Nat := v / 2 ^ lo % 2 ^ len

/-! ## Memory -/

namespace Memory

/-- The byte at key `a`; an unlisted byte reads 0 (log 3). -/
def get (m : List Host.Cell) (a : Nat) : Byte :=
  match m with
  | [] => 0
  | (k, b) :: t => if k = a then b else get t a

/-- The memory without an entry for `a`. -/
def drop (m : List Host.Cell) (a : Nat) : List Host.Cell :=
  match m with
  | [] => []
  | (k, b) :: t => if k = a then t else if a < k then (k, b) :: t else (k, b) :: drop t a

/-- The memory with a non-zero byte `v` at `a`, keys kept rising. -/
def ins (m : List Host.Cell) (a : Nat) (v : Byte) : List Host.Cell :=
  match m with
  | [] => [(a, v)]
  | (k, b) :: t => if a < k then (a, v) :: (k, b) :: t else if k = a then (a, v) :: t else (k, b) :: ins t a v

/-- The memory with byte `v` at `a`: a zero byte is unlisted. -/
def set (m : List Host.Cell) (a : Nat) (v : Byte) : List Host.Cell :=
  if v = 0 then drop m a else ins m a v

/-- `n` bytes from `a`. -/
def read (m : List Host.Cell) (a n : Nat) : List Byte :=
  match n with
  | 0 => []
  | n + 1 => get m a :: read m (a + 1) n

/-- The bytes `l` written from `a`. -/
def write (m : List Host.Cell) (a : Nat) (l : List Byte) : List Host.Cell :=
  match l with
  | [] => m
  | b :: t => write (set m a b) (a + 1) t

/-- Every key is above `a`. -/
def above (m : List Host.Cell) (a : Nat) : Bool :=
  match m with
  | [] => true
  | (k, _) :: _ => decide (a < k)

/-- The canonical form: keys strictly rising, no byte that reads as an unlisted one does. -/
def wf (m : List Host.Cell) : Bool :=
  match m with
  | [] => true
  | (k, b) :: t => b != 0 && above t k && wf t

/-- The memory without the bytes of keys in [lo, hi). -/
def clear (m : List Host.Cell) (lo hi : Nat) : List Host.Cell := m.filter fun c => c.1 < lo || hi ≤ c.1

end Memory

/-! ## Units by number -/

def State.cluster (s : State) (c : Nat) : Cluster := s.clusters.getD c {}
def State.setCluster (s : State) (c : Nat) (v : Cluster) : State := { s with clusters := s.clusters.put c v }
def State.core (s : State) (k : Nat) : Core := s.cores.getD k {}
def State.setCore (s : State) (k : Nat) (v : Core) : State := { s with cores := s.cores.put k v }
def State.wave (s : State) (k : Nat) : Wave := s.waves.getD k {}
def State.setWave (s : State) (k : Nat) (v : Wave) : State := { s with waves := s.waves.put k v }
def State.wengine (s : State) (k : Nat) : WaveEngine := s.wengines.getD k {}
def State.setWengine (s : State) (k : Nat) (v : WaveEngine) : State := { s with wengines := s.wengines.put k v }
def State.engine (s : State) (k : Nat) : Engine := s.engines.getD k {}
def State.setEngine (s : State) (k : Nat) (v : Engine) : State := { s with engines := s.engines.put k v }
def State.queue (s : State) (q : Nat) : WorkQueue := s.queues.getD q {}
def State.setQueue (s : State) (q : Nat) (v : WorkQueue) : State := { s with queues := s.queues.put q v }

/-- The hart `h`. -/
def State.hart (s : State) (h : HartId) : Hart :=
  match h with
  | .strand k => s.strands.getD k {}
  | .uniform k => (s.wave k).hart
  | .engine k => (s.engine k).hart

def State.setHart (s : State) (h : HartId) (v : Hart) : State :=
  match h with
  | .strand k => { s with strands := s.strands.put k v }
  | .uniform k => s.setWave k { s.wave k with hart := v }
  | .engine k => s.setEngine k { s.engine k with hart := v }

/-- The die of a cluster at (x, y) = (c mod 16, c div 16) (R3). -/
def dieOf (c : Nat) : Nat := c % 16 / 8 + 2 * (c / 16 / 4)

/-- The distance of two clusters in hops (R127). -/
def hops (a b : Nat) : Nat :=
  let dx := if a % 16 ≤ b % 16 then b % 16 - a % 16 else a % 16 - b % 16
  let dy := if a / 16 ≤ b / 16 then b / 16 - a / 16 else a / 16 - b / 16
  dx + dy

/-- The dstrand value of a strand (R19). -/
def dstrandOf (k : Nat) : Dword := BitVec.ofNat 64 (dieOf (k / 512) * 2 ^ 16 + k)

/-- The wave identity word (R125): cluster [15:9], engine [8:6], slot [5:2]. -/
def waveIdent (k : Nat) : Dword := BitVec.ofNat 64 (k * 4)

/-- The crew a reference names, while it is resident in its generation. -/
def State.crewOf (s : State) (r : CrewRef) : Option Crew :=
  match (s.cluster r.cluster).crews.find r.slot with
  | some c => if c.gen = r.gen then some c else none
  | none => none

def State.setCrew (s : State) (cluster slot : Nat) (c : Crew) : State :=
  s.setCluster cluster { s.cluster cluster with crews := (s.cluster cluster).crews.put slot c }

def State.setLaunch (s : State) (n : Nat) (l : Launch) : State := { s with launches := s.launches.put n l }

/-! ## Free draws -/

/-- A free doubleword and the state after the draw. -/
def State.drawDword (s : State) : Dword × State := (Config.freeDword s.free, { s with free := s.free + 1 })

/-- A free choice below `n`, which is not 0, and the state after the draw. -/
def State.drawNat (s : State) (n : Nat) : Nat × State := (Config.freeNat s.free % n, { s with free := s.free + 1 })

/-! ## The physical map (R259, R422, R423, R429) -/

def devBase : Nat := 0x30000000000
def hostBase : Nat := 0x1000000000000
def peerBase : Nat := 0x10000000000000

inductive PaKind where
  | dram | device | host | peer (pkg : Nat) | none
deriving DecidableEq, Repr

/-- What the physical map holds at an address. -/
def paKind (pa : Nat) : PaKind :=
  if pa < devBase then .dram
  else if pa < devBase + 0x50000 then .device
  else if devBase + 0x100000 ≤ pa ∧ pa < devBase + 0x900000 then .device
  else if devBase + 0x1000000 ≤ pa ∧ pa < devBase + 0x1001000 then .device
  else if hostBase ≤ pa ∧ pa < hostBase + 2 ^ 51 then .host
  else if peerBase ≤ pa ∧ pa < peerBase + 255 * 2 ^ 42 then .peer ((pa - peerBase) / 2 ^ 42)
  else .none

/-- The lowest live link whose peer is package `p` (R421). -/
def State.linkTo (s : State) (p : Nat) : Option Nat :=
  (List.range 8).find? fun i => s.linkUp.getLsbD i && s.links[i]!.toNat = p

/-- The address is populated: a peer window only while a live link reaches its package (R421). -/
def State.populated (s : State) (pa : Nat) : Bool :=
  match paKind pa with
  | .dram | .device | .host => true
  | .peer p => (s.linkTo p).isSome
  | .none => false

/-- The die of a DRAM address (R259). -/
def dieOfPa (pa : Nat) : Nat :=
  if pa < 0x10000000000 then pa / 2 ^ 38
  else if pa < devBase then (pa - 0x10000000000) / 2 ^ 39
  else 0

/-- The home slice of a line within its die (R260). -/
def sliceOf (pa : Nat) : Nat :=
  bits pa 8 5 ^^^ bits pa 13 5 ^^^ bits pa 18 5 ^^^ bits pa 23 5 ^^^ bits pa 28 5 ^^^ bits pa 33 5

/-- The cluster at whose place slice `k` of die `d` lies (R260, R3). -/
def sliceCluster (d k : Nat) : Nat := (d / 2 * 4 + k / 8) * 16 + (d % 2 * 8 + k % 8)

/-! ## Keys of on-chip storage in the memory list -/

/-- Local SRAM byte `off` of global core `k` (R251). -/
def sramKey (k off : Nat) : Nat := 2 ^ 60 + k * 2 ^ 17 + off
/-- Pool byte `off` of global wave engine `e` (R250). -/
def poolKey (e off : Nat) : Nat := 2 ^ 61 + e * 2 ^ 21 + off
/-- Handler buffer byte `off` of strand `k` (R402). -/
def hbufKey (k off : Nat) : Nat := 2 ^ 62 + k * 64 + off

/-- Byte `off` of bank `b` of macro `m` of the matrix engine of cluster `c` (R331): tile bytes from 0, scale words from
0x8000. -/
def bankKey (c m b off : Nat) : Nat := 2 ^ 63 + ((c * 32 + m) * 2 + b) * 2 ^ 16 + off

/-- The cluster whose SRAM holds a key. -/
def keyCluster (k : Nat) : Nat :=
  if k < 2 ^ 61 then (k - 2 ^ 60) / 2 ^ 23 else if k < 2 ^ 62 then (k - 2 ^ 61) / 2 ^ 24 else (k - 2 ^ 62) / 2 ^ 15

/-! ## Poison (R412, R413) -/

/-- A sorted list with `w` added. -/
def insertNat (l : List Nat) (w : Nat) : List Nat :=
  match l with
  | [] => [w]
  | k :: t => if w < k then w :: k :: t else if w = k then k :: t else k :: insertNat t w

/-- Some word of the `n` bytes from key `a` is poisoned. -/
def State.poisoned (s : State) (a n : Nat) : Bool := s.poison.any fun w => a / 8 ≤ w && w ≤ (a + n - 1) / 8 && n != 0

/-- The poison after `n` bytes from `a` are written: words written whole become clean. -/
def clearPoison (p : List Nat) (a n : Nat) : List Nat := p.filter fun w => !(a ≤ 8 * w && 8 * w + 8 ≤ a + n)

/-- The state with bytes `l` at key `a`. -/
def State.poke (s : State) (a : Nat) (l : List Byte) : State :=
  { s with mem := Memory.write s.mem a l, poison := clearPoison s.poison a l.length }

/-- `n` bytes from key `a`. -/
def State.peek (s : State) (a n : Nat) : List Byte := Memory.read s.mem a n

/-- The keys in [lo, hi) cleared to zero. -/
def State.zero (s : State) (lo hi : Nat) : State :=
  { s with mem := Memory.clear s.mem lo hi, poison := s.poison.filter fun w => w < lo / 8 || hi ≤ 8 * w }

/-! ## Tokens and reservations (R17, R310 to R314) -/

/-- The coherence object that holds a line, if any (R109). -/
def State.objectOf (s : State) (line : Nat) : Option Nat :=
  (s.objects.find? fun o => o.2.pages.contains (line / 16)).map (·.1)

/-- The granule of a line: the line, or 2^70 plus the number of its object (R310). -/
def State.granuleOf (s : State) (line : Nat) : Nat :=
  match s.objectOf line with
  | some o => 2 ^ 70 + o
  | none => line

/-- The hart without a reservation that `hit` selects. -/
def Hart.dropResv (h : Hart) (hit : Reservation → Bool) : Hart :=
  match h.resv with
  | some r => if hit r then { h with resv := none } else h
  | none => h

/-- Every hart of the cluster other than `self` loses a reservation that `hit` selects. -/
def State.dropResvs (s : State) (cluster : Nat) (self : Option HartId) (hit : Reservation → Bool) : State :=
  { s with
    strands := s.strands.map fun e =>
      if e.1 / 512 = cluster ∧ self ≠ some (.strand e.1) then (e.1, e.2.dropResv hit) else e
    waves := s.waves.map fun e =>
      if e.1 / 128 = cluster ∧ self ≠ some (.uniform e.1) then (e.1, { e.2 with hart := e.2.hart.dropResv hit }) else e
    engines := s.engines.map fun e =>
      if e.1 / 7 = cluster ∧ self ≠ some (.engine e.1) then (e.1, { e.2 with hart := e.2.hart.dropResv hit }) else e }

/-- The counters of a die after the halvings of every 4,194,304 clk that are due (R261): the hardware halves in that clk,
which the model makes up for at the next use of a counter at the latest. -/
def State.halveHot (s : State) (die : Nat) : State :=
  let due := s.clk / 4194304 - s.halvings[die % 4]!
  if due = 0 then s else
  let halve (e : Nat × Nat) : Nat × Nat := if dieOfPa (e.1 * 65536) = die % 4 then (e.1, e.2 / 2 ^ due) else e
  { s with
    hot := (s.hot.map halve).filter fun e => e.2 != 0
    halvings := s.halvings.set! (die % 4) (s.clk / 4194304) }

/-- One transfer between DRAM and the device in the region of `pa` (R261). -/
def State.transfer (s : State) (pa : Nat) : State :=
  if paKind pa = .dram then
    let s := s.halveHot (dieOfPa pa)
    { s with hot := s.hot.put (pa / 65536) (min 4095 (s.hot.getD (pa / 65536) 0 + 1)) }
  else s

/-- The home's copy of a line is looked up in the LLC: a miss is one transfer and a fill (R260, R261). -/
def State.llcTouch (s : State) (line : Nat) : State :=
  if s.llc.contains line then s else ({ s with llc := insertNat s.llc line }).transfer (line * 256)

/-- Tokens at the home of a granule. -/
def Tokens.home (t : Tokens) : Nat := 129 - (t.held.map (·.2)).sum

def State.tok (s : State) (g : Nat) : Tokens := s.tokens.getD g {}

/-- A granule whose tokens are all at home is not listed. -/
def State.setTok (s : State) (g : Nat) (t : Tokens) : State :=
  { s with tokens := if t.held.isEmpty then s.tokens.del g else s.tokens.put g t }

/-- Clusters other than `c` that hold tokens of the granule lose a reservation on it. -/
def State.loseOthers (s : State) (c g : Nat) (l : List (Nat × Nat)) : State :=
  match l with
  | [] => s
  | (j, _) :: t => (if j = c then s else s.dropResvs j none fun r => r.granule = g).loseOthers c g t

/-- Cluster `c` comes to hold at least one token of the granule of `line` (R311, R312): the home sends what it holds and
each holder of more than one sends one. -/
def State.tokenRead (s : State) (c line : Nat) : State :=
  let g := s.granuleOf line
  let t := s.tok g
  if t.held.getD c 0 ≠ 0 then s else
  let givers := t.held.filter fun e => 1 < e.2 && e.1 != c
  let got := t.home + givers.length
  let held := t.held.map fun e => if 1 < e.2 then (e.1, e.2 - 1) else e
  let s := s.loseOthers c g givers
  let s := s.setTok g { t with held := Map.put held c got, owner := if t.owner.isNone && t.home != 0 then some c else t.owner }
  s.llcTouch line

/-- Cluster `c` comes to hold every token of the granule of `line` (R311, R312). -/
def State.tokenWrite (s : State) (c line : Nat) : State :=
  let g := s.granuleOf line
  let t := s.tok g
  if t.held.getD c 0 = 129 then s.setTok g { t with dirty := true } else
  let s := s.loseOthers c g t.held
  let miss := t.held.getD c 0 = 0
  let s := s.setTok g { held := [(c, 129)], owner := some c, dirty := true }
  if miss then s.llcTouch line else s

/-- Every token of the granule of `line` returns to its home, with the data (R312, R424, R425). -/
def State.tokenHome (s : State) (line : Nat) : State :=
  let g := s.granuleOf line
  let s := s.loseOthers 128 g (s.tok g).held
  s.setTok g {}

/-- State.time counts in this fraction of a 100 MHz tick: 21·720720, so that a clk at any STEP is a whole number of units
(R434, R435). -/
def timeUnit : Nat := 15135120

/-! ## Error log (R414, R415) -/

/-- The entry of the error log with these fields: one 32-byte record, or a count of one more lost. -/
def State.logError (s : State) (code detail kind unit cluster addr queue record crew : Nat) : State :=
  let s :=
    if s.elEn && decide ((s.elTail + 2 ^ 32 - s.elHead) % 2 ^ 32 < 2 ^ s.elLogn) then
      let entry := leBytes 2 code ++ leBytes 2 detail ++ leBytes 1 kind ++ leBytes 1 unit ++ leBytes 1 cluster ++ [0] ++
        leBytes 8 addr ++ leBytes 2 queue ++ leBytes 2 record ++ leBytes 4 crew ++ leBytes 8 (s.time / timeUnit)
      let pa := s.elBase + 32 * (s.elTail % 2 ^ s.elLogn)
      let s := (s.tokenHome (pa / 256)).poke pa entry
      { s with elTail := (s.elTail + 1) % 2 ^ 32 }
    else { s with elLost := (s.elLost + 1) % 2 ^ 32 }
  if kind = 7 then { s with msix := 0 :: s.msix }
  else if s.hirqElen then { s with msix := 1 :: s.msix } else s

/-- Linear index of the crew of a hart, or the code for none (R415). -/
def State.crewIx (s : State) (r : Option CrewRef) : Nat :=
  match r.bind s.crewOf with
  | some c => c.linear
  | none => 0xFFFFFFFF

/-- The time count (R12): 100 MHz, in whole ticks. -/
def State.now (s : State) : Nat := s.time / timeUnit

/-! ## Buffer records (R192) -/

namespace BufRec

def base (r : BitVec 256) : Nat := (r.extractLsb' 0 48).toNat
def esize (r : BitVec 256) : Nat := (r.extractLsb' 48 3).toNat
def swz (r : BitVec 256) : Nat := (r.extractLsb' 51 2).toNat
def bnd (r : BitVec 256) : Nat := (r.extractLsb' 53 2).toNat
def ndim (r : BitVec 256) : Nat := (r.extractLsb' 55 2).toNat
def ext (r : BitVec 256) (i : Nat) : Nat := (r.extractLsb' (64 + 32 * i) 32).toNat
def str (r : BitVec 256) (i : Nat) : Nat := (r.extractLsb' (160 + 32 * (i - 1)) 32).toNat
def flat (r : BitVec 256) : Bool := esize r == 7
/-- A reserved field or code. -/
def reserved (r : BitVec 256) : Bool :=
  r.extractLsb' 57 7 != 0#7 || r.extractLsb' 224 32 != 0#32 || esize r == 5 || esize r == 6 || decide (2 ≤ bnd r) || ndim r == 3

end BufRec

/-- The virtual address of an offset in a record's buffer, modulo 2^48. -/
def bufVa (r : BitVec 256) (off : Nat) : Dword := (BitVec.ofNat 48 (BufRec.base r + off)).signExtend 64

end Sys2Proof.Machine
end

