-- ==== Sys2Proof/Machine/Monad.lean ====
section
/-! DEFINITION. How a meaning is computed: a step over State that answers a value, or stops with an exception, by parking,
by stalling for another turn. A stop keeps the state reached: a meaning makes its checks before its effects, and what an
entry names as partial effects stands (R90). -/

namespace Sys2Proof.Machine

/-- An exception (R393): device code, DETAIL, the value for stval, and the standard scause with which it reaches a scalar
hart. -/
structure Exc where
  code : Nat
  detail : Nat
  tval : Dword
  scause : Nat
deriving DecidableEq, Repr

/-- Why a meaning does not complete. -/
inductive Stop where
  | exc (e : Exc)
  /-- the hart parks (R91) -/
  | park (p : Park)
  /-- the unit tries again at its next turn -/
  | stall
  /-- a lane instruction traps: cause, DETAIL, stval and the lanes that failed (R394, R397) -/
  | lane (code detail : Nat) (tval : Dword) (failed : Mask)
deriving DecidableEq, Repr

abbrev M (α : Type) := EStateM Stop State α

/-- A device cause from a custom instruction (R90). -/
def excDev (code detail : Nat) (tval : Dword) : Exc := { code := code, detail := detail, tval := tval, scause := 24 }
def excReserved (detail : Nat) : Exc := excDev 2 detail 0

/-- ILLEGAL_OPCODE, RESERVED_FIELD or PRIVILEGE at decode (R21, R69): scause 2 with the instruction word. -/
def excIllegal (code : Nat) (w : Word) : Exc := { code := code, detail := 0, tval := w.setWidth 64, scause := 2 }

def fail {α : Type} (e : Exc) : M α := throw (.exc e)
def failLane {α : Type} (code detail : Nat) (tval : Dword) (failed : Mask) : M α := throw (.lane code detail tval failed)
def parkFor {α : Type} (p : Park) : M α := throw (.park p)

def guardM (ok : Bool) (e : Exc) : M Unit := if ok then pure () else fail e

/-- The result of `m`, or the exception it stops with. -/
def attempt {α : Type} (m : M α) : M (Except Exc α) := fun s =>
  match m s with
  | .ok a t => .ok (.ok a) t
  | .error (.exc e) t => .ok (.error e) t
  | .error st t => .error st t

/-- A free doubleword. -/
def freeDwordM : M Dword := fun s => .ok s.drawDword.1 s.drawDword.2
def freeNatM (n : Nat) : M Nat := fun s => .ok (s.drawNat n).1 (s.drawNat n).2

def getHart (h : HartId) : M Hart := do return (← get).hart h
def setHart (h : HartId) (v : Hart) : M Unit := modify fun s => s.setHart h v
def modHart (h : HartId) (f : Hart → Hart) : M Unit := modify fun s => s.setHart h (f (s.hart h))

end Sys2Proof.Machine
end

