-- ==== Sys2Proof/Machine/Translate.lean ====
section
/-! DEFINITION. Address translation (R263 to R272): page-table entries, walks, TLBs, the translation directory and the
alias detector (R316). -/

namespace Sys2Proof.Machine

/-- A TLB of R269 other than the cluster TLB. -/
inductive TlbId where
  | core (k : Nat) | wengine (e : Nat) | engine (k : Nat) | unit (cluster u : Nat)
deriving DecidableEq, Repr

/-- Which unit an access is made by, for the local window (R255, R256). -/
inductive UnitId where
  | strand (k : Nat) | wave (k : Nat) | engine (k : Nat) | other
deriving DecidableEq, Repr

/-- An accessor: the cluster whose caches it uses, its TLB, page table, privilege, crew. -/
structure Acc where
  cluster : Nat
  tlb : TlbId
  who : UnitId
  dptb : Dword
  priv : Priv
  sum : Bool := false
  mxr : Bool := false
  /-- a copy channel or texture unit, which reads compressed views (R266) -/
  decomp : Bool := false
  crew : Option CrewRef := none
  bound : Bool := false
  hm : Bool := false
  hart : Option HartId := none
  /-- a standard RISC-V access, whose ACCESS_FAULT has its own scause (R393) -/
  std : Bool := false
deriving DecidableEq, Repr

/-- What a translation gives: physical address, the leaf's T with R309, R422 and R316 applied, O, C. -/
structure Tr where
  pa : Nat
  untracked : Bool
  tso : Bool
  compressed : Bool
deriving DecidableEq, Repr

namespace Pte

def v (e : Dword) : Bool := e.getLsbD 0
def r (e : Dword) : Bool := e.getLsbD 1
def w (e : Dword) : Bool := e.getLsbD 2
def x (e : Dword) : Bool := e.getLsbD 3
def u (e : Dword) : Bool := e.getLsbD 4
def g (e : Dword) : Bool := e.getLsbD 5
def a (e : Dword) : Bool := e.getLsbD 6
def d (e : Dword) : Bool := e.getLsbD 7
def t (e : Dword) : Bool := e.getLsbD 8
def o (e : Dword) : Bool := e.getLsbD 9
def c (e : Dword) : Bool := e.getLsbD 10
def k (e : Dword) : Bool := e.getLsbD 11
def tier (e : Dword) : Nat := (e.extractLsb' 12 2).toNat
def ppn (e : Dword) : Nat := (e.extractLsb' 14 44).toNat
def reserved (e : Dword) : Nat := (e.extractLsb' 58 6).toNat
/-- Bits [13:4], which a pointer holds as 0 (R266). -/
def ptrBits (e : Dword) : Nat := (e.extractLsb' 4 10).toNat

end Pte

/-- A page fault of an access kind with DETAIL n (R266). -/
def pageFault (k : AccessKind) (n : Nat) (va : Nat) : Exc :=
  match k with
  | .load => { code := 7, detail := n, tval := BitVec.ofNat 64 va, scause := 13 }
  | .store => { code := 8, detail := n, tval := BitVec.ofNat 64 va, scause := 15 }
  | .fetch => { code := 9, detail := n, tval := BitVec.ofNat 64 va, scause := 12 }

/-- ACCESS_FAULT with its reason (R393): 5, 7 or 1 from a standard access, 24 otherwise. -/
def accessFault (acc : Acc) (k : AccessKind) (reason : Nat) (va : Nat) : Exc :=
  { code := 10, detail := reason, tval := BitVec.ofNat 64 va,
    scause := match k with
      | .fetch => 1
      | .load => if acc.std then 5 else 24
      | .store => if acc.std then 7 else 24 }

def poisonExc (detail : Nat) (va : Nat) : Exc := excDev 22 detail (BitVec.ofNat 64 va)

/-- ASID of a dptb value (R23). -/
def asidOf (dptb : Dword) : Nat := (dptb.extractLsb' 44 16).toNat
/-- PPN of a dptb value (R23). -/
def rootOf (dptb : Dword) : Nat := (dptb.extractLsb' 0 44).toNat

/-- The permission check of R267. -/
def permitted (acc : Acc) (k : AccessKind) (e : Dword) : Bool :=
  (match k with
    | .load => Pte.r e || (Pte.x e && acc.mxr)
    | .store => Pte.w e
    | .fetch => Pte.x e) &&
  (match acc.priv with
    | .u => Pte.u e
    | .s => !Pte.u e || (k != .fetch && acc.sum))

/-- The tier range holds the page (R259, R265). -/
def tierOk (e : Dword) : Bool :=
  let pa := Pte.ppn e * 4096
  match Pte.tier e with
  | 0 => pa < 0x10000000000
  | 1 => 0x10000000000 ≤ pa && pa < devBase
  | 2 => devBase ≤ pa
  | _ => false

/-- Size of the page that a leaf at level `lvl` maps (R266). -/
def leafSize (lvl : Nat) (e : Dword) : Nat :=
  if lvl = 0 then (if Pte.k e then 65536 else 4096) else 4096 * 512 ^ lvl

/-- Where a walk ended: a leaf with its physical place and page size. -/
structure Leaf where
  pte : Dword
  addr : Nat
  size : Nat
deriving DecidableEq, Repr

/-- The walk of R266 below the tables at `a`, over the levels that remain. It reads entries at their homes. -/
def walkFrom (acc : Acc) (va : Nat) (k : AccessKind) (s : State) (levels : List Nat) (a : Nat) : Except Exc Leaf :=
  match levels with
  | [] => .error (pageFault k 1 va)
  | lvl :: rest =>
    let addr := a + 8 * (va / 2 ^ (12 + 9 * lvl) % 512)
    if !s.populated addr then .error (accessFault acc k 8 va)
    else if s.poisoned addr 8 then .error (poisonExc 2 va)
    else
      let e : Dword := BitVec.ofNat 64 (natOfBytes (s.peek addr 8))
      if !Pte.v e || Pte.reserved e != 0 || Pte.tier e == 3 || (Pte.w e && !Pte.r e) then .error (pageFault k 1 va)
      else if !Pte.r e && !Pte.x e then
        if lvl == 0 || Pte.ptrBits e != 0 then .error (pageFault k 1 va)
        else walkFrom acc va k s rest (Pte.ppn e * 4096)
      else if lvl == 3 then .error (pageFault k 1 va)
      else if lvl ≥ 1 && Pte.ppn e % 512 ^ lvl != 0 then .error (pageFault k 3 va)
      else if lvl ≥ 1 && Pte.k e then .error (pageFault k 1 va)
      else if !tierOk e then .error (pageFault k 4 va)
      else if !permitted acc k e then .error (pageFault k 2 va)
      else if Pte.c e && !acc.decomp then .error (accessFault acc k 9 va)
      else .ok { pte := e, addr := addr, size := leafSize lvl e }

/-- The walk from the root of dptb (R266). -/
def walk (acc : Acc) (va : Nat) (k : AccessKind) (s : State) : Except Exc Leaf :=
  walkFrom acc va k s [3, 2, 1, 0] (rootOf acc.dptb * 4096)

/-! ## TLBs (R269) -/

def State.tlb (s : State) (t : TlbId) : List TlbEntry :=
  match t with
  | .core k => (s.core k).tlb
  | .wengine e => (s.wengine e).tlb
  | .engine k => (s.engine k).tlb
  | .unit c u => (s.cluster c).gtlbs.getD u []

def State.setTlb (s : State) (t : TlbId) (l : List TlbEntry) : State :=
  match t with
  | .core k => s.setCore k { s.core k with tlb := l }
  | .wengine e => s.setWengine e { s.wengine e with tlb := l }
  | .engine k => s.setEngine k { s.engine k with tlb := l }
  | .unit c u => s.setCluster c { s.cluster c with gtlbs := (s.cluster c).gtlbs.put u l }

/-- The entry translates `va` for the address space `asid`. -/
def TlbEntry.hits (e : TlbEntry) (asid va : Nat) : Bool :=
  decide (e.va ≤ va ∧ va < e.va + e.size) && (Pte.g e.pte || decide (e.asid = asid))

/-- Every TLB of a cluster, the cluster TLB included, without the entries that `drop` selects, and the texture index lines
filled through them (R269, R271). -/
def State.dropTlb (s : State) (cluster : Nat) (drop : TlbEntry → Bool) : State :=
  let keep (l : List TlbEntry) := l.filter fun e => !drop e
  let c := s.cluster cluster
  let s := if c.tlb.isEmpty && c.gtlbs.isEmpty && c.texLines.isEmpty then s
    else s.setCluster cluster { c with
      tlb := keep c.tlb
      gtlbs := c.gtlbs.map fun g => (g.1, keep g.2)
      texLines := c.texLines.filter fun x => !drop x.tr }
  { s with
    cores := s.cores.map fun e => if e.1 / 64 = cluster then (e.1, { e.2 with tlb := keep e.2.tlb }) else e
    wengines := s.wengines.map fun e => if e.1 / 8 = cluster then (e.1, { e.2 with tlb := keep e.2.tlb }) else e
    engines := s.engines.map fun e => if e.1 / 7 = cluster then (e.1, { e.2 with tlb := keep e.2.tlb }) else e }

/-- A TLB list with an entry filled: a full one loses an entry of the machine's choice (log 20). -/
def tlbPut (l : List TlbEntry) (cap victim : Nat) (e : TlbEntry) : List TlbEntry :=
  if l.length < cap then e :: l else e :: l.eraseIdx (victim % cap)

/-! ## Untracked copies (R111, R315) -/

/-- The bytes of `data` that `mask` marks, merged over `old`. -/
def mergeDirty (mask : BitVec 256) (i : Nat) (old data : List Byte) : List Byte :=
  match old, data with
  | o :: os, d :: ds => (if mask.getLsbD i then d else o) :: mergeDirty mask (i + 1) os ds
  | os, _ => os

/-- The dirty bytes of an untracked line that cluster `c` holds are merged into its home; the copy stays, clean (R111). -/
def State.writeBackLine (s : State) (c line : Nat) : State :=
  match (s.cluster c).lines.find line with
  | some l =>
    if l.dirty = 0 then s else
    let home := mergeDirty l.dirty 0 (s.peek (line * 256) 256) l.data
    let clean (w : Nat) : Bool := w / 32 = line && (List.range 8).all fun i => l.dirty.getLsbD (w * 8 % 256 + i)
    let s := ({ s with mem := Memory.write s.mem (line * 256) home, poison := s.poison.filter fun w => !clean w }).llcTouch line
    s.setCluster c { s.cluster c with lines := (s.cluster c).lines.put line { l with dirty := 0 } }
  | none => s

/-- The cluster's copy of an untracked line is dropped; reservations on it there break (R17). -/
def State.dropLine (s : State) (c line : Nat) : State :=
  match (s.cluster c).lines.find line with
  | some _ =>
    (s.setCluster c { s.cluster c with lines := (s.cluster c).lines.del line }).dropResvs c none
      fun r => r.untracked && decide (r.line = line)
  | none => s

/-- Write-back and drop of every untracked line of the pages that cluster `c` holds. -/
def State.flushLines (s : State) (c : Nat) (ls : List Nat) : State :=
  match ls with
  | [] => s
  | l :: t => ((s.writeBackLine c l).dropLine c l).flushLines c t

/-! ## Alias detector (R316) -/

/-- The pages of an untracked translation are cleared in cluster `c`: lines written back and dropped, translations
dropped, accesses in flight made tracked. -/
def State.clearAlias (s : State) (c page pages : Nat) : State :=
  let lo := page * 4096
  let hi := (page + pages) * 4096
  let ls := ((s.cluster c).lines.map (·.1)).filter fun l => lo ≤ l * 256 && l * 256 < hi
  let s := s.flushLines c ls
  let s := s.dropTlb c fun e => Pte.t e.pte && decide (Pte.ppn e.pte * 4096 < hi ∧ lo < Pte.ppn e.pte * 4096 + e.size)
  let fixSeg (g : Seg) : Seg :=
    match g.loc with
    | .mem pa _ => if lo ≤ pa && pa < hi then { g with loc := .mem pa false } else g
    | _ => g
  let fix (e : Elem) : Elem := { e with segs := e.segs.map fixSeg }
  { s with waves := s.waves.map fun w => if w.1 / 128 = c then
      (w.1, { w.2 with accesses := w.2.accesses.map fun a => { a with elems := a.elems.map fix } }) else w }

def State.clearAliases (s : State) (cs : List Nat) (page pages : Nat) : State :=
  match cs with
  | [] => s
  | c :: t => (s.clearAlias c page pages).clearAliases t page pages

/-- A cluster-TLB fill registers its leaf with the page's mode record (R316). The answer says whether the translation is
installed as untracked. -/
def State.registerMode (s : State) (c page pages : Nat) (untracked : Bool) : Bool × State :=
  let overlap (e : Nat × ModeRec) : Bool := decide (e.1 < page + pages ∧ page < e.1 + e.2.pages)
  let live := s.modes.filter overlap
  let bit : BitVec 128 := BitVec.ofNat 128 (2 ^ c)
  if live.any fun e => e.2.untracked != untracked then
    let holders := (live.filter fun e => e.2.untracked).foldl (fun m e => m ||| e.2.holders) (0 : BitVec 128)
    let cs := (List.range 128).filter fun i => holders.getLsbD i || i == c
    let s := s.clearAliases cs page pages
    let keepHolders := (live.filter fun e => !e.2.untracked).foldl (fun m e => m ||| e.2.holders) (0 : BitVec 128)
    let s := { s with modes := (s.modes.filter fun e => !overlap e) }
    let s := { s with modes := s.modes.put page { pages := pages, untracked := false, holders := keepHolders ||| bit } }
    (false, s.logError 0 0 6 255 c (page * 4096) 0 0 0xFFFFFFFF)
  else
    let old := (s.modes.find page).map (·.holders)
    (untracked, { s with modes := s.modes.put page { pages := pages, untracked := untracked, holders := old.getD 0 ||| bit } })

/-! ## Translation -/

/-- What a leaf means for an access: O pages are tracked (R309), peer windows untracked (R422). -/
def trOf (pte : Dword) (size va : Nat) : Tr :=
  let pa := Pte.ppn pte * 4096 / size * size + va % size
  { pa := pa,
    untracked := match paKind pa with
      | .peer _ => true
      | _ => Pte.t pte && !Pte.o pte
    tso := Pte.o pte, compressed := Pte.c pte }

/-- A TLB hit (R269): the permission check, from the cached leaf. -/
def checkHit (acc : Acc) (k : AccessKind) (va : Nat) (e : TlbEntry) : M Tr := do
  if !permitted acc k e.pte then fail (pageFault k 2 va)
  else if Pte.c e.pte && !acc.decomp then fail (accessFault acc k 9 va)
  else pure (trOf e.pte e.size va)

/-- The entry serves an access of kind `k` without a walk: a store needs D set, so that the walk sets it (log 21). -/
def TlbEntry.serves (e : TlbEntry) (acc : Acc) (k : AccessKind) : Bool :=
  k != .store || Pte.d e.pte || !permitted acc k e.pte

/-- A and D set in the entry of a leaf, as an atomic at its home (R266). -/
def setAD (k : AccessKind) (l : Leaf) : M Dword := do
  let e := l.pte
  let e' := if k = .store then e ||| 0xC0#64 else e ||| 0x40#64
  if e' ≠ e then modify fun s => (s.tokenHome (l.addr / 256)).poke l.addr (leBytes 8 e'.toNat)
  pure e'

/-- The cluster TLB with an entry filled. A full one loses an entry of the machine's choice (log 20), and the TLBs it
includes lose it too (R269). -/
def State.fillClusterTlb (s : State) (c va : Nat) (e : TlbEntry) : State :=
  let l := (s.cluster c).tlb.filter fun x => !x.hits e.asid va
  let s := s.setCluster c { s.cluster c with tlb := l }
  let s :=
    if l.length < 4096 then s else
    match l[Config.freeNat s.free % 4096]? with
    | some x => { s.dropTlb c (fun y => y = x) with free := s.free + 1 }
    | none => s
  s.setCluster c { s.cluster c with tlb := e :: (s.cluster c).tlb }

/-- A walk, with its effects: A and D, the directory (R270), the alias detector (R316), the fills (R269). -/
def walkFill (acc : Acc) (va : Nat) (k : AccessKind) : M TlbEntry := do
  match walk acc va k (← get) with
  | .error e => fail e
  | .ok l =>
    let pte ← setAD k l
    let line := l.addr / 256
    modify fun s => { s with directory := s.directory.put line (s.directory.getD line 0 ||| BitVec.ofNat 128 (2 ^ acc.cluster)) }
    let untracked := (trOf pte l.size va).untracked
    let base := Pte.ppn pte * 4096 / l.size * l.size
    let kind := paKind base
    let pte ←
      if kind = .dram ∨ kind = .host then do
        let s ← get
        let (u, s) := s.registerMode acc.cluster (base / 4096) (l.size / 4096) untracked
        set s
        pure (if untracked && !u then pte &&& ~~~0x100#64 else pte)
      else pure pte
    let e : TlbEntry := { asid := asidOf acc.dptb, va := va / l.size * l.size, size := l.size, pte := pte, line := line }
    modify fun s => s.fillClusterTlb acc.cluster va e
    pure e

/-- Fill of the accessor's own TLB. -/
def fillOwn (acc : Acc) (va : Nat) (e : TlbEntry) : M Unit := modify fun s =>
  let l := (s.tlb acc.tlb).filter fun x => !x.hits e.asid va
  if l.length < 64 then s.setTlb acc.tlb (e :: l)
  else { s.setTlb acc.tlb (tlbPut l 64 (Config.freeNat s.free) e) with free := s.free + 1 }

/-- Translation of a canonical address outside the local window (R266, R269): own TLB, cluster TLB, walk. -/
def translate (acc : Acc) (va : Nat) (k : AccessKind) : M Tr := do
  let s ← get
  let asid := asidOf acc.dptb
  match (s.tlb acc.tlb).find? fun e => e.hits asid va && e.serves acc k with
  | some e => checkHit acc k va e
  | none =>
    match (s.cluster acc.cluster).tlb.find? fun e => e.hits asid va && e.serves acc k with
    | some e => do
      let t ← checkHit acc k va e
      fillOwn acc va e
      pure t
    | none => do
      let e ← walkFill acc va k
      fillOwn acc va e
      pure (trOf e.pte e.size va)

end Sys2Proof.Machine
end

