-- ==== Sys2Proof/Machine/Atom.lean ====
section
/-! DEFINITION. What an atomic stores (R68, R280, R281), and the quantum updates that units have issued and not yet
performed (R304). -/

namespace Sys2Proof.Machine

/-- Operations of the scoped and lane atomics, in the order of R68, with the natural maximum of R280. -/
inductive AtomOp where
  | add | swap | and | or | xor | max | fadd | cas | maxu
deriving DecidableEq, Repr

def AtomOp.code (o : AtomOp) : Nat :=
  match o with
  | .add => 0 | .swap => 1 | .and => 2 | .or => 3 | .xor => 4 | .max => 5 | .fadd => 6 | .cas => 7 | .maxu => 8

def AtomOp.ofCode (n : Nat) : AtomOp :=
  match n with
  | 0 => .add | 1 => .swap | 2 => .and | 3 => .or | 4 => .xor | 5 => .max | 6 => .fadd | 7 => .cas | _ => .maxu

/-- The new value of a location of `n` bits that holds `old`, for operand `d` and, for CAS, compare value `c`; none when
nothing is stored (R281). FADD rounds to nearest-even (R280). -/
def atomNew (o : AtomOp) (n old d c : Nat) : Option Nat :=
  let a : BitVec n := BitVec.ofNat n old
  let b : BitVec n := BitVec.ofNat n d
  match o with
  | .add => some (a + b).toNat
  | .swap => some b.toNat
  | .and => some (a &&& b).toNat
  | .or => some (a ||| b).toNat
  | .xor => some (a ^^^ b).toNat
  | .max => some (if a.slt b then b else a).toNat
  | .maxu => some (if a < b then b else a).toNat
  | .fadd =>
    let f := if n = 64 then FFmt.f64 else FFmt.f32
    some (fadd f { mode := 0 } false (unpack f a.toNat) (unpack f b.toNat)).bits
  | .cas => if a.toNat = c % 2 ^ n then some b.toNat else none

/-- Number of a unit for its quantum updates. -/
def UnitId.code (u : UnitId) : Nat :=
  match u with
  | .strand k => 4 * k
  | .wave k => 4 * k + 1
  | .engine k => 4 * k + 2
  | .other => 3

/-- One quantum update is performed, at its home (R284, R304). -/
def State.perform (s : State) (q : QUpdate) : State :=
  let n := if q.dbl then 8 else 4
  let old := natOfBytes (s.peek q.pa n)
  match atomNew (.ofCode q.op) (8 * n) old q.data.toNat q.data2.toNat with
  | some v => (s.tokenHome (q.pa / 256)).poke q.pa (leBytes n v)
  | none => s

/-- The pending quantum updates that `due` selects are performed, in the order they were issued. -/
def State.performAll (s : State) (due : QUpdate → Bool) : State :=
  if s.quantum.isEmpty then s else
  { (s.quantum.filter due).foldl State.perform s with quantum := s.quantum.filter fun q => !due q }

/-- A unit's own access to a line comes after its earlier updates there (R276). -/
def State.performOwn (s : State) (u : UnitId) (line : Nat) : State :=
  s.performAll fun q => q.unit == u.code && q.pa / 256 == line

/-- A release of a unit at a scope code performs its earlier quantum updates whose scope the release contains (R304). -/
def State.releaseUnit (s : State) (u : UnitId) (scope : Nat) : State :=
  s.performAll fun q => q.unit == u.code && decide (q.scope ≤ scope)

/-- A quantum update is issued: the 64th earlier one of the unit is performed first (R304). -/
def State.pushQuantum (s : State) (q : QUpdate) : State :=
  let own := s.quantum.filter fun x => x.unit == q.unit
  let s := match own with
    | x :: _ => if 64 ≤ own.length then s.performAll fun y => y == x else s
    | [] => s
  { s with quantum := s.quantum ++ [q] }

end Sys2Proof.Machine
end

