-- ==== Sys2Proof/Machine/Device.lean ====
section
/-! DEFINITION. The device register space (R227 to R231, R244, R404, R409, R414, R427, R429): what each register reads and
what a write of it does at once. -/

namespace Sys2Proof.Machine

/-- The six entries of the capability list, 3 words each (R429): word 0 holds ID, VER 1, LEN 3 and NEXT. -/
def capList : List Nat :=
  let entry (id next base size : Nat) : List Nat := [id + 2 ^ 16 + 3 * 2 ^ 24 + next * 2 ^ 32, base, size]
  entry 1 24 0x30000000000 0x10000 ++ entry 2 48 0x30000010000 0x40000 ++ entry 3 72 0x30000100000 0x800000 ++
    entry 4 96 0x1000000000000 (2 ^ 51) ++ entry 5 120 0x10000000000000 (255 * 2 ^ 42) ++ entry 6 0 0x30001000000 0x1000

/-- A register of the package control block, by offset (R414, R429). -/
def State.readPackage (s : State) (off : Nat) : Dword :=
  match off with
  | 0x00 => BitVec.ofNat 64 s.elBase
  | 0x08 => BitVec.ofNat 64 ((if s.elEn then 2 ^ 63 else 0) + s.elCtx * 2 ^ 33 + s.elLogn * 2 ^ 16)
  | 0x10 => BitVec.ofNat 64 s.elTail
  | 0x18 => BitVec.ofNat 64 s.elHead
  | 0x20 => BitVec.ofNat 64 s.elLost
  | 0x50 => if s.hirqElen then BitVec.ofNat 64 (2 ^ 63) else 0
  | 0x60 => BitVec.ofNat 64 ((if s.ldBusy then 2 ^ 63 else 0) + s.ldResult * 2 ^ 16 + s.ldImage)
  | 0x68 => BitVec.ofNat 64 s.pkg
  | 0x70 => BitVec.ofNat 64 (s.govTj * 2 ^ 24 + s.govPwr * 2 ^ 8 + s.govCause * 16 + s.govStep)
  | 0x78 => BitVec.ofNat 64 s.govCap
  | _ =>
    let at' := devBase + off
    if s.dcap.toNat ≤ at' ∧ at' < s.dcap.toNat + 144 then BitVec.ofNat 64 (capList.getD ((at' - s.dcap.toNat) / 8) 0) else 0

/-- A register of work queue `q` (R228 to R231). -/
def State.readQueue (s : State) (q off : Nat) : Dword :=
  let w := s.queue q
  match off with
  | 0x00 => BitVec.ofNat 64 w.base
  | 0x08 => BitVec.ofNat 64 ((if w.en then 2 ^ 31 else 0) + w.cls * 2 ^ 24 + w.weight * 2 ^ 16 + w.logn)
  | 0x10 => BitVec.ofNat 64 w.tail
  | 0x18 => BitVec.ofNat 64 w.head
  | 0x20 => BitVec.ofNat 64 (w.errIdx * 2 ^ 16 + (if w.lerr then 2 else 0) + (if w.badTail then 1 else 0))
  | _ => 0

/-- A register of the control block of cluster `c` (R244, R404). -/
def State.readClusterReg (s : State) (c off : Nat) : Dword :=
  if off < 0x40 then (if (s.wengine (c * 8 + off / 8)).roundRobin then 1 else 0)
  else if off = 0x40 then
    let k := s.cluster c
    BitVec.ofNat 64 (k.preSave + (if k.preReq then 8 else 0) + k.preSlot)
  else 0

/-- The aligned doubleword at a device register address (R227, R429); reserved bits read 0 (R8). -/
def State.readDevice (s : State) (pa : Nat) : Dword :=
  let off := pa - devBase
  if off < 0x10000 then s.readPackage off
  else if off < 0x50000 then s.readQueue ((off - 0x10000) / 64) ((off - 0x10000) % 64)
  else if off < 0x900000 then s.readClusterReg ((off - 0x100000) / 65536) ((off - 0x100000) % 65536)
  else BitVec.ofNat 64 (natOfBytes ((List.range 8).map fun i => s.config.getD (off - 0x1000000 + i) 0))

/-- DBELL (R427): sip.SSIP of the context with this dstrand value is set. -/
def State.ringDoorbell (s : State) (v : Dword) : State :=
  let ctx := (v.extractLsb' 0 18).toNat
  let k := ctx % 2 ^ 16
  if dstrandOf k = BitVec.ofNat 64 ctx then s.setHart (.strand k) { s.hart (.strand k) with ssip := true } else s

/-- HIRQ (R427, R429): ELEN is written, a VEC from 2 to 15 sends that vector. -/
def State.writeHirq (s : State) (v : Dword) : State :=
  let vec := (v.extractLsb' 0 4).toNat
  let s := { s with hirqElen := v.getLsbD 63 }
  if 2 ≤ vec then { s with msix := vec :: s.msix } else s

/-- A write to a register of the package control block (R409, R414, R427, R429), by its access codes. -/
def State.writePackage (s : State) (off : Nat) (v : Dword) : State :=
  match off with
  | 0x00 => if s.elEn then s else { s with elBase := (v.extractLsb' 12 36).toNat * 4096 }
  | 0x08 =>
    let logn := (v.extractLsb' 16 5).toNat
    let s := if s.elEn || logn < 7 || 20 < logn then s else { s with elLogn := logn }
    { s with elEn := v.getLsbD 63, elCtx := (v.extractLsb' 33 18).toNat }
  | 0x18 => { s with elHead := (v.extractLsb' 0 32).toNat }
  | 0x20 => { s with elLost := (BitVec.ofNat 32 s.elLost &&& ~~~(v.setWidth 32)).toNat }
  | 0x40 => { s with resumes := s.resumes ++ [v] }
  | 0x48 => s.ringDoorbell v
  | 0x50 => s.writeHirq v
  | 0x58 => if s.ldBusy then s else { s with ldBusy := true, ldReq := v &&& 0xFFFFFFFFFFC0#64 }
  | 0x78 =>
    let cap := (v.extractLsb' 0 16).toNat
    if 2000 ≤ cap ∧ cap ≤ s.plimit then { s with govCap := cap } else s
  | _ => s

/-- WQTAIL (R230, R232): the producer count, which also lets a queue stopped by BADTAIL go on. -/
def State.writeTail (s : State) (q : Nat) (v : Dword) : State :=
  s.setQueue q { s.queue q with tail := (v.extractLsb' 0 32).toNat, blocked := false }

/-- A write to a register of work queue `q` (R228 to R231). -/
def State.writeQueue (s : State) (q off : Nat) (v : Dword) : State :=
  let w := s.queue q
  match off with
  | 0x00 => if w.en then s else s.setQueue q { w with base := (v.extractLsb' 7 41).toNat * 128 }
  | 0x08 =>
    let logn := (v.extractLsb' 0 5).toNat
    let weight := (v.extractLsb' 16 8).toNat
    let w1 := if w.en then w else
      { w with cls := (v.extractLsb' 24 2).toNat, logn := if 4 ≤ logn ∧ logn ≤ 16 then logn else w.logn }
    s.setQueue q { w1 with en := v.getLsbD 31, weight := if weight = 0 then w.weight else weight }
  | 0x10 => s.writeTail q v
  | 0x20 => s.setQueue q { w with lerr := w.lerr && !v.getLsbD 1, badTail := w.badTail && !v.getLsbD 0 }
  | _ => s

/-- WECTL of a wave engine (R244): the policy, with the ageing count started again. -/
def State.writeWectl (s : State) (e : Nat) (v : Dword) : State :=
  s.setWengine e { s.wengine e with roundRobin := v.getLsbD 0, currentSince := s.clk }

/-- STATE of a save area (R404, R407), written with a release at system scope. -/
def State.writeSaveState (s : State) (area v : Nat) : State := (s.tokenHome (area / 256)).poke area (leBytes 4 v)

/-- PREEMPT (R404): a request, or its refusal. -/
def State.writePreempt (s : State) (c : Nat) (v : Dword) : State :=
  let k := s.cluster c
  if k.preReq then s else
  let save := (v.extractLsb' 8 40).toNat * 256
  let slot := (v.extractLsb' 0 3).toNat
  let s := s.setCluster c { k with preSave := save, preSlot := slot }
  if !v.getLsbD 3 then s else
  match k.crews.find slot with
  | some crew =>
    if crew.cls = 0 then s.writeSaveState save 3 else
    let s := s.setCluster c { s.cluster c with preReq := true, preClk := s.clk }
    s.setCrew c slot { crew with preempt := true }
  | none => s.writeSaveState save 3

/-- A write to a register of the control block of cluster `c`. -/
def State.writeClusterReg (s : State) (c off : Nat) (v : Dword) : State :=
  if off < 0x40 then s.writeWectl (c * 8 + off / 8) v else if off = 0x40 then s.writePreempt c v else s

/-- A write of an aligned doubleword to the device register space. -/
def State.writeDevice (s : State) (pa : Nat) (v : Dword) : State :=
  let off := pa - devBase
  if off < 0x10000 then s.writePackage off v
  else if off < 0x50000 then s.writeQueue ((off - 0x10000) / 64) ((off - 0x10000) % 64) v
  else if off < 0x900000 then s.writeClusterReg ((off - 0x100000) / 65536) ((off - 0x100000) % 65536) v
  else s

end Sys2Proof.Machine
end

