-- ==== Sys2Proof/Machine/Access.lean ====
section
/-! DEFINITION. Accesses by virtual address: the local window (R255, R256), lines of tracked and untracked pages, device
registers, read-modify-writes (R284), range operations (R111). An access resolves and checks every byte first and is
performed afterwards, so that one that faults has read and written nothing. -/

namespace Sys2Proof.Machine

/-- Bits [63:48] copy bit 47 (R93, R194). -/
def canonical (va : Dword) : Bool := va = (va.extractLsb' 0 48).signExtend 64

/-- The address lies in the local window (R255). -/
def inWindow (va : Nat) : Bool := va / 2 ^ 40 % 256 = 0x7F && va < 2 ^ 48

/-! ## The local window -/

/-- Pool unit `u` of the crew's scratch units, as the key of byte `b` of the pool scratch (R250, R255). -/
def Crew.scratchKey (c : Crew) (cluster b : Nat) : Option Nat :=
  (c.scrUnits[b / 16384]?).map fun u => poolKey (cluster * 8 + c.engine) (u * 16384 + b % 16384)

/-- The crew slot and share that a crew-view access reaches: for a crew resumed elsewhere, HOME stands for its place
(R409). -/
def crewView (s : State) (acc : Acc) (cluster slot : Nat) : Option (Nat × Nat) :=
  match acc.priv with
  | .s => some (cluster, slot)
  | .u =>
    match acc.crew with
    | some r =>
      if !acc.bound then none else
      match s.crewOf r with
      | some c => if c.home = cluster ∧ c.homeSlot = slot then some (r.cluster, r.slot) else none
      | none => none
    | none => none

/-- The byte at offset `off` of the crew view of a slot: a core's share, or the pool scratch. -/
def crewViewKey (s : State) (cluster slot off : Nat) : Option Nat :=
  if off < 0x100000 then
    let core := cluster * 64 + off / 0x4000
    let scr := (s.core core).scr
    let b := off % 0x4000
    if b < scr * 1024 then some (sramKey core (slot * scr * 1024 + b)) else none
  else
    match (s.cluster cluster).crews.find slot with
    | some c => c.scratchKey cluster (off - 0x100000)
    | none => none

/-- The byte at offset `off` of the raw view of a cluster. -/
def rawKey (s : State) (cluster off : Nat) : Option Nat :=
  if off < 0x800000 then
    let core := cluster * 64 + off / 0x20000
    if off % 0x20000 < (s.core core).scr * 8192 then some (sramKey core (off % 0x20000)) else none
  else if 0x1000000 ≤ off ∧ off < 0x2000000 then
    some (poolKey (cluster * 8 + (off - 0x1000000) / 0x200000) ((off - 0x1000000) % 0x200000))
  else none

/-- The crew slot of a unit, while its crew is resident in its cluster (R122). -/
def shapeSlot (s : State) (acc : Acc) : Option (Nat × Nat) :=
  acc.crew.bind fun r => if r.cluster = acc.cluster ∧ (s.crewOf r).isSome then some (r.cluster, r.slot) else none

/-- One byte of the window as a location; none when R256 does not permit the access. -/
def windowByte (s : State) (acc : Acc) (va : Nat) (k : AccessKind) : Option Loc :=
  let off := va % 2 ^ 40
  if k = .fetch then none
  else if off < 2 ^ 36 then
    let cluster := off / 2 ^ 25
    if acc.priv = .s ∧ cluster < 128 then (rawKey s cluster (off % 2 ^ 25)).map .key else none
  else if off < 2 ^ 37 then
    let o := off - 2 ^ 36
    let cluster := o / 2 ^ 25
    if 128 ≤ cluster then none else
    match crewView s acc cluster (o % 2 ^ 25 / 2 ^ 22) with
    | some (c, slot) => (crewViewKey s c slot (o % 2 ^ 22)).map .key
    | none => none
  else
    let o := off - 2 ^ 37
    match acc.who with
    | .strand k' =>
      if o < 0x200 then
        let ctx := k' / 8 * 8 + o / 64
        if acc.priv = .s ∨ ctx = k' then some (.ctx ctx (o % 64)) else none
      else if o < 0x400 then
        if acc.hm ∧ (o - 0x200) / 64 = k' % 8 then some (.key (hbufKey k' (o % 64))) else none
      else if 0x800 ≤ o ∧ o < 0x1000 ∧ k = .load then
        match shapeSlot s acc with
        | some (c, slot) => some (.shape c slot (o - 0x800))
        | none => some (.shape acc.cluster 8 (o - 0x800))
      else none
    | .wave _ =>
      if 0x800 ≤ o ∧ o < 0x1000 ∧ k = .load then
        match shapeSlot s acc with
        | some (c, slot) => some (.shape c slot (o - 0x800))
        | none => some (.shape acc.cluster 8 (o - 0x800))
      else none
    | _ => none

/-- The part of the window that a byte lies in: accessed bytes lie in one permitted range (R256). -/
def windowRange (va : Nat) : Nat :=
  let off := va % 2 ^ 40
  if off < 2 ^ 36 then off / 0x20000
  else if off < 2 ^ 37 then
    if (off - 2 ^ 36) % 2 ^ 22 < 0x100000 then off / 0x4000 else 2 ^ 40 + off / 2 ^ 22
  else if (off - 2 ^ 37) < 0x400 then 2 ^ 41 + (off - 2 ^ 37) / 64
  else 2 ^ 42

/-- The bytes of a window access, or ACCESS_FAULT with DETAIL 7 (R256). -/
def resolveWindow (s : State) (acc : Acc) (va n : Nat) (k : AccessKind) : Except Exc (List Seg) :=
  let bytes := (List.range n).map fun i => windowByte s acc (va + i) k
  if bytes.all Option.isSome && decide (windowRange va = windowRange (va + (n - 1))) then
    .ok (bytes.filterMap fun b => b.map fun l => { loc := l, len := 1 })
  else .error (accessFault acc k 7 va)

/-! ## Resolution -/

/-- The location of `n` bytes of one line at a translated address, after the checks of R227 and R259. -/
def locOf (acc : Acc) (k : AccessKind) (va : Nat) (t : Tr) : M Loc := do
  let s ← get
  if !s.populated t.pa then fail (accessFault acc k 8 va)
  else if paKind t.pa = .device then
    if acc.priv = .u then fail (accessFault acc k 11 va) else pure (.device t.pa)
  else pure (.mem t.pa t.untracked)

/-- The segments of `n` bytes at `va` outside the window, line by line in ascending order (R263). -/
def resolveLines (acc : Acc) (k : AccessKind) (va n fuel : Nat) : M (List Seg) :=
  match fuel with
  | 0 => pure []
  | fuel + 1 =>
    if n = 0 then pure [] else do
      let len := min n (256 - va % 256)
      let t ← translate acc va k
      let l ← locOf acc k va t
      let rest ← resolveLines acc k (va + len) (n - len) fuel
      pure ({ loc := l, len := len } :: rest)

/-- Every byte of an access located and checked (R93, R256, R266). -/
def resolve (acc : Acc) (va : Dword) (n : Nat) (k : AccessKind) : M (List Seg) := do
  if !canonical va then fail (accessFault acc k 0 va.toNat)
  let a := va.toNat % 2 ^ 48
  if inWindow a then
    match resolveWindow (← get) acc a n k with
    | .ok l => pure l
    | .error e => fail e
  else resolveLines acc k a n (n / 256 + 2)

/-! ## Performing -/

/-- A device request for a line that the host may hold (R425): the home snoops the host, and the request waits for its
answer. A cluster that needs nothing from the home is not held up. The unit's own quantum updates of the line come
first (R276). -/
def hostGate (acc : Acc) (pa : Nat) (write : Bool) : M Unit := do
  modify fun s => s.performOwn acc.who (pa / 256)
  let s ← get
  let line := pa / 256
  let h := (s.tok (s.granuleOf line)).held.getD acc.cluster 0
  if s.hostFilter.contains line && (if write then h != 129 else h == 0) then
    if (s.snoops.find line).isNone then modify fun s => { s with snoops := s.snoops.put line false }
    throw .stall
  else pure ()

/-- Poisoned bytes of an untracked copy: a poisoned home word that the copy has not overwritten whole. -/
def copyPoisoned (s : State) (l : ULine) (pa n : Nat) : Bool :=
  s.poison.any fun w => decide (pa / 8 ≤ w ∧ w ≤ (pa + n - 1) / 8) &&
    !((List.range 8).all fun i => l.dirty.getLsbD (w * 8 % 256 + i))

/-- The cluster's copy of an untracked line, filled from the home when it holds none (R315). -/
def State.fillLine (s : State) (c line : Nat) : State :=
  match (s.cluster c).lines.find line with
  | some _ => s
  | none =>
    let s := s.llcTouch line
    s.setCluster c { s.cluster c with lines := (s.cluster c).lines.put line { data := s.peek (line * 256) 256 } }

def State.uline (s : State) (c line : Nat) : ULine := ((s.cluster c).lines.find line).getD { data := [] }

/-- A mask of the bytes [lo, lo + n) of a line. -/
def byteMask (lo n : Nat) : BitVec 256 := BitVec.ofNat 256 ((2 ^ n - 1) * 2 ^ lo)

/-- The list with `new` in place of its elements from index `i`. -/
def splice (l : List Byte) (i : Nat) (new : List Byte) : List Byte := l.take i ++ new ++ l.drop (i + new.length)

/-- A read of bytes within one line (R252, R294, R311, R315). `fill` is false for a no-allocate load (R258). -/
def readMem (acc : Acc) (pa n va : Nat) (untracked fill : Bool) : M (List Byte) := do
  hostGate acc pa false
  let s ← get
  let line := pa / 256
  if untracked then
    let s := if fill then s.fillLine acc.cluster line else s
    match (s.cluster acc.cluster).lines.find line with
    | some l =>
      if copyPoisoned s l pa n then fail (poisonExc 0 va)
      set s
      pure ((l.data.drop (pa % 256)).take n)
    | none =>
      if s.poisoned pa n then fail (poisonExc 0 va)
      set (s.transfer pa)
      pure (s.peek pa n)
  else
    if s.poisoned pa n then fail (poisonExc 0 va)
    let s := s.tokenRead acc.cluster line
    set s
    pure (s.peek pa n)

/-- A store within one line (R308, R311, R315). `fill` is false for a no-allocate store. -/
def writeMem (acc : Acc) (pa : Nat) (bs : List Byte) (untracked fill : Bool) : M Unit := do
  hostGate acc pa true
  let line := pa / 256
  modify fun s =>
    let s := s.dropResvs acc.cluster acc.hart fun r => decide (r.line = line ∨ r.granule = s.granuleOf line)
    if untracked then
      let s := if fill then s.fillLine acc.cluster line else s
      match (s.cluster acc.cluster).lines.find line with
      | some l =>
        s.setCluster acc.cluster { s.cluster acc.cluster with
          lines := (s.cluster acc.cluster).lines.put line
            { data := splice l.data (pa % 256) bs, dirty := l.dirty ||| byteMask (pa % 256) bs.length } }
      | none => (s.poke pa bs).transfer pa
    else (s.tokenWrite acc.cluster line).poke pa bs

/-- Mailbox status (R142): OVR in byte 0, FULL in byte 1, the rest zero. -/
def State.ctxByte (s : State) (k off : Nat) : Byte :=
  match off with
  | 0 => (s.hart (.strand k)).mbOvr
  | 1 => (s.hart (.strand k)).mbFull
  | _ => 0

/-- A write of mailbox status clears the bits written as 1 (R142). -/
def State.writeCtx (s : State) (k off : Nat) (b : Byte) : State :=
  let h := s.hart (.strand k)
  match off with
  | 0 => s.setHart (.strand k) { h with mbOvr := h.mbOvr &&& ~~~b }
  | 1 => s.setHart (.strand k) { h with mbFull := h.mbFull &&& ~~~b }
  | _ => s

/-- A byte of the shape store of a crew slot (R122). -/
def State.shapeByte (s : State) (c slot off : Nat) : Byte :=
  match (s.cluster c).crews.find slot with
  | some crew => crew.store.getD off 0
  | none => 0

def readSeg (acc : Acc) (va : Nat) (fill : Bool) (g : Seg) : M (List Byte) := do
  match g.loc with
  | .mem pa u => readMem acc pa g.len va u fill
  | .device pa =>
    if g.len = 8 ∧ pa % 8 = 0 then do
      let s ← get
      pure (leBytes 8 (s.readDevice pa).toNat)
    else pure (List.replicate g.len 0)
  | .key k => do
    let s ← get
    if s.poisoned k g.len then fail (poisonExc 0 va)
    pure (s.peek k g.len)
  | .ctx k off => do
    let s ← get
    pure ((List.range g.len).map fun i => s.ctxByte k (off + i))
  | .shape c slot off => do
    let s ← get
    pure ((List.range g.len).map fun i => s.shapeByte c slot (off + i))

def writeSeg (acc : Acc) (fill : Bool) (g : Seg) (bs : List Byte) : M Unit := do
  match g.loc with
  | .mem pa u => writeMem acc pa bs u fill
  | .device pa =>
    if bs.length = 8 ∧ pa % 8 = 0 then modify fun s => s.writeDevice pa (BitVec.ofNat 64 (natOfBytes bs)) else pure ()
  | .key k => modify fun s => (s.dropResvs (keyCluster k) acc.hart fun r => decide (r.line = k / 256)).poke k bs
  | .ctx k off => modify fun s => s.writeCtx k off (bs.headD 0)
  | .shape _ _ _ => pure ()

def readSegs (acc : Acc) (va : Nat) (fill : Bool) (gs : List Seg) : M (List Byte) :=
  match gs with
  | [] => pure []
  | g :: t => do
    let b ← readSeg acc va fill g
    let r ← readSegs acc (va + g.len) fill t
    pure (b ++ r)

def writeSegs (acc : Acc) (fill : Bool) (gs : List Seg) (bs : List Byte) : M Unit :=
  match gs with
  | [] => pure ()
  | g :: t => do
    writeSeg acc fill g (bs.take g.len)
    writeSegs acc fill t (bs.drop g.len)

/-- Host snoops for every line of an access come before any byte of it. -/
def gateSegs (acc : Acc) (write : Bool) (gs : List Seg) : M Unit :=
  match gs with
  | [] => pure ()
  | g :: t => do
    match g.loc with
    | .mem pa _ => hostGate acc pa write
    | _ => pure ()
    gateSegs acc write t

/-- `n` bytes loaded from a virtual address. -/
def vread (acc : Acc) (va : Dword) (n : Nat) : M (List Byte) := do
  let gs ← resolve acc va n .load
  readSegs acc (va.toNat % 2 ^ 48) true gs

/-- Bytes stored at a virtual address. -/
def vwrite (acc : Acc) (va : Dword) (bs : List Byte) : M Unit := do
  let gs ← resolve acc va bs.length .store
  gateSegs acc true gs
  writeSegs acc true gs bs

def vread64 (acc : Acc) (va : Dword) : M Dword := do return BitVec.ofNat 64 (natOfBytes (← vread acc va 8))

/-- The store of a read-modify-write, or the load that a failed compare is (R281, R284). -/
def State.rmwStore (s : State) (acc : Acc) (pa : Nat) (atHome : Bool) (new : Option (List Byte)) : State :=
  let line := pa / 256
  match new with
  | some bs =>
    let s := s.dropResvs acc.cluster acc.hart fun r => decide (r.line = line ∨ r.granule = s.granuleOf line)
    (if atHome then (s.tokenHome line).llcTouch line else s.tokenWrite acc.cluster line).poke pa bs
  | none => if atHome then s.llcTouch line else s.tokenRead acc.cluster line

/-- A read-modify-write of an aligned word of `n` bytes (R284): in the L1 that holds all tokens, at the home for untracked
and TIER 2 lines and where `home` says so, at the SRAM. `f` answers the new value, or none when nothing is stored. The answer
is the old value. -/
def vrmwAt (home : Bool) (acc : Acc) (va : Dword) (n : Nat) (f : Nat → Option Nat) : M Nat := do
  let gs ← resolve acc va n .store
  let a := va.toNat % 2 ^ 48
  match gs with
  | [{ loc := .device _, len := _ }] => fail (accessFault acc .store 11 a)
  | [{ loc := .mem pa u, len := _ }] => do
    hostGate acc pa true
    let line := pa / 256
    let atHome := home || u || paKind pa != .dram
    modify fun s => if u then (s.writeBackLine acc.cluster line).dropLine acc.cluster line else s
    let s ← get
    if s.poisoned pa n then fail (poisonExc 0 a)
    let old := natOfBytes (s.peek pa n)
    modify fun s => s.rmwStore acc pa atHome ((f old).map (leBytes n))
    pure old
  | _ => do
    let old := natOfBytes (← readSegs acc a true gs)
    match f old with
    | some v => writeSegs acc true gs (leBytes n v)
    | none => pure ()
    pure old

def vrmw (acc : Acc) (va : Dword) (n : Nat) (f : Nat → Option Nat) : M Nat := vrmwAt false acc va n f

/-! ## Range operations (R111, R287) -/

inductive RangeOp where
  | cwb | cinv | cflush
deriving DecidableEq, Repr

/-- The effect on one line that the cluster may hold. -/
def State.rangeLine (s : State) (o : RangeOp) (c line : Nat) : State :=
  match o with
  | .cwb => s.writeBackLine c line
  | .cinv => s.dropLine c line
  | .cflush => (s.writeBackLine c line).dropLine c line

/-- A valid mapping of the page of `va` for a range operation: the walk without its permission check (R111). -/
def mapped (acc : Acc) (k : AccessKind) (va : Nat) : M Tr := do
  let s ← get
  match (s.cluster acc.cluster).tlb.find? fun e => e.hits (asidOf acc.dptb) va with
  | some e => pure (trOf e.pte e.size va)
  | none =>
    match walk { acc with priv := .s, sum := true, mxr := true, decomp := true } va .load s with
    | .ok l => pure (trOf l.pte l.size va)
    | .error e => if e.code = 7 then fail (pageFault k e.detail va) else fail e

/-- The operation over the lines that meet [va, va + n), ascending. -/
def rangeLines (acc : Acc) (o : RangeOp) (va n fuel : Nat) : M Unit :=
  match fuel with
  | 0 => pure ()
  | fuel + 1 =>
    if n = 0 then pure () else do
      let len := min n (256 - va % 256)
      if !inWindow va then do
        let t ← mapped acc (if o = .cinv then .load else .store) va
        if t.untracked then modify fun s => s.rangeLine o acc.cluster (t.pa / 256)
      rangeLines acc o (va + len) (n - len) fuel

end Sys2Proof.Machine
end

