-- ==== Sys2Proof/Machine/Gfx.lean ====
section
/-! DEFINITION. Graphics nodes (R373 to R375, R378): descriptors and their check, reserving and freeing records, records
that pass to units. -/

namespace Sys2Proof.Machine

/-! ## Descriptors (R373, R374) -/

/-- A node descriptor as its 128 bytes, with its address. -/
structure NodeD where
  va : Dword
  bytes : List Byte
deriving DecidableEq, Repr

namespace NodeD

def f (d : NodeD) (off n : Nat) : Nat := natOfBytes ((d.bytes.drop off).take n)
def kind (d : NodeD) : Nat := d.f 0 1
def rsz (d : NodeD) : Nat := d.f 1 1
def crews (d : NodeD) : Nat := d.f 2 2
def cap (d : NodeD) : Nat := d.f 4 4
def ring (d : NodeD) : Nat := d.f 8 8
def held (d : NodeD) : Nat := d.f 0x10 8
def map (d : NodeD) : Nat := d.f 0x18 8
/-- Bytes of a record slot. -/
def slotSize (d : NodeD) : Nat := 16 + 16 * d.rsz
def frag (d : NodeD) : Dword := BitVec.ofNat 64 (d.f 0x40 8)
def blend (d : NodeD) : Dword := BitVec.ofNat 64 (d.f 0x48 8)
def arena (d : NodeD) : Nat := d.f 0x50 8
def next (d : NodeD) : Dword := BitVec.ofNat 64 (d.f 0x40 8)
def tile (d : NodeD) : Nat := d.f 0x40 8
def tw (d : NodeD) : Nat := d.f 0x48 2
def th (d : NodeD) : Nat := d.f 0x4A 2
def op (d : NodeD) : Nat := d.f 0x4C 1
def depth (d : NodeD) : Nat := d.f 0x4D 1
def stage (d : NodeD) : Nat := d.f 0x50 8
/-- Handle of slot `i`. -/
def handle (d : NodeD) (i : Nat) : Dword := BitVec.ofNat 64 (d.ring + i * d.slotSize + 16)
/-- The slot whose handle is `h`. -/
def slotOf (d : NodeD) (h : Dword) : Option Nat :=
  let x := h.toNat - (d.ring + 16)
  if d.ring + 16 ≤ h.toNat ∧ x % d.slotSize = 0 ∧ x / d.slotSize < d.cap then some (x / d.slotSize) else none

/-- The template of a program node (R374): reserved fields and REGS clear, KIND not 3. -/
def templateOk (d : NodeD) : Bool :=
  let w (i : Nat) : Dword := BitVec.ofNat 64 (d.f (0x40 + 8 * i) 8)
  (w 1).extractLsb' 48 16 == 0#16 && (w 2).extractLsb' 48 16 == 0#16 && (w 3).extractLsb' 18 14 == 0#14 &&
    (w 3).extractLsb' 50 14 == 0#14 && (w 3).extractLsb' 0 2 != 3#2

/-- The checks of R374 on the descriptor itself. -/
def ok (d : NodeD) : Bool :=
  decide (d.kind ≤ 3 ∧ 1 ≤ d.rsz ∧ d.rsz ≤ 16 ∧ 1 ≤ d.crews ∧ 16 * d.crews ≤ d.cap ∧ d.cap ≤ 2 ^ 24) &&
    decide (d.ring % 256 = 0 ∧ d.held % 2 = 0 ∧ d.map % 8 = 0 ∧ d.f 0x34 12 = 0 ∧ d.f 0x60 32 = 0) &&
    match d.kind with
    | 0 => d.templateOk
    | 1 => decide (d.rsz = 1 ∧ d.arena % 4096 = 0 ∧ d.f 0x58 8 = 0 ∧ d.f 0x40 8 % 128 = 0 ∧ d.f 0x48 8 % 128 = 0)
    | 2 => decide (d.rsz = 3 ∧ d.f 0x40 8 % 128 = 0 ∧ d.f 0x48 24 = 0)
    | _ => decide (d.rsz = 1 ∧ d.tile % 256 = 0 ∧ d.stage % 256 = 0 ∧ 1 ≤ d.tw ∧ d.tw ≤ 64 ∧ 1 ≤ d.th ∧ d.th ≤ 64 ∧ d.op ≤ 3 ∧
        d.depth ≤ 2 ∧ d.f 0x4E 2 = 0 ∧ d.f 0x58 8 = 0)

end NodeD

/-- RESERVED_FIELD with DETAIL 10 (R374). -/
def badNode : Exc := excDev 2 10 0

def readNode (acc : Acc) (va : Dword) : M NodeD := do return { va := va, bytes := ← vread acc va 128 }

/-- A linked node has this KIND and RSZ. -/
def linkCheck (acc : Acc) (va : Dword) (kind rsz : Nat) : M Unit := do
  let d ← readNode acc va
  guardM (d.kind == kind && d.rsz == rsz) badNode

/-- A descriptor checked for a use (R374). -/
def useNode (acc : Acc) (va : Dword) : M NodeD := do
  let d ← readNode acc va
  guardM d.ok badNode
  match d.kind with
  | 1 => do
    linkCheck acc d.frag 0 3
    linkCheck acc d.blend 3 1
  | 2 => linkCheck acc d.next 0 6
  | _ => pure ()
  pure d

/-- The number of the node at a virtual address: its physical address divided by 128. -/
def nodeKey (acc : Acc) (va : Dword) : M Nat := do
  match ← resolve acc va 128 .load with
  | { loc := .mem pa _, len := _ } :: _ => pure (pa / 128)
  | _ => fail badNode

/-! ## Records -/

def State.node (s : State) (n : Nat) : GfxNode := s.nodes.getD n {}
def State.setNode (s : State) (n : Nat) (x : GfxNode) : State :=
  { s with nodes := if x.recs.isEmpty && x.nextTicket.isEmpty then s.nodes.del n else s.nodes.put n x }

/-- The record a reference names, while its reservation lasts. -/
def State.gfxRec (s : State) (r : GfxRef) : Option GfxRec :=
  match (s.node r.node).recs.find r.slot with
  | some x => if x.id = r.id then some x else none
  | none => none

def State.setRec (s : State) (n slot : Nat) (x : GfxRec) : State :=
  s.setNode n { s.node n with recs := (s.node n).recs.put slot x }

/-- The hardware's accesses for a record, from graphics unit `u` of its cluster: the rasteriser 0, the traversal unit 1,
the blender 4 (log 40). -/
def GfxRec.acc (r : GfxRec) (u : Nat) : Acc :=
  { cluster := r.cluster, tlb := .unit r.cluster u, who := .other, dptb := r.dptb, priv := .u, crew := r.crew, bound := true }

/-- A record's header, whose layout is not architected (R373). -/
def writeHeader (acc : Acc) (handle : Dword) : M Unit := do
  let a ← freeDwordM
  let b ← freeDwordM
  vwrite acc (handle - 16) (leBytes 8 a.toNat ++ leBytes 8 b.toNat)

/-- The lowest bit below `n` that is clear in `v`. -/
def clearBit (v n : Nat) : Option Nat := (List.range n).find? fun i => !v.testBit i

/-- The lowest clear bit of MAP is set; its number. -/
def takeMapBit (acc : Acc) (d : NodeD) (word fuel : Nat) : M (Option Nat) :=
  match fuel with
  | 0 => pure none
  | fuel + 1 => do
    let n := min 64 (d.cap - 64 * word)
    if n = 0 then pure none
    else do
      let old ← vrmwAt true acc (BitVec.ofNat 64 (d.map + 8 * word)) 8 fun v => (clearBit v n).map fun i => v + 2 ^ i
      match clearBit old n with
      | some i => pure (some (64 * word + i))
      | none => takeMapBit acc d (word + 1) fuel

/-- reserve(node, c) of R375: the slot, or none when the node is exhausted. -/
def reserveM (acc : Acc) (node : Nat) (d : NodeD) (proto : GfxRec) : M (Option Nat) := do
  guardM (decide (proto.c < d.crews)) badNode
  let heldVa : Dword := BitVec.ofNat 64 (d.held + 2 * proto.c)
  let add (v : Nat) : Option Nat := some (v + 1)
  let held ← vrmwAt true acc heldVa 2 fun v => if v < 16 then add v else none
  let got ←
    if held < 16 then pure true
    else do
      let free ← vrmwAt true acc (d.va + 0x20) 4 fun v => if 0 < v then some (v - 1) else none
      if 0 < free then do
        let _ ← vrmwAt true acc heldVa 2 add
        pure true
      else pure false
  if !got then pure none
  else do
    match ← takeMapBit acc d 0 (d.cap / 64 + 1) with
    | none => pure none
    | some i => do
      writeHeader acc (d.handle i)
      modify fun s => ({ s with nextRec := s.nextRec + 1 }).setRec node i
        { proto with
          id := s.nextRec
          nodeVa := d.va
          handle := d.handle i
          st := .reserved }
      pure (some i)

/-- free(node, slot) of R375, in memory. -/
def freeWords (acc : Acc) (d : NodeD) (slot c : Nat) : M Unit := do
  let _ ← vrmwAt true acc (BitVec.ofNat 64 (d.map + 8 * (slot / 64))) 8 fun v =>
    some (if v.testBit (slot % 64) then v - 2 ^ (slot % 64) else v)
  let heldVa : Dword := BitVec.ofNat 64 (d.held + 2 * c)
  let held ← vrmwAt true acc heldVa 2 fun v => some ((v + 65535) % 65536)
  if 16 < held then do
    let _ ← vrmwAt true acc (d.va + 0x20) 4 fun v => some ((v + 1) % 2 ^ 32)
  let _ ← vrmwAt true acc (d.va + 0x24) 4 fun v => some ((v + 1) % 2 ^ 32)
  pure ()

/-- A cause that a fixed-function unit meets: an entry of KIND 8 (R374). -/
def gfxLog (cluster u : Nat) (crew : Option CrewRef) (e : Exc) : M Unit := modify fun s =>
  let ix := match crew.bind fun r => (s.cluster r.cluster).crews.find r.slot with
    | some c => c.linear
    | none => 0xFFFFFFFF
  s.logError e.code e.detail 8 (79 + u) cluster e.tval.toNat 0 0 ix

/-- The record of a reference is freed. Its memory words are updated at the home; a fault of that is logged. -/
def freeOne (r : GfxRef) : M Unit := do
  match (← get).gfxRec r with
  | none => pure ()
  | some x => do
    modify fun s => s.setNode r.node { s.node r.node with recs := (s.node r.node).recs.del r.slot }
    let acc := x.acc 0
    match ← attempt (do
      let d ← readNode acc x.nodeVa
      writeHeader acc x.handle
      freeWords acc d r.slot x.c) with
    | .ok _ => pure ()
    | .error e => gfxLog x.cluster 0 x.crew e

/-- A mesh record is freed once its rasteriser has emitted all its blocks and no fragment record of it is left (R381). -/
def State.meshDone (s : State) (m : GfxRef) : Bool :=
  !(s.clusters.any fun c => (c.2.raster.map (·.mesh)) == some m) &&
    !(s.nodes.any fun n => n.2.recs.any fun r => r.2.mesh == some m)

def freeMesh (m : GfxRef) : M Unit := do
  let s ← get
  match s.gfxRec m with
  | some x => if x.st = .taken ∧ s.meshDone m then freeOne m
  | none => pure ()

/-- A record is freed, and with it perhaps its mesh. -/
def freeRec (r : GfxRef) : M Unit := do
  let mesh := ((← get).gfxRec r).bind (·.mesh)
  freeOne r
  match mesh with
  | some m => freeMesh m
  | none => pure ()

/-- A unit has discharged the duty of the continuation of a record: the record is freed if it is still delivered. -/
def dischargeGfx (r : Option GfxRef) : M Unit := do
  match r with
  | none => pure ()
  | some g => do
    match (← get).gfxRec g with
    | some x => if x.st = .delivered ∨ x.st = .queued then freeRec g
    | none => pure ()

/-- The unit of a continuation starts: its record is delivered. -/
def State.deliverGfx (s : State) (r : Option GfxRef) : State :=
  match r with
  | some g =>
    match s.gfxRec g with
    | some x => s.setRec g.node g.slot { x with st := .delivered }
    | none => s
  | none => s

end Sys2Proof.Machine
end

