-- ==== Sys2Proof/Machine/Crew.lean ====
section
/-! DEFINITION. Crews, continuations and launches: the fields of a continuation record (R126), enqueuing (R99, R127, R128),
joins (R101, R129), starting and freeing units (R31, R125), killing a crew (R410), ending a launch (R411). -/

namespace Sys2Proof.Machine

/-! ## Continuation records (R126) -/

namespace Cont

def code (c : Cont) : Dword := c.w0 &&& 0xFFFFFFFFFFFF#64
def lidx (c : Cont) : Nat := (c.w0.extractLsb' 48 16).toNat
def frame (c : Cont) : Dword := c.w1 &&& 0xFFFFFFFFFFFF#64
def join (c : Cont) : Dword := c.w2 &&& 0xFFFFFFFFFFFF#64
def kind (c : Cont) : Nat := (c.w3.extractLsb' 0 2).toNat
def cls (c : Cont) : Nat := (c.w3.extractLsb' 2 2).toNat
def hv (c : Cont) : Bool := c.w3.getLsbD 4
def hx (c : Cont) : Nat := (c.w3.extractLsb' 5 4).toNat
def hy (c : Cont) : Nat := (c.w3.extractLsb' 9 3).toNat
def radius (c : Cont) : Nat := (c.w3.extractLsb' 12 5).toNat
def boundBit (c : Cont) : Bool := c.w3.getLsbD 17
def regs (c : Cont) : Bool := c.w3.getLsbD 18
def hcluster (c : Cont) : Nat := (c.w3.extractLsb' 32 7).toNat
def hslot (c : Cont) : Nat := (c.w3.extractLsb' 39 3).toNat
def hgen (c : Cont) : Nat := (c.w3.extractLsb' 42 8).toNat
/-- Lane and wave kinds are always BOUND (R126). -/
def bound (c : Cont) : Bool := c.boundBit || c.kind == 1 || c.kind == 2
def ref (c : Cont) : CrewRef := { cluster := c.hcluster, slot := c.hslot, gen := c.hgen }

/-- The record with its crew fields written by the hardware. -/
def stamp (c : Cont) (r : CrewRef) : Cont :=
  { c with w3 := (c.w3 &&& 0xFFFC0000FFFFFFFF#64) |||
      BitVec.ofNat 64 (r.cluster % 128 * 2 ^ 32 + r.slot % 8 * 2 ^ 39 + r.gen % 256 * 2 ^ 42) }

/-- LIDX increased, modulo 2^16 (R99). -/
def addLidx (c : Cont) (n : Nat) : Cont :=
  { c with w0 := c.code ||| BitVec.ofNat 64 ((c.lidx + n) % 65536 * 2 ^ 48) }

/-- A reserved field of the record is not zero (R126). -/
def reservedSet (c : Cont) : Bool :=
  c.w1.extractLsb' 48 16 != 0#16 || c.w2.extractLsb' 48 16 != 0#16 || c.w3.extractLsb' 19 13 != 0#13 ||
    c.w3.extractLsb' 50 14 != 0#14

end Cont

/-- The continuation record in 32 bytes. -/
def contOfBytes (bs : List Byte) : Cont :=
  let w (i : Nat) : Dword := BitVec.ofNat 64 (natOfBytes ((bs.drop (8 * i)).take 8))
  { w0 := w 0, w1 := w 1, w2 := w 2, w3 := w 3 }

def Cont.bytes (c : Cont) : List Byte := leBytes 8 c.w0.toNat ++ leBytes 8 c.w1.toNat ++ leBytes 8 c.w2.toNat ++ leBytes 8 c.w3.toNat

/-- Waves and strands of a crew's kernel. -/
def State.kernelOf (s : State) (c : Crew) : Kernel := ((s.launches.find c.launch).map (·.kernel)).getD {}

/-- The crew has no unit of the kind a continuation asks for (R141). -/
def lacksUnits (k : Kernel) (c : Cont) : Bool :=
  ((c.kind == 1 || c.kind == 2) && k.waves == 0) || (c.kind == 0 && c.boundBit && k.strands == 0)

/-- What cont.spawn and stq refuse in a record (R99, R126, R141): DETAIL of the RESERVED_FIELD, or none. -/
def refuseCont (s : State) (crew : Option CrewRef) (launch : Nat) (c : Cont) : Option Nat :=
  let cls := ((s.launches.find launch).map (·.cls)).getD 3
  if c.reservedSet || c.regs || c.kind == 3 || (c.cls == 0 && cls != 0) then some 1
  else if lacksUnits (((s.launches.find launch).map (·.kernel)).getD {}) c then some 12
  else if c.bound && (crew.bind s.crewOf).isNone then some 12
  else none

/-! ## Placement (R127) -/

/-- The clusters a continuation visits from `a` toward `b`, along x and then along y, both ends included. -/
def walkPath (a b : Nat) : List Nat :=
  let ax := a % 16
  let ay := a / 16
  let bx := b % 16
  let by' := b / 16
  let xs := if ax ≤ bx then (List.range (bx - ax + 1)).map (ax + ·) else (List.range (ax - bx + 1)).map (ax - ·)
  let ys := if ay ≤ by' then (List.range (by' - ay)).map (ay + 1 + ·) else (List.range (ay - by')).map (ay - 1 - ·)
  xs.map (fun x => ay * 16 + x) ++ ys.map fun y => y * 16 + bx

/-- Contexts of the cluster that some resident crew reserves (R240). -/
def Cluster.reservedCtxs (c : Cluster) : List Nat := c.crews.flatMap fun e => e.2.ctxs

/-- A strand context of the cluster is idle, reserved by no crew and open to the class: context 7 takes class 0 only
(R236, R242). -/
def State.idleContext (s : State) (cluster cls k : Nat) : Bool :=
  decide (k / 512 = cluster) && (s.hart (.strand k)).run == .idle && !(s.cluster cluster).reservedCtxs.contains k &&
    (k % 8 != 7 || cls == 0)

def State.hasIdleContext (s : State) (cluster cls : Nat) : Bool :=
  (List.range 512).any fun i => s.idleContext cluster cls (cluster * 512 + i)

/-- The cluster whose queue an unbound strand continuation joins (R127). -/
def State.placeCont (s : State) (cluster : Nat) (c : Cont) : Nat :=
  if !c.hv then cluster else
  let target := c.hy * 16 + c.hx
  match (walkPath cluster target).find? fun k => decide (hops k target ≤ c.radius) && s.hasIdleContext k c.cls with
  | some k => k
  | none => target

/-- The cluster whose queue, or whose Atomiser, takes a continuation. -/
def State.contCluster (s : State) (cluster : Nat) (c : Cont) : Nat :=
  if c.bound then c.hcluster else s.placeCont cluster c

/-- Room for `n` more continuations in the class queue of a cluster: 64 on chip and the spill ring (R128). -/
def State.queueRoom (s : State) (cluster cls n : Nat) : Bool :=
  let len := ((s.cluster cluster).conts.getD cls []).length
  len + n ≤ 64 || len + n ≤ 64 + Config.ringEntries cluster cls

/-- A continuation joins the Atomiser of its cluster, or the queue of its class (R99, R127, R128). -/
def State.pushCont (s : State) (cluster : Nat) (q : QCont) : State :=
  let k := s.contCluster cluster q.c
  let c := s.cluster k
  if q.c.kind = 1 then s.setCluster k { c with atomiser := c.atomiser ++ [q] }
  else s.setCluster k { c with conts := c.conts.put q.c.cls (c.conts.getD q.c.cls [] ++ [q]) }

/-! ## Joins (R99, R101, R129) -/

/-- Who enqueues: the cluster, the crew whose fields are written, the launch, dcrew and the page table. -/
structure Origin where
  cluster : Nat
  crew : Option CrewRef
  launch : Nat
  dcrew : Dword
  dptb : Dword
  gfx : Option GfxRef := none
deriving DecidableEq, Repr

def originOf (s : State) (h : HartId) : Origin :=
  let r := s.hart h
  { cluster := h.cluster, crew := r.crew, launch := r.launch, dcrew := r.dcrew, dptb := r.dptb }

def Origin.queued (o : Origin) (s : State) (c : Cont) : QCont :=
  { c := match o.crew with
      | some r => c.stamp r
      | none => c
    launch := o.launch, since := s.clk, dcrew := o.dcrew, dptb := o.dptb, gfx := o.gfx }

/-- The queue of a continuation can start it: its crew is resident and has units of its kind (R141). -/
def State.canStart (s : State) (c : Cont) : Bool :=
  c.kind != 3 && (!c.bound ||
    match s.crewOf c.ref with
    | some crew => !lacksUnits (s.kernelOf crew) c
    | none => false)

/-- `delta` added to the counter of the join object at `va`; the old counter, and the parent when the counter becomes 0. -/
def joinStep (acc : Acc) (va delta : Dword) : M (Dword × Option Cont) := do
  let va := (va.setWidth 48).signExtend 64
  let old ← vrmw acc va 8 fun o => some ((BitVec.ofNat 64 o + delta).toNat)
  let old : Dword := BitVec.ofNat 64 old
  if old + delta = 0 then do
    let bs ← vread acc (va + 32) 32
    pure (old, some (contOfBytes bs))
  else pure (old, none)

/-- A continuation is enqueued; one that no unit can start is dropped, logged (KIND 8), and its join duty discharged at
once (R141). The recursion is along the joins discharged. -/
def enqueue (acc : Acc) (o : Origin) (c : Cont) (fuel : Nat) : M Unit :=
  match fuel with
  | 0 => pure ()
  | fuel + 1 => do
    let q := o.queued (← get) c
    if (← get).canStart q.c then modify fun s => s.pushCont o.cluster q
    else do
      modify fun s => s.logError 0 0 8 255 o.cluster q.c.code.toNat 0 0 (s.crewIx o.crew)
      if q.c.join ≠ 0 then do
        match ← attempt (joinStep acc q.c.join (BitVec.allOnes 64)) with
        | .ok (_, some p) => enqueue acc { o with gfx := none } p fuel
        | _ => pure ()
      dischargeGfx o.gfx

/-- `delta` added to a join counter with the parent's enqueue (R99, R100, R101); the old counter. -/
def joinAddM (acc : Acc) (o : Origin) (va delta : Dword) : M Dword := do
  let (old, parent) ← joinStep acc va delta
  match parent with
  | some p => enqueue acc o p 64
  | none => pure ()
  pure old

/-- 1 subtracted from a join counter, for a duty; a pointer of 0 has none (R100). -/
def joinSub (acc : Acc) (o : Origin) (va : Dword) : M Unit := do
  if va ≠ 0 then do
    let _ ← joinAddM acc o va (BitVec.allOnes 64)
    pure ()

/-! ## Accessors of units -/

/-- The accessor of a hart's own accesses (R15, R33, R267, R319). -/
def State.accOf (s : State) (h : HartId) : Acc :=
  let r := s.hart h
  { cluster := h.cluster
    tlb := match h with
      | .strand k => .core (k / 8)
      | .uniform k => .wengine (k / 16)
      | .engine k => .engine k
    who := match h with
      | .strand k => .strand k
      | .uniform k => .wave k
      | .engine k => .engine k
    dptb := r.dptb
    priv := r.priv
    sum := r.sstatus.getLsbD 18
    mxr := match h with
      | .strand _ => r.sstatus.getLsbD 19
      | _ => false
    crew := r.crew, bound := r.bound, hm := r.hm, hart := some h }

/-- The accessor of the front end's accesses to a launch join object: U level, through the page table of the bring-up
context (log 22). -/
def State.accFrontEnd (s : State) : Acc :=
  let ctx := natOfBytes ((List.range 2).map fun i => s.config.getD (0x10 + i) 0)
  { cluster := 0, tlb := .unit 0 5, who := .other, dptb := (s.hart (.strand ctx)).dptb, priv := .u }

/-! ## Freeing units -/

/-- A hart whose continuation has ended or been stopped: it keeps the registers R31 does not set. -/
def Hart.freed (h : Hart) : Hart :=
  { h with
    run := .idle
    granted := none
    crew := none
    bound := false
    duty := false
    gfx := none
    join := 0
    resv := none
    handler := none
    hm := false
    stack := none }

/-- A wave slot whose wave has ended: only its uniform hart's CSRs stay. -/
def Wave.freed (w : Wave) : Wave := { hart := w.hart.freed, trap := { lvec := w.trap.lvec } }

/-- The hart belongs to the crew's units. -/
def Hart.ofCrew (h : Hart) (r : CrewRef) : Bool := h.bound && h.crew == some r

/-- The future without the waiters that `keep` does not select; one pending without a waiter is empty again (R98). -/
def Future.keepWaiters (f : Future) (keep : FutWaiter → Bool) : Future :=
  let ws := f.waiters.filter keep
  { f with waiters := ws, st := if f.st = 1 ∧ ws.isEmpty then 0 else f.st }

/-- Harts that `dead` selects leave every wait queue (R91). -/
def State.leaveQueues (s : State) (cluster : Nat) (dead : HartId → Bool) (deadWave : Nat → Bool) : State :=
  let c := s.cluster cluster
  let keepW (w : Waiter) : Bool := match w with
    | .hart h _ => !dead h
    | .lane k _ _ => !deadWave k
  let keepF (w : FutWaiter) : Bool := match w with
    | .hart h => !dead h
    | .cont _ _ _ _ _ _ _ _ => true
  let s := if c.sems.isEmpty then s else
    s.setCluster cluster { c with sems := c.sems.map fun e => (e.1, { e.2 with waiters := e.2.waiters.filter keepW }) }
  let keepCrew (e : Nat × Crew) : Nat × Crew :=
    (e.1, { e.2 with blockWait := e.2.blockWait.filter keepW, blockGrant := e.2.blockGrant.filter keepW })
  let s := s.setCluster cluster { s.cluster cluster with crews := (s.cluster cluster).crews.map keepCrew }
  { s with
    futures := s.futures.map fun e => (e.1, e.2.keepWaiters keepF)
    engines := s.engines.map fun e => (e.1, { e.2 with parked := e.2.parked.filter fun h => !dead h }) }

/-- Every byte of the pool units of an engine cleared. -/
def State.zeroUnits (s : State) (engine : Nat) (units : List Nat) : State :=
  match units with
  | [] => s
  | u :: t => (s.zero (poolKey engine (u * 16384)) (poolKey engine (u * 16384 + 16384))).zeroUnits engine t

/-- The share of a crew slot of every core cleared (R251). -/
def State.zeroShares (s : State) (cluster slot : Nat) (cores : List Nat) : State :=
  match cores with
  | [] => s
  | c :: t =>
    let scr := (s.core (cluster * 64 + c)).scr
    (s.zero (sramKey (cluster * 64 + c) (slot * scr * 1024)) (sramKey (cluster * 64 + c) ((slot + 1) * scr * 1024))).zeroShares
      cluster slot t

/-- A queued continuation belongs to the crew (R124). -/
def QCont.ofCrew (q : QCont) (r : CrewRef) : Bool := q.c.bound && q.c.ref == r

/-- The engine without the kicks of a crew: the running one is abandoned too (R410). -/
def Engine.dropCrew (e : Engine) (r : CrewRef) : Engine :=
  let e := { e with queue := e.queue.filter fun k => k.crew != some r }
  if (e.running.map (·.crew)) == some (some r) then { e with
      running := none
      ops := []
      copy := none
      tiles := none
      hart := e.hart.freed }
  else e

/-- The crew of the running kick of an engine. -/
def Engine.crew (e : Engine) : Option CrewRef := e.running.bind (·.crew)

/-- Every unit of a crew stops at once; its kicks, queued continuations and gathers are abandoned (R410). -/
def State.stopCrew (s : State) (r : CrewRef) (crew : Crew) : State :=
  let deadHart (h : HartId) : Bool := (s.hart h).ofCrew r
  let deadWave (k : Nat) : Bool := decide (k / 128 = r.cluster ∧ k % 128 / 16 = crew.engine) && crew.waveSlots.contains (k % 16)
  let s1 := s.leaveQueues r.cluster deadHart deadWave
  let s2 : State := { s1 with
    strands := s1.strands.map fun e => if e.2.ofCrew r then (e.1, e.2.freed) else e
    waves := s1.waves.map fun e => if deadWave e.1 then (e.1, e.2.freed) else e
    engines := s1.engines.map fun e => (e.1, e.2.dropCrew r) }
  let c := s2.cluster r.cluster
  s2.setCluster r.cluster { c with
    conts := c.conts.map fun e => (e.1, e.2.filter fun q => !q.ofCrew r)
    atomiser := c.atomiser.filter fun q => !q.ofCrew r
    gathers := c.gathers.filter fun g => g.crew != r }

/-- First macro and number of macros of a dmgang word with V set; none when it claims no window (R335). -/
def gangWindow (g : Dword) : Option (Nat × Nat) :=
  if g.getLsbD 63 then some ((g.extractLsb' 32 5).toNat, (g.extractLsb' 40 6).toNat) else none

/-- The macros of a crew's window. -/
def MatCrew.window (m : MatCrew) : List Nat :=
  match gangWindow m.gang with
  | some (b, n) => (List.range n).map (b + ·)
  | none => []

def State.modMatrix (s : State) (c : Nat) (f : Matrix → Matrix) : State :=
  s.setCluster c { s.cluster c with matrix := f (s.cluster c).matrix }

def State.zeroBanks (s : State) (c : Nat) (ms : List Nat) : State :=
  match ms with
  | [] => s
  | m :: t => (s.zero (bankKey c m 0 0) (bankKey c m 2 0)).zeroBanks c t

/-- A crew leaves the matrix engine, Sillage and Bloom: its commands, its copies of their configuration and its banks go
(R334, R350, R351, R365). -/
def State.leaveMatrix (s : State) (r : CrewRef) : State :=
  let c := s.cluster r.cluster
  let s := if c.sillage.isEmpty && c.bloom.isEmpty then s else
    s.setCluster r.cluster { c with
      sillage := c.sillage.del r.slot
      bloom := c.bloom.filter fun e => e.2.crew != r }
  if c.matrix = {} then s else
  s.modMatrix r.cluster fun m => { m with cmds := m.cmds.filter fun x => x.crew != r, slots := m.slots.del r.slot }

/-- The slot and units of a crew are released (R240, R410); its shapes and records go with it. -/
def State.releaseCrew (s : State) (r : CrewRef) : State :=
  let s := s.leaveMatrix r
  s.setCluster r.cluster { s.cluster r.cluster with crews := (s.cluster r.cluster).crews.del r.slot }

/-- Both banks of every macro of a killed crew's window are zero (R350). -/
def State.scrubMatrix (s : State) (r : CrewRef) : State :=
  let ms := ((s.cluster r.cluster).matrix.slots.getD r.slot {}).window
  let s := s.zeroBanks r.cluster ms
  if ms = [] then s else
  s.modMatrix r.cluster fun m => { m with banks := m.banks.filter fun e => !ms.contains (e.1 / 2) }

/-- A pre-emption request for a crew slot that is gone ends (R404). -/
def State.endRequest (s : State) (r : CrewRef) : State :=
  let c := s.cluster r.cluster
  if c.preReq && c.preSlot == r.slot then s.setCluster r.cluster { c with preReq := false } else s

/-- A crew killed (R410 steps 1 to 4): stopped, scrubbed, released. -/
def State.scrapCrew (s : State) (r : CrewRef) (crew : Crew) : State :=
  let s := s.stopCrew r crew
  let e := r.cluster * 8 + crew.engine
  let s := s.scrubMatrix r
  let s := ((s.zeroUnits e crew.scrUnits).zeroUnits e crew.accUnits).zeroUnits e crew.regUnits
  ((s.zeroShares r.cluster r.slot (List.range 64)).releaseCrew r).endRequest r

/-! ## Deferred faults that lapse (R400) -/

/-- A deferred-fault record goes to the error log (KIND 9). -/
def State.logDeferred (s : State) (ref : CrewRef) (d : Deferred) : State :=
  let unit := match d.sender with
    | some h => h.unit
    | none => 64 + d.wave.getD 0 % 128 / 16
  s.logError d.code d.detail 9 unit ref.cluster d.addr.toNat 0 0 (s.crewIx (some ref))

/-- The records of a crew that `gone` selects lapse. -/
def State.lapseDeferred (s : State) (ref : CrewRef) (gone : Deferred → Bool) : State :=
  match s.crewOf ref with
  | some c =>
    if c.deferred.any fun e => gone e.2 then
      let s := (c.deferred.filter fun e => gone e.2).foldl (fun (s : State) (e : Nat × Deferred) => s.logDeferred ref e.2) s
      s.setCrew ref.cluster ref.slot { c with deferred := c.deferred.filter fun e => !gone e.2 }
    else s
  | none => s

/-- The hart ends as a sender. -/
def State.lapseSender (s : State) (h : HartId) : State :=
  match (s.hart h).crew with
  | some ref => s.lapseDeferred ref fun d => d.sender == some h
  | none => s

/-! ## Launches -/

def Launch.total (l : Launch) : Nat := l.gx * l.gy * l.gz * l.stages

/-- HEAD advances past records that have ended or been refused (R230). -/
def WorkQueue.advance (w : WorkQueue) (fuel : Nat) : WorkQueue :=
  match fuel with
  | 0 => w
  | fuel + 1 =>
    if w.done.contains w.head then
      WorkQueue.advance { w with done := w.done.filter (· != w.head), head := (w.head + 1) % 2 ^ 32 } fuel
    else w

/-- A record of a queue has ended or been refused. -/
def State.finishRecord (s : State) (q n : Nat) : State :=
  let w := s.queue q
  let w := { w with done := w.done ++ [n] }
  s.setQueue q (w.advance w.done.length)

/-- Messages still held for a launch when it ends are dropped, each with an entry (R102). -/
def State.dropHeld (s : State) (launch : Nat) : State :=
  let gone := s.heldMsgs.filter fun m => (m.rank.map (·.1)) == some launch
  let s := { s with heldMsgs := s.heldMsgs.filter fun m => (m.rank.map (·.1)) != some launch }
  gone.foldl (fun s _ => s.logError 0 0 10 255 0 0 0 0 0xFFFFFFFF) s

/-- The launch is over: its queue's record is finished and the front end has nothing more of it. -/
def State.closeLaunch (s : State) (n : Nat) : State :=
  match s.launches.find n with
  | some l =>
    if l.ended then s else
    let s := s.setLaunch n { l with ended := true, next := l.total, again := [] }
    let w := s.queue l.queue
    let s := if w.current = some n then s.setQueue l.queue { w with current := none } else s
    (s.dropHeld n).finishRecord l.queue l.record
  | none => s

/-- Crews of the launch that are resident, as references with their records. -/
def State.crewsOf (s : State) (n : Nat) : List (CrewRef × Crew) :=
  s.clusters.flatMap fun c => (c.2.crews.filter fun e => e.2.launch = n).map fun e =>
    ({ cluster := c.1, slot := e.1, gen := e.2.gen }, e.2)

/-- A launch ends with a fatal error (R411): crews killed without readmission, requests and saved crews dropped, HEAD
advanced, one entry of KIND 3. -/
def State.endLaunch (s : State) (n code detail unit cluster : Nat) : State :=
  match s.launches.find n with
  | some l =>
    if l.ended then s else
    let s := (s.crewsOf n).foldl (fun (s : State) (e : CrewRef × Crew) => s.scrapCrew e.1 e.2) s
    let s : State := { s with
      clusters := s.clusters.map fun c => (c.1, { c.2 with adm := c.2.adm.map fun q => (q.1, q.2.filter fun x => x.launch ≠ n) })
      saved := s.saved.filter fun e => e.2.crew.launch ≠ n }
    (s.closeLaunch n).logError code detail 3 unit cluster 0 l.queue (l.record % 65536) 0xFFFFFFFF
  | none => s

/-- A crew killed by MATRIX_KILLED or PREEMPT_DEADLINE (R410): an entry of KIND 2; an IDEM launch admits the crew again,
up to the fourth kill of its position; another launch ends. -/
def State.killCrew (s : State) (r : CrewRef) (code detail : Nat) (addr : Nat) : State :=
  match s.crewOf r with
  | none => s
  | some crew =>
    let s := s.scrapCrew r crew
    match s.launches.find crew.launch with
    | none => s
    | some l =>
      let n := l.kills.getD crew.linear 0 + 1
      let s := s.logError code detail 2 255 r.cluster addr l.queue (l.record % 65536) crew.linear
      if l.idem ∧ n < 4 then
        s.setLaunch crew.launch { l with kills := l.kills.put crew.linear n, again := l.again ++ [crew.linear] }
      else (s.setLaunch crew.launch { l with kills := l.kills.put crew.linear n }).endLaunch crew.launch code detail 255 r.cluster

/-- A fatal trap (R28): one entry of KIND 0, and the launch of the unit ends. -/
def State.fatalTrap (s : State) (h : HartId) (e : Exc) : State :=
  let r := s.hart h
  let detail := if e.code = 0 then e.scause else e.detail
  let s := s.setHart h { r with run := .stopped }
  let s := s.logError e.code detail 0 h.unit h.cluster e.tval.toNat 0 0 (s.crewIx r.crew)
  s.endLaunch r.launch e.code detail h.unit h.cluster

end Sys2Proof.Machine
end

