-- ==== Sys2Proof/Machine/Ops.lean ====
section
/-! DEFINITION. Operations over harts: registers, taking an exception or an interrupt (R27, R28, R394, R403), returning
from one (R28, R398), ending a kick (R321), mailbox deposits (R105), and the frame every scalar instruction runs in. -/

namespace Sys2Proof.Machine

/-! ## Registers -/

/-- Register x`r`; x0 reads 0 (R14). -/
def Hart.rx (h : Hart) (r : Reg) : Dword := if r = 0 then 0 else h.x[r.toNat]!

/-- Register x`r` written; x0 ignores writes (R14). -/
def Hart.wx (h : Hart) (r : Reg) (v : Dword) : Hart := if r = 0 then h else { h with x := h.x.set! r.toNat v }

def Hart.rf (h : Hart) (r : Reg) : Dword := h.f[r.toNat]!

/-- Register f`r` written, with sstatus.FS set to Dirty (R12). -/
def Hart.wf (h : Hart) (r : Reg) (v : Dword) : Hart :=
  { h with f := h.f.set! r.toNat v, sstatus := h.sstatus ||| 0x6000#64 }

/-! ## Fields of sstatus (R12) -/

namespace Sstatus

def sie (v : Dword) : Bool := v.getLsbD 1
def spie (v : Dword) : Bool := v.getLsbD 5
def spp (v : Dword) : Bool := v.getLsbD 8
def fs (v : Dword) : BitVec 2 := v.extractLsb' 13 2
/-- The fields that exist: SIE, SPIE, SPP, FS, SUM, MXR. -/
def mask : Dword := 0xC6122#64
/-- FS written. -/
def setFs (v : Dword) (f : BitVec 2) : Dword := (v &&& ~~~0x6000#64) ||| (f.setWidth 64 <<< 13)

/-- SIE to SPIE, SIE clear, the level to SPP (R27 step 4). -/
def enter (v : Dword) (p : Priv) : Dword :=
  (v &&& ~~~0x122#64) ||| (if sie v then 0x20#64 else 0) ||| (if p = .s then 0x100#64 else 0)

/-- SPIE to SIE, SPIE set, SPP to U, as SRET defines. -/
def leave (v : Dword) : Dword := (v &&& ~~~0x122#64) ||| (if spie v then 0x2#64 else 0) ||| 0x20#64

end Sstatus

/-- dcause (R21). -/
def dcauseOf (code detail : Nat) : Dword := BitVec.ofNat 64 (detail % 65536 * 65536 + code % 65536)

/-! ## Entry into S -/

/-- Where a trap goes (R27 step 6): stvec.BASE, or BASE + 4·cause for an interrupt in vectored mode. -/
def trapTarget (stvec : Dword) (interrupt : Option Nat) : Dword :=
  let base := stvec &&& ~~~3#64
  match interrupt with
  | some c => if stvec.getLsbD 0 then base + BitVec.ofNat 64 (4 * c) else base
  | none => base

/-- The entry of R27: sepc, scause, stval and dcause, SPIE, SIE and SPP, TN, the jump; a reservation is lost (R17). -/
def Hart.enterS (h : Hart) (epc scause stval dcause : Dword) (interrupt : Option Nat) : Hart :=
  { h with
    sepc := epc
    scause := scause
    stval := stval
    dcause := dcause
    sstatus := Sstatus.enter h.sstatus h.priv
    tn := true
    priv := .s
    pc := trapTarget h.stvec interrupt
    resv := none
    run := .running }

/-- The end of a handler that runs on a context (R402): the shadowed registers return. -/
def Hart.endHandler (h : Hart) : Hart :=
  match h.handler with
  | some r =>
    { h with
      x := (List.range 8).foldl (fun x i => x.set! (10 + i) (r.saved.getD i 0)) h.x
      handler := none
      run := match r.wasParked with
        | some p => .parked p
        | none => .running }
  | none => h

/-- A strand takes an exception at `epc` (R27); one that arises while TN is set is fatal (R28). An exception in a handler
ends it, with sepc at the interrupted instruction and HM still set (R403). -/
def State.trapStrand (s : State) (k : Nat) (epc : Dword) (e : Exc) : State :=
  let h := s.hart (.strand k)
  if h.tn then s.fatalTrap (.strand k) e else
  let allowed := e.code = 4 || e.code = 7 || e.code = 8 || e.code = 9 || e.code = 10 || e.code = 15 || e.code = 22
  let e := if h.handler.isSome && !allowed then excDev 15 5 0 else e
  let (epc, s) :=
    if h.handler.isSome then
      let s := s.setHart (.strand k) h.endHandler
      (h.pc, s.leaveQueues (k / 512) (· = .strand k) (fun _ => false))
    else (epc, s)
  s.setHart (.strand k)
    ((s.hart (.strand k)).enterS epc (BitVec.ofNat 64 e.scause) e.tval (dcauseOf e.code e.detail) none)

/-! ## Traps of a wave (R394 to R396) -/

/-- A mailbox deposit arrives; it lands at the end of its clk (R105). -/
def Hart.deposit (h : Hart) (n : Nat) (v : Dword) : Hart := { h with deps := h.deps ++ [(n, v)] }

/-- One deposit lands (R105, R142): the value, with FULL set. -/
def Hart.land (h : Hart) (d : Nat × Dword) : Hart :=
  { h with mb := h.mb.set! d.1 d.2, mbFull := h.mbFull ||| BitVec.ofNat 8 (2 ^ d.1) }

/-- The deposits of a clk land, in order of arrival. -/
def Hart.landAll (h : Hart) : Hart := { h.deps.foldl Hart.land h with deps := [] }

/-- Every earlier access and special-function result of the wave has arrived (R394 steps 2 and 3). -/
def Wave.quiet (w : Wave) : Bool := w.accesses.isEmpty && w.sfx.isEmpty

/-- What R394 needs before a wave enters S: its accesses complete, and no grant that its uniform hart has not yet used. -/
def Wave.canTrap (w : Wave) : Bool := w.quiet && w.hart.granted.isNone

/-- The lane pc of the primary slot's group, or 0 (R395). -/
def Wave.priPc (w : Wave) : Nat := (w.pri.map (·.pc)).getD 0

/-- The wave enters S (R394 step 5) with the trap state of R395: `src` 0 a lane instruction of the group at `lpc`, 1 an
exception of the uniform hart, 2 an interrupt. -/
def Wave.enterTrap (w : Wave) (src : Nat) (grp : Bool) (lpc : Nat) (mask failed : Mask) (epc scause stval : Dword)
    (code detail : Nat) (interrupt : Option Nat) : Wave :=
  let revived := w.uended
  let h0 := if revived then { w.hart with priv := .u, pc := 0 } else w.hart
  { w with
    hart := h0.enterS (if revived then 0 else epc) scause stval (dcauseOf code detail) interrupt
    uended := false
    p := w.p.set! 7 failed
    trap := {
      act := true
      src := src
      grp := grp
      held := w.waitHeld.isSome
      code := BitVec.ofNat 16 code
      detail := BitVec.ofNat 16 detail
      lpc := BitVec.ofNat 32 lpc
      mask := mask
      sp7 := w.p[7]
      lvec := w.trap.lvec
      lfm := w.lfm
      revived := revived
      failed := failed } }

/-- An exception of the uniform hart: a trap of the whole wave (R33, R394). It waits until the wave can trap; one while
TN is set ends the launch (R28, R398). -/
def State.trapUniform (s : State) (k : Nat) (epc : Dword) (e : Exc) : State :=
  let w := s.wave k
  if w.hart.tn then s.fatalTrap (.uniform k) e
  else if !w.quiet then s.setHart (.uniform k) { w.hart with pc := epc, run := .running }
  else s.setWave k (w.enterTrap 1 false w.priPc 0 0 epc (BitVec.ofNat 64 e.scause) e.tval e.code e.detail none)

/-- scause of a cause raised by lanes (R395). -/
def laneScause (code : Nat) : Nat := if code = 7 then 13 else if code = 8 then 15 else if code = 9 then 12 else 24

/-- The uniform hart leaves every wait queue when its parked instruction is abandoned (R91, R394 step 4). -/
def State.abandon (s : State) (h : HartId) : State := s.leaveQueues h.cluster (· = h) (fun _ => false)

/-- A lane instruction of a group traps (R157, R394): `failed` the lanes of p7 (R397), `held` whether its wait had been
granted (R160). It waits until the wave can trap. -/
def State.trapLanes (s : State) (k : Nat) (secondary : Bool) (g : Group) (code detail : Nat) (tval : Dword)
    (failed : Mask) (held : Bool) : State :=
  let w := s.wave k
  let w := { w with waitHeld := if held then some g.pc else w.waitHeld }
  if w.hart.tn then
    s.fatalTrap (.uniform k) { code := code, detail := detail, tval := tval, scause := laneScause code }
  else if !w.canTrap then s.setWave k w
  else
    let s := (s.setWave k w).abandon (.uniform k)
    let w := s.wave k
    s.setWave k (w.enterTrap 0 secondary g.pc g.mask failed w.hart.pc (BitVec.ofNat 64 (laneScause code)) tval code detail none)

/-! ## Engines (R321) -/

/-- The kick of an engine ends (R321): the log entry of an error, the completion word to the kicker's record and, with
MBEN, to its mailbox. -/
def State.endKick (s : State) (k : Nat) (code detail : Nat) (value : Dword) : State :=
  let e := s.engine k
  match e.running with
  | none => s
  | some kick =>
    let v := value &&& 0xFFFFFFFFFFFF#64
    let s := s.lapseSender (.engine k)
    let s := if code = 0 then s else s.logError code detail 1 (72 + k % 7) (k / 7) v.toNat 0 0 (s.crewIx kick.crew)
    let word := v ||| BitVec.ofNat 64 (code % 65536 * 2 ^ 48)
    let s := s.setEngine k { s.engine k with
      running := none
      ops := []
      copy := none
      tiles := none
      hart := (s.engine k).hart.freed }
    let h := s.hart kick.kicker
    let r := h.kicks.getD (k % 7) {}
    let h := { h with kicks := h.kicks.put (k % 7) { r with outstanding := r.outstanding - 1, word := word } }
    let s := s.setHart kick.kicker h
    if kick.word.getLsbD 7 then
      s.setHart kick.kicker ((s.hart kick.kicker).deposit (kick.word.extractLsb' 4 3).toNat word)
    else s

/-- The faulting address of an exception, 0 for a cause without one: the value in stval of an illegal instruction or a break
is none (R321). -/
def Exc.address (e : Exc) : Dword := if e.code ≤ 3 ∨ e.code = 23 then 0 else e.tval

/-- Any exception of an engine hart ends its kick with the cause (R321). -/
def State.trapEngine (s : State) (k : Nat) (e : Exc) : State := s.endKick k e.code e.detail e.address

/-! ## Taking an exception -/

/-- A hart takes an exception of the instruction at `epc`: a strand by R27, a uniform hart as a trap of its wave, an engine
hart by ending its kick. -/
def State.takeExc (s : State) (h : HartId) (epc : Dword) (e : Exc) : State :=
  match h with
  | .strand k => s.trapStrand k epc e
  | .uniform k => s.trapUniform k epc e
  | .engine k => s.trapEngine k e

/-- Pending interrupts of a hart: SSIP, STIP while time has reached dtimecmp (R25), SEIP while the error log is not
consumed and ELCTL names the context (R414). -/
def State.pending (s : State) (h : HartId) : Dword :=
  let r := s.hart h
  let ssip : Dword := if r.ssip then 0x2 else 0
  let stip : Dword := if r.dtimecmp.toNat ≤ s.now % 2 ^ 64 then 0x20 else 0
  let seip : Dword := match h with
    | .strand k => if dstrandOf k = BitVec.ofNat 64 s.elCtx ∧ s.elTail ≠ s.elHead then 0x200 else 0
    | _ => 0
  ssip ||| stip ||| seip

/-- The unit has stopped for a pre-emption (R405). -/
def State.stoppedForSave (s : State) (h : HartId) : Bool :=
  match h with
  | .uniform k => (s.wave k).saved
  | .strand k => (s.strands.getD k {}).run == .parked .safe
  | .engine _ => false

/-- The interrupt a hart would take now: external before software before timer; none while TN is set, in a handler, while
a grant stands (R91), in S with SIE clear, or when the hart runs nothing. A WFI retires first: the interrupt is the event
that ends its park (R12, R91). -/
def State.dueInterrupt (s : State) (h : HartId) : Option Nat :=
  let r := s.hart h
  let on := match r.run with
    | .running => true
    | .parked p => p != .laneHandler && p != .wfi
    | _ => false
  let p := s.pending h &&& r.sie
  if !on || s.stoppedForSave h || r.tn || r.handler.isSome || r.granted.isSome || (r.priv == .s && !Sstatus.sie r.sstatus) then none
  else if p.getLsbD 9 then some 9
  else if p.getLsbD 1 then some 1
  else if p.getLsbD 5 then some 5
  else none

/-- An interrupt is taken (R27, R394): a parked instruction is abandoned, with sepc at it (R91). -/
def State.takeInterrupt (s : State) (h : HartId) (cause : Nat) : State :=
  let scause : Dword := BitVec.ofNat 64 (2 ^ 63 + cause)
  match h with
  | .strand _ =>
    let s := s.abandon h
    let r := s.hart h
    s.setHart h (r.enterS r.pc scause 0 0 (some cause))
  | .uniform k =>
    if !(s.wave k).canTrap then s else
    let s := s.abandon h
    let w := s.wave k
    s.setWave k (w.enterTrap 2 false w.priPc 0 0 w.hart.pc scause 0 0 0 (some cause))
  | .engine _ => s

/-! ## Returning -/

/-- The return of SRET as the standard defines it, with TN and HM cleared (R28, R403). -/
def Hart.leaveS (h : Hart) : Hart :=
  { h with
    pc := h.sepc
    priv := if Sstatus.spp h.sstatus then .s else .u
    sstatus := Sstatus.leave h.sstatus
    tn := false
    hm := false }

/-- SRET with ACT set (R398): p7 and lfm return, the trapping group goes back to dwlpc, a revived hart ends again. -/
def Wave.leaveTrap (w : Wave) : Wave :=
  let t := w.trap
  let back (g : Group) : Group := { g with pc := t.lpc.toNat, granted := false, waiting := false }
  let h := w.hart.leaveS
  { w with
    hart := if t.revived then { h with run := .idle } else h
    uended := t.revived
    p := w.p.set! 7 t.sp7
    lfm := t.lfm
    pri := if t.src = 0 ∧ !t.grp then w.pri.map back else w.pri
    sec := if t.src = 0 ∧ t.grp then w.sec.map back else w.sec
    waitHeld := if t.src = 0 ∧ w.waitHeld ≠ some t.lpc.toNat then none else w.waitHeld
    trap := { t with act := false } }

/-- The return from an exception of a hart in S. -/
def State.returnS (s : State) (h : HartId) : State :=
  match h with
  | .uniform k => if (s.wave k).trap.act then s.setWave k (s.wave k).leaveTrap else s.setHart h (s.hart h).leaveS
  | _ => s.setHart h (s.hart h).leaveS

/-! ## The frame of a scalar instruction -/

/-- The hart that the current step acts for, if it is one. -/
def State.actorHart (s : State) : Option HartId :=
  match s.actor with
  | some (.hart h) => some h
  | _ => none

/-- A handler that has reached byte 32 of its code ends (R402). -/
def Hart.afterInstr (h : Hart) : Hart :=
  match h.handler with
  | some r => if 32 ≤ r.off then { h.endHandler with hm := false } else h
  | none => h

/-- A scalar instruction retires: instret counts it (R12), and the grant it used is gone (R91); one that a handler runs
leaves the grant to the instruction parked below it. -/
def Hart.retired (h : Hart) : Hart :=
  { h.afterInstr with instret := h.instret + 1, granted := if h.handler.isSome then h.granted else none }

/-- The hart with its pc, or the offset of its handler, moved past the instruction. -/
def Hart.pastInstr (h : Hart) : Hart :=
  match h.handler with
  | some r => { h with handler := some { r with off := r.off + 4 } }
  | none => { h with pc := h.pc + 4 }

/-- The hart back at the instruction, whose execution has not happened. -/
def Hart.backAt (h : Hart) (pc : Dword) (old : Option Handler) : Hart :=
  match old with
  | some r => { h with handler := some r }
  | none => { h with pc := pc }

/-- How a scalar instruction ends: the meaning `m` runs with the pc past the instruction; an exception is taken at the
instruction, a park or a stall leaves the hart at it (R90, R91). -/
def scalarEnd (h : HartId) (s0 : State) (r : EStateM.Result Stop State Unit) : State :=
  let old := s0.hart h
  match r with
  | .ok _ t => t.setHart h (t.hart h).retired
  | .error (.exc e) t => (t.setHart h ((t.hart h).backAt old.pc old.handler)).takeExc h old.pc e
  | .error (.park p) t => t.setHart h { (t.hart h).backAt old.pc old.handler with run := .parked p }
  | .error .stall t => t.setHart h ((t.hart h).backAt old.pc old.handler)
  | .error (.lane _ _ _ _) t => t.setHart h ((t.hart h).backAt old.pc old.handler)

/-- A scalar instruction of the hart that acts: its checks in handler mode (R92, R403), then its meaning. -/
def scalar (violation : Hart → Option Nat) (m : HartId → M Unit) (s : State) : Host.Outcome State Fault Refusal :=
  match s.actorHart with
  | none => .fault .wrongActor
  | some h =>
    let r := s.hart h
    match (if r.handler.isSome then violation r else none) with
    | some d => .next (s.takeExc h r.pc (excDev 15 d 0))
    | none => .next (scalarEnd h s (m h (s.setHart h { r.pastInstr with run := .running })))

/-- An event: a step of no unit, which changes nothing when it is not due. -/
def event (f : State → State) (s : State) : Host.Outcome State Fault Refusal := .next (f s)

end Sys2Proof.Machine
end

