-- ==== Sys2Proof/Machine/Fetch.lean ====
section
/-! DEFINITION. Fetching an instruction: of a hart through its page table or from the handler it runs (R10, R33, R402),
of a lane group from the lane section or from the supervisor's lane handler (R144, R397). -/

namespace Sys2Proof.Machine

/-- Code bytes at a virtual address; a poisoned word gives POISON with DETAIL 4 (R413). -/
def fetchBytes (acc : Acc) (va : Dword) (n : Nat) : M (List Byte) := do
  let gs ← resolve acc va n .fetch
  match ← attempt (readSegs acc (va.toNat % 2 ^ 48) true gs) with
  | .ok bs => pure bs
  | .error e => fail (if e.code = 22 then { e with detail := 4 } else e)

/-- The next instruction word of a hart. A pc that is not 4-byte aligned, which a continuation's CODE can hold, raises the
exception that a jump to it would (log 31). -/
def fetchScalar (h : HartId) : M Word := do
  let s ← get
  let r := s.hart h
  match r.handler with
  | some a => pure (BitVec.ofNat 32 (natOfBytes ((a.code.drop a.off).take 4)))
  | none =>
    if r.pc.toNat % 4 ≠ 0 then fail { code := 4, detail := 0, tval := r.pc, scause := 0 }
    let bs ← fetchBytes (s.accOf h) r.pc 4
    pure (BitVec.ofNat 32 (natOfBytes bs))

/-- A hart can be given an issue turn: it runs, or it tries again the instruction it parked at. -/
def State.canRun (s : State) (h : HartId) : Bool :=
  !s.stoppedForSave h &&
    match (s.hart h).run with
    | .running => true
    | .parked p => p != .laneHandler
    | _ => false

/-! ## Lane groups -/

/-- The group that issues from a slot: while a lane handler runs, its one group issues as the primary (R397). -/
def Wave.group (w : Wave) (secondary : Bool) : Option Group :=
  match w.lhandler with
  | some h => if secondary then none else some h.group
  | none => if secondary then w.sec else w.pri

/-- The accessor of a wave's lanes: U level, or S with SUM in the lane handler (R267, R397). -/
def State.laneAcc (s : State) (k : Nat) : Acc :=
  let a := s.accOf (.uniform k)
  let w := s.wave k
  if w.lhandler.isSome then { a with priv := .s, sum := true, mxr := false, hart := none, bound := true }
  else { a with priv := .u, sum := false, mxr := false, hart := none, bound := true }

/-- The wave's lanes may issue: it lives, is not trapped but for a lane handler, and is not saved (R394, R405). A park of its
uniform hart holds back the uniform stream alone (R91 as the programs of R226 and R362 need it, log 101). -/
def Wave.lanesIssue (w : Wave) : Bool :=
  w.live && !w.saved &&
    (w.lhandler.isSome ||
      (!w.trap.act &&
        match w.hart.run with
        | .stopped => false
        | _ => true))

/-- The address of a group's next instruction. -/
def Wave.codeAddr (w : Wave) (g : Group) : Dword :=
  match w.lhandler with
  | some h => BitVec.ofNat 64 ((h.base + g.pc) % 2 ^ 48)
  | none => BitVec.ofNat 64 (w.code.va + g.pc)

/-- The next 96-bit word of a lane group. A fetch outside the lane section raises the page fault of its address, or
ACCESS_FAULT (R144). -/
def fetchLane (k : Nat) (g : Group) : M (BitVec 96) := do
  let s ← get
  let w := s.wave k
  let acc := s.laneAcc k
  let va := w.codeAddr g
  if w.lhandler.isNone && decide (w.code.size < g.pc + 12) then do
    let _ ← resolve acc va 12 .fetch
    fail (accessFault acc .fetch 0 va.toNat)
  let bs ← fetchBytes acc va 12
  pure (BitVec.ofNat 96 (natOfBytes bs))

/-! ## Passing of time -/

/-- `n` clk pass: the clk and time counts advance (R12, R434, R435), mailbox deposits of the clk land (R105), and quantum
updates whose 4,096 clk end are performed (R304). -/
def State.tick (s : State) (n : Nat) : State :=
  let s := s.performAll fun q => decide (q.deadline < s.clk + n)
  { s with
    clk := s.clk + n
    time := s.time + n * (16 * (720720 / (16 - s.govStep)))
    strands := s.strands.map fun e => if e.2.deps.isEmpty then e else (e.1, e.2.landAll) }

/-! ## Placing an instruction -/

/-- Page tables that map virtual page 1 to physical page 5 in the levels at pages 1 to 4; `user` sets U in the leaf. -/
def State.placePage (s : State) (user : Bool) : State :=
  let ptr (p : Nat) : List Byte := leBytes 8 (p * 2 ^ 14 + 1)
  let leaf : List Byte := leBytes 8 (5 * 2 ^ 14 + 0xCF + (if user then 16 else 0))
  (((s.poke 0x1000 (ptr 2)).poke 0x2000 (ptr 3)).poke 0x3000 (ptr 4)).poke 0x4008 leaf

/-- Strand 0 at S level about to run the 4 bytes `bs`. -/
def State.placeScalar (s : State) (bs : List Byte) : State :=
  let s := (s.placePage false).poke 0x5000 bs
  let s := s.setHart (.strand 0) { s.hart (.strand 0) with pc := 0x1000, priv := .s, dptb := 1, run := .running }
  { s with sched := [.strand 0] }

/-- Wave 0 with all its lanes in one group about to run the 12 bytes `bs`. -/
def State.placeLane (s : State) (bs : List Byte) : State :=
  let s := (s.placePage true).poke 0x5000 bs
  let w := s.wave 0
  let w := { w with
    live := true
    hart := { w.hart with dptb := 1, run := .idle }
    uended := true
    lanes := BitVec.allOnes 64
    pri := some { mask := BitVec.allOnes 64, pc := 0 }
    code := { va := 0x1000, pa := 0x5000, size := 12 } }
  { s.setWave 0 w with sched := [.lanes 0 false] }

end Sys2Proof.Machine
end

