-- ==== Sys2Proof/Machine/Rv.lean ====
section
/-! DEFINITION. The standard RV64IMAFD, Zba and Zbb instructions of a hart in the published semantics (R10 to R17, R29,
R33): integer results, branches and jumps, floating point, loads, stores, LR, SC and AMO. -/

namespace Sys2Proof.Machine

/-! ## Integer results -/

/-- A 32-bit result sign-extended. -/
def sext32 (v : Dword) : Dword := (v.setWidth 32).signExtend 64

def zext32 (v : Dword) : Dword := (v.setWidth 32).setWidth 64

/-- High half of the product of two integers. -/
def mulHigh (a b : Int) : Dword := BitVec.ofInt 64 (a * b / 2 ^ 64)

def divS (w : Nat) (a b : BitVec w) : BitVec w :=
  if b = 0 then BitVec.allOnes w else BitVec.ofInt w (Int.tdiv a.toInt b.toInt)
def remS (w : Nat) (a b : BitVec w) : BitVec w :=
  if b = 0 then a else BitVec.ofInt w (Int.tmod a.toInt b.toInt)
def divU (w : Nat) (a b : BitVec w) : BitVec w := if b = 0 then BitVec.allOnes w else a / b
def remU (w : Nat) (a b : BitVec w) : BitVec w := if b = 0 then a else a % b

/-- R-format results of I, M, Zba and Zbb. -/
def aluVal (o : AluOp) (a b : Dword) : Dword :=
  let sh := b.toNat % 64
  match o with
  | .add => a + b
  | .sub => a - b
  | .sll => a <<< sh
  | .slt => if a.slt b then 1 else 0
  | .sltu => if a < b then 1 else 0
  | .xor => a ^^^ b
  | .srl => a >>> sh
  | .sra => a.sshiftRight sh
  | .or => a ||| b
  | .and => a &&& b
  | .mul => a * b
  | .mulh => mulHigh a.toInt b.toInt
  | .mulhsu => mulHigh a.toInt b.toNat
  | .mulhu => mulHigh a.toNat b.toNat
  | .div => divS 64 a b
  | .divu => divU 64 a b
  | .rem => remS 64 a b
  | .remu => remU 64 a b
  | .sh1add => b + a <<< 1
  | .sh2add => b + a <<< 2
  | .sh3add => b + a <<< 3
  | .andn => a &&& ~~~b
  | .orn => a ||| ~~~b
  | .xnor => ~~~(a ^^^ b)
  | .max => if a.slt b then b else a
  | .maxu => if a < b then b else a
  | .min => if a.slt b then a else b
  | .minu => if a < b then a else b
  | .rol => a.rotateLeft sh
  | .ror => a.rotateRight sh

/-- R-format results of the 32-bit opcode. -/
def aluWVal (o : AluWOp) (a b : Dword) : Dword :=
  let x : Word := a.setWidth 32
  let y : Word := b.setWidth 32
  let sh := b.toNat % 32
  match o with
  | .addw => (x + y).signExtend 64
  | .subw => (x - y).signExtend 64
  | .sllw => (x <<< sh).signExtend 64
  | .srlw => (x >>> sh).signExtend 64
  | .sraw => (x.sshiftRight sh).signExtend 64
  | .mulw => (x * y).signExtend 64
  | .divw => (divS 32 x y).signExtend 64
  | .divuw => (divU 32 x y).signExtend 64
  | .remw => (remS 32 x y).signExtend 64
  | .remuw => (remU 32 x y).signExtend 64
  | .addUw => zext32 a + b
  | .sh1addUw => b + zext32 a <<< 1
  | .sh2addUw => b + zext32 a <<< 2
  | .sh3addUw => b + zext32 a <<< 3
  | .rolw => (x.rotateLeft sh).signExtend 64
  | .rorw => (x.rotateRight sh).signExtend 64

/-- The number of leading zeros of the low `w` bits. -/
def leadZeros (w v : Nat) : Nat := if v = 0 then w else w - 1 - log2 v

/-- The number of trailing zeros among bits `i` to `i + n - 1`. -/
def trailZeros (n i v : Nat) : Nat :=
  match n with
  | 0 => i
  | n + 1 => if v.testBit i then i else trailZeros n (i + 1) v

/-- The number of ones among the low `n` bits. -/
def popCount (n v : Nat) : Nat := ((List.range n).filter v.testBit).length

/-- One byte all ones when it is not zero (orc.b). -/
def orcByte (b : Byte) : Byte := if b = 0 then 0 else 0xFF

def unVal (o : UnOp) (a : Dword) : Dword :=
  match o with
  | .clz => BitVec.ofNat 64 (leadZeros 64 a.toNat)
  | .ctz => BitVec.ofNat 64 (trailZeros 64 0 a.toNat)
  | .cpop => BitVec.ofNat 64 (popCount 64 a.toNat)
  | .sextB => (a.setWidth 8).signExtend 64
  | .sextH => (a.setWidth 16).signExtend 64
  | .zextH => (a.setWidth 16).setWidth 64
  | .rev8 => BitVec.ofNat 64 (natOfBytes (leBytes 8 a.toNat).reverse)
  | .orcB => BitVec.ofNat 64 (natOfBytes ((leBytes 8 a.toNat).map orcByte))
  | .clzw => BitVec.ofNat 64 (leadZeros 32 (a.toNat % 2 ^ 32))
  | .ctzw => BitVec.ofNat 64 (trailZeros 32 0 a.toNat)
  | .cpopw => BitVec.ofNat 64 (popCount 32 a.toNat)

def immVal (o : ImmOp) (a b : Dword) : Dword :=
  match o with
  | .addi => a + b
  | .slti => if a.slt b then 1 else 0
  | .sltiu => if a < b then 1 else 0
  | .xori => a ^^^ b
  | .ori => a ||| b
  | .andi => a &&& b

def shVal (o : ShOp) (a : Dword) (sh : Nat) : Dword :=
  match o with
  | .slli => a <<< sh
  | .srli => a >>> sh
  | .srai => a.sshiftRight sh
  | .rori => a.rotateRight sh
  | .slliUw => zext32 a <<< sh

def shWVal (o : ShWOp) (a : Dword) (sh : Nat) : Dword :=
  let x : Word := a.setWidth 32
  match o with
  | .slliw => (x <<< sh).signExtend 64
  | .srliw => (x >>> sh).signExtend 64
  | .sraiw => (x.sshiftRight sh).signExtend 64
  | .roriw => (x.rotateRight sh).signExtend 64

def taken (c : BrCond) (a b : Dword) : Bool :=
  match c with
  | .eq => a = b
  | .ne => a ≠ b
  | .lt => a.slt b
  | .ge => !a.slt b
  | .ltu => a < b
  | .geu => !(a < b)

/-- Offset of a branch: its bits [12:1], sign-extended. -/
def brOff (off : BitVec 12) : Dword := (off ++ 0#1).signExtend 64
def jalOff (off : BitVec 20) : Dword := (off ++ 0#1).signExtend 64
def immU (imm : BitVec 20) : Dword := (imm ++ 0#12).signExtend 64

/-! ## Kinds of hart -/

def HartKind.isStrand (h : HartId) : Bool := match h with
  | .strand _ => true
  | _ => false
def HartKind.isUniform (h : HartId) : Bool := match h with
  | .uniform _ => true
  | _ => false
def HartKind.isEngine (h : HartId) : Bool := match h with
  | .engine _ => true
  | _ => false

/-- ILLEGAL_OPCODE with the instruction word (R10, R21). -/
def illegalM {α : Type} (w : Word) : M α := fail (excIllegal 1 w)

/-! ## Jumps (R29) -/

/-- The address of the executing instruction: in a handler it has none, and the value is free (log 30). -/
def instrPc (h : HartId) : M Dword := do
  let r ← getHart h
  if r.handler.isSome then freeDwordM else pure (r.pc - 4)

/-- A transfer to `off` beyond the instruction, in a handler by its offset; a target that is not 4-byte aligned raises
scause 0 with the target (R29). -/
def jumpBy (h : HartId) (off : Dword) : M Unit := do
  let r ← getHart h
  match r.handler with
  | some a =>
    if off.toNat % 4 ≠ 0 then fail { code := 4, detail := 0, tval := off, scause := 0 }
    else setHart h { r with handler := some { a with off := (a.off - 4 + off.toNat) } }
  | none =>
    let t := r.pc - 4 + off
    if t.toNat % 4 ≠ 0 then fail { code := 4, detail := 0, tval := t, scause := 0 }
    else setHart h { r with pc := t }

/-- A transfer to an address (JALR). -/
def jumpTo (h : HartId) (t : Dword) : M Unit := do
  let r ← getHart h
  if t.toNat % 4 ≠ 0 then fail { code := 4, detail := 0, tval := t, scause := 0 }
  else setHart h { r with pc := t }

def setReg (h : HartId) (rd : Reg) (v : Dword) : M Unit := modHart h fun r => r.wx rd v

/-! ## Floating point (R12, R13) -/

/-- A strand with FS on, or illegal (R13, R33, R319). -/
def fpOn (h : HartId) (w : Word) : M Unit := do
  let r ← getHart h
  if !HartKind.isStrand h || Sstatus.fs r.sstatus == 0 then illegalM w

/-- The rounding of an instruction's rm field (R13). -/
def fpRound (h : HartId) (rm : BitVec 3) (w : Word) : M Rnd := do
  fpOn h w
  let r ← getHart h
  let m := if rm = 7 then (r.fcsr.toNat / 32) else rm.toNat
  if 5 ≤ m then illegalM w else pure { mode := m }

def fmtOf (dbl : Bool) : FFmt := if dbl then .f64 else .f32

/-- The bits of a source: a single that is not NaN-boxed reads as the canonical NaN. -/
def fbits (dbl : Bool) (v : Dword) : Nat :=
  if dbl then v.toNat else if v.toNat / 2 ^ 32 = 2 ^ 32 - 1 then v.toNat % 2 ^ 32 else FFmt.f32.nan

def fsrc (h : Hart) (dbl : Bool) (r : Reg) : FVal := unpack (fmtOf dbl) (fbits dbl (h.rf r))

def box (dbl : Bool) (b : Nat) : Dword := BitVec.ofNat 64 (if dbl then b else 0xFFFFFFFF00000000 + b)

/-- Flags accumulate in fcsr; new ones make FS Dirty. -/
def Hart.raise (h : Hart) (flags : Nat) : Hart :=
  let f := h.fcsr ||| BitVec.ofNat 8 flags
  if f = h.fcsr then h else { h with fcsr := f, sstatus := h.sstatus ||| 0x6000#64 }

def fput (h : HartId) (dbl : Bool) (rd : Reg) (r : FRes) : M Unit :=
  modHart h fun x => (x.wf rd (box dbl r.bits)).raise r.flags

def xput (h : HartId) (rd : Reg) (v : Dword) (flags : Nat) : M Unit := modHart h fun x => (x.wx rd v).raise flags

/-- Minimum or maximum of the standard: a NaN gives way to a number, −0 is below +0. -/
def fminmaxRes (f : FFmt) (max : Bool) (a b : Nat) : FRes :=
  let va := unpack f a
  let vb := unpack f b
  let nv := if va.isSig || vb.isSig then Flag.nv else 0
  let pick : Nat :=
    if va.isNan && vb.isNan then f.nan
    else if va.isNan then b
    else if vb.isNan then a
    else
      let less := match fcompare va vb with
        | some .lt => true
        | some .gt => false
        | _ => va.neg
      if less != max then a else b
  { bits := pick, flags := nv }

def fcmpRes (o : FcmpOp) (a b : FVal) : Bool × Nat :=
  let c := fcompare a b
  match o with
  | .eq => (c = some .eq, if a.isSig || b.isSig then Flag.nv else 0)
  | .lt => (c = some .lt, if c.isNone then Flag.nv else 0)
  | .le => (c = some .lt || c = some .eq, if c.isNone then Flag.nv else 0)

def intFmtOf (t : IntFmt) : Bool × Nat :=
  match t with
  | .w => (true, 32)
  | .wu => (false, 32)
  | .l => (true, 64)
  | .lu => (false, 64)

/-- The integer that a conversion from integer reads. -/
def intSrc (t : IntFmt) (v : Dword) : Int :=
  match t with
  | .w => (v.setWidth 32).toInt
  | .wu => ((v.setWidth 32).toNat : Int)
  | .l => v.toInt
  | .lu => (v.toNat : Int)

/-- Sign injection on raw bits. -/
def sgnBits (o : FsgnOp) (f : FFmt) (a b : Nat) : Nat :=
  let m := a % f.signBit
  let sa := a / f.signBit
  let sb := b / f.signBit
  match o with
  | .j => m + sb * f.signBit
  | .jn => m + (1 - sb) * f.signBit
  | .jx => m + (if sa = sb then 0 else f.signBit)

/-- The standard computational, floating-point, branch and jump instructions; `w` is the instruction word and `csr` the
meaning of the CSR forms. -/
def rvOp (csr : CsrOp → Bool → Reg → Reg → BitVec 12 → Word → M Unit) (ill : Word → M Unit) (h : HartId) (op : RvOp)
    (w : Word) : M Unit := do
  let r ← getHart h
  match op with
  | .lui rd imm => setReg h rd (immU imm)
  | .auipc rd imm => do setReg h rd ((← instrPc h) + immU imm)
  | .jal rd off => do
    let pc ← instrPc h
    jumpBy h (jalOff off)
    setReg h rd (pc + 4)
  | .jalr rd rs1 imm => do
    let pc ← instrPc h
    jumpTo h ((r.rx rs1 + imm.signExtend 64) &&& ~~~1#64)
    setReg h rd (pc + 4)
  | .branch c rs1 rs2 off => if taken c (r.rx rs1) (r.rx rs2) then jumpBy h (brOff off) else pure ()
  | .opImm o rd rs1 imm => setReg h rd (immVal o (r.rx rs1) (imm.signExtend 64))
  | .shImm o rd rs1 sh => setReg h rd (shVal o (r.rx rs1) sh.toNat)
  | .addiw rd rs1 imm => setReg h rd (sext32 (r.rx rs1 + imm.signExtend 64))
  | .shImmW o rd rs1 sh => setReg h rd (shWVal o (r.rx rs1) sh.toNat)
  | .op o rd rs1 rs2 => setReg h rd (aluVal o (r.rx rs1) (r.rx rs2))
  | .opW o rd rs1 rs2 => setReg h rd (aluWVal o (r.rx rs1) (r.rx rs2))
  | .un o rd rs1 => setReg h rd (unVal o (r.rx rs1))
  | .csr o imm rd src addr => csr o imm rd src addr w
  | .fma o dbl rd rs1 rs2 rs3 rm => do
    let rnd ← fpRound h rm w
    let a := fsrc r dbl rs1
    let b := fsrc r dbl rs2
    let c := fsrc r dbl rs3
    fput h dbl rd (match o with
      | .madd => ffma (fmtOf dbl) rnd false a b c
      | .msub => ffma (fmtOf dbl) rnd false a b c.negate
      | .nmsub => ffma (fmtOf dbl) rnd false a.negate b c
      | .nmadd => ffma (fmtOf dbl) rnd false a.negate b c.negate)
  | .fop o dbl rd rs1 rs2 rm => do
    let rnd ← fpRound h rm w
    let a := fsrc r dbl rs1
    let b := fsrc r dbl rs2
    fput h dbl rd (match o with
      | .add => fadd (fmtOf dbl) rnd false a b
      | .sub => fsub (fmtOf dbl) rnd false a b
      | .mul => fmul (fmtOf dbl) rnd false a b
      | .div => fdiv (fmtOf dbl) rnd false a b)
  | .fsqrt dbl rd rs1 rm => do
    let rnd ← fpRound h rm w
    fput h dbl rd (fsqrt (fmtOf dbl) rnd false (fsrc r dbl rs1))
  | .fsgn o dbl rd rs1 rs2 => do
    fpOn h w
    fput h dbl rd { bits := sgnBits o (fmtOf dbl) (fbits dbl (r.rf rs1)) (fbits dbl (r.rf rs2)) }
  | .fminmax mx dbl rd rs1 rs2 => do
    fpOn h w
    fput h dbl rd (fminmaxRes (fmtOf dbl) mx (fbits dbl (r.rf rs1)) (fbits dbl (r.rf rs2)))
  | .fcmp o dbl rd rs1 rs2 => do
    fpOn h w
    let (b, fl) := fcmpRes o (fsrc r dbl rs1) (fsrc r dbl rs2)
    xput h rd (if b then 1 else 0) fl
  | .fclass dbl rd rs1 => do
    fpOn h w
    setReg h rd (BitVec.ofNat 64 (fclassOf (fmtOf dbl) (fbits dbl (r.rf rs1))))
  | .fcvtInt t dbl rd rs1 rm => do
    let rnd ← fpRound h rm w
    let (sg, wd) := intFmtOf t
    let x := toIntStd rnd sg wd (fsrc r dbl rs1)
    xput h rd (if wd = 32 then sext32 (BitVec.ofNat 64 x.bits) else BitVec.ofNat 64 x.bits) x.flags
  | .fcvtFrom t dbl rd rs1 rm => do
    let rnd ← fpRound h rm w
    fput h dbl rd (roundVal (fmtOf dbl) rnd false (intVal (intSrc t (r.rx rs1))))
  | .fcvtFmt toDbl rd rs1 rm => do
    let rnd ← fpRound h rm w
    fput h toDbl rd (roundVal (fmtOf toDbl) rnd false (fsrc r (!toDbl) rs1))
  | .fmvToX dbl rd rs1 => do
    fpOn h w
    setReg h rd (if dbl then r.rf rs1 else sext32 (r.rf rs1))
  | .fmvFromX dbl rd rs1 => do
    fpOn h w
    modHart h fun x => x.wf rd (if dbl then r.rx rs1 else box false ((r.rx rs1).toNat % 2 ^ 32))
  | .illegal _ => ill w

/-! ## Loads and stores (R15) -/

/-- A misaligned access that crosses a line: `sc` 4 for a load, 6 for a store or an atomic. -/
def misaligned (sc : Nat) (va : Dword) : Exc := { code := 4, detail := 0, tval := va, scause := sc }

def stdAcc (h : HartId) : M Acc := do return { (← get).accOf h with std := true }

/-- A load of `n` bytes at an address by the standard rules. -/
def loadStd (h : HartId) (va : Dword) (n : Nat) : M Nat := do
  if 256 < va.toNat % 256 + n then fail (misaligned 4 va)
  let bs ← vread (← stdAcc h) va n
  pure (natOfBytes bs)

def storeStd (h : HartId) (va : Dword) (n v : Nat) : M Unit := do
  if 256 < va.toNat % 256 + n then fail (misaligned 6 va)
  vwrite (← stdAcc h) va (leBytes n v)

def loadExt (width : LoadWidth) (v : Nat) : Dword :=
  match width with
  | .b => (BitVec.ofNat 8 v).signExtend 64
  | .h => (BitVec.ofNat 16 v).signExtend 64
  | .w => (BitVec.ofNat 32 v).signExtend 64
  | .d | .bu | .hu | .wu => BitVec.ofNat 64 v

def loadBytes (width : LoadWidth) : Nat :=
  match width with
  | .b | .bu => 1
  | .h | .hu => 2
  | .w | .wu => 4
  | .d => 8

def storeBytes (width : StoreWidth) : Nat :=
  match width with
  | .b => 1
  | .h => 2
  | .w => 4
  | .d => 8

def loadStore (h : HartId) (o : LsOp) (w : Word) : M Unit := do
  let r ← getHart h
  match o with
  | .load width rd rs1 imm => do
    let v ← loadStd h (r.rx rs1 + imm.signExtend 64) (loadBytes width)
    setReg h rd (loadExt width v)
  | .store width rs1 rs2 imm => storeStd h (r.rx rs1 + imm.signExtend 64) (storeBytes width) (r.rx rs2).toNat
  | .fload dbl rd rs1 imm => do
    fpOn h w
    let v ← loadStd h (r.rx rs1 + imm.signExtend 64) (if dbl then 8 else 4)
    modHart h fun x => x.wf rd (box dbl v)
  | .fstore dbl rs1 rs2 imm => do
    fpOn h w
    storeStd h (r.rx rs1 + imm.signExtend 64) (if dbl then 8 else 4) (r.rf rs2).toNat

/-! ## LR, SC, AMO (R16, R17) -/

def amoWidth (d : Bool) : Nat := if d then 8 else 4

/-- The result of a 32-bit or 64-bit atomic in a register. -/
def amoResult (d : Bool) (v : Nat) : Dword := if d then BitVec.ofNat 64 v else sext32 (BitVec.ofNat 64 v)

/-- The location of an aligned word; an atomic that reaches device registers is not performed (R227). -/
def atomicLoc (acc : Acc) (va : Dword) (n : Nat) (k : AccessKind) : M Loc := do
  if va.toNat % n ≠ 0 then fail (misaligned 6 va)
  match ← resolve acc va n k with
  | [g] => match g.loc with
    | .device _ => fail (accessFault acc k 11 (va.toNat % 2 ^ 48))
    | l => pure l
  | g :: _ => pure g.loc
  | [] => pure (.key 0)

/-- The reservation on a location (R17): the granule of a line, or the 256 bytes of on-chip storage. -/
def resvOf (s : State) (l : Loc) : Reservation :=
  match l with
  | .mem pa u => { granule := s.granuleOf (pa / 256), line := pa / 256, untracked := u }
  | .key k => { granule := k / 256, line := k / 256, untracked := false }
  | .device pa => { granule := pa / 256, line := pa / 256, untracked := false }
  | .ctx k off => { granule := 2 ^ 71 + k * 64 + off, line := 2 ^ 71 + k * 64 + off, untracked := false }
  | .shape c sl off => { granule := 2 ^ 72 + (c * 8 + sl) * 8 + off / 256, line := 2 ^ 72 + (c * 8 + sl) * 8 + off / 256, untracked := false }

def loadReserved (h : HartId) (d : Bool) (rd rs1 : Reg) : M Unit := do
  let r ← getHart h
  let acc ← stdAcc h
  let va := r.rx rs1
  let n := amoWidth d
  let l ← atomicLoc acc va n .load
  let v ← vread acc va n
  let s ← get
  modHart h fun x => { x.wx rd (amoResult d (natOfBytes v)) with resv := some (resvOf s l) }

/-- SC: the store happens while the reservation stands and covers the address; rd gets 0, or 1 when it fails. -/
def storeConditional (h : HartId) (d : Bool) (rd rs1 rs2 : Reg) : M Unit := do
  let r ← getHart h
  let acc ← stdAcc h
  let va := r.rx rs1
  let n := amoWidth d
  let l ← atomicLoc acc va n .store
  let holds := ((← getHart h).resv.map (·.granule)) == some (resvOf (← get) l).granule
  if holds then vwrite acc va (leBytes n (r.rx rs2).toNat)
  modHart h fun x => { x.wx rd (if holds then 0 else 1) with resv := none }

/-- The new value of a standard AMO on `n` bits. -/
def amoNew (o : AmoOp) (n old d : Nat) : Nat :=
  let a : BitVec n := BitVec.ofNat n old
  let b : BitVec n := BitVec.ofNat n d
  (match o with
    | .swap => b
    | .add => a + b
    | .xor => a ^^^ b
    | .and => a &&& b
    | .or => a ||| b
    | .min => if a.slt b then a else b
    | .max => if a.slt b then b else a
    | .minu => if a < b then a else b
    | .maxu => if a < b then b else a).toNat

def amoStd (h : HartId) (o : AmoOp) (d : Bool) (rd rs1 rs2 : Reg) : M Unit := do
  let r ← getHart h
  let acc ← stdAcc h
  let va := r.rx rs1
  let n := amoWidth d
  if va.toNat % n ≠ 0 then fail (misaligned 6 va)
  let old ← vrmw acc va n fun v => some (amoNew o (8 * n) v (r.rx rs2).toNat)
  setReg h rd (amoResult d old)

end Sys2Proof.Machine
end

