-- ==== Sys2Proof/Machine/Units.lean ====
section
/-! DEFINITION. Operations that instructions of harts and of lanes share: semaphores (R94, R95, R241, R400), futures
(R97, R131), send queues (R103, R218, R417), migration blocks (R138), releases (R304), the end of a wave (R100). -/

namespace Sys2Proof.Machine

/-- The state that a meaning leaves when it stops or completes; for events, which nothing re-runs. -/
def runM (m : M Unit) (s : State) : State :=
  match m s with
  | .ok _ t => t
  | .error _ t => t

/-! ## Groups of a wave -/

/-- The function applied to every group of the wave. -/
def Wave.mapGroups (f : Group → Group) (w : Wave) : Wave :=
  { w with pri := w.pri.map f, sec := w.sec.map f, frags := w.frags.map f }

/-- The function applied to the group that holds a lane. -/
def Wave.onGroup (w : Wave) (lane : Nat) (f : Group → Group) : Wave :=
  w.mapGroups fun g => if Mask.has g.mask lane then f g else g

/-- The lowest lane of a mask. -/
def lowLane (m : Mask) : Nat := ((List.range 64).find? m.has).getD 0

/-! ## Semaphores -/

/-- The semaphore with this physical index in a cluster (R241); one that nothing has touched holds 0. -/
def State.sem (s : State) (c i : Nat) : Sem := (s.cluster c).sems.getD i {}
def State.setSem (s : State) (c i : Nat) (v : Sem) : State :=
  s.setCluster c { s.cluster c with
    sems := if v.count = 0 ∧ v.waiters = [] then (s.cluster c).sems.del i else (s.cluster c).sems.put i v }

/-- A wait is granted: the count as it stood goes to the hart that parks; a lane group may issue (R94, R158). -/
def State.grant (s : State) (w : Waiter) (old : Nat) : State :=
  match w with
  | .hart h _ => s.setHart h { s.hart h with granted := some (.value (BitVec.ofNat 64 old)) }
  | .lane k l _ => s.setWave k ((s.wave k).onGroup l fun g => { g with granted := true, waiting := false })

def Waiter.amount (w : Waiter) : Nat := match w with
  | .hart _ a => a
  | .lane _ _ a => a

/-- SEMAPHORE_GRANT (R95): pending waits are granted in order of arrival while the count suffices. -/
def State.grantSem (s : State) (c i fuel : Nat) : State :=
  match fuel with
  | 0 => s
  | fuel + 1 =>
    let x := s.sem c i
    match x.waiters with
    | [] => s
    | w :: rest =>
      if w.amount ≤ x.count then
        ((s.setSem c i { count := x.count - w.amount, waiters := rest }).grant w x.count).grantSem c i fuel
      else s

/-- Signals of one clk land together (R95): none when the sum would pass 65,535. -/
def State.signalSem (s : State) (c i a : Nat) : Option State :=
  let x := s.sem c i
  if 65535 < x.count + a then none
  else some ((s.setSem c i { x with count := x.count + a }).grantSem c i (x.waiters.length + 1))

/-- The physical index of semaphore `n` of a crew's window (R241). -/
def Crew.semIndex (c : Crew) (n : Nat) : Nat := c.window * 256 + n % 256

/-- The crew whose window a hart's semaphore instructions act on: RESERVED_FIELD with DETAIL 2 without one (R127). -/
def crewM (h : HartId) : M (CrewRef × Crew) := do
  let s ← get
  let r := s.hart h
  match r.crew with
  | some ref =>
    match s.crewOf ref with
    | some c => if r.bound then pure (ref, c) else fail (excReserved 2)
    | none => fail (excReserved 2)
  | none => fail (excReserved 2)

/-- The scause with which a device cause reaches a hart from a custom instruction (R393). -/
def devScause (code : Nat) : Nat := if code = 7 then 13 else if code = 8 then 15 else if code = 9 then 12 else 24

/-- The deferred fault of a semaphore, when this unit sent the operation (R400): its wait raises it and clears it. -/
def takeDeferred (ref : CrewRef) (n : Nat) (mine : Deferred → Bool) : M Unit := do
  let s ← get
  match s.crewOf ref with
  | some c =>
    match c.deferred.find n with
    | some d =>
      if mine d then do
        modify fun s => s.setCrew ref.cluster ref.slot { c with deferred := c.deferred.del n }
        fail { code := d.code, detail := d.detail, tval := d.addr, scause := devScause d.code }
      else pure ()
    | none => pure ()
  | none => pure ()

/-! ## Futures -/

/-- Key of the entry that a handle names (R97). -/
def futKey (handle : Nat) : Nat := bits handle 30 2 * 2 ^ 22 + bits handle 0 22

/-- The entry of a live handle: FUTURE_STALE with DETAIL 0 otherwise. -/
def futEntry (handle : Nat) : M Future := do
  let e := (← get).futures.getD (futKey handle) {}
  if bits handle 0 22 = 0 || !e.allocated || e.gen != bits handle 22 8 then fail (excDev 19 0 0) else pure e

def State.setFuture (s : State) (k : Nat) (e : Future) : State := { s with futures := s.futures.put k e }

/-- One waiter of a future wakes (R131, R216): a hart takes the value or POISON; a continuation gets VALUE and STATUS in
its block and is enqueued. -/
def wakeFut (acc : Acc) (w : FutWaiter) (v : Dword) (poisoned : Bool) : M Unit :=
  match w with
  | .hart h => modHart h fun r => { r with granted := some (if poisoned then .poison else .value v) }
  | .cont c pa launch crew cluster dcrew dptb gfx => do
    modify fun s => (s.tokenHome (pa / 256)).poke (pa + 0x20) (leBytes 8 v.toNat ++ leBytes 8 (if poisoned then 3 else 2))
    enqueue acc { cluster := cluster, crew := crew, launch := launch, dcrew := dcrew, dptb := dptb, gfx := gfx } c 64

def wakeAll (acc : Acc) (v : Dword) (poisoned : Bool) (ws : List FutWaiter) : M Unit :=
  match ws with
  | [] => pure ()
  | w :: t => do
    wakeFut acc w v poisoned
    wakeAll acc v poisoned t

/-! ## Send queues -/

/-- The send queue of a hart: its core's, or its wave engine's (R103). An engine hart's stq uses the number of its own
instance beyond both (log 32). -/
def sendQueueOf (h : HartId) : Nat :=
  match h with
  | .strand k => k / 8
  | .uniform k => 8192 + k / 16
  | .engine k => 16384 + k

def State.sendq (s : State) (q : Nat) : Map SendEntry :=
  if q < 8192 then (s.core q).sendq else if q < 16384 then (s.wengine (q - 8192)).sendq else (s.engine (q - 16384)).sendq

def State.setSendq (s : State) (q : Nat) (m : Map SendEntry) : State :=
  if q < 8192 then s.setCore q { s.core q with sendq := m }
  else if q < 16384 then s.setWengine (q - 8192) { s.wengine (q - 8192) with sendq := m }
  else s.setEngine (q - 16384) { s.engine (q - 16384) with sendq := m }

def SendEntry.isReply (e : SendEntry) : Bool := match e with
  | .msg m => m.reply
  | _ => false

/-- Free entries for requests: a core's queue keeps one of its eight for replies (R417), an engine's holds 32 (R218). -/
def State.sendFree (s : State) (q : Nat) : Nat :=
  let used := ((s.sendq q).filter fun e => !e.2.isReply).length
  if q < 8192 then 7 - used else 32 - used

/-- A reply finds an entry while fewer than eight are held (R417). -/
def State.replyFree (s : State) (q : Nat) : Bool := decide ((s.sendq q).length < 8)

/-- An entry joins the end of a send queue. -/
def State.pushSend (s : State) (q : Nat) (e : SendEntry) : State :=
  let m := s.sendq q
  let n := match m.getLast? with
    | some x => x.1 + 1
    | none => 0
  s.setSendq q (m ++ [(n, e)])

def SendEntry.sentBy (e : SendEntry) (h : HartId) : Bool := match e with
  | .msg m => m.origin == some h
  | .stq o => o.sender == some h
  | .held o => o == some h

/-- The hart's own sends have left the queue (R100, R106). -/
def State.sendsGone (s : State) (h : HartId) : Bool := (s.sendq (sendQueueOf h)).all fun e => !e.2.sentBy h

/-- The wave's earlier lane sends have left the queue (R218). -/
def State.waveSendsGone (s : State) (k : Nat) : Bool :=
  (s.sendq (8192 + k / 16)).all fun e => match e.2 with
    | .msg m => m.wave != some k
    | .stq o => o.wave != some k
    | .held _ => true

/-- The crew of a cluster slot with its reference. -/
def State.crewAt (s : State) (crew : Nat) : Option (CrewRef × Crew) :=
  ((s.cluster (crew / 8)).crews.find (crew % 8)).map fun c => ({ cluster := crew / 8, slot := crew % 8, gen := c.gen }, c)

/-! ## Migration blocks (R138, R208) -/

/-- Migration blocks of each crew of the launch. -/
def State.blockCount (s : State) (c : Crew) : Nat := ((s.launches.find c.launch).map (·.migblk)).getD 0

def State.freeBlocks (s : State) (c : Crew) : List Nat :=
  (List.range (s.blockCount c)).filter fun b => !c.blocks.contains b

/-- Virtual address of block `b` of a crew: MIGBASE + 512·b (R122). -/
def State.blockAddr (s : State) (c : Crew) (b : Nat) : Dword :=
  match s.launches.find c.launch with
  | some l => l.migpool + BitVec.ofNat 64 ((c.linear * l.migblk + b) * 512)
  | none => 0

/-- A migrating unit asks for `w.amount` blocks: at once when enough are free and none waits before it, else it waits for
MIGRATION_BLOCK_GRANT. The answer is the blocks, or none while it waits. -/
def askBlocks (ref : CrewRef) (w : Waiter) : M (Option (List Nat)) := do
  let s ← get
  match s.crewOf ref with
  | none => fail (excReserved 12)
  | some c =>
    let free := s.freeBlocks c
    if c.blockGrant.contains w || (c.blockGrant.isEmpty && c.blockWait.isEmpty && decide (w.amount ≤ free.length)) then do
      modify fun s => s.setCrew ref.cluster ref.slot { c with blockGrant := c.blockGrant.filter (· != w) }
      pure (some (free.take w.amount))
    else do
      if !c.blockWait.contains w then
        modify fun s => s.setCrew ref.cluster ref.slot { c with blockWait := c.blockWait ++ [w] }
      pure none

/-- Blocks become used, or free again. -/
def State.useBlocks (s : State) (ref : CrewRef) (bs : List Nat) : State :=
  match s.crewOf ref with
  | some c => s.setCrew ref.cluster ref.slot { c with blocks := c.blocks ++ bs }
  | none => s

def State.freeBlock (s : State) (ref : CrewRef) (b : Nat) : State :=
  match s.crewOf ref with
  | some c => s.setCrew ref.cluster ref.slot { c with blocks := c.blocks.filter (· != b) }
  | none => s

/-- The 512 bytes of a migration block (R138). -/
def blockBytes (x : Nat → Dword) (fcsr : Byte) (f : Nat → Dword) : List Byte :=
  ((List.range 31).flatMap fun i => leBytes 8 (x (i + 1)).toNat) ++ leBytes 8 fcsr.toNat ++
    (List.range 32).flatMap fun j => leBytes 8 (f j).toNat

/-! ## Releases -/

/-- A release of a hart at a scope (R295, R304): its accesses are performed in order, so that only its quantum updates are
left to perform. -/
def releaseM (h : HartId) (scope : Nat) : M Unit := modify fun s => s.releaseUnit (s.accOf h).who scope

/-! ## Barriers (R209 to R212) -/

/-- Barrier `b` of a crew; at admission EXPECT is the crew's waves. -/
def State.barrier (s : State) (c : Crew) (b : Nat) : Barrier := c.barriers.getD b { expect := (s.kernelOf c).waves }

/-- The phase of a barrier completes (R210). -/
def Barrier.complete (b : Barrier) : Barrier := { b with count := 0, phase := b.phase + 1 }

/-- One arrival is counted (R210). -/
def Barrier.arrive (b : Barrier) : Barrier :=
  let b := { b with count := b.count + 1 }
  if b.count = b.expect then b.complete else b

/-- A taking-part wave ends (R212). -/
def Barrier.leave (b : Barrier) (x : BarWave) : Barrier :=
  if x.held && x.ticket == b.phase then { b with count := b.count - 1, expect := b.expect - 1 }
  else
    let b := { b with expect := b.expect - 1 }
    if b.count = b.expect && b.count != 0 then b.complete else b

/-- A wave's arrival at barrier `b` once its arrival mask covers its lanes (R210). -/
def State.barArrive (s : State) (k : Nat) (ref : CrewRef) (c : Crew) (b : Nat) : State :=
  let o := s.barrier c b
  let w := s.wave k
  let s := s.setWave k { w with bars := w.bars.put b { arrived := 0, ticket := o.phase, held := true } }
  s.setCrew ref.cluster ref.slot { c with barriers := c.barriers.put b o.arrive }

/-- The coverage test run again at every barrier after lanes have left a wave (R210). -/
def State.barCover (s : State) (k : Nat) (bs : List Nat) : State :=
  match bs with
  | [] => s
  | b :: t =>
    let w := s.wave k
    let x := w.bars.getD b {}
    let s :=
      if x.arrived != 0 && w.lanes &&& ~~~x.arrived == 0 then
        match w.hart.crew with
        | some ref =>
          match s.crewOf ref with
          | some c => s.barArrive k ref c b
          | none => s
        | none => s
      else s
    s.barCover k t

/-- Every barrier of its crew when a taking-part wave ends (R212). -/
def State.barLeave (s : State) (k : Nat) (bs : List Nat) : State :=
  match bs with
  | [] => s
  | b :: t =>
    let w := s.wave k
    let s :=
      match w.hart.crew with
      | some ref =>
        match s.crewOf ref with
        | some c => s.setCrew ref.cluster ref.slot { c with
            barriers := c.barriers.put b ((s.barrier c b).leave (w.bars.getD b {})) }
        | none => s
      | none => s
    s.barLeave k t

/-! ## Ends of units -/

/-- The stack of a strand's crew is free again (R121). -/
def State.freeStack (s : State) (h : HartId) : State :=
  let r := s.hart h
  match r.crew, r.stack with
  | some ref, some n =>
    match s.crewOf ref with
    | some c => s.setCrew ref.cluster ref.slot { c with stackUse := c.stackUse.filter (· != n) }
    | none => s
  | _, _ => s

/-- The wave's slot is free; its send entries, accesses and signals are done before (R100). Its deferred faults lapse
(R400). -/
def State.freeWave (s : State) (k : Nat) : State :=
  let s := match (s.wave k).hart.crew with
    | some ref => s.lapseDeferred ref fun d => d.wave == some k || d.sender == some (HartId.uniform k)
    | none => s
  s.setWave k (s.wave k).freed

/-- A wave whose uniform stream has ended and whose lanes are gone ends: a duty it holds is discharged on its JOIN, and
its slot frees (R100, R129). It waits for its outstanding accesses and signals. -/
def endWave (k : Nat) : M Unit := do
  let s ← get
  let w := s.wave k
  if w.live && w.uended && w.lanes == 0 && w.accesses.isEmpty && w.signals.isEmpty && w.sfx.isEmpty && !w.trap.act then do
    let acc := { s.accOf (.uniform k) with priv := .u }
    let o := originOf s (.uniform k)
    if w.hart.duty then do
      let _ ← attempt (joinSub acc o w.hart.join)
      dischargeGfx w.hart.gfx
    if w.front then modify fun s => s.barLeave k (List.range 16)
    modify fun s => s.freeWave k

end Sys2Proof.Machine
end

