-- ==== Sys2Proof/Machine/Accum.lean ====
section
/-! DEFINITION. Accumulator partitions (R190, R333) and single elements of them, against the writes of a running matrix
command (R191, R345). -/

namespace Sys2Proof.Machine

/-- Rows that a wave of the crew owns, AR. -/
def Crew.accRows (c : Crew) (waves : Nat) : Nat := min 1024 (64 * (c.partition.extractLsb' 14 7).toNat / waves)

/-- Key of the first byte of lane `l` of row `row` of the wave of rank `rank`. -/
def Crew.accKey (c : Crew) (cluster rows rank row l : Nat) : Nat :=
  let b := (rank * rows + row) * 256 + 4 * l
  poolKey (cluster * 8 + c.engine) (c.accUnits.getD (b / 16384) 0 * 16384 + b % 16384)

/-- The output of a running command at a key. -/
def State.runningOut (s : State) (cluster key : Nat) : Option (Nat × MatOut) :=
  (s.cluster cluster).matrix.cmds.findSome? fun x => (x.outs.find? fun o => o.key == key).map fun o => (x.n, o)

/-- The accumulator element after an output's block terms, with the flags of the adds (R344). -/
def MatOut.value (o : MatOut) : Word × Nat :=
  o.blks.foldl (fun acc b =>
    let r := fadd .f32 { mode := 0 } false (unpack .f32 acc.1.toNat) (unpack .f32 b.1.toNat)
    (BitVec.ofNat 32 r.bits, acc.2 ||| r.flags ||| b.2)) (o.c0, 0)

/-- 4 bytes of an accumulator; an element that a command is writing reads old or new (R191). -/
def readAcc (cluster key : Nat) : M Word := do
  let s ← get
  let old : Word := BitVec.ofNat 32 (natOfBytes (s.peek key 4))
  match s.runningOut cluster key with
  | some (_, o) => do
    let k ← freeNatM 2
    pure (if k = 0 then old else o.value.1)
  | none => pure old

def State.modOuts (s : State) (cluster n : Nat) (f : List MatOut → List MatOut) : State :=
  s.modMatrix cluster fun m => { m with cmds := m.cmds.map fun x => if x.n = n then { x with outs := f x.outs } else x }

/-- 4 bytes written to an accumulator. For an element that a command works on, the write comes before the command's read,
between read and write, or after the write (R345). -/
def writeAcc (cluster key : Nat) (v : Word) : M Unit := do
  let s ← get
  match s.runningOut cluster key with
  | some (n, _) => do
    let k ← freeNatM 3
    if k = 0 then modify fun s => s.modOuts cluster n fun os => os.map fun o => if o.key = key then { o with c0 := v } else o
    else if k = 1 then modify fun s => s.modOuts cluster n fun os => os.filter fun o => o.key != key
    else pure ()
  | none => pure ()
  modify fun s => (s.dropResvs cluster none fun r => decide (r.line = key / 256)).poke key (leBytes 4 v.toNat)

/-- The work `m`, undone when it has to wait; the snoops it has asked for stay. -/
def orStall (m : M Unit) : M Unit := fun s =>
  match m s with
  | .error .stall t => .error .stall { s with snoops := t.snoops }
  | r => r

end Sys2Proof.Machine
end

