-- ==== Sys2Proof/Machine/Custom.lean ====
section
/-! DEFINITION. The device's scalar instructions of custom-0 to custom-2 (R65, R90 to R116, R271). -/

namespace Sys2Proof.Machine

/-! ## Checks that the instructions share -/

/-- The word that encodes a scalar instruction. -/
def wordOf (i : Instr) : Word := (encodeScalar i).getD 0

/-- A register that a handler may not write (R403). -/
def handlerRd (rd : Reg) : Bool := rd != 0 && !(decide (10 ≤ rd.toNat ∧ rd.toNat ≤ 17))

/-- Handler-mode check of an instruction that writes `rd`; `listed` when R92 names it. -/
def handlerRule (listed : Bool) (rd : Reg) (_ : Hart) : Option Nat :=
  if listed then some 1 else if handlerRd rd then some 3 else none

/-- The instruction exists on this kind of hart, or ILLEGAL_OPCODE (R69). -/
def kindM (ok : Bool) (i : Instr) : M Unit := guardM ok (excIllegal 1 (wordOf i))

def notEngine (h : HartId) : Bool := !HartKind.isEngine h

/-- S level, or PRIVILEGE (R69). -/
def levelS (h : HartId) (i : Instr) : M Unit := do
  let r ← getHart h
  guardM (r.priv == .s) (excIllegal 3 (wordOf i))

/-- MISALIGNED from a custom instruction, with the address (R90, R393). -/
def aligned (va : Dword) (n : Nat) : M Unit := guardM (decide (va.toNat % n = 0)) (excDev 4 0 va)

/-- The accessor of a hart's custom accesses. -/
def ownAcc (h : HartId) : M Acc := do return (← get).accOf h

/-! ## Semaphores (R94 to R96) -/

/-- A wait of amount `a` on semaphore `n`: at once when it can be granted, else the hart parks in order of arrival. -/
def semWaitM (h : HartId) (rd : Reg) (n a : Nat) : M Unit := do
  let r ← getHart h
  match r.granted with
  | some (.value v) => setReg h rd v
  | _ => do
    let (ref, c) ← crewM h
    guardM (decide (a ≤ 65535)) (excReserved 1)
    takeDeferred ref n fun d => d.sender == some h
    let i := c.semIndex n
    let x := (← get).sem ref.cluster i
    if a = 0 then setReg h rd (BitVec.ofNat 64 x.count)
    else if x.waiters.contains (.hart h a) then parkFor .sem
    else if x.waiters.isEmpty && decide (a ≤ x.count) then do
      modify fun s => s.setSem ref.cluster i { x with count := x.count - a }
      setReg h rd (BitVec.ofNat 64 x.count)
    else do
      modify fun s => s.setSem ref.cluster i { x with waiters := x.waiters ++ [.hart h a] }
      parkFor .sem

/-- A signal of amount `a`, a release at crew scope. -/
def semSigM (h : HartId) (rd : Reg) (n a : Nat) : M Unit := do
  let (ref, c) ← crewM h
  guardM (decide (a ≤ 65535)) (excReserved 1)
  let i := c.semIndex n
  let x := (← get).sem ref.cluster i
  guardM (decide (x.count + a ≤ 65535)) (excDev 18 0 0)
  releaseM h 1
  match (← get).signalSem ref.cluster i a with
  | some t => set t
  | none => pure ()
  setReg h rd (BitVec.ofNat 64 x.count)

/-- A try of amount `a`: it fails while any wait is pending, and then answers the count with bit 63 set. -/
def semTryM (h : HartId) (rd : Reg) (n a : Nat) : M Unit := do
  let (ref, c) ← crewM h
  guardM (decide (a ≤ 65535)) (excReserved 1)
  takeDeferred ref n fun d => d.sender == some h
  let i := c.semIndex n
  let x := (← get).sem ref.cluster i
  if x.waiters.isEmpty && decide (a ≤ x.count) then do
    modify fun s => s.setSem ref.cluster i { x with count := x.count - a }
    setReg h rd (BitVec.ofNat 64 x.count)
  else setReg h rd (BitVec.ofNat 64 (x.count + 2 ^ 63))

def execSemWait (rd rs1 rs2 : Reg) (s : State) : Host.Outcome State Fault Refusal :=
  scalar (handlerRule true rd) (fun h => do
    let r ← getHart h
    semWaitM h rd ((r.rx rs1).toNat % 256) (r.rx rs2).toNat) s

def execSemWaiti (rd : Reg) (sem : BitVec 8) (n : BitVec 4) (s : State) : Host.Outcome State Fault Refusal :=
  scalar (handlerRule true rd) (fun h => do
    guardM (n != 0) (excIllegal 2 (wordOf (.semWaiti rd sem n)))
    semWaitM h rd sem.toNat n.toNat) s

def execSemSig (rd rs1 rs2 : Reg) (s : State) : Host.Outcome State Fault Refusal :=
  scalar (handlerRule false rd) (fun h => do
    let r ← getHart h
    semSigM h rd ((r.rx rs1).toNat % 256) (r.rx rs2).toNat) s

def execSemSigi (rd : Reg) (sem : BitVec 8) (n : BitVec 4) (s : State) : Host.Outcome State Fault Refusal :=
  scalar (handlerRule false rd) (fun h => do
    guardM (n != 0) (excIllegal 2 (wordOf (.semSigi rd sem n)))
    semSigM h rd sem.toNat n.toNat) s

def execSemTry (rd rs1 rs2 : Reg) (s : State) : Host.Outcome State Fault Refusal :=
  scalar (handlerRule false rd) (fun h => do
    let r ← getHart h
    semTryM h rd ((r.rx rs1).toNat % 256) (r.rx rs2).toNat) s

def execSemRead (rd rs1 : Reg) (s : State) : Host.Outcome State Fault Refusal :=
  scalar (handlerRule false rd) (fun h => do
    let r ← getHart h
    let (ref, c) ← crewM h
    let x := (← get).sem ref.cluster (c.semIndex (r.rx rs1).toNat)
    setReg h rd (BitVec.ofNat 64 x.count)) s

/-! ## Futures (R97, R98) -/

/-- Index of the free entry that fut.new takes: the machine's choice (R130), found from `start` on. -/
def State.freeFuture (s : State) (die start fuel : Nat) : Option Nat :=
  match fuel with
  | 0 => none
  | fuel + 1 =>
    let i := start % 2 ^ 22
    if i ≠ 0 ∧ !(s.futures.getD (die * 2 ^ 22 + i) {}).allocated then some i else s.freeFuture die (start + 1) fuel

def execFutNew (rd : Reg) (s : State) : Host.Outcome State Fault Refusal :=
  scalar (handlerRule false rd) (fun h => do
    kindM (notEngine h) (.futNew rd)
    let die := dieOf h.cluster
    let start ← freeNatM (2 ^ 22)
    let s ← get
    match s.freeFuture die start (s.futures.length + 2) with
    | some i =>
      let k := die * 2 ^ 22 + i
      let e := s.futures.getD k {}
      modify fun s => s.setFuture k { gen := e.gen, allocated := true }
      setReg h rd (BitVec.ofNat 64 (die * 2 ^ 30 + e.gen % 256 * 2 ^ 22 + i))
    | none => setReg h rd 0) s

/-- The end of a future by fut.set or fut.poison: value and state, and every waiter woken. -/
def resolveM (h : HartId) (handle : Nat) (v : Dword) (poisoned : Bool) : M Unit := do
  let e ← futEntry handle
  guardM (decide (e.st ≤ 1)) (excDev 19 1 0)
  releaseM h 3
  let k := futKey handle
  modify fun s => s.setFuture k
    { e with value := if poisoned then e.value else v, st := if poisoned then 3 else 2, waiters := [] }
  wakeAll (← ownAcc h) v poisoned e.waiters

def execFutSet (rs1 rs2 : Reg) (s : State) : Host.Outcome State Fault Refusal :=
  scalar (handlerRule false 0) (fun h => do
    kindM (notEngine h) (.futSet rs1 rs2)
    let r ← getHart h
    resolveM h ((r.rx rs1).toNat % 2 ^ 32) (r.rx rs2) false) s

def execFutPoison (rs1 : Reg) (s : State) : Host.Outcome State Fault Refusal :=
  scalar (handlerRule false 0) (fun h => do
    kindM (notEngine h) (.futPoison rs1)
    let r ← getHart h
    resolveM h ((r.rx rs1).toNat % 2 ^ 32) 0 true) s

/-- The effect of fut.wait while nothing is granted: a ready or poisoned future ends it, another is waited for. -/
def futJoinM (h : HartId) (rd : Reg) (handle : Nat) : M Unit := do
  let e ← futEntry handle
  if e.st = 2 then setReg h rd e.value
  else if e.st = 3 then fail (excDev 22 1 0)
  else do
    if !e.waiters.contains (.hart h) then
      modify fun s => s.setFuture (futKey handle) { e with st := 1, waiters := e.waiters ++ [.hart h] }
    parkFor .fut

/-- fut.wait with what its wake-up granted. -/
def futWaitM (h : HartId) (rd : Reg) (handle : Nat) (g : Option Grant) : M Unit :=
  match g with
  | none => futJoinM h rd handle
  | some (.value v) => setReg h rd v
  | some .poison => fail (excDev 22 1 0)
  | some (.fault _ _ _) => futJoinM h rd handle

def execFutWait (rd rs1 : Reg) (s : State) : Host.Outcome State Fault Refusal :=
  scalar (handlerRule true rd) (fun h => do
    kindM (notEngine h) (.futWait rd rs1)
    let r ← getHart h
    futWaitM h rd ((r.rx rs1).toNat % 2 ^ 32) r.granted) s

def execFutPoll (rd rs1 : Reg) (s : State) : Host.Outcome State Fault Refusal :=
  scalar (handlerRule false rd) (fun h => do
    kindM (notEngine h) (.futPoll rd rs1)
    let r ← getHart h
    let e ← futEntry ((r.rx rs1).toNat % 2 ^ 32)
    setReg h rd (BitVec.ofNat 64 e.st)) s

def execFutFree (rs1 : Reg) (s : State) : Host.Outcome State Fault Refusal :=
  scalar (handlerRule false 0) (fun h => do
    kindM (notEngine h) (.futFree rs1)
    let r ← getHart h
    let handle := (r.rx rs1).toNat % 2 ^ 32
    let e ← futEntry handle
    guardM (e.st != 1) (excDev 19 2 0)
    modify fun s => s.setFuture (futKey handle) { gen := (e.gen + 1) % 256 }) s

/-! ## Continuations and joins (R99 to R101) -/

/-- The children of a spawn are enqueued with rising lane index. -/
def enqueueAll (acc : Acc) (o : Origin) (c : Cont) (is : List Nat) : M Unit :=
  match is with
  | [] => pure ()
  | i :: t => do
    enqueue acc o (c.addLidx i) 64
    enqueueAll acc o c t

/-- The effect of cont.spawn on a record: the counter rises before any child is enqueued (R99). -/
def spawnM (acc : Acc) (o : Origin) (c : Cont) (n : Nat) : M Unit := do
  if c.join ≠ 0 then do
    let _ ← vrmw acc ((c.join.setWidth 48).signExtend 64) 8 fun v => some ((v + n) % 2 ^ 64)
  modify fun s => s.releaseUnit acc.who 3
  enqueueAll acc o c (List.range n)

/-- cont.spawn of `n` children from the record at `va` (R99). -/
def contSpawnM (h : HartId) (va : Dword) (n : Nat) : M Unit := do
  aligned va 32
  guardM (decide (n ≤ 4096)) (excReserved 1)
  let acc ← ownAcc h
  let c := contOfBytes (← vread acc va 32)
  let s ← get
  match refuseCont s (s.hart h).crew (s.hart h).launch c with
  | some d => fail (excReserved d)
  | none =>
    let o := originOf s h
    if n = 0 then pure ()
    else if c.kind ≠ 1 && s.canStart (o.queued s c).c && !s.queueRoom (s.contCluster o.cluster (o.queued s c).c) c.cls n then
      parkFor .ringFull
    else spawnM acc o c n

def execContSpawn (rs1 rs2 : Reg) (s : State) : Host.Outcome State Fault Refusal :=
  scalar (handlerRule true 0) (fun h => do
    kindM (notEngine h) (.contSpawn rs1 rs2)
    let r ← getHart h
    contSpawnM h (r.rx rs1) (r.rx rs2).toNat) s

/-- join.add of `delta` at `va` (R101). -/
def joinAddHartM (h : HartId) (rd : Reg) (va delta : Dword) : M Unit := do
  aligned va 8
  guardM (canonical va) (accessFault (← ownAcc h) .store 0 va.toNat)
  releaseM h 3
  let s ← get
  let old ← joinAddM (s.accOf h) (originOf s h) va delta
  setReg h rd old

def execJoinAdd (rd rs1 rs2 : Reg) (s : State) : Host.Outcome State Fault Refusal :=
  scalar (handlerRule false rd) (fun h => do
    kindM (notEngine h) (.joinAdd rd rs1 rs2)
    let r ← getHart h
    joinAddHartM h rd (r.rx rs1) (r.rx rs2)) s

/-- cont.exit (R100, R321): on a strand the duty is discharged and the context freed; on a uniform hart the stream ends;
on an engine the kick ends with a0 as VALUE once its datapath is idle. -/
def contExitM (h : HartId) : M Unit := do
  if !(← get).sendsGone h then parkFor .sends
  match h with
  | .strand _ => do
    let r ← getHart h
    releaseM h 3
    if r.duty then do
      joinSub (← ownAcc h) (originOf (← get) h) r.join
      dischargeGfx r.gfx
    modify fun s => (s.lapseSender h).freeStack h
    modHart h Hart.freed
  | .uniform k => do
    modify fun s => s.setWave k { s.wave k with uended := true, hart := { (s.wave k).hart with run := .idle } }
    endWave k
  | .engine k => do
    let e := (← get).engine k
    if !e.ops.isEmpty then parkFor .datapath
    releaseM h ((e.running.map (·.scope)).getD 4)
    modify fun s => s.endKick k 0 0 (e.hart.rx 10)

def execContExit (s : State) : Host.Outcome State Fault Refusal :=
  scalar (handlerRule true 0) contExitM s

/-! ## Messages (R102 to R104) -/

/-- The strand ranks of the crews of a launch. -/
def State.launchStrands (s : State) (n : Nat) : Nat := ((s.launches.find n).map (·.kernel.strands)).getD 0

/-- The package a destination names: none for the own one, or a refusal (R102, R421). -/
def State.destPkg (s : State) (p : Nat) : Option (Option Nat) :=
  if p = 0xFF ∨ p = s.pkg then some none else if (s.linkTo p).isSome then some (some p) else none

/-- A destination word of R102 with the unit's crew, or none when R102 refuses it. -/
def State.destOf (s : State) (crew : Option CrewRef) (w : Dword) (reply handler : Bool) : Option Msg :=
  let mode := (w.extractLsb' 30 2).toNat
  let dest := (w.extractLsb' 0 16).toNat
  if w.toNat / 2 ^ 32 ≠ 0 || mode = 3 || w.getLsbD 24 || (handler && w.getLsbD 28) || (reply && mode != 0) then none else
  match s.destPkg (w.extractLsb' 16 8).toNat with
  | none => none
  | some pkg =>
    let m : Msg := { reply := reply, pri := w.getLsbD 29, dest := w &&& 0xFFFFFFFF#64, pkg := pkg }
    if mode = 0 then some { m with target := dest } else
    match crew.bind s.crewOf with
    | none => none
    | some c =>
      match s.launches.find c.launch with
      | none => none
      | some l =>
        if dest / 256 ≠ 0 || l.kernel.strands ≤ dest then none
        else if mode = 1 then
          if c.stage + 1 < l.stages then some { m with target := dest, rank := some (c.launch, c.linear + l.gx * l.gy * l.gz) }
          else none
        else if c.stage = 0 then none
        else some { m with target := dest, rank := some (c.launch, c.linear - l.gx * l.gy * l.gz) }

/-- The sender word of a hart's message (R104). -/
def senderWord (h : HartId) (pri : Bool) : Dword :=
  (match h with
    | .strand k => dstrandOf k
    | .uniform k => waveIdent k ||| 0x6000000000000000#64
    | .engine _ => 0) ||| (if pri then 0x8000000000000000#64 else 0)

/-- The part that msg.send, msg.sendh and msg.reply share (R103): the checks in order, the body, the message. -/
def sendM (h : HartId) (dest body : Dword) (reply handler : Bool) : M Unit := do
  let s ← get
  let r := s.hart h
  match s.destOf r.crew dest reply handler with
  | none => fail (excReserved 1)
  | some m => do
    aligned body (if handler then 32 else 64)
    let bs ← vread (← ownAcc h) body (if handler then 96 else 64)
    let s ← get
    let q := sendQueueOf h
    if reply then
      if !s.replyFree q then
        if r.handler.isSome then parkFor .replySlot else fail (excDev 14 0 0)
    else guardM (decide (0 < s.sendFree q)) (excDev 14 0 0)
    releaseM h 3
    modify fun s => s.pushSend q (.msg { m with
      sender := senderWord h m.pri
      payload := bs.take 64
      handler := if handler then some (bs.drop 64) else none
      origin := some h })

def execMsgSend (rs1 rs2 : Reg) (s : State) : Host.Outcome State Fault Refusal :=
  scalar (handlerRule true 0) (fun h => do
    kindM (notEngine h) (.msgSend rs1 rs2)
    let r ← getHart h
    sendM h (r.rx rs1) (r.rx rs2) false false) s

def execMsgSendh (rs1 rs2 : Reg) (s : State) : Host.Outcome State Fault Refusal :=
  scalar (handlerRule true 0) (fun h => do
    kindM (notEngine h) (.msgSendh rs1 rs2)
    let r ← getHart h
    sendM h (r.rx rs1) (r.rx rs2) false true) s

/-- A second msg.reply of a handler is a violation (R92). -/
def replyRule (r : Hart) : Option Nat := if (r.handler.map (·.replied)) == some true then some 1 else none

def execMsgReply (rs1 rs2 : Reg) (s : State) : Host.Outcome State Fault Refusal :=
  scalar replyRule (fun h => do
    kindM (HartKind.isStrand h) (.msgReply rs1 rs2)
    let r ← getHart h
    sendM h (r.rx rs1) (r.rx rs2) true false
    modHart h fun r => { r with handler := r.handler.map fun a => { a with replied := true } }) s

/-- The message that msg.recv takes: the oldest of high priority, else the oldest. -/
def takeMsg (l : List Msg) : Option (Msg × List Msg) :=
  match l.find? (·.pri) with
  | some m => some (m, l.erase m)
  | none =>
    match l with
    | m :: t => some (m, t)
    | [] => none

/-- The hart after it has taken message `m`, with the rest of its inbox and the overflow moved up. -/
def Hart.received (x : Hart) (rd : Reg) (m : Msg) (rest : List Msg) : Hart :=
  { x.wx rd (m.sender &&& 0x7FFFFFFFFFFFFFFF#64 ||| (if m.pri then 0x8000000000000000#64 else 0)) with
    inbox := (rest ++ x.overflow).take 4
    overflow := (rest ++ x.overflow).drop 4 }

def msgRecvM (h : HartId) (rd : Reg) (va : Dword) : M Unit := do
  aligned va 64
  let r ← getHart h
  match takeMsg r.inbox with
  | none => parkFor .recv
  | some (m, rest) => do
    vwrite (← ownAcc h) va m.payload
    modHart h fun x => x.received rd m rest

def execMsgRecv (rd rs1 : Reg) (s : State) : Host.Outcome State Fault Refusal :=
  scalar (handlerRule true rd) (fun h => do
    kindM (HartKind.isStrand h) (.msgRecv rd rs1)
    let r ← getHart h
    msgRecvM h rd (r.rx rs1)) s

/-! ## Mailboxes (R105, R142) -/

/-- A mailbox register is written; a deposit in the same clk stands and the write is dropped with its overrun bit. -/
def Hart.writeMb (r : Hart) (n : Nat) (v : Dword) : Hart :=
  if r.deps.any fun d => d.1 = n then { r with mbOvr := r.mbOvr ||| BitVec.ofNat 8 (2 ^ n) }
  else { r with mb := r.mb.set! n v }

/-- FULL of a mailbox register is cleared. -/
def Hart.clearFull (r : Hart) (n : Nat) : Hart := { r with mbFull := r.mbFull &&& ~~~BitVec.ofNat 8 (2 ^ n) }

def execMbRead (rd : Reg) (mb : BitVec 3) (s : State) : Host.Outcome State Fault Refusal :=
  scalar (handlerRule false rd) (fun h => do
    kindM (HartKind.isStrand h) (.mbRead rd mb)
    modHart h fun r => (r.clearFull mb.toNat).wx rd (r.mb[mb.toNat]!)) s

def execMbWrite (mb : BitVec 3) (rs1 : Reg) (s : State) : Host.Outcome State Fault Refusal :=
  scalar (handlerRule false 0) (fun h => do
    kindM (HartKind.isStrand h) (.mbWrite mb rs1)
    modHart h fun r => r.writeMb mb.toNat (r.rx rs1)) s

def execMbSwap (rd : Reg) (mb : BitVec 3) (rs1 : Reg) (s : State) : Host.Outcome State Fault Refusal :=
  scalar (handlerRule false rd) (fun h => do
    kindM (HartKind.isStrand h) (.mbSwap rd mb rs1)
    modHart h fun r => ((r.clearFull mb.toNat).writeMb mb.toNat (r.rx rs1)).wx rd (r.mb[mb.toNat]!)) s

/-! ## mig.w (R106, R137, R138) -/

/-- The role and offset of an address in one of the sections given. -/
def sectionAt (l : List Section) (va : Nat) : Option (Section × Nat) :=
  (l.find? fun x => decide (x.va ≤ va ∧ va < x.va + x.size)).map fun x => (x, va - x.va)

/-- The virtual address of an offset in the section of a role. -/
def sectionAddr (l : List Section) (role off : Nat) : Nat := ((l.find? fun x => x.role = role).map (·.va)).getD 0 + off

/-- The migration entry of kind 1 at an address of strand code, as the virtual address of its target (R85, R106). -/
def State.migTarget (s : State) (launch : Nat) (pc : Dword) : Option Nat :=
  match s.launches.find launch with
  | none => none
  | some l =>
    match sectionAt l.img.strandCode pc.toNat with
    | none => none
    | some (x, off) =>
      (l.img.migs.find? fun e => !e.lane && e.srcRole == x.role && e.src == off).map fun e =>
        sectionAddr l.img.laneCode e.dstRole e.dst

def migWM (h : HartId) : M Unit := do
  let s ← get
  let r := s.hart h
  match s.migTarget r.launch (r.pc - 4) with
  | none => fail (excDev 13 0 0)
  | some target => do
    guardM (decide (r.fcsr.toNat / 32 < 5)) (excReserved 1)
    match r.crew.bind fun ref => (s.crewOf ref).map fun c => (ref, c) with
    | none => fail (excReserved 12)
    | some (ref, c) => do
      guardM ((s.kernelOf c).waves != 0) (excReserved 12)
      if !s.sendsGone h then parkFor .sends
      match ← askBlocks ref (.hart h 1) with
      | none => parkFor .migBlock
      | some bs => do
        let b := bs.headD 0
        let va := s.blockAddr c b
        let acc ← ownAcc h
        let gs ← resolve acc va 512 .store
        gateSegs acc true gs
        releaseM h 1
        writeSegs acc true gs (blockBytes (fun i => r.rx (BitVec.ofNat 5 i)) r.fcsr (fun j => r.rf (BitVec.ofNat 5 j)))
        modify fun s => s.useBlocks ref [b]
        let k : Cont := {
          w0 := BitVec.ofNat 64 target
          w1 := va &&& 0xFFFFFFFFFFFF#64
          w2 := if r.duty then r.join else 0
          w3 := BitVec.ofNat 64 (1 + c.cls % 4 * 4 + 2 ^ 17 + 2 ^ 18) }
        let o := { originOf s h with gfx := r.gfx }
        modify fun s => s.pushCont o.cluster (o.queued s k)
        modify fun s => (s.lapseSender h).freeStack h
        modHart h Hart.freed

def execMigW (s : State) : Host.Outcome State Fault Refusal :=
  scalar (handlerRule true 0) (fun h => do
    kindM (HartKind.isStrand h) .migW
    migWM h) s

/-! ## Engines (R107, R108, R320) -/

/-- The identity that a kick carries (R320). -/
def kickIdent (h : HartId) : Dword :=
  match h with
  | .strand k => dstrandOf k
  | .uniform k => waveIdent k ||| 0x8000000000000000#64
  | .engine _ => 0

def engKickM (h : HartId) (word arg : Dword) (scope : Nat) : M Unit := do
  let e := (word.extractLsb' 0 4).toNat
  guardM (decide (word.toNat < 256 ∧ e < 7)) (excReserved 1)
  guardM (!(word.getLsbD 7 && HartKind.isUniform h)) (excReserved 1)
  let k := h.cluster * 7 + e
  let s ← get
  let x := s.engine k
  let mine := x.parked.head? == some h || (x.parked.isEmpty && !x.parked.contains h)
  if decide (4 ≤ x.queue.length) || !mine then do
    if !x.parked.contains h then modify fun s => s.setEngine k { x with parked := x.parked ++ [h] }
    parkFor .kickFull
  releaseM h scope
  let r := s.hart h
  let kick : Kick := {
    word := word
    arg := arg
    kicker := h
    ident := kickIdent h
    scope := scope
    crew := r.crew
    launch := r.launch
    dcrew := r.dcrew
    dptb := r.dptb }
  modify fun s =>
    let x := s.engine k
    s.setEngine k { x with queue := x.queue ++ [kick], parked := x.parked.filter (· != h) }
  modHart h fun r =>
    let old := r.kicks.getD e {}
    { r with kicks := r.kicks.put e { old with outstanding := old.outstanding + 1, scope := scope, unmet := true } }

def execEngKick (rs1 rs2 : Reg) (scope : BitVec 3) (s : State) : Host.Outcome State Fault Refusal :=
  scalar (handlerRule false 0) (fun h => do
    let i : Instr := .engKick rs1 rs2 scope
    kindM (notEngine h) i
    guardM (decide (scope.toNat ≤ 4) && (scope != 0 || HartKind.isUniform h)) (excIllegal 2 (wordOf i))
    let r ← getHart h
    engKickM h (r.rx rs1) (r.rx rs2) scope.toNat) s

/-- eng.rdv with engine `e`, given the hart's record of it (R108). -/
def engRdvM (h : HartId) (rd : Reg) (e : Nat) (k : KickRec) (known : Bool) : M Unit := do
  guardM (decide (e < 7)) (excReserved 1)
  if k.outstanding ≠ 0 then parkFor .rendezvous
  else do
    if known then modHart h fun r => { r with kicks := r.kicks.put e { k with unmet := false } }
    setReg h rd k.word

def execEngRdv (rd rs1 : Reg) (s : State) : Host.Outcome State Fault Refusal :=
  scalar (handlerRule true rd) (fun h => do
    kindM (notEngine h) (.engRdv rd rs1)
    let r ← getHart h
    let e := ((r.rx rs1).extractLsb' 0 4).toNat
    engRdvM h rd e (r.kicks.getD e {}) (r.kicks.find e).isSome) s

/-! ## Coherence (R109, R110, R290) -/

/-- The physical address of shape record `n` of a kernel (R122). -/
def Launch.shapeAddr (l : Launch) (n : Nat) : Option Nat :=
  (l.img.shapes.find? fun e => e.1 == l.kernelIx && e.2.1 == n).map (·.2.2)

/-- The pages of a region, translated one by one. -/
def regionPages (acc : Acc) (va n : Nat) : M (List Tr) :=
  match n with
  | 0 => pure []
  | n + 1 => do
    let t ← translate acc va .load
    let rest ← regionPages acc (va + 4096) n
    pure (t :: rest)

/-- The granules of the given lines come together, all tokens at the home (R109, R290). -/
def State.gatherLines (s : State) (ls : List Nat) : State :=
  match ls with
  | [] => s
  | l :: t => (s.tokenHome l).gatherLines t

def pageLines (ps : List Nat) : List Nat := ps.flatMap fun p => (List.range 16).map fun i => p * 16 + i

/-- An entry of the object table of a die: 4,096 of the 16,384 indexes each (log 33). -/
def State.freeObject (s : State) (die : Nat) : Option Nat :=
  ((List.range 4096).map (die * 4096 + ·)).find? fun i => (s.objects.find i).isNone

def cohDeclM (h : HartId) (rd : Reg) (n : Nat) : M Unit := do
  let s ← get
  let r := s.hart h
  match (s.launches.find r.launch).bind fun l => l.shapeAddr n with
  | none => fail (excReserved 1)
  | some pa => do
    let base := natOfBytes (s.peek pa 8)
    let span := natOfBytes (s.peek (pa + 0x38) 8)
    guardM (decide (base % 4096 = 0 ∧ span % 4096 = 0 ∧ 4096 ≤ span ∧ span ≤ 2 ^ 24)) (excReserved 1)
    let acc ← ownAcc h
    guardM (canonical (BitVec.ofNat 64 base) && !inWindow base) (accessFault acc .load 0 base)
    let ts ← regionPages acc base (span / 4096)
    let ps := ts.map fun t => t.pa / 4096
    let s ← get
    if (ts.any (·.untracked)) || s.objects.any fun o => o.2.pages.any ps.contains then setReg h rd (BitVec.allOnes 64)
    else
      match s.freeObject (dieOfPa (ps.headD 0 * 4096)) with
      | none => setReg h rd 0
      | some i => do
        releaseM h 3
        modify fun s =>
          let s := s.gatherLines (pageLines ps)
          { s with objects := s.objects.put i { launch := r.launch, pages := ps } }
        setReg h rd (BitVec.ofNat 64 (i + 1))

def execCohDecl (rd rs1 : Reg) (s : State) : Host.Outcome State Fault Refusal :=
  scalar (handlerRule false rd) (fun h => do
    kindM (notEngine h) (.cohDecl rd rs1)
    let r ← getHart h
    cohDeclM h rd ((r.rx rs1).extractLsb' 0 4).toNat) s

/-- coh.rel of object number `n` (R110). -/
def cohRelM (h : HartId) (n : Dword) : M Unit := do
  let s ← get
  let i := (n - 1).toNat
  match s.objects.find i with
  | some o =>
    if o.launch = (s.hart h).launch then do
      releaseM h 3
      modify fun s =>
        let s := s.gatherLines (pageLines (o.pages.take 1))
        { s with objects := s.objects.del i }
    else fail (excReserved 1)
  | none => fail (excReserved 1)

def execCohRel (rs1 : Reg) (s : State) : Host.Outcome State Fault Refusal :=
  scalar (handlerRule false 0) (fun h => do
    kindM (notEngine h) (.cohRel rs1)
    let r ← getHart h
    cohRelM h (r.rx rs1)) s

/-! ## Range operations (R111) -/

def rangeM (h : HartId) (o : RangeOp) (va len : Dword) : M Unit := do
  let acc ← ownAcc h
  guardM (canonical va) (accessFault acc (if o = .cinv then .load else .store) 0 va.toNat)
  let a := va.toNat % 2 ^ 48
  guardM (decide (a + len.toNat ≤ 2 ^ 48)) (excReserved 1)
  rangeLines acc o a len.toNat (len.toNat / 256 + 2)

def execScalarCwb (rs1 rs2 : Reg) (s : State) : Host.Outcome State Fault Refusal :=
  scalar (handlerRule false 0) (fun h => do
    let r ← getHart h
    rangeM h .cwb (r.rx rs1) (r.rx rs2)) s

def execScalarCinv (rs1 rs2 : Reg) (s : State) : Host.Outcome State Fault Refusal :=
  scalar (handlerRule false 0) (fun h => do
    let r ← getHart h
    rangeM h .cinv (r.rx rs1) (r.rx rs2)) s

def execScalarCflush (rs1 rs2 : Reg) (s : State) : Host.Outcome State Fault Refusal :=
  scalar (handlerRule false 0) (fun h => do
    let r ← getHart h
    rangeM h .cflush (r.rx rs1) (r.rx rs2)) s

/-! ## Hotness (R112, R261) -/

/-- A physical address of either DRAM tier, or ACCESS_FAULT. -/
def hotRegion (h : HartId) (pa : Dword) : M Nat := do
  let acc ← ownAcc h
  guardM (decide (pa.toNat < devBase)) (accessFault acc .load 8 pa.toNat)
  pure (pa.toNat / 65536)

def execHotRead (rd rs1 : Reg) (s : State) : Host.Outcome State Fault Refusal :=
  scalar (handlerRule false rd) (fun h => do
    kindM (notEngine h) (.hotRead rd rs1)
    levelS h (.hotRead rd rs1)
    let r ← getHart h
    let g ← hotRegion h (r.rx rs1)
    modify fun s => s.halveHot (dieOfPa (g * 65536))
    setReg h rd (BitVec.ofNat 64 ((← get).hot.getD g 0))) s

def execHotClr (rs1 : Reg) (s : State) : Host.Outcome State Fault Refusal :=
  scalar (handlerRule false 0) (fun h => do
    kindM (notEngine h) (.hotClr rs1)
    levelS h (.hotClr rs1)
    let r ← getHart h
    let g ← hotRegion h (r.rx rs1)
    modify fun s =>
      let s := s.halveHot (dieOfPa (g * 65536))
      { s with hot := s.hot.del g }) s

/-! ## Fences, hints (R114, R116) -/

/-- A fence: the accesses of a hart are performed in order, so that a releasing one has only quantum updates to perform
(R295, R304). -/
def execFenceS (scope : BitVec 2) (sem : BitVec 4) (s : State) : Host.Outcome State Fault Refusal :=
  scalar (handlerRule false 0) (fun h => do
    guardM (decide (5 ≤ sem.toNat ∧ sem.toNat ≤ 8)) (excIllegal 2 (wordOf (.fenceS scope sem)))
    if sem != 5 then releaseM h (scope.toNat + 1)) s

/-- yield (R116): the next context takes the turn; on a uniform hart the wave gives up its engine's issue slot. -/
def execScalarYield (s : State) : Host.Outcome State Fault Refusal :=
  scalar (handlerRule false 0) (fun h => do
    kindM (notEngine h) .scalarYield
    match h with
    | .strand k => modify fun s => s.setCore (k / 8) { s.core (k / 8) with rr := k % 8 }
    | .uniform k =>
      modify fun s =>
        let e := s.wengine (k / 16)
        if e.current = some (k % 16) then s.setWengine (k / 16) { e with switch := true, currentSince := s.clk } else s
    | .engine _ => pure ()) s

/-! ## stq (R115) -/

/-- The descriptor of a write-with-enqueue as an operation, or the DETAIL of its refusal (R115, R141). -/
def stqOf (s : State) (crew : Option CrewRef) (launch : Nat) (d : List Byte) : Except Nat StqOp :=
  let len := natOfBytes ((d.drop 8).take 2)
  let inc := natOfBytes ((d.drop 11).take 1)
  let c := contOfBytes (d.drop 32)
  if len = 0 ∨ 256 < len ∨ (inc ≠ 0 ∧ inc ≠ 1 ∧ inc ≠ 2 ∧ inc ≠ 4) ∨ natOfBytes ((d.drop 12).take 20) ≠ 0 then .error 1
  else
    match refuseCont s crew launch c with
    | some n => .error n
    | none =>
      let o : StqOp := {
        queue := 0
        target := natOfBytes (d.take 8)
        payload := []
        sem := natOfBytes ((d.drop 10).take 1)
        inc := inc
        window := (crew.bind s.crewOf).bind fun x => crew.map fun r => (r.cluster, x.window)
        cont := c
        launch := launch
        crew := crew
        cluster := 0
        dptb := 0
        priv := .u
        bound := true
        sender := none
        wave := none }
      .ok o

/-- Payload bytes of a descriptor. -/
def stqLen (d : List Byte) : Nat := natOfBytes ((d.drop 8).take 2)

/-- stq of the descriptor at `va` with the payload at `pay` (R115). -/
def scalarStqM (h : HartId) (va pay : Dword) : M Unit := do
  aligned va 64
  let acc ← ownAcc h
  let d ← vread acc va 64
  let s ← get
  let r := s.hart h
  match stqOf s r.crew r.launch d with
  | .error n => fail (excReserved n)
  | .ok o => do
    let bs ← vread acc pay (stqLen d)
    let q := sendQueueOf h
    guardM (decide (0 < (← get).sendFree q)) (excDev 14 0 0)
    modify fun s => s.pushSend q (.stq { o with
      queue := q
      payload := bs
      cluster := h.cluster
      dptb := r.dptb
      priv := r.priv
      bound := r.bound
      dcrew := r.dcrew
      sender := some h })

def execScalarStq (rs1 rs2 : Reg) (s : State) : Host.Outcome State Fault Refusal :=
  scalar (handlerRule true 0) (fun h => do
    let r ← getHart h
    scalarStqM h (r.rx rs1) (r.rx rs2)) s

/-! ## tlb.inv (R113, R271) -/

/-- The line of the leaf, or of the last entry read, of a walk without permission checks (R271). -/
def locateFrom (s : State) (va : Nat) (levels : List Nat) (a line : Nat) : Nat :=
  match levels with
  | [] => line
  | lvl :: rest =>
    let addr := a + 8 * (va / 2 ^ (12 + 9 * lvl) % 512)
    if !s.populated addr then line else
    let e : Dword := BitVec.ofNat 64 (natOfBytes (s.peek addr 8))
    if Pte.v e && Pte.reserved e == 0 && Pte.tier e != 3 && !Pte.w e && !Pte.r e && !Pte.x e && Pte.ptrBits e == 0 then
      locateFrom s va rest (Pte.ppn e * 4096) (addr / 256)
    else addr / 256

/-- The clusters an invalidation goes to (R271): the sharers of the directory entry, or every cluster. -/
def State.invalTargets (s : State) (dptb : Dword) (va flags : Nat) : BitVec 128 :=
  let asid := flags % 2 ^ 16
  if flags / 2 ^ 16 = 0 ∧ asid = asidOf dptb then
    match s.directory.find (locateFrom s va [3, 2, 1, 0] (rootOf dptb * 4096) 0) with
    | some m => m
    | none => BitVec.allOnes 128
  else BitVec.allOnes 128

def tlbInvM (h : HartId) (va ops : Dword) : M Unit := do
  let s ← get
  let r := s.hart h
  if s.invals.any fun e => e.2.hart == some h then parkFor .inval
  if r.granted.isSome then pure () else do
    let flags := ops.toNat
    guardM (decide (flags < 2 ^ 18)) (excReserved 1)
    guardM (canonical va || ops.getLsbD 16) (accessFault (← ownAcc h) .store 0 va.toNat)
    releaseM h 3
    let a := va.toNat % 2 ^ 48
    let s ← get
    let targets := s.invalTargets r.dptb a flags
    if targets = 0 then pure () else do
      let inv : Inval := {
        hart := some h
        line := none
        va := a
        asid := flags % 2 ^ 16
        allVa := ops.getLsbD 16
        allAsid := ops.getLsbD 17
        toReceive := targets
        toAck := targets }
      set { s with nextInval := s.nextInval + 1, invals := s.invals.put s.nextInval inv }
      parkFor .inval

def execTlbInv (rs1 rs2 : Reg) (s : State) : Host.Outcome State Fault Refusal :=
  scalar (handlerRule true 0) (fun h => do
    kindM (notEngine h) (.tlbInv rs1 rs2)
    levelS h (.tlbInv rs1 rs2)
    let r ← getHart h
    tlbInvM h (r.rx rs1) (r.rx rs2)) s

end Sys2Proof.Machine
end

