-- ==== Sys2Proof/Machine/Bloom.lean ====
section
/-! DEFINITION. Bloom (R363 to R371): event words, banks, the reorder window, delivery, firing; the CSR writes of its hart
and the events of its row. -/

namespace Sys2Proof.Machine

namespace Event

def ts (e : Dword) : Half := e.extractLsb' 48 16
def w (e : Dword) : Nat := (e.extractLsb' 32 16).toNat
def reserved (e : Dword) : Bool := e.extractLsb' 28 4 != 0#4
def self (e : Dword) : Bool := e.getLsbD 27
def cluster (e : Dword) : Nat := (e.extractLsb' 20 7).toNat
def bank (e : Dword) : Nat := (e.extractLsb' 16 4).toNat
def nidx (e : Dword) : Nat := (e.extractLsb' 0 16).toNat

end Event

/-- sd(a − b): the difference modulo 2^16 as a signed value (R366). -/
def sd (a b : Half) : Int := (a - b).toInt

/-! ## Sending (R363, R370) -/

/-- An event word leaves a unit of cluster `c`. -/
def State.sendEvent (s : State) (unit c : Nat) (e : Dword) : State :=
  { s with
    events := s.events ++ [{
      n := s.nextEvent
      cluster := if Event.self e then c else Event.cluster e
      word := e
      unit := unit }]
    nextEvent := s.nextEvent + 1 }

/-! ## Banks -/

def State.bank (s : State) (c b : Nat) : Option BloomBank := (s.cluster c).bloom.find b
def State.setBank (s : State) (c b : Nat) (x : BloomBank) : State :=
  s.setCluster c { s.cluster c with bloom := (s.cluster c).bloom.put b x }
def modBank (c b : Nat) (f : BloomBank → BloomBank) : M Unit := modify fun s =>
  match s.bank c b with
  | some x => s.setBank c b (f x)
  | none => s

/-- The accessor of Bloom's reads and enqueues for a bank's crew. -/
def bloomAcc (c : Nat) (r : CrewRef) (dptb : Dword) : Acc :=
  { cluster := c, tlb := .engine (c * 7 + 6), who := .engine (c * 7 + 6), dptb := dptb, priv := .u, crew := some r, bound := true }

/-- Key of a neuron's value or auxiliary word. -/
def neuronKey (s : State) (c : Nat) (x : BloomBank) (row n : Nat) : Nat :=
  match s.crewOf x.crew with
  | some crew => crew.accKey c (crew.accRows (s.kernelOf crew).waves) x.rank (row + n / 64) (n % 64)
  | none => 0

def addF32 (a b : Word) : Word := BitVec.ofNat 32 (fadd .f32 { mode := 0 } false (unpack .f32 a.toNat) (unpack .f32 b.toNat)).bits
def mulF32 (a b : Word) : Word := BitVec.ofNat 32 (fmul .f32 { mode := 0 } false (unpack .f32 a.toNat) (unpack .f32 b.toNat)).bits

/-- The leak factor L^k by repeated squaring, low bit first (R367). -/
def leakPow (r p : Word) (k fuel : Nat) : Word :=
  match fuel with
  | 0 => r
  | fuel + 1 =>
    if k = 0 then r else
    let r := if k % 2 = 1 then mulF32 r p else r
    leakPow r (if k / 2 = 0 then p else mulF32 p p) (k / 2) fuel

/-- A cause that stops one firing: entered in the error log as a dropped record (R368). -/
def bloomLog (c : Nat) (r : CrewRef) (e : Exc) : M Unit :=
  modify fun s => s.logError e.code e.detail 8 78 c e.tval.toNat 0 0 (s.crewIx (some r))

/-- fire(n, ts) (R368). -/
def fireM (c : Nat) (x : BloomBank) (n : Nat) (ts : Half) : M Unit := do
  let acc := bloomAcc c x.crew x.dptb
  if x.fire = 1 then do
    match ← attempt (vread acc (x.target + BitVec.ofNat 64 (16 * n)) 16) with
    | .error e => bloomLog c x.crew e
    | .ok bs =>
      let job : FanJob := {
        list := BitVec.ofNat 64 (natOfBytes (bs.take 8))
        count := natOfBytes ((bs.drop 8).take 4)
        ts := ts
        crew := x.crew
        dptb := x.dptb }
      modify fun s =>
        let e := s.engine (c * 7 + x.ch)
        s.setEngine (c * 7 + x.ch) { e with jobs := e.jobs ++ [job] }
  else do
    modify fun s => s.releaseUnit acc.who 1
    match ← attempt (vread acc x.target 32) with
    | .error e => bloomLog c x.crew e
    | .ok bs => do
      let s ← get
      let k := (contOfBytes bs)
      let k : Cont := { k with w0 := k.code ||| BitVec.ofNat 64 (n % 65536 * 2 ^ 48) }
      let o : Origin := { cluster := c, crew := some x.crew, launch := x.launch, dcrew := x.dcrew, dptb := x.dptb }
      match refuseCont s (some x.crew) x.launch k with
      | some d => bloomLog c x.crew (excReserved d)
      | none => do
        let q := o.queued s k
        if k.kind ≠ 1 && s.canStart q.c && !s.queueRoom (s.contCluster c q.c) k.cls 1 then throw .stall
        match ← attempt (spawnM acc o k 1) with
        | .ok _ => pure ()
        | .error e => bloomLog c x.crew e

/-- deliver(e) of R367. -/
def deliver (c b : Nat) (e : Dword) : M Unit := do
  let s ← get
  match s.bank c b with
  | none => pure ()
  | some x => do
    let n := Event.nidx e
    let ts := Event.ts e
    if x.ncount ≤ n then modBank c b fun x => { x with drop := x.drop + 1 }
    else do
      let vk := neuronKey s c x x.vrow n
      let v ← readAcc c vk
      let w : Word := BitVec.ofNat 32 (Event.w e * 65536)
      if x.plain then writeAcc c vk (addF32 v w)
      else do
        let ak := neuronKey s c x x.arow n
        let aux ← readAcc c ak
        let last : Half := aux.setWidth 16
        let rend : Half := aux.extractLsb' 16 16
        let dt := sd ts last
        let v := if 0 < dt then mulF32 v (leakPow 0x3F800000 x.leak dt.toNat 16) else v
        let last := if 0 < dt then ts else last
        let put (v : Word) (rend : Half) : M Unit := do
          writeAcc c vk v
          writeAcc c ak (rend.setWidth 32 <<< 16 ||| last.setWidth 32)
        if 0 < sd rend ts then put v rend
        else do
          let v := addF32 v w
          let crossed : Bool := match fcompare (unpack .f32 v.toNat) (unpack .f32 x.theta.toNat) with
            | some .lt => false
            | some _ => true
            | none => false
          if x.fire != 0 && crossed then do
            let v := match x.reset with
              | 0 => x.vreset
              | 1 => addF32 v (x.theta ^^^ 0x80000000#32)
              | _ => v
            put v (ts + BitVec.ofNat 16 x.refr)
            modBank c b fun x => { x with fires := x.fires + 1 }
            fireM c x n ts
          else put v rend

/-! ## The reorder window (R366) -/

/-- The queued event of least sd(ts − TD), the first accepted among equals. -/
def leastEvent (td : Half) (q : List Dword) : Option Dword :=
  match q with
  | [] => none
  | e :: t =>
    match leastEvent td t with
    | some f => if sd (Event.ts e) td ≤ sd (Event.ts f) td then some e else some f
    | none => some e

/-- The least event is delivered, and TD becomes its timestamp. -/
def deliverLeast (c b : Nat) : M Unit := do
  match (← get).bank c b with
  | none => pure ()
  | some x =>
    match leastEvent x.td x.queue with
    | none => pure ()
    | some e => do
      modBank c b fun x => { x with
        queue := x.queue.erase e
        td := Event.ts e }
      deliver c b e

/-- drain() (R366), or with `all` the delivery of every queued event (R371). -/
def drainBank (c b : Nat) (all : Bool) (fuel : Nat) : M Unit :=
  match fuel with
  | 0 => pure ()
  | fuel + 1 => do
    match (← get).bank c b with
    | none => pure ()
    | some x =>
      if x.queue.any fun e => all || decide (256 ≤ sd x.h (Event.ts e)) then do
        deliverLeast c b
        drainBank c b all fuel
      else pure ()

/-- An accepted event (R366). -/
def acceptEvent (c b : Nat) (x : BloomBank) (e : Dword) : M Unit := do
  let ts := Event.ts e
  if x.plain then deliver c b e
  else if sd ts x.td < 0 then do
    modBank c b fun x => { x with late := x.late + 1 }
    deliver c b e
  else do
    if 1024 ≤ x.queue.length then deliverLeast c b
    modBank c b fun x => { x with
      queue := x.queue ++ [e]
      h := if 0 < sd ts x.h then ts else x.h }
    drainBank c b false 1025

/-- BLOOM_EVENT_ARRIVAL: event `n` arrives, after the earlier ones of its unit to its bank (R370). -/
def execBloomEventArrival (n : Nat) (s : State) : Host.Outcome State Fault Refusal :=
  event (fun s =>
    match s.events.find? fun e => e.n == n with
    | none => s
    | some e =>
      if s.events.any fun f => decide (f.n < n) && f.unit == e.unit && f.cluster == e.cluster && Event.bank f.word == Event.bank e.word
      then s
      else
        let t : State := { s with events := s.events.filter fun f => f.n != n }
        let c := e.cluster
        let b := Event.bank e.word
        let lost := Event.reserved e.word || (unpack .bf16 (Event.w e.word)).isNan
        match t.bank c b with
        | some x =>
          if lost then t.setCluster c { t.cluster c with bloomDrop := (t.cluster c).bloomDrop + 1 }
          else
            match orStall (acceptEvent c b x e.word) t with
            | .ok _ u => u
            | .error _ u => { s with snoops := u.snoops }
        | none => t.setCluster c { t.cluster c with bloomDrop := (t.cluster c).bloomDrop + 1 }) s

/-! ## Installing (R365) -/

/-- A write to dbbank. -/
def bloomInstall (k : Nat) (addr : Dword) : M Unit := do
  let c := k / 7
  guardM (decide (addr.toNat % 8 = 0)) (excDev 4 0 addr)
  let s ← get
  let acc := s.accOf (.engine k)
  let bad := excDev 2 0 addr
  let ds ← vread acc addr 32
  let f (off n : Nat) : Nat := natOfBytes ((ds.drop off).take n)
  guardM (decide (f 0x10 8 % 8 = 0)) (excDev 4 0 (BitVec.ofNat 64 (f 0x10 8)))
  let ys ← vread acc (BitVec.ofNat 64 (f 0x10 8)) 32
  let g (off n : Nat) : Nat := natOfBytes ((ys.drop off).take n)
  let s ← get
  match (s.engine k).crew.bind fun r => (s.crewOf r).map fun x => (r, x) with
  | none => fail bad
  | some (r, crew) => do
    let plain := f 2 1 % 2 == 1
    let waves := (s.kernelOf crew).waves
    let ar := crew.accRows waves
    let rows := (f 8 4 + 63) / 64
    let v := f 4 2
    let a := f 6 2
    guardM (decide (f 0 1 < 16 ∧ f 2 1 < 2 ∧ f 3 1 = 0 ∧ f 0xE 2 = 0 ∧ f 0x18 8 = 0 ∧ 1 ≤ f 8 4 ∧ f 8 4 ≤ 65536)) bad
    guardM (decide (g 0xC 2 ≤ 32767 ∧ g 0xE 1 ≤ 2 ∧ g 0xF 1 ≤ 2 ∧ g 0x11 7 = 0 ∧ (g 0xF 1 = 1 → g 0x10 1 ≤ 3) ∧ (g 0xF 1 = 0 → g 0x18 8 = 0))) bad
    guardM (decide (f 1 1 < waves ∧ v + rows ≤ ar)) bad
    guardM (plain || decide (a + rows ≤ ar ∧ (v + rows ≤ a ∨ a + rows ≤ v))) bad
    guardM (decide (g 0 4 ≤ 0x3F800000)) bad
    guardM (!(unpack .f32 (g 4 4)).isNan) bad
    guardM (((s.bank c (f 0 1)).map fun x => x.crew == r).getD true) bad
    let e := s.engine k
    modify fun s => s.setBank c (f 0 1) {
      crew := r
      launch := (e.running.map (·.launch)).getD 0
      dcrew := e.hart.dcrew
      dptb := e.hart.dptb
      rank := f 1 1
      plain := plain
      vrow := v
      arow := a
      ncount := f 8 4
      leak := BitVec.ofNat 32 (g 0 4)
      theta := BitVec.ofNat 32 (g 4 4)
      vreset := BitVec.ofNat 32 (g 8 4)
      refr := g 0xC 2
      reset := g 0xE 1
      fire := g 0xF 1
      ch := g 0x10 1
      target := BitVec.ofNat 64 (g 0x18 8)
      td := BitVec.ofNat 16 (f 0xC 2)
      h := BitVec.ofNat 16 (f 0xC 2) }

/-- A write to dbfree: the crew's bank goes, with its queue. -/
def State.bloomFree (s : State) (k : Nat) (v : Dword) : State :=
  let c := k / 7
  let b := v.toNat % 16
  match s.bank c b with
  | some x => if some x.crew = (s.engine k).crew then s.setCluster c { s.cluster c with bloom := (s.cluster c).bloom.del b } else s
  | none => s

/-! ## Fan-out (R368) -/

/-- The words of a fan-out list are sent in order. -/
def fanOut (k : Nat) (acc : Acc) (ts : Half) (at' : Dword) (n : Nat) : M Unit :=
  match n with
  | 0 => pure ()
  | n + 1 => do
    let w ← vread64 acc at'
    let e : Dword := (w &&& 0xFFFFFFFFFFFF#64) ||| ((ts + Event.ts w).setWidth 64 <<< 48)
    modify fun s => s.sendEvent ((UnitId.engine k).code) (k / 7) e
    fanOut k acc ts (at' + 8) n

end Sys2Proof.Machine
end

