-- ==== Sys2Proof/Machine/Lane.lean ====
section
/-! DEFINITION. What every lane instruction shares: lane registers and predicates (R161), the decode checks (R157), the
lane handler's restrictions (R397), the wait (R158, R160), PEAK (R162), last-read frees (R153), the signal (R159), the move
of the group's pc. -/

namespace Sys2Proof.Machine

/-! ## Registers and predicates -/

def zeroRow : Lanes Word := Vector.replicate 64 0

/-- The 64 lanes of register v`n`; one that is not allocated reads 0 (R161). While the lane handler runs, v248 to v255
name its own registers (R397). -/
def Wave.row (w : Wave) (n : Nat) : Lanes Word :=
  match w.lhandler with
  | some h => if 248 ≤ n then h.regs.getD n zeroRow else w.v.getD n zeroRow
  | none => w.v.getD n zeroRow

def Wave.setRow (w : Wave) (n : Nat) (r : Lanes Word) : Wave :=
  match w.lhandler with
  | some h => { w with lhandler := some { h with regs := h.regs.put n r } }
  | none => { w with v := w.v.put n r }

def Wave.reg (w : Wave) (n lane : Nat) : Word := (w.row n)[lane]!

/-- The register pair at `n`, low half first (R36). -/
def Wave.pair (w : Wave) (n lane : Nat) : Dword := (w.reg (n + 1) lane).zeroExtend 64 <<< 32 ||| (w.reg n lane).zeroExtend 64

/-- An operand of one register, zero-extended, or of a pair. -/
def Wave.operand (w : Wave) (wide : Bool) (n lane : Nat) : Dword :=
  if wide then w.pair n lane else (w.reg n lane).zeroExtend 64

/-- The lanes of `m` of register v`n` written, the others kept; an empty mask allocates nothing (R161, R166). -/
def Wave.writeReg (w : Wave) (n : Nat) (m : Mask) (f : Nat → Word) : Wave :=
  if m = 0 then w
  else
    let old := w.row n
    ({ w with bad := w.bad.filter fun b => !(b / 32 == n && m.has (b % 32 * 2) && m.has (b % 32 * 2 + 1)) }).setRow n
      (Vector.ofFn fun l => if m.has l.val then f l.val else old[l])

/-- A register or a pair written. -/
def Wave.writeOperand (w : Wave) (wide : Bool) (n : Nat) (m : Mask) (f : Nat → Dword) : Wave :=
  let w := w.writeReg n m fun l => (f l).setWidth 32
  if wide then w.writeReg (n + 1) m fun l => (f l >>> 32).setWidth 32 else w

/-- Predicate p`n`; p0 reads as all ones (R152). -/
def Wave.pred (w : Wave) (n : Nat) : Mask := if n % 8 = 0 then BitVec.allOnes 64 else w.p[n % 8]!

/-- The lanes of `m` of predicate p`n` written from `v`. -/
def Wave.writePred (w : Wave) (n : Nat) (m v : Mask) : Wave :=
  { w with
    p := w.p.set! (n % 8) ((w.pred n &&& ~~~m) ||| (v &&& m))
    bad := if m = BitVec.allOnes 64 then w.bad.filter fun b => b != 8192 + n % 8 else w.bad }

/-- The mask of the lanes that `f` selects. -/
def maskOf (f : Nat → Bool) : Mask := BitVec.ofBoolListLE ((List.range 64).map f)

/-- The lanes of a mask, ascending. -/
def lanesOf (m : Mask) : List Nat := (List.range 64).filter fun l => m.has l

def popMask (m : Mask) : Nat := (lanesOf m).length

/-! ## The instruction that issues -/

/-- A lane instruction at issue: its wave, slot, group, active mask (R152), fields. -/
structure LCtx where
  k : Nat
  sec : Bool
  g : Group
  act : Mask
  w : LaneWord
  i : Instr
deriving DecidableEq, Repr

def getWave (k : Nat) : M Wave := do return (← get).wave k
def modWave (k : Nat) (f : Wave → Wave) : M Unit := modify fun s => s.setWave k (f (s.wave k))

/-- The group in a slot, or the lane handler's, replaced. -/
def Wave.setGroup (w : Wave) (sec : Bool) (g : Option Group) : Wave :=
  match w.lhandler, g with
  | some h, some g => { w with lhandler := some { h with group := g } }
  | some _, none => w
  | none, g => if sec then { w with sec := g } else { w with pri := g }

/-- The registers that an operand field names. -/
def Opd.regs (o : Opd) (ty sty : BitVec 4) (v : Nat) : List Nat :=
  match o with
  | .src | .dst => if ty64 ty then [v, v + 1] else [v]
  | .srcS => if ty64 sty then [v, v + 1] else [v]
  | .src1 => [v]
  | .grp n _ | .dstGrp n _ => (List.range n).map (v + ·)
  | _ => []

def ruleOf (i : Instr) : LaneRule := (laneRule i).getD {}

/-- Registers that the VA field names; QNT reads a group by its source type (R181). -/
def vaRegs (i : Instr) (w : LaneWord) : List Nat :=
  match i with
  | .qnt _ => (List.range (if w.stype = 11 then 8 else 4)).map (w.va.toNat + ·)
  | _ => Opd.regs (ruleOf i).va w.ty w.stype w.va.toNat

def vbRegs (i : Instr) (w : LaneWord) : List Nat :=
  if w.u && (ruleOf i).cls == .L then [] else Opd.regs (ruleOf i).vb w.ty w.stype w.vb.toNat
def vcRegs (i : Instr) (w : LaneWord) : List Nat := Opd.regs (ruleOf i).vc w.ty w.stype w.vc.toNat

/-- Registers that the VD field names; ATOM.CAS on 64-bit words names four (R281). -/
def vdRegs (i : Instr) (w : LaneWord) : List Nat :=
  match i with
  | .atomCas _ => (List.range (if ty64 w.ty then 4 else 2)).map (w.vd.toNat + ·)
  | _ => Opd.regs (ruleOf i).vd w.ty w.stype w.vd.toNat

/-- VD names a source, not a destination. -/
def vdIsSource (i : Instr) : Bool :=
  match i with
  | .st _ | .stn _ | .sts _ | .stq _ | .cwb _ | .cinv _ | .cflush _ | .spawn _ | .fwait _ | .send _ | .brx _ => true
  | _ => false

/-- VD is read as well as written: the operand of an atomic (R280, R281), the elements that CVT keeps (R180). -/
def vdIsRead (i : Instr) (w : LaneWord) : Bool :=
  match i with
  | .atomAdd _ | .atomSwap _ | .atomAnd _ | .atomOr _ | .atomXor _ | .atomMax _ | .atomFadd _ | .atomCas _ => true
  | .cvt _ => decide (tyCount w.stype < tyCount w.ty)
  | _ => vdIsSource i

/-- The lane registers that the instruction writes; ATOM.CAS leaves the new value's (R281). -/
def laneWrites (i : Instr) (w : LaneWord) : List Nat :=
  match i with
  | .atomCas _ => if ty64 w.ty then [w.vd.toNat, w.vd.toNat + 1] else [w.vd.toNat]
  | _ => if vdIsSource i then [] else vdRegs i w

/-- Every lane register that the instruction names; MIG names those of R137. -/
def laneNames (i : Instr) (w : LaneWord) : List Nat :=
  match i with
  | .mig _ => List.range 128
  | _ => vaRegs i w ++ vbRegs i w ++ vcRegs i w ++ vdRegs i w

/-! ## Checks -/

/-- The semaphore fields of an instruction: amounts of its wait and its signal, 0 for none (R147, R149). -/
def waitAmount (i : Instr) (w : LaneWord) : Nat :=
  match (ruleOf i).cls with
  | .LI => 0
  | _ => w.waitt.toNat

def sigAmount (i : Instr) (w : LaneWord) : Nat :=
  match (ruleOf i).cls with
  | .L | .LM => match w.sigi.toNat with
    | 0 => 0
    | 1 => 1
    | 2 => 2
    | _ => 4
  | _ => 0

/-- What the lane handler may not execute (R397), its divergent branches apart. -/
def handlerForbids (i : Instr) (w : LaneWord) : Bool :=
  waitAmount i w != 0 || sigAmount i w != 0 ||
  (laneWrites i w).any (· < 248) ||
  ((ruleOf i).vd == .pw && w.vd != 7) ||
  match i with
  | .rsvSeed _ | .rsvUpd _ | .rsvMrg _ | .rsvFin _ | .rsvGet _ | .rsvDraw _ | .sfx _ _ | .sfxWait _ | .mld _ | .mmaG _
  | .accZero _ | .ringAdv _ | .ringWait _ | .blmEmit _ | .blmRead _ | .blmAdvance _ | .blmFlush _ | .blmClear _ | .resv _
  | .commit _ | .cancel _ | .emitV _ | .emitP _ | .texSmp _ | .texFch _ | .mig _ | .spawn _ | .fwait _ | .send _ | .stq _
  | .barArv _ | .barWait _ | .kwr _ => true
  | _ => false

/-- PEAK of the wave's partition word (R120); a wave without a crew, which only a placed instruction has, has no limit. -/
def State.peak (s : State) (k : Nat) : Nat :=
  match (s.wave k).hart.crew.bind s.crewOf with
  | some c => (c.partition.extractLsb' 21 9).toNat
  | none => 256

/-- The names that the last-read bits free (R153): only when the group holds every lane of the wave, never a name of VD,
and not in the lane handler (R397). -/
def laneFrees (c : LCtx) (w : Wave) : List Nat :=
  if c.g.mask = w.lanes ∧ w.lhandler.isNone then
    ((if c.w.lra then vaRegs c.i c.w else []) ++ (if c.w.lrb then vbRegs c.i c.w else []) ++
      (if c.w.lrc then vcRegs c.i c.w else [])).filter fun n => !(vdRegs c.i c.w).contains n
  else []

/-- The wave's registers without some names. -/
def Wave.freeNames (w : Wave) (ns : List Nat) : Wave := { w with v := w.v.filter fun e => !ns.contains e.1 }

/-- Writes of the names `ns` would take the wave above its PEAK, after the names `fr` are freed (R153, R162). -/
def overPeak (s : State) (k : Nat) (fr ns : List Nat) : Bool :=
  let w := s.wave k
  let kept := w.v.filter fun e => !fr.contains e.1
  let fresh := ns.eraseDups.filter fun n => (Map.find kept n).isNone
  w.lhandler.isNone && !fresh.isEmpty && decide (s.peak k < kept.length + fresh.length)

/-- RESERVED_FIELD with DETAIL 5 before a write that passes PEAK (R162). -/
def peakCheck (c : LCtx) (ns : List Nat) : M Unit := do
  let s ← get
  if c.act ≠ 0 ∧ overPeak s c.k (laneFrees c (s.wave c.k)) ns then failLane 2 5 0 c.g.mask

/-- An outstanding load will write register `n`. -/
def Wave.loading (w : Wave) (n : Nat) : Bool :=
  w.accesses.any fun a => a.op == .load && (a.vd == n || (a.size == 8 && a.vd + 1 == n))

/-- The instruction waits for loads to the registers it names, and, where it writes, for special functions (R206, R328). -/
def scoreboard (c : LCtx) : M Unit := do
  let w ← getWave c.k
  if (laneNames c.i c.w).any w.loading then throw .stall
  if (laneWrites c.i c.w).any fun n => w.sfx.any fun e => e.2.vd == n then throw .stall

/-- The checks that R157 makes at decode, the lane handler's and the slot's, in order. -/
def decodeChecks (c : LCtx) : M Unit := do
  let w ← getWave c.k
  if !laneOk c.i then failLane 2 0 0 c.g.mask
  if w.lhandler.isSome && handlerForbids c.i c.w then failLane 2 11 0 c.g.mask
  let r := ruleOf c.i
  if r.cls == .LM && r.slot && c.w.slot != 0 && (w.buf.find c.w.slot.toNat).isNone then failLane 5 0 0 c.g.mask

/-! ## The wait (R158, R160, R400) -/

/-- The group of the slot changed in place. -/
def modGroup (c : LCtx) (f : Group → Group) : M Unit :=
  modWave c.k fun w => w.setGroup c.sec ((w.group c.sec).map f)

/-- The wait of the instruction has been granted, now or before it trapped. -/
def waitGranted (c : LCtx) (w : Wave) : Bool :=
  (((w.group c.sec).map (·.granted)).getD false) || w.waitHeld == some c.g.pc

/-- The deferred fault of the semaphore, sent by this wave, is raised and cleared (R400). -/
def laneDeferred (c : LCtx) (ref : CrewRef) (crew : Crew) : M Unit := do
  match crew.deferred.find c.w.waitn.toNat with
  | some d =>
    if d.wave = some c.k then do
      modify fun s => s.setCrew ref.cluster ref.slot { crew with deferred := crew.deferred.del c.w.waitn.toNat }
      let mine (x : Waiter) : Bool := match x with
        | .lane k l _ => k == c.k && c.g.mask.has l
        | .hart _ _ => false
      modify fun s =>
        let ix := crew.semIndex c.w.waitn.toNat
        let x := s.sem ref.cluster ix
        s.setSem ref.cluster ix { x with waiters := x.waiters.filter fun x => !mine x }
      modGroup c fun g => { g with waiting := false }
      failLane d.code d.detail d.addr (BitVec.ofNat 64 (2 ^ (d.detail / 256)))
  | none => pure ()

/-- The wait: granted at once when the count suffices and no older wait is pending, else the group joins the arrival order
and the instruction does not issue. -/
def laneWait (c : LCtx) : M Unit := do
  let a := waitAmount c.i c.w
  if a = 0 then pure () else do
  let s ← get
  if waitGranted c (s.wave c.k) then pure () else do
  match (s.wave c.k).hart.crew with
  | none => failLane 2 2 0 c.g.mask
  | some ref =>
    match s.crewOf ref with
    | none => failLane 2 2 0 c.g.mask
    | some crew => do
      laneDeferred c ref crew
      let ix := crew.semIndex c.w.waitn.toNat
      let x := s.sem ref.cluster ix
      if x.waiters.isEmpty && decide (a ≤ x.count) then do
        modify fun s => s.setSem ref.cluster ix { x with count := x.count - a }
        modGroup c fun g => { g with granted := true }
      else do
        if !c.g.waiting then do
          modify fun s => s.setSem ref.cluster ix { x with waiters := x.waiters ++ [.lane c.k (lowLane c.g.mask) a] }
          modGroup c fun g => { g with waiting := true }
        throw .stall

/-! ## Completion -/

/-- The engine has issued an instruction of the wave: round robin, greedy choice (R245 to R249), and the slot whose turn is
next (R132). A class-0 wave in slot 15 does not move the others' turn. -/
def issued (c : LCtx) : M Unit := do
  let s ← get
  let e := c.k / 16
  let slot := c.k % 16
  let g := s.wengine e
  let apart := slot == 15 && (((s.wave c.k).hart.crew.bind s.crewOf).map (·.cls)) == some 0
  let g := { g with issued := g.issued + 1 }
  let g := if apart then g
    else if g.current = some slot then { g with last := slot }
    else { g with last := slot, current := some slot, currentSince := s.clk, switch := false }
  let s := s.setWengine e g
  set (s.setWave c.k { s.wave c.k with turnSec := !c.sec })

/-- The instruction retires: its wait is used up (R160). -/
def retire (c : LCtx) : M Unit := do
  modWave c.k fun w => if w.waitHeld = some c.g.pc ∧ waitAmount c.i c.w ≠ 0 then { w with waitHeld := none } else w
  issued c

/-- The group at another lane pc, its wait used up. -/
def Group.at (g : Group) (pc : Nat) : Group := { g with pc := pc, granted := false, waiting := false }

/-- The group goes on at the next instruction. -/
def advance (c : LCtx) : M Unit := modGroup c fun g => g.at (c.g.pc + 12)

/-- Physical index of a semaphore of the wave's crew, with its cluster. -/
def State.waveSem (s : State) (k n : Nat) : Option (Nat × Nat) :=
  match (s.wave k).hart.crew with
  | some ref => (s.crewOf ref).map fun crew => (ref.cluster, crew.semIndex n)
  | none => none

/-- The signal joins those that land when every earlier access of the wave is performed (R159), and when what
else it waits for has come. -/
def laneSignal (c : LCtx) (on : Await) : M Unit := do
  let s ← get
  let a := sigAmount c.i c.w
  if a ≠ 0 then
    match s.waveSem c.k c.w.sign.toNat with
    | some (_, ix) => modWave c.k fun w => { w with signals := w.signals ++ [{
        sem := ix
        amount := a
        after := w.nextAccess
        on := on
        lane := lowLane c.g.mask
        pc := c.g.pc + 12 }] }
    | none => failLane 2 2 0 c.g.mask

/-- The end of an instruction that does not transfer control: frees, signal, next pc. -/
def completedBy (c : LCtx) (on : Await) : M Unit := do
  laneSignal c on
  let s ← get
  modWave c.k fun w => w.freeNames (laneFrees c (s.wave c.k))
  advance c
  retire c

/-- The end of an instruction whose signal waits for its token, if it has one. -/
def completed (c : LCtx) (token : Option Nat) : M Unit := completedBy c { token := token }

end Sys2Proof.Machine
end

