-- ==== Sys2Proof/Machine/Flags.lean ====
section
/-! DEFINITION. Float-mode state of lanes (R42), rounding modes (R43), the draws of stochastic rounding (R45, R221), and
the write-back of per-lane results with their flags and draws (R166, R167). -/

namespace Sys2Proof.Machine

/-- The draw function (R221): 24 bits from a lane's key and counter. -/
def drawU (key ctr : Dword) : Nat :=
  let x := ctr * 0x9E3779B97F4A7C15#64 + key
  let x := (x ^^^ (x >>> 31)) * 0xBF58476D1CE4E5B9#64
  let x := (x ^^^ (x >>> 29)) * 0x94D049BB133111EB#64
  let x := x ^^^ (x >>> 32)
  (x >>> 40).toNat

/-- Float-mode state of a lane. -/
def Wave.lfmOf (w : Wave) (lane : Nat) : Byte := w.lfm[lane]!

/-- FRM of a lane. -/
def Wave.frm (w : Wave) (lane : Nat) : Nat := (w.lfmOf lane).toNat / 32

/-- The rounding of a lane's element number `n`: a mode of RM, the lane's FRM for code 7, its draw for code 5. -/
def Wave.rnd (w : Wave) (rm lane n : Nat) : Rnd :=
  if rm = 7 then { mode := w.frm lane }
  else if rm = 5 then
    let a := (w.accord[lane]?).getD {}
    { mode := 5, u := drawU a.key (a.ctr + BitVec.ofNat 64 n) }
  else { mode := rm }

/-- Flags ORed into the lfm of the lanes of `m` (R41). -/
def Wave.orFlags (w : Wave) (m : Mask) (f : Nat → Nat) : Wave :=
  { w with lfm := Vector.ofFn fun l => if m.has l.val then w.lfm[l] ||| BitVec.ofNat 8 (f l.val % 32) else w.lfm[l] }

/-- The draw counters of the lanes of `m` moved on by `n` (R221). -/
def Wave.drawn (w : Wave) (m : Mask) (n : Nat) : Wave :=
  if n = 0 then w else
  { w with accord := Vector.ofFn fun l =>
      if m.has l.val then { w.accord[l] with ctr := w.accord[l].ctr + BitVec.ofNat 64 n } else w.accord[l] }

/-- A lane's result: the destination's value and the flags that its elements raised. -/
structure LaneRes where
  val : Dword
  flags : Nat := 0
deriving DecidableEq, Repr

/-- Results written to VD, one register or a pair; flags ORed into lfm; `draws` draws taken, in the active lanes. -/
def writeResults (c : LCtx) (wide : Bool) (draws : Nat) (f : Nat → LaneRes) (w : Wave) : Wave :=
  ((w.writeOperand wide c.w.vd.toNat c.act fun l => (f l).val).orFlags c.act fun l => (f l).flags).drawn c.act draws

end Sys2Proof.Machine
end

