-- ==== Sys2Proof/Machine/Operands.lean ====
section
/-! DEFINITION. Operands of lane instructions: the VB operand from registers, a uniform register or IMM32 (R168, R169), and
operations applied to every element of a packed register (R36, R167). -/

namespace Sys2Proof.Machine

/-- Uniform register `n` of the wave (R168). -/
def Wave.uni (w : Wave) (n : Nat) : Dword := w.hart.rx (BitVec.ofNat 5 n)

/-- IMM32 as the VB operand of a type (R169). -/
def immOperand (ty : BitVec 4) (imm : Word) : Dword :=
  if ty = 4 then imm.signExtend 64
  else if ty = 12 then BitVec.ofNat 64 (roundVal .f64 { mode := 0 } false (unpack .f32 imm.toNat)).bits
  else imm.zeroExtend 64

/-- The VA operand of a lane: a register, or a pair for a 64-bit TYPE. -/
def opA (c : LCtx) (w : Wave) (lane : Nat) : Dword := w.operand (ty64 c.w.ty) c.w.va.toNat lane

/-- The VB operand of a lane: IMM32 in class LI, the uniform register under EXT.U, else the register or pair. -/
def opB (c : LCtx) (w : Wave) (lane : Nat) : Dword :=
  if (ruleOf c.i).cls = .LI then immOperand c.w.ty c.w.imm32
  else if c.w.u then
    let v := w.uni c.w.vb.toNat
    if ty64 c.w.ty then v else v &&& 0xFFFFFFFF#64
  else w.operand (ty64 c.w.ty) c.w.vb.toNat lane

def opC (c : LCtx) (w : Wave) (lane : Nat) : Dword := w.operand (ty64 c.w.ty) c.w.vc.toNat lane
/-- The old value of the destination. -/
def opD (c : LCtx) (w : Wave) (lane : Nat) : Dword := w.operand (ty64 c.w.ty) c.w.vd.toNat lane

/-- Element `i` of `width` bits of an operand. -/
def elem (v : Dword) (width i : Nat) : Nat := bits v.toNat (width * i) width

/-- The results of elements 0 to n − 1 packed, with their flags joined. -/
def packElems (width : Nat) (f : Nat → FRes) (n : Nat) : FRes :=
  match n with
  | 0 => { bits := 0 }
  | n + 1 =>
    let r := packElems width f n
    let e := f n
    { bits := r.bits + e.bits % 2 ^ width * 2 ^ (width * n), flags := r.flags ||| e.flags }

/-- An operation on elements, applied at every element of a lane's operands; `f` gets the element's number. -/
def perElem (ty : BitVec 4) (f : Nat → Nat → Nat → Nat → FRes) (a b c : Dword) : LaneRes :=
  let wd := tyWidth ty
  let r := packElems wd (fun i => f i (elem a wd i) (elem b wd i) (elem c wd i)) (tyCount ty)
  { val := BitVec.ofNat 64 r.bits, flags := r.flags }

/-- An element-wise operation on the operands a, b and c, without flags or draws. -/
def elemInstr (c : LCtx) (f : Nat → Nat → Nat → Nat) (w : Wave) : Wave :=
  writeResults c (ty64 c.w.ty) 0
    (fun l => perElem c.w.ty (fun _ x y z => { bits := f x y z }) (opA c w l) (opB c w l) (opC c w l)) w

/-- An element-wise operation that rounds (R175, R176): one draw per element under RM 5. -/
def roundInstr (c : LCtx) (f : Rnd → Nat → Nat → Nat → FRes) (w : Wave) : Wave :=
  let rm := c.w.rm.toNat
  writeResults c (ty64 c.w.ty) (if rm = 5 then tyCount c.w.ty else 0)
    (fun l => perElem c.w.ty (fun i x y z => f (w.rnd rm l i) x y z) (opA c w l) (opB c w l) (opC c w l)) w

/-- The integer that an element of a type denotes, signed or natural (R34). -/
def elemInt (ty : BitVec 4) (v : Nat) : Int :=
  let n := tyWidth ty
  if tySigned ty && decide (2 ^ (n - 1) ≤ v) then (v : Int) - (2 ^ n : Nat) else v

/-- An exact integer result as an element: modulo 2^N, or saturated (R35). -/
def fitInt (ty : BitVec 4) (sat : Bool) (x : Int) : Nat :=
  let n := tyWidth ty
  let (lo, hi) := intRange (tySigned ty) n
  wrapInt n (if sat then clampInt lo hi x else x)

/-- The format of a floating-point type code. -/
def laneFmt (ty : BitVec 4) : FFmt :=
  match ty.toNat with
  | 9 => .f16 | 10 => .bf16 | 12 => .f64 | 13 => .e4m3 | 14 => .e5m2 | _ => .f32

end Sys2Proof.Machine
end

