-- ==== Sys2Proof/Machine/SfxVal.lean ====
section
/-! DEFINITION. Results of special functions (R327): exact special values, results within their bound. -/

namespace Sys2Proof.Machine

/-! ## Results (R327) -/

/-- The value 2^n in a format, for an integer n, when the format holds it exactly. -/
def pow2Bits (f : FFmt) (n : Int) : Option Nat :=
  let r := roundTo f { mode := 0 } false false 1 n false
  if r.flags = 0 then some r.bits else none

/-- The integer that a finite value is, if it is one. -/
def asInt (n : Bool) (m : Nat) (e : Int) : Option Int :=
  let s (k : Nat) : Int := if n then -(k : Int) else k
  if 0 ≤ e then some (s (m * 2 ^ e.toNat))
  else if m % 2 ^ (-e).toNat = 0 then some (s (m / 2 ^ (-e).toNat)) else none

def oneBits (f : FFmt) : Nat := f.bias * 2 ^ f.mbits
def signed (f : FFmt) (n : Bool) (b : Nat) : Nat := (if n then f.signBit else 0) + b

/-- The result where the spec fixes it: special inputs and exact points; none where it gives only a bound. -/
def sfxExact (f : FFmt) (fn : Nat) (v : FVal) : Option FRes :=
  match v with
  | .nan sg => some (nanRes f sg)
  | .inf n =>
    match fn with
    | 0 => some { bits := signed f n 0 }
    | 1 => some (if n then nanRes f true else { bits := 0 })
    | 2 => some (if n then { bits := 0 } else infRes f false)
    | 3 => some (if n then nanRes f true else infRes f false)
    | 4 | 5 => some (nanRes f true)
    | 6 | 7 => some { bits := signed f n (oneBits f) }
    | _ => some { bits := if n then 0 else oneBits f }
  | .fin n m e =>
    if m = 0 then
      match fn with
      | 0 | 1 => some { infRes f n with flags := Flag.dz }
      | 2 | 5 => some { bits := oneBits f }
      | 3 => some { infRes f true with flags := Flag.dz }
      | 4 | 6 | 7 => some { bits := signed f n 0 }
      | _ => some { bits := oneBits f - 2 ^ f.mbits }
    else
      match fn with
      | 1 => if n then some (nanRes f true) else none
      | 2 =>
        match asInt n m e with
        | some k => if 128 ≤ k ∨ (f.bias : Int) < k then some (infRes f false) else (pow2Bits f k).map fun b => { bits := b }
        | none => if !n && decide (128 ≤ (log2 m : Int) + e ∨ 7 ≤ (log2 m : Int) + e) then some (infRes f false) else none
      | 3 =>
        if n then some (nanRes f true)
        else if m = 2 ^ log2 m then some { bits := (roundVal f { mode := 0 } false (intVal ((log2 m : Int) + e))).bits }
        else none
      | 4 | 5 =>
        match asInt n m (e + 2) with
        | some k =>
          match (k + (if fn = 5 then 1 else 0)) % 4 with
          | 1 => some { bits := oneBits f }
          | 3 => some { bits := signed f true (oneBits f) }
          | _ => some { bits := 0 }
        | none => none
      | _ => none

/-- One of the values within an ulp of an exact result, by its roundings down and up. -/
def nearBits (down up choice : Nat) : Nat :=
  if down = up then (match choice % 3 with
    | 0 => down
    | 1 => down + 1
    | _ => down - 1)
  else if choice % 2 = 0 then down else up

/-! ## Values with a bound

Real functions in fixed point with 400 fraction bits; each is within 2^-300 of the exact value. -/

def fixOne : Int := 2 ^ 400
def fixMul (a b : Int) : Int := a * b / fixOne
def fixDiv (a b : Int) : Int := a * fixOne / b
def fixLn2 : Int := 0xb17217f7d1cf79abc9e3b39803f2f6af40f343267298b62d8a0d175b8baafa2be7b876206debac98559552fb4afa1b10ed2e
def fixPi : Int := 0x3243f6a8885a308d313198a2e03707344a4093822299f31d0082efa98ec4e6c89452821e638d01377be5466cf34e90c6cc0ac
/-- 2/√π. -/
def fixTwoOverRootPi : Int :=
  0x120dd750429b6d11ae3a914fed7fd8688281341d7587cea2e7342b06199cc416180eb39f0b24e1e2281806c12d98f35d77a3e

/-- A finite value. -/
def fixOf (n : Bool) (m : Nat) (e : Int) : Int :=
  let v : Nat := if 0 ≤ e + 400 then m * 2 ^ (e + 400).toNat else m / 2 ^ (-(e + 400)).toNat
  if n then -(v : Int) else v

/-- Terms of a power series from `t`, the one numbered `n`: each is the one before by `r`, and by `num n` over `den n`. -/
def fixSeries (r : Int) (num den : Nat → Int) (t : Int) (n fuel : Nat) : Int :=
  match fuel with
  | 0 => 0
  | fuel + 1 => t + fixSeries r num den (fixMul t r * num n / den n) (n + 1) fuel

/-- e^r for r in [0, 1). -/
def fixExp (r : Int) : Int := fixSeries r (fun _ => 1) (fun n => n + 1) fixOne 0 100

/-- 2^x. -/
def fixExp2 (x : Int) : Int :=
  let k := x / fixOne
  let v := fixExp (fixMul (x % fixOne) fixLn2)
  if 0 ≤ k then v * 2 ^ (min k 1000).toNat else v / 2 ^ (min (-k) 1000).toNat

/-- log2 of m·2^e above 0, by the series of artanh. -/
def fixLog2 (m : Nat) (e : Int) : Int :=
  let k := log2 m
  let f := fixOf false m (-(k : Int))
  let z := fixDiv (f - fixOne) (f + fixOne)
  let s := fixSeries (fixMul z z) (fun n => 2 * n + 1) (fun n => 2 * n + 3) z 0 140
  ((k : Int) + e) * fixOne + fixDiv (2 * s) fixLn2

/-- sin(2πx). -/
def fixSin (x : Int) : Int :=
  let a := fixMul (x % fixOne) (2 * fixPi)
  fixSeries (fixMul a a) (fun _ => -1) (fun n => (2 * n + 2) * (2 * n + 3)) a 0 80

/-- A value within ±280: past them the functions that use it are constant in every format. -/
def fixClamp (x : Int) : Int := max (-280 * fixOne) (min (280 * fixOne) x)

/-- 1/(1 + e^−x). -/
def fixSigm (x : Int) : Int := fixDiv fixOne (fixOne + fixExp2 (fixDiv (-(fixClamp x)) fixLn2))

/-- tanh x. -/
def fixTanh (x : Int) : Int :=
  let t := fixExp2 (fixDiv (-2 * fixClamp (if x < 0 then -x else x)) fixLn2)
  let v := fixDiv (fixOne - t) (fixOne + t)
  if x < 0 then -v else v

/-- erf x: from 8 on it is 1 but for less than 2^-90. -/
def fixErf (x : Int) : Int :=
  if 8 * fixOne ≤ x then fixOne - 1 else if x ≤ -8 * fixOne then 1 - fixOne
  else fixMul fixTwoOverRootPi (fixSeries (fixMul x x) (fun n => -(2 * (n : Int) + 1)) (fun n => (n + 1) * (2 * n + 3)) x 0 400)

/-- The exact result of the functions for which the spec gives a bound. -/
def sfxReal (fn : Nat) (n : Bool) (m : Nat) (e : Int) : Int :=
  let x := fixOf n m e
  match fn with
  | 2 => fixExp2 x
  | 3 => fixLog2 m e
  | 4 => fixSin x
  | 5 => fixSin (x + fixOne / 4)
  | 6 => fixTanh x
  | 7 => fixErf x
  | _ => fixSigm x

/-- A unit in the last place of a format at a value. -/
def fixUlp (f : FFmt) (y : Int) : Int :=
  let e := max ((log2 y.natAbs : Int) - 400 - f.mbits) f.minExp
  2 ^ (e + 400).toNat

/-- The bound of R327 at a result. -/
def sfxBound (f : FFmt) (fn x : Nat) (y : Int) : Int :=
  let single := f.mbits == 23
  let absolute : Int := if single then 2 ^ 378 else if f.mbits = 10 then 2 ^ 390 else 2 ^ 392
  let near : Bool := match unpack f x with
    | .fin n m e => decide (fixOne / 2 ≤ fixOf n m e ∧ fixOf n m e ≤ 2 * fixOne)
    | _ => false
  if fn = 4 ∨ fn = 5 ∨ (fn = 3 ∧ near = true) then absolute
  else if single then 2 * fixUlp f y else fixUlp f y

/-- A bounded result: the free bits, where they are a value within the bound, else the nearest. -/
def sfxNear (f : FFmt) (fn x free : Nat) (y : Int) : Nat :=
  let b := free % 2 ^ f.width
  let within : Bool := match unpack f b with
    | .fin n m e => decide ((fixOf n m e - y).natAbs ≤ (sfxBound f fn x y).natAbs + 2 ^ 100)
    | _ => false
  let r := if within then b else (roundVal f { mode := 0 } false (.fin (y < 0) y.natAbs (-400))).bits
  if (fn = 4 ∨ fn = 5) ∧ r = f.signBit then 0 else r

/-- One element of a special function. Between the exact points it is some value within the bound (log 6), a function of the
input bits. -/
def sfxElem (fn : Nat) (ty : BitVec 4) (x : Nat) : FRes :=
  let f := laneFmt ty
  let v := unpack f x
  match sfxExact f fn v with
  | some r => r
  | none =>
    let free := (Config.sfxBits (BitVec.ofNat 8 fn) ty (BitVec.ofNat 32 x)).toNat
    let one : FVal := .fin false 1 0
    match v with
    | .fin n m e =>
      match fn with
      | 0 => { bits := nearBits (fdiv f { mode := 1 } false one v).bits (fdiv f { mode := if n then 2 else 3 } false one v).bits free }
      | 1 =>
        let k := 2 * extraBits + (if e % 2 = 0 then 0 else 1)
        let q := isqrt (m * 2 ^ k)
        let sq := q * q != m * 2 ^ k
        let root : FVal := .fin false q ((e - k) / 2)
        let lo := (fdiv f { mode := 1 } false one root).bits
        { bits := nearBits lo (if sq then lo + 1 else (fdiv f { mode := 3 } false one root).bits) free }
      | _ => { bits := sfxNear f fn x free (sfxReal fn n m e) }
    | _ => { bits := free % 2 ^ f.width }

/-- The result of one lane, both elements of a packed type. -/
def sfxLane (op : SfxOp) (l : Nat) : LaneRes :=
  perElem op.ty (fun _ x _ _ => sfxElem op.fn.toNat op.ty x) ((op.src[l]!).zeroExtend 64) 0 0

/-- The results of an outstanding instruction written in the lanes of `m`. -/
def Wave.applySfx (w : Wave) (op : SfxOp) (m : Mask) : Wave :=
  (w.writeReg op.vd m fun l => (sfxLane op l).val.setWidth 32).orFlags m fun l => (sfxLane op l).flags

end Sys2Proof.Machine
end

