-- ==== Sys2Proof/Machine/LaneFrame.lean ====
section
/-! DEFINITION. The frame of every lane instruction: its checks and its wait in the order of R157 and R200, its effect, and
how it ends, by a trap of the wave, a stall or completion. -/

namespace Sys2Proof.Machine

/-! ## The frame -/

/-- How a lane instruction ends: a cause becomes a trap of the wave at the instruction; a stall leaves it to be tried
again. -/
def laneEnd (c : LCtx) (r : EStateM.Result Stop State Unit) : State :=
  match r with
  | .ok _ t => t
  | .error (.lane code detail tval failed) t =>
    t.trapLanes c.k c.sec c.g code detail tval failed (waitAmount c.i c.w != 0 && waitGranted c (t.wave c.k))
  | .error (.exc e) t =>
    t.trapLanes c.k c.sec c.g e.code e.detail e.tval c.g.mask (waitAmount c.i c.w != 0 && waitGranted c (t.wave c.k))
  | .error _ t => t

/-- The instruction with its group and active mask. -/
def lctx (w : Wave) (k : Nat) (sec : Bool) (g : Group) (i : Instr) (f : LaneWord) : LCtx :=
  let p := w.pred f.gp.toNat
  { k := k, sec := sec, g := g, act := g.mask &&& (if f.gn then ~~~p else p), w := f, i := i }

/-- Registers that the instruction reads. -/
def laneReads (i : Instr) (w : LaneWord) : List Nat :=
  vaRegs i w ++ vbRegs i w ++ vcRegs i w ++ (if vdIsRead i w then vdRegs i w else [])

/-- The outstanding tokens whose results the instruction may see: those whose register it reads, and all for LFM.RD. -/
def seenTokens (c : LCtx) (w : Wave) : List SfxOp :=
  (w.sfx.map (·.2)).filter fun op =>
    (laneReads c.i c.w).contains op.vd || (match c.i with
      | .lfmRd _ => true
      | _ => false)

/-- Each lane reads the old or the new value (R328): the results of some lanes arrive before the read. -/
def earlyResults (k : Nat) (ops : List SfxOp) : M Unit :=
  match ops with
  | [] => pure ()
  | op :: t => do
    let some' ← freeDwordM
    modWave k fun w => w.applySfx op (op.mask &&& w.lanes &&& some')
    earlyResults k t

/-- Predicates that the instruction reads: its guard, its operands and a branch's condition. -/
def predReads (i : Instr) (w : LaneWord) : List Nat :=
  let r := ruleOf i
  [w.gp.toNat] ++ (if r.va == .pr then [w.va.toNat] else []) ++ (if r.vb == .pr then [w.vb.toNat] else []) ++
    (if r.vc == .pr then [w.vc.toNat] else []) ++
    (match i with
      | .bra _ => [w.vd.toNat % 8]
      | _ => [])

/-- Words of each lane's Accord that the instruction reads (R220, R224); a
stochastic rounding draws (R45). -/
def accordReads (i : Instr) (w : LaneWord) : List Nat :=
  match i with
  | .rsvUpd _ | .rsvMrg _ | .rsvFin _ | .rsvGet _ | .rsvDraw _ => [0, 1, 2, 3]
  | _ => if (ruleOf i).rm == .round && w.rm == 5 then [2, 3] else []

/-- The lanes for which the instruction reads a poisoned word of a register, predicate or Accord. -/
def poisonedLanes (c : LCtx) (w : Wave) : Mask :=
  if w.bad.isEmpty then 0
  else if (predReads c.i c.w).any fun p => p % 8 != 0 && w.bad.contains (8192 + p % 8) then c.g.mask
  else maskOf fun l => c.act.has l &&
    ((laneReads c.i c.w).any (fun n => w.bad.contains (n * 32 + l / 2)) ||
      (accordReads c.i c.w).any fun j => w.bad.contains (8200 + 4 * l + j))

/-- POISON with DETAIL 3 (R413). -/
def poisonCheck (c : LCtx) : M Unit := do
  let m := poisonedLanes c ((← get).wave c.k)
  if m ≠ 0 then failLane 22 3 0 m

/-- The safe-point table of the crew's image names an instruction (R85, R154): code address within the section of a
role. -/
def State.safeEntry (s : State) (crew : Crew) (role off : Nat) (lane : Bool) : Bool :=
  match s.launches.find crew.launch with
  | some l => l.img.safes.any fun e => e.lane == lane && e.role == role && e.off == off
  | none => false

/-- Matrix commands of a wave, or of its crew where the wave that issued one is not known: none is in the queue, at the
latch or running (R405). -/
def State.matrixQuiet (s : State) (k : Nat) (ref : CrewRef) : Bool :=
  let m := (s.cluster ref.cluster).matrix
  let rank := (s.wave k).rank
  !((m.slots.getD ref.slot {}).arrivals.any fun a => a.wave == k) && m.cmds.all fun x => x.crew != ref || match x.op with
    | .mld _ _ _ _ => false
    | .mma _ ms => ms.all fun e => e.1 != rank

/-- The group stands at an honoured safe point of a pre-emption (R405), and what the wave issued has been performed. -/
def honoured (s : State) (c : LCtx) : Bool :=
  let w := s.wave c.k
  match w.hart.crew with
  | some ref =>
    match s.crewOf ref with
    | some crew =>
      crew.preempt && c.w.sm && w.lhandler.isNone && s.safeEntry crew w.code.role c.g.pc true && s.matrixQuiet c.k ref &&
        (w.hart.kicks.all fun e => e.2.outstanding == 0 && !e.2.unmet) && w.sfx.isEmpty && s.waveSendsGone c.k &&
        w.accesses.isEmpty && w.signals.isEmpty
    | none => false
  | none => false

/-- A wave at an honoured safe point stops there. -/
def stopAtSafe (c : LCtx) : M Unit := do
  let s ← get
  if honoured s c then do
    set (s.setWave c.k { s.wave c.k with saved := true })
    throw .stall

/-- A lane instruction of the slot that acts: decode checks, the uniform check `uni`, the wait, then `eff`, which ends
with the group's next pc (R157, R200). -/
def laneInstr (i : Instr) (f : LaneWord) (uni eff : LCtx → M Unit) (s : State) : Host.Outcome State Fault Refusal :=
  match s.actor with
  | some (.lanes k sec) =>
    match (s.wave k).group sec with
    | some g =>
      let c := lctx (s.wave k) k sec g i f
      .next (laneEnd c ((do
        decodeChecks c
        stopAtSafe c
        uni c
        laneWait c
        scoreboard c
        earlyResults k (seenTokens c (s.wave k))
        poisonCheck c
        eff c) s))
    | none => .fault .wrongActor
  | _ => .fault .wrongActor

/-- An instruction that computes: PEAK, its effect on the wave, completion. -/
def laneWave (i : Instr) (f : LaneWord) (eff : LCtx → Wave → Wave) (s : State) : Host.Outcome State Fault Refusal :=
  laneInstr i f (fun _ => pure ()) (fun c => do
    peakCheck c (laneWrites i f)
    modWave c.k (eff c)
    completed c none) s

/-- A reserved opcode or function of a lane word: ILLEGAL_OPCODE with FUNC·256 + OP (R157, R165). -/
def execReservedLaneOpcode (w : BitVec 96) (s : State) : Host.Outcome State Fault Refusal :=
  match s.actor with
  | some (.lanes k sec) =>
    match (s.wave k).group sec with
    | some g =>
      let detail := (w.extractLsb' 8 8).toNat * 256 + (w.extractLsb' 0 8).toNat
      .next (s.trapLanes k sec g 1 detail 0 g.mask false)
    | none => .fault .wrongActor
  | _ => .fault .wrongActor

end Sys2Proof.Machine
end

