-- ==== Sys2Proof/Machine/LaneControl.lean ====
section
/-! DEFINITION. Lane control: branches, reconvergence, EXIT, MIG, barriers, SPAWN, FWAIT, SEND (R132 to R136, R199 to R218). -/

namespace Sys2Proof.Machine

/-! ## Per-lane checks -/

/-- DETAIL of a cause that lane `l` raises (R195, R393). -/
def laneDetail (l : Nat) (e : Exc) : Nat :=
  if e.code = 7 ∨ e.code = 8 ∨ e.code = 9 ∨ e.code = 10 then 256 * l + e.detail
  else if e.code = 4 ∨ e.code = 6 then l
  else e.detail

/-- What `f` raises on each of the lanes where it fails. -/
def laneFailures (ls : List Nat) (f : Nat → M Unit) : M (List (Nat × Exc)) :=
  match ls with
  | [] => pure []
  | l :: t => do
    let r ← attempt (f l)
    let rest ← laneFailures t f
    pure (match r with
      | .ok _ => rest
      | .error e => (l, e) :: rest)

/-- One check over the lanes: the cause of the lowest failing lane, all failing lanes in p7 (R195, R397). -/
def laneCheck (ls : List Nat) (f : Nat → M Unit) : M Unit := do
  match ← laneFailures ls f with
  | [] => pure ()
  | (l, e) :: t => failLane e.code (laneDetail l e) e.tval (maskOf fun j => j == l || t.any fun x => x.1 == j)

/-- `f` on each lane, in order, with the answers. -/
def forLanes {α : Type} (ls : List Nat) (f : Nat → M α) : M (List α) :=
  match ls with
  | [] => pure []
  | l :: t => do
    let a ← f l
    let rest ← forLanes t f
    pure (a :: rest)

/-! ## Groups, fragments, records -/

/-- A primary slot that frees takes the secondary's group; a free slot takes the oldest fragment (R132). -/
def Wave.settle (w : Wave) : Wave :=
  let up (w : Wave) : Wave :=
    match w.pri, w.sec with
    | none, some g => { w with pri := some g, sec := none }
    | _, _ => w
  let fill (w : Wave) : Wave :=
    match w.sec, w.frags with
    | none, g :: t => { w with sec := some g, frags := t }
    | _, _ => w
  fill (up (fill (up w)))

/-- A group takes a free slot, or joins the fragments (R134). -/
def Wave.place (w : Wave) (g : Group) (clk : Nat) : Wave :=
  if w.pri.isNone then { w with pri := some g }
  else if w.sec.isNone then { w with sec := some g }
  else { w with frags := w.frags ++ [{ g with since := clk }] }

/-- The lowest free record number (R136). -/
def Wave.newRec (w : Wave) : Nat := ((List.range 64).find? fun i => i != 0 && (w.recs.find i).isNone).getD 64

/-- Lanes leave the pending masks of a record and its ancestors (R135). -/
def dropPending (recs : Map RecRec) (m : Mask) (token fuel : Nat) : Map RecRec :=
  match fuel with
  | 0 => recs
  | fuel + 1 =>
    if token = 0 then recs else
    match recs.find token with
    | some r => dropPending (recs.put token { r with pending := r.pending &&& ~~~m }) m r.parent fuel
    | none => recs

/-- Records whose pending mask is empty: one with arrivals forms its group, one without is freed (R134). -/
def Wave.closeRecs (w : Wave) (clk : Nat) (ks : List Nat) : Wave :=
  match ks with
  | [] => w
  | k :: t =>
    match w.recs.find k with
    | some r =>
      if r.pending = 0 then
        let w := { w with recs := w.recs.del k }
        let w := if r.arrived = 0 then w
          else w.place { mask := r.arrived, pc := r.addr + 12, token := r.parent } clk
        w.closeRecs clk t
      else w.closeRecs clk t
    | none => w.closeRecs clk t

/-- Lanes leave the wave from the group in a slot, whose other lanes go on at the next instruction (R135). -/
def Wave.leave (w : Wave) (sec : Bool) (g : Group) (m : Mask) (clk : Nat) : Wave :=
  let rest := g.mask &&& ~~~m
  let next : Option Group := if rest = 0 then none else some ({ g with mask := rest }.at (g.pc + 12))
  let w := { w with
    lanes := w.lanes &&& ~~~m
    laneJoin := w.laneJoin.filter fun e => !Mask.has m e.1
    laneGfx := w.laneGfx.filter fun e => !Mask.has m e.1
    recs := dropPending w.recs m g.token 64 }
  let w := (w.setGroup sec next).settle
  w.closeRecs clk (w.recs.map (·.1))

/-! ## Spill of fragments and records (R136) -/

/-- A spilled fragment: mask, lane pc, token. -/
def fragBytes (g : Group) : List Byte := leBytes 8 g.mask.toNat ++ leBytes 4 g.pc ++ leBytes 2 g.token ++ [0, 0]

/-- The fragments beyond the four on chip, oldest first, as the frame holds them. -/
def Wave.spilled (w : Wave) : List Byte := (w.frags.drop 4).flatMap fragBytes

/-- Spills and fills that a change of the wave makes: fragments beyond four from the frame's first byte on, records beyond
eight from byte 0x800 on, whose content the spec does not lay out. A fault is the instruction's. -/
def spillM (c : LCtx) (old new : Wave) : M Unit := do
  let s ← get
  let acc := s.laneAcc c.k
  let run (va : Dword) (bs : List Byte) : M Unit := do
    match ← attempt (vwrite acc va bs) with
    | .ok _ => pure ()
    | .error e => failLane e.code (laneDetail (lowLane c.g.mask) e) e.tval c.g.mask
  match new.frame with
  | none => pure ()
  | some f => do
    if new.spilled ≠ old.spilled then
      if new.spilled ≠ [] then run f new.spilled
      else do
        match ← attempt (vread acc f old.spilled.length) with
        | .ok _ => pure ()
        | .error e => failLane e.code (laneDetail (lowLane c.g.mask) e) e.tval c.g.mask
    if old.recs.length < new.recs.length ∧ 8 < new.recs.length then do
      let a ← freeDwordM
      let b ← freeDwordM
      let d ← freeDwordM
      let e ← freeDwordM
      run (f + BitVec.ofNat 64 (0x800 + 32 * (new.recs.length - 9)))
        (leBytes 8 a.toNat ++ leBytes 8 b.toNat ++ leBytes 8 d.toNat ++ leBytes 8 e.toNat)

/-- The wave after a change of its groups, with the spills that this makes. -/
def regroup (c : LCtx) (f : Wave → Wave) : M Unit := do
  let old ← getWave c.k
  let new := f old
  spillM c old new
  modWave c.k fun _ => new

/-- An operation that may fail without a cause. -/
def quietly (m : M Unit) : M Unit := fun s =>
  match m s with
  | .ok _ t => .ok () t
  | .error _ t => .ok () t

/-- The same for lanes that leave: what precedes cannot be undone, so a spill that faults is not made. -/
def regroupQuiet (c : LCtx) (f : Wave → Wave) : M Unit := do
  let old ← getWave c.k
  let new := f old
  quietly (spillM c old new)
  modWave c.k fun _ => new

/-! ## Branches (R202 to R205) -/

/-- A group divides: the first part stays in its slot, the second takes the other slot when that is free, the rest become
fragments, all under one new record (R133, R204). -/
def Wave.diverge (w : Wave) (sec : Bool) (g : Group) (addr clk : Nat) (parts : List (Mask × Nat)) : Wave :=
  let r := w.newRec
  let w := { w with recs := w.recs.put r { addr := addr, parent := g.token, pending := g.mask, arrived := 0 } }
  let mk (p : Mask × Nat) : Group := { mask := p.1, pc := p.2, token := r }
  match parts with
  | [] => w
  | p :: t =>
    let w := w.setGroup sec (some (mk p))
    t.foldl (fun w q => w.place (mk q) clk) w

/-- A lane pc plus an offset in parcels. -/
def parcels (pc : Nat) (off : Int) : Nat := ((pc : Int) + 4 * off).toNat

/-- In the lane handler, offsets have no section to leave. -/
def inSection (w : Wave) (off : Int) : Bool := w.lhandler.isSome || decide (0 ≤ off ∧ off < w.code.size)

/-- The virtual address of a lane offset. -/
def Wave.offsetVa (w : Wave) (off : Nat) : Dword := w.codeAddr { mask := 0, pc := off }

/-- A branch that would divide the lane handler's group (R397). -/
def noHandler (c : LCtx) : M Unit := do
  if (← getWave c.k).lhandler.isSome then failLane 2 11 0 c.g.mask

/-- BRA: the taken lanes are the active ones whose condition holds (R202, R203). -/
def braM (c : LCtx) : M Unit := do
  let s ← get
  let w := s.wave c.k
  let p := w.pred (c.w.vd.toNat % 8)
  let taken := c.act &&& (if c.w.vd.getLsbD 3 then ~~~p else p)
  let fall := c.g.mask &&& ~~~taken
  let target : Int := (c.g.pc : Int) + 4 * c.w.off24.toInt
  if taken ≠ 0 ∧ inSection w target = false then
    failLane 10 (256 * lowLane taken) (w.offsetVa (target % (2 ^ 48 : Nat)).toNat) taken
  let t := (target % (2 ^ 48 : Nat)).toNat
  if taken = 0 then advance c
  else if fall = 0 then modGroup c fun g => g.at t
  else do
    noHandler c
    let major := popMask fall ≥ popMask taken
    let parts := if major then [(fall, c.g.pc + 12), (taken, t)] else [(taken, t), (fall, c.g.pc + 12)]
    regroup c fun w => w.diverge c.sec c.g (parcels c.g.pc c.w.rcv.toInt) s.clk parts
  retire c

def execBra (w : LaneWord) (s : State) : Host.Outcome State Fault Refusal :=
  laneInstr (.bra w) w (fun _ => pure ()) braM s

/-- The lanes by target, each target once. -/
def targetSets (ls : List (Nat × Nat)) : List (Mask × Nat) :=
  ((ls.map (·.2)).eraseDups).map fun t => (maskOf fun l => ls.any fun e => e.1 == l && e.2 == t, t)

/-- Larger sets first, equal ones by target (R204). -/
def setBefore (a b : Mask × Nat) : Bool :=
  decide (popMask b.1 < popMask a.1) || (popMask a.1 == popMask b.1 && decide (a.2 < b.2))

def insertSet (x : Mask × Nat) (l : List (Mask × Nat)) : List (Mask × Nat) :=
  match l with
  | [] => [x]
  | y :: t => if setBefore x y then x :: y :: t else y :: insertSet x t

/-- BRX: each active lane goes to the offset in its register (R204). -/
def brxM (c : LCtx) : M Unit := do
  let s ← get
  let w := s.wave c.k
  let off (l : Nat) : Nat := (w.reg c.w.vd.toNat l).toNat
  laneCheck (lanesOf c.act) fun l => guardM (off l % 12 == 0) (excDev 4 0 (w.offsetVa (off l)))
  laneCheck (lanesOf c.act) fun l => guardM (inSection w (off l)) (excDev 10 0 (w.offsetVa (off l)))
  let target (l : Nat) : Nat := if Mask.has c.act l then off l else c.g.pc + 12
  let sets := (targetSets ((lanesOf c.g.mask).map fun l => (l, target l))).foldr insertSet []
  match sets with
  | [] => advance c
  | [x] => modGroup c fun g => g.at x.2
  | _ => do
    noHandler c
    regroup c fun w => w.diverge c.sec c.g (parcels c.g.pc c.w.rcv.toInt) s.clk sets
  retire c

def execBrx (w : LaneWord) (s : State) : Host.Outcome State Fault Refusal :=
  laneInstr (.brx w) w (fun _ => pure ()) brxM s

/-! ## RECONV (R134, R206) -/

/-- The group of a slot arrives at its record's address. -/
def Wave.arrive (w : Wave) (sec : Bool) (g : Group) (r : RecRec) : Wave :=
  let r := { r with arrived := r.arrived ||| g.mask, pending := r.pending &&& ~~~g.mask }
  if r.pending = 0 then
    { (w.setGroup sec (some { mask := r.arrived, pc := r.addr + 12, token := r.parent })) with recs := w.recs.del g.token }
  else ({ (w.setGroup sec none) with recs := w.recs.put g.token r }).settle

def reconvM (c : LCtx) : M Unit := do
  let w ← getWave c.k
  match w.recs.find c.g.token with
  | some r =>
    if c.g.token ≠ 0 ∧ r.addr = c.g.pc then regroup c fun w => w.arrive c.sec c.g r else advance c
  | none => advance c
  retire c

def execReconv (w : LaneWord) (s : State) : Host.Outcome State Fault Refusal :=
  laneInstr (.reconv w) w (fun _ => pure ()) reconvM s

/-! ## Lanes that leave -/

/-- Every earlier access of the wave is performed, or the instruction waits (R159, R207). -/
def drainM (k : Nat) : M Unit := do
  if !(← getWave k).accesses.isEmpty then throw .stall

/-- Every outstanding special function of the wave has arrived, or the instruction waits (R328). -/
def sfxDrained (k : Nat) : M Unit := do
  if !(← getWave k).sfx.isEmpty then throw .stall

/-- Earlier sends of the wave have left the send queue, or the instruction waits (R218). -/
def sendsDrained (k : Nat) : M Unit := do
  if !(← get).waveSendsGone k then throw .stall

/-- Lanes leave; barriers are looked at again; a wave without lanes ends. -/
def departM (c : LCtx) (m : Mask) : M Unit := do
  let s ← get
  regroupQuiet c fun w => w.leave c.sec c.g m s.clk
  modify fun s => s.barCover c.k (List.range 16)
  retire c
  endWave c.k

/-- The wave holds an arrival mask at some barrier, which lanes that leave may complete as a release (R210). -/
def Wave.arriving (w : Wave) : Bool := w.bars.any fun e => e.2.arrived != 0

/-- The join pointers that some lanes hold, each with the number of its holders, by first holder (R207). -/
def heldJoins (w : Wave) (ls : List Nat) : List (Dword × Nat) :=
  let js := ls.filterMap w.laneJoin.find
  (js.eraseDups.filter (· != 0)).map fun j => (j, (js.filter (· == j)).length)

def discharge (acc : Acc) (o : Origin) (js : List (Dword × Nat)) : M Unit :=
  match js with
  | [] => pure ()
  | (j, n) :: t => do
    let _ ← joinAddM acc o j (-(BitVec.ofNat 64 n))
    discharge acc o t

/-- The records of lanes that discharge their duties (R378). -/
def dischargeLanes (rs : List GfxRef) : M Unit :=
  match rs with
  | [] => pure ()
  | r :: t => do
    dischargeGfx (some r)
    dischargeLanes t

/-- The lane handler's run ends and the uniform hart resumes (R397). -/
def endLaneHandler (k : Nat) : M Unit :=
  modWave k fun w => { w with lhandler := none, hart := { w.hart with run := .running } }

/-- A virtual address of 48 bits as an address. -/
def canonOf (j : Dword) : Dword := (j.setWidth 48).signExtend 64

/-- EXIT (R207): duties are discharged after the release, then the active lanes leave. -/
def exitM (c : LCtx) : M Unit := do
  let w ← getWave c.k
  if w.lhandler.isSome then do
    drainM c.k
    endLaneHandler c.k
    issued c
  else if c.act = 0 then do
    advance c
    retire c
  else do
    sfxDrained c.k
    sendsDrained c.k
    let ls := lanesOf c.act
    let js := heldJoins w ls
    if !js.isEmpty || w.arriving then drainM c.k
    let acc := (← get).laneAcc c.k
    laneCheck (ls.filter fun l => (w.laneJoin.getD l 0) != 0) fun l => do
      let _ ← resolve acc (canonOf (w.laneJoin.getD l 0)) 8 .store
    if !js.isEmpty then do
      modify fun s => s.releaseUnit acc.who 3
      discharge acc (originOf (← get) (.uniform c.k)) js
    dischargeLanes (ls.filterMap w.laneGfx.find)
    departM c c.act

def execExit (w : LaneWord) (s : State) : Host.Outcome State Fault Refusal :=
  laneInstr (.exit w) w (fun _ => pure ()) exitM s

/-! ## MIG (R137 to R139, R208) -/

/-- The strand-code address that the kind-0 migration entry at a lane offset names. -/
def State.laneMigTarget (s : State) (k off : Nat) : Option Nat :=
  let w := s.wave k
  match s.launches.find w.hart.launch with
  | none => none
  | some l =>
    (l.img.migs.find? fun e => e.lane && e.srcRole == w.code.role && e.src == off).map fun e =>
      sectionAddr l.img.strandCode e.dstRole e.dst

/-- MIG's uniform check, whatever the guard (R139, R141, R154). -/
def migCheck (c : LCtx) : M Unit := do
  let s ← get
  if !c.w.mh || (s.laneMigTarget c.k c.g.pc).isNone then failLane 13 0 0 c.g.mask
  match (s.wave c.k).hart.crew.bind s.crewOf with
  | some crew => if (s.kernelOf crew).strands = 0 then failLane 2 12 0 c.g.mask
  | none => failLane 2 12 0 c.g.mask

/-- The join pointer that a continuation of lane `l` takes: its own, or the wave's for a start lane of a wave with a
duty (R208). -/
def Wave.joinFor (w : Wave) (l : Nat) : Dword :=
  match w.laneJoin.find l with
  | some j => j
  | none => if w.hart.duty then w.hart.join else 0

/-- The start lanes of some lanes, when the wave holds a duty: each new continuation adds one to its JOIN (R129). -/
def Wave.newDuties (w : Wave) (ls : List Nat) : Nat :=
  if w.hart.duty && w.hart.join != 0 then (ls.filter fun l => (w.laneJoin.find l).isNone).length else 0

/-- `n` added to the wave's JOIN, a release at package scope (R208, R216). -/
def addDuties (k n : Nat) : M Unit := do
  if n ≠ 0 then do
    let s ← get
    let acc := s.laneAcc k
    let _ ← vrmw acc (canonOf (s.wave k).hart.join) 8 fun v => some ((v + n) % 2 ^ 64)
    modify fun s => s.releaseUnit acc.who 3

/-- The migration block of a lane (R137, R138). -/
def laneBlock (w : Wave) (l : Nat) : List Byte :=
  blockBytes (fun i => w.pair (2 * i) l) ((w.lfm[l]?).getD 0) fun j => w.pair (64 + 2 * j) l

def writeBlocks (acc : Acc) (w : Wave) (bs : List (Nat × Dword)) : M Unit :=
  match bs with
  | [] => pure ()
  | (l, va) :: t => do
    vwrite acc va (laneBlock w l)
    writeBlocks acc w t

/-- The continuations of migrated lanes join the crew's queue, ascending. -/
def pushMigrants (o : Origin) (w : Wave) (code cls : Nat) (bs : List (Nat × Dword)) : M Unit :=
  match bs with
  | [] => pure ()
  | (l, va) :: t => do
    let k : Cont := {
      w0 := BitVec.ofNat 64 (code + l * 2 ^ 48)
      w1 := va &&& 0xFFFFFFFFFFFF#64
      w2 := w.joinFor l &&& 0xFFFFFFFFFFFF#64
      w3 := BitVec.ofNat 64 (cls % 4 * 4 + 2 ^ 17 + 2 ^ 18) }
    modify fun s => s.pushCont o.cluster ({ o with gfx := w.laneGfx.find l }.queued s k)
    pushMigrants o w code cls t

def migM (c : LCtx) : M Unit := do
  if c.act = 0 then do
    advance c
    retire c
  else do
    let s ← get
    let w := s.wave c.k
    match w.hart.crew.bind fun ref => (s.crewOf ref).map fun crew => (ref, crew), s.laneMigTarget c.k c.g.pc with
    | some (ref, crew), some code => do
      sfxDrained c.k
      sendsDrained c.k
      drainM c.k
      let ls := lanesOf c.act
      match ← askBlocks ref (.lane c.k (lowLane c.act) ls.length) with
      | none => throw .stall
      | some free => do
        let acc := (← get).laneAcc c.k
        let bs := ls.zip (free.map (s.blockAddr crew))
        laneCheck ls fun l => do
          let _ ← resolve acc ((bs.find? fun b => b.1 == l).map (·.2) |>.getD 0) 512 .store
        let n := w.newDuties ls
        if n ≠ 0 then
          laneCheck ls fun _ => do
            let _ ← resolve acc (canonOf w.hart.join) 8 .store
        addDuties c.k n
        writeBlocks acc w bs
        modify fun s => s.releaseUnit acc.who 1
        modify fun s => s.useBlocks ref free
        pushMigrants (originOf (← get) (.uniform c.k)) w code crew.cls bs
        departM c c.act
    | _, _ => failLane 13 0 0 c.g.mask

def execMig (w : LaneWord) (s : State) : Host.Outcome State Fault Refusal :=
  laneInstr (.mig w) w migCheck migM s

/-! ## Barriers (R209 to R211) -/

/-- Only waves that the front end started take part (R209). -/
def barCheck (c : LCtx) : M Unit := do
  if !(← getWave c.k).front then failLane 2 6 0 c.g.mask

def barArvM (c : LCtx) : M Unit := do
  let s ← get
  let w := s.wave c.k
  let b := c.w.vd.toNat
  match w.hart.crew.bind fun ref => (s.crewOf ref).map fun crew => (ref, crew) with
  | none => failLane 2 6 0 c.g.mask
  | some (ref, crew) => do
    let o := s.barrier crew b
    let x := w.bars.getD b {}
    if x.held && x.ticket == o.phase then throw .stall
    let x := if x.held then { x with held := false, arrived := 0 } else x
    let x := { x with arrived := x.arrived ||| c.g.mask }
    if w.lanes &&& ~~~x.arrived = 0 then do
      drainM c.k
      modify fun s => (s.releaseUnit (.wave c.k) 1).barArrive c.k ref crew b
    else modWave c.k fun w => { w with bars := w.bars.put b x }
    advance c
    retire c

def execBarArv (w : LaneWord) (s : State) : Host.Outcome State Fault Refusal :=
  laneInstr (.barArv w) w barCheck barArvM s

def barWaitM (c : LCtx) : M Unit := do
  let s ← get
  let w := s.wave c.k
  let b := c.w.vd.toNat
  match w.hart.crew.bind s.crewOf with
  | none => failLane 2 6 0 c.g.mask
  | some crew => do
    let x := w.bars.getD b {}
    if x.held && x.ticket == (s.barrier crew b).phase then throw .stall
    advance c
    retire c

def execBarWait (w : LaneWord) (s : State) : Host.Outcome State Fault Refusal :=
  laneInstr (.barWait w) w barCheck barWaitM s

/-! ## SAFE, YIELD, NOP (R213) -/

def stepOver (c : LCtx) : M Unit := do
  advance c
  retire c

def execSafe (w : LaneWord) (s : State) : Host.Outcome State Fault Refusal :=
  laneInstr (.safe w) w (fun _ => pure ()) stepOver s

def execNop (w : LaneWord) (s : State) : Host.Outcome State Fault Refusal :=
  laneInstr (.nop w) w (fun _ => pure ()) stepOver s

/-- YIELD: the engine's next choice is another wave (R213). -/
def execYield (w : LaneWord) (s : State) : Host.Outcome State Fault Refusal :=
  laneInstr (.yield w) w (fun _ => pure ()) (fun c => do
    advance c
    retire c
    modify fun s =>
      let e := s.wengine (c.k / 16)
      if e.current = some (c.k % 16) then s.setWengine (c.k / 16) { e with switch := true } else s) s

/-! ## SPAWN (R214) -/

/-- The address that a register pair holds in a lane. -/
def pairVa (w : Wave) (n l : Nat) : Dword := w.pair n l

/-- Some class queue lacks room for the children that would join it (R128). -/
def lacksRoom (s : State) (o : Origin) (cs : List Cont) : Bool :=
  cs.any fun c =>
    let q := o.queued s c
    c.kind != 1 && s.canStart q.c &&
      !s.queueRoom (s.contCluster o.cluster q.c) c.cls (cs.filter fun d => d.kind != 1 && d.cls == c.cls).length

/-- One added to each JOIN, lane by lane. -/
def addJoins (acc : Acc) (cs : List Cont) : M Unit :=
  match cs with
  | [] => pure ()
  | c :: t => do
    if c.join ≠ 0 then do
      let _ ← vrmw acc (canonOf c.join) 8 fun v => some ((v + 1) % 2 ^ 64)
    addJoins acc t

def enqueueEach (acc : Acc) (o : Origin) (cs : List Cont) : M Unit :=
  match cs with
  | [] => pure ()
  | c :: t => do
    enqueue acc o c 64
    enqueueEach acc o t

/-- A refusal of R126 or R141 as an exception. -/
def refuseM (k : Nat) (c : Cont) : M Unit := do
  let s ← get
  let r := (s.wave k).hart
  match refuseCont s r.crew r.launch c with
  | some d => fail (excReserved d)
  | none => pure ()

def spawnLanes (c : LCtx) : M Unit := do
  let ls := lanesOf c.act
  let s ← get
  let w := s.wave c.k
  let acc := s.laneAcc c.k
  let va (l : Nat) : Dword := pairVa w c.w.vd.toNat l
  laneCheck ls fun l => aligned (va l) 32
  laneCheck ls fun l => guardM (canonical (va l)) (accessFault acc .load 0 (va l).toNat)
  laneCheck ls fun l => do
    let _ ← vread acc (va l) 32
  let cs ← forLanes ls fun l => do return contOfBytes (← vread acc (va l) 32)
  laneCheck ls fun l => do refuseM c.k (contOfBytes (← vread acc (va l) 32))
  laneCheck ls fun l => do
    let j := (contOfBytes (← vread acc (va l) 32)).join
    if j ≠ 0 then do
      let _ ← resolve acc (canonOf j) 8 .store
  let o := originOf (← get) (.uniform c.k)
  if lacksRoom (← get) o cs then throw .stall
  drainM c.k
  addJoins acc cs
  modify fun s => s.releaseUnit acc.who 3
  enqueueEach acc o cs
  stepOver c

def execSpawn (w : LaneWord) (s : State) : Host.Outcome State Fault Refusal :=
  laneInstr (.spawn w) w (fun _ => pure ()) spawnLanes s

/-! ## FWAIT (R215, R216) -/

/-- One lane waits on a future: its block's record gets the lane's JOIN and joins the waiters. -/
def futWaitLane (k : Nat) (acc : Acc) (handle : Nat) (va join : Dword) (gfx : Option GfxRef) : M Unit := do
  let e ← futEntry handle
  let rec' := contOfBytes (← vread acc va 32)
  let c := { rec' with w2 := join &&& 0xFFFFFFFFFFFF#64 }
  vwrite acc (va + 16) (leBytes 8 c.w2.toNat)
  let t ← translate acc (va.toNat % 2 ^ 48) .store
  let s ← get
  let r := (s.wave k).hart
  modify fun s => s.setFuture (futKey handle) { e with
    st := 1
    waiters := e.waiters ++ [.cont c t.pa r.launch r.crew (k / 128) r.dcrew r.dptb gfx] }

def futWaitLanes (k : Nat) (acc : Acc) (w : Wave) (n : Nat) (ls : List Nat) : M Unit :=
  match ls with
  | [] => pure ()
  | l :: t => do
    futWaitLane k acc (w.reg n l).toNat (pairVa w (n + 2) l) (w.joinFor l) (w.laneGfx.find l)
    futWaitLanes k acc w n t

/-- The per-lane checks of FWAIT, in order (R216). -/
def fwaitCheck (c : LCtx) (acc : Acc) (w : Wave) (entry : Nat → Future) : M Unit := do
  let ls := lanesOf c.act
  let va (l : Nat) : Dword := pairVa w (c.w.vd.toNat + 2) l
  laneCheck ls fun l => do
    let _ ← futEntry (w.reg c.w.vd.toNat l).toNat
  laneCheck ls fun l => guardM ((entry l).st != 3) (excDev 22 1 0)
  laneCheck ls fun l => aligned (va l) 64
  laneCheck ls fun l => do
    match ← attempt (vread acc (va l) 32) with
    | .ok bs => refuseM c.k (contOfBytes bs)
    | .error _ => pure ()
  laneCheck ls fun l => do
    let _ ← resolve acc (va l) 64 .store

/-- What holds the instruction back while lanes would leave (R159, R218). -/
def fwaitHold (c : LCtx) (w : Wave) : M Unit := do
  sendsDrained c.k
  if w.arriving then drainM c.k

/-- The increments that leaving start lanes need, checked and made (R208, R216). -/
def fwaitDuties (c : LCtx) (acc : Acc) (w : Wave) (wait : List Nat) : M Unit := do
  if w.newDuties wait ≠ 0 then
    laneCheck wait fun _ => do
      let _ ← resolve acc (canonOf w.hart.join) 8 .store
  addDuties c.k (w.newDuties wait)

/-- Special functions and PEAK, where the instruction has lanes for them. -/
def sfxDrainedFor (c : LCtx) : M Unit := if c.act = 0 then pure () else sfxDrained c.k
def peakCheckFor (c : LCtx) (m : Mask) (ns : List Nat) : M Unit := if m = 0 then pure () else peakCheck c ns

def fwaitM (c : LCtx) : M Unit := do
  sfxDrainedFor c
  let s ← get
  let w := s.wave c.k
  let acc := s.laneAcc c.k
  let n := c.w.vd.toNat
  let entry (l : Nat) : Future := s.futures.getD (futKey (w.reg n l).toNat) {}
  fwaitCheck c acc w entry
  let ready := maskOf ((lanesOf c.act).filter fun l => (entry l).st == 2).contains
  let wait := (lanesOf c.act).filter fun l => (entry l).st != 2
  peakCheckFor c ready [n, n + 1]
  let give : M Unit := modWave c.k fun w => w.writeOperand true n ready fun l => (entry l).value
  if wait.isEmpty then do
    give
    stepOver c
  else do
    fwaitHold c w
    fwaitDuties c acc w wait
    futWaitLanes c.k acc w n wait
    give
    departM c (maskOf wait.contains)

def execFwait (w : LaneWord) (s : State) : Host.Outcome State Fault Refusal :=
  laneInstr (.fwait w) w (fun _ => pure ()) fwaitM s

/-! ## SEND (R217, R218) -/

/-- The sender word of a lane (R217). -/
def laneSender (k l : Nat) (pri : Bool) : Dword :=
  waveIdent k ||| BitVec.ofNat 64 (l * 2 ^ 16) ||| 0x4000000000000000#64 ||| (if pri then 0x8000000000000000#64 else 0)

/-- The destination that a lane's register pair names, or none when it is refused. -/
def laneDest (s : State) (w : Wave) (n l : Nat) : Option Msg := s.destOf w.hart.crew (w.pair n l) false false

def pushSends (k : Nat) (ms : List Msg) : M Unit :=
  match ms with
  | [] => pure ()
  | m :: t => do
    modify fun s => s.pushSend (8192 + k / 16) (.msg m)
    pushSends k t

def sendLanes (c : LCtx) : M Unit := do
  let ls := lanesOf c.act
  let s ← get
  let w := s.wave c.k
  let acc := s.laneAcc c.k
  let n := c.w.vd.toNat
  let va (l : Nat) : Dword := pairVa w (n + 2) l
  laneCheck ls fun l => guardM (laneDest s w n l).isSome (excReserved 1)
  laneCheck ls fun l => aligned (va l) 64
  laneCheck ls fun l => do
    let _ ← vread acc (va l) 64
  let free := (← get).sendFree (8192 + c.k / 16)
  if free < ls.length then failLane 14 free 0 c.act
  drainM c.k
  let ms ← forLanes ls fun l => do
    let bs ← vread acc (va l) 64
    match laneDest s w n l with
    | some m => pure { m with sender := laneSender c.k l m.pri, payload := bs, wave := some c.k }
    | none => pure {}
  modify fun s => s.releaseUnit acc.who 3
  pushSends c.k ms
  stepOver c

def execSend (w : LaneWord) (s : State) : Host.Outcome State Fault Refusal :=
  laneInstr (.send w) w (fun _ => pure ()) sendLanes s

end Sys2Proof.Machine
end

