-- ==== Sys2Proof/Machine/Sillage.lean ====
section
/-! DEFINITION. Sillage (R351 to R361): mask programs, their installation and interval evaluation, tile requests. -/

namespace Sys2Proof.Machine

def State.silCrew (s : State) (c slot : Nat) : SilCrew := (s.cluster c).sillage.getD slot {}
def State.setSilCrew (s : State) (c slot : Nat) (x : SilCrew) : State :=
  s.setCluster c { s.cluster c with sillage := (s.cluster c).sillage.put slot x }

/-- The slot of the crew of an engine's running kick. -/
def State.kickSlot (s : State) (k : Nat) : Nat := (((s.engine k).crew).map (·.slot)).getD 0

/-! ## Programs (R354 to R356) -/

namespace Mask

def op (w : Word) : Nat := (w.extractLsb' 0 5).toNat
def rd (w : Word) : Nat := (w.extractLsb' 5 3).toNat
def ra (w : Word) : Nat := (w.extractLsb' 8 3).toNat
def rb (w : Word) : Nat := (w.extractLsb' 11 3).toNat
def sel (w : Word) : Nat := (w.extractLsb' 14 2).toNat
def imm (w : Word) : Int := (w.extractLsb' 16 16).toInt
/-- The bits that an operation uses (R355). -/
def used (op : Nat) : Word :=
  let rd : Word := 0xE0
  let ra : Word := 0x700
  let rb : Word := 0x3800
  0x1F ||| match op with
  | 0 => rd ||| 0xC000
  | 1 => rd ||| 0xFFFF0000
  | 4 => rd ||| ra ||| 0xFFFF0000
  | 5 => rd ||| ra ||| 0x1F0000
  | 12 => rd ||| ra
  | 13 => ra
  | _ => rd ||| ra ||| rb
/-- The registers that an operation reads. -/
def sources (w : Word) : List Nat :=
  match op w with
  | 0 | 1 => []
  | 4 | 5 | 12 | 13 => [ra w]
  | _ => [ra w, rb w]
/-- The sources are booleans. -/
def wantsBool (w : Word) : Bool := decide (10 ≤ op w)
/-- The result is a boolean. -/
def givesBool (w : Word) : Bool := decide (6 ≤ op w)

/-- Kinds of the registers written so far: true for booleans. -/
def kindsAfter (ks : Map Bool) (w : Word) : Map Bool := if op w = 13 then ks else ks.put (rd w) (givesBool w)

/-- The reason for which a word is refused, in the order of R356. -/
def badWord (ks : Map Bool) (last : Bool) (w : Word) : Option Nat :=
  if 14 ≤ op w then some 2
  else if w &&& ~~~(used (op w)) != 0 then some 3
  else if (sources w).any fun r => (ks.find r).isNone then some 4
  else if (sources w).any fun r => ks.getD r false != wantsBool w then some 5
  else if (op w == 13) != last then some 6
  else none

/-- The first refused word, by index from `i`, with the reason. -/
def check (ks : Map Bool) (i : Nat) (ws : List Word) : Option (Nat × Nat) :=
  match ws with
  | [] => none
  | w :: t =>
    match badWord ks t.isEmpty w with
    | some r => some (i, r)
    | none => check (kindsAfter ks w) (i + 1) t

/-- The program has an S.LD of input `n`. -/
def reads (p : List Word) (n : Nat) : Bool := p.any fun w => op w == 0 && sel w == n

/-- A range of integers, or a boolean as one of [1,1], [0,0], [0,1]. -/
abbrev Iv := Int × Int

def ofBool (yes no : Bool) : Iv := if yes then (1, 1) else if no then (0, 0) else (0, 1)
def notIv (a : Iv) : Iv := (1 - a.2, 1 - a.1)
def fits (a : Iv) : Bool := decide (-(2 ^ 63) ≤ a.1 ∧ a.1 < 2 ^ 63 ∧ -(2 ^ 63) ≤ a.2 ∧ a.2 < 2 ^ 63)

/-- The result of one operation (R355). -/
def apply (w : Word) (inputs : List Iv) (a b : Iv) : Iv :=
  match op w with
  | 0 => inputs.getD (sel w) (0, 0)
  | 1 => (imm w, imm w)
  | 2 => (a.1 + b.1, a.2 + b.2)
  | 3 => (a.1 - b.2, a.2 - b.1)
  | 4 => (a.1 + imm w, a.2 + imm w)
  | 5 => let n : Int := 2 ^ (w.extractLsb' 16 5).toNat
    (a.1 / n, a.2 / n)
  | 6 => ofBool (a.2 < b.1) (b.2 ≤ a.1)
  | 7 => ofBool (a.2 ≤ b.1) (b.2 < a.1)
  | 8 => ofBool (a.1 = a.2 && a.2 = b.1 && b.1 = b.2) (a.2 < b.1 || b.2 < a.1)
  | 9 => notIv (ofBool (a.1 = a.2 && a.2 = b.1 && b.1 = b.2) (a.2 < b.1 || b.2 < a.1))
  | 10 => (min a.1 b.1, min a.2 b.2)
  | 11 => (max a.1 b.1, max a.2 b.2)
  | 12 => notIv a
  | _ => a

/-- The program's result on ranges of q, k, dq and dk; none when a bound leaves the signed 64-bit range. -/
def eval (inputs : List Iv) (regs : Map Iv) (p : List Word) : Option Iv :=
  match p with
  | [] => some (0, 0)
  | w :: t =>
    let r := apply w inputs (regs.getD (ra w) (0, 0)) (regs.getD (rb w) (0, 0))
    if !fits r then none
    else if op w = 13 then some r
    else eval inputs (regs.put (rd w) r) t

end Mask

/-- dsstat (R352). -/
def SilCrew.stat (x : SilCrew) : Dword := BitVec.ofNat 64 (x.done * 2 ^ 32 + (if x.pv then 256 else 0) + x.prog.length)

def wordsOf (bs : List Byte) (n : Nat) : List Word :=
  (List.range n).map fun i => BitVec.ofNat 32 (natOfBytes ((bs.drop (4 * i)).take 4))

def State.setProg (s : State) (k : Nat) (p : List Word) (pv : Bool) : State :=
  let slot := s.kickSlot k
  s.setSilCrew (k / 7) slot { s.silCrew (k / 7) slot with
    prog := p
    pv := pv }

/-- A write to dsprog (R353, R356): the block is copied, checked and installed. -/
def silInstall (k : Nat) (addr : Dword) : M Unit := do
  guardM (decide (addr.toNat % 8 = 0)) (excDev 4 0 addr)
  let acc := (← get).accOf (.engine k)
  let head ← vread acc addr 8
  let len := (head.headD 0).toNat
  let refuse (i reason : Nat) (at' : Dword) : M Unit := do
    modify fun s => s.setProg k [] false
    fail (excDev 16 (16 * i + reason) at')
  if len = 0 ∨ 32 < len then refuse 0 1 addr
  if (head.drop 1).any (· != 0) then refuse 0 3 addr
  let ws := wordsOf (← vread acc (addr + 8) (4 * len)) len
  match Mask.check [] 1 ws with
  | some (i, r) => refuse i r (addr + BitVec.ofNat 64 (4 + 4 * i))
  | none => modify fun s => s.setProg k ws true

/-! ## Requests (R357) -/

def tileField (bs : List Byte) (off n : Nat) : Nat := natOfBytes ((bs.drop off).take n)

/-- A record that the program reads, checked. -/
def identRecord (acc : Acc) (used : Bool) (at' req : Dword) : M (BitVec 256) := do
  if !used then pure 0
  else do
    guardM (at' != 0) (excDev 2 0 req)
    let r : BitVec 256 := BitVec.ofNat 256 (natOfBytes (← vread acc at' 32))
    guardM (BufRec.esize r == 3 && BufRec.ndim r == 0 && BufRec.swz r == 0 && decide (BufRec.bnd r < 2)) (excDev 2 0 req)
    pure r

/-- The checks of a request, before anything is written. -/
def tileStart (k : Nat) (addr : Dword) : M TileReq := do
  let s ← get
  let x := s.silCrew (k / 7) (s.kickSlot k)
  guardM x.pv (excDev 16 0 0)
  guardM (decide (addr.toNat % 64 = 0)) (excDev 4 0 addr)
  let acc := s.accOf (.engine k)
  let bs ← vread acc addr 64
  let bad := excDev 2 0 addr
  let f := tileField bs
  guardM (f 0xC 4 == 0 && f 0x38 8 == 0) bad
  let nqt := f 8 2
  let nkt := f 10 2
  guardM (decide (1 ≤ nqt ∧ 1 ≤ nkt ∧ nqt * nkt ≤ 4096)) bad
  guardM (decide (f 0 4 + 128 * nqt ≤ 2 ^ 32 ∧ f 4 4 + 128 * nkt ≤ 2 ^ 32)) bad
  guardM (f 0x28 8 % 256 == 0) bad
  guardM (!(Mask.reads x.prog 2 && f 0x10 8 == 0) && !(Mask.reads x.prog 3 && f 0x18 8 == 0)) bad
  let dq ← identRecord acc (Mask.reads x.prog 2) (BitVec.ofNat 64 (f 0x10 8)) addr
  let dk ← identRecord acc (Mask.reads x.prog 3) (BitVec.ofNat 64 (f 0x18 8)) addr
  pure {
    addr := addr
    q0 := f 0 4
    k0 := f 4 4
    nqt := nqt
    nkt := nkt
    dq := dq
    dk := dk
    cls := BitVec.ofNat 64 (f 0x20 8)
    mask := BitVec.ofNat 64 (f 0x28 8)
    qlen := f 0x30 4
    klen := f 0x34 4 }

/-! ## Tiles (R358 to R361) -/

/-- Document identifiers of some positions (R358): element p of the record. -/
def readIdents (acc : Acc) (r : BitVec 256) (ps : List Nat) : M (List (Nat × Nat)) :=
  match ps with
  | [] => pure []
  | p :: t => do
    let bs ←
      if p < BufRec.ext r 0 then vread acc (bufVa r (4 * p)) 4
      else if BufRec.bnd r = 1 then fail (excDev 6 p 0)
      else pure []
    let rest ← readIdents acc r t
    pure ((p, natOfBytes bs) :: rest)

/-- A run of positions with one identifier: first, last, identifier. -/
structure PosRun where
  lo : Nat
  hi : Nat
  doc : Nat
deriving DecidableEq, Repr

/-- Maximal runs of consecutive positions that share an identifier (R359). -/
def runsOf (ps : List (Nat × Nat)) : List PosRun :=
  match ps with
  | [] => []
  | (p, d) :: t =>
    match runsOf t with
    | r :: rest => if r.doc = d then { r with lo := p } :: rest else { lo := p, hi := p, doc := d } :: r :: rest
    | [] => [{ lo := p, hi := p, doc := d }]

def pointIv (n : Nat) : Mask.Iv := (n, n)

/-- The program on a rectangle. -/
def rectResult (p : List Word) (q k : PosRun) : Option Mask.Iv :=
  Mask.eval [(q.lo, q.hi), (k.lo, k.hi), pointIv q.doc, pointIv k.doc] [] p

/-- A rectangle with its result. -/
abbrev Rect := PosRun × PosRun × Mask.Iv

/-- Every rectangle evaluated; none when a bound leaves the range. -/
def rects (p : List Word) (l : List (PosRun × PosRun)) : Option (List Rect) :=
  match l with
  | [] => some []
  | (q, k) :: t =>
    match rectResult p q k, rects p t with
    | some r, some rest => some ((q, k, r) :: rest)
    | _, _ => none

/-- A query may attend to a key (R360): the rectangle's result, or that of the single point. -/
def mayAttend (p : List Word) (rs : List Rect) (q k : Nat) : Bool :=
  match rs.find? fun r => decide (r.1.lo ≤ q ∧ q ≤ r.1.hi ∧ r.2.1.lo ≤ k ∧ k ≤ r.2.1.hi) with
  | some (a, b, r) =>
    if r.1 = r.2 then r.1 == 1
    else
      match rectResult p { a with lo := q, hi := q } { b with lo := k, hi := k } with
      | some v => v.1 == 1
      | none => false
  | none => false

/-- The 16 bytes of a mask row. -/
def maskRow (f : Nat → Bool) : List Byte :=
  (List.range 16).map fun b => BitVec.ofBoolListLE ((List.range 8).map fun j => f (8 * b + j)) |>.setWidth 8

/-- A tile's class and, for a partial one, its mask. -/
def tileClass (p : List Word) (rs : List Rect) (q k : Nat) : Nat × List Byte :=
  if rs.all fun r => r.2.2 == (0, 0) then (0, [])
  else if rs.all fun r => r.2.2 == (1, 1) then (2, [])
  else (1, (List.range 128).flatMap fun i => maskRow fun j => mayAttend p rs (q + i) (k + j))

/-- One tile of the request (R361). -/
def doTile (k : Nat) (r : TileReq) : M Unit := do
  let s ← get
  let slot := s.kickSlot k
  let x := s.silCrew (k / 7) slot
  let acc := s.accOf (.engine k)
  let t := r.next
  let q := r.q0 + 128 * (t / r.nkt)
  let kk := r.k0 + 128 * (t % r.nkt)
  let qs := ((List.range 128).map (q + ·)).filter fun p => decide (p - r.q0 < r.qlen)
  let ks := ((List.range 128).map (kk + ·)).filter fun p => decide (p - r.k0 < r.klen)
  let qd ← if Mask.reads x.prog 2 then readIdents acc r.dq qs else pure (qs.map fun p => (p, 0))
  let kd ← if Mask.reads x.prog 3 then readIdents acc r.dk ks else pure (ks.map fun p => (p, 0))
  let pairs := (runsOf qd).flatMap fun a => (runsOf kd).map fun b => (a, b)
  guardM (decide (pairs.length * x.prog.length ≤ 64)) (excDev 17 (16 * t + 1) r.addr)
  match rects x.prog pairs with
  | none => fail (excDev 17 2 r.addr)
  | some rs => do
    let (cls, mask) := tileClass x.prog rs q kk
    let at' := r.cls + BitVec.ofNat 64 t
    let _ ← resolve acc at' 1 .store
    if cls = 1 then vwrite acc (r.mask + BitVec.ofNat 64 (2048 * t)) mask
    modify fun s => s.releaseUnit acc.who (((s.engine k).running.map (·.scope)).getD 4)
    vwrite acc at' [BitVec.ofNat 8 cls]
    modify fun s =>
      let x := s.silCrew (k / 7) slot
      s.setSilCrew (k / 7) slot { x with
        done := x.done + 1
        skip := if cls = 0 then x.skip + 1 else x.skip
        part := if cls = 1 then x.part + 1 else x.part
        full := if cls = 2 then x.full + 1 else x.full }

/-- One part of the work of a write to dstile: the request's checks, or its next tile. True when it has ended. -/
def silStep (k : Nat) (addr : Dword) : M Bool := do
  let e := (← get).engine k
  match e.tiles with
  | none => do
    let r ← tileStart k addr
    modify fun s =>
      let slot := s.kickSlot k
      let s := s.setSilCrew (k / 7) slot { s.silCrew (k / 7) slot with done := 0 }
      s.setEngine k { s.engine k with tiles := some r }
    pure false
  | some r =>
    if r.next < r.nqt * r.nkt then do
      doTile k r
      modify fun s => s.setEngine k { s.engine k with tiles := some { r with next := r.next + 1 } }
      pure false
    else do
      modify fun s => s.setEngine k { s.engine k with tiles := none }
      pure true

/-- The whole of a write to dstile. -/
def silAll (k : Nat) (addr : Dword) (fuel : Nat) : M Unit :=
  match fuel with
  | 0 => pure ()
  | fuel + 1 => do
    if !(← silStep k addr) then silAll k addr fuel

/-- The work of an engine's register write outside an instruction: its effect, or the end of the kick. -/
def engineWork (k : Nat) (m : M Unit) (s : State) : State :=
  if (s.engine k).running.isNone then s else
  match m s with
  | .ok _ t => t
  | .error (.exc e) t => t.endKick k e.code e.detail e.tval
  | .error _ t => t

/-- SILLAGE_INSTALL. -/
def execSillageInstall (cluster : Nat) (addr : Dword) (s : State) : Host.Outcome State Fault Refusal :=
  event (engineWork (cluster * 7 + 5) (silInstall (cluster * 7 + 5) addr)) s

/-- SILLAGE_TILE_REQUEST. -/
def execSillageTileRequest (cluster : Nat) (addr : Dword) (s : State) : Host.Outcome State Fault Refusal :=
  event (engineWork (cluster * 7 + 5) (silAll (cluster * 7 + 5) addr 4200)) s

end Sys2Proof.Machine
end

