-- ==== Sys2Proof/Machine/EngineCsr.lean ====
section
/-! DEFINITION. The CSRs of the engine harts: copy channels (R322), the matrix sequencer (R334 to R338), Sillage (R351,
R352), Bloom (R364). -/

namespace Sys2Proof.Machine

/-- The CSR belongs to the kind of engine that instance `k` is. -/
def engineCsr (k a : Nat) : Bool :=
  if k % 7 < 4 then decide (0x8D0 ≤ a ∧ a ≤ 0x8D2)
  else if k % 7 = 4 then a == 0x8E0 || decide (0x8E2 ≤ a ∧ a ≤ 0x8E6)
  else if k % 7 = 5 then decide (0x8F0 ≤ a ∧ a ≤ 0x8F5)
  else decide (0x8F8 ≤ a ∧ a ≤ 0x8FA)

/-! ## Matrix sequencer -/

/-- The matrix configuration of a crew slot. -/
def State.matCrew (s : State) (c slot : Nat) : MatCrew := (s.cluster c).matrix.slots.getD slot {}
def State.setMatCrew (s : State) (c slot : Nat) (m : MatCrew) : State :=
  s.modMatrix c fun x => { x with slots := x.slots.put slot m }

/-- The slot that the sequencer's CSRs address (R334). -/
def State.matSlot (s : State) (k : Nat) : Nat := s.kickSlot k

namespace Gang

def count (g : Dword) : Nat := (g.extractLsb' 24 3).toNat
def mbase (g : Dword) : Nat := (g.extractLsb' 32 5).toNat
def mcnt (g : Dword) : Nat := (g.extractLsb' 40 6).toNat
def rank (g : Dword) (i : Nat) : Nat := (g.extractLsb' (4 * i) 4).toNat
/-- Wave ranks of the gang members, in gang order. -/
def ranks (g : Dword) : List Nat := (List.range (count g)).map (rank g)
/-- The fields that exist (R335). -/
def mask : Dword := 0x80003F1F07FFFFFF#64

/-- The checks of R338 on a write with V set. -/
def ok (g : Dword) (waves : Nat) : Bool :=
  decide (2 ≤ count g ∧ count g ≤ 6) && (ranks g).eraseDups.length == count g && (ranks g).all (· < waves) &&
    mbase g % 2 == 0 && decide (1 ≤ mcnt g ∧ mcnt g ≤ 32 ∧ mbase g + mcnt g ≤ 32)

end Gang

namespace Ring

def v (r : Ring) : Bool := r.desc.getLsbD 63
/-- Block length Kb. -/
def kb (r : Ring) : Nat := 32 * ((r.desc.extractLsb' 49 7).toNat + 1)
/-- Stages, NST + 1. -/
def stages (r : Ring) : Nat := (r.desc.extractLsb' 45 4).toNat + 1
/-- Bytes of a stage. -/
def size (r : Ring) : Nat := (r.desc.extractLsb' 32 13).toNat * 256
def base (r : Ring) : Nat := (r.desc.extractLsb' 0 13).toNat * 256
/-- The fields that exist (R336). -/
def mask : Dword := 0x80FFFFFF00001FFF#64
/-- FILLED − FREED. -/
def used (r : Ring) : Nat := (r.filled + 65536 - r.freed) % 65536

end Ring

/-- Scratch units of a crew. -/
def Crew.scr (c : Crew) : Nat := (c.partition.extractLsb' 7 7).toNat

/-- A command of the crew waits at the latch or in the queue, or runs. -/
def State.matBusy (s : State) (r : CrewRef) : Bool :=
  !(s.matCrew r.cluster r.slot).arrivals.isEmpty || (s.cluster r.cluster).matrix.cmds.any fun x => x.crew == r

/-- Another resident crew's window meets the one of `g`. -/
def State.windowTaken (s : State) (c slot : Nat) (g : Dword) : Bool :=
  (s.cluster c).matrix.slots.any fun e => e.1 != slot &&
    match gangWindow e.2.gang with
    | some (b, n) => decide (b < Gang.mbase g + Gang.mcnt g ∧ Gang.mbase g < b + n)
    | none => false

/-- What a write of dmgang or dmring waits for and checks (R338). -/
def matGuard (k a : Nat) (v : Dword) : M Unit := do
  let s ← get
  if a ≠ 0x8E6 then
    match (s.engine k).crew.bind fun r => (s.crewOf r).map fun c => (r, c) with
    | none => fail (excReserved 0)
    | some (r, c) => do
      if s.matBusy r then parkFor .datapath
      if v.getLsbD 63 then
        if a = 0x8E0 then do
          guardM (Gang.ok v (s.kernelOf c).waves) (excReserved 0)
          if s.windowTaken r.cluster r.slot v then parkFor .datapath
        else do
          let d : Ring := { desc := v }
          guardM (d.size != 0 && decide (d.base + d.stages * d.size ≤ c.scr * 16384)) (excReserved 0)

/-- dmgang is written: a write with V clear releases the window (R338). -/
def State.writeGang (s : State) (c slot : Nat) (v : Dword) : State :=
  s.setMatCrew c slot { s.matCrew c slot with gang := v &&& Gang.mask }

/-- dmring is written, its counters at 0 (R336). -/
def State.writeRing (s : State) (c slot ring : Nat) (v : Dword) : State :=
  let m := s.matCrew c slot
  s.setMatCrew c slot { m with rings := m.rings.set! ring { desc := v &&& Ring.mask } }

/-- dmstat (R337). -/
def MatCrew.stat (m : MatCrew) : Dword := BitVec.ofNat 64 (m.flags.toNat * 65536 + m.anom)

def State.writeMatrix (s : State) (k a : Nat) (v : Dword) : State :=
  let c := k / 7
  let slot := s.matSlot k
  if a = 0x8E0 then s.writeGang c slot v
  else if a = 0x8E6 then
    let m := s.matCrew c slot
    s.setMatCrew c slot { m with flags := m.flags &&& ~~~(v.extractLsb' 16 5), anom := (v.extractLsb' 0 16).toNat }
  else s.writeRing c slot (a - 0x8E2) v

/-- A counter of classed tiles is set (R352), Bloom (R364). -/
def State.writeSilCount (s : State) (k a : Nat) (v : Dword) : State :=
  let x := s.silCrew (k / 7) (s.kickSlot k)
  let x := if a = 0x8F3 then { x with skip := v } else if a = 0x8F4 then { x with part := v } else { x with full := v }
  s.setSilCrew (k / 7) (s.kickSlot k) x

/-! ## All -/

/-- The value of an engine CSR: dxstat and dxwp, with dxop write-only (R322); dmgang, dmring, dmstat. -/
def State.readEngineCsr (s : State) (k a : Nat) : Dword :=
  let e := s.engine k
  let m := s.matCrew (k / 7) (s.matSlot k)
  match a with
  | 0x8D1 => BitVec.ofNat 64 (e.ops.length * 256 + e.flags.toNat)
  | 0x8D2 => e.dxwp
  | 0x8E0 => m.gang
  | 0x8E2 | 0x8E3 | 0x8E4 | 0x8E5 => (m.rings[a - 0x8E2]?.getD {}).desc
  | 0x8E6 => m.stat
  | 0x8F2 => (s.silCrew (k / 7) (s.kickSlot k)).stat
  | 0x8F3 => (s.silCrew (k / 7) (s.kickSlot k)).skip
  | 0x8F4 => (s.silCrew (k / 7) (s.kickSlot k)).part
  | 0x8F5 => (s.silCrew (k / 7) (s.kickSlot k)).full
  | 0x8FA => (s.cluster (k / 7)).bloomDrop
  | _ => 0

/-- What a write of an engine CSR checks or waits for: dxop needs a 64-byte aligned address, and waits while the datapath
holds two operations (R322). -/
def engineCsrGuard (k a : Nat) (v : Dword) : M Unit := do
  let e := (← get).engine k
  if a = 0x8D0 then do
    guardM (decide (v.toNat % 64 = 0)) (excDev 4 0 v)
    if 2 ≤ e.ops.length then parkFor .datapath
  else if k % 7 = 4 then matGuard k a v
  else if a = 0x8F0 then silInstall k v
  else if a = 0x8F1 then do
    if !(← silStep k v) then parkFor .datapath
  else if a = 0x8F8 then bloomInstall k v

/-- dxop queues a descriptor; dxstat flags clear where 1 is written (R322). -/
def State.writeEngineCsr (s : State) (k a : Nat) (v : Dword) : State :=
  let e := s.engine k
  match a with
  | 0x8D0 => s.setEngine k { e with ops := e.ops ++ [v] }
  | 0x8D1 => s.setEngine k { e with flags := e.flags &&& ~~~(v.extractLsb' 0 5) }
  | 0x8F9 => s.bloomFree k v
  | 0x8F3 | 0x8F4 | 0x8F5 => s.writeSilCount k a v
  | _ => if k % 7 = 4 then s.writeMatrix k a v else s

end Sys2Proof.Machine
end

