-- ==== Sys2Proof/Machine/Csr.lean ====
section
/-! DEFINITION. The CSRs of the harts (R11, R12, R18 to R26, R33, R319, R395): which exist on which kind of hart, what they
read and what a write does. -/

namespace Sys2Proof.Machine

/-- The CSR exists on this kind of hart: its lowest level, and whether its address is read-only (R12, R18, R33, R319,
R395); none when it does not exist. -/
def csrLevel (h : HartId) (a : Nat) : Option Priv :=
  match h with
  | .engine k => if (0xC00 ≤ a ∧ a ≤ 0xC1F) ∨ a = 0xCC0 ∨ a = 0xCC1 ∨ engineCsr k a then some .u else none
  | _ =>
    let strand := HartKind.isStrand h
    if 1 ≤ a ∧ a ≤ 3 then (if strand then some .u else none)
    else if (0xC00 ≤ a ∧ a ≤ 0xC1F) ∨ a = 0xCC0 ∨ a = 0xCC1 then some .u
    else if a = 0x100 ∨ (0x104 ≤ a ∧ a ≤ 0x106) ∨ (0x140 ≤ a ∧ a ≤ 0x144) ∨ a = 0x180 then some .s
    else if (0x5C0 ≤ a ∧ a ≤ 0x5C2) ∨ a = 0x5C5 ∨ a = 0xDC0 then some .s
    else if a = 0x5C3 ∨ a = 0x5C4 then (if strand then some .s else none)
    else if 0x5C8 ≤ a ∧ a ≤ 0x5CD then (if strand then none else some .s)
    else none

/-- sstatus as it reads: UXL is 2, SD reflects FS (R12); FS reads 0 on a uniform hart (R33). -/
def readSstatus (h : HartId) (v : Dword) : Dword :=
  let v := if HartKind.isStrand h then v else v &&& ~~~0x6000#64
  v ||| 0x200000000#64 ||| (if Sstatus.fs v = 3 then 0x8000000000000000#64 else 0)

/-- dlgroup.MASK as it reads: the core's own bit is always 1 (R253). -/
def Core.groupMask (c : Core) (core : Nat) : Nat := (c.dlgroup.map (·.toNat)).getD 0 ||| 2 ^ (core % 8)

/-- dwtrap (R396). -/
def WaveTrap.word (t : WaveTrap) : Dword :=
  BitVec.ofNat 64 (t.detail.toNat * 2 ^ 32 + t.code.toNat * 2 ^ 16 + (if t.held then 16 else 0) + (if t.grp then 8 else 0) +
    t.src % 4 * 2 + (if t.act then 1 else 0))

/-- The wave of a uniform hart. -/
def State.waveOf (s : State) (h : HartId) : Wave := match h with
  | .uniform k => s.wave k
  | _ => {}

/-- The value a CSR of a hart reads. -/
def State.csr (s : State) (h : HartId) (a : Nat) : Dword :=
  let r := s.hart h
  match a with
  | 0x001 => BitVec.ofNat 64 (r.fcsr.toNat % 32)
  | 0x002 => BitVec.ofNat 64 (r.fcsr.toNat / 32)
  | 0x003 => r.fcsr.setWidth 64
  | 0x100 => readSstatus h r.sstatus
  | 0x104 => r.sie
  | 0x105 => r.stvec
  | 0x106 => r.scounteren
  | 0x140 => r.sscratch
  | 0x141 => r.sepc
  | 0x142 => r.scause
  | 0x143 => r.stval
  | 0x144 => s.pending h
  | 0xC00 => BitVec.ofNat 64 (match h with
    | .strand k => s.clk - (s.core (k / 8)).since
    | _ => s.clk)
  | 0xC01 => BitVec.ofNat 64 s.now
  | 0xC02 => r.instret
  | 0xCC0 => match h with
    | .strand k => dstrandOf k
    | _ => 0
  | 0xCC1 => r.dcrew
  | 0x5C0 => r.dcause
  | 0x5C1 => (if r.tn then 1 else 0) ||| (if r.hm then 2 else 0)
  | 0x5C2 => r.dptb
  | 0x5C3 => match h with
    | .strand k => BitVec.ofNat 64 (s.core (k / 8)).scr
    | _ => 0
  | 0x5C4 => match h with
    | .strand k => BitVec.ofNat 64 ((s.core (k / 8)).groupMask (k / 8))
    | _ => 0
  | 0x5C5 => r.dtimecmp
  | 0xDC0 => s.dcap
  | 0x5C8 => (s.waveOf h).trap.word
  | 0x5C9 => (s.waveOf h).trap.lpc.setWidth 64
  | 0x5CA => (s.waveOf h).trap.mask
  | 0x5CB => (s.waveOf h).trap.sp7
  | 0x5CC => (s.waveOf h).trap.lvec
  | _ => match h with
    | .engine k => s.readEngineCsr k a
    | _ => 0

/-! ## Writes -/

/-- A write to dlsplit or dlgroup can take effect (R254): no other crew in the cluster, no other context of the core
occupied. -/
def State.splitOk (s : State) (k : Nat) : Bool :=
  let r := s.hart (.strand k)
  let others := (s.cluster (k / 512)).crews.filter fun e =>
    r.crew != some { cluster := k / 512, slot := e.1, gen := e.2.gen }
  others.isEmpty && (List.range 8).all fun i => k / 8 * 8 + i == k || (s.hart (.strand (k / 8 * 8 + i))).run == .idle

/-- The core after a write of its split or group took effect: its scratch is zero (R254). -/
def State.resplit (s : State) (core : Nat) (c : Core) : State :=
  (s.setCore core c).zero (sramKey core 0) (sramKey core 0x20000)

/-- A write of dlsplit (R24, R254). -/
def State.writeDlsplit (s : State) (h : HartId) (v : Dword) : State :=
  match h with
  | .strand k =>
    let scr := v.toNat % 32
    if s.splitOk k && decide (scr ≤ 16) then s.resplit (k / 8) { s.core (k / 8) with scr := scr } else s
  | _ => s

/-- A write of dlgroup (R253, R254). -/
def State.writeDlgroup (s : State) (h : HartId) (v : Dword) : State :=
  match h with
  | .strand k =>
    if s.splitOk k then
      s.resplit (k / 8) { s.core (k / 8) with dlgroup := some (v.extractLsb' 0 8 ||| BitVec.ofNat 8 (2 ^ (k / 8 % 8))) }
    else s
  | _ => s

/-- sstatus written: the fields that exist (R12); a uniform hart has no FS (R33). -/
def Hart.writeSstatus (r : Hart) (strand : Bool) (v : Dword) : Hart :=
  { r with sstatus := v &&& (if strand then Sstatus.mask else Sstatus.mask &&& ~~~0x6000#64) }

/-- fcsr bits written, with FS Dirty. -/
def Hart.writeFcsr (r : Hart) (v : Byte) : Hart := { r with fcsr := v, sstatus := r.sstatus ||| 0x6000#64 }

/-- The lane handler starts (R397): every lane that has not exited or migrated in one group at dwlvec plus the offset, its
eight registers zero; the uniform hart parks. -/
def State.runLaneHandler (s : State) (k off : Nat) : State :=
  let w := s.wave k
  let t := w.trap
  s.setWave k { w with
    lhandler := some { group := { mask := w.lanes, pc := off }, base := t.lvec.toNat, regs := [] }
    p := if t.act && t.src == 0 then w.p.set! 7 t.failed else if t.act then w.p.set! 7 0 else w.p
    hart := { w.hart with run := .parked .laneHandler } }

/-- A write to a wave trap CSR (R395). -/
def State.writeTrapCsr (s : State) (h : HartId) (a : Nat) (v : Dword) : State :=
  match h with
  | .uniform k =>
    let w := s.wave k
    let put (t : WaveTrap) : State := s.setWave k { w with trap := t }
    match a with
    | 0x5C9 => put { w.trap with lpc := v.setWidth 32 }
    | 0x5CB => put { w.trap with sp7 := v }
    | 0x5CC => put { w.trap with lvec := v &&& 0xFFFFFFFFFFFC#64 }
    | _ => s
  | _ => s

/-- A write to a CSR of a hart, by the access codes of its fields (R7, R12, R18). -/
def State.writeCsr (s : State) (h : HartId) (a : Nat) (v : Dword) : State :=
  let r := s.hart h
  match a with
  | 0x001 => s.setHart h (r.writeFcsr (r.fcsr &&& 0xE0#8 ||| (v.setWidth 8 &&& 0x1F#8)))
  | 0x002 => s.setHart h (r.writeFcsr (r.fcsr &&& 0x1F#8 ||| (v.setWidth 8 <<< 5)))
  | 0x003 => s.setHart h (r.writeFcsr (v.setWidth 8))
  | 0x100 => s.setHart h (r.writeSstatus (HartKind.isStrand h) v)
  | 0x104 => s.setHart h { r with sie := v &&& 0x222#64 }
  | 0x105 => s.setHart h { r with stvec := if v.toNat % 4 < 2 then v else v &&& ~~~3#64 ||| (r.stvec &&& 3#64) }
  | 0x106 => s.setHart h { r with scounteren := v &&& 7#64 }
  | 0x140 => s.setHart h { r with sscratch := v }
  | 0x141 => s.setHart h { r with sepc := v &&& ~~~3#64 }
  | 0x142 => s.setHart h { r with scause := v }
  | 0x143 => s.setHart h { r with stval := v }
  | 0x144 => s.setHart h { r with ssip := v.getLsbD 1 }
  | 0x5C0 => s.setHart h { r with dcause := v &&& 0xFFFFFFFF#64 }
  | 0x5C1 => s.setHart h { r with tn := r.tn && !v.getLsbD 0 }
  | 0x5C2 => s.setHart h { r with dptb := v &&& 0xFFFFFFFFFFFFFFF#64 }
  | 0x5C3 => s.writeDlsplit h v
  | 0x5C4 => s.writeDlgroup h v
  | 0x5C5 => s.setHart h { r with dtimecmp := v }
  | _ => match h with
    | .engine k => s.writeEngineCsr k a v
    | _ => s.writeTrapCsr h a v

/-- A CSR instruction may access the CSR, or the cause of R21: absent or read-only gives ILLEGAL_OPCODE, a level too low
PRIVILEGE. FS off and a counter not enabled are ILLEGAL_OPCODE cases of the standard. -/
def csrCheck (h : HartId) (a : Nat) (write : Bool) (w : Word) : M Unit := do
  let r ← getHart h
  match csrLevel h a with
  | none => illegalM w
  | some lvl => do
    if lvl = .s && r.priv = .u then fail (excIllegal 3 w)
    if write && decide (a / 0x400 = 3) then illegalM w
    if decide (1 ≤ a ∧ a ≤ 3) && Sstatus.fs r.sstatus == 0 then illegalM w
    if decide (0xC00 ≤ a ∧ a ≤ 0xC1F) && r.priv == .u && !HartKind.isEngine h && !r.scounteren.getLsbD (a - 0xC00) then illegalM w

/-- CSRRW, CSRRS, CSRRC and their immediate forms: the old value to rd, the new one written unless the form writes
nothing. -/
def csrOp (h : HartId) (o : CsrOp) (imm : Bool) (rd src : Reg) (addr : BitVec 12) (w : Word) : M Unit := do
  let a := addr.toNat
  let write := o = .rw || src ≠ 0
  csrCheck h a write w
  let s ← get
  let r := s.hart h
  let v : Dword := if imm then src.setWidth 64 else r.rx src
  let old := s.csr h a
  let base : Dword := if a = 0x144 then (if r.ssip then 2 else 0) else old
  let new := match o with
    | .rw => v
    | .rs => base ||| v
    | .rc => base &&& ~~~v
  if write then do
    match h, a with
    | .uniform k, 0x5CD => do
      guardM (decide (new.toNat % 12 = 0)) (excReserved 1)
      setReg h rd old
      modify fun s => s.runLaneHandler k (new.toNat % 2 ^ 48)
    | .engine k, _ => do
      engineCsrGuard k a new
      modify fun s => s.writeCsr h a new
      setReg h rd old
    | _, _ => do
      modify fun s => s.writeCsr h a new
      setReg h rd old
  else setReg h rd old

end Sys2Proof.Machine
end

