-- ==== Sys2Proof/Machine/Scalar.lean ====
section
/-! DEFINITION. The standard instructions of the harts (R10 to R17, R29, R33, R319) and the scoped atomics of custom-3
(R67, R68, R285). -/

namespace Sys2Proof.Machine

/-! ## Words that encode no instruction (R21, R69) -/

/-- The slot of a custom word is listed and present on this kind of hart (R65, R69, R319). -/
def customPresent (h : HartId) (w : Word) : Bool :=
  let f3 := (w.extractLsb' 12 3).toNat
  let f7 := (w.extractLsb' 25 7).toNat
  let e := notEngine h
  let st := HartKind.isStrand h
  match (w.extractLsb' 0 7).toNat with
  | 0x0B => match f3 with
    | 0 => f7 ≤ 3
    | 1 | 2 => true
    | 3 => f7 ≤ 5 && e
    | _ => false
  | 0x2B => match f3 with
    | 0 => f7 ≤ 2 && (e || f7 = 1)
    | 1 => f7 ≤ 3 && e && (st || f7 % 2 = 0)
    | 2 | 3 | 4 => st
    | 5 => f7 = 0 && st
    | _ => false
  | 0x5B => match f3 with
    | 0 => e
    | 1 => f7 = 0 && e
    | 2 | 4 => f7 ≤ 1 && e
    | 3 => f7 ≤ 2
    | 5 => true
    | 6 => f7 = 0
    | 7 => f7 ≤ 2 && e
    | _ => false
  | _ => false

/-- The cause of a word that encodes no instruction: RESERVED_FIELD for a listed custom slot with a field violation,
ILLEGAL_OPCODE for every other. -/
def illegalWord (h : HartId) (w : Word) : M Unit := fail (excIllegal (if customPresent h w then 2 else 1) w)

/-! ## Handler mode (R403) -/

/-- The register that a standard instruction writes, when it is an integer one. -/
def rvRd (op : RvOp) : Reg :=
  match op with
  | .lui rd _ | .auipc rd _ | .jal rd _ | .jalr rd _ _ | .opImm _ rd _ _ | .shImm _ rd _ _ | .addiw rd _ _ | .shImmW _ rd _ _
  | .op _ rd _ _ | .opW _ rd _ _ | .un _ rd _ | .csr _ _ rd _ _ | .fcmp _ _ rd _ _ | .fclass _ rd _ | .fcvtInt _ _ rd _ _
  | .fmvToX _ rd _ => rd
  | _ => 0

/-- Handler-mode violation of a standard instruction (R403): 2 a backward transfer or a JALR, 3 a register outside
x10 to x17, 4 an F or D instruction or a CSR write. -/
def rvRule (op : RvOp) (_ : Hart) : Option Nat :=
  let back : Bool := match op with
    | .jal _ off => (jalOff off).toInt ≤ 0
    | .jalr _ _ _ => true
    | .branch _ _ _ off => (brOff off).toInt ≤ 0
    | _ => false
  let float : Bool := match op with
    | .fma .. | .fop .. | .fsqrt .. | .fsgn .. | .fminmax .. | .fcmp .. | .fclass .. | .fcvtInt .. | .fcvtFrom .. | .fcvtFmt ..
    | .fmvToX .. | .fmvFromX .. => true
    | .csr o _ _ src _ => o == .rw || src != 0
    | _ => false
  if back then some 2 else if handlerRd (rvRd op) then some 3 else if float then some 4 else none

def execStandardInstruction (op : RvOp) (s : State) : Host.Outcome State Fault Refusal :=
  scalar (rvRule op) (fun h => rvOp (fun o imm rd src a w => csrOp h o imm rd src a w) (illegalWord h) h op (Enc.rvOp op)) s

/-- The register of a load; a floating-point one is a violation of its own. -/
def lsRule (op : LsOp) (r : Hart) : Option Nat :=
  match op with
  | .load _ rd _ _ => handlerRule false rd r
  | .store .. => none
  | .fload .. | .fstore .. => some 4

def execStandardLoadStore (op : LsOp) (s : State) : Host.Outcome State Fault Refusal :=
  scalar (lsRule op) (fun h => loadStore h op (Enc.lsOp op)) s

/-! ## Atomics (R16, R17) -/

/-- A release bit performs the hart's earlier quantum updates at system scope (R16, R304). -/
def relM (h : HartId) (rl : Bool) : M Unit := if rl then releaseM h 4 else pure ()

def execLr (d _aq rl : Bool) (rd rs1 : Reg) (s : State) : Host.Outcome State Fault Refusal :=
  scalar (handlerRule false rd) (fun h => do
    loadReserved h d rd rs1
    relM h rl) s

def execSc (d _aq rl : Bool) (rd rs1 rs2 : Reg) (s : State) : Host.Outcome State Fault Refusal :=
  scalar (handlerRule false rd) (fun h => do
    relM h rl
    storeConditional h d rd rs1 rs2) s

def execStandardAmo (op : AmoOp) (d _aq rl : Bool) (rd rs1 rs2 : Reg) (s : State) : Host.Outcome State Fault Refusal :=
  scalar (handlerRule false rd) (fun h => do
    relM h rl
    amoStd h op d rd rs1 rs2) s

/-! ## Fences (R16) -/

/-- FENCE: an empty set has no effect; R before RW is an acquire; every other form releases, so that the hart's quantum
updates are performed (R16, R304). -/
def execFenceRv (_fm pred succ : BitVec 4) (_rd _rs1 : Reg) (s : State) : Host.Outcome State Fault Refusal :=
  scalar (handlerRule false 0) (fun h =>
    if pred = 0 || succ = 0 || (pred = 2 && succ = 3) then pure () else releaseM h 4) s

/-- FENCE.I: a fetch of the model reads what the hart has stored, so that only its presence is left to check (R16, R33,
R319). -/
def execFenceI (imm : BitVec 12) (rd rs1 : Reg) (s : State) : Host.Outcome State Fault Refusal :=
  scalar (handlerRule false 0) (fun h => kindM (HartKind.isStrand h) (.fenceI imm rd rs1)) s

/-- The entries of the hart's own TLB that the operands name are dropped (R16): x0 stands for every address or every
ASID; an ASID leaves global entries. -/
def execSfenceVma (rs1 rs2 : Reg) (s : State) : Host.Outcome State Fault Refusal :=
  scalar (handlerRule false 0) (fun h => do
    kindM (notEngine h) (.sfenceVma rs1 rs2)
    levelS h (.sfenceVma rs1 rs2)
    let acc ← ownAcc h
    let r ← getHart h
    let va := (r.rx rs1).toNat % 2 ^ 48
    let asid := (r.rx rs2).toNat % 2 ^ 16
    let drop (e : TlbEntry) : Bool :=
      (rs1 == 0 || decide (e.va ≤ va ∧ va < e.va + e.size)) && (rs2 == 0 || (e.asid == asid && !Pte.g e.pte))
    modify fun s => s.setTlb acc.tlb ((s.tlb acc.tlb).filter fun e => !drop e)) s

/-! ## System instructions (R12, R28, R29, R321, R398) -/

def execEcall (s : State) : Host.Outcome State Fault Refusal :=
  scalar (handlerRule false 0) (fun h => do
    let r ← getHart h
    if HartKind.isEngine h then fail { code := 23, detail := 0, tval := 0, scause := 8 }
    else fail { code := 0, detail := 0, tval := 0, scause := if r.priv = .s then 9 else 8 }) s

/-- EBREAK: stval is 0 or the pc, which the standard leaves open (log 34). -/
def execEbreak (s : State) : Host.Outcome State Fault Refusal :=
  scalar (handlerRule false 0) (fun h => do
    let r ← getHart h
    let c ← freeNatM 2
    fail { code := 23, detail := 0, tval := if c = 0 || HartKind.isEngine h then 0 else r.pc - 4, scause := 3 }) s

def execSret (s : State) : Host.Outcome State Fault Refusal :=
  scalar (handlerRule false 0) (fun h => do
    kindM (notEngine h) .sret
    levelS h .sret
    modify fun s => s.returnS h) s

/-- WFI: parks until an enabled interrupt is pending, taken or not (R12). -/
def execWfi (s : State) : Host.Outcome State Fault Refusal :=
  scalar (handlerRule false 0) (fun h => do
    kindM (notEngine h) .wfi
    levelS h .wfi
    let s ← get
    if s.pending h &&& (s.hart h).sie = 0 then parkFor .wfi else pure ()) s

/-! ## Scoped atomics (R275, R276, R280 to R285) -/

/-- A quantum update is issued: its place resolved, its line brought home for an untracked page; it is performed later
(R304). The answer is the value its location holds now, which lags what pending updates of other units will make it. -/
def quantumIssue (acc : Acc) (va : Dword) (n : Nat) (o : AtomOp) (d c : Nat) (scope : Nat) : M Nat := do
  let gs ← resolve acc va n .store
  let a := va.toNat % 2 ^ 48
  match gs with
  | [{ loc := .mem pa u, len := _ }] => do
    hostGate acc pa true
    modify fun s => if u then (s.writeBackLine acc.cluster (pa / 256)).dropLine acc.cluster (pa / 256) else s
    let s ← get
    if s.poisoned pa n then fail (poisonExc 0 a)
    let old := natOfBytes (s.peek pa n)
    modify fun s => s.pushQuantum {
      pa := pa
      op := o.code
      dbl := decide (n = 8)
      data := BitVec.ofNat 64 d
      data2 := BitVec.ofNat 64 c
      deadline := s.clk + 4096
      unit := acc.who.code
      scope := scope }
    pure old
  | _ => vrmw acc va n fun v => atomNew o (8 * n) v d c

/-- One atomic access by the declared use (R282): 0 for commutative; for speculative the old value or one the location
held earlier, which is free. -/
def atomAccess (acc : Acc) (va : Dword) (n : Nat) (o : AtomOp) (d c : Nat) (sem scope : Nat) : M Nat := do
  if sem = 3 then quantumIssue acc va n o d c scope
  else do
    let old ← vrmw acc va n fun v => atomNew o (8 * n) v d c
    if sem = 1 then pure 0
    else if sem = 4 then do
      let k ← freeNatM 2
      let v ← freeDwordM
      pure (if k = 0 then old else v.toNat % 2 ^ (8 * n))
    else pure old

/-- The decode check of the SEM code (R67, R68): reserved codes, and commutative on swap and cas. -/
def semCodeOk (o : AtomOp) (sem : BitVec 4) : Bool := decide (sem.toNat ≤ 8) && !(sem == 1 && (o == .swap || o == .cas))

def amoM (o : AtomOp) (i : Instr) (a : AmoArgs) (h : HartId) : M Unit := do
  guardM (semCodeOk o a.sem) (excIllegal 2 (wordOf i))
  let r ← getHart h
  let n := if a.dbl then 8 else 4
  let va := r.rx a.rs1
  aligned va n
  if 6 ≤ a.sem.toNat then releaseM h (a.scope.toNat + 1)
  let old ← atomAccess (← ownAcc h) va n o ((r.rx a.rs2).toNat % 2 ^ (8 * n)) ((r.rx a.rd).toNat % 2 ^ (8 * n)) a.sem.toNat
    (a.scope.toNat + 1)
  setReg h a.rd (amoResult a.dbl old)

def execAmoAdd (a : AmoArgs) (s : State) : Host.Outcome State Fault Refusal :=
  scalar (handlerRule false a.rd) (amoM .add (.amoAdd a) a) s

def execAmoSwap (a : AmoArgs) (s : State) : Host.Outcome State Fault Refusal :=
  scalar (handlerRule false a.rd) (amoM .swap (.amoSwap a) a) s

def execAmoAnd (a : AmoArgs) (s : State) : Host.Outcome State Fault Refusal :=
  scalar (handlerRule false a.rd) (amoM .and (.amoAnd a) a) s

def execAmoOr (a : AmoArgs) (s : State) : Host.Outcome State Fault Refusal :=
  scalar (handlerRule false a.rd) (amoM .or (.amoOr a) a) s

def execAmoXor (a : AmoArgs) (s : State) : Host.Outcome State Fault Refusal :=
  scalar (handlerRule false a.rd) (amoM .xor (.amoXor a) a) s

def execAmoMax (a : AmoArgs) (s : State) : Host.Outcome State Fault Refusal :=
  scalar (handlerRule false a.rd) (amoM .max (.amoMax a) a) s

def execAmoFadd (a : AmoArgs) (s : State) : Host.Outcome State Fault Refusal :=
  scalar (handlerRule false a.rd) (amoM .fadd (.amoFadd a) a) s

def execAmoCas (a : AmoArgs) (s : State) : Host.Outcome State Fault Refusal :=
  scalar (handlerRule false a.rd) (amoM .cas (.amoCas a) a) s

end Sys2Proof.Machine
end

