-- ==== Sys2Proof/Machine/LaneMemory.lean ====
section
/-! DEFINITION. Lane memory instructions: buffer records and addresses (R192 to R195), LD and ST (R196 to R198), STN, ATOM, LDS,
STS, FENCE, range operations, STQ, PFH (R273 to R289), and the events by which accesses and signals complete (R159). -/

namespace Sys2Proof.Machine

/-! ## Buffer records (R192, R193) -/

/-- The flat record of slot b0 (R193): ESIZE 7, strict. -/
def flatRec : BitVec 256 := 0x27000000000000#256

def Wave.record (w : Wave) (slot : Nat) : BitVec 256 := if slot = 0 then flatRec else w.buf.getD slot 0

/-- The ESIZE code that an element type needs (R193). -/
def esizeOf (ty : BitVec 4) : Nat :=
  match tyWidth ty with
  | 4 => 0 | 8 => 1 | 16 => 2 | 32 => 3 | _ => 4

/-- The record checks of R193: DETAIL of the first that fails. -/
def badRecord (r : BitVec 256) (ty : BitVec 4) : Option Nat :=
  if BufRec.reserved r then some 1
  else if !BufRec.flat r && BufRec.esize r != esizeOf ty then some 2
  else if !BufRec.flat r && ((BufRec.swz r == 1 && BufRec.ndim r != 1) || (BufRec.swz r == 2 && BufRec.ndim r != 2)) then some 3
  else if BufRec.flat r && decide (tyWidth ty < 32) then some 4
  else none

/-- The record checks at issue, whatever the guard, then the pair of a flat record (R193, R194). -/
def recordCheck (c : LCtx) : M (BitVec 256) := do
  let r := (← getWave c.k).record c.w.slot.toNat
  match badRecord r c.w.ty with
  | some d => failLane 5 d 0 c.g.mask
  | none =>
    if BufRec.flat r && c.w.va.getLsbD 0 then failLane 2 1 0 c.g.mask
    pure r

/-! ## Addresses (R194) -/

/-- Bytes of a word: 4, or 8 for 64-bit types. -/
def wordSize (ty : BitVec 4) : Nat := if ty64 ty then 8 else 4

/-- Bits of `x` spread to positions `step`·k + `first`. -/
def spread (n step first x : Nat) : Nat :=
  match n with
  | 0 => 0
  | n + 1 => spread n step first x + (if x.testBit n then 2 ^ (step * n + first) else 0)

/-- A lane's address: out of bounds, misaligned, or where its word lies. -/
structure LaneAddr where
  oob : Bool := false
  mis : Bool := false
  va : Dword := 0
deriving DecidableEq, Repr

/-- The three indexes of a lane; unused dimensions are 0. -/
def laneIndex (w : Wave) (r : BitVec 256) (va l n : Nat) : Nat :=
  if n = 0 ∨ n ≤ BufRec.ndim r then (w.reg (va + n) l).toNat else 0

/-- The address of a lane's word (R194). -/
def laneAddr (c : LCtx) (w : Wave) (r : BitVec 256) (l : Nat) : LaneAddr :=
  let size := wordSize c.w.ty
  let va := c.w.va.toNat
  if BufRec.flat r then
    let a := w.pair va l + BitVec.ofInt 64 (c.w.ofs.toInt * size)
    { mis := decide (a.toNat % size ≠ 0), va := a }
  else
    let m := if ty64 c.w.ty then 1 else 32 / tyWidth c.w.ty
    let i0 : Int := (laneIndex w r va l 0 : Int) + c.w.ofs.toInt * m
    let i1 := laneIndex w r va l 1
    let i2 := laneIndex w r va l 2
    let oob := decide (i0 < 0) || decide ((BufRec.ext r 0 : Int) ≤ i0 + m - 1) || (decide (1 ≤ BufRec.ndim r) && decide (BufRec.ext r 1 ≤ i1)) ||
      (decide (2 ≤ BufRec.ndim r) && decide (BufRec.ext r 2 ≤ i2))
    let x := i0.toNat / m
    let lin := x * size + i1 * BufRec.str r 1 + i2 * BufRec.str r 2
    let off :=
      match BufRec.swz r with
      | 0 => lin
      | 1 => (spread 32 2 0 x + spread 32 2 1 i1) * size
      | 2 => (spread 32 3 0 x + spread 32 3 1 i1 + spread 32 3 2 i2) * size
      | _ => lin ^^^ (lin / 256 % 64 * 4)
    { oob := oob, mis := i0.toNat % m != 0, va := bufVa r off }

/-! ## The per-lane checks (R195) -/

/-- The lanes that make an access, after the checks for bounds, alignment and canonical form; `whole` adds the alignment of
the address to the word (R274). -/
def lanesInBounds (c : LCtx) (r : BitVec 256) (whole : Bool) : M (List Nat) := do
  let s ← get
  let w := s.wave c.k
  let acc := s.laneAcc c.k
  let ls := lanesOf c.act
  let at' (l : Nat) : LaneAddr := laneAddr c w r l
  if BufRec.bnd r = 1 then laneCheck ls fun l => guardM (!(at' l).oob) (excDev 6 0 (at' l).va)
  let inside := ls.filter fun l => !(at' l).oob
  laneCheck inside fun l =>
    guardM (!(at' l).mis && !(whole && (at' l).va.toNat % wordSize c.w.ty != 0)) (excDev 4 0 (at' l).va)
  laneCheck inside fun l => guardM (canonical (at' l).va) (accessFault acc .load 0 (at' l).va.toNat)
  pure inside

/-- Poisoned bytes at the places of an access. -/
def segsPoisoned (s : State) (cluster : Nat) (gs : List Seg) : Bool :=
  gs.any fun g =>
    match g.loc with
    | .mem pa u =>
      match (if u then (s.cluster cluster).lines.find (pa / 256) else none) with
      | some l => copyPoisoned s l pa g.len
      | none => s.poisoned pa g.len
    | .key k => s.poisoned k g.len
    | _ => false

/-- Translation of each lane's bytes; for loads and atomics, poison too. -/
def laneResolve (c : LCtx) (ls : List Nat) (va : Nat → Dword) (n : Nat) (k : AccessKind) (atomic consume : Bool) : M Unit := do
  let acc := (← get).laneAcc c.k
  laneCheck ls fun l => do
    let gs ← resolve acc (va l) n k
    if atomic && gs.any (fun g => match g.loc with
      | .device _ => true
      | _ => false) then fail (accessFault acc k 11 (va l).toNat)
    if consume && segsPoisoned (← get) acc.cluster gs then fail (poisonExc 0 (va l).toNat)

/-- OOB, and OOBST for a dropped store, in dwstat (R195). -/
def noteOob (c : LCtx) (inside : List Nat) (store : Bool) : M Unit := do
  if inside.length < (lanesOf c.act).length then
    modWave c.k fun w => { w with dwstat := w.dwstat ||| 1 ||| (if store then 2 else 0) }

/-- An acquire of the wave not yet performed holds this access back (R275). -/
def heldBack (c : LCtx) : M Unit := do
  if (← getWave c.k).accesses.any (·.hold) then throw .stall

/-! ## Plain and ordered accesses -/

/-- The order of a SEM code (R275): whether earlier accesses come first, and whether later ones wait. -/
def semReleases (sem : Nat) : Bool := decide (6 ≤ sem)
def semAcquires (sem : Nat) : Bool := sem == 5 || decide (7 ≤ sem)

/-- An access joins the wave's outstanding ones; it is performed by LANE_MEMORY_COMPLETE. -/
def issueAccess (c : LCtx) (op : AccessOp) (elems : List Elem) : M Unit := do
  let s ← get
  modWave c.k fun w => { w with
    nextAccess := w.nextAccess + 1
    accesses := if elems = [] then w.accesses else w.accesses ++ [{
      n := w.nextAccess
      op := op
      vd := c.w.vd.toNat
      ty := c.w.ty
      size := wordSize c.w.ty
      elems := elems
      scope := c.w.scope.toNat
      hint := c.w.hint.toNat
      hold := semAcquires c.w.sem.toNat
      lag := op == .load && (c.w.sem == 3 || c.w.sem == 4)
      asid := asidOf (s.laneAcc c.k).dptb }] }

/-- A release: earlier accesses are performed, quantum updates with them (R275, R304). -/
def laneRelease (c : LCtx) : M Unit := do
  drainM c.k
  modify fun s => s.releaseUnit (.wave c.k) c.w.scope.toNat

/-- A load of one word per lane into VD (R196, R277). -/
def laneLoad (whole : Bool) (c : LCtx) : M Unit := do
  heldBack c
  let r ← recordCheck c
  let w ← getWave c.k
  let inside ← lanesInBounds c r whole
  let va (l : Nat) : Dword := (laneAddr c w r l).va
  laneResolve c inside va (wordSize c.w.ty) .load false true
  peakCheck c (vdRegs c.i c.w)
  if semReleases c.w.sem.toNat && c.act != 0 then laneRelease c
  noteOob c inside false
  let acc := (← get).laneAcc c.k
  let elems ← forLanes inside fun l => do
    let gs ← resolve acc (va l) (wordSize c.w.ty) .load
    pure { lane := l, va := (va l).toNat % 2 ^ 48, segs := gs }
  let outside := c.act &&& ~~~(maskOf inside.contains)
  modWave c.k fun w =>
    let wide := ty64 c.w.ty
    (w.writeOperand wide c.w.vd.toNat c.act fun l => w.operand wide c.w.vd.toNat l).writeOperand
      wide c.w.vd.toNat outside fun _ => 0
  issueAccess c .load elems
  completed c none

/-- A store of VD's word per lane (R196, R277). -/
def laneStore (whole : Bool) (c : LCtx) : M Unit := do
  heldBack c
  let r ← recordCheck c
  let w ← getWave c.k
  let inside ← lanesInBounds c r whole
  let va (l : Nat) : Dword := (laneAddr c w r l).va
  laneResolve c inside va (wordSize c.w.ty) .store false false
  if semReleases c.w.sem.toNat && c.act != 0 then laneRelease c
  noteOob c inside true
  let acc := (← get).laneAcc c.k
  let elems ← forLanes inside fun l => do
    let gs ← resolve acc (va l) (wordSize c.w.ty) .store
    pure { lane := l, va := (va l).toNat % 2 ^ 48, segs := gs, data := opD c w l }
  issueAccess c .store elems
  completed c none

def execLd (w : LaneWord) (s : State) : Host.Outcome State Fault Refusal :=
  laneInstr (.ld w) w (fun _ => pure ()) (laneLoad false) s

def execSt (w : LaneWord) (s : State) : Host.Outcome State Fault Refusal :=
  laneInstr (.st w) w (fun _ => pure ()) (laneStore false) s

def execLds (w : LaneWord) (s : State) : Host.Outcome State Fault Refusal :=
  laneInstr (.lds w) w (fun _ => pure ()) (laneLoad true) s

def execSts (w : LaneWord) (s : State) : Host.Outcome State Fault Refusal :=
  laneInstr (.sts w) w (fun _ => pure ()) (laneStore true) s

/-! ## Completion of accesses (R159, R196) -/

/-- Two places share a byte. -/
def Seg.meets (a b : Seg) : Bool :=
  match a.loc, b.loc with
  | .mem p _, .mem q _ => decide (p < q + b.len ∧ q < p + a.len)
  | .device p, .device q => decide (p < q + b.len ∧ q < p + a.len)
  | .key p, .key q => decide (p < q + b.len ∧ q < p + a.len)
  | .ctx i p, .ctx j q => i == j && decide (p < q + b.len ∧ q < p + a.len)
  | _, _ => false

/-- An earlier access of the wave to a byte of this one is still to be performed (R198, R276). -/
def PendAccess.after (a b : PendAccess) : Bool :=
  decide (b.n < a.n) && (a.op == .store || b.op == .store) &&
    a.elems.any fun x => b.elems.any fun y => x.segs.any fun p => y.segs.any fun q => p.meets q

/-- Some places would meet an outstanding access of the wave. -/
def Wave.meetsPending (w : Wave) (gs : List Seg) : Bool :=
  w.accesses.any fun b => b.elems.any fun y => y.segs.any fun q => gs.any fun p => p.meets q

/-- Host snoops for every element come first. -/
def gateElems (acc : Acc) (write : Bool) (es : List Elem) : M Unit :=
  match es with
  | [] => pure ()
  | e :: t => do
    gateSegs acc write e.segs
    gateElems acc write t

/-- The elements of a store are performed in ascending lane order (R198). -/
def storeElems (acc : Acc) (size hint : Nat) (es : List Elem) : M Unit :=
  match es with
  | [] => pure ()
  | e :: t => do
    writeSegs acc (hint != 3) e.segs (leBytes size e.data.toNat)
    storeElems acc size hint t

/-- The words of a load, by lane. -/
def loadElems (acc : Acc) (hint : Nat) (es : List Elem) : M (List (Nat × Dword)) :=
  match es with
  | [] => pure []
  | e :: t => do
    let bs ← readSegs acc e.va (hint != 3) e.segs
    let rest ← loadElems acc hint t
    pure ((e.lane, BitVec.ofNat 64 (natOfBytes bs)) :: rest)

/-- Values of a quantum or speculative load: each what the location holds, or a free earlier value (R303, R304). -/
def lagging (vs : List (Nat × Dword)) : M (List (Nat × Dword)) :=
  match vs with
  | [] => pure []
  | (l, v) :: t => do
    let k ← freeNatM 2
    let x ← freeDwordM
    let rest ← lagging t
    pure ((l, if k = 0 then v else x) :: rest)

/-- One outstanding access is performed. A word that has become poisoned since its issue traps the group of its lane where
it stands now. -/
def completeAccess (k : Nat) (a : PendAccess) : M Unit := do
  let acc := (← get).laneAcc k
  let s ← get
  let poisoned := a.elems.filter fun e => a.op == .load && segsPoisoned s acc.cluster e.segs
  gateElems acc (a.op == .store) a.elems
  match a.op with
  | .store => storeElems acc a.size a.hint a.elems
  | .load => do
    let good := a.elems.filter fun e => !poisoned.any fun p => p.lane == e.lane
    let vs ← loadElems acc a.hint (if poisoned.isEmpty then good else [])
    let vs ← if a.lag then lagging vs else pure vs
    let m := maskOf fun l => vs.any fun v => v.1 == l
    modWave k fun w => w.writeOperand (a.size == 8) a.vd m fun l => ((vs.find? fun v => v.1 == l).map (·.2)).getD 0
  modWave k fun w => { w with accesses := w.accesses.filter fun b => b.n != a.n }
  match poisoned with
  | [] => pure ()
  | p :: t => do
    let w ← getWave k
    let failed := maskOf fun l => l == p.lane || t.any fun q => q.lane == l
    let hit (g : Option Group) : Bool := (g.map fun g => Mask.has g.mask p.lane).getD false
    match (if hit w.sec then w.sec else w.pri) with
    | some g => modify fun s => s.trapLanes k (hit w.sec) g 22 0 (BitVec.ofNat 64 p.va) failed false
    | none => pure ()

/-- LANE_MEMORY_COMPLETE: the access `n` of a wave is performed, after earlier ones to the same bytes. -/
def execLaneMemoryComplete (wave n : Nat) (s : State) : Host.Outcome State Fault Refusal :=
  event (fun s =>
    match (s.wave wave).accesses.find? fun a => a.n == n with
    | some a =>
      if (s.wave wave).accesses.any a.after then s
      else runM (do
        completeAccess wave a
        endWave wave) s
    | none => s) s

/-! ## Signals (R159) -/

/-- A signal's conditions beside accesses hold: its token's result has arrived, its matrix command is complete, its events
are accepted or dropped. -/
def State.awaited (s : State) (k : Nat) (a : Await) : Bool :=
  (match a.token with
  | some t => ((s.wave k).sfx.find t).isNone
  | none => true) &&
  (match a.cmd with
  | some n => !(s.cluster (k / 128)).matrix.cmds.any fun x => x.n == n
  | none => true) &&
  (match a.events with
  | some (lo, hi) => !s.events.any fun e => decide (lo ≤ e.n ∧ e.n < hi)
  | none => true)

/-- The oldest signal of the wave that can land: every access before it is performed, and what it waits for has come. -/
def State.readySignal (s : State) (k : Nat) : Option PendSignal :=
  let w := s.wave k
  w.signals.find? fun g => w.accesses.all (fun a => decide (g.after ≤ a.n)) && s.awaited k g.on

/-- Signals of some waves that land in one clk, with their sums by semaphore (R95). -/
def landing (s : State) (ks : List Nat) : List (Nat × PendSignal) :=
  ks.eraseDups.filterMap fun k => (s.readySignal k).map fun g => (k, g)

/-- The sum of the landing signals of one semaphore. -/
def landSum (ls : List (Nat × PendSignal)) (cluster sem : Nat) : Nat :=
  ((ls.filter fun e => e.1 / 128 == cluster && e.2.sem == sem).map fun e => e.2.amount).sum

/-- SEM_OVERFLOW with DETAIL 3: the signalling group's pc is as it stands (R159). It waits until the wave can trap. -/
def overflowTrap (s : State) (k : Nat) (g : PendSignal) : State :=
  let w := s.wave k
  let here (x : Option Group) : Bool := (x.map fun x => Mask.has x.mask g.lane).getD false
  let own := (w.pri.toList ++ w.sec.toList ++ w.frags).find? fun x => Mask.has x.mask g.lane
  match own with
  | some x => s.trapLanes k (here w.sec) x 18 3 0 x.mask false
  | none => s.trapLanes k false { mask := 0, pc := g.pc } 18 3 0 0 false

/-- One landing signal: it counts, unless the sum of its clk passes 65,535. -/
def landOne (all : List (Nat × PendSignal)) (s : State) (e : Nat × PendSignal) : State :=
  let (k, g) := e
  let c := k / 128
  let x := s.sem c g.sem
  let w := s.wave k
  let without : Wave := { w with signals := w.signals.filter (· != g) }
  if 65535 < x.count + landSum all c g.sem then
    if w.canTrap || w.hart.tn then overflowTrap (s.setWave k without) k g else s
  else
    let s := (s.releaseUnit (.wave k) 1).setWave k without
    s.setSem c g.sem { x with count := x.count + g.amount }

def landAllOf (all : List (Nat × PendSignal)) (s : State) (es : List (Nat × PendSignal)) : State :=
  match es with
  | [] => s
  | e :: t =>
    if 65535 < (s.sem (e.1 / 128) e.2.sem).count + landSum es (e.1 / 128) e.2.sem then landAllOf all (landOne es s e) t
    else landAllOf all (landOne [e] s e) t

/-- Pending waits of the semaphores that were signalled are granted; waves whose lanes are gone may end. -/
def grantAll (s : State) (es : List (Nat × PendSignal)) : State :=
  match es with
  | [] => s
  | (k, g) :: t =>
    let s := s.grantSem (k / 128) g.sem ((s.sem (k / 128) g.sem).waiters.length + 1)
    grantAll (runM (endWave k) s) t

/-- LANE_SIGNAL_LAND: signals of the named waves land in one clk. -/
def execLaneSignalLand (waves : List Nat) (s : State) : Host.Outcome State Fault Refusal :=
  event (fun s =>
    let ls := landing s waves
    grantAll (landAllOf ls s ls) ls) s

/-! ## STN (R278, R279) -/

/-- The nibble address of a lane. -/
def nibbleAddr (c : LCtx) (w : Wave) (r : BitVec 256) (l : Nat) : LaneAddr × Nat :=
  let va := c.w.va.toNat
  let i0 : Int := (laneIndex w r va l 0 : Int) + c.w.ofs.toInt
  let i1 := laneIndex w r va l 1
  let i2 := laneIndex w r va l 2
  let oob := decide (i0 < 0) || decide ((BufRec.ext r 0 : Int) ≤ i0) || (decide (1 ≤ BufRec.ndim r) && decide (BufRec.ext r 1 ≤ i1)) ||
    (decide (2 ≤ BufRec.ndim r) && decide (BufRec.ext r 2 ≤ i2))
  ({ oob := oob, va := bufVa r (i0.toNat / 2 + i1 * BufRec.str r 1 + i2 * BufRec.str r 2) }, i0.toNat % 2)

def stnLanes (c : LCtx) (acc : Acc) (w : Wave) (r : BitVec 256) (ls : List Nat) : M Unit :=
  match ls with
  | [] => pure ()
  | l :: t => do
    let (a, nib) := nibbleAddr c w r l
    let gs ← resolve acc a.va 1 .store
    let old := natOfBytes (← readSegs acc (a.va.toNat % 2 ^ 48) true gs)
    let d := (w.reg c.w.vd.toNat l).toNat % 16
    let new := if nib = 0 then old / 16 * 16 + d else old % 16 + d * 16
    writeSegs acc true gs (leBytes 1 new)
    stnLanes c acc w r t

/-- The places of an access of each lane wait for outstanding accesses to the same bytes; host snoops come first. -/
def laneGate (c : LCtx) (acc : Acc) (ls : List Nat) (va : Nat → Dword) (n : Nat) : M Unit := do
  let gss ← forLanes ls fun l => resolve acc (va l) n .store
  if (← getWave c.k).meetsPending gss.flatten then throw .stall
  gateSegs acc true gss.flatten

def stnM (c : LCtx) : M Unit := do
  heldBack c
  let s ← get
  let w := s.wave c.k
  let r := w.record c.w.slot.toNat
  if BufRec.reserved r then failLane 5 1 0 c.g.mask
  if BufRec.esize r ≠ 0 then failLane 5 2 0 c.g.mask
  if BufRec.swz r ≠ 0 then failLane 5 5 0 c.g.mask
  let acc := s.laneAcc c.k
  let ls := lanesOf c.act
  let va (l : Nat) : Dword := (nibbleAddr c w r l).1.va
  if BufRec.bnd r = 1 then laneCheck ls fun l => guardM (!(nibbleAddr c w r l).1.oob) (excDev 6 0 (va l))
  let inside := ls.filter fun l => !(nibbleAddr c w r l).1.oob
  laneResolve c inside va 1 .store true true
  laneGate c acc inside va 1
  noteOob c inside true
  stnLanes c acc w r inside
  completed c none

def execStn (w : LaneWord) (s : State) : Host.Outcome State Fault Refusal :=
  laneInstr (.stn w) w (fun _ => pure ()) stnM s

/-! ## ATOM (R280 to R284) -/

/-- The operation with MAX signed or natural by TYPE. -/
def atomOf (o : AtomOp) (ty : BitVec 4) : AtomOp := if o == .max && tyNatural ty then .maxu else o

/-- Operand and compare value of a lane (R280, R281). -/
def atomArgs (o : AtomOp) (c : LCtx) (w : Wave) (l : Nat) : Nat × Nat :=
  let vd := c.w.vd.toNat
  let wide := ty64 c.w.ty
  let v (n : Nat) : Nat := (w.operand wide n l).toNat
  if o == .cas then (v (vd + (if wide then 2 else 1)), v vd) else (v vd, 0)

def atomLanes (o : AtomOp) (c : LCtx) (acc : Acc) (w : Wave) (r : BitVec 256) (ls : List Nat) : M (List (Nat × Dword)) :=
  match ls with
  | [] => pure []
  | l :: t => do
    let (d, cmp) := atomArgs o c w l
    let old ← atomAccess acc (laneAddr c w r l).va (wordSize c.w.ty) (atomOf o c.w.ty) d cmp c.w.sem.toNat c.w.scope.toNat
    let rest ← atomLanes o c acc w r t
    pure ((l, BitVec.ofNat 64 old) :: rest)

/-- ATOM: one read-modify-write per lane, ascending; out-of-bounds lanes of a lenient record receive 0. -/
def atomM (o : AtomOp) (c : LCtx) : M Unit := do
  heldBack c
  let r ← recordCheck c
  let s ← get
  let w := s.wave c.k
  let inside ← lanesInBounds c r true
  let va (l : Nat) : Dword := (laneAddr c w r l).va
  laneResolve c inside va (wordSize c.w.ty) .store true true
  peakCheck c (laneWrites c.i c.w)
  if c.act ≠ 0 then
    if semReleases c.w.sem.toNat then laneRelease c
  let acc := s.laneAcc c.k
  laneGate c acc inside va (wordSize c.w.ty)
  noteOob c inside true
  let vs ← atomLanes o c acc w r inside
  modWave c.k fun w => w.writeOperand (ty64 c.w.ty) c.w.vd.toNat c.act fun l =>
    ((vs.find? fun v => v.1 == l).map (·.2)).getD 0
  completed c none

/-- ATOM.ADD (R280). -/
def execAtomAdd (w : LaneWord) (s : State) : Host.Outcome State Fault Refusal :=
  laneInstr (.atomAdd w) w (fun _ => pure ()) (atomM .add) s

/-- ATOM.SWAP (R280). -/
def execAtomSwap (w : LaneWord) (s : State) : Host.Outcome State Fault Refusal :=
  laneInstr (.atomSwap w) w (fun _ => pure ()) (atomM .swap) s

/-- ATOM.AND (R280). -/
def execAtomAnd (w : LaneWord) (s : State) : Host.Outcome State Fault Refusal :=
  laneInstr (.atomAnd w) w (fun _ => pure ()) (atomM .and) s

/-- ATOM.OR (R280). -/
def execAtomOr (w : LaneWord) (s : State) : Host.Outcome State Fault Refusal :=
  laneInstr (.atomOr w) w (fun _ => pure ()) (atomM .or) s

/-- ATOM.XOR (R280). -/
def execAtomXor (w : LaneWord) (s : State) : Host.Outcome State Fault Refusal :=
  laneInstr (.atomXor w) w (fun _ => pure ()) (atomM .xor) s

/-- ATOM.MAX (R280). -/
def execAtomMax (w : LaneWord) (s : State) : Host.Outcome State Fault Refusal :=
  laneInstr (.atomMax w) w (fun _ => pure ()) (atomM .max) s

/-- ATOM.FADD (R280). -/
def execAtomFadd (w : LaneWord) (s : State) : Host.Outcome State Fault Refusal :=
  laneInstr (.atomFadd w) w (fun _ => pure ()) (atomM .fadd) s

/-- ATOM.CAS (R280). -/
def execAtomCas (w : LaneWord) (s : State) : Host.Outcome State Fault Refusal :=
  laneInstr (.atomCas w) w (fun _ => pure ()) (atomM .cas) s

/-! ## FENCE (R286) -/

/-- FENCE: earlier accesses of the wave are performed; a releasing order performs its quantum updates too. -/
def execFence (w : LaneWord) (s : State) : Host.Outcome State Fault Refusal :=
  laneInstr (.fence w) w (fun _ => pure ()) (fun c => do
    drainM c.k
    if semReleases c.w.sem.toNat then modify fun s => s.releaseUnit (.wave c.k) c.w.scope.toNat
    completed c none) s

/-! ## CWB, CINV, CFLUSH (R287) -/

/-- A lane's range. -/
structure LaneRange where
  lane : Nat
  lo : Nat
  len : Nat
deriving DecidableEq, Repr

def insertRange (x : LaneRange) (l : List LaneRange) : List LaneRange :=
  match l with
  | [] => [x]
  | y :: t => if x.lo < y.lo then x :: y :: t else y :: insertRange x t

/-- Ranges sorted by start joined where they meet, as start and length. -/
def joinRanges (l : List LaneRange) : List (Nat × Nat) :=
  l.foldl (fun acc x =>
    match acc with
    | (lo, len) :: t => if x.lo ≤ lo + len then (lo, max len (x.lo + x.len - lo)) :: t else (x.lo, x.len) :: acc
    | [] => [(x.lo, x.len)]) []
  |>.reverse

/-- The operation over the union, ascending; a page without a mapping is the fault of the lowest lane whose range holds
its first byte. -/
def rangesM (c : LCtx) (acc : Acc) (o : RangeOp) (all : List LaneRange) (us : List (Nat × Nat)) : M Unit :=
  match us with
  | [] => pure ()
  | (lo, len) :: t => do
    match ← attempt (rangeLines acc o lo len (len / 256 + 2)) with
    | .ok _ => rangesM c acc o all t
    | .error e => do
      let a := e.tval.toNat % 2 ^ 48
      let holds (r : LaneRange) : Bool := decide (r.lo ≤ a ∧ a < r.lo + r.len)
      let lane := ((all.filter holds).map (·.lane)).foldl min 64
      failLane e.code (laneDetail lane e) e.tval (maskOf fun l => all.any fun r => r.lane == l && holds r)

def rangeLanes (o : RangeOp) (c : LCtx) : M Unit := do
  heldBack c
  let r ← recordCheck c
  let s ← get
  let w := s.wave c.k
  let inside ← lanesInBounds c r true
  let start (l : Nat) : Nat := (laneAddr c w r l).va.toNat % 2 ^ 48
  let len (l : Nat) : Nat := (w.reg c.w.vd.toNat l).toNat
  let past := inside.filter fun l => decide (2 ^ 48 < start l + len l)
  match past with
  | l :: _ => failLane 2 l 0 (maskOf past.contains)
  | [] => pure ()
  if c.act ≠ 0 then drainM c.k
  noteOob c inside false
  let rs := (inside.filter fun l => len l != 0).map fun l => ({ lane := l, lo := start l, len := len l } : LaneRange)
  rangesM c (s.laneAcc c.k) o rs (joinRanges (rs.foldr insertRange []))
  completed c none

def execCwb (w : LaneWord) (s : State) : Host.Outcome State Fault Refusal :=
  laneInstr (.cwb w) w (fun _ => pure ()) (rangeLanes .cwb) s

def execCinv (w : LaneWord) (s : State) : Host.Outcome State Fault Refusal :=
  laneInstr (.cinv w) w (fun _ => pure ()) (rangeLanes .cinv) s

def execCflush (w : LaneWord) (s : State) : Host.Outcome State Fault Refusal :=
  laneInstr (.cflush w) w (fun _ => pure ()) (rangeLanes .cflush) s

/-! ## STQ (R288) -/

def pushStqs (k : Nat) (os : List StqOp) : M Unit :=
  match os with
  | [] => pure ()
  | o :: t => do
    modify fun s => s.pushSend (8192 + k / 16) (.stq o)
    pushStqs k t

/-- Every word of a strict record lies in bounds (R195). -/
def strictCheck (c : LCtx) (r : BitVec 256) (at' : Nat → LaneAddr) : M Unit :=
  if BufRec.bnd r = 1 then laneCheck (lanesOf c.act) fun l => guardM (!(at' l).oob) (excDev 6 0 (at' l).va) else pure ()

/-- Earlier accesses come first, where the instruction has lanes to issue one. -/
def drainFor (c : LCtx) : M Unit := if c.act = 0 then pure () else drainM c.k

def stqLanes (c : LCtx) : M Unit := do
  heldBack c
  let r ← recordCheck c
  let s ← get
  let w := s.wave c.k
  let h := w.hart
  let acc := s.laneAcc c.k
  let at' (l : Nat) : LaneAddr := laneAddr c w r l
  let ls := lanesOf c.act
  strictCheck c r at'
  let inside := ls.filter fun l => !(at' l).oob
  let desc (l : Nat) : M (List Byte) := vread acc (at' l).va 64
  let body (l : Nat) : Dword := w.pair c.w.vd.toNat l
  let op (l : Nat) : M StqOp := do
    match stqOf (← get) h.crew h.launch (← desc l) with
    | .ok o => pure o
    | .error n => fail (excReserved n)
  drainFor c
  laneCheck inside fun l => aligned (at' l).va 64
  laneCheck inside fun l => do
    let _ ← desc l
  laneCheck inside fun l => do
    let _ ← op l
  laneCheck inside fun l => do
    let _ ← vread acc (body l) (stqLen (← desc l))
  let free := (← get).sendFree (8192 + c.k / 16)
  if free < inside.length then failLane 14 free 0 c.act
  let os ← forLanes inside fun l => do
    let o ← op l
    let bs ← vread acc (body l) (stqLen (← desc l))
    pure { o with
      queue := 8192 + c.k / 16
      payload := bs
      cluster := c.k / 128
      dptb := h.dptb
      priv := Priv.u
      dcrew := h.dcrew
      wave := some c.k
      lane := l }
  noteOob c inside false
  pushStqs c.k os
  completed c none

def execStq (w : LaneWord) (s : State) : Host.Outcome State Fault Refusal :=
  laneInstr (.stq w) w (fun _ => pure ()) stqLanes s

/-! ## PFH (R289) -/

/-- The line of a word is filled ahead of use; a fault is dropped. -/
def prefetch (acc : Acc) (hint : Nat) (va : Dword) (n : Nat) : M Unit := do
  match ← attempt (resolve acc va n .load) with
  | .ok gs =>
    match gs with
    | { loc := .mem pa u, len := _ } :: _ =>
      modify fun s =>
        let line := pa / 256
        if s.hostFilter.contains line then s
        else if hint = 3 then s.llcTouch line
        else if u then s.fillLine acc.cluster line
        else s.tokenRead acc.cluster line
    | _ => pure ()
  | .error _ => pure ()

def prefetchLanes (acc : Acc) (hint n : Nat) (vs : List Dword) : M Unit :=
  match vs with
  | [] => pure ()
  | va :: t => do
    prefetch acc hint va n
    prefetchLanes acc hint n t

def pfhM (c : LCtx) : M Unit := do
  let r ← recordCheck c
  let s ← get
  let w := s.wave c.k
  let as' := (lanesOf c.act).map (laneAddr c w r)
  let good := as'.filter fun a => !a.oob && !a.mis && a.va.toNat % wordSize c.w.ty == 0 && canonical a.va
  prefetchLanes (s.laneAcc c.k) c.w.hint.toNat (wordSize c.w.ty) (good.map (·.va))
  completed c none

def execPfh (w : LaneWord) (s : State) : Host.Outcome State Fault Refusal :=
  laneInstr (.pfh w) w (fun _ => pure ()) pfhM s

end Sys2Proof.Machine
end

