-- ==== Sys2Proof/Machine/BloomLane.lean ====
section
/-! DEFINITION. The BLM lane instructions (R369 to R371), and Bloom's register writes and fan-out jobs as events. -/

namespace Sys2Proof.Machine

def sendEvents (k : Nat) (es : List Dword) : M Unit :=
  match es with
  | [] => pure ()
  | e :: t => do
    modify fun s => s.sendEvent (UnitId.wave k).code (k / 128) e
    sendEvents k t

/-- BLM.EMIT: the event word of each active lane leaves, after a release at package scope (R370). -/
def execBlmEmit (w : LaneWord) (s : State) : Host.Outcome State Fault Refusal :=
  laneInstr (.blmEmit w) w (fun _ => pure ()) (fun c => do
    if c.act ≠ 0 then do
      drainM c.k
      modify fun s => s.releaseUnit (.wave c.k) 3
    let s ← get
    let st := s.wave c.k
    sendEvents c.k ((lanesOf c.act).map fun l => st.pair w.va.toNat l)
    let t ← get
    completedBy c { events := some (s.nextEvent, t.nextEvent) }) s

/-- The bank that VC names, installed by the wave's crew: RESERVED_FIELD with DETAIL 9 otherwise (R371). -/
def ownBank (c : LCtx) : M BloomBank := do
  let s ← get
  match s.bank (c.k / 128) (c.w.vc.toNat % 16) with
  | some x => if some x.crew = (s.wave c.k).hart.crew then pure x else failLane 2 9 0 c.g.mask
  | none => failLane 2 9 0 c.g.mask

/-- The word of a bank that BLM.READ names (R371). -/
def bankWord (n : Nat) (x : BloomBank) : Word :=
  match n with
  | 0 => x.h.setWidth 32 <<< 16 ||| x.td.setWidth 32
  | 1 => BitVec.ofNat 32 x.queue.length
  | 2 => x.late
  | 3 => x.fires
  | _ => x.drop

/-- BLM.READ: a bank's times, queue length or a counter, in every active lane (R371). -/
def execBlmRead (w : LaneWord) (s : State) : Host.Outcome State Fault Refusal :=
  laneInstr (.blmRead w) w (fun _ => pure ()) (fun c => do
    let x ← ownBank c
    peakCheck c [w.vd.toNat]
    modWave c.k fun st => st.writeReg w.vd.toNat c.act fun _ => bankWord (w.vc.toNat / 16) x
    completed c none) s

/-- A BLM.WRITE: its effect on the bank once, when some lane is active. -/
def blmWrite (f : Nat → Nat → BloomBank → Half → M Unit) (c : LCtx) : M Unit := do
  let x ← ownBank c
  if c.act ≠ 0 then do
    let st ← getWave c.k
    orStall (f (c.k / 128) (c.w.vc.toNat % 16) x ((st.uni c.w.vb.toNat).setWidth 16))
  completed c none

/-- BLM.WRITE ADVANCE: the horizon moves, and the queue drains. -/
def execBlmAdvance (w : LaneWord) (s : State) : Host.Outcome State Fault Refusal :=
  laneInstr (.blmAdvance w) w (fun _ => pure ()) (blmWrite fun cl b _ v => do
    modBank cl b fun x => { x with h := if 0 < sd v x.h then v else x.h }
    drainBank cl b false 1025) s

/-- BLM.WRITE FLUSH: every queued event is delivered, and TD is the horizon. -/
def execBlmFlush (w : LaneWord) (s : State) : Host.Outcome State Fault Refusal :=
  laneInstr (.blmFlush w) w (fun _ => pure ()) (blmWrite fun cl b _ _ => do
    drainBank cl b true 1025
    modBank cl b fun x => { x with td := x.h }) s

/-- BLM.WRITE CLEAR: LATE, FIRES and DROP become 0. -/
def execBlmClear (w : LaneWord) (s : State) : Host.Outcome State Fault Refusal :=
  laneInstr (.blmClear w) w (fun _ => pure ()) (blmWrite fun cl b _ _ =>
    modBank cl b fun x => { x with
      late := 0
      fires := 0
      drop := 0 }) s

/-- BLOOM_INSTALL: a write to dbbank. -/
def execBloomInstall (cluster : Nat) (addr : Dword) (s : State) : Host.Outcome State Fault Refusal :=
  event (engineWork (cluster * 7 + 6) (bloomInstall (cluster * 7 + 6) addr)) s

/-- BLOOM_UNINSTALL: a write to dbfree. -/
def execBloomUninstall (cluster : Nat) (v : Dword) (s : State) : Host.Outcome State Fault Refusal :=
  event (engineWork (cluster * 7 + 6) (modify fun s => s.bloomFree (cluster * 7 + 6) v)) s

/-- BLOOM_FANOUT_JOB: a copy channel between descriptors sends a firing's list; a fault stops that list (R368). -/
def execBloomFanoutJob (engine : Nat) (s : State) : Host.Outcome State Fault Refusal :=
  event (fun s =>
    let e := s.engine engine
    match e.jobs with
    | [] => s
    | j :: rest =>
      if !e.ops.isEmpty then s else
      let acc : Acc := { bloomAcc (engine / 7) j.crew j.dptb with tlb := .engine engine, who := .engine engine }
      match orStall (fanOut engine acc j.ts j.list j.count) (s.setEngine engine { e with jobs := rest }) with
      | .ok _ t => t
      | .error (.exc x) t => runM (bloomLog (engine / 7) j.crew x) t
      | .error _ t => { s with snoops := t.snoops }) s

end Sys2Proof.Machine
end

