-- ==== Sys2Proof/Machine/Coherence.lean ====
section
/-! DEFINITION. Events of translation and coherence: invalidations received and acknowledged (R271, R272), hotness counters
halved (R261), quantum updates performed (R304), walks (R266), tokens requested and returned (R311, R312), home records
recalled (R317). -/

namespace Sys2Proof.Machine

/-! ## Invalidations (R270 to R272) -/

/-- An entry that an invalidation names: derived from its line, or of its page and address space (R270, R271). -/
def Inval.names (i : Inval) (e : TlbEntry) : Bool :=
  match i.line with
  | some l => e.line == l
  | none => (i.allVa || decide (e.va ≤ i.va ∧ i.va < e.va + e.size)) && (i.allAsid || Pte.g e.pte || e.asid == i.asid)

/-- The cluster of a mask is set in it. -/
def clusterBit (c : Nat) : BitVec 128 := BitVec.ofNat 128 (2 ^ c)

/-- INVALIDATION_RECEIVE: the cluster drops what the invalidation names; for a page of the alias detector it first writes
the page's untracked lines back. -/
def execInvalidationReceive (inv cluster : Nat) (s : State) : Host.Outcome State Fault Refusal :=
  event (fun s =>
    match s.invals.find inv with
    | some i =>
      if !i.toReceive.getLsbD cluster then s else
      let s := s.dropTlb cluster i.names
      let s := match i.flushPage with
        | some p => s.flushLines cluster (((s.cluster cluster).lines.map fun (e : Nat × ULine) => e.1).filter fun l => l / 16 == p)
        | none => s
      { s with invals := s.invals.put inv { i with toReceive := i.toReceive &&& ~~~clusterBit cluster } }
    | none => s) s

/-- An access under way that may use a translation the invalidation named. -/
def Inval.holds (i : Inval) (a : PendAccess) : Bool :=
  (i.allAsid || a.asid == i.asid || i.line.isSome) &&
    (i.allVa || i.line.isSome || a.elems.any fun e => e.va % 2 ^ 48 / 4096 == i.va / 4096)

/-- The cluster no longer holds a translation of the line: its bit in the directory goes. -/
def State.dropSharer (s : State) (cluster : Nat) : State :=
  let tlb := (s.cluster cluster).tlb
  let keep (e : Nat × BitVec 128) : Nat × BitVec 128 :=
    if tlb.any fun x => x.line == e.1 then e else (e.1, e.2 &&& ~~~clusterBit cluster)
  { s with directory := (s.directory.map keep).filter fun e => e.2 != 0 }

/-- The cluster no longer holds a translation of the page: its bit in the mode record goes, and an empty record (R316). -/
def State.dropHolder (s : State) (cluster : Nat) : State :=
  let tlb := (s.cluster cluster).tlb
  let lives (page pages : Nat) : Bool := tlb.any fun x =>
    decide (Pte.ppn x.pte < page + pages ∧ page < Pte.ppn x.pte + x.size / 4096)
  let keep (e : Nat × ModeRec) : Nat × ModeRec :=
    if lives e.1 e.2.pages then e else (e.1, { e.2 with holders := e.2.holders &&& ~~~clusterBit cluster })
  { s with modes := (s.modes.map keep).filter fun e => e.2.holders != 0 }

/-- The last acknowledgement completes the invalidation: its hart goes on. -/
def State.endInval (s : State) (inv : Nat) (i : Inval) : State :=
  let s : State := { s with invals := s.invals.del inv }
  match i.hart with
  | some h => if (s.hart h).run == .parked .inval then s.setHart h { s.hart h with granted := some (.value 0) } else s
  | none => s

/-- INVALIDATION_ACK: the cluster has dropped the entries, and no access under way used one. -/
def execInvalidationAck (inv cluster : Nat) (s : State) : Host.Outcome State Fault Refusal :=
  event (fun s =>
    match s.invals.find inv with
    | some i =>
      let busy := s.waves.any fun e => e.1 / 128 == cluster && e.2.accesses.any i.holds
      if i.toReceive.getLsbD cluster || !i.toAck.getLsbD cluster || busy then s else
      let s := (s.dropSharer cluster).dropHolder cluster
      let i := { i with toAck := i.toAck &&& ~~~clusterBit cluster }
      if i.toAck = 0 then s.endInval inv i else { s with invals := s.invals.put inv i }
    | none => s) s

/-! ## Hotness and quantum updates -/

/-- HOTNESS_HALVING: every 4,194,304 clk the counters of a die halve (R261). -/
def execHotnessHalving (die : Nat) (s : State) : Host.Outcome State Fault Refusal :=
  event (fun s => s.halveHot die) s

/-- QUANTUM_FLUSH: a pending quantum update is performed, the earlier ones to its line first (R296, R304). -/
def execQuantumFlush (n : Nat) (s : State) : Host.Outcome State Fault Refusal :=
  event (fun s =>
    match s.quantum[n]? with
    | some q =>
      let before := s.quantum.take n
      s.performAll fun x => x == q || (x.unit == q.unit && x.pa / 256 == q.pa / 256 && before.contains x)
    | none => s) s

/-! ## Walks -/

/-- PAGE_WALK: the walk for an access of a hart fills the TLBs; a walk that faults fills nothing, and its access raises the
fault (R266, R268, R269). -/
def execPageWalk (h : HartId) (va : Dword) (kind : AccessKind) (s : State) : Host.Outcome State Fault Refusal :=
  event (fun s =>
    let a := va.toNat % 2 ^ 48
    if canonical va && !inWindow a then
      match translate (s.accOf h) a kind s with
      | .ok _ t => t
      | .error _ _ => s
    else s) s

/-! ## Tokens (R310 to R314) -/

/-- The lines of a granule, at most those of an object. -/
def State.granuleLines (s : State) (g : Nat) : List Nat :=
  match s.objects.find (g - 2 ^ 70) with
  | some o => if 2 ^ 70 ≤ g then o.pages.flatMap fun p => (List.range 16).map fun i => p * 16 + i else [g]
  | none => [g]

/-- The granule is one: a line of no object, or an object that lives. -/
def State.isGranule (s : State) (g : Nat) : Bool :=
  if g < 2 ^ 70 then (s.objectOf g).isNone && (paKind (g * 256) == .dram || paKind (g * 256) == .host)
  else (s.objects.find (g - 2 ^ 70)).isSome

/-- Tokens of every line in a range of physical memory return home. -/
def State.homeRange (s : State) (lo n : Nat) : State :=
  let inRange (l : Nat) : Bool := decide (lo / 256 ≤ l ∧ l ≤ (lo + n - 1) / 256)
  let lines := (s.tokens.map (·.1)).filter inRange
  let objs := (s.objects.filter fun o => o.2.pages.any fun p => (List.range 16).any fun i => inRange (p * 16 + i)).filterMap
    fun o => o.2.pages.head?
  let s := lines.foldl State.tokenHome s
  objs.foldl (fun s p => s.tokenHome (p * 16)) s

/-- A device request for a line that the host may hold waits for the snoop of the host (R425). -/
def State.snoopFirst (s : State) (ls : List Nat) : Option State :=
  match ls.find? s.hostFilter.contains with
  | some l => some (if (s.snoops.find l).isNone then { s with snoops := s.snoops.put l false } else s)
  | none => none

/-- A token request answered: one token to read, or every token. -/
def State.answerRequest (s : State) (c g : Nat) (write : Bool) : State :=
  let line := (s.granuleLines g).headD g
  if write then
    let dirty := (s.tok g).dirty
    let s := s.tokenWrite c line
    s.setTok g { s.tok g with dirty := dirty }
  else s.tokenRead c line

/-- TOKEN_REQUEST: the home and the holders answer a transient request of a cluster's L1 (R312). -/
def execTokenRequest (cluster granule : Nat) (write : Bool) (s : State) : Host.Outcome State Fault Refusal :=
  event (fun s =>
    if !s.isGranule granule then s else
    match s.snoopFirst (s.granuleLines granule) with
    | some t => t
    | none => s.answerRequest (cluster % 128) granule write) s

/-- The persistent request that the home of a granule serves first: the earliest, the lower cluster of several. -/
def State.firstPersistent (s : State) (g : Nat) : Option PersReq :=
  (s.persistent.filter fun p => p.granule == g).foldl (fun m p => match m with
    | some q => if p.clk < q.clk ∨ p.clk = q.clk ∧ p.cluster < q.cluster then some p else some q
    | none => some p) none

/-- PERSISTENT_REQUEST: a request that has not been satisfied becomes persistent; once it is its granule's first, every
token goes to the requester, and the home deactivates it after one access (R312). -/
def execPersistentRequest (cluster granule : Nat) (write : Bool) (s : State) : Host.Outcome State Fault Refusal :=
  event (fun s =>
    let c := cluster % 128
    if !s.isGranule granule then s else
    match s.persistent.find? fun p => p.cluster == c && p.granule == granule with
    | none => { s with persistent := s.persistent ++ [{ cluster := c, granule := granule, write := write, clk := s.clk }] }
    | some p =>
      if s.firstPersistent granule ≠ some p then s else
      match s.snoopFirst (s.granuleLines granule) with
      | some t => t
      | none => { s.answerRequest c granule true with persistent := s.persistent.erase p }) s

/-- The L1 of a cluster gives up every token of a granule: reservations there go (R17), the owner's data is at the home. -/
def State.evictTokens (s : State) (c g : Nat) : State :=
  let t := s.tok g
  let s := s.dropResvs c none fun r => r.granule = g
  let s := if t.owner = some c ∧ t.dirty then s.llcTouch ((s.granuleLines g).headD g) else s
  s.setTok g {
    held := t.held.del c
    owner := if t.owner = some c then none else t.owner
    dirty := t.dirty && t.owner != some c }

/-- TOKEN_EVICTION: a cluster's L1 evicts a granule (R311). -/
def execTokenEviction (cluster granule : Nat) (s : State) : Host.Outcome State Fault Refusal :=
  event (fun s => if ((s.tok granule).held.getD cluster 0) = 0 then s else s.evictTokens cluster granule) s

/-- Every 8-byte word of some lines is poisoned. -/
def State.poisonLines (s : State) (ls : List Nat) : State :=
  { s with poison := (ls.flatMap fun l => (List.range 32).map fun i => l * 32 + i).foldl insertNat s.poison }

/-- HOME_RECALL: an uncorrectable error in a home record. Every L1 returns its tokens; 129 of them restore the granule, any
other total poisons it (R317). -/
def execHomeRecall (granule : Nat) (s : State) : Host.Outcome State Fault Refusal :=
  event (fun s =>
    if !s.isGranule granule then s else
    let t := s.tok granule
    let ls := s.granuleLines granule
    let line := ls.headD granule
    let total := (t.held.map (·.2)).sum
    let s := (s.loseOthers 128 granule t.held).setTok granule {}
    let s := if total = 129 then s.llcTouch line else s.poisonLines ls
    let pa := line * 256
    let d := if paKind pa == .host then 0 else dieOfPa pa
    s.logError 0 0 12 255 (sliceCluster d (sliceOf pa)) pa 0 0 0xFFFFFFFF) s

end Sys2Proof.Machine
end

