-- ==== Sys2Proof/Machine/LaneConvert.lean ====
section
/-! DEFINITION. Lane conversions (R180), the OQ4 formats (R49 to R53), the OQ4 quantiser (R58, R59, R181) and block alignment
(R57, R182). -/

namespace Sys2Proof.Machine

/-! ## Element conversions -/

/-- One element from type `src` to type `dst`, neither OQ4 (R46 to R48, R180). -/
def cvtElem (dst src : BitVec 4) (r : Rnd) (sat : Bool) (x : Nat) : FRes :=
  if tyFloat src then
    let v := unpack (laneFmt src) x
    if tyFloat dst then convertFmt (laneFmt dst) r sat v
    else toIntSat r (tySigned dst) (tyWidth dst) v
  else
    let v := elemInt src x
    if tyFloat dst then roundVal (laneFmt dst) r sat (intVal v)
    else { bits := fitInt dst (sat && decide (tyWidth dst ≤ tyWidth src)) v }

/-! ## OQ4 -/

/-- The integer of a slot code; 8 reads as 0 (R50, R51). -/
def slotInt (c : Nat) : Int := if c < 8 then c else if c = 8 then 0 else (c : Int) - 16

/-- A decoded quad (R50): the four integer parts, the outlier's position and byte, the anomalies (R51). -/
structure Quad where
  e : List Int
  out : Option (Nat × Nat) := none
  anomalies : Nat := 0
deriving DecidableEq, Repr

def anomaly (c : Nat) : Nat := if c = 8 then 1 else 0

/-- decode_quad of R50, for the 16 bits of a quad. -/
def decodeQuad (q : Nat) : Quad :=
  let s (i : Nat) := bits q (4 * i) 4
  if s 0 = 8 then
    { e := [0, 0, 0, slotInt (s 3)], out := some (0, s 2 * 16 + s 1), anomalies := anomaly (s 3) }
  else if s 1 = 8 then
    { e := [slotInt (s 0), 0, 0, 0], out := some (1, s 3 * 16 + s 2) }
  else
    { e := [slotInt (s 0), slotInt (s 1), slotInt (s 2), slotInt (s 3)], anomalies := anomaly (s 2) + anomaly (s 3) }

/-- Fields of a block scale word (R53). -/
def scaleE (w : Nat) : Nat := w % 256
def scaleX (w : Nat) : Nat := w / 256 % 256
def scaleM (w : Nat) : Nat := w / 65536 % 256

/-- A dyadic number, m·2^e. -/
structure Dyad where
  m : Int
  e : Int
deriving DecidableEq, Repr

/-- The mantissa at exponent `q`, which is not above the number's own. -/
def Dyad.atExp (d : Dyad) (q : Int) : Int := d.m * (2 ^ (d.e - q).toNat : Nat)

def Dyad.val (d : Dyad) : FVal := .fin (d.m < 0) d.m.natAbs d.e

/-- A finite value as a dyadic number; a NaN or an infinity counts as 0. -/
def FVal.dyad (v : FVal) : Dyad :=
  match v with
  | .fin n m e => { m := if n then -(m : Int) else m, e := e }
  | _ => { m := 0, e := 0 }

/-- The integer scale of a word with E from 1 to 254, and its outlier scale (R53). -/
def siOf (w : Nat) : Dyad := { m := 256 + scaleM w, e := (scaleE w : Int) - 135 }
def soOf (w : Nat) : Dyad := { m := 1, e := (scaleX w : Int) - 127 }

def Dyad.mul (a b : Dyad) : Dyad := { m := a.m * b.m, e := a.e + b.e }

/-- The value of the slot `k` of a quad under a scale word with E from 1 to 254 (R50): none for an outlier that is a
NaN (R52). -/
def quadVal (q : Quad) (scale k : Nat) : Option FVal :=
  let int := ({ m := q.e.getD k 0, e := 0 } : Dyad).mul (siOf scale)
  match q.out with
  | some (j, byte) =>
    if j = k then
      match unpack .e4m3 byte with
      | .fin n m e =>
        let so := soOf scale
        some (sumVal false (int.m < 0) int.m.natAbs int.e n m (e + so.e))
      | _ => none
    else some int.val
  | none => some int.val

/-- CVT.f32.oq4 of slot `sel` of a register (R180). -/
def oq4ToF32 (r : Rnd) (sat : Bool) (word scale sel : Nat) : FRes :=
  if scaleE scale = 0 then { bits := 0 }
  else if scaleE scale = 255 then nanRes .f32 true
  else
    match quadVal (decodeQuad (bits word (16 * (sel / 4)) 16)) scale (sel % 4) with
    | some v => roundVal .f32 r sat v
    | none => nanRes .f32 true

/-- The elements 0 to n − 1 of a conversion put into `d` from element `first` on. -/
def putElems (width first : Nat) (f : Nat → FRes) (d : Nat) (n : Nat) : FRes :=
  match n with
  | 0 => { bits := d }
  | n + 1 =>
    let r := putElems width first f d n
    let e := f n
    let at' := width * (first + n)
    { bits := r.bits - bits r.bits at' width * 2 ^ at' + e.bits % 2 ^ width * 2 ^ at', flags := r.flags ||| e.flags }

/-- CVT of one lane (R180). -/
def cvtLane (c : LCtx) (w : Wave) (l : Nat) : LaneRes :=
  let src := c.w.stype
  let dst := c.w.ty
  let sel := c.w.vc.toNat
  let ns := tyCount src
  let nd := tyCount dst
  let n := min ns nd
  let a := w.operand (ty64 src) c.w.va.toNat l
  let r :=
    if src = 15 then
      let scale := if c.w.u then w.uni c.w.vb.toNat else (w.reg c.w.vb.toNat l).zeroExtend 64
      oq4ToF32 (w.rnd c.w.rm.toNat l 0) c.w.sat a.toNat (scale.toNat % 2 ^ 24) sel
    else
      let first := if nd < ns then sel * n else 0
      let elemR (j : Nat) := cvtElem dst src (w.rnd c.w.rm.toNat l j) c.w.sat (elem a (tyWidth src) (first + j))
      if ns < nd then putElems (tyWidth dst) (sel * n) elemR (w.reg c.w.vd.toNat l).toNat n
      else putElems (tyWidth dst) 0 elemR 0 n
  { val := BitVec.ofNat 64 r.bits, flags := r.flags }

/-- CVT (R180). -/
def execCvt (w : LaneWord) (s : State) : Host.Outcome State Fault Refusal :=
  let draws := if w.rm = 5 then min (tyCount w.stype) (tyCount w.ty) else 0
  laneWave (.cvt w) w (fun c st => writeResults c (ty64 w.ty) draws (cvtLane c st) st) s

/-! ## The quantiser -/

/-- rne_int(x / s) for s > 0, with both at one exponent (R58). -/
def rneRatio (x s : Int) : Int :=
  let a := x.natAbs
  let d := s.natAbs
  let q := a / d
  let r := a % d
  let q := if d < 2 * r ∨ (2 * r = d ∧ q % 2 = 1) then q + 1 else q
  if x < 0 then -(q : Int) else q

def sq (x : Int) : Int := x * x

/-- The low four bits of a slot's integer. -/
def slotCode (q : Int) : Nat := (q % 16).toNat

/-- qnt_quad of R58 on dyadic inputs, with the slots it writes and whether every element decodes to its input. -/
def qntQuad (xs : List Dyad) (scale : Nat) : Nat × Bool :=
  let si := siOf scale
  let so := soOf scale
  let x (k : Nat) : Dyad := xs.getD k { m := 0, e := 0 }
  let e0 := min (min (min (x 0).e (x 1).e) (min (x 2).e (x 3).e)) (min si.e (so.e - 9))
  let v (k : Nat) : Int := (x k).atExp e0
  let s := si.atExp e0
  let q (k : Nat) : Int := clampInt (-7) 7 (rneRatio (v k) s)
  let plain := slotCode (q 0) + slotCode (q 1) * 16 + slotCode (q 2) * 256 + slotCode (q 3) * 4096
  let d (k : Nat) : Int := v k - q k * s
  let errN := sq (d 0) + sq (d 1) + sq (d 2) + sq (d 3)
  let exactN := d 0 == 0 && d 1 == 0 && d 2 == 0 && d 3 == 0
  let big (k : Nat) : Bool := decide (15 * s < 2 * (v k).natAbs)
  let cand : Option Nat :=
    if big 0 then (if big 1 && decide ((v 0).natAbs < (v 1).natAbs) then some 1 else some 0)
    else if big 1 then some 1 else none
  match cand with
  | none => (plain, exactN)
  | some k =>
    let o := (roundTo .e4m3 { mode := 0 } true ((x k).m < 0) (x k).m.natAbs ((x k).e - so.e) false).bits
    let ov := ((unpack .e4m3 o).dyad.mul so).atExp e0
    let lo := o % 16
    let hi := o / 16 % 16
    if k = 0 then
      let errO := sq (v 0 - ov) + sq (v 1) + sq (v 2) + sq (d 3)
      if errO < errN then
        (8 + lo * 16 + hi * 256 + slotCode (q 3) * 4096, v 0 == ov && v 1 == 0 && v 2 == 0 && d 3 == 0)
      else (plain, exactN)
    else
      let errO := sq (d 0) + sq (v 1 - ov) + sq (v 2) + sq (v 3)
      if errO < errN then
        (slotCode (q 0) + 8 * 16 + lo * 256 + hi * 4096, d 0 == 0 && v 1 == ov && v 2 == 0 && v 3 == 0)
      else (plain, exactN)

/-- An input as QNT takes it (R59): a NaN as 0, an infinity as the largest finite FP32 value. -/
def qntInput (v : FVal) : Dyad :=
  match v with
  | .nan _ => { m := 0, e := 0 }
  | .inf n => { (unpack .f32 0x7F7FFFFF).dyad with m := if n then -(2 ^ 24 - 1) else 2 ^ 24 - 1 }
  | v => v.dyad

/-- The 32-bit result of QNT for eight inputs under a scale word, with its flags (R58, R59). -/
def qntWord (vs : List FVal) (scale : Nat) : FRes :=
  if scaleE scale = 255 then { bits := 0, flags := Flag.nv }
  else
    let nv := if vs.any FVal.isNan then Flag.nv else 0
    let xs := vs.map qntInput
    if scaleE scale = 0 then { bits := 0, flags := nv + (if xs.any fun d => d.m != 0 then Flag.nx else 0) }
    else
      let (q0, e0) := qntQuad (xs.take 4) scale
      let (q1, e1) := qntQuad (xs.drop 4) scale
      { bits := q0 + q1 * 65536, flags := nv + (if e0 && e1 then 0 else Flag.nx) }

/-- The eight inputs of a lane: eight FP32 registers, or four registers of two BF16 elements (R181). -/
def qntInputs (c : LCtx) (w : Wave) (l : Nat) : List FVal :=
  let a := c.w.va.toNat
  if c.w.stype = 11 then (List.range 8).map fun i => unpack .f32 (w.reg (a + i) l).toNat
  else (List.range 8).map fun i => unpack .bf16 (bits (w.reg (a + i / 2) l).toNat (16 * (i % 2)) 16)

/-- The scale word that VB supplies to a lane. -/
def scaleOperand (c : LCtx) (w : Wave) (l : Nat) : Nat :=
  (if c.w.u then w.uni c.w.vb.toNat else (w.reg c.w.vb.toNat l).zeroExtend 64).toNat % 2 ^ 24

/-- QNT (R181). -/
def execQnt (w : LaneWord) (s : State) : Host.Outcome State Fault Refusal :=
  laneWave (.qnt w) w (fun c st => writeResults c false 0 (fun l =>
    let r := qntWord (qntInputs c st l) (scaleOperand c st l)
    { val := BitVec.ofNat 64 r.bits, flags := r.flags }) st) s

/-! ## Block alignment -/

/-- The width of aligned integers by source type (R56). -/
def alignWidth (src : BitVec 4) : Nat := if src = 10 then 12 else 8

/-- The exponent word of align_block (R57). -/
def alignWord (vs : List FVal) (w : Nat) : Nat :=
  if vs.any fun v => v.isNan || v.isInf then 255
  else
    let es := (vs.filter fun v => !v.isZero).map fun v =>
      match v with
      | .fin _ m e => (log2 m : Int) + e
      | _ => 0
    match es with
    | [] => 0
    | e :: t =>
      let emax := t.foldl max e
      (max (emax - ((w : Int) - 2)) (-126) + 127).toNat

/-- One element aligned under exponent E (R182, mode 0). -/
def alignElem (w e : Nat) (v : FVal) : Int × Nat :=
  match v with
  | .fin n m x =>
    let q := if e = 0 ∨ e = 255 then 0
      else clampInt (-(2 ^ (w - 1) - 1)) (2 ^ (w - 1) - 1) (roundInt { mode := 0 } n m (x + 127 - e)).1
    let exact := cmpFin (q < 0) q.natAbs ((e : Int) - 127) n m x == .eq
    (q, if exact then 0 else Flag.nx)
  | _ => (0, Flag.nv)

/-- Source elements of a lane. -/
def alnInputs (c : LCtx) (w : Wave) (l : Nat) : List FVal :=
  let a := w.reg c.w.va.toNat l
  (List.range (tyCount c.w.stype)).map fun i => unpack (laneFmt c.w.stype) (bits a.toNat (tyWidth c.w.stype * i) (tyWidth c.w.stype))

def alnExponent (c : LCtx) (w : Wave) : Wave :=
  let block := (lanesOf c.act).flatMap (alnInputs c w)
  let word := alignWord block (alignWidth c.w.stype)
  let nv := if block.any FVal.isNan then Flag.nv else 0
  writeResults c false 0 (fun l =>
    let eb := scaleE (scaleOperand c w l)
    { val := if eb = 255 ∨ word = 255 then 0xFF else BitVec.ofNat 64 (max eb word), flags := nv }) w

def alnApply (c : LCtx) (w : Wave) : Wave :=
  let wd := tyWidth c.w.ty
  writeResults c false 0 (fun l =>
    let e := scaleE (scaleOperand c w l)
    let vs := alnInputs c w l
    let r := packElems wd (fun i =>
      let (q, fl) := alignElem (alignWidth c.w.stype) e (vs.getD i (.nan false))
      { bits := wrapInt wd q, flags := fl }) (tyCount c.w.ty)
    { val := BitVec.ofNat 64 r.bits, flags := r.flags }) w

/-- ALN (R57, R182): mode 1 writes the block's exponent word, mode 0 the aligned elements. -/
def execAln (w : LaneWord) (s : State) : Host.Outcome State Fault Refusal :=
  laneWave (.aln w) w (fun c st => if w.vc = 1 then alnExponent c st else alnApply c st) s

end Sys2Proof.Machine
end

