-- ==== Sys2Proof/Machine/Texture.lean ====
section
/-! DEFINITION. TEX: texture descriptors (R387), the compressed layout of textures (R386), texel fetches through the index
cache (R390), the sampler's filter (R389), TEX.SMP and TEX.FCH (R388). -/

namespace Sys2Proof.Machine

/-! ## Descriptors (R387) -/

namespace TexRec

def data (r : BitVec 256) : Nat := (r.extractLsb' 0 48).toNat
def fmt (r : BitVec 256) : Nat := (r.extractLsb' 48 2).toNat
/-- C, the channels that the texture has. -/
def chans (r : BitVec 256) : Nat := (r.extractLsb' 50 2).toNat + 1
def dim3 (r : BitVec 256) : Bool := r.getLsbD 52
def levels (r : BitVec 256) : Nat := (r.extractLsb' 56 4).toNat + 1
def index (r : BitVec 256) : Nat := (r.extractLsb' 64 48).toNat
/-- W, H and D. -/
def size (r : BitVec 256) (i : Nat) : Nat := (r.extractLsb' (128 + 16 * i) 16).toNat
def lin (r : BitVec 256) : Bool := r.getLsbD 192
def mip (r : BitVec 256) : Nat := (r.extractLsb' 193 2).toNat
def wrap (r : BitVec 256) : Bool := r.getLsbD 195
/-- Bits of a channel. -/
def wc (r : BitVec 256) : Nat := 8 * 2 ^ fmt r

/-- Reserved fields are 0, codes and ranges are kept, addresses aligned. -/
def ok (r : BitVec 256) : Bool :=
  r.extractLsb' 53 3 == 0#3 && r.extractLsb' 60 4 == 0#4 && r.extractLsb' 112 16 == 0#16 && r.extractLsb' 176 16 == 0#16 &&
    r.extractLsb' 196 60 == 0#60 &&
    decide (fmt r ≠ 3 ∧ levels r ≤ 15 ∧ mip r ≠ 3 ∧ data r % 64 = 0 ∧ index r % 4 = 0) &&
    ((List.range 3).all fun i => decide (1 ≤ size r i ∧ size r i ≤ 16384)) && (dim3 r || size r 2 == 1)

/-- A dimension of a level (R386). -/
def dim (r : BitVec 256) (l i : Nat) : Nat := max 1 (size r i / 2 ^ l)

/-- Texels of a block along an axis. -/
def blockDim (r : BitVec 256) (i : Nat) : Nat := if dim3 r then 4 else if i = 2 then 1 else 8

/-- Blocks of a level along an axis. -/
def blocks (r : BitVec 256) (l i : Nat) : Nat := (dim r l i + blockDim r i - 1) / blockDim r i

/-- Number in the side index of the first block of a level. -/
def firstBlock (r : BitVec 256) (l : Nat) : Nat :=
  match l with
  | 0 => 0
  | l + 1 => firstBlock r l + blocks r l 0 * blocks r l 1 * blocks r l 2

/-- Number in the side index of the block of a texel. -/
def blockOf (r : BitVec 256) (l x y z : Nat) : Nat :=
  firstBlock r l + x / blockDim r 0 + blocks r l 0 * (y / blockDim r 1 + blocks r l 1 * (z / blockDim r 2))

/-- Number of a texel within its block. -/
def texelOf (r : BitVec 256) (x y z : Nat) : Nat :=
  x % blockDim r 0 + blockDim r 0 * (y % blockDim r 1 + blockDim r 1 * (z % blockDim r 2))

end TexRec

/-- An address of 48 bits, in canonical form. -/
def texVa (a : Nat) : Dword := (BitVec.ofNat 48 a).signExtend 64

/-- Delta width of a budget code below 7 (R386). -/
def budgetBits (bc : Nat) : Nat := if bc = 0 then 0 else 2 ^ (bc - 1)

/-- A channel value as FP32 (R387). -/
def texValue (fmt raw : Nat) : Nat :=
  match fmt with
  | 0 => (fdiv .f32 { mode := 0 } false (intVal raw) (intVal 255)).bits
  | 1 => (convertFmt .f32 { mode := 0 } false (unpack .f16 raw)).bits
  | _ => raw

/-! ## Fetches (R390) -/

/-- A fetch of the texture unit for the wave: bytes that an earlier access of the wave still has to write are waited
for. -/
def texRead (k : Nat) (acc : Acc) (fill : Bool) (va : Dword) (n : Nat) : M (List Byte) := do
  let gs ← resolve acc va n .load
  if (← getWave k).meetsPending gs then throw .stall
  readSegs acc (va.toNat % 2 ^ 48) fill gs

/-- The line of side index that texture unit `u` of the cluster holds for an address. -/
def State.texLine (s : State) (acc : Acc) (u a : Nat) : Option TexLine :=
  (s.cluster acc.cluster).texLines.find? fun x => x.unit == u && x.va == a / 64 * 64 && x.tr.hits (asidOf acc.dptb) a

/-- The line is filled, when its bytes can be read. -/
def fillTexLine (k : Nat) (acc : Acc) (u a : Nat) : M Unit := do
  let base := a / 64 * 64
  match ← attempt (texRead k acc true (texVa base) 64) with
  | .ok bs => modify fun s =>
    match (s.tlb acc.tlb).find? fun e => e.hits (asidOf acc.dptb) a with
    | some e =>
      let c := s.cluster acc.cluster
      s.setCluster acc.cluster { c with texLines :=
        { unit := u, va := base, data := bs, tr := e } :: c.texLines.filter fun x =>
          !(x.unit == u && x.va == base && x.tr.hits (asidOf acc.dptb) a) }
    | none => s
  | .error _ => pure ()

/-- A side-index entry: from the index cache where it holds the line and the machine has not lost it, else from memory. -/
def indexEntry (k : Nat) (acc : Acc) (u : Nat) (va : Dword) : M Nat := do
  let a := va.toNat % 2 ^ 48
  match (← get).texLine acc u a with
  | some x => do
    let kept ← freeNatM 2
    if kept = 1 then pure (natOfBytes ((x.data.drop (a % 64)).take 4))
    else do
      let bs ← texRead k acc true va 4
      fillTexLine k acc u a
      pure (natOfBytes bs)
  | none => do
    let bs ← texRead k acc true va 4
    if !inWindow a then fillTexLine k acc u a
    pure (natOfBytes bs)

/-- `n` bits of a block's bitstream from bit `at'`. -/
def streamBits (k : Nat) (acc : Acc) (fill : Bool) (base at' n : Nat) : M Nat := do
  if n = 0 then pure 0
  else do
    let first := at' / 8
    let bs ← texRead k acc fill (texVa (base + first)) ((at' + n - 1) / 8 - first + 1)
    pure (natOfBytes bs / 2 ^ (at' % 8) % 2 ^ n)

/-- The channels of a texel from channel `ch` on, as FP32. -/
def texChannels (k : Nat) (acc : Acc) (fill : Bool) (r : BitVec 256) (base b t ch n : Nat) : M (List Nat) :=
  match n with
  | 0 => pure []
  | n + 1 => do
    let wc := TexRec.wc r
    let low ← streamBits k acc fill base (ch * wc) wc
    let delta ← streamBits k acc fill base (TexRec.chans r * wc + (t * TexRec.chans r + ch) * b) b
    let rest ← texChannels k acc fill r base b t (ch + 1) n
    pure (texValue (TexRec.fmt r) (low ^^^ delta) :: rest)

/-- The four channels of a texel: absent ones read 0, channel 3 reads 1.0. -/
def texel (k : Nat) (acc : Acc) (u : Nat) (fill : Bool) (r : BitVec 256) (l x y z : Nat) : M (List Nat) := do
  let iva := texVa (TexRec.index r + 4 * TexRec.blockOf r l x y z)
  let e ← indexEntry k acc u iva
  let bc := e % 16
  let b := budgetBits bc
  if 7 ≤ bc ∨ TexRec.wc r < b then fail (accessFault acc .load 10 iva.toNat)
  let base := TexRec.data r + 64 * (e / 16)
  let cs ← texChannels k acc fill r base b (TexRec.texelOf r x y z) 0 (TexRec.chans r)
  pure (cs ++ [0, 0, 0, 0x3F800000].drop cs.length)

/-! ## The filter (R389) -/

/-- Floor of a finite value scaled by 2^n; NaN reads 0. -/
def FVal.floorScaled (v : FVal) (n : Nat) : Int :=
  let d := v.dyad
  if 0 ≤ d.e + n then d.m * 2 ^ (d.e + n).toNat else d.m / 2 ^ (-(d.e + n)).toNat

/-- A value between two integers, in FP32; NaN reads 0. -/
def clampVal (lo hi : Int) (v : FVal) : FVal :=
  match v with
  | .nan _ => intVal 0
  | .inf n => intVal (if n then lo else hi)
  | .fin .. =>
    if v.floorScaled 0 < lo then intVal lo else if hi ≤ v.floorScaled 0 then intVal hi else v

/-- level(lod): the two levels and the weight of the second in 1/65536. -/
def texLevel (r : BitVec 256) (lod : Nat) : Nat × Nat × Nat :=
  let top := TexRec.levels r - 1
  let x := clampVal 0 top (match unpack .f32 lod with
    | .nan _ => intVal 0
    | v => v)
  match TexRec.mip r with
  | 0 => (0, 0, 0)
  | 1 =>
    let l := match x with
      | .fin n m e => (roundInt { mode := 0 } n m e).1.toNat
      | _ => 0
    (l, l, 0)
  | _ =>
    let l0 := (x.floorScaled 0).toNat
    (l0, min (l0 + 1) top, (x.floorScaled 16 - 65536 * l0).toNat)

/-- An index along an axis of `n` texels, wrapped or clamped. -/
def texIndex (r : BitVec 256) (i : Int) (n : Nat) : Nat :=
  if TexRec.wrap r then (i % n).toNat else (clampInt 0 ((n : Int) - 1) i).toNat

/-- axis(u, n): the two indexes and the weight of the second. -/
def texAxis (r : BitVec 256) (u n : Nat) : Nat × Nat × Nat :=
  let uv := match unpack .f32 u with
    | .nan _ => intVal 0
    | v => v
  let s := clampVal (-16777216) 16777216
    (unpack .f32 (ffma .f32 { mode := 0 } false uv (intVal n) (.fin true 1 (-1))).bits)
  if TexRec.lin r then
    let i := s.floorScaled 0
    (texIndex r i n, texIndex r (i + 1) n, (s.floorScaled 16 - 65536 * i).toNat)
  else
    let i := (s.floorScaled 1 + 1) / 2
    (texIndex r i n, texIndex r i n, 0)

/-- lerp(a, b, f). -/
def texLerp (a b f : Nat) : Nat :=
  let mul (x w : Nat) : FVal := unpack .f32 (fmul .f32 { mode := 0 } false (unpack .f32 x) (.fin false w (-16))).bits
  (fadd .f32 { mode := 0 } false (mul a (65536 - f)) (mul b f)).bits

def texLerps (a b : List Nat) (f : Nat) : List Nat := List.zipWith (fun x y => texLerp x y f) a b

/-- A level sampled: along x, then y, then z in 3D. -/
def sampleLevel (k : Nat) (acc : Acc) (u : Nat) (fill : Bool) (r : BitVec 256) (l su sv sw : Nat) : M (List Nat) := do
  let (x0, x1, fx) := texAxis r su (TexRec.dim r l 0)
  let (y0, y1, fy) := texAxis r sv (TexRec.dim r l 1)
  let row (y z : Nat) : M (List Nat) := do
    let a ← texel k acc u fill r l x0 y z
    let b ← texel k acc u fill r l x1 y z
    pure (texLerps a b fx)
  let plane (z : Nat) : M (List Nat) := do
    let a ← row y0 z
    let b ← row y1 z
    pure (texLerps a b fy)
  if TexRec.dim3 r then do
    let (z0, z1, fz) := texAxis r sw (TexRec.dim r l 2)
    let a ← plane z0
    let b ← plane z1
    pure (texLerps a b fz)
  else plane 0

/-! ## The instructions (R388) -/

/-- `f` on each lane; the cause of the lowest lane that fails (R195). -/
def laneCollect {α : Type} (ls : List Nat) (f : Nat → M α) : M (List (Nat × α)) := do
  let rs ← forLanes ls fun l => attempt (f l)
  laneCheck ls fun l =>
    match (ls.zip rs).find? fun e => e.1 == l with
    | some (_, .error e) => fail e
    | _ => pure ()
  pure ((ls.zip rs).filterMap fun e => match e.2 with
    | .ok a => some (e.1, a)
    | .error _ => none)

/-- The lane's four coordinates. -/
def texCoord (c : LCtx) (w : Wave) (l i : Nat) : Nat := (w.reg (c.w.va.toNat + i) l).toNat

/-- The four components of some lanes in VD to VD+3; the other active lanes get zeros. -/
def texels (c : LCtx) (rs : List (Nat × List Nat)) (w : Wave) : Wave :=
  (List.range 4).foldl (fun w i => w.writeReg (c.w.vd.toNat + i) c.act fun l =>
    match rs.find? fun e => e.1 == l with
    | some e => BitVec.ofNat 32 (e.2.getD i 0)
    | none => 0) w

/-- A TEX instruction: `inside` selects the lanes that fetch with `f`; the others write zeros and note OOB. -/
def texM (inside : BitVec 256 → Wave → Nat → Bool) (f : BitVec 256 → Wave → Acc → Nat → Nat → M (List Nat)) (c : LCtx) : M Unit := do
  let w ← getWave c.k
  let r := w.record c.w.slot.toNat
  if !TexRec.ok r then failLane 5 1 0 c.g.mask
  heldBack c
  peakCheck c (vdRegs c.i c.w)
  let u ← freeNatM 2
  let s ← get
  let acc := { s.laneAcc c.k with tlb := .unit (c.k / 128) (2 + u), decomp := true }
  let ls := (lanesOf c.act).filter (inside r w)
  let rs ← laneCollect ls (f r w acc u)
  noteOob c ls false
  modWave c.k (texels c rs)
  completed c none

def sampleLane (c : LCtx) (r : BitVec 256) (w : Wave) (acc : Acc) (u l : Nat) : M (List Nat) := do
  let at' := texCoord c w l
  let fill := c.w.hint != 3
  let (l0, l1, fm) := texLevel r (at' 3)
  let a ← sampleLevel c.k acc u fill r l0 (at' 0) (at' 1) (at' 2)
  let b ← sampleLevel c.k acc u fill r l1 (at' 0) (at' 1) (at' 2)
  pure (texLerps a b fm)

def execTexSmp (w : LaneWord) (s : State) : Host.Outcome State Fault Refusal :=
  laneInstr (.texSmp w) w (fun _ => pure ()) (fun c => texM (fun _ _ _ => true) (sampleLane c) c) s

def fetchInside (c : LCtx) (r : BitVec 256) (w : Wave) (l : Nat) : Bool :=
  let lv := texCoord c w l 3
  decide (lv < TexRec.levels r) && (List.range 3).all fun i => decide (texCoord c w l i < TexRec.dim r lv i)

def execTexFch (w : LaneWord) (s : State) : Host.Outcome State Fault Refusal :=
  laneInstr (.texFch w) w (fun _ => pure ()) (fun c => texM (fetchInside c) (fun r w acc u l => do
    let at' := texCoord c w l
    texel c.k acc u (c.w.hint != 3) r (at' 3) (at' 0) (at' 1) (at' 2)) c) s

end Sys2Proof.Machine
end

