-- ==== Sys2Proof/Machine/Copy.lean ====
section
/-! DEFINITION. Engine kicks (R320, R321) and the copy channels' datapath (R322 to R325). -/

namespace Sys2Proof.Machine

/-! ## Kicks (R320, R321) -/

/-- The engine role that the placement table of an image assigns to instance `k` (R85, R319). -/
def Image.engineRole (img : Image) (k : Nat) : Option Nat :=
  (img.placement.find? fun p => decide (p.1 ≤ k / 7 ∧ k / 7 ≤ p.2.1 ∧ p.2.2.1 ≤ k % 7 ∧ k % 7 ≤ p.2.2.2.1) &&
    img.roles.getD p.2.2.2.2 0 == 2).map (·.2.2.2.2)

/-- The engine hart at the start of a kick (R319, R320). -/
def Hart.kicked (h : Hart) (kick : Kick) (pc : Dword) : Hart :=
  { h with
    pc := pc
    x := (((Vector.replicate 32 (0 : Dword)).set 10 kick.arg).set 11 kick.word).set 12 kick.ident
    priv := .u
    dcrew := kick.dcrew
    dptb := kick.dptb
    run := .running
    granted := none
    crew := kick.crew
    bound := kick.crew.isSome
    launch := kick.launch }

/-- The checks of a kick's start, in order: the placed role, the argument pointer, its record, ENTRY. The answer is the
first pc. -/
def kickEntry (k : Nat) (kick : Kick) : M Dword := do
  let s ← get
  let img := ((s.launches.find kick.launch).map (·.img)).getD {}
  match img.engineRole k with
  | none => fail (excDev 1 0 kick.arg)
  | some role => do
    guardM (decide (kick.arg.toNat % 8 = 0)) (excDev 4 0 kick.arg)
    let acc := s.accOf (.engine k)
    let bs ← vread acc kick.arg 8
    let entry := natOfBytes (bs.take 4)
    guardM (natOfBytes (bs.drop 4) == 0) (excDev 2 0 kick.arg)
    guardM (decide (entry % 4 = 0)) (excDev 4 0 kick.arg)
    match img.engineCode.find? fun x => x.role == role with
    | some x => do
      guardM (decide (entry < x.size)) (excDev 10 0 kick.arg)
      pure (BitVec.ofNat 64 (x.va + entry))
    | none => fail (excDev 1 0 kick.arg)

/-- ENGINE_KICK_START: an idle engine takes the first kick of its queue. -/
def execEngineKickStart (engine : Nat) (s : State) : Host.Outcome State Fault Refusal :=
  event (fun s =>
    let e := s.engine engine
    match e.running, e.queue with
    | none, kick :: rest =>
      let t := s.setEngine engine { e with
        running := some kick
        queue := rest
        hart := e.hart.kicked kick 0
        flags := if engine % 7 < 4 then 0 else e.flags }
      match kickEntry engine kick t with
      | .ok pc u => u.setHart (.engine engine) { u.hart (.engine engine) with pc := pc }
      | .error (.exc x) u => u.endKick engine x.code x.detail x.tval
      | .error _ u => { s with snoops := u.snoops }
    | _, _ => s) s

/-! ## Copy descriptors (R323, R324) -/

namespace CopyJob

def f (j : CopyJob) (off n : Nat) : Nat := natOfBytes ((j.desc.drop off).take n)
def op (j : CopyJob) : Nat := j.f 0 1
def ty (j : CopyJob) : BitVec 4 := BitVec.ofNat 4 (j.f 1 1)
def sty (j : CopyJob) : BitVec 4 := BitVec.ofNat 4 (j.f 2 1)
def rm (j : CopyJob) : Nat := j.f 3 1
/-- Bytes of an element. -/
def size (j : CopyJob) : Nat := 2 ^ j.f 4 1
def src (j : CopyJob) : Dword := BitVec.ofNat 64 (j.f 8 8)
def dst (j : CopyJob) : Dword := BitVec.ofNat 64 (j.f 0x10 8)
def len (j : CopyJob) : Nat := j.f 0x18 8
def idx (j : CopyJob) : Dword := BitVec.ofNat 64 (j.f 0x20 8)
def wpaddr (j : CopyJob) : Dword := BitVec.ofNat 64 (j.f 0x28 8)
def srclen (j : CopyJob) : Nat := j.f 0x30 8

/-- The channels of the texels that DELTA decodes, which the descriptor does not hold: a free value, from 1 to 4. -/
def chans (j : CopyJob) : Nat := (Config.openResult 2 j.src j.idx).toNat % 4 + 1

/-- CVT refuses the type pair (R180), or a type byte is no type. -/
def badTypes (j : CopyJob) : Bool :=
  decide (16 ≤ j.f 1 1 ∨ 16 ≤ j.f 2 1) || j.ty == j.sty || j.ty == 0 || j.sty == 0 || j.ty == 15 || (j.sty == 15 && j.ty != 11)

/-- Elements that the operation writes in all, and the bytes of its whole destination. -/
def total (j : CopyJob) : Nat := if j.op = 4 then j.len * 64 * j.chans else j.len

def bytes (j : CopyJob) : Nat :=
  match j.op with
  | 0 => j.len
  | 3 => j.len * tyWidth j.ty / 8
  | _ => j.total * j.size

/-- Bytes of a CONVERT's source. -/
def srcBytes (j : CopyJob) : Nat := if j.op = 3 then (j.len * tyWidth j.sty + 7) / 8 else j.len

/-- Ranges of addresses meet. -/
def meets (j : CopyJob) : Bool :=
  let a := j.src.toNat % 2 ^ 48
  let b := j.dst.toNat % 2 ^ 48
  decide (a < b + j.bytes ∧ b < a + j.srcBytes)

/-- What the channel refuses before it writes anything (R324). -/
def refused (j : CopyJob) : Bool :=
  decide (6 ≤ j.op ∨ j.f 5 3 ≠ 0 ∨ j.f 0x38 8 ≠ 0 ∨ 4 ≤ j.f 4 1 ∨ 5 ≤ j.rm) || (j.op == 3 && j.badTypes) ||
    ((j.op == 0 || j.op == 3) && j.meets) || (j.op != 2 && decide (2 ^ 48 < j.dst.toNat % 2 ^ 48 + j.bytes))

/-- Destination bytes written after `moved` elements. -/
def written (j : CopyJob) : Nat :=
  match j.op with
  | 0 => j.moved
  | 3 => j.moved * tyWidth j.ty / 8
  | _ => j.moved * j.size

/-- The value P would have when the last complete destination line is accounted for (R325). -/
def lineP (j : CopyJob) : Nat :=
  let at' := j.dst.toNat % 256
  (at' + j.written) / 256 * 256 - at'

end CopyJob

/-! ## Elements -/

/-- The accessor of a channel's datapath: the kicking crew's, through the decompressor where DELTA reads (R266). -/
def State.copyAcc (s : State) (k : Nat) : Acc := { s.accOf (.engine k) with decomp := true }

def setCopy (k : Nat) (j : CopyJob) : M Unit := modify fun s => s.setEngine k { s.engine k with copy := some j }

/-- The descriptor address that a refused operation reports. -/
def State.copyAt (s : State) (k : Nat) : Dword := (s.engine k).ops.headD 0

/-- Element `i` of an address. -/
def eltVa (base : Dword) (i n : Nat) : Dword := base + BitVec.ofNat 64 (i * n)

/-- MOVE: the next bytes, an element of 2^ESZ where both sides are aligned to it, else one byte. -/
def moveStep (k : Nat) (j : CopyJob) : M Unit := do
  let acc := (← get).copyAcc k
  let s := j.src + BitVec.ofNat 64 j.moved
  let d := j.dst + BitVec.ofNat 64 j.moved
  let n := if s.toNat % j.size = 0 ∧ d.toNat % j.size = 0 ∧ j.moved + j.size ≤ j.len then j.size else 1
  vwrite acc d (← vread acc s n)
  setCopy k { j with moved := j.moved + n }

/-- The next entry of the index table. -/
def nextIndex (acc : Acc) (j : CopyJob) : M Nat := do return natOfBytes (← vread acc (eltVa j.idx j.moved 4) 4)

def gatherStep (k : Nat) (j : CopyJob) : M Unit := do
  let acc := (← get).copyAcc k
  let i ← nextIndex acc j
  vwrite acc (eltVa j.dst j.moved j.size) (← vread acc (eltVa j.src i j.size) j.size)
  setCopy k { j with moved := j.moved + 1 }

/-- SCATTER: a destination that passes 2^48 is refused when its index is read. -/
def scatterStep (k : Nat) (j : CopyJob) : M Unit := do
  let s ← get
  let acc := s.copyAcc k
  let i ← nextIndex acc j
  guardM (decide (j.dst.toNat % 2 ^ 48 + i * j.size + j.size ≤ 2 ^ 48)) (excDev 2 0 (s.copyAt k))
  vwrite acc (eltVa j.dst i j.size) (← vread acc (eltVa j.src j.moved j.size) j.size)
  setCopy k { j with moved := j.moved + 1 }

/-- CONVERT: the next element, with its flags. An OQ4 slot has no scale word here: its value and flags are free. -/
def convertStep (k : Nat) (j : CopyJob) : M Unit := do
  let acc := (← get).copyAcc k
  let sw := tyWidth j.sty
  let dn := tyWidth j.ty / 8
  let bs ← vread acc (j.src + BitVec.ofNat 64 (j.moved * sw / 8)) ((sw + 7) / 8)
  let r ←
    if j.sty = 15 then do
      let v ← freeDwordM
      pure ({ bits := v.toNat % 2 ^ 32, flags := v.toNat / 2 ^ 32 % 32 } : FRes)
    else pure (cvtElem j.ty j.sty { mode := j.rm } false (natOfBytes bs))
  vwrite acc (eltVa j.dst j.moved dn) (leBytes dn r.bits)
  modify fun s => s.setEngine k { s.engine k with flags := (s.engine k).flags ||| BitVec.ofNat 5 r.flags }
  setCopy k { j with moved := j.moved + 1 }

/-- `n` bits of a block's bitstream (R386). -/
def copyBits (acc : Acc) (base : Dword) (at' n : Nat) : M Nat := do
  if n = 0 then pure 0
  else do
    let bs ← vread acc (base + BitVec.ofNat 64 (at' / 8)) ((at' + n - 1) / 8 - at' / 8 + 1)
    pure (natOfBytes bs / 2 ^ (at' % 8) % 2 ^ n)

/-- DELTA: the next channel of the next texel: channels of 2^ESZ bytes. -/
def deltaStep (k : Nat) (j : CopyJob) : M Unit := do
  let acc := (← get).copyAcc k
  let c := j.chans
  let wc := 8 * j.size
  let ch := j.moved % c
  let t := j.moved / c % 64
  let iva := eltVa j.idx (j.moved / (64 * c)) 4
  let e := natOfBytes (← vread acc iva 4)
  let b := budgetBits (e % 16)
  guardM (decide (e % 16 < 7 ∧ b ≤ wc)) (accessFault acc .load 10 iva.toNat)
  let base := j.src + BitVec.ofNat 64 (64 * (e / 16))
  let low ← copyBits acc base (ch * wc) wc
  let delta ← copyBits acc base (c * wc + (t * c + ch) * b) b
  vwrite acc (eltVa j.dst j.moved j.size) (leBytes j.size (low ^^^ delta))
  setCopy k { j with moved := j.moved + 1 }

/-- The next `n` bytes of the run-length stream: RESERVED_FIELD when it ends first. -/
def rleRead (acc : Acc) (j : CopyJob) (at' n : Nat) : M (List Byte) := do
  guardM (decide (at' + n ≤ j.srclen)) (excReserved 0)
  vread acc (j.src + BitVec.ofNat 64 at') n

def rleStep (k : Nat) (j : CopyJob) : M Unit := do
  let acc := (← get).copyAcc k
  let j ←
    if j.run ≠ 0 then pure j
    else do
      let h := natOfBytes (← rleRead acc j j.used 1)
      if h < 128 then pure { j with used := j.used + 1, run := h + 1, rep := none }
      else do
        let e ← rleRead acc j (j.used + 1) j.size
        pure { j with used := j.used + 1 + j.size, run := h - 127, rep := some e }
  let d := eltVa j.dst j.moved j.size
  match j.rep with
  | some e => do
    vwrite acc d e
    setCopy k { j with moved := j.moved + 1, run := j.run - 1 }
  | none => do
    vwrite acc d (← rleRead acc j j.used j.size)
    setCopy k { j with moved := j.moved + 1, run := j.run - 1, used := j.used + j.size }

/-! ## One step of the datapath -/

/-- P advances to `p` (R325). -/
def advanceP (k : Nat) (j : CopyJob) (p : Nat) : M Unit := do
  let s ← get
  let acc := s.copyAcc k
  if j.wpaddr ≠ 0 ∧ p ≠ 0 then do
    aligned j.wpaddr 8
    modify fun s => s.releaseUnit acc.who (((s.engine k).running.map (·.scope)).getD 4)
    vwrite acc j.wpaddr (leBytes 8 p)
  modify fun s => s.setEngine k { s.engine k with dxwp := (s.engine k).dxwp + BitVec.ofNat 64 (p - j.acct) }
  setCopy k { j with acct := p }

/-- The head descriptor is read and checked. -/
def copyOpen (k : Nat) (at' : Dword) : M Unit := do
  let acc := (← get).copyAcc k
  let j : CopyJob := { desc := ← vread acc at' 64 }
  guardM (!j.refused) (excDev 2 0 at')
  setCopy k j

/-- One part of the running operation: a line of P, the next element by `f`, or its end. -/
def copyPart (k : Nat) (j : CopyJob) (f : Nat → CopyJob → M Unit) : M Unit := do
  if j.op ≠ 2 ∧ j.acct < j.lineP then advanceP k j j.lineP
  else if j.moved < j.total then f k j
  else do
    advanceP k j j.bytes
    modify fun s => s.setEngine k { s.engine k with
      copy := none
      ops := (s.engine k).ops.drop 1 }

/-- The OP of the descriptor at the head is `op`, or a code that none of the operations has, or it cannot be read. -/
def copyDue (k op : Nat) (s : State) : Bool :=
  match (s.engine k).copy with
  | some j => j.op == op
  | none =>
    match (s.engine k).ops with
    | [] => false
    | a :: _ =>
      match vread (s.copyAcc k) a 1 s with
      | .ok bs _ => natOfBytes bs == op || decide (6 ≤ natOfBytes bs)
      | .error _ _ => true

/-- A part of a copy channel's operation `op`; a cause ends the kick (R321). -/
def copyEvent (op k : Nat) (f : Nat → CopyJob → M Unit) (s : State) : Host.Outcome State Fault Refusal :=
  event (fun s =>
    if (s.engine k).running.isNone || !(decide (k % 7 < 4)) || !copyDue k op s then s else
    let m : M Unit := match (s.engine k).copy with
      | some j => copyPart k j f
      | none => copyOpen k (s.copyAt k)
    match m s with
    | .ok _ t => t
    | .error (.exc e) t => t.endKick k e.code e.detail e.tval
    | .error _ t => { s with snoops := t.snoops }) s

def execCopyMove (engine : Nat) (s : State) : Host.Outcome State Fault Refusal := copyEvent 0 engine moveStep s
def execCopyGather (engine : Nat) (s : State) : Host.Outcome State Fault Refusal := copyEvent 1 engine gatherStep s
def execCopyScatter (engine : Nat) (s : State) : Host.Outcome State Fault Refusal := copyEvent 2 engine scatterStep s
def execCopyConvert (engine : Nat) (s : State) : Host.Outcome State Fault Refusal := copyEvent 3 engine convertStep s
def execCopyDelta (engine : Nat) (s : State) : Host.Outcome State Fault Refusal := copyEvent 4 engine deltaStep s
def execCopyRle (engine : Nat) (s : State) : Host.Outcome State Fault Refusal := copyEvent 5 engine rleStep s

end Sys2Proof.Machine
end

