-- ==== Sys2Proof/Machine/FrontEnd.lean ====
section
/-! DEFINITION. The launch front end: taking and checking launch records (R119, R120, R232), turns and placement (R233 to
R235), fitting and admission in a cluster (R236 to R241, R122), the age limit of R239. -/

namespace Sys2Proof.Machine

/-! ## Launch records (R119, R120) -/

/-- A launch record as its 128 bytes. -/
abbrev LaunchRec := List Byte

namespace LaunchRec

def f (r : LaunchRec) (off n : Nat) : Nat := natOfBytes ((r.drop off).take n)
/-- Reserved bytes and flags are 0. -/
def clear (r : LaunchRec) : Bool :=
  decide (f r 6 2 < 2 ∧ f r 0xF 1 = 0 ∧ f r 0x14 4 = 0 ∧ f r 0x34 4 = 0 ∧ f r 0x48 56 = 0)
/-- Fields within their ranges. -/
def inRange (r : LaunchRec) : Bool :=
  decide (f r 8 2 ≤ 4096 ∧ f r 0xA 2 ≤ 4096 ∧ f r 0xC 2 ≤ 4096 ∧ f r 0xE 1 ≤ 16 ∧ f r 0x28 8 % 16 = 0 ∧ f r 0x30 4 % 16 = 0 ∧
    f r 0x38 8 % 512 = 0 ∧ f r 0x44 1 ≤ 1 ∧ f r 0x45 1 ≤ 15 ∧ f r 0x46 1 ≤ 7 ∧ f r 0x47 1 ≤ 31)

end LaunchRec

/-- The partition word of a kernel (R80, R120). -/
def Kernel.partition (k : Kernel) : Word := BitVec.ofNat 32 (k.peak * 2 ^ 21 + k.acc * 2 ^ 14 + k.scr * 2 ^ 7 + k.regs)

/-- Units of the pool that a partition word takes. -/
def partUnits (w : Word) : Nat := (w.extractLsb' 0 7).toNat + (w.extractLsb' 7 7).toNat + (w.extractLsb' 14 7).toNat

/-- The partition word obeys R120 for a kernel of `waves` waves. -/
def partitionOk (w : Word) (waves : Nat) : Bool :=
  let peak := (w.extractLsb' 21 9).toNat
  decide (w.extractLsb' 30 2 = 0#2 ∧ 1 ≤ peak ∧ peak ≤ 256 ∧ partUnits w ≤ 128 ∧ waves * peak ≤ 64 * (w.extractLsb' 0 7).toNat)

/-- The image's migration table has an entry for a role. -/
def Image.migrates (img : Image) (role : Nat) : Bool := img.migs.any fun e => e.srcRole == role || e.dstRole == role

/-- A field of the record, or the kernel's value where it is 0. -/
def orKernel (v k : Nat) : Nat := if v = 0 then k else v

/-- The launch that record `n` of queue `q` asks for, or none when R119 or R237 refuses it. -/
def State.launchOf (s : State) (q n addr : Nat) (r : LaunchRec) : Option Launch :=
  let f := LaunchRec.f r
  match s.images.find (f 0 4) with
  | none => none
  | some img =>
    match img.kernels[f 4 2]? with
    | none => none
    | some k =>
      let part : Word := if f 0x10 4 = 0 then k.partition else BitVec.ofNat 32 (f 0x10 4)
      let cls := (s.queue q).cls
      let fits := cls == 0 || !(k.waves == 16 || decide (112 < partUnits part) || decide (448 < k.strands))
      if !(img.loaded && LaunchRec.clear r && LaunchRec.inRange r && partitionOk part k.waves && fits &&
          !(img.migrates k.role && decide (f 0x40 4 < 64))) then none
      else some {
        queue := q
        record := n
        addr := addr
        bytes := r
        image := f 0 4
        img := img
        kernelIx := f 4 2
        kernel := k
        cls := cls
        idem := f 6 2 % 2 == 1
        gx := orKernel (f 8 2) k.gx
        gy := orKernel (f 0xA 2) k.gy
        gz := orKernel (f 0xC 2) k.gz
        stages := orKernel (f 0xE 1) k.stages
        partition := part
        arg := BitVec.ofNat 64 (f 0x18 8)
        join := BitVec.ofNat 64 (f 0x20 8)
        stack := BitVec.ofNat 64 (f 0x28 8)
        stackSize := f 0x30 4
        migpool := BitVec.ofNat 64 (f 0x38 8)
        migblk := f 0x40 4
        place := f 0x44 1 == 1
        hx := f 0x45 1
        hy := f 0x46 1
        radius := f 0x47 1 }

/-- Record `n` is refused (R232). -/
def State.refuseRecord (s : State) (q n addr : Nat) : State :=
  let s := s.setQueue q { s.queue q with
    lerr := true
    errIdx := n % 65536 }
  (s.logError 2 0 11 255 0 addr q (n % 65536) 0xFFFFFFFF).finishRecord q n

/-- The launch is taken: JOIN's counter rises by its crews before any of them (R119); where it cannot, the record is
refused. `s0` is the state before the record was taken, to which a host snoop returns. -/
def State.acceptLaunch (s0 s : State) (q n addr : Nat) (l : Launch) : State :=
  let m : M Unit := do
    if l.join ≠ 0 then do
      let _ ← vrmw (← get).accFrontEnd l.join 8 fun v => some ((v + l.total) % 2 ^ 64)
    modify fun s =>
      let id := s.nextLaunch
      let s : State := { s.setLaunch id l with nextLaunch := id + 1 }
      s.setQueue q { s.queue q with current := some id }
  match m s with
  | .ok _ t => t
  | .error (.exc _) t => t.refuseRecord q n addr
  | .error _ t => { s0 with snoops := t.snoops }

/-- A physical line that the host may hold is snooped before the front end reads it (R425). -/
def State.askHost (s : State) (pa : Nat) : Option State :=
  if s.hostFilter.contains (pa / 256) then
    some (if (s.snoops.find (pa / 256)).isNone then { s with snoops := s.snoops.put (pa / 256) false } else s)
  else none

/-- LAUNCH_RECORD_TAKE: the next record of a queue (R232). -/
def execLaunchRecordTake (q : Nat) (s : State) : Host.Outcome State Fault Refusal :=
  event (fun s =>
    let w := s.queue q
    if !w.en || w.blocked || w.current.isSome || decide (4096 ≤ q) then s
    else if 2 ^ w.logn < (w.tail + 2 ^ 32 - w.head) % 2 ^ 32 then s.setQueue q { w with
      badTail := true
      blocked := true }
    else
      let waiting := (w.tail + 2 ^ 32 - w.taken) % 2 ^ 32
      if waiting = 0 ∨ 2 ^ w.logn < waiting then s else
      let n := w.taken
      let addr := w.base + 128 * (n % 2 ^ w.logn)
      match s.askHost addr with
      | some t => t
      | none =>
        let t := s.setQueue q { w with taken := (n + 1) % 2 ^ 32 }
        if s.up == some false || !(paKind addr == .dram || paKind addr == .host) || t.poisoned addr 128 then t.refuseRecord q n addr
        else
          match t.launchOf q n addr (t.peek addr 128) with
          | none => t.refuseRecord q n addr
          | some l => s.acceptLaunch t q n addr l) s

/-! ## What is free in a cluster (R236) -/

/-- The window is held by a resident crew, or a signal addressed to it is still to land (R241). -/
def State.windowHeld (s : State) (c w : Nat) : Bool :=
  let stq (o : StqOp) : Bool := o.window == some (c, w)
  let inQueue (m : Map SendEntry) : Bool := m.any fun e => match e.2 with
    | .stq o => stq o
    | _ => false
  (s.cluster c).crews.any (fun e => e.2.window == w) || s.stqs.any stq || s.cores.any (fun e => inQueue e.2.sendq) ||
    s.wengines.any (fun e => inQueue e.2.sendq) || s.engines.any (fun e => inQueue e.2.sendq)

def State.freeWindow (s : State) (c : Nat) : Option Nat := (List.range 16).find? fun w => !s.windowHeld c w

/-- The lowest free crew slot that a class may take (R236 to R238). -/
def State.freeSlot (s : State) (c cls : Nat) : Option Nat :=
  (List.range (if cls = 0 then 8 else 7)).find? fun k => ((s.cluster c).crews.find k).isNone

/-- Crews of the cluster whose units lie in an engine. -/
def State.engineCrews (s : State) (c e : Nat) : List Crew :=
  ((s.cluster c).crews.map (·.2)).filter fun x => x.engine == e && !x.waveSlots.isEmpty

def Crew.units (x : Crew) : List Nat := x.regUnits ++ x.scrUnits ++ x.accUnits

/-- Wave slots of an engine that no crew holds. -/
def State.freeWaves (s : State) (c e : Nat) : List Nat :=
  (List.range 16).filter fun k => !((s.engineCrews c e).any fun x => x.waveSlots.contains k) && !(s.wave (c * 128 + e * 16 + k)).live

/-- Pool units of an engine that no crew holds. -/
def State.freeUnits (s : State) (c e : Nat) : List Nat :=
  let used := (s.engineCrews c e).flatMap Crew.units
  (List.range 128).filter fun u => !used.contains u

/-- Contexts among `ks` of each core that no crew holds and that are idle. -/
def State.freeContexts (s : State) (c : Nat) (ks : List Nat) : List (List Nat) :=
  let held := (s.cluster c).reservedCtxs
  (List.range 64).map fun core => (ks.map fun k => c * 512 + core * 8 + k).filter fun k =>
    !held.contains k && (s.hart (.strand k)).run == .idle

/-- The core with the most free contexts, the lowest of several (R240). -/
def mostFree (l : List (List Nat)) : Nat := l.foldl (fun m x => max m x.length) 0

/-- The first list of `m` contexts loses its lowest; that context. -/
def takeFrom (l : List (List Nat)) (m : Nat) : Option (Nat × List (List Nat)) :=
  match l with
  | [] => none
  | x :: t =>
    match x with
    | k :: ks => if x.length = m then some (k, ks :: t) else (takeFrom t m).map fun e => (e.1, x :: e.2)
    | [] => (takeFrom t m).map fun e => (e.1, x :: e.2)

/-- The contexts of strand ranks 0 to n − 1 (R240). -/
def pickContexts (l : List (List Nat)) (n : Nat) : Option (List Nat) :=
  match n with
  | 0 => some []
  | n + 1 =>
    match takeFrom l (mostFree l) with
    | some (k, l) => (pickContexts l n).map (k :: ·)
    | none => none

/-! ## Fitting (R237, R238) -/

/-- The units that a crew would be given: crew slot, window, engine, wave slots, pool units, contexts. -/
structure Fit where
  slot : Nat
  window : Nat
  engine : Nat
  waves : List Nat
  units : List Nat
  ctxs : List Nat
deriving DecidableEq, Repr

/-- A fit into the general resources, or with `reserved` into those of class 0. -/
def State.fit (s : State) (c : Nat) (l : Launch) (reserved : Bool) : Option Fit :=
  match s.freeSlot c l.cls, s.freeWindow c, pickContexts (s.freeContexts c (if reserved then [7] else List.range 7)) l.kernel.strands with
  | some slot, some window, some ctxs =>
    let n := l.kernel.waves
    let m := partUnits l.partition
    let base : Fit := { slot := slot, window := window, engine := 0, waves := [], units := [], ctxs := ctxs }
    if n = 0 then some base
    else if reserved then
      if n ≠ 1 ∨ 16 < m then none else
      match (List.range 8).find? fun e => (s.freeWaves c e).contains 15 && ((s.freeUnits c e).filter (112 ≤ ·)).length == 16 with
      | some e => some { base with
          engine := e
          waves := [15]
          units := (List.range m).map (112 + ·) }
      | none => none
    else
      let slots (e : Nat) : List Nat := (s.freeWaves c e).filter (· < 15)
      let units (e : Nat) : List Nat := (s.freeUnits c e).filter (· < 112)
      match (List.range 8).find? fun e => decide (n ≤ (slots e).length ∧ m ≤ (units e).length) with
      | some e => some { base with
          engine := e
          waves := (slots e).take n
          units := (units e).take m }
      | none => none
  | _, _, _ => none

/-- The fit of a crew: for class 0 a reservation fit comes first (R238). -/
def State.fits (s : State) (c : Nat) (l : Launch) : Option Fit :=
  if l.cls = 0 then
    match s.fit c l true with
    | some f => some f
    | none => s.fit c l false
  else s.fit c l false

/-! ## Placement (R234, R235) -/

/-- The first of a list with the least measure. -/
def leastBy (f : Nat → Nat) (l : List Nat) : Option Nat :=
  match l with
  | [] => none
  | k :: t =>
    match leastBy f t with
    | some j => if f k ≤ f j then some k else some j
    | none => some k

/-- Resident crews and queued requests of a class (R235). -/
def State.load (s : State) (cls c : Nat) : Nat := (s.cluster c).crews.length + ((s.cluster c).adm.getD cls []).length

/-- The cluster that a crew goes to. -/
def State.placeCrew (s : State) (l : Launch) : Nat :=
  if !l.place then (leastBy (s.load l.cls) (List.range 128)).getD 0
  else
    let target := l.hy * 16 + l.hx
    let near := (List.range 128).filter fun c => decide (hops c target ≤ l.radius)
    let first (ok : Nat → Bool) : Option Nat := leastBy (fun c => hops c target) (near.filter ok)
    match (if l.cls = 0 then first fun c => (s.fit c l true).isSome else none) with
    | some c => c
    | none => (first fun c => (s.fit c l false).isSome).getD target

/-- Room in the admission queue of 64 requests. -/
def State.admRoom (s : State) (c cls : Nat) : Bool := decide (((s.cluster c).adm.getD cls []).length < 64)

/-- A request joins an admission queue. -/
def State.pushReq (s : State) (c cls : Nat) (r : CrewReq) : State :=
  s.setCluster c { s.cluster c with adm := (s.cluster c).adm.put cls ((s.cluster c).adm.getD cls [] ++ [r]) }

/-! ## Turns (R233) -/

/-- The launch of a queue that has a crew to expand now: one with a killed crew to admit again, else the current one; its
cluster's queue must have room (R234). -/
def State.queueWork (s : State) (q : Nat) : Option (Nat × Launch) :=
  let again := s.launches.find? fun e => e.2.queue == q && !e.2.ended && !e.2.again.isEmpty
  let cur := (s.queue q).current.bind fun n => (s.launches.find n).map fun l => (n, l)
  match (match again with
    | some e => some e
    | none => cur) with
  | some (n, l) =>
    if l.ended || (l.again.isEmpty && decide (l.total ≤ l.next)) || !s.admRoom (s.placeCrew l) l.cls then none else some (n, l)
  | none => none

/-- Queues of a class that have work, ascending. -/
def State.workers (s : State) (cls : Nat) : List Nat :=
  (s.queues.map (·.1)).filter fun q => match s.queueWork q with
    | some (_, l) => l.cls == cls
    | none => false

/-- A new turn of a class: the next queue in ascending number after the one served last. -/
def State.newTurn (s : State) (cls : Nat) : Option (Nat × State) :=
  let ws := s.workers cls
  let last := s.fe.lastQueue.find cls
  let next := match last with
    | some k => (ws.find? fun q => decide (k < q)).or ws.head?
    | none => ws.head?
  next.map fun q => (q, { s with fe := { s.fe with lastQueue := s.fe.lastQueue.put cls q } })

/-- The class that takes the next turn of the pattern 1, 1, 1, 1, 2, 2, 3, and the place after it. -/
def State.patternTurn (s : State) (fuel : Nat) : Option (Nat × Nat) :=
  match fuel with
  | 0 => none
  | fuel + 1 =>
    let i := (s.fe.pattern + (6 - fuel)) % 7
    let cls := [1, 1, 1, 1, 2, 2, 3].getD i 1
    if (s.workers cls).isEmpty then s.patternTurn fuel else some (cls, (i + 1) % 7)

/-- The queue that expands a crew at this clk, with the turns moved on (R233). -/
def State.chooseQueue (s : State) : Option (Nat × State) :=
  let used (t : Nat × Nat) : Option (Nat × Nat) := if t.2 ≤ 1 then none else some (t.1, t.2 - 1)
  let live (t : Option (Nat × Nat)) : Option (Nat × Nat) := t.filter fun x => (s.queueWork x.1).isSome
  if !(s.workers 0).isEmpty then
    match live s.fe.turn0 with
    | some t => some (t.1, { s with fe := { s.fe with turn0 := used t } })
    | none => (s.newTurn 0).map fun (q, t) => (q, { t with fe := { t.fe with turn0 := used (q, (t.queue q).weight) } })
  else
    match live s.fe.turn with
    | some t => some (t.1, { s with fe := { s.fe with turn := used t } })
    | none =>
      match s.patternTurn 7 with
      | some (cls, p) => (s.newTurn cls).map fun (q, t) => (q, { t with fe := { t.fe with
          turn := used (q, (t.queue q).weight)
          pattern := p } })
      | none => none

/-- One crew of a launch joins the admission queue of its cluster (R233, R235, R410). -/
def State.expand (s : State) (n : Nat) (l : Launch) : State :=
  let c := s.placeCrew l
  match l.again with
  | k :: rest => (s.setLaunch n { l with again := rest }).pushReq c l.cls { launch := n, linear := k, since := s.clk }
  | [] =>
    let s := s.setLaunch n { l with
      next := l.next + 1
      alive := l.alive + 1 }
    let s := if l.total ≤ l.next + 1 then s.setQueue l.queue { s.queue l.queue with current := none } else s
    s.pushReq c l.cls { launch := n, linear := l.next, since := s.clk }

/-- CREW_EXPAND. -/
def execCrewExpand (s : State) : Host.Outcome State Fault Refusal :=
  event (fun s =>
    match s.chooseQueue with
    | some (q, t) =>
      match s.queueWork q with
      | some (n, l) => t.expand n l
      | none => s
    | none => s) s

/-! ## Admission (R239 to R241, R122) -/

/-- The head request of a class, with its launch. -/
def State.admHead (s : State) (c cls : Nat) : Option (CrewReq × Launch) :=
  match (s.cluster c).adm.getD cls [] with
  | r :: _ => (s.launches.find r.launch).map fun l => (r, l)
  | [] => none

/-- The class 1 to 3 whose head has waited 262,144 clk, the oldest of several. -/
def State.agedHead (s : State) (c : Nat) : Option Nat :=
  let since (cls : Nat) : Nat := ((s.admHead c cls).map (·.1.since)).getD 0
  leastBy since ([1, 2, 3].filter fun cls => match s.admHead c cls with
    | some (r, _) => decide (r.since + 262144 ≤ s.clk)
    | none => false)

/-- The class that the age limit lets pass alone. -/
def State.blockingHead (s : State) (c : Nat) : Option Nat :=
  match (s.cluster c).blocking with
  | some k => if (s.admHead c k).isSome then some k else s.agedHead c
  | none => s.agedHead c

/-- ADMISSION_AGE_LIMIT: a head has reached the limit. -/
def execAdmissionAgeLimit (cluster : Nat) (s : State) : Host.Outcome State Fault Refusal :=
  event (fun s =>
    match s.agedHead cluster with
    | some k =>
      if s.blockingHead cluster = some k then s.setCluster cluster { s.cluster cluster with blocking := some k } else s
    | none => s) s

/-- The head of a class can be admitted now: it fits and the age limit does not hold it back. -/
def State.admissible (s : State) (c cls : Nat) : Option (CrewReq × Launch × Fit) :=
  let free := cls == 0 || match s.blockingHead c with
    | some k => k == cls
    | none => true
  match s.admHead c cls with
  | some (r, l) => if free then (s.fits c l).map fun f => (r, l, f) else none
  | none => none

/-- The coordinates of a linear index: x, y, z, stage (R117). -/
def Launch.coords (l : Launch) (n : Nat) : Nat × Nat × Nat × Nat :=
  (n % l.gx, n / l.gx % l.gy, n / (l.gx * l.gy) % l.gz, n / (l.gx * l.gy * l.gz))

/-- The crew that a launch makes of a linear index with the units of a fit. -/
def Launch.crew (l : Launch) (n gen c : Nat) (r : CrewReq) (f : Fit) : Crew :=
  let (x, y, z, st) := l.coords r.linear
  let regs := (l.partition.extractLsb' 0 7).toNat
  let scr := (l.partition.extractLsb' 7 7).toNat
  { gen := gen
    launch := n
    linear := r.linear
    x := x
    y := y
    z := z
    stage := st
    cls := l.cls
    partition := l.partition
    window := f.window
    home := c
    homeSlot := f.slot
    engine := f.engine
    waveSlots := f.waves
    ctxs := f.ctxs
    regUnits := f.units.take regs
    scrUnits := (f.units.drop regs).take scr
    accUnits := f.units.drop (regs + scr)
    toStart := if l.img.roles.getD l.kernel.role 0 = 1 then l.kernel.waves else l.kernel.strands }

/-- SCRBASE of a crew: the crew view of its home (R122, R255, R409). -/
def Crew.scrBase (x : Crew) : Nat := 0x7F1000000000 + x.home * 2 ^ 25 + x.homeSlot * 2 ^ 22

/-- The crew record (R122). -/
def Launch.crewRecord (l : Launch) (c slot : Nat) (x : Crew) : List Byte :=
  leBytes 8 l.addr ++ leBytes 2 x.x ++ leBytes 2 x.y ++ leBytes 2 x.z ++ leBytes 1 x.stage ++ leBytes 1 slot ++
    leBytes 4 x.linear ++ leBytes 1 c ++ leBytes 1 l.kernel.waves ++ leBytes 2 l.kernel.strands ++ leBytes 4 x.partition.toNat ++
    leBytes 2 (256 * x.window) ++ leBytes 2 0 ++ leBytes 8 x.scrBase ++
    leBytes 8 (l.migpool.toNat + x.linear * l.migblk * 512) ++ leBytes 16 0

/-- The bytes that are not zero, by offset. -/
def sparse (off : Nat) (l : List Byte) : Map Byte :=
  match l with
  | [] => []
  | b :: t => if b = 0 then sparse (off + 1) t else (off, b) :: sparse (off + 1) t

/-- Shape records of the launch's kernel: index and physical address. -/
def Launch.shapes (l : Launch) : List (Nat × Nat) :=
  (l.img.shapes.filter fun e => e.1 == l.kernelIx).map fun e => (e.2.1, e.2.2)

/-- The shape store of a crew (R122). -/
def State.shapeStore (s : State) (l : Launch) (c slot : Nat) (x : Crew) : Map Byte :=
  sparse 0 (l.crewRecord c slot x) ++ ((List.range 16).flatMap fun i =>
    match l.shapes.find? fun e => e.1 == i with
    | some e => sparse (0x40 + 64 * i) (s.peek e.2 64)
    | none => [])

/-- The semaphores of a window are 0 (R94). -/
def State.clearWindow (s : State) (c w : Nat) : State :=
  s.setCluster c { s.cluster c with sems := (s.cluster c).sems.filter fun e => e.1 / 256 ≠ w }

/-- The head request of a class leaves its queue. -/
def State.popReq (s : State) (c cls : Nat) : State :=
  let k := s.cluster c
  s.setCluster c { k with
    adm := k.adm.put cls ((k.adm.getD cls []).drop 1)
    blocking := if k.blocking = some cls then none else k.blocking }

/-- A crew is admitted (R240): its units are its own, its pool scratch, accumulators and shares of the cores zero (R250,
R251), its semaphores 0. -/
def State.admitCrew (s : State) (c : Nat) (r : CrewReq) (l : Launch) (f : Fit) : State :=
  let gen := ((s.cluster c).gens.getD f.slot 0 + 1) % 256
  let x := l.crew r.launch gen c r f
  let x := { x with store := s.shapeStore l c f.slot x }
  let s := s.setCluster c { s.cluster c with gens := (s.cluster c).gens.put f.slot gen }
  let s := ((s.clearWindow c f.window).setCrew c f.slot x).zeroShares c f.slot (List.range 64)
  (s.zeroUnits (c * 8 + f.engine) x.scrUnits).zeroUnits (c * 8 + f.engine) x.accUnits

end Sys2Proof.Machine
end

