-- ==== Sys2Proof/Machine/GfxLane.lean ====
section
/-! DEFINITION. The GFX lane instructions (R376 to R380), and the passing of a committed record to its node (R378), which the
fixed-function units share. -/

namespace Sys2Proof.Machine

/-! ## Committing -/

/-- The continuation of a program node's record (R378): the template with FRAME the handle and LIDX the slot. -/
def templateCont (d : NodeD) (slot : Nat) : Cont :=
  let w (i : Nat) : Dword := BitVec.ofNat 64 (d.f (0x40 + 8 * i) 8)
  { w0 := (w 0 &&& 0xFFFFFFFFFFFF#64) ||| BitVec.ofNat 64 (slot % 65536 * 2 ^ 48)
    w1 := d.handle slot &&& 0xFFFFFFFFFFFF#64
    w2 := w 2
    w3 := w 3 }

/-- A reserved record passes to its node (R378): a continuation, a place in the unit's queue, or a ticket that can be
applied. A program node's template that cont.spawn would refuse raises its cause. -/
def commitRec (acc : Acc) (d : NodeD) (node slot : Nat) : M Unit := do
  let s ← get
  match (s.node node).recs.find slot with
  | none => fail badNode
  | some x => do
    let ref : GfxRef := { node := node, slot := slot, id := x.id }
    let queued (s : State) : State := s.setRec node slot { x with st := .queued }
    match d.kind with
    | 0 => do
      let k := templateCont d slot
      match refuseCont s x.crew x.launch k with
      | some n => fail (excReserved n)
      | none => do
        let o : Origin := { cluster := acc.cluster, crew := x.crew, launch := x.launch, dcrew := x.dcrew, dptb := x.dptb, gfx := some ref }
        let q := o.queued s k
        if k.kind ≠ 1 && s.canStart q.c && !s.queueRoom (s.contCluster o.cluster q.c) k.cls 1 then throw .stall
        modify queued
        spawnM acc o k 1
    | 1 => modify fun s =>
      let s := queued s
      s.setCluster acc.cluster { s.cluster acc.cluster with rasterQ := (s.cluster acc.cluster).rasterQ ++ [ref] }
    | 2 => modify fun s =>
      let s := queued s
      s.setCluster acc.cluster { s.cluster acc.cluster with traverseQ := (s.cluster acc.cluster).traverseQ ++ [ref] }
    | _ => modify queued

/-! ## What the members share -/

/-- A check that no lane in particular fails, whatever the guard: its cause is the group's. -/
def uniformM {α : Type} (c : LCtx) (m : M α) : M α := do
  match ← attempt m with
  | .ok a => pure a
  | .error e => failLane e.code (laneDetail (lowLane c.g.mask) e) e.tval c.g.mask

/-- The work of one lane after others: a cause undoes the instruction's effects. -/
def laneUndo (c : LCtx) (m : M Unit) : M Unit := fun s =>
  match m s with
  | .ok _ t => .ok () t
  | .error (.exc e) _ => failLane e.code (laneDetail (lowLane c.act) e) e.tval c.act s
  | .error .stall t => .error .stall { s with snoops := t.snoops }
  | .error st _ => .error st s

/-- The node of x(N), checked (R374, R376). -/
def laneNode (c : LCtx) : M (Nat × NodeD) := do
  let s ← get
  let va := (s.wave c.k).uni c.w.vb.toNat
  if va.toNat % 128 ≠ 0 then failLane 4 (lowLane c.g.mask) va c.g.mask
  let acc := s.laneAcc c.k
  uniformM c (do
    let d ← useNode acc va
    let n ← nodeKey acc va
    pure (n, d))

/-- Linear index of the wave's crew. -/
def State.waveCrewIx (s : State) (k : Nat) : Nat := s.crewIx (s.wave k).hart.crew

/-! ## RESV (R377) -/

/-- The record that a lane's reservation makes. -/
def protoRec (s : State) (k : Nat) : GfxRec :=
  let h := (s.wave k).hart
  { id := 0, c := s.waveCrewIx k, crew := h.crew, launch := h.launch, dcrew := h.dcrew, dptb := h.dptb, cluster := k / 128,
    nodeVa := 0, handle := 0, st := .reserved }

def reserveLanes (c : LCtx) (acc : Acc) (node : Nat) (d : NodeD) (ls : List Nat) : M Unit :=
  match ls with
  | [] => pure ()
  | l :: t => do
    let got ← reserveM acc node d (protoRec (← get) c.k)
    let one : Mask := BitVec.ofNat 64 (2 ^ l)
    modWave c.k fun w =>
      (w.writeOperand true c.w.vd.toNat one fun _ => (got.map d.handle).getD 0).writePred c.w.vc.toNat one
        (if got.isSome then one else 0)
    reserveLanes c acc node d t

def execResv (w : LaneWord) (s : State) : Host.Outcome State Fault Refusal :=
  laneInstr (.resv w) w (fun _ => pure ()) (fun c => do
    let (node, d) ← laneNode c
    peakCheck c (vdRegs c.i c.w)
    let acc := (← get).laneAcc c.k
    laneUndo c (reserveLanes c acc node d (lanesOf c.act))
    completed c none) s

/-! ## COMMIT, CANCEL (R378) -/

/-- The record of a lane's handle: of this node, charged to the issuer's crew. -/
def laneRec (s : State) (c : LCtx) (node : Nat) (d : NodeD) (l : Nat) : Option (Nat × GfxRec) :=
  let w := s.wave c.k
  match d.slotOf (w.pair c.w.va.toNat l) with
  | some slot =>
    match (s.node node).recs.find slot with
    | some x => if x.c = s.waveCrewIx c.k then some (slot, x) else none
    | none => none
  | none => none

/-- The record was delivered to the issuing unit: the lane, or the wave. -/
def deliveredHere (w : Wave) (l : Nat) (r : GfxRef) : Bool := w.laneGfx.find l == some r || w.hart.gfx == some r

def commitLanes (acc : Acc) (d : NodeD) (node : Nat) (slots : List Nat) : M Unit :=
  match slots with
  | [] => pure ()
  | i :: t => do
    commitRec acc d node i
    commitLanes acc d node t

def execCommit (w : LaneWord) (s : State) : Host.Outcome State Fault Refusal :=
  laneInstr (.commit w) w (fun _ => pure ()) (fun c => do
    let (node, d) ← laneNode c
    let s ← get
    let ls := lanesOf c.act
    let rec' (l : Nat) : Option (Nat × GfxRec) := laneRec s c node d l
    let slots := (ls.filterMap rec').map (·.1)
    laneCheck ls fun l => guardM (match rec' l with
      | some (_, x) => x.st == .reserved
      | none => false) badNode
    guardM (slots.eraseDups.length == slots.length) badNode
    if c.act ≠ 0 then do
      drainM c.k
      modify fun s => s.releaseUnit (.wave c.k) 3
    laneUndo c (commitLanes (s.laneAcc c.k) d node slots)
    completed c none) s

/-- The effect of CANCEL on one record: freed, or marked skipped when it carries a ticket. -/
def cancelRec (node slot : Nat) (x : GfxRec) : M Unit := do
  if x.ticket && x.st == .reserved then modify fun s => s.setRec node slot { x with st := .skipped }
  else freeRec { node := node, slot := slot, id := x.id }

def cancelLanes (node : Nat) (rs : List (Nat × GfxRec)) : M Unit :=
  match rs with
  | [] => pure ()
  | (i, x) :: t => do
    cancelRec node i x
    cancelLanes node t

def execCancel (w : LaneWord) (s : State) : Host.Outcome State Fault Refusal :=
  laneInstr (.cancel w) w (fun _ => pure ()) (fun c => do
    let (node, d) ← laneNode c
    let s ← get
    let st := s.wave c.k
    let ls := lanesOf c.act
    laneCheck ls fun l => guardM (match laneRec s c node d l with
      | some (i, x) => x.st == .reserved || (x.st == .delivered && deliveredHere st l { node := node, slot := i, id := x.id })
      | none => false) badNode
    let rs := ls.filterMap (laneRec s c node d)
    guardM ((rs.map (·.1)).eraseDups.length == rs.length) badNode
    laneUndo c (cancelLanes node rs)
    completed c none) s

/-! ## EMIT.V, EMIT.P (R380) -/

/-- The rasteriser record that a lane's handle names: reserved, charged to the issuer's crew. -/
def meshOf (s : State) (c : LCtx) (l : Nat) : Option (Nat × GfxRec) :=
  let w := s.wave c.k
  let h := w.pair c.w.va.toNat l
  s.nodes.findSome? fun n => (n.2.recs.find? fun r =>
    r.2.handle == h && r.2.dptb == w.hart.dptb && r.2.st == .reserved && r.2.c == s.waveCrewIx c.k).map fun r => (r.1, r.2)

/-- A lane's element of a mesh: its address, or the counter that overflows. -/
def meshElem (c : LCtx) (vertex : Bool) (l : Nat) : M (Dword × Bool) := do
  let s ← get
  let w := s.wave c.k
  let acc := s.laneAcc c.k
  match meshOf s c l with
  | none => fail badNode
  | some (slot, x) => do
    let d ← readNode acc x.nodeVa
    guardM (d.kind == 1) badNode
    let gs ← resolve acc x.handle 4 .load
    if w.meetsPending gs then throw .stall
    let bs ← readSegs acc (x.handle.toNat % 2 ^ 48) true gs
    let i := (w.reg c.w.vb.toNat l).toNat
    let limit := natOfBytes (if vertex then bs.take 2 else bs.drop 2)
    if limit ≤ i then pure (x.nodeVa + (if vertex then 0x28 else 0x2C), false)
    else pure (BitVec.ofNat 64 (d.arena + 4096 * slot + (if vertex then 32 * i else 2048 + 4 * i)), true)

/-- The bytes that a lane stores. -/
def meshData (c : LCtx) (w : Wave) (vertex : Bool) (l : Nat) : List Byte :=
  if vertex then (List.range 8).flatMap fun i => leBytes 4 (w.reg (c.w.vc.toNat + i) l).toNat
  else leBytes 4 ((w.reg c.w.vc.toNat l).toNat % 2 ^ 24)

def emitLanes (c : LCtx) (acc : Acc) (w : Wave) (vertex : Bool) (es : List (Nat × Dword × Bool)) : M Unit :=
  match es with
  | [] => pure ()
  | (l, va, ok) :: t => do
    if ok then vwrite acc va (meshData c w vertex l)
    else do
      let _ ← vrmwAt true acc va 4 fun v => some ((v + 1) % 2 ^ 32)
    emitLanes c acc w vertex t

def emitM (vertex : Bool) (c : LCtx) : M Unit := do
  heldBack c
  let s ← get
  let ls := lanesOf c.act
  let acc := s.laneAcc c.k
  let n := if vertex then 32 else 4
  laneCheck ls fun l => do
    let _ ← meshElem c vertex l
  let es ← forLanes ls fun l => do return (l, ← meshElem c vertex l)
  laneCheck ls fun l =>
    match es.find? fun e => e.1 == l with
    | some (_, va, ok) => do
      let _ ← resolve acc va (if ok then n else 4) .store
    | none => pure ()
  let gss ← forLanes ls fun l =>
    match es.find? fun e => e.1 == l with
    | some (_, va, ok) => resolve acc va (if ok then n else 4) .store
    | none => pure []
  if (← getWave c.k).meetsPending gss.flatten then throw .stall
  gateSegs acc true gss.flatten
  emitLanes c acc (s.wave c.k) vertex es
  completed c none

def execEmitV (w : LaneWord) (s : State) : Host.Outcome State Fault Refusal :=
  laneInstr (.emitV w) w (fun _ => pure ()) (emitM true) s

def execEmitP (w : LaneWord) (s : State) : Host.Outcome State Fault Refusal :=
  laneInstr (.emitP w) w (fun _ => pure ()) (emitM false) s

end Sys2Proof.Machine
end

