-- ==== Sys2Proof/Machine/GfxUnits.lean ====
section
/-! DEFINITION. The fixed-function graphics units: rasteriser (R381), blender (R382 to R384), traversal unit (R385). -/

namespace Sys2Proof.Machine

/-- The work of a unit on a record: undone when it has to wait; a cause is logged and the record dropped (R374). -/
def unitWork (r : GfxRef) (x : GfxRec) (u : Nat) (m : M Unit) (s : State) : State :=
  match m s with
  | .ok _ t => t
  | .error (.exc e) t => runM (do
      modify fun s => s.setCluster x.cluster { s.cluster x.cluster with
        raster := if ((s.cluster x.cluster).raster.map (·.mesh)) == some r then none else (s.cluster x.cluster).raster }
      gfxLog x.cluster u x.crew e
      freeRec r) t
  | .error _ t => { s with snoops := t.snoops }

/-- The first record in a queue of each node: the unit may take any of them. -/
def queueHeads (q : List GfxRef) : List GfxRef :=
  match q with
  | [] => []
  | r :: t => r :: (queueHeads t).filter fun x => x.node != r.node

/-- The unit's choice among the heads, and the state after the free draw. -/
def pickHead (s : State) (q : List GfxRef) : Option (GfxRef × State) :=
  match queueHeads q with
  | [] => none
  | [r] => some (r, s)
  | hs =>
    let (k, t) := s.drawNat hs.length
    (hs[k]?).map fun r => (r, t)

/-! ## Rasteriser (R381) -/

/-- A vertex position as integers at a common exponent, or what stops that. -/
structure MeshVertex where
  x : FVal
  y : FVal
deriving DecidableEq, Repr

/-- Mantissa of a finite value at exponent `q`, which is not above its own. -/
def FVal.atExp (v : FVal) (q : Int) : Int := v.dyad.atExp q

def FVal.exp (v : FVal) : Int := match v with
  | .fin _ _ e => e
  | _ => 0

/-- E of an edge at a point, all at one exponent (R381). -/
def edgeAt (ax ay bx by' cx cy : Int) : Int := (bx - ax) * (cy - ay) - (by' - ay) * (cx - ax)

/-- The point is inside an edge: E above 0, or 0 on an edge of the rule. -/
def insideEdge (ax ay bx by' cx cy : Int) : Bool :=
  let e := edgeAt ax ay bx by' cx cy
  decide (0 < e) || (e == 0 && (decide (0 < by' - ay) || (by' == ay && decide (bx < ax))))

/-- A primitive of three vertices as scaled integers: exponent, and x0, y0, x1, y1, x2, y2. -/
def scaled (a b c : MeshVertex) : Int × List Int :=
  let vs := [a.x, a.y, b.x, b.y, c.x, c.y]
  let q := vs.foldl (fun m v => min m v.exp) (-1)
  (q, vs.map fun v => v.atExp q)

/-- Coverage of the pixel (px, py). -/
def covers (q : Int) (v : List Int) (px py : Nat) : Bool :=
  let one : Int := 2 ^ (-1 - q).toNat
  let cx : Int := (2 * px + 1) * one
  let cy : Int := (2 * py + 1) * one
  let g (i : Nat) : Int := v.getD i 0
  insideEdge (g 0) (g 1) (g 2) (g 3) cx cy && insideEdge (g 2) (g 3) (g 4) (g 5) cx cy && insideEdge (g 4) (g 5) (g 0) (g 1) cx cy

def blockMask (f : Nat → Nat → Bool) (bx by' : Nat) : Dword :=
  BitVec.ofBoolListLE ((List.range 64).map fun k => f (8 * bx + k % 8) (8 * by' + k / 8)) |>.setWidth 64

/-- Blocks of a tile in ascending number, as (bx, by). -/
def tileBlocks (tw th : Nat) : List (Nat × Nat) := (List.range (tw * th)).map fun b => (b % tw, b / tw)

/-- The blocks that a primitive covers; none when it is culled. -/
def primBlocks (p tw th : Nat) (a b c : MeshVertex) : Option (List RasterBlock) :=
  let (q, v) := scaled a b c
  let g (i : Nat) : Int := v.getD i 0
  if edgeAt (g 0) (g 1) (g 2) (g 3) (g 4) (g 5) ≤ 0 then none
  else some ((tileBlocks tw th).filterMap fun e =>
    let m := blockMask (covers q v) e.1 e.2
    if m = 0 then none else some { prim := p, bx := e.1, bY := e.2, mask := m })

/-- An infinite coordinate: the spec states no result, so that culling and coverage are free (log 6). -/
def freeBlocks (p : Nat) (es : List (Nat × Nat)) : M (List RasterBlock) :=
  match es with
  | [] => pure []
  | e :: t => do
    let m ← freeDwordM
    let rest ← freeBlocks p t
    pure (if m = 0 then rest else { prim := p, bx := e.1, bY := e.2, mask := m } :: rest)

/-- The primitives of a mesh in ascending order: their blocks, and how many are culled. -/
def primsOf (nv tw th : Nat) (vert : Nat → MeshVertex) (idx : Nat → Nat) (ps : List Nat) : M (List RasterBlock × Nat) :=
  match ps with
  | [] => pure ([], 0)
  | p :: t => do
    let w := idx p
    let i0 := w % 256
    let i1 := w / 256 % 256
    let i2 := w / 65536 % 256
    let vs := [vert i0, vert i1, vert i2]
    let any (f : FVal → Bool) : Bool := vs.any fun v => f v.x || f v.y
    let own ←
      if nv ≤ i0 ∨ nv ≤ i1 ∨ nv ≤ i2 ∨ any FVal.isNan then pure none
      else if any FVal.isInf then do
        let k ← freeNatM 2
        if k = 0 then pure none else some <$> freeBlocks p (tileBlocks tw th)
      else pure (primBlocks p tw th (vert i0) (vert i1) (vert i2))
    let (rest, culled) ← primsOf nv tw th vert idx t
    match own with
    | some bs => pure (bs ++ rest, culled)
    | none => pure (rest, culled + 1)

/-- n added to a counter of a node. -/
def addCounter (acc : Acc) (d : NodeD) (off n : Nat) : M Unit := do
  if n ≠ 0 then do
    let _ ← vrmwAt true acc (d.va + BitVec.ofNat 64 off) 4 fun v => some ((v + n) % 2 ^ 32)

/-- The rasteriser takes a mesh: it is read, culled and covered. -/
def takeMesh (r : GfxRef) (x : GfxRec) : M Unit := do
  let acc := x.acc 0
  let d ← useNode acc x.nodeVa
  let tile ← readNode acc d.blend
  let pay ← vread acc x.handle 16
  let nv := natOfBytes (pay.take 2)
  let np := natOfBytes ((pay.drop 2).take 2)
  modify fun s => s.setRec r.node r.slot { x with st := .taken }
  if nv = 0 ∨ 64 < nv ∨ 256 < np then do
    addCounter acc d 0x30 1
    freeRec r
  else do
    let arena : Dword := BitVec.ofNat 64 (d.arena + 4096 * r.slot)
    let vs ← vread acc arena (32 * nv)
    let is ← if np = 0 then pure [] else vread acc (arena + 2048) (4 * np)
    let word (l : List Byte) (off : Nat) : Nat := natOfBytes ((l.drop off).take 4)
    let vert (j : Nat) : MeshVertex := { x := unpack .f32 (word vs (32 * j)), y := unpack .f32 (word vs (32 * j + 4)) }
    let (work, culled) ← primsOf nv tile.tw tile.th vert (fun p => word is (4 * p)) (List.range np)
    addCounter acc d 0x30 culled
    if work.isEmpty then freeRec r
    else modify fun s => s.setCluster x.cluster { s.cluster x.cluster with raster := some { mesh := r, work := work } }

/-- RASTER_MESH: an idle rasteriser takes the first record of one of its nodes. -/
def execRasterMesh (cluster : Nat) (s : State) : Host.Outcome State Fault Refusal :=
  event (fun s =>
    let c := s.cluster cluster
    if c.raster.isSome then s else
    match pickHead s c.rasterQ with
    | none => s
    | some (r, t) =>
      let t := t.setCluster cluster { t.cluster cluster with rasterQ := c.rasterQ.erase r }
      match t.gfxRec r with
      | none => t
      | some x =>
        match takeMesh r { x with cluster := cluster } t with
        | .error .stall u => { s with snoops := u.snoops }
        | _ => unitWork r { x with cluster := cluster } 0 (takeMesh r { x with cluster := cluster }) t) s

/-- A mesh's next block is emitted, with both of its records (R381). -/
def emitBlock (job : RasterJob) (x : GfxRec) (b : RasterBlock) (rest : List RasterBlock) : M Unit := do
  let acc := x.acc 0
  let d ← useNode acc x.nodeVa
  let fd ← useNode acc d.frag
  let bd ← useNode acc d.blend
  let fk ← nodeKey acc d.frag
  let bk ← nodeKey acc d.blend
  let slots ← do
    match ← reserveM acc fk fd { x with mesh := some job.mesh } with
    | none => throw .stall
    | some fs =>
      match ← reserveM acc bk bd { x with mesh := none, ticket := true } with
      | none => throw .stall
      | some bs => pure (fs, bs)
  let (fs, bs) := slots
  let block := b.bY * bd.tw + b.bx
  let ticket := ((← get).node bk).nextTicket.getD block 0
  vwrite acc (bd.handle bs) (leBytes 8 b.mask.toNat ++ leBytes 4 ticket ++ leBytes 2 b.bx ++ leBytes 2 b.bY)
  modify fun s =>
    let n := s.node bk
    s.setNode bk { n with
      nextTicket := n.nextTicket.put block ((ticket + 1) % 2 ^ 32)
      tickets := n.tickets.put block (n.tickets.getD block [] ++ [bs]) }
  vwrite acc (fd.handle fs) (leBytes 8 b.mask.toNat ++ leBytes 8 x.handle.toNat ++ leBytes 2 b.prim ++ leBytes 2 b.bx ++
    leBytes 2 b.bY ++ [0, 0] ++ leBytes 8 (bd.handle bs).toNat ++ leBytes 8 (bd.stage + 1280 * bs) ++ leBytes 8 0)
  modify fun s => s.setCluster x.cluster { s.cluster x.cluster with
    raster := if rest.isEmpty then none else some { job with work := rest } }
  commitRec acc fd fk fs
  freeMesh job.mesh

/-- RASTER_BLOCK_EMIT: the next block of the mesh, once a fragment and a blend record can both be reserved. -/
def execRasterBlockEmit (cluster : Nat) (s : State) : Host.Outcome State Fault Refusal :=
  event (fun s =>
    match (s.cluster cluster).raster with
    | none => s
    | some job =>
      match job.work, s.gfxRec job.mesh with
      | b :: rest, some x => unitWork job.mesh { x with cluster := cluster } 0 (emitBlock job { x with cluster := cluster } b rest) s
      | _, _ => s.setCluster cluster { s.cluster cluster with raster := none }) s

/-! ## Blender (R382 to R384) -/

def f32Lt (a b : Nat) : Bool := fcompare (unpack .f32 a) (unpack .f32 b) == some .lt
def f32Le (a b : Nat) : Bool :=
  match fcompare (unpack .f32 a) (unpack .f32 b) with
  | some .lt | some .eq => true
  | _ => false

def mulB (a b : Nat) : Nat := (fmul .f32 { mode := 0 } false (unpack .f32 a) (unpack .f32 b)).bits
def addB (a b : Nat) : Nat := (fadd .f32 { mode := 0 } false (unpack .f32 a) (unpack .f32 b)).bits
def subB (a b : Nat) : Nat := (fsub .f32 { mode := 0 } false (unpack .f32 a) (unpack .f32 b)).bits
def divB (a b : Nat) : Nat := (fdiv .f32 { mode := 0 } false (unpack .f32 a) (unpack .f32 b)).bits

/-- One channel of a pixel (R384): staged s, tile d, and the staged alpha. -/
def blendChannel (op s d a : Nat) : Nat :=
  match op with
  | 0 => s
  | 1 => addB (mulB s a) (mulB d (subB 0x3F800000 a))
  | 2 => addB d s
  | _ => (fminmaxRes .f32 true d s).bits

/-- Pixel `k` of a block: staged values at `st`, the tile's at `ti`. -/
def blendPixel (acc : Acc) (d : NodeD) (st ti : Dword) (k : Nat) : M Unit := do
  let at' (b : Dword) (off : Nat) : Dword := b + BitVec.ofNat 64 off
  let ss ← vread acc (at' st (16 * k)) 16
  let sz := natOfBytes (← vread acc (at' st (1024 + 4 * k)) 4)
  let ds ← vread acc (at' ti (16 * k)) 16
  let tz := natOfBytes (← vread acc (at' ti (1024 + 4 * k)) 4)
  let pass := match d.depth with
    | 0 => true
    | 1 => f32Lt sz tz
    | _ => f32Le sz tz
  if pass then do
    let ch (l : List Byte) (i : Nat) : Nat := natOfBytes ((l.drop (4 * i)).take 4)
    let a := ch ss 3
    vwrite acc (at' ti (16 * k)) ((List.range 4).flatMap fun i => leBytes 4 (blendChannel d.op (ch ss i) (ch ds i) a))
    if d.depth ≠ 0 then vwrite acc (at' ti (1024 + 4 * k)) (leBytes 4 sz)

def blendPixels (acc : Acc) (d : NodeD) (st ti : Dword) (mask : Dword) (ks : List Nat) : M Unit :=
  match ks with
  | [] => pure ()
  | k :: t => do
    if mask.getLsbD k then blendPixel acc d st ti k
    blendPixels acc d st ti mask t

/-- TILE lies in the crew view of the charged crew (R382). -/
def tileInView (s : State) (acc : Acc) (va : Nat) : Bool :=
  let off := va % 2 ^ 40
  inWindow va && decide (2 ^ 36 ≤ off ∧ off < 2 ^ 37) &&
    (crewView s acc ((off - 2 ^ 36) / 2 ^ 25) ((off - 2 ^ 36) % 2 ^ 25 / 2 ^ 22)).isSome

/-- A committed head ticket is applied. -/
def applyTicket (r : GfxRef) (x : GfxRec) : M Unit := do
  let acc := x.acc 4
  let d ← useNode acc x.nodeVa
  guardM (tileInView (← get) acc d.tile) badNode
  let pay ← vread acc x.handle 16
  let mask : Dword := BitVec.ofNat 64 (natOfBytes (pay.take 8))
  let bx := natOfBytes ((pay.drop 12).take 2)
  let bY := natOfBytes ((pay.drop 14).take 2)
  blendPixels acc d (BitVec.ofNat 64 (d.stage + 1280 * r.slot)) (BitVec.ofNat 64 (d.tile + 1280 * (bY * d.tw + bx))) mask
    (List.range 64)
  freeRec r

/-- BLEND_TICKET: the head ticket of a block is applied once committed, or passed once skipped. -/
def execBlendTicket (node block : Nat) (s : State) : Host.Outcome State Fault Refusal :=
  event (fun s =>
    let n := s.node node
    match n.tickets.getD block [] with
    | [] => s
    | slot :: rest =>
      let pop (s : State) : State := s.setNode node { s.node node with tickets := (s.node node).tickets.put block rest }
      match n.recs.find slot with
      | none => pop s
      | some x =>
        let r : GfxRef := { node := node, slot := slot, id := x.id }
        match x.st with
        | .skipped => runM (freeRec r) (pop s)
        | .queued =>
          match applyTicket r x (pop s) with
          | .error .stall u => { s with snoops := u.snoops }
          | _ => unitWork r x 4 (applyTicket r x) (pop s)
        | _ => s) s

/-! ## Traversal unit (R385) -/

/-- The greater or lesser of two values; between zeros of either sign the choice is open. -/
def pickF32 (greater : Bool) (a b : Nat) : Nat :=
  if f32Lt a b then (if greater then b else a)
  else if f32Lt b a then (if greater then a else b)
  else if a = b then a
  else if (Config.openResult 1 (BitVec.ofNat 64 a) (BitVec.ofNat 64 b)).getLsbD 0 then a else b

/-- The slab test of one axis on (near, far); none for a miss. -/
def slab (o d lo hi : Nat) (nf : Nat × Nat) : Option (Nat × Nat) :=
  let nan (v : Nat) : Bool := (unpack .f32 v).isNan
  if nan o || nan d || nan lo || nan hi then none
  else if (unpack .f32 d).isZero then (if f32Le lo o && f32Le o hi then some nf else none)
  else
    let ta := divB (subB lo o) d
    let tb := divB (subB hi o) d
    if nan ta || nan tb then none
    else some (pickF32 true nf.1 (pickF32 false ta tb), pickF32 false nf.2 (pickF32 true ta tb))

/-- The near value of a hit child, or none. -/
def boxHit (ray child : List Byte) : Option Nat :=
  let w (l : List Byte) (i : Nat) : Nat := natOfBytes ((l.drop (4 * i)).take 4)
  let near := w ray 6
  let far := w ray 7
  if (unpack .f32 near).isNan || (unpack .f32 far).isNan then none else
  let axis (i : Nat) (nf : Option (Nat × Nat)) : Option (Nat × Nat) :=
    nf.bind (slab (w ray i) (w ray (3 + i)) (w child i) (w child (3 + i)))
  match axis 2 (axis 1 (axis 0 (some (near, far)))) with
  | some (n, f) => if f32Le n f then some n else none
  | none => none

/-- A hit put in its place: ascending by near, ties by child. -/
def insertHit (h : Nat × Nat) (l : List (Nat × Nat)) : List (Nat × Nat) :=
  match l with
  | [] => [h]
  | x :: t => if f32Le h.2 x.2 then h :: x :: t else x :: insertHit h t

/-- The hits of a ray in a box node, in order. -/
def rayHits (ray node : List Byte) : List (Nat × Nat) :=
  let hit (j : Nat) : Option (Nat × Nat) :=
    let c := (node.drop (32 * j)).take 32
    if natOfBytes (c.drop 24) = 0 then none else (boxHit ray c).map fun n => (j, n)
  ((List.range 8).filterMap hit).foldr insertHit []

def traverse (r : GfxRef) (x : GfxRec) : M Unit := do
  let acc := x.acc 1
  let d ← useNode acc x.nodeVa
  let ray ← vread acc x.handle 48
  let at' : Dword := BitVec.ofNat 64 (natOfBytes ((ray.drop 32).take 8))
  guardM (decide (at'.toNat % 256 = 0)) (excDev 4 0 at')
  let node ← vread acc at' 256
  let nd ← useNode acc d.next
  let nk ← nodeKey acc d.next
  match ← reserveM acc nk nd x with
  | none => throw .stall
  | some slot => do
    let hits := rayHits ray node
    let pad (n : Nat) (b : Byte) (l : List Byte) : List Byte := l ++ List.replicate (n - l.length) b
    vwrite acc (nd.handle slot) (ray ++ [BitVec.ofNat 8 hits.length] ++ List.replicate 7 0 ++
      pad 8 0xFF (hits.map fun h => BitVec.ofNat 8 h.1) ++ pad 32 0 (hits.flatMap fun h => leBytes 4 h.2))
    commitRec acc nd nk slot
    freeRec r

/-- TRAVERSE_RAY: the traversal unit takes the first record of one of its nodes. -/
def execTraverseRay (cluster : Nat) (s : State) : Host.Outcome State Fault Refusal :=
  event (fun s =>
    let c := s.cluster cluster
    match pickHead s c.traverseQ with
    | none => s
    | some (r, t) =>
      let t := t.setCluster cluster { t.cluster cluster with traverseQ := c.traverseQ.erase r }
      match t.gfxRec r with
      | none => t
      | some x =>
        let x := { x with cluster := cluster }
        match traverse r x t with
        | .error .stall u => { s with snoops := u.snoops }
        | _ => unitWork r x 1 (traverse r x) t) s

end Sys2Proof.Machine
end

