-- ==== Sys2Proof/Machine/HostPort.lean ====
section
/-! DEFINITION. The package's outside connections: host snoops and CXL.mem accesses (R424 to R426), peer packages (R422),
the links between dies and packages (R419, R421), memory errors (R412), the power governor (R434). -/

namespace Sys2Proof.Machine

/-! ## The host (R424 to R426) -/

/-- HOST_SNOOP: the host snoops a line of its memory: the home gathers every token and answers with the data; an
invalidating snoop leaves no copy in the package (R424). -/
def execHostSnoop (line : Nat) (invalidate : Bool) (s : State) : Host.Outcome State Fault Refusal :=
  event (fun s =>
    if paKind (line * 256) ≠ .host then s else
    let s := s.tokenHome line
    if invalidate then { s with llc := s.llc.erase line } else s) s

/-- The home slice of a line of DRAM, with its die. -/
def homeOf (line : Nat) : Nat := dieOfPa (line * 256) * 32 + sliceOf (line * 256)

/-- A line enters the host filter; a full one loses its slice's oldest entry by an invalidating snoop (R425). -/
def State.filterLine (s : State) (line : Nat) : State :=
  if s.hostFilter.contains line then s else
  let mine := s.hostFilter.filter fun l => homeOf l == homeOf line
  let s := match mine with
    | l :: _ => if 2048 ≤ mine.length then { s with hostFilter := s.hostFilter.erase l } else s
    | [] => s
  { s with hostFilter := s.hostFilter ++ [line] }

/-- HOST_MEM_ACCESS: a host CXL.mem read or write of device DRAM is served at the home; one that meets the home's snoop of
its line makes the home snoop again (R425, R426). -/
def execHostMemAccess (write : Bool) (addr : Nat) (data : List Byte) (s : State) : Host.Outcome State Fault Refusal :=
  event (fun s =>
    if paKind addr ≠ .dram then s else
    let line := addr / 256
    let s := if (s.snoops.find line).isSome then { s with snoops := s.snoops.put line true } else s
    if write then ((s.tokenHome line).transfer addr).poke addr (data.take (256 - addr % 256))
    else
      let g := s.granuleOf line
      ((s.loseOthers 128 g ((s.tok g).held.filter fun e => 1 < e.2)).transfer addr).filterLine line) s

/-- BACK_INVALIDATION_RESPONSE: the host answers a snoop. After a race the home discards the answer and snoops again, else
the filter entry clears and the device request that waits can go on (R425, R426). -/
def execBackInvalidationResponse (line : Nat) (s : State) : Host.Outcome State Fault Refusal :=
  event (fun s =>
    match s.snoops.find line with
    | some true => { s with snoops := s.snoops.put line false }
    | some false => { s with
        snoops := s.snoops.del line
        hostFilter := s.hostFilter.erase line }
    | none => s) s

/-! ## Peer packages and links (R419 to R422) -/

/-- An atomic of a peer package: operand bytes, then for a compare-and-swap the compare value; words of 4 or 8 bytes. -/
def State.peerAtomic (s : State) (addr code : Nat) (data : List Byte) : State :=
  let n := if code = 7 then data.length / 2 else data.length
  if (n = 4 ∨ n = 8) ∧ addr % n = 0 ∧ !s.poisoned addr n then
    let old := natOfBytes (s.peek addr n)
    match atomNew (.ofCode code) (8 * n) old (natOfBytes (data.take n)) (natOfBytes (data.drop n)) with
    | some v => s.poke addr (leBytes n v)
    | none => s
  else s

/-- PEER_WINDOW_ACCESS: a fill, write-back or atomic of a peer package is performed at the home of its line, with every
token collected (R422); a line that the host may hold is snooped first (R425). -/
def execPeerWindowAccess (op : PeerOp) (addr : Nat) (data : List Byte) (s : State) : Host.Outcome State Fault Refusal :=
  event (fun s =>
    if paKind addr ≠ .dram then s else
    match s.snoopFirst [addr / 256] with
    | some t => t
    | none =>
      let s := (s.tokenHome (addr / 256)).llcTouch (addr / 256)
      match op with
      | .fill => s
      | .writeBack => s.poke addr (data.take (256 - addr % 256))
      | .atomic code => s.peerAtomic addr code data) s

/-- FLIT_REPLAY: a flit is replayed with the later ones, which no program sees; the replays in a row of one flit are counted
(R419). Links 0 to 95 are the UCIe modules by pair·24 + module, 96 to 103 the Halhel links. -/
def execFlitReplay (link seq : Nat) (s : State) : Host.Outcome State Fault Refusal :=
  event (fun s =>
    let n := match s.replays.find link with
      | some (q, n) => if q = seq % 4096 then n + 1 else 1
      | none => 1
    { s with replays := s.replays.put link (seq % 4096, n) }) s

/-- LINK_RETRAIN: a module that failed 16 replays in a row retrains, or the pair goes on without it; with no module left
every launch ends (R419). -/
def execLinkRetrain (pair module : Nat) (ok : Bool) (s : State) : Host.Outcome State Fault Refusal :=
  event (fun s =>
    let link := pair % 4 * 24 + module % 24
    let n := ((s.replays.find link).map (·.2)).getD 0
    if n < 16 ∨ !(s.modules[pair % 4]!).getLsbD (module % 24) then s else
    let s : State := { s with replays := s.replays.del link }
    if ok then s else
    let left := s.modules[pair % 4]! &&& ~~~BitVec.ofNat 24 (2 ^ (module % 24))
    let s : State := { s with modules := s.modules.set! (pair % 4) left }
    let s := s.logError 0 0 4 255 0 0 0 0 0xFFFFFFFF
    if left = 0 then (s.launches.map (·.1)).foldl (fun s n => s.endLaunch n 0 0 255 0) s else s) s

/-- HALHEL_FAILOVER: a Halhel link fails; traffic that another live link to the same package takes over is logged (R421). -/
def execHalhelFailover (link : Nat) (s : State) : Host.Outcome State Fault Refusal :=
  event (fun s =>
    let i := link % 8
    if !s.linkUp.getLsbD i then s else
    let s : State := { s with linkUp := s.linkUp &&& ~~~BitVec.ofNat 8 (2 ^ i) }
    if (s.linkTo (s.links[i]!).toNat).isSome then s.logError 0 0 4 255 0 0 0 0 0xFFFFFFFF else s) s

/-! ## Memory errors (R412) -/

/-- ECC_CORRECTED: counted, and logged at most once per cluster per 2,097,152 clk (R412). -/
def execEccCorrected (cluster addr : Nat) (s : State) : Host.Outcome State Fault Refusal :=
  event (fun s =>
    let c := s.cluster (cluster % 128)
    let due := match c.eccClk with
      | some k => decide (k + 2097152 ≤ s.clk)
      | none => true
    if due then
      (s.setCluster (cluster % 128) { c with eccClk := some s.clk }).logError 0 0 4 255 (cluster % 128) addr 0 0 0xFFFFFFFF
    else { s with elLost := (s.elLost + 1) % 2 ^ 32 }) s

/-- Key of word `b` of the poison marks of a wave's registers. -/
def regKey (wave b : Nat) : Nat := 2 ^ 66 + wave * 2 ^ 17 + b * 8

/-- ECC_UNCORRECTED: the 8-byte word at a physical address, a key of on-chip storage or a register word is poisoned, and the
poison entered in the log (R412, R415). -/
def execEccUncorrected (addr : Nat) (s : State) : Host.Outcome State Fault Refusal :=
  event (fun s =>
    let s :=
      if addr < 2 ^ 66 then { s with poison := insertNat s.poison (addr / 8) }
      else
        let k := (addr - 2 ^ 66) / 2 ^ 17
        let w := s.wave k
        if w.live then s.setWave k { w with bad := insertNat w.bad ((addr - 2 ^ 66) % 2 ^ 17 / 8) } else s
    s.logError 22 0 5 255 0 (if addr < 2 ^ 56 then addr else 0) 0 0 0xFFFFFFFF) s

/-! ## Power (R434) -/

/-- The governor raises STEP: by how much is its own choice. -/
def State.raiseStep (s : State) (cause : Nat) : State :=
  let (k, s) := s.drawNat (8 - s.govStep)
  { s with
    govStep := min 8 (s.govStep + 1 + k)
    govCause := cause }

/-- GOVERNOR_WINDOW: the average of a 1 ms window. Above min(PLIMIT, CAP), or at 100 °C, STEP rises; else the governor may
lower it (R434). -/
def execGovernorWindow (watts tj : Nat) (s : State) : Host.Outcome State Fault Refusal :=
  event (fun s =>
    let s : State := { s with
      govPwr := watts % 65536
      govTj := tj % 256 }
    if 100 ≤ tj then s.raiseStep 3
    else if min s.plimit s.govCap < watts then s.raiseStep (if s.govCap < s.plimit then 2 else 1)
    else
      let (k, s) := s.drawNat (s.govStep + 1)
      { s with
        govStep := k
        govCause := if k = 0 then 0 else s.govCause }) s

/-- THERMAL_THROTTLE: the hottest junction has reached 100 °C (R434). -/
def execThermalThrottle (tj : Nat) (s : State) : Host.Outcome State Fault Refusal :=
  event (fun s => if 100 ≤ tj then { s with govTj := tj % 256 }.raiseStep 3 else s) s

/-- THERMAL_TRIP: at 110 °C every clock stops and every launch ends (R434). -/
def execThermalTrip (tj : Nat) (s : State) : Host.Outcome State Fault Refusal :=
  event (fun s =>
    if tj < 110 then s else
    let s := (s.launches.map (·.1)).foldl (fun s n => s.endLaunch n 0 0 255 0) { s with govTj := tj % 256 }
    { s with halted := true }) s

end Sys2Proof.Machine
end

