-- ==== Sys2Proof/Machine/LaneAccord.lean ====
section
/-! DEFINITION. Accord: reservoirs and draws of lanes (R220 to R225). -/

namespace Sys2Proof.Machine

/-- A lane's Accord state and the flags raised so far. -/
structure AccRes where
  a : Accord
  flags : Nat := 0
deriving DecidableEq, Repr

def f32v (w : Word) : FVal := unpack .f32 w.toNat

/-- A result rounded to nearest-even and saturated (R223). -/
def accMul (x y : FVal) : FRes := fmul .f32 { mode := 0 } true x y
def accAdd (x y : FVal) : FRes := fadd .f32 { mode := 0 } true x y

/-- A weight that is NaN, infinite or below zero, and a target value that is NaN or below zero. -/
def badTarget (v : FVal) : Bool := v.isNan || (v.neg && !v.isZero)
def badWeight (v : FVal) : Bool := badTarget v || v.isInf

/-- u·WS < w, exactly (R223), for a draw u·2^-24 and finite values. -/
def chosen (u : Nat) (ws w : FVal) : Bool :=
  match ws, w with
  | .fin n1 m1 e1, .fin n2 m2 e2 => cmpFin n1 (u * m1) (e1 - 24) n2 m2 e2 == .lt
  | _, _ => false

/-- A finalised reservoir reopened (R223). -/
def reopen (r : AccRes) : AccRes :=
  if r.a.fin then
    let x := accMul (f32v r.a.ws) (f32v r.a.ph)
    let y := accMul (unpack .f32 x.bits) (intVal r.a.m.toNat)
    { a := { r.a with ws := BitVec.ofNat 32 y.bits, fin := false }, flags := r.flags ||| x.flags ||| y.flags }
  else r

/-- accept of R223, on a reservoir that is not finalised. -/
def accept (w s p : Word) (m : Nat) (r0 : AccRes) : AccRes :=
  let r := reopen r0
  let nv := badWeight (f32v w) || badTarget (f32v p)
  let w := if badWeight (f32v w) then 0 else w
  let p := if badTarget (f32v p) then 0 else p
  let old := r.a.ws
  let sum := accAdd (f32v old) (f32v w)
  let ws : Word := BitVec.ofNat 32 sum.bits
  let a := { r.a with ws := ws, m := BitVec.ofNat 16 (min 65535 (r.a.m.toNat + m)) }
  let fl := r.flags ||| sum.flags ||| (if nv then Flag.nv else 0)
  if (f32v w).isZero then { a := a, flags := fl }
  else if (f32v old).isZero then { a := { a with smp := s, ph := p }, flags := fl }
  else
    let u := drawU a.key a.ctr
    let a := { a with ctr := a.ctr + 1 }
    if chosen u (f32v ws) (f32v w) then { a := { a with smp := s, ph := p }, flags := fl } else { a := a, flags := fl }

/-- RSV.MRG of one lane (R225). -/
def merge (s win w3 p : Word) (cap : Nat) (a : Accord) : AccRes :=
  let f := w3.getLsbD 16
  let win := if f then win else 0
  let min' := if f then w3.toNat % 65536 else 0
  let cm := if cap ≠ 0 then min min' (cap * a.m.toNat) else min'
  let x := fmul .f32 { mode := 0 } true (f32v p) (f32v win)
  let y := accMul (unpack .f32 x.bits) (intVal cm)
  accept (BitVec.ofNat 32 y.bits) s p cm
    { a := a, flags := x.flags ||| y.flags ||| (if f then 0 else Flag.nv) }

/-- RSV.FIN of one lane (R224): the denominator M·PH is exact. -/
def finish (a : Accord) : AccRes :=
  if a.fin then { a := a }
  else if a.m = 0 ∨ (f32v a.ph).isZero ∨ (f32v a.ws).isZero then { a := { a with ws := 0, fin := true } }
  else
    let den := match f32v a.ph with
      | .fin n m e => .fin n (m * a.m.toNat) e
      | v => v
    let q := fdiv .f32 { mode := 0 } true (f32v a.ws) den
    { a := { a with ws := BitVec.ofNat 32 q.bits, fin := true }, flags := q.flags }

/-- The reservoir's word `i` (R220). -/
def Accord.word (a : Accord) (i : Nat) : Word :=
  match i with
  | 0 => a.smp
  | 1 => a.ph
  | 2 => a.ws
  | _ => a.m.zeroExtend 32 ||| (if a.fin then 0x10000 else 0)

def Wave.acc (w : Wave) (l : Nat) : Accord := (w.accord[l]?).getD {}

/-- Accord of the active lanes changed, flags ORed into lfm. -/
def accordWave (c : LCtx) (f : Wave → Nat → AccRes) (w : Wave) : Wave :=
  let r (l : Nat) := f w l
  ({ w with accord := Vector.ofFn fun l => if Mask.has c.act l.val then (r l.val).a else w.accord[l] }).orFlags
    c.act fun l => (r l).flags

/-- RSV.SEED (R224). -/
def execRsvSeed (w : LaneWord) (s : State) : Host.Outcome State Fault Refusal :=
  laneWave (.rsvSeed w) w (fun c st =>
    let clean (b : Nat) : Bool := decide (8200 ≤ b) && c.act.has ((b - 8200) / 4) && decide (2 ≤ b % 4)
    accordWave c (fun st l => { a := { st.acc l with key := opA c st l ^^^ opB c st l, ctr := 0 } })
      { st with bad := st.bad.filter fun b => !clean b }) s

/-- RSV.UPD (R223, R224): accept(b, a, c, 1). -/
def execRsvUpd (w : LaneWord) (s : State) : Host.Outcome State Fault Refusal :=
  laneWave (.rsvUpd w) w (fun c => accordWave c fun st l =>
    accept (st.reg w.vb.toNat l) (st.reg w.va.toNat l) (st.reg w.vc.toNat l) 1 { a := st.acc l }) s

/-- RSV.MRG (R225). -/
def execRsvMrg (w : LaneWord) (s : State) : Host.Outcome State Fault Refusal :=
  laneWave (.rsvMrg w) w (fun c => accordWave c fun st l =>
    merge (st.reg w.va.toNat l) (st.reg (w.va.toNat + 2) l) (st.reg (w.va.toNat + 3) l) (st.reg w.vb.toNat l) w.vc.toNat
      (st.acc l)) s

/-- RSV.FIN (R224). -/
def execRsvFin (w : LaneWord) (s : State) : Host.Outcome State Fault Refusal :=
  laneWave (.rsvFin w) w (fun c => accordWave c fun st l => finish (st.acc l)) s

/-- RSV.GET (R224): the reservoir into four registers; cleared when the immediate is 1. -/
def execRsvGet (w : LaneWord) (s : State) : Host.Outcome State Fault Refusal :=
  laneWave (.rsvGet w) w (fun c st =>
    let d := w.vd.toNat
    let t := (((st.writeReg d c.act fun l => (st.acc l).word 0).writeReg (d + 1) c.act fun l => (st.acc l).word 1).writeReg
      (d + 2) c.act fun l => (st.acc l).word 2).writeReg (d + 3) c.act fun l => (st.acc l).word 3
    if w.vc = 1 then
      accordWave c (fun st l => { a := { key := (st.acc l).key, ctr := (st.acc l).ctr } }) t
    else t) s

/-- RSV.DRAW (R224): the draw as an exact FP32 number. -/
def execRsvDraw (w : LaneWord) (s : State) : Host.Outcome State Fault Refusal :=
  laneWave (.rsvDraw w) w (fun c st => writeResults c false 1 (fun l =>
    { val := BitVec.ofNat 64 (roundTo .f32 { mode := 0 } false false (drawU (st.acc l).key (st.acc l).ctr) (-24) false).bits })
    st) s

end Sys2Proof.Machine
end

