-- ==== Sys2Proof/Machine/LaneFloat.lean ====
section
/-! DEFINITION. Lane floating-point arithmetic (R175, R176), comparisons, SEL and predicate operations (R177 to R179). -/

namespace Sys2Proof.Machine

/-- A floating-point operation that rounds once per element under RM, with SAT in class L (R175). -/
def floatOp (i : Instr) (w : LaneWord) (f : FFmt → Rnd → Bool → FVal → FVal → FVal → FRes) (s : State) :
    Host.Outcome State Fault Refusal :=
  let fm := laneFmt w.ty
  let sat := w.sat && (ruleOf i).cls == .L
  laneWave i w (fun c => roundInstr c fun r x y z => f fm r sat (unpack fm x) (unpack fm y) (unpack fm z)) s

/-- An element-wise operation on bits that raises flags and does not round. -/
def flagOp (i : Instr) (w : LaneWord) (f : FFmt → Nat → Nat → FRes) (s : State) : Host.Outcome State Fault Refusal :=
  let fm := laneFmt w.ty
  laneWave i w (fun c st => writeResults c (ty64 w.ty) 0
    (fun l => perElem w.ty (fun _ x y _ => f fm x y) (opA c st l) (opB c st l) 0) st) s

/-- FABS and FNEG of an element (R175): the canonical NaN for a NaN. -/
def signOp (f : FFmt) (neg : Bool) (x : Nat) : FRes :=
  match unpack f x with
  | .nan sg => nanRes f sg
  | _ =>
    let mag := x % f.signBit
    { bits := if neg && decide (x < f.signBit) then mag + f.signBit else mag }

/-- The truth of ICMP's condition code (R177). -/
def icmpCond (cond : Nat) (a b : Int) : Bool :=
  match cond with
  | 0 => a == b
  | 1 => a != b
  | 2 => decide (a < b)
  | 3 => decide (a ≤ b)
  | 4 => decide (b < a)
  | _ => decide (b ≤ a)

/-- The truth of FCMP's condition code, with NV (R177). -/
def fcmpCond (f : FFmt) (cond x y : Nat) : Bool × Nat :=
  let a := unpack f x
  let b := unpack f y
  let o := fcompare a b
  let t := match cond with
    | 0 => o == some .eq
    | 1 => o != some .eq
    | 2 => o == some .lt
    | 3 => o == some .lt || o == some .eq
    | 4 => o == some .gt
    | 5 => o == some .gt || o == some .eq
    | 6 => o == none
    | _ => o != none
  let nv := if decide (2 ≤ cond ∧ cond ≤ 5) then o == none else a.isSig || b.isSig
  (t, if nv then Flag.nv else 0)

/-- A comparison that writes predicate VD in the active lanes. -/
def icmpOp (i : Instr) (w : LaneWord) (s : State) : Host.Outcome State Fault Refusal :=
  laneWave i w (fun c st => st.writePred w.vd.toNat c.act
    (maskOf fun l => icmpCond w.vc.toNat (elemInt w.ty (opA c st l).toNat) (elemInt w.ty (opB c st l).toNat))) s

def fcmpOp (i : Instr) (w : LaneWord) (s : State) : Host.Outcome State Fault Refusal :=
  laneWave i w (fun c st =>
    let r (l : Nat) := fcmpCond (laneFmt w.ty) w.vc.toNat (opA c st l).toNat (opB c st l).toNat
    (st.writePred w.vd.toNat c.act (maskOf fun l => (r l).1)).orFlags c.act fun l => (r l).2) s

/-- SEL: a where the predicate's bit is set, else b (R178). -/
def selOp (i : Instr) (w : LaneWord) (s : State) : Host.Outcome State Fault Refusal :=
  laneWave i w (fun c st => writeResults c (ty64 w.ty) 0
    (fun l => { val := if Mask.has (st.pred w.vc.toNat) l then opA c st l else opB c st l }) st) s

/-- A predicate written in the active lanes from the state's predicates (R179). -/
def predOp (i : Instr) (w : LaneWord) (f : Wave → Mask) (s : State) : Host.Outcome State Fault Refusal :=
  laneWave i w (fun c st => st.writePred w.vd.toNat c.act (f st)) s

/-- FADD (R175). -/
def execFadd (w : LaneWord) (s : State) : Host.Outcome State Fault Refusal :=
  floatOp (.fadd w) w (fun f r sat a b _ => Sys2Proof.Machine.fadd f r sat a b) s

/-- FADD with IMM32 (R169, R175). -/
def execFaddLi (w : LaneWord) (s : State) : Host.Outcome State Fault Refusal :=
  floatOp (.faddLi w) w (fun f r sat a b _ => Sys2Proof.Machine.fadd f r sat a b) s

/-- FSUB (R175). -/
def execFsub (w : LaneWord) (s : State) : Host.Outcome State Fault Refusal :=
  floatOp (.fsub w) w (fun f r sat a b _ => Sys2Proof.Machine.fsub f r sat a b) s

/-- FSUB with IMM32 (R169, R175). -/
def execFsubLi (w : LaneWord) (s : State) : Host.Outcome State Fault Refusal :=
  floatOp (.fsubLi w) w (fun f r sat a b _ => Sys2Proof.Machine.fsub f r sat a b) s

/-- FMUL (R175). -/
def execFmul (w : LaneWord) (s : State) : Host.Outcome State Fault Refusal :=
  floatOp (.fmul w) w (fun f r sat a b _ => Sys2Proof.Machine.fmul f r sat a b) s

/-- FMUL with IMM32 (R169, R175). -/
def execFmulLi (w : LaneWord) (s : State) : Host.Outcome State Fault Refusal :=
  floatOp (.fmulLi w) w (fun f r sat a b _ => Sys2Proof.Machine.fmul f r sat a b) s

/-- FMIN (R175): minimumNumber. -/
def execFmin (w : LaneWord) (s : State) : Host.Outcome State Fault Refusal :=
  flagOp (.fmin w) w (fun f x y => fminmaxRes f false x y) s

/-- FMIN with IMM32 (R169, R175). -/
def execFminLi (w : LaneWord) (s : State) : Host.Outcome State Fault Refusal :=
  flagOp (.fminLi w) w (fun f x y => fminmaxRes f false x y) s

/-- FMAX (R175): maximumNumber. -/
def execFmax (w : LaneWord) (s : State) : Host.Outcome State Fault Refusal :=
  flagOp (.fmax w) w (fun f x y => fminmaxRes f true x y) s

/-- FMAX with IMM32 (R169, R175). -/
def execFmaxLi (w : LaneWord) (s : State) : Host.Outcome State Fault Refusal :=
  flagOp (.fmaxLi w) w (fun f x y => fminmaxRes f true x y) s

/-- FABS (R175). -/
def execFabs (w : LaneWord) (s : State) : Host.Outcome State Fault Refusal :=
  flagOp (.fabs w) w (fun f x _ => signOp f false x) s

/-- FNEG (R175). -/
def execFneg (w : LaneWord) (s : State) : Host.Outcome State Fault Refusal :=
  flagOp (.fneg w) w (fun f x _ => signOp f true x) s

/-- FMA (R175): rnd(a·b + c). -/
def execFma (w : LaneWord) (s : State) : Host.Outcome State Fault Refusal :=
  floatOp (.fma w) w (fun f r sat a b c => ffma f r sat a b c) s

/-- FMS (R175): rnd(a·b − c). -/
def execFms (w : LaneWord) (s : State) : Host.Outcome State Fault Refusal :=
  floatOp (.fms w) w (fun f r sat a b c => ffma f r sat a b c.negate) s

/-- FNMA (R175): rnd(c − a·b). -/
def execFnma (w : LaneWord) (s : State) : Host.Outcome State Fault Refusal :=
  floatOp (.fnma w) w (fun f r sat a b c => ffma f r sat a.negate b c) s

/-- FDIV (R175). -/
def execFdiv (w : LaneWord) (s : State) : Host.Outcome State Fault Refusal :=
  floatOp (.fdiv w) w (fun f r sat a b _ => Sys2Proof.Machine.fdiv f r sat a b) s

/-- FSQRT (R175). -/
def execFsqrt (w : LaneWord) (s : State) : Host.Outcome State Fault Refusal :=
  floatOp (.fsqrt w) w (fun f r _ a _ _ => Sys2Proof.Machine.fsqrt f r false a) s

/-- ICMP (R177). -/
def execIcmp (w : LaneWord) (s : State) : Host.Outcome State Fault Refusal :=
  icmpOp (.icmp w) w s

/-- ICMP with IMM32 (R169, R177). -/
def execIcmpLi (w : LaneWord) (s : State) : Host.Outcome State Fault Refusal :=
  icmpOp (.icmpLi w) w s

/-- FCMP (R177). -/
def execFcmp (w : LaneWord) (s : State) : Host.Outcome State Fault Refusal :=
  fcmpOp (.fcmp w) w s

/-- FCMP with IMM32 (R169, R177). -/
def execFcmpLi (w : LaneWord) (s : State) : Host.Outcome State Fault Refusal :=
  fcmpOp (.fcmpLi w) w s

/-- FCLASS (R177). -/
def execFclass (w : LaneWord) (s : State) : Host.Outcome State Fault Refusal :=
  flagOp (.fclass w) w (fun f x _ => { bits := fclassOf f x }) s

/-- SEL (R178). -/
def execSel (w : LaneWord) (s : State) : Host.Outcome State Fault Refusal :=
  selOp (.sel w) w s

/-- SEL with IMM32 (R169, R178). -/
def execSelLi (w : LaneWord) (s : State) : Host.Outcome State Fault Refusal :=
  selOp (.selLi w) w s

/-- PAND (R179). -/
def execPand (w : LaneWord) (s : State) : Host.Outcome State Fault Refusal :=
  predOp (.pand w) w (fun st => st.pred w.va.toNat &&& st.pred w.vb.toNat) s

/-- POR (R179). -/
def execPor (w : LaneWord) (s : State) : Host.Outcome State Fault Refusal :=
  predOp (.por w) w (fun st => st.pred w.va.toNat ||| st.pred w.vb.toNat) s

/-- PXOR (R179). -/
def execPxor (w : LaneWord) (s : State) : Host.Outcome State Fault Refusal :=
  predOp (.pxor w) w (fun st => st.pred w.va.toNat ^^^ st.pred w.vb.toNat) s

/-- PNOT (R179). -/
def execPnot (w : LaneWord) (s : State) : Host.Outcome State Fault Refusal :=
  predOp (.pnot w) w (fun st => ~~~(st.pred w.va.toNat)) s

/-- PMOV (R179): whether the register is not 0. -/
def execPmov (w : LaneWord) (s : State) : Host.Outcome State Fault Refusal :=
  predOp (.pmov w) w (fun st => maskOf fun l => st.reg w.va.toNat l != 0) s

end Sys2Proof.Machine
end

