-- ==== Sys2Proof/Machine/LaneInt.lean ====
section
/-! DEFINITION. Lane instructions on integers and bits: INT, IMAD, LOGIC, SHIFT, BITF and their immediate forms (R169, R171 to
R174). -/

namespace Sys2Proof.Machine

/-- A lane instruction whose active lanes take an element-wise result. -/
def elemOp (i : Instr) (w : LaneWord) (f : Nat → Nat → Nat → Nat) (s : State) : Host.Outcome State Fault Refusal :=
  laneWave i w (fun c => elemInstr c f) s

/-- An exact integer result of two elements, wrapped, or saturated under SAT (R35, R171). -/
def intOp (i : Instr) (w : LaneWord) (f : Int → Int → Int) (s : State) : Host.Outcome State Fault Refusal :=
  let sat := w.sat && (ruleOf i).cls == .L
  elemOp i w (fun x y _ => fitInt w.ty sat (f (elemInt w.ty x) (elemInt w.ty y))) s

/-- The high N bits of the exact 2N-bit product (R171). -/
def mulHiElem (ty : BitVec 4) (x y : Nat) : Nat :=
  let n := tyWidth ty
  wrapInt n (elemInt ty x * elemInt ty y / (2 ^ n : Nat))

def intMin (a b : Int) : Int := if b < a then b else a
def intMax (a b : Int) : Int := if a < b then b else a

/-- An element as a bit vector of its width, for LOGIC and SHIFT. -/
def bvElem (ty : BitVec 4) (f : BitVec (tyWidth ty) → BitVec (tyWidth ty) → BitVec (tyWidth ty)) (x y : Nat) : Nat :=
  (f (BitVec.ofNat _ x) (BitVec.ofNat _ y)).toNat

def bvOp (i : Instr) (w : LaneWord) (f : BitVec (tyWidth w.ty) → BitVec (tyWidth w.ty) → BitVec (tyWidth w.ty)) (s : State) :
    Host.Outcome State Fault Refusal :=
  elemOp i w (fun x y _ => bvElem w.ty f x y) s

/-- A shift by the low log2(width) bits of the second element (R173). -/
def shiftOp (i : Instr) (w : LaneWord) (f : BitVec (tyWidth w.ty) → Nat → BitVec (tyWidth w.ty)) (s : State) :
    Host.Outcome State Fault Refusal :=
  bvOp i w (fun a b => f a (b.toNat % tyWidth w.ty)) s

/-- Position and width of a bit field (R174). -/
def fieldOf (v : Nat) : Nat × Nat :=
  let pos := v % 32
  (pos, min (v / 256 % 64) (32 - pos))

/-- BFX: the field of `a`, zero-extended, or extended from its top bit. -/
def bfxVal (signed : Bool) (a b : Nat) : Nat :=
  let (pos, wd) := fieldOf b
  let v := bits a pos wd
  if signed && wd != 0 && decide (2 ^ (wd - 1) ≤ v) then 2 ^ 32 - 2 ^ wd + v else v

/-- BFI: `a` with the field given by `c` replaced by the low bits of `b`. -/
def bfiVal (a b c : Nat) : Nat :=
  let (pos, wd) := fieldOf c
  a - bits a pos wd * 2 ^ pos + bits b 0 wd * 2 ^ pos

/-- ADD (R171): d := a + b. -/
def execLaneAdd (w : LaneWord) (s : State) : Host.Outcome State Fault Refusal :=
  intOp (.laneAdd w) w (· + ·) s

/-- ADD with IMM32 (R169). -/
def execAddLi (w : LaneWord) (s : State) : Host.Outcome State Fault Refusal :=
  intOp (.addLi w) w (· + ·) s

/-- SUB (R171): d := a − b. -/
def execLaneSub (w : LaneWord) (s : State) : Host.Outcome State Fault Refusal :=
  intOp (.laneSub w) w (· - ·) s

/-- SUB with IMM32 (R169). -/
def execSubLi (w : LaneWord) (s : State) : Host.Outcome State Fault Refusal :=
  intOp (.subLi w) w (· - ·) s

/-- MUL (R171): d := a·b. -/
def execLaneMul (w : LaneWord) (s : State) : Host.Outcome State Fault Refusal :=
  intOp (.laneMul w) w (· * ·) s

/-- MUL with IMM32 (R169). -/
def execMulLi (w : LaneWord) (s : State) : Host.Outcome State Fault Refusal :=
  intOp (.mulLi w) w (· * ·) s

/-- MULHI (R171): the high half of the product. -/
def execMulhi (w : LaneWord) (s : State) : Host.Outcome State Fault Refusal :=
  elemOp (.mulhi w) w (fun x y _ => mulHiElem w.ty x y) s

/-- MULHI with IMM32 (R169): the high half of the product. -/
def execMulhiLi (w : LaneWord) (s : State) : Host.Outcome State Fault Refusal :=
  elemOp (.mulhiLi w) w (fun x y _ => mulHiElem w.ty x y) s

/-- MIN (R171). -/
def execLaneMin (w : LaneWord) (s : State) : Host.Outcome State Fault Refusal :=
  intOp (.laneMin w) w intMin s

/-- MIN with IMM32 (R169). -/
def execMinLi (w : LaneWord) (s : State) : Host.Outcome State Fault Refusal :=
  intOp (.minLi w) w intMin s

/-- MAX (R171). -/
def execLaneMax (w : LaneWord) (s : State) : Host.Outcome State Fault Refusal :=
  intOp (.laneMax w) w intMax s

/-- MAX with IMM32 (R169). -/
def execMaxLi (w : LaneWord) (s : State) : Host.Outcome State Fault Refusal :=
  intOp (.maxLi w) w intMax s

/-- ABS (R171). -/
def execLaneAbs (w : LaneWord) (s : State) : Host.Outcome State Fault Refusal :=
  intOp (.laneAbs w) w (fun a _ => if a < 0 then -a else a) s

/-- NEG (R171). -/
def execLaneNeg (w : LaneWord) (s : State) : Host.Outcome State Fault Refusal :=
  intOp (.laneNeg w) w (fun a _ => -a) s

/-- IMAD (R171): a·b + c, wrapped or saturated once. -/
def execImad (w : LaneWord) (s : State) : Host.Outcome State Fault Refusal :=
  elemOp (.imad w) w (fun x y z => fitInt w.ty w.sat (elemInt w.ty x * elemInt w.ty y + elemInt w.ty z)) s

/-- AND (R172). -/
def execLaneAnd (w : LaneWord) (s : State) : Host.Outcome State Fault Refusal :=
  bvOp (.laneAnd w) w (fun a b => a &&& b) s

/-- AND with IMM32 (R169). -/
def execAndLi (w : LaneWord) (s : State) : Host.Outcome State Fault Refusal :=
  bvOp (.andLi w) w (fun a b => a &&& b) s

/-- OR (R172). -/
def execLaneOr (w : LaneWord) (s : State) : Host.Outcome State Fault Refusal :=
  bvOp (.laneOr w) w (fun a b => a ||| b) s

/-- OR with IMM32 (R169). -/
def execOrLi (w : LaneWord) (s : State) : Host.Outcome State Fault Refusal :=
  bvOp (.orLi w) w (fun a b => a ||| b) s

/-- XOR (R172). -/
def execLaneXor (w : LaneWord) (s : State) : Host.Outcome State Fault Refusal :=
  bvOp (.laneXor w) w (fun a b => a ^^^ b) s

/-- XOR with IMM32 (R169). -/
def execXorLi (w : LaneWord) (s : State) : Host.Outcome State Fault Refusal :=
  bvOp (.xorLi w) w (fun a b => a ^^^ b) s

/-- NOT (R172). -/
def execLaneNot (w : LaneWord) (s : State) : Host.Outcome State Fault Refusal :=
  bvOp (.laneNot w) w (fun a _ => ~~~a) s

/-- ANDN (R172). -/
def execAndn (w : LaneWord) (s : State) : Host.Outcome State Fault Refusal :=
  bvOp (.andn w) w (fun a b => a &&& ~~~b) s

/-- ANDN with IMM32 (R169). -/
def execAndnLi (w : LaneWord) (s : State) : Host.Outcome State Fault Refusal :=
  bvOp (.andnLi w) w (fun a b => a &&& ~~~b) s

/-- SHL (R173): zeros in. -/
def execShl (w : LaneWord) (s : State) : Host.Outcome State Fault Refusal :=
  shiftOp (.shl w) w (fun a n => a <<< n) s

/-- SHL with IMM32 (R169). -/
def execShlLi (w : LaneWord) (s : State) : Host.Outcome State Fault Refusal :=
  shiftOp (.shlLi w) w (fun a n => a <<< n) s

/-- SHR (R173): zeros in. -/
def execShr (w : LaneWord) (s : State) : Host.Outcome State Fault Refusal :=
  shiftOp (.shr w) w (fun a n => a >>> n) s

/-- SHR with IMM32 (R169). -/
def execShrLi (w : LaneWord) (s : State) : Host.Outcome State Fault Refusal :=
  shiftOp (.shrLi w) w (fun a n => a >>> n) s

/-- SHA (R173): copies of the sign bit in. -/
def execSha (w : LaneWord) (s : State) : Host.Outcome State Fault Refusal :=
  shiftOp (.sha w) w (fun a n => a.sshiftRight n) s

/-- SHA with IMM32 (R169). -/
def execShaLi (w : LaneWord) (s : State) : Host.Outcome State Fault Refusal :=
  shiftOp (.shaLi w) w (fun a n => a.sshiftRight n) s

/-- ROL (R173). -/
def execRol (w : LaneWord) (s : State) : Host.Outcome State Fault Refusal :=
  shiftOp (.rol w) w (fun a n => a.rotateLeft n) s

/-- ROL with IMM32 (R169). -/
def execRolLi (w : LaneWord) (s : State) : Host.Outcome State Fault Refusal :=
  shiftOp (.rolLi w) w (fun a n => a.rotateLeft n) s

/-- ROR (R173). -/
def execRor (w : LaneWord) (s : State) : Host.Outcome State Fault Refusal :=
  shiftOp (.ror w) w (fun a n => a.rotateRight n) s

/-- ROR with IMM32 (R169). -/
def execRorLi (w : LaneWord) (s : State) : Host.Outcome State Fault Refusal :=
  shiftOp (.rorLi w) w (fun a n => a.rotateRight n) s

/-- POPC (R174). -/
def execPopc (w : LaneWord) (s : State) : Host.Outcome State Fault Refusal :=
  elemOp (.popc w) w (fun x _ _ => popCount (tyWidth w.ty) x) s

/-- CLZ (R174): the width for 0. -/
def execClz (w : LaneWord) (s : State) : Host.Outcome State Fault Refusal :=
  elemOp (.clz w) w (fun x _ _ => leadZeros (tyWidth w.ty) x) s

/-- CTZ (R174): the width for 0. -/
def execCtz (w : LaneWord) (s : State) : Host.Outcome State Fault Refusal :=
  elemOp (.ctz w) w (fun x _ _ => trailZeros (tyWidth w.ty) 0 x) s

/-- BREV (R174). -/
def execBrev (w : LaneWord) (s : State) : Host.Outcome State Fault Refusal :=
  bvOp (.brev w) w (fun a _ => a.reverse) s

/-- BFX (R174). -/
def execBfx (w : LaneWord) (s : State) : Host.Outcome State Fault Refusal :=
  elemOp (.bfx w) w (fun x y _ => bfxVal (tySigned w.ty) x y) s

/-- BFI (R174). -/
def execBfi (w : LaneWord) (s : State) : Host.Outcome State Fault Refusal :=
  elemOp (.bfi w) w (fun x y z => bfiVal x y z) s

end Sys2Proof.Machine
end

