-- ==== Sys2Proof/Machine/LaneMove.lean ====
section
/-! DEFINITION. Exchange between lanes (R183, R184), REDUCE and SCAN (R185 to R187), moves and float-mode state (R188, R189). -/

namespace Sys2Proof.Machine

/-- In each active lane, VD takes operand a of the source lane that `src` names, when that lane is in the group, else of
its own lane (R183). -/
def exchange (i : Instr) (w : LaneWord) (src : LCtx → Wave → Nat → Nat) (s : State) : Host.Outcome State Fault Refusal :=
  laneWave i w (fun c st => writeResults c (ty64 w.ty) 0 (fun l =>
    let from' := src c st l
    { val := opA c st (if Mask.has c.g.mask from' then from' else l) }) st) s

/-- VOTE of the active lanes into a predicate (R184). -/
def voteOp (i : Instr) (w : LaneWord) (f : Mask → Mask → Bool) (s : State) : Host.Outcome State Fault Refusal :=
  laneWave i w (fun c st =>
    st.writePred w.vd.toNat c.act (if f (st.pred w.va.toNat) c.act then BitVec.allOnes 64 else 0)) s

/-! ## REDUCE and SCAN -/

/-- A node's value: none is the identity; flags join (R185). -/
structure Node where
  val : Option Nat
  flags : Nat := 0
deriving DecidableEq, Repr

/-- The operation of a node on two values (R185). -/
def nodeOp (ty : BitVec 4) (op rm : Nat) (sat : Bool) (x y : Nat) : FRes :=
  let f := laneFmt ty
  if tyFloat ty then
    match op with
    | 0 => fadd f { mode := rm } false (unpack f x) (unpack f y)
    | 1 => fminmaxRes f false x y
    | _ => fminmaxRes f true x y
  else
    let a := elemInt ty x
    let b := elemInt ty y
    match op with
    | 0 => { bits := fitInt ty sat (a + b) }
    | 1 => { bits := if b < a then y else x }
    | 2 => { bits := if a < b then y else x }
    | 3 => { bits := x &&& y }
    | 4 => { bits := x ||| y }
    | _ => { bits := x ^^^ y }

def node (ty : BitVec 4) (op rm : Nat) (sat : Bool) (a b : Node) : Node :=
  match a.val, b.val with
  | some x, some y =>
    let r := nodeOp ty op rm sat x y
    { val := some r.bits, flags := a.flags ||| b.flags ||| r.flags }
  | some x, none => { val := some x, flags := a.flags ||| b.flags }
  | none, v => { val := v, flags := a.flags ||| b.flags }

/-- One level of the tree of R186. -/
def treeLevel (f : Node → Node → Node) (l : List Node) : List Node :=
  match l with
  | a :: b :: t => f a b :: treeLevel f t
  | l => l

/-- The tree of R186 over `n` levels. -/
def treeFold (f : Node → Node → Node) (n : Nat) (l : List Node) : Node :=
  match n with
  | 0 => l.headD { val := none }
  | n + 1 => treeFold f n (treeLevel f l)

/-- The lanes' values: inactive lanes enter as the identity. -/
def leaves (c : LCtx) (w : Wave) : List Node :=
  (List.range 64).map fun l => { val := if Mask.has c.act l then some (opA c w l).toNat else none }

/-- One step of the doubling network (R187). -/
def scanStep (f : Node → Node → Node) (d : Nat) (y : List Node) : List Node :=
  y.take d ++ List.zipWith f y (y.drop d)

def scanFold (f : Node → Node → Node) (ds : List Nat) (y : List Node) : List Node :=
  match ds with
  | [] => y
  | d :: t => scanFold f t (scanStep f d y)

/-- What an exclusive SCAN writes where nothing is to its left (R187). -/
def scanEmpty (ty : BitVec 4) (op : Nat) : Nat :=
  let n := tyWidth ty
  let (lo, hi) := intRange (tySigned ty) n
  let f := laneFmt ty
  match op with
  | 1 => if tyFloat ty then f.inf else wrapInt n hi
  | 2 => if tyFloat ty then f.signBit + f.inf else wrapInt n lo
  | 3 => 2 ^ n - 1
  | _ => 0

/-- REDUCE on the wave. -/
def reduceWave (c : LCtx) (w : Wave) : Wave :=
  let f := node c.w.ty c.w.vc.toNat c.w.rm.toNat c.w.sat
  let r := treeFold f 6 (leaves c w)
  writeResults c (ty64 c.w.ty) 0 (fun _ => { val := BitVec.ofNat 64 (r.val.getD 0), flags := r.flags }) w

/-- SCAN on the wave. Every flag that any node raises goes to every active lane. -/
def scanWave (c : LCtx) (w : Wave) : Wave :=
  let op := c.w.vc.toNat % 16
  let excl := c.w.vc.getLsbD 4
  let f := node c.w.ty op c.w.rm.toNat c.w.sat
  let y := scanFold f [1, 2, 4, 8, 16, 32] (leaves c w)
  let flags := y.foldl (fun a n => a ||| n.flags) 0
  let at' (l : Nat) : Nat :=
    if excl then
      (if l = 0 then none else (y[l - 1]?.bind (·.val))).getD (scanEmpty c.w.ty op)
    else (y[l]?.bind (·.val)).getD 0
  writeResults c (ty64 c.w.ty) 0 (fun l => { val := BitVec.ofNat 64 (at' l), flags := flags }) w

/-! ## Moves -/

/-- A result per active lane that raises no flag. -/
def moveOp (i : Instr) (w : LaneWord) (wide : Bool) (f : LCtx → Wave → Nat → Dword) (s : State) :
    Host.Outcome State Fault Refusal :=
  laneWave i w (fun c st => writeResults c wide 0 (fun l => { val := f c st l }) st) s

/-- lfm written; a FRM of 5, 6 or 7 is left unchanged (R42). -/
def newLfm (old : Byte) (v : Byte) : Byte := if 5 ≤ v.toNat / 32 then (old &&& 0xE0#8) ||| (v &&& 0x1F#8) else v

def lfmWave (c : LCtx) (w : Wave) : Wave :=
  { w with lfm := Vector.ofFn fun l =>
      if Mask.has c.act l.val then newLfm w.lfm[l] ((w.reg c.w.va.toNat l.val).setWidth 8) else w.lfm[l] }

/-- SHFL.IDX (R183). -/
def execShflIdx (w : LaneWord) (s : State) : Host.Outcome State Fault Refusal :=
  exchange (.shflIdx w) w (fun c st l => (opB c st l).toNat % 64) s

/-- SHFL.XOR (R183). -/
def execShflXor (w : LaneWord) (s : State) : Host.Outcome State Fault Refusal :=
  exchange (.shflXor w) w (fun c _ l => l ^^^ c.w.vc.toNat) s

/-- SHFL.UP (R183). -/
def execShflUp (w : LaneWord) (s : State) : Host.Outcome State Fault Refusal :=
  exchange (.shflUp w) w (fun c _ l => if c.w.vc.toNat ≤ l then l - c.w.vc.toNat else l) s

/-- SHFL.DN (R183). -/
def execShflDn (w : LaneWord) (s : State) : Host.Outcome State Fault Refusal :=
  exchange (.shflDn w) w (fun c _ l => if l + c.w.vc.toNat ≤ 63 then l + c.w.vc.toNat else l) s

/-- BCST (R183). -/
def execBcst (w : LaneWord) (s : State) : Host.Outcome State Fault Refusal :=
  exchange (.bcst w) w (fun c _ _ => c.w.vc.toNat) s

/-- VOTE.ANY (R184). -/
def execVoteAny (w : LaneWord) (s : State) : Host.Outcome State Fault Refusal :=
  voteOp (.voteAny w) w (fun p a => p &&& a != 0) s

/-- VOTE.ALL (R184). -/
def execVoteAll (w : LaneWord) (s : State) : Host.Outcome State Fault Refusal :=
  voteOp (.voteAll w) w (fun p a => p &&& a == a) s

/-- VOTE.MASK (R184). -/
def execVoteMask (w : LaneWord) (s : State) : Host.Outcome State Fault Refusal :=
  moveOp (.voteMask w) w true (fun c st _ => st.pred c.w.va.toNat &&& c.act) s

/-- REDUCE (R185, R186). -/
def execReduce (w : LaneWord) (s : State) : Host.Outcome State Fault Refusal :=
  laneWave (.reduce w) w reduceWave s

/-- SCAN (R185, R187). -/
def execScan (w : LaneWord) (s : State) : Host.Outcome State Fault Refusal :=
  laneWave (.scan w) w scanWave s

/-- MOV (R188). -/
def execMov (w : LaneWord) (s : State) : Host.Outcome State Fault Refusal :=
  moveOp (.mov w) w (ty64 w.ty) (fun c st l => opA c st l) s

/-- MOVU (R188). -/
def execMovu (w : LaneWord) (s : State) : Host.Outcome State Fault Refusal :=
  moveOp (.movu w) w (ty64 w.ty) (fun c st _ => st.uni c.w.va.toNat) s

/-- MOVX (R188). -/
def execMovx (w : LaneWord) (s : State) : Host.Outcome State Fault Refusal :=
  moveOp (.movx w) w false (fun c st l => if Mask.has (st.pred c.w.va.toNat) l then 1 else 0) s

/-- MOVI (R188). -/
def execMovi (w : LaneWord) (s : State) : Host.Outcome State Fault Refusal :=
  moveOp (.movi w) w (ty64 w.ty) (fun c _ _ => immOperand c.w.ty c.w.imm32) s

/-- LFM.RD (R189). -/
def execLfmRd (w : LaneWord) (s : State) : Host.Outcome State Fault Refusal :=
  moveOp (.lfmRd w) w false (fun _ st l => (st.lfmOf l).zeroExtend 64) s

/-- LFM.WR (R189). -/
def execLfmWr (w : LaneWord) (s : State) : Host.Outcome State Fault Refusal :=
  laneWave (.lfmWr w) w lfmWave s

end Sys2Proof.Machine
end

