-- ==== Sys2Proof/Machine/Crypto.lean ====
section
/-! DEFINITION. The digest and the signature check that images and the configuration record are verified by (R87, R431,
R432): SHA-384 and ECDSA on the curve P-384. -/

namespace Sys2Proof.Machine

/-! ## SHA-384 -/

/-- The round constants: the first 64 bits of the fractional parts of the cube roots of the first 80 primes. -/
def shaK : List Dword :=
  ([0x428a2f98d728ae22, 0x7137449123ef65cd, 0xb5c0fbcfec4d3b2f, 0xe9b5dba58189dbbc] ++
    [0x3956c25bf348b538, 0x59f111f1b605d019, 0x923f82a4af194f9b, 0xab1c5ed5da6d8118] ++
    [0xd807aa98a3030242, 0x12835b0145706fbe, 0x243185be4ee4b28c, 0x550c7dc3d5ffb4e2] ++
    [0x72be5d74f27b896f, 0x80deb1fe3b1696b1, 0x9bdc06a725c71235, 0xc19bf174cf692694] ++
    [0xe49b69c19ef14ad2, 0xefbe4786384f25e3, 0x0fc19dc68b8cd5b5, 0x240ca1cc77ac9c65] ++
    [0x2de92c6f592b0275, 0x4a7484aa6ea6e483, 0x5cb0a9dcbd41fbd4, 0x76f988da831153b5] ++
    [0x983e5152ee66dfab, 0xa831c66d2db43210, 0xb00327c898fb213f, 0xbf597fc7beef0ee4] ++
    [0xc6e00bf33da88fc2, 0xd5a79147930aa725, 0x06ca6351e003826f, 0x142929670a0e6e70] ++
    [0x27b70a8546d22ffc, 0x2e1b21385c26c926, 0x4d2c6dfc5ac42aed, 0x53380d139d95b3df] ++
    [0x650a73548baf63de, 0x766a0abb3c77b2a8, 0x81c2c92e47edaee6, 0x92722c851482353b] ++
    [0xa2bfe8a14cf10364, 0xa81a664bbc423001, 0xc24b8b70d0f89791, 0xc76c51a30654be30] ++
    [0xd192e819d6ef5218, 0xd69906245565a910, 0xf40e35855771202a, 0x106aa07032bbd1b8] ++
    [0x19a4c116b8d2d0c8, 0x1e376c085141ab53, 0x2748774cdf8eeb99, 0x34b0bcb5e19b48a8] ++
    [0x391c0cb3c5c95a63, 0x4ed8aa4ae3418acb, 0x5b9cca4f7763e373, 0x682e6ff3d6b2b8a3] ++
    [0x748f82ee5defb2fc, 0x78a5636f43172f60, 0x84c87814a1f0ab72, 0x8cc702081a6439ec] ++
    [0x90befffa23631e28, 0xa4506cebde82bde9, 0xbef9a3f7b2c67915, 0xc67178f2e372532b] ++
    [0xca273eceea26619c, 0xd186b8c721c0c207, 0xeada7dd6cde0eb1e, 0xf57d4f7fee6ed178] ++
    [0x06f067aa72176fba, 0x0a637dc5a2c898a6, 0x113f9804bef90dae, 0x1b710b35131c471b] ++
    [0x28db77f523047d84, 0x32caab7b40c72493, 0x3c9ebe0a15c9bebc, 0x431d67c49c100d4c] ++
    [0x4cc5d4becb3e42b6, 0x597f299cfc657e2a, 0x5fcb6fab3ad6faec, 0x6c44198c4a475817])

/-- The initial hash value: the first 64 bits of the fractional parts of the square roots of the ninth to sixteenth
primes. -/
def shaInit : List Dword :=
  [0xcbbb9d5dc1059ed8, 0x629a292a367cd507, 0x9159015a3070dd17, 0x152fecd8f70e5939,
    0x67332667ffc00b31, 0x8eb44a8768581511, 0xdb0c2e0d64f98fa7, 0x47b5481dbefa4fa4]

def shaWord (w : List Dword) (i : Nat) : Dword := w.getD i 0

/-- The message schedule, newest word first, from the sixteen words of a block. -/
def shaExpand (w : List Dword) (n : Nat) : List Dword :=
  match n with
  | 0 => w
  | n + 1 =>
    let a := shaWord w 14
    let b := shaWord w 1
    let s0 := a.rotateRight 1 ^^^ a.rotateRight 8 ^^^ (a >>> 7)
    let s1 := b.rotateRight 19 ^^^ b.rotateRight 61 ^^^ (b >>> 6)
    shaExpand ((s1 + shaWord w 6 + s0 + shaWord w 15) :: w) n

/-- One round on the eight working words. -/
def shaRound (h : List Dword) (k w : Dword) : List Dword :=
  let a := shaWord h 0
  let e := shaWord h 4
  let s1 := e.rotateRight 14 ^^^ e.rotateRight 18 ^^^ e.rotateRight 41
  let ch := (e &&& shaWord h 5) ^^^ (~~~e &&& shaWord h 6)
  let t1 := shaWord h 7 + s1 + ch + k + w
  let s0 := a.rotateRight 28 ^^^ a.rotateRight 34 ^^^ a.rotateRight 39
  let maj := (a &&& shaWord h 1) ^^^ (a &&& shaWord h 2) ^^^ (shaWord h 1 &&& shaWord h 2)
  [t1 + s0 + maj, a, shaWord h 1, shaWord h 2, shaWord h 3 + t1, e, shaWord h 5, shaWord h 6]

def shaRounds (h : List Dword) (ks : List (Dword × Dword)) : List Dword :=
  match ks with
  | [] => h
  | (k, w) :: t => shaRounds (shaRound h k w) t

/-- A word of eight big-endian bytes. -/
def beDword (l : List Byte) : Dword := BitVec.ofNat 64 (natOfBytes (l.take 8).reverse)

/-- A block of 128 bytes added to the hash. -/
def shaBlock (h : List Dword) (bs : List Byte) : List Dword :=
  let w := (List.range 16).map fun i => beDword (bs.drop (8 * i))
  let ws := (shaExpand w.reverse 64).reverse
  let r := shaRounds h (shaK.zip ws)
  (h.zip r).map fun e => e.1 + e.2

def shaBlocks (h : List Dword) (bs : List Byte) (n : Nat) : List Dword :=
  match n with
  | 0 => h
  | n + 1 => shaBlocks (shaBlock h (bs.take 128)) (bs.drop 128) n

/-- The big-endian bytes of a number, `n` of them. -/
def beBytes (n v : Nat) : List Byte := (leBytes n v).reverse

/-- SHA-384 of a byte string. -/
def sha384 (bs : List Byte) : List Byte :=
  let pad := (239 - bs.length % 128) % 128
  let m := bs ++ [0x80] ++ List.replicate pad 0 ++ beBytes 16 (8 * bs.length)
  ((shaBlocks shaInit m (m.length / 128)).take 6).flatMap fun w => beBytes 8 w.toNat

/-! ## P-384 -/

namespace P384

def p : Nat := 2 ^ 384 - 2 ^ 128 - 2 ^ 96 + 2 ^ 32 - 1
def n : Nat := 0xffffffffffffffffffffffffffffffffffffffffffffffffc7634d81f4372ddf581a0db248b0a77aecec196accc52973
def b : Nat := 0xb3312fa7e23ee7e4988e056be3f82d19181d9c6efe8141120314088f5013875ac656398d8a2ed19d2a85c8edd3ec2aef
def gx : Nat := 0xaa87ca22be8b05378eb1c71ef320ad746e1d3b628ba79b9859f741e082542a385502f25dbf55296c3a545e3872760ab7
def gy : Nat := 0x3617de4a96262c6f5d9e98bf9292dc29f8f41dbd289a147ce9da3113b5f0b8c00a60b1ce1d7e819d7a431d7c90ea0e5f

/-- `a` to the power `e` modulo `m`, over `fuel` bits of `e`. -/
def pow (a e m fuel : Nat) : Nat :=
  match fuel with
  | 0 => 1
  | fuel + 1 => if e % 2 = 1 then a * pow (a * a % m) (e / 2) m fuel % m else pow (a * a % m) (e / 2) m fuel

/-- The inverse modulo a prime. -/
def inv (a m : Nat) : Nat := pow (a % m) (m - 2) m 384

/-- The sum of two points; none is the point at infinity. -/
def add (u v : Option (Nat × Nat)) : Option (Nat × Nat) :=
  match u, v with
  | none, v => v
  | u, none => u
  | some (x1, y1), some (x2, y2) =>
    if x1 = x2 ∧ (y1 + y2) % p = 0 then none
    else
      let l := if x1 = x2 then (3 * x1 * x1 + (p - 3)) * inv (2 * y1) p % p
        else (y2 + (p - y1)) * inv (x2 + (p - x1)) p % p
      let x := (l * l + (p - x1) + (p - x2)) % p
      some (x, (l * (x1 + (p - x)) + (p - y1)) % p)

/-- The multiple of a point, over `fuel` bits of `k`. -/
def mul (k : Nat) (u : Option (Nat × Nat)) (fuel : Nat) : Option (Nat × Nat) :=
  match fuel with
  | 0 => none
  | fuel + 1 => if k % 2 = 1 then add u (mul (k / 2) (add u u) fuel) else mul (k / 2) (add u u) fuel

def onCurve (x y : Nat) : Bool := decide (x < p ∧ y < p ∧ y * y % p = (x * x * x + (p - 3) * x + b) % p)

end P384

/-- A big-endian number of bytes. -/
def beNat (l : List Byte) : Nat := natOfBytes l.reverse

/-- The ECDSA signature `sig` (r, then s) of a SHA-384 digest holds under a public key (x, then y), all big-endian. -/
def ecdsaOk (key digest sig : List Byte) : Bool :=
  let x := beNat (key.take 48)
  let y := beNat ((key.drop 48).take 48)
  let r := beNat (sig.take 48)
  let s := beNat ((sig.drop 48).take 48)
  if !P384.onCurve x y || r == 0 || s == 0 || decide (P384.n ≤ r ∨ P384.n ≤ s) then false
  else
    let w := P384.inv s P384.n
    let g := P384.mul (beNat digest * w % P384.n) (some (P384.gx, P384.gy)) 384
    let q := P384.mul (r * w % P384.n) (some (x, y)) 384
    match P384.add g q with
    | some (x, _) => x % P384.n == r
    | none => false

end Sys2Proof.Machine
end

