-- ==== Sys2Proof/Machine/Loader.lean ====
section
/-! DEFINITION. The management core: the loader (R83 to R89, R123, R430), bring-up (R431, R432), attestation (R433). -/

namespace Sys2Proof.Machine

/-! ## Reading an image (R83 to R85) -/

/-- A little-endian number of `n` bytes at `off`. -/
def le (bs : List Byte) (off n : Nat) : Nat := natOfBytes ((bs.drop off).take n)

/-- `n` bytes at `off` are 0. -/
def zeros (bs : List Byte) (off n : Nat) : Bool := ((bs.drop off).take n).all (· == 0)

/-- An entry of the section directory. -/
structure DirEntry where
  type : Nat
  role : Nat
  off : Nat
  size : Nat
  align : Nat
  clear : Bool
deriving DecidableEq, Repr

def dirEntry (bs : List Byte) (at' : Nat) : DirEntry :=
  { type := le bs at' 2
    role := le bs (at' + 2) 2
    off := le bs (at' + 8) 8
    size := le bs (at' + 0x10) 8
    align := le bs (at' + 0x18) 4
    clear := zeros bs (at' + 4) 4 && zeros bs (at' + 0x1C) 4 }

/-- The section directory. -/
def directoryOf (bs : List Byte) : List DirEntry := (List.range (le bs 0x10 4)).map fun i => dirEntry bs (le bs 0x18 8 + 32 * i)

/-- The bytes of a section. -/
def sectionBytes (bs : List Byte) (d : DirEntry) : List Byte := (bs.drop d.off).take d.size

/-- The bytes of the first section of a type. -/
def tableBytes (bs : List Byte) (t : Nat) : List Byte :=
  match (directoryOf bs).find? fun d => d.type == t with
  | some d => sectionBytes bs d
  | none => []

/-- The entries of the table of a type. -/
def entriesOf (bs : List Byte) (t n : Nat) : List (List Byte) :=
  let b := tableBytes bs t
  (List.range (b.length / n)).map fun i => (b.drop (n * i)).take n

/-- Entry sizes of the tables (R84). -/
def entrySize (t : Nat) : Nat :=
  match t with
  | 6 => 32 | 7 => 64 | 8 => 8 | 9 => 72 | 10 => 8 | 11 => 4 | 12 => 16 | 13 => 8 | 14 => 16 | 15 => 104
  | _ => 1

/-- The kinds of the roles. -/
def rolesOf (bs : List Byte) : List Nat := (entriesOf bs 6 32).map fun e => le e 24 1

/-- A kernel of the kernel table. -/
def kernelOfEntry (e : List Byte) : Kernel :=
  { name := e.take 32
    role := le e 32 2
    entry := le e 34 4
    stages := le e 38 1
    waves := le e 39 1
    strands := le e 40 2
    regs := le e 42 1
    scr := le e 43 1
    acc := le e 44 1
    peak := le e 46 2
    gx := le e 48 2
    gy := le e 50 2
    gz := le e 52 2
    slotMask := le e 54 2
    shapes := le e 56 1 }

def kernelsOf (bs : List Byte) : List Kernel := (entriesOf bs 7 64).map kernelOfEntry

/-- A placement entry: clusters first and last, units first and last, role. -/
def placementOf (bs : List Byte) : List (Nat × Nat × Nat × Nat × Nat) :=
  (entriesOf bs 10 8).map fun e => (le e 0 1, le e 1 1, le e 2 1, le e 3 1, le e 4 2)

/-- A boot-tree entry: cluster, parent, children. -/
def bootOf (bs : List Byte) : List (Nat × Nat × Nat) := (entriesOf bs 11 4).map fun e => (le e 0 1, le e 1 1, le e 2 1)

def migsOf (bs : List Byte) : List MigEntry :=
  (entriesOf bs 12 16).map fun e => { src := le e 0 4, srcRole := le e 4 2, lane := le e 6 1 == 0, dst := le e 8 4, dstRole := le e 12 2 }

def safesOf (bs : List Byte) : List SafeEntry :=
  (entriesOf bs 13 8).map fun e => { off := le e 0 4, role := le e 4 2, lane := le e 6 1 == 0, count := le e 7 1 }

/-- The code of a section type and role. -/
def codeOf (bs : List Byte) (t role : Nat) : List Byte :=
  match (directoryOf bs).find? fun d => d.type == t && d.role == role with
  | some d => sectionBytes bs d
  | none => []

/-! ## The refusal reasons of R88 -/

/-- A power of two from 8 to 2^30. -/
def alignOk (n : Nat) : Bool := (List.range 31).any fun i => 3 ≤ i && n == 2 ^ i

/-- Reason 1: header and directory fields. -/
def headerBad (bs : List Byte) : Bool :=
  let n := le bs 0x10 4
  let dir := le bs 0x18 8
  le bs 0 4 != 0x4B594C50 || le bs 4 2 != 1 || le bs 6 2 != 0 || le bs 8 8 != bs.length || decide (bs.length < 64) ||
    decide (n < 1 ∨ 1024 < n) || le bs 0x14 4 != 0 || dir % 8 != 0 || decide (bs.length < dir + 32 * n) ||
    (directoryOf bs).any fun d => !d.clear || !alignOk d.align ||
      (if 1 ≤ d.type ∧ d.type ≤ 4 then d.role == 0xFFFF else d.role != 0xFFFF)

/-- Some two of a list stand in a relation. -/
def anyPair {α : Type} (f : α → α → Bool) (l : List α) : Bool :=
  match l with
  | [] => false
  | a :: t => t.any (f a) || anyPair f t

/-- Reason 2: sections overlap or lie outside the image. -/
def sectionsBad (bs : List Byte) : Bool :=
  let ds := directoryOf bs
  (ds.any fun d => decide (bs.length < d.off + d.size)) ||
    anyPair (fun a b => decide (a.off < b.off + b.size ∧ b.off < a.off + a.size)) ds

/-- Reason 3: the counts of the section types (R84). -/
def countsBad (bs : List Byte) : Bool :=
  let ds := directoryOf bs
  let count (t : Nat) : Nat := (ds.filter fun d => d.type == t).length
  let ofRole (t r : Nat) : Nat := (ds.filter fun d => d.type == t && d.role == r).length
  let roles := rolesOf bs
  let roleBad (e : Nat × Nat) : Bool :=
    match e.1 with
    | 0 => decide (1 < ofRole 1 e.2) || ofRole 2 e.2 + ofRole 3 e.2 + ofRole 4 e.2 != 0
    | 1 => ofRole 2 e.2 != 1 || ofRole 3 e.2 != 1 || ofRole 1 e.2 + ofRole 4 e.2 != 0
    | 2 => ofRole 4 e.2 != 1 || ofRole 1 e.2 + ofRole 2 e.2 + ofRole 3 e.2 != 0
    | _ => false
  [6, 7, 10, 11, 15].any (fun t => count t != 1) || [5, 8, 9, 12, 13, 14].any (fun t => decide (1 < count t)) ||
    roles.zipIdx.any roleBad || ds.any fun d => decide (1 ≤ d.type ∧ d.type ≤ 4 ∧ roles.length ≤ d.role)

/-- Reason 4: a table whose size is no multiple of its entry size, lane code of no multiple of 12 bytes. -/
def sizesBad (bs : List Byte) : Bool :=
  (directoryOf bs).any fun d => d.size % entrySize d.type != 0 || (d.type == 3 && d.size % 12 != 0) ||
    (d.type == 15 && d.size != 104)

/-- Reason 5: a refused code or a reserved field that is not 0. -/
def entriesBad (bs : List Byte) : Bool :=
  ((directoryOf bs).any fun d => decide (d.type = 0 ∨ 15 < d.type)) ||
    ((entriesOf bs 6 32).any fun e => decide (2 < le e 24 1) || !zeros e 25 7) ||
    ((entriesOf bs 7 64).any fun e => !zeros e 45 1 || !zeros e 57 7) ||
    ((entriesOf bs 8 8).any fun e => decide (le e 2 1 = 0 ∨ 15 < le e 2 1) || !zeros e 3 1) ||
    ((entriesOf bs 9 72).any fun e => decide (15 < le e 2 1) || !zeros e 3 5) ||
    ((entriesOf bs 10 8).any fun e => decide (127 < le e 0 1 ∨ 127 < le e 1 1) || !zeros e 6 2) ||
    ((entriesOf bs 11 4).any fun e => decide (4 < le e 1 1 ∨ 15 < le e 2 1 ∨ 127 < le e 0 1) || !zeros e 3 1) ||
    ((entriesOf bs 12 16).any fun e => decide (1 < le e 6 1) || !zeros e 7 1 || !zeros e 14 2) ||
    ((entriesOf bs 13 8).any fun e => decide (1 < le e 6 1 ∨ 32 < le e 7 1)) ||
    ((entriesOf bs 14 16).any fun e => decide (le e 2 2 = 0 ∨ 6 < le e 2 2) || !zeros e 10 2) ||
    !zeros (tableBytes bs 15) 4 4

/-- The bytes that the signature covers (R87). -/
def signedBytes (bs : List Byte) : List Byte :=
  match (directoryOf bs).find? fun d => d.type == 15 with
  | some d => bs.take d.off
  | none => bs

/-- Reason 6: the signature is not last, its key slot holds no key, or it does not verify (R87). -/
def signatureBad (s : State) (bs : List Byte) : Bool :=
  match (directoryOf bs).find? fun d => d.type == 15 with
  | none => true
  | some d =>
    let sig := sectionBytes bs d
    let slot := le sig 0 4
    let key := (List.range 96).map fun i => s.config.getD (0xE0 + 96 * slot + i) 0
    d.off + d.size != bs.length || decide (8 ≤ slot) || !(s.config.getD 7 0).getLsbD slot ||
      !ecdsaOk key (sha384 (signedBytes bs)) (sig.drop 8)

/-- A kernel breaks the limits of R80 or R81. -/
def kernelBad (bs : List Byte) (k : Kernel) : Bool :=
  let kind := (rolesOf bs)[k.role]?
  let code := if kind = some 1 then codeOf bs 2 k.role else codeOf bs 1 k.role
  !(kind == some 0 || kind == some 1) || decide (k.entry % 4 ≠ 0 ∨ code.length ≤ k.entry) ||
    decide (k.stages < 1 ∨ 16 < k.stages ∨ 16 < k.waves ∨ 256 < k.strands ∨ 128 < k.regs + k.scr + k.acc) ||
    decide (k.peak < 1 ∨ 256 < k.peak ∨ k.waves + k.strands < 1 ∨ 64 * k.regs < k.waves * k.peak) ||
    [k.gx, k.gy, k.gz].any (fun g => decide (g < 1 ∨ 4096 < g)) || k.slotMask % 2 == 1 || decide (16 < k.shapes)

/-- Reason 7. -/
def kernelsBad (bs : List Byte) : Bool :=
  decide (64 < (rolesOf bs).length ∨ 256 < (kernelsOf bs).length) || (kernelsOf bs).any (kernelBad bs)

/-- Reason 8: two placement entries cover one unit of one kind. -/
def placementBad (bs : List Byte) : Bool :=
  let roles := rolesOf bs
  anyPair (fun a b => roles[a.2.2.2.2]? == roles[b.2.2.2.2]? && decide (a.1 ≤ b.2.1 ∧ b.1 ≤ a.2.1) &&
    decide (a.2.2.1 ≤ b.2.2.2.1 ∧ b.2.2.1 ≤ a.2.2.2.1)) (placementOf bs)

/-- Reason 9: a code section of a role without a placement entry. -/
def unplaced (bs : List Byte) : Bool :=
  (directoryOf bs).any fun d => decide (1 ≤ d.type ∧ d.type ≤ 4) && !(placementOf bs).any fun p => p.2.2.2.2 == d.role

/-- The mesh neighbour of a cluster in a direction 1 to 4: +x, −x, +y, −y (R3, R85). -/
def neighbour (c dir : Nat) : Option Nat :=
  match dir with
  | 1 => if c % 16 < 15 then some (c + 1) else none
  | 2 => if 0 < c % 16 then some (c - 1) else none
  | 3 => if c / 16 < 7 then some (c + 16) else none
  | 4 => if 16 ≤ c then some (c - 16) else none
  | _ => none

def opposite (dir : Nat) : Nat := if dir % 2 = 1 then dir + 1 else dir - 1

/-- Following parents from a cluster reaches a root. -/
def rooted (t : List (Nat × Nat × Nat)) (c fuel : Nat) : Bool :=
  match fuel with
  | 0 => false
  | fuel + 1 =>
    match t.find? fun e => e.1 == c with
    | some (_, 0, _) => true
    | some (_, p, _) =>
      match neighbour c p with
      | some d => rooted t d fuel
      | none => false
    | none => false

/-- Reason 10: the boot tree (R89). -/
def bootBad (bs : List Byte) : Bool :=
  let t := bootOf bs
  let count (c : Nat) : Nat := (t.filter fun e => e.1 == c).length
  let used := (placementOf bs).flatMap fun p => (List.range 128).filter fun c => decide (p.1 ≤ c ∧ c ≤ p.2.1)
  let parentBad (e : Nat × Nat × Nat) : Bool :=
    e.2.1 != 0 && match neighbour e.1 e.2.1 with
      | some d => !t.any fun x => x.1 == d && x.2.2.testBit (opposite e.2.1 - 1)
      | none => true
  let childBad (e : Nat × Nat × Nat) : Bool :=
    [1, 2, 3, 4].any fun dir => e.2.2.testBit (dir - 1) && match neighbour e.1 dir with
      | some d => count d == 0
      | none => true
  used.any (fun c => count c != 1) || t.any parentBad || t.any childBad || t.any fun e => !rooted t e.1 129

/-- The lane instruction at an offset of lane code. -/
def laneAt (code : List Byte) (off : Nat) : Option Instr :=
  if off % 12 = 0 ∧ off + 12 ≤ code.length then some (decodeLane (BitVec.ofNat 96 (le code off 12))) else none

/-- The scalar instruction at an offset of strand or uniform code. -/
def scalarAt (code : List Byte) (off : Nat) : Option Instr :=
  if off % 4 = 0 ∧ off + 4 ≤ code.length then some (decodeScalar (BitVec.ofNat 32 (le code off 4))) else none

def isMigOf (i : Option Instr) : Bool :=
  match i with
  | some (.mig _) => true
  | _ => false

/-- Reason 11: the ends of a migration entry. -/
def migBad (bs : List Byte) (m : MigEntry) : Bool :=
  if m.lane then
    !isMigOf (laneAt (codeOf bs 3 m.srcRole) m.src) || (scalarAt (codeOf bs 1 m.dstRole) m.dst).isNone
  else
    scalarAt (codeOf bs 1 m.srcRole) m.src != some .migW || (laneAt (codeOf bs 3 m.dstRole) m.dst).isNone

/-- Reason 12: migration entries in ascending (source role, source offset) order. -/
def migOrderBad (l : List MigEntry) : Bool :=
  match l with
  | a :: b :: t => !decide (a.srcRole < b.srcRole ∨ a.srcRole = b.srcRole ∧ a.src < b.src) || migOrderBad (b :: t)
  | _ => false

/-- Reason 13: a safe point names a marked lane instruction or a `safe`. -/
def safeBad (bs : List Byte) (e : SafeEntry) : Bool :=
  if e.lane then
    let code := codeOf bs 3 e.role
    (laneAt code e.off).isNone || !((laneFields (BitVec.ofNat 96 (le code e.off 12))).sm)
  else
    scalarAt (codeOf bs 1 e.role) e.off != some .scalarSafe && scalarAt (codeOf bs 2 e.role) e.off != some .scalarSafe

/-- Reason 14: a shape record (R123). -/
def shapeBad (r : List Byte) : Bool :=
  let ndim := le r 0x2D 1
  let kblk := le r 0x34 2
  decide (ndim < 1 ∨ 4 < ndim ∨ ndim ≤ le r 0x2F 1) ||
    (if le r 8 8 = 0 then kblk != 0 else kblk % 32 != 0 || decide (kblk < 32 ∨ 4096 < kblk))

/-- The first reason of R88 that holds, or 0. -/
def State.imageRefusal (s : State) (bs : List Byte) : Nat :=
  if headerBad bs then 1
  else if sectionsBad bs then 2
  else if countsBad bs then 3
  else if sizesBad bs then 4
  else if entriesBad bs then 5
  else if signatureBad s bs then 6
  else if kernelsBad bs then 7
  else if placementBad bs then 8
  else if unplaced bs then 9
  else if bootBad bs then 10
  else if (migsOf bs).any (migBad bs) then 11
  else if migOrderBad (migsOf bs) then 12
  else if (safesOf bs).any (safeBad bs) then 13
  else if (entriesOf bs 9 72).any fun e => shapeBad (e.drop 8) then 14
  else 0

/-! ## Placing and relocating (R86, R430) -/

/-- Region offsets of the sections in directory order, each at the first offset that meets its ALIGN; the end last. -/
def placeSections (off : Nat) (l : List DirEntry) : List Nat :=
  match l with
  | [] => [off]
  | d :: t =>
    let o := (off + d.align - 1) / d.align * d.align
    o :: placeSections (o + d.size) t

/-- The field of a relocation type holding V, given the bytes that stand there (R86). -/
def relocate (type v old : Nat) : Nat × Nat :=
  let w : Word := BitVec.ofNat 32 old
  let x : Word := BitVec.ofNat 32 v
  match type with
  | 1 => (8, v % 2 ^ 64)
  | 2 => (8, old / 2 ^ 48 * 2 ^ 48 + v % 2 ^ 48)
  | 3 => (4, v % 2 ^ 32)
  | 4 => (4, (((x + 0x800).extractLsb' 12 20) ++ w.extractLsb' 0 12).toNat)
  | 5 => (4, (x.extractLsb' 0 12 ++ w.extractLsb' 0 20).toNat)
  | _ => (4, (x.extractLsb' 5 7 ++ w.extractLsb' 12 13 ++ x.extractLsb' 0 5 ++ w.extractLsb' 0 7).toNat)

/-- The relocations applied in table order to the placed sections. -/
def State.relocateAll (s : State) (rpa vbase : Nat) (offs : List Nat) (l : List (List Byte)) : State :=
  match l with
  | [] => s
  | e :: t =>
    let type := le e 2 2
    let pa := rpa + offs.getD (le e 0 2) 0 + le e 4 4
    let addend := (BitVec.ofNat 32 (le e 12 4)).toInt
    let v := (vbase + offs.getD (le e 8 2) 0 + addend) % 2 ^ 64
    let old := natOfBytes (s.peek pa (if type ≤ 2 then 8 else 4))
    let (n, x) := relocate type v.toNat old
    (s.poke pa (leBytes n x)).relocateAll rpa vbase offs t

/-- Every section written at its place. -/
def State.writeSections (s : State) (rpa : Nat) (bs : List Byte) (l : List (DirEntry × Nat)) : State :=
  match l with
  | [] => s
  | (d, o) :: t => (s.poke (rpa + o) (sectionBytes bs d)).writeSections rpa bs t

/-- The image as placed. -/
def imageOf (bs : List Byte) (rpa vbase : Nat) (offs : List Nat) : Image :=
  let ds := (directoryOf bs).zip offs
  let code (t : Nat) : List Section := (ds.filter fun d => d.1.type == t).map fun d =>
    { role := d.1.role, va := vbase + d.2, pa := rpa + d.2, size := d.1.size }
  let start (t : Nat) : Nat := ((ds.find? fun d => d.1.type == t).map (·.2)).getD 0
  { roles := rolesOf bs
    kernels := kernelsOf bs
    strandCode := code 1
    uniformCode := code 2
    laneCode := code 3
    engineCode := code 4
    dataVa := vbase + start 5
    bindings := (entriesOf bs 8 8).map fun e => (le e 0 2, le e 2 1, le e 4 4)
    shapes := (entriesOf bs 9 72).zipIdx.map fun e => (le e.1 0 2, le e.1 2 1, rpa + start 9 + 72 * e.2 + 8)
    placement := placementOf bs
    boot := bootOf bs
    migs := migsOf bs
    safes := safesOf bs
    digest := sha384 bs
    loaded := true }

/-! ## Load requests (R430) -/

/-- The request ends: BUSY clear, RESULT and IMAGE written. -/
def State.endLoad (s : State) (result image : Nat) : State :=
  { s with
    ldBusy := false
    ldResult := result
    ldImage := image }

/-- The fields that the request's operation does not use, and its own, are as R430 asks. -/
def requestBad (r : List Byte) : Bool := decide (1 < le r 0 1) || !zeros r 1 1 || !zeros r 4 4 || !zeros r 0x28 24 || le r 0x10 8 % 4096 != 0

/-- The lowest free image number. -/
def State.freeImage (s : State) : Nat :=
  ((List.range 65535).find? fun i => (s.images.find (i + 1)).isNone || ((s.images.find (i + 1)).map (·.loaded)) == some false).getD 0 + 1

/-- A load (R430): the image verified, placed, relocated and given a number, or refused with its reason. -/
def State.loadImage (s : State) (r : List Byte) : State :=
  let img := le r 8 8
  let bs := s.peek img (max 64 (if le (s.peek img 64) 0 4 = 0x4B594C50 then le (s.peek img 64) 8 8 else 0))
  let reason := s.imageRefusal bs
  if reason ≠ 0 then s.endLoad reason s.ldImage else
  let ds := directoryOf bs
  let offs := placeSections 0 ds
  let size := offs.getD ds.length 0
  if le r 0x18 8 < size then s.endLoad 15 s.ldImage else
  let rpa := le r 0x10 8
  let vbase := le r 0x20 8
  let n := s.freeImage
  let s := s.homeRange rpa size
  let s := (s.writeSections rpa bs (ds.zip offs)).relocateAll rpa vbase offs (entriesOf bs 14 16)
  { s with images := s.images.put n (imageOf bs rpa vbase offs) }.endLoad 0 n

/-- The request that LDREQ named. -/
def State.loadRequest (s : State) : List Byte := s.peek s.ldReq.toNat 64

/-- In the management-only state every load fails (R432), with a RESULT that the spec leaves open. -/
def State.failLoad (s : State) : State :=
  let (k, s) := s.drawNat 16
  s.endLoad (k + 1) s.ldImage

/-- IMAGE_LOAD: the load request under way is a load. -/
def execImageLoad (s : State) : Host.Outcome State Fault Refusal :=
  event (fun s =>
    let r := s.loadRequest
    if !s.ldBusy || le r 0 1 == 1 then s
    else if s.up == some false then s.failLoad
    else if requestBad r then s.endLoad 16 s.ldImage
    else s.loadImage r) s

/-- IMAGE_UNLOAD: the load request under way is an unload; launches under way run on. -/
def execImageUnload (s : State) : Host.Outcome State Fault Refusal :=
  event (fun s =>
    let r := s.loadRequest
    let n := le r 2 2
    if !s.ldBusy || le r 0 1 != 1 then s
    else if s.up == some false then s.failLoad
    else match s.images.find n with
      | some img =>
        if requestBad r || !img.loaded then s.endLoad 16 s.ldImage
        else { s with images := s.images.put n { img with loaded := false } }.endLoad 0 s.ldImage
      | none => s.endLoad 16 s.ldImage) s

/-! ## Bring-up (R431, R432) -/

/-- `n` bytes of the package flash. -/
def State.flashBytes (s : State) (off n : Nat) : List Byte := (List.range n).map fun i => s.flash.getD (off + i) 0

/-- The configuration record is in order and verifies against the root key, whose digest the fuses hold (R431). -/
def configOk (rootDigest rec' : List Byte) : Bool :=
  let root := (rec'.drop 0x80).take 96
  le rec' 0 4 == 0x34434643 && le rec' 4 2 == 1 && decide (le rec' 6 1 ≤ 254) &&
    decide (2000 ≤ le rec' 0x14 2 ∧ le rec' 0x14 2 ≤ 8000) && zeros rec' 0x16 2 && zeros rec' 0x70 16 && sha384 root == rootDigest &&
    ecdsaOk root (sha384 (rec'.take 0x3E0)) (rec'.drop 0x3E0)

/-- DRAM zero (R432 step 2). -/
def State.wipeDram (s : State) : State :=
  { s with
    mem := Memory.clear s.mem 0 devBase
    poison := s.poison.filter fun w => decide (devBase ≤ 8 * w) }

/-- Steps 2 to 5: the record applied, the boot blob copied and checked, BOOTCTX started in S at ENTRY. -/
def State.applyConfig (s : State) (rec' : List Byte) : State :=
  let links : Vector Byte 8 := Vector.ofFn fun i => (rec'.drop (8 + i.val)).headD 0xFF
  let s := s.wipeDram
  let s : State := { s with
    pkg := le rec' 6 1
    links := links
    linkUp := BitVec.ofBoolListLE ((List.range 8).map fun i => links[i]! != 0xFF)
    plimit := le rec' 0x14 2
    config := ((List.range rec'.length).filter fun i => rec'.getD i 0 != 0).map fun i => (i, rec'.getD i 0) }
  let blob := s.flashBytes (le rec' 0x18 8) (le rec' 0x20 8)
  let s := s.poke (le rec' 0x28 8) blob
  if sha384 blob != (rec'.drop 0x40).take 48 then { s with
    up := some false
    pkg := 0xFF }
  else
    let k := le rec' 0x10 4 % 65536
    let h := s.hart (.strand k)
    let s := s.setHart (.strand k) { h with
      dptb := BitVec.ofNat 64 (le rec' 0x30 8 / 4096)
      priv := .s
      pc := BitVec.ofNat 64 (le rec' 0x38 8)
      run := .running }
    { s with up := some true }

/-- BRING_UP: verification, training, the boot blob and the bring-up context; a failure leaves the package in the
management-only state. Whether firmware and training succeed is the part's own. -/
def execBringUp (s : State) : Host.Outcome State Fault Refusal :=
  event (fun s =>
    if s.up.isSome then s else
    let rec' := s.flashBytes 0 0x440
    let (k, s) := s.drawNat 2
    if k = 0 || !configOk s.rootDigest rec' then { s with up := some false } else s.applyConfig rec') s

/-! ## Attestation (R433) -/

/-- What the management core signs: the nonce, the digests of firmware, configuration record and boot blob, and of each
loaded image by number. -/
def State.attested' (s : State) (nonce : List Byte) : List Byte :=
  let rec' := s.flashBytes 0 0x440
  nonce ++ Config.firmwareDigest ++ sha384 rec' ++ sha384 (s.flashBytes (le rec' 0x18 8) (le rec' 0x20 8)) ++
    (s.images.filter fun e => e.2.loaded).flatMap fun e => leBytes 2 e.1 ++ e.2.digest

/-- ATTESTATION: a 48-byte nonce is answered with signed digests. -/
def execAttestation (nonce : List Byte) (s : State) : Host.Outcome State Fault Refusal :=
  event (fun s =>
    if nonce.length ≠ 48 then s else
    let body := s.attested' nonce
    { s with attested := (body ++ Config.attestSignature body) :: s.attested }) s

end Sys2Proof.Machine
end

