-- ==== Sys2Proof/Machine/Matrix.lean ====
section
/-! DEFINITION. The matrix engine (R331 to R350): accumulator rows and rings of a wave, MLD, the rendezvous latch of MMA.G,
the commands' arithmetic (R60, R61, R344), the kill of a crew by an operand fault. -/

namespace Sys2Proof.Machine

/-! ## Accumulators (R190, R191, R333) -/

/-- Rows of a wave: none unless the front end started it. -/
def State.waveRows (s : State) (k : Nat) : Nat :=
  let w := s.wave k
  match w.hart.crew.bind s.crewOf with
  | some c => if w.front then c.accRows (s.kernelOf c).waves else 0
  | none => 0

/-- Key of lane `l` of row `row` of wave `k`. -/
def State.rowKey (s : State) (k row l : Nat) : Nat :=
  let w := s.wave k
  match w.hart.crew.bind s.crewOf with
  | some c => c.accKey (k / 128) (s.waveRows k) w.rank row l
  | none => 0

def rowOf (c : LCtx) (field : BitVec 8) : Nat := c.w.khi.toNat * 256 + field.toNat

/-- BOUNDS for a row of the wave's partition, whatever the guard. -/
def rowCheck (c : LCtx) (row : Nat) : M Unit := do
  if (← get).waveRows c.k ≤ row then failLane 6 row 0 c.g.mask

def writeEach (cluster : Nat) (ks : List (Nat × Word)) : M Unit :=
  match ks with
  | [] => pure ()
  | (k, v) :: t => do
    writeAcc cluster k v
    writeEach cluster t

/-- Accumulator elements written by one instruction; a poisoned word of which it writes both becomes clean (R413). -/
def writeAccs (cluster : Nat) (ks : List (Nat × Word)) : M Unit := do
  writeEach cluster ks
  modify fun s =>
    let whole (w : Nat) : Bool := (ks.any fun e => e.1 == 8 * w) && ks.any fun e => e.1 == 8 * w + 4
    { s with poison := s.poison.filter fun w => !whole w }

/-- KRD: a row of the accumulators to VD (R191); a poisoned word gives POISON with DETAIL 3 (R413). -/
def execKrd (w : LaneWord) (s : State) : Host.Outcome State Fault Refusal :=
  laneInstr (.krd w) w (fun _ => pure ()) (fun c => do
    let row := rowOf c w.va
    rowCheck c row
    peakCheck c [w.vd.toNat]
    let s ← get
    let ls := lanesOf c.act
    let bad := ls.filter fun l => s.poisoned (s.rowKey c.k row l) 4
    if !bad.isEmpty then failLane 22 3 0 (maskOf bad.contains)
    let vs ← forLanes ls fun l => do return (l, ← readAcc (c.k / 128) (s.rowKey c.k row l))
    modWave c.k fun st => st.writeReg w.vd.toNat c.act fun l => ((vs.find? fun v => v.1 == l).map (·.2)).getD 0
    completed c none) s

/-- KWR: VA to a row of the accumulators (R191). -/
def execKwr (w : LaneWord) (s : State) : Host.Outcome State Fault Refusal :=
  laneInstr (.kwr w) w (fun _ => pure ()) (fun c => do
    let row := rowOf c w.vd
    rowCheck c row
    let s ← get
    let st := s.wave c.k
    writeAccs (c.k / 128) ((lanesOf c.act).map fun l => (s.rowKey c.k row l, st.reg w.va.toNat l))
    completed c none) s

/-- ACC.ZERO: rows of +0 (R346). -/
def execAccZero (w : LaneWord) (s : State) : Host.Outcome State Fault Refusal :=
  laneInstr (.accZero w) w (fun _ => pure ()) (fun c => do
    let row := rowOf c w.vd
    let n := w.vc.toNat + 1
    let ar := (← get).waveRows c.k
    if ar < row + n then failLane 6 (max row ar) 0 c.g.mask
    let s ← get
    if c.act ≠ 0 then
      writeAccs (c.k / 128) ((List.range n).flatMap fun i => (List.range 64).map fun l => (s.rowKey c.k (row + i) l, 0))
    completed c none) s

/-! ## Rings (R347, R348) -/

/-- The crew of a wave, with its configuration. -/
def State.waveMat (s : State) (k : Nat) : Option (CrewRef × Crew × MatCrew) :=
  (s.wave k).hart.crew.bind fun r => (s.crewOf r).map fun c => (r, c, s.matCrew r.cluster r.slot)

def MatCrew.ring (m : MatCrew) (i : Nat) : Ring := m.rings[i]?.getD {}

def State.setRing (s : State) (r : CrewRef) (i : Nat) (x : Ring) : State :=
  let m := s.matCrew r.cluster r.slot
  s.setMatCrew r.cluster r.slot { m with rings := m.rings.set! i x }

/-- RING.ADV: one more stage is filled, as a release at crew scope. -/
def execRingAdv (w : LaneWord) (s : State) : Host.Outcome State Fault Refusal :=
  laneInstr (.ringAdv w) w (fun _ => pure ()) (fun c => do
    match (← get).waveMat c.k with
    | none => failLane 2 8 0 c.g.mask
    | some (r, _, m) => do
      let x := m.ring w.vc.toNat
      if !x.v || x.used == x.stages then failLane 2 8 0 c.g.mask
      if c.act ≠ 0 then do
        drainM c.k
        modify fun s => (s.releaseUnit (.wave c.k) 1).setRing r w.vc.toNat { x with filled := (x.filled + 1) % 65536 }
      completed c none) s

/-- RING.WAIT: held until enough stages are free; VD gets the stage to fill next. -/
def execRingWait (w : LaneWord) (s : State) : Host.Outcome State Fault Refusal :=
  laneInstr (.ringWait w) w (fun _ => pure ()) (fun c => do
    let i := w.vc.toNat % 4
    let n := w.vc.toNat / 4
    match (← get).waveMat c.k with
    | none => failLane 2 8 0 c.g.mask
    | some (_, _, m) => do
      let x := m.ring i
      if !x.v || decide (x.stages < n) then failLane 2 8 0 c.g.mask
      peakCheck c [w.vd.toNat]
      if x.stages - x.used < n then throw .stall
      modWave c.k fun st => st.writeReg w.vd.toNat c.act fun _ => BitVec.ofNat 32 (x.filled % x.stages)
      completed c none) s

/-! ## The queue (R339) -/

/-- The lowest entry that a command of a class may take. -/
def Matrix.freeEntry (m : Matrix) (cls : Nat) : Option Nat :=
  (List.range 8).find? fun e => (e != 7 || cls == 0) && !m.cmds.any fun x => x.entry == e

/-- A command enters the queue. -/
def State.queueCmd (s : State) (cluster entry : Nat) (r : CrewRef) (cls : Nat) (macs : List Nat) (op : MatOp) : State :=
  s.modMatrix cluster fun m => { m with
    next := m.next + 1
    cmds := m.cmds ++ [{
      n := m.next
      entry := entry
      crew := r
      cls := cls
      macs := macs
      op := op }] }

def MatOp.isMld (o : MatOp) : Bool := match o with
  | .mld _ _ _ _ => true
  | .mma _ _ => false

namespace Mma

def rows (f : Word) : Nat := (f.extractLsb' 25 7).toNat + 1
def ring (f : Word) : Nat := (f.extractLsb' 23 2).toNat
def mb (f : Word) : Nat := (f.extractLsb' 18 5).toNat
def ng (f : Word) : Nat := (f.extractLsb' 13 5).toNat + 1
def kc (f : Word) : Nat := (f.extractLsb' 8 5).toNat + 1
def keep (f : Word) : Bool := f.getLsbD 7
def swap (f : Word) : Bool := f.getLsbD 6
def nsa (f : Word) : Bool := f.getLsbD 4
def bf (f : Word) : Nat := (f.extractLsb' 2 2).toNat
def af (f : Word) : Nat := (f.extractLsb' 0 2).toNat
/-- K, the contraction length. -/
def k (f : Word) : Nat := 128 * kc f
/-- Macros per N-group and K-slice. -/
def pw (f : Word) : Nat := if bf f = 2 then 2 else 1
def nwg (f : Word) : Nat := if bf f = 0 then 256 else 128
def nw (f : Word) : Nat := ng f * nwg f
/-- Bytes of a stage row (R344). -/
def rb (f : Word) : Nat := match af f with
  | 0 => k f / 2
  | 1 => k f
  | _ => 2 * k f
/-- Offset of the A scale words in a stage. -/
def scales (f : Word) : Nat := (rows f * rb f + 3) / 4 * 4
/-- Bytes of a stage for blocks of `kb`. -/
def stageSize (f : Word) (kb : Nat) : Nat := if nsa f then rows f * rb f else scales f + 4 * rows f * (k f / kb)
/-- Macros that the command names, in the crew's window. -/
def macros (f : Word) : List Nat := (List.range (pw f * kc f * ng f)).map (mb f + ·)
/-- Rows of gang member `g` of `n`. -/
def memberRows (f : Word) (g n : Nat) : Nat := (rows f - g + n - 1) / n * (nw f / 64)

end Mma

/-- The command is an MMA.G with SWAP. -/
def MatCmd.swaps (x : MatCmd) : Bool := match x.op with
  | .mma f _ => Mma.swap f
  | .mld _ _ _ _ => false

def MatCmd.meets (x y : MatCmd) : Bool := x.macs.any y.macs.contains

/-- A queued MLD may start (R339), the precedence of class 0 apart. -/
def Matrix.mldFree (m : Matrix) (x : MatCmd) : Bool :=
  x.op.isMld && !x.started && !m.cmds.any fun y => decide (y.n < x.n) && y.meets x && (y.op.isMld || (y.swaps && !y.started))

/-! ## MLD (R340) -/

/-- Form code of MLD's TYPE; bytes of a column; columns of the tile. -/
def mldForm (ty : BitVec 4) : Nat := if ty = 15 then 0 else if ty = 1 then 1 else 2
def formCb (form : Nat) : Nat := match form with
  | 0 => 64
  | 1 => 128
  | _ => 256
def formCols (form : Nat) : Nat := if form = 0 then 256 else 128

def mldM (c : LCtx) : M Unit := do
  let s ← get
  let w := s.wave c.k
  match s.waveMat c.k with
  | none => failLane 12 1 0 c.g.mask
  | some (r, crew, m) => do
    if !m.gang.getLsbD 63 || !w.front || !(Gang.ranks m.gang).contains w.rank then failLane 12 1 0 c.g.mask
    let form := mldForm c.w.ty
    let mac := c.w.vc.toNat % 32
    let mcnt := Gang.mcnt m.gang
    if decide (mcnt ≤ mac) || (form == 2 && (mac % 2 == 1 || decide (mcnt ≤ mac + 1))) then failLane 2 8 0 c.g.mask
    let src := w.uni c.w.vb.toNat
    if src.toNat % 256 ≠ 0 then failLane 4 (lowLane c.g.mask) src c.g.mask
    if c.act = 0 then completed c none
    else do
      drainM c.k
      match (s.cluster r.cluster).matrix.freeEntry crew.cls with
      | none => throw .stall
      | some e => do
        let mb := Gang.mbase m.gang
        let macs := if form = 2 then [mb + mac, mb + mac + 1] else [mb + mac]
        let n := (s.cluster r.cluster).matrix.next
        modify fun s => (s.releaseUnit (.wave c.k) 1).queueCmd r.cluster e r crew.cls macs
          (.mld form src (c.w.vc.getLsbD 5) w.hart.dptb)
        completedBy c { cmd := some n }

/-- MLD does not issue before it can enter the queue (R245, R339). -/
def mldReady (c : LCtx) : M Unit := do
  let s ← get
  match s.waveMat c.k with
  | some (r, crew, _) =>
    if c.act ≠ 0 ∧ ((s.cluster r.cluster).matrix.freeEntry crew.cls).isNone then throw .stall
  | none => pure ()

def execMld (w : LaneWord) (s : State) : Host.Outcome State Fault Refusal := laneInstr (.mld w) w mldReady mldM s

def State.setCmd (s : State) (cluster n : Nat) (f : MatCmd → MatCmd) : State :=
  s.modMatrix cluster fun m => { m with cmds := m.cmds.map fun x => if x.n = n then f x else x }

def State.cmd (s : State) (cluster n : Nat) : Option MatCmd := (s.cluster cluster).matrix.cmds.find? fun x => x.n == n

/-- MLD_START: the command starts once its macros' earlier commands allow; class 0 goes first (R339). -/
def execMldStart (cluster n : Nat) (s : State) : Host.Outcome State Fault Refusal :=
  event (fun s =>
    let m := (s.cluster cluster).matrix
    match s.cmd cluster n with
    | some x =>
      if m.mldFree x && (x.cls == 0 || !m.cmds.any fun y => y.cls == 0 && m.mldFree y) then
        s.setCmd cluster n fun x => { x with started := true }
      else s
    | none => s) s

/-- The accessor of the engine's operand fetches for a crew. -/
def matAcc (r : CrewRef) (dptb : Dword) : Acc :=
  { cluster := r.cluster, tlb := .engine (r.cluster * 7 + 4), who := .other, dptb := dptb, priv := .u, crew := some r, bound := true }

/-- Bytes read line by line. -/
def readTile (acc : Acc) (va n fuel : Nat) : M (List Byte) :=
  match fuel with
  | 0 => pure []
  | fuel + 1 =>
    if n = 0 then pure [] else do
      let len := min n 256
      let bs ← vread acc ((BitVec.ofNat 48 va).signExtend 64) len
      let rest ← readTile acc (va + len) (n - len) fuel
      pure (bs ++ rest)

/-- Anomalies among the quads of some bytes (R332). -/
def anomalies (bs : List Byte) : Nat :=
  match bs with
  | a :: b :: t => (decodeQuad (a.toNat + 256 * b.toNat)).anomalies + anomalies t
  | _ => 0

def State.addAnom (s : State) (r : CrewRef) (n : Nat) : State :=
  let m := s.matCrew r.cluster r.slot
  if n = 0 then s else s.setMatCrew r.cluster r.slot { m with anom := min 65535 (m.anom + n) }

def Matrix.activeBank (m : Matrix) (mac : Nat) : Nat := if m.active.getLsbD mac then 1 else 0
def Matrix.idleBank (m : Matrix) (mac : Nat) : Nat := 1 - m.activeBank mac

/-- The macros' idle banks hold a tile of the form, loaded by command `n`. -/
def Matrix.loaded (m : Matrix) (form n : Nat) (macs : List Nat) : Matrix :=
  let put (m : Matrix) (mac f : Nat) : Matrix := { m with banks := m.banks.put (mac * 2 + m.idleBank mac) { form := f, load := n } }
  match macs with
  | [a, b] => put (put m a 3) b 4
  | [a] => put m a (form + 1)
  | _ => m

/-- The command is complete: its entry is free, and its signal can land. -/
def State.endCmd (s : State) (cluster n : Nat) : State :=
  s.modMatrix cluster fun m => { m with cmds := m.cmds.filter fun x => x.n != n }

/-- MLD_COMPLETE: the tile and its scale words are in the idle bank. A fault of the read is noted for MATRIX_KILLED. -/
def mldComplete (cluster : Nat) (x : MatCmd) (form : Nat) (src : Dword) (ns : Bool) (dptb : Dword) (s : State) : State :=
  let cols := formCols form
  let size := cols * formCb form
  let acc := matAcc x.crew dptb
  let read : M (List Byte × List Byte) := do
    let bs ← readTile acc src.toNat size 200
    let ws ← if ns then pure [] else readTile acc (src.toNat + size) (16 * cols) 200
    pure (bs, ws)
  match read s with
  | .ok (bs, ws) s =>
    let ws := if ns then (List.range (4 * cols)).flatMap fun _ => leBytes 4 0x7F7F else ws
    let m := (s.cluster cluster).matrix
    let mac := x.macs.headD 0
    let s := (s.poke (bankKey cluster mac (m.idleBank mac) 0) bs).poke (bankKey cluster mac (m.idleBank mac) 0x8000) ws
    let s := s.modMatrix cluster fun m => m.loaded form x.n x.macs
    let s := if form = 0 then s.addAnom x.crew (anomalies bs) else s
    s.endCmd cluster x.n
  | .error (.exc e) s => s.setCmd cluster x.n fun x => { x with fault := some (e.code, e.tval) }
  | .error _ s => s

def execMldComplete (cluster n : Nat) (s : State) : Host.Outcome State Fault Refusal :=
  event (fun s =>
    match s.cmd cluster n with
    | some x =>
      match x.op with
      | .mld form src ns dptb => if x.started && x.fault.isNone then mldComplete cluster x form src ns dptb s else s
      | .mma _ _ => s
    | none => s) s

/-! ## MMA.G at the latch (R343) -/

/-- The arrival of this group's MMA.G, if it has arrived. -/
def MatCrew.arrivalOf (m : MatCrew) (k lane pc : Nat) : Bool := m.arrivals.any fun a => a.wave == k && a.lane == lane && a.pc == pc

def MatCrew.verdictOf (m : MatCrew) (k lane pc : Nat) : Option MmaVerdict :=
  m.verdicts.find? fun a => a.wave == k && a.lane == lane && a.pc == pc

/-- MMA.G arrives, waits at the latch, and ends as the latch decided. -/
def mmaM (c : LCtx) : M Unit := do
  let s ← get
  let w := s.wave c.k
  match s.waveMat c.k with
  | none => failLane 12 1 0 c.g.mask
  | some (r, _, m) => do
    let lane := lowLane c.g.mask
    match m.verdictOf c.k lane c.g.pc with
    | some v => do
      let clear : M Unit := modify fun s =>
        let m := s.matCrew r.cluster r.slot
        s.setMatCrew r.cluster r.slot { m with verdicts := m.verdicts.filter (· != v) }
      match v.refused with
      | none => do
        clear
        completedBy c { cmd := v.cmd }
      | some (code, detail) => do
        if w.canTrap || w.hart.tn then clear
        failLane code detail 0 c.g.mask
    | none => do
      if m.arrivalOf c.k lane c.g.pc then throw .stall
      if !m.gang.getLsbD 63 || !w.front || !(Gang.ranks m.gang).contains w.rank then failLane 12 1 0 c.g.mask
      let a : MmaArrival := {
        wave := c.k
        rank := w.rank
        lane := lane
        pc := c.g.pc
        act := c.act
        vals := (lanesOf c.act).map fun l => (l, w.reg c.w.va.toNat l, w.reg c.w.vb.toNat l) }
      modify fun s => s.setMatCrew r.cluster r.slot { m with arrivals := m.arrivals ++ [a] }
      throw .stall

def execMmaG (w : LaneWord) (s : State) : Host.Outcome State Fault Refusal :=
  laneInstr (.mmaG w) w (fun _ => pure ()) mmaM s

/-- The head arrival of each gang member, in gang order: command j of R343. -/
def MatCrew.heads (m : MatCrew) : List (Option MmaArrival) :=
  (Gang.ranks m.gang).map fun r => m.arrivals.find? fun a => a.rank == r

/-- The listed wave has ended: the front end started it and its slot no longer holds it. -/
def State.gangEnded (s : State) (r : CrewRef) (c : Crew) (rank : Nat) : Bool :=
  let k := r.cluster * 128 + c.engine * 16 + c.waveSlots.getD rank 0
  let w := s.wave k
  decide (rank < (s.kernelOf c).waves - c.toStart) && !(w.live && w.front && w.rank == rank && w.hart.crew == some r)

/-- The first lane of some values whose word differs from `v`. -/
def firstDiff (vs : List (Nat × Word)) (v : Word) : Option Nat := (vs.find? fun e => e.2 != v).map (·.1)

/-- The place word of an arrival's first active lane. -/
def MmaArrival.place (a : MmaArrival) : Word :=
  match a.vals with
  | (_, _, v) :: _ => v
  | [] => 0

/-- The format word of the first member's first active lane. -/
def gangFormat (as' : List MmaArrival) : Word :=
  match as' with
  | { vals := (_, v, _) :: _, .. } :: _ => v
  | _ => 0

/-- The latch checks of R343: the cause and DETAIL of the first that fails. -/
def latchCheck (m : MatCrew) (rows : Nat) (as' : List MmaArrival) : Option (Nat × Nat) :=
  if as'.any (fun a => a.act == 0) then (if as'.all (fun a => a.act == 0) then none else some (12, 2))
  else
    let fmt := gangFormat as'
    let vaBad := as'.findSome? fun a => (firstDiff (a.vals.map fun e => (e.1, e.2.1)) fmt).map fun l => a.rank * 256 + l
    let vbBad := as'.findSome? fun a =>
      (firstDiff (a.vals.map fun e => (e.1, e.2.2)) a.place).map fun l => a.rank * 256 + l
    let ring := m.ring (Mma.ring fmt)
    let n := as'.length
    let crossed := ((List.range n).zip as').find? fun e =>
      decide (0 < Mma.memberRows fmt e.1 n ∧ rows < e.2.place.toNat + Mma.memberRows fmt e.1 n)
    match vaBad, vbBad with
    | some d, _ => some (11, d)
    | none, some d => some (11, d)
    | none, none =>
      if Mma.af fmt == 3 || Mma.bf fmt == 3 || fmt.getLsbD 5 || as'.any (fun a => decide (1024 ≤ a.place.toNat)) ||
          decide (Gang.mcnt m.gang < Mma.mb fmt + Mma.pw fmt * Mma.kc fmt * Mma.ng fmt) ||
          (Mma.pw fmt == 2 && Mma.mb fmt % 2 == 1) || !ring.v || Mma.k fmt % ring.kb != 0 ||
          decide (ring.size < Mma.stageSize fmt ring.kb) then some (2, 8)
      else
        match crossed with
        | some (_, a) => some (6, a.rank * 1024 + max a.place.toNat rows)
        | none => none

/-- Some arrivals leave the latch with a verdict. -/
def State.settleMma (s : State) (r : CrewRef) (as' : List MmaArrival) (refused : Option (Nat × Nat)) (cmd : Option Nat) : State :=
  let m := s.matCrew r.cluster r.slot
  s.setMatCrew r.cluster r.slot { m with
    arrivals := m.arrivals.filter fun a => !as'.contains a
    verdicts := m.verdicts ++ as'.map fun a => {
      wave := a.wave
      lane := a.lane
      pc := a.pc
      refused := refused
      cmd := cmd } }

/-- Every wave's accesses are performed and its quantum updates released: the release of acceptance. -/
def State.releaseWaves (s : State) (ks : List Nat) : State :=
  match ks with
  | [] => s
  | k :: t => (s.releaseUnit (.wave k) 1).releaseWaves t

/-- The latch of a crew: it refuses the waiting members when a listed wave has ended, and decides a command that every
member has reached, once their accesses are performed and an entry is free. -/
def State.latch (s : State) (r : CrewRef) (c : Crew) : State :=
  let m := s.matCrew r.cluster r.slot
  let heads := m.heads
  let as' := heads.filterMap id
  if as'.isEmpty then s
  else if as'.length < heads.length then
    if (Gang.ranks m.gang).any fun rank => s.gangEnded r c rank then s.settleMma r as' (some (12, 3)) none else s
  else if !as'.all fun a => (s.wave a.wave).accesses.isEmpty then s
  else
    match latchCheck m (c.accRows (s.kernelOf c).waves) as' with
    | some e => s.settleMma r as' (some e) none
    | none =>
      if as'.all fun a => a.act == 0 then s.settleMma r as' none none
      else
        match (s.cluster r.cluster).matrix.freeEntry c.cls with
        | none => s
        | some entry =>
          let n := (s.cluster r.cluster).matrix.next
          let fmt := gangFormat as'
          let members := as'.map fun a => (a.rank, a.place.toNat)
          let s := s.releaseWaves (as'.map (·.wave))
          let s := s.queueCmd r.cluster entry r c.cls ((Mma.macros fmt).map (Gang.mbase m.gang + ·)) (.mma fmt members)
          s.settleMma r as' none (some n)

def execMmaLatch (crew : Nat) (s : State) : Host.Outcome State Fault Refusal :=
  event (fun s =>
    match s.crewAt crew with
    | some (r, c) => s.latch r c
    | none => s) s

/-! ## Arithmetic of a command (R60, R61, R344) -/

/-- An element of a row or a column: its integer part, and the byte of an outlier (R50). -/
structure MatEl where
  int : Int
  out : Option Nat := none
deriving DecidableEq, Repr

/-- Elements of packed bytes in a form (R331). -/
def quadEls (bs : List Byte) : List MatEl :=
  match bs with
  | a :: b :: t =>
    let q := decodeQuad (a.toNat + 256 * b.toNat)
    ((List.range 4).map fun k => {
      int := q.e.getD k 0
      out := q.out.bind fun o => if o.1 = k then some o.2 else none }) ++ quadEls t
  | _ => []

def wideEls (bs : List Byte) : List MatEl :=
  match bs with
  | a :: b :: t => { int := (BitVec.ofNat 12 (a.toNat + 256 * b.toNat)).toInt } :: wideEls t
  | _ => []

def formEls (form : Nat) (bs : List Byte) : List MatEl :=
  match form with
  | 0 => quadEls bs
  | 1 => bs.map fun b => { int := b.toInt }
  | _ => wideEls bs

/-- The value of an element under a scale word with E from 1 to 254. -/
def MatEl.val (x : MatEl) (scale : Nat) : FVal :=
  match x.out with
  | some byte =>
    match unpack .e4m3 byte with
    | .fin n m e => .fin n m (e + (soOf scale).e)
    | v => v
  | none => (({ m := x.int, e := 0 } : Dyad).mul (siOf scale)).val

/-- Nearest-even, as every rounding of a command. -/
def rne : Rnd := { mode := 0 }

/-- The term blk of a block and the flags of its roundings; none for a block that contributes nothing (R61). -/
def blockTerm (as' bs : List MatEl) (sa sb : Nat) : Option (Word × Nat) :=
  if scaleE sa = 0 ∨ scaleE sb = 0 then none
  else if scaleE sa = 255 ∨ scaleE sb = 255 then some (BitVec.ofNat 32 FFmt.f32.nan, 0)
  else
    let ps := as'.zip bs
    let sum : Int := (ps.map fun p => p.1.int * p.2.int).sum
    let o := ps.foldl (fun (acc : FRes) p =>
      if p.1.out.isNone && p.2.out.isNone then acc
      else
        let r := ffma .f32 rne false (p.1.val sa) (p.2.val sb) (unpack .f32 acc.bits)
        { r with flags := r.flags ||| acc.flags }) { bits := 0 }
    let m := sum.natAbs * (256 + scaleM sa) * (256 + scaleM sb)
    let t := roundTo .f32 rne false (sum < 0) m ((scaleE sa : Int) + scaleE sb - 270) false
    let b := fadd .f32 rne false (unpack .f32 t.bits) (unpack .f32 o.bits)
    some (BitVec.ofNat 32 b.bits, t.flags ||| o.flags ||| b.flags)

/-- Bytes of the crew's pool scratch from offset `off`. -/
def stageBytes (s : State) (c : Crew) (cluster off n : Nat) : List Byte :=
  (List.range n).map fun i =>
    match c.scratchKey cluster (off + i) with
    | some k => Memory.get s.mem k
    | none => 0

/-- The first poisoned byte of the pool scratch in a range, as an offset. -/
def stagePoison (s : State) (c : Crew) (cluster off n : Nat) : Option Nat :=
  ((List.range n).map (off + ·)).find? fun b =>
    match c.scratchKey cluster b with
    | some k => s.poison.contains (k / 8)
    | none => false

/-- The tile of N-group `g` and K-slice `kc` was loaded in the form that BF names (R341); an empty bank holds zeros. -/
def bankMatches (m : Matrix) (bf mac : Nat) : Bool :=
  let at' (i : Nat) : Option MacroBank := m.banks.find (i * 2 + m.activeBank i)
  if bf = 2 then
    match at' mac, at' (mac + 1) with
    | none, none => true
    | some a, some b => a.form == 3 && b.form == 4 && a.load == b.load
    | _, _ => false
  else
    match at' mac with
    | none => true
    | some a => a.form == bf + 1

/-- The elements of a column of B over K, slice by slice. -/
def columnEls (s : State) (cluster : Nat) (m : Matrix) (fmt : Word) (mbase n : Nat) : List MatEl :=
  let g := n / Mma.nwg fmt
  let col := n % Mma.nwg fmt
  let cb := formCb (Mma.bf fmt)
  (List.range (Mma.kc fmt)).flatMap fun kc =>
    let mac := mbase + Mma.mb fmt + Mma.pw fmt * (g * Mma.kc fmt + kc)
    formEls (Mma.bf fmt) (s.peek (bankKey cluster mac (m.activeBank mac) (col * cb)) cb)

/-- The B scale word of the block that begins at K position `k0` in column `n`. -/
def columnScale (s : State) (cluster : Nat) (m : Matrix) (fmt : Word) (mbase n k0 : Nat) : Nat :=
  let g := n / Mma.nwg fmt
  let col := n % Mma.nwg fmt
  let mac := mbase + Mma.mb fmt + Mma.pw fmt * (g * Mma.kc fmt + k0 / 128)
  natOfBytes (s.peek (bankKey cluster mac (m.activeBank mac) (0x8000 + 4 * (k0 % 128 / 32 * Mma.nwg fmt + col))) 4)

/-- The operands of a command that starts: its crew, stage offset, block length. -/
structure MmaRun where
  cluster : Nat
  crew : Crew
  rows : Nat
  fmt : Word
  members : List (Nat × Nat)
  mbase : Nat
  off : Nat
  kb : Nat
deriving DecidableEq, Repr

/-- One output element (i, n) (R342, R344). -/
def mmaOut (s : State) (m : Matrix) (r : MmaRun) (row : List MatEl) (i n : Nat) (col : List MatEl) : MatOut :=
  let gsize := r.members.length
  let (rank, kb0) := r.members.getD (i % gsize) (0, 0)
  let key := r.crew.accKey r.cluster r.rows rank (kb0 + i / gsize * (Mma.nw r.fmt / 64) + n / 64) (n % 64)
  let nb := Mma.k r.fmt / r.kb
  let blks := (List.range nb).filterMap fun b =>
    let sa := if Mma.nsa r.fmt then 0x7F7F
      else natOfBytes (stageBytes s r.crew r.cluster (r.off + Mma.scales r.fmt + 4 * (i * nb + b)) 4) % 2 ^ 24
    let sb := columnScale s r.cluster m r.fmt r.mbase n (b * r.kb) % 2 ^ 24
    blockTerm ((row.drop (b * r.kb)).take r.kb) ((col.drop (b * r.kb)).take r.kb) sa sb
  { key := key, c0 := BitVec.ofNat 32 (natOfBytes (s.peek key 4)), blks := blks }

/-- Every output element of a command. -/
def mmaOuts (s : State) (m : Matrix) (r : MmaRun) : List MatOut :=
  let rows := (List.range (Mma.rows r.fmt)).map fun i =>
    (i, formEls (Mma.af r.fmt) (stageBytes s r.crew r.cluster (r.off + i * Mma.rb r.fmt) (Mma.rb r.fmt)))
  (List.range (Mma.nw r.fmt)).flatMap fun n =>
    let col := columnEls s r.cluster m r.fmt r.mbase n
    rows.map fun e => mmaOut s m r e.2 e.1 n col

/-- Free values for the elements of a command whose forms do not match (R341). -/
def freeOuts (s : State) (os : List MatOut) : List MatOut :=
  ((List.range os.length).zip os).map fun (e : Nat × MatOut) =>
    { e.2 with
      c0 := (Config.freeDword (s.free + e.1)).setWidth 32
      blks := [] }

/-- dmstat with free values, after `n` free draws for the elements. -/
def State.freeStat (s : State) (r : CrewRef) (n : Nat) : State :=
  let m := s.matCrew r.cluster r.slot
  let f := Config.freeDword (s.free + n)
  { s.setMatCrew r.cluster r.slot { m with flags := f.setWidth 5, anom := (f.extractLsb' 16 16).toNat } with
    free := s.free + n + 1 }

/-- The MMA.G that starts next: class 0 first, then queue order; one runs at a time (R339). -/
def Matrix.nextMma (m : Matrix) : Option MatCmd :=
  let ms := m.cmds.filter fun x => !x.op.isMld
  if ms.any (·.started) then none
  else match ms.find? fun x => x.cls == 0 with
    | some x => some x
    | none => ms.head?

/-- A command starts (R344): the swap, the outputs' terms, the stage consumed and freed. -/
def mmaRun (s : State) (x : MatCmd) (c : Crew) (fmt : Word) (members : List (Nat × Nat)) : State :=
  let r := x.crew
  let mc := s.matCrew r.cluster r.slot
  let ring := mc.ring (Mma.ring fmt)
  let off := ring.base + ring.consumed % ring.stages * ring.size
  let s := if Mma.swap fmt then
      s.modMatrix r.cluster fun m => { m with active := m.active ^^^ BitVec.ofNat 32 ((x.macs.map (2 ^ ·)).sum) }
    else s
  let m := (s.cluster r.cluster).matrix
  let run : MmaRun := {
    cluster := r.cluster
    crew := c
    rows := c.accRows (s.kernelOf c).waves
    fmt := fmt
    members := members
    mbase := Gang.mbase mc.gang
    off := off
    kb := ring.kb }
  let size := Mma.stageSize fmt ring.kb
  let outs := mmaOuts s m run
  match stagePoison s c r.cluster off size with
  | some b =>
    let va := 0x7F * 2 ^ 40 + 2 ^ 36 + c.home * 2 ^ 25 + c.homeSlot * 2 ^ 22 + 0x100000 + b
    s.setCmd r.cluster x.n fun x => { x with started := true, fault := some (22, BitVec.ofNat 64 va) }
  | none =>
    if outs.any fun o => s.poisoned o.key 4 then
      let (a, s) := s.drawDword
      s.setCmd r.cluster x.n fun x => { x with started := true, fault := some (22, a) }
    else
      let bases := (List.range (Mma.kc fmt * Mma.ng fmt)).map fun i => run.mbase + Mma.mb fmt + Mma.pw fmt * i
      let good := bases.all fun mac => bankMatches m (Mma.bf fmt) mac
      let rowBytes := stageBytes s c r.cluster off (Mma.rows fmt * Mma.rb fmt)
      let (outs, s) :=
        if good then (outs, s.addAnom r (if Mma.af fmt = 0 then anomalies rowBytes else 0))
        else (freeOuts s outs, s.freeStat r outs.length)
      let ring' : Ring := if Mma.keep fmt then ring
        else { ring with consumed := (ring.consumed + 1) % 65536, freed := (ring.freed + 1) % 65536 }
      (s.setRing r (Mma.ring fmt) ring').setCmd r.cluster x.n fun x =>
        { x with started := true, outs := outs }

/-- MMA_START: the next MMA.G starts once its ring has a filled stage and, with SWAP, every earlier MLD to its macros is
complete. -/
def execMmaStart (cluster : Nat) (s : State) : Host.Outcome State Fault Refusal :=
  event (fun s =>
    let m := (s.cluster cluster).matrix
    match m.nextMma with
    | some x =>
      match x.op, s.crewOf x.crew with
      | .mma fmt members, some c =>
        let ring := (s.matCrew cluster x.crew.slot).ring (Mma.ring fmt)
        let waits := Mma.swap fmt && m.cmds.any fun y => y.op.isMld && decide (y.n < x.n) && y.meets x
        if ring.filled = ring.consumed || waits then s else mmaRun s x c fmt members
      | _, _ => s
    | none => s) s

def State.writeOuts (s : State) (os : List MatOut) (flags : Nat) : State × Nat :=
  match os with
  | [] => (s, flags)
  | o :: t =>
    let (v, f) := o.value
    (s.poke o.key (leBytes 4 v.toNat)).writeOuts t (flags ||| f)

/-- MMA_COMPLETE: every element is written, flags join dmstat, the members' signals can land (R345). -/
def execMmaComplete (cluster : Nat) (s : State) : Host.Outcome State Fault Refusal :=
  event (fun s =>
    match (s.cluster cluster).matrix.cmds.find? fun x => !x.op.isMld && x.started && x.fault.isNone with
    | some x =>
      let (s, f) := s.writeOuts x.outs 0
      let m := s.matCrew cluster x.crew.slot
      (s.setMatCrew cluster x.crew.slot { m with flags := m.flags ||| BitVec.ofNat 5 f }).endCmd cluster x.n
    | none => s) s

/-! ## Kill (R350) -/

/-- MATRIX_KILLED: a command of the crew met a fault; the crew is killed and scrubbed. -/
def execMatrixKilled (cluster crew code : Nat) (addr : Dword) (s : State) : Host.Outcome State Fault Refusal :=
  event (fun s =>
    let hit := (s.cluster cluster).matrix.cmds.find? fun x => x.crew.slot == crew % 8 && x.fault == some (code, addr)
    match hit with
    | some x => s.killCrew x.crew 20 code addr.toNat
    | none => s) s

/-! ## Register writes (R338) -/

/-- The crew whose copy the sequencer of a cluster would address now. -/
def State.sequencer (s : State) (cluster : Nat) : Bool := (s.engine (cluster * 7 + 4)).running.isSome

/-- A write to a matrix CSR outside an instruction: its checks, then its effect, or the end of the kick. -/
def State.matWrite (s : State) (cluster a : Nat) (v : Dword) : State :=
  let k := cluster * 7 + 4
  if !s.sequencer cluster then s else
  match matGuard k a v s with
  | .ok _ t => t.writeMatrix k a v
  | .error (.exc e) t => t.endKick k e.code e.detail e.tval
  | .error _ t => t

/-- DMGANG_WRITE. -/
def execDmgangWrite (cluster : Nat) (v : Dword) (s : State) : Host.Outcome State Fault Refusal :=
  event (fun s => s.matWrite cluster 0x8E0 v) s

/-- DMRING_WRITE. -/
def execDmringWrite (cluster ring : Nat) (v : Dword) (s : State) : Host.Outcome State Fault Refusal :=
  event (fun s => if ring < 4 then s.matWrite cluster (0x8E2 + ring) v else s) s

end Sys2Proof.Machine
end

