-- ==== Sys2Proof/Machine/Message.lean ====
section
/-! DEFINITION. Messages and writes-with-enqueue on their way: departure from a send queue (R103, R417), arrival (R105, R416),
messages held at the front end (R102), the start of a handler (R402), the target of an stq (R115, R400). -/

namespace Sys2Proof.Machine

/-! ## Departure -/

/-- Messages whose order is kept: one sender, one destination, one network, one priority (R103, R217). -/
def Msg.sameStream (a b : Msg) : Bool :=
  a.origin == b.origin && a.wave == b.wave && a.reply == b.reply && a.pri == b.pri && a.pkg == b.pkg && a.rank == b.rank &&
    a.target == b.target

/-- An earlier entry of the queue leaves first: a message of the same stream, and a reply before every request. -/
def SendEntry.before (e : SendEntry) (m : SendEntry) : Bool :=
  match e, m with
  | .msg a, .msg b => a.sameStream b
  | _, _ => false

/-- The entry `n` of a queue may leave. -/
def sendReady (q : Map SendEntry) (n : Nat) (e : SendEntry) : Bool :=
  !(q.any fun x => decide (x.1 < n) && x.2.before e) && (e.isReply || !(q.any fun x => x.2.isReply))

/-- MESSAGE_DEPART: the entry `n` leaves for the network. A handler message keeps its place (R402). -/
def execMessageDepart (queue n : Nat) (s : State) : Host.Outcome State Fault Refusal :=
  event (fun s =>
    let q := s.sendq queue
    match q.find n with
    | some e =>
      if !sendReady q n e then s else
      match e with
      | .msg m =>
        let t := s.setSendq queue (if m.handler.isSome then q.put n (.held m.origin) else q.del n)
        { t with net := t.net ++ [{ m with
          queue := queue
          entry := n }] }
      | .stq o =>
        let t := s.setSendq queue (q.del n)
        { t with stqs := t.stqs ++ [o] }
      | .held _ => s
    | none => s) s

/-! ## Arrival -/

/-- The sender's entry of a handler message frees. -/
def State.freeHeld (s : State) (m : Msg) : State :=
  if m.handler.isSome then s.setSendq m.queue ((s.sendq m.queue).del m.entry) else s

/-- A message is dropped, with an entry of the error log (KIND 10). -/
def State.dropMsg (s : State) (m : Msg) : State :=
  (s.freeHeld m).logError 0 0 10 255 (m.target / 512 % 128) 0 0 0 ((m.rank.map (·.2)).getD 0xFFFFFFFF)

/-- A message reaches a context: its handler queue, a mailbox register, the inbox of 4 or the overflow queue. -/
def State.deliverMsg (s : State) (m : Msg) (ctx : Nat) : State :=
  let h := s.hart (.strand ctx)
  if m.handler.isSome then
    if h.run = .idle then s.dropMsg { m with target := ctx }
    else s.setHart (.strand ctx) { h with handlerQueue := h.handlerQueue ++ [m] }
  else if m.dest.getLsbD 28 then
    s.setHart (.strand ctx) (h.deposit (m.dest.extractLsb' 25 3).toNat (BitVec.ofNat 64 (natOfBytes (m.payload.take 8))))
  else if h.inbox.length < 4 ∧ h.overflow = [] then s.setHart (.strand ctx) { h with inbox := h.inbox ++ [m] }
  else s.setHart (.strand ctx) { h with overflow := h.overflow ++ [m] }

/-- The context of the strand that a rank message names, while its crew is resident and the strand has started. -/
def State.rankCtx (s : State) (launch linear rank : Nat) : Option Nat :=
  match (s.crewsOf launch).find? fun e => e.2.linear == linear with
  | some (_, c) => if c.started.contains rank then c.ctxs[rank]? else none
  | none => none

/-- The target crew of a rank message has ended, or its launch has. -/
def State.crewGone (s : State) (launch linear : Nat) : Bool :=
  match s.launches.find launch with
  | some l => l.ended || l.endedCrews.contains linear
  | none => true

/-- A message off the network. -/
def State.arrive (s : State) (m : Msg) : State :=
  if m.pkg.isSome then s.freeHeld m else
  match m.rank with
  | none => s.deliverMsg m m.target
  | some (launch, linear) =>
    if s.crewGone launch linear then s.dropMsg m else
    let same := s.heldMsgs.filter fun x => x.rank == m.rank
    match s.rankCtx launch linear m.target with
    | some ctx =>
      if same.any fun x => x.target == m.target then { s with heldMsgs := s.heldMsgs ++ [m] } else s.deliverMsg m ctx
    | none => if 4096 ≤ same.length then s.dropMsg m else { s with heldMsgs := s.heldMsgs ++ [m] }

/-- MESSAGE_ARRIVAL: the message at place `n` of those on the network arrives, after earlier ones of its stream. -/
def execMessageArrival (n : Nat) (s : State) : Host.Outcome State Fault Refusal :=
  event (fun s =>
    match s.net[n]? with
    | some m =>
      if (s.net.take n).any m.sameStream then s else ({ s with net := s.net.eraseIdx n } : State).arrive m
    | none => s) s

/-- HELD_MESSAGE_DELIVERY: the oldest message held for the crew whose strand has started. -/
def execHeldMessageDelivery (crew : Nat) (s : State) : Host.Outcome State Fault Refusal :=
  event (fun s =>
    match (s.cluster (crew / 8)).crews.find (crew % 8) with
    | some c =>
      match s.heldMsgs.find? fun m => m.rank == some (c.launch, c.linear) && c.started.contains m.target with
      | some m =>
        match c.ctxs[m.target]? with
        | some ctx => ({ s with heldMsgs := s.heldMsgs.erase m } : State).deliverMsg m ctx
        | none => s
      | none => s
    | none => s) s

/-! ## Handlers (R402) -/

/-- The address of a context's handler buffer in its own view (R255). -/
def handlerBuffer (k : Nat) : Dword := BitVec.ofNat 64 (0x7F * 2 ^ 40 + 2 ^ 37 + 0x200 + 64 * (k % 8))

/-- The hart at the first instruction of a handler; x13 to x17 of the shadow set hold free values. -/
def Hart.startHandler (h : Hart) (k : Nat) (m : Msg) (free : List Dword) : Hart :=
  { h with
    handler := some {
      code := m.handler.getD []
      off := 0
      saved := (List.range 8).map fun i => h.x.toList.getD (10 + i) 0
      sender := m.sender
      dest := m.dest
      replied := false
      wasParked := match h.run with
        | .parked p => some p
        | _ => none }
    handlerQueue := h.handlerQueue.drop 1
    x := ([handlerBuffer k, m.sender, m.dest] ++ free).foldl
      (fun (x : Vector Dword 32 × Nat) v => (x.1.set! x.2 v, x.2 + 1)) (h.x, 10) |>.1
    hm := true
    run := .running }

/-- Five free doublewords. -/
def freeFive : M (List Dword) := do
  return [← freeDwordM, ← freeDwordM, ← freeDwordM, ← freeDwordM, ← freeDwordM]

/-- HANDLER_START: the first waiting handler of a context starts; one whose context runs nothing any more is dropped. -/
def execHandlerStart (strand : Nat) (s : State) : Host.Outcome State Fault Refusal :=
  event (fun s =>
    let h := s.hart (.strand strand)
    match h.handlerQueue with
    | [] => s
    | m :: rest =>
      if h.run = .idle then
        (s.setHart (.strand strand) { h with handlerQueue := rest }).dropMsg { m with target := strand }
      else if h.handler.isSome ∨ h.tn ∨ h.run = .stopped then s
      else runM (do
        let free ← freeFive
        modify fun s => ((s.setHart (.strand strand) (h.startHandler strand m free)).freeHeld m).poke
          (hbufKey strand 0) m.payload) s) s

/-! ## The target of a write-with-enqueue (R115, R288, R400) -/

/-- The target's accesses for a sender. -/
def StqOp.acc (o : StqOp) : Acc :=
  { cluster := o.cluster, tlb := .unit o.cluster 6, who := .other, dptb := o.dptb, priv := o.priv, crew := o.crew, bound := o.bound }

/-- The deferred fault of an operation: DETAIL 16 + n for a page fault, with the lane of a lane sender. -/
def StqOp.deferred (o : StqOp) (e : Exc) : Deferred :=
  let lane := if o.wave.isSome then 256 * o.lane else 0
  { code := e.code
    detail := lane + (if e.code = 8 then 16 + e.detail else e.detail)
    addr := e.tval
    sender := o.sender
    wave := o.wave }

/-- The sender of an operation still runs in its crew. -/
def State.senderLives (s : State) (o : StqOp) : Bool :=
  match o.wave, o.sender with
  | some k, _ => (s.wave k).live && (s.wave k).hart.crew == o.crew
  | none, some (.engine k) => ((s.engine k).crew) == o.crew && (s.engine k).running.isSome
  | none, some (.uniform k) => (s.wave k).live && (s.wave k).hart.crew == o.crew
  | none, some h => (s.hart h).run != .idle && (s.hart h).crew == o.crew
  | none, none => false

/-- A fault is recorded with the operation's semaphore, or entered in the error log when a record stands or the sender has
ended. -/
def State.recordDeferred (s : State) (o : StqOp) (e : Exc) : State :=
  let d := o.deferred e
  match o.crew.bind fun r => (s.crewOf r).map fun c => (r, c) with
  | some (r, c) =>
    if (c.deferred.find o.sem).isSome || !s.senderLives o then s.logDeferred r d
    else s.setCrew r.cluster r.slot { c with deferred := c.deferred.put o.sem d }
  | none => s.logDeferred { cluster := o.cluster, slot := 0, gen := 0 } d

/-- The completion semaphore of the sender's crew receives INC. -/
def State.stqSignal (s : State) (o : StqOp) : State :=
  if o.inc = 0 then s else
  match o.crew.bind fun r => (s.crewOf r).map fun c => (r, c) with
  | some (r, c) =>
    match s.signalSem r.cluster (c.semIndex o.sem) o.inc with
    | some t => t
    | none => s.recordDeferred o (excDev 18 0 0)
  | none => s

/-- The work at the target: every page first, the payload, a release, the continuation, the semaphore. It waits while the
queue of the continuation has no room (R128). -/
def stqWork (o : StqOp) : M Unit := do
  let acc := o.acc
  let gs ← resolve acc (BitVec.ofNat 64 o.target) o.payload.length .store
  if o.cont.join ≠ 0 then do
    let _ ← resolve acc ((o.cont.join.setWidth 48).signExtend 64) 8 .store
  let from' : Origin := { cluster := o.cluster, crew := o.crew, launch := o.launch, dcrew := o.dcrew, dptb := o.dptb }
  let s ← get
  let q := from'.queued s o.cont
  if o.cont.kind ≠ 1 && s.canStart q.c && !s.queueRoom (s.contCluster o.cluster q.c) o.cont.cls 1 then throw .stall
  gateSegs acc true gs
  writeSegs acc true gs o.payload
  modify fun s => s.releaseUnit acc.who 3
  spawnM acc from' o.cont 1
  modify fun s => s.stqSignal o

/-- STQ_TARGET: the operation at place `n` of those in flight reaches its target. -/
def execStqTarget (n : Nat) (s : State) : Host.Outcome State Fault Refusal :=
  event (fun s =>
    match s.stqs[n]? with
    | some o =>
      let t : State := { s with stqs := s.stqs.eraseIdx n }
      match stqWork o t with
      | .ok _ u => u
      | .error (.exc e) u => u.recordDeferred o e
      | .error _ u => { s with snoops := u.snoops }
    | none => s) s

end Sys2Proof.Machine
end

