-- ==== Sys2Proof/Machine/Start.lean ====
section
/-! DEFINITION. Starting units (R31, R124, R125, R193), continuations taken from the queues (R242), the Atomiser (R140),
migration blocks granted (R138), the ageing limits (R136, R247), the end of a crew (R124). -/

namespace Sys2Proof.Machine

/-- dcrew of a crew's units (R20). -/
def Crew.dcrew (x : Crew) (slot : Nat) : Dword :=
  BitVec.ofNat 64 (x.stage * 2 ^ 48 + x.z * 2 ^ 36 + x.y * 2 ^ 24 + x.x * 2 ^ 12 + slot)

/-- An address field of 48 bits as a 64-bit address. -/
def addr48 (v : Dword) : Dword := (v.setWidth 48).signExtend 64

/-! ## Harts that start (R31, R125) -/

/-- The integer registers of a unit that starts: x2, x10 to x13, the rest 0. -/
def startRegs (sp a0 a1 a2 a3 : Dword) : Vector Dword 32 :=
  (((((Vector.replicate 32 (0 : Dword)).set 2 sp).set 10 a0).set 11 a1).set 12 a2).set 13 a3

/-- What every start sets (R31): U level, no reservation, TN and HM clear; the other CSRs of the hart stay. -/
def Hart.started (h : Hart) (pc : Dword) (x : Vector Dword 32) (ref : CrewRef) (launch : Nat) (dcrew : Dword) (bound : Bool) : Hart :=
  { h with
    pc := pc
    x := x
    priv := .u
    resv := none
    tn := false
    hm := false
    dcrew := dcrew
    run := .running
    granted := none
    handler := none
    crew := some ref
    launch := launch
    bound := bound
    stack := none
    join := 0
    duty := false
    gfx := none }

/-- What a strand's start sets besides: f registers and fcsr 0, FS Initial, mailbox status 0 (R31, R142). -/
def Hart.strandStarted (h : Hart) : Hart :=
  { h with
    f := Vector.replicate 32 0
    fcsr := 0
    sstatus := Sstatus.setFs h.sstatus 1
    mbFull := 0
    mbOvr := 0 }

/-! ## Waves -/

/-- The code section of a role. -/
def roleSection (l : List Section) (role : Nat) : Section := (l.find? fun x => x.role == role).getD {}

/-- The slots that the kernel binds, with the addresses of their records (R80, R193). -/
def Launch.bufs (l : Launch) : List (Nat × Dword) :=
  (l.img.bindings.filter fun b => b.1 == l.kernelIx && l.kernel.slotMask.testBit b.2.1).map fun b =>
    (b.2.1, BitVec.ofNat 64 (l.img.dataVa + b.2.2))

/-- Buffer records copied into a wave's slots. -/
def copyBufs (k : Nat) (acc : Acc) (l : List (Nat × Dword)) : M Unit :=
  match l with
  | [] => pure ()
  | (slot, va) :: t => do
    let bs ← vread acc va 32
    modify fun s => s.setWave k { s.wave k with buf := (s.wave k).buf.put slot (BitVec.ofNat 256 (natOfBytes bs)) }
    copyBufs k acc t

/-- The copies of a wave are read before its first instruction; a cause is a trap of the wave with SRC 1 (R193). -/
def State.readBufs (s : State) (k : Nat) : State :=
  let w := s.wave k
  let acc := { s.accOf (.uniform k) with priv := .u, std := true }
  let bufs := ((s.launches.find w.hart.launch).map Launch.bufs).getD []
  match copyBufs k acc bufs s with
  | .ok _ t => t.setWave k { t.wave k with bufDue := false }
  | .error (.exc e) t => t.trapUniform k w.hart.pc e
  | .error _ t => { s with snoops := t.snoops }

/-- A wave of a crew in slot `k` with its hart and lanes; its Accord state, predicates and barriers start anew. -/
def Wave.fresh (w : Wave) (h : Hart) (code : Section) (lanes : Mask) (pc clk : Nat) (v : Map (Lanes Word)) : Wave :=
  { live := true
    hart := h
    code := code
    bufDue := true
    age := clk
    lanes := lanes
    pri := some { mask := lanes, pc := pc }
    v := v
    trap := { lvec := w.trap.lvec } }

def allLanes : Mask := BitVec.allOnes 64

/-- v0 holds the lane index, v1 a word (R125). -/
def firstRows (v1 : Word) : Map (Lanes Word) := [(0, Vector.ofFn fun l => BitVec.ofNat 32 l.val), (1, Vector.replicate 64 v1)]

/-- A wave started by the front end or by a wave-kind continuation (R125): role of its sections, uniform pc, x10 to x12. -/
def State.startWave (s : State) (k role : Nat) (pc a0 a1 a2 : Dword) (ref : CrewRef) (c : Crew) (l : Launch) : State :=
  let w := s.wave k
  let h := w.hart.started pc (startRegs 0 a0 a1 a2 (waveIdent k)) ref c.launch (c.dcrew ref.slot) true
  s.setWave k { w.fresh h (roleSection l.img.laneCode role) allLanes 0 s.clk (firstRows (a2.setWidth 32)) with frame := some a0 }

/-- The kernel's role is a wave role (R124). -/
def Launch.waveRole (l : Launch) : Bool := l.img.roles.getD l.kernel.role 0 == 1

/-- The rank that the front end starts next in a crew. -/
def Launch.nextStart (l : Launch) (c : Crew) : Nat := (if l.waveRole then l.kernel.waves else l.kernel.strands) - c.toStart

/-- WAVE_START: the front end starts the next wave of a crew, in ascending rank (R240). -/
def execWaveStart (crew rank : Nat) (s : State) : Host.Outcome State Fault Refusal :=
  event (fun s =>
    match s.crewAt crew with
    | some (ref, c) =>
      match s.launches.find c.launch with
      | some l =>
        if !l.waveRole || c.preempt || c.toStart == 0 || l.nextStart c != rank then s else
        match c.waveSlots[rank]? with
        | some slot =>
          let k := ref.cluster * 128 + c.engine * 16 + slot
          let pc := BitVec.ofNat 64 ((roleSection l.img.uniformCode l.kernel.role).va + l.kernel.entry)
          let s := s.setCrew ref.cluster ref.slot { c with toStart := c.toStart - 1 }
          let s := s.startWave k l.kernel.role pc l.arg l.join (BitVec.ofNat 64 rank) ref c l
          (s.setWave k { s.wave k with
            rank := rank
            front := true }).readBufs k
        | none => s
      | none => s
    | none => s) s

/-- The top of stack `n` of a crew's strands (R121). -/
def Launch.stackTop (l : Launch) (c : Crew) (n : Nat) : Dword :=
  if l.stackSize = 0 then 0
  else l.stack + BitVec.ofNat 64 ((c.linear * l.kernel.strands + n + 1) * l.stackSize)

/-- FRONT_END_STRAND_START: the front end starts the next strand of a crew. -/
def execFrontEndStrandStart (crew rank : Nat) (s : State) : Host.Outcome State Fault Refusal :=
  event (fun s =>
    match s.crewAt crew with
    | some (ref, c) =>
      match s.launches.find c.launch with
      | some l =>
        if l.waveRole || c.preempt || c.toStart == 0 || l.nextStart c != rank then s else
        match c.ctxs[rank]? with
        | some k =>
          let h := s.hart (.strand k)
          let pc := BitVec.ofNat 64 ((roleSection l.img.strandCode l.kernel.role).va + l.kernel.entry)
          let x := startRegs (l.stackTop c rank) l.arg l.join (BitVec.ofNat 64 rank) 0
          let s := s.setCrew ref.cluster ref.slot { c with
            toStart := c.toStart - 1
            stackUse := c.stackUse ++ [rank]
            started := c.started ++ [rank] }
          s.setHart (.strand k) { (h.started pc x ref c.launch (c.dcrew ref.slot) true).strandStarted with
            rank := rank
            stack := some rank }
        | none => s
      | none => s
    | none => s) s

/-! ## Continuations (R31, R125, R138, R242) -/

/-- The accessor that reads a migration block for the unit that starts from it. -/
def State.blockAcc (s : State) (h : HartId) (ref : CrewRef) : Acc :=
  { s.accOf h with
    priv := .u
    crew := some ref
    bound := true }

/-- The registers of a migration block (R138): x, f and fcsr. -/
def blockRegs (bs : List Byte) : Vector Dword 32 × Vector Dword 32 × Byte :=
  let w (off : Nat) : Dword := BitVec.ofNat 64 (natOfBytes ((bs.drop off).take 8))
  (Vector.ofFn fun i => if i.val = 0 then 0 else w (8 * (i.val - 1)), Vector.ofFn fun i => w (0x100 + 8 * i.val),
    (w 0xF8).setWidth 8)

/-- The block at FRAME is read and freed. -/
def takeBlock (h : HartId) (ref : CrewRef) (frame : Dword) : M (List Byte) := do
  let s ← get
  let bs ← vread (s.blockAcc h ref) frame 512
  match s.crewOf ref with
  | some c => modify fun s => s.freeBlock ref ((frame - s.blockAddr c 0).toNat / 512)
  | none => pure ()
  pure bs

/-- A strand continuation may run on a context (R127, R236, R242). -/
def State.runsOnContext (s : State) (k : Nat) (q : QCont) : Bool :=
  q.c.kind == 0 &&
    if q.c.bound then
      match s.crewOf q.c.ref with
      | some c => !c.preempt && match c.ctxs.findIdx? (· == k) with
        | some r => ((s.launches.find c.launch).map fun l => l.waveRole || decide (r < l.nextStart c)).getD false
        | none => false
      | none => false
    else s.idleContext (k / 512) q.c.cls k

/-- A wave continuation may run on a wave slot. -/
def State.runsOnWave (s : State) (k : Nat) (q : QCont) : Bool :=
  q.c.kind == 2 &&
    match s.crewOf q.c.ref with
    | some c => !c.preempt && c.engine == k % 128 / 16 && match c.waveSlots.findIdx? (· == k % 16) with
      | some r => ((s.launches.find c.launch).map fun l => !l.waveRole || decide (r < l.nextStart c)).getD false
      | none => false
    | none => false

/-- The oldest of some continuations. -/
def oldestCont (l : List QCont) : Option QCont :=
  match l with
  | [] => none
  | q :: t =>
    match oldestCont t with
    | some r => if q.since ≤ r.since then some q else some r
    | none => some q

/-- The continuation that a free unit takes (R242): of each class the first that may run on it. -/
def State.nextCont (s : State) (cluster : Nat) (ok : QCont → Bool) : Option QCont :=
  let first (cls : Nat) : Option QCont := ((s.cluster cluster).conts.getD cls []).find? ok
  let later := [1, 2, 3].filterMap first
  (first 0).or ((oldestCont (later.filter fun q => decide (q.since + 262144 ≤ s.clk))).or later.head?)

/-- A continuation leaves its queue. -/
def State.popCont (s : State) (cluster : Nat) (q : QCont) : State :=
  let c := s.cluster cluster
  s.setCluster cluster { c with conts := c.conts.put q.c.cls ((c.conts.getD q.c.cls []).erase q) }

/-- A strand starts from a continuation. -/
def startStrand (k : Nat) (q : QCont) : M Unit := do
  let s ← get
  let h := s.hart (.strand k)
  let crew := if q.c.bound then s.crewOf q.c.ref else none
  let l := s.launches.find q.launch
  let rank := ((crew.map fun c => c.ctxs.findIdx (· == k))).getD 0
  let sp ←
    match l with
    | some l =>
      if l.stackSize = 0 then pure 0
      else match crew with
        | some c => pure (l.stackTop c rank)
        | none => freeDwordM
    | none => freeDwordM
  let regs ←
    if q.c.regs then do
      let bs ← takeBlock (.strand k) q.c.ref (addr48 q.c.frame)
      pure (some (blockRegs bs))
    else pure none
  let x := startRegs sp (addr48 q.c.frame) (addr48 q.c.join) (BitVec.ofNat 64 q.c.lidx) 0
  let dcrew := match crew with
    | some c => c.dcrew q.c.hslot
    | none => q.dcrew
  let h := (h.started (addr48 q.c.code) x q.c.ref q.launch dcrew q.c.bound).strandStarted
  let h := match regs with
    | some (x, f, fcsr) => { h with
        x := x
        f := f
        fcsr := fcsr }
    | none => h
  modify fun s =>
    let s := match s.crewOf q.c.ref with
      | some c => if q.c.bound then s.setCrew q.c.hcluster q.c.hslot { c with
          stackUse := c.stackUse ++ [rank]
          started := if c.started.contains rank then c.started else c.started ++ [rank] } else s
      | none => s
    (s.setHart (.strand k) { h with
      rank := rank
      stack := if q.c.bound then some rank else none
      join := addr48 q.c.join
      duty := true
      gfx := q.gfx }).deliverGfx q.gfx

/-- A wave starts from a continuation. -/
def State.startWaveCont (s : State) (k : Nat) (q : QCont) (c : Crew) (l : Launch) : State :=
  let role := ((sectionAt l.img.uniformCode (addr48 q.c.code).toNat).map (·.1.role)).getD l.kernel.role
  let s := s.startWave k role (addr48 q.c.code) (addr48 q.c.frame) (addr48 q.c.join) (BitVec.ofNat 64 q.c.lidx) q.c.ref c l
  let w := s.wave k
  ((s.setWave k { w with
    rank := c.waveSlots.findIdx (· == k % 16)
    hart := { w.hart with
      join := addr48 q.c.join
      duty := true
      gfx := q.gfx } }).deliverGfx q.gfx).readBufs k

/-- CONTINUATION_POP: a free context or wave slot takes a continuation. -/
def execContinuationPop (cluster : Nat) (slot : UnitSlot) (s : State) : Host.Outcome State Fault Refusal :=
  event (fun s =>
    match slot with
    | .context core ctx =>
      let k := cluster * 512 + core % 64 * 8 + ctx % 8
      if (s.hart (.strand k)).run ≠ .idle then s else
      match s.nextCont cluster (s.runsOnContext k) with
      | some q =>
        match startStrand k q (s.popCont cluster q) with
        | .ok _ t => t
        | .error _ t => { s with snoops := t.snoops }
      | none => s
    | .waveSlot engine slot =>
      let k := cluster * 128 + engine % 8 * 16 + slot % 16
      if (s.wave k).live then s else
      match s.nextCont cluster (s.runsOnWave k) with
      | some q =>
        match s.crewOf q.c.ref, s.launches.find q.launch with
        | some c, some l => (s.popCont cluster q).startWaveCont k q c l
        | _, _ => s
      | none => s) s

/-! ## The Atomiser (R140) -/

/-- The first of some gathers that `ok` selects, changed. -/
def modFirst (ok : Gather → Bool) (f : Gather → Gather) (l : List Gather) : List Gather :=
  match l with
  | [] => []
  | g :: t => if ok g then f g :: t else g :: modFirst ok f t

/-- An arrival joins a gather, which closes at its 64th. -/
def Gather.join (g : Gather) (q : QCont) : Gather :=
  { g with
    arrivals := g.arrivals ++ [q]
    isOpen := g.isOpen && decide (g.arrivals.length + 1 < 64) }

/-- ATOMISER_ARRIVAL: the first lane continuation on its way joins the gather of its key, opens one, or makes room. -/
def execAtomiserArrival (cluster : Nat) (s : State) : Host.Outcome State Fault Refusal :=
  event (fun s =>
    let c := s.cluster cluster
    match c.atomiser with
    | [] => s
    | q :: rest =>
      let target := (addr48 q.c.code).toNat
      let mine (g : Gather) : Bool := g.crew == q.c.ref && g.target == target && decide (g.arrivals.length < 64)
      if c.gathers.any mine then s.setCluster cluster { c with
        atomiser := rest
        gathers := modFirst mine (·.join q) c.gathers }
      else if c.gathers.length < 64 then s.setCluster cluster { c with
        atomiser := rest
        gathers := c.gathers ++ [{ crew := q.c.ref, target := target, arrivals := [q], since := s.clk }] }
      else s.setCluster cluster { c with gathers := modFirst (·.isOpen) (fun g => { g with isOpen := false }) c.gathers }) s

/-- GATHER_WINDOW_EXPIRY: gathers close 4,096 clk after they opened. -/
def execGatherWindowExpiry (cluster : Nat) (s : State) : Host.Outcome State Fault Refusal :=
  event (fun s =>
    let c := s.cluster cluster
    s.setCluster cluster { c with gathers := c.gathers.map fun g =>
      { g with isOpen := g.isOpen && decide (s.clk < g.since + 4096) } }) s

/-- What lane starts from (R137, R140): v2 to v127 and lfm, or FRAME, JOIN and LIDX in v20 to v25. -/
structure LaneStart where
  words : List Word
  lfm : Byte
deriving DecidableEq, Repr

def dwordWords (v : Dword) : List Word := [v.setWidth 32, (v >>> 32).setWidth 32]

def laneStart (k : Nat) (q : QCont) : M LaneStart := do
  if q.c.regs then do
    let bs ← takeBlock (.uniform k) q.c.ref (addr48 q.c.frame)
    let (x, f, fcsr) := blockRegs bs
    pure { words := (x.toList.drop 1).flatMap dwordWords ++ f.toList.flatMap dwordWords, lfm := fcsr }
  else
    pure { words := List.replicate 18 0 ++ dwordWords (addr48 q.c.frame) ++ dwordWords (addr48 q.c.join) ++
            dwordWords (BitVec.ofNat 64 q.c.lidx) ++ List.replicate 102 0, lfm := 0 }

def laneStarts (k : Nat) (qs : List QCont) : M (List LaneStart) :=
  match qs with
  | [] => pure []
  | q :: t => do
    let a ← laneStart k q
    let rest ← laneStarts k t
    pure (a :: rest)

/-- The records that the lanes of a new wave carry are delivered (R378). -/
def deliverAll (s : State) (qs : List QCont) : State :=
  match qs with
  | [] => s
  | q :: t => deliverAll (s.deliverGfx q.gfx) t

/-- Values by lane, from those that have one. -/
def byLane {α : Type} (f : QCont → Option α) (l : Nat) (qs : List QCont) : Map α :=
  match qs with
  | [] => []
  | q :: t =>
    match f q with
    | some a => (l, a) :: byLane f (l + 1) t
    | none => byLane f (l + 1) t

/-- A wave formed from a gather (R140): its uniform hart does not run. -/
def formWave (k : Nat) (ref : CrewRef) (c : Crew) (l : Launch) (g : Gather) : M Unit := do
  let ls ← laneStarts k g.arrivals
  let role := ((sectionAt l.img.laneCode g.target).map (·.1.role)).getD l.kernel.role
  let code := roleSection l.img.laneCode role
  let n := g.arrivals.length
  let lanes : Mask := BitVec.ofNat 64 (2 ^ n - 1)
  let row (i : Nat) : Lanes Word := Vector.ofFn fun l => ((ls[l.val]?).bind fun a => a.words[i]?).getD 0
  modify fun s =>
    let w := s.wave k
    let h := w.hart.started 0 (Vector.replicate 32 0) ref c.launch (c.dcrew ref.slot) true
    let v : Map (Lanes Word) := firstRows 0 ++ (List.range 126).map fun i => (i + 2, row i)
    let w := w.fresh { h with run := .idle } code lanes (g.target - code.va) s.clk v
    let w := { w with
      uended := true
      rank := c.waveSlots.findIdx (· == k % 16)
      lfm := Vector.ofFn fun l => ((ls[l.val]?).map (·.lfm)).getD 0
      laneJoin := byLane (fun q => if q.c.join = 0 then none else some (addr48 q.c.join)) 0 g.arrivals
      laneGfx := byLane (·.gfx) 0 g.arrivals }
    (deliverAll (s.setWave k w) g.arrivals).readBufs k

/-- A wave slot of the crew that is free for an Atomiser wave. -/
def State.freeWaveSlot (s : State) (c : Crew) (l : Launch) (cluster : Nat) : Option Nat :=
  (c.waveSlots.zipIdx.find? fun e => (!l.waveRole || decide (e.2 < l.nextStart c)) &&
    !(s.wave (cluster * 128 + c.engine * 16 + e.1)).live).map fun e => cluster * 128 + c.engine * 16 + e.1

/-- ATOMISER_WAVE_FORM: the gather at place `n`, closed, becomes a wave in a free slot of its crew. -/
def execAtomiserWaveForm (cluster n : Nat) (s : State) : Host.Outcome State Fault Refusal :=
  event (fun s =>
    let cl := s.cluster cluster
    match cl.gathers[n]? with
    | some g =>
      if g.isOpen then s else
      match s.crewOf g.crew with
      | some c =>
        match s.launches.find c.launch with
        | some l =>
          match (if c.preempt then none else s.freeWaveSlot c l cluster) with
          | some k =>
            match formWave k g.crew c l g (s.setCluster cluster { cl with gathers := cl.gathers.eraseIdx n }) with
            | .ok _ t => t
            | .error _ t => { s with snoops := t.snoops }
          | none => s
        | none => s
      | none => s
    | none => s) s

/-! ## Migration blocks (R138, R208) -/

/-- MIGRATION_BLOCK_GRANT: the oldest waiting migration of a crew goes on when its blocks are free. -/
def execMigrationBlockGrant (crew : Nat) (s : State) : Host.Outcome State Fault Refusal :=
  event (fun s =>
    match s.crewAt crew with
    | some (ref, c) =>
      match c.blockWait with
      | w :: rest =>
        let promised := (c.blockGrant.map Waiter.amount).sum
        if w.amount + promised ≤ s.blockCount c - c.blocks.length then s.setCrew ref.cluster ref.slot { c with
          blockWait := rest
          blockGrant := c.blockGrant ++ [w] }
        else s
      | [] => s
    | none => s) s

/-! ## Ageing limits (R136, R247) -/

/-- FRAGMENT_AGE_LIMIT: the oldest fragment has waited 1,024 clk: it changes places with the secondary slot's group. -/
def execFragmentAgeLimit (wave : Nat) (s : State) : Host.Outcome State Fault Refusal :=
  event (fun s =>
    let w := s.wave wave
    match w.frags with
    | f :: rest =>
      if s.clk < f.since + 1024 ∨ w.trap.act ∨ w.lhandler.isSome then s
      else s.setWave wave { w with
        sec := some f
        frags := rest ++ (match w.sec with
          | some g => [{ g with since := s.clk }]
          | none => []) }
    | [] => s) s

/-- GTO_AGEING_LIMIT: the current wave has been current for 1,024 clk; the next issue goes to another (R247). -/
def execGtoAgeingLimit (engine : Nat) (s : State) : Host.Outcome State Fault Refusal :=
  event (fun s =>
    let g := s.wengine engine
    if g.current.isSome && !g.roundRobin && decide (g.currentSince + 1024 ≤ s.clk) then s.setWengine engine { g with switch := true }
    else s) s

/-! ## The end of a crew (R124) -/

/-- A continuation or gather of the crew waits in some queue. -/
def State.crewQueued (s : State) (ref : CrewRef) : Bool :=
  s.clusters.any fun e => (e.2.conts.any fun q => q.2.any fun x => x.ofCrew ref) || (e.2.atomiser.any fun x => x.ofCrew ref) ||
    e.2.gathers.any fun g => g.crew == ref

/-- Every unit of the crew has ended (R124). -/
def State.unitsEnded (s : State) (ref : CrewRef) (c : Crew) : Bool :=
  c.toStart == 0 && (c.waveSlots.all fun k => !(s.wave (ref.cluster * 128 + c.engine * 16 + k)).live) &&
    c.ctxs.all fun k => (s.hart (.strand k)).run == .idle

/-- A launch with no crew left ends (R230). -/
def State.launchOver (s : State) (n : Nat) : State :=
  match s.launches.find n with
  | some l => if l.alive = 0 ∧ l.total ≤ l.next ∧ l.again = [] then s.closeLaunch n else s
  | none => s

/-- The crew is counted off its launch; JOIN was decremented before. -/
def State.countCrew (s : State) (n linear : Nat) : State :=
  match s.launches.find n with
  | some l => (s.setLaunch n { l with
      alive := l.alive - 1
      endedCrews := l.endedCrews ++ [linear] }).launchOver n
  | none => s

/-- CREW_END: the crew's semaphores, scratch and slot are released and the launch JOIN decremented. A JOIN that cannot be
reached ends the launch. -/
def execCrewEnd (crew : Nat) (s : State) : Host.Outcome State Fault Refusal :=
  event (fun s =>
    match s.crewAt crew with
    | some (ref, c) =>
      if !s.unitsEnded ref c || s.crewQueued ref || !c.blocks.isEmpty then s else
      let join := ((s.launches.find c.launch).map (·.join)).getD 0
      let o : Origin := { cluster := ref.cluster, crew := none, launch := c.launch, dcrew := c.dcrew ref.slot, dptb := s.accFrontEnd.dptb }
      let t := ((s.lapseDeferred ref fun _ => true).releaseCrew ref).endRequest ref
      match joinSub s.accFrontEnd o join t with
      | .ok _ u => u.countCrew c.launch c.linear
      | .error (.exc e) u => (u.countCrew c.launch c.linear).endLaunch c.launch e.code e.detail 255 ref.cluster
      | .error _ u => { s with snoops := u.snoops }
    | none => s) s

end Sys2Proof.Machine
end

