-- ==== Sys2Proof/Machine/Preempt.lean ====
section
/-! DEFINITION. Interrupts taken between instructions (R25, R27), the lane handler started from outside (R397), crews
admitted (R239, R240), pre-emption: requests, safe points, saving, the deadline, resuming, kills (R404 to R410). -/

namespace Sys2Proof.Machine

/-! ## Interrupts and the lane handler -/

/-- INTERRUPT_TAKE: a pending enabled interrupt traps the hart (R27, R394). -/
def execInterruptTake (h : HartId) (s : State) : Host.Outcome State Fault Refusal :=
  event (fun s => match s.dueInterrupt h with
    | some cause => s.takeInterrupt h cause
    | none => s) s

/-- TIMER_COMPARE: time has reached dtimecmp, so that STIP reads 1; a hart that waits in WFI for it goes on (R12, R25). -/
def execTimerCompare (h : HartId) (s : State) : Host.Outcome State Fault Refusal :=
  event (fun s =>
    let r := s.hart h
    if r.run == .parked .wfi && (s.pending h &&& r.sie).getLsbD 5 then s.setHart h { r with run := .running } else s) s

/-- LANE_HANDLER_RUN: the wave's lanes run the supervisor's handler at an offset that is a multiple of 12 (R397). -/
def execLaneHandlerRun (wave : Nat) (offset : Dword) (s : State) : Host.Outcome State Fault Refusal :=
  event (fun s =>
    let w := s.wave wave
    if w.live && w.lhandler.isNone && w.hart.priv == .s && decide (offset.toNat % 12 = 0) then
      s.runLaneHandler wave (offset.toNat % 2 ^ 48)
    else s) s

/-! ## Safe points (R116, R405) -/

/-- A `safe` that stops its strand now: a request stands, the table names it, no kick is outstanding. -/
def State.scalarHonoured (s : State) (h : HartId) (pc : Dword) : Bool :=
  let r := s.hart h
  match r.crew with
  | some ref =>
    match s.crewOf ref with
    | some crew => HartKind.isStrand h && r.bound && crew.preempt && r.handler.isNone && r.handlerQueue.isEmpty &&
        (r.kicks.all fun e => e.2.outstanding == 0) &&
        match s.launches.find crew.launch with
        | some l => match sectionAt l.img.strandCode pc.toNat with
          | some (sec, off) => s.safeEntry crew sec.role off false
          | none => false
        | none => false
    | none => false
  | none => false

/-- safe (R116): no effect, but for a strand that the scheduler stops there. -/
def execScalarSafe (s : State) : Host.Outcome State Fault Refusal :=
  scalar (handlerRule false 0) (fun h => do
    kindM (notEngine h) .scalarSafe
    let s ← get
    if s.scalarHonoured h ((s.hart h).pc - 4) then parkFor .safe) s

/-! ## Requests and kills -/

/-- PREEMPT_REQUEST: a write of the cluster's PREEMPT register (R404). -/
def execPreemptRequest (cluster : Nat) (v : Dword) (s : State) : Host.Outcome State Fault Refusal :=
  event (fun s => s.writePreempt (cluster % 128) v) s

/-- PREEMPT_DEADLINE: the save has not been done 420,000 clk after the request: the crew is killed, STATE 2 (R406). -/
def execPreemptDeadline (cluster : Nat) (s : State) : Host.Outcome State Fault Refusal :=
  event (fun s =>
    let c := s.cluster cluster
    if c.preReq && decide (c.preClk + 420000 ≤ s.clk) then
      let s := match s.crewAt (cluster * 8 + c.preSlot) with
        | some (ref, _) => s.killCrew ref 21 0 0
        | none => s
      let s := s.setCluster cluster { s.cluster cluster with preReq := false }
      s.writeSaveState c.preSave 2
    else s) s

/-- CREW_KILL: a crew is killed with one of the causes that kill a crew, MATRIX_KILLED 20 or PREEMPT_DEADLINE 21 (R410). -/
def execCrewKill (crew code : Nat) (s : State) : Host.Outcome State Fault Refusal :=
  event (fun s =>
    match s.crewAt crew with
    | some (ref, _) => if code = 20 ∨ code = 21 then s.killCrew ref code 0 0 else s
    | none => s) s

/-! ## Moving storage -/

/-- `len` bytes with their poison moved to another range of keys, whose old content goes. -/
def State.moveRange (s : State) (src dst len : Nat) : State :=
  let cells := s.mem.filter fun c => decide (src ≤ c.1 ∧ c.1 < src + len)
  let words := s.poison.filter fun w => decide (src ≤ 8 * w ∧ 8 * w < src + len)
  let s := s.zero dst (dst + len)
  { s with
    mem := cells.foldl (fun m c => Memory.set m (c.1 - src + dst) c.2) s.mem
    poison := words.foldl (fun p w => insertNat p (w - src / 8 + dst / 8)) s.poison }

/-- Ranges of keys written one after the other from `dst` on. -/
def State.packRanges (s : State) (l : List (Nat × Nat)) (dst : Nat) : State :=
  match l with
  | [] => s
  | (k, n) :: t => (s.moveRange k dst n).packRanges t (dst + n)

/-- Consecutive bytes from `src` on, ranges of the lengths `ns`, put into ranges of keys. -/
def State.unpackRanges (s : State) (l : List (Nat × Nat)) (ns : List Nat) (src : Nat) : State :=
  match l, ns with
  | (k, n) :: t, m :: ms => (s.moveRange src k (min n m)).unpackRanges t ms (src + m)
  | _, _ => s

/-- The storage of a crew that section 6 of its save area holds, in order: pool scratch, accumulators, shares of the
cores (R407). -/
def State.crewRanges (s : State) (cluster slot : Nat) (c : Crew) : List (Nat × Nat) :=
  (c.scrUnits.map fun u => (poolKey (cluster * 8 + c.engine) (u * 16384), 16384)) ++
    (c.accUnits.map fun u => (poolKey (cluster * 8 + c.engine) (u * 16384), 16384)) ++
    (List.range 64).map fun k =>
      let scr := (s.core (cluster * 64 + k)).scr
      (sramKey (cluster * 64 + k) (slot * scr * 1024), scr * 1024)

/-- `n` free bytes. -/
def State.freeBytes (s : State) (n : Nat) : List Byte × State :=
  (((List.range ((n + 7) / 8)).flatMap fun i => leBytes 8 (Config.freeDword (s.free + i)).toNat).take n,
    { s with free := s.free + (n + 7) / 8 })

/-- Free bytes written at a physical address: content whose layout the spec does not give. -/
def State.pokeFree (s : State) (pa n : Nat) : State :=
  let (bs, s) := s.freeBytes n
  s.poke pa bs

/-! ## The save area (R407, R408) -/

/-- A group entry of a wave block. -/
def groupEntry (g : Option Group) : List Byte :=
  match g with
  | some g => leBytes 8 g.mask.toNat ++ leBytes 4 g.pc ++ leBytes 2 g.token ++ leBytes 2 1
  | none => List.replicate 16 0

/-- The Accord state of a lane: reservoir, then draw state (R220). -/
def Accord.bytes (a : Accord) : List Byte :=
  leBytes 4 a.smp.toNat ++ leBytes 4 a.ph.toNat ++ leBytes 4 a.ws.toNat ++ leBytes 2 a.m.toNat ++
    leBytes 2 (if a.fin then 1 else 0) ++ leBytes 8 a.key.toNat ++ leBytes 8 a.ctr.toNat

/-- A wave's part of a barrier in 16 bytes. -/
def BarWave.bytes (b : BarWave) : List Byte :=
  leBytes 8 b.arrived.toNat ++ leBytes 1 b.ticket.toNat ++ leBytes 1 (if b.held then 1 else 0) ++ List.replicate 6 0

/-- The registers of a hart as a strand block's first 512 bytes. -/
def Hart.block (h : Hart) : List Byte := blockBytes (fun i => h.x[i]!) h.fcsr fun i => h.f[i]!

/-- A wave block from offset 0x180 of its control state on: reserved bytes, uniform hart, lfm, predicates, Accord,
barriers, the map of names and their registers. -/
def Wave.blockRest (w : Wave) : List Byte :=
  List.replicate 128 0 ++ w.hart.block ++ w.lfm.toList ++ ((w.p.toList.drop 1).flatMap fun p => leBytes 8 p.toNat) ++
    (w.accord.toList.flatMap Accord.bytes) ++ ((List.range 16).flatMap fun b => (w.bars.getD b {}).bytes) ++
    leBytes 32 ((w.v.map fun e => 2 ^ e.1).sum) ++ w.v.flatMap fun e => e.2.toList.flatMap fun x => leBytes 4 x.toNat

/-- A wave block up to its records: rank, dwstat, held wait, group entries. -/
def Wave.blockHead (w : Wave) : List Byte :=
  [BitVec.ofNat 8 w.rank] ++ List.replicate 7 0 ++ leBytes 8 w.dwstat.toNat ++
    leBytes 4 (if w.waitHeld.isSome then 1 else 0) ++ leBytes 4 (w.waitHeld.getD 0) ++ List.replicate 8 0 ++
    groupEntry w.pri ++ groupEntry w.sec ++ (List.range 4).flatMap fun i => groupEntry w.frags[i]?

def Wave.blockSize (w : Wave) : Nat := 3480 + 256 * w.v.length

/-- Wave blocks one after the other; the layout of a record is not given. -/
def State.writeWaves (s : State) (pa : Nat) (l : List Wave) : State :=
  match l with
  | [] => s
  | w :: t => (((s.poke pa w.blockHead).pokeFree (pa + 0x80) 256).poke (pa + 0x180) w.blockRest).writeWaves (pa + w.blockSize) t

/-- Strand blocks: the migration-block layout, then 512 bytes whose layout is not given. -/
def State.writeStrands (s : State) (pa : Nat) (l : List Hart) : State :=
  match l with
  | [] => s
  | h :: t => ((s.poke pa h.block).pokeFree (pa + 512) 512).writeStrands (pa + 1024) t

/-- Offsets of sections of the given sizes, each 256-byte aligned, and the end of the last. -/
def sectionOffs (off : Nat) (l : List Nat) : List Nat :=
  match l with
  | [] => [off]
  | n :: t => (off + 255) / 256 * 256 :: sectionOffs ((off + 255) / 256 * 256 + n) t

/-- Where section 6 begins, and the lengths of its ranges, are what a resume needs of a save area. -/
def scratchOff (area : Nat) (s : State) : Nat := natOfBytes (s.peek (area + 0x48) 8)

/-- The save area of a crew (R407), with STATE still as software left it. -/
def State.writeArea (s : State) (area : Nat) (x : SavedCrew) : State :=
  let c := x.crew
  let l := s.launches.find c.launch
  let waves := x.waves.map (·.2)
  let strands := x.strands.map (·.2)
  let conts := x.conts.map (·.c) ++ x.gathers.flatMap fun g => g.arrivals.map (·.c)
  let ranges := s.crewRanges x.ref.cluster x.ref.slot c
  let (k7, s) := s.drawNat 65536
  let (k8, s) := s.drawNat 65536
  let macs := ((x.matrix.map MatCrew.window).getD []).length
  let sizes := [8704, 64, (waves.map Wave.blockSize).sum, 1024 * strands.length, 32 * conts.length, (ranges.map (·.2)).sum,
    256 * k7 + 32768 * macs, 256 * k8]
  let offs := sectionOffs 0x140 sizes
  let total := offs.getD 8 0
  let at' (i : Nat) : Nat := area + offs.getD i 0
  let kills := Map.getD ((l.map (·.kills)).getD []) c.linear 0
  let s := s.homeRange area total
  let s := s.poke (area + 4) (leBytes 2 (c.home + 128 * c.homeSlot) ++ leBytes 1 kills ++ [0] ++ leBytes 8 total ++
    leBytes 4 waves.length ++ leBytes 4 strands.length ++ leBytes 4 conts.length)
  let s := s.pokeFree (area + 0x1C) 4
  let s := s.poke (area + 0x20) ((offs.take 8).flatMap (leBytes 8) ++ List.replicate 32 0 ++
    ((List.range 64).map fun i => c.store.getD i 0) ++ (l.map (·.bytes)).getD [])
  let s := s.poke (at' 0) ((List.range 256).flatMap fun i => leBytes 2 (x.sems.getD i {}).count)
  let s := s.pokeFree (at' 0 + 512) 8192
  let s := s.pokeFree (at' 1) 64
  let s := (s.writeWaves (at' 2) waves).writeStrands (at' 3) strands
  let s := s.poke (at' 4) (conts.flatMap Cont.bytes)
  let s := s.packRanges ranges (at' 5)
  (s.pokeFree (at' 6) (256 * k7 + 32768 * macs)).pokeFree (at' 7) (256 * k8)

/-! ## CREW_SAVE (R405) -/

/-- The crew's waves that live, with their ranks. -/
def State.liveWaves (s : State) (ref : CrewRef) (c : Crew) : List (Nat × Wave) :=
  (c.waveSlots.zipIdx.map fun e => (e.2, s.wave (ref.cluster * 128 + c.engine * 16 + e.1))).filter fun e => e.2.live

/-- The crew's strands that are not idle, with their ranks. -/
def State.liveStrands (s : State) (c : Crew) : List (Nat × Hart) :=
  (c.ctxs.zipIdx.map fun e => (e.2, s.hart (.strand e.1))).filter fun e => e.2.run != .idle

/-- The wave has stopped: at an honoured safe point, or trapped, with nothing of it under way. -/
def Wave.stoppedToSave (w : Wave) : Bool := w.saved || (w.trap.act && w.accesses.isEmpty && w.signals.isEmpty && w.sfx.isEmpty)

/-- The strand has stopped: parked, without a wake-up, a kick or a handler. -/
def Hart.stoppedToSave (h : Hart) : Bool :=
  h.granted.isNone && h.handler.isNone && h.handlerQueue.isEmpty && (h.kicks.all fun e => e.2.outstanding == 0) &&
    match h.run with
    | .parked _ | .stopped => true
    | _ => false

/-- Every unit of the crew has stopped: no kick of it in an engine, no continuation on its way to a gather. -/
def State.crewStopped (s : State) (ref : CrewRef) (c : Crew) : Bool :=
  ((s.liveWaves ref c).all fun e => e.2.stoppedToSave) && ((s.liveStrands c).all fun e => e.2.stoppedToSave) &&
    (s.engines.all fun e => e.2.crew != some ref && e.2.queue.all fun k => k.crew != some ref) &&
    ((s.cluster ref.cluster).matrix.cmds.all fun x => x.crew != ref) &&
    !(s.clusters.any fun e => e.2.atomiser.any fun q => q.ofCrew ref)

/-- The crew as its save area restores it. -/
def State.snapshot (s : State) (ref : CrewRef) (c : Crew) : SavedCrew :=
  let k := s.cluster ref.cluster
  let mat := k.matrix.slots.find ref.slot
  let macs := (mat.map MatCrew.window).getD []
  { ref := ref
    crew := c
    waves := s.liveWaves ref c
    strands := s.liveStrands c
    sems := (k.sems.filter fun e => e.1 / 256 == c.window).map fun e => (e.1 % 256, { count := e.2.count })
    conts := k.conts.flatMap fun e => e.2.filter fun q => q.ofCrew ref
    gathers := k.gathers.filter fun g => g.crew == ref
    matrix := mat
    banks := k.matrix.banks.filter fun e => macs.contains (e.1 / 2)
    bankBytes := macs.flatMap fun m =>
      (s.mem.filter fun x => decide (bankKey ref.cluster m 0 0 ≤ x.1 ∧ x.1 < bankKey ref.cluster m 2 0)).map fun x =>
        (x.1 - bankKey ref.cluster 0 0 0, x.2)
    sillage := k.sillage.find ref.slot
    bloom := k.bloom.filter fun e => e.2.crew == ref }

/-- A hart that leaves its context is no longer answered by an invalidation. -/
def State.forgetInvals (s : State) (ref : CrewRef) : State :=
  { s with invals := s.invals.map fun e => match e.2.hart with
      | some h => if (s.hart h).ofCrew ref then (e.1, { e.2 with hart := none }) else e
      | none => e }

/-- CREW_SAVE: once every unit of the crew has stopped, the crew is saved and released, STATE 1 written, REQ cleared. -/
def execCrewSave (crew : Nat) (s : State) : Host.Outcome State Fault Refusal :=
  event (fun s =>
    match s.crewAt crew with
    | some (ref, c) =>
      let k := s.cluster ref.cluster
      if !(c.preempt && k.preReq && k.preSlot == ref.slot && s.crewStopped ref c) then s else
      let x := s.snapshot ref c
      let s := s.writeArea k.preSave x
      let s := ((s.forgetInvals ref).stopCrew ref c).releaseCrew ref
      let s : State := { s with saved := s.saved.put k.preSave x }
      let s := s.setCluster ref.cluster { s.cluster ref.cluster with preReq := false }
      s.writeSaveState k.preSave 1
    | none => s) s

/-! ## RESUME (R409) -/

/-- RESUME: a write of the address of a save area. The crew's request joins the admission queue that PLACE 0 chooses; while
that queue is full, the write waits. What is no saved crew is refused and logged. -/
def execResume (v : Dword) (s : State) : Host.Outcome State Fault Refusal :=
  event (fun s =>
    let area := v.toNat
    let done : State := { s with resumes := s.resumes.erase v }
    let queued := s.clusters.any fun e => e.2.adm.any fun q => q.2.any fun r => r.save == some area
    let refused := done.logError 2 0 11 255 0 area 0 0 0xFFFFFFFF
    if v &&& ~~~0xFFFFFFFFFF00#64 ≠ 0 ∨ queued ∨ natOfBytes (s.peek area 4) ≠ 1 then refused else
    match s.saved.find area with
    | some x =>
      match s.launches.find x.crew.launch with
      | some l =>
        let c := s.placeCrew { l with place := false }
        if s.admRoom c l.cls then
          done.pushReq c l.cls { launch := x.crew.launch, linear := x.crew.linear, since := s.clk, save := some area }
        else if s.resumes.contains v then s else { s with resumes := s.resumes ++ [v] }
      | none => refused
    | none => refused) s

/-- The reference a crew has after the resume, in place of the saved one. -/
def renameRef (old new r : CrewRef) : CrewRef := if r = old then new else r

/-- A continuation of the crew with its new reference. -/
def QCont.renamed (q : QCont) (old new : CrewRef) (dcrew : Dword) : QCont :=
  if q.c.ref = old then { q with
    c := q.c.stamp new
    dcrew := if q.c.bound then dcrew else q.dcrew }
  else q

/-- The place of the unit of the same rank in the resumed crew. -/
def newWave (x : SavedCrew) (cluster : Nat) (c : Crew) (k : Nat) : Nat :=
  match x.crew.waveSlots.findIdx? (· == k % 16) with
  | some r => cluster * 128 + c.engine * 16 + c.waveSlots.getD r 0
  | none => k

def newHart (x : SavedCrew) (cluster : Nat) (c : Crew) (h : HartId) : HartId :=
  match h with
  | .strand k =>
    match x.crew.ctxs.findIdx? (· == k) with
    | some r => .strand (c.ctxs.getD r k)
    | none => h
  | .uniform k => if k / 128 = x.ref.cluster ∧ k % 128 / 16 = x.crew.engine then HartId.uniform (newWave x cluster c k) else h
  | .engine _ => h

/-- The saved hart in the context `cur`, whose own supervisor registers stay. -/
def Hart.resumed (h cur : Hart) (ref : CrewRef) (dcrew : Dword) : Hart :=
  { h with
    stvec := cur.stvec
    sscratch := cur.sscratch
    sie := cur.sie
    ssip := cur.ssip
    scounteren := cur.scounteren
    dptb := cur.dptb
    instret := cur.instret
    deps := cur.deps
    resv := none
    granted := none
    handlerQueue := cur.handlerQueue
    crew := some ref
    dcrew := dcrew
    run := if h.run == .parked .safe then .running else h.run }

def Group.again (g : Group) : Group := { g with waiting := false }

/-- The saved wave in the slot that holds `cur`. -/
def Wave.resumed (w cur : Wave) (ref : CrewRef) (dcrew : Dword) (clk : Nat) : Wave :=
  { w with
    hart := w.hart.resumed cur.hart ref dcrew
    age := clk
    pri := w.pri.map Group.again
    sec := w.sec.map Group.again
    frags := w.frags.map fun g => { g.again with since := clk }
    lhandler := w.lhandler.map fun h => { h with group := h.group.again }
    trap := { w.trap with lvec := cur.trap.lvec }
    saved := false }

def State.resumeWaves (s : State) (cluster : Nat) (c : Crew) (ref : CrewRef) (dcrew : Dword) (l : List (Nat × Wave)) : State :=
  match l with
  | [] => s
  | (r, w) :: t =>
    let k := cluster * 128 + c.engine * 16 + c.waveSlots.getD r 0
    (s.setWave k (w.resumed (s.wave k) ref dcrew s.clk)).resumeWaves cluster c ref dcrew t

def State.resumeStrands (s : State) (c : Crew) (ref : CrewRef) (dcrew : Dword) (l : List (Nat × Hart)) : State :=
  match l with
  | [] => s
  | (r, h) :: t =>
    let k := c.ctxs.getD r 0
    (s.setHart (.strand k) (h.resumed (s.hart (.strand k)) ref dcrew)).resumeStrands c ref dcrew t

/-- The matrix configuration with the waves at the latch by their new numbers. -/
def MatCrew.renamed (m : MatCrew) (f : Nat → Nat) : MatCrew :=
  { m with
    arrivals := m.arrivals.map fun a => { a with wave := f a.wave }
    verdicts := m.verdicts.map fun a => { a with wave := f a.wave } }

/-- A bank of the crew with its new reference. -/
def BloomBank.renamed (b : BloomBank) (ref : CrewRef) (dcrew : Dword) : BloomBank :=
  { b with
    crew := ref
    dcrew := dcrew }

/-- References to the crew elsewhere: waiting continuations of futures, records of graphics nodes. -/
def State.renameCrew (s : State) (old new : CrewRef) (dcrew : Dword) : State :=
  let fut (w : FutWaiter) : FutWaiter := match w with
    | .hart h => .hart h
    | .cont c pa launch crew cluster d ptb g =>
      .cont (if c.ref = old then c.stamp new else c) pa launch (crew.map (renameRef old new))
        (if crew = some old then new.cluster else cluster) (if crew = some old then dcrew else d) ptb g
  { s with
    futures := s.futures.map fun e => (e.1, { e.2 with waiters := e.2.waiters.map fut })
    nodes := s.nodes.map fun e => (e.1, { e.2 with recs := e.2.recs.map fun r =>
      (r.1, if r.2.crew = some old then { r.2 with crew := some new, dcrew := dcrew } else r.2) }) }

/-- The crew record and units of a resumed crew: new slot, window and units; its position, barriers, blocks, stacks and
home as saved. -/
def SavedCrew.crewIn (x : SavedCrew) (l : Launch) (gen c : Nat) (r : CrewReq) (f : Fit) : Crew :=
  let y := l.crew r.launch gen c r f
  { x.crew with
    gen := gen
    window := y.window
    engine := y.engine
    waveSlots := y.waveSlots
    ctxs := y.ctxs
    regUnits := y.regUnits
    scrUnits := y.scrUnits
    accUnits := y.accUnits
    blockWait := []
    blockGrant := []
    preempt := false
    deferred := x.crew.deferred.map fun e => (e.1, { e.2 with
      sender := e.2.sender.map (newHart x c y)
      wave := e.2.wave.map fun k => if k / 128 = x.ref.cluster ∧ k % 128 / 16 = x.crew.engine then newWave x c y k else k }) }

/-- A saved crew restored with the units of a fit, without zeroing (R409). -/
def State.restore (s : State) (c : Nat) (r : CrewReq) (l : Launch) (f : Fit) (area : Nat) (x : SavedCrew) : State :=
  let gen := ((s.cluster c).gens.getD f.slot 0 + 1) % 256
  let ref : CrewRef := { cluster := c, slot := f.slot, gen := gen }
  let y := x.crewIn l gen c r f
  let y := { y with store := s.shapeStore l c f.slot y }
  let dcrew := y.dcrew f.slot
  let lens := (s.crewRanges x.ref.cluster x.ref.slot x.crew).map (·.2)
  let s := s.setCluster c { s.cluster c with gens := (s.cluster c).gens.put f.slot gen }
  let s := (s.clearWindow c f.window).setCrew c f.slot y
  let s := s.unpackRanges (s.crewRanges c f.slot y) lens (area + scratchOff area s)
  let s := (s.resumeWaves c y ref dcrew x.waves).resumeStrands y ref dcrew x.strands
  let s := (s.renameCrew x.ref ref dcrew).setCluster c
    { s.cluster c with sems := x.sems.foldl (fun m (e : Nat × Sem) => Map.put m (f.window * 256 + e.1) e.2) (s.cluster c).sems }
  let s := x.conts.foldl (fun (s : State) q => s.pushCont c (q.renamed x.ref ref dcrew)) s
  let k := s.cluster c
  let s := s.setCluster c { k with
    gathers := k.gathers ++ x.gathers.map fun g => { g with
      crew := ref
      arrivals := g.arrivals.map fun q => q.renamed x.ref ref dcrew }
    sillage := (x.sillage.map fun v => k.sillage.put f.slot v).getD k.sillage
    bloom := x.bloom.foldl (fun m (e : Nat × BloomBank) => if (Map.find m e.1).isSome then m else Map.put m e.1 (e.2.renamed ref dcrew)) k.bloom }
  let s := match x.matrix with
    | some m => (s.zeroBanks c m.window).modMatrix c fun a => { a with
        slots := a.slots.put f.slot (m.renamed (newWave x c y))
        banks := x.banks.foldl (fun b (e : Nat × MacroBank) => Map.put b e.1 e.2) a.banks }
    | none => s
  { s with
    mem := x.bankBytes.foldl (fun m e => Memory.set m (e.1 + bankKey c 0 0 0) e.2) s.mem
    saved := s.saved.del area }

/-! ## CREW_ADMIT (R239, R240) -/

/-- A shape record of the launch's kernel is poisoned: the crew record cannot be built (R413). -/
def State.shapesPoisoned (s : State) (l : Launch) : Bool := l.shapes.any fun e => s.poisoned e.2 64

/-- CREW_ADMIT: the head of an admission queue is admitted when it fits and no head of a lower class does. -/
def execCrewAdmit (cluster cls : Nat) (s : State) : Host.Outcome State Fault Refusal :=
  event (fun s =>
    if (List.range cls).any fun k => (s.admissible cluster k).isSome then s else
    match s.admissible cluster cls with
    | some (r, l, f) =>
      let t := s.popReq cluster cls
      if t.shapesPoisoned l then t.endLaunch r.launch 22 0 255 cluster else
      match r.save with
      | none => t.admitCrew cluster r l f
      | some area =>
        match t.saved.find area with
        | some x => t.restore cluster r l f area x
        | none => t
    | none => s) s

end Sys2Proof.Machine
end

