-- ==== Sys2Proof/Machine/Registers.lean ====
section
/-! DEFINITION. Writes of registers as events of their own (R7, R230, R244, R254, R427) and core reset (R32). -/

namespace Sys2Proof.Machine

/-- WQ_DOORBELL: WQTAIL of a queue is written (R230). -/
def execWqDoorbell (q : Nat) (v : Dword) (s : State) : Host.Outcome State Fault Refusal :=
  event (fun s => if q < 4096 then s.writeTail q v else s) s

/-- DOORBELL: DBELL is written (R427). -/
def execDoorbell (v : Dword) (s : State) : Host.Outcome State Fault Refusal := event (fun s => s.ringDoorbell v) s

/-- HOST_INTERRUPT: HIRQ is written (R427). -/
def execHostInterrupt (v : Dword) (s : State) : Host.Outcome State Fault Refusal := event (fun s => s.writeHirq v) s

/-- WECTL_WRITE: WECTL of a wave engine is written (R244). -/
def execWectlWrite (engine : Nat) (v : Dword) (s : State) : Host.Outcome State Fault Refusal :=
  event (fun s => s.writeWectl (engine % 1024) v) s

/-- DLSPLIT_WRITE: dlsplit is written from a context (R254). -/
def execDlsplitWrite (h : HartId) (v : Dword) (s : State) : Host.Outcome State Fault Refusal :=
  event (fun s => s.writeDlsplit h v) s

/-- DLGROUP_WRITE: dlgroup is written from a context (R253, R254). -/
def execDlgroupWrite (h : HartId) (v : Dword) (s : State) : Host.Outcome State Fault Refusal :=
  event (fun s => s.writeDlgroup h v) s

/-- A write of a CSR by its access codes: one that is absent, read-only or refused by its engine changes nothing. -/
def State.putCsr (s : State) (h : HartId) (a : Nat) (v : Dword) : State :=
  if (csrLevel h a).isNone || a / 0x400 == 3 then s else
  match h with
  | .engine k => match engineCsrGuard k a v s with
    | .ok _ t => t.writeCsr h a v
    | .error _ _ => s
  | _ => s.writeCsr h a v

/-- REGISTER_WRITE: a CSR or device register is written by its access codes (R7, R8). -/
def execRegisterWrite (t : RegTarget) (v : Dword) (s : State) : Host.Outcome State Fault Refusal :=
  event (fun s => match t with
    | .device pa => if paKind pa = .device ∧ pa % 8 = 0 then s.writeDevice pa v else s
    | .csr h addr => s.putCsr h addr.toNat v) s

/-- A context after core reset (R32): idle, its CSRs at their reset values; its registers and messages stay. -/
def Hart.coreReset (h : Hart) : Hart :=
  { h.freed with
    priv := .u
    sstatus := 0
    stvec := 0
    sscratch := 0
    sepc := 0
    scause := 0
    stval := 0
    sie := 0
    ssip := false
    scounteren := 0
    fcsr := 0
    dcrew := 0
    dcause := 0
    tn := false
    hm := false
    dptb := 0
    dtimecmp := BitVec.allOnes 64 }

/-- The contexts of a core reset. -/
def State.resetContexts (s : State) (ks : List Nat) : State :=
  match ks with
  | [] => s
  | k :: t =>
    let s := (s.abandon (.strand k)).setHart (.strand k) (s.hart (.strand k)).coreReset
    s.resetContexts t

/-- CORE_RESET: every context of a core idle, the CSRs at reset, `cycle` from 0 (R12, R32). -/
def execCoreReset (core : Nat) (s : State) : Host.Outcome State Fault Refusal :=
  event (fun s =>
    let c := core % 8192
    let s := s.resetContexts ((List.range 8).map fun i => c * 8 + i)
    s.setCore c { s.core c with
      scr := 8
      dlgroup := none
      since := s.clk }) s

end Sys2Proof.Machine
end

