-- ==== Sys2Proof/Machine/Sfx.lean ====
section
/-! DEFINITION. The special-function queue: tokens, SFX, SFX.WAIT and the arrival of results (R328, R329). -/

namespace Sys2Proof.Machine

/-! ## Issue (R328) -/

/-- Instructions outstanding in the queue that serves the wave's slot. -/
def State.sfxCount (s : State) (k : Nat) : Nat := ((List.range 4).map fun i => (s.wave (k / 4 * 4 + i)).sfx.length).sum

def execSfx (fn : BitVec 8) (w : LaneWord) (s : State) : Host.Outcome State Fault Refusal :=
  laneInstr (.sfx fn w) w (fun _ => pure ()) (fun c => do
    if c.act = 0 then completed c none
    else do
      let s ← get
      let st := s.wave c.k
      let tok := w.vc.toNat
      if (st.sfx.find tok).isSome || decide (16 ≤ s.sfxCount c.k) then throw .stall
      peakCheck c [w.vd.toNat]
      let op : SfxOp := {
        fn := fn
        ty := w.ty
        vd := w.vd.toNat
        mask := c.act
        src := st.row w.va.toNat }
      modWave c.k fun st =>
        { (st.writeReg w.vd.toNat c.act fun l => st.reg w.vd.toNat l) with sfx := st.sfx.put tok op }
      completed c (some tok)) s

/-- SFX.WAIT: held until no named token is outstanding (R329). -/
def execSfxWait (w : LaneWord) (s : State) : Host.Outcome State Fault Refusal :=
  laneInstr (.sfxWait w) w (fun _ => pure ()) (fun c => do
    let st ← getWave c.k
    let mask := w.va.toNat + 256 * w.vb.toNat
    if st.sfx.any fun e => mask.testBit e.1 then throw .stall
    completed c none) s

/-- SFX_RESULT: the result of a token arrives (R328). -/
def execSfxResult (wave tok : Nat) (s : State) : Host.Outcome State Fault Refusal :=
  event (fun s =>
    match (s.wave wave).sfx.find tok with
    | some op =>
      let w := s.wave wave
      let s := s.setWave wave { (w.applySfx op (op.mask &&& w.lanes)) with sfx := w.sfx.del tok }
      runM (endWave wave) s
    | none => s) s

end Sys2Proof.Machine
end

