-- ==== Sys2Proof/Machine/Dispatch.lean ====
section
/-! DEFINITION. The meaning of every instruction and event: one arm for each constructor of Instr. -/

namespace Sys2Proof.Machine

def exec (i : Instr) (s : State) : Host.Outcome State Fault Refusal :=
  match i with
  | .semWait rd rs1 rs2 => Sys2Proof.Machine.execSemWait rd rs1 rs2 s
  | .semSig rd rs1 rs2 => Sys2Proof.Machine.execSemSig rd rs1 rs2 s
  | .semTry rd rs1 rs2 => Sys2Proof.Machine.execSemTry rd rs1 rs2 s
  | .semRead rd rs1 => Sys2Proof.Machine.execSemRead rd rs1 s
  | .semWaiti rd sem n => Sys2Proof.Machine.execSemWaiti rd sem n s
  | .semSigi rd sem n => Sys2Proof.Machine.execSemSigi rd sem n s
  | .futNew rd => Sys2Proof.Machine.execFutNew rd s
  | .futSet rs1 rs2 => Sys2Proof.Machine.execFutSet rs1 rs2 s
  | .futWait rd rs1 => Sys2Proof.Machine.execFutWait rd rs1 s
  | .futPoll rd rs1 => Sys2Proof.Machine.execFutPoll rd rs1 s
  | .futPoison rs1 => Sys2Proof.Machine.execFutPoison rs1 s
  | .futFree rs1 => Sys2Proof.Machine.execFutFree rs1 s
  | .contSpawn rs1 rs2 => Sys2Proof.Machine.execContSpawn rs1 rs2 s
  | .joinAdd rd rs1 rs2 => Sys2Proof.Machine.execJoinAdd rd rs1 rs2 s
  | .msgSend rs1 rs2 => Sys2Proof.Machine.execMsgSend rs1 rs2 s
  | .msgReply rs1 rs2 => Sys2Proof.Machine.execMsgReply rs1 rs2 s
  | .msgSendh rs1 rs2 => Sys2Proof.Machine.execMsgSendh rs1 rs2 s
  | .msgRecv rd rs1 => Sys2Proof.Machine.execMsgRecv rd rs1 s
  | .mbRead rd mb => Sys2Proof.Machine.execMbRead rd mb s
  | .mbWrite mb rs1 => Sys2Proof.Machine.execMbWrite mb rs1 s
  | .mbSwap rd mb rs1 => Sys2Proof.Machine.execMbSwap rd mb rs1 s
  | .engKick rs1 rs2 scope => Sys2Proof.Machine.execEngKick rs1 rs2 scope s
  | .engRdv rd rs1 => Sys2Proof.Machine.execEngRdv rd rs1 s
  | .cohDecl rd rs1 => Sys2Proof.Machine.execCohDecl rd rs1 s
  | .cohRel rs1 => Sys2Proof.Machine.execCohRel rs1 s
  | .scalarCwb rs1 rs2 => Sys2Proof.Machine.execScalarCwb rs1 rs2 s
  | .scalarCinv rs1 rs2 => Sys2Proof.Machine.execScalarCinv rs1 rs2 s
  | .scalarCflush rs1 rs2 => Sys2Proof.Machine.execScalarCflush rs1 rs2 s
  | .hotRead rd rs1 => Sys2Proof.Machine.execHotRead rd rs1 s
  | .hotClr rs1 => Sys2Proof.Machine.execHotClr rs1 s
  | .fenceS scope sem => Sys2Proof.Machine.execFenceS scope sem s
  | .scalarStq rs1 rs2 => Sys2Proof.Machine.execScalarStq rs1 rs2 s
  | .tlbInv rs1 rs2 => Sys2Proof.Machine.execTlbInv rs1 rs2 s
  | .amoAdd a => Sys2Proof.Machine.execAmoAdd a s
  | .amoSwap a => Sys2Proof.Machine.execAmoSwap a s
  | .amoAnd a => Sys2Proof.Machine.execAmoAnd a s
  | .amoOr a => Sys2Proof.Machine.execAmoOr a s
  | .amoXor a => Sys2Proof.Machine.execAmoXor a s
  | .amoMax a => Sys2Proof.Machine.execAmoMax a s
  | .amoFadd a => Sys2Proof.Machine.execAmoFadd a s
  | .amoCas a => Sys2Proof.Machine.execAmoCas a s
  | .standardLoadStore op => Sys2Proof.Machine.execStandardLoadStore op s
  | .lr d aq rl rd rs1 => Sys2Proof.Machine.execLr d aq rl rd rs1 s
  | .sc d aq rl rd rs1 rs2 => Sys2Proof.Machine.execSc d aq rl rd rs1 rs2 s
  | .standardAmo op d aq rl rd rs1 rs2 => Sys2Proof.Machine.execStandardAmo op d aq rl rd rs1 rs2 s
  | .fenceRv fm pred succ rd rs1 => Sys2Proof.Machine.execFenceRv fm pred succ rd rs1 s
  | .fenceI imm rd rs1 => Sys2Proof.Machine.execFenceI imm rd rs1 s
  | .sfenceVma rs1 rs2 => Sys2Proof.Machine.execSfenceVma rs1 rs2 s
  | .laneAdd w => Sys2Proof.Machine.execLaneAdd w s
  | .laneSub w => Sys2Proof.Machine.execLaneSub w s
  | .laneMul w => Sys2Proof.Machine.execLaneMul w s
  | .mulhi w => Sys2Proof.Machine.execMulhi w s
  | .laneMin w => Sys2Proof.Machine.execLaneMin w s
  | .laneMax w => Sys2Proof.Machine.execLaneMax w s
  | .laneAbs w => Sys2Proof.Machine.execLaneAbs w s
  | .laneNeg w => Sys2Proof.Machine.execLaneNeg w s
  | .addLi w => Sys2Proof.Machine.execAddLi w s
  | .subLi w => Sys2Proof.Machine.execSubLi w s
  | .mulLi w => Sys2Proof.Machine.execMulLi w s
  | .mulhiLi w => Sys2Proof.Machine.execMulhiLi w s
  | .minLi w => Sys2Proof.Machine.execMinLi w s
  | .maxLi w => Sys2Proof.Machine.execMaxLi w s
  | .imad w => Sys2Proof.Machine.execImad w s
  | .laneAnd w => Sys2Proof.Machine.execLaneAnd w s
  | .laneOr w => Sys2Proof.Machine.execLaneOr w s
  | .laneXor w => Sys2Proof.Machine.execLaneXor w s
  | .laneNot w => Sys2Proof.Machine.execLaneNot w s
  | .andn w => Sys2Proof.Machine.execAndn w s
  | .andLi w => Sys2Proof.Machine.execAndLi w s
  | .orLi w => Sys2Proof.Machine.execOrLi w s
  | .xorLi w => Sys2Proof.Machine.execXorLi w s
  | .andnLi w => Sys2Proof.Machine.execAndnLi w s
  | .shl w => Sys2Proof.Machine.execShl w s
  | .shr w => Sys2Proof.Machine.execShr w s
  | .sha w => Sys2Proof.Machine.execSha w s
  | .rol w => Sys2Proof.Machine.execRol w s
  | .ror w => Sys2Proof.Machine.execRor w s
  | .shlLi w => Sys2Proof.Machine.execShlLi w s
  | .shrLi w => Sys2Proof.Machine.execShrLi w s
  | .shaLi w => Sys2Proof.Machine.execShaLi w s
  | .rolLi w => Sys2Proof.Machine.execRolLi w s
  | .rorLi w => Sys2Proof.Machine.execRorLi w s
  | .popc w => Sys2Proof.Machine.execPopc w s
  | .clz w => Sys2Proof.Machine.execClz w s
  | .ctz w => Sys2Proof.Machine.execCtz w s
  | .brev w => Sys2Proof.Machine.execBrev w s
  | .bfx w => Sys2Proof.Machine.execBfx w s
  | .bfi w => Sys2Proof.Machine.execBfi w s
  | .fadd w => Sys2Proof.Machine.execFadd w s
  | .fsub w => Sys2Proof.Machine.execFsub w s
  | .fmul w => Sys2Proof.Machine.execFmul w s
  | .fmin w => Sys2Proof.Machine.execFmin w s
  | .fmax w => Sys2Proof.Machine.execFmax w s
  | .fabs w => Sys2Proof.Machine.execFabs w s
  | .fneg w => Sys2Proof.Machine.execFneg w s
  | .faddLi w => Sys2Proof.Machine.execFaddLi w s
  | .fsubLi w => Sys2Proof.Machine.execFsubLi w s
  | .fmulLi w => Sys2Proof.Machine.execFmulLi w s
  | .fminLi w => Sys2Proof.Machine.execFminLi w s
  | .fmaxLi w => Sys2Proof.Machine.execFmaxLi w s
  | .fma w => Sys2Proof.Machine.execFma w s
  | .fms w => Sys2Proof.Machine.execFms w s
  | .fnma w => Sys2Proof.Machine.execFnma w s
  | .fdiv w => Sys2Proof.Machine.execFdiv w s
  | .fsqrt w => Sys2Proof.Machine.execFsqrt w s
  | .icmp w => Sys2Proof.Machine.execIcmp w s
  | .fcmp w => Sys2Proof.Machine.execFcmp w s
  | .fclass w => Sys2Proof.Machine.execFclass w s
  | .icmpLi w => Sys2Proof.Machine.execIcmpLi w s
  | .fcmpLi w => Sys2Proof.Machine.execFcmpLi w s
  | .sel w => Sys2Proof.Machine.execSel w s
  | .selLi w => Sys2Proof.Machine.execSelLi w s
  | .pand w => Sys2Proof.Machine.execPand w s
  | .por w => Sys2Proof.Machine.execPor w s
  | .pxor w => Sys2Proof.Machine.execPxor w s
  | .pnot w => Sys2Proof.Machine.execPnot w s
  | .pmov w => Sys2Proof.Machine.execPmov w s
  | .cvt w => Sys2Proof.Machine.execCvt w s
  | .qnt w => Sys2Proof.Machine.execQnt w s
  | .aln w => Sys2Proof.Machine.execAln w s
  | .shflIdx w => Sys2Proof.Machine.execShflIdx w s
  | .shflXor w => Sys2Proof.Machine.execShflXor w s
  | .shflUp w => Sys2Proof.Machine.execShflUp w s
  | .shflDn w => Sys2Proof.Machine.execShflDn w s
  | .bcst w => Sys2Proof.Machine.execBcst w s
  | .voteAny w => Sys2Proof.Machine.execVoteAny w s
  | .voteAll w => Sys2Proof.Machine.execVoteAll w s
  | .voteMask w => Sys2Proof.Machine.execVoteMask w s
  | .reduce w => Sys2Proof.Machine.execReduce w s
  | .scan w => Sys2Proof.Machine.execScan w s
  | .mov w => Sys2Proof.Machine.execMov w s
  | .movu w => Sys2Proof.Machine.execMovu w s
  | .movx w => Sys2Proof.Machine.execMovx w s
  | .movi w => Sys2Proof.Machine.execMovi w s
  | .krd w => Sys2Proof.Machine.execKrd w s
  | .kwr w => Sys2Proof.Machine.execKwr w s
  | .lfmRd w => Sys2Proof.Machine.execLfmRd w s
  | .lfmWr w => Sys2Proof.Machine.execLfmWr w s
  | .sfx fn w => Sys2Proof.Machine.execSfx fn w s
  | .sfxWait w => Sys2Proof.Machine.execSfxWait w s
  | .rsvSeed w => Sys2Proof.Machine.execRsvSeed w s
  | .rsvUpd w => Sys2Proof.Machine.execRsvUpd w s
  | .rsvMrg w => Sys2Proof.Machine.execRsvMrg w s
  | .rsvFin w => Sys2Proof.Machine.execRsvFin w s
  | .rsvGet w => Sys2Proof.Machine.execRsvGet w s
  | .rsvDraw w => Sys2Proof.Machine.execRsvDraw w s
  | .ld w => Sys2Proof.Machine.execLd w s
  | .st w => Sys2Proof.Machine.execSt w s
  | .stn w => Sys2Proof.Machine.execStn w s
  | .atomAdd w => Sys2Proof.Machine.execAtomAdd w s
  | .atomSwap w => Sys2Proof.Machine.execAtomSwap w s
  | .atomAnd w => Sys2Proof.Machine.execAtomAnd w s
  | .atomOr w => Sys2Proof.Machine.execAtomOr w s
  | .atomXor w => Sys2Proof.Machine.execAtomXor w s
  | .atomMax w => Sys2Proof.Machine.execAtomMax w s
  | .atomFadd w => Sys2Proof.Machine.execAtomFadd w s
  | .atomCas w => Sys2Proof.Machine.execAtomCas w s
  | .lds w => Sys2Proof.Machine.execLds w s
  | .sts w => Sys2Proof.Machine.execSts w s
  | .fence w => Sys2Proof.Machine.execFence w s
  | .cwb w => Sys2Proof.Machine.execCwb w s
  | .cinv w => Sys2Proof.Machine.execCinv w s
  | .cflush w => Sys2Proof.Machine.execCflush w s
  | .stq w => Sys2Proof.Machine.execStq w s
  | .pfh w => Sys2Proof.Machine.execPfh w s
  | .texSmp w => Sys2Proof.Machine.execTexSmp w s
  | .texFch w => Sys2Proof.Machine.execTexFch w s
  | .bra w => Sys2Proof.Machine.execBra w s
  | .brx w => Sys2Proof.Machine.execBrx w s
  | .reconv w => Sys2Proof.Machine.execReconv w s
  | .exit w => Sys2Proof.Machine.execExit w s
  | .mig w => Sys2Proof.Machine.execMig w s
  | .barArv w => Sys2Proof.Machine.execBarArv w s
  | .barWait w => Sys2Proof.Machine.execBarWait w s
  | .safe w => Sys2Proof.Machine.execSafe w s
  | .yield w => Sys2Proof.Machine.execYield w s
  | .nop w => Sys2Proof.Machine.execNop w s
  | .spawn w => Sys2Proof.Machine.execSpawn w s
  | .fwait w => Sys2Proof.Machine.execFwait w s
  | .send w => Sys2Proof.Machine.execSend w s
  | .mld w => Sys2Proof.Machine.execMld w s
  | .mmaG w => Sys2Proof.Machine.execMmaG w s
  | .accZero w => Sys2Proof.Machine.execAccZero w s
  | .ringAdv w => Sys2Proof.Machine.execRingAdv w s
  | .ringWait w => Sys2Proof.Machine.execRingWait w s
  | .blmEmit w => Sys2Proof.Machine.execBlmEmit w s
  | .blmRead w => Sys2Proof.Machine.execBlmRead w s
  | .blmAdvance w => Sys2Proof.Machine.execBlmAdvance w s
  | .blmFlush w => Sys2Proof.Machine.execBlmFlush w s
  | .blmClear w => Sys2Proof.Machine.execBlmClear w s
  | .resv w => Sys2Proof.Machine.execResv w s
  | .commit w => Sys2Proof.Machine.execCommit w s
  | .cancel w => Sys2Proof.Machine.execCancel w s
  | .emitV w => Sys2Proof.Machine.execEmitV w s
  | .emitP w => Sys2Proof.Machine.execEmitP w s
  | .standardInstruction op => Sys2Proof.Machine.execStandardInstruction op s
  | .reservedLaneOpcode w => Sys2Proof.Machine.execReservedLaneOpcode w s
  | .messageDepart queue n => Sys2Proof.Machine.execMessageDepart queue n s
  | .messageArrival n => Sys2Proof.Machine.execMessageArrival n s
  | .laneSignalLand waves => Sys2Proof.Machine.execLaneSignalLand waves s
  | .laneMemoryComplete wave n => Sys2Proof.Machine.execLaneMemoryComplete wave n s
  | .sfxResult wave tok => Sys2Proof.Machine.execSfxResult wave tok s
  | .migrationBlockGrant crew => Sys2Proof.Machine.execMigrationBlockGrant crew s
  | .mldStart cluster n => Sys2Proof.Machine.execMldStart cluster n s
  | .mldComplete cluster n => Sys2Proof.Machine.execMldComplete cluster n s
  | .mmaLatch crew => Sys2Proof.Machine.execMmaLatch crew s
  | .mmaStart cluster => Sys2Proof.Machine.execMmaStart cluster s
  | .mmaComplete cluster => Sys2Proof.Machine.execMmaComplete cluster s
  | .launchRecordTake q => Sys2Proof.Machine.execLaunchRecordTake q s
  | .crewAdmit cluster cls => Sys2Proof.Machine.execCrewAdmit cluster cls s
  | .admissionAgeLimit cluster => Sys2Proof.Machine.execAdmissionAgeLimit cluster s
  | .waveStart crew rank => Sys2Proof.Machine.execWaveStart crew rank s
  | .frontEndStrandStart crew rank => Sys2Proof.Machine.execFrontEndStrandStart crew rank s
  | .continuationPop cluster slot => Sys2Proof.Machine.execContinuationPop cluster slot s
  | .atomiserArrival cluster => Sys2Proof.Machine.execAtomiserArrival cluster s
  | .gatherWindowExpiry cluster => Sys2Proof.Machine.execGatherWindowExpiry cluster s
  | .atomiserWaveForm cluster n => Sys2Proof.Machine.execAtomiserWaveForm cluster n s
  | .fragmentAgeLimit wave => Sys2Proof.Machine.execFragmentAgeLimit wave s
  | .gtoAgeingLimit engine => Sys2Proof.Machine.execGtoAgeingLimit engine s
  | .crewEnd crew => Sys2Proof.Machine.execCrewEnd crew s
  | .heldMessageDelivery crew => Sys2Proof.Machine.execHeldMessageDelivery crew s
  | .handlerStart strand => Sys2Proof.Machine.execHandlerStart strand s
  | .stqTarget n => Sys2Proof.Machine.execStqTarget n s
  | .engineKickStart engine => Sys2Proof.Machine.execEngineKickStart engine s
  | .copyMove engine => Sys2Proof.Machine.execCopyMove engine s
  | .copyGather engine => Sys2Proof.Machine.execCopyGather engine s
  | .copyScatter engine => Sys2Proof.Machine.execCopyScatter engine s
  | .copyConvert engine => Sys2Proof.Machine.execCopyConvert engine s
  | .copyDelta engine => Sys2Proof.Machine.execCopyDelta engine s
  | .copyRle engine => Sys2Proof.Machine.execCopyRle engine s
  | .bloomEventArrival n => Sys2Proof.Machine.execBloomEventArrival n s
  | .bloomFanoutJob engine => Sys2Proof.Machine.execBloomFanoutJob engine s
  | .rasterMesh cluster => Sys2Proof.Machine.execRasterMesh cluster s
  | .rasterBlockEmit cluster => Sys2Proof.Machine.execRasterBlockEmit cluster s
  | .blendTicket node block => Sys2Proof.Machine.execBlendTicket node block s
  | .traverseRay cluster => Sys2Proof.Machine.execTraverseRay cluster s
  | .interruptTake h => Sys2Proof.Machine.execInterruptTake h s
  | .timerCompare h => Sys2Proof.Machine.execTimerCompare h s
  | .crewSave crew => Sys2Proof.Machine.execCrewSave crew s
  | .preemptDeadline cluster => Sys2Proof.Machine.execPreemptDeadline cluster s
  | .invalidationReceive inv cluster => Sys2Proof.Machine.execInvalidationReceive inv cluster s
  | .invalidationAck inv cluster => Sys2Proof.Machine.execInvalidationAck inv cluster s
  | .hotnessHalving die => Sys2Proof.Machine.execHotnessHalving die s
  | .quantumFlush n => Sys2Proof.Machine.execQuantumFlush n s
  | .wqDoorbell q v => Sys2Proof.Machine.execWqDoorbell q v s
  | .dmgangWrite cluster v => Sys2Proof.Machine.execDmgangWrite cluster v s
  | .dmringWrite cluster ring v => Sys2Proof.Machine.execDmringWrite cluster ring v s
  | .matrixKilled cluster crew code addr => Sys2Proof.Machine.execMatrixKilled cluster crew code addr s
  | .sillageInstall cluster addr => Sys2Proof.Machine.execSillageInstall cluster addr s
  | .sillageTileRequest cluster addr => Sys2Proof.Machine.execSillageTileRequest cluster addr s
  | .bloomInstall cluster addr => Sys2Proof.Machine.execBloomInstall cluster addr s
  | .bloomUninstall cluster v => Sys2Proof.Machine.execBloomUninstall cluster v s
  | .laneHandlerRun wave offset => Sys2Proof.Machine.execLaneHandlerRun wave offset s
  | .preemptRequest cluster v => Sys2Proof.Machine.execPreemptRequest cluster v s
  | .resume v => Sys2Proof.Machine.execResume v s
  | .crewKill crew code => Sys2Proof.Machine.execCrewKill crew code s
  | .doorbell v => Sys2Proof.Machine.execDoorbell v s
  | .hostInterrupt v => Sys2Proof.Machine.execHostInterrupt v s
  | .wectlWrite engine v => Sys2Proof.Machine.execWectlWrite engine v s
  | .dlsplitWrite h v => Sys2Proof.Machine.execDlsplitWrite h v s
  | .dlgroupWrite h v => Sys2Proof.Machine.execDlgroupWrite h v s
  | .registerWrite t v => Sys2Proof.Machine.execRegisterWrite t v s
  | .pageWalk h va kind => Sys2Proof.Machine.execPageWalk h va kind s
  | .tokenRequest cluster granule write => Sys2Proof.Machine.execTokenRequest cluster granule write s
  | .persistentRequest cluster granule write => Sys2Proof.Machine.execPersistentRequest cluster granule write s
  | .tokenEviction cluster granule => Sys2Proof.Machine.execTokenEviction cluster granule s
  | .homeRecall granule => Sys2Proof.Machine.execHomeRecall granule s
  | .hostSnoop line invalidate => Sys2Proof.Machine.execHostSnoop line invalidate s
  | .hostMemAccess write addr data => Sys2Proof.Machine.execHostMemAccess write addr data s
  | .backInvalidationResponse line => Sys2Proof.Machine.execBackInvalidationResponse line s
  | .flitReplay link seq => Sys2Proof.Machine.execFlitReplay link seq s
  | .linkRetrain pair module ok => Sys2Proof.Machine.execLinkRetrain pair module ok s
  | .halhelFailover link => Sys2Proof.Machine.execHalhelFailover link s
  | .eccCorrected cluster addr => Sys2Proof.Machine.execEccCorrected cluster addr s
  | .eccUncorrected addr => Sys2Proof.Machine.execEccUncorrected addr s
  | .coreReset core => Sys2Proof.Machine.execCoreReset core s
  | .attestation nonce => Sys2Proof.Machine.execAttestation nonce s
  | .governorWindow watts tj => Sys2Proof.Machine.execGovernorWindow watts tj s
  | .thermalTrip tj => Sys2Proof.Machine.execThermalTrip tj s
  | .peerWindowAccess op addr data => Sys2Proof.Machine.execPeerWindowAccess op addr data s
  | .thermalThrottle tj => Sys2Proof.Machine.execThermalThrottle tj s
  | .contExit => Sys2Proof.Machine.execContExit s
  | .migW => Sys2Proof.Machine.execMigW s
  | .scalarYield => Sys2Proof.Machine.execScalarYield s
  | .scalarSafe => Sys2Proof.Machine.execScalarSafe s
  | .ecall => Sys2Proof.Machine.execEcall s
  | .ebreak => Sys2Proof.Machine.execEbreak s
  | .sret => Sys2Proof.Machine.execSret s
  | .wfi => Sys2Proof.Machine.execWfi s
  | .crewExpand => Sys2Proof.Machine.execCrewExpand s
  | .imageLoad => Sys2Proof.Machine.execImageLoad s
  | .imageUnload => Sys2Proof.Machine.execImageUnload s
  | .bringUp => Sys2Proof.Machine.execBringUp s

end Sys2Proof.Machine
end

