-- ==== Sys2Proof/Machine/Schedule.lean ====
section
/-! DEFINITION. Every event that could be due in a state (log 1), of hardware that works on its own. One listed here that is
not due changes nothing. -/

namespace Sys2Proof.Machine

abbrev Out := Host.Outcome State Fault Refusal

/-- `f` on each index of a list. -/
def eachIx {α : Type} (l : List α) (f : Nat → State → Out) : List (State → Out) := (List.range l.length).map f

/-- Events of a wave. -/
def waveEvents (k : Nat) (w : Wave) : List (State → Out) :=
  (w.sfx.map fun e => execSfxResult k e.1) ++ (w.accesses.map fun a => execLaneMemoryComplete k a.n) ++
    (if w.signals.isEmpty then [] else [execLaneSignalLand [k]]) ++ (if w.frags.isEmpty then [] else [execFragmentAgeLimit k])

/-- Events of a resident crew. -/
def State.crewEvents (s : State) (cluster slot : Nat) (c : Crew) : List (State → Out) :=
  let n := cluster * 8 + slot
  let rank := ((s.launches.find c.launch).map fun l => l.nextStart c).getD 0
  (if c.toStart = 0 then [execCrewEnd n] else [execWaveStart n rank, execFrontEndStrandStart n rank]) ++
    (if c.blockWait.isEmpty then [] else [execMigrationBlockGrant n]) ++ (if c.preempt then [execCrewSave n] else []) ++
    (if s.heldMsgs.isEmpty then [] else [execHeldMessageDelivery n]) ++
    (if ((s.cluster cluster).matrix.slots.getD slot {}).arrivals.isEmpty then [] else [execMmaLatch n])

/-- Events of a cluster's matrix engine. -/
def matrixEvents (cluster : Nat) (m : Matrix) : List (State → Out) :=
  (m.cmds.flatMap fun x => [execMldStart cluster x.n, execMldComplete cluster x.n] ++ match x.fault with
    | some (code, addr) => [execMatrixKilled cluster x.crew.slot code addr]
    | none => []) ++ (if m.cmds.isEmpty then [] else [execMmaStart cluster, execMmaComplete cluster])

/-- The units of a cluster that could take a continuation. -/
def popEvents (cluster : Nat) (c : Cluster) : List (State → Out) :=
  if c.conts.all fun q => q.2.isEmpty then [] else
  ((List.range 512).map fun k => execContinuationPop cluster (.context (k / 8) (k % 8))) ++
    (List.range 128).map fun k => execContinuationPop cluster (.waveSlot (k / 16) (k % 16))

/-- Events of a cluster. -/
def State.clusterEvents (s : State) (k : Nat) (c : Cluster) : List (State → Out) :=
  (c.crews.flatMap fun e => s.crewEvents k e.1 e.2) ++ matrixEvents k c.matrix ++ popEvents k c ++
    (if c.adm.all fun q => q.2.isEmpty then [] else ((List.range 4).map fun i => execCrewAdmit k i) ++ [execAdmissionAgeLimit k]) ++
    (if c.atomiser.isEmpty then [] else [execAtomiserArrival k]) ++
    (if c.gathers.isEmpty then [] else execGatherWindowExpiry k :: eachIx c.gathers fun i => execAtomiserWaveForm k i) ++
    (if c.rasterQ.isEmpty then [] else [execRasterMesh k]) ++ (if c.raster.isNone then [] else [execRasterBlockEmit k]) ++
    (if c.traverseQ.isEmpty then [] else [execTraverseRay k]) ++ (if c.preReq then [execPreemptDeadline k] else [])

/-- Events of an engine instance. -/
def engineEvents (k : Nat) (e : Engine) : List (State → Out) :=
  (if e.queue.isEmpty then [] else [execEngineKickStart k]) ++
    (if e.ops.isEmpty then [] else [execCopyMove k, execCopyGather k, execCopyScatter k, execCopyConvert k, execCopyDelta k, execCopyRle k]) ++
    (if e.jobs.isEmpty then [] else [execBloomFanoutJob k])

/-- Departures of a send queue. -/
def departs (q : Nat) (m : Map SendEntry) : List (State → Out) := m.map fun e => execMessageDepart q e.1

/-- Events of an invalidation. -/
def invalEvents (n : Nat) (i : Inval) : List (State → Out) :=
  (List.range 128).flatMap fun c => (if i.toReceive.getLsbD c then [execInvalidationReceive n c] else []) ++
    (if i.toAck.getLsbD c then [execInvalidationAck n c] else [])

/-- Events of the package: front end, networks, coherence, loader, bring-up. -/
def State.packageEvents (s : State) : List (State → Out) :=
  (s.queues.map fun e => execLaunchRecordTake e.1) ++ (if s.launches.isEmpty then [] else [execCrewExpand]) ++
    (s.cores.flatMap fun e => departs e.1 e.2.sendq) ++ (s.wengines.flatMap fun e => departs (8192 + e.1) e.2.sendq) ++
    (s.engines.flatMap fun e => departs (16384 + e.1) e.2.sendq) ++ eachIx s.net execMessageArrival ++ eachIx s.stqs execStqTarget ++
    (s.events.map fun e => execBloomEventArrival e.n) ++
    (s.nodes.flatMap fun e => e.2.tickets.map fun t => execBlendTicket e.1 t.1) ++
    (s.wengines.map fun e => execGtoAgeingLimit e.1) ++ (s.invals.flatMap fun e => invalEvents e.1 e.2) ++
    (if s.hot.isEmpty then [] else (List.range 4).map execHotnessHalving) ++ eachIx s.quantum execQuantumFlush ++
    (s.persistent.map fun p => execPersistentRequest p.cluster p.granule p.write) ++
    (s.snoops.map fun e => execBackInvalidationResponse e.1) ++ (s.resumes.map execResume) ++
    (if s.ldBusy then [execImageLoad, execImageUnload] else []) ++ (if s.up.isNone then [execBringUp] else [])

/-- Every event that could be due. -/
def State.dueEvents (s : State) : List (State → Out) :=
  (s.waves.flatMap fun e => waveEvents e.1 e.2) ++ (s.clusters.flatMap fun e => s.clusterEvents e.1 e.2) ++
    (s.engines.flatMap fun e => engineEvents e.1 e.2) ++ s.packageEvents

end Sys2Proof.Machine
end

