-- ==== Sys2Proof/Machine/Turn.lean ====
section
/-! DEFINITION. One turn of the schedule (log 1): a unit takes its interrupt or handler, or fetches, decodes and executes
its next instruction; clks pass; an event takes place. With no turn placed, the machine chooses among what can happen. -/

namespace Sys2Proof.Machine

/-- The waiting handler message of a strand can start (R402): no handler runs, TN is clear. -/
def State.handlerDue (s : State) (h : HartId) : Option Nat :=
  match h with
  | .strand k =>
    let r := s.hart h
    if !r.handlerQueue.isEmpty && r.handler.isNone && !r.tn && r.run != .stopped then some k else none
  | _ => none

/-- The wave of a uniform hart. -/
def waveNo (h : HartId) : Nat :=
  match h with
  | .uniform k => k
  | _ => 0

/-- The buffer records of the wave are still to be read: before its first instruction, and again after a trap there
(R193). -/
def State.waveBufsDue (s : State) (k : Nat) : Bool := (s.wave k).live && (s.wave k).bufDue && !(s.wave k).trap.act

def State.bufsDue (s : State) (h : HartId) : Bool :=
  match h with
  | .uniform k => s.waveBufsDue k
  | _ => false

/-- A hart's issue turn. -/
def hartTurn (h : HartId) (s : State) : Out :=
  let s : State := { s with actor := some (.hart h) }
  if s.bufsDue h then .next (s.readBufs (waveNo h)) else
  match s.handlerDue h with
  | some k => exec (.handlerStart k) s
  | none =>
    if (s.dueInterrupt h).isSome then exec (.interruptTake h) s
    else if !s.canRun h then .next s
    else
      match fetchScalar h s with
      | .ok w t => exec (decodeScalar w) t
      | .error (.exc e) t => .next (t.takeExc h (s.hart h).pc e)
      | .error _ t => .next t

/-- The issue turn of a slot of a wave. -/
def laneTurn (k : Nat) (secondary : Bool) (s : State) : Out :=
  let s : State := { s with actor := some (.lanes k secondary) }
  let w := s.wave k
  match w.group secondary with
  | none => .next s
  | some g =>
    if !w.lanesIssue then .next s
    else if s.waveBufsDue k then .next (s.readBufs k)
    else
      match fetchLane k g s with
      | .ok b t => exec (decodeLane b) t
      | .error (.exc e) t => .next (t.trapLanes k secondary g e.code (256 * lowLane g.mask + e.detail) e.tval g.mask false)
      | .error _ t => .next t

/-- The result of a turn differs from the state before it, its schedule and actor apart. -/
def changed (s : State) (o : Out) : Bool :=
  match o with
  | .next t => decide ({ t with actor := s.actor, sched := s.sched } ≠ s)
  | _ => true

/-- The first of some turns that changes anything. -/
def firstTurn (s : State) (ts : List (State → Out)) : Out :=
  match ts with
  | [] => .next s
  | t :: rest => if changed s (t s) then t s else firstTurn s rest

/-- A swarm core issues from its next context, round robin (R143). -/
def coreTurn (k : Nat) (s : State) : Out :=
  let rr := (s.core k).rr
  firstTurn s ((List.range 8).map fun i s =>
    let ctx := (rr + 1 + i) % 8
    hartTurn (.strand (k * 8 + ctx)) (s.setCore k { s.core k with rr := ctx }))

/-- A wave's turn at the issue slot: the slot whose turn it is, or the other when that one is not ready (R132, R245). -/
def waveTurn (k : Nat) (s : State) : Out :=
  let first := (s.wave k).turnSec
  let issued (t : State) : Bool := (t.wengine (k / 16)).issued != (s.wengine (k / 16)).issued
  match laneTurn k first s with
  | .next t => if issued t then .next t else laneTurn k (!first) t
  | o => o

/-- Waves try to issue in order until one does. -/
def tryWaves (e : Nat) (s : State) (ks : List Nat) : Out :=
  match ks with
  | [] => .next s
  | k :: rest =>
    match waveTurn k s with
    | .next t => if (t.wengine e).issued != (s.wengine e).issued then .next t else tryWaves e t rest
    | o => o

/-- Insertion by age, the oldest first (R247). -/
def byAge (s : State) (l : List Nat) (k : Nat) : List Nat :=
  match l with
  | [] => [k]
  | j :: t => if (s.wave k).age < (s.wave j).age then k :: j :: t else j :: byAge s t k

/-- The order in which an engine's waves may issue: slot 15 of a class-0 crew first (R249), then by the policy of WECTL
(R247, R248). -/
def issueOrder (e : Nat) (s : State) : List Nat :=
  let g := s.wengine e
  let live := (List.range 16).filter fun i => (s.wave (e * 16 + i)).live
  let cls0 := live.filter fun i => i == 15 &&
    (((s.wave (e * 16 + i)).hart.crew.bind s.crewOf).map (·.cls)) == some 0
  let rest := live.filter fun i => !cls0.contains i
  let pol :=
    if g.roundRobin then ((List.range 16).map fun i => (g.last + 1 + i) % 16).filter rest.contains
    else
      let old := (rest.map (e * 16 + ·)).foldl (byAge s) [] |>.map (· % 16)
      match g.current with
      | some c => if g.switch then old.filter (· != c) ++ (if rest.contains c then [c] else []) else
          (if rest.contains c then [c] else []) ++ old.filter (· != c)
      | none => old
  (cls0 ++ pol).map (e * 16 + ·)

/-- A wave engine issues. -/
def issueTurn (e : Nat) (s : State) : Out := tryWaves e s (issueOrder e s)

/-- One turn. -/
def runTurn (t : Turn) (s : State) : Out :=
  match t with
  | .core k => coreTurn k s
  | .strand k => hartTurn (.strand k) s
  | .uniform k => hartTurn (.uniform k) s
  | .lanes k sec => laneTurn k sec s
  | .issue e => issueTurn e s
  | .engine k => hartTurn (.engine k) s
  | .clk n => .next ({ s with actor := some .event }.tick n)
  | .event i => exec i { s with actor := some .event }

/-- A step that is an event. -/
def asEvent (f : State → Out) (s : State) : Out := f { s with actor := some .event }

/-- Every turn that could be due: units that may issue, and events. -/
def State.candidates (s : State) : List (State → Out) :=
  ((s.strands.map fun e => Turn.core (e.1 / 8)).eraseDups ++ (s.waves.map fun e => Turn.uniform e.1) ++
    (s.waves.map fun e => Turn.issue (e.1 / 16)).eraseDups ++ s.engines.map fun e => Turn.engine e.1).map runTurn ++
    s.dueEvents.map asEvent

/-- The machine's own choice: one of the turns that would change something, or a clk passes (log 1). -/
def arbiter (s : State) : Out :=
  let ready := s.candidates.filter fun t => changed s (t s)
  match ready with
  | [] => runTurn (.clk 1) s
  | _ =>
    let s' : State := { s with free := s.free + 1 }
    match (ready ++ [runTurn (.clk 1)])[Config.freeNat s.free % (ready.length + 1)]? with
    | some t => t s'
    | none => .next s'

/-- One step: the head of the schedule, or the machine's choice. -/
def turn (s : State) : Out :=
  match s.sched with
  | t :: rest => runTurn t { s with sched := rest }
  | [] => arbiter s

end Sys2Proof.Machine
end

