-- ==== Sys2Proof/Machine/Step.lean ====
section
/-! DEFINITION. One step of the machine, and a state about to run a given instruction. -/

namespace Sys2Proof.Machine

/-- One step (log 1). While the clocks are stopped by a thermal trip nothing happens (R434). -/
def step (s : State) : Host.Outcome State Fault Refusal := if s.halted then .next s else turn s

/-- The state with the instruction `w` stored where the next step fetches (log 2): a scalar instruction of strand 0, or a
lane instruction of wave 0 when it is longer than 32 bits. -/
def State.withFetchWord (s : State) (nbits w : Nat) : State :=
  if nbits ≤ 32 then s.placeScalar (leBytes 4 (w % 2 ^ nbits)) else s.placeLane (leBytes 12 (w % 2 ^ nbits))

end Sys2Proof.Machine
end

