-- ==== Sys2Proof/Safety.lean ====
section
/-! DEFINITION. What counts as a safe run: the steps of the machine that neither fault nor are refused, and the invariant of
its states that the statements use. -/

namespace Sys2Proof

open Sys2Proof.Machine

/-- One step of the machine leads from a state to another. -/
def Steps (s t : State) : Prop := core.step s = .next t

/-- A run of the machine from one state to another. -/
inductive Run : State → State → Prop where
  | refl (s : State) : Run s s
  | step (s t u : State) : Run s t → Steps t u → Run s u

/-- The step faults or is refused: the model stops where it has no answer. -/
def Stops (s : State) : Prop := ∀ t, core.step s ≠ .next t

/-- Memory is in its canonical form: keys strictly rising, no byte that an unlisted key would read as. -/
def MemoryOk (s : State) : Prop := Memory.wf s.mem = true

/-- A hart executes: the step acts for it, and no message handler runs on it (R402). -/
def Executes (s : State) (h : HartId) : Prop := s.actor = some (.hart h) ∧ (s.hart h).handler = none

/-- A hart while its instruction executes: the pc past it. -/
def Machine.Hart.past (r : Hart) : Hart := { r with pc := r.pc + 4, run := .running }

/-- A hart after an instruction that goes on at the next one: the pc past it (R10), instret counted (R12), the grant that ended
a park used up (R91). -/
def Machine.Hart.stepped (r : Hart) : Hart :=
  { r with
    pc := r.pc + 4
    instret := r.instret + 1
    run := .running
    granted := none }

/-- No turn is placed from outside: the machine's own units and events decide what happens next (log 1). -/
def Free (s : State) : Prop := s.sched = []

end Sys2Proof

/-! ## What the statements share -/

namespace Sys2Proof.Claim

open Sys2Proof.Machine

/-- The state in which the meaning of a hart's instruction runs: the pc past the instruction. -/
def inside (s : State) (h : HartId) : State := s.setHart h (s.hart h).past

/-- The trap of an instruction that has had no effect. -/
def traps (s : State) (h : HartId) (code detail : Nat) (tval : Dword) (scause : Nat) : Host.Outcome State Fault Refusal :=
  .next ((s.setHart h { s.hart h with run := .running }).takeExc h (s.hart h).pc
    { code := code, detail := detail, tval := tval, scause := scause })

/-- A hart has performed its quantum updates (R304). -/
def Drained (s : State) (h : HartId) : Prop := ∀ q ∈ s.quantum, q.unit ≠ ((inside s h).accOf h).who.code

/-- The accessor of a standard access of a hart. -/
def stdAccOf (s : State) (h : HartId) : Acc := { (inside s h).accOf h with std := true }

/-- A state that a meaning has reached, with its hart retired. -/
def retire (t : State) (h : HartId) : State := t.setHart h (t.hart h).retired

/-- A release of the hart at a scope code (R295, R304). -/
def rel (t : State) (h : HartId) (scope : Nat) : State := t.releaseUnit (t.accOf h).who scope

/-! ## Accesses that complete -/

/-- An access of `n` bytes at `va` stays in one line and is translated by an entry of the accessor's own TLB that permits it, to
tracked DRAM without poison, which the host does not hold and no pending update of the unit touches (R263 to R269, R276, R425). -/
def Reaches (s : State) (acc : Acc) (k : AccessKind) (va : Dword) (n : Nat) (e : TlbEntry) : Prop :=
  let a := va.toNat % 2 ^ 48
  let tr := trOf e.pte e.size a
  canonical va = true ∧ inWindow a = false ∧ 0 < n ∧ a % 256 + n ≤ 256 ∧
    (s.tlb acc.tlb).find? (fun x => x.hits (asidOf acc.dptb) a && x.serves acc k) = some e ∧
    permitted acc k e.pte = true ∧ Pte.c e.pte = false ∧ tr.untracked = false ∧ paKind tr.pa = .dram ∧
    s.poisoned tr.pa n = false ∧ s.hostFilter.contains (tr.pa / 256) = false ∧
    ∀ q ∈ s.quantum, q.unit = acc.who.code → q.pa / 256 ≠ tr.pa / 256

/-- An access of `n` bytes at `va` lies in one permitted range of the local window, on the bytes from key `key` of on-chip storage
without poison (R255, R256). -/
def ReachesSram (s : State) (acc : Acc) (k : AccessKind) (va : Dword) (n key : Nat) : Prop :=
  let a := va.toNat % 2 ^ 48
  canonical va = true ∧ inWindow a = true ∧ 0 < n ∧ windowRange a = windowRange (a + (n - 1)) ∧
    (∀ i, i < n → windowByte s acc (a + i) k = some (.key (key + i))) ∧ (∀ i, i < n → s.poisoned (key + i) 1 = false)

/-- Every byte outside the `n` bytes at `pa` reads as before. -/
def OthersKept (s t : State) (pa n : Nat) : Prop :=
  ∀ b, b < pa ∨ pa + n ≤ b → Memory.get t.mem b = Memory.get s.mem b

/-! ## Lane instructions that issue -/

/-- An instruction of the group in the acting slot can issue: no decode check of R157 fails, the lane handler permits it (R397), the
wave does not stop at a safe point for a pre-emption (R405), its wait is granted (R158), no outstanding load or special function
writes a register it names (R206, R328), no poisoned word is read (R413), its writes keep within PEAK (R162) and its signal names
a semaphore of a crew (R149). -/
structure LaneReady (s : State) (c : LCtx) : Prop where
  actor : s.actor = some (.lanes c.k c.sec)
  group : (s.wave c.k).group c.sec = some c.g
  ctx : lctx (s.wave c.k) c.k c.sec c.g c.i c.w = c
  decodes : laneOk c.i = true
  handler : (s.wave c.k).lhandler.isSome = true → handlerForbids c.i c.w = false
  bound : (ruleOf c.i).cls = .LM → (ruleOf c.i).slot = true → c.w.slot ≠ 0#4 → ((s.wave c.k).buf.find c.w.slot.toNat).isSome = true
  runs : honoured s c = false
  wait : waitAmount c.i c.w = 0 ∨ waitGranted c (s.wave c.k) = true
  loaded : (laneNames c.i c.w).any (s.wave c.k).loading = false
  tokens : seenTokens c (s.wave c.k) = []
  unwritten : ((laneWrites c.i c.w).any fun n => (s.wave c.k).sfx.any fun e => e.2.vd == n) = false
  clean : poisonedLanes c (s.wave c.k) = 0#64
  room : c.act ≠ 0#64 → overPeak s c.k (laneFrees c (s.wave c.k)) (laneWrites c.i c.w) = false
  signal : sigAmount c.i c.w ≠ 0 → (s.waveSem c.k c.w.sign.toNat).isSome = true

/-- The wave engine once it has issued an instruction of a slot (R132, R245 to R249). -/
def engineAfter (s : State) (c : LCtx) : WaveEngine :=
  let g := { s.wengine (c.k / 16) with issued := (s.wengine (c.k / 16)).issued + 1 }
  let slot := c.k % 16
  if slot = 15 ∧ ((s.wave c.k).hart.crew.bind s.crewOf).map (·.cls) = some 0 then g
  else if g.current = some slot then { g with last := slot }
  else { g with last := slot, current := some slot, currentSince := s.clk, switch := false }

/-- The wave once an instruction of a slot has retired: its wait is used up (R160) and the other slot issues next (R132). -/
def waveRetired (c : LCtx) (w : Wave) : Wave :=
  { w with
    waitHeld := if w.waitHeld = some c.g.pc ∧ waitAmount c.i c.w ≠ 0 then none else w.waitHeld
    turnSec := !c.sec }

/-- The state once an instruction of a slot has retired. -/
def laneRetired (s : State) (c : LCtx) : State :=
  (s.setWengine (c.k / 16) (engineAfter s c)).setWave c.k (waveRetired c (s.wave c.k))

/-- The signal of an instruction joins the wave's signals (R159). -/
def signalled (s : State) (c : LCtx) (on : Await) (w : Wave) : Wave :=
  match s.waveSem c.k c.w.sign.toNat with
  | some (_, ix) =>
    if sigAmount c.i c.w = 0 then w
    else { w with signals := w.signals ++ [{
      sem := ix
      amount := sigAmount c.i c.w
      after := w.nextAccess
      on := on
      lane := lowLane c.g.mask
      pc := c.g.pc + 12 }] }
  | none => w

/-- The group of the slot goes on at the next instruction, 12 bytes on (R151). -/
def groupOn (c : LCtx) (w : Wave) : Wave := w.setGroup c.sec ((w.group c.sec).map fun g => g.at (c.g.pc + 12))

/-- The state once an instruction that transfers no control has completed: its signal joins the others, the registers that its
last-read bits name are freed (R153), the group goes on at the next instruction, and it retires. -/
def laneDone (s : State) (c : LCtx) (on : Await) : State :=
  let w := signalled s c on (s.wave c.k)
  laneRetired (s.setWave c.k (groupOn c (w.freeNames (laneFrees c w)))) c

/-! ## Lane instructions that compute: their effects (R152, R166 to R189, R220 to R225) -/

/-- An exact integer result of two elements, wrapped or, under SAT, saturated to the type (R35, R171). -/
def ints (w : LaneWord) (sat : Bool) (f : Int → Int → Int) (x y _ : Nat) : Nat :=
  fitInt w.ty sat (f (elemInt w.ty x) (elemInt w.ty y))

/-- A bit operation at the width of the type. -/
def bitwise (w : LaneWord) (f : BitVec (tyWidth w.ty) → BitVec (tyWidth w.ty) → BitVec (tyWidth w.ty)) (x y _ : Nat) : Nat :=
  (f (BitVec.ofNat _ x) (BitVec.ofNat _ y)).toNat

/-- A shift by the low log2(width) bits of the second element (R173). -/
def shifted (w : LaneWord) (f : BitVec (tyWidth w.ty) → Nat → BitVec (tyWidth w.ty)) : Nat → Nat → Nat → Nat :=
  bitwise w fun a b => f a (b.toNat % tyWidth w.ty)

/-- INT and IMAD, with what each makes of the elements a, b and c (R169, R171). -/
def intTable (w : LaneWord) : List (Instr × (Nat → Nat → Nat → Nat)) :=
  [(.laneAdd w, ints w w.sat (· + ·)), (.addLi w, ints w false (· + ·)),
    (.laneSub w, ints w w.sat (· - ·)), (.subLi w, ints w false (· - ·)),
    (.laneMul w, ints w w.sat (· * ·)), (.mulLi w, ints w false (· * ·)),
    (.mulhi w, fun x y _ => mulHiElem w.ty x y), (.mulhiLi w, fun x y _ => mulHiElem w.ty x y),
    (.laneMin w, ints w w.sat fun a b => if b < a then b else a), (.minLi w, ints w false fun a b => if b < a then b else a),
    (.laneMax w, ints w w.sat fun a b => if a < b then b else a), (.maxLi w, ints w false fun a b => if a < b then b else a),
    (.laneAbs w, ints w w.sat fun a _ => if a < 0 then -a else a), (.laneNeg w, ints w w.sat fun a _ => -a),
    (.imad w, fun x y z => fitInt w.ty w.sat (elemInt w.ty x * elemInt w.ty y + elemInt w.ty z))]

/-- LOGIC (R169, R172). -/
def logicTable (w : LaneWord) : List (Instr × (Nat → Nat → Nat → Nat)) :=
  [(.laneAnd w, bitwise w fun a b => a &&& b), (.andLi w, bitwise w fun a b => a &&& b),
    (.laneOr w, bitwise w fun a b => a ||| b), (.orLi w, bitwise w fun a b => a ||| b),
    (.laneXor w, bitwise w fun a b => a ^^^ b), (.xorLi w, bitwise w fun a b => a ^^^ b),
    (.laneNot w, bitwise w fun a _ => ~~~a),
    (.andn w, bitwise w fun a b => a &&& ~~~b), (.andnLi w, bitwise w fun a b => a &&& ~~~b)]

/-- SHIFT and BITF (R169, R173, R174). -/
def shiftTable (w : LaneWord) : List (Instr × (Nat → Nat → Nat → Nat)) :=
  [(.shl w, shifted w fun a n => a <<< n), (.shlLi w, shifted w fun a n => a <<< n),
    (.shr w, shifted w fun a n => a >>> n), (.shrLi w, shifted w fun a n => a >>> n),
    (.sha w, shifted w fun a n => a.sshiftRight n), (.shaLi w, shifted w fun a n => a.sshiftRight n),
    (.rol w, shifted w fun a n => a.rotateLeft n), (.rolLi w, shifted w fun a n => a.rotateLeft n),
    (.ror w, shifted w fun a n => a.rotateRight n), (.rorLi w, shifted w fun a n => a.rotateRight n),
    (.brev w, bitwise w fun a _ => a.reverse),
    (.popc w, fun x _ _ => popCount (tyWidth w.ty) x), (.clz w, fun x _ _ => leadZeros (tyWidth w.ty) x),
    (.ctz w, fun x _ _ => trailZeros (tyWidth w.ty) 0 x),
    (.bfx w, fun x y _ => bfxVal (tySigned w.ty) x y), (.bfi w, fun x y z => bfiVal x y z)]

/-- The instructions on integers and bits. -/
def elemTable (w : LaneWord) : List (Instr × (Nat → Nat → Nat → Nat)) := intTable w ++ logicTable w ++ shiftTable w

/-- The floating-point instructions that round once, with the rounded operation on the values of the elements a, b and c; SAT
applies in class L (R175). -/
def roundTable (w : LaneWord) : List (Instr × (Rnd → FVal → FVal → FVal → FRes)) :=
  let f := laneFmt w.ty
  [(.fadd w, fun r a b _ => fadd f r w.sat a b), (.faddLi w, fun r a b _ => fadd f r false a b),
    (.fsub w, fun r a b _ => fsub f r w.sat a b), (.fsubLi w, fun r a b _ => fsub f r false a b),
    (.fmul w, fun r a b _ => fmul f r w.sat a b), (.fmulLi w, fun r a b _ => fmul f r false a b),
    (.fdiv w, fun r a b _ => fdiv f r w.sat a b), (.fsqrt w, fun r a _ _ => fsqrt f r false a),
    (.fma w, fun r a b c => ffma f r w.sat a b c), (.fms w, fun r a b c => ffma f r w.sat a b c.negate),
    (.fnma w, fun r a b c => ffma f r w.sat a.negate b c)]

/-- The floating-point instructions that do not round, on the bits of the elements a and b (R175, R177). -/
def flagTable (w : LaneWord) : List (Instr × (Nat → Nat → FRes)) :=
  let f := laneFmt w.ty
  [(.fmin w, fminmaxRes f false), (.fminLi w, fminmaxRes f false), (.fmax w, fminmaxRes f true), (.fmaxLi w, fminmaxRes f true),
    (.fabs w, fun x _ => signOp f false x), (.fneg w, fun x _ => signOp f true x), (.fclass w, fun x _ => { bits := fclassOf f x })]

/-- The value that a lane exchange gives a lane: operand a of the lane it names, when that is in the group, else its own (R183). -/
def taken (src : LCtx → Wave → Nat → Nat) (c : LCtx) (w : Wave) (l : Nat) : Dword :=
  opA c w (if Mask.has c.g.mask (src c w l) then src c w l else l)

/-- The instructions that write one value per lane without a flag, with its width and the value (R178, R183, R184, R188, R189). -/
def moveTable (w : LaneWord) : List (Instr × Bool × (LCtx → Wave → Nat → Dword)) :=
  let wide := ty64 w.ty
  [(.shflIdx w, wide, taken fun c st l => (opB c st l).toNat % 64), (.shflXor w, wide, taken fun c _ l => l ^^^ c.w.vc.toNat),
    (.shflUp w, wide, taken fun c _ l => if c.w.vc.toNat ≤ l then l - c.w.vc.toNat else l),
    (.shflDn w, wide, taken fun c _ l => if l + c.w.vc.toNat ≤ 63 then l + c.w.vc.toNat else l),
    (.bcst w, wide, taken fun c _ _ => c.w.vc.toNat),
    (.sel w, wide, fun c st l => if Mask.has (st.pred w.vc.toNat) l then opA c st l else opB c st l),
    (.selLi w, wide, fun c st l => if Mask.has (st.pred w.vc.toNat) l then opA c st l else opB c st l),
    (.mov w, wide, fun c st l => opA c st l), (.movu w, wide, fun c st _ => st.uni c.w.va.toNat),
    (.movi w, wide, fun c _ _ => immOperand c.w.ty c.w.imm32),
    (.movx w, false, fun c st l => if Mask.has (st.pred c.w.va.toNat) l then 1 else 0),
    (.voteMask w, true, fun c st _ => st.pred c.w.va.toNat &&& c.act),
    (.lfmRd w, false, fun _ st l => (st.lfmOf l).zeroExtend 64)]

/-- The instructions that write a predicate, with the lanes for which it becomes 1 (R177, R179, R184). -/
def predTable (w : LaneWord) : List (Instr × (LCtx → Wave → Mask)) :=
  [(.icmp w, fun c st => maskOf fun l => icmpCond w.vc.toNat (elemInt w.ty (opA c st l).toNat) (elemInt w.ty (opB c st l).toNat)),
    (.icmpLi w, fun c st => maskOf fun l => icmpCond w.vc.toNat (elemInt w.ty (opA c st l).toNat) (elemInt w.ty (opB c st l).toNat)),
    (.pand w, fun _ st => st.pred w.va.toNat &&& st.pred w.vb.toNat), (.por w, fun _ st => st.pred w.va.toNat ||| st.pred w.vb.toNat),
    (.pxor w, fun _ st => st.pred w.va.toNat ^^^ st.pred w.vb.toNat), (.pnot w, fun _ st => ~~~st.pred w.va.toNat),
    (.pmov w, fun _ st => maskOf fun l => st.reg w.va.toNat l != 0),
    (.voteAny w, fun c st => if st.pred w.va.toNat &&& c.act != 0 then BitVec.allOnes 64 else 0),
    (.voteAll w, fun c st => if st.pred w.va.toNat &&& c.act == c.act then BitVec.allOnes 64 else 0)]

/-- FCMP: a predicate, with the flags of each lane (R177). -/
def fcmpEffect (w : LaneWord) (c : LCtx) (st : Wave) : Wave :=
  let r (l : Nat) := fcmpCond (laneFmt w.ty) w.vc.toNat (opA c st l).toNat (opB c st l).toNat
  (st.writePred w.vd.toNat c.act (maskOf fun l => (r l).1)).orFlags c.act fun l => (r l).2

/-- RSV.SEED: the key is a xor b and the counter 0; the poison of the Accord words written is gone (R224, R413). -/
def seedEffect (c : LCtx) (st : Wave) : Wave :=
  accordWave c (fun st l => { a := { st.acc l with key := opA c st l ^^^ opB c st l, ctr := 0 } })
    { st with bad := st.bad.filter fun b => !(decide (8200 ≤ b) && c.act.has ((b - 8200) / 4) && decide (2 ≤ b % 4)) }

/-- RSV.GET: the four words of the reservoir, which an immediate of 1 clears (R220, R224). -/
def getEffect (w : LaneWord) (c : LCtx) (st : Wave) : Wave :=
  let d := w.vd.toNat
  let t := (((st.writeReg d c.act fun l => (st.acc l).word 0).writeReg (d + 1) c.act fun l => (st.acc l).word 1).writeReg
    (d + 2) c.act fun l => (st.acc l).word 2).writeReg (d + 3) c.act fun l => (st.acc l).word 3
  if w.vc = 1 then accordWave c (fun st l => { a := { key := (st.acc l).key, ctr := (st.acc l).ctr } }) t else t

/-- RSV.DRAW: one draw as an FP32 number (R221, R224). -/
def drawEffect (c : LCtx) (st : Wave) : Wave :=
  writeResults c false 1 (fun l =>
    { val := BitVec.ofNat 64 (roundTo .f32 { mode := 0 } false false (drawU (st.acc l).key (st.acc l).ctr) (-24) false).bits }) st

/-- The remaining computing instructions, each with its effect on the wave (R177, R180 to R182, R185 to R189, R223 to R225). -/
def waveTable (w : LaneWord) : List (Instr × (LCtx → Wave → Wave)) :=
  [(.fcmp w, fcmpEffect w), (.fcmpLi w, fcmpEffect w), (.reduce w, reduceWave), (.scan w, scanWave), (.lfmWr w, lfmWave),
    (.cvt w, fun c st => writeResults c (ty64 w.ty) (if w.rm = 5 then min (tyCount w.stype) (tyCount w.ty) else 0) (cvtLane c st) st),
    (.qnt w, fun c st => writeResults c false 0 (fun l =>
      { val := BitVec.ofNat 64 (qntWord (qntInputs c st l) (scaleOperand c st l)).bits
        flags := (qntWord (qntInputs c st l) (scaleOperand c st l)).flags }) st),
    (.aln w, fun c st => if w.vc = 1 then alnExponent c st else alnApply c st),
    (.rsvSeed w, seedEffect),
    (.rsvUpd w, fun c => accordWave c fun st l =>
      accept (st.reg w.vb.toNat l) (st.reg w.va.toNat l) (st.reg w.vc.toNat l) 1 { a := st.acc l }),
    (.rsvMrg w, fun c => accordWave c fun st l => merge (st.reg w.va.toNat l) (st.reg (w.va.toNat + 2) l)
      (st.reg (w.va.toNat + 3) l) (st.reg w.vb.toNat l) w.vc.toNat (st.acc l)),
    (.rsvFin w, fun c => accordWave c fun st l => finish (st.acc l)), (.rsvGet w, getEffect w), (.rsvDraw w, drawEffect)]

/-- Every lane instruction that computes, with its effect on the wave. -/
def laneEffects (w : LaneWord) : List (Instr × (LCtx → Wave → Wave)) :=
  (elemTable w).map (fun e => (e.1, fun c => elemInstr c e.2)) ++
  (roundTable w).map (fun e => (e.1, fun c => roundInstr c fun r x y z =>
    e.2 r (unpack (laneFmt w.ty) x) (unpack (laneFmt w.ty) y) (unpack (laneFmt w.ty) z))) ++
  (flagTable w).map (fun e => (e.1, fun c st => writeResults c (ty64 w.ty) 0
    (fun l => perElem w.ty (fun _ x y _ => e.2 x y) (opA c st l) (opB c st l) 0) st)) ++
  (moveTable w).map (fun e => (e.1, fun c st => writeResults c e.2.1 0 (fun l => { val := e.2.2 c st l }) st)) ++
  (predTable w).map (fun e => (e.1, fun c st => st.writePred w.vd.toNat c.act (e.2 c st))) ++
  waveTable w

/-- What a lane instruction that computes leaves of its wave: every register that it neither writes in an active lane nor frees, every
predicate but its destination's active lanes, the float mode and Accord of inactive lanes, the other slot's group, and every other
field; the registers it frees read 0, and its group stands at the next instruction (R152, R153, R161, R166). -/
structure WaveKept (c : LCtx) (w v : Wave) : Prop where
  rest : v = { w with
    v := v.v
    p := v.p
    lfm := v.lfm
    accord := v.accord
    bad := v.bad
    signals := v.signals
    waitHeld := v.waitHeld
    turnSec := v.turnSec
    pri := v.pri
    sec := v.sec
    lhandler := v.lhandler }
  regs : ∀ n l, l < 64 → (n ∉ laneWrites c.i c.w ∨ Mask.has c.act l = false) → n ∉ laneFrees c w → v.reg n l = w.reg n l
  freed : ∀ n ∈ laneFrees c w, ∀ l, l < 64 → v.reg n l = 0#32
  preds : ∀ n l, l < 64 → ((ruleOf c.i).vd ≠ .pw ∨ n % 8 ≠ c.w.vd.toNat % 8 ∨ Mask.has c.act l = false) →
    Mask.has (v.pred n) l = Mask.has (w.pred n) l
  modes : ∀ l, l < 64 → Mask.has c.act l = false → v.lfmOf l = w.lfmOf l ∧ v.acc l = w.acc l
  slots : v.group c.sec = some (c.g.at (c.g.pc + 12)) ∧ (w.lhandler = none → v.group (!c.sec) = w.group (!c.sec))

/-- The flags of the elements of a lane, joined. -/
def joined (f : Nat → FRes) (n : Nat) : Nat := ((List.range n).map fun i => (f i).flags).foldl (· ||| ·) 0

/-- What each element of a lane's operands gives, for the instructions that work element by element (R36, R43, R45, R167): the
element's number, and a, b and c at it. -/
def elementOf (c : LCtx) (w : Wave) (l : Nat) (f : Nat → Nat → Nat → Nat → FRes) (e : Nat) : FRes :=
  let wd := tyWidth c.w.ty
  f e (elem (opA c w l) wd e) (elem (opB c w l) wd e) (elem (opC c w l) wd e)

/-- Every element of the destination in an active lane is the result of its element, and the lane's flags are ORed into its float
mode (R41, R167). -/
def ElementsAre (c : LCtx) (w v : Wave) (f : Nat → Nat → Nat → Nat → Nat → FRes) : Prop :=
  ∀ l, l < 64 → Mask.has c.act l = true →
    (∀ e, e < tyCount c.w.ty → elem (v.operand (ty64 c.w.ty) c.w.vd.toNat l) (tyWidth c.w.ty) e =
      (elementOf c w l (f l) e).bits % 2 ^ tyWidth c.w.ty) ∧
    v.lfmOf l = w.lfmOf l ||| BitVec.ofNat 8 (joined (elementOf c w l (f l)) (tyCount c.w.ty) % 32)

/-! ## Lane loads and stores -/

/-- The bytes of an access that an entry translates, in one line of tracked DRAM. -/
def segOf (e : TlbEntry) (va : Dword) (n : Nat) : Seg := { loc := .mem (trOf e.pte e.size (va.toNat % 2 ^ 48)).pa false, len := n }

/-- The buffer record that a memory instruction uses, and the address of a lane's word under it (R193, R194). -/
def recordOf (s : State) (c : LCtx) : BitVec 256 := (s.wave c.k).record c.w.slot.toNat
def wordAt (s : State) (c : LCtx) (l : Nat) : LaneAddr := laneAddr c (s.wave c.k) (recordOf s c) l

/-- The active lanes whose word lies in bounds, and the others (R195). -/
def inBounds (s : State) (c : LCtx) : List Nat := (lanesOf c.act).filter fun l => !(wordAt s c l).oob
def strayLanes (s : State) (c : LCtx) : Mask := c.act &&& ~~~maskOf (inBounds s c).contains

/-- A lane memory instruction meets no cause: its record passes the checks (R193), every word is in bounds or the record is lenient
(R195), words in bounds are aligned and reached through the entries `e`, no acquire holds the access back, and a release finds
nothing to wait for (R275, R304). -/
structure LanesReach (s : State) (c : LCtx) (k : AccessKind) (whole : Bool) (e : Nat → TlbEntry) : Prop where
  record : badRecord (recordOf s c) c.w.ty = none
  pair : BufRec.flat (recordOf s c) = true → c.w.va.getLsbD 0 = false
  strict : BufRec.bnd (recordOf s c) = 1 → ∀ l ∈ lanesOf c.act, (wordAt s c l).oob = false
  words : ∀ l ∈ inBounds s c, (wordAt s c l).mis = false ∧ (whole = true → (wordAt s c l).va.toNat % wordSize c.w.ty = 0) ∧
    Reaches s (s.laneAcc c.k) k (wordAt s c l).va (wordSize c.w.ty) (e l)
  held : ∀ a ∈ (s.wave c.k).accesses, a.hold = false
  release : semReleases c.w.sem.toNat = true → c.act ≠ 0#64 →
    (s.wave c.k).accesses = [] ∧ ∀ q ∈ s.quantum, q.unit ≠ (UnitId.wave c.k).code

/-- The wave after out-of-bounds lanes are noted in dwstat (R195). -/
def noted (s : State) (c : LCtx) (store : Bool) : Wave :=
  let w := s.wave c.k
  if (inBounds s c).length < (lanesOf c.act).length then { w with dwstat := w.dwstat ||| 1 ||| (if store then 2 else 0) } else w

/-- An access that a memory instruction issues (R159, R196, R275). -/
def accessOf (s : State) (c : LCtx) (op : AccessOp) (n : Nat) (elems : List Elem) : PendAccess :=
  { n := n, op := op, vd := c.w.vd.toNat, ty := c.w.ty, size := wordSize c.w.ty, elems := elems, scope := c.w.scope.toNat,
    hint := c.w.hint.toNat, hold := semAcquires c.w.sem.toNat, lag := op == .load && (c.w.sem == 3 || c.w.sem == 4),
    asid := asidOf (s.laneAcc c.k).dptb }

/-- The wave once an access with some elements, if any, is issued. -/
def issues (s : State) (c : LCtx) (op : AccessOp) (elems : List Elem) (w : Wave) : Wave :=
  { w with
    nextAccess := w.nextAccess + 1
    accesses := if elems = [] then w.accesses else w.accesses ++ [accessOf s c op w.nextAccess elems] }

/-- The element of a lane in bounds. -/
def elementAt (s : State) (c : LCtx) (e : Nat → TlbEntry) (data : Nat → Dword) (l : Nat) : Elem :=
  { lane := l, va := (wordAt s c l).va.toNat % 2 ^ 48, segs := [segOf (e l) (wordAt s c l).va (wordSize c.w.ty)], data := data l }

/-- The place of an element of an access: one piece of tracked DRAM at `pa`, which the host does not hold and no pending update of
the wave touches (R276, R304, R425). -/
def Settled (s : State) (k : Nat) (a : PendAccess) (el : Elem) (pa : Nat) : Prop :=
  el.segs = [{ loc := .mem pa false, len := a.size }] ∧ s.hostFilter.contains (pa / 256) = false ∧
    ∀ q ∈ s.quantum, q.unit = (UnitId.wave k).code → q.pa / 256 ≠ pa / 256

/-- The wave after an access is performed: it is outstanding no more. -/
def performed (a : PendAccess) (w : Wave) : Wave := { w with accesses := w.accesses.filter fun b => b.n != a.n }

/-- The operations of ATOM, with MAX by TYPE (R280). -/
def laneAtoms (w : LaneWord) : List (Instr × AtomOp) :=
  [(.atomAdd w, .add), (.atomSwap w, .swap), (.atomAnd w, .and), (.atomOr w, .or), (.atomXor w, .xor), (.atomMax w, .max),
    (.atomFadd w, .fadd), (.atomCas w, .cas)]

/-- The read-modify-writes of some lanes in order: memory afterwards, and each lane's old value (R280, R281, R284). `pa` places each
lane's word. -/
def atomsOf (s : State) (c : LCtx) (o : AtomOp) (pa : Nat → Nat) (ls : List Nat) (m : List Host.Cell) : List Host.Cell × List (Nat × Nat) :=
  match ls with
  | [] => (m, [])
  | l :: t =>
    let n := wordSize c.w.ty
    let old := natOfBytes (Memory.read m (pa l) n)
    let (d, cmp) := atomArgs o c (s.wave c.k) l
    let m' := match atomNew (atomOf o c.w.ty) (8 * n) old d cmp with
      | some v => Memory.write m (pa l) (leBytes n v)
      | none => m
    let r := atomsOf s c o pa t m'
    (r.1, (l, old) :: r.2)

/-- Where the entries `e` place each lane's word. -/
def placeAt (s : State) (c : LCtx) (e : Nat → TlbEntry) (l : Nat) : Nat :=
  (trOf (e l).pte (e l).size ((wordAt s c l).va.toNat % 2 ^ 48)).pa

end Sys2Proof.Claim
end

