-- ==== Sys2Proof/Safety/Scalar.lean ====
section
/-! DEFINITION. What the statements speak of, for scalar harts: their turns, results, CSRs, waits, sends, handlers and kicks. -/

namespace Sys2Proof.Claim

open Sys2Proof.Machine

/-- A lane word whose fields other than OP and FUNC are 0. -/
def blank : LaneWord :=
  { vd := 0, va := 0, vb := 0, vc := 0, gp := 0, gn := false, lra := false, lrb := false, lrc := false, sm := false, mh := false,
    ty := 0, rm := 0, hi := 0 }

/-- The turn in which a hart issues. -/
def turnOf (h : HartId) : Turn :=
  match h with
  | .strand k => .strand k
  | .uniform k => .uniform k
  | .engine k => .engine k

/-- Nothing comes before the next instruction of a hart: no buffer records to read, no message handler or interrupt to take, and
it runs. -/
def Fetches (s : State) (h : HartId) : Prop :=
  s.bufsDue h = false ∧ s.handlerDue h = none ∧ s.dueInterrupt h = none ∧ s.canRun h = true ∧ (s.hart h).handler = none ∧
    (s.hart h).pc.toNat % 4 = 0

/-- The register and the result of the integer instructions of R10 that transfer control nowhere. -/
def integerResult (r : Hart) (op : RvOp) : Option (Reg × Dword) :=
  match op with
  | .lui rd imm => some (rd, (imm ++ 0#12).signExtend 64)
  | .auipc rd imm => some (rd, r.pc + (imm ++ 0#12).signExtend 64)
  | .opImm o rd rs1 imm => some (rd, immVal o (r.rx rs1) (imm.signExtend 64))
  | .shImm o rd rs1 sh => some (rd, shVal o (r.rx rs1) sh.toNat)
  | .addiw rd rs1 imm => some (rd, ((r.rx rs1 + imm.signExtend 64).setWidth 32).signExtend 64)
  | .shImmW o rd rs1 sh => some (rd, shWVal o (r.rx rs1) sh.toNat)
  | .op o rd rs1 rs2 => some (rd, aluVal o (r.rx rs1) (r.rx rs2))
  | .opW o rd rs1 rs2 => some (rd, aluWVal o (r.rx rs1) (r.rx rs2))
  | .un o rd rs1 => some (rd, unVal o (r.rx rs1))
  | _ => none

/-- A jump or a taken branch: its link register (x0 for a branch) and its target. -/
def jump (r : Hart) (op : RvOp) : Option (Reg × Dword) :=
  match op with
  | .jal rd off => some (rd, r.pc + (off ++ 0#1).signExtend 64)
  | .jalr rd rs1 imm => some (rd, (r.rx rs1 + imm.signExtend 64) &&& ~~~1#64)
  | .branch c rs1 rs2 off => if Machine.taken c (r.rx rs1) (r.rx rs2) then some (0, r.pc + (off ++ 0#1).signExtend 64) else none
  | _ => none

/-- The strand `r` after entry into S with these values (R27): SIE goes to SPIE and clears, the level goes to SPP. -/
def EntersS (r t : Hart) (epc scause stval dcause target : Dword) : Prop :=
  t.sepc = epc ∧ t.scause = scause ∧ t.stval = stval ∧ t.dcause = dcause ∧ t.pc = target ∧ t.priv = .s ∧ t.tn = true ∧
    t.run = .running ∧ t.resv = none ∧
    t.sstatus.getLsbD 5 = r.sstatus.getLsbD 1 ∧ t.sstatus.getLsbD 1 = false ∧ t.sstatus.getLsbD 8 = decide (r.priv = .s) ∧
    (∀ i, i < 64 → i ≠ 1 → i ≠ 5 → i ≠ 8 → t.sstatus.getLsbD i = r.sstatus.getLsbD i) ∧
    t.x = r.x ∧ t.f = r.f ∧ t.fcsr = r.fcsr ∧ t.mb = r.mb ∧ t.stvec = r.stvec ∧ t.sscratch = r.sscratch ∧ t.dptb = r.dptb ∧
    t.instret = r.instret ∧ t.sie = r.sie ∧ t.crew = r.crew

/-- What a CSR held in a hart reads (R12, R18). -/
def csrRead (r : Hart) (a : Nat) : Option Dword :=
  match a with
  | 0x001 => some ((r.fcsr &&& 0x1F#8).setWidth 64)
  | 0x002 => some ((r.fcsr >>> 5).setWidth 64)
  | 0x003 => some (r.fcsr.setWidth 64)
  | 0x104 => some r.sie
  | 0x105 => some r.stvec
  | 0x106 => some r.scounteren
  | 0x140 => some r.sscratch
  | 0x141 => some r.sepc
  | 0x142 => some r.scause
  | 0x143 => some r.stval
  | 0x180 => some 0
  | 0x5C0 => some r.dcause
  | 0x5C2 => some r.dptb
  | 0x5C5 => some r.dtimecmp
  | 0xC02 => some r.instret
  | 0xCC1 => some r.dcrew
  | _ => none

/-- The hart after such a CSR is written (R12, R18, R21 to R25); a write of the floating-point CSRs makes FS Dirty. -/
def csrWrite (r : Hart) (a : Nat) (v : Dword) : Option Hart :=
  let dirty := { r with sstatus := r.sstatus ||| 0x6000#64 }
  match a with
  | 0x001 => some { dirty with fcsr := (r.fcsr &&& 0xE0#8) ||| (v.setWidth 8 &&& 0x1F#8) }
  | 0x002 => some { dirty with fcsr := (r.fcsr &&& 0x1F#8) ||| (v.setWidth 8 <<< 5) }
  | 0x003 => some { dirty with fcsr := v.setWidth 8 }
  | 0x104 => some { r with sie := v &&& 0x222#64 }
  | 0x105 => some { r with stvec := if v.toNat % 4 < 2 then v else (v &&& ~~~3#64) ||| (r.stvec &&& 3#64) }
  | 0x106 => some { r with scounteren := v &&& 7#64 }
  | 0x140 => some { r with sscratch := v }
  | 0x141 => some { r with sepc := v &&& ~~~3#64 }
  | 0x142 => some { r with scause := v }
  | 0x143 => some { r with stval := v }
  | 0x180 => some r
  | 0x5C0 => some { r with dcause := v &&& 0xFFFFFFFF#64 }
  | 0x5C2 => some { r with dptb := v &&& 0xFFFFFFFFFFFFFFF#64 }
  | 0x5C5 => some { r with dtimecmp := v }
  | _ => none

/-- The new value that a CSR form writes. -/
def csrNew (o : CsrOp) (old v : Dword) : Dword :=
  match o with
  | .rw => v
  | .rs => old ||| v
  | .rc => old &&& ~~~v

/-- The source of a CSR form. -/
def csrSource (r : Hart) (imm : Bool) (src : Reg) : Dword := if imm then src.setWidth 64 else r.rx src

/-- A CSR that a strand in this state may read: its level, FS for the floating-point CSRs, scounteren for the counters. -/
def csrAllowed (r : Hart) (a : Nat) : Prop :=
  (r.priv = .s ∨ a ≤ 3 ∨ 0xC00 ≤ a) ∧ (a ≤ 3 → Sstatus.fs r.sstatus ≠ 0) ∧
    (a = 0xC02 → r.priv = .s ∨ r.scounteren.getLsbD 2 = true)

/-- The effect of a floating-point instruction on the registers (R12, R13): the destination, NaN-boxed for a single, FS Dirty, the
flags gathered in fcsr. -/
def floatResult (r : Hart) (rnd : BitVec 3 → Rnd) (op : RvOp) : Option (Hart → Hart) :=
  let f (dbl : Bool) (rd : Reg) (v : FRes) : Option (Hart → Hart) := some fun x => (x.wf rd (box dbl v.bits)).raise v.flags
  match op with
  | .fop .add dbl rd rs1 rs2 rm => f dbl rd (fadd (fmtOf dbl) (rnd rm) false (fsrc r dbl rs1) (fsrc r dbl rs2))
  | .fop .sub dbl rd rs1 rs2 rm => f dbl rd (fsub (fmtOf dbl) (rnd rm) false (fsrc r dbl rs1) (fsrc r dbl rs2))
  | .fop .mul dbl rd rs1 rs2 rm => f dbl rd (fmul (fmtOf dbl) (rnd rm) false (fsrc r dbl rs1) (fsrc r dbl rs2))
  | .fop .div dbl rd rs1 rs2 rm => f dbl rd (fdiv (fmtOf dbl) (rnd rm) false (fsrc r dbl rs1) (fsrc r dbl rs2))
  | .fma o dbl rd rs1 rs2 rs3 rm =>
    let a := fsrc r dbl rs1
    let b := fsrc r dbl rs2
    let c := fsrc r dbl rs3
    f dbl rd (match o with
      | .madd => ffma (fmtOf dbl) (rnd rm) false a b c
      | .msub => ffma (fmtOf dbl) (rnd rm) false a b c.negate
      | .nmsub => ffma (fmtOf dbl) (rnd rm) false a.negate b c
      | .nmadd => ffma (fmtOf dbl) (rnd rm) false a.negate b c.negate)
  | .fsqrt dbl rd rs1 rm => f dbl rd (fsqrt (fmtOf dbl) (rnd rm) false (fsrc r dbl rs1))
  | .fcvtFmt toDbl rd rs1 rm => f toDbl rd (roundVal (fmtOf toDbl) (rnd rm) false (fsrc r (!toDbl) rs1))
  | .fcvtFrom t dbl rd rs1 rm => f dbl rd (roundVal (fmtOf dbl) (rnd rm) false (intVal (intSrc t (r.rx rs1))))
  | .fminmax mx dbl rd rs1 rs2 => f dbl rd (fminmaxRes (fmtOf dbl) mx (fbits dbl (r.rf rs1)) (fbits dbl (r.rf rs2)))
  | .fsgn o dbl rd rs1 rs2 => f dbl rd { bits := sgnBits o (fmtOf dbl) (fbits dbl (r.rf rs1)) (fbits dbl (r.rf rs2)) }
  | .fcmp o dbl rd rs1 rs2 =>
    let c := fcmpRes o (fsrc r dbl rs1) (fsrc r dbl rs2)
    some fun x => (x.wx rd (if c.1 then 1 else 0)).raise c.2
  | .fclass dbl rd rs1 => some fun x => x.wx rd (BitVec.ofNat 64 (fclassOf (fmtOf dbl) (fbits dbl (r.rf rs1))))
  | .fmvToX true rd rs1 => some fun x => x.wx rd (r.rf rs1)
  | .fmvToX false rd rs1 => some fun x => x.wx rd (((r.rf rs1).setWidth 32).signExtend 64)
  | .fmvFromX true rd rs1 => some fun x => x.wf rd (r.rx rs1)
  | .fmvFromX false rd rs1 => some fun x => x.wf rd (0xFFFFFFFF#32 ++ (r.rx rs1).setWidth 32)
  | .fcvtInt t dbl rd rs1 rm =>
    let wide := decide (t = .l ∨ t = .lu)
    let v := toIntStd (rnd rm) (decide (t = .w ∨ t = .l)) (if wide then 64 else 32) (fsrc r dbl rs1)
    some fun x => (x.wx rd (if wide then BitVec.ofNat 64 v.bits else (BitVec.ofNat 32 v.bits).signExtend 64)).raise v.flags
  | _ => none

/-- The rm field of a floating-point instruction that has one. -/
def rmOf (op : RvOp) : Option (BitVec 3) :=
  match op with
  | .fop _ _ _ _ _ rm | .fma _ _ _ _ _ _ rm | .fsqrt _ _ _ rm | .fcvtFmt _ _ _ rm | .fcvtFrom _ _ _ _ rm
  | .fcvtInt _ _ _ _ rm => some rm
  | _ => none

/-- The rounding mode that rm selects: itself, or fcsr.frm for 7. -/
def modeOf (r : Hart) (rm : BitVec 3) : Nat := if rm = 7 then r.fcsr.toNat / 32 else rm.toNat

/-- The state after the release of rl: the unit's earlier quantum updates performed at system scope (R16, R304). -/
def released (s : State) (h : HartId) (rl : Bool) : State := if rl then s.releaseUnit (s.accOf h).who 4 else s

/-- The custom-3 instruction of an operation (R68). -/
def scopedAmo (o : AtomOp) (a : AmoArgs) : Option Instr :=
  match o with
  | .add => some (.amoAdd a)
  | .swap => some (.amoSwap a)
  | .and => some (.amoAnd a)
  | .or => some (.amoOr a)
  | .xor => some (.amoXor a)
  | .max => some (.amoMax a)
  | .fadd => some (.amoFadd a)
  | .cas => some (.amoCas a)
  | .maxu => none

/-- The mailbox register `n` after a write of `v`: a deposit of the same clk stands, and the overrun bit is set instead (R105). -/
def mbWritten (r : Hart) (n : Nat) (v : Dword) : Hart :=
  if r.deps.any (fun d => d.1 = n) then { r with mbOvr := r.mbOvr ||| BitVec.ofNat 8 (2 ^ n) }
  else { r with mb := r.mb.set! n v }

/-- FULL of mailbox register `n` cleared. -/
def mbTaken (r : Hart) (n : Nat) : Hart := { r with mbFull := r.mbFull &&& ~~~BitVec.ofNat 8 (2 ^ n) }

/-- The hart runs in a crew that holds a semaphore window (R94, R127). -/
def Member (s : State) (h : HartId) (ref : CrewRef) (c : Crew) : Prop :=
  (s.hart h).crew = some ref ∧ s.crewOf ref = some c ∧ (s.hart h).bound = true

/-- The wait forms: what they name as semaphore and amount. -/
def semWait (r : Hart) (i : Instr) : Option (Reg × Nat × Nat) :=
  match i with
  | .semWait rd rs1 rs2 => some (rd, (r.rx rs1).toNat % 256, (r.rx rs2).toNat)
  | .semWaiti rd sem n => if n = 0 then none else some (rd, sem.toNat, n.toNat)
  | _ => none

/-- The signal forms. -/
def semSig (r : Hart) (i : Instr) : Option (Reg × Nat × Nat) :=
  match i with
  | .semSig rd rs1 rs2 => some (rd, (r.rx rs1).toNat % 256, (r.rx rs2).toNat)
  | .semSigi rd sem n => if n = 0 then none else some (rd, sem.toNat, n.toNat)
  | _ => none

/-- No remote operation that this hart sent has failed on semaphore `n` (R400). -/
def NoDeferred (c : Crew) (h : HartId) (n : Nat) : Prop := ∀ d, c.deferred.find n = some d → d.sender ≠ some h

/-- The state with `x` in a semaphore and `r` in a hart. -/
def semState (s : State) (cluster i : Nat) (x : Sem) (h : HartId) (r : Hart) : State := (s.setSem cluster i x).setHart h r

/-- The handle names a live entry (R97). -/
def Live (s : State) (handle : Nat) (e : Future) : Prop :=
  s.futures.getD (futKey handle) {} = e ∧ bits handle 0 22 ≠ 0 ∧ e.allocated = true ∧ e.gen = bits handle 22 8

/-- The children of a spawn, enqueued with rising lane index (R99). -/
def pushChildren (o : Origin) (c : Cont) (n : Nat) (t : State) : State :=
  (List.range n).foldl (fun u i => u.pushCont o.cluster (o.queued u (c.addLidx i))) t

/-- No operation that the hart sent has left a deferred fault (R400). -/
def NoFaultsLeft (s : State) (h : HartId) : Prop :=
  ∀ ref c, (s.hart h).crew = some ref → s.crewOf ref = some c → ∀ d ∈ c.deferred, d.2.sender ≠ some h

/-- The destination word and the body of a send, and whether it is a reply or carries a handler. -/
def sendForm (r : Hart) (h : HartId) (i : Instr) : Option (Dword × Dword × Bool × Bool) :=
  match i with
  | .msgSend rs1 rs2 => some (r.rx rs1, r.rx rs2, false, false)
  | .msgSendh rs1 rs2 => some (r.rx rs1, r.rx rs2, false, true)
  | .msgReply rs1 rs2 => if HartKind.isStrand h then some (r.rx rs1, r.rx rs2, true, false) else none
  | _ => none

/-- The hart after an instruction that goes on, but for a reservation that another access may have broken. -/
def GoesOn (s t : State) (h : HartId) (r : Hart) : Prop := ∃ v, t.hart h = { r.stepped with resv := v } ∧ r.handler = (s.hart h).handler

/-- The violations of handler mode with their DETAIL (R92, R403), for a hart `r`: what can park or send, cont.spawn, cont.exit and
mig.w; a second msg.reply; JALR, and a jump or branch to its own or a lower offset; floating-point instructions and CSR writes; a
write of a register other than x10 to x17. -/
def violations (r : Hart) (rd rs1 rs2 : Reg) (imm : BitVec 12) (off : BitVec 20) : List (Nat × Instr) :=
  [(1, .msgSend rs1 rs2), (1, .msgSendh rs1 rs2), (1, .scalarStq rs1 rs2), (1, .semWait rd rs1 rs2), (1, .semWaiti rd (imm.extractLsb' 0 8) (imm.extractLsb' 8 4)),
    (1, .futWait rd rs1), (1, .msgRecv rd rs1), (1, .engRdv rd rs1), (1, .tlbInv rs1 rs2), (1, .contSpawn rs1 rs2), (1, .contExit),
    (1, .migW), (2, .standardInstruction (.jalr rd rs1 imm)), (4, .standardInstruction (.fop .add true rd rs1 rs2 0)),
    (4, .standardInstruction (.csr .rw false 0 rs1 0x140)), (4, .standardLoadStore (.fload true rd rs1 imm)),
    (4, .standardLoadStore (.fstore true rs1 rs2 imm))] ++
  (if (r.handler.map (·.replied)) = some true then [(1, .msgReply rs1 rs2)] else []) ++
  (if (jalOff off).toInt ≤ 0 then [(2, .standardInstruction (.jal rd off))] else []) ++
  (if (brOff imm).toInt ≤ 0 then [(2, .standardInstruction (.branch .eq rs1 rs2 imm))] else []) ++
  (if rd ≠ 0 ∧ (rd.toNat < 10 ∨ 17 < rd.toNat) then
    [(3, .standardInstruction (.opImm .addi rd rs1 imm)), (3, .standardInstruction (.op .add rd rs1 rs2)),
      (3, .standardInstruction (.lui rd off)), (3, .standardLoadStore (.load .d rd rs1 imm)), (3, .semSig rd rs1 rs2),
      (3, .semTry rd rs1 rs2), (3, .mbRead rd 0), (3, .futPoll rd rs1), (3, .lr true false false rd rs1)] else [])

/-- An engine instance whose kick has ended with this completion word (R321): the word in the kicker's record, one kick fewer
outstanding, the instance free. -/
def KickEnded (s t : State) (k : Nat) (kick : Kick) (word : Dword) : Prop :=
  (t.engine k).running = none ∧ ((t.engine k).hart.run = .idle ∧ (t.engine k).hart.handler = none) ∧ (t.engine k).ops = [] ∧
    ((t.hart kick.kicker).kicks.getD (k % 7) {}).word = word ∧
    ((t.hart kick.kicker).kicks.getD (k % 7) {}).outstanding = ((s.hart kick.kicker).kicks.getD (k % 7) {}).outstanding - 1 ∧
    (t.engine k).queue = (s.engine k).queue

end Sys2Proof.Claim
end

