-- ==== Sys2Proof/Safety/Lanes.lean ====
section
/-! DEFINITION. What the statements speak of, for lanes: how groups move and divide, leave and meet, and what lane memory, matrix and function instructions act on. -/

namespace Sys2Proof.Claim

open Sys2Proof.Machine

/-- The state once lane control has left `w` as the wave and retires. -/
def laneTo (s : State) (c : LCtx) (w : Wave) : State := laneRetired (s.setWave c.k w) c

/-- The taken lanes of BRA: the active ones whose condition holds (R202, R203). -/
def branching (s : State) (c : LCtx) : Mask :=
  let p := (s.wave c.k).pred (c.w.vd.toNat % 8)
  c.act &&& (if c.w.vd.getLsbD 3 then ~~~p else p)

/-- The group of a slot at another lane pc. -/
def groupTo (c : LCtx) (pc : Nat) (w : Wave) : Wave := w.setGroup c.sec ((w.group c.sec).map fun g => g.at pc)

/-- A change of the groups that leaves no fragment or record in the wave's frame (R136). -/
def OnChip (v w : Wave) : Prop := v.frags.length ≤ 4 ∧ w.frags.length ≤ 4 ∧ w.recs.length ≤ 8

/-- A group divided in two under a new record `r` (R133): the first part stays in the slot, the second takes the other slot if that
is free, else it is the newest fragment. -/
def divided (s : State) (c : LCtx) (r addr : Nat) (first second : Mask × Nat) : Wave :=
  let w := s.wave c.k
  let a : Group := { mask := first.1, pc := first.2, token := r }
  let b : Group := { mask := second.1, pc := second.2, token := r }
  let w := { w with recs := w.recs.put r { addr := addr, parent := c.g.token, pending := c.g.mask, arrived := 0 } }
  match c.sec, (s.wave c.k).pri, (s.wave c.k).sec with
  | false, _, none => { w with
      pri := some a
      sec := some b }
  | true, none, _ => { w with
      pri := some b
      sec := some a }
  | false, _, some _ => { w with
      pri := some a
      frags := w.frags ++ [{ b with since := s.clk }] }
  | true, some _, _ => { w with
      sec := some a
      frags := w.frags ++ [{ b with since := s.clk }] }

/-- Every target of BRX: the offset in an active lane's register, the next instruction for another lane (R204). -/
def branchTo (s : State) (c : LCtx) (l : Nat) : Nat :=
  if Mask.has c.act l then ((s.wave c.k).reg c.w.vd.toNat l).toNat else c.g.pc + 12

/-- The target sets of BRX, larger first, equal ones by address (R204). -/
def branchSets (s : State) (c : LCtx) : List (Mask × Nat) :=
  (targetSets ((lanesOf c.g.mask).map fun l => (l, branchTo s c l))).foldr insertSet []

/-- Nothing that the wave issued is outstanding: accesses, pending updates, special functions, sends (R159, R218, R328). -/
structure WaveQuiet (s : State) (k : Nat) : Prop where
  accesses : (s.wave k).accesses = []
  updates : ∀ q ∈ s.quantum, q.unit ≠ (UnitId.wave k).code
  functions : (s.wave k).sfx = []
  sends : s.waveSendsGone k = true

/-- The state once lanes of the slot's group have left the wave (R135), barriers have been looked at again (R210) and the instruction
has retired. -/
def departed (s : State) (c : LCtx) (m : Mask) : State :=
  laneRetired ((s.setWave c.k ((s.wave c.k).leave c.sec c.g m s.clk)).barCover c.k (List.range 16)) c

/-- Bytes that resolve through the translations at hand (R255, R256). -/
def Resolves (s : State) (acc : Acc) (va : Dword) (n : Nat) (k : AccessKind) : Prop := ∃ g, resolve acc va n k s = .ok g s

/-- Lanes can leave the wave while others stay, with nothing spilled (R135, R136). -/
structure LanesStay (s : State) (c : LCtx) (m : Mask) : Prop where
  onChip : OnChip (s.wave c.k) ((s.wave c.k).leave c.sec c.g m s.clk)
  others : (s.wave c.k).lanes &&& ~~~m ≠ 0#64

/-- A barrier of a crew once one more wave is counted (R210). -/
def counted (b : Barrier) : Barrier :=
  if b.count + 1 = b.expect then { b with
    count := 0
    phase := b.phase + 1 }
  else { b with count := b.count + 1 }

/-- The continuation that a migrating lane becomes (R139, R208). -/
def migrant (w : Wave) (code cls : Nat) (l : Nat) (block : Dword) : Cont :=
  { w0 := BitVec.ofNat 64 (code + l * 2 ^ 48)
    w1 := block &&& 0xFFFFFFFFFFFF#64
    w2 := w.joinFor l &&& 0xFFFFFFFFFFFF#64
    w3 := BitVec.ofNat 64 (cls % 4 * 4 + 2 ^ 17 + 2 ^ 18) }

/-- The continuations of migrated lanes, enqueued in order. -/
def pushMigrated (o : Origin) (w : Wave) (code cls : Nat) (bs : List (Nat × Dword)) (s : State) : State :=
  bs.foldl (fun u b => u.pushCont o.cluster ({ o with gfx := w.laneGfx.find b.1 }.queued u (migrant w code cls b.1 b.2))) s

/-- The message that a lane sends (R217). -/
def laneMessage (k l : Nat) (m : Msg) (body : List Byte) : SendEntry :=
  .msg { m with
    sender := laneSender k l m.pri
    payload := body
    wave := some k }

/-- A lane memory instruction may use its record: it passes the checks (R193), every word is in bounds or the record is lenient (R195),
and no acquire holds the access back (R275). -/
structure LanesPlaced (s : State) (c : LCtx) : Prop where
  record : badRecord (recordOf s c) c.w.ty = none
  pair : BufRec.flat (recordOf s c) = true → c.w.va.getLsbD 0 = false
  strict : BufRec.bnd (recordOf s c) = 1 → ∀ l ∈ lanesOf c.act, (wordAt s c l).oob = false
  held : ∀ a ∈ (s.wave c.k).accesses, a.hold = false

/-- The words in bounds are aligned and canonical (R195, R274). -/
def WordsAligned (s : State) (c : LCtx) : Prop :=
  ∀ l ∈ inBounds s c, (wordAt s c l).mis = false ∧ (wordAt s c l).va.toNat % wordSize c.w.ty = 0 ∧ canonical (wordAt s c l).va = true

/-- The semaphore of the instruction's signal, if it has one, is there (R159). -/
def Signals (t : State) (c : LCtx) : Prop := sigAmount c.i c.w ≠ 0 → (t.waveSem c.k c.w.sign.toNat).isSome = true

/-- The state with lanes out of bounds, if any, noted in dwstat (R195). -/
def notes (s : State) (c : LCtx) (inside : List Nat) (store : Bool) : State :=
  if inside.length < (lanesOf c.act).length then s.setWave c.k { s.wave c.k with
    dwstat := (s.wave c.k).dwstat ||| 1 ||| (if store then 2 else 0) } else s

/-- The nibble of a lane: the address of its byte and which half it is (R278). -/
def nibbleOf (s : State) (c : LCtx) (l : Nat) : LaneAddr × Nat := nibbleAddr c (s.wave c.k) (recordOf s c) l
def nibblesIn (s : State) (c : LCtx) : List Nat := (lanesOf c.act).filter fun l => !(nibbleOf s c l).1.oob

/-- Memory after the nibble stores of some lanes, in order: each replaces one half of its byte with the low bits of VD (R279). -/
def nibblesStored (s : State) (c : LCtx) (pa : Nat → Nat) (ls : List Nat) (m : List Host.Cell) : List Host.Cell :=
  ls.foldl (fun m l =>
    let old := natOfBytes (Memory.read m (pa l) 1)
    let d := ((s.wave c.k).reg c.w.vd.toNat l).toNat % 16
    Memory.write m (pa l) (leBytes 1 (if (nibbleOf s c l).2 = 0 then old / 16 * 16 + d else old % 16 + d * 16))) m

/-- The ranges of CWB, CINV and CFLUSH: of each lane in bounds with a length that is not 0 (R287). -/
def rangesOf (s : State) (c : LCtx) : List LaneRange :=
  ((inBounds s c).filter fun l => ((s.wave c.k).reg c.w.vd.toNat l).toNat != 0).map fun l =>
    { lane := l, lo := (wordAt s c l).va.toNat % 2 ^ 48, len := ((s.wave c.k).reg c.w.vd.toNat l).toNat }

/-- A lane's stq as it enters the send queue (R288). -/
def laneStq (s : State) (c : LCtx) (l : Nat) (o : StqOp) (payload : List Byte) : SendEntry :=
  .stq { o with
    queue := 8192 + c.k / 16
    payload := payload
    cluster := c.k / 128
    dptb := (s.wave c.k).hart.dptb
    priv := .u
    dcrew := (s.wave c.k).hart.dcrew
    wave := some c.k
    lane := l }

/-- The lanes whose word PFH asks for: those that no check turns away (R289). -/
def fetched (s : State) (c : LCtx) : List Dword :=
  (((lanesOf c.act).map (wordAt s c)).filter fun a => !a.oob && !a.mis && a.va.toNat % wordSize c.w.ty == 0 && canonical a.va).map (·.va)

/-- The registers that the instruction would write stay within the wave's PEAK (R153, R162). -/
def Room (s : State) (c : LCtx) (ns : List Nat) : Prop := c.act ≠ 0#64 → overPeak s c.k (laneFrees c (s.wave c.k)) ns = false

/-- Memory after words of accumulators are written, in order (R191, R346). -/
def accsWritten (ks : List (Nat × Word)) (m : List Host.Cell) : List Host.Cell :=
  ks.foldl (fun m e => Memory.write m e.1 (leBytes 4 e.2.toNat)) m

/-- No running matrix command writes an element (R345). -/
def AccsFree (s : State) (c : LCtx) (ks : List (Nat × Word)) : Prop := ∀ e ∈ ks, s.runningOut (c.k / 128) e.1 = none

/-- The elements that KWR and ACC.ZERO write. -/
def rowWrite (s : State) (c : LCtx) : List (Nat × Word) :=
  (lanesOf c.act).map fun l => (s.rowKey c.k (rowOf c c.w.vd) l, (s.wave c.k).reg c.w.va.toNat l)
def rowZero (s : State) (c : LCtx) : List (Nat × Word) :=
  if c.act = 0 then []
  else (List.range (c.w.vc.toNat + 1)).flatMap fun i => (List.range 64).map fun l => (s.rowKey c.k (rowOf c c.w.vd + i) l, 0)

/-- The arrival of MMA.G at its crew's latch (R343). -/
def arrivalAt (s : State) (c : LCtx) : MmaArrival :=
  { wave := c.k, rank := (s.wave c.k).rank, lane := lowLane c.g.mask, pc := c.g.pc, act := c.act,
    vals := (lanesOf c.act).map fun l => (l, (s.wave c.k).reg c.w.va.toNat l, (s.wave c.k).reg c.w.vb.toNat l) }

end Sys2Proof.Claim
end

