-- ==== Sys2Proof/Safety/Events.lean ====
section
/-! DEFINITION. What the statements speak of, for events: records, starts, arrivals, kicks and commands in their states of being due. -/

namespace Sys2Proof.Claim

open Sys2Proof.Machine

/-- A granule whose lines the host does not hold, and whose first line is one of it (R310, R425). -/
def GranuleFree (s : State) (g : Nat) : Prop :=
  s.isGranule g = true ∧ (∀ l ∈ s.granuleLines g, s.hostFilter.contains l = false) ∧ s.granuleOf ((s.granuleLines g).headD g) = g

/-- No access under way of the cluster's waves uses a translation that the invalidation names (R272). -/
def NoUse (s : State) (i : Inval) (c : Nat) : Prop := ∀ e ∈ s.waves, e.1 / 128 = c → ∀ a ∈ e.2.accesses, i.holds a = false

/-- Every launch ends for a failure of the package (R419, R434). -/
def endAll (s : State) : State := (s.launches.map (·.1)).foldl (fun u n => u.endLaunch n 0 0 255 0) s

/-- The bytes that an access of a host or a peer writes: those of one line (R422, R426). -/
def lineData (addr : Nat) (data : List Byte) : List Byte := data.take (256 - addr % 256)

/-- The message that arrives at place `n` of those on the network, no earlier one of its stream before it (R103). -/
def Arrives (s : State) (n : Nat) (m : Msg) : Prop := s.net[n]? = some m ∧ (s.net.take n).any m.sameStream = false

/-- The state with the message off the network, and its entry at the sender free if it carries a handler (R402). -/
def offNet (s : State) (n : Nat) (m : Msg) : State := ({ s with net := s.net.eraseIdx n } : State).freeHeld m

/-- A context after a message reaches it (R104, R105, R402): a handler waits, a mailbox deposit lands, a message joins the inbox of 4 or
the overflow queue. -/
def received (h : Hart) (m : Msg) : Hart :=
  if m.handler.isSome then { h with handlerQueue := h.handlerQueue ++ [m] }
  else if m.dest.getLsbD 28 then { h with
    deps := h.deps ++ [((m.dest.extractLsb' 25 3).toNat, BitVec.ofNat 64 (natOfBytes (m.payload.take 8)))] }
  else if h.inbox.length < 4 ∧ h.overflow = [] then { h with inbox := h.inbox ++ [m] }
  else { h with overflow := h.overflow ++ [m] }

/-- A context that core reset leaves (R32): idle in U, its standard and device CSRs 0, no timer compare, no reservation. -/
def AfterCoreReset (r : Hart) : Prop :=
  r.run = .idle ∧ r.priv = .u ∧ r.tn = false ∧ r.hm = false ∧ r.handler = none ∧ r.resv = none ∧ r.sstatus = 0 ∧ r.stvec = 0 ∧
    r.sscratch = 0 ∧ r.sepc = 0 ∧ r.scause = 0 ∧ r.stval = 0 ∧ r.sie = 0 ∧ r.ssip = false ∧ r.fcsr = 0 ∧ r.dcrew = 0 ∧ r.dcause = 0 ∧
    r.dptb = 0 ∧ r.dtimecmp = BitVec.allOnes 64

/-- Work queue `q` has a record to take and the front end may take it (R232): record `n` at `addr`, in a line that the host does not
hold, without poison. -/
structure RecordReady (s : State) (q n addr : Nat) : Prop where
  queue : q < 4096
  en : (s.queue q).en = true
  blocked : (s.queue q).blocked = false
  current : (s.queue q).current = none
  tail : ((s.queue q).tail + 2 ^ 32 - (s.queue q).head) % 2 ^ 32 ≤ 2 ^ (s.queue q).logn
  waits : ((s.queue q).tail + 2 ^ 32 - (s.queue q).taken) % 2 ^ 32 ≠ 0
  most : ((s.queue q).tail + 2 ^ 32 - (s.queue q).taken) % 2 ^ 32 ≤ 2 ^ (s.queue q).logn
  isNext : n = (s.queue q).taken
  isAddr : addr = (s.queue q).base + 128 * (n % 2 ^ (s.queue q).logn)
  host : s.hostFilter.contains (addr / 256) = false
  place : paKind addr = .dram ∨ paKind addr = .host
  clean : s.poisoned addr 128 = false
  up : s.up ≠ some false

/-- The state with the record taken. -/
def recordTaken (s : State) (q n : Nat) : State := s.setQueue q { s.queue q with taken := (n + 1) % 2 ^ 32 }

/-- A unit that has started (R31, R125): its pc, x2 and x10 to x12, every other integer register 0, U level, no reservation, TN and HM
clear. -/
def Begun (r : Hart) (ref : CrewRef) (pc sp a0 a1 a2 : Dword) : Prop :=
  r.pc = pc ∧ r.rx 2 = sp ∧ r.rx 10 = a0 ∧ r.rx 11 = a1 ∧ r.rx 12 = a2 ∧ r.priv = .u ∧ r.run = .running ∧ r.resv = none ∧ r.tn = false ∧
    r.hm = false ∧ r.crew = some ref ∧ ∀ j : Reg, j ≠ 2 → j ≠ 10 → j ≠ 11 → j ≠ 12 → j ≠ 13 → r.rx j = 0

/-- The rank that the front end starts next in a crew (R240). -/
structure StartDue (s : State) (crew rank : Nat) (ref : CrewRef) (c : Crew) (l : Launch) : Prop where
  crew : s.crewAt crew = some (ref, c)
  launch : s.launches.find c.launch = some l
  preempt : c.preempt = false
  toStart : c.toStart ≠ 0
  rank : l.nextStart c = rank

/-- The crew is gone from its slot. -/
def SlotFree (s : State) (ref : CrewRef) : Prop := (s.cluster ref.cluster).crews.find ref.slot = none

/-- The state once a killed crew's units are stopped and its storage is scrubbed and released, the kill logged (R410), as `killed`
changes the launch: an idempotent one expands the position again below four kills, another ends. -/
def killed (s : State) (ref : CrewRef) (c : Crew) (l : Launch) (code detail addr : Nat) : State :=
  let n := l.kills.getD c.linear 0 + 1
  let u := (s.scrapCrew ref c).logError code detail 2 255 ref.cluster addr l.queue (l.record % 65536) c.linear
  if l.idem ∧ n < 4 then u.setLaunch c.launch { l with kills := l.kills.put c.linear n, again := l.again ++ [c.linear] }
  else (u.setLaunch c.launch { l with kills := l.kills.put c.linear n }).endLaunch c.launch code detail 255 ref.cluster

/-- Memory after the outputs of a matrix command are written (R345). -/
def outsWritten (os : List MatOut) (m : List Host.Cell) : List Host.Cell :=
  os.foldl (fun m o => Memory.write m o.key (leBytes 4 o.value.1.toNat)) m

/-- The flags that the outputs of a matrix command raise. -/
def outFlags (os : List MatOut) : Nat := os.foldl (fun f o => f ||| o.value.2) 0

/-- The state in which an engine checks the first kick of its queue. -/
def kickTaken (s : State) (k : Nat) (kick : Kick) (rest : List Kick) : State :=
  s.setEngine k { s.engine k with
    running := some kick
    queue := rest
    hart := (s.engine k).hart.kicked kick 0
    flags := if k % 7 < 4 then 0 else (s.engine k).flags }

/-- The image of a kick's launch. -/
def imgOf (s : State) (kick : Kick) : Image := ((s.launches.find kick.launch).map (·.img)).getD {}

/-- An idle engine has a kick whose role the placement table names, with the section of that role, and whose record, at the argument
pointer, is reached through entry `e` and holds an entry point in the section and zeros (R85, R319, R320). -/
structure KickReady (s : State) (k : Nat) (kick : Kick) (rest : List Kick) (e : TlbEntry) (sec : Section) (entry : Nat) : Prop where
  idle : (s.engine k).running = none
  queue : (s.engine k).queue = kick :: rest
  role : ∃ r, (imgOf s kick).engineRole k = some r ∧ ((imgOf s kick).engineCode.find? fun x => x.role == r) = some sec
  aligned : kick.arg.toNat % 8 = 0
  reaches : Reaches (kickTaken s k kick rest) ((kickTaken s k kick rest).accOf (.engine k)) .load kick.arg 8 e
  word : (kickTaken s k kick rest).peek (trOf e.pte e.size (kick.arg.toNat % 2 ^ 48)).pa 8 = leBytes 4 entry ++ [0, 0, 0, 0]
  range : entry < 2 ^ 32
  entryAligned : entry % 4 = 0
  inside : entry < sec.size

/-- The operations of the copy channels, with their code and the step of an element (R323). -/
def copySteps (k : Nat) : List (Instr × Nat × (Nat → CopyJob → M Unit)) :=
  [(.copyMove k, 0, moveStep), (.copyGather k, 1, gatherStep), (.copyScatter k, 2, scatterStep), (.copyConvert k, 3, convertStep),
    (.copyDelta k, 4, deltaStep), (.copyRle k, 5, rleStep)]

/-- A copy channel executes a kick. -/
def ChannelRuns (s : State) (k : Nat) : Prop := (s.engine k).running.isSome = true ∧ k % 7 < 4

/-- The channel's running operation, changed. -/
def withCopy (s : State) (k : Nat) (j : CopyJob) : State := s.setEngine k { s.engine k with copy := some j }

/-- The operations and events of the table that are no instruction of a hart or a wave: they have no encoding. -/
def isEvent (i : Instr) : Bool :=
  match i with
  | .messageDepart _ _ | .messageArrival _ | .laneSignalLand _ | .laneMemoryComplete _ _ | .sfxResult _ _
  | .migrationBlockGrant _ | .mldStart _ _ | .mldComplete _ _ | .mmaLatch _ | .mmaStart _ | .mmaComplete _
  | .launchRecordTake _ | .crewAdmit _ _ | .admissionAgeLimit _ | .waveStart _ _ | .frontEndStrandStart _ _
  | .continuationPop _ _ | .atomiserArrival _ | .gatherWindowExpiry _ | .atomiserWaveForm _ _ | .fragmentAgeLimit _
  | .gtoAgeingLimit _ | .crewEnd _ | .heldMessageDelivery _ | .handlerStart _ | .stqTarget _ | .engineKickStart _
  | .copyMove _ | .copyGather _ | .copyScatter _ | .copyConvert _ | .copyDelta _ | .copyRle _ | .bloomEventArrival _
  | .bloomFanoutJob _ | .rasterMesh _ | .rasterBlockEmit _ | .blendTicket _ _ | .traverseRay _ | .interruptTake _
  | .timerCompare _ | .crewSave _ | .preemptDeadline _ | .invalidationReceive _ _ | .invalidationAck _ _ | .hotnessHalving _
  | .quantumFlush _ | .wqDoorbell _ _ | .dmgangWrite _ _ | .dmringWrite _ _ _ | .matrixKilled _ _ _ _ | .sillageInstall _ _
  | .sillageTileRequest _ _ | .bloomInstall _ _ | .bloomUninstall _ _ | .laneHandlerRun _ _ | .preemptRequest _ _
  | .resume _ | .crewKill _ _ | .doorbell _ | .hostInterrupt _ | .wectlWrite _ _ | .dlsplitWrite _ _ | .dlgroupWrite _ _
  | .registerWrite _ _ | .pageWalk _ _ _ | .tokenRequest _ _ _ | .persistentRequest _ _ _ | .tokenEviction _ _
  | .homeRecall _ | .hostSnoop _ _ | .hostMemAccess _ _ _ | .backInvalidationResponse _ | .flitReplay _ _
  | .linkRetrain _ _ _ | .halhelFailover _ | .eccCorrected _ _ | .eccUncorrected _ | .coreReset _ | .attestation _
  | .governorWindow _ _ | .thermalTrip _ | .peerWindowAccess _ _ _ | .thermalThrottle _ | .crewExpand | .imageLoad
  | .imageUnload | .bringUp => true
  | _ => false

end Sys2Proof.Claim
end

