-- ==== Sys2Proof/Certificates/Slice0/Obligations.lean ====
section
/-! DEFINITION. The statements for the provers, from the numbered rules of spec/ file by file. A docstring names the rules that a
statement rests on; where it rests on a choice of the model it names the log entry. -/

open Sys2Proof Sys2Proof.Machine

/-! ## Steps and encodings -/

/-- A step runs the instruction that the bytes at the pc encode: of a hart whose turn it is, and of a lane group. -/
def Obligations.StepRunsTheDecodedInstruction : Prop :=
  (∀ (s u t : State) (h : HartId) (rest : List Turn) (bs : List Byte),
    s.halted = false → s.sched = Claim.turnOf h :: rest → u = { s with sched := rest, actor := some (.hart h) } →
    Claim.Fetches u h → fetchBytes (u.accOf h) (u.hart h).pc 4 u = .ok bs t →
    step s = exec (decodeScalar (BitVec.ofNat 32 (natOfBytes bs))) t) ∧
  (∀ (s u t : State) (k : Nat) (sec : Bool) (g : Group) (rest : List Turn) (bs : List Byte),
    s.halted = false → s.sched = .lanes k sec :: rest → u = { s with sched := rest, actor := some (.lanes k sec) } →
    (u.wave k).group sec = some g → (u.wave k).lanesIssue = true → u.waveBufsDue k = false → (u.wave k).lhandler = none →
    g.pc + 12 ≤ (u.wave k).code.size →
    fetchBytes (u.laneAcc k) (BitVec.ofNat 64 ((u.wave k).code.va + g.pc)) 12 u = .ok bs t →
    step s = exec (decodeLane (BitVec.ofNat 96 (natOfBytes bs))) t)

/-- The encodings worked in the spec, and one word of each other family of the scalar instructions written from the encoding tables: the
custom words of R65 to R68 (worked after R69), the standard ones of R10, and the lane words worked at R149, R198, R285, R330, R371 and in
the program of the die handoff, as parcels 2, 1 and 0 (R144). A reserved lane opcode names no lane instruction (R165). -/
def Obligations.WrittenWordsDecode : Prop :=
  decodeScalar 0x2030150B#32 = .semWaiti 10 3 2 ∧
  decodeScalar 0x1040200B#32 = .semSigi 0 4 1 ∧
  decodeScalar 0x56C5857B#32 = .amoAdd { scope := 1, sem := 5, dbl := true, rs2 := 12, rs1 := 11, rd := 10 } ∧
  decodeScalar 0x1800505B#32 = .fenceS 0 6 ∧
  decodeScalar 0x0000002B#32 = .contSpawn 0 0 ∧
  decodeScalar 0x00C58533#32 = .standardInstruction (.op .add 10 11 12) ∧
  decodeScalar 0x00853503#32 = .standardLoadStore (.load .d 10 10 8) ∧
  decodeScalar 0x10200073#32 = .sret ∧
  decodeScalar 0x0000007F#32 = .standardInstruction (.illegal 0x7F) ∧
  decodeTableWord 32 0x10200073 = some .sret ∧
  decodeTableWord 96 0x000000001600041206090080 = some (.ld { Claim.blank with vd := 9, va := 6, vb := 0x12, vc := 4, ty := 11 }) ∧
  decodeLane 0x070000000E000023060C0083#96 =
    .atomAdd { Claim.blank with vd := 12, va := 6, vb := 0x23, ty := 7, hi := 0x07000000 } ∧
  decodeLane 0x0000000016100100090D0416#96 = .sfx 4 { Claim.blank with vd := 13, va := 9, vc := 1, lra := true, ty := 11 } ∧
  decodeLane 0x000000000000000005000017#96 = .sfxWait { Claim.blank with va := 5 } ∧
  decodeLane 0x000000001000000014000024#96 = .blmEmit { Claim.blank with va := 20, ty := 8 } ∧
  decodeLane 0x0000000000020001030C0087#96 = .cwb { Claim.blank with vd := 12, va := 3, vb := 1, gp := 2 } ∧
  decodeLane 0x0000000000020002030D0287#96 = .cflush { Claim.blank with vd := 13, va := 3, vb := 2, gp := 2 } ∧
  decodeLane 0x060000000E02003303090085#96 =
    .sts { Claim.blank with vd := 9, va := 3, vb := 0x33, gp := 2, ty := 7, hi := 0x06000000 } ∧
  decodeLane 0x000900000000FFFFE80200C0#96 = .bra { Claim.blank with vd := 2, va := 0xE8, vb := 0xFF, vc := 0xFF, hi := 0x00090000 } ∧
  decodeLane 0x000000000000000000000018#96 = .reservedLaneOpcode 0x18

/-! ## Scalar harts -/

/-- An integer instruction of a hart writes its result to rd (nothing for x0) and nothing else changes but pc and instret. -/
def Obligations.IntegerInstructionWritesItsResult : Prop :=
  ∀ (s : State) (h : HartId) (op : RvOp) (rd : Reg) (v : Dword), Executes s h →
    Claim.integerResult (s.hart h) op = some (rd, v) →
    exec (.standardInstruction op) s = .next (s.setHart h ((s.hart h).stepped.wx rd v))

/-- Jumps and taken branches reach an aligned target with the link written; an unaligned one raises scause 0 at the jump with the
target in stval, and nothing is written. A branch not taken goes on. -/
def Obligations.JumpReachesItsTargetOrTraps : Prop :=
  (∀ (s : State) (h : HartId) (op : RvOp) (rd : Reg) (t : Dword), Executes s h → Claim.jump (s.hart h) op = some (rd, t) →
    (t.toNat % 4 = 0 → exec (.standardInstruction op) s =
      .next (s.setHart h ({ (s.hart h).stepped with pc := t }.wx rd ((s.hart h).pc + 4)))) ∧
    (t.toNat % 4 ≠ 0 → exec (.standardInstruction op) s =
      .next ((s.setHart h { s.hart h with run := .running }).takeExc h (s.hart h).pc
        { code := 4, detail := 0, tval := t, scause := 0 }))) ∧
  (∀ (s : State) (h : HartId) (c : BrCond) (rs1 rs2 : Reg) (off : BitVec 12), Executes s h →
    taken c ((s.hart h).rx rs1) ((s.hart h).rx rs2) = false →
    exec (.standardInstruction (.branch c rs1 rs2 off)) s = .next (s.setHart h (s.hart h).stepped))

/-! ## Traps (R27 to R30, R69, R394 to R398) -/

/-- An exception of a strand outside handlers while TN is clear (R27, R21): sepc, scause, stval, dcause, the jump to stvec.BASE, TN;
no other unit and no byte of memory changes. -/
def Obligations.StrandExceptionEntersS : Prop :=
  ∀ (s : State) (k : Nat) (epc : Dword) (e : Exc), (s.hart (.strand k)).tn = false → (s.hart (.strand k)).handler = none →
    ∃ r, s.takeExc (.strand k) epc e = s.setHart (.strand k) r ∧
      Claim.EntersS (s.hart (.strand k)) r epc (BitVec.ofNat 64 e.scause) e.tval
        (BitVec.ofNat 64 (e.detail % 65536 * 65536 + e.code % 65536)) ((s.hart (.strand k)).stvec &&& ~~~3#64)

/-- The standard exceptions of a strand (R29): ECALL raises scause 8 in U and 9 in S, to the same handler, with no device cause; EBREAK
raises scause 3 with dcause BREAK; a jump or taken branch to a target that is not 4-byte aligned raises scause 0 at the jump, with sepc
at the jump and stval the target, and writes no link. -/
def Obligations.StandardExceptionsAreRaised : Prop :=
  ∀ (s : State) (k : Nat), Executes s (.strand k) → (s.hart (.strand k)).tn = false →
    let r := s.hart (.strand k)
    let base := r.stvec &&& ~~~3#64
    (∃ t, exec .ecall s = .next (s.setHart (.strand k) t) ∧
      Claim.EntersS r t r.pc (if r.priv = .s then 9 else 8) 0 0 base) ∧
    (∃ (t : Hart) (v : Dword), exec .ebreak s = .next (({ s with free := s.free + 1 } : State).setHart (.strand k) t) ∧
      Claim.EntersS r t r.pc 3 v 23 base) ∧
    (∀ op rd target, Claim.jump r op = some (rd, target) → target.toNat % 4 ≠ 0 →
      ∃ t dcause, exec (.standardInstruction op) s = .next (s.setHart (.strand k) t) ∧
        Claim.EntersS r t r.pc 0 target dcause base)

/-- A trap of a whole wave by its uniform hart (R394, R395, R396): the uniform hart enters S, dwtrap holds SRC 1 with the cause,
dwmask reads 0, dwlpc is the lane pc of the primary group; while its accesses are outstanding the wave waits at the
instruction. -/
def Obligations.UniformExceptionTrapsTheWave : Prop :=
  ∀ (s : State) (k : Nat) (epc : Dword) (e : Exc), (s.wave k).hart.tn = false → e.code < 65536 → e.detail < 65536 →
    ((s.wave k).accesses = [] → (s.wave k).sfx = [] → (s.wave k).uended = false →
      ∃ w, s.takeExc (.uniform k) epc e = s.setWave k w ∧
        Claim.EntersS (s.wave k).hart w.hart epc (BitVec.ofNat 64 e.scause) e.tval
          (BitVec.ofNat 64 (e.detail * 65536 + e.code)) ((s.wave k).hart.stvec &&& ~~~3#64) ∧
        w.trap.act = true ∧ w.trap.src = 1 ∧ w.trap.code.toNat = e.code ∧ w.trap.detail.toNat = e.detail ∧ w.trap.mask = 0 ∧
        w.trap.lpc = BitVec.ofNat 32 (((s.wave k).pri.map (·.pc)).getD 0) ∧ w.trap.sp7 = (s.wave k).p[7] ∧ w.p[7] = 0 ∧
        w.trap.lfm = (s.wave k).lfm ∧ w.lfm = (s.wave k).lfm ∧ w.v = (s.wave k).v ∧ w.pri = (s.wave k).pri ∧
        w.sec = (s.wave k).sec ∧ w.frags = (s.wave k).frags ∧ w.lanes = (s.wave k).lanes) ∧
    ((s.wave k).accesses ≠ [] →
      s.takeExc (.uniform k) epc e = s.setWave k { s.wave k with hart := { (s.wave k).hart with pc := epc, run := .running } })

/-- SRET in S (R28, R403): the pc from sepc, the level from SPP, SIE from SPIE, SPIE set, SPP cleared, TN and HM clear. On a trapped
wave it restores p7 and lfm, puts the trapping group back at dwlpc for a lane trap and clears ACT (R398). -/
def Obligations.SretReturns : Prop :=
  (∀ (s : State) (k : Nat), Executes s (.strand k) → (s.hart (.strand k)).priv = .s →
    ∃ t, exec .sret s = .next (s.setHart (.strand k) t) ∧ t.pc = (s.hart (.strand k)).sepc ∧
      t.priv = (if (s.hart (.strand k)).sstatus.getLsbD 8 then .s else .u) ∧ t.tn = false ∧ t.hm = false ∧
      t.sstatus.getLsbD 1 = (s.hart (.strand k)).sstatus.getLsbD 5 ∧ t.sstatus.getLsbD 5 = true ∧ t.sstatus.getLsbD 8 = false ∧
      (∀ i, i < 64 → i ≠ 1 → i ≠ 5 → i ≠ 8 → t.sstatus.getLsbD i = (s.hart (.strand k)).sstatus.getLsbD i) ∧
      t.x = (s.hart (.strand k)).x ∧ t.f = (s.hart (.strand k)).f ∧ t.instret = (s.hart (.strand k)).instret + 1 ∧
      t.sepc = (s.hart (.strand k)).sepc ∧ t.scause = (s.hart (.strand k)).scause ∧ t.stval = (s.hart (.strand k)).stval) ∧
  (∀ (s : State) (k : Nat), Executes s (.uniform k) → (s.wave k).hart.priv = .s → (s.wave k).trap.act = true →
    ∃ w, exec .sret s = .next (s.setWave k w) ∧ w.trap.act = false ∧ w.hart.tn = false ∧ w.p[7] = (s.wave k).trap.sp7 ∧
      w.lfm = (s.wave k).trap.lfm ∧ w.v = (s.wave k).v ∧ w.lanes = (s.wave k).lanes ∧ w.frags = (s.wave k).frags ∧
      ((s.wave k).trap.src = 0 → (s.wave k).trap.grp = false →
        w.pri.map (·.pc) = (s.wave k).pri.map (fun _ => (s.wave k).trap.lpc.toNat) ∧
        w.pri.map (·.mask) = (s.wave k).pri.map (·.mask) ∧ w.sec = (s.wave k).sec) ∧
      ((s.wave k).trap.src = 0 → (s.wave k).trap.grp = true →
        w.sec.map (·.pc) = (s.wave k).sec.map (fun _ => (s.wave k).trap.lpc.toNat) ∧
        w.sec.map (·.mask) = (s.wave k).sec.map (·.mask) ∧ w.pri = (s.wave k).pri) ∧
      ((s.wave k).trap.src ≠ 0 → w.pri = (s.wave k).pri ∧ w.sec = (s.wave k).sec) ∧
      ((s.wave k).trap.revived = true → w.uended = true ∧ w.hart.run = .idle) ∧
      ((s.wave k).trap.revived = false → w.uended = false ∧ w.hart.pc = (s.wave k).hart.sepc)) ∧
  (∀ (s : State) (k : Nat), Executes s (.uniform k) → (s.wave k).hart.priv = .s → (s.wave k).trap.act = false →
    ∃ t, exec .sret s = .next (s.setHart (.uniform k) t) ∧ t.pc = (s.wave k).hart.sepc ∧ t.tn = false ∧
      t.priv = (if (s.wave k).hart.sstatus.getLsbD 8 then .s else .u) ∧ t.x = (s.wave k).hart.x)

/-- A privileged instruction below its level raises PRIVILEGE: scause 2, the instruction word in stval, dcause 3 (R12, R21, R69). -/
def Obligations.PrivilegedInstructionInUTraps : Prop :=
  ∀ (s : State) (h : HartId) (i : Instr) (w : Word), Executes s h → HartKind.isEngine h = false → (s.hart h).priv = .u →
    (i = .sret ∨ i = .wfi ∨ (∃ a b, i = .sfenceVma a b) ∨ (∃ a b, i = .hotRead a b) ∨ (∃ a, i = .hotClr a) ∨
      (∃ a b, i = .tlbInv a b)) → encodeScalar i = some w →
    exec i s = .next ((s.setHart h { s.hart h with run := .running }).takeExc h (s.hart h).pc
      { code := 3, detail := 0, tval := w.setWidth 64, scause := 2 })

/-- An instruction absent from this kind of hart, and a word that encodes none, raise ILLEGAL_OPCODE (R33, R69, R319): scause 2,
the instruction word in stval, dcause 1. -/
def Obligations.AbsentInstructionIsIllegal : Prop :=
  (∀ (s : State) (k : Nat) (i : Instr) (w : Word), Executes s (.uniform k) → encodeScalar i = some w →
    ((∃ rd n, i = .mbRead rd n) ∨ (∃ n rs, i = .mbWrite n rs) ∨ (∃ rd n rs, i = .mbSwap rd n rs) ∨ (∃ a b, i = .msgRecv a b) ∨
      (∃ a b, i = .msgReply a b) ∨ i = .migW ∨ (∃ imm a b, i = .fenceI imm a b)) →
    exec i s = .next ((s.setHart (.uniform k) { s.hart (.uniform k) with run := .running }).takeExc (.uniform k)
      (s.hart (.uniform k)).pc { code := 1, detail := 0, tval := w.setWidth 64, scause := 2 })) ∧
  (∀ (s : State) (k : Nat) (i : Instr) (w : Word), Executes s (.engine k) → encodeScalar i = some w →
    (i = .sret ∨ i = .wfi ∨ i = .scalarYield ∨ i = .scalarSafe ∨ (∃ rd, i = .futNew rd) ∨ (∃ a b, i = .futSet a b) ∨
      (∃ a b, i = .futWait a b) ∨ (∃ a b, i = .futPoll a b) ∨ (∃ a, i = .futPoison a) ∨ (∃ a, i = .futFree a) ∨
      (∃ a b, i = .contSpawn a b) ∨ (∃ a b c, i = .joinAdd a b c) ∨ (∃ a b, i = .msgSend a b) ∨ (∃ a b, i = .msgSendh a b) ∨
      (∃ a b, i = .msgRecv a b) ∨ (∃ a b, i = .msgReply a b) ∨ (∃ a b c, i = .engKick a b c) ∨ (∃ a b, i = .engRdv a b) ∨
      (∃ a b, i = .cohDecl a b) ∨ (∃ a, i = .cohRel a) ∨ (∃ a b, i = .hotRead a b) ∨ (∃ a, i = .hotClr a) ∨
      (∃ a b, i = .tlbInv a b) ∨ (∃ a b, i = .sfenceVma a b)) →
    exec i s = .next ((s.setHart (.engine k) { s.hart (.engine k) with run := .running }).takeExc (.engine k)
      (s.hart (.engine k)).pc { code := 1, detail := 0, tval := w.setWidth 64, scause := 2 })) ∧
  (∀ (s : State) (h : HartId) (w : Word), Executes s h → (w.extractLsb' 0 7).toNat ∉ [0x0B, 0x2B, 0x5B] →
    exec (.standardInstruction (.illegal w)) s = .next ((s.setHart h { s.hart h with run := .running }).takeExc h (s.hart h).pc
      { code := 1, detail := 0, tval := w.setWidth 64, scause := 2 }))

/-- An interrupt is taken by a strand that issues, with TN clear, outside handlers and grants, in U or with SIE set: sepc at the
next instruction, the interrupt bit in scause, the vectored target, no device cause; with TN set none is (R27, R28). -/
def Obligations.InterruptEntersS : Prop :=
  (∀ (s : State) (k c : Nat), s.dueInterrupt (.strand k) = some c →
    ∃ r, (∃ t, exec (.interruptTake (.strand k)) s = .next t ∧ t.hart (.strand k) = r ∧ t.mem = s.mem) ∧
      Claim.EntersS (s.hart (.strand k)) r (s.hart (.strand k)).pc (BitVec.ofNat 64 (2 ^ 63 + c)) 0 0
        (((s.hart (.strand k)).stvec &&& ~~~3#64) +
          (if (s.hart (.strand k)).stvec.getLsbD 0 then BitVec.ofNat 64 (4 * c) else 0))) ∧
  (∀ (s : State) (h : HartId), (s.hart h).tn = true → s.dueInterrupt h = none) ∧
  (∀ (s : State) (k : Nat), (s.hart (.strand k)).run = .running → (s.hart (.strand k)).tn = false →
    (s.hart (.strand k)).handler = none → (s.hart (.strand k)).granted = none → (s.hart (.strand k)).priv = .u →
    (s.hart (.strand k)).sie = 0x20#64 → (s.hart (.strand k)).dtimecmp.toNat ≤ s.now % 2 ^ 64 →
    s.dueInterrupt (.strand k) = some 5)

/-! ## CSRs, floating point, memory (R12 to R18, R255, R281 to R285) -/

/-- A CSR instruction of a strand or a uniform hart reads the old value to rd and writes the new one by the access codes of its
fields; the set and clear forms of x0 write nothing. -/
def Obligations.CsrInstructionReadsAndWrites : Prop :=
  ∀ (s : State) (h : HartId) (o : CsrOp) (imm : Bool) (rd src : Reg) (a : BitVec 12) (old : Dword), Executes s h →
    HartKind.isEngine h = false → Claim.csrRead (s.hart h) a.toNat = some old → (a.toNat ≤ 3 → HartKind.isStrand h = true) →
    Claim.csrAllowed (s.hart h) a.toNat →
    ((o ≠ .rw ∧ src = 0) → exec (.standardInstruction (.csr o imm rd src a)) s = .next (s.setHart h ((s.hart h).stepped.wx rd old))) ∧
    (∀ r, (o = .rw ∨ src ≠ 0) →
      Claim.csrWrite (s.hart h) a.toNat (Claim.csrNew o old (Claim.csrSource (s.hart h) imm src)) = some r →
      exec (.standardInstruction (.csr o imm rd src a)) s = .next (s.setHart h (r.stepped.wx rd old)))

/-- A CSR access that is not permitted traps (R18, R21): an absent CSR and a write of a read-only one with ILLEGAL_OPCODE, a level
too low with PRIVILEGE. -/
def Obligations.CsrAccessOutsideItsLevelTraps : Prop :=
  ∀ (s : State) (h : HartId) (o : CsrOp) (imm : Bool) (rd src : Reg) (a : BitVec 12), Executes s h →
    HartKind.isEngine h = false →
    let op : RvOp := .csr o imm rd src a
    let trap := fun (code : Nat) => Host.Outcome.next ((s.setHart h { s.hart h with run := .running }).takeExc h (s.hart h).pc
      { code := code, detail := 0, tval := (Enc.rvOp op).setWidth 64, scause := 2 })
    ((a.toNat < 0x100 ∧ 3 < a.toNat ∨ 0x200 ≤ a.toNat ∧ a.toNat < 0x5C0 ∨ 0xF00 ≤ a.toNat) →
      exec (.standardInstruction op) s = trap 1) ∧
    ((s.hart h).priv = .u → a.toNat ∈ [0x100, 0x104, 0x105, 0x106, 0x140, 0x141, 0x142, 0x143, 0x144, 0x180, 0x5C0, 0x5C1, 0x5C2,
      0x5C5, 0xDC0] → exec (.standardInstruction op) s = trap 3) ∧
    ((o = .rw ∨ src ≠ 0) → a.toNat ∈ [0xC00, 0xC01, 0xC02, 0xCC0, 0xCC1] → exec (.standardInstruction op) s = trap 1) ∧
    (HartKind.isUniform h = true → a.toNat ∈ [1, 2, 3, 0x5C3, 0x5C4] → exec (.standardInstruction op) s = trap 1)

/-- A floating-point instruction of a strand with FS on and a legal rounding mode has the result of the exact operation rounded
once, with its flags; with FS off or a rounding mode of 5, 6 or dynamic 7 it is illegal (R13). -/
def Obligations.FloatInstructionResult : Prop :=
  ∀ (s : State) (k : Nat) (op : RvOp) (f : Hart → Hart), Executes s (.strand k) →
    Claim.floatResult (s.hart (.strand k)) (fun rm => { mode := Claim.modeOf (s.hart (.strand k)) rm }) op = some f →
    ((Sstatus.fs (s.hart (.strand k)).sstatus ≠ 0 ∧ ∀ rm, Claim.rmOf op = some rm → Claim.modeOf (s.hart (.strand k)) rm < 5) →
      exec (.standardInstruction op) s = .next (s.setHart (.strand k) (f (s.hart (.strand k)).stepped))) ∧
    ((Sstatus.fs (s.hart (.strand k)).sstatus = 0 ∨ ∃ rm, Claim.rmOf op = some rm ∧ 5 ≤ Claim.modeOf (s.hart (.strand k)) rm) →
      exec (.standardInstruction op) s = .next ((s.setHart (.strand k) { s.hart (.strand k) with run := .running }).takeExc
        (.strand k) (s.hart (.strand k)).pc
        { code := 1, detail := 0, tval := (Enc.rvOp op).setWidth 64, scause := 2 }))

/-- A load within one line writes the bytes it reads, extended; a store writes the low bytes of its register. The access is by
virtual address; what a failing one raises is raised at the instruction. -/
def Obligations.LoadsAndStoresComplete : Prop :=
  (∀ (s t : State) (h : HartId) (w : LoadWidth) (rd rs1 : Reg) (imm : BitVec 12) (bs : List Byte), Executes s h →
    let va := (s.hart h).rx rs1 + imm.signExtend 64
    va.toNat % 256 + loadBytes w ≤ 256 → vread (Claim.stdAccOf s h) va (loadBytes w) (Claim.inside s h) = .ok bs t →
    exec (.standardLoadStore (.load w rd rs1 imm)) s =
      .next (t.setHart h ((t.hart h).wx rd (loadExt w (natOfBytes bs))).retired)) ∧
  (∀ (s t : State) (h : HartId) (w : StoreWidth) (rs1 rs2 : Reg) (imm : BitVec 12), Executes s h →
    let va := (s.hart h).rx rs1 + imm.signExtend 64
    va.toNat % 256 + storeBytes w ≤ 256 →
    vwrite (Claim.stdAccOf s h) va (leBytes (storeBytes w) ((s.hart h).rx rs2).toNat) (Claim.inside s h) = .ok () t →
    exec (.standardLoadStore (.store w rs1 rs2 imm)) s = .next (t.setHart h (t.hart h).retired)) ∧
  (∀ (s t : State) (k : Nat) (dbl : Bool) (rd rs1 : Reg) (imm : BitVec 12) (bs : List Byte), Executes s (.strand k) →
    Sstatus.fs (s.hart (.strand k)).sstatus ≠ 0 →
    let va := (s.hart (.strand k)).rx rs1 + imm.signExtend 64
    let n := if dbl then 8 else 4
    va.toNat % 256 + n ≤ 256 → vread (Claim.stdAccOf s (.strand k)) va n (Claim.inside s (.strand k)) = .ok bs t →
    exec (.standardLoadStore (.fload dbl rd rs1 imm)) s =
      .next (t.setHart (.strand k) ((t.hart (.strand k)).wf rd (box dbl (natOfBytes bs))).retired)) ∧
  (∀ (s t : State) (k : Nat) (dbl : Bool) (rs1 rs2 : Reg) (imm : BitVec 12), Executes s (.strand k) →
    Sstatus.fs (s.hart (.strand k)).sstatus ≠ 0 →
    let va := (s.hart (.strand k)).rx rs1 + imm.signExtend 64
    let n := if dbl then 8 else 4
    va.toNat % 256 + n ≤ 256 →
    vwrite (Claim.stdAccOf s (.strand k)) va (leBytes n ((s.hart (.strand k)).rf rs2).toNat) (Claim.inside s (.strand k)) = .ok () t →
    exec (.standardLoadStore (.fstore dbl rs1 rs2 imm)) s = .next (t.setHart (.strand k) (t.hart (.strand k)).retired))

/-- A misaligned load or store that crosses a 256-byte line raises scause 4 or 6 with the address in stval, and reads and writes
nothing; a misaligned LR, SC or AMO raises scause 6 even within a line (R15). -/
def Obligations.LineCrossingAccessTraps : Prop :=
  ∀ (s : State) (h : HartId) (rd rs1 rs2 : Reg) (imm : BitVec 12) (w : LoadWidth) (w' : StoreWidth) (d aq rl : Bool) (o : AmoOp),
    Executes s h →
    let trap := fun (sc : Nat) (va : Dword) => Host.Outcome.next ((s.setHart h { s.hart h with run := .running }).takeExc h
      (s.hart h).pc { code := 4, detail := 0, tval := va, scause := sc })
    let va := (s.hart h).rx rs1 + imm.signExtend 64
    (256 < va.toNat % 256 + loadBytes w → exec (.standardLoadStore (.load w rd rs1 imm)) s = trap 4 va) ∧
    (256 < va.toNat % 256 + storeBytes w' → exec (.standardLoadStore (.store w' rs1 rs2 imm)) s = trap 6 va) ∧
    (((s.hart h).rx rs1).toNat % amoWidth d ≠ 0 →
      exec (.lr d aq rl rd rs1) s = trap 6 ((s.hart h).rx rs1) ∧
      let t := Claim.released (Claim.inside s h) h rl
      let trap' := Host.Outcome.next ((t.setHart h { t.hart h with pc := (s.hart h).pc }).takeExc h (s.hart h).pc
        { code := 4, detail := 0, tval := (s.hart h).rx rs1, scause := 6 })
      ((t.hart h).x = (s.hart h).x → exec (.sc d aq rl rd rs1 rs2) s = trap' ∧ exec (.standardAmo o d aq rl rd rs1 rs2) s = trap'))

/-- LR reads the word and takes a reservation on its granule; SC stores and writes 0 while the reservation covers the word's
granule, and writes 1 and stores nothing without one; both forms of SC leave no reservation (R16, R17). -/
def Obligations.LoadReservedAndStoreConditional : Prop :=
  (∀ (s t u : State) (h : HartId) (d aq rl : Bool) (rd rs1 : Reg) (l : Loc) (bs : List Byte), Executes s h →
    atomicLoc (Claim.stdAccOf s h) ((s.hart h).rx rs1) (amoWidth d) .load (Claim.inside s h) = .ok l t →
    vread (Claim.stdAccOf s h) ((s.hart h).rx rs1) (amoWidth d) t = .ok bs u →
    let v := Claim.released
      (u.setHart h { (u.hart h).wx rd (amoResult d (natOfBytes bs)) with resv := some (resvOf u l) }) h rl
    exec (.lr d aq rl rd rs1) s = .next (v.setHart h (v.hart h).retired)) ∧
  (∀ (s r t u : State) (h : HartId) (d aq rl : Bool) (rd rs1 rs2 : Reg) (l : Loc), Executes s h →
    r = Claim.released (Claim.inside s h) h rl → (r.hart h).x = (s.hart h).x →
    atomicLoc { r.accOf h with std := true } ((s.hart h).rx rs1) (amoWidth d) .store r = .ok l t →
    ((t.hart h).resv.map (·.granule) = some (resvOf t l).granule →
      vwrite { r.accOf h with std := true } ((s.hart h).rx rs1) (leBytes (amoWidth d) ((s.hart h).rx rs2).toNat) t = .ok () u →
      exec (.sc d aq rl rd rs1 rs2) s = .next (u.setHart h ({ (u.hart h).wx rd 0 with resv := none }).retired)) ∧
    ((t.hart h).resv.map (·.granule) ≠ some (resvOf t l).granule →
      exec (.sc d aq rl rd rs1 rs2) s = .next (t.setHart h ({ (t.hart h).wx rd 1 with resv := none }).retired)))

/-- An AMO is one read-modify-write of an aligned word by the operation it names; rd gets the old value, a word sign-extended. -/
def Obligations.AmoReadsModifiesWrites : Prop :=
  ∀ (s r t : State) (h : HartId) (o : AmoOp) (d aq rl : Bool) (rd rs1 rs2 : Reg) (old : Nat), Executes s h →
    r = Claim.released (Claim.inside s h) h rl → (r.hart h).x = (s.hart h).x → ((s.hart h).rx rs1).toNat % amoWidth d = 0 →
    vrmw { r.accOf h with std := true } ((s.hart h).rx rs1) (amoWidth d)
      (fun v => some (amoNew o (8 * amoWidth d) v ((s.hart h).rx rs2).toNat)) r = .ok old t →
    exec (.standardAmo o d aq rl rd rs1 rs2) s = .next (t.setHart h ((t.hart h).wx rd (amoResult d old)).retired)

/-! ## Scoped atomics, fences, hints, mailboxes (R65 to R69, R105, R114, R116, R142, R275 to R285, R304) -/

/-- A scoped atomic is one read-modify-write of an aligned word: rd gets the old value, 0 for a commutative use, and for a
speculative one the old value or a free one (R282); one with release ordering performs the unit's quantum updates first. A
reserved SEM code, and commutative swap or cas, are RESERVED_FIELD at decode; a misaligned address is MISALIGNED. -/
def Obligations.ScopedAtomicReadsModifiesWrites : Prop :=
  ∀ (s r t : State) (h : HartId) (o : AtomOp) (a : AmoArgs) (i : Instr) (old n : Nat), Executes s h → Claim.scopedAmo o a = some i →
    n = (if a.dbl then 8 else 4) →
    ((8 < a.sem.toNat ∨ a.sem = 1 ∧ (o = .swap ∨ o = .cas)) → ∀ w, encodeScalar i = some w →
      exec i s = Claim.traps s h 2 0 (w.setWidth 64) 2) ∧
    (a.sem.toNat ≤ 8 → ¬(a.sem = 1 ∧ (o = .swap ∨ o = .cas)) →
      (((s.hart h).rx a.rs1).toNat % n ≠ 0 → exec i s = Claim.traps s h 4 0 ((s.hart h).rx a.rs1) 24) ∧
      (((s.hart h).rx a.rs1).toNat % n = 0 →
        r = (if 6 ≤ a.sem.toNat then (Claim.inside s h).releaseUnit ((Claim.inside s h).accOf h).who (a.scope.toNat + 1)
          else Claim.inside s h) →
        (a.sem ≠ 3 → vrmw (r.accOf h) ((s.hart h).rx a.rs1) n (fun v => atomNew o (8 * n) v
            (((s.hart h).rx a.rs2).toNat % 2 ^ (8 * n)) (((s.hart h).rx a.rd).toNat % 2 ^ (8 * n))) r = .ok old t →
          (a.sem ≠ 4 → exec i s = .next (t.setHart h
            ((t.hart h).wx a.rd (if a.sem = 1 then 0 else amoResult a.dbl old)).retired)) ∧
          (a.sem = 4 → ∃ (u : State) (v : Dword), exec i s = .next (u.setHart h ((u.hart h).wx a.rd v).retired) ∧
            u = { t with free := u.free })) ∧
        (a.sem = 3 → quantumIssue (r.accOf h) ((s.hart h).rx a.rs1) n o (((s.hart h).rx a.rs2).toNat % 2 ^ (8 * n))
            (((s.hart h).rx a.rd).toNat % 2 ^ (8 * n)) (a.scope.toNat + 1) r = .ok old t →
          exec i s = .next (t.setHart h ((t.hart h).wx a.rd (amoResult a.dbl old)).retired))))

/-- Fences, FENCE.I, SFENCE.VMA, yield, safe and WFI go on at the next instruction. A releasing fence performs the hart's quantum
updates of its scope; SFENCE.VMA drops from the hart's own TLB the entries its operands name and no others; yield hands the
issue turn on; WFI goes on when an enabled interrupt is pending and else parks. -/
def Obligations.FencesAndHintsGoOn : Prop :=
  ∀ (s : State) (h : HartId), Executes s h →
    let on := Host.Outcome.next (s.setHart h (s.hart h).stepped)
    let rel := fun (scope : Nat) => (Claim.inside s h).releaseUnit ((Claim.inside s h).accOf h).who scope
    (∀ fm pred succ rd rs1, (pred = 0 ∨ succ = 0 ∨ pred = 2 ∧ succ = 3) → exec (.fenceRv fm pred succ rd rs1) s = on) ∧
    (∀ fm pred succ rd rs1, ¬(pred = 0 ∨ succ = 0 ∨ pred = 2 ∧ succ = 3) →
      exec (.fenceRv fm pred succ rd rs1) s = .next ((rel 4).setHart h ((rel 4).hart h).retired)) ∧
    (Claim.Drained s h → ∀ scope, rel scope = Claim.inside s h) ∧
    (∀ scope, exec (.fenceS scope 5) s = on) ∧
    (∀ scope sem, 6 ≤ sem.toNat → sem.toNat ≤ 8 →
      exec (.fenceS scope sem) s = .next ((rel (scope.toNat + 1)).setHart h ((rel (scope.toNat + 1)).hart h).retired)) ∧
    (∀ scope sem w, (sem.toNat < 5 ∨ 8 < sem.toNat) → encodeScalar (.fenceS scope sem) = some w →
      exec (.fenceS scope sem) s = Claim.traps s h 2 0 (w.setWidth 64) 2) ∧
    (∀ imm rd rs1, HartKind.isStrand h = true → exec (.fenceI imm rd rs1) s = on) ∧
    (HartKind.isEngine h = false → (s.hart h).priv = .s →
      ((s.pending h &&& (s.hart h).sie ≠ 0 → exec .wfi s = on) ∧
      (s.pending h &&& (s.hart h).sie = 0 → exec .wfi s = .next (s.setHart h { s.hart h with run := .parked .wfi })) ∧
      ∀ rs1 rs2, ∃ l, exec (.sfenceVma rs1 rs2) s =
          .next ((s.setHart h (s.hart h).stepped).setTlb ((Claim.inside s h).accOf h).tlb l) ∧
        (rs1 = 0 → rs2 = 0 → l = []) ∧
        ∀ e, e ∈ l ↔ e ∈ s.tlb ((Claim.inside s h).accOf h).tlb ∧
          ¬((rs1 = 0 ∨ e.va ≤ ((s.hart h).rx rs1).toNat % 2 ^ 48 ∧ ((s.hart h).rx rs1).toNat % 2 ^ 48 < e.va + e.size) ∧
            (rs2 = 0 ∨ e.asid = ((s.hart h).rx rs2).toNat % 2 ^ 16 ∧ Pte.g e.pte = false)))) ∧
    (HartKind.isEngine h = false → (s.scalarHonoured h (s.hart h).pc = false → exec .scalarSafe s = on) ∧
      (s.scalarHonoured h (s.hart h).pc = true →
        exec .scalarSafe s = .next (s.setHart h { s.hart h with run := .parked .safe }))) ∧
    (∀ k, h = .strand k → exec .scalarYield s =
      .next ((s.setCore (k / 8) { s.core (k / 8) with rr := k % 8 }).setHart h (s.hart h).stepped)) ∧
    (∀ k, h = .uniform k → (s.wengine (k / 16)).current ≠ some (k % 16) → exec .scalarYield s = on) ∧
    (∀ k, h = .uniform k → (s.wengine (k / 16)).current = some (k % 16) → exec .scalarYield s =
      .next ((s.setWengine (k / 16) { s.wengine (k / 16) with switch := true, currentSince := s.clk }).setHart h
        (s.hart h).stepped))

/-- Mailboxes of a strand (R105, R142): mb.read answers the register and clears its FULL bit, mb.write stores, mb.swap does both;
a store that meets a deposit of the same clk is dropped and sets the overrun bit. -/
def Obligations.MailboxInstructions : Prop :=
  ∀ (s : State) (k : Nat) (n : BitVec 3) (rd rs1 : Reg), Executes s (.strand k) →
    let r := s.hart (.strand k)
    let went := fun (t : Hart) => Host.Outcome.next (s.setHart (.strand k) t)
    exec (.mbRead rd n) s = went ((Claim.mbTaken r n.toNat).stepped.wx rd (r.mb[n.toNat]!)) ∧
    exec (.mbWrite n rs1) s = went (Claim.mbWritten r n.toNat (r.rx rs1)).stepped ∧
    exec (.mbSwap rd n rs1) s =
      went ((Claim.mbWritten (Claim.mbTaken r n.toNat) n.toNat (r.rx rs1)).stepped.wx rd (r.mb[n.toNat]!))

/-! ## Semaphores and futures (R94 to R98, R241, R400) -/

/-- A wait is granted at once when the count suffices and no older wait is pending: the amount is taken, rd gets the count before;
an amount of 0 takes nothing. Otherwise the hart joins the waits in order of arrival and parks; it does so once. A granted wait
writes what it was granted. An amount above 65,535 is RESERVED_FIELD 1, a hart of no crew RESERVED_FIELD 2 (R91, R94, R95). -/
def Obligations.SemaphoreWaitsAreGrantedInOrder : Prop :=
  ∀ (s : State) (h : HartId) (i : Instr) (rd : Reg) (n a : Nat), Executes s h → Claim.semWait (s.hart h) i = some (rd, n, a) →
    (∀ v, (s.hart h).granted = some (.value v) → exec i s = .next (s.setHart h ((s.hart h).stepped.wx rd v))) ∧
    ((s.hart h).granted = none → (s.hart h).crew = none → exec i s = Claim.traps s h 2 2 0 24) ∧
    (∀ ref c, (s.hart h).granted = none → Claim.Member s h ref c →
      (65535 < a → exec i s = Claim.traps s h 2 1 0 24) ∧
      (a ≤ 65535 → Claim.NoDeferred c h n →
        let x := s.sem ref.cluster (c.semIndex n)
        (a = 0 → exec i s = .next (s.setHart h ((s.hart h).stepped.wx rd (BitVec.ofNat 64 x.count)))) ∧
        (a ≠ 0 → x.waiters = [] → a ≤ x.count → exec i s = .next (Claim.semState s ref.cluster (c.semIndex n)
          { x with count := x.count - a } h ((s.hart h).stepped.wx rd (BitVec.ofNat 64 x.count)))) ∧
        (a ≠ 0 → ¬(x.waiters = [] ∧ a ≤ x.count) → Waiter.hart h a ∉ x.waiters →
          exec i s = .next (Claim.semState s ref.cluster (c.semIndex n) { x with waiters := x.waiters ++ [.hart h a] } h
            { s.hart h with run := .parked .sem })) ∧
        (a ≠ 0 → Waiter.hart h a ∈ x.waiters → exec i s = .next (s.setHart h { s.hart h with run := .parked .sem }))))

/-- A signal adds its amount, an excess over 65,535 is SEM_OVERFLOW and leaves the count; pending waits are then granted in order
of arrival while the count suffices. A try takes like a wait or answers the count with bit 63 set; a read answers the count. -/
def Obligations.SemaphoreSignalsTriesAndReads : Prop :=
  ∀ (s : State) (h : HartId) (ref : CrewRef) (c : Crew), Executes s h → Claim.Member s h ref c →
    (∀ i rd n a, Claim.semSig (s.hart h) i = some (rd, n, a) →
      let x := s.sem ref.cluster (c.semIndex n)
      (65535 < a → exec i s = Claim.traps s h 2 1 0 24) ∧
      (a ≤ 65535 → 65535 < x.count + a → exec i s = Claim.traps s h 18 0 0 24) ∧
      (Claim.Drained s h → x.count + a ≤ 65535 →
        (x.waiters = [] → exec i s = .next (Claim.semState s ref.cluster (c.semIndex n) { x with count := x.count + a } h
          ((s.hart h).stepped.wx rd (BitVec.ofNat 64 x.count)))) ∧
        (∀ g b rest, x.waiters = .hart g b :: rest → g ≠ h → b ≤ x.count + a →
          (∀ w ∈ rest.head?, x.count + a - b < w.amount) →
          exec i s = .next (Claim.semState
            ((Claim.inside s h).setHart g { s.hart g with granted := some (.value (BitVec.ofNat 64 (x.count + a))) })
            ref.cluster (c.semIndex n) { count := x.count + a - b, waiters := rest } h
            ((s.hart h).stepped.wx rd (BitVec.ofNat 64 x.count)))) ∧
        (∀ w rest, x.waiters = w :: rest → x.count + a < w.amount →
          exec i s = .next (Claim.semState s ref.cluster (c.semIndex n) { x with count := x.count + a } h
            ((s.hart h).stepped.wx rd (BitVec.ofNat 64 x.count)))))) ∧
    (∀ rd rs1 rs2,
      let n := ((s.hart h).rx rs1).toNat % 256
      let a := ((s.hart h).rx rs2).toNat
      let x := s.sem ref.cluster (c.semIndex n)
      (65535 < a → exec (.semTry rd rs1 rs2) s = Claim.traps s h 2 1 0 24) ∧
      (a ≤ 65535 → Claim.NoDeferred c h n →
        (x.waiters = [] → a ≤ x.count → exec (.semTry rd rs1 rs2) s = .next (Claim.semState s ref.cluster (c.semIndex n)
          { x with count := x.count - a } h ((s.hart h).stepped.wx rd (BitVec.ofNat 64 x.count)))) ∧
        (¬(x.waiters = [] ∧ a ≤ x.count) → exec (.semTry rd rs1 rs2) s =
          .next (s.setHart h ((s.hart h).stepped.wx rd (BitVec.ofNat 64 (x.count + 2 ^ 63))))))) ∧
    (∀ rd rs1, exec (.semRead rd rs1) s = .next (s.setHart h ((s.hart h).stepped.wx rd
      (BitVec.ofNat 64 (s.sem ref.cluster (c.semIndex ((s.hart h).rx rs1).toNat)).count))))

/-- Futures (R97, R98): set and poison end an empty or pending one, a ready one is waited for without parking, an unresolved one
parks its waiter and is pending, poll answers the state, free gives the entry back with the next generation; a handle of no live
entry is FUTURE_STALE 0, a second set or poison FUTURE_STALE 1, a free of a pending one FUTURE_STALE 2. -/
def Obligations.FuturesFollowTheirStates : Prop :=
  ∀ (s : State) (h : HartId) (rd rs1 rs2 : Reg) (e : Future), Executes s h → HartKind.isEngine h = false →
    let handle := ((s.hart h).rx rs1).toNat % 2 ^ 32
    let keep := fun (f : Future) => s.setFuture (futKey handle) f
    (∀ i ∈ [Instr.futSet rs1 rs2, .futPoison rs1, .futPoll rd rs1, .futFree rs1],
      (¬ ∃ f, Claim.Live s handle f) → exec i s = Claim.traps s h 19 0 0 24) ∧
    ((s.hart h).granted = none → (¬ ∃ f, Claim.Live s handle f) → exec (.futWait rd rs1) s = Claim.traps s h 19 0 0 24) ∧
    (Claim.Live s handle e →
      exec (.futPoll rd rs1) s = .next (s.setHart h ((s.hart h).stepped.wx rd (BitVec.ofNat 64 e.st))) ∧
      (e.st ≠ 1 → exec (.futFree rs1) s = .next ((keep { gen := (e.gen + 1) % 256 }).setHart h (s.hart h).stepped)) ∧
      (e.st = 1 → exec (.futFree rs1) s = Claim.traps s h 19 2 0 24) ∧
      (1 < e.st → exec (.futSet rs1 rs2) s = Claim.traps s h 19 1 0 24 ∧ exec (.futPoison rs1) s = Claim.traps s h 19 1 0 24) ∧
      (e.st ≤ 1 → e.waiters = [] → Claim.Drained s h →
        exec (.futSet rs1 rs2) s =
          .next ((keep { e with value := (s.hart h).rx rs2, st := 2, waiters := [] }).setHart h (s.hart h).stepped) ∧
        exec (.futPoison rs1) s = .next ((keep { e with st := 3, waiters := [] }).setHart h (s.hart h).stepped)) ∧
      (∀ g, e.st ≤ 1 → e.waiters = [.hart g] → g ≠ h → Claim.Drained s h →
        exec (.futSet rs1 rs2) s = .next ((((Claim.inside s h).setFuture (futKey handle)
            { e with value := (s.hart h).rx rs2, st := 2, waiters := [] }).setHart g
          { s.hart g with granted := some (.value ((s.hart h).rx rs2)) }).setHart h (s.hart h).stepped)) ∧
      ((s.hart h).granted = none →
        (e.st = 2 → exec (.futWait rd rs1) s = .next (s.setHart h ((s.hart h).stepped.wx rd e.value))) ∧
        (e.st = 3 → exec (.futWait rd rs1) s = Claim.traps s h 22 1 0 24) ∧
        (e.st < 2 → FutWaiter.hart h ∉ e.waiters → exec (.futWait rd rs1) s =
          .next ((keep { e with st := 1, waiters := e.waiters ++ [.hart h] }).setHart h
            { s.hart h with run := .parked .fut })))) ∧
    (∀ v, (s.hart h).granted = some (.value v) → exec (.futWait rd rs1) s = .next (s.setHart h ((s.hart h).stepped.wx rd v))) ∧
    ((s.hart h).granted = some .poison → exec (.futWait rd rs1) s = Claim.traps s h 22 1 0 24)

/-- fut.new allocates a free entry of the hart's own die, with state empty, and answers its handle; it answers 0 when the table of
the die is full (R98). Which free entry is the machine's choice (R130). -/
def Obligations.FutureNewAllocates : Prop :=
  ∀ (s : State) (h : HartId) (rd : Reg), Executes s h → HartKind.isEngine h = false →
    ∃ t v, exec (.futNew rd) s = .next (t.setHart h ((s.hart h).stepped.wx rd v)) ∧
      (t = { s with free := s.free + 1 } ∧ v = 0 ∧
          (∀ i, 0 < i → i < 2 ^ 22 → (s.futures.getD (dieOf h.cluster * 2 ^ 22 + i) {}).allocated = true) ∨
        ∃ i e, 0 < i ∧ i < 2 ^ 22 ∧ s.futures.getD (dieOf h.cluster * 2 ^ 22 + i) {} = e ∧ e.allocated = false ∧
          t = { s with free := s.free + 1 }.setFuture (dieOf h.cluster * 2 ^ 22 + i) { gen := e.gen, allocated := true } ∧
          v = BitVec.ofNat 64 (dieOf h.cluster * 2 ^ 30 + e.gen % 256 * 2 ^ 22 + i))

/-! ## Continuations, joins, messages, kicks, coherence, ranges, hotness, stq, shoot-downs (R99 to R116, R218, R261, R271, R290) -/

/-- cont.spawn (R99): a record not aligned to 32 is MISALIGNED and more than 4,096 children RESERVED_FIELD; none has no effect; the
join counter rises before any child is enqueued, and the children come in rising lane index. -/
def Obligations.SpawnEnqueuesItsChildren : Prop :=
  ∀ (s t : State) (h : HartId) (rs1 rs2 : Reg) (bs : List Byte) (c : Cont), Executes s h → HartKind.isEngine h = false →
    let va := (s.hart h).rx rs1
    let n := ((s.hart h).rx rs2).toNat
    (va.toNat % 32 ≠ 0 → exec (.contSpawn rs1 rs2) s = Claim.traps s h 4 0 va 24) ∧
    (va.toNat % 32 = 0 → 4096 < n → exec (.contSpawn rs1 rs2) s = Claim.traps s h 2 1 0 24) ∧
    (va.toNat % 32 = 0 → n ≤ 4096 → vread ((Claim.inside s h).accOf h) va 32 (Claim.inside s h) = .ok bs t → c = contOfBytes bs →
      (c.kind = 3 → exec (.contSpawn rs1 rs2) s =
        .next ((t.setHart h { t.hart h with pc := (s.hart h).pc }).takeExc h (s.hart h).pc (excReserved 1))) ∧
      (refuseCont t (t.hart h).crew (t.hart h).launch c = none →
        (n = 0 → exec (.contSpawn rs1 rs2) s = .next (Claim.retire t h)) ∧
        (0 < n → (c.kind = 1 ∨ t.queueRoom (t.contCluster h.cluster ((originOf t h).queued t c).c) c.cls n = true) →
          (∀ v, c.join = 0 → v = Claim.rel t h 3 → v.canStart ((originOf t h).queued v c).c = true →
            exec (.contSpawn rs1 rs2) s = .next (Claim.retire (Claim.pushChildren (originOf t h) c n v) h)) ∧
          (∀ old u v, c.join ≠ 0 → vrmw ((Claim.inside s h).accOf h) ((c.join.setWidth 48).signExtend 64) 8
              (fun v => some ((v + n) % 2 ^ 64)) t = .ok old u →
            v = u.releaseUnit ((Claim.inside s h).accOf h).who 3 → v.canStart ((originOf t h).queued v c).c = true →
            exec (.contSpawn rs1 rs2) s = .next (Claim.retire (Claim.pushChildren (originOf t h) c n v) h)))))

/-- join.add (R101): the counter takes the addend in one atomic, rd gets the old counter, and a counter that becomes 0 has its
parent enqueued; cont.exit of a strand (R100) waits for its sends, discharges its duty and frees the context. -/
def Obligations.JoinsAndExits : Prop :=
  (∀ (s t : State) (h : HartId) (rd rs1 rs2 : Reg) (old : Nat), Executes s h → HartKind.isEngine h = false →
    let va := (s.hart h).rx rs1
    let r := Claim.rel (Claim.inside s h) h 3
    (va.toNat % 8 ≠ 0 → exec (.joinAdd rd rs1 rs2) s = Claim.traps s h 4 0 va 24) ∧
    (va.toNat % 8 = 0 → canonical va = true →
      vrmw (r.accOf h) va 8 (fun o => some ((BitVec.ofNat 64 o + (s.hart h).rx rs2).toNat)) r = .ok old t →
      (BitVec.ofNat 64 old + (s.hart h).rx rs2 ≠ 0 →
        exec (.joinAdd rd rs1 rs2) s = .next (Claim.retire (t.setHart h ((t.hart h).wx rd (BitVec.ofNat 64 old))) h)) ∧
      (∀ bs u, BitVec.ofNat 64 old + (s.hart h).rx rs2 = 0 → vread (r.accOf h) (va + 32) 32 t = .ok bs u →
        u.canStart ((originOf r h).queued u (contOfBytes bs)).c = true →
        exec (.joinAdd rd rs1 rs2) s =
          let v := u.pushCont h.cluster ((originOf r h).queued u (contOfBytes bs))
          .next (Claim.retire (v.setHart h ((v.hart h).wx rd (BitVec.ofNat 64 old))) h)))) ∧
  (∀ (s : State) (k : Nat), Executes s (.strand k) →
    ((Claim.inside s (.strand k)).sendsGone (.strand k) = false →
      exec .contExit s = .next (s.setHart (.strand k) { s.hart (.strand k) with run := .parked .sends })) ∧
    ((Claim.inside s (.strand k)).sendsGone (.strand k) = true → (s.hart (.strand k)).duty = false → Claim.Drained s (.strand k) →
      Claim.NoFaultsLeft s (.strand k) →
      ∃ t, exec .contExit s = .next t ∧ (t.hart (.strand k)).run = .idle ∧ (t.hart (.strand k)).crew = none ∧
        (t.hart (.strand k)).resv = none ∧ (t.hart (.strand k)).x = (s.hart (.strand k)).x ∧ t.mem = s.mem)) ∧
  (∀ (s : State) (k : Nat), Executes s (.uniform k) → (Claim.inside s (.uniform k)).sendsGone (.uniform k) = true →
    (s.wave k).lanes ≠ 0 → (s.wave k).uended = false →
    ∃ t, exec .contExit s = .next t ∧ (t.wave k).uended = true ∧ (t.wave k).hart.run = .idle ∧ (t.wave k).lanes = (s.wave k).lanes ∧
      (t.wave k).v = (s.wave k).v ∧ t.mem = s.mem)

/-! ## Messages, kicks, coherence, ranges, hotness, stq, shoot-downs (R102 to R116, R218, R261, R271, R290) -/

/-- msg.send and msg.sendh put the message into the hart's send queue (R102, R103): a bad destination is RESERVED_FIELD 1, a body not
aligned to 64 (32 for a handler) MISALIGNED, a full queue SENDQ_FULL. msg.reply uses the entry kept for replies. -/
def Obligations.MessagesEnterTheSendQueue : Prop :=
  ∀ (s t : State) (h : HartId) (i : Instr) (dest body : Dword) (reply handler : Bool) (m : Msg) (bs : List Byte), Executes s h →
    HartKind.isEngine h = false → Claim.sendForm (s.hart h) h i = some (dest, body, reply, handler) →
    let n := if handler then 32 else 64
    ((Claim.inside s h).destOf (s.hart h).crew dest reply handler = none → exec i s = Claim.traps s h 2 1 0 24) ∧
    ((Claim.inside s h).destOf (s.hart h).crew dest reply handler = some m →
      (body.toNat % n ≠ 0 → exec i s = Claim.traps s h 4 0 body 24) ∧
      (body.toNat % n = 0 →
        vread ((Claim.inside s h).accOf h) body (if handler then 96 else 64) (Claim.inside s h) = .ok bs t →
        ((if reply then t.replyFree (sendQueueOf h) = false else t.sendFree (sendQueueOf h) = 0) →
          exec i s = .next ((t.setHart h { t.hart h with pc := (s.hart h).pc }).takeExc h (s.hart h).pc (excDev 14 0 0))) ∧
        ((if reply then t.replyFree (sendQueueOf h) = true ∧ (t.hart h).handler = none else 0 < t.sendFree (sendQueueOf h)) →
          exec i s = .next (Claim.retire ((Claim.rel t h 3).pushSend (sendQueueOf h) (.msg { m with
            sender := senderWord h m.pri
            payload := bs.take 64
            handler := if handler then some (bs.drop 64) else none
            origin := some h })) h))))

/-- msg.recv takes the oldest message of high priority, else the oldest: its payload to memory, its sender word to rd; an empty inbox
parks (R104). -/
def Obligations.ReceiveTakesTheOldestMessage : Prop :=
  ∀ (s t : State) (k : Nat) (rd rs1 : Reg), Executes s (.strand k) →
    let h : HartId := .strand k
    let va := (s.hart h).rx rs1
    (va.toNat % 64 ≠ 0 → exec (.msgRecv rd rs1) s = Claim.traps s h 4 0 va 24) ∧
    (va.toNat % 64 = 0 → (s.hart h).inbox = [] →
      exec (.msgRecv rd rs1) s = .next (s.setHart h { s.hart h with run := .parked .recv })) ∧
    (∀ m rest, va.toNat % 64 = 0 →
      ((s.hart h).inbox = m :: rest ∧ (∀ x ∈ (s.hart h).inbox, x.pri = false) ∨
        m.pri = true ∧ ∃ a b, (s.hart h).inbox = a ++ m :: b ∧ (∀ x ∈ a, x.pri = false) ∧ rest = a ++ b) →
      vwrite ((Claim.inside s h).accOf h) va m.payload (Claim.inside s h) = .ok () t →
      exec (.msgRecv rd rs1) s = .next (Claim.retire (t.setHart h ((t.hart h).received rd m rest)) h))

/-- eng.kick stores a kick in the engine's queue and counts it in the kicker's record; a bad word is RESERVED_FIELD, a full queue parks
the kicker (R107). eng.rdv waits for the kicks of an engine and answers the completion word (R108). -/
def Obligations.KicksAndRendezvous : Prop :=
  ∀ (s : State) (h : HartId) (rd rs1 rs2 : Reg) (scope : BitVec 3), Executes s h → HartKind.isEngine h = false →
    let word := (s.hart h).rx rs1
    let e := (word.extractLsb' 0 4).toNat
    let x := s.engine (h.cluster * 7 + e)
    (scope.toNat ≤ 4 → (scope ≠ 0 ∨ HartKind.isUniform h = true) →
      ((256 ≤ word.toNat ∨ 7 ≤ e) → exec (.engKick rs1 rs2 scope) s = Claim.traps s h 2 1 0 24) ∧
      (word.toNat < 256 → e < 7 → (word.getLsbD 7 = false ∨ HartKind.isUniform h = false) →
        (x.queue.length < 4 → x.parked = [] → Claim.Drained s h →
          ∃ t, exec (.engKick rs1 rs2 scope) s = .next t ∧ t.mem = s.mem ∧
            (t.engine (h.cluster * 7 + e)).queue.map (fun q => (q.word, q.arg, q.kicker, q.scope, q.crew)) =
              x.queue.map (fun q => (q.word, q.arg, q.kicker, q.scope, q.crew)) ++
                [(word, (s.hart h).rx rs2, h, scope.toNat, (s.hart h).crew)] ∧
            ((t.hart h).kicks.getD e {}).outstanding = ((s.hart h).kicks.getD e {}).outstanding + 1 ∧
            (t.hart h).pc = (s.hart h).pc + 4 ∧ (t.hart h).x = (s.hart h).x) ∧
        (4 ≤ x.queue.length → h ∉ x.parked → exec (.engKick rs1 rs2 scope) s =
          .next ((s.setEngine (h.cluster * 7 + e) { x with parked := x.parked ++ [h] }).setHart h
            { s.hart h with run := .parked .kickFull })))) ∧
    (7 ≤ e → exec (.engRdv rd rs1) s = Claim.traps s h 2 1 0 24) ∧
    (e < 7 → ((s.hart h).kicks.getD e {}).outstanding ≠ 0 →
      exec (.engRdv rd rs1) s = .next (s.setHart h { s.hart h with run := .parked .rendezvous })) ∧
    (e < 7 → ((s.hart h).kicks.getD e {}).outstanding = 0 →
      ∃ r, exec (.engRdv rd rs1) s = .next (s.setHart h (r.stepped.wx rd ((s.hart h).kicks.getD e {}).word)) ∧
        (r = s.hart h ∨ r = { s.hart h with kicks := (s.hart h).kicks.put e { (s.hart h).kicks.getD e {} with unmet := false } }))

/-- coh.decl makes the pages of a shape record one coherence object, its tokens gathered at the home, and answers its number plus 1;
it answers all ones when a page is untracked or taken, and 0 when the table is full. coh.rel ends an object of the own launch,
RESERVED_FIELD 1 for any other (R109, R110, R290). -/
def Obligations.CoherenceObjects : Prop :=
  (∀ (s t : State) (h : HartId) (rd rs1 : Reg) (l : Launch) (pa : Nat) (ts : List Tr), Executes s h → HartKind.isEngine h = false →
    s.launches.find (s.hart h).launch = some l → l.shapeAddr (((s.hart h).rx rs1).extractLsb' 0 4).toNat = some pa →
    let base := natOfBytes (s.peek pa 8)
    let span := natOfBytes (s.peek (pa + 0x38) 8)
    (base % 4096 = 0 ∧ span % 4096 = 0 ∧ 4096 ≤ span ∧ span ≤ 2 ^ 24) →
    canonical (BitVec.ofNat 64 base) = true → inWindow base = false →
    regionPages ((Claim.inside s h).accOf h) base (span / 4096) (Claim.inside s h) = .ok ts t →
    let ps := ts.map fun x => x.pa / 4096
    ((ts.any (·.untracked) || t.objects.any fun o => o.2.pages.any ps.contains) = true →
      exec (.cohDecl rd rs1) s = .next (Claim.retire (t.setHart h ((t.hart h).wx rd (BitVec.allOnes 64))) h)) ∧
    ((ts.any (·.untracked) || t.objects.any fun o => o.2.pages.any ps.contains) = false →
      (t.freeObject (dieOfPa (ps.headD 0 * 4096)) = none →
        exec (.cohDecl rd rs1) s = .next (Claim.retire (t.setHart h ((t.hart h).wx rd 0)) h)) ∧
      (∀ i, t.freeObject (dieOfPa (ps.headD 0 * 4096)) = some i →
        let u := (Claim.rel t h 3).gatherLines (pageLines ps)
        let v := { u with objects := u.objects.put i { launch := (s.hart h).launch, pages := ps } }
        exec (.cohDecl rd rs1) s = .next (Claim.retire (v.setHart h ((v.hart h).wx rd (BitVec.ofNat 64 (i + 1)))) h)))) ∧
  (∀ (s : State) (h : HartId) (rs1 : Reg), Executes s h → HartKind.isEngine h = false →
    let i := ((s.hart h).rx rs1 - 1).toNat
    ((∀ o, s.objects.find i = some o → o.launch ≠ (s.hart h).launch) → exec (.cohRel rs1) s = Claim.traps s h 2 1 0 24) ∧
    (∀ o, s.objects.find i = some o → o.launch = (s.hart h).launch →
      let u := (Claim.rel (Claim.inside s h) h 3).gatherLines (pageLines (o.pages.take 1))
      exec (.cohRel rs1) s = .next (Claim.retire { u with objects := u.objects.del i } h)))

/-- The scalar range operations (R111): a start that is not canonical is ACCESS_FAULT 0 and a range past 2^48 RESERVED_FIELD 1; an
empty range has no effect; within one line of an untracked page cwb writes the cluster's copy back, cinv drops it, cflush does
both; a tracked line is left alone. -/
def Obligations.RangeOperationsWorkOnLines : Prop :=
  ∀ (s t : State) (h : HartId) (rs1 rs2 : Reg) (o : RangeOp) (i : Instr) (x : Tr), Executes s h →
    (o, i) ∈ [(RangeOp.cwb, Instr.scalarCwb rs1 rs2), (.cinv, .scalarCinv rs1 rs2), (.cflush, .scalarCflush rs1 rs2)] →
    let va := (s.hart h).rx rs1
    let n := ((s.hart h).rx rs2).toNat
    let a := va.toNat % 2 ^ 48
    (canonical va = false → exec i s = Claim.traps s h 10 0 va 24) ∧
    (canonical va = true → 2 ^ 48 < a + n → exec i s = Claim.traps s h 2 1 0 24) ∧
    (canonical va = true → n = 0 → exec i s = .next (s.setHart h (s.hart h).stepped)) ∧
    (canonical va = true → 0 < n → a % 256 + n ≤ 256 → a + n ≤ 2 ^ 48 → inWindow a = false →
      mapped ((Claim.inside s h).accOf h) (if o = .cinv then .load else .store) a (Claim.inside s h) = .ok x t →
      (x.untracked = false → exec i s = .next (Claim.retire t h)) ∧
      (x.untracked = true → exec i s = .next (Claim.retire (match o with
        | .cwb => t.writeBackLine h.cluster (x.pa / 256)
        | .cinv => t.dropLine h.cluster (x.pa / 256)
        | .cflush => (t.writeBackLine h.cluster (x.pa / 256)).dropLine h.cluster (x.pa / 256)) h)))

/-- hot.read answers the counter of a 64 KiB region of DRAM, hot.clr clears it; both make up the halvings that are due (R112, R261). An
address in neither tier is ACCESS_FAULT. -/
def Obligations.HotnessCounters : Prop :=
  ∀ (s : State) (h : HartId) (rd rs1 : Reg), Executes s h → HartKind.isEngine h = false → (s.hart h).priv = .s →
    let pa := ((s.hart h).rx rs1).toNat
    let u := s.halveHot (dieOfPa (pa / 65536 * 65536))
    (pa < 0x30000000000 →
      exec (.hotRead rd rs1) s = .next (u.setHart h ((s.hart h).stepped.wx rd (BitVec.ofNat 64 (u.hot.getD (pa / 65536) 0)))) ∧
      exec (.hotClr rs1) s = .next ({ u with hot := u.hot.del (pa / 65536) }.setHart h (s.hart h).stepped)) ∧
    (0x30000000000 ≤ pa → ∃ detail, exec (.hotRead rd rs1) s = Claim.traps s h 10 detail (BitVec.ofNat 64 pa) 24 ∧
      exec (.hotClr rs1) s = Claim.traps s h 10 detail (BitVec.ofNat 64 pa) 24)

/-- stq puts a write-with-enqueue into the send queue (R115): a descriptor not aligned to 64 is MISALIGNED, a bad one RESERVED_FIELD,
a full queue SENDQ_FULL. -/
def Obligations.ScalarStqEntersTheSendQueue : Prop :=
  ∀ (s t u : State) (h : HartId) (rs1 rs2 : Reg) (d bs : List Byte), Executes s h →
    let va := (s.hart h).rx rs1
    (va.toNat % 64 ≠ 0 → exec (.scalarStq rs1 rs2) s = Claim.traps s h 4 0 va 24) ∧
    (va.toNat % 64 = 0 → vread ((Claim.inside s h).accOf h) va 64 (Claim.inside s h) = .ok d t →
      (∀ n, stqOf t (t.hart h).crew (t.hart h).launch d = .error n → exec (.scalarStq rs1 rs2) s =
        .next ((t.setHart h { t.hart h with pc := (s.hart h).pc }).takeExc h (s.hart h).pc (excReserved n))) ∧
      (∀ o, stqOf t (t.hart h).crew (t.hart h).launch d = .ok o →
        vread ((Claim.inside s h).accOf h) ((s.hart h).rx rs2) (stqLen d) t = .ok bs u →
        (u.sendFree (sendQueueOf h) = 0 → exec (.scalarStq rs1 rs2) s =
          .next ((u.setHart h { u.hart h with pc := (s.hart h).pc }).takeExc h (s.hart h).pc (excDev 14 0 0))) ∧
        (0 < u.sendFree (sendQueueOf h) → exec (.scalarStq rs1 rs2) s =
          .next (Claim.retire (u.pushSend (sendQueueOf h) (.stq { o with
            queue := sendQueueOf h
            payload := bs
            cluster := h.cluster
            dptb := (t.hart h).dptb
            priv := (t.hart h).priv
            bound := (t.hart h).bound
            dcrew := (t.hart h).dcrew
            sender := some h })) h))))

/-- tlb.inv sends an invalidation to its sharers and parks until they have acknowledged it; without sharers, and once acknowledged, it
goes on (R113, R271). -/
def Obligations.ShootDownWaitsForAcknowledges : Prop :=
  ∀ (s : State) (h : HartId) (rs1 rs2 : Reg), Executes s h → HartKind.isEngine h = false → (s.hart h).priv = .s →
    (∀ e ∈ s.invals, e.2.hart ≠ some h) →
    let va := (s.hart h).rx rs1
    let ops := (s.hart h).rx rs2
    ((s.hart h).granted ≠ none → exec (.tlbInv rs1 rs2) s = .next (s.setHart h (s.hart h).stepped)) ∧
    ((s.hart h).granted = none → 2 ^ 18 ≤ ops.toNat → exec (.tlbInv rs1 rs2) s = Claim.traps s h 2 1 0 24) ∧
    ((s.hart h).granted = none → ops.toNat < 2 ^ 18 → (canonical va = true ∨ ops.getLsbD 16 = true) → Claim.Drained s h →
      let targets := (Claim.inside s h).invalTargets (s.hart h).dptb (va.toNat % 2 ^ 48) ops.toNat
      (targets = 0 → exec (.tlbInv rs1 rs2) s = .next (s.setHart h (s.hart h).stepped)) ∧
      (targets ≠ 0 → exec (.tlbInv rs1 rs2) s =
        .next ({ s with nextInval := s.nextInval + 1, invals := s.invals.put s.nextInval {
          hart := some h
          line := none
          va := va.toNat % 2 ^ 48
          asid := ops.toNat % 2 ^ 16
          allVa := ops.getLsbD 16
          allAsid := ops.getLsbD 17
          toReceive := targets
          toAck := targets } }.setHart h { s.hart h with run := .parked .inval })))

/-- mig.w (R106, R137, R138): the strand's registers go to a migration block, a lane continuation at the entry's target goes to the
Atomiser of the strand's crew, and the context is free; without a marked entry it is UNMARKED_MIGRATION. -/
def Obligations.MigrationToALane : Prop :=
  ∀ (s t u v w : State) (k b : Nat) (bs : List Nat) (gs : List Seg) (ref : CrewRef) (c : Crew) (target : Nat), Executes s (.strand k) →
    let h : HartId := .strand k
    let r := s.hart h
    (s.migTarget r.launch r.pc = none → exec .migW s = Claim.traps s h 13 0 0 24) ∧
    (s.migTarget r.launch r.pc = some target → r.fcsr.toNat / 32 < 5 → r.crew = some ref → s.crewOf ref = some c →
      (s.kernelOf c).waves ≠ 0 → (Claim.inside s h).sendsGone h = true →
      askBlocks ref (.hart h 1) (Claim.inside s h) = .ok (some (b :: bs)) t →
      resolve (t.accOf h) ((Claim.inside s h).blockAddr c b) 512 .store t = .ok gs u → gateSegs (t.accOf h) true gs u = .ok () v →
      writeSegs (t.accOf h) true gs (blockBytes (fun i => r.rx (BitVec.ofNat 5 i)) r.fcsr (fun j => r.rf (BitVec.ofNat 5 j)))
        (Claim.rel v h 1) = .ok () w →
      ∃ q x, exec .migW s = .next (Claim.retire x h) ∧ q.c.code = BitVec.ofNat 64 target &&& 0xFFFFFFFFFFFF#64 ∧ q.c.kind = 1 ∧
        q.c.regs = true ∧ q.c.cls = c.cls % 4 ∧
        x = ((((w.useBlocks ref [b]).pushCont h.cluster q).lapseSender h).freeStack h).setHart h
          (((((w.useBlocks ref [b]).pushCont h.cluster q).lapseSender h).freeStack h).hart h).freed)

/-! ## Memory, handlers, fatal traps, engines, reset (R5, R17, R24, R25, R28, R32, R92, R255, R266, R269, R321, R402, R403) -/

/-- A load reads the bytes at the physical address that its translation gives, little-endian, and changes no byte of memory; a store
writes them there, and every other byte reads as before (R5, R93, R263, R269). Through the local window they reach the bytes of on-chip
storage that the window names, and no other (R255, R256). -/
def Obligations.AccessReachesItsBytes : Prop :=
  ∀ (s : State) (h : HartId) (rs1 rs2 rd : Reg) (imm : BitVec 12), Executes s h → MemoryOk s →
    let va := (s.hart h).rx rs1 + imm.signExtend 64
    (∀ e,
      let pa := (trOf e.pte e.size (va.toNat % 2 ^ 48)).pa
      (∀ w, Claim.Reaches (Claim.inside s h) (Claim.stdAccOf s h) .load va (loadBytes w) e →
        ∃ t, exec (.standardLoadStore (.load w rd rs1 imm)) s = .next t ∧ t.mem = s.mem ∧
          Claim.GoesOn s t h ((s.hart h).wx rd (loadExt w (natOfBytes (s.peek pa (loadBytes w)))))) ∧
      (∀ w, Claim.Reaches (Claim.inside s h) (Claim.stdAccOf s h) .store va (storeBytes w) e →
        ∃ t, exec (.standardLoadStore (.store w rs1 rs2 imm)) s = .next t ∧
          t.peek pa (storeBytes w) = leBytes (storeBytes w) ((s.hart h).rx rs2).toNat ∧ Claim.OthersKept s t pa (storeBytes w) ∧
          MemoryOk t ∧ Claim.GoesOn s t h (s.hart h))) ∧
    (∀ key,
      (∀ w, Claim.ReachesSram (Claim.inside s h) (Claim.stdAccOf s h) .load va (loadBytes w) key → va.toNat % 256 + loadBytes w ≤ 256 →
        exec (.standardLoadStore (.load w rd rs1 imm)) s =
          .next (s.setHart h ((s.hart h).stepped.wx rd (loadExt w (natOfBytes (s.peek key (loadBytes w))))))) ∧
      (∀ w, Claim.ReachesSram (Claim.inside s h) (Claim.stdAccOf s h) .store va (storeBytes w) key →
        va.toNat % 256 + storeBytes w ≤ 256 →
        ∃ t, exec (.standardLoadStore (.store w rs1 rs2 imm)) s = .next t ∧
          t.peek key (storeBytes w) = leBytes (storeBytes w) ((s.hart h).rx rs2).toNat ∧ Claim.OthersKept s t key (storeBytes w) ∧
          MemoryOk t ∧ Claim.GoesOn s t h (s.hart h)))

/-- In handler mode the instructions of R92, backward transfers, writes of registers other than x10 to x17 and floating-point
instructions end the handler (R92, R402, R403): the strand enters S with HANDLER_VIOLATION, HM still set, sepc at the interrupted
instruction and the shadowed registers back. -/
def Obligations.HandlerViolationsEndTheHandler : Prop :=
  ∀ (s : State) (k : Nat) (a : Handler) (i : Instr) (d : Nat) (rd rs1 rs2 : Reg) (imm : BitVec 12) (off : BitVec 20),
    s.actor = some (.hart (.strand k)) →
    let r := s.hart (.strand k)
    r.handler = some a → r.tn = false → (d, i) ∈ Claim.violations r rd rs1 rs2 imm off →
    ∃ t, exec i s = .next t ∧
      let u := t.hart (.strand k)
      u.handler = none ∧ u.hm = r.hm ∧ u.priv = .s ∧ u.tn = true ∧ u.sepc = r.pc ∧ u.scause = 24 ∧
        u.dcause = BitVec.ofNat 64 (d * 65536 + 15) ∧ u.pc = r.stvec &&& ~~~3#64 ∧
        (∀ j, j < 8 → u.rx (BitVec.ofNat 5 (10 + j)) = a.saved.getD j 0) ∧ t.mem = s.mem

/-- A handler goes on at its next instruction, and ends at byte 32: the shadowed registers return, and the strand resumes where it
stood, still parked if it was (R402). -/
def Obligations.HandlerRunsToByte32 : Prop :=
  ∀ (s : State) (k : Nat) (a : Handler) (rd rs1 : Reg) (imm : BitVec 12), s.actor = some (.hart (.strand k)) →
    let r := s.hart (.strand k)
    r.handler = some a → 10 ≤ rd.toNat → rd.toNat ≤ 17 →
    ∃ t, exec (.standardInstruction (.opImm .addi rd rs1 imm)) s = .next (s.setHart (.strand k) t) ∧ t.pc = r.pc ∧
      t.instret = r.instret + 1 ∧ t.granted = r.granted ∧
      (a.off + 4 < 32 → t.handler = some { a with off := a.off + 4 } ∧ t.hm = r.hm ∧
        t.x = (r.wx rd (r.rx rs1 + imm.signExtend 64)).x) ∧
      (32 ≤ a.off + 4 → t.handler = none ∧ t.hm = false ∧
        t.run = (match a.wasParked with
          | some p => .parked p
          | none => .running) ∧
        (∀ j, j < 8 → t.rx (BitVec.ofNat 5 (10 + j)) = a.saved.getD j 0))

/-- An exception of a strand while TN is set takes no trap (R28): the strand stops, one error entry of KIND 0 carries the cause, or
the standard scause when there is no device cause, and the launch ends. No interrupt is due while TN is set, whatever SIE holds. SRET
clears TN and returns as the standard defines. -/
def Obligations.SecondExceptionIsFatal : Prop :=
  (∀ (s : State) (k : Nat) (epc : Dword) (e : Exc), (s.hart (.strand k)).tn = true →
    let h : HartId := .strand k
    let r := s.hart h
    let detail := if e.code = 0 then e.scause else e.detail
    let u := (s.setHart h { r with run := .stopped }).logError e.code detail 0 (k % 512 / 8) (k / 512) e.tval.toNat 0 0 (s.crewIx r.crew)
    s.takeExc h epc e = u.endLaunch r.launch e.code detail (k % 512 / 8) (k / 512) ∧ (u.hart h).run = .stopped) ∧
  (∀ (s : State) (k : Nat), (s.hart (.strand k)).tn = true → s.dueInterrupt (.strand k) = none) ∧
  (∀ (s : State) (k : Nat), Executes s (.strand k) → (s.hart (.strand k)).priv = .s →
    ∃ t, exec .sret s = .next (s.setHart (.strand k) t) ∧ t.tn = false ∧ t.pc = (s.hart (.strand k)).sepc ∧
      t.priv = (if (s.hart (.strand k)).sstatus.getLsbD 8 then .s else .u) ∧
      t.sstatus.getLsbD 1 = (s.hart (.strand k)).sstatus.getLsbD 5 ∧ t.sstatus.getLsbD 5 = true ∧ t.sstatus.getLsbD 8 = false)

/-- A kick ends by cont.exit with CODE 0 and VALUE a0, or by any exception with its cause and address, ECALL and EBREAK giving BREAK;
each exception is one entry of the error log (R321). -/
def Obligations.EngineKicksEnd : Prop :=
  ∀ (s : State) (k : Nat) (kick : Kick), Executes s (.engine k) → (s.engine k).running = some kick →
    HartKind.isEngine kick.kicker = false → kick.word.getLsbD 7 = false →
    (∀ epc e, e.code ≠ 0 → ∃ t, s.takeExc (.engine k) epc e = t ∧ Claim.KickEnded s t k kick
      ((e.address &&& 0xFFFFFFFFFFFF#64) ||| BitVec.ofNat 64 (e.code % 65536 * 2 ^ 48))) ∧
    (∃ t, exec .ecall s = .next t ∧ Claim.KickEnded s t k kick (BitVec.ofNat 64 (23 * 2 ^ 48))) ∧
    ((s.engine k).ops = [] → (Claim.inside s (.engine k)).sendsGone (.engine k) = true → Claim.Drained s (.engine k) →
      ∃ t, exec .contExit s = .next t ∧ Claim.KickEnded s t k kick ((s.engine k).hart.rx 10 &&& 0xFFFFFFFFFFFF#64)) ∧
    ((s.engine k).ops ≠ [] → (Claim.inside s (.engine k)).sendsGone (.engine k) = true →
      exec .contExit s = .next (s.setHart (.engine k) { (s.engine k).hart with run := .parked .datapath }))

/-- After reset every context is idle in U with its standard S CSRs 0 and sstatus.FS Off, TN and HM clear, dtimecmp all ones and no
reservation (R20, R22, R23, R25, R32); every dlsplit holds 8 (R24); the clock and every DRAM byte read 0, memory in its canonical
form. The zeros of memory, of the registers and of the level are the model's choice (logs 3 and 4). -/
def Obligations.ResetState : Prop :=
  (∀ k, let r := State.reset.hart (.strand k)
    r.run = .idle ∧ r.priv = .u ∧ r.sstatus = 0 ∧ r.stvec = 0 ∧ r.sscratch = 0 ∧ r.sepc = 0 ∧ r.scause = 0 ∧ r.stval = 0 ∧ r.sie = 0 ∧
      r.scounteren = 0 ∧ r.ssip = false ∧ r.tn = false ∧ r.hm = false ∧ r.dcrew = 0 ∧ r.dcause = 0 ∧ r.dptb = 0 ∧
      r.dtimecmp = BitVec.allOnes 64 ∧ r.resv = none ∧ (∀ q, r.rx q = 0) ∧ State.reset.pending (.strand k) = 0) ∧
  (∀ k, (State.reset.core k).scr = 8) ∧ (∀ a, Memory.get State.reset.mem a = 0) ∧ MemoryOk State.reset

/-! ## Lane instructions that compute (R152, R166 to R189, R220 to R225) -/

/-- A lane instruction that computes completes: its effect on the wave's registers, then its end, and nothing else of the machine
changes but the wave engine's record of what it issued (R152, R157, R158, R200). -/
def Obligations.LaneInstructionsComplete : Prop :=
  ∀ (s : State) (c : LCtx) (eff : LCtx → Wave → Wave), Claim.LaneReady s c → (c.i, eff) ∈ Claim.laneEffects c.w →
    exec c.i s = .next (Claim.laneDone (s.setWave c.k (eff c (s.wave c.k))) c {})

/-- A lane instruction that computes changes nothing of the machine but what its destination, its last-read bits, its signal and its
end name: every other wave, memory and every other field stays (R152, R153, R161, R166). -/
def Obligations.LaneInstructionsKeepTheRest : Prop :=
  ∀ (s : State) (c : LCtx) (eff : LCtx → Wave → Wave), Claim.LaneReady s c → (c.i, eff) ∈ Claim.laneEffects c.w →
    ∃ t, exec c.i s = .next t ∧ t = { s with
        waves := t.waves
        wengines := t.wengines } ∧
      (∀ j, j ≠ c.k → t.wave j = s.wave j) ∧ (∀ j, j ≠ c.k / 16 → t.wengine j = s.wengine j) ∧
      Claim.WaveKept c (s.wave c.k) (t.wave c.k)

/-- In every active lane an instruction writes what its table says of the lane's operands: integer, bit and floating-point
instructions element by element, with the flags they raise and the draws they take; exchanges, selections and moves a value;
comparisons, votes and predicate operations a predicate (R152, R167, R171 to R179, R183, R184, R188, R189, R221). -/
def Obligations.LaneResultsAreWritten : Prop :=
  ∀ (s : State) (c : LCtx), Claim.LaneReady s c →
    let w := s.wave c.k
    (∀ f, (c.i, f) ∈ Claim.elemTable c.w → ∃ t, exec c.i s = .next t ∧
      Claim.ElementsAre c w (t.wave c.k) fun _ _ x y z => { bits := f x y z }) ∧
    (∀ f, (c.i, f) ∈ Claim.flagTable c.w → ∃ t, exec c.i s = .next t ∧ Claim.ElementsAre c w (t.wave c.k) fun _ _ x y _ => f x y) ∧
    (∀ f, (c.i, f) ∈ Claim.roundTable c.w → ∃ t, exec c.i s = .next t ∧
      Claim.ElementsAre c w (t.wave c.k) (fun l e x y z => f (w.rnd c.w.rm.toNat l e) (unpack (laneFmt c.w.ty) x)
        (unpack (laneFmt c.w.ty) y) (unpack (laneFmt c.w.ty) z)) ∧
      ∀ l, l < 64 → Mask.has c.act l = true → (t.wave c.k).acc l = { w.acc l with
        ctr := (w.acc l).ctr + BitVec.ofNat 64 (if c.w.rm.toNat = 5 then tyCount c.w.ty else 0) }) ∧
    (∀ wide f, (c.i, wide, f) ∈ Claim.moveTable c.w → ∃ t, exec c.i s = .next t ∧ ∀ l, l < 64 → Mask.has c.act l = true →
      (t.wave c.k).operand wide c.w.vd.toNat l = (if wide then f c w l else f c w l &&& 0xFFFFFFFF#64)) ∧
    (∀ f, (c.i, f) ∈ Claim.predTable c.w → ∃ t, exec c.i s = .next t ∧ ∀ l, l < 64 → Mask.has c.act l = true →
      Mask.has ((t.wave c.k).pred c.w.vd.toNat) l = Mask.has (f c w) l)

/-! ## Lane loads, stores and atomics (R192 to R198, R274 to R284) -/

/-- A lane load issues one access with the words of its lanes in bounds, VD of the lanes out of bounds becomes 0, and the instruction
completes; a lane store issues one with the lanes' words to store, and drops those out of bounds (R192 to R198, R274 to R277). -/
def Obligations.LaneLoadsAndStoresIssue : Prop :=
  ∀ (s : State) (c : LCtx) (e : Nat → TlbEntry), Claim.LaneReady s c →
    (∀ whole, (c.i, whole) ∈ [(Instr.ld c.w, false), (.lds c.w, true)] → Claim.LanesReach s c .load whole e →
      exec c.i s = .next (Claim.laneDone (s.setWave c.k (Claim.issues s c .load ((Claim.inBounds s c).map (Claim.elementAt s c e fun _ => 0))
        (((Claim.noted s c false).writeOperand (ty64 c.w.ty) c.w.vd.toNat c.act (opD c (s.wave c.k))).writeOperand
          (ty64 c.w.ty) c.w.vd.toNat (Claim.strayLanes s c) fun _ => 0))) c {})) ∧
    (∀ whole, (c.i, whole) ∈ [(Instr.st c.w, false), (.sts c.w, true)] → Claim.LanesReach s c .store whole e →
      exec c.i s = .next (Claim.laneDone (s.setWave c.k (Claim.issues s c .store
        ((Claim.inBounds s c).map (Claim.elementAt s c e (opD c (s.wave c.k)))) (Claim.noted s c true))) c {}))

/-- An outstanding access is performed once no earlier access of the wave meets its bytes: a load gives each of its lanes the bytes of
its word, little-endian, and changes no byte of memory; a store writes its lanes' words in order, and no other byte (R159, R196,
R198). -/
def Obligations.LaneAccessesArePerformed : Prop :=
  ∀ (s : State) (k : Nat) (a : PendAccess) (pa : Nat → Nat), (s.wave k).accesses.find? (fun b => b.n == a.n) = some a →
    (s.wave k).accesses.any a.after = false → (s.wave k).lanes ≠ 0#64 → (∀ el ∈ a.elems, Claim.Settled s k a el (pa el.lane)) →
    (a.op = .load → a.lag = false → (∀ el ∈ a.elems, s.poisoned (pa el.lane) a.size = false) →
      ∃ t v, exec (.laneMemoryComplete k a.n) s = .next t ∧ t.mem = s.mem ∧
        t.wave k = Claim.performed a (({ s.wave k with hart := { (s.wave k).hart with resv := v } }).writeOperand (a.size == 8) a.vd
          (maskOf (a.elems.map Elem.lane).contains) fun l => BitVec.ofNat 64 (natOfBytes (s.peek (pa l) a.size)))) ∧
    (a.op = .store → ∃ t v, exec (.laneMemoryComplete k a.n) s = .next t ∧
        t.mem = a.elems.foldl (fun m el => Memory.write m (pa el.lane) (leBytes a.size el.data.toNat)) s.mem ∧
        t.wave k = Claim.performed a { s.wave k with hart := { (s.wave k).hart with resv := v } })

/-- ATOM does one read-modify-write per lane in bounds, in ascending lane order. VD of an active lane gets the old value of its word,
0 for a commutative use and for a lane out of bounds, and for a speculative use the old value or a free one; no other byte changes
(R195, R274, R280 to R284). -/
def Obligations.LaneAtomicsReadModifyWrite : Prop :=
  ∀ (s : State) (c : LCtx) (e : Nat → TlbEntry) (o : AtomOp), Claim.LaneReady s c → (c.i, o) ∈ Claim.laneAtoms c.w → c.w.sem ≠ 3#4 →
    Claim.LanesReach s c .store true e →
    (s.wave c.k).meetsPending ((Claim.inBounds s c).map fun l => Claim.segOf (e l) (Claim.wordAt s c l).va (wordSize c.w.ty)) = false →
    ∃ t, exec c.i s = .next t ∧
      t.mem = (Claim.atomsOf s c o (Claim.placeAt s c e) (Claim.inBounds s c) s.mem).1 ∧
      ∀ l, l < 64 → Mask.has c.act l = true →
        ((∀ v, (l, v) ∈ (Claim.atomsOf s c o (Claim.placeAt s c e) (Claim.inBounds s c) s.mem).2 → c.w.sem ≠ 4#4 →
          (t.wave c.k).operand (ty64 c.w.ty) c.w.vd.toNat l = if c.w.sem = 1#4 then 0#64 else BitVec.ofNat 64 v) ∧
        (l ∉ Claim.inBounds s c → (t.wave c.k).operand (ty64 c.w.ty) c.w.vd.toNat l = 0#64))

/-- Lane control moves the group of its slot. NOP and SAFE change no other state, and YIELD ends the wave's turn (R213); BRA and BRX
move a group that does not divide to its target, and divide it under a new record otherwise (R133, R202 to R204); RECONV arrives at
its group's record, and passes any other (R134, R206). -/
def Obligations.LaneControlMovesGroups : Prop :=
  ∀ (s : State) (c : LCtx), Claim.LaneReady s c →
    let w := s.wave c.k
    let on := Claim.laneTo s c (Claim.groupOn c w)
    (c.i = .nop c.w ∨ c.i = .safe c.w → exec c.i s = .next on) ∧
    (c.i = .yield c.w → exec c.i s = .next (if (on.wengine (c.k / 16)).current = some (c.k % 16) then
      on.setWengine (c.k / 16) { on.wengine (c.k / 16) with switch := true } else on)) ∧
    (c.i = .bra c.w →
      let taken := Claim.branching s c
      let fall := c.g.mask &&& ~~~taken
      let target := (c.g.pc : Int) + 4 * c.w.off24.toInt
      (taken = 0 → exec c.i s = .next on) ∧
      (taken ≠ 0 → inSection w target = true → 0 ≤ target → target < 2 ^ 48 →
        (fall = 0 → exec c.i s = .next (Claim.laneTo s c (Claim.groupTo c target.toNat w))) ∧
        (fall ≠ 0 → w.lhandler = none →
          let v := if popMask taken ≤ popMask fall
            then Claim.divided s c w.newRec (parcels c.g.pc c.w.rcv.toInt) (fall, c.g.pc + 12) (taken, target.toNat)
            else Claim.divided s c w.newRec (parcels c.g.pc c.w.rcv.toInt) (taken, target.toNat) (fall, c.g.pc + 12)
          Claim.OnChip w v → exec c.i s = .next (Claim.laneTo s c v)))) ∧
    (c.i = .brx c.w →
      (∀ l ∈ lanesOf c.act, Claim.branchTo s c l % 12 = 0 ∧ inSection w (Claim.branchTo s c l) = true) →
      (∀ x, Claim.branchSets s c = [x] → exec c.i s = .next (Claim.laneTo s c (Claim.groupTo c x.2 w))) ∧
      (∀ x y, Claim.branchSets s c = [x, y] → w.lhandler = none →
        let v := Claim.divided s c w.newRec (parcels c.g.pc c.w.rcv.toInt) x y
        Claim.OnChip w v → exec c.i s = .next (Claim.laneTo s c v)) ∧
      (∀ x y t, Claim.branchSets s c = x :: y :: t → w.lhandler = none →
        let v := w.diverge c.sec c.g (parcels c.g.pc c.w.rcv.toInt) s.clk (x :: y :: t)
        Claim.OnChip w v → exec c.i s = .next (Claim.laneTo s c v))) ∧
    (c.i = .reconv c.w →
      (∀ r, c.g.token ≠ 0 → w.recs.find c.g.token = some r → r.addr = c.g.pc →
        let pending := r.pending &&& ~~~c.g.mask
        let arrived := r.arrived ||| c.g.mask
        (pending = 0 → Claim.OnChip w { w with recs := w.recs.del c.g.token } → exec c.i s = .next (Claim.laneTo s c
          { (w.setGroup c.sec (some { mask := arrived, pc := r.addr + 12, token := r.parent })) with recs := w.recs.del c.g.token })) ∧
        (pending ≠ 0 →
          let v := ({ (w.setGroup c.sec none) with
            recs := w.recs.put c.g.token { r with
              arrived := arrived
              pending := pending } }).settle
          Claim.OnChip w v → exec c.i s = .next (Claim.laneTo s c v))) ∧
      ((c.g.token = 0 ∨ ∀ r, w.recs.find c.g.token = some r → r.addr ≠ c.g.pc) → exec c.i s = .next on))

/-- Lanes leave their wave, meet at barriers and start others. EXIT discharges the lanes' duties and removes them (R207); MIG writes
their blocks and enqueues their continuations (R208); BAR.ARV counts a wave once its arrivals cover its lanes, and BAR.WAIT holds the
group back while its phase is open (R210, R211); SPAWN enqueues each lane's child (R214); FWAIT gives a lane its value or takes it out
of the wave (R216); SEND puts each lane's message into the send queue (R217). -/
def Obligations.LanesLeaveMeetAndStart : Prop :=
  ∀ (s : State) (c : LCtx), Claim.LaneReady s c →
    let w := s.wave c.k
    let ls := lanesOf c.act
    let acc := s.laneAcc c.k
    let on := Claim.laneTo s c (Claim.groupOn c w)
    (c.i = .exit c.w →
      (w.lhandler.isSome = true → w.accesses = [] → ∃ t, exec c.i s = .next t ∧ (t.wave c.k).lhandler = none ∧
        (t.wave c.k).hart.run = .running ∧ (t.wave c.k).pri = w.pri ∧ (t.wave c.k).sec = w.sec ∧ (t.wave c.k).v = w.v) ∧
      (w.lhandler = none → c.act = 0 → exec c.i s = .next on) ∧
      (∀ t u, w.lhandler = none → c.act ≠ 0 → Claim.WaveQuiet s c.k →
        (∀ l ∈ ls, w.laneJoin.getD l 0 ≠ 0 → Claim.Resolves s acc (canonOf (w.laneJoin.getD l 0)) 8 .store) →
        discharge acc (originOf s (.uniform c.k)) (heldJoins w ls) s = .ok () t → dischargeLanes (ls.filterMap w.laneGfx.find) t = .ok () u →
        Claim.LanesStay u c c.act → exec c.i s = .next (Claim.departed u c c.act))) ∧
    (c.i = .mig c.w → ∀ ref crew code, c.w.mh = true → w.hart.crew = some ref → s.crewOf ref = some crew → (s.kernelOf crew).strands ≠ 0 →
      s.laneMigTarget c.k c.g.pc = some code →
      (c.act = 0 → exec c.i s = .next on) ∧
      (c.act ≠ 0 → Claim.WaveQuiet s c.k →
        (∀ t, askBlocks ref (.lane c.k (lowLane c.act) ls.length) s = .ok none t → exec c.i s = .next t) ∧
        (∀ free t u, askBlocks ref (.lane c.k (lowLane c.act) ls.length) s = .ok (some free) t → w.newDuties ls = 0 →
          let bs := ls.zip (free.map (s.blockAddr crew))
          (∀ l ∈ ls, Claim.Resolves t (t.laneAcc c.k) ((bs.find? fun b => b.1 == l).map (·.2) |>.getD 0) 512 .store) →
          writeBlocks (t.laneAcc c.k) w bs t = .ok () u →
          let v := (u.releaseUnit (.wave c.k) 1).useBlocks ref free
          let x := Claim.pushMigrated (originOf v (.uniform c.k)) w code crew.cls bs v
          Claim.LanesStay x c c.act → exec c.i s = .next (Claim.departed x c c.act)))) ∧
    (∀ ref crew, w.front = true → w.hart.crew = some ref → s.crewOf ref = some crew →
      let b := c.w.vd.toNat
      let o := s.barrier crew b
      let x := w.bars.getD b {}
      let arrived := (if x.held then 0#64 else x.arrived) ||| c.g.mask
      (c.i = .barArv c.w →
        (x.held = true → x.ticket = o.phase → exec c.i s = .next s) ∧
        ((x.held = false ∨ x.ticket ≠ o.phase) →
          (w.lanes &&& ~~~arrived ≠ 0 → exec c.i s = .next (Claim.laneTo s c (Claim.groupOn c
            { w with bars := w.bars.put b { x with
              arrived := arrived
              held := false } }))) ∧
          (w.lanes &&& ~~~arrived = 0 → Claim.WaveQuiet s c.k → exec c.i s = .next (Claim.laneTo
            (s.setCrew ref.cluster ref.slot { crew with barriers := crew.barriers.put b (Claim.counted o) }) c (Claim.groupOn c
              { w with bars := w.bars.put b { arrived := 0, ticket := o.phase, held := true } }))))) ∧
      (c.i = .barWait c.w →
        (x.held = true → x.ticket = o.phase → exec c.i s = .next s) ∧
        ((x.held = false ∨ x.ticket ≠ o.phase) → exec c.i s = .next on))) ∧
    (c.i = .spawn c.w → ∀ (rec : Nat → List Byte) t u, Claim.WaveQuiet s c.k →
      let va (l : Nat) : Dword := w.pair c.w.vd.toNat l
      let cs := ls.map fun l => contOfBytes (rec l)
      let o := originOf s (.uniform c.k)
      (∀ l ∈ ls, (va l).toNat % 32 = 0 ∧ canonical (va l) = true ∧ vread acc (va l) 32 s = .ok (rec l) s ∧
        refuseCont s w.hart.crew w.hart.launch (contOfBytes (rec l)) = none ∧
        ((contOfBytes (rec l)).join ≠ 0 → Claim.Resolves s acc (canonOf (contOfBytes (rec l)).join) 8 .store)) →
      lacksRoom s o cs = false → addJoins acc cs s = .ok () t → u = t.releaseUnit (.wave c.k) 3 →
      (∀ k ∈ cs, u.canStart (o.queued u k).c = true) →
      let v := cs.foldl (fun v k => v.pushCont o.cluster (o.queued v k)) u
      exec c.i s = .next (Claim.laneTo v c (Claim.groupOn c (v.wave c.k)))) ∧
    (c.i = .fwait c.w → ∀ (e : Nat → Future) (rec : Nat → List Byte) t, Claim.WaveQuiet s c.k →
      let n := c.w.vd.toNat
      let va (l : Nat) : Dword := w.pair (n + 2) l
      let ready := maskOf (ls.filter fun l => (e l).st == 2).contains
      let waits := ls.filter fun l => (e l).st != 2
      (∀ l ∈ ls, Claim.Live s (w.reg n l).toNat (e l) ∧ (e l).st ≠ 3 ∧ (va l).toNat % 64 = 0 ∧ vread acc (va l) 32 s = .ok (rec l) s ∧
        refuseCont s w.hart.crew w.hart.launch (contOfBytes (rec l)) = none ∧ Claim.Resolves s acc (va l) 64 .store) →
      overPeak s c.k (laneFrees c w) [n, n + 1] = false → w.newDuties waits = 0 →
      (waits = [] → exec c.i s = .next (Claim.laneTo s c (Claim.groupOn c (w.writeOperand true n ready fun l => (e l).value)))) ∧
      (waits ≠ [] → futWaitLanes c.k acc w n waits s = .ok () t →
        let u := t.setWave c.k ((t.wave c.k).writeOperand true n ready fun l => (e l).value)
        Claim.LanesStay u c (maskOf waits.contains) → exec c.i s = .next (Claim.departed u c (maskOf waits.contains)))) ∧
    (c.i = .send c.w → ∀ (m : Nat → Msg) (body : Nat → List Byte), Claim.WaveQuiet s c.k →
      let n := c.w.vd.toNat
      (∀ l ∈ ls, s.destOf w.hart.crew (w.pair n l) false false = some (m l) ∧ (w.pair (n + 2) l).toNat % 64 = 0 ∧
        vread acc (w.pair (n + 2) l) 64 s = .ok (body l) s) →
      ls.length ≤ s.sendFree (8192 + c.k / 16) →
      let t := ls.foldl (fun t l => t.pushSend (8192 + c.k / 16) (Claim.laneMessage c.k l (m l) (body l))) s
      exec c.i s = .next (Claim.laneTo t c (Claim.groupOn c (t.wave c.k))))

/-- The other lane memory instructions complete: FENCE once the wave's accesses are performed (R286); STN after each lane's nibble
store (R278, R279); CWB, CINV and CFLUSH after the union of the lanes' ranges (R287); STQ with each lane's operation in the send queue
(R288); PFH after its fills (R289); TEX.SMP and TEX.FCH with the components of each lane's texels, and zeros for a lane out of
bounds (R388). -/
def Obligations.OtherLaneMemoryInstructionsComplete : Prop :=
  ∀ (s t : State) (c : LCtx), Claim.LaneReady s c → Claim.Signals t c →
    let w := s.wave c.k
    let acc := s.laneAcc c.k
    let done := exec c.i s = .next (Claim.laneDone t c {})
    (c.i = .fence c.w → w.accesses = [] →
      t = (if semReleases c.w.sem.toNat then s.releaseUnit (.wave c.k) c.w.scope.toNat else s) → done) ∧
    (c.i = .stn c.w → ∀ e : Nat → TlbEntry, (∀ a ∈ w.accesses, a.hold = false) → BufRec.reserved (Claim.recordOf s c) = false →
      BufRec.esize (Claim.recordOf s c) = 0 → BufRec.swz (Claim.recordOf s c) = 0 →
      (BufRec.bnd (Claim.recordOf s c) = 1 → ∀ l ∈ lanesOf c.act, (Claim.nibbleOf s c l).1.oob = false) →
      (∀ l ∈ Claim.nibblesIn s c, Claim.Reaches s acc .store (Claim.nibbleOf s c l).1.va 1 (e l)) →
      w.meetsPending ((Claim.nibblesIn s c).map fun l => Claim.segOf (e l) (Claim.nibbleOf s c l).1.va 1) = false →
      Claim.Signals s c → ∃ u, exec c.i s = .next (Claim.laneDone u c {}) ∧
        u.mem = Claim.nibblesStored s c (fun l => (trOf (e l).pte (e l).size ((Claim.nibbleOf s c l).1.va.toNat % 2 ^ 48)).pa)
          (Claim.nibblesIn s c) s.mem) ∧
    (∀ o, (c.i, o) ∈ [(Instr.cwb c.w, RangeOp.cwb), (.cinv c.w, .cinv), (.cflush c.w, .cflush)] → Claim.LanesPlaced s c → Claim.WordsAligned s c → w.accesses = [] →
      (∀ l ∈ Claim.inBounds s c, (Claim.wordAt s c l).va.toNat % 2 ^ 48 + (w.reg c.w.vd.toNat l).toNat ≤ 2 ^ 48) →
      rangesM c acc o (Claim.rangesOf s c) (joinRanges ((Claim.rangesOf s c).foldr insertRange []))
        (Claim.notes s c (Claim.inBounds s c) false) = .ok () t → done) ∧
    (c.i = .stq c.w → ∀ (d : Nat → List Byte) (o : Nat → StqOp) (p : Nat → List Byte), Claim.LanesPlaced s c → w.accesses = [] →
      (∀ l ∈ Claim.inBounds s c, (Claim.wordAt s c l).va.toNat % 64 = 0 ∧ vread acc (Claim.wordAt s c l).va 64 s = .ok (d l) s ∧
        stqOf s w.hart.crew w.hart.launch (d l) = .ok (o l) ∧ vread acc (w.pair c.w.vd.toNat l) (stqLen (d l)) s = .ok (p l) s) →
      (Claim.inBounds s c).length ≤ s.sendFree (8192 + c.k / 16) →
      t = (Claim.inBounds s c).foldl (fun t l => t.pushSend (8192 + c.k / 16) (Claim.laneStq s c l (o l) (p l)))
        (Claim.notes s c (Claim.inBounds s c) false) → done) ∧
    (c.i = .pfh c.w → badRecord (Claim.recordOf s c) c.w.ty = none → (BufRec.flat (Claim.recordOf s c) = true → c.w.va.getLsbD 0 = false) →
      prefetchLanes acc c.w.hint.toNat (wordSize c.w.ty) (Claim.fetched s c) s = .ok () t → done) ∧
    (∀ inside f rs u v, (c.i, inside, f) ∈ [(Instr.texSmp c.w, (fun _ => true), sampleLane c (Claim.recordOf s c) w),
        (.texFch c.w, fetchInside c (Claim.recordOf s c) w, fun acc u l => texel c.k acc u (c.w.hint != 3) (Claim.recordOf s c) (texCoord c w l 3)
          (texCoord c w l 0) (texCoord c w l 1) (texCoord c w l 2))] →
      TexRec.ok (Claim.recordOf s c) = true → (∀ a ∈ w.accesses, a.hold = false) →
      laneCollect ((lanesOf c.act).filter inside) (f { acc with
          tlb := .unit (c.k / 128) (2 + u)
          decomp := true } u) (s.drawNat 2).2 = .ok rs v →
      u = (s.drawNat 2).1 → t = (let x := Claim.notes v c ((lanesOf c.act).filter inside) false
        x.setWave c.k (texels c rs (x.wave c.k))) → done)

/-- Lane instructions of the matrix engine and of the special functions: SFX issues its token and SFX.WAIT waits for tokens (R328,
R329); KRD, KWR and ACC.ZERO read and write rows of the accumulators (R191, R346); RING.ADV and RING.WAIT count the stages of a ring
(R347, R348); MLD enters the engine's queue (R339, R340); MMA.G arrives at its crew's latch, waits, and goes on once its command is
accepted (R343). -/
def Obligations.MatrixAndFunctionInstructions : Prop :=
  ∀ (s : State) (c : LCtx), Claim.LaneReady s c → Claim.Signals s c →
    let w := s.wave c.k
    let ls := lanesOf c.act
    let vd := c.w.vd.toNat
    let done := exec c.i s = .next (Claim.laneDone s c {})
    (∀ fn, c.i = .sfx fn c.w →
      (c.act = 0 → done) ∧
      (c.act ≠ 0 → w.sfx.find c.w.vc.toNat = none → s.sfxCount c.k < 16 → Claim.Room s c [vd] →
        exec c.i s = .next (Claim.laneDone (s.setWave c.k { (w.writeReg vd c.act fun l => w.reg vd l) with
          sfx := w.sfx.put c.w.vc.toNat { fn := fn, ty := c.w.ty, vd := vd, mask := c.act, src := w.row c.w.va.toNat } })
          c { token := some c.w.vc.toNat }))) ∧
    (c.i = .sfxWait c.w →
      let named := w.sfx.any fun e => (c.w.va.toNat + 256 * c.w.vb.toNat).testBit e.1
      (named = false → done) ∧ (named = true → exec c.i s = .next s)) ∧
    (c.i = .krd c.w →
      let key (l : Nat) : Nat := s.rowKey c.k (rowOf c c.w.va) l
      rowOf c c.w.va < s.waveRows c.k → Claim.Room s c [vd] →
      (∀ l ∈ ls, s.runningOut (c.k / 128) (key l) = none ∧ s.poisoned (key l) 4 = false) →
      exec c.i s = .next (Claim.laneDone (s.setWave c.k (w.writeReg vd c.act fun l => if Mask.has c.act l then
        BitVec.ofNat 32 (natOfBytes (s.peek (key l) 4)) else 0)) c {})) ∧
    (∀ ks, (c.i, ks) ∈ [(Instr.kwr c.w, Claim.rowWrite s c), (.accZero c.w, Claim.rowZero s c)] →
      rowOf c c.w.vd + (if c.i = .accZero c.w then c.w.vc.toNat + 1 else 1) ≤ s.waveRows c.k → Claim.AccsFree s c ks →
      ∃ t, exec c.i s = .next (Claim.laneDone t c {}) ∧ t.mem = Claim.accsWritten ks s.mem) ∧
    (∀ r crew m, s.waveMat c.k = some (r, crew, m) →
      (c.i = .ringAdv c.w →
        let x := m.ring c.w.vc.toNat
        x.v = true → x.used ≠ x.stages → (c.act = 0 → done) ∧
        (c.act ≠ 0 → Claim.WaveQuiet s c.k →
          exec c.i s = .next (Claim.laneDone (s.setRing r c.w.vc.toNat { x with filled := (x.filled + 1) % 65536 }) c {}))) ∧
      (c.i = .ringWait c.w →
        let x := m.ring (c.w.vc.toNat % 4)
        let n := c.w.vc.toNat / 4
        x.v = true → n ≤ x.stages → Claim.Room s c [vd] →
        (x.stages - x.used < n → exec c.i s = .next s) ∧
        (n ≤ x.stages - x.used → exec c.i s = .next (Claim.laneDone (s.setWave c.k (w.writeReg vd c.act fun _ =>
          BitVec.ofNat 32 (x.filled % x.stages))) c {}))) ∧
      (m.gang.getLsbD 63 = true → w.front = true → (Gang.ranks m.gang).contains w.rank = true →
        (c.i = .mld c.w →
          let form := mldForm c.w.ty
          let mac := c.w.vc.toNat % 32
          mac < Gang.mcnt m.gang → (form = 2 → mac % 2 = 0 ∧ mac + 1 < Gang.mcnt m.gang) → (w.uni c.w.vb.toNat).toNat % 256 = 0 →
          (c.act = 0 → done) ∧
          (∀ e, c.act ≠ 0 → Claim.WaveQuiet s c.k → (s.cluster r.cluster).matrix.freeEntry crew.cls = some e →
            let macs := if form = 2 then [Gang.mbase m.gang + mac, Gang.mbase m.gang + mac + 1] else [Gang.mbase m.gang + mac]
            let t := s.queueCmd r.cluster e r crew.cls macs (.mld form (w.uni c.w.vb.toNat) (c.w.vc.getLsbD 5) w.hart.dptb)
            Claim.Signals t c → exec c.i s = .next (Claim.laneDone t c { cmd := some (s.cluster r.cluster).matrix.next }))) ∧
        (c.i = .mmaG c.w → m.verdictOf c.k (lowLane c.g.mask) c.g.pc = none →
          (m.arrivalOf c.k (lowLane c.g.mask) c.g.pc = false → exec c.i s = .next (s.setMatCrew r.cluster r.slot
            { m with arrivals := m.arrivals ++ [Claim.arrivalAt s c] })) ∧
          (m.arrivalOf c.k (lowLane c.g.mask) c.g.pc = true → exec c.i s = .next s))) ∧
      (∀ v, c.i = .mmaG c.w → m.verdictOf c.k (lowLane c.g.mask) c.g.pc = some v → v.refused = none →
        let t := s.setMatCrew r.cluster r.slot { s.matCrew r.cluster r.slot with
          verdicts := (s.matCrew r.cluster r.slot).verdicts.filter (· != v) }
        Claim.Signals t c → exec c.i s = .next (Claim.laneDone t c { cmd := v.cmd })))

/-- Lane instructions of Bloom and of the graphics nodes: BLM.EMIT sends each active lane's event after a release, BLM.READ reads a bank
that the wave's crew installed, and BLM.WRITE acts on it once (R370, R371); RESV reserves records of a node lane by lane, COMMIT and
CANCEL pass on or free the records that the lanes' handles name, and EMIT.V and EMIT.P store the lanes' elements of a mesh (R377, R378,
R380). A reserved opcode or function raises ILLEGAL_OPCODE (R157, R165). -/
def Obligations.BloomAndGraphicsInstructions : Prop :=
  (∀ (s t : State) (c : LCtx), Claim.LaneReady s c → Claim.Signals t c →
    let w := s.wave c.k
    let ls := lanesOf c.act
    let acc := s.laneAcc c.k
    let cl := c.k / 128
    let b := c.w.vc.toNat % 16
    let done := exec c.i s = .next (Claim.laneDone t c {})
    (c.i = .blmEmit c.w → (c.act ≠ 0 → Claim.WaveQuiet s c.k) →
      t = (ls.map fun l => w.pair c.w.va.toNat l).foldl (fun t e => t.sendEvent (UnitId.wave c.k).code cl e) s →
      exec c.i s = .next (Claim.laneDone t c { events := some (s.nextEvent, t.nextEvent) })) ∧
    (∀ x, s.bank cl b = some x → some x.crew = w.hart.crew →
      (c.i = .blmRead c.w → Claim.Room s c [c.w.vd.toNat] →
        t = s.setWave c.k (w.writeReg c.w.vd.toNat c.act fun _ => bankWord (c.w.vc.toNat / 16) x) → done) ∧
      (∀ f, (c.i, f) ∈ [(Instr.blmAdvance c.w, do
            modBank cl b fun x => { x with h := if 0 < sd ((w.uni c.w.vb.toNat).setWidth 16) x.h then (w.uni c.w.vb.toNat).setWidth 16 else x.h }
            drainBank cl b false 1025),
          (.blmFlush c.w, do
            drainBank cl b true 1025
            modBank cl b fun x => { x with td := x.h }),
          (.blmClear c.w, modBank cl b fun x => { x with
            late := 0
            fires := 0
            drop := 0 })] →
        (if c.act = 0 then pure () else f : M Unit) s = .ok () t → done)) ∧
    (∀ node d, laneNode c s = .ok (node, d) s →
      (c.i = .resv c.w → Claim.Room s c (vdRegs c.i c.w) → reserveLanes c acc node d ls s = .ok () t → done) ∧
      (∀ rec : Nat → Nat × GfxRec, (∀ l ∈ ls, laneRec s c node d l = some (rec l)) → ((ls.map fun l => (rec l).1).eraseDups.length = ls.length) →
        (c.i = .commit c.w → (∀ l ∈ ls, (rec l).2.st = .reserved) → (c.act ≠ 0 → Claim.WaveQuiet s c.k) →
          commitLanes acc d node (ls.map fun l => (rec l).1) s = .ok () t → done) ∧
        (c.i = .cancel c.w → (∀ l ∈ ls, (rec l).2.st = .reserved ∨ ((rec l).2.st = .delivered ∧
            deliveredHere w l { node := node, slot := (rec l).1, id := (rec l).2.id } = true)) →
          cancelLanes node (ls.map rec) s = .ok () t → done))) ∧
    (∀ vertex, (c.i, vertex) ∈ [(Instr.emitV c.w, true), (.emitP c.w, false)] → ∀ (va : Nat → Dword) (ok : Nat → Bool) (g : Nat → List Seg) u,
      let n := if vertex then 32 else 4
      (∀ a ∈ w.accesses, a.hold = false) →
      (∀ l ∈ ls, meshElem c vertex l s = .ok (va l, ok l) s ∧ resolve acc (va l) (if ok l then n else 4) .store s = .ok (g l) s) →
      w.meetsPending (ls.map g).flatten = false → gateSegs acc true (ls.map g).flatten s = .ok () u →
      emitLanes c acc w vertex (ls.map fun l => (l, va l, ok l)) u = .ok () t → done)) ∧
  (∀ (s : State) (k : Nat) (sec : Bool) (g : Group) (x : BitVec 96), s.actor = some (.lanes k sec) → (s.wave k).group sec = some g →
    exec (.reservedLaneOpcode x) s =
      .next (s.trapLanes k sec g 1 ((x.extractLsb' 8 8).toNat * 256 + (x.extractLsb' 0 8).toNat) 0 g.mask false))

/-! ## Coherence, the host, links, memory errors and power on their own (R230, R261, R266, R271, R272, R304, R311, R312, R317, R412, R419
to R426, R433, R434) -/

/-- What coherence, translation, the host, the links, the memory and the governor do without an instruction: invalidations drop the
translations they name and the last acknowledgement lets their hart go on (R271, R272); hotness counters halve (R261); quantum updates
are performed (R304); a walk fills the TLB of its unit (R266, R269); requests and evictions move tokens (R311, R312) and a lost home
record is rebuilt or its granule poisoned (R317); the host's and the peers' accesses are performed at the home (R422 to R426); failed
modules and links go (R419, R421); memory errors are logged and poison (R412); the governor keeps GOVSTAT and ends every launch at
110 °C (R434). -/
def Obligations.MemoryHostAndPowerEvents : Prop :=
  ∀ (s : State),
    (∀ n c i, s.invals.find n = some i → i.toReceive.getLsbD c = true →
      ∃ t, exec (.invalidationReceive n c) s = .next t ∧ (∀ x ∈ (t.cluster c).tlb, i.names x = false) ∧
        (∀ k, k / 64 = c → ∀ x ∈ (t.core k).tlb, i.names x = false) ∧ (∀ k, k / 8 = c → ∀ x ∈ (t.wengine k).tlb, i.names x = false) ∧
        (∀ k, k / 7 = c → ∀ x ∈ (t.engine k).tlb, i.names x = false) ∧
        t.invals.find n = some { i with toReceive := i.toReceive &&& ~~~clusterBit c } ∧
        (i.flushPage = none → t.mem = s.mem) ∧
        ∀ p l, i.flushPage = some p → l / 16 = p → (t.cluster c).lines.find l = none) ∧
    (∀ n c i, s.invals.find n = some i → i.toReceive.getLsbD c = false → i.toAck.getLsbD c = true → Claim.NoUse s i c →
      ∃ t, exec (.invalidationAck n c) s = .next t ∧ t.mem = s.mem ∧
        (i.toAck &&& ~~~clusterBit c ≠ 0 → t.invals.find n = some { i with toAck := i.toAck &&& ~~~clusterBit c }) ∧
        (i.toAck &&& ~~~clusterBit c = 0 → t.invals.find n = none ∧
          ∀ h, i.hart = some h → (s.hart h).run = .parked .inval → t.hart h = { s.hart h with granted := some (.value 0) })) ∧
    (∀ die, die < 4 → s.clk / 4194304 - s.halvings[die]! ≠ 0 →
      ∃ t, exec (.hotnessHalving die) s = .next t ∧ t.halvings[die]! = s.clk / 4194304 ∧ t.mem = s.mem ∧
        ∀ g v, (g, v) ∈ t.hot ↔ v ≠ 0 ∧ ∃ w, (g, w) ∈ s.hot ∧
          v = if dieOfPa (g * 65536) = die then w / 2 ^ (s.clk / 4194304 - s.halvings[die]!) else w) ∧
    (∀ n q v, MemoryOk s → s.quantum[n]? = some q → (∀ x ∈ s.quantum.eraseIdx n, x ≠ q) →
      (∀ x ∈ s.quantum.take n, ¬(x.unit = q.unit ∧ x.pa / 256 = q.pa / 256)) →
      let w := if q.dbl then 8 else 4
      atomNew (.ofCode q.op) (8 * w) (natOfBytes (s.peek q.pa w)) q.data.toNat q.data2.toNat = some v →
      ∃ t, exec (.quantumFlush n) s = .next t ∧ t.quantum = s.quantum.eraseIdx n ∧ t.peek q.pa w = leBytes w v ∧
        Claim.OthersKept s t q.pa w ∧ MemoryOk t) ∧
    (∀ h va kind, canonical va = true → inWindow (va.toNat % 2 ^ 48) = false →
      (∀ tr t, translate (s.accOf h) (va.toNat % 2 ^ 48) kind s = .ok tr t →
        exec (.pageWalk h va kind) s = .next t ∧
          ((t.tlb (s.accOf h).tlb).find? fun e => e.hits (asidOf (s.hart h).dptb) (va.toNat % 2 ^ 48) && e.serves (s.accOf h) kind).isSome = true) ∧
      (∀ e t, translate (s.accOf h) (va.toNat % 2 ^ 48) kind s = .error e t → exec (.pageWalk h va kind) s = .next s)) ∧
    (∀ c g, c < 128 → Claim.GranuleFree s g →
      (∃ t, exec (.tokenRequest c g true) s = .next t ∧ (t.tok g).held.getD c 0 = 129 ∧ t.mem = s.mem) ∧
      (∃ t, exec (.tokenRequest c g false) s = .next t ∧ t.mem = s.mem ∧ (t.tok g).held.getD c 0 =
        if (s.tok g).held.getD c 0 ≠ 0 then (s.tok g).held.getD c 0
        else (s.tok g).home + ((s.tok g).held.filter fun e => 1 < e.2 && e.1 != c).length) ∧
      (∀ w, (s.persistent.find? fun p => p.cluster == c && p.granule == g) = none →
        exec (.persistentRequest c g w) s = .next { s with
          persistent := s.persistent ++ [{ cluster := c, granule := g, write := w, clk := s.clk }] }) ∧
      (∀ w p, (s.persistent.find? fun p => p.cluster == c && p.granule == g) = some p → s.firstPersistent g = some p →
        ∃ t, exec (.persistentRequest c g w) s = .next t ∧ (t.tok g).held.getD c 0 = 129 ∧ t.persistent = s.persistent.erase p ∧
          t.mem = s.mem)) ∧
    (∀ c g w l, s.isGranule g = true → (s.granuleLines g).find? s.hostFilter.contains = some l →
      ∃ t, exec (.tokenRequest c g w) s = .next t ∧ (t.snoops.find l).isSome = true ∧ t.tokens = s.tokens ∧ t.mem = s.mem) ∧
    (∀ c g, (s.tok g).held.getD c 0 ≠ 0 → ∃ t, exec (.tokenEviction c g) s = .next t ∧ (t.tok g).held.getD c 0 = 0 ∧
      (t.tok g).owner ≠ some c ∧ t.mem = s.mem) ∧
    (∀ g, s.isGranule g = true → ∃ t : State, exec (.homeRecall g) s = .next (t.logError 0 0 12 255
        (sliceCluster (if paKind ((s.granuleLines g).headD g * 256) = .host then 0 else dieOfPa ((s.granuleLines g).headD g * 256))
          (sliceOf ((s.granuleLines g).headD g * 256))) ((s.granuleLines g).headD g * 256) 0 0 0xFFFFFFFF) ∧
        t.tok g = {} ∧ t.mem = s.mem ∧ (((s.tok g).held.map (·.2)).sum = 129 → t.poison = s.poison) ∧
        (((s.tok g).held.map (·.2)).sum ≠ 129 → ∀ l ∈ s.granuleLines g, ∀ b, b < 32 → l * 32 + b ∈ t.poison)) ∧
    (∀ line inv, paKind (line * 256) = .host → ∃ t, exec (.hostSnoop line inv) s = .next t ∧ t.tok (s.granuleOf line) = {} ∧
      t.mem = s.mem ∧ t.llc = if inv then s.llc.erase line else s.llc) ∧
    (∀ addr data, paKind addr = .dram →
      (MemoryOk s → ∃ t, exec (.hostMemAccess true addr data) s = .next t ∧
        t.peek addr (Claim.lineData addr data).length = Claim.lineData addr data ∧
        Claim.OthersKept s t addr (Claim.lineData addr data).length ∧ t.tok (s.granuleOf (addr / 256)) = {} ∧
        ((s.snoops.find (addr / 256)).isSome = true → t.snoops.find (addr / 256) = some true)) ∧
      (∃ t, exec (.hostMemAccess false addr data) s = .next t ∧ t.mem = s.mem ∧ (addr / 256) ∈ t.hostFilter ∧
        ((s.snoops.find (addr / 256)).isSome = true → t.snoops.find (addr / 256) = some true))) ∧
    (∀ line,
      (s.snoops.find line = some true → exec (.backInvalidationResponse line) s = .next { s with snoops := s.snoops.put line false }) ∧
      (s.snoops.find line = some false → exec (.backInvalidationResponse line) s = .next { s with
        snoops := s.snoops.del line
        hostFilter := s.hostFilter.erase line })) ∧
    (∀ addr data, MemoryOk s → paKind addr = .dram → s.hostFilter.contains (addr / 256) = false →
      (∃ t, exec (.peerWindowAccess .fill addr data) s = .next t ∧ t.mem = s.mem ∧ t.tok (s.granuleOf (addr / 256)) = {}) ∧
      (∃ t, exec (.peerWindowAccess .writeBack addr data) s = .next t ∧ t.tok (s.granuleOf (addr / 256)) = {} ∧
        t.peek addr (Claim.lineData addr data).length = Claim.lineData addr data ∧
        Claim.OthersKept s t addr (Claim.lineData addr data).length) ∧
      (∀ code v, code ≠ 7 → (data.length = 4 ∨ data.length = 8) → addr % data.length = 0 → s.poisoned addr data.length = false →
        atomNew (.ofCode code) (8 * data.length) (natOfBytes (s.peek addr data.length)) (natOfBytes data) 0 = some v →
        ∃ t, exec (.peerWindowAccess (.atomic code) addr data) s = .next t ∧ t.tok (s.granuleOf (addr / 256)) = {} ∧
          t.peek addr data.length = leBytes data.length v ∧ Claim.OthersKept s t addr data.length)) ∧
    (∀ link seq, exec (.flitReplay link seq) s = .next { s with
      replays := s.replays.put link (seq % 4096, if (s.replays.find link).map (·.1) = some (seq % 4096)
        then ((s.replays.find link).map (·.2)).getD 0 + 1 else 1) }) ∧
    (∀ pair m, pair < 4 → m < 24 → 16 ≤ ((s.replays.find (pair * 24 + m)).map (·.2)).getD 0 → (s.modules[pair]!).getLsbD m = true →
      let u : State := { s with replays := s.replays.del (pair * 24 + m) }
      let left := s.modules[pair]! &&& ~~~BitVec.ofNat 24 (2 ^ m)
      let v : State := ({ u with modules := s.modules.set! pair left }).logError 0 0 4 255 0 0 0 0 0xFFFFFFFF
      exec (.linkRetrain pair m true) s = .next u ∧ (left ≠ 0 → exec (.linkRetrain pair m false) s = .next v) ∧
        (left = 0 → exec (.linkRetrain pair m false) s = .next (Claim.endAll v))) ∧
    (∀ link, link < 8 → s.linkUp.getLsbD link = true →
      let u : State := { s with linkUp := s.linkUp &&& ~~~BitVec.ofNat 8 (2 ^ link) }
      exec (.halhelFailover link) s =
        .next (if (u.linkTo (s.links[link]!).toNat).isSome then u.logError 0 0 4 255 0 0 0 0 0xFFFFFFFF else u)) ∧
    (∀ c addr, c < 128 →
      ((∀ k, (s.cluster c).eccClk = some k → k + 2097152 ≤ s.clk) → exec (.eccCorrected c addr) s =
        .next ((s.setCluster c { s.cluster c with eccClk := some s.clk }).logError 0 0 4 255 c addr 0 0 0xFFFFFFFF)) ∧
      (∀ k, (s.cluster c).eccClk = some k → s.clk < k + 2097152 →
        exec (.eccCorrected c addr) s = .next { s with elLost := (s.elLost + 1) % 2 ^ 32 })) ∧
    (∀ addr, addr < 2 ^ 66 → ∃ t : State, exec (.eccUncorrected addr) s =
        .next (t.logError 22 0 5 255 0 (if addr < 2 ^ 56 then addr else 0) 0 0 0xFFFFFFFF) ∧ addr / 8 ∈ t.poison ∧
        t = { s with poison := t.poison }) ∧
    (∀ k b, (s.wave k).live = true → b < 2 ^ 14 → exec (.eccUncorrected (regKey k b)) s =
      .next ((s.setWave k { s.wave k with bad := insertNat (s.wave k).bad b }).logError 22 0 5 255 0 0 0 0 0xFFFFFFFF)) ∧
    (∀ watts tj, watts < 65536 → tj < 256 →
      ∃ step cause, exec (.governorWindow watts tj) s = .next { s with
          govPwr := watts
          govTj := tj
          govStep := step
          govCause := cause
          free := s.free + 1 } ∧
        (100 ≤ tj → cause = 3 ∧ min 8 (s.govStep + 1) ≤ step ∧ step ≤ 8) ∧
        (tj < 100 → min s.plimit s.govCap < watts →
          cause = (if s.govCap < s.plimit then 2 else 1) ∧ min 8 (s.govStep + 1) ≤ step ∧ step ≤ 8) ∧
        (tj < 100 → watts ≤ min s.plimit s.govCap → step ≤ s.govStep ∧ (step = 0 → cause = 0))) ∧
    (∀ tj, 100 ≤ tj → tj < 256 → ∃ step, exec (.thermalThrottle tj) s = .next { s with
        govTj := tj
        govStep := step
        govCause := 3
        free := s.free + 1 } ∧ min 8 (s.govStep + 1) ≤ step ∧ step ≤ 8) ∧
    (∀ tj, 110 ≤ tj → tj < 256 →
      exec (.thermalTrip tj) s = .next { Claim.endAll { s with govTj := tj } with halted := true }) ∧
    (∀ nonce, nonce.length = 48 → exec (.attestation nonce) s =
      .next { s with attested := (s.attested' nonce ++ Config.attestSignature (s.attested' nonce)) :: s.attested })

/-! ## Messages on their way, handlers, signals, registers written from outside (R25, R32, R95, R102 to R105, R115, R159, R230, R232, R244,
R253, R254, R397, R400, R402, R414, R427) -/

/-- Messages leave in order and arrive (R103 to R105), wait for their strand at the front end or are dropped with an entry of KIND 10
(R102); a handler starts at the first instruction of its message with x10 to x12 set and x10 to x17 shadowed (R402); an stq writes its
payload before its continuation and its signal, or records its fault (R115, R400). -/
def Obligations.MessagesAndStqsArrive : Prop :=
  ∀ (s : State),
    (∀ q n e, (s.sendq q).find n = some e → sendReady (s.sendq q) n e = true →
      (∀ m, e = .msg m → ∃ t, exec (.messageDepart q n) s = .next t ∧ t.net = s.net ++ [{ m with queue := q, entry := n }] ∧
        t.sendq q = (if m.handler.isSome then (s.sendq q).put n (.held m.origin) else (s.sendq q).del n) ∧ t.mem = s.mem ∧
        ∀ h, t.hart h = s.hart h) ∧
      (∀ o, e = .stq o → ∃ t, exec (.messageDepart q n) s = .next t ∧ t.stqs = s.stqs ++ [o] ∧ t.sendq q = (s.sendq q).del n ∧
        t.net = s.net ∧ t.mem = s.mem ∧ ∀ h, t.hart h = s.hart h)) ∧
    (∀ n m, Claim.Arrives s n m → m.pkg = none →
      let r := s.hart (.strand m.target)
      (m.rank = none → (m.handler = none ∨ r.run ≠ .idle) → ∃ t, exec (.messageArrival n) s = .next t ∧ t.net = s.net.eraseIdx n ∧
        t.hart (.strand m.target) = Claim.received r m ∧ t.mem = s.mem) ∧
      (m.rank = none → m.handler.isSome = true → r.run = .idle →
        exec (.messageArrival n) s = .next ((Claim.offNet s n m).logError 0 0 10 255 (m.target / 512 % 128) 0 0 0 0xFFFFFFFF)) ∧
      (∀ launch linear, m.rank = some (launch, linear) →
        (s.crewGone launch linear = true → exec (.messageArrival n) s =
          .next ((Claim.offNet s n m).logError 0 0 10 255 (m.target / 512 % 128) 0 0 0 linear)) ∧
        (s.crewGone launch linear = false → s.rankCtx launch linear m.target = none →
          (s.heldMsgs.filter fun x => x.rank == m.rank).length < 4096 →
          exec (.messageArrival n) s = .next { s with
            net := s.net.eraseIdx n
            heldMsgs := s.heldMsgs ++ [m] }) ∧
        (s.crewGone launch linear = false → s.rankCtx launch linear m.target = none →
          4096 ≤ (s.heldMsgs.filter fun x => x.rank == m.rank).length → exec (.messageArrival n) s =
            .next ((Claim.offNet s n m).logError 0 0 10 255 (m.target / 512 % 128) 0 0 0 linear)) ∧
        (∀ ctx, s.crewGone launch linear = false → s.rankCtx launch linear m.target = some ctx →
          (s.heldMsgs.any fun x => x.rank == m.rank && x.target == m.target) = false →
          (m.handler = none ∨ (s.hart (.strand ctx)).run ≠ .idle) →
          ∃ t, exec (.messageArrival n) s = .next t ∧ t.net = s.net.eraseIdx n ∧
            t.hart (.strand ctx) = Claim.received (s.hart (.strand ctx)) m ∧ t.mem = s.mem))) ∧
    (∀ crew c m ctx, (s.cluster (crew / 8)).crews.find (crew % 8) = some c →
      (s.heldMsgs.find? fun m => m.rank == some (c.launch, c.linear) && c.started.contains m.target) = some m →
      c.ctxs[m.target]? = some ctx → (m.handler = none ∨ (s.hart (.strand ctx)).run ≠ .idle) →
      ∃ t, exec (.heldMessageDelivery crew) s = .next t ∧ t.heldMsgs = s.heldMsgs.erase m ∧
        t.hart (.strand ctx) = Claim.received (s.hart (.strand ctx)) m ∧ t.mem = s.mem) ∧
    (∀ k m rest, (s.hart (.strand k)).handlerQueue = m :: rest →
      let r := s.hart (.strand k)
      (r.run = .idle → exec (.handlerStart k) s = .next (((s.setHart (.strand k) { r with handlerQueue := rest }).freeHeld m).logError 0 0 10 255
        (k / 512 % 128) 0 0 0 ((m.rank.map (·.2)).getD 0xFFFFFFFF))) ∧
      (MemoryOk s → r.run ≠ .idle → r.run ≠ .stopped → r.handler = none → r.tn = false →
        ∃ t, exec (.handlerStart k) s = .next t ∧
          let u := t.hart (.strand k)
          u.handler = some {
            code := m.handler.getD []
            off := 0
            saved := (List.range 8).map fun i => r.x.toList.getD (10 + i) 0
            sender := m.sender
            dest := m.dest
            replied := false
            wasParked := match r.run with
              | .parked p => some p
              | _ => none } ∧
          u.hm = true ∧ u.run = .running ∧ u.handlerQueue = rest ∧ u.pc = r.pc ∧ u.rx 10 = handlerBuffer k ∧ u.rx 11 = m.sender ∧
          u.rx 12 = m.dest ∧ (∀ j : Reg, (j.toNat < 10 ∨ 17 < j.toNat) → u.rx j = r.rx j) ∧
          t.peek (hbufKey k 0) m.payload.length = m.payload ∧ Claim.OthersKept s t (hbufKey k 0) m.payload.length)) ∧
    (∀ n o, s.stqs[n]? = some o →
      let t : State := { s with stqs := s.stqs.eraseIdx n }
      let w : Origin := { cluster := o.cluster, crew := o.crew, launch := o.launch, dcrew := o.dcrew, dptb := o.dptb }
      let q := w.queued t o.cont
      (∀ u, stqWork o t = .ok () u → exec (.stqTarget n) s = .next u) ∧
      (∀ e, Claim.Reaches t o.acc .store (BitVec.ofNat 64 o.target) o.payload.length e → MemoryOk s → s.quantum = [] → o.cont.join = 0 →
        s.canStart q.c = true → (o.cont.kind = 1 ∨ t.queueRoom (t.contCluster o.cluster q.c) o.cont.cls 1 = true) →
        let pa := (trOf e.pte e.size (o.target % 2 ^ 64 % 2 ^ 48)).pa
        ∃ u, exec (.stqTarget n) s = .next ((u.pushCont o.cluster q).stqSignal o) ∧ u.peek pa o.payload.length = o.payload ∧
          Claim.OthersKept s u pa o.payload.length ∧ MemoryOk u) ∧
      (∀ x u, resolve o.acc (BitVec.ofNat 64 o.target) o.payload.length .store t = .error (.exc x) u →
        exec (.stqTarget n) s = .next (u.recordDeferred o x)))

/-- A lane signal lands on its semaphore (R95, R159); the lane handler starts (R397); a timer compare ends a WFI (R25); and the registers
that a write from outside an instruction reaches take its value by their access codes: CSRs (R7, R12), WECTL (R244), dlsplit and
dlgroup with the core's scratch zero (R253, R254), work queues (R230, R232), the package control block (R414), DBELL and HIRQ (R427); core
reset (R32). -/
def Obligations.SignalsAndRegisterWrites : Prop :=
  ∀ (s : State),
    (∀ k g, s.readySignal k = some g → s.quantum = [] →
      let x := s.sem (k / 128) g.sem
      x.waiters = [] → x.count + g.amount ≤ 65535 → (s.wave k).lanes ≠ 0 →
      exec (.laneSignalLand [k]) s = .next ((s.setWave k { s.wave k with signals := (s.wave k).signals.filter (· != g) }).setSem
        (k / 128) g.sem { x with count := x.count + g.amount })) ∧
    (∀ h, (s.hart h).run = .parked .wfi → (s.pending h &&& (s.hart h).sie).getLsbD 5 = true →
      exec (.timerCompare h) s = .next (s.setHart h { s.hart h with run := .running })) ∧
    (∀ k off, (s.wave k).live = true → (s.wave k).lhandler = none → (s.wave k).hart.priv = .s → off.toNat % 12 = 0 →
      ∃ t, exec (.laneHandlerRun k off) s = .next t ∧ (t.wave k).hart = { (s.wave k).hart with run := .parked .laneHandler } ∧
        (t.wave k).lhandler = some {
          group := { mask := (s.wave k).lanes, pc := off.toNat % 2 ^ 48 }
          base := (s.wave k).trap.lvec.toNat
          regs := [] } ∧
        (t.wave k).p = (if (s.wave k).trap.act then (s.wave k).p.set! 7 (if (s.wave k).trap.src = 0 then (s.wave k).trap.failed else 0)
          else (s.wave k).p) ∧ t.mem = s.mem) ∧
    (∀ e v, e < 1024 → exec (.wectlWrite e v) s = .next (s.setWengine e { s.wengine e with
      roundRobin := v.getLsbD 0
      currentSince := s.clk })) ∧
    (∀ k v,
      (s.splitOk k = true → v.toNat % 32 ≤ 16 → ∃ t, exec (.dlsplitWrite (.strand k) v) s = .next t ∧
        t.core (k / 8) = { s.core (k / 8) with scr := v.toNat % 32 } ∧ (∀ h, t.hart h = s.hart h) ∧
        (∀ b, b < 0x20000 → Memory.get t.mem (sramKey (k / 8) b) = 0) ∧
        ∀ a, (a < sramKey (k / 8) 0 ∨ sramKey (k / 8) 0x20000 ≤ a) → Memory.get t.mem a = Memory.get s.mem a) ∧
      (s.splitOk k = false ∨ 16 < v.toNat % 32 → exec (.dlsplitWrite (.strand k) v) s = .next s) ∧
      (s.splitOk k = true → ∃ t, exec (.dlgroupWrite (.strand k) v) s = .next t ∧
        t.core (k / 8) = { s.core (k / 8) with dlgroup := some (v.extractLsb' 0 8 ||| BitVec.ofNat 8 (2 ^ (k / 8 % 8))) } ∧
        (∀ h, t.hart h = s.hart h) ∧ (∀ b, b < 0x20000 → Memory.get t.mem (sramKey (k / 8) b) = 0)) ∧
      (s.splitOk k = false → exec (.dlgroupWrite (.strand k) v) s = .next s)) ∧
    (∀ h a v, HartKind.isEngine h = false →
      ((csrLevel h a.toNat).isSome = true → a.toNat < 0xC00 → exec (.registerWrite (.csr h a) v) s = .next (s.writeCsr h a.toNat v)) ∧
      (∀ r, (a.toNat ≤ 3 → HartKind.isStrand h = true) → a.toNat ≠ 0x180 → Claim.csrWrite (s.hart h) a.toNat v = some r →
        exec (.registerWrite (.csr h a) v) s = .next (s.setHart h r))) ∧
    (∀ h a v, (csrLevel h a.toNat = none ∨ 0xC00 ≤ a.toNat) → exec (.registerWrite (.csr h a) v) s = .next s) ∧
    (∀ v, exec (.registerWrite (.device (devBase + 0x18)) v) s = .next { s with elHead := v.toNat % 2 ^ 32 }) ∧
    (∀ q v, q < 4096 →
      exec (.wqDoorbell q v) s = .next (s.setQueue q { s.queue q with
        tail := v.toNat % 2 ^ 32
        blocked := false }) ∧
      exec (.registerWrite (.device (devBase + 0x10000 + 64 * q + 0x10)) v) s = exec (.wqDoorbell q v) s ∧
      ((s.queue q).en = false → exec (.registerWrite (.device (devBase + 0x10000 + 64 * q)) v) s =
        .next (s.setQueue q { s.queue q with base := v.toNat / 128 % 2 ^ 41 * 128 })) ∧
      ((s.queue q).en = true → exec (.registerWrite (.device (devBase + 0x10000 + 64 * q)) v) s = .next s)) ∧
    (∀ pa v, (paKind pa ≠ .device ∨ pa % 8 ≠ 0) → exec (.registerWrite (.device pa) v) s = .next s) ∧
    (∀ k v, k < 65536 → v.toNat % 2 ^ 18 = (dstrandOf k).toNat →
      exec (.doorbell v) s = .next (s.setHart (.strand k) { s.hart (.strand k) with ssip := true })) ∧
    (∀ v, exec (.hostInterrupt v) s = .next (if 2 ≤ v.toNat % 16
      then { s with
        hirqElen := v.getLsbD 63
        msix := v.toNat % 16 :: s.msix }
      else { s with hirqElen := v.getLsbD 63 })) ∧
    (∀ core, core < 8192 → ∃ t, exec (.coreReset core) s = .next t ∧ t.mem = s.mem ∧
      (∀ i, i < 8 → Claim.AfterCoreReset (t.hart (.strand (core * 8 + i))) ∧
        (t.hart (.strand (core * 8 + i))).x = (s.hart (.strand (core * 8 + i))).x) ∧
      (t.core core).scr = 8 ∧ (t.core core).dlgroup = none ∧ (t.core core).since = s.clk)

/-! ## Launches, crews and their units (R31, R83 to R89, R119 to R125, R136, R138, R140, R230 to R243, R247, R404 to R411, R430 to R432) -/

namespace Sys2Proof.Claim

/-- From work queues to crews (R119, R230 to R241): a record becomes the current launch of its queue, or is refused with its error entry,
or a wrong TAIL stops the queue; a crew joins the admission queue of the cluster its launch's placement chooses; the head of a queue is
admitted into the units that fit; the age limit lets one class pass alone. -/
def LaunchEvents (s : State) : Prop :=
  (∀ q n addr, RecordReady s q n addr →
    (∀ l, s.launchOf q n addr (s.peek addr 128) = some l →
      (l.join = 0 → ∃ t : State, exec (.launchRecordTake q) s = .next t ∧ (t.queue q).taken = (n + 1) % 2 ^ 32 ∧
        (t.queue q).current = some s.nextLaunch ∧ t.launches.find s.nextLaunch = some l ∧ t.mem = s.mem) ∧
      (∀ old u, l.join ≠ 0 →
        vrmw (recordTaken s q n).accFrontEnd l.join 8 (fun v => some ((v + l.total) % 2 ^ 64)) (recordTaken s q n) = .ok old u →
        ∃ t : State, exec (.launchRecordTake q) s = .next t ∧ (t.queue q).current = some u.nextLaunch ∧
          t.launches.find u.nextLaunch = some l ∧ t.mem = u.mem)) ∧
    (s.launchOf q n addr (s.peek addr 128) = none →
      exec (.launchRecordTake q) s = .next ((recordTaken s q n).refuseRecord q n addr))) ∧
  (∀ q, q < 4096 → (s.queue q).en = true → (s.queue q).blocked = false → (s.queue q).current = none →
    2 ^ (s.queue q).logn < ((s.queue q).tail + 2 ^ 32 - (s.queue q).head) % 2 ^ 32 →
    exec (.launchRecordTake q) s = .next (s.setQueue q { s.queue q with
      badTail := true
      blocked := true })) ∧
  (∀ q t n l, s.chooseQueue = some (q, t) → s.queueWork q = some (n, l) →
    let r : CrewReq := { launch := n, linear := l.again.headD l.next, since := s.clk }
    ∃ u : State, exec .crewExpand s = .next u ∧
      (u.cluster (s.placeCrew l)).adm.getD l.cls [] = (s.cluster (s.placeCrew l)).adm.getD l.cls [] ++ [r] ∧
      ∃ m, u.launches.find n = some m ∧ (l.again = [] → m = { l with next := l.next + 1, alive := l.alive + 1 }) ∧
        (l.again ≠ [] → m = { l with again := l.again.drop 1 })) ∧
  (∀ c k, s.agedHead c = some k → s.blockingHead c = some k →
    exec (.admissionAgeLimit c) s = .next (s.setCluster c { s.cluster c with blocking := some k })) ∧
  (∀ c cls r l f, (∀ k, k < cls → s.admissible c k = none) → s.admissible c cls = some (r, l, f) →
    s.shapesPoisoned l = false →
    let gen := ((s.cluster c).gens.getD f.slot 0 + 1) % 256
    (r.save = none → ∃ (t : State) (store : Map Byte), exec (.crewAdmit c cls) s = .next t ∧
      (t.cluster c).crews.find f.slot = some { l.crew r.launch gen c r f with store := store } ∧
      (t.cluster c).adm.getD cls [] = ((s.cluster c).adm.getD cls []).drop 1 ∧ (t.cluster c).gens.getD f.slot 0 = gen ∧
      (∀ i, i < 256 → t.sem c (256 * f.window + i) = {}) ∧
      ∀ u ∈ (l.crew r.launch gen c r f).scrUnits ++ (l.crew r.launch gen c r f).accUnits, ∀ b, b < 16384 →
        Memory.get t.mem (poolKey (c * 8 + f.engine) (u * 16384 + b)) = 0) ∧
    (∀ area x, r.save = some area → s.saved.find area = some x →
      exec (.crewAdmit c cls) s = .next ((s.popReq c cls).restore c r l f area x)))

end Sys2Proof.Claim

namespace Sys2Proof.Claim

/-- How units start (R31, R121, R125, R140, R193, R242): the waves and strands of a crew by the front end in ascending rank, a
continuation on a free context or wave slot, lane continuations through a gather of their code and crew, 64 at most, which closes 4,096
clk after it opened and forms one wave; and what the ageing limits do (R136, R247), a granted migration block (R138). -/
def StartEvents (s : State) : Prop :=
  (∀ crew rank ref c l slot, StartDue s crew rank ref c l → l.waveRole = true → c.waveSlots[rank]? = some slot →
    let k := ref.cluster * 128 + c.engine * 16 + slot
    ∃ u : State, exec (.waveStart crew rank) s = .next (u.readBufs k) ∧
      Begun (u.wave k).hart ref (BitVec.ofNat 64 ((roleSection l.img.uniformCode l.kernel.role).va + l.kernel.entry)) 0 l.arg l.join
        (BitVec.ofNat 64 rank) ∧
      (u.wave k).live = true ∧ (u.wave k).bufDue = true ∧ (u.wave k).lanes = allLanes ∧
      (u.wave k).pri = some { mask := allLanes, pc := 0 } ∧ (u.wave k).rank = rank ∧
      (u.cluster ref.cluster).crews.find ref.slot = some { c with toStart := c.toStart - 1 }) ∧
  (∀ crew rank ref c l k, StartDue s crew rank ref c l → l.waveRole = false → c.ctxs[rank]? = some k →
    ∃ t : State, exec (.frontEndStrandStart crew rank) s = .next t ∧
      Begun (t.hart (.strand k)) ref (BitVec.ofNat 64 ((roleSection l.img.strandCode l.kernel.role).va + l.kernel.entry))
        (l.stackTop c rank) l.arg l.join (BitVec.ofNat 64 rank) ∧
      (t.hart (.strand k)).fcsr = 0 ∧ (t.hart (.strand k)).rank = rank ∧
      (t.cluster ref.cluster).crews.find ref.slot = some { c with
        toStart := c.toStart - 1
        stackUse := c.stackUse ++ [rank]
        started := c.started ++ [rank] }) ∧
  (∀ cl core ctx q c l, core < 64 → ctx < 8 → (s.hart (.strand (cl * 512 + core * 8 + ctx))).run = .idle →
    s.nextCont cl (s.runsOnContext (cl * 512 + core * 8 + ctx)) = some q → s.launches.find q.launch = some l →
    q.c.bound = true → s.crewOf q.c.ref = some c → q.gfx = none →
    let k := cl * 512 + core * 8 + ctx
    (q.c.regs = false → ∃ t : State, exec (.continuationPop cl (.context core ctx)) s = .next t ∧
      Begun (t.hart (.strand k)) q.c.ref (addr48 q.c.code) (l.stackTop c (c.ctxs.findIdx (· == k))) (addr48 q.c.frame)
        (addr48 q.c.join) (BitVec.ofNat 64 q.c.lidx) ∧
      (t.hart (.strand k)).duty = true ∧ (t.hart (.strand k)).join = addr48 q.c.join ∧ t.mem = s.mem) ∧
    (∀ bs u, q.c.regs = true → takeBlock (.strand k) q.c.ref (addr48 q.c.frame) (s.popCont cl q) = .ok bs u →
      ∃ t : State, exec (.continuationPop cl (.context core ctx)) s = .next t ∧ (t.hart (.strand k)).pc = addr48 q.c.code ∧
        (t.hart (.strand k)).x = (blockRegs bs).1 ∧ (t.hart (.strand k)).f = (blockRegs bs).2.1 ∧
        (t.hart (.strand k)).fcsr = (blockRegs bs).2.2 ∧ (t.hart (.strand k)).run = .running)) ∧
  (∀ cl e i q c l, e < 8 → i < 16 → (s.wave (cl * 128 + e * 16 + i)).live = false →
    s.nextCont cl (s.runsOnWave (cl * 128 + e * 16 + i)) = some q → s.crewOf q.c.ref = some c → s.launches.find q.launch = some l →
    q.gfx = none →
    let k := cl * 128 + e * 16 + i
    ∃ u : State, exec (.continuationPop cl (.waveSlot e i)) s = .next (u.readBufs k) ∧
      Begun (u.wave k).hart q.c.ref (addr48 q.c.code) 0 (addr48 q.c.frame) (addr48 q.c.join) (BitVec.ofNat 64 q.c.lidx) ∧
      (u.wave k).hart.duty = true ∧ (u.wave k).lanes = allLanes ∧ (u.wave k).pri = some { mask := allLanes, pc := 0 }) ∧
  (∀ cl q rest, (s.cluster cl).atomiser = q :: rest →
    let c := s.cluster cl
    let mine (g : Gather) : Bool := g.crew == q.c.ref && g.target == (addr48 q.c.code).toNat && decide (g.arrivals.length < 64)
    (∀ g a b, c.gathers = a ++ g :: b → (∀ x ∈ a, mine x = false) → mine g = true →
      exec (.atomiserArrival cl) s = .next (s.setCluster cl { c with
        atomiser := rest
        gathers := a ++ { g with
          arrivals := g.arrivals ++ [q]
          isOpen := g.isOpen && decide (g.arrivals.length + 1 < 64) } :: b })) ∧
    (c.gathers.any mine = false → c.gathers.length < 64 →
      exec (.atomiserArrival cl) s = .next (s.setCluster cl { c with
        atomiser := rest
        gathers := c.gathers ++ [{ crew := q.c.ref, target := (addr48 q.c.code).toNat, arrivals := [q], since := s.clk }] })) ∧
    (∀ g a b, c.gathers.any mine = false → 64 ≤ c.gathers.length → c.gathers = a ++ g :: b → (∀ x ∈ a, x.isOpen = false) →
      g.isOpen = true → exec (.atomiserArrival cl) s = .next (s.setCluster cl { c with
        gathers := a ++ { g with isOpen := false } :: b }))) ∧
  (∀ cl, ∃ t : State, exec (.gatherWindowExpiry cl) s = .next t ∧ t = s.setCluster cl { s.cluster cl with gathers := (t.cluster cl).gathers } ∧
    (t.cluster cl).gathers = (s.cluster cl).gathers.map fun g =>
      if g.since + 4096 ≤ s.clk then { g with isOpen := false } else g) ∧
  (∀ cl n g c l k, (s.cluster cl).gathers[n]? = some g → g.isOpen = false → s.crewOf g.crew = some c → s.launches.find c.launch = some l →
    c.preempt = false → s.freeWaveSlot c l cl = some k → (∀ q ∈ g.arrivals, q.c.regs = false ∧ q.gfx = none) →
    ∃ (u : State) (role : Nat), exec (.atomiserWaveForm cl n) s = .next (u.readBufs k) ∧ (u.wave k).live = true ∧
      (u.wave k).lanes = BitVec.ofNat 64 (2 ^ g.arrivals.length - 1) ∧ (u.wave k).uended = true ∧ (u.wave k).hart.run = .idle ∧
      (u.wave k).pri = some {
        mask := BitVec.ofNat 64 (2 ^ g.arrivals.length - 1)
        pc := g.target - (roleSection l.img.laneCode role).va } ∧
      (u.cluster cl).gathers = (s.cluster cl).gathers.eraseIdx n) ∧
  (∀ k f rest, (s.wave k).frags = f :: rest → f.since + 1024 ≤ s.clk → (s.wave k).trap.act = false → (s.wave k).lhandler = none →
    exec (.fragmentAgeLimit k) s = .next (s.setWave k { s.wave k with
      sec := some f
      frags := rest ++ ((s.wave k).sec.map fun g => { g with since := s.clk }).toList })) ∧
  (∀ e i, (s.wengine e).current = some i → (s.wengine e).roundRobin = false → (s.wengine e).currentSince + 1024 ≤ s.clk →
    exec (.gtoAgeingLimit e) s = .next (s.setWengine e { s.wengine e with switch := true })) ∧
  (∀ crew ref c w rest, s.crewAt crew = some (ref, c) → c.blockWait = w :: rest →
    w.amount + (c.blockGrant.map Waiter.amount).sum ≤ s.blockCount c - c.blocks.length →
    exec (.migrationBlockGrant crew) s = .next (s.setCrew ref.cluster ref.slot { c with
      blockWait := rest
      blockGrant := c.blockGrant ++ [w] }))

end Sys2Proof.Claim

namespace Sys2Proof.Claim

/-- How crews end and move (R124, R230, R404 to R411): a crew whose units have all ended is released, its launch counted; PREEMPT names a
crew, which is saved once its units have stopped, or killed at the deadline; a saved crew waits for admission again; a killed crew's slot
is free and its launch is expanded again or ends. -/
def CrewEvents (s : State) : Prop :=
  (∀ crew ref c, s.crewAt crew = some (ref, c) → s.unitsEnded ref c = true → s.crewQueued ref = false → c.blocks = [] →
    let o : Origin := { cluster := ref.cluster, crew := none, launch := c.launch, dcrew := c.dcrew ref.slot, dptb := s.accFrontEnd.dptb }
    let t := ((s.lapseDeferred ref fun _ => true).releaseCrew ref).endRequest ref
    SlotFree t ref ∧
    (((s.launches.find c.launch).map (·.join)).getD 0 = 0 → exec (.crewEnd crew) s = .next (t.countCrew c.launch c.linear)) ∧
    (∀ u, joinSub s.accFrontEnd o (((s.launches.find c.launch).map (·.join)).getD 0) t = .ok () u →
      exec (.crewEnd crew) s = .next (u.countCrew c.launch c.linear)) ∧
    (∀ e u, joinSub s.accFrontEnd o (((s.launches.find c.launch).map (·.join)).getD 0) t = .error (.exc e) u →
      exec (.crewEnd crew) s = .next ((u.countCrew c.launch c.linear).endLaunch c.launch e.code e.detail 255 ref.cluster))) ∧
  (∀ c v, c < 128 → MemoryOk s →
    let save := v.toNat / 256 % 2 ^ 40 * 256
    let slot := v.toNat % 8
    ((s.cluster c).preReq = true → exec (.preemptRequest c v) s = .next s) ∧
    ((s.cluster c).preReq = false → v.getLsbD 3 = false →
      exec (.preemptRequest c v) s = .next (s.setCluster c { s.cluster c with preSave := save, preSlot := slot })) ∧
    ((s.cluster c).preReq = false → v.getLsbD 3 = true →
      (∀ x, (s.cluster c).crews.find slot = some x → x.cls ≠ 0 → ∃ t : State, exec (.preemptRequest c v) s = .next t ∧
        (t.cluster c).preReq = true ∧ (t.cluster c).preClk = s.clk ∧ (t.cluster c).preSave = save ∧ (t.cluster c).preSlot = slot ∧
        (t.cluster c).crews.find slot = some { x with preempt := true } ∧ t.mem = s.mem) ∧
      (((s.cluster c).crews.find slot = none ∨ ((s.cluster c).crews.find slot).map (·.cls) = some 0) →
        ∃ t : State, exec (.preemptRequest c v) s = .next t ∧ t.peek save 4 = [3, 0, 0, 0] ∧ (t.cluster c).preReq = false))) ∧
  (∀ c, (s.cluster c).preReq = true → (s.cluster c).preClk + 420000 ≤ s.clk →
    ∃ u : State, exec (.preemptDeadline c) s = .next ((u.setCluster c { u.cluster c with preReq := false }).writeSaveState (s.cluster c).preSave 2) ∧
      u = match s.crewAt (c * 8 + (s.cluster c).preSlot) with
        | some (ref, _) => s.killCrew ref 21 0 0
        | none => s) ∧
  (∀ crew ref c l code, s.crewAt crew = some (ref, c) → s.launches.find c.launch = some l → (code = 20 ∨ code = 21) →
    SlotFree (s.scrapCrew ref c) ref ∧ exec (.crewKill crew code) s = .next (killed s ref c l code 0 0)) ∧
  (∀ crew ref c, s.crewAt crew = some (ref, c) → c.preempt = true → (s.cluster ref.cluster).preReq = true →
    (s.cluster ref.cluster).preSlot = ref.slot → s.crewStopped ref c = true →
    let area := (s.cluster ref.cluster).preSave
    ∃ t : State, exec (.crewSave crew) s = .next (t.writeSaveState area 1) ∧ t.saved.find area = some (s.snapshot ref c) ∧ SlotFree t ref ∧
      (t.cluster ref.cluster).preReq = false) ∧
  (∀ v,
    let done : State := { s with resumes := s.resumes.erase v }
    let queued := s.clusters.any fun e => e.2.adm.any fun q => q.2.any fun r => r.save == some v.toNat
    (natOfBytes (s.peek v.toNat 4) ≠ 1 ∨ s.saved.find v.toNat = none ∨ queued = true →
      exec (.resume v) s = .next (done.logError 2 0 11 255 0 v.toNat 0 0 0xFFFFFFFF)) ∧
    (∀ x l, v &&& ~~~0xFFFFFFFFFF00#64 = 0 → queued = false → natOfBytes (s.peek v.toNat 4) = 1 → s.saved.find v.toNat = some x →
      s.launches.find x.crew.launch = some l →
      let c := s.placeCrew { l with place := false }
      (s.admRoom c l.cls = true → exec (.resume v) s =
        .next (done.pushReq c l.cls { launch := x.crew.launch, linear := x.crew.linear, since := s.clk, save := some v.toNat })) ∧
      (s.admRoom c l.cls = false → s.resumes.contains v = false → exec (.resume v) s = .next { s with resumes := s.resumes ++ [v] })))

end Sys2Proof.Claim

namespace Sys2Proof.Claim

/-- What the management core does (R83 to R89, R430 to R432): a load request is refused with its reason or becomes an image with a number;
an unload takes the number back; bring-up ends in the management-only state, or with DRAM zero, PKG, LINKS and PLIMIT applied, the boot
blob in place and BOOTCTX at ENTRY in S. -/
def ManagementEvents (s : State) : Prop :=
  (s.ldBusy = true →
    let r := s.loadRequest
    let bs := s.peek (le r 8 8) (max 64 (if le (s.peek (le r 8 8) 64) 0 4 = 0x4B594C50 then le (s.peek (le r 8 8) 64) 8 8 else 0))
    (s.up = some false → le r 0 1 ≠ 1 → ∃ n k, 1 ≤ n ∧ n ≤ 16 ∧ exec .imageLoad s = .next (({ s with free := k } : State).endLoad n s.ldImage)) ∧
    (s.up ≠ some false → le r 0 1 ≠ 1 →
      (requestBad r = true → exec .imageLoad s = .next (s.endLoad 16 s.ldImage)) ∧
      (requestBad r = false → s.imageRefusal bs ≠ 0 → exec .imageLoad s = .next (s.endLoad (s.imageRefusal bs) s.ldImage)) ∧
      (requestBad r = false → s.imageRefusal bs = 0 →
        let offs := placeSections 0 (directoryOf bs)
        let size := offs.getD (directoryOf bs).length 0
        (le r 0x18 8 < size → exec .imageLoad s = .next (s.endLoad 15 s.ldImage)) ∧
        (size ≤ le r 0x18 8 → ∃ t : State, exec .imageLoad s = .next t ∧ t.ldBusy = false ∧ t.ldResult = 0 ∧ t.ldImage = s.freeImage ∧
          t.images.find s.freeImage = some (imageOf bs (le r 0x10 8) (le r 0x20 8) offs)))) ∧
    (s.up ≠ some false → le r 0 1 = 1 →
      (∀ img, s.images.find (le r 2 2) = some img → img.loaded = true → requestBad r = false →
        exec .imageUnload s = .next (({ s with images := s.images.put (le r 2 2) { img with loaded := false } } : State).endLoad 0 s.ldImage)) ∧
      (s.images.find (le r 2 2) = none ∨ requestBad r = true → exec .imageUnload s = .next (s.endLoad 16 s.ldImage)))) ∧
  (s.up = none → ∃ t : State, exec .bringUp s = .next t ∧ (t.up = some false ∨ t.up = some true) ∧
    (t.up = some true →
      let r := s.flashBytes 0 0x440
      let ctx := HartId.strand (le r 0x10 4 % 65536)
      configOk s.rootDigest r = true ∧ t.pkg = le r 6 1 ∧ t.plimit = le r 0x14 2 ∧ (t.hart ctx).run = .running ∧
        (t.hart ctx).priv = .s ∧ (t.hart ctx).pc = BitVec.ofNat 64 (le r 0x38 8) ∧
        (t.hart ctx).dptb = BitVec.ofNat 64 (le r 0x30 8 / 4096) ∧
        ∀ a, a < devBase → (a < le r 0x28 8 ∨ le r 0x28 8 + le r 0x20 8 ≤ a) → Memory.get t.mem a = 0))

end Sys2Proof.Claim

/-- Launches, crews, their units and images as the machine takes them from record to end; each event in its state of being due. -/
def Obligations.LaunchesCrewsAndUnits : Prop :=
  ∀ (s : State), Claim.LaunchEvents s ∧ Claim.StartEvents s ∧ Claim.CrewEvents s ∧ Claim.ManagementEvents s

/-! ## Units that work on their own: special functions, matrix engine, copy channels, Sillage, Bloom, graphics (R319 to R329, R331 to
R371, R372 to R386) -/

namespace Sys2Proof.Claim

/-- Results of the special-function queue, commands of the matrix engine from their start to their end, the latch of MMA.G, writes of
dmgang and dmring, and the kill of a crew for an operand fault (R328, R334 to R350). -/
def FunctionAndMatrixEvents (s : State) : Prop :=
  (∀ k tok op, (s.wave k).sfx.find tok = some op → (s.wave k).lanes ≠ 0 → (s.wave k).lhandler = none →
    ∃ t : State, exec (.sfxResult k tok) s = .next t ∧ t = s.setWave k (t.wave k) ∧ (t.wave k).sfx = (s.wave k).sfx.del tok ∧
      (∀ l, l < 64 → Mask.has (op.mask &&& (s.wave k).lanes) l = true →
        (t.wave k).reg op.vd l = (sfxLane op l).val.setWidth 32) ∧
      (∀ r l, l < 64 → (r ≠ op.vd ∨ Mask.has (op.mask &&& (s.wave k).lanes) l = false) → (t.wave k).reg r l = (s.wave k).reg r l)) ∧
  (∀ c n x, s.cmd c n = some x →
    let m := (s.cluster c).matrix
    (m.mldFree x = true → (x.cls = 0 ∨ m.cmds.all (fun y => !(y.cls == 0 && m.mldFree y)) = true) →
      exec (.mldStart c n) s = .next (s.setCmd c n fun x => { x with started := true })) ∧
    (m.mldFree x = false → exec (.mldStart c n) s = .next s) ∧
    (∀ form src ns dptb, x.op = .mld form src ns dptb → x.started = true → x.fault = none →
      let acc := matAcc x.crew dptb
      let size := formCols form * formCb form
      (∀ bs ws u v, readTile acc src.toNat size 200 s = .ok bs u →
        (if ns then v = u ∧ ws = (List.range (4 * formCols form)).flatMap (fun _ => leBytes 4 0x7F7F)
         else readTile acc (src.toNat + size) (16 * formCols form) 200 u = .ok ws v) →
        ∃ t : State, exec (.mldComplete c n) s = .next t ∧
          (let mac := x.macs.headD 0
           let b := (v.cluster c).matrix.idleBank mac
           t.mem = Memory.write (Memory.write v.mem (bankKey c mac b 0) bs) (bankKey c mac b 0x8000) ws)) ∧
      (∀ e u, readTile acc src.toNat size 200 s = .error (.exc e) u →
        exec (.mldComplete c n) s = .next (u.setCmd c x.n fun x => { x with fault := some (e.code, e.tval) })))) ∧
  (∀ crew r c as', s.crewAt crew = some (r, c) → (s.matCrew r.cluster r.slot).heads = as'.map some → as' ≠ [] →
    (∀ a ∈ as', (s.wave a.wave).accesses = []) → s.quantum = [] →
    let m := s.matCrew r.cluster r.slot
    let check := latchCheck m (c.accRows (s.kernelOf c).waves) as'
    let fmt := gangFormat as'
    let q := (s.cluster r.cluster).matrix
    (∀ e, check = some e → exec (.mmaLatch crew) s = .next (s.settleMma r as' (some e) none)) ∧
    (check = none → (∀ a ∈ as', a.act = 0) → exec (.mmaLatch crew) s = .next (s.settleMma r as' none none)) ∧
    (check = none → (∃ a ∈ as', a.act ≠ 0) → (q.freeEntry c.cls = none → exec (.mmaLatch crew) s = .next s) ∧
      ∀ entry, q.freeEntry c.cls = some entry → exec (.mmaLatch crew) s =
        .next ((s.queueCmd r.cluster entry r c.cls ((Mma.macros fmt).map (Gang.mbase m.gang + ·))
          (.mma fmt (as'.map fun a => (a.rank, a.place.toNat)))).settleMma r as' none (some q.next)))) ∧
  (∀ c x fmt members crew, (s.cluster c).matrix.nextMma = some x → x.op = .mma fmt members →
    s.crewOf x.crew = some crew →
    let ring := (s.matCrew c x.crew.slot).ring (Mma.ring fmt)
    let waits := Mma.swap fmt && (s.cluster c).matrix.cmds.any fun y => y.op.isMld && decide (y.n < x.n) && y.meets x
    (ring.filled = ring.consumed ∨ waits = true → exec (.mmaStart c) s = .next s) ∧
    (ring.filled ≠ ring.consumed → waits = false → exec (.mmaStart c) s = .next (mmaRun s x crew fmt members) ∧
      (mmaRun s x crew fmt members).mem = s.mem)) ∧
  (∀ c x, ((s.cluster c).matrix.cmds.find? fun x => !x.op.isMld && x.started && x.fault.isNone) = some x →
    ∃ t : State, exec (.mmaComplete c) s = .next t ∧ t.mem = outsWritten x.outs s.mem ∧
      t.matCrew c x.crew.slot = { s.matCrew c x.crew.slot with
        flags := (s.matCrew c x.crew.slot).flags ||| BitVec.ofNat 5 (outFlags x.outs) } ∧
      (t.cluster c).matrix.cmds = (s.cluster c).matrix.cmds.filter fun y => y.n != x.n) ∧
  (∀ cl crew code addr x c l, ((s.cluster cl).matrix.cmds.find? fun x => x.crew.slot == crew % 8 && x.fault == some (code, addr)) = some x →
    s.crewOf x.crew = some c → s.launches.find c.launch = some l →
    exec (.matrixKilled cl crew code addr) s = .next (killed s x.crew c l 20 code addr.toNat)) ∧
  (∀ c r x, s.sequencer c = true → (s.engine (c * 7 + 4)).crew = some r → s.crewOf r = some x → s.matBusy r = false →
    let k := c * 7 + 4
    (∀ v, (v.getLsbD 63 = true → Gang.ok v (s.kernelOf x).waves = true ∧ s.windowTaken r.cluster r.slot v = false) →
      exec (.dmgangWrite c v) s = .next (s.setMatCrew c (s.matSlot k) { s.matCrew c (s.matSlot k) with gang := v &&& Gang.mask })) ∧
    (∀ v, v.getLsbD 63 = true → Gang.ok v (s.kernelOf x).waves = false →
      exec (.dmgangWrite c v) s = .next (s.endKick k 2 0 0)) ∧
    (∀ ring v, ring < 4 → (v.getLsbD 63 = true → ({ desc := v } : Ring).size ≠ 0 ∧
        ({ desc := v } : Ring).base + ({ desc := v } : Ring).stages * ({ desc := v } : Ring).size ≤ x.scr * 16384) →
      exec (.dmringWrite c ring v) s = .next (s.setMatCrew c (s.matSlot k) { s.matCrew c (s.matSlot k) with
        rings := (s.matCrew c (s.matSlot k)).rings.set! ring { desc := v &&& Ring.mask } })))

end Sys2Proof.Claim

namespace Sys2Proof.Claim

/-- A kick starts on an idle engine, or ends with its cause; a copy channel opens a descriptor or refuses it, moves elements, counts the
destination lines that P passes, ends the operation, or ends its kick with a cause (R319 to R325). -/
def KickAndCopyEvents (s : State) : Prop :=
  (∀ k kick rest e sec entry, KickReady s k kick rest e sec entry →
    ∃ t : State, exec (.engineKickStart k) s = .next t ∧ t.mem = s.mem ∧ (t.engine k).running = some kick ∧ (t.engine k).queue = rest ∧
      (let r := (t.engine k).hart
       r.pc = BitVec.ofNat 64 (sec.va + entry) ∧ r.rx 10 = kick.arg ∧ r.rx 11 = kick.word ∧ r.rx 12 = kick.ident ∧ r.priv = .u ∧
         r.run = .running ∧ r.crew = kick.crew ∧ ∀ j : Reg, j ≠ 10 → j ≠ 11 → j ≠ 12 → r.rx j = 0)) ∧
  (∀ k kick rest e u, (s.engine k).running = none → (s.engine k).queue = kick :: rest →
    kickEntry k kick (kickTaken s k kick rest) = .error (.exc e) u →
    exec (.engineKickStart k) s = .next (u.endKick k e.code e.detail e.tval)) ∧
  (∀ k i op f, ChannelRuns s k → (i, op, f) ∈ copySteps k →
    let acc := s.copyAcc k
    (∀ at' rest b u0 bs u, (s.engine k).copy = none → (s.engine k).ops = at' :: rest → vread acc at' 1 s = .ok b u0 →
      natOfBytes b = op → vread acc at' 64 s = .ok bs u →
      (({ desc := bs } : CopyJob).refused = false → exec i s = .next (withCopy u k { desc := bs })) ∧
      (({ desc := bs } : CopyJob).refused = true → exec i s = .next (u.endKick k 2 0 at'))) ∧
    (∀ j, (s.engine k).copy = some j → j.op = op →
      (∀ t, (op = 2 ∨ j.lineP ≤ j.acct) → j.moved < j.total → f k j s = .ok () t → exec i s = .next t) ∧
      (∀ e t, (op = 2 ∨ j.lineP ≤ j.acct) → j.moved < j.total → f k j s = .error (.exc e) t →
        exec i s = .next (t.endKick k e.code e.detail e.tval)) ∧
      (j.wpaddr = 0 → op ≠ 2 → j.acct < j.lineP → exec i s = .next (s.setEngine k { s.engine k with
        dxwp := (s.engine k).dxwp + BitVec.ofNat 64 (j.lineP - j.acct)
        copy := some { j with acct := j.lineP } })) ∧
      (j.wpaddr = 0 → (op = 2 ∨ j.lineP ≤ j.acct) → j.total ≤ j.moved → exec i s = .next (s.setEngine k { s.engine k with
        dxwp := (s.engine k).dxwp + BitVec.ofNat 64 (j.bytes - j.acct)
        copy := none
        ops := (s.engine k).ops.drop 1 })))) ∧
  (∀ k j bs u v, let acc := s.copyAcc k
    (∀ n, n = (if (j.src + BitVec.ofNat 64 j.moved).toNat % j.size = 0 ∧ (j.dst + BitVec.ofNat 64 j.moved).toNat % j.size = 0 ∧
        j.moved + j.size ≤ j.len then j.size else 1) →
      vread acc (j.src + BitVec.ofNat 64 j.moved) n s = .ok bs u → vwrite acc (j.dst + BitVec.ofNat 64 j.moved) bs u = .ok () v →
      moveStep k j s = .ok () (withCopy v k { j with moved := j.moved + n })) ∧
    (∀ is w, vread acc (eltVa j.idx j.moved 4) 4 s = .ok is w →
      (vread acc (eltVa j.src (natOfBytes is) j.size) j.size w = .ok bs u → vwrite acc (eltVa j.dst j.moved j.size) bs u = .ok () v →
        gatherStep k j s = .ok () (withCopy v k { j with moved := j.moved + 1 })) ∧
      (j.dst.toNat % 2 ^ 48 + natOfBytes is * j.size + j.size ≤ 2 ^ 48 → vread acc (eltVa j.src j.moved j.size) j.size w = .ok bs u →
        vwrite acc (eltVa j.dst (natOfBytes is) j.size) bs u = .ok () v →
        scatterStep k j s = .ok () (withCopy v k { j with moved := j.moved + 1 }))))

end Sys2Proof.Claim

namespace Sys2Proof.Claim

/-- Sillage installs a program or refuses it and works off the tiles of a request (R353 to R361); Bloom installs a bank, frees it, takes
an event into a bank and sends a firing's list (R365 to R368, R370). -/
def SillageAndBloomEvents (s : State) : Prop :=
  (∀ c addr, let k := c * 7 + 5
    (s.engine k).running.isSome = true →
      (∀ head u ws v, addr.toNat % 8 = 0 → vread (s.accOf (.engine k)) addr 8 s = .ok head u → 1 ≤ (head.headD 0).toNat →
        (head.headD 0).toNat ≤ 32 → (head.drop 1).all (· == 0) = true →
        vread (s.accOf (.engine k)) (addr + 8) (4 * (head.headD 0).toNat) u = .ok ws v →
        let p := wordsOf ws (head.headD 0).toNat
        (Mask.check [] 1 p = none → exec (.sillageInstall c addr) s = .next (v.setProg k p true)) ∧
        (∀ i r, Mask.check [] 1 p = some (i, r) → exec (.sillageInstall c addr) s =
          .next ((v.setProg k [] false).endKick k 16 (16 * i + r) (addr + BitVec.ofNat 64 (4 + 4 * i))))) ∧
      (addr.toNat % 8 ≠ 0 → exec (.sillageInstall c addr) s = .next (s.endKick k 4 0 addr)) ∧
      (∀ t, silAll k addr 4200 s = .ok () t → exec (.sillageTileRequest c addr) s = .next t) ∧
      (∀ e t, silAll k addr 4200 s = .error (.exc e) t →
        exec (.sillageTileRequest c addr) s = .next (t.endKick k e.code e.detail e.tval))) ∧
  (∀ c addr v, let k := c * 7 + 6
    (s.engine k).running.isSome = true →
      (∀ t, bloomInstall k addr s = .ok () t → exec (.bloomInstall c addr) s = .next t) ∧
      (∀ e t, bloomInstall k addr s = .error (.exc e) t → exec (.bloomInstall c addr) s = .next (t.endKick k e.code e.detail e.tval)) ∧
      (∀ x, s.bank c (v.toNat % 16) = some x → some x.crew = (s.engine k).crew → exec (.bloomUninstall c v) s =
        .next (s.setCluster c { s.cluster c with bloom := (s.cluster c).bloom.del (v.toNat % 16) })) ∧
      (s.bank c (v.toNat % 16) = none → exec (.bloomUninstall c v) s = .next s)) ∧
  (∀ n e, s.events.find? (fun f => f.n == n) = some e →
    (∀ f ∈ s.events, f.n < n → ¬ (f.unit = e.unit ∧ f.cluster = e.cluster ∧ Event.bank f.word = Event.bank e.word)) →
    let c := e.cluster
    let t : State := { s with events := s.events.filter fun f => f.n != n }
    let lost := Event.reserved e.word || (unpack .bf16 (Event.w e.word)).isNan
    (s.bank c (Event.bank e.word) = none ∨ lost = true → exec (.bloomEventArrival n) s =
      .next (t.setCluster c { t.cluster c with bloomDrop := (s.cluster c).bloomDrop + 1 })) ∧
    (∀ x, s.bank c (Event.bank e.word) = some x → lost = false →
      (∀ u, acceptEvent c (Event.bank e.word) x e.word t = .ok () u → exec (.bloomEventArrival n) s = .next u) ∧
      (x.plain = true → Event.nidx e.word < x.ncount →
        let key := neuronKey s c x x.vrow (Event.nidx e.word)
        s.runningOut c key = none → ∃ u : State, exec (.bloomEventArrival n) s = .next u ∧ u.events = t.events ∧
          u.mem = Memory.write s.mem key (leBytes 4 (addF32 (BitVec.ofNat 32 (natOfBytes (s.peek key 4)))
            (BitVec.ofNat 32 (Event.w e.word * 65536))).toNat)))) ∧
  (∀ k j rest, (s.engine k).jobs = j :: rest →
    let acc : Acc := { bloomAcc (k / 7) j.crew j.dptb with tlb := .engine k, who := .engine k }
    let t : State := s.setEngine k { s.engine k with jobs := rest }
    ((s.engine k).ops ≠ [] → exec (.bloomFanoutJob k) s = .next s) ∧
    ((s.engine k).ops = [] →
      (∀ u, fanOut k acc j.ts j.list j.count t = .ok () u → exec (.bloomFanoutJob k) s = .next u) ∧
      (∀ e u, fanOut k acc j.ts j.list j.count t = .error (.exc e) u → exec (.bloomFanoutJob k) s =
        .next (u.logError e.code e.detail 8 78 (k / 7) e.tval.toNat 0 0 (u.crewIx (some j.crew))))))

end Sys2Proof.Claim

namespace Sys2Proof.Claim

/-- The rasteriser takes a mesh and emits its blocks, the blender applies a block's head ticket, passes a skipped one and waits for one
that is not committed, the traversal unit takes a ray; what a record's work cannot reach is dropped (R374, R381 to R385). -/
def GraphicsEvents (s : State) : Prop :=
  (∀ c, ((s.cluster c).raster.isSome = true → exec (.rasterMesh c) s = .next s) ∧
    (∀ r v, (s.cluster c).raster = none → pickHead s (s.cluster c).rasterQ = some (r, v) →
      let t := v.setCluster c { v.cluster c with rasterQ := (s.cluster c).rasterQ.erase r }
      (t.gfxRec r = none → exec (.rasterMesh c) s = .next t) ∧
      (∀ x u, t.gfxRec r = some x → takeMesh r { x with cluster := c } t = .ok () u → exec (.rasterMesh c) s = .next u)) ∧
    (∀ job x b rest u, (s.cluster c).raster = some job → job.work = b :: rest → s.gfxRec job.mesh = some x →
      emitBlock job { x with cluster := c } b rest s = .ok () u → exec (.rasterBlockEmit c) s = .next u) ∧
    (∀ r v, pickHead s (s.cluster c).traverseQ = some (r, v) →
      let t := v.setCluster c { v.cluster c with traverseQ := (s.cluster c).traverseQ.erase r }
      (t.gfxRec r = none → exec (.traverseRay c) s = .next t) ∧
      (∀ x u, t.gfxRec r = some x → traverse r { x with cluster := c } t = .ok () u → exec (.traverseRay c) s = .next u))) ∧
  (∀ node block slot rest x, (s.node node).tickets.getD block [] = slot :: rest → (s.node node).recs.find slot = some x →
    let t := s.setNode node { s.node node with tickets := (s.node node).tickets.put block rest }
    let r : GfxRef := { node := node, slot := slot, id := x.id }
    (x.st = .queued → ∀ u, applyTicket r x t = .ok () u → exec (.blendTicket node block) s = .next u) ∧
    (x.st = .skipped → ∀ u, freeRec r t = .ok () u → exec (.blendTicket node block) s = .next u) ∧
    (x.st ≠ .queued → x.st ≠ .skipped → exec (.blendTicket node block) s = .next s))

end Sys2Proof.Claim

/-- The units that work on their own, each event in its state of being due. -/
def Obligations.UnitsWorkOnTheirOwn : Prop :=
  ∀ (s : State), Claim.FunctionAndMatrixEvents s ∧ Claim.KickAndCopyEvents s ∧ Claim.SillageAndBloomEvents s ∧ Claim.GraphicsEvents s

/-! ## The whole machine -/

/-- Decoding and encoding agree (R10, R64 to R69, R144 to R165): the bytes of a well-formed instruction, 4 of a scalar one and 12 of a
lane one, decode to it with every operand, whatever follows them; an event has no bytes. -/
def Obligations.EncodedInstructionsDecodeBack : Prop :=
  ∀ i : Instr, wf i = true →
    if Claim.isEvent i then encode i = none
    else ∃ bs, encode i = some bs ∧ bs.length = (if (encodeScalar i).isSome then 4 else 12) ∧
      ∀ rest, decodeBytes (encodeScalar i).isNone (bs ++ rest) = some (i, rest)

/-- Every step of the machine keeps memory in its canonical form: keys strictly rising and no byte listed that an unlisted key would
read as (log 3). -/
def Obligations.EveryStepKeepsMemoryCanonical : Prop :=
  ∀ s t : State, MemoryOk s → step s = .next t → MemoryOk t
end

