-- ==== Sys2Proof/Laws/Monad.lean ====
section
/-! SUPPORT. Meanings as functions of a state: what each building block answers, for symbolic execution by simp. -/

namespace Sys2Proof.Machine

variable {α β : Type}

@[simp] theorem bind_run (m : M α) (f : α → M β) (s : State) :
    (m >>= f) s = match m s with
      | .ok a t => f a t
      | .error e t => .error e t := by
  simp only [bind, EStateM.bind]
  cases m s <;> rfl

@[simp] theorem map_run (f : α → β) (m : M α) (s : State) :
    (f <$> m) s = match m s with
      | .ok a t => .ok (f a) t
      | .error e t => .error e t := by
  simp only [Functor.map, EStateM.map]
  cases m s <;> rfl

@[simp] theorem pure_run (a : α) (s : State) : (pure a : M α) s = .ok a s := rfl
@[simp] theorem get_run (s : State) : (get : M State) s = .ok s s := rfl
@[simp] theorem set_run (t s : State) : (set t : M PUnit) s = .ok ⟨⟩ t := rfl
@[simp] theorem modify_run (f : State → State) (s : State) : (modify f : M PUnit) s = .ok ⟨⟩ (f s) := rfl
@[simp] theorem throw_run (e : Stop) (s : State) : (throw e : M α) s = .error e s := rfl
@[simp] theorem fail_run (e : Exc) (s : State) : (fail e : M α) s = .error (.exc e) s := rfl
@[simp] theorem failLane_run (code detail : Nat) (tval : Dword) (m : Mask) (s : State) :
    (failLane code detail tval m : M α) s = .error (.lane code detail tval m) s := rfl
@[simp] theorem parkFor_run (p : Park) (s : State) : (parkFor p : M α) s = .error (.park p) s := rfl
@[simp] theorem getHart_run (h : HartId) (s : State) : getHart h s = .ok (s.hart h) s := rfl
@[simp] theorem setHart_run (h : HartId) (v : Hart) (s : State) : setHart h v s = .ok ⟨⟩ (s.setHart h v) := rfl
@[simp] theorem modHart_run (h : HartId) (f : Hart → Hart) (s : State) :
    modHart h f s = .ok ⟨⟩ (s.setHart h (f (s.hart h))) := rfl
@[simp] theorem ite_run (c : Prop) [Decidable c] (a b : M α) (s : State) : (if c then a else b) s = if c then a s else b s := by
  split <;> rfl

theorem guardM_run (ok : Bool) (e : Exc) (s : State) :
    guardM ok e s = if ok then .ok () s else .error (.exc e) s := by
  simp only [guardM]; split <;> rfl

@[simp] theorem guardM_true (e : Exc) (s : State) : guardM true e s = .ok () s := rfl
@[simp] theorem guardM_false (e : Exc) (s : State) : guardM false e s = .error (.exc e) s := rfl

@[simp] theorem freeDwordM_run (s : State) : freeDwordM s = .ok s.drawDword.1 s.drawDword.2 := rfl
@[simp] theorem freeNatM_run (n : Nat) (s : State) : freeNatM n s = .ok (s.drawNat n).1 (s.drawNat n).2 := rfl

end Sys2Proof.Machine
end

