-- ==== Sys2Proof/Laws/Map.lean ====
section
/-! SUPPORT. Sparse maps: what a lookup gives after a put or a deletion, and that both keep the keys ascending. -/

namespace Sys2Proof.Map

variable {α : Type}

@[simp] theorem find_nil (k : Nat) : Map.find ([] : Map α) k = none := rfl

theorem find_put_self (m : Map α) (k : Nat) (v : α) : Map.find (Map.put m k v) k = some v := by
  induction m with
  | nil => simp [put, find]
  | cons e t ih =>
    simp only [put]
    split
    · simp [find]
    · split
      · simp [find]
      · rename_i h
        simp [find, ih, Ne.symm h]

theorem find_put_ne (m : Map α) {j k : Nat} (v : α) (h : j ≠ k) : Map.find (Map.put m k v) j = Map.find m j := by
  induction m with
  | nil => simp [put, find, Ne.symm h]
  | cons e t ih =>
    simp only [put]
    split
    · simp [find, Ne.symm h]
    · split
      · rename_i h'
        simp [find, ← h', Ne.symm h]
      · simp [find, ih]

@[simp] theorem getD_put_self (m : Map α) (k : Nat) (v d : α) : Map.getD (Map.put m k v) k d = v := by
  simp [getD, find_put_self]

theorem getD_put_ne (m : Map α) {j k : Nat} (v d : α) (h : j ≠ k) : Map.getD (Map.put m k v) j d = Map.getD m j d := by
  simp [getD, find_put_ne m v h]

/-- The second of two writes of a key stands. -/
@[simp] theorem put_put (m : Map α) (k : Nat) (v w : α) : Map.put (Map.put m k v) k w = Map.put m k w := by
  induction m with
  | nil => simp [put]
  | cons e t ih =>
    simp only [put]
    split
    · simp [put]
    · split
      · simp [put]
      · rename_i h1 h2
        simp [put, h1, h2, ih]

theorem find_del_self (m : Map α) (k : Nat) : Map.find (Map.del m k) k = none := by
  induction m with
  | nil => rfl
  | cons e t ih =>
    simp only [del]
    split
    · exact ih
    · rename_i h
      simp [find, h, ih]

theorem find_del_ne (m : Map α) {j k : Nat} (h : j ≠ k) : Map.find (Map.del m k) j = Map.find m j := by
  induction m with
  | nil => rfl
  | cons e t ih =>
    simp only [del]
    split
    · rename_i h'
      simp [find, ih, h', Ne.symm h]
    · simp [find, ih]

/-- Every key of the map is above `k`. -/
def above (m : Map α) (k : Nat) : Bool :=
  match m with
  | [] => true
  | (j, _) :: _ => decide (k < j)

theorem sorted_cons (j : Nat) (w : α) (t : Map α) : Map.sorted ((j, w) :: t) = (above t j && Map.sorted t) := by
  cases t with
  | nil => rfl
  | cons e t => rfl

theorem above_put (m : Map α) {i k : Nat} (v : α) (h : above m i = true) (hk : i < k) : above (Map.put m k v) i = true := by
  cases m with
  | nil => simp [put, above, hk]
  | cons e t =>
    simp only [above, decide_eq_true_eq] at h
    simp only [put]
    split
    · simp [above, hk]
    · split <;> simp [above, h, hk]

theorem sorted_put (m : Map α) (k : Nat) (v : α) (h : Map.sorted m = true) : Map.sorted (Map.put m k v) = true := by
  induction m with
  | nil => rfl
  | cons e t ih =>
    obtain ⟨j, w⟩ := e
    rw [sorted_cons, Bool.and_eq_true] at h
    simp only [put]
    split
    · rename_i hlt
      rw [sorted_cons, sorted_cons, Bool.and_eq_true, Bool.and_eq_true]
      exact ⟨by simp [above, hlt], h⟩
    · split
      · rename_i heq
        subst heq
        rw [sorted_cons, Bool.and_eq_true]
        exact h
      · rw [sorted_cons, Bool.and_eq_true]
        exact ⟨above_put t v h.1 (by omega), ih h.2⟩

theorem above_trans (m : Map α) {i j : Nat} (h : above m j = true) (hij : i ≤ j) : above m i = true := by
  cases m with
  | nil => rfl
  | cons e t =>
    simp only [above, decide_eq_true_eq] at h ⊢
    omega

theorem above_del (m : Map α) {i : Nat} (k : Nat) (h : above m i = true) (hs : Map.sorted m = true) :
    above (Map.del m k) i = true := by
  induction m generalizing i with
  | nil => rfl
  | cons e t ih =>
    obtain ⟨j, w⟩ := e
    rw [sorted_cons, Bool.and_eq_true] at hs
    simp only [del]
    split
    · simp only [above, decide_eq_true_eq] at h
      exact ih (above_trans t hs.1 (by omega)) hs.2
    · simpa [above] using h

theorem sorted_del (m : Map α) (k : Nat) (h : Map.sorted m = true) : Map.sorted (Map.del m k) = true := by
  induction m with
  | nil => rfl
  | cons e t ih =>
    obtain ⟨j, w⟩ := e
    rw [sorted_cons, Bool.and_eq_true] at h
    simp only [del]
    split
    · exact ih h.2
    · rw [sorted_cons, Bool.and_eq_true]
      exact ⟨above_del t k h.1 h.2, ih h.2⟩

end Sys2Proof.Map
end

