-- ==== Sys2Proof/Laws/Memory.lean ====
section
/-! SUPPORT. Memory: a read after a write, the bytes a write leaves alone, and that every operation keeps the canonical
form. -/

namespace Sys2Proof.Machine.Memory

/-! ## Reads after writes -/

theorem get_of_above (m : List Host.Cell) (a : Nat) (h : above m a = true) (hw : wf m = true) : get m a = 0 := by
  induction m with
  | nil => rfl
  | cons c t ih =>
    obtain ⟨k, b⟩ := c
    simp only [above, decide_eq_true_eq] at h
    simp only [wf, Bool.and_eq_true] at hw
    have ht : above t a = true := by
      cases t with
      | nil => rfl
      | cons c t =>
        simp only [above, decide_eq_true_eq] at hw ⊢
        omega
    simp [get, ih ht hw.2, Nat.ne_of_gt h]

theorem get_ins_self (m : List Host.Cell) (a : Nat) (v : Byte) : get (ins m a v) a = v := by
  induction m with
  | nil => simp [ins, get]
  | cons c t ih =>
    simp only [ins]
    split
    · simp [get]
    · split
      · simp [get]
      · rename_i h
        simp [get, ih, h]

theorem get_ins_ne (m : List Host.Cell) {a b : Nat} (v : Byte) (h : b ≠ a) : get (ins m a v) b = get m b := by
  induction m with
  | nil => simp [ins, get, Ne.symm h]
  | cons c t ih =>
    simp only [ins]
    split
    · simp [get, Ne.symm h]
    · split
      · rename_i h'
        simp [get, h', Ne.symm h]
      · simp [get, ih]

theorem get_drop_self (m : List Host.Cell) (a : Nat) (hw : wf m = true) : get (drop m a) a = 0 := by
  induction m with
  | nil => rfl
  | cons c t ih =>
    obtain ⟨k, b⟩ := c
    have hw' := hw
    simp only [wf, Bool.and_eq_true] at hw
    simp only [drop]
    split
    · rename_i h
      exact get_of_above t a (h ▸ hw.1.2) hw.2
    · split
      · rename_i h
        exact get_of_above _ a (by simp [above, h]) hw'
      · rename_i h _
        simp [get, ih hw.2, h]

theorem get_drop_ne (m : List Host.Cell) {a b : Nat} (h : b ≠ a) : get (drop m a) b = get m b := by
  induction m with
  | nil => rfl
  | cons c t ih =>
    simp only [drop]
    split
    · rename_i h'
      simp [get, h', Ne.symm h]
    · split
      · rfl
      · simp [get, ih]

theorem get_set_self (m : List Host.Cell) (a : Nat) (v : Byte) (hw : wf m = true) : get (set m a v) a = v := by
  simp only [set]
  split
  · rename_i h
    rw [get_drop_self m a hw, h]
  · exact get_ins_self m a v

theorem get_set_ne (m : List Host.Cell) {a b : Nat} (v : Byte) (h : b ≠ a) : get (set m a v) b = get m b := by
  simp only [set]
  split
  · exact get_drop_ne m h
  · exact get_ins_ne m v h

/-! ## The canonical form -/

theorem above_ins (m : List Host.Cell) {i a : Nat} (v : Byte) (h : above m i = true) (ha : i < a) :
    above (ins m a v) i = true := by
  cases m with
  | nil => simp [ins, above, ha]
  | cons c t =>
    simp only [above, decide_eq_true_eq] at h
    simp only [ins]
    split
    · simp [above, ha]
    · split <;> simp [above, h, ha]

theorem wf_ins (m : List Host.Cell) (a : Nat) (v : Byte) (hv : v ≠ 0) (hw : wf m = true) : wf (ins m a v) = true := by
  induction m with
  | nil => simpa [ins, wf, above] using hv
  | cons c t ih =>
    obtain ⟨k, b⟩ := c
    have hw' := hw
    simp only [wf, Bool.and_eq_true] at hw
    simp only [ins]
    split
    · rename_i h
      simp only [wf, Bool.and_eq_true]
      exact ⟨⟨by simpa using hv, by simp [above, h]⟩, hw⟩
    · split
      · rename_i h
        subst h
        simp only [wf, Bool.and_eq_true]
        exact ⟨⟨by simpa using hv, hw.1.2⟩, hw.2⟩
      · simp only [wf, Bool.and_eq_true]
        exact ⟨⟨hw.1.1, above_ins t v hw.1.2 (by omega)⟩, ih hw.2⟩

theorem above_of_le (m : List Host.Cell) {i j : Nat} (h : above m j = true) (hij : i ≤ j) : above m i = true := by
  cases m with
  | nil => rfl
  | cons c t =>
    simp only [above, decide_eq_true_eq] at h ⊢
    omega

theorem above_drop (m : List Host.Cell) {i : Nat} (a : Nat) (h : above m i = true) (hw : wf m = true) :
    above (drop m a) i = true := by
  cases m with
  | nil => rfl
  | cons c t =>
    obtain ⟨k, b⟩ := c
    simp only [wf, Bool.and_eq_true] at hw
    have hk : i < k := by simpa [above] using h
    simp only [drop]
    split
    · exact above_of_le t hw.1.2 (by omega)
    · split <;> simp [above, hk]

theorem wf_drop (m : List Host.Cell) (a : Nat) (hw : wf m = true) : wf (drop m a) = true := by
  induction m with
  | nil => rfl
  | cons c t ih =>
    obtain ⟨k, b⟩ := c
    have hw' := hw
    simp only [wf, Bool.and_eq_true] at hw
    simp only [drop]
    split
    · exact hw.2
    · split
      · exact hw'
      · simp only [wf, Bool.and_eq_true]
        exact ⟨⟨hw.1.1, above_drop t a hw.1.2 hw.2⟩, ih hw.2⟩

theorem wf_set (m : List Host.Cell) (a : Nat) (v : Byte) (hw : wf m = true) : wf (set m a v) = true := by
  simp only [set]
  split
  · exact wf_drop m a hw
  · rename_i h
    exact wf_ins m a v h hw

theorem wf_write (m : List Host.Cell) (a : Nat) (l : List Byte) (hw : wf m = true) : wf (write m a l) = true := by
  induction l generalizing m a with
  | nil => exact hw
  | cons b t ih => exact ih _ _ (wf_set m a b hw)

theorem above_filter (m : List Host.Cell) {i : Nat} (p : Host.Cell → Bool) (h : above m i = true) (hw : wf m = true) :
    above (m.filter p) i = true := by
  induction m generalizing i with
  | nil => rfl
  | cons c t ih =>
    obtain ⟨k, b⟩ := c
    simp only [wf, Bool.and_eq_true] at hw
    have hk : i < k := by simpa [above] using h
    simp only [List.filter_cons]
    split
    · simp [above, hk]
    · exact ih (above_of_le t hw.1.2 (by omega)) hw.2

theorem wf_filter (m : List Host.Cell) (p : Host.Cell → Bool) (hw : wf m = true) : wf (m.filter p) = true := by
  induction m with
  | nil => rfl
  | cons c t ih =>
    obtain ⟨k, b⟩ := c
    simp only [wf, Bool.and_eq_true] at hw
    simp only [List.filter_cons]
    split
    · simp only [wf, Bool.and_eq_true]
      exact ⟨⟨hw.1.1, above_filter t p hw.1.2 hw.2⟩, ih hw.2⟩
    · exact ih hw.2

theorem wf_clear (m : List Host.Cell) (lo hi : Nat) (hw : wf m = true) : wf (clear m lo hi) = true := wf_filter m _ hw

/-! ## Runs of bytes -/

theorem get_write_of_lt (m : List Host.Cell) {a b : Nat} (l : List Byte) (h : b < a) : get (write m a l) b = get m b := by
  induction l generalizing m a with
  | nil => rfl
  | cons x t ih => rw [write, ih _ (by omega), get_set_ne m x (by omega)]

theorem get_write_of_ge (m : List Host.Cell) {a b : Nat} (l : List Byte) (h : a + l.length ≤ b) :
    get (write m a l) b = get m b := by
  induction l generalizing m a with
  | nil => rfl
  | cons x t ih =>
    simp only [List.length_cons] at h
    rw [write, ih _ (by omega), get_set_ne m x (by omega)]

/-- The bytes written are read back. -/
theorem get_write (m : List Host.Cell) (a i : Nat) (l : List Byte) (hw : wf m = true) (h : i < l.length) :
    get (write m a l) (a + i) = l[i] := by
  induction l generalizing m a i with
  | nil => simp at h
  | cons x t ih =>
    cases i with
    | zero => rw [write, get_write_of_lt _ _ (by omega)]; exact get_set_self m a x hw
    | succ i =>
      simp only [List.length_cons] at h
      have := ih (set m a x) (a + 1) i (wf_set m a x hw) (by omega)
      rw [write, List.getElem_cons_succ, ← this]
      congr 1
      omega

theorem read_length (m : List Host.Cell) (a n : Nat) : (read m a n).length = n := by
  induction n generalizing a with
  | zero => rfl
  | succ n ih => simp [read, ih]

theorem read_write (m : List Host.Cell) (a : Nat) (l : List Byte) (hw : wf m = true) : read (write m a l) a l.length = l := by
  induction l generalizing m a with
  | nil => rfl
  | cons x t ih =>
    rw [List.length_cons, read, write, get_write_of_lt _ _ (by omega), get_set_self m a x hw, ih _ _ (wf_set m a x hw)]

end Sys2Proof.Machine.Memory
end

