-- ==== Sys2Proof/Laws/State.lean ====
section
/-! SUPPORT. Updates of State: what each leaves of every field, what a unit reads after a write of it or of another unit, and
that a second write of a unit replaces the first. -/

namespace Sys2Proof.Machine.State

/-! ## setCluster -/

@[simp] theorem setCluster_actor (s : State) (c : Nat) (v : Cluster) : (s.setCluster c v).actor = s.actor := rfl
@[simp] theorem setCluster_sched (s : State) (c : Nat) (v : Cluster) : (s.setCluster c v).sched = s.sched := rfl
@[simp] theorem setCluster_free (s : State) (c : Nat) (v : Cluster) : (s.setCluster c v).free = s.free := rfl
@[simp] theorem setCluster_clk (s : State) (c : Nat) (v : Cluster) : (s.setCluster c v).clk = s.clk := rfl
@[simp] theorem setCluster_time (s : State) (c : Nat) (v : Cluster) : (s.setCluster c v).time = s.time := rfl
@[simp] theorem setCluster_halted (s : State) (c : Nat) (v : Cluster) : (s.setCluster c v).halted = s.halted := rfl
@[simp] theorem setCluster_mem (s : State) (c : Nat) (v : Cluster) : (s.setCluster c v).mem = s.mem := rfl
@[simp] theorem setCluster_poison (s : State) (c : Nat) (v : Cluster) : (s.setCluster c v).poison = s.poison := rfl
@[simp] theorem setCluster_strands (s : State) (c : Nat) (v : Cluster) : (s.setCluster c v).strands = s.strands := rfl
@[simp] theorem setCluster_cores (s : State) (c : Nat) (v : Cluster) : (s.setCluster c v).cores = s.cores := rfl
@[simp] theorem setCluster_waves (s : State) (c : Nat) (v : Cluster) : (s.setCluster c v).waves = s.waves := rfl
@[simp] theorem setCluster_wengines (s : State) (c : Nat) (v : Cluster) : (s.setCluster c v).wengines = s.wengines := rfl
@[simp] theorem setCluster_engines (s : State) (c : Nat) (v : Cluster) : (s.setCluster c v).engines = s.engines := rfl
@[simp] theorem setCluster_queues (s : State) (c : Nat) (v : Cluster) : (s.setCluster c v).queues = s.queues := rfl
@[simp] theorem setCluster_fe (s : State) (c : Nat) (v : Cluster) : (s.setCluster c v).fe = s.fe := rfl
@[simp] theorem setCluster_launches (s : State) (c : Nat) (v : Cluster) : (s.setCluster c v).launches = s.launches := rfl
@[simp] theorem setCluster_nextLaunch (s : State) (c : Nat) (v : Cluster) : (s.setCluster c v).nextLaunch = s.nextLaunch := rfl
@[simp] theorem setCluster_images (s : State) (c : Nat) (v : Cluster) : (s.setCluster c v).images = s.images := rfl
@[simp] theorem setCluster_heldMsgs (s : State) (c : Nat) (v : Cluster) : (s.setCluster c v).heldMsgs = s.heldMsgs := rfl
@[simp] theorem setCluster_net (s : State) (c : Nat) (v : Cluster) : (s.setCluster c v).net = s.net := rfl
@[simp] theorem setCluster_stqs (s : State) (c : Nat) (v : Cluster) : (s.setCluster c v).stqs = s.stqs := rfl
@[simp] theorem setCluster_saved (s : State) (c : Nat) (v : Cluster) : (s.setCluster c v).saved = s.saved := rfl
@[simp] theorem setCluster_futures (s : State) (c : Nat) (v : Cluster) : (s.setCluster c v).futures = s.futures := rfl
@[simp] theorem setCluster_tokens (s : State) (c : Nat) (v : Cluster) : (s.setCluster c v).tokens = s.tokens := rfl
@[simp] theorem setCluster_objects (s : State) (c : Nat) (v : Cluster) : (s.setCluster c v).objects = s.objects := rfl
@[simp] theorem setCluster_persistent (s : State) (c : Nat) (v : Cluster) : (s.setCluster c v).persistent = s.persistent := rfl
@[simp] theorem setCluster_directory (s : State) (c : Nat) (v : Cluster) : (s.setCluster c v).directory = s.directory := rfl
@[simp] theorem setCluster_modes (s : State) (c : Nat) (v : Cluster) : (s.setCluster c v).modes = s.modes := rfl
@[simp] theorem setCluster_invals (s : State) (c : Nat) (v : Cluster) : (s.setCluster c v).invals = s.invals := rfl
@[simp] theorem setCluster_nextInval (s : State) (c : Nat) (v : Cluster) : (s.setCluster c v).nextInval = s.nextInval := rfl
@[simp] theorem setCluster_hot (s : State) (c : Nat) (v : Cluster) : (s.setCluster c v).hot = s.hot := rfl
@[simp] theorem setCluster_halvings (s : State) (c : Nat) (v : Cluster) : (s.setCluster c v).halvings = s.halvings := rfl
@[simp] theorem setCluster_llc (s : State) (c : Nat) (v : Cluster) : (s.setCluster c v).llc = s.llc := rfl
@[simp] theorem setCluster_quantum (s : State) (c : Nat) (v : Cluster) : (s.setCluster c v).quantum = s.quantum := rfl
@[simp] theorem setCluster_hostFilter (s : State) (c : Nat) (v : Cluster) : (s.setCluster c v).hostFilter = s.hostFilter := rfl
@[simp] theorem setCluster_snoops (s : State) (c : Nat) (v : Cluster) : (s.setCluster c v).snoops = s.snoops := rfl
@[simp] theorem setCluster_resumes (s : State) (c : Nat) (v : Cluster) : (s.setCluster c v).resumes = s.resumes := rfl
@[simp] theorem setCluster_events (s : State) (c : Nat) (v : Cluster) : (s.setCluster c v).events = s.events := rfl
@[simp] theorem setCluster_nextEvent (s : State) (c : Nat) (v : Cluster) : (s.setCluster c v).nextEvent = s.nextEvent := rfl
@[simp] theorem setCluster_nodes (s : State) (c : Nat) (v : Cluster) : (s.setCluster c v).nodes = s.nodes := rfl
@[simp] theorem setCluster_nextRec (s : State) (c : Nat) (v : Cluster) : (s.setCluster c v).nextRec = s.nextRec := rfl
@[simp] theorem setCluster_msix (s : State) (c : Nat) (v : Cluster) : (s.setCluster c v).msix = s.msix := rfl
@[simp] theorem setCluster_attested (s : State) (c : Nat) (v : Cluster) : (s.setCluster c v).attested = s.attested := rfl
@[simp] theorem setCluster_elBase (s : State) (c : Nat) (v : Cluster) : (s.setCluster c v).elBase = s.elBase := rfl
@[simp] theorem setCluster_elEn (s : State) (c : Nat) (v : Cluster) : (s.setCluster c v).elEn = s.elEn := rfl
@[simp] theorem setCluster_elLogn (s : State) (c : Nat) (v : Cluster) : (s.setCluster c v).elLogn = s.elLogn := rfl
@[simp] theorem setCluster_elCtx (s : State) (c : Nat) (v : Cluster) : (s.setCluster c v).elCtx = s.elCtx := rfl
@[simp] theorem setCluster_elTail (s : State) (c : Nat) (v : Cluster) : (s.setCluster c v).elTail = s.elTail := rfl
@[simp] theorem setCluster_elHead (s : State) (c : Nat) (v : Cluster) : (s.setCluster c v).elHead = s.elHead := rfl
@[simp] theorem setCluster_elLost (s : State) (c : Nat) (v : Cluster) : (s.setCluster c v).elLost = s.elLost := rfl
@[simp] theorem setCluster_hirqElen (s : State) (c : Nat) (v : Cluster) : (s.setCluster c v).hirqElen = s.hirqElen := rfl
@[simp] theorem setCluster_ldReq (s : State) (c : Nat) (v : Cluster) : (s.setCluster c v).ldReq = s.ldReq := rfl
@[simp] theorem setCluster_ldBusy (s : State) (c : Nat) (v : Cluster) : (s.setCluster c v).ldBusy = s.ldBusy := rfl
@[simp] theorem setCluster_ldResult (s : State) (c : Nat) (v : Cluster) : (s.setCluster c v).ldResult = s.ldResult := rfl
@[simp] theorem setCluster_ldImage (s : State) (c : Nat) (v : Cluster) : (s.setCluster c v).ldImage = s.ldImage := rfl
@[simp] theorem setCluster_pkg (s : State) (c : Nat) (v : Cluster) : (s.setCluster c v).pkg = s.pkg := rfl
@[simp] theorem setCluster_govStep (s : State) (c : Nat) (v : Cluster) : (s.setCluster c v).govStep = s.govStep := rfl
@[simp] theorem setCluster_govCause (s : State) (c : Nat) (v : Cluster) : (s.setCluster c v).govCause = s.govCause := rfl
@[simp] theorem setCluster_govPwr (s : State) (c : Nat) (v : Cluster) : (s.setCluster c v).govPwr = s.govPwr := rfl
@[simp] theorem setCluster_govTj (s : State) (c : Nat) (v : Cluster) : (s.setCluster c v).govTj = s.govTj := rfl
@[simp] theorem setCluster_govCap (s : State) (c : Nat) (v : Cluster) : (s.setCluster c v).govCap = s.govCap := rfl
@[simp] theorem setCluster_dcap (s : State) (c : Nat) (v : Cluster) : (s.setCluster c v).dcap = s.dcap := rfl
@[simp] theorem setCluster_up (s : State) (c : Nat) (v : Cluster) : (s.setCluster c v).up = s.up := rfl
@[simp] theorem setCluster_flash (s : State) (c : Nat) (v : Cluster) : (s.setCluster c v).flash = s.flash := rfl
@[simp] theorem setCluster_rootDigest (s : State) (c : Nat) (v : Cluster) : (s.setCluster c v).rootDigest = s.rootDigest := rfl
@[simp] theorem setCluster_plimit (s : State) (c : Nat) (v : Cluster) : (s.setCluster c v).plimit = s.plimit := rfl
@[simp] theorem setCluster_links (s : State) (c : Nat) (v : Cluster) : (s.setCluster c v).links = s.links := rfl
@[simp] theorem setCluster_linkUp (s : State) (c : Nat) (v : Cluster) : (s.setCluster c v).linkUp = s.linkUp := rfl
@[simp] theorem setCluster_config (s : State) (c : Nat) (v : Cluster) : (s.setCluster c v).config = s.config := rfl
@[simp] theorem setCluster_modules (s : State) (c : Nat) (v : Cluster) : (s.setCluster c v).modules = s.modules := rfl
@[simp] theorem setCluster_replays (s : State) (c : Nat) (v : Cluster) : (s.setCluster c v).replays = s.replays := rfl

/-! ## setCore -/

@[simp] theorem setCore_actor (s : State) (k : Nat) (v : Core) : (s.setCore k v).actor = s.actor := rfl
@[simp] theorem setCore_sched (s : State) (k : Nat) (v : Core) : (s.setCore k v).sched = s.sched := rfl
@[simp] theorem setCore_free (s : State) (k : Nat) (v : Core) : (s.setCore k v).free = s.free := rfl
@[simp] theorem setCore_clk (s : State) (k : Nat) (v : Core) : (s.setCore k v).clk = s.clk := rfl
@[simp] theorem setCore_time (s : State) (k : Nat) (v : Core) : (s.setCore k v).time = s.time := rfl
@[simp] theorem setCore_halted (s : State) (k : Nat) (v : Core) : (s.setCore k v).halted = s.halted := rfl
@[simp] theorem setCore_mem (s : State) (k : Nat) (v : Core) : (s.setCore k v).mem = s.mem := rfl
@[simp] theorem setCore_poison (s : State) (k : Nat) (v : Core) : (s.setCore k v).poison = s.poison := rfl
@[simp] theorem setCore_strands (s : State) (k : Nat) (v : Core) : (s.setCore k v).strands = s.strands := rfl
@[simp] theorem setCore_waves (s : State) (k : Nat) (v : Core) : (s.setCore k v).waves = s.waves := rfl
@[simp] theorem setCore_wengines (s : State) (k : Nat) (v : Core) : (s.setCore k v).wengines = s.wengines := rfl
@[simp] theorem setCore_engines (s : State) (k : Nat) (v : Core) : (s.setCore k v).engines = s.engines := rfl
@[simp] theorem setCore_clusters (s : State) (k : Nat) (v : Core) : (s.setCore k v).clusters = s.clusters := rfl
@[simp] theorem setCore_queues (s : State) (k : Nat) (v : Core) : (s.setCore k v).queues = s.queues := rfl
@[simp] theorem setCore_fe (s : State) (k : Nat) (v : Core) : (s.setCore k v).fe = s.fe := rfl
@[simp] theorem setCore_launches (s : State) (k : Nat) (v : Core) : (s.setCore k v).launches = s.launches := rfl
@[simp] theorem setCore_nextLaunch (s : State) (k : Nat) (v : Core) : (s.setCore k v).nextLaunch = s.nextLaunch := rfl
@[simp] theorem setCore_images (s : State) (k : Nat) (v : Core) : (s.setCore k v).images = s.images := rfl
@[simp] theorem setCore_heldMsgs (s : State) (k : Nat) (v : Core) : (s.setCore k v).heldMsgs = s.heldMsgs := rfl
@[simp] theorem setCore_net (s : State) (k : Nat) (v : Core) : (s.setCore k v).net = s.net := rfl
@[simp] theorem setCore_stqs (s : State) (k : Nat) (v : Core) : (s.setCore k v).stqs = s.stqs := rfl
@[simp] theorem setCore_saved (s : State) (k : Nat) (v : Core) : (s.setCore k v).saved = s.saved := rfl
@[simp] theorem setCore_futures (s : State) (k : Nat) (v : Core) : (s.setCore k v).futures = s.futures := rfl
@[simp] theorem setCore_tokens (s : State) (k : Nat) (v : Core) : (s.setCore k v).tokens = s.tokens := rfl
@[simp] theorem setCore_objects (s : State) (k : Nat) (v : Core) : (s.setCore k v).objects = s.objects := rfl
@[simp] theorem setCore_persistent (s : State) (k : Nat) (v : Core) : (s.setCore k v).persistent = s.persistent := rfl
@[simp] theorem setCore_directory (s : State) (k : Nat) (v : Core) : (s.setCore k v).directory = s.directory := rfl
@[simp] theorem setCore_modes (s : State) (k : Nat) (v : Core) : (s.setCore k v).modes = s.modes := rfl
@[simp] theorem setCore_invals (s : State) (k : Nat) (v : Core) : (s.setCore k v).invals = s.invals := rfl
@[simp] theorem setCore_nextInval (s : State) (k : Nat) (v : Core) : (s.setCore k v).nextInval = s.nextInval := rfl
@[simp] theorem setCore_hot (s : State) (k : Nat) (v : Core) : (s.setCore k v).hot = s.hot := rfl
@[simp] theorem setCore_halvings (s : State) (k : Nat) (v : Core) : (s.setCore k v).halvings = s.halvings := rfl
@[simp] theorem setCore_llc (s : State) (k : Nat) (v : Core) : (s.setCore k v).llc = s.llc := rfl
@[simp] theorem setCore_quantum (s : State) (k : Nat) (v : Core) : (s.setCore k v).quantum = s.quantum := rfl
@[simp] theorem setCore_hostFilter (s : State) (k : Nat) (v : Core) : (s.setCore k v).hostFilter = s.hostFilter := rfl
@[simp] theorem setCore_snoops (s : State) (k : Nat) (v : Core) : (s.setCore k v).snoops = s.snoops := rfl
@[simp] theorem setCore_resumes (s : State) (k : Nat) (v : Core) : (s.setCore k v).resumes = s.resumes := rfl
@[simp] theorem setCore_events (s : State) (k : Nat) (v : Core) : (s.setCore k v).events = s.events := rfl
@[simp] theorem setCore_nextEvent (s : State) (k : Nat) (v : Core) : (s.setCore k v).nextEvent = s.nextEvent := rfl
@[simp] theorem setCore_nodes (s : State) (k : Nat) (v : Core) : (s.setCore k v).nodes = s.nodes := rfl
@[simp] theorem setCore_nextRec (s : State) (k : Nat) (v : Core) : (s.setCore k v).nextRec = s.nextRec := rfl
@[simp] theorem setCore_msix (s : State) (k : Nat) (v : Core) : (s.setCore k v).msix = s.msix := rfl
@[simp] theorem setCore_attested (s : State) (k : Nat) (v : Core) : (s.setCore k v).attested = s.attested := rfl
@[simp] theorem setCore_elBase (s : State) (k : Nat) (v : Core) : (s.setCore k v).elBase = s.elBase := rfl
@[simp] theorem setCore_elEn (s : State) (k : Nat) (v : Core) : (s.setCore k v).elEn = s.elEn := rfl
@[simp] theorem setCore_elLogn (s : State) (k : Nat) (v : Core) : (s.setCore k v).elLogn = s.elLogn := rfl
@[simp] theorem setCore_elCtx (s : State) (k : Nat) (v : Core) : (s.setCore k v).elCtx = s.elCtx := rfl
@[simp] theorem setCore_elTail (s : State) (k : Nat) (v : Core) : (s.setCore k v).elTail = s.elTail := rfl
@[simp] theorem setCore_elHead (s : State) (k : Nat) (v : Core) : (s.setCore k v).elHead = s.elHead := rfl
@[simp] theorem setCore_elLost (s : State) (k : Nat) (v : Core) : (s.setCore k v).elLost = s.elLost := rfl
@[simp] theorem setCore_hirqElen (s : State) (k : Nat) (v : Core) : (s.setCore k v).hirqElen = s.hirqElen := rfl
@[simp] theorem setCore_ldReq (s : State) (k : Nat) (v : Core) : (s.setCore k v).ldReq = s.ldReq := rfl
@[simp] theorem setCore_ldBusy (s : State) (k : Nat) (v : Core) : (s.setCore k v).ldBusy = s.ldBusy := rfl
@[simp] theorem setCore_ldResult (s : State) (k : Nat) (v : Core) : (s.setCore k v).ldResult = s.ldResult := rfl
@[simp] theorem setCore_ldImage (s : State) (k : Nat) (v : Core) : (s.setCore k v).ldImage = s.ldImage := rfl
@[simp] theorem setCore_pkg (s : State) (k : Nat) (v : Core) : (s.setCore k v).pkg = s.pkg := rfl
@[simp] theorem setCore_govStep (s : State) (k : Nat) (v : Core) : (s.setCore k v).govStep = s.govStep := rfl
@[simp] theorem setCore_govCause (s : State) (k : Nat) (v : Core) : (s.setCore k v).govCause = s.govCause := rfl
@[simp] theorem setCore_govPwr (s : State) (k : Nat) (v : Core) : (s.setCore k v).govPwr = s.govPwr := rfl
@[simp] theorem setCore_govTj (s : State) (k : Nat) (v : Core) : (s.setCore k v).govTj = s.govTj := rfl
@[simp] theorem setCore_govCap (s : State) (k : Nat) (v : Core) : (s.setCore k v).govCap = s.govCap := rfl
@[simp] theorem setCore_dcap (s : State) (k : Nat) (v : Core) : (s.setCore k v).dcap = s.dcap := rfl
@[simp] theorem setCore_up (s : State) (k : Nat) (v : Core) : (s.setCore k v).up = s.up := rfl
@[simp] theorem setCore_flash (s : State) (k : Nat) (v : Core) : (s.setCore k v).flash = s.flash := rfl
@[simp] theorem setCore_rootDigest (s : State) (k : Nat) (v : Core) : (s.setCore k v).rootDigest = s.rootDigest := rfl
@[simp] theorem setCore_plimit (s : State) (k : Nat) (v : Core) : (s.setCore k v).plimit = s.plimit := rfl
@[simp] theorem setCore_links (s : State) (k : Nat) (v : Core) : (s.setCore k v).links = s.links := rfl
@[simp] theorem setCore_linkUp (s : State) (k : Nat) (v : Core) : (s.setCore k v).linkUp = s.linkUp := rfl
@[simp] theorem setCore_config (s : State) (k : Nat) (v : Core) : (s.setCore k v).config = s.config := rfl
@[simp] theorem setCore_modules (s : State) (k : Nat) (v : Core) : (s.setCore k v).modules = s.modules := rfl
@[simp] theorem setCore_replays (s : State) (k : Nat) (v : Core) : (s.setCore k v).replays = s.replays := rfl

/-! ## setWave -/

@[simp] theorem setWave_actor (s : State) (k : Nat) (v : Wave) : (s.setWave k v).actor = s.actor := rfl
@[simp] theorem setWave_sched (s : State) (k : Nat) (v : Wave) : (s.setWave k v).sched = s.sched := rfl
@[simp] theorem setWave_free (s : State) (k : Nat) (v : Wave) : (s.setWave k v).free = s.free := rfl
@[simp] theorem setWave_clk (s : State) (k : Nat) (v : Wave) : (s.setWave k v).clk = s.clk := rfl
@[simp] theorem setWave_time (s : State) (k : Nat) (v : Wave) : (s.setWave k v).time = s.time := rfl
@[simp] theorem setWave_halted (s : State) (k : Nat) (v : Wave) : (s.setWave k v).halted = s.halted := rfl
@[simp] theorem setWave_mem (s : State) (k : Nat) (v : Wave) : (s.setWave k v).mem = s.mem := rfl
@[simp] theorem setWave_poison (s : State) (k : Nat) (v : Wave) : (s.setWave k v).poison = s.poison := rfl
@[simp] theorem setWave_strands (s : State) (k : Nat) (v : Wave) : (s.setWave k v).strands = s.strands := rfl
@[simp] theorem setWave_cores (s : State) (k : Nat) (v : Wave) : (s.setWave k v).cores = s.cores := rfl
@[simp] theorem setWave_wengines (s : State) (k : Nat) (v : Wave) : (s.setWave k v).wengines = s.wengines := rfl
@[simp] theorem setWave_engines (s : State) (k : Nat) (v : Wave) : (s.setWave k v).engines = s.engines := rfl
@[simp] theorem setWave_clusters (s : State) (k : Nat) (v : Wave) : (s.setWave k v).clusters = s.clusters := rfl
@[simp] theorem setWave_queues (s : State) (k : Nat) (v : Wave) : (s.setWave k v).queues = s.queues := rfl
@[simp] theorem setWave_fe (s : State) (k : Nat) (v : Wave) : (s.setWave k v).fe = s.fe := rfl
@[simp] theorem setWave_launches (s : State) (k : Nat) (v : Wave) : (s.setWave k v).launches = s.launches := rfl
@[simp] theorem setWave_nextLaunch (s : State) (k : Nat) (v : Wave) : (s.setWave k v).nextLaunch = s.nextLaunch := rfl
@[simp] theorem setWave_images (s : State) (k : Nat) (v : Wave) : (s.setWave k v).images = s.images := rfl
@[simp] theorem setWave_heldMsgs (s : State) (k : Nat) (v : Wave) : (s.setWave k v).heldMsgs = s.heldMsgs := rfl
@[simp] theorem setWave_net (s : State) (k : Nat) (v : Wave) : (s.setWave k v).net = s.net := rfl
@[simp] theorem setWave_stqs (s : State) (k : Nat) (v : Wave) : (s.setWave k v).stqs = s.stqs := rfl
@[simp] theorem setWave_saved (s : State) (k : Nat) (v : Wave) : (s.setWave k v).saved = s.saved := rfl
@[simp] theorem setWave_futures (s : State) (k : Nat) (v : Wave) : (s.setWave k v).futures = s.futures := rfl
@[simp] theorem setWave_tokens (s : State) (k : Nat) (v : Wave) : (s.setWave k v).tokens = s.tokens := rfl
@[simp] theorem setWave_objects (s : State) (k : Nat) (v : Wave) : (s.setWave k v).objects = s.objects := rfl
@[simp] theorem setWave_persistent (s : State) (k : Nat) (v : Wave) : (s.setWave k v).persistent = s.persistent := rfl
@[simp] theorem setWave_directory (s : State) (k : Nat) (v : Wave) : (s.setWave k v).directory = s.directory := rfl
@[simp] theorem setWave_modes (s : State) (k : Nat) (v : Wave) : (s.setWave k v).modes = s.modes := rfl
@[simp] theorem setWave_invals (s : State) (k : Nat) (v : Wave) : (s.setWave k v).invals = s.invals := rfl
@[simp] theorem setWave_nextInval (s : State) (k : Nat) (v : Wave) : (s.setWave k v).nextInval = s.nextInval := rfl
@[simp] theorem setWave_hot (s : State) (k : Nat) (v : Wave) : (s.setWave k v).hot = s.hot := rfl
@[simp] theorem setWave_halvings (s : State) (k : Nat) (v : Wave) : (s.setWave k v).halvings = s.halvings := rfl
@[simp] theorem setWave_llc (s : State) (k : Nat) (v : Wave) : (s.setWave k v).llc = s.llc := rfl
@[simp] theorem setWave_quantum (s : State) (k : Nat) (v : Wave) : (s.setWave k v).quantum = s.quantum := rfl
@[simp] theorem setWave_hostFilter (s : State) (k : Nat) (v : Wave) : (s.setWave k v).hostFilter = s.hostFilter := rfl
@[simp] theorem setWave_snoops (s : State) (k : Nat) (v : Wave) : (s.setWave k v).snoops = s.snoops := rfl
@[simp] theorem setWave_resumes (s : State) (k : Nat) (v : Wave) : (s.setWave k v).resumes = s.resumes := rfl
@[simp] theorem setWave_events (s : State) (k : Nat) (v : Wave) : (s.setWave k v).events = s.events := rfl
@[simp] theorem setWave_nextEvent (s : State) (k : Nat) (v : Wave) : (s.setWave k v).nextEvent = s.nextEvent := rfl
@[simp] theorem setWave_nodes (s : State) (k : Nat) (v : Wave) : (s.setWave k v).nodes = s.nodes := rfl
@[simp] theorem setWave_nextRec (s : State) (k : Nat) (v : Wave) : (s.setWave k v).nextRec = s.nextRec := rfl
@[simp] theorem setWave_msix (s : State) (k : Nat) (v : Wave) : (s.setWave k v).msix = s.msix := rfl
@[simp] theorem setWave_attested (s : State) (k : Nat) (v : Wave) : (s.setWave k v).attested = s.attested := rfl
@[simp] theorem setWave_elBase (s : State) (k : Nat) (v : Wave) : (s.setWave k v).elBase = s.elBase := rfl
@[simp] theorem setWave_elEn (s : State) (k : Nat) (v : Wave) : (s.setWave k v).elEn = s.elEn := rfl
@[simp] theorem setWave_elLogn (s : State) (k : Nat) (v : Wave) : (s.setWave k v).elLogn = s.elLogn := rfl
@[simp] theorem setWave_elCtx (s : State) (k : Nat) (v : Wave) : (s.setWave k v).elCtx = s.elCtx := rfl
@[simp] theorem setWave_elTail (s : State) (k : Nat) (v : Wave) : (s.setWave k v).elTail = s.elTail := rfl
@[simp] theorem setWave_elHead (s : State) (k : Nat) (v : Wave) : (s.setWave k v).elHead = s.elHead := rfl
@[simp] theorem setWave_elLost (s : State) (k : Nat) (v : Wave) : (s.setWave k v).elLost = s.elLost := rfl
@[simp] theorem setWave_hirqElen (s : State) (k : Nat) (v : Wave) : (s.setWave k v).hirqElen = s.hirqElen := rfl
@[simp] theorem setWave_ldReq (s : State) (k : Nat) (v : Wave) : (s.setWave k v).ldReq = s.ldReq := rfl
@[simp] theorem setWave_ldBusy (s : State) (k : Nat) (v : Wave) : (s.setWave k v).ldBusy = s.ldBusy := rfl
@[simp] theorem setWave_ldResult (s : State) (k : Nat) (v : Wave) : (s.setWave k v).ldResult = s.ldResult := rfl
@[simp] theorem setWave_ldImage (s : State) (k : Nat) (v : Wave) : (s.setWave k v).ldImage = s.ldImage := rfl
@[simp] theorem setWave_pkg (s : State) (k : Nat) (v : Wave) : (s.setWave k v).pkg = s.pkg := rfl
@[simp] theorem setWave_govStep (s : State) (k : Nat) (v : Wave) : (s.setWave k v).govStep = s.govStep := rfl
@[simp] theorem setWave_govCause (s : State) (k : Nat) (v : Wave) : (s.setWave k v).govCause = s.govCause := rfl
@[simp] theorem setWave_govPwr (s : State) (k : Nat) (v : Wave) : (s.setWave k v).govPwr = s.govPwr := rfl
@[simp] theorem setWave_govTj (s : State) (k : Nat) (v : Wave) : (s.setWave k v).govTj = s.govTj := rfl
@[simp] theorem setWave_govCap (s : State) (k : Nat) (v : Wave) : (s.setWave k v).govCap = s.govCap := rfl
@[simp] theorem setWave_dcap (s : State) (k : Nat) (v : Wave) : (s.setWave k v).dcap = s.dcap := rfl
@[simp] theorem setWave_up (s : State) (k : Nat) (v : Wave) : (s.setWave k v).up = s.up := rfl
@[simp] theorem setWave_flash (s : State) (k : Nat) (v : Wave) : (s.setWave k v).flash = s.flash := rfl
@[simp] theorem setWave_rootDigest (s : State) (k : Nat) (v : Wave) : (s.setWave k v).rootDigest = s.rootDigest := rfl
@[simp] theorem setWave_plimit (s : State) (k : Nat) (v : Wave) : (s.setWave k v).plimit = s.plimit := rfl
@[simp] theorem setWave_links (s : State) (k : Nat) (v : Wave) : (s.setWave k v).links = s.links := rfl
@[simp] theorem setWave_linkUp (s : State) (k : Nat) (v : Wave) : (s.setWave k v).linkUp = s.linkUp := rfl
@[simp] theorem setWave_config (s : State) (k : Nat) (v : Wave) : (s.setWave k v).config = s.config := rfl
@[simp] theorem setWave_modules (s : State) (k : Nat) (v : Wave) : (s.setWave k v).modules = s.modules := rfl
@[simp] theorem setWave_replays (s : State) (k : Nat) (v : Wave) : (s.setWave k v).replays = s.replays := rfl

/-! ## setWengine -/

@[simp] theorem setWengine_actor (s : State) (k : Nat) (v : WaveEngine) : (s.setWengine k v).actor = s.actor := rfl
@[simp] theorem setWengine_sched (s : State) (k : Nat) (v : WaveEngine) : (s.setWengine k v).sched = s.sched := rfl
@[simp] theorem setWengine_free (s : State) (k : Nat) (v : WaveEngine) : (s.setWengine k v).free = s.free := rfl
@[simp] theorem setWengine_clk (s : State) (k : Nat) (v : WaveEngine) : (s.setWengine k v).clk = s.clk := rfl
@[simp] theorem setWengine_time (s : State) (k : Nat) (v : WaveEngine) : (s.setWengine k v).time = s.time := rfl
@[simp] theorem setWengine_halted (s : State) (k : Nat) (v : WaveEngine) : (s.setWengine k v).halted = s.halted := rfl
@[simp] theorem setWengine_mem (s : State) (k : Nat) (v : WaveEngine) : (s.setWengine k v).mem = s.mem := rfl
@[simp] theorem setWengine_poison (s : State) (k : Nat) (v : WaveEngine) : (s.setWengine k v).poison = s.poison := rfl
@[simp] theorem setWengine_strands (s : State) (k : Nat) (v : WaveEngine) : (s.setWengine k v).strands = s.strands := rfl
@[simp] theorem setWengine_cores (s : State) (k : Nat) (v : WaveEngine) : (s.setWengine k v).cores = s.cores := rfl
@[simp] theorem setWengine_waves (s : State) (k : Nat) (v : WaveEngine) : (s.setWengine k v).waves = s.waves := rfl
@[simp] theorem setWengine_engines (s : State) (k : Nat) (v : WaveEngine) : (s.setWengine k v).engines = s.engines := rfl
@[simp] theorem setWengine_clusters (s : State) (k : Nat) (v : WaveEngine) : (s.setWengine k v).clusters = s.clusters := rfl
@[simp] theorem setWengine_queues (s : State) (k : Nat) (v : WaveEngine) : (s.setWengine k v).queues = s.queues := rfl
@[simp] theorem setWengine_fe (s : State) (k : Nat) (v : WaveEngine) : (s.setWengine k v).fe = s.fe := rfl
@[simp] theorem setWengine_launches (s : State) (k : Nat) (v : WaveEngine) : (s.setWengine k v).launches = s.launches := rfl
@[simp] theorem setWengine_nextLaunch (s : State) (k : Nat) (v : WaveEngine) : (s.setWengine k v).nextLaunch = s.nextLaunch := rfl
@[simp] theorem setWengine_images (s : State) (k : Nat) (v : WaveEngine) : (s.setWengine k v).images = s.images := rfl
@[simp] theorem setWengine_heldMsgs (s : State) (k : Nat) (v : WaveEngine) : (s.setWengine k v).heldMsgs = s.heldMsgs := rfl
@[simp] theorem setWengine_net (s : State) (k : Nat) (v : WaveEngine) : (s.setWengine k v).net = s.net := rfl
@[simp] theorem setWengine_stqs (s : State) (k : Nat) (v : WaveEngine) : (s.setWengine k v).stqs = s.stqs := rfl
@[simp] theorem setWengine_saved (s : State) (k : Nat) (v : WaveEngine) : (s.setWengine k v).saved = s.saved := rfl
@[simp] theorem setWengine_futures (s : State) (k : Nat) (v : WaveEngine) : (s.setWengine k v).futures = s.futures := rfl
@[simp] theorem setWengine_tokens (s : State) (k : Nat) (v : WaveEngine) : (s.setWengine k v).tokens = s.tokens := rfl
@[simp] theorem setWengine_objects (s : State) (k : Nat) (v : WaveEngine) : (s.setWengine k v).objects = s.objects := rfl
@[simp] theorem setWengine_persistent (s : State) (k : Nat) (v : WaveEngine) : (s.setWengine k v).persistent = s.persistent := rfl
@[simp] theorem setWengine_directory (s : State) (k : Nat) (v : WaveEngine) : (s.setWengine k v).directory = s.directory := rfl
@[simp] theorem setWengine_modes (s : State) (k : Nat) (v : WaveEngine) : (s.setWengine k v).modes = s.modes := rfl
@[simp] theorem setWengine_invals (s : State) (k : Nat) (v : WaveEngine) : (s.setWengine k v).invals = s.invals := rfl
@[simp] theorem setWengine_nextInval (s : State) (k : Nat) (v : WaveEngine) : (s.setWengine k v).nextInval = s.nextInval := rfl
@[simp] theorem setWengine_hot (s : State) (k : Nat) (v : WaveEngine) : (s.setWengine k v).hot = s.hot := rfl
@[simp] theorem setWengine_halvings (s : State) (k : Nat) (v : WaveEngine) : (s.setWengine k v).halvings = s.halvings := rfl
@[simp] theorem setWengine_llc (s : State) (k : Nat) (v : WaveEngine) : (s.setWengine k v).llc = s.llc := rfl
@[simp] theorem setWengine_quantum (s : State) (k : Nat) (v : WaveEngine) : (s.setWengine k v).quantum = s.quantum := rfl
@[simp] theorem setWengine_hostFilter (s : State) (k : Nat) (v : WaveEngine) : (s.setWengine k v).hostFilter = s.hostFilter := rfl
@[simp] theorem setWengine_snoops (s : State) (k : Nat) (v : WaveEngine) : (s.setWengine k v).snoops = s.snoops := rfl
@[simp] theorem setWengine_resumes (s : State) (k : Nat) (v : WaveEngine) : (s.setWengine k v).resumes = s.resumes := rfl
@[simp] theorem setWengine_events (s : State) (k : Nat) (v : WaveEngine) : (s.setWengine k v).events = s.events := rfl
@[simp] theorem setWengine_nextEvent (s : State) (k : Nat) (v : WaveEngine) : (s.setWengine k v).nextEvent = s.nextEvent := rfl
@[simp] theorem setWengine_nodes (s : State) (k : Nat) (v : WaveEngine) : (s.setWengine k v).nodes = s.nodes := rfl
@[simp] theorem setWengine_nextRec (s : State) (k : Nat) (v : WaveEngine) : (s.setWengine k v).nextRec = s.nextRec := rfl
@[simp] theorem setWengine_msix (s : State) (k : Nat) (v : WaveEngine) : (s.setWengine k v).msix = s.msix := rfl
@[simp] theorem setWengine_attested (s : State) (k : Nat) (v : WaveEngine) : (s.setWengine k v).attested = s.attested := rfl
@[simp] theorem setWengine_elBase (s : State) (k : Nat) (v : WaveEngine) : (s.setWengine k v).elBase = s.elBase := rfl
@[simp] theorem setWengine_elEn (s : State) (k : Nat) (v : WaveEngine) : (s.setWengine k v).elEn = s.elEn := rfl
@[simp] theorem setWengine_elLogn (s : State) (k : Nat) (v : WaveEngine) : (s.setWengine k v).elLogn = s.elLogn := rfl
@[simp] theorem setWengine_elCtx (s : State) (k : Nat) (v : WaveEngine) : (s.setWengine k v).elCtx = s.elCtx := rfl
@[simp] theorem setWengine_elTail (s : State) (k : Nat) (v : WaveEngine) : (s.setWengine k v).elTail = s.elTail := rfl
@[simp] theorem setWengine_elHead (s : State) (k : Nat) (v : WaveEngine) : (s.setWengine k v).elHead = s.elHead := rfl
@[simp] theorem setWengine_elLost (s : State) (k : Nat) (v : WaveEngine) : (s.setWengine k v).elLost = s.elLost := rfl
@[simp] theorem setWengine_hirqElen (s : State) (k : Nat) (v : WaveEngine) : (s.setWengine k v).hirqElen = s.hirqElen := rfl
@[simp] theorem setWengine_ldReq (s : State) (k : Nat) (v : WaveEngine) : (s.setWengine k v).ldReq = s.ldReq := rfl
@[simp] theorem setWengine_ldBusy (s : State) (k : Nat) (v : WaveEngine) : (s.setWengine k v).ldBusy = s.ldBusy := rfl
@[simp] theorem setWengine_ldResult (s : State) (k : Nat) (v : WaveEngine) : (s.setWengine k v).ldResult = s.ldResult := rfl
@[simp] theorem setWengine_ldImage (s : State) (k : Nat) (v : WaveEngine) : (s.setWengine k v).ldImage = s.ldImage := rfl
@[simp] theorem setWengine_pkg (s : State) (k : Nat) (v : WaveEngine) : (s.setWengine k v).pkg = s.pkg := rfl
@[simp] theorem setWengine_govStep (s : State) (k : Nat) (v : WaveEngine) : (s.setWengine k v).govStep = s.govStep := rfl
@[simp] theorem setWengine_govCause (s : State) (k : Nat) (v : WaveEngine) : (s.setWengine k v).govCause = s.govCause := rfl
@[simp] theorem setWengine_govPwr (s : State) (k : Nat) (v : WaveEngine) : (s.setWengine k v).govPwr = s.govPwr := rfl
@[simp] theorem setWengine_govTj (s : State) (k : Nat) (v : WaveEngine) : (s.setWengine k v).govTj = s.govTj := rfl
@[simp] theorem setWengine_govCap (s : State) (k : Nat) (v : WaveEngine) : (s.setWengine k v).govCap = s.govCap := rfl
@[simp] theorem setWengine_dcap (s : State) (k : Nat) (v : WaveEngine) : (s.setWengine k v).dcap = s.dcap := rfl
@[simp] theorem setWengine_up (s : State) (k : Nat) (v : WaveEngine) : (s.setWengine k v).up = s.up := rfl
@[simp] theorem setWengine_flash (s : State) (k : Nat) (v : WaveEngine) : (s.setWengine k v).flash = s.flash := rfl
@[simp] theorem setWengine_rootDigest (s : State) (k : Nat) (v : WaveEngine) : (s.setWengine k v).rootDigest = s.rootDigest := rfl
@[simp] theorem setWengine_plimit (s : State) (k : Nat) (v : WaveEngine) : (s.setWengine k v).plimit = s.plimit := rfl
@[simp] theorem setWengine_links (s : State) (k : Nat) (v : WaveEngine) : (s.setWengine k v).links = s.links := rfl
@[simp] theorem setWengine_linkUp (s : State) (k : Nat) (v : WaveEngine) : (s.setWengine k v).linkUp = s.linkUp := rfl
@[simp] theorem setWengine_config (s : State) (k : Nat) (v : WaveEngine) : (s.setWengine k v).config = s.config := rfl
@[simp] theorem setWengine_modules (s : State) (k : Nat) (v : WaveEngine) : (s.setWengine k v).modules = s.modules := rfl
@[simp] theorem setWengine_replays (s : State) (k : Nat) (v : WaveEngine) : (s.setWengine k v).replays = s.replays := rfl

/-! ## setEngine -/

@[simp] theorem setEngine_actor (s : State) (k : Nat) (v : Engine) : (s.setEngine k v).actor = s.actor := rfl
@[simp] theorem setEngine_sched (s : State) (k : Nat) (v : Engine) : (s.setEngine k v).sched = s.sched := rfl
@[simp] theorem setEngine_free (s : State) (k : Nat) (v : Engine) : (s.setEngine k v).free = s.free := rfl
@[simp] theorem setEngine_clk (s : State) (k : Nat) (v : Engine) : (s.setEngine k v).clk = s.clk := rfl
@[simp] theorem setEngine_time (s : State) (k : Nat) (v : Engine) : (s.setEngine k v).time = s.time := rfl
@[simp] theorem setEngine_halted (s : State) (k : Nat) (v : Engine) : (s.setEngine k v).halted = s.halted := rfl
@[simp] theorem setEngine_mem (s : State) (k : Nat) (v : Engine) : (s.setEngine k v).mem = s.mem := rfl
@[simp] theorem setEngine_poison (s : State) (k : Nat) (v : Engine) : (s.setEngine k v).poison = s.poison := rfl
@[simp] theorem setEngine_strands (s : State) (k : Nat) (v : Engine) : (s.setEngine k v).strands = s.strands := rfl
@[simp] theorem setEngine_cores (s : State) (k : Nat) (v : Engine) : (s.setEngine k v).cores = s.cores := rfl
@[simp] theorem setEngine_waves (s : State) (k : Nat) (v : Engine) : (s.setEngine k v).waves = s.waves := rfl
@[simp] theorem setEngine_wengines (s : State) (k : Nat) (v : Engine) : (s.setEngine k v).wengines = s.wengines := rfl
@[simp] theorem setEngine_clusters (s : State) (k : Nat) (v : Engine) : (s.setEngine k v).clusters = s.clusters := rfl
@[simp] theorem setEngine_queues (s : State) (k : Nat) (v : Engine) : (s.setEngine k v).queues = s.queues := rfl
@[simp] theorem setEngine_fe (s : State) (k : Nat) (v : Engine) : (s.setEngine k v).fe = s.fe := rfl
@[simp] theorem setEngine_launches (s : State) (k : Nat) (v : Engine) : (s.setEngine k v).launches = s.launches := rfl
@[simp] theorem setEngine_nextLaunch (s : State) (k : Nat) (v : Engine) : (s.setEngine k v).nextLaunch = s.nextLaunch := rfl
@[simp] theorem setEngine_images (s : State) (k : Nat) (v : Engine) : (s.setEngine k v).images = s.images := rfl
@[simp] theorem setEngine_heldMsgs (s : State) (k : Nat) (v : Engine) : (s.setEngine k v).heldMsgs = s.heldMsgs := rfl
@[simp] theorem setEngine_net (s : State) (k : Nat) (v : Engine) : (s.setEngine k v).net = s.net := rfl
@[simp] theorem setEngine_stqs (s : State) (k : Nat) (v : Engine) : (s.setEngine k v).stqs = s.stqs := rfl
@[simp] theorem setEngine_saved (s : State) (k : Nat) (v : Engine) : (s.setEngine k v).saved = s.saved := rfl
@[simp] theorem setEngine_futures (s : State) (k : Nat) (v : Engine) : (s.setEngine k v).futures = s.futures := rfl
@[simp] theorem setEngine_tokens (s : State) (k : Nat) (v : Engine) : (s.setEngine k v).tokens = s.tokens := rfl
@[simp] theorem setEngine_objects (s : State) (k : Nat) (v : Engine) : (s.setEngine k v).objects = s.objects := rfl
@[simp] theorem setEngine_persistent (s : State) (k : Nat) (v : Engine) : (s.setEngine k v).persistent = s.persistent := rfl
@[simp] theorem setEngine_directory (s : State) (k : Nat) (v : Engine) : (s.setEngine k v).directory = s.directory := rfl
@[simp] theorem setEngine_modes (s : State) (k : Nat) (v : Engine) : (s.setEngine k v).modes = s.modes := rfl
@[simp] theorem setEngine_invals (s : State) (k : Nat) (v : Engine) : (s.setEngine k v).invals = s.invals := rfl
@[simp] theorem setEngine_nextInval (s : State) (k : Nat) (v : Engine) : (s.setEngine k v).nextInval = s.nextInval := rfl
@[simp] theorem setEngine_hot (s : State) (k : Nat) (v : Engine) : (s.setEngine k v).hot = s.hot := rfl
@[simp] theorem setEngine_halvings (s : State) (k : Nat) (v : Engine) : (s.setEngine k v).halvings = s.halvings := rfl
@[simp] theorem setEngine_llc (s : State) (k : Nat) (v : Engine) : (s.setEngine k v).llc = s.llc := rfl
@[simp] theorem setEngine_quantum (s : State) (k : Nat) (v : Engine) : (s.setEngine k v).quantum = s.quantum := rfl
@[simp] theorem setEngine_hostFilter (s : State) (k : Nat) (v : Engine) : (s.setEngine k v).hostFilter = s.hostFilter := rfl
@[simp] theorem setEngine_snoops (s : State) (k : Nat) (v : Engine) : (s.setEngine k v).snoops = s.snoops := rfl
@[simp] theorem setEngine_resumes (s : State) (k : Nat) (v : Engine) : (s.setEngine k v).resumes = s.resumes := rfl
@[simp] theorem setEngine_events (s : State) (k : Nat) (v : Engine) : (s.setEngine k v).events = s.events := rfl
@[simp] theorem setEngine_nextEvent (s : State) (k : Nat) (v : Engine) : (s.setEngine k v).nextEvent = s.nextEvent := rfl
@[simp] theorem setEngine_nodes (s : State) (k : Nat) (v : Engine) : (s.setEngine k v).nodes = s.nodes := rfl
@[simp] theorem setEngine_nextRec (s : State) (k : Nat) (v : Engine) : (s.setEngine k v).nextRec = s.nextRec := rfl
@[simp] theorem setEngine_msix (s : State) (k : Nat) (v : Engine) : (s.setEngine k v).msix = s.msix := rfl
@[simp] theorem setEngine_attested (s : State) (k : Nat) (v : Engine) : (s.setEngine k v).attested = s.attested := rfl
@[simp] theorem setEngine_elBase (s : State) (k : Nat) (v : Engine) : (s.setEngine k v).elBase = s.elBase := rfl
@[simp] theorem setEngine_elEn (s : State) (k : Nat) (v : Engine) : (s.setEngine k v).elEn = s.elEn := rfl
@[simp] theorem setEngine_elLogn (s : State) (k : Nat) (v : Engine) : (s.setEngine k v).elLogn = s.elLogn := rfl
@[simp] theorem setEngine_elCtx (s : State) (k : Nat) (v : Engine) : (s.setEngine k v).elCtx = s.elCtx := rfl
@[simp] theorem setEngine_elTail (s : State) (k : Nat) (v : Engine) : (s.setEngine k v).elTail = s.elTail := rfl
@[simp] theorem setEngine_elHead (s : State) (k : Nat) (v : Engine) : (s.setEngine k v).elHead = s.elHead := rfl
@[simp] theorem setEngine_elLost (s : State) (k : Nat) (v : Engine) : (s.setEngine k v).elLost = s.elLost := rfl
@[simp] theorem setEngine_hirqElen (s : State) (k : Nat) (v : Engine) : (s.setEngine k v).hirqElen = s.hirqElen := rfl
@[simp] theorem setEngine_ldReq (s : State) (k : Nat) (v : Engine) : (s.setEngine k v).ldReq = s.ldReq := rfl
@[simp] theorem setEngine_ldBusy (s : State) (k : Nat) (v : Engine) : (s.setEngine k v).ldBusy = s.ldBusy := rfl
@[simp] theorem setEngine_ldResult (s : State) (k : Nat) (v : Engine) : (s.setEngine k v).ldResult = s.ldResult := rfl
@[simp] theorem setEngine_ldImage (s : State) (k : Nat) (v : Engine) : (s.setEngine k v).ldImage = s.ldImage := rfl
@[simp] theorem setEngine_pkg (s : State) (k : Nat) (v : Engine) : (s.setEngine k v).pkg = s.pkg := rfl
@[simp] theorem setEngine_govStep (s : State) (k : Nat) (v : Engine) : (s.setEngine k v).govStep = s.govStep := rfl
@[simp] theorem setEngine_govCause (s : State) (k : Nat) (v : Engine) : (s.setEngine k v).govCause = s.govCause := rfl
@[simp] theorem setEngine_govPwr (s : State) (k : Nat) (v : Engine) : (s.setEngine k v).govPwr = s.govPwr := rfl
@[simp] theorem setEngine_govTj (s : State) (k : Nat) (v : Engine) : (s.setEngine k v).govTj = s.govTj := rfl
@[simp] theorem setEngine_govCap (s : State) (k : Nat) (v : Engine) : (s.setEngine k v).govCap = s.govCap := rfl
@[simp] theorem setEngine_dcap (s : State) (k : Nat) (v : Engine) : (s.setEngine k v).dcap = s.dcap := rfl
@[simp] theorem setEngine_up (s : State) (k : Nat) (v : Engine) : (s.setEngine k v).up = s.up := rfl
@[simp] theorem setEngine_flash (s : State) (k : Nat) (v : Engine) : (s.setEngine k v).flash = s.flash := rfl
@[simp] theorem setEngine_rootDigest (s : State) (k : Nat) (v : Engine) : (s.setEngine k v).rootDigest = s.rootDigest := rfl
@[simp] theorem setEngine_plimit (s : State) (k : Nat) (v : Engine) : (s.setEngine k v).plimit = s.plimit := rfl
@[simp] theorem setEngine_links (s : State) (k : Nat) (v : Engine) : (s.setEngine k v).links = s.links := rfl
@[simp] theorem setEngine_linkUp (s : State) (k : Nat) (v : Engine) : (s.setEngine k v).linkUp = s.linkUp := rfl
@[simp] theorem setEngine_config (s : State) (k : Nat) (v : Engine) : (s.setEngine k v).config = s.config := rfl
@[simp] theorem setEngine_modules (s : State) (k : Nat) (v : Engine) : (s.setEngine k v).modules = s.modules := rfl
@[simp] theorem setEngine_replays (s : State) (k : Nat) (v : Engine) : (s.setEngine k v).replays = s.replays := rfl

/-! ## setQueue -/

@[simp] theorem setQueue_actor (s : State) (q : Nat) (v : WorkQueue) : (s.setQueue q v).actor = s.actor := rfl
@[simp] theorem setQueue_sched (s : State) (q : Nat) (v : WorkQueue) : (s.setQueue q v).sched = s.sched := rfl
@[simp] theorem setQueue_free (s : State) (q : Nat) (v : WorkQueue) : (s.setQueue q v).free = s.free := rfl
@[simp] theorem setQueue_clk (s : State) (q : Nat) (v : WorkQueue) : (s.setQueue q v).clk = s.clk := rfl
@[simp] theorem setQueue_time (s : State) (q : Nat) (v : WorkQueue) : (s.setQueue q v).time = s.time := rfl
@[simp] theorem setQueue_halted (s : State) (q : Nat) (v : WorkQueue) : (s.setQueue q v).halted = s.halted := rfl
@[simp] theorem setQueue_mem (s : State) (q : Nat) (v : WorkQueue) : (s.setQueue q v).mem = s.mem := rfl
@[simp] theorem setQueue_poison (s : State) (q : Nat) (v : WorkQueue) : (s.setQueue q v).poison = s.poison := rfl
@[simp] theorem setQueue_strands (s : State) (q : Nat) (v : WorkQueue) : (s.setQueue q v).strands = s.strands := rfl
@[simp] theorem setQueue_cores (s : State) (q : Nat) (v : WorkQueue) : (s.setQueue q v).cores = s.cores := rfl
@[simp] theorem setQueue_waves (s : State) (q : Nat) (v : WorkQueue) : (s.setQueue q v).waves = s.waves := rfl
@[simp] theorem setQueue_wengines (s : State) (q : Nat) (v : WorkQueue) : (s.setQueue q v).wengines = s.wengines := rfl
@[simp] theorem setQueue_engines (s : State) (q : Nat) (v : WorkQueue) : (s.setQueue q v).engines = s.engines := rfl
@[simp] theorem setQueue_clusters (s : State) (q : Nat) (v : WorkQueue) : (s.setQueue q v).clusters = s.clusters := rfl
@[simp] theorem setQueue_fe (s : State) (q : Nat) (v : WorkQueue) : (s.setQueue q v).fe = s.fe := rfl
@[simp] theorem setQueue_launches (s : State) (q : Nat) (v : WorkQueue) : (s.setQueue q v).launches = s.launches := rfl
@[simp] theorem setQueue_nextLaunch (s : State) (q : Nat) (v : WorkQueue) : (s.setQueue q v).nextLaunch = s.nextLaunch := rfl
@[simp] theorem setQueue_images (s : State) (q : Nat) (v : WorkQueue) : (s.setQueue q v).images = s.images := rfl
@[simp] theorem setQueue_heldMsgs (s : State) (q : Nat) (v : WorkQueue) : (s.setQueue q v).heldMsgs = s.heldMsgs := rfl
@[simp] theorem setQueue_net (s : State) (q : Nat) (v : WorkQueue) : (s.setQueue q v).net = s.net := rfl
@[simp] theorem setQueue_stqs (s : State) (q : Nat) (v : WorkQueue) : (s.setQueue q v).stqs = s.stqs := rfl
@[simp] theorem setQueue_saved (s : State) (q : Nat) (v : WorkQueue) : (s.setQueue q v).saved = s.saved := rfl
@[simp] theorem setQueue_futures (s : State) (q : Nat) (v : WorkQueue) : (s.setQueue q v).futures = s.futures := rfl
@[simp] theorem setQueue_tokens (s : State) (q : Nat) (v : WorkQueue) : (s.setQueue q v).tokens = s.tokens := rfl
@[simp] theorem setQueue_objects (s : State) (q : Nat) (v : WorkQueue) : (s.setQueue q v).objects = s.objects := rfl
@[simp] theorem setQueue_persistent (s : State) (q : Nat) (v : WorkQueue) : (s.setQueue q v).persistent = s.persistent := rfl
@[simp] theorem setQueue_directory (s : State) (q : Nat) (v : WorkQueue) : (s.setQueue q v).directory = s.directory := rfl
@[simp] theorem setQueue_modes (s : State) (q : Nat) (v : WorkQueue) : (s.setQueue q v).modes = s.modes := rfl
@[simp] theorem setQueue_invals (s : State) (q : Nat) (v : WorkQueue) : (s.setQueue q v).invals = s.invals := rfl
@[simp] theorem setQueue_nextInval (s : State) (q : Nat) (v : WorkQueue) : (s.setQueue q v).nextInval = s.nextInval := rfl
@[simp] theorem setQueue_hot (s : State) (q : Nat) (v : WorkQueue) : (s.setQueue q v).hot = s.hot := rfl
@[simp] theorem setQueue_halvings (s : State) (q : Nat) (v : WorkQueue) : (s.setQueue q v).halvings = s.halvings := rfl
@[simp] theorem setQueue_llc (s : State) (q : Nat) (v : WorkQueue) : (s.setQueue q v).llc = s.llc := rfl
@[simp] theorem setQueue_quantum (s : State) (q : Nat) (v : WorkQueue) : (s.setQueue q v).quantum = s.quantum := rfl
@[simp] theorem setQueue_hostFilter (s : State) (q : Nat) (v : WorkQueue) : (s.setQueue q v).hostFilter = s.hostFilter := rfl
@[simp] theorem setQueue_snoops (s : State) (q : Nat) (v : WorkQueue) : (s.setQueue q v).snoops = s.snoops := rfl
@[simp] theorem setQueue_resumes (s : State) (q : Nat) (v : WorkQueue) : (s.setQueue q v).resumes = s.resumes := rfl
@[simp] theorem setQueue_events (s : State) (q : Nat) (v : WorkQueue) : (s.setQueue q v).events = s.events := rfl
@[simp] theorem setQueue_nextEvent (s : State) (q : Nat) (v : WorkQueue) : (s.setQueue q v).nextEvent = s.nextEvent := rfl
@[simp] theorem setQueue_nodes (s : State) (q : Nat) (v : WorkQueue) : (s.setQueue q v).nodes = s.nodes := rfl
@[simp] theorem setQueue_nextRec (s : State) (q : Nat) (v : WorkQueue) : (s.setQueue q v).nextRec = s.nextRec := rfl
@[simp] theorem setQueue_msix (s : State) (q : Nat) (v : WorkQueue) : (s.setQueue q v).msix = s.msix := rfl
@[simp] theorem setQueue_attested (s : State) (q : Nat) (v : WorkQueue) : (s.setQueue q v).attested = s.attested := rfl
@[simp] theorem setQueue_elBase (s : State) (q : Nat) (v : WorkQueue) : (s.setQueue q v).elBase = s.elBase := rfl
@[simp] theorem setQueue_elEn (s : State) (q : Nat) (v : WorkQueue) : (s.setQueue q v).elEn = s.elEn := rfl
@[simp] theorem setQueue_elLogn (s : State) (q : Nat) (v : WorkQueue) : (s.setQueue q v).elLogn = s.elLogn := rfl
@[simp] theorem setQueue_elCtx (s : State) (q : Nat) (v : WorkQueue) : (s.setQueue q v).elCtx = s.elCtx := rfl
@[simp] theorem setQueue_elTail (s : State) (q : Nat) (v : WorkQueue) : (s.setQueue q v).elTail = s.elTail := rfl
@[simp] theorem setQueue_elHead (s : State) (q : Nat) (v : WorkQueue) : (s.setQueue q v).elHead = s.elHead := rfl
@[simp] theorem setQueue_elLost (s : State) (q : Nat) (v : WorkQueue) : (s.setQueue q v).elLost = s.elLost := rfl
@[simp] theorem setQueue_hirqElen (s : State) (q : Nat) (v : WorkQueue) : (s.setQueue q v).hirqElen = s.hirqElen := rfl
@[simp] theorem setQueue_ldReq (s : State) (q : Nat) (v : WorkQueue) : (s.setQueue q v).ldReq = s.ldReq := rfl
@[simp] theorem setQueue_ldBusy (s : State) (q : Nat) (v : WorkQueue) : (s.setQueue q v).ldBusy = s.ldBusy := rfl
@[simp] theorem setQueue_ldResult (s : State) (q : Nat) (v : WorkQueue) : (s.setQueue q v).ldResult = s.ldResult := rfl
@[simp] theorem setQueue_ldImage (s : State) (q : Nat) (v : WorkQueue) : (s.setQueue q v).ldImage = s.ldImage := rfl
@[simp] theorem setQueue_pkg (s : State) (q : Nat) (v : WorkQueue) : (s.setQueue q v).pkg = s.pkg := rfl
@[simp] theorem setQueue_govStep (s : State) (q : Nat) (v : WorkQueue) : (s.setQueue q v).govStep = s.govStep := rfl
@[simp] theorem setQueue_govCause (s : State) (q : Nat) (v : WorkQueue) : (s.setQueue q v).govCause = s.govCause := rfl
@[simp] theorem setQueue_govPwr (s : State) (q : Nat) (v : WorkQueue) : (s.setQueue q v).govPwr = s.govPwr := rfl
@[simp] theorem setQueue_govTj (s : State) (q : Nat) (v : WorkQueue) : (s.setQueue q v).govTj = s.govTj := rfl
@[simp] theorem setQueue_govCap (s : State) (q : Nat) (v : WorkQueue) : (s.setQueue q v).govCap = s.govCap := rfl
@[simp] theorem setQueue_dcap (s : State) (q : Nat) (v : WorkQueue) : (s.setQueue q v).dcap = s.dcap := rfl
@[simp] theorem setQueue_up (s : State) (q : Nat) (v : WorkQueue) : (s.setQueue q v).up = s.up := rfl
@[simp] theorem setQueue_flash (s : State) (q : Nat) (v : WorkQueue) : (s.setQueue q v).flash = s.flash := rfl
@[simp] theorem setQueue_rootDigest (s : State) (q : Nat) (v : WorkQueue) : (s.setQueue q v).rootDigest = s.rootDigest := rfl
@[simp] theorem setQueue_plimit (s : State) (q : Nat) (v : WorkQueue) : (s.setQueue q v).plimit = s.plimit := rfl
@[simp] theorem setQueue_links (s : State) (q : Nat) (v : WorkQueue) : (s.setQueue q v).links = s.links := rfl
@[simp] theorem setQueue_linkUp (s : State) (q : Nat) (v : WorkQueue) : (s.setQueue q v).linkUp = s.linkUp := rfl
@[simp] theorem setQueue_config (s : State) (q : Nat) (v : WorkQueue) : (s.setQueue q v).config = s.config := rfl
@[simp] theorem setQueue_modules (s : State) (q : Nat) (v : WorkQueue) : (s.setQueue q v).modules = s.modules := rfl
@[simp] theorem setQueue_replays (s : State) (q : Nat) (v : WorkQueue) : (s.setQueue q v).replays = s.replays := rfl

/-! ## setLaunch -/

@[simp] theorem setLaunch_actor (s : State) (n : Nat) (l : Launch) : (s.setLaunch n l).actor = s.actor := rfl
@[simp] theorem setLaunch_sched (s : State) (n : Nat) (l : Launch) : (s.setLaunch n l).sched = s.sched := rfl
@[simp] theorem setLaunch_free (s : State) (n : Nat) (l : Launch) : (s.setLaunch n l).free = s.free := rfl
@[simp] theorem setLaunch_clk (s : State) (n : Nat) (l : Launch) : (s.setLaunch n l).clk = s.clk := rfl
@[simp] theorem setLaunch_time (s : State) (n : Nat) (l : Launch) : (s.setLaunch n l).time = s.time := rfl
@[simp] theorem setLaunch_halted (s : State) (n : Nat) (l : Launch) : (s.setLaunch n l).halted = s.halted := rfl
@[simp] theorem setLaunch_mem (s : State) (n : Nat) (l : Launch) : (s.setLaunch n l).mem = s.mem := rfl
@[simp] theorem setLaunch_poison (s : State) (n : Nat) (l : Launch) : (s.setLaunch n l).poison = s.poison := rfl
@[simp] theorem setLaunch_strands (s : State) (n : Nat) (l : Launch) : (s.setLaunch n l).strands = s.strands := rfl
@[simp] theorem setLaunch_cores (s : State) (n : Nat) (l : Launch) : (s.setLaunch n l).cores = s.cores := rfl
@[simp] theorem setLaunch_waves (s : State) (n : Nat) (l : Launch) : (s.setLaunch n l).waves = s.waves := rfl
@[simp] theorem setLaunch_wengines (s : State) (n : Nat) (l : Launch) : (s.setLaunch n l).wengines = s.wengines := rfl
@[simp] theorem setLaunch_engines (s : State) (n : Nat) (l : Launch) : (s.setLaunch n l).engines = s.engines := rfl
@[simp] theorem setLaunch_clusters (s : State) (n : Nat) (l : Launch) : (s.setLaunch n l).clusters = s.clusters := rfl
@[simp] theorem setLaunch_queues (s : State) (n : Nat) (l : Launch) : (s.setLaunch n l).queues = s.queues := rfl
@[simp] theorem setLaunch_fe (s : State) (n : Nat) (l : Launch) : (s.setLaunch n l).fe = s.fe := rfl
@[simp] theorem setLaunch_nextLaunch (s : State) (n : Nat) (l : Launch) : (s.setLaunch n l).nextLaunch = s.nextLaunch := rfl
@[simp] theorem setLaunch_images (s : State) (n : Nat) (l : Launch) : (s.setLaunch n l).images = s.images := rfl
@[simp] theorem setLaunch_heldMsgs (s : State) (n : Nat) (l : Launch) : (s.setLaunch n l).heldMsgs = s.heldMsgs := rfl
@[simp] theorem setLaunch_net (s : State) (n : Nat) (l : Launch) : (s.setLaunch n l).net = s.net := rfl
@[simp] theorem setLaunch_stqs (s : State) (n : Nat) (l : Launch) : (s.setLaunch n l).stqs = s.stqs := rfl
@[simp] theorem setLaunch_saved (s : State) (n : Nat) (l : Launch) : (s.setLaunch n l).saved = s.saved := rfl
@[simp] theorem setLaunch_futures (s : State) (n : Nat) (l : Launch) : (s.setLaunch n l).futures = s.futures := rfl
@[simp] theorem setLaunch_tokens (s : State) (n : Nat) (l : Launch) : (s.setLaunch n l).tokens = s.tokens := rfl
@[simp] theorem setLaunch_objects (s : State) (n : Nat) (l : Launch) : (s.setLaunch n l).objects = s.objects := rfl
@[simp] theorem setLaunch_persistent (s : State) (n : Nat) (l : Launch) : (s.setLaunch n l).persistent = s.persistent := rfl
@[simp] theorem setLaunch_directory (s : State) (n : Nat) (l : Launch) : (s.setLaunch n l).directory = s.directory := rfl
@[simp] theorem setLaunch_modes (s : State) (n : Nat) (l : Launch) : (s.setLaunch n l).modes = s.modes := rfl
@[simp] theorem setLaunch_invals (s : State) (n : Nat) (l : Launch) : (s.setLaunch n l).invals = s.invals := rfl
@[simp] theorem setLaunch_nextInval (s : State) (n : Nat) (l : Launch) : (s.setLaunch n l).nextInval = s.nextInval := rfl
@[simp] theorem setLaunch_hot (s : State) (n : Nat) (l : Launch) : (s.setLaunch n l).hot = s.hot := rfl
@[simp] theorem setLaunch_halvings (s : State) (n : Nat) (l : Launch) : (s.setLaunch n l).halvings = s.halvings := rfl
@[simp] theorem setLaunch_llc (s : State) (n : Nat) (l : Launch) : (s.setLaunch n l).llc = s.llc := rfl
@[simp] theorem setLaunch_quantum (s : State) (n : Nat) (l : Launch) : (s.setLaunch n l).quantum = s.quantum := rfl
@[simp] theorem setLaunch_hostFilter (s : State) (n : Nat) (l : Launch) : (s.setLaunch n l).hostFilter = s.hostFilter := rfl
@[simp] theorem setLaunch_snoops (s : State) (n : Nat) (l : Launch) : (s.setLaunch n l).snoops = s.snoops := rfl
@[simp] theorem setLaunch_resumes (s : State) (n : Nat) (l : Launch) : (s.setLaunch n l).resumes = s.resumes := rfl
@[simp] theorem setLaunch_events (s : State) (n : Nat) (l : Launch) : (s.setLaunch n l).events = s.events := rfl
@[simp] theorem setLaunch_nextEvent (s : State) (n : Nat) (l : Launch) : (s.setLaunch n l).nextEvent = s.nextEvent := rfl
@[simp] theorem setLaunch_nodes (s : State) (n : Nat) (l : Launch) : (s.setLaunch n l).nodes = s.nodes := rfl
@[simp] theorem setLaunch_nextRec (s : State) (n : Nat) (l : Launch) : (s.setLaunch n l).nextRec = s.nextRec := rfl
@[simp] theorem setLaunch_msix (s : State) (n : Nat) (l : Launch) : (s.setLaunch n l).msix = s.msix := rfl
@[simp] theorem setLaunch_attested (s : State) (n : Nat) (l : Launch) : (s.setLaunch n l).attested = s.attested := rfl
@[simp] theorem setLaunch_elBase (s : State) (n : Nat) (l : Launch) : (s.setLaunch n l).elBase = s.elBase := rfl
@[simp] theorem setLaunch_elEn (s : State) (n : Nat) (l : Launch) : (s.setLaunch n l).elEn = s.elEn := rfl
@[simp] theorem setLaunch_elLogn (s : State) (n : Nat) (l : Launch) : (s.setLaunch n l).elLogn = s.elLogn := rfl
@[simp] theorem setLaunch_elCtx (s : State) (n : Nat) (l : Launch) : (s.setLaunch n l).elCtx = s.elCtx := rfl
@[simp] theorem setLaunch_elTail (s : State) (n : Nat) (l : Launch) : (s.setLaunch n l).elTail = s.elTail := rfl
@[simp] theorem setLaunch_elHead (s : State) (n : Nat) (l : Launch) : (s.setLaunch n l).elHead = s.elHead := rfl
@[simp] theorem setLaunch_elLost (s : State) (n : Nat) (l : Launch) : (s.setLaunch n l).elLost = s.elLost := rfl
@[simp] theorem setLaunch_hirqElen (s : State) (n : Nat) (l : Launch) : (s.setLaunch n l).hirqElen = s.hirqElen := rfl
@[simp] theorem setLaunch_ldReq (s : State) (n : Nat) (l : Launch) : (s.setLaunch n l).ldReq = s.ldReq := rfl
@[simp] theorem setLaunch_ldBusy (s : State) (n : Nat) (l : Launch) : (s.setLaunch n l).ldBusy = s.ldBusy := rfl
@[simp] theorem setLaunch_ldResult (s : State) (n : Nat) (l : Launch) : (s.setLaunch n l).ldResult = s.ldResult := rfl
@[simp] theorem setLaunch_ldImage (s : State) (n : Nat) (l : Launch) : (s.setLaunch n l).ldImage = s.ldImage := rfl
@[simp] theorem setLaunch_pkg (s : State) (n : Nat) (l : Launch) : (s.setLaunch n l).pkg = s.pkg := rfl
@[simp] theorem setLaunch_govStep (s : State) (n : Nat) (l : Launch) : (s.setLaunch n l).govStep = s.govStep := rfl
@[simp] theorem setLaunch_govCause (s : State) (n : Nat) (l : Launch) : (s.setLaunch n l).govCause = s.govCause := rfl
@[simp] theorem setLaunch_govPwr (s : State) (n : Nat) (l : Launch) : (s.setLaunch n l).govPwr = s.govPwr := rfl
@[simp] theorem setLaunch_govTj (s : State) (n : Nat) (l : Launch) : (s.setLaunch n l).govTj = s.govTj := rfl
@[simp] theorem setLaunch_govCap (s : State) (n : Nat) (l : Launch) : (s.setLaunch n l).govCap = s.govCap := rfl
@[simp] theorem setLaunch_dcap (s : State) (n : Nat) (l : Launch) : (s.setLaunch n l).dcap = s.dcap := rfl
@[simp] theorem setLaunch_up (s : State) (n : Nat) (l : Launch) : (s.setLaunch n l).up = s.up := rfl
@[simp] theorem setLaunch_flash (s : State) (n : Nat) (l : Launch) : (s.setLaunch n l).flash = s.flash := rfl
@[simp] theorem setLaunch_rootDigest (s : State) (n : Nat) (l : Launch) : (s.setLaunch n l).rootDigest = s.rootDigest := rfl
@[simp] theorem setLaunch_plimit (s : State) (n : Nat) (l : Launch) : (s.setLaunch n l).plimit = s.plimit := rfl
@[simp] theorem setLaunch_links (s : State) (n : Nat) (l : Launch) : (s.setLaunch n l).links = s.links := rfl
@[simp] theorem setLaunch_linkUp (s : State) (n : Nat) (l : Launch) : (s.setLaunch n l).linkUp = s.linkUp := rfl
@[simp] theorem setLaunch_config (s : State) (n : Nat) (l : Launch) : (s.setLaunch n l).config = s.config := rfl
@[simp] theorem setLaunch_modules (s : State) (n : Nat) (l : Launch) : (s.setLaunch n l).modules = s.modules := rfl
@[simp] theorem setLaunch_replays (s : State) (n : Nat) (l : Launch) : (s.setLaunch n l).replays = s.replays := rfl

/-! ## poke -/

@[simp] theorem poke_actor (s : State) (a : Nat) (l : List Byte) : (s.poke a l).actor = s.actor := rfl
@[simp] theorem poke_sched (s : State) (a : Nat) (l : List Byte) : (s.poke a l).sched = s.sched := rfl
@[simp] theorem poke_free (s : State) (a : Nat) (l : List Byte) : (s.poke a l).free = s.free := rfl
@[simp] theorem poke_clk (s : State) (a : Nat) (l : List Byte) : (s.poke a l).clk = s.clk := rfl
@[simp] theorem poke_time (s : State) (a : Nat) (l : List Byte) : (s.poke a l).time = s.time := rfl
@[simp] theorem poke_halted (s : State) (a : Nat) (l : List Byte) : (s.poke a l).halted = s.halted := rfl
@[simp] theorem poke_strands (s : State) (a : Nat) (l : List Byte) : (s.poke a l).strands = s.strands := rfl
@[simp] theorem poke_cores (s : State) (a : Nat) (l : List Byte) : (s.poke a l).cores = s.cores := rfl
@[simp] theorem poke_waves (s : State) (a : Nat) (l : List Byte) : (s.poke a l).waves = s.waves := rfl
@[simp] theorem poke_wengines (s : State) (a : Nat) (l : List Byte) : (s.poke a l).wengines = s.wengines := rfl
@[simp] theorem poke_engines (s : State) (a : Nat) (l : List Byte) : (s.poke a l).engines = s.engines := rfl
@[simp] theorem poke_clusters (s : State) (a : Nat) (l : List Byte) : (s.poke a l).clusters = s.clusters := rfl
@[simp] theorem poke_queues (s : State) (a : Nat) (l : List Byte) : (s.poke a l).queues = s.queues := rfl
@[simp] theorem poke_fe (s : State) (a : Nat) (l : List Byte) : (s.poke a l).fe = s.fe := rfl
@[simp] theorem poke_launches (s : State) (a : Nat) (l : List Byte) : (s.poke a l).launches = s.launches := rfl
@[simp] theorem poke_nextLaunch (s : State) (a : Nat) (l : List Byte) : (s.poke a l).nextLaunch = s.nextLaunch := rfl
@[simp] theorem poke_images (s : State) (a : Nat) (l : List Byte) : (s.poke a l).images = s.images := rfl
@[simp] theorem poke_heldMsgs (s : State) (a : Nat) (l : List Byte) : (s.poke a l).heldMsgs = s.heldMsgs := rfl
@[simp] theorem poke_net (s : State) (a : Nat) (l : List Byte) : (s.poke a l).net = s.net := rfl
@[simp] theorem poke_stqs (s : State) (a : Nat) (l : List Byte) : (s.poke a l).stqs = s.stqs := rfl
@[simp] theorem poke_saved (s : State) (a : Nat) (l : List Byte) : (s.poke a l).saved = s.saved := rfl
@[simp] theorem poke_futures (s : State) (a : Nat) (l : List Byte) : (s.poke a l).futures = s.futures := rfl
@[simp] theorem poke_tokens (s : State) (a : Nat) (l : List Byte) : (s.poke a l).tokens = s.tokens := rfl
@[simp] theorem poke_objects (s : State) (a : Nat) (l : List Byte) : (s.poke a l).objects = s.objects := rfl
@[simp] theorem poke_persistent (s : State) (a : Nat) (l : List Byte) : (s.poke a l).persistent = s.persistent := rfl
@[simp] theorem poke_directory (s : State) (a : Nat) (l : List Byte) : (s.poke a l).directory = s.directory := rfl
@[simp] theorem poke_modes (s : State) (a : Nat) (l : List Byte) : (s.poke a l).modes = s.modes := rfl
@[simp] theorem poke_invals (s : State) (a : Nat) (l : List Byte) : (s.poke a l).invals = s.invals := rfl
@[simp] theorem poke_nextInval (s : State) (a : Nat) (l : List Byte) : (s.poke a l).nextInval = s.nextInval := rfl
@[simp] theorem poke_hot (s : State) (a : Nat) (l : List Byte) : (s.poke a l).hot = s.hot := rfl
@[simp] theorem poke_halvings (s : State) (a : Nat) (l : List Byte) : (s.poke a l).halvings = s.halvings := rfl
@[simp] theorem poke_llc (s : State) (a : Nat) (l : List Byte) : (s.poke a l).llc = s.llc := rfl
@[simp] theorem poke_quantum (s : State) (a : Nat) (l : List Byte) : (s.poke a l).quantum = s.quantum := rfl
@[simp] theorem poke_hostFilter (s : State) (a : Nat) (l : List Byte) : (s.poke a l).hostFilter = s.hostFilter := rfl
@[simp] theorem poke_snoops (s : State) (a : Nat) (l : List Byte) : (s.poke a l).snoops = s.snoops := rfl
@[simp] theorem poke_resumes (s : State) (a : Nat) (l : List Byte) : (s.poke a l).resumes = s.resumes := rfl
@[simp] theorem poke_events (s : State) (a : Nat) (l : List Byte) : (s.poke a l).events = s.events := rfl
@[simp] theorem poke_nextEvent (s : State) (a : Nat) (l : List Byte) : (s.poke a l).nextEvent = s.nextEvent := rfl
@[simp] theorem poke_nodes (s : State) (a : Nat) (l : List Byte) : (s.poke a l).nodes = s.nodes := rfl
@[simp] theorem poke_nextRec (s : State) (a : Nat) (l : List Byte) : (s.poke a l).nextRec = s.nextRec := rfl
@[simp] theorem poke_msix (s : State) (a : Nat) (l : List Byte) : (s.poke a l).msix = s.msix := rfl
@[simp] theorem poke_attested (s : State) (a : Nat) (l : List Byte) : (s.poke a l).attested = s.attested := rfl
@[simp] theorem poke_elBase (s : State) (a : Nat) (l : List Byte) : (s.poke a l).elBase = s.elBase := rfl
@[simp] theorem poke_elEn (s : State) (a : Nat) (l : List Byte) : (s.poke a l).elEn = s.elEn := rfl
@[simp] theorem poke_elLogn (s : State) (a : Nat) (l : List Byte) : (s.poke a l).elLogn = s.elLogn := rfl
@[simp] theorem poke_elCtx (s : State) (a : Nat) (l : List Byte) : (s.poke a l).elCtx = s.elCtx := rfl
@[simp] theorem poke_elTail (s : State) (a : Nat) (l : List Byte) : (s.poke a l).elTail = s.elTail := rfl
@[simp] theorem poke_elHead (s : State) (a : Nat) (l : List Byte) : (s.poke a l).elHead = s.elHead := rfl
@[simp] theorem poke_elLost (s : State) (a : Nat) (l : List Byte) : (s.poke a l).elLost = s.elLost := rfl
@[simp] theorem poke_hirqElen (s : State) (a : Nat) (l : List Byte) : (s.poke a l).hirqElen = s.hirqElen := rfl
@[simp] theorem poke_ldReq (s : State) (a : Nat) (l : List Byte) : (s.poke a l).ldReq = s.ldReq := rfl
@[simp] theorem poke_ldBusy (s : State) (a : Nat) (l : List Byte) : (s.poke a l).ldBusy = s.ldBusy := rfl
@[simp] theorem poke_ldResult (s : State) (a : Nat) (l : List Byte) : (s.poke a l).ldResult = s.ldResult := rfl
@[simp] theorem poke_ldImage (s : State) (a : Nat) (l : List Byte) : (s.poke a l).ldImage = s.ldImage := rfl
@[simp] theorem poke_pkg (s : State) (a : Nat) (l : List Byte) : (s.poke a l).pkg = s.pkg := rfl
@[simp] theorem poke_govStep (s : State) (a : Nat) (l : List Byte) : (s.poke a l).govStep = s.govStep := rfl
@[simp] theorem poke_govCause (s : State) (a : Nat) (l : List Byte) : (s.poke a l).govCause = s.govCause := rfl
@[simp] theorem poke_govPwr (s : State) (a : Nat) (l : List Byte) : (s.poke a l).govPwr = s.govPwr := rfl
@[simp] theorem poke_govTj (s : State) (a : Nat) (l : List Byte) : (s.poke a l).govTj = s.govTj := rfl
@[simp] theorem poke_govCap (s : State) (a : Nat) (l : List Byte) : (s.poke a l).govCap = s.govCap := rfl
@[simp] theorem poke_dcap (s : State) (a : Nat) (l : List Byte) : (s.poke a l).dcap = s.dcap := rfl
@[simp] theorem poke_up (s : State) (a : Nat) (l : List Byte) : (s.poke a l).up = s.up := rfl
@[simp] theorem poke_flash (s : State) (a : Nat) (l : List Byte) : (s.poke a l).flash = s.flash := rfl
@[simp] theorem poke_rootDigest (s : State) (a : Nat) (l : List Byte) : (s.poke a l).rootDigest = s.rootDigest := rfl
@[simp] theorem poke_plimit (s : State) (a : Nat) (l : List Byte) : (s.poke a l).plimit = s.plimit := rfl
@[simp] theorem poke_links (s : State) (a : Nat) (l : List Byte) : (s.poke a l).links = s.links := rfl
@[simp] theorem poke_linkUp (s : State) (a : Nat) (l : List Byte) : (s.poke a l).linkUp = s.linkUp := rfl
@[simp] theorem poke_config (s : State) (a : Nat) (l : List Byte) : (s.poke a l).config = s.config := rfl
@[simp] theorem poke_modules (s : State) (a : Nat) (l : List Byte) : (s.poke a l).modules = s.modules := rfl
@[simp] theorem poke_replays (s : State) (a : Nat) (l : List Byte) : (s.poke a l).replays = s.replays := rfl

/-! ## zero -/

@[simp] theorem zero_actor (s : State) (lo hi : Nat) : (s.zero lo hi).actor = s.actor := rfl
@[simp] theorem zero_sched (s : State) (lo hi : Nat) : (s.zero lo hi).sched = s.sched := rfl
@[simp] theorem zero_free (s : State) (lo hi : Nat) : (s.zero lo hi).free = s.free := rfl
@[simp] theorem zero_clk (s : State) (lo hi : Nat) : (s.zero lo hi).clk = s.clk := rfl
@[simp] theorem zero_time (s : State) (lo hi : Nat) : (s.zero lo hi).time = s.time := rfl
@[simp] theorem zero_halted (s : State) (lo hi : Nat) : (s.zero lo hi).halted = s.halted := rfl
@[simp] theorem zero_strands (s : State) (lo hi : Nat) : (s.zero lo hi).strands = s.strands := rfl
@[simp] theorem zero_cores (s : State) (lo hi : Nat) : (s.zero lo hi).cores = s.cores := rfl
@[simp] theorem zero_waves (s : State) (lo hi : Nat) : (s.zero lo hi).waves = s.waves := rfl
@[simp] theorem zero_wengines (s : State) (lo hi : Nat) : (s.zero lo hi).wengines = s.wengines := rfl
@[simp] theorem zero_engines (s : State) (lo hi : Nat) : (s.zero lo hi).engines = s.engines := rfl
@[simp] theorem zero_clusters (s : State) (lo hi : Nat) : (s.zero lo hi).clusters = s.clusters := rfl
@[simp] theorem zero_queues (s : State) (lo hi : Nat) : (s.zero lo hi).queues = s.queues := rfl
@[simp] theorem zero_fe (s : State) (lo hi : Nat) : (s.zero lo hi).fe = s.fe := rfl
@[simp] theorem zero_launches (s : State) (lo hi : Nat) : (s.zero lo hi).launches = s.launches := rfl
@[simp] theorem zero_nextLaunch (s : State) (lo hi : Nat) : (s.zero lo hi).nextLaunch = s.nextLaunch := rfl
@[simp] theorem zero_images (s : State) (lo hi : Nat) : (s.zero lo hi).images = s.images := rfl
@[simp] theorem zero_heldMsgs (s : State) (lo hi : Nat) : (s.zero lo hi).heldMsgs = s.heldMsgs := rfl
@[simp] theorem zero_net (s : State) (lo hi : Nat) : (s.zero lo hi).net = s.net := rfl
@[simp] theorem zero_stqs (s : State) (lo hi : Nat) : (s.zero lo hi).stqs = s.stqs := rfl
@[simp] theorem zero_saved (s : State) (lo hi : Nat) : (s.zero lo hi).saved = s.saved := rfl
@[simp] theorem zero_futures (s : State) (lo hi : Nat) : (s.zero lo hi).futures = s.futures := rfl
@[simp] theorem zero_tokens (s : State) (lo hi : Nat) : (s.zero lo hi).tokens = s.tokens := rfl
@[simp] theorem zero_objects (s : State) (lo hi : Nat) : (s.zero lo hi).objects = s.objects := rfl
@[simp] theorem zero_persistent (s : State) (lo hi : Nat) : (s.zero lo hi).persistent = s.persistent := rfl
@[simp] theorem zero_directory (s : State) (lo hi : Nat) : (s.zero lo hi).directory = s.directory := rfl
@[simp] theorem zero_modes (s : State) (lo hi : Nat) : (s.zero lo hi).modes = s.modes := rfl
@[simp] theorem zero_invals (s : State) (lo hi : Nat) : (s.zero lo hi).invals = s.invals := rfl
@[simp] theorem zero_nextInval (s : State) (lo hi : Nat) : (s.zero lo hi).nextInval = s.nextInval := rfl
@[simp] theorem zero_hot (s : State) (lo hi : Nat) : (s.zero lo hi).hot = s.hot := rfl
@[simp] theorem zero_halvings (s : State) (lo hi : Nat) : (s.zero lo hi).halvings = s.halvings := rfl
@[simp] theorem zero_llc (s : State) (lo hi : Nat) : (s.zero lo hi).llc = s.llc := rfl
@[simp] theorem zero_quantum (s : State) (lo hi : Nat) : (s.zero lo hi).quantum = s.quantum := rfl
@[simp] theorem zero_hostFilter (s : State) (lo hi : Nat) : (s.zero lo hi).hostFilter = s.hostFilter := rfl
@[simp] theorem zero_snoops (s : State) (lo hi : Nat) : (s.zero lo hi).snoops = s.snoops := rfl
@[simp] theorem zero_resumes (s : State) (lo hi : Nat) : (s.zero lo hi).resumes = s.resumes := rfl
@[simp] theorem zero_events (s : State) (lo hi : Nat) : (s.zero lo hi).events = s.events := rfl
@[simp] theorem zero_nextEvent (s : State) (lo hi : Nat) : (s.zero lo hi).nextEvent = s.nextEvent := rfl
@[simp] theorem zero_nodes (s : State) (lo hi : Nat) : (s.zero lo hi).nodes = s.nodes := rfl
@[simp] theorem zero_nextRec (s : State) (lo hi : Nat) : (s.zero lo hi).nextRec = s.nextRec := rfl
@[simp] theorem zero_msix (s : State) (lo hi : Nat) : (s.zero lo hi).msix = s.msix := rfl
@[simp] theorem zero_attested (s : State) (lo hi : Nat) : (s.zero lo hi).attested = s.attested := rfl
@[simp] theorem zero_elBase (s : State) (lo hi : Nat) : (s.zero lo hi).elBase = s.elBase := rfl
@[simp] theorem zero_elEn (s : State) (lo hi : Nat) : (s.zero lo hi).elEn = s.elEn := rfl
@[simp] theorem zero_elLogn (s : State) (lo hi : Nat) : (s.zero lo hi).elLogn = s.elLogn := rfl
@[simp] theorem zero_elCtx (s : State) (lo hi : Nat) : (s.zero lo hi).elCtx = s.elCtx := rfl
@[simp] theorem zero_elTail (s : State) (lo hi : Nat) : (s.zero lo hi).elTail = s.elTail := rfl
@[simp] theorem zero_elHead (s : State) (lo hi : Nat) : (s.zero lo hi).elHead = s.elHead := rfl
@[simp] theorem zero_elLost (s : State) (lo hi : Nat) : (s.zero lo hi).elLost = s.elLost := rfl
@[simp] theorem zero_hirqElen (s : State) (lo hi : Nat) : (s.zero lo hi).hirqElen = s.hirqElen := rfl
@[simp] theorem zero_ldReq (s : State) (lo hi : Nat) : (s.zero lo hi).ldReq = s.ldReq := rfl
@[simp] theorem zero_ldBusy (s : State) (lo hi : Nat) : (s.zero lo hi).ldBusy = s.ldBusy := rfl
@[simp] theorem zero_ldResult (s : State) (lo hi : Nat) : (s.zero lo hi).ldResult = s.ldResult := rfl
@[simp] theorem zero_ldImage (s : State) (lo hi : Nat) : (s.zero lo hi).ldImage = s.ldImage := rfl
@[simp] theorem zero_pkg (s : State) (lo hi : Nat) : (s.zero lo hi).pkg = s.pkg := rfl
@[simp] theorem zero_govStep (s : State) (lo hi : Nat) : (s.zero lo hi).govStep = s.govStep := rfl
@[simp] theorem zero_govCause (s : State) (lo hi : Nat) : (s.zero lo hi).govCause = s.govCause := rfl
@[simp] theorem zero_govPwr (s : State) (lo hi : Nat) : (s.zero lo hi).govPwr = s.govPwr := rfl
@[simp] theorem zero_govTj (s : State) (lo hi : Nat) : (s.zero lo hi).govTj = s.govTj := rfl
@[simp] theorem zero_govCap (s : State) (lo hi : Nat) : (s.zero lo hi).govCap = s.govCap := rfl
@[simp] theorem zero_dcap (s : State) (lo hi : Nat) : (s.zero lo hi).dcap = s.dcap := rfl
@[simp] theorem zero_up (s : State) (lo hi : Nat) : (s.zero lo hi).up = s.up := rfl
@[simp] theorem zero_flash (s : State) (lo hi : Nat) : (s.zero lo hi).flash = s.flash := rfl
@[simp] theorem zero_rootDigest (s : State) (lo hi : Nat) : (s.zero lo hi).rootDigest = s.rootDigest := rfl
@[simp] theorem zero_plimit (s : State) (lo hi : Nat) : (s.zero lo hi).plimit = s.plimit := rfl
@[simp] theorem zero_links (s : State) (lo hi : Nat) : (s.zero lo hi).links = s.links := rfl
@[simp] theorem zero_linkUp (s : State) (lo hi : Nat) : (s.zero lo hi).linkUp = s.linkUp := rfl
@[simp] theorem zero_config (s : State) (lo hi : Nat) : (s.zero lo hi).config = s.config := rfl
@[simp] theorem zero_modules (s : State) (lo hi : Nat) : (s.zero lo hi).modules = s.modules := rfl
@[simp] theorem zero_replays (s : State) (lo hi : Nat) : (s.zero lo hi).replays = s.replays := rfl

/-! ## Units after a write -/

@[simp] theorem cluster_setCluster (s : State) (k : Nat) (v : Cluster) : (s.setCluster k v).cluster k = v := by
  simp [setCluster, cluster]

theorem cluster_setCluster_ne (s : State) {j k : Nat} (v : Cluster) (h : j ≠ k) : (s.setCluster k v).cluster j = s.cluster j := by
  simp [setCluster, cluster, Map.getD_put_ne _ _ _ h]

@[simp] theorem setCluster_setCluster (s : State) (k : Nat) (v w : Cluster) : (s.setCluster k v).setCluster k w = s.setCluster k w := by
  simp [setCluster]

@[simp] theorem core_setCluster (s : State) (k j : Nat) (v : Cluster) : (s.setCluster k v).core j = s.core j := rfl
@[simp] theorem wave_setCluster (s : State) (k j : Nat) (v : Cluster) : (s.setCluster k v).wave j = s.wave j := rfl
@[simp] theorem wengine_setCluster (s : State) (k j : Nat) (v : Cluster) : (s.setCluster k v).wengine j = s.wengine j := rfl
@[simp] theorem engine_setCluster (s : State) (k j : Nat) (v : Cluster) : (s.setCluster k v).engine j = s.engine j := rfl
@[simp] theorem queue_setCluster (s : State) (k j : Nat) (v : Cluster) : (s.setCluster k v).queue j = s.queue j := rfl

@[simp] theorem core_setCore (s : State) (k : Nat) (v : Core) : (s.setCore k v).core k = v := by
  simp [setCore, core]

theorem core_setCore_ne (s : State) {j k : Nat} (v : Core) (h : j ≠ k) : (s.setCore k v).core j = s.core j := by
  simp [setCore, core, Map.getD_put_ne _ _ _ h]

@[simp] theorem setCore_setCore (s : State) (k : Nat) (v w : Core) : (s.setCore k v).setCore k w = s.setCore k w := by
  simp [setCore]

@[simp] theorem cluster_setCore (s : State) (k j : Nat) (v : Core) : (s.setCore k v).cluster j = s.cluster j := rfl
@[simp] theorem wave_setCore (s : State) (k j : Nat) (v : Core) : (s.setCore k v).wave j = s.wave j := rfl
@[simp] theorem wengine_setCore (s : State) (k j : Nat) (v : Core) : (s.setCore k v).wengine j = s.wengine j := rfl
@[simp] theorem engine_setCore (s : State) (k j : Nat) (v : Core) : (s.setCore k v).engine j = s.engine j := rfl
@[simp] theorem queue_setCore (s : State) (k j : Nat) (v : Core) : (s.setCore k v).queue j = s.queue j := rfl

@[simp] theorem wave_setWave (s : State) (k : Nat) (v : Wave) : (s.setWave k v).wave k = v := by
  simp [setWave, wave]

theorem wave_setWave_ne (s : State) {j k : Nat} (v : Wave) (h : j ≠ k) : (s.setWave k v).wave j = s.wave j := by
  simp [setWave, wave, Map.getD_put_ne _ _ _ h]

@[simp] theorem setWave_setWave (s : State) (k : Nat) (v w : Wave) : (s.setWave k v).setWave k w = s.setWave k w := by
  simp [setWave]

@[simp] theorem cluster_setWave (s : State) (k j : Nat) (v : Wave) : (s.setWave k v).cluster j = s.cluster j := rfl
@[simp] theorem core_setWave (s : State) (k j : Nat) (v : Wave) : (s.setWave k v).core j = s.core j := rfl
@[simp] theorem wengine_setWave (s : State) (k j : Nat) (v : Wave) : (s.setWave k v).wengine j = s.wengine j := rfl
@[simp] theorem engine_setWave (s : State) (k j : Nat) (v : Wave) : (s.setWave k v).engine j = s.engine j := rfl
@[simp] theorem queue_setWave (s : State) (k j : Nat) (v : Wave) : (s.setWave k v).queue j = s.queue j := rfl

@[simp] theorem wengine_setWengine (s : State) (k : Nat) (v : WaveEngine) : (s.setWengine k v).wengine k = v := by
  simp [setWengine, wengine]

theorem wengine_setWengine_ne (s : State) {j k : Nat} (v : WaveEngine) (h : j ≠ k) : (s.setWengine k v).wengine j = s.wengine j := by
  simp [setWengine, wengine, Map.getD_put_ne _ _ _ h]

@[simp] theorem setWengine_setWengine (s : State) (k : Nat) (v w : WaveEngine) : (s.setWengine k v).setWengine k w = s.setWengine k w := by
  simp [setWengine]

@[simp] theorem cluster_setWengine (s : State) (k j : Nat) (v : WaveEngine) : (s.setWengine k v).cluster j = s.cluster j := rfl
@[simp] theorem core_setWengine (s : State) (k j : Nat) (v : WaveEngine) : (s.setWengine k v).core j = s.core j := rfl
@[simp] theorem wave_setWengine (s : State) (k j : Nat) (v : WaveEngine) : (s.setWengine k v).wave j = s.wave j := rfl
@[simp] theorem engine_setWengine (s : State) (k j : Nat) (v : WaveEngine) : (s.setWengine k v).engine j = s.engine j := rfl
@[simp] theorem queue_setWengine (s : State) (k j : Nat) (v : WaveEngine) : (s.setWengine k v).queue j = s.queue j := rfl

@[simp] theorem engine_setEngine (s : State) (k : Nat) (v : Engine) : (s.setEngine k v).engine k = v := by
  simp [setEngine, engine]

theorem engine_setEngine_ne (s : State) {j k : Nat} (v : Engine) (h : j ≠ k) : (s.setEngine k v).engine j = s.engine j := by
  simp [setEngine, engine, Map.getD_put_ne _ _ _ h]

@[simp] theorem setEngine_setEngine (s : State) (k : Nat) (v w : Engine) : (s.setEngine k v).setEngine k w = s.setEngine k w := by
  simp [setEngine]

@[simp] theorem cluster_setEngine (s : State) (k j : Nat) (v : Engine) : (s.setEngine k v).cluster j = s.cluster j := rfl
@[simp] theorem core_setEngine (s : State) (k j : Nat) (v : Engine) : (s.setEngine k v).core j = s.core j := rfl
@[simp] theorem wave_setEngine (s : State) (k j : Nat) (v : Engine) : (s.setEngine k v).wave j = s.wave j := rfl
@[simp] theorem wengine_setEngine (s : State) (k j : Nat) (v : Engine) : (s.setEngine k v).wengine j = s.wengine j := rfl
@[simp] theorem queue_setEngine (s : State) (k j : Nat) (v : Engine) : (s.setEngine k v).queue j = s.queue j := rfl

@[simp] theorem queue_setQueue (s : State) (k : Nat) (v : WorkQueue) : (s.setQueue k v).queue k = v := by
  simp [setQueue, queue]

theorem queue_setQueue_ne (s : State) {j k : Nat} (v : WorkQueue) (h : j ≠ k) : (s.setQueue k v).queue j = s.queue j := by
  simp [setQueue, queue, Map.getD_put_ne _ _ _ h]

@[simp] theorem setQueue_setQueue (s : State) (k : Nat) (v w : WorkQueue) : (s.setQueue k v).setQueue k w = s.setQueue k w := by
  simp [setQueue]

@[simp] theorem cluster_setQueue (s : State) (k j : Nat) (v : WorkQueue) : (s.setQueue k v).cluster j = s.cluster j := rfl
@[simp] theorem core_setQueue (s : State) (k j : Nat) (v : WorkQueue) : (s.setQueue k v).core j = s.core j := rfl
@[simp] theorem wave_setQueue (s : State) (k j : Nat) (v : WorkQueue) : (s.setQueue k v).wave j = s.wave j := rfl
@[simp] theorem wengine_setQueue (s : State) (k j : Nat) (v : WorkQueue) : (s.setQueue k v).wengine j = s.wengine j := rfl
@[simp] theorem engine_setQueue (s : State) (k j : Nat) (v : WorkQueue) : (s.setQueue k v).engine j = s.engine j := rfl

end Sys2Proof.Machine.State
end

