-- ==== Sys2Proof/Laws/Hart.lean ====
section
/-! SUPPORT. Harts in State: what a write of a hart leaves of every other field, what a hart reads after a write of it or of
another hart, and the fields of a hart after a write of a register. -/

namespace Sys2Proof.Machine.State

@[simp] theorem setHart_actor (s : State) (h : HartId) (v : Hart) : (s.setHart h v).actor = s.actor := by cases h <;> rfl
@[simp] theorem setHart_sched (s : State) (h : HartId) (v : Hart) : (s.setHart h v).sched = s.sched := by cases h <;> rfl
@[simp] theorem setHart_free (s : State) (h : HartId) (v : Hart) : (s.setHart h v).free = s.free := by cases h <;> rfl
@[simp] theorem setHart_clk (s : State) (h : HartId) (v : Hart) : (s.setHart h v).clk = s.clk := by cases h <;> rfl
@[simp] theorem setHart_time (s : State) (h : HartId) (v : Hart) : (s.setHart h v).time = s.time := by cases h <;> rfl
@[simp] theorem setHart_halted (s : State) (h : HartId) (v : Hart) : (s.setHart h v).halted = s.halted := by cases h <;> rfl
@[simp] theorem setHart_mem (s : State) (h : HartId) (v : Hart) : (s.setHart h v).mem = s.mem := by cases h <;> rfl
@[simp] theorem setHart_poison (s : State) (h : HartId) (v : Hart) : (s.setHart h v).poison = s.poison := by cases h <;> rfl
@[simp] theorem setHart_cores (s : State) (h : HartId) (v : Hart) : (s.setHart h v).cores = s.cores := by cases h <;> rfl
@[simp] theorem setHart_wengines (s : State) (h : HartId) (v : Hart) : (s.setHart h v).wengines = s.wengines := by cases h <;> rfl
@[simp] theorem setHart_clusters (s : State) (h : HartId) (v : Hart) : (s.setHart h v).clusters = s.clusters := by cases h <;> rfl
@[simp] theorem setHart_queues (s : State) (h : HartId) (v : Hart) : (s.setHart h v).queues = s.queues := by cases h <;> rfl
@[simp] theorem setHart_fe (s : State) (h : HartId) (v : Hart) : (s.setHart h v).fe = s.fe := by cases h <;> rfl
@[simp] theorem setHart_launches (s : State) (h : HartId) (v : Hart) : (s.setHart h v).launches = s.launches := by cases h <;> rfl
@[simp] theorem setHart_nextLaunch (s : State) (h : HartId) (v : Hart) : (s.setHart h v).nextLaunch = s.nextLaunch := by cases h <;> rfl
@[simp] theorem setHart_images (s : State) (h : HartId) (v : Hart) : (s.setHart h v).images = s.images := by cases h <;> rfl
@[simp] theorem setHart_heldMsgs (s : State) (h : HartId) (v : Hart) : (s.setHart h v).heldMsgs = s.heldMsgs := by cases h <;> rfl
@[simp] theorem setHart_net (s : State) (h : HartId) (v : Hart) : (s.setHart h v).net = s.net := by cases h <;> rfl
@[simp] theorem setHart_stqs (s : State) (h : HartId) (v : Hart) : (s.setHart h v).stqs = s.stqs := by cases h <;> rfl
@[simp] theorem setHart_saved (s : State) (h : HartId) (v : Hart) : (s.setHart h v).saved = s.saved := by cases h <;> rfl
@[simp] theorem setHart_futures (s : State) (h : HartId) (v : Hart) : (s.setHart h v).futures = s.futures := by cases h <;> rfl
@[simp] theorem setHart_tokens (s : State) (h : HartId) (v : Hart) : (s.setHart h v).tokens = s.tokens := by cases h <;> rfl
@[simp] theorem setHart_objects (s : State) (h : HartId) (v : Hart) : (s.setHart h v).objects = s.objects := by cases h <;> rfl
@[simp] theorem setHart_persistent (s : State) (h : HartId) (v : Hart) : (s.setHart h v).persistent = s.persistent := by cases h <;> rfl
@[simp] theorem setHart_directory (s : State) (h : HartId) (v : Hart) : (s.setHart h v).directory = s.directory := by cases h <;> rfl
@[simp] theorem setHart_modes (s : State) (h : HartId) (v : Hart) : (s.setHart h v).modes = s.modes := by cases h <;> rfl
@[simp] theorem setHart_invals (s : State) (h : HartId) (v : Hart) : (s.setHart h v).invals = s.invals := by cases h <;> rfl
@[simp] theorem setHart_nextInval (s : State) (h : HartId) (v : Hart) : (s.setHart h v).nextInval = s.nextInval := by cases h <;> rfl
@[simp] theorem setHart_hot (s : State) (h : HartId) (v : Hart) : (s.setHart h v).hot = s.hot := by cases h <;> rfl
@[simp] theorem setHart_halvings (s : State) (h : HartId) (v : Hart) : (s.setHart h v).halvings = s.halvings := by cases h <;> rfl
@[simp] theorem setHart_llc (s : State) (h : HartId) (v : Hart) : (s.setHart h v).llc = s.llc := by cases h <;> rfl
@[simp] theorem setHart_quantum (s : State) (h : HartId) (v : Hart) : (s.setHart h v).quantum = s.quantum := by cases h <;> rfl
@[simp] theorem setHart_hostFilter (s : State) (h : HartId) (v : Hart) : (s.setHart h v).hostFilter = s.hostFilter := by cases h <;> rfl
@[simp] theorem setHart_snoops (s : State) (h : HartId) (v : Hart) : (s.setHart h v).snoops = s.snoops := by cases h <;> rfl
@[simp] theorem setHart_resumes (s : State) (h : HartId) (v : Hart) : (s.setHart h v).resumes = s.resumes := by cases h <;> rfl
@[simp] theorem setHart_events (s : State) (h : HartId) (v : Hart) : (s.setHart h v).events = s.events := by cases h <;> rfl
@[simp] theorem setHart_nextEvent (s : State) (h : HartId) (v : Hart) : (s.setHart h v).nextEvent = s.nextEvent := by cases h <;> rfl
@[simp] theorem setHart_nodes (s : State) (h : HartId) (v : Hart) : (s.setHart h v).nodes = s.nodes := by cases h <;> rfl
@[simp] theorem setHart_nextRec (s : State) (h : HartId) (v : Hart) : (s.setHart h v).nextRec = s.nextRec := by cases h <;> rfl
@[simp] theorem setHart_msix (s : State) (h : HartId) (v : Hart) : (s.setHart h v).msix = s.msix := by cases h <;> rfl
@[simp] theorem setHart_attested (s : State) (h : HartId) (v : Hart) : (s.setHart h v).attested = s.attested := by cases h <;> rfl
@[simp] theorem setHart_elBase (s : State) (h : HartId) (v : Hart) : (s.setHart h v).elBase = s.elBase := by cases h <;> rfl
@[simp] theorem setHart_elEn (s : State) (h : HartId) (v : Hart) : (s.setHart h v).elEn = s.elEn := by cases h <;> rfl
@[simp] theorem setHart_elLogn (s : State) (h : HartId) (v : Hart) : (s.setHart h v).elLogn = s.elLogn := by cases h <;> rfl
@[simp] theorem setHart_elCtx (s : State) (h : HartId) (v : Hart) : (s.setHart h v).elCtx = s.elCtx := by cases h <;> rfl
@[simp] theorem setHart_elTail (s : State) (h : HartId) (v : Hart) : (s.setHart h v).elTail = s.elTail := by cases h <;> rfl
@[simp] theorem setHart_elHead (s : State) (h : HartId) (v : Hart) : (s.setHart h v).elHead = s.elHead := by cases h <;> rfl
@[simp] theorem setHart_elLost (s : State) (h : HartId) (v : Hart) : (s.setHart h v).elLost = s.elLost := by cases h <;> rfl
@[simp] theorem setHart_hirqElen (s : State) (h : HartId) (v : Hart) : (s.setHart h v).hirqElen = s.hirqElen := by cases h <;> rfl
@[simp] theorem setHart_ldReq (s : State) (h : HartId) (v : Hart) : (s.setHart h v).ldReq = s.ldReq := by cases h <;> rfl
@[simp] theorem setHart_ldBusy (s : State) (h : HartId) (v : Hart) : (s.setHart h v).ldBusy = s.ldBusy := by cases h <;> rfl
@[simp] theorem setHart_ldResult (s : State) (h : HartId) (v : Hart) : (s.setHart h v).ldResult = s.ldResult := by cases h <;> rfl
@[simp] theorem setHart_ldImage (s : State) (h : HartId) (v : Hart) : (s.setHart h v).ldImage = s.ldImage := by cases h <;> rfl
@[simp] theorem setHart_pkg (s : State) (h : HartId) (v : Hart) : (s.setHart h v).pkg = s.pkg := by cases h <;> rfl
@[simp] theorem setHart_govStep (s : State) (h : HartId) (v : Hart) : (s.setHart h v).govStep = s.govStep := by cases h <;> rfl
@[simp] theorem setHart_govCause (s : State) (h : HartId) (v : Hart) : (s.setHart h v).govCause = s.govCause := by cases h <;> rfl
@[simp] theorem setHart_govPwr (s : State) (h : HartId) (v : Hart) : (s.setHart h v).govPwr = s.govPwr := by cases h <;> rfl
@[simp] theorem setHart_govTj (s : State) (h : HartId) (v : Hart) : (s.setHart h v).govTj = s.govTj := by cases h <;> rfl
@[simp] theorem setHart_govCap (s : State) (h : HartId) (v : Hart) : (s.setHart h v).govCap = s.govCap := by cases h <;> rfl
@[simp] theorem setHart_dcap (s : State) (h : HartId) (v : Hart) : (s.setHart h v).dcap = s.dcap := by cases h <;> rfl
@[simp] theorem setHart_up (s : State) (h : HartId) (v : Hart) : (s.setHart h v).up = s.up := by cases h <;> rfl
@[simp] theorem setHart_flash (s : State) (h : HartId) (v : Hart) : (s.setHart h v).flash = s.flash := by cases h <;> rfl
@[simp] theorem setHart_rootDigest (s : State) (h : HartId) (v : Hart) : (s.setHart h v).rootDigest = s.rootDigest := by cases h <;> rfl
@[simp] theorem setHart_plimit (s : State) (h : HartId) (v : Hart) : (s.setHart h v).plimit = s.plimit := by cases h <;> rfl
@[simp] theorem setHart_links (s : State) (h : HartId) (v : Hart) : (s.setHart h v).links = s.links := by cases h <;> rfl
@[simp] theorem setHart_linkUp (s : State) (h : HartId) (v : Hart) : (s.setHart h v).linkUp = s.linkUp := by cases h <;> rfl
@[simp] theorem setHart_config (s : State) (h : HartId) (v : Hart) : (s.setHart h v).config = s.config := by cases h <;> rfl
@[simp] theorem setHart_modules (s : State) (h : HartId) (v : Hart) : (s.setHart h v).modules = s.modules := by cases h <;> rfl
@[simp] theorem setHart_replays (s : State) (h : HartId) (v : Hart) : (s.setHart h v).replays = s.replays := by cases h <;> rfl

@[simp] theorem hart_setHart (s : State) (h : HartId) (v : Hart) : (s.setHart h v).hart h = v := by
  cases h <;> simp [setHart, hart]

theorem hart_setHart_ne (s : State) {g h : HartId} (v : Hart) (hne : g ≠ h) : (s.setHart h v).hart g = s.hart g := by
  cases h with
  | strand k =>
    cases g with
    | strand j => simp [setHart, hart, Map.getD_put_ne _ _ _ (fun e => hne (congrArg _ e))]
    | uniform j => rfl
    | engine j => rfl
  | uniform k =>
    cases g with
    | strand j => rfl
    | uniform j => simp [setHart, hart, wave_setWave_ne s _ (fun e => hne (congrArg _ e))]
    | engine j => rfl
  | engine k =>
    cases g with
    | strand j => rfl
    | uniform j => rfl
    | engine j => simp [setHart, hart, engine_setEngine_ne s _ (fun e => hne (congrArg _ e))]

@[simp] theorem setHart_setHart (s : State) (h : HartId) (v w : Hart) : (s.setHart h v).setHart h w = s.setHart h w := by
  cases h <;> simp [setHart]

@[simp] theorem cluster_setHart (s : State) (h : HartId) (v : Hart) (c : Nat) : (s.setHart h v).cluster c = s.cluster c := by
  cases h <;> rfl

@[simp] theorem core_setHart (s : State) (h : HartId) (v : Hart) (k : Nat) : (s.setHart h v).core k = s.core k := by
  cases h <;> rfl

@[simp] theorem wengine_setHart (s : State) (h : HartId) (v : Hart) (k : Nat) : (s.setHart h v).wengine k = s.wengine k := by
  cases h <;> rfl

@[simp] theorem crewOf_setHart (s : State) (h : HartId) (v : Hart) (r : CrewRef) : (s.setHart h v).crewOf r = s.crewOf r := by
  simp [crewOf]

@[simp] theorem hart_setCluster (s : State) (c : Nat) (v : Cluster) (h : HartId) : (s.setCluster c v).hart h = s.hart h := by
  cases h <;> rfl

@[simp] theorem hart_setCore (s : State) (k : Nat) (v : Core) (h : HartId) : (s.setCore k v).hart h = s.hart h := by
  cases h <;> rfl

@[simp] theorem hart_setWengine (s : State) (k : Nat) (v : WaveEngine) (h : HartId) : (s.setWengine k v).hart h = s.hart h := by
  cases h <;> rfl

/-- A hart reads the same in states that agree on the units. -/
theorem hart_congr {s t : State} (hs : t.strands = s.strands) (hw : t.waves = s.waves) (he : t.engines = s.engines) (h : HartId) :
    t.hart h = s.hart h := by
  cases h <;> simp [hart, wave, engine, hs, hw, he]

@[simp] theorem hart_drawNat (s : State) (n : Nat) (h : HartId) : (s.drawNat n).2.hart h = s.hart h := by cases h <;> rfl

@[simp] theorem hart_drawDword (s : State) (h : HartId) : s.drawDword.2.hart h = s.hart h := by cases h <;> rfl

@[simp] theorem drawNat_setHart (s : State) (n : Nat) (h : HartId) (v : Hart) :
    (s.setHart h v).drawNat n = ((s.drawNat n).1, (s.drawNat n).2.setHart h v) := by cases h <;> rfl

@[simp] theorem drawDword_setHart (s : State) (h : HartId) (v : Hart) :
    (s.setHart h v).drawDword = (s.drawDword.1, s.drawDword.2.setHart h v) := by cases h <;> rfl

@[simp] theorem hart_poke (s : State) (a : Nat) (l : List Byte) (h : HartId) : (s.poke a l).hart h = s.hart h := by
  cases h <;> rfl

@[simp] theorem crewOf_poke (s : State) (a : Nat) (l : List Byte) (r : CrewRef) : (s.poke a l).crewOf r = s.crewOf r := rfl

/-! ## Writes of harts and of other units commute -/

@[simp] theorem setCluster_setHart (s : State) (h : HartId) (v : Hart) (c : Nat) (x : Cluster) : (s.setHart h v).setCluster c x = (s.setCluster c x).setHart h v := by
  cases h <;> rfl
@[simp] theorem setCore_setHart (s : State) (h : HartId) (v : Hart) (c : Nat) (x : Core) : (s.setHart h v).setCore c x = (s.setCore c x).setHart h v := by
  cases h <;> rfl
@[simp] theorem setWengine_setHart (s : State) (h : HartId) (v : Hart) (c : Nat) (x : WaveEngine) : (s.setHart h v).setWengine c x = (s.setWengine c x).setHart h v := by
  cases h <;> rfl

end Sys2Proof.Machine.State

namespace Sys2Proof.Machine.Hart

/-! ## Registers -/

@[simp] theorem rx_zero (h : Hart) : h.rx 0#5 = 0#64 := rfl

@[simp] theorem wx_zero (h : Hart) (v : Dword) : h.wx 0#5 v = h := rfl

theorem rx_wx_self (h : Hart) {r : Reg} (v : Dword) (hr : r ≠ 0) : (h.wx r v).rx r = v := by
  have hlt : r.toNat < 32 := r.isLt
  simp only [rx, wx, if_neg hr]
  simp [hlt]

theorem rx_wx_ne (h : Hart) {q r : Reg} (v : Dword) (hne : q ≠ r) : (h.wx r v).rx q = h.rx q := by
  have hq : q.toNat < 32 := q.isLt
  have hn : r.toNat ≠ q.toNat := fun e => hne (BitVec.eq_of_toNat_eq e.symm)
  simp only [rx, wx]
  by_cases hr : r = 0
  · simp [hr]
  · by_cases h0 : q = 0
    · simp [h0]
    · simp only [if_neg hr, if_neg h0]
      simp [hq, hn]

@[simp] theorem wx_pc (h : Hart) (r : Reg) (v : Dword) : (h.wx r v).pc = h.pc := by
  simp only [wx]; split <;> rfl
@[simp] theorem wx_f (h : Hart) (r : Reg) (v : Dword) : (h.wx r v).f = h.f := by
  simp only [wx]; split <;> rfl
@[simp] theorem wx_fcsr (h : Hart) (r : Reg) (v : Dword) : (h.wx r v).fcsr = h.fcsr := by
  simp only [wx]; split <;> rfl
@[simp] theorem wx_mb (h : Hart) (r : Reg) (v : Dword) : (h.wx r v).mb = h.mb := by
  simp only [wx]; split <;> rfl
@[simp] theorem wx_mbFull (h : Hart) (r : Reg) (v : Dword) : (h.wx r v).mbFull = h.mbFull := by
  simp only [wx]; split <;> rfl
@[simp] theorem wx_mbOvr (h : Hart) (r : Reg) (v : Dword) : (h.wx r v).mbOvr = h.mbOvr := by
  simp only [wx]; split <;> rfl
@[simp] theorem wx_deps (h : Hart) (r : Reg) (v : Dword) : (h.wx r v).deps = h.deps := by
  simp only [wx]; split <;> rfl
@[simp] theorem wx_priv (h : Hart) (r : Reg) (v : Dword) : (h.wx r v).priv = h.priv := by
  simp only [wx]; split <;> rfl
@[simp] theorem wx_sstatus (h : Hart) (r : Reg) (v : Dword) : (h.wx r v).sstatus = h.sstatus := by
  simp only [wx]; split <;> rfl
@[simp] theorem wx_stvec (h : Hart) (r : Reg) (v : Dword) : (h.wx r v).stvec = h.stvec := by
  simp only [wx]; split <;> rfl
@[simp] theorem wx_sscratch (h : Hart) (r : Reg) (v : Dword) : (h.wx r v).sscratch = h.sscratch := by
  simp only [wx]; split <;> rfl
@[simp] theorem wx_sepc (h : Hart) (r : Reg) (v : Dword) : (h.wx r v).sepc = h.sepc := by
  simp only [wx]; split <;> rfl
@[simp] theorem wx_scause (h : Hart) (r : Reg) (v : Dword) : (h.wx r v).scause = h.scause := by
  simp only [wx]; split <;> rfl
@[simp] theorem wx_stval (h : Hart) (r : Reg) (v : Dword) : (h.wx r v).stval = h.stval := by
  simp only [wx]; split <;> rfl
@[simp] theorem wx_sie (h : Hart) (r : Reg) (v : Dword) : (h.wx r v).sie = h.sie := by
  simp only [wx]; split <;> rfl
@[simp] theorem wx_ssip (h : Hart) (r : Reg) (v : Dword) : (h.wx r v).ssip = h.ssip := by
  simp only [wx]; split <;> rfl
@[simp] theorem wx_scounteren (h : Hart) (r : Reg) (v : Dword) : (h.wx r v).scounteren = h.scounteren := by
  simp only [wx]; split <;> rfl
@[simp] theorem wx_dcrew (h : Hart) (r : Reg) (v : Dword) : (h.wx r v).dcrew = h.dcrew := by
  simp only [wx]; split <;> rfl
@[simp] theorem wx_dcause (h : Hart) (r : Reg) (v : Dword) : (h.wx r v).dcause = h.dcause := by
  simp only [wx]; split <;> rfl
@[simp] theorem wx_tn (h : Hart) (r : Reg) (v : Dword) : (h.wx r v).tn = h.tn := by
  simp only [wx]; split <;> rfl
@[simp] theorem wx_hm (h : Hart) (r : Reg) (v : Dword) : (h.wx r v).hm = h.hm := by
  simp only [wx]; split <;> rfl
@[simp] theorem wx_dptb (h : Hart) (r : Reg) (v : Dword) : (h.wx r v).dptb = h.dptb := by
  simp only [wx]; split <;> rfl
@[simp] theorem wx_dtimecmp (h : Hart) (r : Reg) (v : Dword) : (h.wx r v).dtimecmp = h.dtimecmp := by
  simp only [wx]; split <;> rfl
@[simp] theorem wx_instret (h : Hart) (r : Reg) (v : Dword) : (h.wx r v).instret = h.instret := by
  simp only [wx]; split <;> rfl
@[simp] theorem wx_resv (h : Hart) (r : Reg) (v : Dword) : (h.wx r v).resv = h.resv := by
  simp only [wx]; split <;> rfl
@[simp] theorem wx_run (h : Hart) (r : Reg) (v : Dword) : (h.wx r v).run = h.run := by
  simp only [wx]; split <;> rfl
@[simp] theorem wx_granted (h : Hart) (r : Reg) (v : Dword) : (h.wx r v).granted = h.granted := by
  simp only [wx]; split <;> rfl
@[simp] theorem wx_crew (h : Hart) (r : Reg) (v : Dword) : (h.wx r v).crew = h.crew := by
  simp only [wx]; split <;> rfl
@[simp] theorem wx_launch (h : Hart) (r : Reg) (v : Dword) : (h.wx r v).launch = h.launch := by
  simp only [wx]; split <;> rfl
@[simp] theorem wx_rank (h : Hart) (r : Reg) (v : Dword) : (h.wx r v).rank = h.rank := by
  simp only [wx]; split <;> rfl
@[simp] theorem wx_stack (h : Hart) (r : Reg) (v : Dword) : (h.wx r v).stack = h.stack := by
  simp only [wx]; split <;> rfl
@[simp] theorem wx_bound (h : Hart) (r : Reg) (v : Dword) : (h.wx r v).bound = h.bound := by
  simp only [wx]; split <;> rfl
@[simp] theorem wx_join (h : Hart) (r : Reg) (v : Dword) : (h.wx r v).join = h.join := by
  simp only [wx]; split <;> rfl
@[simp] theorem wx_duty (h : Hart) (r : Reg) (v : Dword) : (h.wx r v).duty = h.duty := by
  simp only [wx]; split <;> rfl
@[simp] theorem wx_gfx (h : Hart) (r : Reg) (v : Dword) : (h.wx r v).gfx = h.gfx := by
  simp only [wx]; split <;> rfl
@[simp] theorem wx_handler (h : Hart) (r : Reg) (v : Dword) : (h.wx r v).handler = h.handler := by
  simp only [wx]; split <;> rfl
@[simp] theorem wx_handlerQueue (h : Hart) (r : Reg) (v : Dword) : (h.wx r v).handlerQueue = h.handlerQueue := by
  simp only [wx]; split <;> rfl
@[simp] theorem wx_inbox (h : Hart) (r : Reg) (v : Dword) : (h.wx r v).inbox = h.inbox := by
  simp only [wx]; split <;> rfl
@[simp] theorem wx_overflow (h : Hart) (r : Reg) (v : Dword) : (h.wx r v).overflow = h.overflow := by
  simp only [wx]; split <;> rfl
@[simp] theorem wx_kicks (h : Hart) (r : Reg) (v : Dword) : (h.wx r v).kicks = h.kicks := by
  simp only [wx]; split <;> rfl

end Sys2Proof.Machine.Hart
end

