-- ==== Sys2Proof/Laws/Tokens.lean ====
section
/-! SUPPORT. What moving tokens, performing pending updates and entering a send queue leave of the harts: everything but a
reservation (R17, R304, R311). -/

namespace Sys2Proof.Machine

/-- Every hart, wave and engine of `t` is that of `s` but for the reservation of its hart. -/
structure LikeHarts (s t : State) : Prop where
  strand : ∀ k, ∃ v, t.strands.getD k {} = { s.strands.getD k {} with resv := v }
  wave : ∀ k, ∃ v, t.wave k = { s.wave k with hart := { (s.wave k).hart with resv := v } }
  engine : ∀ k, ∃ v, t.engine k = { s.engine k with hart := { (s.engine k).hart with resv := v } }

namespace LikeHarts

theorem refl (s : State) : LikeHarts s s := ⟨fun _ => ⟨_, rfl⟩, fun _ => ⟨_, rfl⟩, fun _ => ⟨_, rfl⟩⟩

theorem trans {s t u : State} (h1 : LikeHarts s t) (h2 : LikeHarts t u) : LikeHarts s u := by
  refine ⟨fun k => ?_, fun k => ?_, fun k => ?_⟩
  · obtain ⟨v, hv⟩ := h1.strand k
    obtain ⟨w, hw⟩ := h2.strand k
    exact ⟨w, by rw [hw, hv]⟩
  · obtain ⟨v, hv⟩ := h1.wave k
    obtain ⟨w, hw⟩ := h2.wave k
    exact ⟨w, by rw [hw, hv]⟩
  · obtain ⟨v, hv⟩ := h1.engine k
    obtain ⟨w, hw⟩ := h2.engine k
    exact ⟨w, by rw [hw, hv]⟩

theorem hart {s t : State} (h : LikeHarts s t) (g : HartId) : ∃ v, t.hart g = { s.hart g with resv := v } := by
  cases g with
  | strand k => exact h.strand k
  | uniform k =>
    obtain ⟨v, hv⟩ := h.wave k
    exact ⟨v, by simp only [State.hart, hv]⟩
  | engine k =>
    obtain ⟨v, hv⟩ := h.engine k
    exact ⟨v, by simp only [State.hart, hv]⟩

/-- States with the same units have the same harts. -/
theorem of_units {s t : State} (hs : t.strands = s.strands) (hw : t.waves = s.waves) (he : t.engines = s.engines) : LikeHarts s t :=
  ⟨fun k => ⟨(s.strands.getD k {}).resv, by rw [hs]⟩, fun k => ⟨(s.wave k).hart.resv, by simp only [State.wave, hw]⟩,
    fun k => ⟨(s.engine k).hart.resv, by simp only [State.engine, he]⟩⟩

theorem handler {s t : State} (h : LikeHarts s t) (g : HartId) : (t.hart g).handler = (s.hart g).handler := by
  obtain ⟨v, hv⟩ := h.hart g; rw [hv]
theorem pc {s t : State} (h : LikeHarts s t) (g : HartId) : (t.hart g).pc = (s.hart g).pc := by
  obtain ⟨v, hv⟩ := h.hart g; rw [hv]
theorem x {s t : State} (h : LikeHarts s t) (g : HartId) : (t.hart g).x = (s.hart g).x := by
  obtain ⟨v, hv⟩ := h.hart g; rw [hv]

end LikeHarts

theorem find_map_value {α : Type} (m : Map α) (f : Nat → α → α) (k : Nat) :
    Map.find (m.map fun e => (e.1, f e.1 e.2)) k = (Map.find m k).map (f k) := by
  induction m with
  | nil => rfl
  | cons e t ih =>
    obtain ⟨j, w⟩ := e
    simp only [List.map_cons, Map.find]
    split
    · rename_i h; subst h; rfl
    · exact ih

theorem Hart.dropResv_like (r : Hart) (hit : Reservation → Bool) : ∃ v, r.dropResv hit = { r with resv := v } := by
  simp only [Hart.dropResv]
  split
  · split
    · exact ⟨none, rfl⟩
    · exact ⟨r.resv, rfl⟩
  · exact ⟨r.resv, rfl⟩

theorem like_dropResvs (s : State) (c : Nat) (g : Option HartId) (hit : Reservation → Bool) : LikeHarts s (s.dropResvs c g hit) := by
  refine ⟨fun k => ?_, fun k => ?_, fun k => ?_⟩
  · have e := find_map_value s.strands (fun i r => if i / 512 = c ∧ g ≠ some (.strand i) then r.dropResv hit else r) k
    have e' : (s.dropResvs c g hit).strands = s.strands.map fun e => (e.1, if e.1 / 512 = c ∧ g ≠ some (.strand e.1) then e.2.dropResv hit else e.2) := by
      simp only [State.dropResvs]
      congr 1; funext e; split <;> rfl
    simp only [Map.getD, e']
    rw [e]
    cases Map.find s.strands k with
    | none => exact ⟨none, rfl⟩
    | some r =>
      simp only [Option.map_some, Option.getD_some]
      split
      · exact r.dropResv_like hit
      · exact ⟨r.resv, rfl⟩
  · have e := find_map_value s.waves (fun i w => if i / 128 = c ∧ g ≠ some (.uniform i) then { w with hart := w.hart.dropResv hit } else w) k
    have e' : (s.dropResvs c g hit).waves = s.waves.map fun e => (e.1, if e.1 / 128 = c ∧ g ≠ some (.uniform e.1) then { e.2 with hart := e.2.hart.dropResv hit } else e.2) := by
      simp only [State.dropResvs]
      congr 1; funext e; split <;> rfl
    simp only [State.wave, Map.getD, e']
    rw [e]
    cases Map.find s.waves k with
    | none => exact ⟨none, rfl⟩
    | some r =>
      simp only [Option.map_some, Option.getD_some]
      split
      · obtain ⟨v, hv⟩ := r.hart.dropResv_like hit
        exact ⟨v, by rw [hv]⟩
      · exact ⟨r.hart.resv, rfl⟩
  · have e := find_map_value s.engines (fun i w => if i / 7 = c ∧ g ≠ some (.engine i) then { w with hart := w.hart.dropResv hit } else w) k
    have e' : (s.dropResvs c g hit).engines = s.engines.map fun e => (e.1, if e.1 / 7 = c ∧ g ≠ some (.engine e.1) then { e.2 with hart := e.2.hart.dropResv hit } else e.2) := by
      simp only [State.dropResvs]
      congr 1; funext e; split <;> rfl
    simp only [State.engine, Map.getD, e']
    rw [e]
    cases Map.find s.engines k with
    | none => exact ⟨none, rfl⟩
    | some r =>
      simp only [Option.map_some, Option.getD_some]
      split
      · obtain ⟨v, hv⟩ := r.hart.dropResv_like hit
        exact ⟨v, by rw [hv]⟩
      · exact ⟨r.hart.resv, rfl⟩

theorem like_loseOthers (l : List (Nat × Nat)) (s : State) (c g : Nat) : LikeHarts s (s.loseOthers c g l) := by
  induction l generalizing s with
  | nil => exact .refl s
  | cons e t ih =>
    simp only [State.loseOthers]
    split
    · exact ih s
    · exact (like_dropResvs ..).trans (ih _)

theorem like_transfer (s : State) (pa : Nat) : LikeHarts s (s.transfer pa) := by
  apply LikeHarts.of_units <;>
    (simp only [State.transfer, State.halveHot]; repeat' split) <;> rfl

theorem like_llcTouch (s : State) (l : Nat) : LikeHarts s (s.llcTouch l) := by
  simp only [State.llcTouch]
  split
  · exact .refl s
  · exact (LikeHarts.of_units (by rfl) (by rfl) (by rfl)).trans (like_transfer ..)

theorem like_tokenHome (s : State) (l : Nat) : LikeHarts s (s.tokenHome l) :=
  (like_loseOthers ..).trans (.of_units (by rfl) (by rfl) (by rfl))

theorem like_tokenRead (s : State) (c l : Nat) : LikeHarts s (s.tokenRead c l) := by
  simp only [State.tokenRead]
  split
  · exact .refl s
  · exact ((like_loseOthers ..).trans (.of_units (by rfl) (by rfl) (by rfl))).trans (like_llcTouch ..)

theorem like_tokenWrite (s : State) (c l : Nat) : LikeHarts s (s.tokenWrite c l) := by
  simp only [State.tokenWrite]
  split
  · exact .of_units (by rfl) (by rfl) (by rfl)
  · split
    · exact ((like_loseOthers ..).trans (.of_units (by rfl) (by rfl) (by rfl))).trans (like_llcTouch ..)
    · exact (like_loseOthers ..).trans (.of_units (by rfl) (by rfl) (by rfl))

theorem like_poke (s : State) (a : Nat) (l : List Byte) : LikeHarts s (s.poke a l) := .of_units (by rfl) (by rfl) (by rfl)

theorem like_perform (s : State) (q : QUpdate) : LikeHarts s (s.perform q) := by
  simp only [State.perform]
  split
  · exact (like_tokenHome ..).trans (like_poke ..)
  · exact .refl s

theorem like_performs (l : List QUpdate) (s : State) : LikeHarts s (l.foldl State.perform s) := by
  induction l generalizing s with
  | nil => exact .refl s
  | cons a t ih => exact (like_perform s a).trans (ih _)

theorem like_performAll (s : State) (due : QUpdate → Bool) : LikeHarts s (s.performAll due) := by
  simp only [State.performAll]
  split
  · exact .refl s
  · exact (like_performs ..).trans (.of_units (by rfl) (by rfl) (by rfl))

theorem like_releaseUnit (s : State) (u : UnitId) (n : Nat) : LikeHarts s (s.releaseUnit u n) := like_performAll ..

theorem hart_setSendq (s : State) (q : Nat) (m : Map SendEntry) (h : HartId) : (s.setSendq q m).hart h = s.hart h := by
  simp only [State.setSendq]
  split
  · exact State.hart_setCore ..
  · split
    · exact State.hart_setWengine ..
    · cases h with
      | strand k => rfl
      | uniform k => rfl
      | engine k =>
        simp only [State.hart]
        by_cases e : k = q - 16384
        · rw [e, State.engine_setEngine]
        · rw [State.engine_setEngine_ne _ _ e]

@[simp] theorem hart_pushSend (s : State) (q : Nat) (e : SendEntry) (h : HartId) : (s.pushSend q e).hart h = s.hart h := hart_setSendq ..

theorem like_logError (s : State) (code detail kind unit cluster addr queue record crew : Nat) :
    LikeHarts s (s.logError code detail kind unit cluster addr queue record crew) := by
  have key : ∀ u : State, LikeHarts s u →
      LikeHarts s (if kind = 7 then { u with msix := 0 :: u.msix } else if u.hirqElen then { u with msix := 1 :: u.msix } else u) := by
    intro u hu
    split
    · exact hu.trans (.of_units (by rfl) (by rfl) (by rfl))
    · split
      · exact hu.trans (.of_units (by rfl) (by rfl) (by rfl))
      · exact hu
  refine key _ ?_
  split
  · refine LikeHarts.trans (like_tokenHome s ((s.elBase + 32 * (s.elTail % 2 ^ s.elLogn)) / 256)) ?_
    exact .of_units (by rfl) (by rfl) (by rfl)
  · exact .of_units (by rfl) (by rfl) (by rfl)

theorem like_lapseDeferred (s : State) (ref : CrewRef) (gone : Deferred → Bool) : LikeHarts s (s.lapseDeferred ref gone) := by
  have logs : ∀ (l : List (Nat × Deferred)) (u : State), LikeHarts u (l.foldl (fun (s : State) (e : Nat × Deferred) => s.logDeferred ref e.2) u) := by
    intro l
    induction l with
    | nil => intro u; exact .refl u
    | cons e t ih => intro u; exact LikeHarts.trans (t := u.logDeferred ref e.2) (by unfold State.logDeferred; exact like_logError ..) (ih _)
  simp only [State.lapseDeferred]
  split
  · split
    · exact (logs _ s).trans (.of_units (by rfl) (by rfl) (by rfl))
    · exact .refl s
  · exact .refl s

theorem like_lapseSender (s : State) (h : HartId) : LikeHarts s (s.lapseSender h) := by
  simp only [State.lapseSender]
  split
  · exact like_lapseDeferred ..
  · exact .refl s

/-- `t` is `s` but for reservations, tokens, the LLC and the hotness counters: what moving a line leaves. -/
structure Moved (s t : State) : Prop where
  rest : t = { s with
    strands := t.strands
    waves := t.waves
    engines := t.engines
    tokens := t.tokens
    llc := t.llc
    hot := t.hot
    halvings := t.halvings }
  harts : LikeHarts s t

namespace Moved

theorem refl (s : State) : Moved s s := ⟨rfl, .refl s⟩
theorem trans {s t u : State} (h1 : Moved s t) (h2 : Moved t u) : Moved s u := ⟨by rw [h2.rest, h1.rest], h1.harts.trans h2.harts⟩
theorem of (s t : State) (h : t = { s with
    tokens := t.tokens
    llc := t.llc
    hot := t.hot
    halvings := t.halvings }) : Moved s t :=
  ⟨by rw [h], .of_units (by rw [h]) (by rw [h]) (by rw [h])⟩

theorem mem {s t : State} (h : Moved s t) : t.mem = s.mem := by rw [h.rest]
theorem poison {s t : State} (h : Moved s t) : t.poison = s.poison := by rw [h.rest]
theorem hostFilter {s t : State} (h : Moved s t) : t.hostFilter = s.hostFilter := by rw [h.rest]
theorem quantum {s t : State} (h : Moved s t) : t.quantum = s.quantum := by rw [h.rest]

end Moved

theorem moved_dropResvs (s : State) (c : Nat) (g : Option HartId) (hit : Reservation → Bool) : Moved s (s.dropResvs c g hit) :=
  ⟨rfl, like_dropResvs ..⟩

theorem moved_transfer (s : State) (pa : Nat) : Moved s (s.transfer pa) := by
  apply Moved.of
  simp only [State.transfer, State.halveHot]
  repeat' split
  all_goals rfl

theorem moved_llcTouch (s : State) (l : Nat) : Moved s (s.llcTouch l) := by
  simp only [State.llcTouch]
  split
  · exact .refl s
  · exact (Moved.of s { s with llc := insertNat s.llc l } rfl).trans (moved_transfer _ _)

theorem moved_setTok (s : State) (g : Nat) (t : Tokens) : Moved s (s.setTok g t) := .of _ _ rfl

theorem moved_loseOthers (l : List (Nat × Nat)) (s : State) (c g : Nat) : Moved s (s.loseOthers c g l) := by
  induction l generalizing s with
  | nil => exact .refl s
  | cons e t ih =>
    simp only [State.loseOthers]
    refine Moved.trans ?_ (ih _)
    split
    · exact .refl s
    · exact moved_dropResvs ..

theorem moved_tokenRead (s : State) (c l : Nat) : Moved s (s.tokenRead c l) := by
  simp only [State.tokenRead]
  split
  · exact .refl s
  · exact ((moved_loseOthers _ s _ _).trans (moved_setTok _ _ _)).trans (moved_llcTouch _ _)

theorem moved_tokenWrite (s : State) (c l : Nat) : Moved s (s.tokenWrite c l) := by
  simp only [State.tokenWrite]
  split
  · exact moved_setTok ..
  · split
    · exact ((moved_loseOthers _ s _ _).trans (moved_setTok _ _ _)).trans (moved_llcTouch _ _)
    · exact (moved_loseOthers _ s _ _).trans (moved_setTok _ _ _)

theorem moved_tokenHome (s : State) (l : Nat) : Moved s (s.tokenHome l) := by
  simp only [State.tokenHome]
  exact (moved_loseOthers _ s _ _).trans (moved_setTok _ _ _)

end Sys2Proof.Machine
end

