-- ==== Sys2Proof/Laws/Access.lean ====
section
/-! SUPPORT. Accesses that reach their bytes through a TLB entry: how they resolve, and what a read and a write of them do. -/

namespace Sys2Proof.Machine

open Sys2Proof.Claim

theorem transfer_mem (s : State) (pa : Nat) : (s.transfer pa).mem = s.mem := by
  simp only [State.transfer, State.halveHot]; repeat' split
  all_goals rfl
theorem llcTouch_mem (s : State) (l : Nat) : (s.llcTouch l).mem = s.mem := by
  simp only [State.llcTouch]; split
  · rfl
  · exact transfer_mem ..
theorem loseOthers_mem (l : List (Nat × Nat)) (s : State) (c g : Nat) : (s.loseOthers c g l).mem = s.mem := by
  induction l generalizing s with
  | nil => rfl
  | cons e t ih => simp only [State.loseOthers]; rw [ih]; split <;> rfl
theorem setTok_mem (s : State) (g : Nat) (t : Tokens) : (s.setTok g t).mem = s.mem := rfl
theorem tokenRead_mem (s : State) (c l : Nat) : (s.tokenRead c l).mem = s.mem := by
  simp only [State.tokenRead]; split
  · rfl
  · rw [llcTouch_mem, setTok_mem, loseOthers_mem]
theorem tokenWrite_mem (s : State) (c l : Nat) : (s.tokenWrite c l).mem = s.mem := by
  simp only [State.tokenWrite]; split
  · rfl
  · split
    · rw [llcTouch_mem, setTok_mem, loseOthers_mem]
    · rw [setTok_mem, loseOthers_mem]
theorem gate_quiet (s : State) (acc : Acc) (pa : Nat) (w : Bool) (hf : s.hostFilter.contains (pa / 256) = false) (hq : ∀ q ∈ s.quantum, q.unit = acc.who.code → q.pa / 256 ≠ pa / 256) :
    hostGate acc pa w s = .ok () s := by
  have hp : s.performOwn acc.who (pa / 256) = s := by
    simp only [State.performOwn, State.performAll]
    split
    · rfl
    · have h1 : ∀ q ∈ s.quantum, (q.unit == acc.who.code && q.pa / 256 == pa / 256) = false := by
        intro q hm
        by_cases e : q.unit = acc.who.code
        · simp [e, hq q hm e]
        · simp [e]
      have h2 : List.filter (fun q => q.unit == acc.who.code && q.pa / 256 == pa / 256) s.quantum = [] := by
        rw [List.filter_eq_nil_iff]; intro q hm; simp only [h1 q hm]; simp
      have h3 : List.filter (fun q => !(q.unit == acc.who.code && q.pa / 256 == pa / 256)) s.quantum = s.quantum := by
        rw [List.filter_eq_self]; intro q hm; simp only [h1 q hm]; simp
      rw [h2, h3]; rfl
  simp only [hostGate, bind_run, modify_run, get_run, hp]
  rw [ite_run, if_neg (by rw [hf]; simp)]
  rfl
theorem resolve_reaches {s : State} {acc : Acc} {k : AccessKind} {va : Dword} {n : Nat} {e : TlbEntry} (h : Claim.Reaches s acc k va n e) :
    resolve acc va n k s = .ok [{ loc := .mem (trOf e.pte e.size (va.toNat % 2 ^ 48)).pa false, len := n }] s := by
  obtain ⟨hc, hw, hn, hl, hf, hp, hcc, hu, hd, -, -, -⟩ := h
  have ht : translate acc (va.toNat % 2 ^ 48) k s = .ok (trOf e.pte e.size (va.toNat % 2 ^ 48)) s := by
    simp only [translate, bind_run, get_run, hf, checkHit]
    rw [ite_run, if_neg (by rw [hp]; simp), ite_run, if_neg (by rw [hcc]; simp)]
    rfl
  have hloc : locOf acc k (va.toNat % 2 ^ 48) (trOf e.pte e.size (va.toNat % 2 ^ 48)) s = .ok (.mem (trOf e.pte e.size (va.toNat % 2 ^ 48)).pa false) s := by
    simp only [locOf, bind_run, get_run]
    rw [ite_run, if_neg (by simp only [State.populated, hd]; decide), ite_run, if_neg (by rw [hd]; simp), hu]
    rfl
  have hm : min n (256 - va.toNat % 2 ^ 48 % 256) = n := by omega
  simp only [resolve, bind_run]
  rw [ite_run, if_neg (by rw [hc]; simp)]
  rw [ite_run, if_neg (by rw [hw]; simp)]
  simp only [resolveLines]
  rw [ite_run, if_neg (by omega)]
  simp only [bind_run, ht, hloc, hm]
  simp

theorem mod256 (v : Nat) : v % 2 ^ 48 % 256 = v % 256 := by omega

theorem vread_reaches {s : State} {acc : Acc} {va : Dword} {n : Nat} {e : TlbEntry} (h : Claim.Reaches s acc .load va n e) :
    ∃ t, vread acc va n s = .ok (s.peek (trOf e.pte e.size (va.toNat % 2 ^ 48)).pa n) t ∧ t.mem = s.mem ∧ LikeHarts s t := by
  have hr := resolve_reaches h
  obtain ⟨hc, hw, hn, hl, hf, hp, hcc, hu, hd, hpo, hho, hq⟩ := h
  refine ⟨s.tokenRead acc.cluster ((trOf e.pte e.size (va.toNat % 2 ^ 48)).pa / 256), ?_, tokenRead_mem .., like_tokenRead ..⟩
  generalize (trOf e.pte e.size (va.toNat % 2 ^ 48)).pa = pa at *
  simp only [vread, bind_run, hr, readSegs, readSeg, readMem, gate_quiet s acc pa false hho hq, get_run, Bool.false_eq_true, if_false]
  rw [ite_run, if_neg (by rw [hpo]; simp)]
  simp [State.peek, tokenRead_mem]

theorem vwrite_reaches {s : State} {acc : Acc} {va : Dword} {bs : List Byte} {e : TlbEntry} (h : Claim.Reaches s acc .store va bs.length e) :
    ∃ t, vwrite acc va bs s = .ok () t ∧ t.mem = Memory.write s.mem (trOf e.pte e.size (va.toNat % 2 ^ 48)).pa bs ∧ LikeHarts s t := by
  have hr := resolve_reaches h
  obtain ⟨hc, hw, hn, hl, hf, hp, hcc, hu, hd, hpo, hho, hq⟩ := h
  generalize (trOf e.pte e.size (va.toNat % 2 ^ 48)).pa = pa at *
  have hg := gate_quiet s acc pa true hho hq
  refine ⟨((s.dropResvs acc.cluster acc.hart fun r => decide (r.line = pa / 256 ∨ r.granule = s.granuleOf (pa / 256))).tokenWrite acc.cluster (pa / 256)).poke pa bs, ?_, ?_, ?_⟩
  · simp only [vwrite, bind_run, hr, gateSegs, hg, pure_run, writeSegs, writeSeg, writeMem, modify_run, List.take_length, Bool.false_eq_true, if_false]
  · simp only [State.poke, tokenWrite_mem]
    rfl
  · exact ((like_dropResvs ..).trans (like_tokenWrite ..)).trans (like_poke ..)

theorem leBytes_length (n v : Nat) : (leBytes n v).length = n := by
  induction n generalizing v with
  | zero => rfl
  | succ n ih => simp [leBytes, ih]


end Sys2Proof.Machine
end

