-- ==== Sys2Proof/Laws/FutureTable.lean ====
section
/-! SUPPORT. The search of fut.new for a free entry of a die's table (R98). -/

namespace Sys2Proof.Machine

/-- The search for a free entry looks at consecutive entries. -/
theorem freeFuture_visited (s : State) (die : Nat) : ∀ fuel start, s.freeFuture die start fuel = none → ∀ j < fuel,
    (start + j) % 2 ^ 22 = 0 ∨ (s.futures.getD (die * 2 ^ 22 + (start + j) % 2 ^ 22) {}).allocated = true := by
  intro fuel
  induction fuel with
  | zero => intro _ _ j hj; omega
  | succ n ih =>
    intro start h j hj
    rw [State.freeFuture] at h
    split at h
    · cases h
    · next hc =>
      cases j with
      | zero =>
        simp only [Nat.add_zero]
        by_cases h0 : start % 2 ^ 22 = 0
        · exact .inl h0
        · right
          by_contra hn
          exact hc ⟨h0, by rw [Bool.eq_false_of_not_eq_true hn]; rfl⟩
      | succ k =>
        have := ih (start + 1) h k (by omega)
        rwa [show start + 1 + k = start + (k + 1) by omega] at this

/-- An allocated entry is listed. -/
theorem allocated_mem (m : Map Future) (k : Nat) (h : (m.getD k {}).allocated = true) : k ∈ m.map (·.1) := by
  induction m with
  | nil => simp [Map.getD, Map.find] at h
  | cons e t ih =>
    by_cases hk : e.1 = k
    · simp [hk]
    · rw [List.map_cons, List.mem_cons]; right; apply ih
      simpa [Map.getD, Map.find, hk] using h

/-- The search finds no entry only when every entry of the die is allocated (R98). -/
theorem freeFuture_none (s : State) (die start fuel : Nat) (hf : s.futures.length + 2 ≤ fuel) (h : s.freeFuture die start fuel = none)
    (i : Nat) (h0 : 0 < i) (hi : i < 2 ^ 22) : (s.futures.getD (die * 2 ^ 22 + i) {}).allocated = true := by
  have hv := freeFuture_visited s die fuel start h
  by_cases hbig : 2 ^ 22 ≤ fuel
  · have hj : ∃ j < 2 ^ 22, (start + j) % 2 ^ 22 = i := ⟨(i + 2 ^ 22 - start % 2 ^ 22) % 2 ^ 22, Nat.mod_lt _ (by decide), by omega⟩
    obtain ⟨j, hj, e⟩ := hj
    rcases hv j (by omega) with h1 | h1
    · omega
    · rwa [e] at h1
  · exfalso
    have hinj : ((List.range fuel).map fun j => (start + j) % 2 ^ 22).Nodup := by
      refine List.Nodup.map_on ?_ List.nodup_range
      intro a ha b hb hab
      simp only [List.mem_range] at ha hb
      have hab : (start + a) % 2 ^ 22 = (start + b) % 2 ^ 22 := hab
      omega
    set L := (List.range fuel).map fun j => (start + j) % 2 ^ 22 with hL
    have hsub : (L.erase 0).map (die * 2 ^ 22 + ·) ⊆ s.futures.map (·.1) := by
      intro k hk
      obtain ⟨x, hx, rfl⟩ := List.mem_map.1 hk
      have hx0 : x ≠ 0 := by
        rintro rfl
        exact (List.Nodup.not_mem_erase hinj) hx
      obtain ⟨j, hj, rfl⟩ := List.mem_map.1 (List.mem_of_mem_erase hx)
      exact allocated_mem _ _ ((hv j (List.mem_range.1 hj)).resolve_left hx0)
    have hnd : ((L.erase 0).map (die * 2 ^ 22 + ·)).Nodup := by
      refine List.Nodup.map_on ?_ (hinj.erase 0)
      intro a _ b _ hab
      omega
    have hle := (List.subperm_of_subset hnd hsub).length_le
    rw [List.length_map, List.length_map] at hle
    have hlen : L.length = fuel := by simp [hL]
    have : fuel ≤ (L.erase 0).length + 1 := by
      by_cases hm : 0 ∈ L
      · rw [List.length_erase_of_mem hm, hlen]; omega
      · rw [List.erase_of_not_mem hm, hlen]; omega
    omega

end Sys2Proof.Machine
end

