-- ==== Sys2Proof/Laws/Exec.lean ====
section
/-! SUPPORT. The arms of exec, one equation per constructor: which meaning an instruction has. -/

namespace Sys2Proof.Machine

variable (s : State)

theorem exec_semWait (rd : Reg) (rs1 : Reg) (rs2 : Reg) : exec (.semWait rd rs1 rs2) s = execSemWait rd rs1 rs2 s := rfl
theorem exec_semSig (rd : Reg) (rs1 : Reg) (rs2 : Reg) : exec (.semSig rd rs1 rs2) s = execSemSig rd rs1 rs2 s := rfl
theorem exec_semTry (rd : Reg) (rs1 : Reg) (rs2 : Reg) : exec (.semTry rd rs1 rs2) s = execSemTry rd rs1 rs2 s := rfl
theorem exec_semRead (rd : Reg) (rs1 : Reg) : exec (.semRead rd rs1) s = execSemRead rd rs1 s := rfl
theorem exec_semWaiti (rd : Reg) (sem : BitVec 8) (n : BitVec 4) : exec (.semWaiti rd sem n) s = execSemWaiti rd sem n s := rfl
theorem exec_semSigi (rd : Reg) (sem : BitVec 8) (n : BitVec 4) : exec (.semSigi rd sem n) s = execSemSigi rd sem n s := rfl
theorem exec_futNew (rd : Reg) : exec (.futNew rd) s = execFutNew rd s := rfl
theorem exec_futSet (rs1 : Reg) (rs2 : Reg) : exec (.futSet rs1 rs2) s = execFutSet rs1 rs2 s := rfl
theorem exec_futWait (rd : Reg) (rs1 : Reg) : exec (.futWait rd rs1) s = execFutWait rd rs1 s := rfl
theorem exec_futPoll (rd : Reg) (rs1 : Reg) : exec (.futPoll rd rs1) s = execFutPoll rd rs1 s := rfl
theorem exec_futPoison (rs1 : Reg) : exec (.futPoison rs1) s = execFutPoison rs1 s := rfl
theorem exec_futFree (rs1 : Reg) : exec (.futFree rs1) s = execFutFree rs1 s := rfl
theorem exec_contSpawn (rs1 : Reg) (rs2 : Reg) : exec (.contSpawn rs1 rs2) s = execContSpawn rs1 rs2 s := rfl
theorem exec_joinAdd (rd : Reg) (rs1 : Reg) (rs2 : Reg) : exec (.joinAdd rd rs1 rs2) s = execJoinAdd rd rs1 rs2 s := rfl
theorem exec_msgSend (rs1 : Reg) (rs2 : Reg) : exec (.msgSend rs1 rs2) s = execMsgSend rs1 rs2 s := rfl
theorem exec_msgReply (rs1 : Reg) (rs2 : Reg) : exec (.msgReply rs1 rs2) s = execMsgReply rs1 rs2 s := rfl
theorem exec_msgSendh (rs1 : Reg) (rs2 : Reg) : exec (.msgSendh rs1 rs2) s = execMsgSendh rs1 rs2 s := rfl
theorem exec_msgRecv (rd : Reg) (rs1 : Reg) : exec (.msgRecv rd rs1) s = execMsgRecv rd rs1 s := rfl
theorem exec_mbRead (rd : Reg) (mb : BitVec 3) : exec (.mbRead rd mb) s = execMbRead rd mb s := rfl
theorem exec_mbWrite (mb : BitVec 3) (rs1 : Reg) : exec (.mbWrite mb rs1) s = execMbWrite mb rs1 s := rfl
theorem exec_mbSwap (rd : Reg) (mb : BitVec 3) (rs1 : Reg) : exec (.mbSwap rd mb rs1) s = execMbSwap rd mb rs1 s := rfl
theorem exec_engKick (rs1 : Reg) (rs2 : Reg) (scope : BitVec 3) : exec (.engKick rs1 rs2 scope) s = execEngKick rs1 rs2 scope s := rfl
theorem exec_engRdv (rd : Reg) (rs1 : Reg) : exec (.engRdv rd rs1) s = execEngRdv rd rs1 s := rfl
theorem exec_cohDecl (rd : Reg) (rs1 : Reg) : exec (.cohDecl rd rs1) s = execCohDecl rd rs1 s := rfl
theorem exec_cohRel (rs1 : Reg) : exec (.cohRel rs1) s = execCohRel rs1 s := rfl
theorem exec_scalarCwb (rs1 : Reg) (rs2 : Reg) : exec (.scalarCwb rs1 rs2) s = execScalarCwb rs1 rs2 s := rfl
theorem exec_scalarCinv (rs1 : Reg) (rs2 : Reg) : exec (.scalarCinv rs1 rs2) s = execScalarCinv rs1 rs2 s := rfl
theorem exec_scalarCflush (rs1 : Reg) (rs2 : Reg) : exec (.scalarCflush rs1 rs2) s = execScalarCflush rs1 rs2 s := rfl
theorem exec_hotRead (rd : Reg) (rs1 : Reg) : exec (.hotRead rd rs1) s = execHotRead rd rs1 s := rfl
theorem exec_hotClr (rs1 : Reg) : exec (.hotClr rs1) s = execHotClr rs1 s := rfl
theorem exec_fenceS (scope : BitVec 2) (sem : BitVec 4) : exec (.fenceS scope sem) s = execFenceS scope sem s := rfl
theorem exec_scalarStq (rs1 : Reg) (rs2 : Reg) : exec (.scalarStq rs1 rs2) s = execScalarStq rs1 rs2 s := rfl
theorem exec_tlbInv (rs1 : Reg) (rs2 : Reg) : exec (.tlbInv rs1 rs2) s = execTlbInv rs1 rs2 s := rfl
theorem exec_amoAdd (a : AmoArgs) : exec (.amoAdd a) s = execAmoAdd a s := rfl
theorem exec_amoSwap (a : AmoArgs) : exec (.amoSwap a) s = execAmoSwap a s := rfl
theorem exec_amoAnd (a : AmoArgs) : exec (.amoAnd a) s = execAmoAnd a s := rfl
theorem exec_amoOr (a : AmoArgs) : exec (.amoOr a) s = execAmoOr a s := rfl
theorem exec_amoXor (a : AmoArgs) : exec (.amoXor a) s = execAmoXor a s := rfl
theorem exec_amoMax (a : AmoArgs) : exec (.amoMax a) s = execAmoMax a s := rfl
theorem exec_amoFadd (a : AmoArgs) : exec (.amoFadd a) s = execAmoFadd a s := rfl
theorem exec_amoCas (a : AmoArgs) : exec (.amoCas a) s = execAmoCas a s := rfl
theorem exec_standardLoadStore (op : LsOp) : exec (.standardLoadStore op) s = execStandardLoadStore op s := rfl
theorem exec_lr (d : Bool) (aq : Bool) (rl : Bool) (rd : Reg) (rs1 : Reg) : exec (.lr d aq rl rd rs1) s = execLr d aq rl rd rs1 s := rfl
theorem exec_sc (d : Bool) (aq : Bool) (rl : Bool) (rd : Reg) (rs1 : Reg) (rs2 : Reg) : exec (.sc d aq rl rd rs1 rs2) s = execSc d aq rl rd rs1 rs2 s := rfl
theorem exec_standardAmo (op : AmoOp) (d : Bool) (aq : Bool) (rl : Bool) (rd : Reg) (rs1 : Reg) (rs2 : Reg) : exec (.standardAmo op d aq rl rd rs1 rs2) s = execStandardAmo op d aq rl rd rs1 rs2 s := rfl
theorem exec_fenceRv (fm : BitVec 4) (pred : BitVec 4) (succ : BitVec 4) (rd : Reg) (rs1 : Reg) : exec (.fenceRv fm pred succ rd rs1) s = execFenceRv fm pred succ rd rs1 s := rfl
theorem exec_fenceI (imm : BitVec 12) (rd : Reg) (rs1 : Reg) : exec (.fenceI imm rd rs1) s = execFenceI imm rd rs1 s := rfl
theorem exec_sfenceVma (rs1 : Reg) (rs2 : Reg) : exec (.sfenceVma rs1 rs2) s = execSfenceVma rs1 rs2 s := rfl
theorem exec_laneAdd (w : LaneWord) : exec (.laneAdd w) s = execLaneAdd w s := rfl
theorem exec_laneSub (w : LaneWord) : exec (.laneSub w) s = execLaneSub w s := rfl
theorem exec_laneMul (w : LaneWord) : exec (.laneMul w) s = execLaneMul w s := rfl
theorem exec_mulhi (w : LaneWord) : exec (.mulhi w) s = execMulhi w s := rfl
theorem exec_laneMin (w : LaneWord) : exec (.laneMin w) s = execLaneMin w s := rfl
theorem exec_laneMax (w : LaneWord) : exec (.laneMax w) s = execLaneMax w s := rfl
theorem exec_laneAbs (w : LaneWord) : exec (.laneAbs w) s = execLaneAbs w s := rfl
theorem exec_laneNeg (w : LaneWord) : exec (.laneNeg w) s = execLaneNeg w s := rfl
theorem exec_addLi (w : LaneWord) : exec (.addLi w) s = execAddLi w s := rfl
theorem exec_subLi (w : LaneWord) : exec (.subLi w) s = execSubLi w s := rfl
theorem exec_mulLi (w : LaneWord) : exec (.mulLi w) s = execMulLi w s := rfl
theorem exec_mulhiLi (w : LaneWord) : exec (.mulhiLi w) s = execMulhiLi w s := rfl
theorem exec_minLi (w : LaneWord) : exec (.minLi w) s = execMinLi w s := rfl
theorem exec_maxLi (w : LaneWord) : exec (.maxLi w) s = execMaxLi w s := rfl
theorem exec_imad (w : LaneWord) : exec (.imad w) s = execImad w s := rfl
theorem exec_laneAnd (w : LaneWord) : exec (.laneAnd w) s = execLaneAnd w s := rfl
theorem exec_laneOr (w : LaneWord) : exec (.laneOr w) s = execLaneOr w s := rfl
theorem exec_laneXor (w : LaneWord) : exec (.laneXor w) s = execLaneXor w s := rfl
theorem exec_laneNot (w : LaneWord) : exec (.laneNot w) s = execLaneNot w s := rfl
theorem exec_andn (w : LaneWord) : exec (.andn w) s = execAndn w s := rfl
theorem exec_andLi (w : LaneWord) : exec (.andLi w) s = execAndLi w s := rfl
theorem exec_orLi (w : LaneWord) : exec (.orLi w) s = execOrLi w s := rfl
theorem exec_xorLi (w : LaneWord) : exec (.xorLi w) s = execXorLi w s := rfl
theorem exec_andnLi (w : LaneWord) : exec (.andnLi w) s = execAndnLi w s := rfl
theorem exec_shl (w : LaneWord) : exec (.shl w) s = execShl w s := rfl
theorem exec_shr (w : LaneWord) : exec (.shr w) s = execShr w s := rfl
theorem exec_sha (w : LaneWord) : exec (.sha w) s = execSha w s := rfl
theorem exec_rol (w : LaneWord) : exec (.rol w) s = execRol w s := rfl
theorem exec_ror (w : LaneWord) : exec (.ror w) s = execRor w s := rfl
theorem exec_shlLi (w : LaneWord) : exec (.shlLi w) s = execShlLi w s := rfl
theorem exec_shrLi (w : LaneWord) : exec (.shrLi w) s = execShrLi w s := rfl
theorem exec_shaLi (w : LaneWord) : exec (.shaLi w) s = execShaLi w s := rfl
theorem exec_rolLi (w : LaneWord) : exec (.rolLi w) s = execRolLi w s := rfl
theorem exec_rorLi (w : LaneWord) : exec (.rorLi w) s = execRorLi w s := rfl
theorem exec_popc (w : LaneWord) : exec (.popc w) s = execPopc w s := rfl
theorem exec_clz (w : LaneWord) : exec (.clz w) s = execClz w s := rfl
theorem exec_ctz (w : LaneWord) : exec (.ctz w) s = execCtz w s := rfl
theorem exec_brev (w : LaneWord) : exec (.brev w) s = execBrev w s := rfl
theorem exec_bfx (w : LaneWord) : exec (.bfx w) s = execBfx w s := rfl
theorem exec_bfi (w : LaneWord) : exec (.bfi w) s = execBfi w s := rfl
theorem exec_fadd (w : LaneWord) : exec (.fadd w) s = execFadd w s := rfl
theorem exec_fsub (w : LaneWord) : exec (.fsub w) s = execFsub w s := rfl
theorem exec_fmul (w : LaneWord) : exec (.fmul w) s = execFmul w s := rfl
theorem exec_fmin (w : LaneWord) : exec (.fmin w) s = execFmin w s := rfl
theorem exec_fmax (w : LaneWord) : exec (.fmax w) s = execFmax w s := rfl
theorem exec_fabs (w : LaneWord) : exec (.fabs w) s = execFabs w s := rfl
theorem exec_fneg (w : LaneWord) : exec (.fneg w) s = execFneg w s := rfl
theorem exec_faddLi (w : LaneWord) : exec (.faddLi w) s = execFaddLi w s := rfl
theorem exec_fsubLi (w : LaneWord) : exec (.fsubLi w) s = execFsubLi w s := rfl
theorem exec_fmulLi (w : LaneWord) : exec (.fmulLi w) s = execFmulLi w s := rfl
theorem exec_fminLi (w : LaneWord) : exec (.fminLi w) s = execFminLi w s := rfl
theorem exec_fmaxLi (w : LaneWord) : exec (.fmaxLi w) s = execFmaxLi w s := rfl
theorem exec_fma (w : LaneWord) : exec (.fma w) s = execFma w s := rfl
theorem exec_fms (w : LaneWord) : exec (.fms w) s = execFms w s := rfl
theorem exec_fnma (w : LaneWord) : exec (.fnma w) s = execFnma w s := rfl
theorem exec_fdiv (w : LaneWord) : exec (.fdiv w) s = execFdiv w s := rfl
theorem exec_fsqrt (w : LaneWord) : exec (.fsqrt w) s = execFsqrt w s := rfl
theorem exec_icmp (w : LaneWord) : exec (.icmp w) s = execIcmp w s := rfl
theorem exec_fcmp (w : LaneWord) : exec (.fcmp w) s = execFcmp w s := rfl
theorem exec_fclass (w : LaneWord) : exec (.fclass w) s = execFclass w s := rfl
theorem exec_icmpLi (w : LaneWord) : exec (.icmpLi w) s = execIcmpLi w s := rfl
theorem exec_fcmpLi (w : LaneWord) : exec (.fcmpLi w) s = execFcmpLi w s := rfl
theorem exec_sel (w : LaneWord) : exec (.sel w) s = execSel w s := rfl
theorem exec_selLi (w : LaneWord) : exec (.selLi w) s = execSelLi w s := rfl
theorem exec_pand (w : LaneWord) : exec (.pand w) s = execPand w s := rfl
theorem exec_por (w : LaneWord) : exec (.por w) s = execPor w s := rfl
theorem exec_pxor (w : LaneWord) : exec (.pxor w) s = execPxor w s := rfl
theorem exec_pnot (w : LaneWord) : exec (.pnot w) s = execPnot w s := rfl
theorem exec_pmov (w : LaneWord) : exec (.pmov w) s = execPmov w s := rfl
theorem exec_cvt (w : LaneWord) : exec (.cvt w) s = execCvt w s := rfl
theorem exec_qnt (w : LaneWord) : exec (.qnt w) s = execQnt w s := rfl
theorem exec_aln (w : LaneWord) : exec (.aln w) s = execAln w s := rfl
theorem exec_shflIdx (w : LaneWord) : exec (.shflIdx w) s = execShflIdx w s := rfl
theorem exec_shflXor (w : LaneWord) : exec (.shflXor w) s = execShflXor w s := rfl
theorem exec_shflUp (w : LaneWord) : exec (.shflUp w) s = execShflUp w s := rfl
theorem exec_shflDn (w : LaneWord) : exec (.shflDn w) s = execShflDn w s := rfl
theorem exec_bcst (w : LaneWord) : exec (.bcst w) s = execBcst w s := rfl
theorem exec_voteAny (w : LaneWord) : exec (.voteAny w) s = execVoteAny w s := rfl
theorem exec_voteAll (w : LaneWord) : exec (.voteAll w) s = execVoteAll w s := rfl
theorem exec_voteMask (w : LaneWord) : exec (.voteMask w) s = execVoteMask w s := rfl
theorem exec_reduce (w : LaneWord) : exec (.reduce w) s = execReduce w s := rfl
theorem exec_scan (w : LaneWord) : exec (.scan w) s = execScan w s := rfl
theorem exec_mov (w : LaneWord) : exec (.mov w) s = execMov w s := rfl
theorem exec_movu (w : LaneWord) : exec (.movu w) s = execMovu w s := rfl
theorem exec_movx (w : LaneWord) : exec (.movx w) s = execMovx w s := rfl
theorem exec_movi (w : LaneWord) : exec (.movi w) s = execMovi w s := rfl
theorem exec_krd (w : LaneWord) : exec (.krd w) s = execKrd w s := rfl
theorem exec_kwr (w : LaneWord) : exec (.kwr w) s = execKwr w s := rfl
theorem exec_lfmRd (w : LaneWord) : exec (.lfmRd w) s = execLfmRd w s := rfl
theorem exec_lfmWr (w : LaneWord) : exec (.lfmWr w) s = execLfmWr w s := rfl
theorem exec_sfx (fn : BitVec 8) (w : LaneWord) : exec (.sfx fn w) s = execSfx fn w s := rfl
theorem exec_sfxWait (w : LaneWord) : exec (.sfxWait w) s = execSfxWait w s := rfl
theorem exec_rsvSeed (w : LaneWord) : exec (.rsvSeed w) s = execRsvSeed w s := rfl
theorem exec_rsvUpd (w : LaneWord) : exec (.rsvUpd w) s = execRsvUpd w s := rfl
theorem exec_rsvMrg (w : LaneWord) : exec (.rsvMrg w) s = execRsvMrg w s := rfl
theorem exec_rsvFin (w : LaneWord) : exec (.rsvFin w) s = execRsvFin w s := rfl
theorem exec_rsvGet (w : LaneWord) : exec (.rsvGet w) s = execRsvGet w s := rfl
theorem exec_rsvDraw (w : LaneWord) : exec (.rsvDraw w) s = execRsvDraw w s := rfl
theorem exec_ld (w : LaneWord) : exec (.ld w) s = execLd w s := rfl
theorem exec_st (w : LaneWord) : exec (.st w) s = execSt w s := rfl
theorem exec_stn (w : LaneWord) : exec (.stn w) s = execStn w s := rfl
theorem exec_atomAdd (w : LaneWord) : exec (.atomAdd w) s = execAtomAdd w s := rfl
theorem exec_atomSwap (w : LaneWord) : exec (.atomSwap w) s = execAtomSwap w s := rfl
theorem exec_atomAnd (w : LaneWord) : exec (.atomAnd w) s = execAtomAnd w s := rfl
theorem exec_atomOr (w : LaneWord) : exec (.atomOr w) s = execAtomOr w s := rfl
theorem exec_atomXor (w : LaneWord) : exec (.atomXor w) s = execAtomXor w s := rfl
theorem exec_atomMax (w : LaneWord) : exec (.atomMax w) s = execAtomMax w s := rfl
theorem exec_atomFadd (w : LaneWord) : exec (.atomFadd w) s = execAtomFadd w s := rfl
theorem exec_atomCas (w : LaneWord) : exec (.atomCas w) s = execAtomCas w s := rfl
theorem exec_lds (w : LaneWord) : exec (.lds w) s = execLds w s := rfl
theorem exec_sts (w : LaneWord) : exec (.sts w) s = execSts w s := rfl
theorem exec_fence (w : LaneWord) : exec (.fence w) s = execFence w s := rfl
theorem exec_cwb (w : LaneWord) : exec (.cwb w) s = execCwb w s := rfl
theorem exec_cinv (w : LaneWord) : exec (.cinv w) s = execCinv w s := rfl
theorem exec_cflush (w : LaneWord) : exec (.cflush w) s = execCflush w s := rfl
theorem exec_stq (w : LaneWord) : exec (.stq w) s = execStq w s := rfl
theorem exec_pfh (w : LaneWord) : exec (.pfh w) s = execPfh w s := rfl
theorem exec_texSmp (w : LaneWord) : exec (.texSmp w) s = execTexSmp w s := rfl
theorem exec_texFch (w : LaneWord) : exec (.texFch w) s = execTexFch w s := rfl
theorem exec_bra (w : LaneWord) : exec (.bra w) s = execBra w s := rfl
theorem exec_brx (w : LaneWord) : exec (.brx w) s = execBrx w s := rfl
theorem exec_reconv (w : LaneWord) : exec (.reconv w) s = execReconv w s := rfl
theorem exec_exit (w : LaneWord) : exec (.exit w) s = execExit w s := rfl
theorem exec_mig (w : LaneWord) : exec (.mig w) s = execMig w s := rfl
theorem exec_barArv (w : LaneWord) : exec (.barArv w) s = execBarArv w s := rfl
theorem exec_barWait (w : LaneWord) : exec (.barWait w) s = execBarWait w s := rfl
theorem exec_safe (w : LaneWord) : exec (.safe w) s = execSafe w s := rfl
theorem exec_yield (w : LaneWord) : exec (.yield w) s = execYield w s := rfl
theorem exec_nop (w : LaneWord) : exec (.nop w) s = execNop w s := rfl
theorem exec_spawn (w : LaneWord) : exec (.spawn w) s = execSpawn w s := rfl
theorem exec_fwait (w : LaneWord) : exec (.fwait w) s = execFwait w s := rfl
theorem exec_send (w : LaneWord) : exec (.send w) s = execSend w s := rfl
theorem exec_mld (w : LaneWord) : exec (.mld w) s = execMld w s := rfl
theorem exec_mmaG (w : LaneWord) : exec (.mmaG w) s = execMmaG w s := rfl
theorem exec_accZero (w : LaneWord) : exec (.accZero w) s = execAccZero w s := rfl
theorem exec_ringAdv (w : LaneWord) : exec (.ringAdv w) s = execRingAdv w s := rfl
theorem exec_ringWait (w : LaneWord) : exec (.ringWait w) s = execRingWait w s := rfl
theorem exec_blmEmit (w : LaneWord) : exec (.blmEmit w) s = execBlmEmit w s := rfl
theorem exec_blmRead (w : LaneWord) : exec (.blmRead w) s = execBlmRead w s := rfl
theorem exec_blmAdvance (w : LaneWord) : exec (.blmAdvance w) s = execBlmAdvance w s := rfl
theorem exec_blmFlush (w : LaneWord) : exec (.blmFlush w) s = execBlmFlush w s := rfl
theorem exec_blmClear (w : LaneWord) : exec (.blmClear w) s = execBlmClear w s := rfl
theorem exec_resv (w : LaneWord) : exec (.resv w) s = execResv w s := rfl
theorem exec_commit (w : LaneWord) : exec (.commit w) s = execCommit w s := rfl
theorem exec_cancel (w : LaneWord) : exec (.cancel w) s = execCancel w s := rfl
theorem exec_emitV (w : LaneWord) : exec (.emitV w) s = execEmitV w s := rfl
theorem exec_emitP (w : LaneWord) : exec (.emitP w) s = execEmitP w s := rfl
theorem exec_standardInstruction (op : RvOp) : exec (.standardInstruction op) s = execStandardInstruction op s := rfl
theorem exec_reservedLaneOpcode (w : BitVec 96) : exec (.reservedLaneOpcode w) s = execReservedLaneOpcode w s := rfl
theorem exec_messageDepart (queue : Nat) (n : Nat) : exec (.messageDepart queue n) s = execMessageDepart queue n s := rfl
theorem exec_messageArrival (n : Nat) : exec (.messageArrival n) s = execMessageArrival n s := rfl
theorem exec_laneSignalLand (waves : List Nat) : exec (.laneSignalLand waves) s = execLaneSignalLand waves s := rfl
theorem exec_laneMemoryComplete (wave : Nat) (n : Nat) : exec (.laneMemoryComplete wave n) s = execLaneMemoryComplete wave n s := rfl
theorem exec_sfxResult (wave : Nat) (tok : Nat) : exec (.sfxResult wave tok) s = execSfxResult wave tok s := rfl
theorem exec_migrationBlockGrant (crew : Nat) : exec (.migrationBlockGrant crew) s = execMigrationBlockGrant crew s := rfl
theorem exec_mldStart (cluster : Nat) (n : Nat) : exec (.mldStart cluster n) s = execMldStart cluster n s := rfl
theorem exec_mldComplete (cluster : Nat) (n : Nat) : exec (.mldComplete cluster n) s = execMldComplete cluster n s := rfl
theorem exec_mmaLatch (crew : Nat) : exec (.mmaLatch crew) s = execMmaLatch crew s := rfl
theorem exec_mmaStart (cluster : Nat) : exec (.mmaStart cluster) s = execMmaStart cluster s := rfl
theorem exec_mmaComplete (cluster : Nat) : exec (.mmaComplete cluster) s = execMmaComplete cluster s := rfl
theorem exec_launchRecordTake (q : Nat) : exec (.launchRecordTake q) s = execLaunchRecordTake q s := rfl
theorem exec_crewAdmit (cluster : Nat) (cls : Nat) : exec (.crewAdmit cluster cls) s = execCrewAdmit cluster cls s := rfl
theorem exec_admissionAgeLimit (cluster : Nat) : exec (.admissionAgeLimit cluster) s = execAdmissionAgeLimit cluster s := rfl
theorem exec_waveStart (crew : Nat) (rank : Nat) : exec (.waveStart crew rank) s = execWaveStart crew rank s := rfl
theorem exec_frontEndStrandStart (crew : Nat) (rank : Nat) : exec (.frontEndStrandStart crew rank) s = execFrontEndStrandStart crew rank s := rfl
theorem exec_continuationPop (cluster : Nat) (slot : UnitSlot) : exec (.continuationPop cluster slot) s = execContinuationPop cluster slot s := rfl
theorem exec_atomiserArrival (cluster : Nat) : exec (.atomiserArrival cluster) s = execAtomiserArrival cluster s := rfl
theorem exec_gatherWindowExpiry (cluster : Nat) : exec (.gatherWindowExpiry cluster) s = execGatherWindowExpiry cluster s := rfl
theorem exec_atomiserWaveForm (cluster : Nat) (n : Nat) : exec (.atomiserWaveForm cluster n) s = execAtomiserWaveForm cluster n s := rfl
theorem exec_fragmentAgeLimit (wave : Nat) : exec (.fragmentAgeLimit wave) s = execFragmentAgeLimit wave s := rfl
theorem exec_gtoAgeingLimit (engine : Nat) : exec (.gtoAgeingLimit engine) s = execGtoAgeingLimit engine s := rfl
theorem exec_crewEnd (crew : Nat) : exec (.crewEnd crew) s = execCrewEnd crew s := rfl
theorem exec_heldMessageDelivery (crew : Nat) : exec (.heldMessageDelivery crew) s = execHeldMessageDelivery crew s := rfl
theorem exec_handlerStart (strand : Nat) : exec (.handlerStart strand) s = execHandlerStart strand s := rfl
theorem exec_stqTarget (n : Nat) : exec (.stqTarget n) s = execStqTarget n s := rfl
theorem exec_engineKickStart (engine : Nat) : exec (.engineKickStart engine) s = execEngineKickStart engine s := rfl
theorem exec_copyMove (engine : Nat) : exec (.copyMove engine) s = execCopyMove engine s := rfl
theorem exec_copyGather (engine : Nat) : exec (.copyGather engine) s = execCopyGather engine s := rfl
theorem exec_copyScatter (engine : Nat) : exec (.copyScatter engine) s = execCopyScatter engine s := rfl
theorem exec_copyConvert (engine : Nat) : exec (.copyConvert engine) s = execCopyConvert engine s := rfl
theorem exec_copyDelta (engine : Nat) : exec (.copyDelta engine) s = execCopyDelta engine s := rfl
theorem exec_copyRle (engine : Nat) : exec (.copyRle engine) s = execCopyRle engine s := rfl
theorem exec_bloomEventArrival (n : Nat) : exec (.bloomEventArrival n) s = execBloomEventArrival n s := rfl
theorem exec_bloomFanoutJob (engine : Nat) : exec (.bloomFanoutJob engine) s = execBloomFanoutJob engine s := rfl
theorem exec_rasterMesh (cluster : Nat) : exec (.rasterMesh cluster) s = execRasterMesh cluster s := rfl
theorem exec_rasterBlockEmit (cluster : Nat) : exec (.rasterBlockEmit cluster) s = execRasterBlockEmit cluster s := rfl
theorem exec_blendTicket (node : Nat) (block : Nat) : exec (.blendTicket node block) s = execBlendTicket node block s := rfl
theorem exec_traverseRay (cluster : Nat) : exec (.traverseRay cluster) s = execTraverseRay cluster s := rfl
theorem exec_interruptTake (h : HartId) : exec (.interruptTake h) s = execInterruptTake h s := rfl
theorem exec_timerCompare (h : HartId) : exec (.timerCompare h) s = execTimerCompare h s := rfl
theorem exec_crewSave (crew : Nat) : exec (.crewSave crew) s = execCrewSave crew s := rfl
theorem exec_preemptDeadline (cluster : Nat) : exec (.preemptDeadline cluster) s = execPreemptDeadline cluster s := rfl
theorem exec_invalidationReceive (inv : Nat) (cluster : Nat) : exec (.invalidationReceive inv cluster) s = execInvalidationReceive inv cluster s := rfl
theorem exec_invalidationAck (inv : Nat) (cluster : Nat) : exec (.invalidationAck inv cluster) s = execInvalidationAck inv cluster s := rfl
theorem exec_hotnessHalving (die : Nat) : exec (.hotnessHalving die) s = execHotnessHalving die s := rfl
theorem exec_quantumFlush (n : Nat) : exec (.quantumFlush n) s = execQuantumFlush n s := rfl
theorem exec_wqDoorbell (q : Nat) (v : Dword) : exec (.wqDoorbell q v) s = execWqDoorbell q v s := rfl
theorem exec_dmgangWrite (cluster : Nat) (v : Dword) : exec (.dmgangWrite cluster v) s = execDmgangWrite cluster v s := rfl
theorem exec_dmringWrite (cluster : Nat) (ring : Nat) (v : Dword) : exec (.dmringWrite cluster ring v) s = execDmringWrite cluster ring v s := rfl
theorem exec_matrixKilled (cluster : Nat) (crew : Nat) (code : Nat) (addr : Dword) : exec (.matrixKilled cluster crew code addr) s = execMatrixKilled cluster crew code addr s := rfl
theorem exec_sillageInstall (cluster : Nat) (addr : Dword) : exec (.sillageInstall cluster addr) s = execSillageInstall cluster addr s := rfl
theorem exec_sillageTileRequest (cluster : Nat) (addr : Dword) : exec (.sillageTileRequest cluster addr) s = execSillageTileRequest cluster addr s := rfl
theorem exec_bloomInstall (cluster : Nat) (addr : Dword) : exec (.bloomInstall cluster addr) s = execBloomInstall cluster addr s := rfl
theorem exec_bloomUninstall (cluster : Nat) (v : Dword) : exec (.bloomUninstall cluster v) s = execBloomUninstall cluster v s := rfl
theorem exec_laneHandlerRun (wave : Nat) (offset : Dword) : exec (.laneHandlerRun wave offset) s = execLaneHandlerRun wave offset s := rfl
theorem exec_preemptRequest (cluster : Nat) (v : Dword) : exec (.preemptRequest cluster v) s = execPreemptRequest cluster v s := rfl
theorem exec_resume (v : Dword) : exec (.resume v) s = execResume v s := rfl
theorem exec_crewKill (crew : Nat) (code : Nat) : exec (.crewKill crew code) s = execCrewKill crew code s := rfl
theorem exec_doorbell (v : Dword) : exec (.doorbell v) s = execDoorbell v s := rfl
theorem exec_hostInterrupt (v : Dword) : exec (.hostInterrupt v) s = execHostInterrupt v s := rfl
theorem exec_wectlWrite (engine : Nat) (v : Dword) : exec (.wectlWrite engine v) s = execWectlWrite engine v s := rfl
theorem exec_dlsplitWrite (h : HartId) (v : Dword) : exec (.dlsplitWrite h v) s = execDlsplitWrite h v s := rfl
theorem exec_dlgroupWrite (h : HartId) (v : Dword) : exec (.dlgroupWrite h v) s = execDlgroupWrite h v s := rfl
theorem exec_registerWrite (t : RegTarget) (v : Dword) : exec (.registerWrite t v) s = execRegisterWrite t v s := rfl
theorem exec_pageWalk (h : HartId) (va : Dword) (kind : AccessKind) : exec (.pageWalk h va kind) s = execPageWalk h va kind s := rfl
theorem exec_tokenRequest (cluster : Nat) (granule : Nat) (write : Bool) : exec (.tokenRequest cluster granule write) s = execTokenRequest cluster granule write s := rfl
theorem exec_persistentRequest (cluster : Nat) (granule : Nat) (write : Bool) : exec (.persistentRequest cluster granule write) s = execPersistentRequest cluster granule write s := rfl
theorem exec_tokenEviction (cluster : Nat) (granule : Nat) : exec (.tokenEviction cluster granule) s = execTokenEviction cluster granule s := rfl
theorem exec_homeRecall (granule : Nat) : exec (.homeRecall granule) s = execHomeRecall granule s := rfl
theorem exec_hostSnoop (line : Nat) (invalidate : Bool) : exec (.hostSnoop line invalidate) s = execHostSnoop line invalidate s := rfl
theorem exec_hostMemAccess (write : Bool) (addr : Nat) (data : List Byte) : exec (.hostMemAccess write addr data) s = execHostMemAccess write addr data s := rfl
theorem exec_backInvalidationResponse (line : Nat) : exec (.backInvalidationResponse line) s = execBackInvalidationResponse line s := rfl
theorem exec_flitReplay (link : Nat) (seq : Nat) : exec (.flitReplay link seq) s = execFlitReplay link seq s := rfl
theorem exec_linkRetrain (pair : Nat) (module : Nat) (ok : Bool) : exec (.linkRetrain pair module ok) s = execLinkRetrain pair module ok s := rfl
theorem exec_halhelFailover (link : Nat) : exec (.halhelFailover link) s = execHalhelFailover link s := rfl
theorem exec_eccCorrected (cluster : Nat) (addr : Nat) : exec (.eccCorrected cluster addr) s = execEccCorrected cluster addr s := rfl
theorem exec_eccUncorrected (addr : Nat) : exec (.eccUncorrected addr) s = execEccUncorrected addr s := rfl
theorem exec_coreReset (core : Nat) : exec (.coreReset core) s = execCoreReset core s := rfl
theorem exec_attestation (nonce : List Byte) : exec (.attestation nonce) s = execAttestation nonce s := rfl
theorem exec_governorWindow (watts : Nat) (tj : Nat) : exec (.governorWindow watts tj) s = execGovernorWindow watts tj s := rfl
theorem exec_thermalTrip (tj : Nat) : exec (.thermalTrip tj) s = execThermalTrip tj s := rfl
theorem exec_peerWindowAccess (op : PeerOp) (addr : Nat) (data : List Byte) : exec (.peerWindowAccess op addr data) s = execPeerWindowAccess op addr data s := rfl
theorem exec_thermalThrottle (tj : Nat) : exec (.thermalThrottle tj) s = execThermalThrottle tj s := rfl
theorem exec_contExit : exec .contExit s = execContExit s := rfl
theorem exec_migW : exec .migW s = execMigW s := rfl
theorem exec_scalarYield : exec .scalarYield s = execScalarYield s := rfl
theorem exec_scalarSafe : exec .scalarSafe s = execScalarSafe s := rfl
theorem exec_ecall : exec .ecall s = execEcall s := rfl
theorem exec_ebreak : exec .ebreak s = execEbreak s := rfl
theorem exec_sret : exec .sret s = execSret s := rfl
theorem exec_wfi : exec .wfi s = execWfi s := rfl
theorem exec_crewExpand : exec .crewExpand s = execCrewExpand s := rfl
theorem exec_imageLoad : exec .imageLoad s = execImageLoad s := rfl
theorem exec_imageUnload : exec .imageUnload s = execImageUnload s := rfl
theorem exec_bringUp : exec .bringUp s = execBringUp s := rfl

end Sys2Proof.Machine
end

