-- ==== Sys2Proof/Laws/Lane.lean ====
section
/-! SUPPORT. Lane instructions: how one that can issue runs and completes, what writes of registers, predicates and modes read
back as, and what the effects of the computing instructions keep. -/

namespace Sys2Proof.Machine

open Sys2Proof.Claim

@[simp] theorem getWave_run (k : Nat) (s : State) : getWave k s = .ok (s.wave k) s := rfl
@[simp] theorem modWave_run (k : Nat) (f : Wave → Wave) (s : State) : modWave k f s = .ok () (s.setWave k (f (s.wave k))) := rfl

theorem issued_run (c : LCtx) (s : State) :
    issued c s = .ok () ((s.setWengine (c.k / 16) (engineAfter s c)).setWave c.k { s.wave c.k with turnSec := !c.sec }) := by
  simp only [issued, bind_run, get_run, set_run]
  congr 2
  · simp only [engineAfter]
    congr 1
    by_cases h1 : c.k % 16 = 15 <;> by_cases h2 : ((s.wave c.k).hart.crew.bind s.crewOf).map (·.cls) = some 0 <;> simp [h1, h2]

theorem setWave_setWengine (s : State) (k e : Nat) (v w : Wave) (x : WaveEngine) :
    ((s.setWave k v).setWengine e x).setWave k w = (s.setWengine e x).setWave k w := by
  simp only [State.setWave, State.setWengine, Map.put_put]

theorem crewOf_setWave (s : State) (k : Nat) (w : Wave) (r : CrewRef) : (s.setWave k w).crewOf r = s.crewOf r := rfl

theorem engineAfter_setWave (s : State) (c : LCtx) (w : Wave) (h : w.hart.crew = (s.wave c.k).hart.crew) :
    engineAfter (s.setWave c.k w) c = engineAfter s c := by
  have e : (s.setWave c.k w).crewOf = s.crewOf := rfl
  simp only [engineAfter, State.wave_setWave, h, e]
  rfl

theorem retire_lane (c : LCtx) (s : State) : Machine.retire c s = .ok () (laneRetired s c) := by
  have key : ∀ w : Wave, w.hart.crew = (s.wave c.k).hart.crew →
      issued c (s.setWave c.k w) = .ok () ((s.setWengine (c.k / 16) (engineAfter s c)).setWave c.k { w with turnSec := !c.sec }) := by
    intro w h
    rw [issued_run, engineAfter_setWave _ _ _ h, setWave_setWengine, State.wave_setWave]
  simp only [Machine.retire, bind_run, modWave_run, laneRetired]
  rw [key _ (by split <;> rfl)]
  simp only [waveRetired]
  congr 2
  split <;> rfl

theorem modGroup_run (c : LCtx) (f : Group → Group) (s : State) :
    modGroup c f s = .ok () (s.setWave c.k ((s.wave c.k).setGroup c.sec (((s.wave c.k).group c.sec).map f))) := rfl

theorem advance_run (c : LCtx) (s : State) : advance c s = .ok () (s.setWave c.k (groupOn c (s.wave c.k))) := rfl

theorem laneSignal_none (c : LCtx) (on : Await) (s : State) (h : sigAmount c.i c.w = 0) : laneSignal c on s = .ok () s := by
  simp only [laneSignal, bind_run, get_run]
  rw [ite_run, if_neg (by simp [h])]; rfl

theorem signalled_none (s : State) (c : LCtx) (on : Await) (w : Wave) (h : sigAmount c.i c.w = 0) : signalled s c on w = w := by
  simp only [signalled, h]
  split <;> rfl

theorem laneSignal_some (c : LCtx) (on : Await) (s : State) (h : sigAmount c.i c.w ≠ 0)
    (hx : (s.waveSem c.k c.w.sign.toNat).isSome = true) :
    laneSignal c on s = .ok () (s.setWave c.k (signalled s c on (s.wave c.k))) := by
  obtain ⟨⟨a, b⟩, hx⟩ := Option.isSome_iff_exists.1 hx
  simp only [laneSignal, signalled, bind_run, get_run]
  rw [ite_run, if_pos h]
  simp only [hx, if_neg h]
  rfl

theorem completedBy_run (c : LCtx) (on : Await) (s : State) (h : sigAmount c.i c.w ≠ 0 → (s.waveSem c.k c.w.sign.toNat).isSome = true) :
    completedBy c on s = .ok () (laneDone s c on) := by
  by_cases h0 : sigAmount c.i c.w = 0
  · simp only [completedBy, bind_run, laneSignal_none c on s h0, get_run, modWave_run, advance_run, retire_lane, laneDone,
      signalled_none _ _ _ _ h0, State.wave_setWave, State.setWave_setWave]
  · simp only [completedBy, bind_run, laneSignal_some c on s h0 (h h0), get_run, modWave_run, advance_run, retire_lane, laneDone,
      State.wave_setWave, State.setWave_setWave]

/-! ## What issues -/

theorem decodeChecks_run (s : State) (c : LCtx) (h : LaneReady s c) : decodeChecks c s = .ok () s := by
  simp only [decodeChecks, bind_run, getWave_run]
  have h1 : (!laneOk c.i) = false := by simp [h.decodes]
  have h2 : ((s.wave c.k).lhandler.isSome && handlerForbids c.i c.w) = false := by
    cases hx : (s.wave c.k).lhandler.isSome
    · rfl
    · simp [h.handler hx]
  have h3 : ((ruleOf c.i).cls == LaneClass.LM && (ruleOf c.i).slot && c.w.slot != 0 && ((s.wave c.k).buf.find c.w.slot.toNat).isNone) = false := by
    by_cases ha : (ruleOf c.i).cls = LaneClass.LM <;> cases hb : (ruleOf c.i).slot <;> by_cases hc : c.w.slot = 0 <;> simp_all
    exact h.bound ha hb hc
  simp only [h1, h2, h3, Bool.false_eq_true, if_false]
  rfl

theorem stopAtSafe_run (s : State) (c : LCtx) (h : honoured s c = false) : stopAtSafe c s = .ok () s := by
  simp only [stopAtSafe, bind_run, get_run]
  rw [ite_run, if_neg (by simp [h])]; rfl

theorem laneWait_run (s : State) (c : LCtx) (h : waitAmount c.i c.w = 0 ∨ waitGranted c (s.wave c.k) = true) : laneWait c s = .ok () s := by
  simp only [laneWait]
  by_cases h0 : waitAmount c.i c.w = 0
  · rw [ite_run, if_pos h0]; rfl
  · rw [ite_run, if_neg h0]
    simp only [bind_run, get_run]
    rw [ite_run, if_pos (by simpa [h0] using h)]; rfl

theorem scoreboard_run (s : State) (c : LCtx) (h : LaneReady s c) : scoreboard c s = .ok () s := by
  simp only [scoreboard, bind_run, getWave_run]
  rw [ite_run, if_neg (by simp [h.loaded])]
  show (if _ then _ else _ : M Unit) s = _
  rw [ite_run, if_neg (by simp [h.unwritten])]; rfl

theorem poisonCheck_run (s : State) (c : LCtx) (h : poisonedLanes c (s.wave c.k) = 0) : poisonCheck c s = .ok () s := by
  simp only [poisonCheck, bind_run, get_run]
  rw [ite_run, if_neg (by simp [h])]; rfl

theorem laneInstr_run (s : State) (c : LCtx) (uni eff : LCtx → M Unit) (h : LaneReady s c) (hu : uni c s = .ok () s) :
    laneInstr c.i c.w uni eff s = .next (laneEnd c (eff c s)) := by
  simp only [laneInstr, h.actor, h.group, h.ctx]
  congr 2
  simp only [bind_run, decodeChecks_run s c h, stopAtSafe_run s c h.runs, hu, laneWait_run s c h.wait, scoreboard_run s c h, h.tokens,
    earlyResults, pure_run, poisonCheck_run s c h.clean]

theorem peakCheck_run (s : State) (c : LCtx) (ns : List Nat) (h : c.act ≠ 0 → overPeak s c.k (laneFrees c (s.wave c.k)) ns = false) :
    peakCheck c ns s = .ok () s := by
  simp only [peakCheck, bind_run, get_run]
  rw [ite_run, if_neg (by rintro ⟨ha, hb⟩; simp [h ha] at hb)]; rfl

theorem waveSem_setWave (s : State) (k : Nat) (w : Wave) (n : Nat) (h : w.hart.crew = (s.wave k).hart.crew) :
    (s.setWave k w).waveSem k n = s.waveSem k n := by
  simp only [State.waveSem, State.wave_setWave, h]
  rfl

theorem laneWave_run (s : State) (c : LCtx) (eff : LCtx → Wave → Wave) (h : LaneReady s c)
    (hh : (eff c (s.wave c.k)).hart = (s.wave c.k).hart) :
    laneWave c.i c.w eff s = .next (laneDone (s.setWave c.k (eff c (s.wave c.k))) c {}) := by
  simp only [laneWave]
  rw [laneInstr_run s c _ _ h rfl]
  simp only [bind_run, peakCheck_run s c _ h.room, modWave_run, completed]
  rw [completedBy_run]
  · rfl
  · intro hs
    rw [waveSem_setWave _ _ _ _ (by rw [hh])]
    exact h.signal hs

@[simp] theorem setRow_hart (w : Wave) (n : Nat) (r : Lanes Word) : (w.setRow n r).hart = w.hart := by
  simp only [Wave.setRow]; split <;> rfl
@[simp] theorem writeReg_hart (w : Wave) (n : Nat) (m : Mask) (f : Nat → Word) : (w.writeReg n m f).hart = w.hart := by
  simp only [Wave.writeReg]; split
  · rfl
  · rw [setRow_hart]
@[simp] theorem writeOperand_hart (w : Wave) (b : Bool) (n : Nat) (m : Mask) (f : Nat → Dword) : (w.writeOperand b n m f).hart = w.hart := by
  simp only [Wave.writeOperand]; split <;> simp
@[simp] theorem orFlags_hart (w : Wave) (m : Mask) (f : Nat → Nat) : (w.orFlags m f).hart = w.hart := by simp only [Wave.orFlags]
@[simp] theorem drawn_hart (w : Wave) (m : Mask) (n : Nat) : (w.drawn m n).hart = w.hart := by
  simp only [Wave.drawn]; split <;> rfl
@[simp] theorem writeResults_hart (c : LCtx) (b : Bool) (n : Nat) (f : Nat → LaneRes) (w : Wave) : (writeResults c b n f w).hart = w.hart := by
  simp [writeResults]
@[simp] theorem writePred_hart (w : Wave) (n : Nat) (m v : Mask) : (w.writePred n m v).hart = w.hart := rfl
@[simp] theorem accordWave_hart (c : LCtx) (f : Wave → Nat → AccRes) (w : Wave) : (accordWave c f w).hart = w.hart := by simp [accordWave]

theorem effects_hart (c : LCtx) (w : LaneWord) : ∀ e ∈ laneEffects w, ∀ st, (e.2 c st).hart = st.hart := by
  intro e he st
  simp only [laneEffects, List.mem_append, List.mem_map] at he
  rcases he with ((((⟨x, -, rfl⟩ | ⟨x, -, rfl⟩) | ⟨x, -, rfl⟩) | ⟨x, -, rfl⟩) | ⟨x, -, rfl⟩) | he
  · simp [elemInstr]
  · simp [roundInstr]
  · simp
  · simp
  · simp
  · simp only [waveTable, List.mem_cons, List.not_mem_nil, or_false] at he
    rcases he with rfl | rfl | rfl | rfl | rfl | rfl | rfl | rfl | rfl | rfl | rfl | rfl | rfl | rfl <;>
      simp [fcmpEffect, reduceWave, scanWave, lfmWave, alnExponent, alnApply, seedEffect, getEffect, drawEffect] <;> split <;> simp

theorem intOp_sat (i : Instr) (w : LaneWord) (s : State) (h : (ruleOf i).cls = .L) (f : Int → Int → Int) :
    intOp i w f s = laneWave i w (fun c => elemInstr c (ints w w.sat f)) s := by
  have sat : (w.sat && (ruleOf i).cls == .L) = w.sat := by simp [h]
  simp only [intOp, elemOp, sat]; rfl

theorem intOp_li (i : Instr) (w : LaneWord) (s : State) (h : (ruleOf i).cls = .LI) (f : Int → Int → Int) :
    intOp i w f s = laneWave i w (fun c => elemInstr c (ints w false f)) s := by
  have sat : (w.sat && (ruleOf i).cls == .L) = false := by simp [h]
  simp only [intOp, elemOp, sat]; rfl

theorem exec_ints (w : LaneWord) (s : State) : ∀ e ∈ intTable w, exec e.1 s = laneWave e.1 w (fun c => elemInstr c e.2) s := by
  simp only [intTable, List.forall_mem_cons, exec_laneAdd, exec_addLi, exec_laneSub, exec_subLi, exec_laneMul, exec_mulLi, exec_mulhi, exec_mulhiLi, exec_laneMin, exec_minLi, exec_laneMax, exec_maxLi, exec_laneAbs, exec_laneNeg, exec_imad]
  exact ⟨intOp_sat _ _ _ rfl _, intOp_li _ _ _ rfl _, intOp_sat _ _ _ rfl _, intOp_li _ _ _ rfl _, intOp_sat _ _ _ rfl _,
    intOp_li _ _ _ rfl _, rfl, rfl, intOp_sat _ _ _ rfl _, intOp_li _ _ _ rfl _, intOp_sat _ _ _ rfl _, intOp_li _ _ _ rfl _,
    intOp_sat _ _ _ rfl _, intOp_sat _ _ _ rfl _, rfl, by simp⟩

theorem exec_logic (w : LaneWord) (s : State) : ∀ e ∈ logicTable w, exec e.1 s = laneWave e.1 w (fun c => elemInstr c e.2) s := by
  simp only [logicTable, List.forall_mem_cons, exec_laneAnd, exec_andLi, exec_laneOr, exec_orLi, exec_laneXor, exec_xorLi, exec_laneNot, exec_andn, exec_andnLi]
  exact ⟨rfl, rfl, rfl, rfl, rfl, rfl, rfl, rfl, rfl, by simp⟩

theorem exec_shift (w : LaneWord) (s : State) : ∀ e ∈ shiftTable w, exec e.1 s = laneWave e.1 w (fun c => elemInstr c e.2) s := by
  simp only [shiftTable, List.forall_mem_cons, exec_shl, exec_shlLi, exec_shr, exec_shrLi, exec_sha, exec_shaLi, exec_rol, exec_rolLi, exec_ror, exec_rorLi, exec_brev, exec_popc, exec_clz, exec_ctz, exec_bfx, exec_bfi]
  exact ⟨rfl, rfl, rfl, rfl, rfl, rfl, rfl, rfl, rfl, rfl, rfl, rfl, rfl, rfl, rfl, rfl, by simp⟩

theorem floatOp_sat (i : Instr) (w : LaneWord) (s : State) (h : (ruleOf i).cls = .L) (f : FFmt → Rnd → Bool → FVal → FVal → FVal → FRes) :
    floatOp i w f s = laneWave i w (fun c => roundInstr c fun r x y z =>
      f (laneFmt w.ty) r w.sat (unpack (laneFmt w.ty) x) (unpack (laneFmt w.ty) y) (unpack (laneFmt w.ty) z)) s := by
  have sat : (w.sat && (ruleOf i).cls == .L) = w.sat := by simp [h]
  simp only [floatOp, sat]

theorem floatOp_li (i : Instr) (w : LaneWord) (s : State) (h : (ruleOf i).cls = .LI) (f : FFmt → Rnd → Bool → FVal → FVal → FVal → FRes) :
    floatOp i w f s = laneWave i w (fun c => roundInstr c fun r x y z =>
      f (laneFmt w.ty) r false (unpack (laneFmt w.ty) x) (unpack (laneFmt w.ty) y) (unpack (laneFmt w.ty) z)) s := by
  have sat : (w.sat && (ruleOf i).cls == .L) = false := by simp [h]
  simp only [floatOp, sat]

theorem exec_round (w : LaneWord) (s : State) : ∀ e ∈ roundTable w, exec e.1 s = laneWave e.1 w (fun c => roundInstr c fun r x y z =>
    e.2 r (unpack (laneFmt w.ty) x) (unpack (laneFmt w.ty) y) (unpack (laneFmt w.ty) z)) s := by
  simp only [roundTable, List.forall_mem_cons, exec_fadd, exec_faddLi, exec_fsub, exec_fsubLi, exec_fmul, exec_fmulLi, exec_fdiv, exec_fsqrt, exec_fma, exec_fms, exec_fnma]
  exact ⟨floatOp_sat _ _ _ rfl _, floatOp_li _ _ _ rfl _, floatOp_sat _ _ _ rfl _, floatOp_li _ _ _ rfl _, floatOp_sat _ _ _ rfl _,
    floatOp_li _ _ _ rfl _, floatOp_sat _ _ _ rfl _, floatOp_sat _ _ _ rfl _, floatOp_sat _ _ _ rfl _, floatOp_sat _ _ _ rfl _,
    floatOp_sat _ _ _ rfl _, by simp⟩

theorem exec_flag (w : LaneWord) (s : State) : ∀ e ∈ flagTable w, exec e.1 s = laneWave e.1 w (fun c st => writeResults c (ty64 w.ty) 0
    (fun l => perElem w.ty (fun _ x y _ => e.2 x y) (opA c st l) (opB c st l) 0) st) s := by
  simp only [flagTable, List.forall_mem_cons, exec_fmin, exec_fminLi, exec_fmax, exec_fmaxLi, exec_fabs, exec_fneg, exec_fclass]
  exact ⟨rfl, rfl, rfl, rfl, rfl, rfl, rfl, by simp⟩

theorem exec_move (w : LaneWord) (s : State) : ∀ e ∈ moveTable w, exec e.1 s = laneWave e.1 w
    (fun c st => writeResults c e.2.1 0 (fun l => { val := e.2.2 c st l }) st) s := by
  simp only [moveTable, List.forall_mem_cons, exec_shflIdx, exec_shflXor, exec_shflUp, exec_shflDn, exec_bcst, exec_sel, exec_selLi, exec_mov, exec_movu, exec_movi, exec_movx, exec_voteMask, exec_lfmRd]
  exact ⟨rfl, rfl, rfl, rfl, rfl, rfl, rfl, rfl, rfl, rfl, rfl, rfl, rfl, by simp⟩

theorem exec_pred (w : LaneWord) (s : State) : ∀ e ∈ predTable w, exec e.1 s = laneWave e.1 w
    (fun c st => st.writePred w.vd.toNat c.act (e.2 c st)) s := by
  simp only [predTable, List.forall_mem_cons, exec_icmp, exec_icmpLi, exec_pand, exec_por, exec_pxor, exec_pnot, exec_pmov, exec_voteAny, exec_voteAll]
  exact ⟨rfl, rfl, rfl, rfl, rfl, rfl, rfl, rfl, rfl, by simp⟩

theorem exec_wave (w : LaneWord) (s : State) : ∀ e ∈ waveTable w, exec e.1 s = laneWave e.1 w e.2 s := by
  simp only [waveTable, List.forall_mem_cons, exec_fcmp, exec_fcmpLi, exec_reduce, exec_scan, exec_lfmWr, exec_cvt, exec_qnt, exec_aln, exec_rsvSeed, exec_rsvUpd, exec_rsvMrg, exec_rsvFin, exec_rsvGet, exec_rsvDraw]
  exact ⟨rfl, rfl, rfl, rfl, rfl, rfl, rfl, rfl, rfl, rfl, rfl, rfl, rfl, rfl, by simp⟩

theorem exec_table (w : LaneWord) (s : State) : ∀ e ∈ laneEffects w, exec e.1 s = laneWave e.1 w e.2 s := by
  intro e he
  simp only [laneEffects, List.mem_append, List.mem_map] at he
  rcases he with ((((⟨x, hx, rfl⟩ | ⟨x, hx, rfl⟩) | ⟨x, hx, rfl⟩) | ⟨x, hx, rfl⟩) | ⟨x, hx, rfl⟩) | he
  · simp only [elemTable, List.mem_append] at hx
    rcases hx with (hx | hx) | hx
    · exact exec_ints w s x hx
    · exact exec_logic w s x hx
    · exact exec_shift w s x hx
  · exact exec_round w s x hx
  · exact exec_flag w s x hx
  · exact exec_move w s x hx
  · exact exec_pred w s x hx
  · exact exec_wave w s e he


theorem ofFn_get (f : Fin 64 → Word) (l : Nat) (h : l < 64) : (Vector.ofFn f)[l]! = f ⟨l, h⟩ := by
  simp [h]

theorem row_setRow_ne (w : Wave) {m n : Nat} (r : Lanes Word) (h : m ≠ n) : (w.setRow n r).row m = w.row m := by
  simp only [Wave.setRow, Wave.row]
  cases hl : w.lhandler with
  | none => simp only [hl]; exact Map.getD_put_ne _ _ _ h
  | some x =>
    simp only []
    split
    · exact Map.getD_put_ne _ _ _ h
    · rfl

theorem row_setRow (w : Wave) (n : Nat) (r : Lanes Word) (h : w.lhandler = none ∨ 248 ≤ n) : (w.setRow n r).row n = r := by
  simp only [Wave.setRow, Wave.row]
  cases hl : w.lhandler with
  | none => simp only [hl]; exact Map.getD_put_self _ _ _ _
  | some x =>
    have : 248 ≤ n := by simpa [hl] using h
    simp only [if_pos this, Map.getD_put_self]

/-- The wave with `bad` changed reads the same registers. -/
theorem row_bad (w : Wave) (b : List Nat) (n : Nat) : ({ w with bad := b } : Wave).row n = w.row n := rfl

theorem reg_writeReg_ne (w : Wave) {m n : Nat} (k : Mask) (f : Nat → Word) (l : Nat) (h : m ≠ n) : (w.writeReg n k f).reg m l = w.reg m l := by
  simp only [Wave.writeReg, Wave.reg]
  split
  · rfl
  · rw [row_setRow_ne _ _ h, row_bad]

theorem has_zero (l : Nat) : Mask.has 0#64 l = false := by simp [Mask.has]

theorem row_writeReg (w : Wave) (n : Nat) (k : Mask) (f : Nat → Word) (hk : k ≠ 0) (h : w.lhandler = none ∨ 248 ≤ n) :
    (w.writeReg n k f).row n = Vector.ofFn fun l => if Mask.has k l.val then f l.val else (w.row n)[l] := by
  simp only [Wave.writeReg, if_neg hk]
  exact row_setRow _ n _ h

theorem reg_writeReg_off (w : Wave) (m n : Nat) (k : Mask) (f : Nat → Word) (l : Nat) (hl : l < 64) (h : Mask.has k l = false)
    : (w.writeReg n k f).reg m l = w.reg m l := by
  by_cases hk : k = 0
  · simp only [Wave.writeReg, if_pos hk]
  by_cases hm : m = n
  · subst hm
    by_cases hh : w.lhandler = none ∨ 248 ≤ m
    · simp only [Wave.reg]
      rw [row_writeReg w m k f hk hh, ofFn_get _ l hl]
      simp [h, hl]
    · obtain ⟨h1, h2⟩ := not_or.1 hh
      obtain ⟨x, hx⟩ := Option.ne_none_iff_exists'.1 h1
      simp only [Wave.writeReg, if_neg hk, Wave.reg, Wave.setRow, Wave.row, hx, if_neg h2]
  · exact reg_writeReg_ne w k f l hm

theorem reg_writeReg_on (w : Wave) (n : Nat) (k : Mask) (f : Nat → Word) (l : Nat) (hl : l < 64) (h : Mask.has k l = true)
    (hh : w.lhandler = none ∨ 248 ≤ n) : (w.writeReg n k f).reg n l = f l := by
  have hk : k ≠ 0#64 := by
    rintro rfl
    rw [has_zero] at h
    cases h
  simp only [Wave.reg]
  rw [row_writeReg w n k f hk hh, ofFn_get _ l hl]
  simp [h]

/-! ## What an effect keeps -/

/-- An effect of an instruction on its wave: what it leaves of the wave. -/
structure Kept (c : LCtx) (w v : Wave) : Prop where
  rest : v = { w with
    v := v.v
    p := v.p
    lfm := v.lfm
    accord := v.accord
    bad := v.bad
    lhandler := v.lhandler }
  handler : v.lhandler = none ↔ w.lhandler = none
  group : ∀ b, v.group b = w.group b
  regs : ∀ n l, l < 64 → (n ∉ laneWrites c.i c.w ∨ Mask.has c.act l = false) → v.reg n l = w.reg n l
  preds : ∀ n l, l < 64 → ((ruleOf c.i).vd ≠ .pw ∨ n % 8 ≠ c.w.vd.toNat % 8 ∨ Mask.has c.act l = false) →
    Mask.has (v.pred n) l = Mask.has (w.pred n) l
  modes : ∀ l, l < 64 → Mask.has c.act l = false → v.lfmOf l = w.lfmOf l ∧ v.acc l = w.acc l

theorem Kept.refl (c : LCtx) (w : Wave) : Kept c w w :=
  ⟨rfl, Iff.rfl, fun _ => rfl, fun _ _ _ _ => rfl, fun _ _ _ _ => rfl, fun _ _ _ => ⟨rfl, rfl⟩⟩

theorem Kept.trans {c : LCtx} {u v w : Wave} (h1 : Kept c u v) (h2 : Kept c v w) : Kept c u w where
  rest := by rw [h2.rest, h1.rest]
  handler := h2.handler.trans h1.handler
  group b := (h2.group b).trans (h1.group b)
  regs n l hl h := (h2.regs n l hl h).trans (h1.regs n l hl h)
  preds n l hl h := (h2.preds n l hl h).trans (h1.preds n l hl h)
  modes l hl h := ⟨(h2.modes l hl h).1.trans (h1.modes l hl h).1, (h2.modes l hl h).2.trans (h1.modes l hl h).2⟩

theorem kept_setRow (w : Wave) (n : Nat) (r : Lanes Word) : (w.setRow n r) = { w with
    v := (w.setRow n r).v
    lhandler := (w.setRow n r).lhandler } ∧ ((w.setRow n r).lhandler = none ↔ w.lhandler = none) ∧
    (∀ b, (w.setRow n r).group b = w.group b) := by
  simp only [Wave.setRow, Wave.group]
  cases hl : w.lhandler with
  | none => simp [hl]
  | some x => simp

theorem kept_writeReg (c : LCtx) (w : Wave) (n : Nat) (f : Nat → Word) (hn : n ∈ laneWrites c.i c.w) : Kept c w (w.writeReg n c.act f) := by
  by_cases hk : c.act = 0
  · simp only [Wave.writeReg, if_pos hk]; exact Kept.refl c w
  have hr := fun m l hl h => show (w.writeReg n c.act f).reg m l = w.reg m l from
    (show m ∉ laneWrites c.i c.w ∨ Mask.has c.act l = false from h).elim
      (fun h => reg_writeReg_ne w c.act f l (fun e => h (e ▸ hn))) (fun h => reg_writeReg_off w m n c.act f l hl h)
  revert hr
  simp only [Wave.writeReg, if_neg hk]
  generalize hw : ({ w with bad := w.bad.filter fun b => !(b / 32 == n && Mask.has c.act (b % 32 * 2) && Mask.has c.act (b % 32 * 2 + 1)) } : Wave) = w'
  intro hr
  generalize (Vector.ofFn fun l : Fin 64 => if Mask.has c.act l.val = true then f l.val else (w.row n)[l]) = r at hr ⊢
  obtain ⟨h1, h2, h3⟩ := kept_setRow w' n r
  have e : w' = { w with bad := w'.bad } := by rw [← hw]
  refine ⟨by rw [h1]; rw [e], by rw [h2, e], fun b => by rw [h3, e]; rfl, fun m l hl h => hr m l hl h, fun m l _ _ => ?_, fun l _ _ => ⟨?_, ?_⟩⟩
  · simp only [Wave.pred]; rw [h1, e]
  · simp only [Wave.lfmOf]; rw [h1, e]
  · simp only [Wave.acc]; rw [h1, e]

theorem kept_writeOperand (c : LCtx) (w : Wave) (wide : Bool) (n : Nat) (f : Nat → Dword) (h1 : n ∈ laneWrites c.i c.w)
    (h2 : wide = true → n + 1 ∈ laneWrites c.i c.w) : Kept c w (w.writeOperand wide n c.act f) := by
  cases wide with
  | false => simp only [Wave.writeOperand, Bool.false_eq_true, if_false]; exact kept_writeReg c w n _ h1
  | true =>
    simp only [Wave.writeOperand, if_true]
    exact (kept_writeReg c w n _ h1).trans (kept_writeReg c _ (n + 1) _ (h2 rfl))

theorem kept_lfm (c : LCtx) (w : Wave) (x : Lanes Byte) (h : ∀ l, l < 64 → Mask.has c.act l = false → x[l]! = w.lfm[l]!) :
    Kept c w { w with lfm := x } :=
  ⟨rfl, Iff.rfl, fun _ => rfl, fun _ _ _ _ => rfl, fun _ _ _ _ => rfl, fun l hl ha => ⟨h l hl ha, rfl⟩⟩

theorem kept_acc (c : LCtx) (w : Wave) (x : Lanes Accord)
    (h : ∀ l, l < 64 → Mask.has c.act l = false → (x[l]?).getD {} = (w.accord[l]?).getD {}) : Kept c w { w with accord := x } :=
  ⟨rfl, Iff.rfl, fun _ => rfl, fun _ _ _ _ => rfl, fun _ _ _ _ => rfl, fun l hl ha => ⟨rfl, h l hl ha⟩⟩

theorem kept_bad (c : LCtx) (w : Wave) (b : List Nat) : Kept c w { w with bad := b } :=
  ⟨rfl, Iff.rfl, fun _ => rfl, fun _ _ _ _ => rfl, fun _ _ _ _ => rfl, fun _ _ _ => ⟨rfl, rfl⟩⟩

theorem kept_pred (c : LCtx) (w : Wave) (x : Vector Mask 8) (b : List Nat)
    (h : ∀ n l, n < 8 → n ≠ 0 → l < 64 → ((ruleOf c.i).vd ≠ .pw ∨ n ≠ c.w.vd.toNat % 8 ∨ Mask.has c.act l = false) →
      Mask.has x[n]! l = Mask.has w.p[n]! l) : Kept c w { w with
        p := x
        bad := b } := by
  refine ⟨rfl, Iff.rfl, fun _ => rfl, fun _ _ _ _ => rfl, fun n l hl hn => ?_, fun _ _ _ => ⟨rfl, rfl⟩⟩
  simp only [Wave.pred]
  split
  · rfl
  · rename_i h0
    exact h (n % 8) l (by omega) h0 hl hn

theorem lanes_get {α : Type} [Inhabited α] (f : Fin 64 → α) (l : Nat) (h : l < 64) : (Vector.ofFn f)[l]! = f ⟨l, h⟩ := by
  simp [h]

theorem acc_get (f : Fin 64 → Accord) (l : Nat) (h : l < 64) : ((Vector.ofFn f)[l]?).getD {} = f ⟨l, h⟩ := by
  simp [h]

theorem kept_orFlags (c : LCtx) (w : Wave) (f : Nat → Nat) : Kept c w (w.orFlags c.act f) := by
  simp only [Wave.orFlags]
  apply kept_lfm
  intro l hl h
  rw [lanes_get _ l hl]
  simp [h, hl]

theorem kept_accord (c : LCtx) (w : Wave) (f : Fin 64 → Accord) :
    Kept c w { w with accord := Vector.ofFn fun l => if Mask.has c.act l.val then f l else w.accord[l] } := by
  apply kept_acc
  intro l hl h
  rw [acc_get _ l hl]
  simp [h, hl]

theorem kept_drawn (c : LCtx) (w : Wave) (n : Nat) : Kept c w (w.drawn c.act n) := by
  simp only [Wave.drawn]
  split
  · exact Kept.refl c w
  · apply kept_accord

theorem kept_lfmWave (c : LCtx) (w : Wave) : Kept c w (lfmWave c w) := by
  simp only [lfmWave]
  apply kept_lfm
  intro l hl h
  rw [lanes_get _ l hl]
  simp [h, hl]

theorem kept_accordWave (c : LCtx) (w : Wave) (f : Wave → Nat → AccRes) : Kept c w (accordWave c f w) := by
  simp only [accordWave]
  refine Kept.trans ?_ (kept_orFlags c _ _)
  apply kept_accord

theorem kept_results (c : LCtx) (w : Wave) (wide : Bool) (d : Nat) (f : Nat → LaneRes) (h1 : c.w.vd.toNat ∈ laneWrites c.i c.w)
    (h2 : wide = true → c.w.vd.toNat + 1 ∈ laneWrites c.i c.w) : Kept c w (writeResults c wide d f w) := by
  simp only [writeResults]
  exact ((kept_writeOperand c w wide _ _ h1 h2).trans (kept_orFlags c _ _)).trans (kept_drawn c _ _)

theorem preds_set (p : Vector Mask 8) (i j : Nat) (x : Mask) (hj : j < 8) : (p.set! i x)[j]! = if i = j then x else p[j]! := by
  show (p.setIfInBounds i x)[j]! = _
  simp [hj, Vector.getElem_setIfInBounds]

theorem kept_writePred (c : LCtx) (w : Wave) (v : Mask) (h : (ruleOf c.i).vd = .pw) : Kept c w (w.writePred c.w.vd.toNat c.act v) := by
  simp only [Wave.writePred]
  apply kept_pred
  intro n l hn h0 hl ha
  have ha := ha.resolve_left (by simp [h])
  rw [preds_set _ _ _ _ hn]
  split
  · rename_i h2
    have ha : Mask.has c.act l = false := ha.resolve_left (by omega)
    simp only [Mask.has] at *
    simp only [Wave.pred, h2, if_neg h0]
    simp only [BitVec.getLsbD_or, BitVec.getLsbD_and, BitVec.getLsbD_not, ha, hl]
    simp
  · rfl

/-- The registers of an element-wise destination. -/
def destOf (w : LaneWord) : List Nat := if ty64 w.ty then [w.vd.toNat, w.vd.toNat + 1] else [w.vd.toNat]

theorem vd_dest (w : LaneWord) : w.vd.toNat ∈ destOf w := by simp only [destOf]; split <;> simp
theorem vd_dest' (w : LaneWord) (h : ty64 w.ty = true) : w.vd.toNat + 1 ∈ destOf w := by simp [destOf, h]

theorem writes_intTable (w : LaneWord) : ∀ e ∈ intTable w, laneWrites e.1 w = destOf w := by
  simp only [intTable, List.forall_mem_cons]
  exact ⟨rfl, rfl, rfl, rfl, rfl, rfl, rfl, rfl, rfl, rfl, rfl, rfl, rfl, rfl, rfl, by simp⟩

theorem writes_logicTable (w : LaneWord) : ∀ e ∈ logicTable w, laneWrites e.1 w = destOf w := by
  simp only [logicTable, List.forall_mem_cons]
  exact ⟨rfl, rfl, rfl, rfl, rfl, rfl, rfl, rfl, rfl, by simp⟩

theorem writes_shiftTable (w : LaneWord) : ∀ e ∈ shiftTable w, laneWrites e.1 w = destOf w := by
  simp only [shiftTable, List.forall_mem_cons]
  exact ⟨rfl, rfl, rfl, rfl, rfl, rfl, rfl, rfl, rfl, rfl, rfl, rfl, rfl, rfl, rfl, rfl, by simp⟩

theorem writes_roundTable (w : LaneWord) : ∀ e ∈ roundTable w, laneWrites e.1 w = destOf w := by
  simp only [roundTable, List.forall_mem_cons]
  exact ⟨rfl, rfl, rfl, rfl, rfl, rfl, rfl, rfl, rfl, rfl, rfl, by simp⟩

theorem writes_flagTable (w : LaneWord) : ∀ e ∈ flagTable w, laneWrites e.1 w = destOf w := by
  simp only [flagTable, List.forall_mem_cons]
  exact ⟨rfl, rfl, rfl, rfl, rfl, rfl, rfl, by simp⟩

theorem writes_pred (w : LaneWord) : ∀ e ∈ predTable w, (ruleOf e.1).vd = .pw := by
  simp only [predTable, List.forall_mem_cons]
  exact ⟨rfl, rfl, rfl, rfl, rfl, rfl, rfl, rfl, rfl, by simp⟩

theorem writes_move (w : LaneWord) : ∀ e ∈ moveTable w, (w.vd.toNat ∈ laneWrites e.1 w) ∧ (e.2.1 = true → w.vd.toNat + 1 ∈ laneWrites e.1 w) := by
  have d : w.vd.toNat ∈ destOf w ∧ (ty64 w.ty = true → w.vd.toNat + 1 ∈ destOf w) := ⟨vd_dest w, vd_dest' w⟩
  have g : w.vd.toNat ∈ (List.range 2).map (w.vd.toNat + ·) ∧ (true = true → w.vd.toNat + 1 ∈ (List.range 2).map (w.vd.toNat + ·)) := by
    simp [List.range_succ]
  have n : w.vd.toNat ∈ destOf w ∧ (false = true → w.vd.toNat + 1 ∈ destOf w) := ⟨vd_dest w, by simp⟩
  simp only [moveTable, List.forall_mem_cons]
  exact ⟨d, d, d, d, d, d, d, d, d, d, n, ⟨g.1, fun _ => g.2 rfl⟩, n, by simp⟩

theorem kept_dest (c : LCtx) (w : Wave) (d : Nat) (f : Nat → LaneRes) (h : laneWrites c.i c.w = destOf c.w) :
    Kept c w (writeResults c (ty64 c.w.ty) d f w) :=
  kept_results c w _ d f (h ▸ vd_dest c.w) (fun h' => h ▸ vd_dest' c.w h')

theorem kept_one (c : LCtx) (w : Wave) (d : Nat) (f : Nat → LaneRes) (h : laneWrites c.i c.w = destOf c.w) :
    Kept c w (writeResults c false d f w) :=
  kept_results c w _ d f (h ▸ vd_dest c.w) (by simp)

theorem kept_fcmp (c : LCtx) (w : Wave) (h : (ruleOf c.i).vd = .pw) : Kept c w (fcmpEffect c.w c w) := by
  simp only [fcmpEffect]
  exact (kept_writePred c w _ h).trans (kept_orFlags c _ _)

theorem kept_get (c : LCtx) (w : Wave) (hw : laneWrites c.i c.w = (List.range 4).map (c.w.vd.toNat + ·)) : Kept c w (getEffect c.w c w) := by
  have hm : ∀ j, j < 4 → c.w.vd.toNat + j ∈ laneWrites c.i c.w := by
    intro j hj; rw [hw]; simp [hj]
  have k := ((kept_writeReg c w c.w.vd.toNat (fun l => (w.acc l).word 0) (hm 0 (by omega))).trans
    (kept_writeReg c _ (c.w.vd.toNat + 1) (fun l => (w.acc l).word 1) (hm 1 (by omega)))).trans
    ((kept_writeReg c _ (c.w.vd.toNat + 2) (fun l => (w.acc l).word 2) (hm 2 (by omega))).trans
    (kept_writeReg c _ (c.w.vd.toNat + 3) (fun l => (w.acc l).word 3) (hm 3 (by omega))))
  simp only [getEffect]
  split
  · exact k.trans (kept_accordWave c _ _)
  · exact k

theorem kept_seed (c : LCtx) (w : Wave) : Kept c w (seedEffect c w) := by
  simp only [seedEffect]
  exact (kept_bad c w _).trans (kept_accordWave c _ _)

theorem kept_aln (c : LCtx) (w : Wave) (h : laneWrites c.i c.w = destOf c.w) :
    Kept c w (if c.w.vc = 1 then alnExponent c w else alnApply c w) := by
  split
  · simp only [alnExponent]; exact kept_one c w _ _ h
  · simp only [alnApply]; exact kept_one c w _ _ h

theorem kept_reduce (c : LCtx) (w : Wave) (h : laneWrites c.i c.w = destOf c.w) : Kept c w (reduceWave c w) := by
  simp only [reduceWave]; exact kept_dest c w _ _ h

theorem kept_scan (c : LCtx) (w : Wave) (h : laneWrites c.i c.w = destOf c.w) : Kept c w (scanWave c w) := by
  simp only [scanWave]; exact kept_dest c w _ _ h

theorem kept_draw (c : LCtx) (w : Wave) (h : laneWrites c.i c.w = destOf c.w) : Kept c w (drawEffect c w) := by
  simp only [drawEffect]; exact kept_one c w _ _ h

theorem kept_wave (c : LCtx) (w : Wave) : ∀ e ∈ waveTable c.w, c.i = e.1 → Kept c w (e.2 c w) := by
  simp only [waveTable, List.forall_mem_cons]
  refine ⟨fun h => kept_fcmp c w (by rw [h]; rfl), fun h => kept_fcmp c w (by rw [h]; rfl), fun h => kept_reduce c w (by rw [h]; rfl),
    fun h => kept_scan c w (by rw [h]; rfl), fun h => kept_lfmWave c w, fun h => kept_dest c w _ _ (by rw [h]; rfl),
    fun h => kept_one c w _ _ (by rw [h]; rfl), fun h => kept_aln c w (by rw [h]; rfl), fun h => kept_seed c w,
    fun h => kept_accordWave c w _, fun h => kept_accordWave c w _, fun h => kept_accordWave c w _, fun h => kept_get c w (by rw [h]; rfl),
    fun h => kept_draw c w (by rw [h]; rfl), by simp⟩

theorem effects_kept (c : LCtx) (w : Wave) (eff : LCtx → Wave → Wave) (he : (c.i, eff) ∈ laneEffects c.w) : Kept c w (eff c w) := by
  simp only [laneEffects, List.mem_append, List.mem_map] at he
  rcases he with ((((⟨x, hx, he⟩ | ⟨x, hx, he⟩) | ⟨x, hx, he⟩) | ⟨x, hx, he⟩) | ⟨x, hx, he⟩) | he
  · obtain ⟨hi, rfl⟩ := Prod.mk.inj he
    refine kept_dest c w _ _ ?_
    rw [← hi]
    simp only [elemTable, List.mem_append] at hx
    rcases hx with (hx | hx) | hx
    · exact writes_intTable _ x hx
    · exact writes_logicTable _ x hx
    · exact writes_shiftTable _ x hx
  · obtain ⟨hi, rfl⟩ := Prod.mk.inj he
    exact kept_dest c w _ _ (hi ▸ writes_roundTable _ x hx)
  · obtain ⟨hi, rfl⟩ := Prod.mk.inj he
    exact kept_dest c w _ _ (hi ▸ writes_flagTable _ x hx)
  · obtain ⟨hi, rfl⟩ := Prod.mk.inj he
    exact kept_results c w _ _ _ (hi ▸ (writes_move _ x hx).1) (fun h => hi ▸ (writes_move _ x hx).2 h)
  · obtain ⟨hi, rfl⟩ := Prod.mk.inj he
    exact kept_writePred c w _ (hi ▸ writes_pred _ x hx)
  · exact kept_wave c w _ he rfl

theorem find_filter {α : Type} (m : Map α) (ns : List Nat) (n : Nat) :
    Map.find (m.filter fun e => !ns.contains e.1) n = if n ∈ ns then none else Map.find m n := by
  induction m with
  | nil => simp [Map.find]
  | cons e t ih =>
    rw [List.filter_cons]
    by_cases h : e.1 ∈ ns
    · rw [if_neg (by simp [h]), ih]
      split
      · rfl
      · rename_i hn
        simp only [Map.find]
        rw [if_neg]
        rintro rfl; exact hn h
    · rw [if_pos (by simp [h])]
      obtain ⟨j, v⟩ := e
      simp only [Map.find, ih]
      by_cases hj : j = n
      · subst hj; simp [h]
      · simp [hj]

theorem row_freeNames (w : Wave) (ns : List Nat) (n : Nat) (h : w.lhandler = none) :
    (w.freeNames ns).row n = if n ∈ ns then zeroRow else w.row n := by
  simp only [Wave.freeNames, Wave.row, h, Map.getD, find_filter]
  split <;> rfl

theorem row_freeNil (w : Wave) (n : Nat) : (w.freeNames []).row n = w.row n := by
  have : w.freeNames [] = w := by
    have e : (w.v.filter fun e => !([] : List Nat).contains e.1) = w.v := List.filter_eq_self.2 (by simp)
    simp only [Wave.freeNames, e]
  rw [this]

theorem laneFrees_congr (c : LCtx) (w v : Wave) (h1 : v.lanes = w.lanes) (h2 : v.lhandler = none ↔ w.lhandler = none) :
    laneFrees c v = laneFrees c w := by
  have e : v.lhandler.isNone = w.lhandler.isNone := by
    cases hv : v.lhandler <;> cases hw : w.lhandler <;> simp_all
  simp only [laneFrees, h1, e]

theorem row_setGroup (w : Wave) (b : Bool) (g : Option Group) (n : Nat) : (w.setGroup b g).row n = w.row n := by
  simp only [Wave.setGroup, Wave.row]
  cases hl : w.lhandler with
  | none => cases b <;> simp [hl]
  | some h => cases g <;> simp [hl]

theorem group_setGroup (w : Wave) (b : Bool) (g : Group) (h : (w.group b).isSome) : (w.setGroup b (some g)).group b = some g := by
  simp only [Wave.setGroup, Wave.group] at *
  cases hl : w.lhandler with
  | none => cases b <;> simp [hl]
  | some x => cases b <;> simp_all

theorem group_setGroup_other (w : Wave) (b : Bool) (g : Option Group) (h : w.lhandler = none) :
    (w.setGroup b g).group (!b) = w.group (!b) := by
  simp only [Wave.setGroup, Wave.group, h]
  cases b <;> simp [h]

theorem setGroup_rest (w : Wave) (b : Bool) (g : Option Group) : w.setGroup b g = { w with
    pri := (w.setGroup b g).pri
    sec := (w.setGroup b g).sec
    lhandler := (w.setGroup b g).lhandler } := by
  simp only [Wave.setGroup]
  cases w.lhandler with
  | none => cases b <;> rfl
  | some x => cases g <;> rfl

theorem signalled_rest (s : State) (c : LCtx) (on : Await) (w : Wave) : signalled s c on w = { w with
    signals := (signalled s c on w).signals } := by
  simp only [signalled]
  split
  · split <;> rfl
  · rfl

/-- The wave after a completed instruction, from the wave that its effect left. -/
theorem wave_laneDone (s : State) (c : LCtx) (on : Await) (w : Wave) : (laneDone (s.setWave c.k w) c on).wave c.k =
    waveRetired c (groupOn c ((signalled (s.setWave c.k w) c on w).freeNames (laneFrees c (signalled (s.setWave c.k w) c on w)))) := by
  simp only [laneDone, laneRetired, State.wave_setWave]

theorem laneFrees_handler (c : LCtx) (w : Wave) (h : w.lhandler ≠ none) : laneFrees c w = [] := by
  have : w.lhandler.isNone = false := by cases hx : w.lhandler <;> simp_all
  simp [laneFrees, this]

theorem keeps_of (s : State) (c : LCtx) (on : Await) (w v : Wave) (k : Kept c w v) (hg : w.group c.sec = some c.g) :
    WaveKept c w (waveRetired c (groupOn c ((signalled s c on v).freeNames (laneFrees c (signalled s c on v))))) := by
  have hs := signalled_rest s c on v
  generalize signalled s c on v = u at hs
  have hf : laneFrees c u = laneFrees c w := by
    apply laneFrees_congr
    · rw [hs, k.rest]
    · rw [hs]; exact k.handler
  rw [hf]
  have row (n : Nat) : (u.freeNames (laneFrees c w)).row n = if n ∈ laneFrees c w then zeroRow else v.row n := by
    have e : u.row n = v.row n := by rw [hs]; rfl
    by_cases hn : u.lhandler = none
    · rw [row_freeNames u _ n hn, e]
    · have : laneFrees c w = [] := laneFrees_handler c w (fun e => hn (by rw [hs]; exact k.handler.2 e))
      rw [this, row_freeNil, e]; rfl
  have grp : ∀ b, (u.freeNames (laneFrees c w)).group b = w.group b := by
    intro b
    rw [← k.group b]
    show u.group b = v.group b
    rw [hs]; rfl
  have hrest : u.freeNames (laneFrees c w) = { v with
      v := (u.freeNames (laneFrees c w)).v
      signals := u.signals } := by
    simp only [Wave.freeNames]; rw [hs]
  generalize u.freeNames (laneFrees c w) = z at row grp hrest
  have hz : groupOn c z = z.setGroup c.sec (some (c.g.at (c.g.pc + 12))) := by
    simp only [groupOn, grp, hg, Option.map_some]
  rw [hz]
  have row' (n : Nat) : (waveRetired c (z.setGroup c.sec (some (c.g.at (c.g.pc + 12))))).row n = if n ∈ laneFrees c w then zeroRow else v.row n :=
    (row_setGroup z c.sec _ n).trans (row n)
  have hzr := setGroup_rest z c.sec (some (c.g.at (c.g.pc + 12)))
  have g1 := group_setGroup z c.sec (c.g.at (c.g.pc + 12)) (by rw [grp, hg]; rfl)
  have g2 := group_setGroup_other z c.sec (some (c.g.at (c.g.pc + 12)))
  refine ⟨?_, ?_, ?_, ?_, ?_, ?_⟩
  · generalize z.setGroup c.sec (some (c.g.at (c.g.pc + 12))) = y at hzr
    simp only [waveRetired]
    rw [hzr, hrest, k.rest]
  · intro n l hl h hn
    simp only [Wave.reg, row', if_neg hn]
    exact k.regs n l hl h
  · intro n hn l hl
    simp only [Wave.reg, row', if_pos hn, zeroRow]
    simp [hl]
  · intro n l hl h
    rw [← k.preds n l hl h]
    simp only [waveRetired, Wave.pred]
    rw [hzr, hrest]
  · intro l hl h
    rw [← (k.modes l hl h).1, ← (k.modes l hl h).2]
    simp only [waveRetired, Wave.lfmOf, Wave.acc]
    rw [hzr, hrest]
    exact ⟨rfl, rfl⟩
  · refine ⟨g1, fun hh => ?_⟩
    have : z.lhandler = none := by rw [hrest]; exact k.handler.2 hh
    rw [← grp (!c.sec), ← g2 this]
    rfl

theorem pack_lt (wd : Nat) (f : Nat → FRes) (n : Nat) : (packElems wd f n).bits < 2 ^ (wd * n) := by
  induction n with
  | zero => simp [packElems]
  | succ n ih =>
    simp only [packElems]
    have h := Nat.mod_lt (f n).bits (show 2 ^ wd > 0 from Nat.two_pow_pos wd)
    rw [Nat.mul_succ, Nat.pow_add, Nat.mul_comm (2 ^ (wd * n))]
    calc _ < 2 ^ (wd * n) + (f n).bits % 2 ^ wd * 2 ^ (wd * n) := by omega
      _ = ((f n).bits % 2 ^ wd + 1) * 2 ^ (wd * n) := by rw [Nat.add_mul]; omega
      _ ≤ _ := Nat.mul_le_mul_right _ h

theorem pack_elem (wd : Nat) (f : Nat → FRes) (n e : Nat) (h : e < n) :
    bits (packElems wd f n).bits (wd * e) wd = (f e).bits % 2 ^ wd := by
  induction n with
  | zero => omega
  | succ n ih =>
    simp only [packElems, bits]
    by_cases he : e = n
    · subst he
      rw [Nat.add_mul_div_right _ _ (Nat.two_pow_pos _), Nat.div_eq_of_lt (pack_lt wd f e)]
      simp
    · have hl : e < n := by omega
      rw [← ih hl]
      simp only [bits]
      obtain ⟨d, rfl⟩ : ∃ d, n = e + 1 + d := ⟨n - (e + 1), by omega⟩
      have : 2 ^ (wd * (e + 1 + d)) = 2 ^ (wd * e) * (2 ^ wd * 2 ^ (wd * d)) := by
        rw [← Nat.pow_add, ← Nat.pow_add]; congr 1
        rw [Nat.mul_add, Nat.mul_add, Nat.mul_one, Nat.add_assoc]
      rw [this]
      generalize (packElems wd f (e + 1 + d)).bits = P
      generalize (f (e + 1 + d)).bits % 2 ^ wd = a
      rw [show a * (2 ^ (wd * e) * (2 ^ wd * 2 ^ (wd * d))) = 2 ^ (wd * e) * (a * 2 ^ (wd * d) * 2 ^ wd) by
        rw [Nat.mul_left_comm]; congr 1; rw [Nat.mul_comm (2 ^ wd), Nat.mul_assoc]]
      rw [Nat.add_mul_div_left _ _ (Nat.two_pow_pos _), Nat.add_mul_mod_self_right]

theorem pack_flags (wd : Nat) (f : Nat → FRes) (n : Nat) : (packElems wd f n).flags = joined f n := by
  induction n with
  | zero => rfl
  | succ n ih =>
    simp only [packElems, joined, List.range_succ, List.map_append, List.foldl_append, List.map_cons, List.map_nil, List.foldl_cons,
      List.foldl_nil]
    rw [ih]; rfl

theorem widths (ty : BitVec 4) : tyWidth ty * tyCount ty ≤ (if ty64 ty then 64 else 32) := by
  revert ty; decide

theorem elem_pack (ty : BitVec 4) (f : Nat → FRes) (e : Nat) (h : e < tyCount ty) :
    elem (BitVec.ofNat 64 (packElems (tyWidth ty) f (tyCount ty)).bits) (tyWidth ty) e = (f e).bits % 2 ^ tyWidth ty := by
  have hw : tyWidth ty * tyCount ty ≤ 64 := Nat.le_trans (widths ty) (by split <;> omega)
  have hl : (packElems (tyWidth ty) f (tyCount ty)).bits < 2 ^ 64 :=
    Nat.lt_of_lt_of_le (pack_lt _ _ _) (Nat.pow_le_pow_right (by omega) hw)
  simp only [elem, BitVec.toNat_ofNat, Nat.mod_eq_of_lt hl]
  exact pack_elem _ _ _ _ h

theorem pack_small (ty : BitVec 4) (f : Nat → FRes) (h : ty64 ty = false) :
    BitVec.ofNat 64 (packElems (tyWidth ty) f (tyCount ty)).bits &&& 0xFFFFFFFF#64 =
      BitVec.ofNat 64 (packElems (tyWidth ty) f (tyCount ty)).bits := by
  have hw := widths ty
  rw [h] at hw
  have hl : (packElems (tyWidth ty) f (tyCount ty)).bits < 2 ^ 32 :=
    Nat.lt_of_lt_of_le (pack_lt _ _ _) (Nat.pow_le_pow_right (by omega) (by simpa using hw))
  apply BitVec.eq_of_toNat_eq
  rw [BitVec.toNat_and]
  simp only [BitVec.toNat_ofNat]
  rw [show (4294967295 : Nat) % 2 ^ 64 = 2 ^ 32 - 1 by decide, Nat.and_two_pow_sub_one_eq_mod, Nat.mod_eq_of_lt (Nat.lt_trans hl (by decide)), Nat.mod_eq_of_lt hl]

theorem low_half (x : Dword) : (x.setWidth 32 : Word).zeroExtend 64 = x &&& 0xFFFFFFFF#64 := by
  apply BitVec.eq_of_toNat_eq
  rw [BitVec.toNat_and]
  simp only [BitVec.truncate_eq_setWidth, BitVec.toNat_setWidth]
  rw [show (4294967295#64).toNat = 2 ^ 32 - 1 by decide, Nat.and_two_pow_sub_one_eq_mod]
  omega

theorem pair_halves (x : Dword) : (((x >>> 32).setWidth 32 : Word).zeroExtend 64 <<< 32) ||| (x.setWidth 32 : Word).zeroExtend 64 = x := by
  apply BitVec.eq_of_getLsbD_eq
  intro i hi
  simp only [BitVec.getLsbD_or, BitVec.getLsbD_shiftLeft, BitVec.truncate_eq_setWidth, BitVec.getLsbD_setWidth, BitVec.getLsbD_ushiftRight, hi]
  by_cases h : i < 32
  · simp [h]
  · have h2 : i - 32 < 32 := by omega
    have h3 : 32 + (i - 32) = i := by omega
    have h4 : i - 32 < 64 := by omega
    simp [h, h2, h3, h4]

theorem operand_on (w : Wave) (wide : Bool) (n : Nat) (m : Mask) (f : Nat → Dword) (l : Nat) (hl : l < 64) (h : Mask.has m l = true)
    (hh : w.lhandler = none ∨ 248 ≤ n) :
    (w.writeOperand wide n m f).operand wide n l = if wide then f l else f l &&& 0xFFFFFFFF#64 := by
  cases wide with
  | false =>
    simp only [Wave.writeOperand, Wave.operand, Bool.false_eq_true, if_false]
    rw [reg_writeReg_on w n m _ l hl h hh, low_half]
  | true =>
    simp only [Wave.writeOperand, Wave.operand, if_true, Wave.pair]
    have h2 : (w.writeReg n m fun l => (f l).setWidth 32).lhandler = none ∨ 248 ≤ n + 1 := by
      rcases hh with hh | hh
      · left
        simp only [Wave.writeReg]
        split
        · exact hh
        · exact (kept_setRow _ n _).2.1.2 hh
      · right; omega
    rw [reg_writeReg_on _ (n + 1) m _ l hl h h2, reg_writeReg_ne _ m _ l (by omega), reg_writeReg_on w n m _ l hl h hh]
    exact pair_halves (f l)

theorem orFlags_on (w : Wave) (m : Mask) (f : Nat → Nat) (l : Nat) (hl : l < 64) (h : Mask.has m l = true) :
    (w.orFlags m f).lfmOf l = w.lfmOf l ||| BitVec.ofNat 8 (f l % 32) := by
  simp only [Wave.lfmOf, Wave.orFlags]
  rw [lanes_get _ l hl]
  simp [h, hl]

theorem drawn_reads (w : Wave) (m : Mask) (n : Nat) : w.drawn m n = { w with accord := (w.drawn m n).accord } := by
  simp only [Wave.drawn]; split <;> rfl

theorem drawn_on (w : Wave) (m : Mask) (n l : Nat) (hl : l < 64) (h : Mask.has m l = true) :
    (w.drawn m n).acc l = { w.acc l with ctr := (w.acc l).ctr + BitVec.ofNat 64 n } := by
  simp only [Wave.drawn]
  split
  · rename_i h0; subst h0; simp
  · simp only [Wave.acc]
    rw [acc_get _ l hl]
    simp [h, hl]

theorem writeReg_modes (w : Wave) (n : Nat) (m : Mask) (g : Nat → Word) :
    (w.writeReg n m g).lfm = w.lfm ∧ (w.writeReg n m g).accord = w.accord := by
  simp only [Wave.writeReg]
  split
  · exact ⟨rfl, rfl⟩
  · rw [(kept_setRow _ n _).1]; exact ⟨rfl, rfl⟩

theorem writeOperand_modes (w : Wave) (wide : Bool) (n : Nat) (m : Mask) (f : Nat → Dword) :
    (w.writeOperand wide n m f).lfm = w.lfm ∧ (w.writeOperand wide n m f).accord = w.accord := by
  cases wide with
  | false => simp only [Wave.writeOperand, Bool.false_eq_true, if_false]; exact writeReg_modes _ _ _ _
  | true =>
    simp only [Wave.writeOperand, if_true]
    exact ⟨(writeReg_modes _ _ _ _).1.trans (writeReg_modes _ _ _ _).1, (writeReg_modes _ _ _ _).2.trans (writeReg_modes _ _ _ _).2⟩

theorem operand_congr {v w : Wave} (h1 : v.v = w.v) (h2 : v.lhandler = w.lhandler) (wide : Bool) (n l : Nat) :
    v.operand wide n l = w.operand wide n l := by
  simp only [Wave.operand, Wave.pair, Wave.reg, Wave.row, h1, h2]

theorem drawn_regs (w : Wave) (m : Mask) (n : Nat) : (w.drawn m n).v = w.v ∧ (w.drawn m n).lhandler = w.lhandler ∧ (w.drawn m n).lfm = w.lfm := by
  simp only [Wave.drawn]; split <;> exact ⟨rfl, rfl, rfl⟩

theorem orFlags_regs (w : Wave) (m : Mask) (f : Nat → Nat) :
    (w.orFlags m f).v = w.v ∧ (w.orFlags m f).lhandler = w.lhandler ∧ (w.orFlags m f).accord = w.accord := by
  simp only [Wave.orFlags]; exact ⟨trivial, trivial, trivial⟩

theorem results_on (c : LCtx) (w : Wave) (wide : Bool) (d : Nat) (f : Nat → LaneRes) (l : Nat) (hl : l < 64) (h : Mask.has c.act l = true)
    (hh : w.lhandler = none ∨ 248 ≤ c.w.vd.toNat) :
    (writeResults c wide d f w).operand wide c.w.vd.toNat l = (if wide then (f l).val else (f l).val &&& 0xFFFFFFFF#64) ∧
    (writeResults c wide d f w).lfmOf l = w.lfmOf l ||| BitVec.ofNat 8 ((f l).flags % 32) ∧
    (writeResults c wide d f w).acc l = { w.acc l with ctr := (w.acc l).ctr + BitVec.ofNat 64 d } := by
  have hk := writeOperand_modes w wide c.w.vd.toNat c.act fun l => (f l).val
  have ho := operand_on w wide c.w.vd.toNat c.act (fun l => (f l).val) l hl h hh
  simp only [writeResults]
  generalize (w.writeOperand wide c.w.vd.toNat c.act fun l => (f l).val) = u at hk ho
  have hf := orFlags_on u c.act (fun l => (f l).flags) l hl h
  have hr := orFlags_regs u c.act fun l => (f l).flags
  generalize (u.orFlags c.act fun l => (f l).flags) = x at hf hr
  have hd := drawn_regs x c.act d
  have hn := drawn_on x c.act d l hl h
  generalize x.drawn c.act d = y at hd hn
  refine ⟨?_, ?_, ?_⟩
  · rw [operand_congr (hd.1.trans hr.1) (hd.2.1.trans hr.2.1), ho]
  · simp only [Wave.lfmOf, hd.2.2] at *
    rw [hf, hk.1]
  · simp only [Wave.acc, hr.2.2, hk.2] at hn
    exact hn

/-- What the wave reads after a completed instruction, where nothing was freed. -/
theorem done_reads (s : State) (c : LCtx) (on : Await) (w v : Wave) (k : Kept c w v) :
    let u := (laneDone (s.setWave c.k v) c on).wave c.k
    (∀ n, n ∉ laneFrees c w → u.row n = v.row n) ∧ u.lfm = v.lfm ∧ u.accord = v.accord ∧ u.p = v.p := by
  simp only [wave_laneDone]
  have hs := signalled_rest (s.setWave c.k v) c on v
  generalize signalled (s.setWave c.k v) c on v = u at hs
  have hf : laneFrees c u = laneFrees c w := by
    apply laneFrees_congr
    · rw [hs, k.rest]
    · rw [hs]; exact k.handler
  rw [hf]
  have row (n : Nat) (h : n ∉ laneFrees c w) : (u.freeNames (laneFrees c w)).row n = v.row n := by
    have e : u.row n = v.row n := by rw [hs]; rfl
    by_cases hn : u.lhandler = none
    · rw [row_freeNames u _ n hn, if_neg h, e]
    · have : laneFrees c w = [] := laneFrees_handler c w (fun e => hn (by rw [hs]; exact k.handler.2 e))
      rw [this, row_freeNil, e]
  have hrest : (u.freeNames (laneFrees c w)).lfm = v.lfm ∧ (u.freeNames (laneFrees c w)).accord = v.accord ∧
      (u.freeNames (laneFrees c w)).p = v.p := by
    simp only [Wave.freeNames]; rw [hs]; exact ⟨rfl, rfl, rfl⟩
  generalize u.freeNames (laneFrees c w) = z at row hrest
  simp only [groupOn]
  generalize (z.group c.sec).map (fun g => g.at (c.g.pc + 12)) = g
  have hz := setGroup_rest z c.sec g
  refine ⟨fun n h => (row_setGroup z c.sec g n).trans (row n h), ?_, ?_, ?_⟩
  · rw [← hrest.1, hz]; rfl
  · rw [← hrest.2.1, hz]; rfl
  · rw [← hrest.2.2, hz]; rfl

theorem writes_high (s : State) (c : LCtx) (h : LaneReady s c) (n : Nat) (hn : n ∈ laneWrites c.i c.w) :
    (s.wave c.k).lhandler = none ∨ 248 ≤ n := by
  cases hl : (s.wave c.k).lhandler with
  | none => exact .inl rfl
  | some x =>
    have hf := h.handler (by rw [hl]; rfl)
    right
    simp only [handlerForbids, Bool.or_eq_false_iff, List.any_eq_false] at hf
    have := hf.1.1.2 n hn
    simpa using this

/-- What an instruction writes is named by its VD field. -/
theorem writes_named (i : Instr) (w : LaneWord) (n : Nat) (hn : n ∈ laneWrites i w) : n ∈ vdRegs i w := by
  unfold laneWrites at hn
  split at hn
  · simp only [vdRegs]
    cases h : ty64 w.ty <;> simp only [h, Bool.false_eq_true, if_false, if_true] at hn ⊢ <;> simp [List.range_succ] at hn ⊢ <;> omega
  · split at hn
    · simp at hn
    · exact hn

theorem writes_kept (c : LCtx) (w : Wave) (n : Nat) (hn : n ∈ laneWrites c.i c.w) : n ∉ laneFrees c w := by
  have hv : n ∈ vdRegs c.i c.w := writes_named c.i c.w n hn
  simp only [laneFrees]
  split
  · intro h
    have := (List.mem_filter.1 h).2
    simp [hv] at this
  · simp

/-- Results written to VD, as the state after the instruction shows them. -/
theorem results_run (s : State) (c : LCtx) (wide : Bool) (d : Nat) (f : Nat → LaneRes) (h : LaneReady s c)
    (h1 : c.w.vd.toNat ∈ laneWrites c.i c.w) (h2 : wide = true → c.w.vd.toNat + 1 ∈ laneWrites c.i c.w) (l : Nat) (hl : l < 64)
    (ha : Mask.has c.act l = true) :
    let u := (laneDone (s.setWave c.k (writeResults c wide d f (s.wave c.k))) c {}).wave c.k
    u.operand wide c.w.vd.toNat l = (if wide then (f l).val else (f l).val &&& 0xFFFFFFFF#64) ∧
    u.lfmOf l = (s.wave c.k).lfmOf l ||| BitVec.ofNat 8 ((f l).flags % 32) ∧
    u.acc l = { (s.wave c.k).acc l with ctr := ((s.wave c.k).acc l).ctr + BitVec.ofNat 64 d } := by
  have r := results_on c (s.wave c.k) wide d f l hl ha (writes_high s c h _ h1)
  have g := done_reads s c {} (s.wave c.k) _ (kept_results c (s.wave c.k) wide d f h1 h2)
  generalize writeResults c wide d f (s.wave c.k) = v at r g
  simp only [] at g ⊢
  generalize (laneDone (s.setWave c.k v) c {}).wave c.k = u at g ⊢
  obtain ⟨g1, g2, g3, g4⟩ := g
  refine ⟨?_, ?_, ?_⟩
  · rw [← r.1]
    have e1 := g1 _ (writes_kept c (s.wave c.k) _ h1)
    cases wide with
    | false => simp only [Wave.operand, Wave.reg, e1]; simp only [Bool.false_eq_true, if_false]
    | true => simp only [Wave.operand, Wave.pair, Wave.reg, e1, g1 _ (writes_kept c (s.wave c.k) _ (h2 rfl))]
  · rw [← r.2.1]; simp only [Wave.lfmOf, g2]
  · rw [← r.2.2]; simp only [Wave.acc, g3]

theorem dest_mem (c : LCtx) (h : laneWrites c.i c.w = destOf c.w) :
    c.w.vd.toNat ∈ laneWrites c.i c.w ∧ (ty64 c.w.ty = true → c.w.vd.toNat + 1 ∈ laneWrites c.i c.w) :=
  ⟨h ▸ vd_dest c.w, fun h' => h ▸ vd_dest' c.w h'⟩

/-- An element-wise instruction writes the result of each element. -/
theorem elements_run (s : State) (c : LCtx) (d : Nat) (F : Nat → Nat → Nat → Nat → Nat → FRes) (g : Nat → LaneRes) (h : LaneReady s c)
    (hw : laneWrites c.i c.w = destOf c.w) (hg : ∀ l, (g l).val = BitVec.ofNat 64
      (packElems (tyWidth c.w.ty) (elementOf c (s.wave c.k) l (F l)) (tyCount c.w.ty)).bits)
    (hf : ∀ l, (g l).flags = joined (elementOf c (s.wave c.k) l (F l)) (tyCount c.w.ty)) :
    ElementsAre c (s.wave c.k) ((laneDone (s.setWave c.k (writeResults c (ty64 c.w.ty) d g (s.wave c.k))) c {}).wave c.k) F := by
  intro l hl ha
  have hm := dest_mem c hw
  have r := results_run s c (ty64 c.w.ty) d g h hm.1 hm.2 l hl ha
  refine ⟨fun e he => ?_, by rw [r.2.1, hf]⟩
  rw [r.1, ← elem_pack c.w.ty _ e he, hg]
  cases h64 : ty64 c.w.ty with
  | true => rfl
  | false =>
    rw [if_neg (by simp), pack_small c.w.ty _ h64]

theorem elems_writes (w : LaneWord) (e : Instr × (Nat → Nat → Nat → Nat)) (hx : e ∈ elemTable w) : laneWrites e.1 w = destOf w := by
  simp only [elemTable, List.mem_append] at hx
  rcases hx with (hx | hx) | hx
  · exact writes_intTable _ e hx
  · exact writes_logicTable _ e hx
  · exact writes_shiftTable _ e hx

theorem mem_elem {c : LCtx} {f : Nat → Nat → Nat → Nat} (h : (c.i, f) ∈ elemTable c.w) : (c.i, fun c => elemInstr c f) ∈ laneEffects c.w := by
  simp only [laneEffects, List.mem_append, List.mem_map]
  exact .inl (.inl (.inl (.inl (.inl ⟨_, h, rfl⟩))))

theorem mem_round {c : LCtx} {f : Rnd → FVal → FVal → FVal → FRes} (h : (c.i, f) ∈ roundTable c.w) : (c.i, fun c' => roundInstr c' fun r x y z =>
    f r (unpack (laneFmt c.w.ty) x) (unpack (laneFmt c.w.ty) y) (unpack (laneFmt c.w.ty) z)) ∈ laneEffects c.w := by
  simp only [laneEffects, List.mem_append, List.mem_map]
  exact .inl (.inl (.inl (.inl (.inr ⟨_, h, rfl⟩))))

theorem mem_flag {c : LCtx} {f : Nat → Nat → FRes} (h : (c.i, f) ∈ flagTable c.w) : (c.i, fun c' st => writeResults c' (ty64 c.w.ty) 0
    (fun l => perElem c.w.ty (fun _ x y _ => f x y) (opA c' st l) (opB c' st l) 0) st) ∈ laneEffects c.w := by
  simp only [laneEffects, List.mem_append, List.mem_map]
  exact .inl (.inl (.inl (.inr ⟨_, h, rfl⟩)))

theorem mem_move {c : LCtx} {wide : Bool} {f : LCtx → Wave → Nat → Dword} (h : (c.i, wide, f) ∈ moveTable c.w) :
    (c.i, fun c st => writeResults c wide 0 (fun l => { val := f c st l }) st) ∈ laneEffects c.w := by
  simp only [laneEffects, List.mem_append, List.mem_map]
  exact .inl (.inl (.inr ⟨_, h, rfl⟩))

theorem mem_pred {c : LCtx} {f : LCtx → Wave → Mask} (h : (c.i, f) ∈ predTable c.w) :
    (c.i, fun c' st => st.writePred c.w.vd.toNat c'.act (f c' st)) ∈ laneEffects c.w := by
  simp only [laneEffects, List.mem_append, List.mem_map]
  exact .inl (.inr ⟨_, h, rfl⟩)

theorem pw_range (i : Instr) (w : LaneWord) (hp : ∃ a b, laneParts i = some (a, b, w)) (h : laneOk i = true) (hw : (ruleOf i).vd = .pw) :
    1 ≤ w.vd.toNat ∧ w.vd.toNat ≤ 7 := by
  obtain ⟨a, b, hp⟩ := hp
  simp only [laneOk, hp] at h
  cases hr : laneRule i with
  | none => rw [hr] at h; simp at h
  | some r =>
    rw [hr] at h
    simp only [ruleOf, hr, Option.getD_some] at hw
    simp only [Bool.and_eq_true] at h
    have hc := h.1.2
    simp only [LaneRule.classOk, hw, Opd.ok] at hc
    cases hcl : r.cls <;> simp only [hcl, Bool.and_eq_true, decide_eq_true_eq] at hc <;> omega

theorem parts_pred (w : LaneWord) : ∀ e ∈ predTable w, ∃ a b, laneParts e.1 = some (a, b, w) := by
  simp only [predTable, List.forall_mem_cons]
  exact ⟨⟨_, _, rfl⟩, ⟨_, _, rfl⟩, ⟨_, _, rfl⟩, ⟨_, _, rfl⟩, ⟨_, _, rfl⟩, ⟨_, _, rfl⟩, ⟨_, _, rfl⟩, ⟨_, _, rfl⟩, ⟨_, _, rfl⟩, by simp⟩

theorem pred_on (c : LCtx) (w : Wave) (m : Mask) (l : Nat) (hl : l < 64) (ha : Mask.has c.act l = true) (hr : 1 ≤ c.w.vd.toNat ∧ c.w.vd.toNat ≤ 7) :
    Mask.has ((w.writePred c.w.vd.toNat c.act m).pred c.w.vd.toNat) l = Mask.has m l := by
  have h0 : ¬c.w.vd.toNat % 8 = 0 := by omega
  simp only [Wave.pred, Wave.writePred, if_neg h0]
  rw [preds_set _ _ _ _ (by omega), if_pos rfl]
  simp only [Mask.has] at *
  simp only [BitVec.getLsbD_or, BitVec.getLsbD_and, BitVec.getLsbD_not, ha, hl]
  simp

end Sys2Proof.Machine
end

