-- ==== Sys2Proof/Laws/LaneMemory.lean ====
section
/-! SUPPORT. Lane memory instructions that meet no cause: their checks, their issue and their completion. -/

namespace Sys2Proof.Machine

open Sys2Proof.Claim

theorem laneFailures_ok (ls : List Nat) (f : Nat → M Unit) (s : State) (h : ∀ l ∈ ls, f l s = .ok () s) : laneFailures ls f s = .ok [] s := by
  induction ls with
  | nil => rfl
  | cons l t ih =>
    simp only [laneFailures, bind_run, attempt, h l (by simp), ih (fun l hl => h l (by simp [hl])), pure_run]

theorem laneCheck_ok (ls : List Nat) (f : Nat → M Unit) (s : State) (h : ∀ l ∈ ls, f l s = .ok () s) : laneCheck ls f s = .ok () s := by
  simp only [laneCheck, bind_run, laneFailures_ok ls f s h, pure_run]

theorem forLanes_ok {α : Type} (ls : List Nat) (f : Nat → M α) (g : Nat → α) (s : State) (h : ∀ l ∈ ls, f l s = .ok (g l) s) :
    forLanes ls f s = .ok (ls.map g) s := by
  induction ls with
  | nil => rfl
  | cons l t ih =>
    simp only [forLanes, bind_run, h l (by simp), ih (fun l hl => h l (by simp [hl])), pure_run, List.map_cons]

theorem heldBack_ok (c : LCtx) (s : State) (h : ∀ a ∈ (s.wave c.k).accesses, a.hold = false) : heldBack c s = .ok () s := by
  simp only [heldBack, bind_run, getWave_run]
  rw [ite_run, if_neg (by simpa using h)]; rfl

theorem recordCheck_ok (c : LCtx) (s : State) (h : badRecord (recordOf s c) c.w.ty = none)
    (hp : BufRec.flat (recordOf s c) = true → c.w.va.getLsbD 0 = false) : recordCheck c s = .ok (recordOf s c) s := by
  simp only [recordOf] at *
  simp only [recordCheck, bind_run, getWave_run, h]
  have : ¬(BufRec.flat ((s.wave c.k).record c.w.slot.toNat) && c.w.va.getLsbD 0) = true := by
    cases hf : BufRec.flat ((s.wave c.k).record c.w.slot.toNat)
    · simp
    · simpa using hp hf
  rw [ite_run, if_neg this]
  rfl

theorem reaches_canonical {s : State} {acc : Acc} {k : AccessKind} {va : Dword} {n : Nat} {e : TlbEntry} (h : Reaches s acc k va n e) :
    canonical va = true := h.1

theorem lanesInBounds_ok {s : State} {c : LCtx} {k : AccessKind} {whole : Bool} {e : Nat → TlbEntry} (h : LanesReach s c k whole e) :
    lanesInBounds c (recordOf s c) whole s = .ok (inBounds s c) s := by
  simp only [lanesInBounds, bind_run, get_run]
  have h1 (hb : BufRec.bnd (recordOf s c) = 1) : laneCheck (lanesOf c.act) (fun l => guardM (!(wordAt s c l).oob)
        (excDev 6 0 (wordAt s c l).va)) s = .ok () s := by
    refine laneCheck_ok _ _ _ fun l hl => ?_
    simp only [h.strict hb l hl]; rfl
  have h2 : laneCheck (inBounds s c) (fun l => guardM (!(wordAt s c l).mis && !(whole && (wordAt s c l).va.toNat % wordSize c.w.ty != 0))
      (excDev 4 0 (wordAt s c l).va)) s = .ok () s := by
    refine laneCheck_ok _ _ _ fun l hl => ?_
    obtain ⟨h1, h2, -⟩ := h.words l hl
    have : (!(wordAt s c l).mis && !(whole && (wordAt s c l).va.toNat % wordSize c.w.ty != 0)) = true := by
      cases whole <;> simp_all
    simp only [this]; rfl
  have h3 : laneCheck (inBounds s c) (fun l => guardM (canonical (wordAt s c l).va)
      (accessFault (s.laneAcc c.k) .load 0 (wordAt s c l).va.toNat)) s = .ok () s := by
    refine laneCheck_ok _ _ _ fun l hl => ?_
    simp only [reaches_canonical (h.words l hl).2.2]; rfl
  simp only [inBounds, wordAt] at h1 h2 h3
  by_cases hb : BufRec.bnd (recordOf s c) = 1
  · rw [ite_run, if_pos hb]
    simp only [bind_run, h1 hb, h2, h3, pure_run, inBounds, wordAt]
  · rw [ite_run, if_neg hb]
    simp only [bind_run, h2, h3, pure_run, inBounds, wordAt]

theorem laneAcc_setWave (s : State) (k : Nat) (w : Wave) (h1 : w.hart = (s.wave k).hart) (h2 : w.lhandler.isSome = (s.wave k).lhandler.isSome) :
    (s.setWave k w).laneAcc k = s.laneAcc k := by
  simp only [State.laneAcc, State.wave_setWave, h2, State.accOf, State.hart, h1]

theorem reaches_setWave {s : State} {k j : Nat} {w : Wave} {K : AccessKind} {va : Dword} {n : Nat} {e : TlbEntry}
    (h : Reaches s (s.laneAcc k) K va n e) : Reaches (s.setWave j w) (s.laneAcc k) K va n e := by
  obtain ⟨h1, h2, h3, h4, h5, h6⟩ := h
  refine ⟨h1, h2, h3, h4, ?_, h6⟩
  rw [← h5]
  have ht : (s.laneAcc k).tlb = .wengine (k / 16) := by
    simp only [State.laneAcc, State.accOf]; split <;> rfl
  rw [ht]; rfl

theorem seg_clean {s : State} {acc : Acc} {K : AccessKind} {va : Dword} {n : Nat} {e : TlbEntry} (h : Reaches s acc K va n e) (cl : Nat) :
    segsPoisoned s cl [segOf e va n] = false := by
  obtain ⟨-, -, -, -, -, -, -, -, -, hp, -⟩ := h
  simp only [segsPoisoned, segOf, List.any_cons, List.any_nil, Bool.or_false]
  exact hp

theorem laneResolve_ok {s : State} {c : LCtx} {ls : List Nat} {va : Nat → Dword} {n : Nat} {k : AccessKind} {e : Nat → TlbEntry}
    (atomic consume : Bool) (h : ∀ l ∈ ls, Reaches s (s.laneAcc c.k) k (va l) n (e l)) :
    laneResolve c ls va n k atomic consume s = .ok () s := by
  simp only [laneResolve, bind_run, get_run]
  refine laneCheck_ok _ _ _ fun l hl => ?_
  have hr := h l hl
  simp only [bind_run, resolve_reaches hr]
  rw [ite_run, if_neg (by simp)]
  simp only [bind_run, get_run]
  have := seg_clean hr (s.laneAcc c.k).cluster
  simp only [segOf] at this
  rw [ite_run, if_neg (by rw [this]; simp)]
  rfl

theorem releaseWave (s : State) (k scope : Nat) (h : ∀ q ∈ s.quantum, q.unit ≠ (UnitId.wave k).code) : s.releaseUnit (.wave k) scope = s := by
  simp only [State.releaseUnit, State.performAll]
  split
  · rfl
  · have h1 : ∀ q ∈ s.quantum, (q.unit == (UnitId.wave k).code && decide (q.scope ≤ scope)) = false := by
      intro q hq
      simp [h q hq]
    have h2 : List.filter (fun q => q.unit == (UnitId.wave k).code && decide (q.scope ≤ scope)) s.quantum = [] := by
      rw [List.filter_eq_nil_iff]; intro q hq; simp only [h1 q hq]; simp
    have h3 : List.filter (fun q => !(q.unit == (UnitId.wave k).code && decide (q.scope ≤ scope))) s.quantum = s.quantum := by
      rw [List.filter_eq_self]; intro q hq; simp only [h1 q hq]; simp
    rw [h2, h3]; rfl

theorem drainM_ok (s : State) (k : Nat) (h : (s.wave k).accesses = []) : drainM k s = .ok () s := by
  simp only [drainM, bind_run, getWave_run]
  rw [ite_run, if_neg (by simp [h])]; rfl

theorem laneRelease_ok (s : State) (c : LCtx) (h : (s.wave c.k).accesses = []) (hq : ∀ q ∈ s.quantum, q.unit ≠ (UnitId.wave c.k).code) :
    laneRelease c s = .ok () s := by
  simp only [laneRelease, bind_run, drainM_ok s c.k h, modify_run, releaseWave s c.k _ hq]

theorem noteOob_run (s : State) (c : LCtx) (store : Bool) (f : Unit → M Unit) :
    (noteOob c (inBounds s c) store >>= f) s = f () (if (inBounds s c).length < (lanesOf c.act).length then s.setWave c.k (noted s c store) else s) := by
  simp only [noteOob, bind_run, noted]
  by_cases h : (inBounds s c).length < (lanesOf c.act).length
  · rw [ite_run, if_pos h, if_pos h, if_pos h]; rfl
  · rw [ite_run, if_neg h, if_neg h]; rfl

theorem noted_hart (s : State) (c : LCtx) (store : Bool) : (noted s c store).hart = (s.wave c.k).hart ∧
    (noted s c store).lhandler = (s.wave c.k).lhandler ∧ (noted s c store).accesses = (s.wave c.k).accesses ∧
    (noted s c store).v = (s.wave c.k).v := by
  simp only [noted]; split <;> exact ⟨rfl, rfl, rfl, rfl⟩

theorem issueAccess_run (s : State) (c : LCtx) (op : AccessOp) (elems : List Elem) (t : State)
    (ht : asidOf (t.laneAcc c.k).dptb = asidOf (s.laneAcc c.k).dptb) :
    issueAccess c op elems t = .ok () (t.setWave c.k (issues s c op elems (t.wave c.k))) := by
  simp only [issueAccess, bind_run, get_run, modWave_run, issues, accessOf, ht]

theorem writeOperand_same (w : Wave) (wide : Bool) (n : Nat) (m : Mask) (f : Nat → Dword) :
    (w.writeOperand wide n m f).lhandler.isSome = w.lhandler.isSome := by
  have e : ∀ (w : Wave) n g, (w.writeReg n m g).lhandler.isSome = w.lhandler.isSome := by
    intro w n g
    simp only [Wave.writeReg]
    split
    · rfl
    · have := (kept_setRow ({ w with bad := w.bad.filter fun b => !(b / 32 == n && m.has (b % 32 * 2) && m.has (b % 32 * 2 + 1)) } : Wave) n
        (Vector.ofFn fun l => if m.has l.val then g l.val else (w.row n)[l])).2.1
      generalize (Wave.setRow _ _ _).lhandler = x at this
      cases x <;> cases hw : w.lhandler <;> simp_all
  cases wide with
  | false => simp only [Wave.writeOperand, Bool.false_eq_true, if_false]; exact e _ _ _
  | true => simp only [Wave.writeOperand, if_true]; exact (e _ _ _).trans (e _ _ _)

theorem forLanes_elems (s t : State) (c : LCtx) (k : AccessKind) (e : Nat → TlbEntry) (data : Nat → Dword)
    (h : ∀ l ∈ inBounds s c, Reaches t (s.laneAcc c.k) k (wordAt s c l).va (wordSize c.w.ty) (e l)) :
    forLanes (inBounds s c) (fun l => do
      let gs ← resolve (s.laneAcc c.k) (wordAt s c l).va (wordSize c.w.ty) k
      pure ({ lane := l, va := (wordAt s c l).va.toNat % 2 ^ 48, segs := gs, data := data l } : Elem)) t =
      .ok ((inBounds s c).map (elementAt s c e data)) t := by
  apply forLanes_ok
  intro l hl
  simp only [bind_run, resolve_reaches (h l hl), pure_run]
  rfl

theorem laneLoad_run (s : State) (c : LCtx) (whole : Bool) (e : Nat → TlbEntry) (h : LaneReady s c) (hv : c.w.vd.toNat ∈ laneWrites c.i c.w)
    (hr : LanesReach s c .load whole e) (hp : vdRegs c.i c.w = laneWrites c.i c.w) :
    laneLoad whole c s = .ok () (laneDone (s.setWave c.k (issues s c .load ((inBounds s c).map (elementAt s c e fun _ => 0))
        (((noted s c false).writeOperand (ty64 c.w.ty) c.w.vd.toNat c.act (opD c (s.wave c.k))).writeOperand
          (ty64 c.w.ty) c.w.vd.toNat (strayLanes s c) fun _ => 0))) c {}) := by
  have hh := noted_hart s c false
  obtain ⟨t, ht, hw, ha, hre, hset⟩ : ∃ t, (if (inBounds s c).length < (lanesOf c.act).length then s.setWave c.k (noted s c false) else s) = t ∧
      t.wave c.k = noted s c false ∧ t.laneAcc c.k = s.laneAcc c.k ∧
      (∀ l ∈ inBounds s c, Reaches t (s.laneAcc c.k) .load (wordAt s c l).va (wordSize c.w.ty) (e l)) ∧
      (∀ w, t.setWave c.k w = s.setWave c.k w) := by
    refine ⟨_, rfl, ?_⟩
    split
    · exact ⟨State.wave_setWave _ _ _, laneAcc_setWave _ _ _ hh.1 (by rw [hh.2.1]), fun l hl => reaches_setWave (hr.words l hl).2.2,
        fun w => State.setWave_setWave _ _ _ _⟩
    · rename_i hn
      exact ⟨by simp only [noted, if_neg hn], rfl, fun l hl => (hr.words l hl).2.2, fun w => rfl⟩
  have hrel (f : M Unit) : (if semReleases c.w.sem.toNat && c.act != 0 then do
      laneRelease c
      f
    else f) s = f s := by
    rw [ite_run]
    split
    · rename_i hc
      simp only [Bool.and_eq_true, bne_iff_ne] at hc
      obtain ⟨h1, h2⟩ := hr.release hc.1 hc.2
      simp only [bind_run, laneRelease_ok s c h1 h2]
    · rfl
  have hpk : peakCheck c (vdRegs c.i c.w) s = .ok () s := peakCheck_run s c _ (by rw [hp]; exact h.room)
  have hb := lanesInBounds_ok hr
  have hres := laneResolve_ok (c := c) false true (fun l hl => (hr.words l hl).2.2)
  simp only [laneLoad]
  simp only [bind_run, heldBack_ok c s hr.held, recordCheck_ok c s hr.record hr.pair, getWave_run, hb]
  simp only [wordAt] at hres
  simp only [hres, hpk]
  refine (hrel _).trans ?_
  rw [noteOob_run, ht]
  have hf := forLanes_elems s t c .load e (fun _ => 0) hre
  simp only [wordAt] at hf
  have hz : ({ lane := 0, va := 0, segs := [] } : Elem).data = 0 := rfl
  simp only [bind_run, get_run, ha, hf, modWave_run, hw, hset]
  have hop : (fun l => (noted s c false).operand (ty64 c.w.ty) c.w.vd.toNat l) = opD c (s.wave c.k) := by
    funext l
    exact operand_congr hh.2.2.2 hh.2.1 _ _ _
  simp only [hop]
  have hsm : (((noted s c false).writeOperand (ty64 c.w.ty) c.w.vd.toNat c.act (opD c (s.wave c.k))).writeOperand (ty64 c.w.ty) c.w.vd.toNat
      (c.act &&& ~~~maskOf (inBounds s c).contains) fun x => 0).lhandler.isSome = (s.wave c.k).lhandler.isSome := by
    rw [writeOperand_same, writeOperand_same, hh.2.1]
  have hht : (((noted s c false).writeOperand (ty64 c.w.ty) c.w.vd.toNat c.act (opD c (s.wave c.k))).writeOperand (ty64 c.w.ty) c.w.vd.toNat
      (c.act &&& ~~~maskOf (inBounds s c).contains) fun x => 0).hart = (s.wave c.k).hart := by
    rw [writeOperand_hart, writeOperand_hart, hh.1]
  simp only [strayLanes]
  generalize (((noted s c false).writeOperand (ty64 c.w.ty) c.w.vd.toNat c.act (opD c (s.wave c.k))).writeOperand (ty64 c.w.ty) c.w.vd.toNat
      (c.act &&& ~~~maskOf (inBounds s c).contains) fun x => 0) = w at hsm hht ⊢
  rw [issueAccess_run s c _ _ _ (by rw [laneAcc_setWave s c.k w hht hsm])]
  simp only [State.wave_setWave, State.setWave_setWave, completed]
  rw [completedBy_run]
  intro hs
  rw [waveSem_setWave _ _ _ _ (by simp only [issues, hht])]
  exact h.signal hs

theorem laneStore_run (s : State) (c : LCtx) (whole : Bool) (e : Nat → TlbEntry) (h : LaneReady s c)
    (hr : LanesReach s c .store whole e) :
    laneStore whole c s = .ok () (laneDone (s.setWave c.k (issues s c .store
        ((inBounds s c).map (elementAt s c e (opD c (s.wave c.k)))) (noted s c true))) c {}) := by
  have hh := noted_hart s c true
  obtain ⟨t, ht, hw, ha, hre, hset⟩ : ∃ t, (if (inBounds s c).length < (lanesOf c.act).length then s.setWave c.k (noted s c true) else s) = t ∧
      t.wave c.k = noted s c true ∧ t.laneAcc c.k = s.laneAcc c.k ∧
      (∀ l ∈ inBounds s c, Reaches t (s.laneAcc c.k) .store (wordAt s c l).va (wordSize c.w.ty) (e l)) ∧
      (∀ w, t.setWave c.k w = s.setWave c.k w) := by
    refine ⟨_, rfl, ?_⟩
    split
    · exact ⟨State.wave_setWave _ _ _, laneAcc_setWave _ _ _ hh.1 (by rw [hh.2.1]), fun l hl => reaches_setWave (hr.words l hl).2.2,
        fun w => State.setWave_setWave _ _ _ _⟩
    · rename_i hn
      exact ⟨by simp only [noted, if_neg hn], rfl, fun l hl => (hr.words l hl).2.2, fun w => rfl⟩
  have hrel (f : M Unit) : (if semReleases c.w.sem.toNat && c.act != 0 then do
      laneRelease c
      f
    else f) s = f s := by
    rw [ite_run]
    split
    · rename_i hc
      simp only [Bool.and_eq_true, bne_iff_ne] at hc
      obtain ⟨h1, h2⟩ := hr.release hc.1 hc.2
      simp only [bind_run, laneRelease_ok s c h1 h2]
    · rfl
  have hb := lanesInBounds_ok hr
  have hres := laneResolve_ok (c := c) false false (fun l hl => (hr.words l hl).2.2)
  simp only [laneStore]
  simp only [bind_run, heldBack_ok c s hr.held, recordCheck_ok c s hr.record hr.pair, getWave_run, hb]
  simp only [wordAt] at hres
  simp only [hres]
  refine (hrel _).trans ?_
  rw [noteOob_run, ht]
  have hf := forLanes_elems s t c .store e (opD c (s.wave c.k)) hre
  simp only [wordAt] at hf
  simp only [bind_run, get_run, ha, hf]
  rw [issueAccess_run s c _ _ _ (by rw [ha]), hw, hset]
  simp only [completed]
  rw [completedBy_run]
  intro hs
  rw [waveSem_setWave _ _ _ _ (by simp only [issues, hh.1])]
  exact h.signal hs

theorem laneReady_exec {s : State} {c : LCtx} {eff : LCtx → M Unit} {t : State} (h : LaneReady s c)
    (he : exec c.i s = laneInstr c.i c.w (fun _ => pure ()) eff s) (hr : eff c s = .ok () t) : exec c.i s = .next t := by
  rw [he, laneInstr_run s c _ _ h rfl, hr]; rfl

/-! ## Accesses performed -/

theorem moved_reads {s u : State} (h : Moved s u) : ∀ pa n, u.poisoned pa n = s.poisoned pa n ∧ u.peek pa n = s.peek pa n := by
  intro pa n
  simp only [State.poisoned, State.peek, h.mem, h.poison, and_self]

theorem loadElems_run {s : State} {k : Nat} {a : PendAccess} {pa : Nat → Nat} (acc : Acc) (hw : acc.who = .wave k) (hint : Nat) (es : List Elem)
    (hs : ∀ el ∈ es, Settled s k a el (pa el.lane) ∧ s.poisoned (pa el.lane) a.size = false) : ∀ u, Moved s u →
    ∃ t, Moved s t ∧ loadElems acc hint es u = .ok (es.map fun el => (el.lane, BitVec.ofNat 64 (natOfBytes (s.peek (pa el.lane) a.size)))) t := by
  induction es with
  | nil => intro u hu; exact ⟨u, hu, rfl⟩
  | cons e t ih =>
    intro u hu
    obtain ⟨⟨hseg, hf, hq⟩, hp⟩ := hs e (by simp)
    have hg : hostGate acc (pa e.lane) false u = .ok () u :=
      gate_quiet u acc _ _ (by rw [hu.hostFilter]; exact hf) (by rw [hu.quantum, hw]; exact hq)
    obtain ⟨t', ht', hrun⟩ := ih (fun el hel => hs el (by simp [hel])) (u.tokenRead acc.cluster (pa e.lane / 256)) (hu.trans (moved_tokenRead ..))
    refine ⟨t', ht', ?_⟩
    have hr : readSegs acc e.va (hint != 3) e.segs u = .ok (s.peek (pa e.lane) a.size) (u.tokenRead acc.cluster (pa e.lane / 256)) := by
      have hpu := (moved_reads hu (pa e.lane) a.size).1
      have hpk := (moved_reads (hu.trans (moved_tokenRead u acc.cluster (pa e.lane / 256))) (pa e.lane) a.size).2
      simp only [hseg, readSegs, readSeg, readMem, bind_run, hg, get_run]
      simp [hpu, hp, hpk]
    simp only [loadElems, bind_run, hr, hrun, pure_run, List.map_cons]

theorem gateElems_quiet (acc : Acc) (s : State) (w : Bool) (es : List Elem) {k : Nat} {a : PendAccess} {pa : Nat → Nat} (hw : acc.who = .wave k)
    (hs : ∀ el ∈ es, Settled s k a el (pa el.lane)) : gateElems acc w es s = .ok () s := by
  induction es with
  | nil => rfl
  | cons e t ih =>
    obtain ⟨hseg, hf, hq⟩ := hs e (by simp)
    have hg : hostGate acc (pa e.lane) w s = .ok () s := gate_quiet s acc _ _ hf (by rw [hw]; exact hq)
    simp only [gateElems, hseg, gateSegs, bind_run, hg, pure_run, ih fun el hel => hs el (by simp [hel])]

/-- What stores leave: memory apart, the state moved. -/
structure Stored (s t : State) : Prop where
  harts : LikeHarts s t
  hostFilter : t.hostFilter = s.hostFilter
  quantum : t.quantum = s.quantum

theorem writeSeg_run {u : State} (acc : Acc) (fill : Bool) (e : Elem) (pa n : Nat) (bs : List Byte)
    (hseg : e.segs = [{ loc := .mem pa false, len := n }]) (hlen : bs.length = n) (hg : hostGate acc pa true u = .ok () u) :
    ∃ v, (∀ s, Stored s u → Stored s v) ∧ v.mem = Memory.write u.mem pa bs ∧ writeSegs acc fill e.segs bs u = .ok () v := by
  let x := u.dropResvs acc.cluster acc.hart fun r => decide (r.line = pa / 256 ∨ r.granule = u.granuleOf (pa / 256))
  have h1 : Moved u x := moved_dropResvs ..
  have hx : u.dropResvs acc.cluster acc.hart (fun r => decide (r.line = pa / 256 ∨ r.granule = u.granuleOf (pa / 256))) = x := rfl
  clear_value x
  have h2 := h1.trans (moved_tokenWrite x acc.cluster (pa / 256))
  refine ⟨(x.tokenWrite acc.cluster (pa / 256)).poke pa bs, fun s hu => ?_, ?_, ?_⟩
  · generalize x.tokenWrite acc.cluster (pa / 256) = y at h2
    exact ⟨hu.harts.trans (h2.harts.trans (like_poke ..)), (h2.hostFilter).trans hu.hostFilter, (h2.quantum).trans hu.quantum⟩
  · show Memory.write (x.tokenWrite acc.cluster (pa / 256)).mem _ _ = _
    rw [h2.mem]
  · have ht : bs.take n = bs := List.take_of_length_le (by omega)
    simp only [hseg, writeSegs, writeSeg, writeMem, bind_run, ht, hg, modify_run, pure_run, hx]
    rfl

theorem storeElems_run {s : State} {k : Nat} {a : PendAccess} {pa : Nat → Nat} (acc : Acc) (hw : acc.who = .wave k) (hint : Nat) (es : List Elem)
    (hs : ∀ el ∈ es, Settled s k a el (pa el.lane)) : ∀ u, Stored s u →
    ∃ t, Stored s t ∧ storeElems acc a.size hint es u = .ok () t ∧
      t.mem = es.foldl (fun m el => Memory.write m (pa el.lane) (leBytes a.size el.data.toNat)) u.mem := by
  induction es with
  | nil => intro u hu; exact ⟨u, hu, rfl, rfl⟩
  | cons e t ih =>
    intro u hu
    obtain ⟨hseg, hf, hq⟩ := hs e (by simp)
    have hg : hostGate acc (pa e.lane) true u = .ok () u :=
      gate_quiet u acc _ _ (by rw [hu.hostFilter]; exact hf) (by rw [hu.quantum, hw]; exact hq)
    have hlen := leBytes_length a.size e.data.toNat
    obtain ⟨v, hv, hm, hrun⟩ := writeSeg_run acc (hint != 3) e (pa e.lane) a.size _ hseg hlen hg
    obtain ⟨t', ht', hr', hm'⟩ := ih (fun el hel => hs el (by simp [hel])) v (hv s hu)
    refine ⟨t', ht', ?_, ?_⟩
    · simp only [storeElems, bind_run, hrun, hr']
    · rw [hm', hm]; rfl

theorem endWave_lanes (k : Nat) (s : State) (h : (s.wave k).lanes ≠ 0) : endWave k s = .ok () s := by
  simp only [endWave, bind_run, get_run]
  rw [ite_run, if_neg (by simp; intros; contradiction)]
  rfl

theorem settled_clean {s : State} {k : Nat} {a : PendAccess} {el : Elem} {pa : Nat} (h : Settled s k a el pa) (cl : Nat) :
    segsPoisoned s cl el.segs = s.poisoned pa a.size := by
  simp [segsPoisoned, h.1]

theorem writeReg_congr (w : Wave) (n : Nat) (m : Mask) (f g : Nat → Word) (h : ∀ l, l < 64 → Mask.has m l = true → f l = g l) :
    w.writeReg n m f = w.writeReg n m g := by
  have e : (fun l : Fin 64 => if Mask.has m l.val then f l.val else (w.row n)[l]) = fun l : Fin 64 => if Mask.has m l.val then g l.val else (w.row n)[l] := by
    funext l
    by_cases hm : Mask.has m l.val = true
    · simp only [hm, if_true, h l.val l.isLt hm]
    · simp only [hm, if_false, Bool.false_eq_true]
  simp only [Wave.writeReg, e]

theorem writeOperand_congr (w : Wave) (wide : Bool) (n : Nat) (m : Mask) (f g : Nat → Dword) (h : ∀ l, l < 64 → Mask.has m l = true → f l = g l) :
    w.writeOperand wide n m f = w.writeOperand wide n m g := by
  simp only [Wave.writeOperand]
  rw [writeReg_congr w n m _ (fun l => (g l).setWidth 32) (fun l hl hm => by simp only [h l hl hm])]
  cases wide with
  | false => simp only [Bool.false_eq_true, if_false]
  | true =>
    simp only [if_true]
    rw [writeReg_congr _ (n + 1) m _ (fun l => (g l >>> 32).setWidth 32) (fun l hl hm => by simp only [h l hl hm])]

theorem maskOf_has (f : Nat → Bool) (l : Nat) : Mask.has (maskOf f) l = (decide (l < 64) && f l) := by
  have := @BitVec.getLsbD_ofBoolListLE ((List.range 64).map f) l
  have e : Mask.has (maskOf f) l = ((List.range 64).map f).getD l false := this
  rw [e]
  by_cases h : l < 64
  · simp [h, List.getD, List.getElem?_map, List.getElem?_range]
  · simp [h, List.getD, List.getElem?_map]

theorem completeAccess_load (s t : State) (k : Nat) (a : PendAccess) (vs : List (Nat × Dword)) (hop : a.op = .load) (hlag : a.lag = false)
    (hno : (a.elems.filter fun e => a.op == .load && segsPoisoned s (s.laneAcc k).cluster e.segs) = [])
    (hg : gateElems (s.laneAcc k) (a.op == .store) a.elems s = .ok () s)
    (hl : loadElems (s.laneAcc k) a.hint a.elems s = .ok vs t) :
    completeAccess k a s = .ok () (t.setWave k (performed a ((t.wave k).writeOperand (a.size == 8) a.vd
      (maskOf fun l => vs.any fun v => v.1 == l) fun l => ((vs.find? fun v => v.1 == l).map (·.2)).getD 0))) := by
  have hgood : (a.elems.filter fun e => !([] : List Elem).any fun p => p.lane == e.lane) = a.elems := List.filter_eq_self.2 (by simp)
  rw [hop] at hg hno
  simp only [completeAccess, bind_run, get_run, hop, hg, hno, hlag]
  simp only [List.isEmpty_nil, if_true, hgood, bind_run, hl, Bool.false_eq_true, if_false, pure_run, modWave_run, State.wave_setWave, State.setWave_setWave]
  rfl

theorem completeAccess_store (s t : State) (k : Nat) (a : PendAccess) (hop : a.op = .store)
    (hg : gateElems (s.laneAcc k) (a.op == .store) a.elems s = .ok () s)
    (hl : storeElems (s.laneAcc k) a.size a.hint a.elems s = .ok () t) :
    completeAccess k a s = .ok () (t.setWave k (performed a (t.wave k))) := by
  have hno : (a.elems.filter fun e => a.op == .load && segsPoisoned s (s.laneAcc k).cluster e.segs) = [] := by
    rw [List.filter_eq_nil_iff]; intro el _; simp [hop]
  rw [hop] at hg hno
  simp only [completeAccess, bind_run, get_run, hop, hg, hno]
  simp only [hl, modWave_run, pure_run]
  rfl

theorem memoryComplete (s u : State) (k : Nat) (a : PendAccess) (hf : (s.wave k).accesses.find? (fun b => b.n == a.n) = some a)
    (ha : (s.wave k).accesses.any a.after = false) (hc : completeAccess k a s = .ok () u) (hl : (u.wave k).lanes ≠ 0) :
    exec (.laneMemoryComplete k a.n) s = .next u := by
  rw [exec_laneMemoryComplete]
  simp only [execLaneMemoryComplete, event, hf, ha]
  simp only [Bool.false_eq_true, if_false, runM, bind_run, hc, endWave_lanes k u hl]

theorem laneAcc_who (s : State) (k : Nat) : (s.laneAcc k).who = .wave k := by
  simp only [State.laneAcc, State.accOf]; split <;> rfl

end Sys2Proof.Machine
end

