-- ==== Sys2Proof/Laws/LaneAtomic.lean ====
section
/-! SUPPORT. Lane atomics: what one read-modify-write keeps, and the whole of an instruction's. -/

namespace Sys2Proof.Machine

open Sys2Proof.Claim

/-- A state in which accesses reach their bytes as in `s`, whatever memory holds. -/
structure Reaching (s t : State) : Prop where
  harts : LikeHarts s t
  hostFilter : t.hostFilter = s.hostFilter
  quantum : t.quantum = s.quantum
  wengines : t.wengines = s.wengines
  clusters : t.clusters = s.clusters
  clean : ∀ a n, s.poisoned a n = false → t.poisoned a n = false

namespace Reaching
theorem refl (s : State) : Reaching s s := ⟨.refl s, rfl, rfl, rfl, rfl, fun _ _ h => h⟩
theorem trans {s t u : State} (h1 : Reaching s t) (h2 : Reaching t u) : Reaching s u :=
  ⟨h1.harts.trans h2.harts, h2.hostFilter.trans h1.hostFilter, h2.quantum.trans h1.quantum, h2.wengines.trans h1.wengines,
    h2.clusters.trans h1.clusters,
    fun a n h => h2.clean a n (h1.clean a n h)⟩
theorem of_moved {s t : State} (h : Moved s t) : Reaching s t :=
  ⟨h.harts, h.hostFilter, h.quantum, by rw [h.rest], by rw [h.rest], fun a n hp => by rw [(moved_reads h a n).1]; exact hp⟩
theorem poke (s : State) (a : Nat) (bs : List Byte) : Reaching s (s.poke a bs) := by
  refine ⟨like_poke .., rfl, rfl, rfl, rfl, fun b n h => ?_⟩
  simp only [State.poisoned, State.poke, clearPoison, List.any_filter] at *
  rw [List.any_eq_false] at *
  intro x hx
  have := h x hx
  intro hc
  exact this (by simp only [Bool.and_eq_true] at hc ⊢; exact hc.2)
theorem reaches {s t : State} (h : Reaching s t) {acc : Acc} {K : AccessKind} {va : Dword} {n : Nat} {e : TlbEntry} {j : Nat}
    (ht : acc.tlb = .wengine j) (hr : Reaches s acc K va n e) : Reaches t acc K va n e := by
  obtain ⟨h1, h2, h3, h4, h5, h6, h7, h8, h9, h10, h11, h12⟩ := hr
  refine ⟨h1, h2, h3, h4, ?_, h6, h7, h8, h9, h.clean _ _ h10, by rw [h.hostFilter]; exact h11, by rw [h.quantum]; exact h12⟩
  rw [← h5, ht]
  simp only [State.tlb, State.wengine, h.wengines]
theorem waveSem {s t : State} (h : Reaching s t) (k n : Nat) : t.waveSem k n = s.waveSem k n := by
  obtain ⟨v, hv⟩ := h.harts.wave k
  simp only [State.waveSem, hv, State.crewOf, State.cluster, h.clusters]

end Reaching

theorem reaching_rmwStore (s : State) (acc : Acc) (pa : Nat) (home : Bool) (new : Option (List Byte)) :
    Reaching s (s.rmwStore acc pa home new) ∧ (s.rmwStore acc pa home new).mem = match new with
      | some bs => Memory.write s.mem pa bs
      | none => s.mem := by
  simp only [State.rmwStore]
  cases new with
  | none =>
    simp only []
    split
    · exact ⟨.of_moved (moved_llcTouch _ _), (moved_llcTouch _ _).mem⟩
    · exact ⟨.of_moved (moved_tokenRead _ _ _), (moved_tokenRead _ _ _).mem⟩
  | some bs =>
    simp only []
    have h1 := moved_dropResvs s acc.cluster acc.hart fun r => decide (r.line = pa / 256 ∨ r.granule = s.granuleOf (pa / 256))
    generalize s.dropResvs acc.cluster acc.hart (fun r => decide (r.line = pa / 256 ∨ r.granule = s.granuleOf (pa / 256))) = x at h1
    have h2 : Moved s (if home = true then (x.tokenHome (pa / 256)).llcTouch (pa / 256) else x.tokenWrite acc.cluster (pa / 256)) := by
      split
      · exact (h1.trans (moved_tokenHome _ _)).trans (moved_llcTouch _ _)
      · exact h1.trans (moved_tokenWrite _ _ _)
    generalize (if home = true then (x.tokenHome (pa / 256)).llcTouch (pa / 256) else x.tokenWrite acc.cluster (pa / 256)) = y at h2
    exact ⟨(Reaching.of_moved h2).trans (.poke ..), by show Memory.write y.mem _ _ = _; rw [h2.mem]⟩

theorem vrmw_reaches {s : State} {acc : Acc} {va : Dword} {n : Nat} {e : TlbEntry} (h : Reaches s acc .store va n e) (f : Nat → Option Nat) :
    ∃ t, vrmw acc va n f s = .ok (natOfBytes (s.peek (trOf e.pte e.size (va.toNat % 2 ^ 48)).pa n)) t ∧ Reaching s t ∧
      t.mem = match f (natOfBytes (s.peek (trOf e.pte e.size (va.toNat % 2 ^ 48)).pa n)) with
        | some v => Memory.write s.mem (trOf e.pte e.size (va.toNat % 2 ^ 48)).pa (leBytes n v)
        | none => s.mem := by
  have hr := resolve_reaches h
  obtain ⟨-, -, -, -, -, -, -, -, -, hp, hf, hq⟩ := h
  have hg := gate_quiet s acc (trOf e.pte e.size (va.toNat % 2 ^ 48)).pa true hf hq
  generalize (trOf e.pte e.size (va.toNat % 2 ^ 48)).pa = pa at *
  have hst := reaching_rmwStore s acc pa (false || false || paKind pa != .dram) ((f (natOfBytes (s.peek pa n))).map (leBytes n))
  refine ⟨_, ?_, hst.1, ?_⟩
  · simp only [vrmw, vrmwAt, bind_run, hr, hg, modify_run, Bool.false_eq_true, if_false, get_run]
    rw [ite_run, if_neg (by simp [hp])]
    rfl
  · rw [hst.2]
    cases f (natOfBytes (s.peek pa n)) <;> rfl

theorem reaching_free (s : State) (n : Nat) : Reaching s { s with free := n } := ⟨.of_units rfl rfl rfl, rfl, rfl, rfl, rfl, fun _ _ h => h⟩

theorem laneAcc_tlb (s : State) (k : Nat) : (s.laneAcc k).tlb = .wengine (k / 16) := by
  simp only [State.laneAcc, State.accOf]; split <;> rfl

theorem atomAccess_run {u : State} {acc : Acc} {va : Dword} {n : Nat} {e : TlbEntry} (h : Reaches u acc .store va n e) (o : AtomOp) (d cmp sem scope : Nat) (h3 : sem ≠ 3) :
    ∃ v t, atomAccess acc va n o d cmp sem scope u = .ok v t ∧ Reaching u t ∧
      (t.mem = match atomNew o (8 * n) (natOfBytes (Memory.read u.mem (trOf e.pte e.size (va.toNat % 2 ^ 48)).pa n)) d cmp with
        | some v => Memory.write u.mem (trOf e.pte e.size (va.toNat % 2 ^ 48)).pa (leBytes n v)
        | none => u.mem) ∧
      (sem ≠ 4 → v = if sem = 1 then 0 else natOfBytes (Memory.read u.mem (trOf e.pte e.size (va.toNat % 2 ^ 48)).pa n)) := by
  obtain ⟨t, hv, ht, hm⟩ := vrmw_reaches h fun v => atomNew o (8 * n) v d cmp
  have hp : u.peek (trOf e.pte e.size (va.toNat % 2 ^ 48)).pa n = Memory.read u.mem (trOf e.pte e.size (va.toNat % 2 ^ 48)).pa n := rfl
  rw [hp] at hv hm
  generalize natOfBytes (Memory.read u.mem (trOf e.pte e.size (va.toNat % 2 ^ 48)).pa n) = old at hv hm
  simp only [atomAccess]
  rw [ite_run, if_neg h3]
  simp only [bind_run, hv]
  by_cases h1 : sem = 1
  · exact ⟨0, t, by rw [ite_run, if_pos h1]; rfl, ht, hm, fun _ => by rw [if_pos h1]⟩
  · by_cases h4 : sem = 4
    · refine ⟨if (t.drawNat 2).1 = 0 then old else (t.drawNat 2).2.drawDword.1.toNat % 2 ^ (8 * n), (t.drawNat 2).2.drawDword.2, ?_,
        ht.trans (reaching_free _ _), hm, fun h => absurd h4 h⟩
      rw [ite_run, if_neg h1, ite_run, if_pos h4]
      rfl
    · exact ⟨old, t, by rw [ite_run, if_neg h1, ite_run, if_neg h4]; rfl, ht, hm, fun _ => by rw [if_neg h1]⟩

theorem atomLanes_run {s : State} {c : LCtx} {e : Nat → TlbEntry} (o : AtomOp) (h3 : c.w.sem.toNat ≠ 3) (ls : List Nat) :
    ∀ u, (∀ l ∈ ls, Reaches u (s.laneAcc c.k) .store (wordAt s c l).va (wordSize c.w.ty) (e l)) →
    ∃ vs t, atomLanes o c (s.laneAcc c.k) (s.wave c.k) (recordOf s c) ls u = .ok vs t ∧ Reaching u t ∧
      t.mem = (atomsOf s c o (placeAt s c e) ls u.mem).1 ∧ vs.map (·.1) = ls ∧
      (c.w.sem.toNat ≠ 4 → vs = (atomsOf s c o (placeAt s c e) ls u.mem).2.map fun x =>
        (x.1, if c.w.sem.toNat = 1 then 0#64 else BitVec.ofNat 64 x.2)) := by
  induction ls with
  | nil => intro u _; exact ⟨[], u, rfl, .refl u, rfl, rfl, fun _ => rfl⟩
  | cons l t ih =>
    intro u h
    obtain ⟨v, u', ha, hu', hm, hv⟩ := atomAccess_run (h l (by simp)) (atomOf o c.w.ty) (atomArgs o c (s.wave c.k) l).1 (atomArgs o c (s.wave c.k) l).2
      c.w.sem.toNat c.w.scope.toNat h3
    obtain ⟨vs, t', hr, ht', hm', hk, hvs⟩ := ih u' (fun l hl => hu'.reaches (laneAcc_tlb s c.k) (h l (by simp [hl])))
    refine ⟨(l, BitVec.ofNat 64 v) :: vs, t', ?_, hu'.trans ht', ?_, by simp [hk], fun h4 => ?_⟩
    · simp only [wordAt] at ha
      simp only [atomLanes, bind_run, ha, hr, pure_run]
    · rw [hm', hm]; rfl
    · rw [hvs h4, hv h4, hm]
      simp only [atomsOf, List.map_cons, placeAt]
      congr 2
      split <;> rfl

theorem atomsOf_keys (s : State) (c : LCtx) (o : AtomOp) (pa : Nat → Nat) (ls : List Nat) : ∀ m, (atomsOf s c o pa ls m).2.map (·.1) = ls := by
  induction ls with
  | nil => intro m; rfl
  | cons l t ih => intro m; simp only [atomsOf, List.map_cons, ih]

theorem find_key {α : Type} (vs : List (Nat × α)) (l : Nat) (v : α) (hn : (vs.map (·.1)).Nodup) (h : (l, v) ∈ vs) :
    vs.find? (fun x => x.1 == l) = some (l, v) := by
  induction vs with
  | nil => simp at h
  | cons x t ih =>
    simp only [List.map_cons, List.nodup_cons] at hn
    rcases List.mem_cons.1 h with rfl | h
    · simp
    · have : x.1 ≠ l := by
        rintro rfl
        exact hn.1 (List.mem_map.2 ⟨_, h, rfl⟩)
      rw [List.find?_cons_of_neg (by simpa using this)]
      exact ih hn.2 h

theorem inBounds_nodup (s : State) (c : LCtx) : (inBounds s c).Nodup := by
  simp only [inBounds, lanesOf]
  exact (List.nodup_range.filter _).filter _

theorem gateSegs_reaches {s : State} {acc : Acc} {k : AccessKind} {n : Nat} {e : Nat → TlbEntry} {va : Nat → Dword} (ls : List Nat)
    (h : ∀ l ∈ ls, Reaches s acc k (va l) n (e l)) (w : Bool) : gateSegs acc w (ls.map fun l => segOf (e l) (va l) n) s = .ok () s := by
  induction ls with
  | nil => rfl
  | cons l t ih =>
    obtain ⟨-, -, -, -, -, -, -, -, -, -, hf, hq⟩ := h l (by simp)
    have hg := gate_quiet s acc (trOf (e l).pte (e l).size ((va l).toNat % 2 ^ 48)).pa w hf hq
    simp only [List.map_cons, segOf, gateSegs, bind_run, hg]
    exact ih fun l hl => h l (by simp [hl])

theorem natOfBytes_lt (bs : List Byte) : natOfBytes bs < 256 ^ bs.length := by
  induction bs with
  | nil => simp [natOfBytes]
  | cons b t ih =>
    have := b.isLt
    simp only [natOfBytes, List.length_cons, Nat.pow_succ]
    omega

theorem atomsOf_lt (s : State) (c : LCtx) (o : AtomOp) (pa : Nat → Nat) (ls : List Nat) (m : List Host.Cell) :
    ∀ x ∈ (atomsOf s c o pa ls m).2, x.2 < 256 ^ wordSize c.w.ty := by
  induction ls generalizing m with
  | nil => intro x hx; simp [atomsOf] at hx
  | cons l t ih =>
    intro x hx
    simp only [atomsOf, List.mem_cons] at hx
    rcases hx with rfl | hx
    · have := natOfBytes_lt (Memory.read m (pa l) (wordSize c.w.ty))
      rwa [Memory.read_length] at this
    · exact ih _ _ hx

theorem laneGate_ok {s : State} {c : LCtx} {e : Nat → TlbEntry} {va : Nat → Dword} {n : Nat} (ls : List Nat)
    (h : ∀ l ∈ ls, Reaches s (s.laneAcc c.k) .store (va l) n (e l))
    (hm : (s.wave c.k).meetsPending (ls.map fun l => segOf (e l) (va l) n) = false) : laneGate c (s.laneAcc c.k) ls va n s = .ok () s := by
  have hf : forLanes ls (fun l => resolve (s.laneAcc c.k) (va l) n .store) s = .ok (ls.map fun l => [segOf (e l) (va l) n]) s :=
    forLanes_ok _ _ _ _ fun l hl => resolve_reaches (h l hl)
  have hfl : (ls.map fun l => [segOf (e l) (va l) n]).flatten = ls.map fun l => segOf (e l) (va l) n := by
    clear hf hm h
    induction ls with
    | nil => rfl
    | cons a t ih => simp only [List.map_cons, List.flatten_cons, ih]; rfl
  simp only [laneGate, bind_run, hf, hfl, getWave_run]
  rw [ite_run, if_neg (by rw [hm]; simp)]
  exact gateSegs_reaches ls h true

/-- The state once out-of-bounds lanes are noted. -/
theorem noteOob_state (s : State) (c : LCtx) (store : Bool) : ∃ t, noteOob c (inBounds s c) store s = .ok () t ∧ t.mem = s.mem ∧
    t.wave c.k = noted s c store ∧ t.laneAcc c.k = s.laneAcc c.k ∧
    (∀ k va n e, Reaches s (s.laneAcc c.k) k va n e → Reaches t (s.laneAcc c.k) k va n e) ∧ (∀ n, t.waveSem c.k n = s.waveSem c.k n) := by
  have hh := noted_hart s c store
  refine ⟨if (inBounds s c).length < (lanesOf c.act).length then s.setWave c.k (noted s c store) else s, ?_, ?_⟩
  · have := noteOob_run s c store (fun _ => pure ())
    simp only [bind_run] at this
    simp only [noteOob]
    by_cases h : (inBounds s c).length < (lanesOf c.act).length
    · rw [ite_run, if_pos h, if_pos h]; simp only [noted, if_pos h]; rfl
    · rw [ite_run, if_neg h, if_neg h]; rfl
  · split
    · exact ⟨rfl, State.wave_setWave _ _ _, laneAcc_setWave _ _ _ hh.1 (by rw [hh.2.1]), fun _ _ _ _ h => reaches_setWave h,
        fun n => waveSem_setWave _ _ _ _ (by rw [hh.1])⟩
    · rename_i hn
      exact ⟨rfl, by simp only [noted, if_neg hn], rfl, fun _ _ _ _ h => h, fun _ => rfl⟩

theorem atomM_run (s : State) (c : LCtx) (o : AtomOp) (e : Nat → TlbEntry) (h : LaneReady s c) (h3 : c.w.sem ≠ 3)
    (hr : LanesReach s c .store true e) 
    (hm : (s.wave c.k).meetsPending ((inBounds s c).map fun l => segOf (e l) (wordAt s c l).va (wordSize c.w.ty)) = false) :
    ∃ t : State, t.mem = (atomsOf s c o (placeAt s c e) (inBounds s c) s.mem).1 ∧ (∃ v, t.wave c.k = { noted s c true with hart := { (s.wave c.k).hart with resv := v } }) ∧
    (∀ n, t.waveSem c.k n = s.waveSem c.k n) ∧
    ∃ vs, vs.map (·.1) = inBounds s c ∧ (c.w.sem.toNat ≠ 4 → vs = (atomsOf s c o (placeAt s c e) (inBounds s c) s.mem).2.map fun x =>
        (x.1, if c.w.sem.toNat = 1 then 0#64 else BitVec.ofNat 64 x.2)) ∧
      atomM o c s = completed c none (t.setWave c.k ((t.wave c.k).writeOperand (ty64 c.w.ty) c.w.vd.toNat c.act fun l =>
        ((vs.find? fun v => v.1 == l).map (·.2)).getD 0)) := by
  have hh := noted_hart s c true
  have hpk : peakCheck c (laneWrites c.i c.w) s = .ok () s := peakCheck_run s c _ h.room
  have hb := lanesInBounds_ok hr
  have hres := laneResolve_ok (c := c) true true (fun l hl => (hr.words l hl).2.2)
  have hg := laneGate_ok (c := c) (inBounds s c) (fun l hl => (hr.words l hl).2.2) hm
  obtain ⟨t, hn, htm, htw, hta, htr, hts⟩ := noteOob_state s c true
  have h3' : c.w.sem.toNat ≠ 3 := fun hc => h3 (BitVec.eq_of_toNat_eq (by simpa using hc))
  obtain ⟨vs, u, hat, hu, hum, hk, hvs⟩ := atomLanes_run (s := s) (c := c) (e := e) o h3' (inBounds s c) t (fun l hl => htr _ _ _ _ (hr.words l hl).2.2)
  rw [htm] at hum hvs
  obtain ⟨v, hv⟩ := hu.harts.wave c.k
  refine ⟨u, hum, ⟨v, by rw [hv, htw, hh.1]⟩, fun n => (hu.waveSem c.k n).trans (hts n), vs, hk, hvs, ?_⟩
  simp only [wordAt] at hres hg
  simp only [atomM, bind_run, heldBack_ok c s hr.held, recordCheck_ok c s hr.record hr.pair, get_run, hb, hres, hpk]
  by_cases ha : c.act = 0
  · rw [ite_run, if_neg (by simp [ha])]
    simp only [bind_run, get_run, hg, hn, hat, modWave_run]
  · rw [ite_run, if_pos ha]
    by_cases hs : semReleases c.w.sem.toNat = true
    · obtain ⟨h1, h2⟩ := hr.release hs ha
      rw [ite_run, if_pos hs]
      simp only [bind_run, laneRelease_ok s c h1 h2, get_run, hg, hn, hat, modWave_run]
    · rw [ite_run, if_neg hs]
      simp only [bind_run, get_run, hg, hn, hat, modWave_run]

/-- The destination after a completed instruction is what the effect left in it. -/
theorem operand_laneDone (s : State) (c : LCtx) (on : Await) (w v : Wave) (wide : Bool) (l : Nat) (k : Kept c w v)
    (h1 : c.w.vd.toNat ∈ laneWrites c.i c.w) (h2 : wide = true → c.w.vd.toNat + 1 ∈ laneWrites c.i c.w) :
    ((Claim.laneDone (s.setWave c.k v) c on).wave c.k).operand wide c.w.vd.toNat l = v.operand wide c.w.vd.toNat l := by
  have g := (done_reads s c on w v k).1
  generalize (Claim.laneDone (s.setWave c.k v) c on).wave c.k = u at g
  have e1 := g _ (writes_kept c w _ h1)
  cases wide with
  | false => simp only [Wave.operand, Wave.reg, e1]; simp only [Bool.false_eq_true, if_false]
  | true => simp only [Wave.operand, Wave.pair, Wave.reg, e1, g _ (writes_kept c w _ (h2 rfl))]

end Sys2Proof.Machine
end

