-- ==== Sys2Proof/Laws/Scalar.lean ====
section
/-! SUPPORT. The frame of a scalar instruction: what `scalar` answers when its meaning completes, takes an exception, parks or
stalls. The meanings of harts are cited through these. -/

namespace Sys2Proof.Machine

theorem scalar_run {s : State} {h : HartId} (hx : Executes s h) (v : Hart → Option Nat) (m : HartId → M Unit) :
    scalar v m s = .next (scalarEnd h s (m h (s.setHart h (s.hart h).past))) := by
  obtain ⟨ha, hh⟩ := hx
  simp [scalar, State.actorHart, ha, hh, Hart.pastInstr, Hart.past]

theorem Hart.retired_eq (r : Hart) (hh : r.handler = none) :
    r.retired = { r with instret := r.instret + 1, granted := none } := by
  simp [Hart.retired, Hart.afterInstr, hh]

/-- A meaning that completes: the hart that it leaves retires. -/
theorem scalar_ok {s t : State} {h : HartId} (hx : Executes s h) (v : Hart → Option Nat) (m : HartId → M Unit)
    (hm : m h (s.setHart h (s.hart h).past) = .ok () t) : scalar v m s = .next (t.setHart h (t.hart h).retired) := by
  rw [scalar_run hx, hm]
  rfl

/-- A meaning that writes one register. -/
theorem scalar_reg {s : State} {h : HartId} (hx : Executes s h) (v : Hart → Option Nat) (m : HartId → M Unit) (rd : Reg)
    (x : Dword) (hm : m h (s.setHart h (s.hart h).past) = .ok () (s.setHart h ((s.hart h).past.wx rd x))) :
    scalar v m s = .next (s.setHart h ((s.hart h).stepped.wx rd x)) := by
  rw [scalar_ok hx v m hm]
  simp only [State.setHart_setHart, State.hart_setHart]
  rw [Hart.retired_eq _ (by simpa [Hart.past] using hx.2)]
  simp only [Hart.wx]
  split <;> rfl

/-- A meaning that raises an exception. -/
theorem scalar_exc {s t : State} {h : HartId} (hx : Executes s h) (v : Hart → Option Nat) (m : HartId → M Unit) (e : Exc)
    (hm : m h (s.setHart h (s.hart h).past) = .error (.exc e) t) :
    scalar v m s = .next ((t.setHart h { t.hart h with pc := (s.hart h).pc }).takeExc h (s.hart h).pc e) := by
  rw [scalar_run hx, hm]
  simp [scalarEnd, hx.2, Hart.backAt]

/-- A meaning that raises an exception before any effect: it is taken at the instruction. -/
theorem scalar_exc_first {s : State} {h : HartId} (hx : Executes s h) (v : Hart → Option Nat) (m : HartId → M Unit) (e : Exc)
    (hm : m h (s.setHart h (s.hart h).past) = .error (.exc e) (s.setHart h (s.hart h).past)) :
    scalar v m s = .next ((s.setHart h { s.hart h with run := .running }).takeExc h (s.hart h).pc e) := by
  rw [scalar_exc hx v m e hm]
  simp only [State.setHart_setHart, State.hart_setHart]
  rfl

/-- A meaning that parks: the hart stays at the instruction. -/
theorem scalar_park {s t : State} {h : HartId} (hx : Executes s h) (v : Hart → Option Nat) (m : HartId → M Unit) (p : Park)
    (hm : m h (s.setHart h (s.hart h).past) = .error (.park p) t) :
    scalar v m s = .next (t.setHart h { t.hart h with pc := (s.hart h).pc, run := .parked p }) := by
  rw [scalar_run hx, hm]
  simp [scalarEnd, hx.2, Hart.backAt]

@[simp] theorem setReg_run (h : HartId) (rd : Reg) (x : Dword) (s : State) :
    setReg h rd x s = .ok ⟨⟩ (s.setHart h ((s.hart h).wx rd x)) := rfl

@[simp] theorem Hart.past_rx (r : Hart) (q : Reg) : r.past.rx q = r.rx q := rfl
@[simp] theorem Hart.past_rf (r : Hart) (q : Reg) : r.past.rf q = r.rf q := rfl

/-- The address of the executing instruction. -/
@[simp] theorem Hart.past_back (r : Hart) : r.past.pc - 4#64 = r.pc := by
  simp [Hart.past, BitVec.add_sub_cancel]

@[simp] theorem Hart.past_x (r : Hart) : r.past.x = r.x := rfl
@[simp] theorem Hart.past_f (r : Hart) : r.past.f = r.f := rfl
@[simp] theorem Hart.past_fcsr (r : Hart) : r.past.fcsr = r.fcsr := rfl
@[simp] theorem Hart.past_mb (r : Hart) : r.past.mb = r.mb := rfl
@[simp] theorem Hart.past_mbFull (r : Hart) : r.past.mbFull = r.mbFull := rfl
@[simp] theorem Hart.past_mbOvr (r : Hart) : r.past.mbOvr = r.mbOvr := rfl
@[simp] theorem Hart.past_deps (r : Hart) : r.past.deps = r.deps := rfl
@[simp] theorem Hart.past_priv (r : Hart) : r.past.priv = r.priv := rfl
@[simp] theorem Hart.past_sstatus (r : Hart) : r.past.sstatus = r.sstatus := rfl
@[simp] theorem Hart.past_stvec (r : Hart) : r.past.stvec = r.stvec := rfl
@[simp] theorem Hart.past_sscratch (r : Hart) : r.past.sscratch = r.sscratch := rfl
@[simp] theorem Hart.past_sepc (r : Hart) : r.past.sepc = r.sepc := rfl
@[simp] theorem Hart.past_scause (r : Hart) : r.past.scause = r.scause := rfl
@[simp] theorem Hart.past_stval (r : Hart) : r.past.stval = r.stval := rfl
@[simp] theorem Hart.past_sie (r : Hart) : r.past.sie = r.sie := rfl
@[simp] theorem Hart.past_ssip (r : Hart) : r.past.ssip = r.ssip := rfl
@[simp] theorem Hart.past_scounteren (r : Hart) : r.past.scounteren = r.scounteren := rfl
@[simp] theorem Hart.past_dcrew (r : Hart) : r.past.dcrew = r.dcrew := rfl
@[simp] theorem Hart.past_dcause (r : Hart) : r.past.dcause = r.dcause := rfl
@[simp] theorem Hart.past_tn (r : Hart) : r.past.tn = r.tn := rfl
@[simp] theorem Hart.past_hm (r : Hart) : r.past.hm = r.hm := rfl
@[simp] theorem Hart.past_dptb (r : Hart) : r.past.dptb = r.dptb := rfl
@[simp] theorem Hart.past_dtimecmp (r : Hart) : r.past.dtimecmp = r.dtimecmp := rfl
@[simp] theorem Hart.past_instret (r : Hart) : r.past.instret = r.instret := rfl
@[simp] theorem Hart.past_resv (r : Hart) : r.past.resv = r.resv := rfl
@[simp] theorem Hart.past_granted (r : Hart) : r.past.granted = r.granted := rfl
@[simp] theorem Hart.past_crew (r : Hart) : r.past.crew = r.crew := rfl
@[simp] theorem Hart.past_launch (r : Hart) : r.past.launch = r.launch := rfl
@[simp] theorem Hart.past_rank (r : Hart) : r.past.rank = r.rank := rfl
@[simp] theorem Hart.past_stack (r : Hart) : r.past.stack = r.stack := rfl
@[simp] theorem Hart.past_bound (r : Hart) : r.past.bound = r.bound := rfl
@[simp] theorem Hart.past_join (r : Hart) : r.past.join = r.join := rfl
@[simp] theorem Hart.past_duty (r : Hart) : r.past.duty = r.duty := rfl
@[simp] theorem Hart.past_gfx (r : Hart) : r.past.gfx = r.gfx := rfl
@[simp] theorem Hart.past_handler (r : Hart) : r.past.handler = r.handler := rfl
@[simp] theorem Hart.past_handlerQueue (r : Hart) : r.past.handlerQueue = r.handlerQueue := rfl
@[simp] theorem Hart.past_inbox (r : Hart) : r.past.inbox = r.inbox := rfl
@[simp] theorem Hart.past_overflow (r : Hart) : r.past.overflow = r.overflow := rfl
@[simp] theorem Hart.past_kicks (r : Hart) : r.past.kicks = r.kicks := rfl

theorem State.setTlb_setHart (s : State) (h : HartId) (he : HartKind.isEngine h = false) (v : Hart) (t : TlbId) (l : List TlbEntry) : (s.setHart h v).setTlb t l = (s.setTlb t l).setHart h v := by
  cases h <;> cases t <;> first | rfl | (simp [HartKind.isEngine] at he)
theorem State.tlb_setHart (s : State) (h : HartId) (he : HartKind.isEngine h = false) (v : Hart) (t : TlbId) : (s.setHart h v).tlb t = s.tlb t := by
  cases h <;> cases t <;> first | rfl | (simp [HartKind.isEngine] at he)

/-! ## Meanings that change their own hart -/

theorem Hart.past_retired (r q : Hart) (hh : q.handler = none) (hq : r = q.past) : r.retired = q.stepped := by
  subst hq; rw [Hart.retired_eq _ (by simpa [Hart.past] using hh)]; rfl

/-- A meaning that changes its own hart only. -/
theorem scalar_to {s : State} {h : HartId} (hx : Executes s h) (v : Hart → Option Nat) (m : HartId → M Unit) (q : Hart) (hq : q.handler = none)
    (hm : m h (s.setHart h (s.hart h).past) = .ok () (s.setHart h q.past)) : scalar v m s = .next (s.setHart h q.stepped) := by
  rw [scalar_ok hx v m hm]
  simp only [State.setHart_setHart, State.hart_setHart]
  rw [Hart.past_retired _ q hq rfl]
theorem Hart.wx_past (r : Hart) (rd : Reg) (v : Dword) : r.past.wx rd v = (r.wx rd v).past := by simp only [Hart.wx]; split <;> rfl
theorem Hart.wx_stepped (r : Hart) (rd : Reg) (v : Dword) : r.stepped.wx rd v = (r.wx rd v).stepped := by simp only [Hart.wx]; split <;> rfl

end Sys2Proof.Machine
end

