-- ==== Sys2Proof/Laws/Traps.lean ====
section
/-! SUPPORT. Entry into S, returns from it, and the jumps and instructions that trap (R27 to R30, R394 to R398). -/

namespace Sys2Proof.Machine

open Sys2Proof.Claim

theorem fetchScalar_eq (h : HartId) (s : State) (hh : (s.hart h).handler = none) (ha : (s.hart h).pc.toNat % 4 = 0) :
  fetchScalar h s = match fetchBytes (s.accOf h) (s.hart h).pc 4 s with
   | .ok bs t => .ok (BitVec.ofNat 32 (natOfBytes bs)) t
   | .error e t => .error e t := by
  simp [fetchScalar, hh, ha]
  cases fetchBytes (s.accOf h) (s.hart h).pc 4 s <;> rfl

theorem enter_bits (v : Dword) (p : Priv) : (Sstatus.enter v p).getLsbD 5 = v.getLsbD 1 ∧ (Sstatus.enter v p).getLsbD 1 = false ∧ (Sstatus.enter v p).getLsbD 8 = decide (p = .s) ∧ (∀ i, i < 64 → i ≠ 1 → i ≠ 5 → i ≠ 8 → (Sstatus.enter v p).getLsbD i = v.getLsbD i) := by
  have key : ∀ i : Fin 64, (Sstatus.enter v p).getLsbD i = ((v.getLsbD i && !decide (i.1 = 1 ∨ i.1 = 5 ∨ i.1 = 8)) || (v.getLsbD 1 && decide (i.1 = 5)) || (decide (p = .s) && decide (i.1 = 8))) := by
    intro i
    have e1 : ∀ i : Fin 64, (~~~0x122#64).getLsbD i = !decide (i.1 = 1 ∨ i.1 = 5 ∨ i.1 = 8) := by decide
    have e2 : ∀ i : Fin 64, (0x20#64).getLsbD i = decide (i.1 = 5) := by decide
    have e3 : ∀ i : Fin 64, (0x100#64).getLsbD i = decide (i.1 = 8) := by decide
    have e4 : ∀ i : Fin 64, (0#64).getLsbD i = false := by decide
    have f2 : (if Sstatus.sie v = true then 0x20#64 else 0).getLsbD i = (v.getLsbD 1 && decide (i.1 = 5)) := by
      unfold Sstatus.sie
      cases v.getLsbD 1
      · exact (e4 i).trans (by simp)
      · exact (e2 i).trans (by simp)
    have f3 : (if p = .s then 0x100#64 else 0).getLsbD i = (decide (p = .s) && decide (i.1 = 8)) := by
      cases p
      · exact (e4 i).trans (by simp)
      · exact (e3 i).trans (by simp)
    rw [Sstatus.enter, BitVec.getLsbD_or, BitVec.getLsbD_or, BitVec.getLsbD_and, e1, f2, f3]
  refine ⟨(key ⟨5, by decide⟩).trans (by simp), (key ⟨1, by decide⟩).trans (by simp), (key ⟨8, by decide⟩).trans (by simp), ?_⟩
  intro i hi h1 h5 h8
  refine (key ⟨i, hi⟩).trans ?_
  simp [h1, h5, h8]

theorem entersS (r : Hart) (epc sc st dc : Dword) : Claim.EntersS r (r.enterS epc sc st dc none) epc sc st dc (r.stvec &&& ~~~3#64) := by
  obtain ⟨a,b,c,d⟩ := enter_bits r.sstatus r.priv
  refine ⟨rfl,rfl,rfl,rfl,rfl,rfl,rfl,rfl,rfl,a,b,c,d,rfl,rfl,rfl,rfl,rfl,rfl,rfl,rfl,rfl,rfl⟩

theorem take_running (s : State) (k : Nat) (t : State) (e : Exc) (ht : (s.hart (.strand k)).tn = false) (hh : (s.hart (.strand k)).handler = none) (hp : t.hart (.strand k) = {s.hart (.strand k) with run := .running}) (epc : Dword) :
   t.takeExc (.strand k) epc e = t.setHart (.strand k) ((s.hart (.strand k)).enterS epc (BitVec.ofNat 64 e.scause) e.tval (dcauseOf e.code e.detail) none) := by
  simp only [State.takeExc, State.trapStrand, hp, ht, hh]
  simp [hp]
  rfl

theorem jump_misaligned (s : State) (h : HartId) (op : RvOp) (rd : Reg) (t : Dword) (hx : Executes s h) (hj : Claim.jump (s.hart h) op = some (rd, t))
    (ha : t.toNat % 4 ≠ 0) : exec (.standardInstruction op) s = .next ((s.setHart h { s.hart h with run := .running }).takeExc h (s.hart h).pc
      { code := 4, detail := 0, tval := t, scause := 0 }) := by
  have hp : (s.hart h).handler = none := hx.2
  have key : ∀ m : HartId → M Unit, ∀ v, m h (s.setHart h (s.hart h).past) = .error (.exc { code := 4, detail := 0, tval := t, scause := 0 }) (s.setHart h (s.hart h).past) → scalar v m s = .next ((s.setHart h { s.hart h with run := .running }).takeExc h (s.hart h).pc
    { code := 4, detail := 0, tval := t, scause := 0 }) := by
    intro m v hm
    rw [scalar_exc hx v m _ hm]
    simp [Hart.past]
  apply key
  cases op <;> simp [Claim.jump] at hj
  · obtain ⟨rfl, rfl⟩ := hj
    simp [rvOp, instrPc, hp, jumpBy, jalOff, -BitVec.toNat_add, -BitVec.toNat_sub] at ha ⊢
    simp [ha, -BitVec.toNat_add, -BitVec.toNat_sub]
  · obtain ⟨rfl, rfl⟩ := hj
    simp [rvOp, instrPc, hp, jumpTo] at ha ⊢
    simp [ha, -BitVec.toNat_add, -BitVec.toNat_sub]
  · obtain ⟨ht, rfl, rfl⟩ := hj
    simp [rvOp, ht, hp, jumpBy, brOff, -BitVec.toNat_add, -BitVec.toNat_sub] at ha ⊢
    simp [ha, -BitVec.toNat_add, -BitVec.toNat_sub]

theorem kind_bind (i : Instr) (f : Unit → M Unit) (s : State) : (kindM false i >>= f) s = .error (.exc (excIllegal 1 (wordOf i))) s := rfl

theorem leave_bits (v : Dword) : (Sstatus.leave v).getLsbD 1 = v.getLsbD 5 ∧ (Sstatus.leave v).getLsbD 5 = true ∧ (Sstatus.leave v).getLsbD 8 = false ∧ (∀ i, i < 64 → i ≠ 1 → i ≠ 5 → i ≠ 8 → (Sstatus.leave v).getLsbD i = v.getLsbD i) := by
  have key : ∀ i : Fin 64, (Sstatus.leave v).getLsbD i = ((v.getLsbD i && !decide (i.1 = 1 ∨ i.1 = 5 ∨ i.1 = 8)) || (v.getLsbD 5 && decide (i.1 = 1)) || decide (i.1 = 5)) := by
    intro i
    have e1 : ∀ i : Fin 64, (~~~0x122#64).getLsbD i = !decide (i.1 = 1 ∨ i.1 = 5 ∨ i.1 = 8) := by decide
    have e2 : ∀ i : Fin 64, (0x2#64).getLsbD i = decide (i.1 = 1) := by decide
    have e3 : ∀ i : Fin 64, (0x20#64).getLsbD i = decide (i.1 = 5) := by decide
    have e4 : ∀ i : Fin 64, (0#64).getLsbD i = false := by decide
    have f2 : (if Sstatus.spie v = true then 0x2#64 else 0).getLsbD i = (v.getLsbD 5 && decide (i.1 = 1)) := by
      unfold Sstatus.spie
      cases v.getLsbD 5
      · exact (e4 i).trans (by simp)
      · exact (e2 i).trans (by simp)
    rw [Sstatus.leave, BitVec.getLsbD_or, BitVec.getLsbD_or, BitVec.getLsbD_and, e1, f2, e3]
  refine ⟨(key ⟨1, by decide⟩).trans (by simp), (key ⟨5, by decide⟩).trans (by simp), (key ⟨8, by decide⟩).trans (by simp), ?_⟩
  intro i hi h1 h5 h8
  refine (key ⟨i, hi⟩).trans ?_
  simp [h1, h5, h8]

theorem sret_run {s : State} {h : HartId} (hx : Executes s h) (he : notEngine h = true) (hp : (s.hart h).priv = .s) :
   exec .sret s = .next (((s.setHart h (s.hart h).past).returnS h).setHart h (((s.setHart h (s.hart h).past).returnS h).hart h).retired) := by
  refine scalar_ok hx _ _ ?_
  simp [kindM, levelS, he, hp, show (Priv.s == Priv.s) = true from rfl]

theorem sret_strand (s : State) (k : Nat) (hx : Executes s (.strand k)) (hp : (s.hart (.strand k)).priv = .s) :
    ∃ t, exec .sret s = .next (s.setHart (.strand k) t) ∧ t.tn = false ∧ t.pc = (s.hart (.strand k)).sepc ∧
      t.priv = (if (s.hart (.strand k)).sstatus.getLsbD 8 then .s else .u) ∧
      t.sstatus.getLsbD 1 = (s.hart (.strand k)).sstatus.getLsbD 5 ∧ t.sstatus.getLsbD 5 = true ∧ t.sstatus.getLsbD 8 = false := by
  obtain ⟨b1, b5, b8, bo⟩ := leave_bits (s.hart (.strand k)).sstatus
  refine ⟨{ (s.hart (.strand k)).past.leaveS with instret := (s.hart (.strand k)).instret + 1, granted := none }, ?_, rfl, rfl, rfl, b1, b5, b8⟩
  rw [sret_run hx rfl hp]
  simp only [State.returnS, State.hart_setHart, State.setHart_setHart]
  rw [Hart.retired_eq]
  · rfl
  · exact hx.2

end Sys2Proof.Machine
end

