-- ==== Sys2Proof/Laws/ScalarMemory.lean ====
section
/-! SUPPORT. CSR instructions, floating point, loads, stores and atomics of a hart (R12 to R18, R281 to R285). -/

namespace Sys2Proof.Machine

open Sys2Proof.Claim

theorem ser (f : Hart → Hart) {s : State} {h : HartId} (hx : Executes s h) (v : Hart → Option Nat) (m : HartId → M Unit)
    (hm : m h (s.setHart h (s.hart h).past) = .ok () (s.setHart h (f (s.hart h).past)))
    (hf : ({ f (s.hart h).past with instret := (f (s.hart h).past).instret + 1, granted := none } : Hart) = f (s.hart h).stepped) (hh : (f (s.hart h).past).handler = none) : scalar v m s = .next (s.setHart h (f (s.hart h).stepped)) := by
  rw [scalar_ok hx v m hm]
  simp only [State.setHart_setHart, State.hart_setHart]
  rw [Hart.retired_eq _ hh, hf]

theorem fcsr_low (b : Byte) : BitVec.ofNat 64 (b.toNat % 32) = (b &&& 0x1F#8).setWidth 64 := by
  revert b; decide

theorem fcsr_high (b : Byte) : BitVec.ofNat 64 (b.toNat / 32) = (b >>> 5).setWidth 64 := by
  revert b; decide

theorem csrCheck_ok (h : HartId) (a : Nat) (write : Bool) (w : Word) (s : State) (lvl : Priv) (h1 : csrLevel h a = some lvl)
    (h2 : lvl = .s → (s.hart h).priv = .s) (h3 : write = true → a / 0x400 ≠ 3) (h4 : 1 ≤ a → a ≤ 3 → Sstatus.fs (s.hart h).sstatus ≠ 0)
    (h5 : 0xC00 ≤ a → a ≤ 0xC1F → (s.hart h).priv = .s ∨ (s.hart h).scounteren.getLsbD (a - 0xC00) = true) : csrCheck h a write w s = .ok () s := by
  have e2 : (lvl = .s && (s.hart h).priv = .u : Bool) = false := by
    cases hl : lvl <;> simp_all
  have e3 : (write && decide (a / 0x400 = 3)) = false := by
    cases write <;> simp_all
  have e4 : (decide (1 ≤ a ∧ a ≤ 3) && Sstatus.fs (s.hart h).sstatus == 0) = false := by
    by_cases hc : 1 ≤ a ∧ a ≤ 3
    · simp [hc, h4 hc.1 hc.2]; exact h4 hc.1 hc.2
    · simp [hc]
  have e5 : (decide (0xC00 ≤ a ∧ a ≤ 0xC1F) && (s.hart h).priv == .u && !HartKind.isEngine h && !(s.hart h).scounteren.getLsbD (a - 0xC00)) = false := by
    by_cases hc : 0xC00 ≤ a ∧ a ≤ 0xC1F
    · rcases h5 hc.1 hc.2 with h | h
      · simp [h]
      · simp only [h]; simp
    · simp [hc]
  simp only [csrCheck, bind_run, getHart_run, h1, e2, e3, e4, e5]
  simp

theorem csr_read_ok {s : State} {h : HartId} (hx : Executes s h) (o : CsrOp) (imm : Bool) (rd src : Reg) (a : BitVec 12) (old : Dword)
    (hc : csrCheck h a.toNat (o = .rw || src ≠ 0) (Enc.rvOp (.csr o imm rd src a)) (s.setHart h (s.hart h).past) = .ok () (s.setHart h (s.hart h).past))
    (ho : (s.setHart h (s.hart h).past).csr h a.toNat = old) (hw : o ≠ .rw ∧ src = 0) :
    exec (.standardInstruction (.csr o imm rd src a)) s = .next (s.setHart h ((s.hart h).stepped.wx rd old)) := by
  refine scalar_reg hx _ _ rd old ?_
  obtain ⟨h1, h2⟩ := hw
  subst h2
  simp only [rvOp, bind_run, getHart_run, csrOp, hc, get_run, ho]
  have : (decide (o = .rw) || decide ((0 : Reg) ≠ 0)) = false := by simp [h1]
  simp only [this]
  simp

theorem csr_write_ok {s : State} {h : HartId} (hx : Executes s h) (he : HartKind.isEngine h = false) (o : CsrOp) (imm : Bool) (rd src : Reg) (a : BitVec 12) (old : Dword)
    (hc : csrCheck h a.toNat (o = .rw || src ≠ 0) (Enc.rvOp (.csr o imm rd src a)) (s.setHart h (s.hart h).past) = .ok () (s.setHart h (s.hart h).past))
    (ho : (s.setHart h (s.hart h).past).csr h a.toNat = old) (hw : o = .rw ∨ src ≠ 0) (hn : a.toNat ≠ 0x144) (hn' : a.toNat ≠ 0x5CD) (r : Hart)
    (hr : (s.setHart h (s.hart h).past).writeCsr h a.toNat (Claim.csrNew o old (Claim.csrSource (s.hart h) imm src)) = s.setHart h r.past)
    (hp : r.handler = none) :
    exec (.standardInstruction (.csr o imm rd src a)) s = .next (s.setHart h (r.stepped.wx rd old)) := by
  refine (scalar_ok hx _ _ (t := s.setHart h (r.past.wx rd old)) ?_).trans ?_
  · have hw' : (decide (o = .rw) || decide (src ≠ 0)) = true := by simpa using hw
    simp only [rvOp, bind_run, getHart_run, csrOp, hc]
    rw [hw']
    simp only [get_run, if_true, if_neg hn]
    have hsrc : (if imm = true then src.setWidth 64 else ((s.setHart h (s.hart h).past).hart h).rx src : Dword) = Claim.csrSource (s.hart h) imm src := by
      simp [Claim.csrSource]
    rw [hsrc, ho]
    clear hc hsrc ho hx
    generalize a.toNat = n at *
    cases o <;> simp only [Claim.csrNew] at hr <;> simp only <;> split <;> first | (exact absurd rfl hn') | (simp [HartKind.isEngine] at he; done) | simp only [bind_run, modify_run, hr, setReg_run, State.hart_setHart, State.setHart_setHart]
  · simp only [State.setHart_setHart, State.hart_setHart]
    rw [Hart.retired_eq _ (by simpa [Hart.past] using hp)]
    simp only [Hart.wx]
    split <;> rfl

theorem csr_trap {s : State} {h : HartId} (hx : Executes s h) (o : CsrOp) (imm : Bool) (rd src : Reg) (a : BitVec 12) (c : Nat)
    (hc : csrCheck h a.toNat (o = .rw || src ≠ 0) (Enc.rvOp (.csr o imm rd src a)) (s.setHart h (s.hart h).past) =
      .error (.exc (excIllegal c (Enc.rvOp (.csr o imm rd src a)))) (s.setHart h (s.hart h).past)) :
    exec (.standardInstruction (.csr o imm rd src a)) s = .next ((s.setHart h { s.hart h with run := .running }).takeExc h (s.hart h).pc
      { code := c, detail := 0, tval := (Enc.rvOp (.csr o imm rd src a)).setWidth 64, scause := 2 }) := by
  refine scalar_exc_first hx _ _ _ ?_
  simp only [rvOp, bind_run, getHart_run, csrOp, hc]
  rfl

theorem fpOn_ok (k : Nat) (w : Word) (s : State) (hf : Sstatus.fs (s.hart (.strand k)).sstatus ≠ 0) : fpOn (.strand k) w s = .ok () s := by
  simp [fpOn, HartKind.isStrand, show ¬ (Sstatus.fs (s.hart (.strand k)).sstatus = 0#2) from hf]

theorem fpOn_off (k : Nat) (w : Word) (s : State) (hf : Sstatus.fs (s.hart (.strand k)).sstatus = 0) : fpOn (.strand k) w s = .error (.exc (excIllegal 1 w)) s := by
  simp [fpOn, HartKind.isStrand, hf, illegalM]

theorem fpRound_ok (k : Nat) (rm : BitVec 3) (w : Word) (s : State) (hf : Sstatus.fs (s.hart (.strand k)).sstatus ≠ 0) (hm : Claim.modeOf (s.hart (.strand k)) rm < 5) :
   fpRound (.strand k) rm w s = .ok { mode := Claim.modeOf (s.hart (.strand k)) rm } s := by
  simp only [fpRound, bind_run, fpOn_ok _ _ _ hf, getHart_run]
  simp only [Claim.modeOf] at hm ⊢
  rw [if_neg (by omega)]
  rfl

theorem fpRound_bad (k : Nat) (rm : BitVec 3) (w : Word) (s : State) (hm : Sstatus.fs (s.hart (.strand k)).sstatus = 0 ∨ 5 ≤ Claim.modeOf (s.hart (.strand k)) rm) :
   fpRound (.strand k) rm w s = .error (.exc (excIllegal 1 w)) s := by
  by_cases hf : Sstatus.fs (s.hart (.strand k)).sstatus = 0
  · simp only [fpRound, bind_run, fpOn_off _ _ _ hf]
  · have hm' := hm.resolve_left hf
    simp only [fpRound, bind_run, fpOn_ok _ _ _ hf, getHart_run]
    simp only [Claim.modeOf] at hm'
    rw [if_pos (by omega)]
    rfl

theorem box_false (x : Dword) : box false (x.toNat % 2 ^ 32) = 0xFFFFFFFF#32 ++ x.setWidth 32 := by
  apply BitVec.eq_of_toNat_eq
  rw [BitVec.toNat_append, ← Nat.shiftLeft_add_eq_or_of_lt (BitVec.isLt _), Nat.shiftLeft_eq]
  simp [box]
  omega

theorem raise_same (r : Hart) (fl : Nat) (h : r.fcsr ||| BitVec.ofNat 8 fl = r.fcsr) : r.raise fl = r := if_pos h

theorem raise_new (r : Hart) (fl : Nat) (h : ¬ r.fcsr ||| BitVec.ofNat 8 fl = r.fcsr) : r.raise fl = { r with fcsr := r.fcsr ||| BitVec.ofNat 8 fl, sstatus := r.sstatus ||| 0x6000#64 } := if_neg h

theorem after_raise (r q : Hart) (fl : Nat) (hq : q = { r with instret := r.instret + 1, granted := none }) : ({ r.raise fl with instret := (r.raise fl).instret + 1, granted := none } : Hart) = q.raise fl := by
  subst hq
  by_cases h : r.fcsr ||| BitVec.ofNat 8 fl = r.fcsr
  · rw [raise_same r fl h, raise_same]; exact h
  · rw [raise_new r fl h, raise_new]; exact h

theorem after_wf (r : Hart) (rd : Reg) (v : Dword) (fl : Nat) : ({ (r.past.wf rd v).raise fl with instret := ((r.past.wf rd v).raise fl).instret + 1, granted := none } : Hart) = (r.stepped.wf rd v).raise fl := 
  after_raise _ _ fl rfl

theorem after_wx (r : Hart) (rd : Reg) (v : Dword) (fl : Nat) : ({ (r.past.wx rd v).raise fl with instret := ((r.past.wx rd v).raise fl).instret + 1, granted := none } : Hart) = (r.stepped.wx rd v).raise fl := 
  after_raise _ _ fl (by simp only [Hart.wx]; split <;> rfl)

theorem raise_handler (r : Hart) (fl : Nat) : (r.raise fl).handler = r.handler := by
  simp only [Hart.raise]; split <;> rfl

theorem ser_wf {s : State} {h : HartId} (hx : Executes s h) (v : Hart → Option Nat) (m : HartId → M Unit) (rd : Reg) (x : Dword) (fl : Nat)
    (hm : m h (s.setHart h (s.hart h).past) = .ok () (s.setHart h (((s.hart h).past.wf rd x).raise fl))) :
    scalar v m s = .next (s.setHart h (((s.hart h).stepped.wf rd x).raise fl)) := by
  rw [scalar_ok hx v m hm]
  simp only [State.setHart_setHart, State.hart_setHart]
  rw [Hart.retired_eq _ (by rw [raise_handler]; exact hx.2), after_wf]

theorem ser_wx {s : State} {h : HartId} (hx : Executes s h) (v : Hart → Option Nat) (m : HartId → M Unit) (rd : Reg) (x : Dword) (fl : Nat)
    (hm : m h (s.setHart h (s.hart h).past) = .ok () (s.setHart h (((s.hart h).past.wx rd x).raise fl))) :
    scalar v m s = .next (s.setHart h (((s.hart h).stepped.wx rd x).raise fl)) := by
  rw [scalar_ok hx v m hm]
  simp only [State.setHart_setHart, State.hart_setHart]
  rw [Hart.retired_eq _ (by rw [raise_handler, Hart.wx_handler]; exact hx.2), after_wx]

theorem raise_zero (r : Hart) : r.raise 0 = r := by simp [Hart.raise]

theorem mbWritten_past (r : Hart) (n : Nat) (v : Dword) : Claim.mbWritten r.past n v = (Claim.mbWritten r n v).past := by
  unfold Claim.mbWritten
  by_cases h : (r.deps.any fun d => decide (d.1 = n)) = true
  · rw [if_pos (show (r.past.deps.any fun d => decide (d.1 = n)) = true from h), if_pos h]; rfl
  · rw [if_neg (show ¬(r.past.deps.any fun d => decide (d.1 = n)) = true from h), if_neg h]; rfl

theorem mbWritten_handler (r : Hart) (n : Nat) (v : Dword) : (Claim.mbWritten r n v).handler = r.handler := by
  simp only [Claim.mbWritten]; split <;> rfl

theorem rel_drained {s : State} {h : HartId} (hd : Claim.Drained s h) (scope : Nat) : (Claim.inside s h).releaseUnit ((Claim.inside s h).accOf h).who scope = Claim.inside s h := by
  simp only [State.releaseUnit, State.performAll]
  split
  · rfl
  · have h1 : ∀ q ∈ (Claim.inside s h).quantum, (q.unit == ((Claim.inside s h).accOf h).who.code && decide (q.scope ≤ scope)) = false := by
      intro q hq
      have := hd q (by simpa [Claim.inside] using hq)
      simp [this]
    have h2 : List.filter (fun q => q.unit == ((Claim.inside s h).accOf h).who.code && decide (q.scope ≤ scope)) (Claim.inside s h).quantum = [] := by
      rw [List.filter_eq_nil_iff]; intro q hq; simp only [h1 q hq]; simp
    have h3 : List.filter (fun q => !(q.unit == ((Claim.inside s h).accOf h).who.code && decide (q.scope ≤ scope))) (Claim.inside s h).quantum = (Claim.inside s h).quantum := by
      rw [List.filter_eq_self]; intro q hq; simp only [h1 q hq]; simp
    rw [h2, h3]; rfl

theorem scoped_exec {o : AtomOp} {a : AmoArgs} {i : Instr} (h : Claim.scopedAmo o a = some i) (s : State) : exec i s = scalar (handlerRule false a.rd) (amoM o i a) s := by
  cases o <;> simp [Claim.scopedAmo] at h <;> subst h <;> rfl

end Sys2Proof.Machine
end

