-- ==== Sys2Proof/Laws/Semaphores.lean ====
section
/-! SUPPORT. Semaphores and futures (R94 to R98). -/

namespace Sys2Proof.Machine

open Sys2Proof.Claim

theorem sem_setHart (s : State) (h : HartId) (v : Hart) (c i : Nat) : (s.setHart h v).sem c i = s.sem c i := by
  simp [State.sem]

theorem setSem_setHart (s : State) (h : HartId) (v : Hart) (c i : Nat) (x : Sem) : (s.setHart h v).setSem c i x = (s.setSem c i x).setHart h v := by
  simp [State.setSem]

theorem hart_setSem (s : State) (h : HartId) (c i : Nat) (x : Sem) : (s.setSem c i x).hart h = s.hart h := by simp [State.setSem]

theorem sem_setSem (s : State) (c i : Nat) (x : Sem) : (s.setSem c i x).sem c i = x := by
  simp only [State.setSem, State.sem, State.cluster_setCluster]
  split
  · rename_i h
    simp only [Map.getD, Map.find_del_self]
    cases x
    simp at h
    simp [h]
  · simp

theorem del_put {α : Type} (m : Map α) (k : Nat) (v : α) : Map.del (Map.put m k v) k = Map.del m k := by
  induction m with
  | nil => simp [Map.put, Map.del]
  | cons e t ih =>
    obtain ⟨j, w⟩ := e
    simp only [Map.put]
    split
    · simp [Map.del]
    · split
      · rename_i h; subst h; simp [Map.del]
      · simp [Map.del] at ih ⊢
        rename_i h
        have : ¬ j = k := fun e => h e.symm
        simp [this, ih]

theorem setSem_setSem (s : State) (c i : Nat) (x y : Sem) (h : x.waiters ≠ []) : (s.setSem c i x).setSem c i y = s.setSem c i y := by
  simp only [State.setSem, State.cluster_setCluster, State.setCluster_setCluster]
  rw [if_neg (show ¬ (x.count = 0 ∧ x.waiters = []) from fun e => h e.2)]
  by_cases hy : y.count = 0 ∧ y.waiters = []
  · rw [if_pos hy, if_pos hy, del_put]
  · rw [if_neg hy, if_neg hy, Map.put_put]

theorem grant_stop (s : State) (c i fuel : Nat) (h : ∀ w ∈ (s.sem c i).waiters.head?, (s.sem c i).count < w.amount) : s.grantSem c i (fuel + 1) = s := by
  simp only [State.grantSem]
  split
  · rfl
  · rename_i w rest hw
    rw [if_neg]
    have := h w (by simp [hw])
    omega

theorem grant_one (s : State) (c i fuel : Nat) (g : HartId) (b : Nat) (rest : List Waiter) (hw : (s.sem c i).waiters = .hart g b :: rest) (hb : b ≤ (s.sem c i).count) :
   s.grantSem c i (fuel + 1) = ((s.setSem c i { count := (s.sem c i).count - b, waiters := rest }).grant (.hart g b) (s.sem c i).count).grantSem c i fuel := by
  simp only [State.grantSem, hw]
  rw [if_pos (by simpa [Waiter.amount] using hb)]
  rfl

theorem crewM_ok {s : State} {h : HartId} {ref : CrewRef} {c : Crew} (hm : Claim.Member s h ref c) : crewM h (s.setHart h (s.hart h).past) = .ok (ref, c) (s.setHart h (s.hart h).past) := by
  obtain ⟨h1, h2, h3⟩ := hm
  simp [crewM, h1, h2, h3]

theorem deferred_ok {s : State} {h : HartId} {ref : CrewRef} {c : Crew} (hm : Claim.Member s h ref c) (n : Nat) (hd : Claim.NoDeferred c h n) : 
   takeDeferred ref n (fun d => d.sender == some h) (s.setHart h (s.hart h).past) = .ok () (s.setHart h (s.hart h).past) := by
  obtain ⟨h1, h2, h3⟩ := hm
  simp only [takeDeferred, bind_run, get_run, State.crewOf_setHart, h2]
  cases hf : c.deferred.find n with
  | none => rfl
  | some d => simp [hd d hf]

theorem semWait_exec {s : State} {h : HartId} {i : Instr} {rd : Reg} {n a : Nat} (hx : Executes s h) (hi : Claim.semWait (s.hart h) i = some (rd, n, a)) :
   ∃ m : HartId → M Unit, exec i s = scalar (handlerRule true rd) m s ∧ m h (s.setHart h (s.hart h).past) = semWaitM h rd n a (s.setHart h (s.hart h).past) := by
  unfold Claim.semWait at hi
  split at hi
  · simp at hi
    obtain ⟨rfl, rfl, rfl⟩ := hi
    refine ⟨_, rfl, ?_⟩
    simp
  · split at hi
    · simp at hi
    · rename_i hn
      simp at hi
      obtain ⟨rfl, rfl, rfl⟩ := hi
      refine ⟨_, rfl, ?_⟩
      have : ∀ n : BitVec 4, ¬ n = 0 → (n != 0#4) = true := by decide
      simp [this _ hn]
  · simp at hi

theorem semSig_exec {s : State} {h : HartId} {i : Instr} {rd : Reg} {n a : Nat} (hx : Executes s h) (hi : Claim.semSig (s.hart h) i = some (rd, n, a)) :
   ∃ m : HartId → M Unit, exec i s = scalar (handlerRule false rd) m s ∧ m h (s.setHart h (s.hart h).past) = semSigM h rd n a (s.setHart h (s.hart h).past) := by
  unfold Claim.semSig at hi
  split at hi
  · simp at hi
    obtain ⟨rfl, rfl, rfl⟩ := hi
    refine ⟨_, rfl, ?_⟩
    simp
  · split at hi
    · simp at hi
    · rename_i hn
      simp at hi
      obtain ⟨rfl, rfl, rfl⟩ := hi
      refine ⟨_, rfl, ?_⟩
      have : ∀ n : BitVec 4, ¬ n = 0 → (n != 0#4) = true := by decide
      simp [this _ hn]
  · simp at hi

theorem semState_done {s t : State} {h : HartId} {rd : Reg} {v : Dword} (hh : (s.hart h).handler = none) :
   (t.setHart h ((s.hart h).past.wx rd v)).setHart h (((t.setHart h ((s.hart h).past.wx rd v))).hart h).retired = t.setHart h ((s.hart h).stepped.wx rd v) := by
  simp only [State.hart_setHart, State.setHart_setHart]
  rw [Hart.wx_past, Hart.past_retired _ _ (by rw [Hart.wx_handler]; exact hh) rfl, Hart.wx_stepped]

theorem releaseM_drained {s : State} {h : HartId} (hd : Claim.Drained s h) (scope : Nat) : releaseM h scope (s.setHart h (s.hart h).past) = .ok () (s.setHart h (s.hart h).past) := by
  have := rel_drained hd scope
  simp only [releaseM, modify_run]
  rw [show s.setHart h (s.hart h).past = Claim.inside s h from rfl, this]

theorem entry_ok {s : State} {handle : Nat} {e : Future} (hl : Claim.Live s handle e) : futEntry handle s = .ok e s := by
  obtain ⟨h1, h2, h3, h4⟩ := hl
  simp only [futEntry, bind_run, get_run, h1]
  simp [h2, h3, h4]

theorem entry_stale {s : State} {handle : Nat} (hl : ¬ ∃ f, Claim.Live s handle f) : futEntry handle s = .error (.exc (excDev 19 0 0)) s := by
  simp only [futEntry, bind_run, get_run]
  rw [if_pos]
  · rfl
  · have := fun h2 h3 h4 => hl ⟨_, rfl, h2, h3, h4⟩
    simp
    by_cases h2 : bits handle 0 22 = 0
    · simp [h2]
    · by_cases h3 : (s.futures.getD (futKey handle) {}).allocated = true
      · simp only [h3, h2]; right; intro h4; exact this h2 h3 h4
      · simp at h3; simp [h3]

theorem live_setHart {s : State} {h : HartId} {v : Hart} {handle : Nat} {e : Future} : Claim.Live (s.setHart h v) handle e ↔ Claim.Live s handle e := by
  simp [Claim.Live]

theorem setFuture_setHart (s : State) (h : HartId) (v : Hart) (k : Nat) (f : Future) : (s.setHart h v).setFuture k f = (s.setFuture k f).setHart h v := by
  cases h <;> rfl

theorem hart_setFuture (s : State) (h : HartId) (k : Nat) (f : Future) : (s.setFuture k f).hart h = s.hart h := by
  cases h <;> rfl

theorem done_at {s t : State} {h : HartId} (hh : (s.hart h).handler = none) : (t.setHart h (s.hart h).past).setHart h ((t.setHart h (s.hart h).past).hart h).retired = t.setHart h (s.hart h).stepped := by
  simp only [State.hart_setHart, State.setHart_setHart]
  rw [Hart.past_retired _ _ hh rfl]

theorem park_at {s t : State} {h : HartId} (p : Park) : (t.setHart h (s.hart h).past).setHart h { (t.setHart h (s.hart h).past).hart h with pc := (s.hart h).pc, run := .parked p } = t.setHart h { s.hart h with run := .parked p } := by
  simp only [State.hart_setHart, State.setHart_setHart]; rfl

theorem freeFuture_spec (s : State) (die : Nat) (fuel start i : Nat) (h : s.freeFuture die start fuel = some i) : 0 < i ∧ i < 2 ^ 22 ∧ (s.futures.getD (die * 2 ^ 22 + i) {}).allocated = false := by
  induction fuel generalizing start with
  | zero => simp [State.freeFuture] at h
  | succ n ih =>
    simp only [State.freeFuture] at h
    split at h
    · rename_i hc
      simp only [Option.some.injEq] at h
      subst h
      refine ⟨by omega, Nat.mod_lt _ (by decide), by simpa using hc.2⟩
    · exact ih _ h

theorem freeFuture_setHart (s : State) (h : HartId) (v : Hart) (die : Nat) (fuel start : Nat) : (s.setHart h v).freeFuture die start fuel = s.freeFuture die start fuel := by
  induction fuel generalizing start with
  | zero => rfl
  | succ n ih => simp [State.freeFuture, ih]

theorem freeFuture_free (s : State) (f : Nat) (die : Nat) (fuel start : Nat) : ({ s with free := f } : State).freeFuture die start fuel = s.freeFuture die start fuel := by
  induction fuel generalizing start with
  | zero => rfl
  | succ n ih => simp only [State.freeFuture, ih]

end Sys2Proof.Machine
end

