-- ==== Sys2Proof/Laws/Spawn.lean ====
section
/-! SUPPORT. Continuations enqueued, joins and exits (R99 to R101). -/

namespace Sys2Proof.Machine

open Sys2Proof.Claim

theorem crewOf_setCluster (s : State) (k : Nat) (c : Cluster) (hc : c.crews = (s.cluster k).crews) (r : CrewRef) : (s.setCluster k c).crewOf r = s.crewOf r := by
  simp only [State.crewOf]
  by_cases h : r.cluster = k
  · rw [h, State.cluster_setCluster, hc]
  · rw [State.cluster_setCluster_ne _ _ h]

theorem crewOf_pushCont (s : State) (k : Nat) (q : QCont) (r : CrewRef) : (s.pushCont k q).crewOf r = s.crewOf r := by
  simp only [State.pushCont]
  split
  · apply crewOf_setCluster; rfl
  · apply crewOf_setCluster; rfl

theorem launches_pushCont (s : State) (k : Nat) (q : QCont) : (s.pushCont k q).launches = s.launches := by
  simp only [State.pushCont]; split <;> rfl

theorem canStart_congr {s t : State} (hc : ∀ r, t.crewOf r = s.crewOf r) (hl : t.launches = s.launches) (c d : Cont) (hk : d.w3 = c.w3) : t.canStart d = s.canStart c := by
  have e1 : d.kind = c.kind := by simp only [Cont.kind, hk]
  have e2 : d.bound = c.bound := by simp only [Cont.bound, Cont.boundBit, Cont.kind, hk]
  have e3 : d.ref = c.ref := by simp only [Cont.ref, Cont.hcluster, Cont.hslot, Cont.hgen, hk]
  have e4 : d.boundBit = c.boundBit := by simp only [Cont.boundBit, hk]
  simp only [State.canStart, e1, e2, e3, hc, lacksUnits, e4, State.kernelOf, hl]

theorem enqueue_can (acc : Acc) (o : Origin) (c : Cont) (fuel : Nat) (s : State) (h : s.canStart (o.queued s c).c = true) :
   enqueue acc o c (fuel + 1) s = .ok () (s.pushCont o.cluster (o.queued s c)) := by
  simp only [enqueue, bind_run, get_run]
  rw [ite_run, if_pos h]
  rfl

theorem enqueueAll_run (acc : Acc) (o : Origin) (c : Cont) (l : List Nat) (s : State) (hs : s.canStart (o.queued s c).c = true) :
   enqueueAll acc o c l s = .ok () (l.foldl (fun u i => u.pushCont o.cluster (o.queued u (c.addLidx i))) s) := by
  induction l generalizing s with
  | nil => rfl
  | cons i t ih =>
    have h1 : s.canStart (o.queued s (c.addLidx i)).c = true := by
      rw [← hs]
      apply canStart_congr (fun _ => rfl) rfl
      simp only [Origin.queued]
      cases o.crew <;> simp [Cont.stamp, Cont.addLidx]
    have h2 : enqueue acc o (c.addLidx i) 64 s = .ok () (s.pushCont o.cluster (o.queued s (c.addLidx i))) := by
      exact enqueue_can _ _ _ 63 _ h1
    simp only [enqueueAll, bind_run, h2, List.foldl_cons]
    apply ih
    rw [← hs]
    apply canStart_congr (crewOf_pushCont _ _ _) (launches_pushCont _ _ _)
    simp only [Origin.queued]

theorem canon (va : Dword) (h : canonical va = true) : (va.setWidth 48).signExtend 64 = va := by
  have e : va.extractLsb' 0 48 = va.setWidth 48 := by
    apply BitVec.eq_of_toNat_eq; simp
  simp [canonical, e] at h
  exact h.symm

theorem who_eq (t u : State) (h : HartId) : (t.accOf h).who = (u.accOf h).who := by cases h <;> rfl

theorem spawnM_none {s v : State} (acc : Acc) (o : Origin) (c : Cont) (n : Nat) (hj : c.join = 0)
    (hv : v = s.releaseUnit acc.who 3) (hs : v.canStart (o.queued v c).c = true) : spawnM acc o c n s = .ok () (Claim.pushChildren o c n v) := by
  have e := enqueueAll_run acc o c (List.range n) v hs
  have : ¬ c.join ≠ 0 := fun h => h hj
  simp only [spawnM]
  rw [if_neg this]
  simp only [bind_run, pure_run, modify_run, ← hv]
  exact e

theorem spawnM_join {s u v : State} {old : Nat} (acc : Acc) (o : Origin) (c : Cont) (n : Nat) (hj : c.join ≠ 0)
    (hu : vrmw acc ((c.join.setWidth 48).signExtend 64) 8 (fun v => some ((v + n) % 2 ^ 64)) s = .ok old u)
    (hv : v = u.releaseUnit acc.who 3) (hs : v.canStart (o.queued v c).c = true) : spawnM acc o c n s = .ok () (Claim.pushChildren o c n v) := by
  have e := enqueueAll_run acc o c (List.range n) v hs
  simp only [spawnM]
  rw [if_pos hj]
  simp only [bind_run, hu, pure_run, modify_run, ← hv]
  exact e

theorem endWave_stays (s : State) (k : Nat) (hl : (s.wave k).lanes ≠ 0) : endWave k s = .ok () s := by
  have : ((s.wave k).live && (s.wave k).uended && (s.wave k).lanes == 0 && (s.wave k).accesses.isEmpty && (s.wave k).signals.isEmpty && (s.wave k).sfx.isEmpty && !(s.wave k).trap.act) = false := by
    have : ((s.wave k).lanes == 0) = false := by simpa using hl
    rw [this]; simp
  simp only [endWave, bind_run, get_run]
  rw [if_neg (by rw [this]; simp)]
  rfl

end Sys2Proof.Machine
end

