-- ==== Sys2Proof/Laws/Sends.lean ====
section
/-! SUPPORT. Messages, kicks, coherence objects, ranges, stqs, shoot-downs and migration of a hart (R102 to R115). -/

namespace Sys2Proof.Machine

open Sys2Proof.Claim

theorem same_handler (r : Hart) (f : Handler → Handler) (h : r.handler = none) : { r with handler := r.handler.map f } = r := by
  cases r; simp at h; subst h; rfl

theorem send_body {s t : State} {h : HartId} {dest body : Dword} {reply handler : Bool} {m : Msg} {bs : List Byte}
  (hd : (Claim.inside s h).destOf (s.hart h).crew dest reply handler = some m)
  (hal : body.toNat % (if handler then 32 else 64) = 0)
  (hr : vread ((Claim.inside s h).accOf h) body (if handler then 96 else 64) (Claim.inside s h) = .ok bs t) :
  ((if reply then t.replyFree (sendQueueOf h) = false else t.sendFree (sendQueueOf h) = 0) → 
    (s.hart h).handler = none → sendM h dest body reply handler (Claim.inside s h) = .error (.exc (excDev 14 0 0)) t) ∧
  ((if reply then t.replyFree (sendQueueOf h) = true else 0 < t.sendFree (sendQueueOf h)) → 
    sendM h dest body reply handler (Claim.inside s h) = .ok () ((Claim.rel t h 3).pushSend (sendQueueOf h) (.msg { m with
            sender := senderWord h m.pri
            payload := bs.take 64
            handler := if handler then some (bs.drop 64) else none
            origin := some h }))) := by
  have hc : ((Claim.inside s h).hart h).crew = (s.hart h).crew := by simp [Claim.inside]
  have hhh : ((Claim.inside s h).hart h).handler = (s.hart h).handler := by simp [Claim.inside]
  constructor
  · intro hf hn
    simp only [sendM, bind_run, get_run, hc, hd, aligned, hal, decide_true, guardM_true, ownAcc, pure_run, hr]
    cases reply with
    | true =>
      simp only [if_true, ite_run]  at hf ⊢
      simp [hf, hhh, hn]
    | false => 
      simp at hf
      simp [hf]
  · intro hf
    simp only [sendM, bind_run, get_run, hc, hd, aligned, hal, decide_true, guardM_true, ownAcc, pure_run, hr]
    cases reply with
    | true =>
      simp only [if_true, ite_run] at hf ⊢
      simp [hf, releaseM, Claim.rel]
    | false => 
      simp at hf
      simp [hf, releaseM, Claim.rel]

theorem send_cases {r : Hart} {h : HartId} {i : Instr} {dest body : Dword} {reply handler : Bool} (hs : Claim.sendForm r h i = some (dest, body, reply, handler)) :
   (∃ rs1 rs2, i = .msgSend rs1 rs2 ∧ dest = r.rx rs1 ∧ body = r.rx rs2 ∧ reply = false ∧ handler = false) ∨ 
   (∃ rs1 rs2, i = .msgSendh rs1 rs2 ∧ dest = r.rx rs1 ∧ body = r.rx rs2 ∧ reply = false ∧ handler = true) ∨
   (∃ rs1 rs2, i = .msgReply rs1 rs2 ∧ HartKind.isStrand h = true ∧ dest = r.rx rs1 ∧ body = r.rx rs2 ∧ reply = true ∧ handler = false) := by
  unfold Claim.sendForm at hs
  split at hs
  · simp at hs; obtain ⟨rfl, rfl, rfl, rfl⟩ := hs; exact .inl ⟨_, _, rfl, rfl, rfl, rfl, rfl⟩
  · simp at hs; obtain ⟨rfl, rfl, rfl, rfl⟩ := hs; exact .inr (.inl ⟨_, _, rfl, rfl, rfl, rfl, rfl⟩)
  · split at hs
    · rename_i hk
      simp at hs; obtain ⟨rfl, rfl, rfl, rfl⟩ := hs; exact .inr (.inr ⟨_, _, rfl, hk, rfl, rfl, rfl, rfl⟩)
    · simp at hs
  · simp at hs

theorem send_scalar {s : State} {h : HartId} {i : Instr} {dest body : Dword} {reply handler : Bool} (hx : Executes s h) (he : HartKind.isEngine h = false)
    (hs : Claim.sendForm (s.hart h) h i = some (dest, body, reply, handler)) :
   (∀ e t, sendM h dest body reply handler (Claim.inside s h) = .error (.exc e) t → exec i s = .next ((t.setHart h { t.hart h with pc := (s.hart h).pc }).takeExc h (s.hart h).pc e)) ∧ 
   (∀ t, sendM h dest body reply handler (Claim.inside s h) = .ok () t → (reply = true → (t.hart h).handler = none) → exec i s = .next (Claim.retire t h)) := by
  have hk : notEngine h = true := by simp [notEngine, he]
  rcases send_cases hs with ⟨rs1, rs2, rfl, rfl, rfl, rfl, rfl⟩ | ⟨rs1, rs2, rfl, rfl, rfl, rfl, rfl⟩ | ⟨rs1, rs2, rfl, hst, rfl, rfl, rfl, rfl⟩
  · constructor
    · intro e t hm
      refine scalar_exc hx _ _ _ ?_
      simp only [bind_run, kindM, hk, guardM_true, getHart_run, State.hart_setHart, Hart.past_rx]
      exact hm
    · intro t hm _
      refine scalar_ok hx _ _ ?_
      simp only [bind_run, kindM, hk, guardM_true, getHart_run, State.hart_setHart, Hart.past_rx]
      exact hm
  · constructor
    · intro e t hm
      refine scalar_exc hx _ _ _ ?_
      simp only [bind_run, kindM, hk, guardM_true, getHart_run, State.hart_setHart, Hart.past_rx]
      exact hm
    · intro t hm _
      refine scalar_ok hx _ _ ?_
      simp only [bind_run, kindM, hk, guardM_true, getHart_run, State.hart_setHart, Hart.past_rx]
      exact hm
  · constructor
    · intro e t hm
      refine scalar_exc hx _ _ _ (t := t) ?_
      simp only [bind_run, kindM, hst, guardM_true, getHart_run, State.hart_setHart, Hart.past_rx]
      rw [show s.setHart h (s.hart h).past = Claim.inside s h from rfl, hm]
    · intro t hm hn
      refine (scalar_ok hx _ _ (t := t.setHart h (t.hart h)) ?_).trans (by simp [Claim.retire])
      simp only [bind_run, kindM, hst, guardM_true, getHart_run, State.hart_setHart, Hart.past_rx]
      rw [show s.setHart h (s.hart h).past = Claim.inside s h from rfl, hm]
      simp only [modHart_run, same_handler _ _ (hn rfl)]

theorem takeMsg_pri {l a b : List Msg} {m : Msg} (hm : m.pri = true) (hl : l = a ++ m :: b) (ha : ∀ x ∈ a, x.pri = false) :
    takeMsg l = some (m, a ++ b) := by
  have hf : l.find? (·.pri) = some m := by
    rw [hl, List.find?_append]
    have : List.find? (·.pri) a = none := by simpa using ha
    simp [this, hm]
  have he : l.erase m = a ++ b := by
    rw [hl, List.erase_append_right]
    · simp
    · intro h; have := ha m h; rw [hm] at this; simp at this
  simp only [takeMsg, hf, he]

theorem takeMsg_none {m : Msg} {rest : List Msg} (h : ∀ x ∈ m :: rest, x.pri = false) : takeMsg (m :: rest) = some (m, rest) := by
  have hf : (m :: rest).find? (·.pri) = none := by rw [List.find?_eq_none]; intro x hx; rw [h x hx]; simp
  simp only [takeMsg, hf]

theorem engine_setHart (s : State) {h : HartId} (he : HartKind.isEngine h = false) (v : Hart) (k : Nat) : (s.setHart h v).engine k = s.engine k := by
  cases h <;> first | rfl | (simp [HartKind.isEngine] at he)

theorem setEngine_setHart (s : State) {h : HartId} (he : HartKind.isEngine h = false) (v : Hart) (k : Nat) (x : Engine) : (s.setHart h v).setEngine k x = (s.setEngine k x).setHart h v := by
  cases h <;> first | rfl | (simp [HartKind.isEngine] at he)

theorem hart_setEngine (s : State) {h : HartId} (he : HartKind.isEngine h = false) (k : Nat) (x : Engine) : (s.setEngine k x).hart h = s.hart h := by
  cases h <;> first | rfl | (simp [HartKind.isEngine] at he)

theorem releaseM_inside {s : State} {h : HartId} (hd : Claim.Drained s h) (scope : Nat) : releaseM h scope (Claim.inside s h) = .ok () (Claim.inside s h) := by
  have := rel_drained hd scope
  simp only [releaseM, modify_run]
  rw [this]

theorem range_exec {o : RangeOp} {rs1 rs2 : Reg} {i : Instr}
    (h : (o, i) ∈ [(RangeOp.cwb, Instr.scalarCwb rs1 rs2), (.cinv, .scalarCinv rs1 rs2), (.cflush, .scalarCflush rs1 rs2)]) (s : State) :
    exec i s = scalar (handlerRule false 0) (fun h => do
      let r ← getHart h
      rangeM h o (r.rx rs1) (r.rx rs2)) s := by
  simp at h
  rcases h with ⟨rfl, rfl⟩ | ⟨rfl, rfl⟩ | ⟨rfl, rfl⟩ <;> rfl

theorem std_false (s : State) (h : HartId) : (s.accOf h).std = false := by cases h <;> rfl

theorem stamp_low (x : Dword) (r : CrewRef) (i n : Nat) (h : i + n ≤ 32) : ((x &&& 0xFFFC0000FFFFFFFF#64) ||| BitVec.ofNat 64 (r.cluster % 128 * 2 ^ 32 + r.slot % 8 * 2 ^ 39 + r.gen % 256 * 2 ^ 42)).extractLsb' i n = x.extractLsb' i n := by
  apply BitVec.eq_of_getLsbD_eq
  intro j hj
  simp only [BitVec.getLsbD_extractLsb', hj, decide_true, Bool.true_and, BitVec.getLsbD_or, BitVec.getLsbD_and]
  have h1 : (0xFFFC0000FFFFFFFF#64).getLsbD (i + j) = true := by
    have : ∀ k < 32, (0xFFFC0000FFFFFFFF#64).getLsbD k = true := by decide
    exact this _ (by omega)
  have h2 : (BitVec.ofNat 64 (r.cluster % 128 * 2 ^ 32 + r.slot % 8 * 2 ^ 39 + r.gen % 256 * 2 ^ 42)).getLsbD (i + j) = false := by
    rw [BitVec.getLsbD_ofNat]
    have e : r.cluster % 128 * 2 ^ 32 + r.slot % 8 * 2 ^ 39 + r.gen % 256 * 2 ^ 42 = 2 ^ 32 * (r.cluster % 128 + r.slot % 8 * 2 ^ 7 + r.gen % 256 * 2 ^ 10) := by omega
    rw [e, Nat.testBit_two_pow_mul]
    simp; omega
  rw [h1, h2]; simp

theorem stamp_bit (x : Dword) (r : CrewRef) : ((x &&& 0xFFFC0000FFFFFFFF#64) ||| BitVec.ofNat 64 (r.cluster % 128 * 2 ^ 32 + r.slot % 8 * 2 ^ 39 + r.gen % 256 * 2 ^ 42)).getLsbD 18 = x.getLsbD 18 := by
  have := congrArg (fun b => b.getLsbD 0) (stamp_low x r 18 1 (by omega))
  simpa only [BitVec.getLsbD_extractLsb', Nat.add_zero, Nat.zero_lt_one, decide_true, Bool.true_and] using this

theorem accOf_inside (s : State) (h : HartId) : (s.setHart h (s.hart h).past) = Claim.inside s h := rfl

end Sys2Proof.Machine
end

