-- ==== Sys2Proof/Laws/Handlers.lean ====
section
/-! SUPPORT. Accesses of a hart, handler mode, fatal traps, the end of a kick (R28, R92, R255, R269, R321, R402, R403). -/

namespace Sys2Proof.Machine

open Sys2Proof.Claim

theorem goes_on {s t : State} {h : HartId} (hx : Executes s h) (hl : LikeHarts (Claim.inside s h) t) : ∃ v, (t.hart h).retired = { (s.hart h).stepped with resv := v } := by
  obtain ⟨v, hv⟩ := hl.hart h
  refine ⟨v, ?_⟩
  have : (t.hart h).handler = none := by rw [hv]; simpa [Claim.inside, Hart.past] using hx.2
  rw [Hart.retired_eq _ this, hv]
  simp only [Claim.inside, State.hart_setHart]
  rfl

theorem access_reaches (s : State) (h : HartId) (e : TlbEntry) (rs1 rs2 rd : Reg) (imm : BitVec 12) (hx : Executes s h) (hok : MemoryOk s) :
    let va := (s.hart h).rx rs1 + imm.signExtend 64
    let pa := (trOf e.pte e.size (va.toNat % 2 ^ 48)).pa
    (∀ w, Claim.Reaches (Claim.inside s h) (Claim.stdAccOf s h) .load va (loadBytes w) e →
      ∃ t, exec (.standardLoadStore (.load w rd rs1 imm)) s = .next t ∧ t.mem = s.mem ∧
        Claim.GoesOn s t h ((s.hart h).wx rd (loadExt w (natOfBytes (s.peek pa (loadBytes w)))))) ∧
    (∀ w, Claim.Reaches (Claim.inside s h) (Claim.stdAccOf s h) .store va (storeBytes w) e →
      ∃ t, exec (.standardLoadStore (.store w rs1 rs2 imm)) s = .next t ∧
        t.peek pa (storeBytes w) = leBytes (storeBytes w) ((s.hart h).rx rs2).toNat ∧ Claim.OthersKept s t pa (storeBytes w) ∧
        MemoryOk t ∧ Claim.GoesOn s t h (s.hart h)) := by
  intro va pa
  have hva : (s.hart h).rx rs1 + imm.signExtend 64 = va := rfl
  have hpa : (trOf e.pte e.size (va.toNat % 2 ^ 48)).pa = pa := rfl
  clear_value va pa
  constructor
  · intro w hr
    obtain ⟨t, h1, h2, h3⟩ := vread_reaches hr
    rw [hpa] at h1
    have hl : ¬ 256 < va.toNat % 256 + loadBytes w := by have := hr.2.2.2.1; rw [mod256] at this; omega
    have hpk : (Claim.inside s h).peek pa (loadBytes w) = s.peek pa (loadBytes w) := by simp [Claim.inside, State.peek]
    rw [hpk] at h1
    refine ⟨_, scalar_ok hx _ _ (t := t.setHart h ((t.hart h).wx rd (loadExt w (natOfBytes (s.peek pa (loadBytes w)))))) ?_, ?_, ?_⟩
    · simp only [Claim.stdAccOf, Claim.inside] at h1
      simp only [loadStore, loadStd, stdAcc, bind_run, getHart_run, State.hart_setHart, Hart.past_rx, hva]
      rw [ite_run, if_neg hl]
      simp only [bind_run, get_run, pure_run, h1, setReg_run]
    · simp only [State.setHart_mem, h2]; simp [Claim.inside]
    · simp only [Claim.GoesOn, State.hart_setHart]
      have := h3.handler h
      have hh : (t.hart h).handler = none := by rw [this]; simpa [Claim.inside, Hart.past] using hx.2
      obtain ⟨v, hv⟩ := goes_on hx h3
      refine ⟨v, ?_, by simp⟩
      rw [Hart.retired_eq _ hh] at hv
      rw [Hart.retired_eq _ (by rw [Hart.wx_handler]; exact hh)]
      simp only [Hart.wx]
      have e1 := congrArg Hart.x hv
      have e2 := congrArg (fun r => { r with x := (t.hart h).x.set! rd.toNat (loadExt w (natOfBytes (s.peek pa (loadBytes w)))) }) hv
      have e3 : (t.hart h).x = (s.hart h).x := e1
      split
      · exact hv
      · refine e2.trans ?_
        rw [e3]; rfl
  · intro w hr
    have hlen := leBytes_length (storeBytes w) ((s.hart h).rx rs2).toNat
    have hr' := hr
    rw [← hlen] at hr'
    obtain ⟨t, h1, h2, h3⟩ := vwrite_reaches hr'
    rw [hpa] at h2
    have hl : ¬ 256 < va.toNat % 256 + storeBytes w := by have := hr.2.2.2.1; rw [mod256] at this; omega
    have hmem : t.mem = Memory.write s.mem pa (leBytes (storeBytes w) ((s.hart h).rx rs2).toNat) := by rw [h2]; simp [Claim.inside]
    refine ⟨_, scalar_ok hx _ _ (t := t) ?_, ?_, ?_, ?_, ?_⟩
    · simp only [Claim.stdAccOf, Claim.inside] at h1
      simp only [loadStore, storeStd, stdAcc, bind_run, getHart_run, State.hart_setHart, Hart.past_rx, hva]
      rw [ite_run, if_neg hl]
      simp only [bind_run, get_run, pure_run, h1]
    · simp only [State.peek, State.setHart_mem, hmem]
      have := Memory.read_write s.mem pa (leBytes (storeBytes w) ((s.hart h).rx rs2).toNat) hok
      rw [hlen] at this
      exact this
    · intro b hb
      simp only [State.setHart_mem, hmem]
      rcases hb with hb | hb
      · exact Memory.get_write_of_lt _ _ hb
      · exact Memory.get_write_of_ge _ _ (by rw [hlen]; exact hb)
    · simp only [MemoryOk, State.setHart_mem, hmem]
      exact Memory.wf_write _ _ _ hok
    · obtain ⟨v, hv⟩ := goes_on hx h3
      exact ⟨v, by rw [State.hart_setHart, hv], rfl⟩

theorem read_append (m : List Host.Cell) (a i n : Nat) : Memory.read m a (i + n) = Memory.read m a i ++ Memory.read m (a + i) n := by
  induction i generalizing a with
  | zero => simp [Memory.read]
  | succ i ih => rw [show i + 1 + n = (i + n) + 1 by omega]; simp only [Memory.read, ih, List.cons_append]; rw [show a + 1 + i = a + (i + 1) by omega]

/-- One-byte segments of on-chip storage. -/
def keySegs (key i n : Nat) : List Seg := (List.range' i n).map fun j => { loc := .key (key + j), len := 1 }

theorem filterMap_keys (f : Nat → Option Loc) (key : Nat) (l : List Nat) (h : ∀ i ∈ l, f i = some (.key (key + i))) :
  (l.map f).filterMap (fun b => b.map fun l => ({ loc := l, len := 1 } : Seg)) = l.map fun i => { loc := .key (key + i), len := 1 } := by
  induction l with
  | nil => rfl
  | cons a t ih =>
    simp only [List.map_cons, List.filterMap_cons, h a (by simp), Option.map_some]
    rw [ih (fun i hi => h i (by simp [hi]))]

theorem resolve_sram {s : State} {acc : Acc} {k : AccessKind} {va : Dword} {n key : Nat} (h : Claim.ReachesSram s acc k va n key) :
    resolve acc va n k s = .ok (keySegs key 0 n) s := by
  obtain ⟨hc, hw, hn, hr, hb, -⟩ := h
  have hres : resolveWindow s acc (va.toNat % 2 ^ 48) n k = .ok (keySegs key 0 n) := by
    simp only [resolveWindow]
    rw [if_pos]
    · rw [filterMap_keys _ key _ (by intro i hi; exact hb i (by simpa using hi))]
      simp [keySegs, List.range_eq_range']
    · simp only [Bool.and_eq_true, decide_eq_true_eq, List.all_eq_true]
      refine ⟨?_, hr⟩
      intro x hx
      rw [List.mem_map] at hx
      obtain ⟨i, hi, rfl⟩ := hx
      rw [hb i (by simpa using hi)]; rfl
  simp only [resolve, bind_run]
  rw [ite_run, if_neg (by rw [hc]; simp)]
  rw [ite_run, if_pos (by rw [hw])]
  simp only [bind_run, get_run, hres, pure_run]

theorem readSegs_keys (s : State) (acc : Acc) (key n : Nat) : ∀ (i va : Nat), (∀ j, i ≤ j → j < i + n → s.poisoned (key + j) 1 = false) → 
    readSegs acc va true (keySegs key i n) s = .ok (s.peek (key + i) n) s := by
  induction n with
  | zero => intro i va _; rfl
  | succ n ih =>
    intro i va hp
    have h0 := hp i (by omega) (by omega)
    have hs := ih (i + 1) (va + 1) (fun j h1 h2 => hp j (by omega) (by omega))
    simp only [keySegs, List.range'_succ, List.map_cons, readSegs, readSeg, bind_run, get_run]
    rw [ite_run, if_neg (by rw [h0]; simp)]
    simp only [bind_run, pure_run]
    rw [show List.map (fun j => ({ loc := Loc.key (key + j), len := 1 } : Seg)) (List.range' (i + 1) n) = keySegs key (i + 1) n from rfl, hs]
    simp only [State.peek, Memory.read]
    rfl

theorem writeSegs_keys (acc : Acc) (key : Nat) (bs : List Byte) : ∀ (i : Nat) (s : State), 
    ∃ t, writeSegs acc true (keySegs key i bs.length) bs s = .ok () t ∧ t.mem = Memory.write s.mem (key + i) bs ∧ LikeHarts s t := by
  induction bs with
  | nil => intro i s; exact ⟨s, rfl, rfl, .refl s⟩
  | cons b t ih =>
    intro i s
    obtain ⟨u, h1, h2, h3⟩ := ih (i + 1) ((s.dropResvs (keyCluster (key + i)) acc.hart fun r => decide (r.line = (key + i) / 256)).poke (key + i) [b])
    refine ⟨u, ?_, ?_, ?_⟩
    · simp only [List.length_cons, keySegs, List.range'_succ, List.map_cons, writeSegs, writeSeg, bind_run, modify_run]
      exact h1
    · rw [h2]; rfl
    · exact ((like_dropResvs ..).trans (like_poke ..)).trans h3

theorem gateSegs_keys (acc : Acc) (key : Nat) (w : Bool) (n : Nat) : ∀ (i : Nat) (s : State), gateSegs acc w (keySegs key i n) s = .ok () s := by
  induction n with
  | zero => intro i s; rfl
  | succ n ih =>
    intro i s
    simp only [keySegs, List.range'_succ, List.map_cons, gateSegs, bind_run, pure_run]
    exact ih (i + 1) s

theorem window_reaches (s : State) (h : HartId) (key : Nat) (rs1 rs2 rd : Reg) (imm : BitVec 12) (hx : Executes s h) (hok : MemoryOk s) :
    let va := (s.hart h).rx rs1 + imm.signExtend 64
    (∀ w, Claim.ReachesSram (Claim.inside s h) (Claim.stdAccOf s h) .load va (loadBytes w) key → va.toNat % 256 + loadBytes w ≤ 256 →
      exec (.standardLoadStore (.load w rd rs1 imm)) s =
        .next (s.setHart h ((s.hart h).stepped.wx rd (loadExt w (natOfBytes (s.peek key (loadBytes w))))))) ∧
    (∀ w, Claim.ReachesSram (Claim.inside s h) (Claim.stdAccOf s h) .store va (storeBytes w) key → va.toNat % 256 + storeBytes w ≤ 256 →
      ∃ t, exec (.standardLoadStore (.store w rs1 rs2 imm)) s = .next t ∧
        t.peek key (storeBytes w) = leBytes (storeBytes w) ((s.hart h).rx rs2).toNat ∧ Claim.OthersKept s t key (storeBytes w) ∧
        MemoryOk t ∧ Claim.GoesOn s t h (s.hart h)) := by
  intro va
  have hva : (s.hart h).rx rs1 + imm.signExtend 64 = va := rfl
  clear_value va
  constructor
  · intro w hr hl
    have h1 : vread (Claim.stdAccOf s h) va (loadBytes w) (Claim.inside s h) = .ok (s.peek key (loadBytes w)) (Claim.inside s h) := by
      have hp := hr.2.2.2.2.2
      simp only [vread, bind_run, resolve_sram hr]
      rw [readSegs_keys _ _ _ _ 0 _ (fun j _ hj => hp j (by omega))]
      simp [Claim.inside, State.peek]
    have hl' : ¬ 256 < va.toNat % 256 + loadBytes w := by omega
    refine (scalar_reg hx _ _ rd _ ?_)
    simp only [Claim.stdAccOf, Claim.inside] at h1
    simp only [loadStore, loadStd, stdAcc, bind_run, getHart_run, State.hart_setHart, Hart.past_rx, hva]
    rw [ite_run, if_neg hl']
    simp only [bind_run, get_run, pure_run, h1, setReg_run, State.hart_setHart, State.setHart_setHart]
  · intro w hr hl
    have hl' : ¬ 256 < va.toNat % 256 + storeBytes w := by omega
    have hlen := leBytes_length (storeBytes w) ((s.hart h).rx rs2).toNat
    obtain ⟨t, h1, h2, h3⟩ := writeSegs_keys (Claim.stdAccOf s h) key (leBytes (storeBytes w) ((s.hart h).rx rs2).toNat) 0 (Claim.inside s h)
    have hv : vwrite (Claim.stdAccOf s h) va (leBytes (storeBytes w) ((s.hart h).rx rs2).toNat) (Claim.inside s h) = .ok () t := by
      simp only [vwrite, bind_run, hlen, resolve_sram hr, gateSegs_keys]
      rw [hlen] at h1
      exact h1
    have hmem : t.mem = Memory.write s.mem key (leBytes (storeBytes w) ((s.hart h).rx rs2).toNat) := by rw [h2]; simp [Claim.inside]
    refine ⟨_, scalar_ok hx _ _ (t := t) ?_, ?_, ?_, ?_, ?_⟩
    · simp only [Claim.stdAccOf, Claim.inside] at hv
      simp only [loadStore, storeStd, stdAcc, bind_run, getHart_run, State.hart_setHart, Hart.past_rx, hva]
      rw [ite_run, if_neg hl']
      simp only [bind_run, get_run, pure_run, hv]
    · simp only [State.peek, State.setHart_mem, hmem]
      have := Memory.read_write s.mem key (leBytes (storeBytes w) ((s.hart h).rx rs2).toNat) hok
      rw [hlen] at this
      exact this
    · intro b hb
      simp only [State.setHart_mem, hmem]
      rcases hb with hb | hb
      · exact Memory.get_write_of_lt _ _ hb
      · exact Memory.get_write_of_ge _ _ (by rw [hlen]; exact hb)
    · simp only [MemoryOk, State.setHart_mem, hmem]
      exact Memory.wf_write _ _ _ hok
    · obtain ⟨v, hv⟩ := goes_on hx h3
      exact ⟨v, by rw [State.hart_setHart, hv], rfl⟩

theorem stop_hart (s : State) (k : Nat) (r : Hart) : (s.setHart (.strand k) r).hart (.strand k) = r := by simp

theorem kick_ended (s u : State) (k : Nat) (kick : Kick) (hl : LikeHarts u s) (code detail : Nat) (value : Dword) (hr : (s.engine k).running = some kick) (hk : HartKind.isEngine kick.kicker = false) (hm : kick.word.getLsbD 7 = false) :
  Claim.KickEnded u (s.endKick k code detail value) k kick ((value &&& 0xFFFFFFFFFFFF#64) ||| BitVec.ofNat 64 (code % 65536 * 2 ^ 48)) := by
  obtain ⟨X, hX, hXl⟩ : ∃ X, X = (if code = 0 then s.lapseSender (.engine k) else (s.lapseSender (.engine k)).logError code detail 1 (72 + k % 7) (k / 7) (value &&& 0xFFFFFFFFFFFF#64).toNat 0 0 ((s.lapseSender (.engine k)).crewIx kick.crew)) ∧ LikeHarts u X := by
    refine ⟨_, rfl, ?_⟩
    have := hl.trans (like_lapseSender s (.engine k))
    split
    · exact this
    · exact this.trans (like_logError ..)
  obtain ⟨a, ha⟩ := hXl.engine k
  obtain ⟨b, hb⟩ := hXl.hart kick.kicker
  have hh : ∀ (y : Engine), (X.setEngine k y).hart kick.kicker = X.hart kick.kicker := by
    intro y
    cases hkk : kick.kicker with
    | engine j => rw [hkk] at hk; simp [HartKind.isEngine] at hk
    | strand j => rfl
    | uniform j => rfl
  have he : ∀ (y : Engine) (v : Hart), ((X.setEngine k y).setHart kick.kicker v).engine k = y := by
    intro y v
    cases hkk : kick.kicker with
    | engine j => rw [hkk] at hk; simp [HartKind.isEngine] at hk
    | strand j => exact State.engine_setEngine ..
    | uniform j => exact State.engine_setEngine ..
  simp only [State.endKick, hr, hm, ← hX]
  simp only [Claim.KickEnded, Bool.false_eq_true, if_false, he, State.hart_setHart, hh, hb, ha, Map.getD_put_self]
  refine ⟨trivial, ⟨rfl, rfl⟩, trivial, trivial, trivial, trivial⟩

theorem ended_from {s u t : State} {k : Nat} {kick : Kick} {w : Dword} (h : Claim.KickEnded u t k kick w) (hk : (u.hart kick.kicker).kicks = (s.hart kick.kicker).kicks) (hq : (u.engine k).queue = (s.engine k).queue) : Claim.KickEnded s t k kick w := by
  obtain ⟨a, b, c, d, e, f⟩ := h
  exact ⟨a, b, c, d, by rw [← hk]; exact e, by rw [← hq]; exact f⟩

theorem ended_to {s t : State} {k : Nat} {kick : Kick} {w : Dword} (h : Claim.KickEnded s t k kick w) (v : Hart) (hv : v.run = .idle ∧ v.handler = none) (hk : HartKind.isEngine kick.kicker = false) : Claim.KickEnded s (t.setHart (.engine k) v) k kick w := by
  obtain ⟨a, b, c, d, e, f⟩ := h
  have hh : (t.setHart (.engine k) v).hart kick.kicker = t.hart kick.kicker := State.hart_setHart_ne _ _ (by rintro e; rw [e] at hk; simp [HartKind.isEngine] at hk)
  simp only [Claim.KickEnded, hh]
  simp only [State.setHart, State.engine_setEngine]
  exact ⟨a, hv, c, d, e, f⟩

theorem kick_exc (s : State) (k : Nat) (kick : Kick) (v : Hart) (hr : (s.engine k).running = some kick) (hk : HartKind.isEngine kick.kicker = false) (hm : kick.word.getLsbD 7 = false) (code detail : Nat) (value : Dword) :
  Claim.KickEnded s ((s.setHart (.engine k) v).endKick k code detail value) k kick ((value &&& 0xFFFFFFFFFFFF#64) ||| BitVec.ofNat 64 (code % 65536 * 2 ^ 48)) := by
  refine ended_from (kick_ended (s.setHart (.engine k) v) (s.setHart (.engine k) v) k kick (.refl _) code detail value ?_ hk hm) ?_ ?_
  · simp [State.setHart, hr]
  · rw [State.hart_setHart_ne _ _ (by rintro e; rw [e] at hk; simp [HartKind.isEngine] at hk)]
  · simp [State.setHart]

theorem scalar_violation {s : State} {h : HartId} (ha : s.actor = some (.hart h)) (hh : (s.hart h).handler.isSome = true) (v : Hart → Option Nat) (m : HartId → M Unit) (d : Nat)
    (hv : v (s.hart h) = some d) : scalar v m s = .next (s.takeExc h (s.hart h).pc (excDev 15 d 0)) := by
  simp only [scalar, State.actorHart, ha, hh, if_true, hv]

theorem leaveQueues_strands (s : State) (c : Nat) (f : HartId → Bool) (g : Nat → Bool) : (s.leaveQueues c f g).strands = s.strands := by
  simp only [State.leaveQueues]; split <;> rfl

theorem leaveQueues_mem (s : State) (c : Nat) (f : HartId → Bool) (g : Nat → Bool) : (s.leaveQueues c f g).mem = s.mem := by
  simp only [State.leaveQueues]; split <;> rfl

theorem shadow (x : Vector Dword 32) (l : List Dword) (j : Nat) (hj : j < 8) :
   ((List.range 8).foldl (fun x i => x.set! (10 + i) (l.getD i 0)) x)[(BitVec.ofNat 5 (10 + j)).toNat]! = l.getD j 0 := by
  have hr : List.range 8 = [0,1,2,3,4,5,6,7] := rfl
  rw [hr]
  simp only [List.foldl_cons, List.foldl_nil]
  have : j = 0 ∨ j = 1 ∨ j = 2 ∨ j = 3 ∨ j = 4 ∨ j = 5 ∨ j = 6 ∨ j = 7 := by omega
  rcases this with rfl | rfl | rfl | rfl | rfl | rfl | rfl | rfl <;> simp

theorem rx_endHandler (r : Hart) (a : Handler) (h : r.handler = some a) (j : Nat) (hj : j < 8) : r.endHandler.rx (BitVec.ofNat 5 (10 + j)) = a.saved.getD j 0 := by
  have hne : ¬ (BitVec.ofNat 5 (10 + j) = 0) := by
    intro e
    have := congrArg BitVec.toNat e
    simp at this; omega
  simp only [Hart.rx, Hart.endHandler, h]
  rw [if_neg hne]
  exact shadow _ _ _ hj

theorem trap_handler (s : State) (k : Nat) (a : Handler) (d : Nat) (hh : (s.hart (.strand k)).handler = some a) (ht : (s.hart (.strand k)).tn = false) (hd : d < 65536) :
    let r := s.hart (.strand k)
    let t := s.takeExc (.strand k) r.pc (excDev 15 d 0)
    let u := t.hart (.strand k)
    u.handler = none ∧ u.hm = r.hm ∧ u.priv = .s ∧ u.tn = true ∧ u.sepc = r.pc ∧ u.scause = 24 ∧
        u.dcause = BitVec.ofNat 64 (d * 65536 + 15) ∧ u.pc = r.stvec &&& ~~~3#64 ∧
        (∀ j, j < 8 → u.rx (BitVec.ofNat 5 (10 + j)) = a.saved.getD j 0) ∧ t.mem = s.mem := by
  intro r t u
  have he : t = ((s.setHart (.strand k) r.endHandler).leaveQueues (k / 512) (· = .strand k) (fun _ => false)).setHart (.strand k)
      (r.endHandler.enterS r.pc 24 0 (BitVec.ofNat 64 (d * 65536 + 15)) none) := by
    show s.trapStrand k r.pc (excDev 15 d 0) = _
    have hl : ∀ v : Hart, (((s.setHart (.strand k) v).leaveQueues (k / 512) (· = .strand k) (fun _ => false)).hart (.strand k)) = v := by
      intro v
      show (((s.setHart (.strand k) v).leaveQueues (k / 512) (· = .strand k) (fun _ => false)).strands.getD k {}) = v
      rw [leaveQueues_strands]
      exact State.hart_setHart s (.strand k) v
    unfold State.trapStrand
    rw [if_neg (by simpa using ht)]
    simp only [hh, Option.isSome_some, Bool.true_and, if_true, excDev]
    rw [if_neg (by simp)]
    simp only [hl, dcauseOf, Nat.mod_eq_of_lt hd]
    rfl
  have hu : u = r.endHandler.enterS r.pc 24 0 (BitVec.ofNat 64 (d * 65536 + 15)) none := by
    simp only [u, he, State.hart_setHart]
  have hend : r.endHandler.handler = none ∧ r.endHandler.hm = r.hm ∧ r.endHandler.stvec = r.stvec := by
    simp only [Hart.endHandler, r, hh]; trivial
  refine ⟨?_, ?_, ?_, ?_, ?_, ?_, ?_, ?_, ?_, ?_⟩
  · rw [hu]; exact hend.1
  · rw [hu]; exact hend.2.1
  · rw [hu]; rfl
  · rw [hu]; rfl
  · rw [hu]; rfl
  · rw [hu]; rfl
  · rw [hu]; rfl
  · rw [hu]; show r.endHandler.stvec &&& _ = _; rw [hend.2.2]
  · intro j hj
    rw [hu]
    exact rx_endHandler r a hh j hj
  · rw [he, State.setHart_mem, leaveQueues_mem, State.setHart_mem]

theorem violations_exec (s : State) (k d : Nat) (i : Instr) (rd rs1 rs2 : Reg) (imm : BitVec 12) (off : BitVec 20) (ha : s.actor = some (.hart (.strand k))) (hh : (s.hart (.strand k)).handler.isSome = true)
    (hv : (d, i) ∈ Claim.violations (s.hart (.strand k)) rd rs1 rs2 imm off) : d < 65536 ∧ exec i s = .next (s.takeExc (.strand k) (s.hart (.strand k)).pc (excDev 15 d 0)) := by
  have key : ∀ (v : Hart → Option Nat) (m : HartId → M Unit), exec i s = scalar v m s → v (s.hart (.strand k)) = some d → d < 65536 → 
     d < 65536 ∧ exec i s = .next (s.takeExc (.strand k) (s.hart (.strand k)).pc (excDev 15 d 0)) := by
    intro v m h1 h2 h3
    exact ⟨h3, h1.trans (scalar_violation ha hh _ _ d h2)⟩
  simp only [Claim.violations, List.mem_append, or_assoc] at hv
  rcases hv with hv | hv | hv | hv | hv
  · simp at hv
    rcases hv with ⟨rfl, rfl⟩ | ⟨rfl, rfl⟩ | ⟨rfl, rfl⟩ | ⟨rfl, rfl⟩ | ⟨rfl, rfl⟩ | ⟨rfl, rfl⟩ | ⟨rfl, rfl⟩ | ⟨rfl, rfl⟩ | ⟨rfl, rfl⟩ | ⟨rfl, rfl⟩ | ⟨rfl, rfl⟩ | ⟨rfl, rfl⟩ | ⟨rfl, rfl⟩ | ⟨rfl, rfl⟩ | ⟨rfl, rfl⟩ | ⟨rfl, rfl⟩ | ⟨rfl, rfl⟩
    all_goals (refine key _ _ rfl ?_ (by omega))
    all_goals rfl
  · split at hv
    · simp at hv
      obtain ⟨rfl, rfl⟩ := hv
      rename_i hr
      refine key _ _ rfl ?_ (by omega)
      simp [replyRule, hr]
    · simp at hv
  · split at hv
    · simp at hv
      obtain ⟨rfl, rfl⟩ := hv
      rename_i hr
      refine key _ _ rfl ?_ (by omega)
      simp only [rvRule, hr, decide_true, if_true]
    · simp at hv
  · split at hv
    · simp at hv
      obtain ⟨rfl, rfl⟩ := hv
      rename_i hr
      refine key _ _ rfl ?_ (by omega)
      simp only [rvRule, hr, decide_true, if_true]
    · simp at hv
  · split at hv
    · rename_i hr
      have hrd : handlerRd rd = true := by
        have h0 := hr.1
        have h1 : ¬ (10 ≤ rd.toNat ∧ rd.toNat ≤ 17) := by omega
        simp only [handlerRd, decide_eq_false h1, Bool.not_false, Bool.and_true]
        simpa using h0
      simp only [List.mem_cons, Prod.mk.injEq, List.not_mem_nil, or_false] at hv
      rcases hv with ⟨rfl, rfl⟩ | ⟨rfl, rfl⟩ | ⟨rfl, rfl⟩ | ⟨rfl, rfl⟩ | ⟨rfl, rfl⟩ | ⟨rfl, rfl⟩ | ⟨rfl, rfl⟩ | ⟨rfl, rfl⟩ | ⟨rfl, rfl⟩
      all_goals (refine key _ _ rfl ?_ (by omega))
      all_goals (simp only [rvRule, lsRule, rvRd, handlerRule, hrd, if_true]; rfl)
    · simp at hv

end Sys2Proof.Machine
end

