-- ==== Sys2Proof/Laws/LaneGroups.lean ====
section
/-! SUPPORT. Groups of lanes: how they move, divide, leave and meet (R130 to R139, R205 to R217). -/

namespace Sys2Proof.Machine

open Sys2Proof.Claim

set_option Elab.async false

theorem spillM_none (c : LCtx) (v w : Wave) (s : State) (h : OnChip v w) : spillM c v w s = .ok () s := by
  have e (w : Wave) (h : w.frags.length ≤ 4) : w.spilled = [] := by simp [Wave.spilled, List.drop_eq_nil_of_le h]
  simp only [spillM, bind_run, get_run]
  cases w.frame with
  | none => rfl
  | some f =>
    simp only [e w h.2.1, e v h.1, bind_run]
    rw [ite_run, if_neg (by simp)]
    rw [ite_run, if_neg (by have := h.2.2; omega)]
    rfl

theorem regroup_run (c : LCtx) (f : Wave → Wave) (s : State) (h : OnChip (s.wave c.k) (f (s.wave c.k))) :
    regroup c f s = .ok () (s.setWave c.k (f (s.wave c.k))) := by
  simp only [regroup, bind_run, getWave_run, spillM_none c _ _ s h, modWave_run]

theorem stepOver_run (c : LCtx) (s : State) : stepOver c s = .ok () (laneTo s c (groupOn c (s.wave c.k))) := by
  simp only [stepOver, bind_run, advance_run, retire_lane, laneTo]

theorem group_sec {s : State} {c : LCtx} (h : LaneReady s c) (hl : (s.wave c.k).lhandler = none) :
    (if c.sec then (s.wave c.k).sec else (s.wave c.k).pri) = some c.g := by
  have := h.group
  simpa [Wave.group, hl] using this

theorem diverge_two {s : State} {c : LCtx} (h : LaneReady s c) (hl : (s.wave c.k).lhandler = none) (addr : Nat) (x y : Mask × Nat) :
    (s.wave c.k).diverge c.sec c.g addr s.clk [x, y] = divided s c (s.wave c.k).newRec addr x y := by
  have hg := group_sec h hl
  simp only [Wave.diverge, divided, List.foldl_cons, List.foldl_nil, Wave.setGroup, Wave.place, hl]
  cases hs : c.sec <;> rw [hs] at hg <;> simp only [Bool.false_eq_true, if_false, if_true] at hg ⊢
  · cases hx : (s.wave c.k).sec with
    | none => simp [hg]
    | some g => simp [hx, hg]
  · cases hx : (s.wave c.k).pri with
    | none => simp [hx, hg]
    | some g => simp [hx, hg]

theorem noHandler_run (c : LCtx) (s : State) (hl : (s.wave c.k).lhandler = none) : noHandler c s = .ok () s := by
  simp only [noHandler, bind_run, getWave_run]
  rw [ite_run, if_neg (by rw [hl]; simp)]; rfl

theorem regroup_two {s : State} {c : LCtx} (h : LaneReady s c) (hl : (s.wave c.k).lhandler = none) (addr : Nat) (x y : Mask × Nat)
    (ho : OnChip (s.wave c.k) (divided s c (s.wave c.k).newRec addr x y)) :
    regroup c (fun w => w.diverge c.sec c.g addr s.clk [x, y]) s = .ok () (s.setWave c.k (divided s c (s.wave c.k).newRec addr x y)) := by
  have := diverge_two h hl addr x y
  rw [regroup_run, this]
  rw [this]; exact ho

theorem place_rest (w : Wave) (g : Group) (clk : Nat) : w.place g clk = { w with
    pri := (w.place g clk).pri
    sec := (w.place g clk).sec
    frags := (w.place g clk).frags } := by
  simp only [Wave.place]; split
  · rfl
  · split <;> rfl

theorem settle_rest (w : Wave) : w.settle = { w with
    pri := w.settle.pri
    sec := w.settle.sec
    frags := w.settle.frags } := by
  cases hp : w.pri <;> cases hs : w.sec <;> rcases hf : w.frags with _ | ⟨g, _ | ⟨g', t⟩⟩ <;> simp only [Wave.settle, hp, hs, hf]
  all_goals cases w; simp_all

theorem closeRecs_rest (w : Wave) (clk : Nat) (ks : List Nat) : w.closeRecs clk ks = { w with
    pri := (w.closeRecs clk ks).pri
    sec := (w.closeRecs clk ks).sec
    frags := (w.closeRecs clk ks).frags
    recs := (w.closeRecs clk ks).recs } := by
  induction ks generalizing w with
  | nil => rfl
  | cons k t ih =>
    simp only [Wave.closeRecs]
    split
    · rename_i r hr
      split
      · have h := ih (if r.arrived = 0 then { w with recs := w.recs.del k }
          else ({ w with recs := w.recs.del k } : Wave).place { mask := r.arrived, pc := r.addr + 12, token := r.parent } clk)
        rw [h]
        split
        · rfl
        · rw [place_rest]
      · exact ih w
    · exact ih w

theorem leave_rest (w : Wave) (sec : Bool) (g : Group) (m : Mask) (clk : Nat) : w.leave sec g m clk = { w with
    lanes := w.lanes &&& ~~~m
    laneJoin := (w.leave sec g m clk).laneJoin
    laneGfx := (w.leave sec g m clk).laneGfx
    pri := (w.leave sec g m clk).pri
    sec := (w.leave sec g m clk).sec
    frags := (w.leave sec g m clk).frags
    recs := (w.leave sec g m clk).recs
    lhandler := (w.leave sec g m clk).lhandler } := by
  simp only [Wave.leave]
  generalize dropPending w.recs m g.token 64 = rs
  generalize (if g.mask &&& ~~~m = 0 then none else some ((⟨g.mask &&& ~~~m, g.pc, g.token, g.granted, g.waiting, g.since⟩ : Group).at (g.pc + 12))) = nx
  generalize hu : ({ w with
    lanes := w.lanes &&& ~~~m
    laneJoin := w.laneJoin.filter fun e => !Mask.has m e.1
    laneGfx := w.laneGfx.filter fun e => !Mask.has m e.1
    recs := rs } : Wave) = u
  have h1 := closeRecs_rest (u.setGroup sec nx).settle clk ((u.setGroup sec nx).settle.recs.map (·.1))
  have h2 := settle_rest (u.setGroup sec nx)
  have h3 := setGroup_rest u sec nx
  generalize (u.setGroup sec nx).settle.closeRecs clk ((u.setGroup sec nx).settle.recs.map (·.1)) = x at *
  generalize (u.setGroup sec nx).settle = y at *
  generalize u.setGroup sec nx = z at *
  rw [h1, h2, h3, ← hu]

theorem barCover_wave (s : State) (k : Nat) (bs : List Nat) : ∃ b, (s.barCover k bs).wave k = { s.wave k with bars := b } := by
  induction bs generalizing s with
  | nil => exact ⟨(s.wave k).bars, rfl⟩
  | cons x t ih =>
    simp only [State.barCover]
    generalize hu : (if (((s.wave k).bars.getD x {}).arrived != 0 && (s.wave k).lanes &&& ~~~((s.wave k).bars.getD x {}).arrived == 0) = true then
        match (s.wave k).hart.crew with
        | some ref =>
          match s.crewOf ref with
          | some c => s.barArrive k ref c x
          | none => s
        | none => s
      else s) = u
    have : ∃ b, u.wave k = { s.wave k with bars := b } := by
      rw [← hu]
      split
      · split
        · split
          · rename_i c _
            refine ⟨(s.wave k).bars.put x { arrived := 0, ticket := (s.barrier c x).phase, held := true }, ?_⟩
            simp only [State.barArrive, State.setCrew, State.wave_setCluster, State.wave_setWave]
          · exact ⟨(s.wave k).bars, rfl⟩
        · exact ⟨(s.wave k).bars, rfl⟩
      · exact ⟨(s.wave k).bars, rfl⟩
    obtain ⟨b, hb⟩ := this
    obtain ⟨b', hb'⟩ := ih u
    exact ⟨b', by rw [hb', hb]⟩

theorem laneRetired_lanes (s : State) (c : LCtx) : ((laneRetired s c).wave c.k) = waveRetired c (s.wave c.k) := by
  simp only [laneRetired, State.wave_setWave]

theorem departed_lanes (s : State) (c : LCtx) (m : Mask) : ((departed s c m).wave c.k).lanes = (s.wave c.k).lanes &&& ~~~m := by
  rw [departed, laneRetired_lanes]
  obtain ⟨b, hb⟩ := barCover_wave (s.setWave c.k ((s.wave c.k).leave c.sec c.g m s.clk)) c.k (List.range 16)
  rw [hb, State.wave_setWave, leave_rest]
  rfl

theorem departM_run (s : State) (c : LCtx) (m : Mask) (h : LanesStay s c m) : departM c m s = .ok () (departed s c m) := by
  have hq : regroupQuiet c (fun w => w.leave c.sec c.g m s.clk) s = .ok () (s.setWave c.k ((s.wave c.k).leave c.sec c.g m s.clk)) := by
    have := spillM_none c _ _ s h.onChip
    simp only [regroupQuiet, bind_run, getWave_run, quietly, this, modWave_run]
  simp only [departM, bind_run, get_run, hq, modify_run, retire_lane]
  exact endWave_lanes _ _ (by
    have := departed_lanes s c m
    rw [departed] at this
    rw [this]; exact h.others)

theorem sfxDrained_run (s : State) (k : Nat) (h : (s.wave k).sfx = []) : sfxDrained k s = .ok () s := by
  simp only [sfxDrained, bind_run, getWave_run]
  rw [ite_run, if_neg (by simp [h])]; rfl

theorem sendsDrained_run (s : State) (k : Nat) (h : s.waveSendsGone k = true) : sendsDrained k s = .ok () s := by
  simp only [sendsDrained, bind_run, get_run]
  rw [ite_run, if_neg (by simp [h])]; rfl

theorem lanesOf_ne {m : Mask} (h : m ≠ 0) : lanesOf m ≠ [] := by
  intro hc
  apply h
  apply BitVec.eq_of_getLsbD_eq
  intro i hi
  have := List.filter_eq_nil_iff.1 hc i (List.mem_range.2 hi)
  simpa [Mask.has] using this

theorem p_exit (s : State) (c : LCtx) (h : Claim.LaneReady s c) (hi : c.i = .exit c.w) :
    let w := s.wave c.k
    let ls := lanesOf c.act
    let acc := s.laneAcc c.k
    (w.lhandler.isSome = true → w.accesses = [] → ∃ t, exec c.i s = .next t ∧ (t.wave c.k).lhandler = none ∧
        (t.wave c.k).hart.run = .running ∧ (t.wave c.k).pri = w.pri ∧ (t.wave c.k).sec = w.sec ∧ (t.wave c.k).v = w.v) ∧
      (w.lhandler = none → c.act = 0 → exec c.i s = .next (Claim.laneTo s c (Claim.groupOn c w))) ∧
      (∀ t u, w.lhandler = none → c.act ≠ 0 → Claim.WaveQuiet s c.k →
        (∀ l ∈ ls, w.laneJoin.getD l 0 ≠ 0 → Claim.Resolves s acc (canonOf (w.laneJoin.getD l 0)) 8 .store) →
        discharge acc (originOf s (.uniform c.k)) (heldJoins w ls) s = .ok () t → dischargeLanes (ls.filterMap w.laneGfx.find) t = .ok () u →
        Claim.LanesStay u c c.act → exec c.i s = .next (Claim.departed u c c.act)) := by
  intro w ls acc
  have hr : ∀ t, exitM c s = .ok () t → exec c.i s = .next t := fun t ht => laneReady_exec h (by rw [hi]; exact exec_exit s c.w) ht
  refine ⟨fun hl ha => ?_, fun hl h0 => hr _ ?_, fun t u hl h0 hq hres hd hg hst => hr _ ?_⟩
  · have hl' : (s.wave c.k).lhandler.isSome = true := hl
    have e : exitM c s = issued c (s.setWave c.k { s.wave c.k with
        lhandler := none
        hart := { (s.wave c.k).hart with run := .running } }) := by
      simp only [exitM, bind_run, getWave_run]
      rw [ite_run, if_pos hl']
      simp only [bind_run, drainM_ok s c.k ha, endLaneHandler, modWave_run]
    rw [issued_run] at e
    refine ⟨_, hr _ e, ?_⟩
    simp only [State.wave_setWave]
    exact ⟨trivial, trivial, rfl, rfl, rfl⟩
  · have hl' : (s.wave c.k).lhandler = none := hl
    simp only [exitM, bind_run, getWave_run]
    rw [ite_run, if_neg (by rw [hl']; simp), ite_run, if_pos h0]
    exact stepOver_run c s
  · have hl' : (s.wave c.k).lhandler = none := hl
    have hlc : laneCheck ((lanesOf c.act).filter fun l => ((s.wave c.k).laneJoin.getD l 0) != 0) (fun l => do
      let _ ← resolve (s.laneAcc c.k) (canonOf ((s.wave c.k).laneJoin.getD l 0)) 8 .store) s = .ok () s := by
      refine laneCheck_ok _ _ _ fun l hx => ?_
      rw [List.mem_filter] at hx
      obtain ⟨g, hg⟩ := hres l hx.1 (by simpa using hx.2)
      simp only [bind_run, show resolve (s.laneAcc c.k) (canonOf ((s.wave c.k).laneJoin.getD l 0)) 8 .store s = .ok g s from hg, pure_run]
    have hrel : ∀ n, s.releaseUnit (s.laneAcc c.k).who n = s := fun n => by rw [laneAcc_who]; exact releaseWave s c.k n hq.updates
    have hst' := departM_run u c c.act hst
    have hls : lanesOf c.act ≠ [] := lanesOf_ne h0
    simp only [exitM, bind_run, getWave_run]
    rw [ite_run, if_neg (by rw [hl']; simp), ite_run, if_neg h0]
    simp only [bind_run, sfxDrained_run s c.k hq.functions, sendsDrained_run s c.k hq.sends]
    have hdrain : (if (!(heldJoins (s.wave c.k) (lanesOf c.act)).isEmpty || (s.wave c.k).arriving) = true then drainM c.k else pure () : M Unit) s = .ok () s := by
      rw [ite_run]
      split
      · exact drainM_ok s c.k hq.accesses
      · rfl
    have hdis : (if (!(heldJoins (s.wave c.k) (lanesOf c.act)).isEmpty) = true then (do
        modify fun s => s.releaseUnit (s.laneAcc c.k).who 3
        discharge (s.laneAcc c.k) (originOf (← get) (.uniform c.k)) (heldJoins (s.wave c.k) (lanesOf c.act))) else pure () : M Unit) s = .ok () t := by
      rw [ite_run]
      split
      · simp only [bind_run, modify_run, hrel, get_run]
        exact hd
      · rename_i hj
        have hj' : heldJoins (s.wave c.k) (lanesOf c.act) = [] := by simpa using hj
        have : discharge (s.laneAcc c.k) (originOf s (.uniform c.k)) (heldJoins (s.wave c.k) (lanesOf c.act)) s = .ok () t := hd
        rw [hj'] at this
        exact this
    have hg' : dischargeLanes ((lanesOf c.act).filterMap (s.wave c.k).laneGfx.find) t = .ok () u := hg
    by_cases hj : heldJoins (s.wave c.k) (lanesOf c.act) = []
    · simp only [hj, List.isEmpty_nil, Bool.not_true, Bool.false_or, Bool.false_eq_true, if_false, pure_run] at hdrain hdis ⊢
      injection hdis with _ hts
      subst hts
      by_cases har : (s.wave c.k).arriving = true
      · rw [ite_run, if_pos har]
        simp only [bind_run, drainM_ok s c.k hq.accesses, get_run, hlc, hg', hst']
      · rw [ite_run, if_neg har]
        simp only [bind_run, get_run, hlc, hg', hst']
    · have hj' : (heldJoins (s.wave c.k) (lanesOf c.act)).isEmpty = false := by simpa using hj
      simp only [hj', Bool.not_false, Bool.true_or, if_true, bind_run, modify_run, hrel, get_run] at hdis ⊢
      simp only [drainM_ok s c.k hq.accesses, hlc]
      rw [hrel 3, hdis]
      simp only [hg', hst']

theorem laneReady_uni {s : State} {c : LCtx} {uni eff : LCtx → M Unit} {t : State} (h : LaneReady s c)
    (he : exec c.i s = laneInstr c.i c.w uni eff s) (hu : uni c s = .ok () s) (hr : eff c s = .ok () t) : exec c.i s = .next t := by
  rw [he, laneInstr_run s c _ _ h hu, hr]; rfl

theorem laneReady_stall {s : State} {c : LCtx} {uni eff : LCtx → M Unit} {t : State} (h : LaneReady s c)
    (he : exec c.i s = laneInstr c.i c.w uni eff s) (hu : uni c s = .ok () s) (hr : eff c s = .error .stall t) : exec c.i s = .next t := by
  rw [he, laneInstr_run s c _ _ h hu, hr]; rfl

theorem barCheck_run (s : State) (c : LCtx) (h : (s.wave c.k).front = true) : barCheck c s = .ok () s := by
  simp only [barCheck, bind_run, getWave_run]
  rw [ite_run, if_neg (by rw [h]; simp)]; rfl

theorem migCheck_run (s : State) (c : LCtx) {ref : CrewRef} {crew : Crew} {code : Nat} (h1 : c.w.mh = true) (h2 : (s.wave c.k).hart.crew = some ref)
    (h3 : s.crewOf ref = some crew) (h4 : (s.kernelOf crew).strands ≠ 0) (h5 : s.laneMigTarget c.k c.g.pc = some code) : migCheck c s = .ok () s := by
  simp only [migCheck, bind_run, get_run]
  rw [ite_run, if_neg (by rw [h1, h5]; simp)]
  simp only [h2, Option.bind_some, h3]
  rw [ite_run, if_neg h4]; rfl

theorem pushMigrants_run (o : Origin) (w : Wave) (code cls : Nat) (bs : List (Nat × Dword)) (s : State) :
    pushMigrants o w code cls bs s = .ok () (pushMigrated o w code cls bs s) := by
  induction bs generalizing s with
  | nil => rfl
  | cons b t ih =>
    simp only [pushMigrants, bind_run, modify_run, ih]
    rfl

theorem p_bars (s : State) (c : LCtx) (h : Claim.LaneReady s c) (ref : CrewRef) (crew : Crew) (hf : (s.wave c.k).front = true)
    (hc : (s.wave c.k).hart.crew = some ref) (hcr : s.crewOf ref = some crew) : 
    let w := s.wave c.k
    let b := c.w.vd.toNat
    let o := s.barrier crew b
    let x := w.bars.getD b {}
    let arrived := (if x.held then 0#64 else x.arrived) ||| c.g.mask
    (c.i = .barArv c.w →
        (x.held = true → x.ticket = o.phase → exec c.i s = .next s) ∧
        ((x.held = false ∨ x.ticket ≠ o.phase) →
          (w.lanes &&& ~~~arrived ≠ 0 → exec c.i s = .next (Claim.laneTo s c (Claim.groupOn c
            { w with bars := w.bars.put b { x with
              arrived := arrived
              held := false } }))) ∧
          (w.lanes &&& ~~~arrived = 0 → Claim.WaveQuiet s c.k → exec c.i s = .next (Claim.laneTo
            (s.setCrew ref.cluster ref.slot { crew with barriers := crew.barriers.put b (Claim.counted o) }) c (Claim.groupOn c
              { w with bars := w.bars.put b { arrived := 0, ticket := o.phase, held := true } }))))) ∧
      (c.i = .barWait c.w →
        (x.held = true → x.ticket = o.phase → exec c.i s = .next s) ∧
        ((x.held = false ∨ x.ticket ≠ o.phase) → exec c.i s = .next (Claim.laneTo s c (Claim.groupOn c w)))) := by
  intro w b o x arrived
  have hu := barCheck_run s c hf
  have hb : ((s.wave c.k).hart.crew.bind fun ref => (s.crewOf ref).map fun crew => (ref, crew)) = some (ref, crew) := by
    simp [hc, hcr]
  have hb2 : (s.wave c.k).hart.crew.bind s.crewOf = some crew := by simp [hc, hcr]
  constructor
  · intro hi
    have hx : exec c.i s = laneInstr c.i c.w barCheck barArvM s := by rw [hi]; exact exec_barArv s c.w
    have hst : ∀ t, barArvM c s = .error .stall t → exec c.i s = .next t := fun t ht => laneReady_stall h hx hu ht
    have hr : ∀ t, barArvM c s = .ok () t → exec c.i s = .next t := fun t ht => laneReady_uni h hx hu ht
    constructor
    · intro h1 h2
      apply hst
      have h1' : ((s.wave c.k).bars.getD c.w.vd.toNat {}).held = true := h1
      have h2' : ((s.wave c.k).bars.getD c.w.vd.toNat {}).ticket = (s.barrier crew c.w.vd.toNat).phase := h2
      simp only [barArvM, bind_run, get_run, hb]
      rw [ite_run, if_pos (by rw [h1', h2']; simp)]
      rfl
    · intro hd
      have hn : (x.held && x.ticket == o.phase) = false := by
        rcases hd with hd | hd
        · rw [hd]; rfl
        · have : (x.ticket == o.phase) = false := by simpa using hd
          rw [this]; simp
      have hrun : barArvM c s = (do
          if (s.wave c.k).lanes &&& ~~~arrived = 0 then do
            drainM c.k
            modify fun s => (s.releaseUnit (.wave c.k) 1).barArrive c.k ref crew b
          else modWave c.k fun w => { w with bars := w.bars.put b { x with
            arrived := arrived
            held := false } }
          advance c
          Machine.retire c : M Unit) s := by
        simp only [barArvM, bind_run, get_run, hb]
        rw [ite_run, if_neg (by
          rw [show (((s.wave c.k).bars.getD c.w.vd.toNat {}).held && ((s.wave c.k).bars.getD c.w.vd.toNat {}).ticket == (s.barrier crew c.w.vd.toNat).phase) = false from hn]
          simp)]
        simp only [arrived, x, w, b]
        generalize (s.wave c.k).bars.getD c.w.vd.toNat {} = y
        obtain ⟨ya, yt, yh⟩ := y
        cases yh <;> rfl
      constructor
      · intro hl
        apply hr
        rw [hrun, ite_run, if_neg hl]
        simp only [bind_run, modWave_run]
        exact (stepOver_run c _).trans (by simp only [Claim.laneTo, State.setWave_setWave, State.wave_setWave]; rfl)
      · intro hl hq
        apply hr
        rw [hrun, ite_run, if_pos hl]
        simp only [bind_run, drainM_ok s c.k hq.accesses, modify_run, releaseWave s c.k 1 hq.updates]
        refine (stepOver_run c _).trans ?_
        have e : s.barArrive c.k ref crew b = (s.setCrew ref.cluster ref.slot { crew with barriers := crew.barriers.put b (Claim.counted o) }).setWave c.k
            { w with bars := w.bars.put b { arrived := 0, ticket := o.phase, held := true } } := by
          have : (s.barrier crew b).arrive = Claim.counted o := by
            simp only [Barrier.arrive, Claim.counted, Barrier.complete]; rfl
          simp only [State.barArrive, this]
          rfl
        rw [e]
        simp only [Claim.laneTo, State.setWave_setWave, State.wave_setWave]
  · intro hi
    have hx : exec c.i s = laneInstr c.i c.w barCheck barWaitM s := by rw [hi]; exact exec_barWait s c.w
    constructor
    · intro h1 h2
      refine laneReady_stall h hx hu ?_
      have h1' : ((s.wave c.k).bars.getD c.w.vd.toNat {}).held = true := h1
      have h2' : ((s.wave c.k).bars.getD c.w.vd.toNat {}).ticket = (s.barrier crew c.w.vd.toNat).phase := h2
      simp only [barWaitM, bind_run, get_run, hb2]
      rw [ite_run, if_pos (by rw [h1', h2']; simp)]
      rfl
    · intro hd
      refine laneReady_uni h hx hu ?_
      have hn : (((s.wave c.k).bars.getD c.w.vd.toNat {}).held && ((s.wave c.k).bars.getD c.w.vd.toNat {}).ticket == (s.barrier crew c.w.vd.toNat).phase) = false := by
        rcases hd with hd | hd
        · rw [show ((s.wave c.k).bars.getD c.w.vd.toNat {}).held = false from hd]; rfl
        · have : (x.ticket == o.phase) = false := by simpa using hd
          rw [show (((s.wave c.k).bars.getD c.w.vd.toNat {}).ticket == (s.barrier crew c.w.vd.toNat).phase) = false from this]; simp
      simp only [barWaitM, bind_run, get_run, hb2]
      rw [ite_run, if_neg (by rw [hn]; simp)]
      exact stepOver_run c s

theorem enqueueEach_run (acc : Acc) (o : Origin) (cs : List Cont) (s : State) (hs : ∀ k ∈ cs, s.canStart (o.queued s k).c = true) :
    enqueueEach acc o cs s = .ok () (cs.foldl (fun v k => v.pushCont o.cluster (o.queued v k)) s) := by
  induction cs generalizing s with
  | nil => rfl
  | cons k t ih =>
    have h2 : enqueue acc o k 64 s = .ok () (s.pushCont o.cluster (o.queued s k)) := enqueue_can _ _ _ 63 _ (hs k (by simp))
    simp only [enqueueEach, bind_run, h2, List.foldl_cons]
    apply ih
    intro j hj
    rw [← hs j (by simp [hj])]
    apply canStart_congr (crewOf_pushCont _ _ _) (launches_pushCont _ _ _)
    simp only [Origin.queued]

theorem pushSends_run (k : Nat) (ms : List Msg) (s : State) :
    pushSends k ms s = .ok () (ms.foldl (fun t m => t.pushSend (8192 + k / 16) (.msg m)) s) := by
  induction ms generalizing s with
  | nil => rfl
  | cons m t ih => simp only [pushSends, bind_run, modify_run, ih]; rfl

theorem p_spawn (s : State) (c : LCtx) (h : Claim.LaneReady s c) (hi : c.i = .spawn c.w) (rec : Nat → List Byte) (t u : State)
    (hq : Claim.WaveQuiet s c.k) :
    let w := s.wave c.k
    let ls := lanesOf c.act
    let acc := s.laneAcc c.k
    let va (l : Nat) : Dword := w.pair c.w.vd.toNat l
    let cs := ls.map fun l => contOfBytes (rec l)
    let o := originOf s (.uniform c.k)
    (∀ l ∈ ls, (va l).toNat % 32 = 0 ∧ canonical (va l) = true ∧ vread acc (va l) 32 s = .ok (rec l) s ∧
        refuseCont s w.hart.crew w.hart.launch (contOfBytes (rec l)) = none ∧
        ((contOfBytes (rec l)).join ≠ 0 → Claim.Resolves s acc (canonOf (contOfBytes (rec l)).join) 8 .store)) →
      lacksRoom s o cs = false → addJoins acc cs s = .ok () t → u = t.releaseUnit (.wave c.k) 3 →
      (∀ k ∈ cs, u.canStart (o.queued u k).c = true) →
      let v := cs.foldl (fun v k => v.pushCont o.cluster (o.queued v k)) u
      exec c.i s = .next (Claim.laneTo v c (Claim.groupOn c (v.wave c.k))) := by
  intro w ls acc va cs o hl hroom hadd hu hst v
  refine laneReady_exec h (eff := spawnLanes) (by rw [hi]; exact exec_spawn s c.w) ?_
  have c1 : laneCheck (lanesOf c.act) (fun l => aligned (pairVa (s.wave c.k) c.w.vd.toNat l) 32) s = .ok () s := by
    refine laneCheck_ok _ _ _ fun l hx => ?_
    have := (hl l hx).1
    have e : ((s.wave c.k).pair c.w.vd.toNat l).toNat % 32 = 0 := this
    simp only [aligned, pairVa, e, decide_true, guardM_true]
  have c2 : laneCheck (lanesOf c.act) (fun l => guardM (canonical (pairVa (s.wave c.k) c.w.vd.toNat l))
      (accessFault (s.laneAcc c.k) .load 0 (pairVa (s.wave c.k) c.w.vd.toNat l).toNat)) s = .ok () s := by
    refine laneCheck_ok _ _ _ fun l hx => ?_
    have := (hl l hx).2.1
    rw [show canonical (pairVa (s.wave c.k) c.w.vd.toNat l) = true from this]; rfl
  have hrd : ∀ l ∈ lanesOf c.act, vread (s.laneAcc c.k) (pairVa (s.wave c.k) c.w.vd.toNat l) 32 s = .ok (rec l) s := fun l hx => (hl l hx).2.2.1
  have c3 : laneCheck (lanesOf c.act) (fun l => do
      let _ ← vread (s.laneAcc c.k) (pairVa (s.wave c.k) c.w.vd.toNat l) 32) s = .ok () s := by
    refine laneCheck_ok _ _ _ fun l hx => ?_
    simp only [bind_run, hrd l hx, pure_run]
  have c4 : forLanes (lanesOf c.act) (fun l => do return contOfBytes (← vread (s.laneAcc c.k) (pairVa (s.wave c.k) c.w.vd.toNat l) 32)) s = .ok cs s := by
    refine forLanes_ok _ _ _ _ fun l hx => ?_
    simp only [bind_run, hrd l hx, pure_run]
  have c5 : laneCheck (lanesOf c.act) (fun l => do refuseM c.k (contOfBytes (← vread (s.laneAcc c.k) (pairVa (s.wave c.k) c.w.vd.toNat l) 32))) s = .ok () s := by
    refine laneCheck_ok _ _ _ fun l hx => ?_
    simp only [bind_run, hrd l hx, refuseM, get_run]
    rw [show refuseCont s (s.wave c.k).hart.crew (s.wave c.k).hart.launch (contOfBytes (rec l)) = none from (hl l hx).2.2.2.1]; rfl
  have c6 : laneCheck (lanesOf c.act) (fun l => do
      let j := (contOfBytes (← vread (s.laneAcc c.k) (pairVa (s.wave c.k) c.w.vd.toNat l) 32)).join
      if j ≠ 0 then do
        let _ ← resolve (s.laneAcc c.k) (canonOf j) 8 .store) s = .ok () s := by
    refine laneCheck_ok _ _ _ fun l hx => ?_
    simp only [bind_run, hrd l hx]
    by_cases hj : (contOfBytes (rec l)).join = 0
    · rw [ite_run, if_neg (by simp [hj])]; rfl
    · obtain ⟨g, hg⟩ := (hl l hx).2.2.2.2 hj
      rw [ite_run, if_pos hj]
      simp only [bind_run, show resolve (s.laneAcc c.k) (canonOf (contOfBytes (rec l)).join) 8 .store s = .ok g s from hg, pure_run]
  have hroom' : lacksRoom s (originOf s (.uniform c.k)) cs = false := hroom
  have hadd' : addJoins (s.laneAcc c.k) cs s = .ok () t := hadd
  have hen := enqueueEach_run (s.laneAcc c.k) o cs u hst
  simp only [spawnLanes, bind_run, get_run, c1, c2, c3, c4, c5, c6]
  rw [ite_run, if_neg (by rw [hroom']; simp)]
  simp only [bind_run, drainM_ok s c.k hq.accesses, hadd', modify_run, laneAcc_who, ← hu]
  rw [show originOf s (.uniform c.k) = o from rfl, hen]
  exact stepOver_run c v

theorem p_send (s : State) (c : LCtx) (h : Claim.LaneReady s c) (hi : c.i = .send c.w) (m : Nat → Msg) (body : Nat → List Byte)
    (hq : Claim.WaveQuiet s c.k) :
    let w := s.wave c.k
    let ls := lanesOf c.act
    let acc := s.laneAcc c.k
    let n := c.w.vd.toNat
    (∀ l ∈ ls, s.destOf w.hart.crew (w.pair n l) false false = some (m l) ∧ (w.pair (n + 2) l).toNat % 64 = 0 ∧
        vread acc (w.pair (n + 2) l) 64 s = .ok (body l) s) →
      ls.length ≤ s.sendFree (8192 + c.k / 16) →
      let t := ls.foldl (fun t l => t.pushSend (8192 + c.k / 16) (Claim.laneMessage c.k l (m l) (body l))) s
      exec c.i s = .next (Claim.laneTo t c (Claim.groupOn c (t.wave c.k))) := by
  intro w ls acc n hl hroom t
  refine laneReady_exec h (eff := sendLanes) (by rw [hi]; exact exec_send s c.w) ?_
  have hd : ∀ l ∈ lanesOf c.act, laneDest s (s.wave c.k) c.w.vd.toNat l = some (m l) := fun l hx => (hl l hx).1
  have c1 : laneCheck (lanesOf c.act) (fun l => guardM (laneDest s (s.wave c.k) c.w.vd.toNat l).isSome (excReserved 1)) s = .ok () s := by
    refine laneCheck_ok _ _ _ fun l hx => ?_
    rw [hd l hx]; rfl
  have c2 : laneCheck (lanesOf c.act) (fun l => aligned (pairVa (s.wave c.k) (c.w.vd.toNat + 2) l) 64) s = .ok () s := by
    refine laneCheck_ok _ _ _ fun l hx => ?_
    have := (hl l hx).2.1
    have e : ((s.wave c.k).pair (c.w.vd.toNat + 2) l).toNat % 64 = 0 := this
    simp only [aligned, pairVa, e, decide_true, guardM_true]
  have hrd : ∀ l ∈ lanesOf c.act, vread (s.laneAcc c.k) (pairVa (s.wave c.k) (c.w.vd.toNat + 2) l) 64 s = .ok (body l) s := fun l hx => (hl l hx).2.2
  have c3 : laneCheck (lanesOf c.act) (fun l => do
      let _ ← vread (s.laneAcc c.k) (pairVa (s.wave c.k) (c.w.vd.toNat + 2) l) 64) s = .ok () s := by
    refine laneCheck_ok _ _ _ fun l hx => ?_
    simp only [bind_run, hrd l hx, pure_run]
  have hroom' : (lanesOf c.act).length ≤ s.sendFree (8192 + c.k / 16) := hroom
  simp only [sendLanes, bind_run, get_run, c1, c2, c3]
  rw [ite_run, if_neg (by omega)]
  simp only [bind_run, drainM_ok s c.k hq.accesses]
  rw [forLanes_ok (lanesOf c.act) _ (fun l => { m l with sender := laneSender c.k l (m l).pri, payload := body l, wave := some c.k }) s]
  · simp only [modify_run, laneAcc_who, releaseWave s c.k 3 hq.updates, pushSends_run, List.foldl_map]
    exact stepOver_run c t
  · intro l hx
    simp only [bind_run, hrd l hx, hd l hx, pure_run]

theorem p_mig (s : State) (c : LCtx) (h : Claim.LaneReady s c) (hi : c.i = .mig c.w) (ref : CrewRef) (crew : Crew) (code : Nat)
    (h1 : c.w.mh = true) (h2 : (s.wave c.k).hart.crew = some ref)
    (h3 : s.crewOf ref = some crew) (h4 : (s.kernelOf crew).strands ≠ 0) (h5 : s.laneMigTarget c.k c.g.pc = some code) :
    let w := s.wave c.k
    let ls := lanesOf c.act
    let on := Claim.laneTo s c (Claim.groupOn c w)
    (c.act = 0 → exec c.i s = .next on) ∧
      (c.act ≠ 0 → Claim.WaveQuiet s c.k →
        (∀ t, askBlocks ref (.lane c.k (lowLane c.act) ls.length) s = .ok none t → exec c.i s = .next t) ∧
        (∀ free t u, askBlocks ref (.lane c.k (lowLane c.act) ls.length) s = .ok (some free) t → w.newDuties ls = 0 →
          let bs := ls.zip (free.map (s.blockAddr crew))
          (∀ l ∈ ls, Claim.Resolves t (t.laneAcc c.k) ((bs.find? fun b => b.1 == l).map (·.2) |>.getD 0) 512 .store) →
          writeBlocks (t.laneAcc c.k) w bs t = .ok () u →
          let v := (u.releaseUnit (.wave c.k) 1).useBlocks ref free
          let x := Claim.pushMigrated (originOf v (.uniform c.k)) w code crew.cls bs v
          Claim.LanesStay x c c.act → exec c.i s = .next (Claim.departed x c c.act))) := by
  intro w ls on
  have hu := migCheck_run s c h1 h2 h3 h4 h5
  have hx : exec c.i s = laneInstr c.i c.w migCheck migM s := by rw [hi]; exact exec_mig s c.w
  have hb : ((s.wave c.k).hart.crew.bind fun ref => (s.crewOf ref).map fun crew => (ref, crew)) = some (ref, crew) := by
    simp [h2, h3]
  constructor
  · intro h0
    refine laneReady_uni h hx hu ?_
    simp only [migM]
    rw [ite_run, if_pos h0]
    exact stepOver_run c s
  · intro h0 hq
    constructor
    · intro t ht
      refine laneReady_stall h hx hu ?_
      simp only [migM]
      rw [ite_run, if_neg h0]
      simp only [bind_run, get_run, hb, h5, sfxDrained_run s c.k hq.functions, sendsDrained_run s c.k hq.sends, drainM_ok s c.k hq.accesses]
      rw [show askBlocks ref (.lane c.k (lowLane c.act) (lanesOf c.act).length) s = .ok none t from ht]
      rfl
    · intro free t u ht hd bs hres hw v x hst
      refine laneReady_uni h hx hu ?_
      simp only [migM]
      rw [ite_run, if_neg h0]
      simp only [bind_run, get_run, hb, h5, sfxDrained_run s c.k hq.functions, sendsDrained_run s c.k hq.sends, drainM_ok s c.k hq.accesses]
      rw [show askBlocks ref (.lane c.k (lowLane c.act) (lanesOf c.act).length) s = .ok (some free) t from ht]
      have hlc : laneCheck (lanesOf c.act) (fun l => do
          let _ ← resolve (t.laneAcc c.k) ((((lanesOf c.act).zip (free.map (s.blockAddr crew))).find? fun b => b.1 == l).map (·.2) |>.getD 0) 512 .store) t = .ok () t := by
        refine laneCheck_ok _ _ _ fun l hl => ?_
        obtain ⟨g, hg⟩ := hres l hl
        simp only [bind_run, show resolve (t.laneAcc c.k) ((((lanesOf c.act).zip (free.map (s.blockAddr crew))).find? fun b => b.1 == l).map (·.2) |>.getD 0) 512 .store t = .ok g t from hg, pure_run]
      have hd' : (s.wave c.k).newDuties (lanesOf c.act) = 0 := hd
      simp only [bind_run, get_run, hlc, hd']
      have hadd : addDuties c.k 0 t = .ok () t := rfl
      have hw' : writeBlocks (t.laneAcc c.k) (s.wave c.k) ((lanesOf c.act).zip (free.map (s.blockAddr crew))) t = .ok () u := hw
      rw [ite_run, if_neg (by simp)]
      simp only [bind_run, pure_run, hadd, hw', modify_run, laneAcc_who, get_run, pushMigrants_run]
      exact departM_run x c c.act hst

theorem p_fwait (s : State) (c : LCtx) (h : Claim.LaneReady s c) (hi : c.i = .fwait c.w) (e : Nat → Future) (rec : Nat → List Byte) (t : State)
    (hq : Claim.WaveQuiet s c.k) :
    let w := s.wave c.k
    let ls := lanesOf c.act
    let acc := s.laneAcc c.k
      let n := c.w.vd.toNat
      let va (l : Nat) : Dword := w.pair (n + 2) l
      let ready := maskOf (ls.filter fun l => (e l).st == 2).contains
      let waits := ls.filter fun l => (e l).st != 2
      (∀ l ∈ ls, Claim.Live s (w.reg n l).toNat (e l) ∧ (e l).st ≠ 3 ∧ (va l).toNat % 64 = 0 ∧ vread acc (va l) 32 s = .ok (rec l) s ∧
        refuseCont s w.hart.crew w.hart.launch (contOfBytes (rec l)) = none ∧ Claim.Resolves s acc (va l) 64 .store) →
      overPeak s c.k (laneFrees c w) [n, n + 1] = false → w.newDuties waits = 0 →
      (waits = [] → exec c.i s = .next (Claim.laneTo s c (Claim.groupOn c (w.writeOperand true n ready fun l => (e l).value)))) ∧
      (waits ≠ [] → futWaitLanes c.k acc w n waits s = .ok () t →
        let u := t.setWave c.k ((t.wave c.k).writeOperand true n ready fun l => (e l).value)
        Claim.LanesStay u c (maskOf waits.contains) → exec c.i s = .next (Claim.departed u c (maskOf waits.contains))) := by
  intro w ls acc n va ready waits hl hpk hd
  have hr : ∀ u, fwaitM c s = .ok () u → exec c.i s = .next u := fun u hu => laneReady_exec h (by rw [hi]; exact exec_fwait s c.w) hu
  have hent : ∀ l ∈ lanesOf c.act, futEntry ((s.wave c.k).reg c.w.vd.toNat l).toNat s = .ok (e l) s := fun l hx => entry_ok (hl l hx).1
  have hgd : ∀ l ∈ lanesOf c.act, s.futures.getD (futKey ((s.wave c.k).reg c.w.vd.toNat l).toNat) {} = e l := fun l hx => (hl l hx).1.1
  have c1 : laneCheck (lanesOf c.act) (fun l => do
      let _ ← futEntry ((s.wave c.k).reg c.w.vd.toNat l).toNat) s = .ok () s := by
    refine laneCheck_ok _ _ _ fun l hx => ?_
    simp only [bind_run, hent l hx, pure_run]
  have c2 : laneCheck (lanesOf c.act) (fun l => guardM ((s.futures.getD (futKey ((s.wave c.k).reg c.w.vd.toNat l).toNat) {}).st != 3)
      (excDev 22 1 0)) s = .ok () s := by
    refine laneCheck_ok _ _ _ fun l hx => ?_
    have : ((e l).st != 3) = true := by simpa using (hl l hx).2.1
    rw [hgd l hx, this, guardM_true]
  have c3 : laneCheck (lanesOf c.act) (fun l => aligned (pairVa (s.wave c.k) (c.w.vd.toNat + 2) l) 64) s = .ok () s := by
    refine laneCheck_ok _ _ _ fun l hx => ?_
    have e : ((s.wave c.k).pair (c.w.vd.toNat + 2) l).toNat % 64 = 0 := (hl l hx).2.2.1
    simp only [aligned, pairVa, e, decide_true, guardM_true]
  have hrd : ∀ l ∈ lanesOf c.act, vread (s.laneAcc c.k) (pairVa (s.wave c.k) (c.w.vd.toNat + 2) l) 32 s = .ok (rec l) s := fun l hx => (hl l hx).2.2.2.1
  have c5 : laneCheck (lanesOf c.act) (fun l => do
      let _ ← resolve (s.laneAcc c.k) (pairVa (s.wave c.k) (c.w.vd.toNat + 2) l) 64 .store) s = .ok () s := by
    refine laneCheck_ok _ _ _ fun l hx => ?_
    obtain ⟨g, hg⟩ := (hl l hx).2.2.2.2.2
    simp only [bind_run, show resolve (s.laneAcc c.k) (pairVa (s.wave c.k) (c.w.vd.toNat + 2) l) 64 .store s = .ok g s from hg, pure_run]
  have hf1 : (lanesOf c.act).filter (fun l => (s.futures.getD (futKey ((s.wave c.k).reg c.w.vd.toNat l).toNat) {}).st == 2) = (lanesOf c.act).filter fun l => (e l).st == 2 :=
    List.filter_congr fun l hx => by rw [hgd l hx]
  have hf2 : (lanesOf c.act).filter (fun l => (s.futures.getD (futKey ((s.wave c.k).reg c.w.vd.toNat l).toNat) {}).st != 2) = waits :=
    List.filter_congr fun l hx => by rw [hgd l hx]
  have hwo : ∀ v : Wave, v.writeOperand true c.w.vd.toNat ready (fun l => (s.futures.getD (futKey ((s.wave c.k).reg c.w.vd.toNat l).toNat) {}).value) =
      v.writeOperand true c.w.vd.toNat ready fun l => (e l).value := by
    intro v
    refine writeOperand_congr _ _ _ _ _ _ fun l hlt hm => ?_
    have : l ∈ lanesOf c.act := by
      simp only [ready, maskOf_has, Bool.and_eq_true] at hm
      have := List.contains_iff_mem.1 hm.2
      exact (List.mem_filter.1 this).1
    rw [hgd l this]
  have hs : sfxDrainedFor c s = .ok () s := by
    simp only [sfxDrainedFor]
    split
    · rfl
    · exact sfxDrained_run s c.k hq.functions
  have hp : peakCheckFor c ready [c.w.vd.toNat, c.w.vd.toNat + 1] s = .ok () s := by
    simp only [peakCheckFor]
    split
    · rfl
    · exact peakCheck_run s c _ fun _ => hpk
  have hck : fwaitCheck c (s.laneAcc c.k) (s.wave c.k) (fun l => s.futures.getD (futKey ((s.wave c.k).reg c.w.vd.toNat l).toNat) {}) s = .ok () s := by
    simp only [fwaitCheck, bind_run, c1, c2, c3]
    rw [laneCheck_ok]
    · exact c5
    · intro l hx
      simp only [bind_run, attempt, hrd l hx, refuseM, get_run]
      rw [show refuseCont s (s.wave c.k).hart.crew (s.wave c.k).hart.launch (contOfBytes (rec l)) = none from (hl l hx).2.2.2.2.1]; rfl
  have hhold : fwaitHold c (s.wave c.k) s = .ok () s := by
    simp only [fwaitHold, bind_run, sendsDrained_run s c.k hq.sends]
    rw [ite_run]; split
    · exact drainM_ok s c.k hq.accesses
    · rfl
  have hdu : fwaitDuties c (s.laneAcc c.k) (s.wave c.k) waits s = .ok () s := by
    simp only [fwaitDuties, show (s.wave c.k).newDuties waits = 0 from hd]
    rw [ite_run, if_neg (by simp)]; rfl
  constructor
  · intro hw
    refine hr _ ?_
    simp only [fwaitM, bind_run, hs, get_run, hck, hf1, hf2, hwo]
    rw [show maskOf ((lanesOf c.act).filter fun l => (e l).st == 2).contains = ready from rfl, hp]
    simp only []
    rw [ite_run, if_pos (by rw [hw]; rfl)]
    simp only [bind_run, modWave_run, hwo]
    exact (stepOver_run c _).trans (by simp only [Claim.laneTo, State.setWave_setWave, State.wave_setWave]; rfl)
  · intro hw ht u hst
    refine hr _ ?_
    have ht' : futWaitLanes c.k (s.laneAcc c.k) (s.wave c.k) c.w.vd.toNat waits s = .ok () t := ht
    have hw' : waits.isEmpty = false := by simpa using hw
    simp only [fwaitM, bind_run, hs, get_run, hck, hf1, hf2, hwo]
    rw [show maskOf ((lanesOf c.act).filter fun l => (e l).st == 2).contains = ready from rfl, hp]
    simp only []
    rw [ite_run, if_neg (by rw [hw']; simp)]
    simp only [bind_run, hhold, hdu, ht', modWave_run, hwo]
    exact departM_run u c _ hst

end Sys2Proof.Machine
end

