-- ==== Sys2Proof/Laws/LaneOther.lean ====
section
/-! SUPPORT. The other lane memory instructions (R278 to R289, R388). -/

namespace Sys2Proof.Machine

open Sys2Proof.Claim

set_option Elab.async false

theorem completed_ok (c : LCtx) (t : State) (h : Signals t c) : completed c none t = .ok () (laneDone t c {}) := by
  simp only [completed]
  exact completedBy_run c {} t h

theorem noteOob_ok (s : State) (c : LCtx) (inside : List Nat) (store : Bool) : noteOob c inside store s = .ok () (notes s c inside store) := by
  simp only [noteOob, notes]
  rw [ite_run]
  split <;> rfl

theorem placed_ok {s : State} {c : LCtx} (h : LanesPlaced s c) (hw : WordsAligned s c) :
    lanesInBounds c (recordOf s c) true s = .ok (inBounds s c) s := by
  simp only [lanesInBounds, bind_run, get_run]
  have h1 (hb : BufRec.bnd (recordOf s c) = 1) : laneCheck (lanesOf c.act) (fun l => guardM (!(wordAt s c l).oob)
        (excDev 6 0 (wordAt s c l).va)) s = .ok () s := by
    refine laneCheck_ok _ _ _ fun l hl => ?_
    simp only [h.strict hb l hl]; rfl
  have h2 : laneCheck (inBounds s c) (fun l => guardM (!(wordAt s c l).mis && !(true && (wordAt s c l).va.toNat % wordSize c.w.ty != 0))
      (excDev 4 0 (wordAt s c l).va)) s = .ok () s := by
    refine laneCheck_ok _ _ _ fun l hl => ?_
    obtain ⟨h1, h2, -⟩ := hw l hl
    simp only [h1, h2]; rfl
  have h3 : laneCheck (inBounds s c) (fun l => guardM (canonical (wordAt s c l).va)
      (accessFault (s.laneAcc c.k) .load 0 (wordAt s c l).va.toNat)) s = .ok () s := by
    refine laneCheck_ok _ _ _ fun l hl => ?_
    simp only [(hw l hl).2.2]; rfl
  simp only [inBounds, wordAt] at h1 h2 h3
  by_cases hb : BufRec.bnd (recordOf s c) = 1
  · rw [ite_run, if_pos hb]
    simp only [bind_run, h1 hb, h2, h3, pure_run, inBounds, wordAt]
  · rw [ite_run, if_neg hb]
    simp only [bind_run, h2, h3, pure_run, inBounds, wordAt]

theorem pushStqs_run (k : Nat) (os : List StqOp) (s : State) :
    pushStqs k os s = .ok () (os.foldl (fun t o => t.pushSend (8192 + k / 16) (.stq o)) s) := by
  induction os generalizing s with
  | nil => rfl
  | cons m t ih => simp only [pushStqs, bind_run, modify_run, ih]; rfl

theorem readSeg_reaches {u : State} {acc : Acc} {va : Dword} {n : Nat} {e : TlbEntry} (h : Reaches u acc .store va n e) (a : Nat) (f : Bool) :
    ∃ t, Moved u t ∧ readSegs acc a f [segOf e va n] u = .ok (u.peek (trOf e.pte e.size (va.toNat % 2 ^ 48)).pa n) t := by
  obtain ⟨-, -, -, -, -, -, -, -, -, hp, hf, hq⟩ := h
  have hg := gate_quiet u acc (trOf e.pte e.size (va.toNat % 2 ^ 48)).pa false hf hq
  refine ⟨u.tokenRead acc.cluster ((trOf e.pte e.size (va.toNat % 2 ^ 48)).pa / 256), moved_tokenRead .., ?_⟩
  simp only [segOf]
  generalize (trOf e.pte e.size (va.toNat % 2 ^ 48)).pa = pa at *
  simp only [bind_run, readSegs, readSeg, readMem, hg, get_run, Bool.false_eq_true, if_false]
  rw [ite_run, if_neg (by rw [hp]; simp)]
  simp [State.peek, tokenRead_mem]

theorem writeSeg_reaches {u : State} {acc : Acc} {va : Dword} {e : TlbEntry} (bs : List Byte) (h : Reaches u acc .store va bs.length e) (f : Bool) :
    ∃ t, Reaching u t ∧ t.mem = Memory.write u.mem (trOf e.pte e.size (va.toNat % 2 ^ 48)).pa bs ∧ writeSegs acc f [segOf e va bs.length] bs u = .ok () t := by
  obtain ⟨-, -, -, -, -, -, -, -, -, hp, hf, hq⟩ := h
  have hg := gate_quiet u acc (trOf e.pte e.size (va.toNat % 2 ^ 48)).pa true hf hq
  simp only [segOf]
  generalize (trOf e.pte e.size (va.toNat % 2 ^ 48)).pa = pa at *
  have h2 := (moved_dropResvs u acc.cluster acc.hart fun r => decide (r.line = pa / 256 ∨ r.granule = u.granuleOf (pa / 256))).trans
    (moved_tokenWrite (u.dropResvs acc.cluster acc.hart fun r => decide (r.line = pa / 256 ∨ r.granule = u.granuleOf (pa / 256))) acc.cluster (pa / 256))
  refine ⟨((u.dropResvs acc.cluster acc.hart fun r => decide (r.line = pa / 256 ∨ r.granule = u.granuleOf (pa / 256))).tokenWrite acc.cluster (pa / 256)).poke pa bs,
    (Reaching.of_moved h2).trans (.poke ..), ?_, ?_⟩
  · show Memory.write _ _ _ = _
    rw [h2.mem]
  · simp only [bind_run, pure_run, writeSegs, writeSeg, writeMem, hg, modify_run, List.take_length, Bool.false_eq_true, if_false]

theorem stnLanes_run {s : State} {c : LCtx} {e : Nat → TlbEntry} (ls : List Nat) :
    ∀ u, (∀ l ∈ ls, Reaches u (s.laneAcc c.k) .store (nibbleOf s c l).1.va 1 (e l)) →
    ∃ t, stnLanes c (s.laneAcc c.k) (s.wave c.k) (recordOf s c) ls u = .ok () t ∧ Reaching u t ∧
      t.mem = nibblesStored s c (fun l => (trOf (e l).pte (e l).size ((nibbleOf s c l).1.va.toNat % 2 ^ 48)).pa) ls u.mem := by
  induction ls with
  | nil => intro u _; exact ⟨u, rfl, .refl u, rfl⟩
  | cons l ls ih =>
    intro u h
    have hl := h l (by simp)
    have hres := resolve_reaches hl
    obtain ⟨v, hv, hrd⟩ := readSeg_reaches hl ((nibbleOf s c l).1.va.toNat % 2 ^ 48) true
    generalize hn : leBytes 1 (if (nibbleOf s c l).2 = 0 then natOfBytes (u.peek (trOf (e l).pte (e l).size ((nibbleOf s c l).1.va.toNat % 2 ^ 48)).pa 1) / 16 * 16 + ((s.wave c.k).reg c.w.vd.toNat l).toNat % 16
      else natOfBytes (u.peek (trOf (e l).pte (e l).size ((nibbleOf s c l).1.va.toNat % 2 ^ 48)).pa 1) % 16 + ((s.wave c.k).reg c.w.vd.toNat l).toNat % 16 * 16) = bs
    have hlen : bs.length = 1 := by rw [← hn, leBytes_length]
    have hlv : Reaches v (s.laneAcc c.k) .store (nibbleOf s c l).1.va 1 (e l) := (Reaching.of_moved hv).reaches (laneAcc_tlb s c.k) hl
    rw [← hlen] at hlv
    obtain ⟨x, hx, hxm, hwr⟩ := writeSeg_reaches bs hlv true
    rw [hlen] at hwr
    obtain ⟨t, ht, hut, htm⟩ := ih x fun j hj => (((Reaching.of_moved hv).trans hx)).reaches (laneAcc_tlb s c.k) (h j (by simp [hj]))
    refine ⟨t, ?_, ((Reaching.of_moved hv).trans hx).trans hut, ?_⟩
    · have hd : nibbleAddr c (s.wave c.k) (recordOf s c) l = ((nibbleOf s c l).1, (nibbleOf s c l).2) := rfl
      have hres' : resolve (s.laneAcc c.k) (nibbleOf s c l).1.va 1 .store u = .ok [segOf (e l) (nibbleOf s c l).1.va 1] u := hres
      simp only [stnLanes, hd, bind_run, hres', hrd, hn, hwr, ht]
    · rw [htm, hxm, hv.mem]
      simp only [nibblesStored, List.foldl_cons, ← hn]
      rfl

theorem notes_like (s : State) (c : LCtx) (inside : List Nat) (store : Bool) :
    (notes s c inside store).mem = s.mem ∧ (∀ n, (notes s c inside store).waveSem c.k n = s.waveSem c.k n) ∧
    ∀ K va n e, Reaches s (s.laneAcc c.k) K va n e → Reaches (notes s c inside store) (s.laneAcc c.k) K va n e := by
  simp only [notes]
  split
  · exact ⟨rfl, fun n => waveSem_setWave _ _ _ _ rfl, fun K va n e h => reaches_setWave h⟩
  · exact ⟨rfl, fun _ => rfl, fun _ _ _ _ h => h⟩

theorem p_stn (s : State) (c : LCtx) (h : Claim.LaneReady s c) (hi : c.i = .stn c.w) (e : Nat → TlbEntry)
    (hh : ∀ a ∈ (s.wave c.k).accesses, a.hold = false) (h1 : BufRec.reserved (Claim.recordOf s c) = false)
    (h2 : BufRec.esize (Claim.recordOf s c) = 0) (h3 : BufRec.swz (Claim.recordOf s c) = 0)
    (h4 : BufRec.bnd (Claim.recordOf s c) = 1 → ∀ l ∈ lanesOf c.act, (Claim.nibbleOf s c l).1.oob = false)
    (h5 : ∀ l ∈ Claim.nibblesIn s c, Claim.Reaches s (s.laneAcc c.k) .store (Claim.nibbleOf s c l).1.va 1 (e l))
    (h6 : (s.wave c.k).meetsPending ((Claim.nibblesIn s c).map fun l => Claim.segOf (e l) (Claim.nibbleOf s c l).1.va 1) = false)
    (hs : Claim.Signals s c) : ∃ u, exec c.i s = .next (Claim.laneDone u c {}) ∧
        u.mem = Claim.nibblesStored s c (fun l => (trOf (e l).pte (e l).size ((Claim.nibbleOf s c l).1.va.toNat % 2 ^ 48)).pa)
          (Claim.nibblesIn s c) s.mem := by
  have hnt := Machine.notes_like s c (Claim.nibblesIn s c) true
  obtain ⟨t, ht, hut, htm⟩ := Machine.stnLanes_run (s := s) (c := c) (e := e) (Claim.nibblesIn s c) (Claim.notes s c (Claim.nibblesIn s c) true)
    fun l hl => hnt.2.2 _ _ _ _ (h5 l hl)
  refine ⟨t, ?_, by rw [htm, hnt.1]⟩
  have hsig : Claim.Signals t c := fun ha => by
    rw [hut.waveSem, hnt.2.1]; exact hs ha
  refine Machine.laneReady_exec h (eff := stnM) (by rw [hi]; exact Machine.exec_stn s c.w) ?_
  have hr1 : BufRec.reserved ((s.wave c.k).record c.w.slot.toNat) = false := h1
  have hr2 : BufRec.esize ((s.wave c.k).record c.w.slot.toNat) = 0 := h2
  have hr3 : BufRec.swz ((s.wave c.k).record c.w.slot.toNat) = 0 := h3
  simp only [stnM, bind_run, Machine.heldBack_ok c s hh, get_run]
  rw [ite_run, if_neg (by rw [hr1]; simp), ite_run, if_neg (by rw [hr2]; simp), ite_run, if_neg (by rw [hr3]; simp)]
  have hlc (hb : BufRec.bnd ((s.wave c.k).record c.w.slot.toNat) = 1) : laneCheck (lanesOf c.act) (fun l => guardM (!(nibbleAddr c (s.wave c.k) ((s.wave c.k).record c.w.slot.toNat) l).1.oob)
      (excDev 6 0 (nibbleAddr c (s.wave c.k) ((s.wave c.k).record c.w.slot.toNat) l).1.va)) s = .ok () s := by
    refine Machine.laneCheck_ok _ _ _ fun l hl => ?_
    have := h4 hb l hl
    simp only [Claim.nibbleOf, Claim.recordOf] at this
    simp only [this]; rfl
  have hin : (lanesOf c.act).filter (fun l => !(nibbleAddr c (s.wave c.k) ((s.wave c.k).record c.w.slot.toNat) l).1.oob) = Claim.nibblesIn s c := rfl
  have hre : laneResolve c (Claim.nibblesIn s c) (fun l => (nibbleAddr c (s.wave c.k) ((s.wave c.k).record c.w.slot.toNat) l).1.va) 1 .store true true s = .ok () s :=
    Machine.laneResolve_ok true true h5
  have hga : laneGate c (s.laneAcc c.k) (Claim.nibblesIn s c) (fun l => (nibbleAddr c (s.wave c.k) ((s.wave c.k).record c.w.slot.toNat) l).1.va) 1 s = .ok () s :=
    Machine.laneGate_ok _ h5 h6
  have ht' : stnLanes c (s.laneAcc c.k) (s.wave c.k) ((s.wave c.k).record c.w.slot.toNat) (Claim.nibblesIn s c) (Claim.notes s c (Claim.nibblesIn s c) true) = .ok () t := ht
  by_cases hb : BufRec.bnd ((s.wave c.k).record c.w.slot.toNat) = 1
  · rw [ite_run, if_pos hb]
    simp only [bind_run, hlc hb, hin, hre, hga, Machine.noteOob_ok, ht', Machine.completed_ok c t hsig]
  · rw [ite_run, if_neg hb]
    simp only [bind_run, hin, hre, hga, Machine.noteOob_ok, ht', Machine.completed_ok c t hsig]

theorem p_tex (s t : State) (c : LCtx) (h : Claim.LaneReady s c) (hsig : Claim.Signals t c) (inside : Nat → Bool)
    (f : Machine.Acc → Nat → Nat → M (List Nat)) (rs : List (Nat × List Nat)) (u : Nat) (v : State)
    (hi : (c.i, inside, f) ∈ [(Instr.texSmp c.w, (fun _ => true), sampleLane c (Claim.recordOf s c) (s.wave c.k)),
        (.texFch c.w, fetchInside c (Claim.recordOf s c) (s.wave c.k), fun acc u l => texel c.k acc u (c.w.hint != 3) (Claim.recordOf s c) (texCoord c (s.wave c.k) l 3)
          (texCoord c (s.wave c.k) l 0) (texCoord c (s.wave c.k) l 1) (texCoord c (s.wave c.k) l 2))])
    (hok : TexRec.ok (Claim.recordOf s c) = true) (hh : ∀ a ∈ (s.wave c.k).accesses, a.hold = false)
    (hcol : laneCollect ((lanesOf c.act).filter inside) (f { s.laneAcc c.k with
          tlb := .unit (c.k / 128) (2 + u)
          decomp := true } u) (s.drawNat 2).2 = .ok rs v)
    (hu : u = (s.drawNat 2).1) (ht : t = (let x := Claim.notes v c ((lanesOf c.act).filter inside) false
        x.setWave c.k (texels c rs (x.wave c.k)))) : exec c.i s = .next (Claim.laneDone t c {}) := by
  have hfin := Machine.completed_ok c t hsig
  have key : ∀ (ins : BitVec 256 → Wave → Nat → Bool) (g : BitVec 256 → Wave → Acc → Nat → Nat → M (List Nat)),
      laneWrites c.i c.w = vdRegs c.i c.w → inside = ins (Claim.recordOf s c) (s.wave c.k) → f = g (Claim.recordOf s c) (s.wave c.k) →
      texM ins g c s = .ok () (Claim.laneDone t c {}) := by
    intro ins g hwr h1 h2
    have hok' : TexRec.ok ((s.wave c.k).record c.w.slot.toNat) = true := hok
    have hpk : peakCheck c (vdRegs c.i c.w) s = .ok () s := Machine.peakCheck_run s c _ fun ha => by rw [← hwr]; exact h.room ha
    have hcol' : laneCollect ((lanesOf c.act).filter (ins ((s.wave c.k).record c.w.slot.toNat) (s.wave c.k)))
        (g ((s.wave c.k).record c.w.slot.toNat) (s.wave c.k) { (s.drawNat 2).2.laneAcc c.k with
          tlb := .unit (c.k / 128) (2 + (s.drawNat 2).1)
          decomp := true } (s.drawNat 2).1) (s.drawNat 2).2 = .ok rs v := by
      rw [h1, h2, hu] at hcol
      exact hcol
    simp only [texM, bind_run, Machine.getWave_run]
    rw [ite_run, if_neg (by rw [hok']; simp)]
    simp only [bind_run, Machine.heldBack_ok c s hh, hpk, freeNatM, get_run, hcol', Machine.noteOob_ok, Machine.modWave_run]
    rw [h1] at ht
    have ht' : (Claim.notes v c ((lanesOf c.act).filter (ins ((s.wave c.k).record c.w.slot.toNat) (s.wave c.k))) false).setWave c.k
        (texels c rs ((Claim.notes v c ((lanesOf c.act).filter (ins ((s.wave c.k).record c.w.slot.toNat) (s.wave c.k))) false).wave c.k)) = t := ht.symm
    rw [ht']
    exact hfin
  simp only [List.mem_cons, Prod.mk.injEq, List.not_mem_nil, or_false] at hi
  rcases hi with ⟨hi, h1, h2⟩ | ⟨hi, h1, h2⟩
  · refine Machine.laneReady_exec h (eff := fun c => texM (fun _ _ _ => true) (sampleLane c) c) (by rw [hi]; exact Machine.exec_texSmp s c.w) (key (fun _ _ _ => true) (sampleLane c) (by rw [hi]; rfl) h1 h2)
  · refine Machine.laneReady_exec h (eff := fun c => texM (fetchInside c) (fun r w acc u l => texel c.k acc u (c.w.hint != 3) r (texCoord c w l 3) (texCoord c w l 0) (texCoord c w l 1) (texCoord c w l 2)) c) (by rw [hi]; exact Machine.exec_texFch s c.w) (key (fetchInside c) (fun r w acc u l => texel c.k acc u (c.w.hint != 3) r (texCoord c w l 3) (texCoord c w l 0) (texCoord c w l 1) (texCoord c w l 2)) (by rw [hi]; rfl) h1 h2)

end Sys2Proof.Machine
end

