-- ==== Sys2Proof/Laws/LaneMatrix.lean ====
section
/-! SUPPORT. Matrix and function instructions of lanes (R191, R328 to R348). -/

namespace Sys2Proof.Machine

open Sys2Proof.Claim

set_option Elab.async false

theorem completedBy_ok (c : LCtx) (on : Await) (t : State) (h : Signals t c) : completedBy c on t = .ok () (laneDone t c on) :=
  completedBy_run c on t h

theorem signals_wave {s : State} {c : LCtx} (h : Signals s c) (w : Wave) (hw : w.hart.crew = (s.wave c.k).hart.crew) : Signals (s.setWave c.k w) c :=
  fun ha => by rw [waveSem_setWave _ _ _ _ hw]; exact h ha

theorem writeAcc_run (cl key : Nat) (v : Word) (s : State) (h : s.runningOut cl key = none) :
    ∃ t, writeAcc cl key v s = .ok () t ∧ Reaching s t ∧ t.mem = Memory.write s.mem key (leBytes 4 v.toNat) ∧ t.clusters = s.clusters := by
  have hm := moved_dropResvs s cl none fun r => decide (r.line = key / 256)
  refine ⟨(s.dropResvs cl none fun r => decide (r.line = key / 256)).poke key (leBytes 4 v.toNat), ?_, (Reaching.of_moved hm).trans (.poke ..), ?_, ?_⟩
  · simp only [writeAcc, bind_run, get_run, h, pure_run, modify_run]
  · show Memory.write _ _ _ = _
    rw [hm.mem]
  · show (s.dropResvs cl none fun r => decide (r.line = key / 256)).clusters = _
    rw [hm.rest]

theorem writeEach_run (cl : Nat) (ks : List (Nat × Word)) : ∀ s : State, (∀ e ∈ ks, s.runningOut cl e.1 = none) →
    ∃ t, writeEach cl ks s = .ok () t ∧ Reaching s t ∧ t.mem = accsWritten ks s.mem ∧ t.clusters = s.clusters := by
  induction ks with
  | nil => intro s _; exact ⟨s, rfl, .refl s, rfl, rfl⟩
  | cons e ks ih =>
    intro s h
    obtain ⟨u, hu, hru, hum, huc⟩ := writeAcc_run cl e.1 e.2 s (h e (by simp))
    obtain ⟨t, ht, hrt, htm, htc⟩ := ih u fun x hx => by
      have := h x (by simp [hx])
      simpa only [State.runningOut, State.cluster, huc] using this
    refine ⟨t, ?_, hru.trans hrt, ?_, htc.trans huc⟩
    · obtain ⟨k, v⟩ := e
      simp only [writeEach, bind_run, hu, ht]
    · rw [htm, hum]; rfl

theorem writeAccs_run (cl : Nat) (ks : List (Nat × Word)) (s : State) (h : ∀ e ∈ ks, s.runningOut cl e.1 = none) :
    ∃ t, writeAccs cl ks s = .ok () t ∧ t.mem = accsWritten ks s.mem ∧ ∀ k n, t.waveSem k n = s.waveSem k n := by
  obtain ⟨t, ht, hr, hm, -⟩ := writeEach_run cl ks s h
  refine ⟨{ t with poison := t.poison.filter fun w => !((ks.any fun e => e.1 == 8 * w) && ks.any fun e => e.1 == 8 * w + 4) }, ?_, hm, fun k n => ?_⟩
  · simp only [writeAccs, bind_run, ht, modify_run]
  · exact hr.waveSem k n

theorem rowCheck_run (c : LCtx) (row : Nat) (s : State) (h : row < s.waveRows c.k) : rowCheck c row s = .ok () s := by
  simp only [rowCheck, bind_run, get_run]
  rw [ite_run, if_neg (by omega)]; rfl

theorem p_rows (s : State) (c : LCtx) (h : Claim.LaneReady s c) (hs : Claim.Signals s c) (ks : List (Nat × Word))
    (hi : (c.i, ks) ∈ [(Instr.kwr c.w, Claim.rowWrite s c), (.accZero c.w, Claim.rowZero s c)])
    (hr : rowOf c c.w.vd + (if c.i = .accZero c.w then c.w.vc.toNat + 1 else 1) ≤ s.waveRows c.k) (hf : Claim.AccsFree s c ks) :
      ∃ t, exec c.i s = .next (Claim.laneDone t c {}) ∧ t.mem = Claim.accsWritten ks s.mem := by
  obtain ⟨t, ht, hm, hw⟩ := Machine.writeAccs_run (c.k / 128) ks s hf
  have hsig : Claim.Signals t c := fun ha => by rw [hw]; exact hs ha
  simp only [List.mem_cons, Prod.mk.injEq, List.not_mem_nil, or_false] at hi
  rcases hi with ⟨hi, rfl⟩ | ⟨hi, rfl⟩
  · refine ⟨t, Machine.laneReady_exec h (by rw [hi]; exact Machine.exec_kwr s c.w) ?_, hm⟩
    rw [if_neg (by rw [hi]; simp)] at hr
    have ht' : writeAccs (c.k / 128) ((lanesOf c.act).map fun l => (s.rowKey c.k (rowOf c c.w.vd) l, (s.wave c.k).reg c.w.va.toNat l)) s = .ok () t := ht
    simp only [bind_run, Machine.rowCheck_run c (rowOf c c.w.vd) s hr, get_run, ht', Machine.completed_ok c t hsig]
  · rw [if_pos hi] at hr
    by_cases h0 : c.act = 0
    · refine ⟨s, Machine.laneReady_exec h (by rw [hi]; exact Machine.exec_accZero s c.w) ?_, by simp [Claim.rowZero, h0, Claim.accsWritten]⟩
      simp only [bind_run, get_run]
      rw [ite_run, if_neg (by omega)]
      simp only [bind_run, get_run]
      rw [ite_run, if_neg (by simp [h0])]
      exact Machine.completed_ok c s hs
    · refine ⟨t, Machine.laneReady_exec h (by rw [hi]; exact Machine.exec_accZero s c.w) ?_, hm⟩
      have ht' : writeAccs (c.k / 128) ((List.range (c.w.vc.toNat + 1)).flatMap fun i => (List.range 64).map fun l => (s.rowKey c.k (rowOf c c.w.vd + i) l, 0)) s = .ok () t := by
        have := ht; rw [Claim.rowZero, if_neg h0] at this; exact this
      simp only [bind_run, get_run]
      rw [ite_run, if_neg (by omega)]
      simp only [bind_run, get_run]
      rw [ite_run, if_pos h0]
      simp only [bind_run, ht', Machine.completed_ok c t hsig]

theorem p_sfx (s : State) (c : LCtx) (h : Claim.LaneReady s c) (hs : Claim.Signals s c) (fn : BitVec 8) (hi : c.i = .sfx fn c.w) :
    (c.act = 0 → exec c.i s = .next (Claim.laneDone s c {})) ∧
      (c.act ≠ 0 → (s.wave c.k).sfx.find c.w.vc.toNat = none → s.sfxCount c.k < 16 → Claim.Room s c [c.w.vd.toNat] →
        exec c.i s = .next (Claim.laneDone (s.setWave c.k { ((s.wave c.k).writeReg c.w.vd.toNat c.act fun l => (s.wave c.k).reg c.w.vd.toNat l) with
          sfx := (s.wave c.k).sfx.put c.w.vc.toNat { fn := fn, ty := c.w.ty, vd := c.w.vd.toNat, mask := c.act, src := (s.wave c.k).row c.w.va.toNat } })
          c { token := some c.w.vc.toNat })) := by
  constructor
  · intro h0
    refine Machine.laneReady_exec h (by rw [hi]; exact Machine.exec_sfx s fn c.w) ?_
    rw [ite_run, if_pos h0]
    exact Machine.completed_ok c s hs
  · intro h0 hn hc hrm
    refine Machine.laneReady_exec h (by rw [hi]; exact Machine.exec_sfx s fn c.w) ?_
    rw [ite_run, if_neg h0]
    simp only [bind_run, get_run]
    rw [ite_run, if_neg (by rw [hn]; simp; omega)]
    simp only [bind_run, Machine.peakCheck_run s c [c.w.vd.toNat] hrm, Machine.modWave_run, completed]
    refine Machine.completedBy_ok c _ _ (Machine.signals_wave hs _ ?_)
    show ((s.wave c.k).writeReg c.w.vd.toNat c.act fun l => (s.wave c.k).reg c.w.vd.toNat l).hart.crew = _
    rw [Machine.writeReg_hart]

theorem p_krd (s : State) (c : LCtx) (h : Claim.LaneReady s c) (hs : Claim.Signals s c) (hi : c.i = .krd c.w) :
      let key (l : Nat) : Nat := s.rowKey c.k (rowOf c c.w.va) l
      rowOf c c.w.va < s.waveRows c.k → Claim.Room s c [c.w.vd.toNat] →
      (∀ l ∈ lanesOf c.act, s.runningOut (c.k / 128) (key l) = none ∧ s.poisoned (key l) 4 = false) →
      exec c.i s = .next (Claim.laneDone (s.setWave c.k ((s.wave c.k).writeReg c.w.vd.toNat c.act fun l => if Mask.has c.act l then
        BitVec.ofNat 32 (natOfBytes (s.peek (key l) 4)) else 0)) c {}) := by
  intro key hr hrm hl
  refine Machine.laneReady_exec h (by rw [hi]; exact Machine.exec_krd s c.w) ?_
  simp only [bind_run, Machine.rowCheck_run c (rowOf c c.w.va) s hr, Machine.peakCheck_run s c [c.w.vd.toNat] hrm, get_run]
  have hbad : (lanesOf c.act).filter (fun l => s.poisoned (s.rowKey c.k (rowOf c c.w.va) l) 4) = [] := by
    rw [List.filter_eq_nil_iff]; intro l hx
    rw [show s.poisoned (s.rowKey c.k (rowOf c c.w.va) l) 4 = false from (hl l hx).2]; simp
  rw [ite_run, if_neg (by rw [hbad]; simp)]
  simp only [bind_run]
  rw [Machine.forLanes_ok (lanesOf c.act) _ (fun l => (l, BitVec.ofNat 32 (natOfBytes (s.peek (key l) 4)))) s]
  rotate_left
  · intro l hx
    simp only [bind_run, readAcc, get_run, show s.runningOut (c.k / 128) (s.rowKey c.k (rowOf c c.w.va) l) = none from (hl l hx).1, pure_run]
    rfl
  simp only [Machine.modWave_run]
  have hw : ((s.wave c.k).writeReg c.w.vd.toNat c.act fun l => ((((lanesOf c.act).map fun l => (l, BitVec.ofNat 32 (natOfBytes (s.peek (key l) 4)))).find?
      fun v => v.1 == l).map (·.2)).getD 0) = (s.wave c.k).writeReg c.w.vd.toNat c.act fun l => if Mask.has c.act l then
        BitVec.ofNat 32 (natOfBytes (s.peek (key l) 4)) else 0 := by
    refine Machine.writeReg_congr _ _ _ _ _ fun l hlt hm => ?_
    have hmem : (l, BitVec.ofNat 32 (natOfBytes (s.peek (key l) 4))) ∈ (lanesOf c.act).map fun l => (l, BitVec.ofNat 32 (natOfBytes (s.peek (key l) 4))) := by
      refine List.mem_map.2 ⟨l, ?_, rfl⟩
      simp only [lanesOf, List.mem_filter, List.mem_range]
      exact ⟨hlt, hm⟩
    rw [Machine.find_key _ l _ (by
      rw [List.map_map]
      have : ((fun x : Nat × Word => x.1) ∘ fun l => (l, BitVec.ofNat 32 (natOfBytes (s.peek (key l) 4)))) = id := rfl
      rw [this, List.map_id]
      exact (List.nodup_range).filter _) hmem]
    simp [hm]
  rw [hw]
  exact Machine.completed_ok c _ (Machine.signals_wave hs _ (by simp only [Machine.writeReg_hart]))

theorem crewOf_modMatrix (s : State) (k : Nat) (f : Matrix → Matrix) (r : CrewRef) : (s.modMatrix k f).crewOf r = s.crewOf r :=
  crewOf_setCluster s k { s.cluster k with matrix := f (s.cluster k).matrix } rfl r

theorem waveSem_modMatrix (s : State) (j : Nat) (f : Matrix → Matrix) (k n : Nat) : (s.modMatrix j f).waveSem k n = s.waveSem k n := by
  simp only [State.waveSem, crewOf_modMatrix]
  rfl

theorem waveSem_matrix (s : State) (r : CrewRef) (i : Nat) (x : Ring) (k n : Nat) : (s.setRing r i x).waveSem k n = s.waveSem k n :=
  waveSem_modMatrix ..

theorem p_ring (s : State) (c : LCtx) (h : Claim.LaneReady s c) (hs : Claim.Signals s c) (r : CrewRef) (crew : Crew) (m : MatCrew)
    (hm : s.waveMat c.k = some (r, crew, m)) :
      (c.i = .ringAdv c.w →
        let x := m.ring c.w.vc.toNat
        x.v = true → x.used ≠ x.stages → (c.act = 0 → exec c.i s = .next (Claim.laneDone s c {})) ∧
        (c.act ≠ 0 → Claim.WaveQuiet s c.k →
          exec c.i s = .next (Claim.laneDone (s.setRing r c.w.vc.toNat { x with filled := (x.filled + 1) % 65536 }) c {}))) ∧
      (c.i = .ringWait c.w →
        let x := m.ring (c.w.vc.toNat % 4)
        let n := c.w.vc.toNat / 4
        x.v = true → n ≤ x.stages → Claim.Room s c [c.w.vd.toNat] →
        (x.stages - x.used < n → exec c.i s = .next s) ∧
        (n ≤ x.stages - x.used → exec c.i s = .next (Claim.laneDone (s.setWave c.k ((s.wave c.k).writeReg c.w.vd.toNat c.act fun _ =>
          BitVec.ofNat 32 (x.filled % x.stages))) c {}))) := by
  constructor
  · intro hi x hv hu
    have hc : (!(m.ring c.w.vc.toNat).v || (m.ring c.w.vc.toNat).used == (m.ring c.w.vc.toNat).stages) = false := by
      rw [show (m.ring c.w.vc.toNat).v = true from hv]
      simpa using hu
    constructor
    · intro h0
      refine Machine.laneReady_exec h (by rw [hi]; exact Machine.exec_ringAdv s c.w) ?_
      simp only [bind_run, get_run, hm]
      rw [ite_run, if_neg (by rw [hc]; simp)]
      rw [ite_run, if_neg (by simp [h0])]
      exact Machine.completed_ok c s hs
    · intro h0 hq
      refine Machine.laneReady_exec h (by rw [hi]; exact Machine.exec_ringAdv s c.w) ?_
      simp only [bind_run, get_run, hm]
      rw [ite_run, if_neg (by rw [hc]; simp)]
      rw [ite_run, if_pos h0]
      simp only [bind_run, Machine.drainM_ok s c.k hq.accesses, modify_run, Machine.releaseWave s c.k 1 hq.updates]
      exact Machine.completed_ok c _ fun ha => by rw [Machine.waveSem_matrix]; exact hs ha
  · intro hi x n hv hn hr
    have hc : (!(m.ring (c.w.vc.toNat % 4)).v || decide ((m.ring (c.w.vc.toNat % 4)).stages < c.w.vc.toNat / 4)) = false := by
      rw [show (m.ring (c.w.vc.toNat % 4)).v = true from hv]
      have : ¬ (m.ring (c.w.vc.toNat % 4)).stages < c.w.vc.toNat / 4 := Nat.not_lt.2 hn
      simp [this]
    constructor
    · intro hw
      refine Machine.laneReady_stall h (uni := fun _ => pure ()) (by rw [hi]; exact Machine.exec_ringWait s c.w) rfl ?_
      simp only [bind_run, get_run, hm]
      rw [ite_run, if_neg (by rw [hc]; simp)]
      simp only [bind_run, Machine.peakCheck_run s c [c.w.vd.toNat] hr]
      rw [ite_run, if_pos hw]
      rfl
    · intro hw
      refine Machine.laneReady_exec h (by rw [hi]; exact Machine.exec_ringWait s c.w) ?_
      simp only [bind_run, get_run, hm]
      rw [ite_run, if_neg (by rw [hc]; simp)]
      simp only [bind_run, Machine.peakCheck_run s c [c.w.vd.toNat] hr]
      rw [ite_run, if_neg (Nat.not_lt.2 hw)]
      simp only [bind_run, Machine.modWave_run]
      exact Machine.completed_ok c _ (Machine.signals_wave hs _ (by simp only [Machine.writeReg_hart]))

theorem p_mld (s : State) (c : LCtx) (h : Claim.LaneReady s c) (hs : Claim.Signals s c) (r : CrewRef) (crew : Crew) (m : MatCrew)
    (hm : s.waveMat c.k = some (r, crew, m)) (hg : m.gang.getLsbD 63 = true) (hf : (s.wave c.k).front = true)
    (hr : (Gang.ranks m.gang).contains (s.wave c.k).rank = true) (hi : c.i = .mld c.w) :
          let form := mldForm c.w.ty
          let mac := c.w.vc.toNat % 32
          mac < Gang.mcnt m.gang → (form = 2 → mac % 2 = 0 ∧ mac + 1 < Gang.mcnt m.gang) → ((s.wave c.k).uni c.w.vb.toNat).toNat % 256 = 0 →
          (c.act = 0 → exec c.i s = .next (Claim.laneDone s c {})) ∧
          (∀ e, c.act ≠ 0 → Claim.WaveQuiet s c.k → (s.cluster r.cluster).matrix.freeEntry crew.cls = some e →
            let macs := if form = 2 then [Gang.mbase m.gang + mac, Gang.mbase m.gang + mac + 1] else [Gang.mbase m.gang + mac]
            let t := s.queueCmd r.cluster e r crew.cls macs (.mld form ((s.wave c.k).uni c.w.vb.toNat) (c.w.vc.getLsbD 5) (s.wave c.k).hart.dptb)
            Claim.Signals t c → exec c.i s = .next (Claim.laneDone t c { cmd := some (s.cluster r.cluster).matrix.next })) := by
  intro form mac h1 h2 h3
  have hx : exec c.i s = laneInstr c.i c.w mldReady mldM s := by rw [hi]; exact Machine.exec_mld s c.w
  have c1 : (!m.gang.getLsbD 63 || !(s.wave c.k).front || !(Gang.ranks m.gang).contains (s.wave c.k).rank) = false := by
    rw [hg, hf, hr]; rfl
  have c2 : (decide (Gang.mcnt m.gang ≤ c.w.vc.toNat % 32) || (mldForm c.w.ty == 2 && (c.w.vc.toNat % 32 % 2 == 1 || decide (Gang.mcnt m.gang ≤ c.w.vc.toNat % 32 + 1)))) = false := by
    have a1 : decide (Gang.mcnt m.gang ≤ c.w.vc.toNat % 32) = false := by simpa using h1
    rw [a1, Bool.false_or]
    by_cases hf2 : mldForm c.w.ty = 2
    · obtain ⟨b1, b2⟩ := h2 hf2
      have b1' : (c.w.vc.toNat % 32 % 2 == 1) = false := by
        have : c.w.vc.toNat % 32 % 2 = 0 := b1
        simp [this]
      have b2' : decide (Gang.mcnt m.gang ≤ c.w.vc.toNat % 32 + 1) = false := by simpa using b2
      rw [b1', b2']; simp
    · have : (mldForm c.w.ty == 2) = false := by simpa using hf2
      rw [this]; rfl
  constructor
  · intro h0
    refine Machine.laneReady_uni h hx ?_ ?_
    · simp only [mldReady, bind_run, get_run, hm]
      rw [ite_run, if_neg (by simp [h0])]; rfl
    · simp only [mldM, bind_run, get_run, hm]
      rw [ite_run, if_neg (by rw [c1]; simp), ite_run, if_neg (by rw [c2]; simp), ite_run, if_neg (by rw [h3]; simp), ite_run, if_pos h0]
      exact Machine.completed_ok c s hs
  · intro e h0 hq he macs t hsig
    refine Machine.laneReady_uni h hx ?_ ?_
    · simp only [mldReady, bind_run, get_run, hm]
      rw [ite_run, if_neg (by rw [he]; simp)]; rfl
    · simp only [mldM, bind_run, get_run, hm]
      rw [ite_run, if_neg (by rw [c1]; simp), ite_run, if_neg (by rw [c2]; simp), ite_run, if_neg (by rw [h3]; simp), ite_run, if_neg h0]
      simp only [bind_run, Machine.drainM_ok s c.k hq.accesses, he, modify_run, Machine.releaseWave s c.k 1 hq.updates]
      exact Machine.completedBy_ok c _ t hsig

theorem p_mma (s : State) (c : LCtx) (h : Claim.LaneReady s c) (r : CrewRef) (crew : Crew) (m : MatCrew)
    (hm : s.waveMat c.k = some (r, crew, m)) (hi : c.i = .mmaG c.w) :
    (m.gang.getLsbD 63 = true → (s.wave c.k).front = true → (Gang.ranks m.gang).contains (s.wave c.k).rank = true →
        m.verdictOf c.k (lowLane c.g.mask) c.g.pc = none →
          (m.arrivalOf c.k (lowLane c.g.mask) c.g.pc = false → exec c.i s = .next (s.setMatCrew r.cluster r.slot
            { m with arrivals := m.arrivals ++ [Claim.arrivalAt s c] })) ∧
          (m.arrivalOf c.k (lowLane c.g.mask) c.g.pc = true → exec c.i s = .next s)) ∧
    (∀ v, m.verdictOf c.k (lowLane c.g.mask) c.g.pc = some v → v.refused = none →
        let t := s.setMatCrew r.cluster r.slot { s.matCrew r.cluster r.slot with
          verdicts := (s.matCrew r.cluster r.slot).verdicts.filter (· != v) }
        Claim.Signals t c → exec c.i s = .next (Claim.laneDone t c { cmd := v.cmd })) := by
  have hx : exec c.i s = laneInstr c.i c.w (fun _ => pure ()) mmaM s := by rw [hi]; exact Machine.exec_mmaG s c.w
  constructor
  · intro hg hf hr hn
    have c1 : (!m.gang.getLsbD 63 || !(s.wave c.k).front || !(Gang.ranks m.gang).contains (s.wave c.k).rank) = false := by
      rw [hg, hf, hr]; rfl
    constructor
    · intro ha
      refine Machine.laneReady_stall h hx rfl ?_
      simp only [mmaM, bind_run, get_run, hm, hn]
      rw [ite_run, if_neg (by rw [ha]; simp), ite_run, if_neg (by rw [c1]; simp)]
      rfl
    · intro ha
      refine Machine.laneReady_stall h hx rfl ?_
      simp only [mmaM, bind_run, get_run, hm, hn]
      rw [ite_run, if_pos ha]
      rfl
  · intro v hv hvr t hsig
    refine Machine.laneReady_exec h hx ?_
    simp only [mmaM, bind_run, get_run, hm, hv, hvr, modify_run]
    exact Machine.completedBy_ok c _ t hsig

theorem p_wait (s : State) (c : LCtx) (h : Claim.LaneReady s c) (hs : Claim.Signals s c) (hi : c.i = .sfxWait c.w) :
      let named := (s.wave c.k).sfx.any fun e => (c.w.va.toNat + 256 * c.w.vb.toNat).testBit e.1
      (named = false → exec c.i s = .next (Claim.laneDone s c {})) ∧ (named = true → exec c.i s = .next s) := by
  intro named
  have hn : ((s.wave c.k).sfx.any fun e => (c.w.va.toNat + 256 * c.w.vb.toNat).testBit e.1) = named := rfl
  constructor
  · intro h0
    refine Machine.laneReady_exec h (by rw [hi]; exact Machine.exec_sfxWait s c.w) ?_
    simp only [bind_run, Machine.getWave_run, hn]
    rw [ite_run, if_neg (by rw [h0]; simp)]
    exact Machine.completed_ok c s hs
  · intro h0
    refine Machine.laneReady_stall h (uni := fun _ => pure ()) (by rw [hi]; exact Machine.exec_sfxWait s c.w) rfl ?_
    simp only [bind_run, Machine.getWave_run, hn]
    rw [ite_run, if_pos h0]
    rfl

end Sys2Proof.Machine
end

