-- ==== Sys2Proof/Laws/LaneBloom.lean ====
section
/-! SUPPORT. Bloom and graphics instructions of lanes (R370 to R380). -/

namespace Sys2Proof.Machine

open Sys2Proof.Claim

set_option Elab.async false

theorem sendEvents_run (k : Nat) (es : List Dword) (s : State) :
    sendEvents k es s = .ok () (es.foldl (fun t e => t.sendEvent (UnitId.wave k).code (k / 128) e) s) := by
  induction es generalizing s with
  | nil => rfl
  | cons m t ih => simp only [sendEvents, bind_run, modify_run, ih]; rfl

theorem ownBank_run (s : State) (c : LCtx) (x : BloomBank) (h : s.bank (c.k / 128) (c.w.vc.toNat % 16) = some x)
    (hc : some x.crew = (s.wave c.k).hart.crew) : ownBank c s = .ok x s := by
  simp only [ownBank, bind_run, get_run, h]
  rw [ite_run, if_pos hc]; rfl

theorem filterMap_some {α β : Type} (ls : List α) (f : α → Option β) (g : α → β) (h : ∀ l ∈ ls, f l = some (g l)) : ls.filterMap f = ls.map g := by
  induction ls with
  | nil => rfl
  | cons a t ih => rw [List.filterMap_cons, h a (by simp), ih fun l hl => h l (by simp [hl])]; rfl

theorem laneUndo_run (c : LCtx) (m : M Unit) (s t : State) (h : m s = .ok () t) : laneUndo c m s = .ok () t := by
  simp only [laneUndo, h]

theorem lanesOf_nodup (m : Mask) : (lanesOf m).Nodup := List.nodup_range.filter _

theorem p_bloom (s t : State) (c : LCtx) (h : Claim.LaneReady s c) (hs : Claim.Signals t c) :
    (c.i = .blmEmit c.w → (c.act ≠ 0 → Claim.WaveQuiet s c.k) →
      t = ((lanesOf c.act).map fun l => (s.wave c.k).pair c.w.va.toNat l).foldl (fun t e => t.sendEvent (UnitId.wave c.k).code (c.k / 128) e) s →
      exec c.i s = .next (Claim.laneDone t c { events := some (s.nextEvent, t.nextEvent) })) ∧
    (∀ x, s.bank (c.k / 128) (c.w.vc.toNat % 16) = some x → some x.crew = (s.wave c.k).hart.crew →
      (c.i = .blmRead c.w → Claim.Room s c [c.w.vd.toNat] →
        t = s.setWave c.k ((s.wave c.k).writeReg c.w.vd.toNat c.act fun _ => bankWord (c.w.vc.toNat / 16) x) → exec c.i s = .next (Claim.laneDone t c {})) ∧
      (∀ f, (c.i, f) ∈ [(Instr.blmAdvance c.w, do
            modBank (c.k / 128) (c.w.vc.toNat % 16) fun x => { x with h := if 0 < sd (((s.wave c.k).uni c.w.vb.toNat).setWidth 16) x.h then ((s.wave c.k).uni c.w.vb.toNat).setWidth 16 else x.h }
            drainBank (c.k / 128) (c.w.vc.toNat % 16) false 1025),
          (.blmFlush c.w, do
            drainBank (c.k / 128) (c.w.vc.toNat % 16) true 1025
            modBank (c.k / 128) (c.w.vc.toNat % 16) fun x => { x with td := x.h }),
          (.blmClear c.w, modBank (c.k / 128) (c.w.vc.toNat % 16) fun x => { x with
            late := 0
            fires := 0
            drop := 0 })] →
        (if c.act = 0 then pure () else f : M Unit) s = .ok () t → exec c.i s = .next (Claim.laneDone t c {}))) := by
  constructor
  · intro hi hq ht
    refine Machine.laneReady_exec h (by rw [hi]; exact Machine.exec_blmEmit s c.w) ?_
    by_cases h0 : c.act ≠ 0
    · rw [ite_run, if_pos h0]
      simp only [bind_run, Machine.drainM_ok s c.k (hq h0).accesses, modify_run, Machine.releaseWave s c.k 3 (hq h0).updates, get_run, Machine.sendEvents_run]
      rw [← ht]
      exact Machine.completedBy_ok c _ t hs
    · rw [ite_run, if_neg h0]
      simp only [bind_run, get_run, Machine.sendEvents_run]
      rw [← ht]
      exact Machine.completedBy_ok c _ t hs
  · intro x hb hc
    have ho := Machine.ownBank_run s c x hb hc
    constructor
    · intro hi hr ht
      refine Machine.laneReady_exec h (by rw [hi]; exact Machine.exec_blmRead s c.w) ?_
      simp only [bind_run, ho, Machine.peakCheck_run s c [c.w.vd.toNat] hr, Machine.modWave_run]
      rw [← ht]
      exact Machine.completed_ok c t hs
    · intro f hi hf
      have key : ∀ g : Nat → Nat → BloomBank → Half → M Unit, f = g (c.k / 128) (c.w.vc.toNat % 16) x (((s.wave c.k).uni c.w.vb.toNat).setWidth 16) →
          Machine.blmWrite g c s = .ok () (Claim.laneDone t c {}) := by
        intro g hg
        simp only [Machine.blmWrite, bind_run, ho]
        by_cases h0 : c.act ≠ 0
        · rw [ite_run, if_neg h0] at hf
          rw [ite_run, if_pos h0]
          simp only [bind_run, Machine.getWave_run, orStall, ← hg, hf]
          exact Machine.completed_ok c t hs
        · rw [ite_run, if_pos (by simpa using h0)] at hf
          rw [ite_run, if_neg h0]
          injection hf with _ e
          rw [e]
          exact Machine.completed_ok c t hs
      simp only [List.mem_cons, Prod.mk.injEq, List.not_mem_nil, or_false] at hi
      rcases hi with ⟨hi, h1⟩ | ⟨hi, h1⟩ | ⟨hi, h1⟩
      · exact Machine.laneReady_exec h (by rw [hi]; exact Machine.exec_blmAdvance s c.w) (key _ h1)
      · exact Machine.laneReady_exec h (by rw [hi]; exact Machine.exec_blmFlush s c.w) (key _ h1)
      · exact Machine.laneReady_exec h (by rw [hi]; exact Machine.exec_blmClear s c.w) (key _ h1)

theorem p_nodes (s t : State) (c : LCtx) (h : Claim.LaneReady s c) (hs : Claim.Signals t c) (node : Nat) (d : NodeD) (hn : laneNode c s = .ok (node, d) s) :
      (c.i = .resv c.w → Claim.Room s c (vdRegs c.i c.w) → reserveLanes c (s.laneAcc c.k) node d (lanesOf c.act) s = .ok () t → exec c.i s = .next (Claim.laneDone t c {})) ∧
      (∀ rec : Nat → Nat × GfxRec, (∀ l ∈ lanesOf c.act, laneRec s c node d l = some (rec l)) → (((lanesOf c.act).map fun l => (rec l).1).eraseDups.length = (lanesOf c.act).length) →
        (c.i = .commit c.w → (∀ l ∈ lanesOf c.act, (rec l).2.st = .reserved) → (c.act ≠ 0 → Claim.WaveQuiet s c.k) →
          commitLanes (s.laneAcc c.k) d node ((lanesOf c.act).map fun l => (rec l).1) s = .ok () t → exec c.i s = .next (Claim.laneDone t c {})) ∧
        (c.i = .cancel c.w → (∀ l ∈ lanesOf c.act, (rec l).2.st = .reserved ∨ ((rec l).2.st = .delivered ∧
            deliveredHere (s.wave c.k) l { node := node, slot := (rec l).1, id := (rec l).2.id } = true)) →
          cancelLanes node ((lanesOf c.act).map rec) s = .ok () t → exec c.i s = .next (Claim.laneDone t c {}))) := by
  constructor
  · intro hi hr hrun
    refine Machine.laneReady_exec h (by rw [hi]; exact Machine.exec_resv s c.w) ?_
    simp only [bind_run, hn, Machine.peakCheck_run s c _ hr, get_run, Machine.laneUndo_run c _ s t hrun]
    exact Machine.completed_ok c t hs
  · intro rec hrec hd
    have hfm := Machine.filterMap_some (lanesOf c.act) (laneRec s c node d) rec hrec
    have hmm : ((lanesOf c.act).map rec).map (·.1) = (lanesOf c.act).map fun l => (rec l).1 := by rw [List.map_map]; rfl
    have hlen : ((((lanesOf c.act).map rec).map (·.1)).eraseDups.length == ((lanesOf c.act).map rec).length) = true := by
      rw [hmm, List.length_map, hd]; simp
    constructor
    · intro hi hst hq hrun
      refine Machine.laneReady_exec h (by rw [hi]; exact Machine.exec_commit s c.w) ?_
      have hlen' : ((((lanesOf c.act).map rec).map (·.1)).eraseDups.length == (((lanesOf c.act).map rec).map (·.1)).length) = true := by
        rw [hmm, List.length_map, hd]; simp
      simp only [bind_run, hn, get_run]
      rw [Machine.laneCheck_ok]
      rotate_left
      · intro l hl
        simp only [hrec l hl, hst l hl]; rfl
      simp only [hfm, hlen', guardM_true]
      by_cases h0 : c.act ≠ 0
      · rw [ite_run, if_pos h0]
        simp only [bind_run, Machine.drainM_ok s c.k (hq h0).accesses, modify_run, Machine.releaseWave s c.k 3 (hq h0).updates, hmm, Machine.laneUndo_run c _ s t hrun]
        exact Machine.completed_ok c t hs
      · rw [ite_run, if_neg h0]
        simp only [bind_run, hmm, Machine.laneUndo_run c _ s t hrun]
        exact Machine.completed_ok c t hs
    · intro hi hst hrun
      refine Machine.laneReady_exec h (by rw [hi]; exact Machine.exec_cancel s c.w) ?_
      simp only [bind_run, hn, get_run]
      rw [Machine.laneCheck_ok]
      rotate_left
      · intro l hl
        simp only [hrec l hl]
        have : ((rec l).2.st == .reserved || ((rec l).2.st == .delivered && deliveredHere (s.wave c.k) l { node := node, slot := (rec l).1, id := (rec l).2.id })) = true := by
          rcases hst l hl with hx | ⟨hx, hy⟩
          · rw [hx]; rfl
          · rw [hx, hy]; rfl
        rw [this]; rfl
      simp only [hfm, hlen, guardM_true, Machine.laneUndo_run c _ s t hrun]
      exact Machine.completed_ok c t hs

theorem p_emit (s t : State) (c : LCtx) (h : Claim.LaneReady s c) (hs : Claim.Signals t c) (vertex : Bool)
    (hi : (c.i, vertex) ∈ [(Instr.emitV c.w, true), (.emitP c.w, false)]) (va : Nat → Dword) (ok : Nat → Bool) (g : Nat → List Seg) (u : State)
    (hh : ∀ a ∈ (s.wave c.k).accesses, a.hold = false)
    (hl : ∀ l ∈ lanesOf c.act, meshElem c vertex l s = .ok (va l, ok l) s ∧ resolve (s.laneAcc c.k) (va l) (if ok l then (if vertex then 32 else 4) else 4) .store s = .ok (g l) s)
    (hm : (s.wave c.k).meetsPending ((lanesOf c.act).map g).flatten = false) (hg : gateSegs (s.laneAcc c.k) true ((lanesOf c.act).map g).flatten s = .ok () u)
    (he : emitLanes c (s.laneAcc c.k) (s.wave c.k) vertex ((lanesOf c.act).map fun l => (l, va l, ok l)) u = .ok () t) : exec c.i s = .next (Claim.laneDone t c {}) := by
  have hx : exec c.i s = laneInstr c.i c.w (fun _ => pure ()) (emitM vertex) s := by
    simp only [List.mem_cons, Prod.mk.injEq, List.not_mem_nil, or_false] at hi
    rcases hi with ⟨hi, rfl⟩ | ⟨hi, rfl⟩ <;> rw [hi]
    · exact Machine.exec_emitV s c.w
    · exact Machine.exec_emitP s c.w
  refine Machine.laneReady_exec h hx ?_
  have hfind : ∀ l ∈ lanesOf c.act, ((lanesOf c.act).map fun l => (l, va l, ok l)).find? (fun e => e.1 == l) = some (l, va l, ok l) := by
    intro l hx
    refine Machine.find_key _ l _ ?_ (List.mem_map.2 ⟨l, hx, rfl⟩)
    rw [List.map_map]
    have : ((fun x : Nat × Dword × Bool => x.1) ∘ fun l => (l, va l, ok l)) = id := rfl
    rw [this, List.map_id]
    exact Machine.lanesOf_nodup _
  simp only [emitM, bind_run, Machine.heldBack_ok c s hh, get_run]
  rw [Machine.laneCheck_ok]
  rotate_left
  · intro l hx
    simp only [bind_run, (hl l hx).1, pure_run]
  simp only []
  rw [Machine.forLanes_ok (lanesOf c.act) _ (fun l => (l, va l, ok l)) s]
  rotate_left
  · intro l hx
    simp only [bind_run, (hl l hx).1, pure_run]
  simp only []
  rw [Machine.laneCheck_ok]
  rotate_left
  · intro l hx
    simp only [hfind l hx, bind_run, (hl l hx).2, pure_run]
  simp only []
  rw [Machine.forLanes_ok (lanesOf c.act) _ g s]
  rotate_left
  · intro l hx
    simp only [hfind l hx, (hl l hx).2]
  simp only [Machine.getWave_run]
  rw [ite_run, if_neg (by rw [hm]; simp)]
  simp only [bind_run, hg, he]
  exact Machine.completed_ok c t hs

end Sys2Proof.Machine
end

