-- ==== Sys2Proof/Laws/Coherence.lean ====
section
/-! SUPPORT. Events of coherence, translation, the host, links, memory errors and power (R261 to R272, R304 to R317, R412 to R434). -/

namespace Sys2Proof.Machine

open Sys2Proof.Claim

set_option Elab.async false

theorem getD_map_value {α : Type} (m : Map α) (f : Nat → α → α) (d : α) (k : Nat) (hd : f k d = d) :
    Map.getD (m.map fun e => (e.1, f e.1 e.2)) k d = f k (Map.getD m k d) := by
  simp only [Map.getD, find_map_value]
  cases Map.find m k <;> simp [hd]

theorem dropTlb_core (s : State) (c k : Nat) (p : TlbEntry → Bool) (h : k / 64 = c) :
    ((s.dropTlb c p).core k).tlb = (s.core k).tlb.filter fun e => !p e := by
  have := getD_map_value s.cores (fun i e => if i / 64 = c then { e with tlb := e.tlb.filter fun e => !p e } else e) ({} : Core) k
    (by simp)
  have e : (s.dropTlb c p).cores = s.cores.map fun e => (e.1, if e.1 / 64 = c then { e.2 with tlb := e.2.tlb.filter fun e => !p e } else e.2) := by
    simp only [State.dropTlb]
    have : ∀ x : State, x.cores = s.cores → (x.cores.map fun e => if e.1 / 64 = c then (e.1, { e.2 with tlb := e.2.tlb.filter fun e => !p e }) else e) = s.cores.map fun e => (e.1, if e.1 / 64 = c then { e.2 with tlb := e.2.tlb.filter fun e => !p e } else e.2) := by
      intro x hx; rw [hx]; congr 1; funext e; split <;> rfl
    split <;> exact this _ rfl
  simp only [State.core, e, this, h, if_true]

theorem dropTlb_wengine (s : State) (c k : Nat) (p : TlbEntry → Bool) (h : k / 8 = c) :
    ((s.dropTlb c p).wengine k).tlb = (s.wengine k).tlb.filter fun e => !p e := by
  have := getD_map_value s.wengines (fun i e => if i / 8 = c then { e with tlb := e.tlb.filter fun e => !p e } else e) ({} : WaveEngine) k
    (by simp)
  have e : (s.dropTlb c p).wengines = s.wengines.map fun e => (e.1, if e.1 / 8 = c then { e.2 with tlb := e.2.tlb.filter fun e => !p e } else e.2) := by
    simp only [State.dropTlb]
    have : ∀ x : State, x.wengines = s.wengines → (x.wengines.map fun e => if e.1 / 8 = c then (e.1, { e.2 with tlb := e.2.tlb.filter fun e => !p e }) else e) = s.wengines.map fun e => (e.1, if e.1 / 8 = c then { e.2 with tlb := e.2.tlb.filter fun e => !p e } else e.2) := by
      intro x hx; rw [hx]; congr 1; funext e; split <;> rfl
    split <;> exact this _ rfl
  simp only [State.wengine, e, this, h, if_true]

theorem dropTlb_engine (s : State) (c k : Nat) (p : TlbEntry → Bool) (h : k / 7 = c) :
    ((s.dropTlb c p).engine k).tlb = (s.engine k).tlb.filter fun e => !p e := by
  have := getD_map_value s.engines (fun i e => if i / 7 = c then { e with tlb := e.tlb.filter fun e => !p e } else e) ({} : Engine) k
    (by simp)
  have e : (s.dropTlb c p).engines = s.engines.map fun e => (e.1, if e.1 / 7 = c then { e.2 with tlb := e.2.tlb.filter fun e => !p e } else e.2) := by
    simp only [State.dropTlb]
    have : ∀ x : State, x.engines = s.engines → (x.engines.map fun e => if e.1 / 7 = c then (e.1, { e.2 with tlb := e.2.tlb.filter fun e => !p e }) else e) = s.engines.map fun e => (e.1, if e.1 / 7 = c then { e.2 with tlb := e.2.tlb.filter fun e => !p e } else e.2) := by
      intro x hx; rw [hx]; congr 1; funext e; split <;> rfl
    split <;> exact this _ rfl
  simp only [State.engine, e, this, h, if_true]

@[simp] theorem cluster_setCluster (s : State) (c : Nat) (v : Cluster) : (s.setCluster c v).cluster c = v := by
  simp [State.cluster, State.setCluster]

theorem dropTlb_cluster (s : State) (c : Nat) (p : TlbEntry → Bool) :
    ((s.dropTlb c p).cluster c).tlb = (s.cluster c).tlb.filter fun e => !p e := by
  simp only [State.dropTlb]
  split
  · rename_i h
    simp only [Bool.and_eq_true, List.isEmpty_iff] at h
    show (s.cluster c).tlb = _
    rw [h.1.1]; rfl
  · show ((s.setCluster c _).cluster c).tlb = _
    rw [cluster_setCluster]

theorem dropTlb_lines (s : State) (c : Nat) (p : TlbEntry → Bool) :
    ((s.dropTlb c p).cluster c).lines = (s.cluster c).lines := by
  simp only [State.dropTlb]
  split
  · rfl
  · show ((s.setCluster c _).cluster c).lines = _
    rw [cluster_setCluster]

theorem dropTlb_keeps (s : State) (c : Nat) (p : TlbEntry → Bool) :
    (s.dropTlb c p).mem = s.mem ∧ (s.dropTlb c p).invals = s.invals := by
  simp only [State.dropTlb]
  split <;> exact ⟨rfl, rfl⟩

/-- Write-backs keep every TLB and every invalidation. -/
structure SameTlbs (s t : State) : Prop where
  cores : t.cores = s.cores
  wengines : t.wengines = s.wengines
  engines : ∀ k, (t.engine k).tlb = (s.engine k).tlb
  invals : t.invals = s.invals
  clusters : ∀ c, (t.cluster c).tlb = (s.cluster c).tlb

theorem SameTlbs.trans {s t u : State} (h1 : SameTlbs s t) (h2 : SameTlbs t u) : SameTlbs s u :=
  ⟨by rw [h2.cores, h1.cores], by rw [h2.wengines, h1.wengines], fun k => by rw [h2.engines, h1.engines], by rw [h2.invals, h1.invals],
    fun c => by rw [h2.clusters, h1.clusters]⟩

theorem sameTlbs_moved {s t : State} (h : Moved s t) : SameTlbs s t :=
  ⟨by rw [h.rest], by rw [h.rest], fun k => by
    obtain ⟨v, hv⟩ := h.harts.engine k
    rw [hv], by rw [h.rest], fun c => by
    have : t.clusters = s.clusters := by rw [h.rest]
    simp only [State.cluster, this]⟩

theorem sameTlbs_setLines (s : State) (c : Nat) (l : Map ULine) : SameTlbs s (s.setCluster c { s.cluster c with lines := l }) :=
  ⟨rfl, rfl, fun _ => rfl, rfl, fun d => by
    by_cases h : d = c
    · subst h; rw [cluster_setCluster]
    · simp only [State.cluster, State.setCluster, Map.getD_put_ne _ _ _ h]⟩

theorem sameTlbs_refl (s : State) : SameTlbs s s := ⟨rfl, rfl, fun _ => rfl, rfl, fun _ => rfl⟩

theorem sameTlbs_bytes (s : State) (m : List Host.Cell) (p : List Nat) : SameTlbs s { s with mem := m, poison := p } :=
  ⟨rfl, rfl, fun _ => rfl, rfl, fun _ => rfl⟩

theorem writeBackLine_tlbs (s : State) (c l : Nat) : SameTlbs s (s.writeBackLine c l) := by
  simp only [State.writeBackLine]
  split
  · rename_i x hx
    split
    · exact sameTlbs_refl s
    · refine SameTlbs.trans ?_ (sameTlbs_setLines _ _ _)
      exact (sameTlbs_bytes _ _ _).trans (sameTlbs_moved (moved_llcTouch _ _))
  · exact sameTlbs_refl s

theorem dropLine_tlbs (s : State) (c l : Nat) : SameTlbs s (s.dropLine c l) := by
  simp only [State.dropLine]
  split
  · exact (sameTlbs_setLines _ _ _).trans (sameTlbs_moved (moved_dropResvs _ _ _ _))
  · exact sameTlbs_refl s

theorem flushLines_tlbs (ls : List Nat) (s : State) (c : Nat) : SameTlbs s (s.flushLines c ls) := by
  induction ls generalizing s with
  | nil => exact sameTlbs_refl s
  | cons l t ih => exact ((writeBackLine_tlbs s c l).trans (dropLine_tlbs _ c l)).trans (ih _)

theorem lines_moved {s t : State} (h : Moved s t) (c : Nat) : (t.cluster c).lines = (s.cluster c).lines := by
  have : t.clusters = s.clusters := by rw [h.rest]
  simp only [State.cluster, this]

/-- A line that the cluster does not hold stays away through a write-back and a drop; the line dropped is away. -/
theorem dropLine_find (s : State) (c l k : Nat) (h : k = l ∨ (s.cluster c).lines.find k = none) :
    ((s.dropLine c l).cluster c).lines.find k = none := by
  simp only [State.dropLine]
  split
  · rw [lines_moved (moved_dropResvs _ _ _ _), cluster_setCluster]
    by_cases e : k = l
    · subst e; exact Map.find_del_self _ _
    · rw [Map.find_del_ne _ e]; exact h.resolve_left e
  · rename_i hn
    rcases h with h | h
    · subst h; simpa using hn
    · exact h

theorem writeBackLine_find (s : State) (c l k : Nat) (h : (s.cluster c).lines.find k = none) :
    ((s.writeBackLine c l).cluster c).lines.find k = none := by
  simp only [State.writeBackLine]
  split
  · rename_i x hx
    split
    · exact h
    · rw [cluster_setCluster]
      have e : k ≠ l := by intro e; subst e; rw [hx] at h; cases h
      show Map.find (Map.put _ l _) k = none
      rw [Map.find_put_ne _ _ e, lines_moved (moved_llcTouch _ _)]
      exact h
  · exact h

theorem flushLines_find (ls : List Nat) (s : State) (c k : Nat) (h : k ∈ ls ∨ (s.cluster c).lines.find k = none) :
    ((s.flushLines c ls).cluster c).lines.find k = none := by
  induction ls generalizing s with
  | nil => exact h.resolve_left (by simp)
  | cons l t ih =>
    simp only [State.flushLines]
    apply ih
    rcases h with h | h
    · rcases List.mem_cons.1 h with h | h
      · exact Or.inr (dropLine_find _ _ _ _ (Or.inl h))
      · exact Or.inl h
    · exact Or.inr (dropLine_find _ _ _ _ (Or.inr (writeBackLine_find _ _ _ _ h)))

theorem find_none_of_not_mem {α : Type} (m : Map α) (k : Nat) (h : k ∉ m.map fun e => e.1) : Map.find m k = none := by
  induction m with
  | nil => rfl
  | cons e t ih =>
    obtain ⟨j, w⟩ := e
    simp only [List.map_cons, List.mem_cons, not_or] at h
    simp only [Map.find]
    rw [if_neg (Ne.symm h.1)]
    exact ih h.2

theorem ev_invalidationReceive (s : State) (n c : Nat) (i : Inval) (hi : s.invals.find n = some i) (hr : i.toReceive.getLsbD c = true) :
    ∃ t, exec (.invalidationReceive n c) s = .next t ∧ (∀ x ∈ (t.cluster c).tlb, i.names x = false) ∧
      (∀ k, k / 64 = c → ∀ x ∈ (t.core k).tlb, i.names x = false) ∧ (∀ k, k / 8 = c → ∀ x ∈ (t.wengine k).tlb, i.names x = false) ∧
      (∀ k, k / 7 = c → ∀ x ∈ (t.engine k).tlb, i.names x = false) ∧
      t.invals.find n = some { i with toReceive := i.toReceive &&& ~~~clusterBit c } ∧
      (i.flushPage = none → t.mem = s.mem) ∧
      ∀ p l, i.flushPage = some p → l / 16 = p → (t.cluster c).lines.find l = none := by
  obtain ⟨u, hu, ht, hm, hl⟩ : ∃ u, exec (.invalidationReceive n c) s = .next { u with invals := u.invals.put n { i with toReceive := i.toReceive &&& ~~~clusterBit c } } ∧
      SameTlbs (s.dropTlb c i.names) u ∧ (i.flushPage = none → u.mem = s.mem) ∧
      (∀ p l, i.flushPage = some p → l / 16 = p → (u.cluster c).lines.find l = none) := by
    rw [exec_invalidationReceive]
    simp only [execInvalidationReceive, event, hi, hr, Bool.not_true, Bool.false_eq_true, if_false]
    refine ⟨_, rfl, ?_, ?_, ?_⟩
    · split
      · exact flushLines_tlbs _ _ _
      · exact sameTlbs_refl _
    · intro hf; simp only [hf]; exact (dropTlb_keeps _ _ _).1
    · intro p l hf hp
      simp only [hf]
      apply flushLines_find
      by_cases hk : l ∈ ((s.dropTlb c i.names).cluster c).lines.map fun (e : Nat × ULine) => e.1
      · exact Or.inl (List.mem_filter.2 ⟨hk, by simp [hp]⟩)
      · exact Or.inr (find_none_of_not_mem _ _ hk)
  refine ⟨_, hu, ?_, ?_, ?_, ?_, Map.find_put_self _ _ _, hm, hl⟩
  · intro x hx
    have : x ∈ (u.cluster c).tlb := hx
    rw [ht.clusters, dropTlb_cluster] at this
    simpa using (List.mem_filter.1 this).2
  · intro k hk x hx
    have : x ∈ (u.core k).tlb := hx
    simp only [State.core, ht.cores] at this
    have h2 := dropTlb_core s c k i.names hk
    simp only [State.core] at h2
    rw [h2] at this
    simpa using (List.mem_filter.1 this).2
  · intro k hk x hx
    have : x ∈ (u.wengine k).tlb := hx
    simp only [State.wengine, ht.wengines] at this
    have h2 := dropTlb_wengine s c k i.names hk
    simp only [State.wengine] at h2
    rw [h2] at this
    simpa using (List.mem_filter.1 this).2
  · intro k hk x hx
    have : x ∈ (u.engine k).tlb := hx
    rw [ht.engines, dropTlb_engine s c k i.names hk] at this
    simpa using (List.mem_filter.1 this).2

theorem ev_invalidationAck (s : State) (n c : Nat) (i : Inval) (hi : s.invals.find n = some i) (hr : i.toReceive.getLsbD c = false)
    (ha : i.toAck.getLsbD c = true) (hu : Claim.NoUse s i c) :
    ∃ t, exec (.invalidationAck n c) s = .next t ∧ t.mem = s.mem ∧
      (i.toAck &&& ~~~clusterBit c ≠ 0 → t.invals.find n = some { i with toAck := i.toAck &&& ~~~clusterBit c }) ∧
      (i.toAck &&& ~~~clusterBit c = 0 → t.invals.find n = none ∧
        ∀ h, i.hart = some h → (s.hart h).run = .parked .inval → t.hart h = { s.hart h with granted := some (.value 0) }) := by
  have hb : (s.waves.any fun e => e.1 / 128 == c && e.2.accesses.any i.holds) = false := by
    rw [List.any_eq_false]
    intro e he
    by_cases h : e.1 / 128 = c
    · have := hu e he h
      simp only [h, beq_self_eq_true, Bool.true_and, Bool.not_eq_true, List.any_eq_false]
      intro a ha; simpa using this a ha
    · simp [h]
  rw [exec_invalidationAck]
  simp only [execInvalidationAck, event, hi, hr, ha, hb, Bool.not_true, Bool.or_self, Bool.false_eq_true, if_false]
  refine ⟨_, rfl, ?_, ?_, ?_⟩
  · split
    · simp only [State.endInval]
      repeat' split
      all_goals first | rfl | skip
      all_goals (rename HartId => h; cases h <;> rfl)
    · rfl
  · intro h0
    rw [if_neg h0]
    exact Map.find_put_self _ _ _
  · intro h0
    rw [if_pos h0]
    refine ⟨?_, ?_⟩
    · simp only [State.endInval]
      have hd : ∀ u : State, u.invals.del n = u.invals.del n → True := fun _ _ => trivial
      repeat' split
      all_goals first | exact Map.find_del_self _ _ | skip
      all_goals (rename HartId => h; cases h <;> exact Map.find_del_self _ _)
    · intro h hh hp
      simp only [State.endInval, hh]
      have e : ∀ (u : State), u.hart h = s.hart h → ((if (u.hart h).run == .parked .inval then u.setHart h { u.hart h with granted := some (.value 0) } else u)).hart h = { s.hart h with granted := some (.value 0) } := by
        intro u hu
        rw [hu, hp]
        simp
      apply e
      cases h <;> rfl

theorem ev_hotnessHalving (s : State) (die : Nat) (hd : die < 4) (h : s.clk / 4194304 - s.halvings[die]! ≠ 0) :
    ∃ t, exec (.hotnessHalving die) s = .next t ∧ t.halvings[die]! = s.clk / 4194304 ∧ t.mem = s.mem ∧
      ∀ g v, (g, v) ∈ t.hot ↔ v ≠ 0 ∧ ∃ w, (g, w) ∈ s.hot ∧
        v = if dieOfPa (g * 65536) = die then w / 2 ^ (s.clk / 4194304 - s.halvings[die]!) else w := by
  have hm : die % 4 = die := Nat.mod_eq_of_lt hd
  rw [exec_hotnessHalving]
  simp only [execHotnessHalving, event, State.halveHot, hm, if_neg h]
  refine ⟨_, rfl, ?_, rfl, ?_⟩
  · simp [hd]
  · intro g v
    simp only [List.mem_filter, List.mem_map, bne_iff_ne, ne_eq]
    constructor
    · rintro ⟨⟨⟨j, w⟩, hj, he⟩, hv⟩
      refine ⟨hv, w, ?_⟩
      dsimp only at he
      split at he
      · rename_i hdie
        cases he; exact ⟨hj, by rw [if_pos hdie]⟩
      · rename_i hdie
        cases he; exact ⟨hj, by rw [if_neg hdie]⟩
    · rintro ⟨hv, w, hj, rfl⟩
      refine ⟨⟨(g, w), hj, ?_⟩, hv⟩
      dsimp only
      split <;> rfl

theorem ev_quantumFlush (s : State) (n : Nat) (q : QUpdate) (v : Nat) (hm : MemoryOk s) (hq : s.quantum[n]? = some q)
    (h1 : ∀ x ∈ s.quantum.eraseIdx n, x ≠ q) (h2 : ∀ x ∈ s.quantum.take n, ¬(x.unit = q.unit ∧ x.pa / 256 = q.pa / 256)) :
    let w := if q.dbl then 8 else 4
    atomNew (.ofCode q.op) (8 * w) (natOfBytes (s.peek q.pa w)) q.data.toNat q.data2.toNat = some v →
    ∃ t, exec (.quantumFlush n) s = .next t ∧ t.quantum = s.quantum.eraseIdx n ∧ t.peek q.pa w = leBytes w v ∧
      Claim.OthersKept s t q.pa w ∧ MemoryOk t := by
  intro w ha
  obtain ⟨hn, hqe⟩ := List.getElem?_eq_some_iff.1 hq
  have hsplit : s.quantum = s.quantum.take n ++ q :: s.quantum.drop (n + 1) := by
    rw [← hqe, ← List.drop_eq_getElem_cons hn, List.take_append_drop]
  have her : s.quantum.eraseIdx n = s.quantum.take n ++ s.quantum.drop (n + 1) := List.eraseIdx_eq_take_drop_succ _ _
  have hdue : ∀ x ∈ s.quantum.eraseIdx n, (x == q || (x.unit == q.unit && x.pa / 256 == q.pa / 256 && (s.quantum.take n).contains x)) = false := by
    intro x hx
    have hne := h1 x hx
    simp only [Bool.or_eq_false_iff, beq_eq_false_iff_ne, ne_eq, hne, not_false_eq_true, true_and, Bool.and_eq_false_iff]
    by_cases hc : x ∈ s.quantum.take n
    · have := h2 x hc
      by_cases hu : x.unit = q.unit
      · left; right; intro hp; exact this ⟨hu, hp⟩
      · left; left; exact hu
    · right; simpa using hc
  have hself : (q == q || (q.unit == q.unit && q.pa / 256 == q.pa / 256 && (s.quantum.take n).contains q)) = true := by simp
  rw [her] at hdue
  have hd1 : ∀ x ∈ s.quantum.take n, _ := fun x hx => hdue x (List.mem_append_left _ hx)
  have hd2 : ∀ x ∈ s.quantum.drop (n + 1), _ := fun x hx => hdue x (List.mem_append_right _ hx)
  have hf : (s.quantum.filter fun x => x == q || (x.unit == q.unit && x.pa / 256 == q.pa / 256 && (s.quantum.take n).contains x)) = [q] := by
    conv => lhs; arg 2; rw [hsplit]
    rw [List.filter_append, List.filter_cons, if_pos hself, List.filter_eq_nil_iff.2 (fun x hx => by rw [hd1 x hx]; simp),
      List.filter_eq_nil_iff.2 (fun x hx => by rw [hd2 x hx]; simp)]
    rfl
  have hg : (s.quantum.filter fun x => !(x == q || (x.unit == q.unit && x.pa / 256 == q.pa / 256 && (s.quantum.take n).contains x))) = s.quantum.eraseIdx n := by
    rw [her]
    conv => lhs; arg 2; rw [hsplit]
    rw [List.filter_append, List.filter_cons, if_neg (by rw [hself]; simp), List.filter_eq_self.2 (fun x hx => by rw [hd1 x hx]; rfl),
      List.filter_eq_self.2 (fun x hx => by rw [hd2 x hx]; rfl)]
  have hempty : s.quantum.isEmpty = false := by rw [hsplit]; simp
  have hp : s.perform q = (s.tokenHome (q.pa / 256)).poke q.pa (leBytes w v) := by
    simp only [State.perform]
    have : ∀ o, o = some v → (match o with | some v => (s.tokenHome (q.pa / 256)).poke q.pa (leBytes w v) | none => s) = (s.tokenHome (q.pa / 256)).poke q.pa (leBytes w v) := by
      intro o ho; rw [ho]
    exact this _ ha
  have hmm : (s.tokenHome (q.pa / 256)).mem = s.mem := (moved_tokenHome s _).mem
  rw [exec_quantumFlush]
  refine ⟨{ (s.tokenHome (q.pa / 256)).poke q.pa (leBytes w v) with quantum := s.quantum.eraseIdx n }, ?_, rfl, ?_, ?_, ?_⟩
  · simp only [execQuantumFlush, event, hq, State.performAll, hempty, Bool.false_eq_true, if_false]
    rw [hf, hg]
    simp only [List.foldl_cons, List.foldl_nil, hp]
  · show Memory.read (Memory.write (s.tokenHome _).mem _ _) _ _ = _
    rw [hmm]
    have hl : (leBytes w v).length = w := leBytes_length ..
    conv => lhs; arg 3; rw [← hl]
    exact Memory.read_write _ _ _ hm
  · intro b hb
    show Memory.get (Memory.write (s.tokenHome _).mem _ _) b = _
    rw [hmm]
    have hl : (leBytes w v).length = w := leBytes_length ..
    rcases hb with hb | hb
    · exact Memory.get_write_of_lt _ _ hb
    · exact Memory.get_write_of_ge _ _ (by rw [hl]; exact hb)
  · show Memory.wf (Memory.write (s.tokenHome _).mem _ _) = true
    rw [hmm]; exact Memory.wf_write _ _ _ hm

theorem find_head {l : List TlbEntry} (p : TlbEntry → Bool) (e : TlbEntry) (h : p e = true) : ((e :: l).find? p).isSome = true := by
  simp [h]

@[simp] theorem tlb_setTlb (s : State) (t : TlbId) (l : List TlbEntry) : (s.setTlb t l).tlb t = l := by
  cases t <;> simp [State.setTlb, State.tlb, State.core, State.setCore, State.wengine, State.setWengine, State.engine, State.setEngine]

theorem fillOwn_serves (acc : Acc) (va : Nat) (e : TlbEntry) (s t : State) (p : TlbEntry → Bool) (h : p e = true)
    (hf : fillOwn acc va e s = .ok () t) : ((t.tlb acc.tlb).find? p).isSome = true := by
  simp only [fillOwn, modify_run] at hf
  cases hf
  split
  · rw [tlb_setTlb]; exact find_head p e h
  · have : ∀ (u : State) (n : Nat), ({ u with free := n } : State).tlb acc.tlb = u.tlb acc.tlb := by
      intro u n; cases acc.tlb <;> rfl
    rw [this, tlb_setTlb]
    simp only [tlbPut]
    split <;> exact find_head p e h

theorem leafSize_pos (lvl : Nat) (e : Dword) : 0 < leafSize lvl e := by
  simp only [leafSize]
  split
  · split <;> decide
  · exact Nat.mul_pos (by decide) (Nat.pow_pos (by decide))

theorem ite_error {α β : Type} {c : Prop} [Decidable c] {x : α} {r : Except α β} {l : β}
    (h : (if c then Except.error x else r) = .ok l) : r = .ok l := by
  split at h
  · cases h
  · exact h

theorem walkFrom_pos (acc : Acc) (va : Nat) (k : AccessKind) (s : State) (ls : List Nat) (a : Nat) (l : Leaf)
    (h : walkFrom acc va k s ls a = .ok l) : 0 < l.size := by
  induction ls generalizing a with
  | nil => simp [walkFrom] at h
  | cons lvl rest ih =>
    simp only [walkFrom] at h
    replace h := ite_error (ite_error (ite_error h))
    by_cases hp : (!Pte.r (BitVec.ofNat 64 (natOfBytes (s.peek (a + 8 * (va / 2 ^ (12 + 9 * lvl) % 512)) 8))) &&
        !Pte.x (BitVec.ofNat 64 (natOfBytes (s.peek (a + 8 * (va / 2 ^ (12 + 9 * lvl) % 512)) 8)))) = true
    · rw [if_pos hp] at h
      exact ih _ (ite_error h)
    · rw [if_neg hp] at h
      replace h := ite_error (ite_error (ite_error (ite_error (ite_error (ite_error h)))))
      injection h with h
      rw [← h]; exact leafSize_pos _ _

theorem div_mul_hits (va n : Nat) (h : 0 < n) : va / n * n ≤ va ∧ va < va / n * n + n := by
  have h1 := Nat.div_add_mod va n
  have h2 := Nat.mod_lt va h
  rw [Nat.mul_comm] at h1
  omega

theorem setAD_dirty (l : Leaf) (s t : State) (e : Dword) (h : setAD .store l s = .ok e t) : Pte.d e = true := by
  have : e = l.pte ||| 0xC0#64 := by
    simp only [setAD, if_true] at h
    split at h
    · simp only [bind_run, modify_run, pure_run] at h; cases h; rfl
    · simp only [bind_run, pure_run] at h; cases h; rfl
  rw [this]; simp [Pte.d]

theorem walkFill_serves (acc : Acc) (va : Nat) (k : AccessKind) (s t : State) (e : TlbEntry) (h : walkFill acc va k s = .ok e t) :
    (e.hits (asidOf acc.dptb) va && e.serves acc k) = true := by
  simp only [walkFill, bind_run, get_run] at h
  cases hl : walk acc va k s with
  | error e => simp [hl] at h
  | ok l =>
    simp only [hl] at h
    have hpos := walkFrom_pos _ _ _ _ _ _ _ hl
    have hh := div_mul_hits va l.size hpos
    simp only [bind_run, modify_run] at h
    split at h
    · rename_i pte u hp
      have hd : k = .store → Pte.d pte = true := fun hk => by subst hk; exact setAD_dirty _ _ _ _ hp
      obtain ⟨pt, hpt, he⟩ : ∃ pt, (k = .store → Pte.d pt = true) ∧
          e = { asid := asidOf acc.dptb, va := va / l.size * l.size, size := l.size, pte := pt, line := l.addr / 256 } := by
        split at h
        · simp only [bind_run, get_run, set_run, pure_run] at h
          injection h with h1 h2
          refine ⟨_, ?_, h1.symm⟩
          intro hk
          have := hd hk
          split
          · simpa [Pte.d] using this
          · exact this
        · simp only [bind_run, pure_run, modify_run] at h
          injection h with h1 h2
          exact ⟨pte, hd, h1.symm⟩
      rw [he]
      simp only [TlbEntry.hits, TlbEntry.serves, Bool.and_eq_true, Bool.or_eq_true, decide_eq_true_eq]
      refine ⟨⟨hh, Or.inr trivial⟩, ?_⟩
      cases k with
      | store => left; right; exact hpt rfl
      | load => left; left; rfl
      | fetch => left; left; rfl
    · cases h

theorem translate_serves (acc : Acc) (va : Nat) (k : AccessKind) (s t : State) (r : Tr) (h : translate acc va k s = .ok r t) :
    ((t.tlb acc.tlb).find? fun e => e.hits (asidOf acc.dptb) va && e.serves acc k).isSome = true := by
  simp only [translate, bind_run, get_run] at h
  have hc : ∀ (x : TlbEntry) (r : Tr) (u : State), checkHit acc k va x s = .ok r u → u = s := by
    intro x r u hx
    simp only [checkHit] at hx
    repeat' split at hx
    all_goals first | (simp at hx; done) | (simp only [pure_run] at hx; injection hx with _ h2; exact h2.symm)
  cases he : (s.tlb acc.tlb).find? fun e => e.hits (asidOf acc.dptb) va && e.serves acc k with
  | some e =>
    simp only [he] at h
    rw [hc _ _ _ h]
    simp [he]
  | none =>
    simp only [he] at h
    cases he : (s.cluster acc.cluster).tlb.find? fun e => e.hits (asidOf acc.dptb) va && e.serves acc k with
    | some e =>
      have hp := List.find?_some he
      simp only [he, bind_run] at h
      split at h
      · rename_i x u hx
        have := hc _ _ _ hx
        subst this
        split at h
        · rename_i y v hv
          injection h with _ h2
          subst h2
          exact fillOwn_serves acc va e _ _ _ hp hv
        · cases h
      · cases h
    | none =>
      simp only [he, bind_run] at h
      split at h
      · rename_i e u he
        split at h
        · rename_i y v hv
          simp only [pure_run] at h
          injection h with _ h2
          subst h2
          exact fillOwn_serves acc va e _ _ _ (walkFill_serves _ _ _ _ _ _ he) hv
        · cases h
      · cases h

theorem ev_pageWalk (s : State) (h : HartId) (va : Dword) (kind : AccessKind) (hc : canonical va = true)
    (hw : inWindow (va.toNat % 2 ^ 48) = false) :
    (∀ tr t, translate (s.accOf h) (va.toNat % 2 ^ 48) kind s = .ok tr t →
      exec (.pageWalk h va kind) s = .next t ∧
        ((t.tlb (s.accOf h).tlb).find? fun e => e.hits (asidOf (s.hart h).dptb) (va.toNat % 2 ^ 48) && e.serves (s.accOf h) kind).isSome = true) ∧
    (∀ e t, translate (s.accOf h) (va.toNat % 2 ^ 48) kind s = .error e t → exec (.pageWalk h va kind) s = .next s) := by
  refine ⟨fun tr t ht => ⟨?_, ?_⟩, fun e t ht => ?_⟩
  · rw [exec_pageWalk]; simp only [execPageWalk, event, hc, hw, ht, Bool.not_false, Bool.and_self, if_true]
  · have := translate_serves _ _ _ _ _ _ ht
    have e : (s.accOf h).dptb = (s.hart h).dptb := by cases h <;> rfl
    rw [e] at this; exact this
  · rw [exec_pageWalk]; simp only [execPageWalk, event, hc, hw, ht, Bool.not_false, Bool.and_self, if_true]

theorem tokens_loseOthers (l : List (Nat × Nat)) (s : State) (c g : Nat) : (s.loseOthers c g l).tokens = s.tokens := by
  induction l generalizing s with
  | nil => rfl
  | cons e t ih =>
    simp only [State.loseOthers]
    rw [ih]; split <;> rfl

theorem tokens_halveHot (s : State) (d : Nat) : (s.halveHot d).tokens = s.tokens := by
  simp only [State.halveHot]; split <;> rfl

theorem tokens_transfer (s : State) (p : Nat) : (s.transfer p).tokens = s.tokens := by
  simp only [State.transfer]; split
  · exact tokens_halveHot _ _
  · rfl

theorem tokens_llcTouch (s : State) (l : Nat) : (s.llcTouch l).tokens = s.tokens := by
  simp only [State.llcTouch]; split
  · rfl
  · exact tokens_transfer _ _

theorem tok_setTok (s : State) (g : Nat) (t : Tokens) : (s.setTok g t).tok g = if t.held.isEmpty then {} else t := by
  simp only [State.tok, State.setTok]
  split
  · simp [Map.getD, Map.find_del_self]
  · simp

theorem tok_congr {s t : State} (h : t.tokens = s.tokens) (g : Nat) : t.tok g = s.tok g := by simp only [State.tok, h]

theorem put_nonempty {α : Type} (m : Map α) (k : Nat) (v : α) : (Map.put m k v).isEmpty = false := by
  cases m with
  | nil => rfl
  | cons e t => simp only [Map.put]; repeat' split
                all_goals rfl

theorem nonempty_of_getD (m : Map Nat) (k : Nat) (h : Map.getD m k 0 ≠ 0) : m.isEmpty = false := by
  cases m with
  | nil => exact absurd rfl h
  | cons e t => rfl

theorem tokenWrite_holds (s : State) (c line : Nat) : ((s.tokenWrite c line).tok (s.granuleOf line)).held.getD c 0 = 129 := by
  simp only [State.tokenWrite]
  split
  · rename_i h
    rw [tok_setTok]
    rw [nonempty_of_getD _ c (by show Map.getD (s.tok (s.granuleOf line)).held c 0 ≠ 0; omega)]
    exact h
  · split
    · rw [tok_congr (tokens_llcTouch _ _), tok_setTok]; simp [Map.getD, Map.find]
    · rw [tok_setTok]; simp [Map.getD, Map.find]

theorem granuleOf_moved {s t : State} (h : Moved s t) (l : Nat) : t.granuleOf l = s.granuleOf l := by
  have : t.objects = s.objects := by rw [h.rest]
  simp only [State.granuleOf, State.objectOf, this]

theorem granuleLines_moved {s t : State} (h : Moved s t) (l : Nat) : t.granuleLines l = s.granuleLines l := by
  have : t.objects = s.objects := by rw [h.rest]
  simp only [State.granuleLines, this]

theorem moved_answer (s : State) (c g : Nat) (w : Bool) : Moved s (s.answerRequest c g w) := by
  simp only [State.answerRequest]
  split
  · exact (moved_tokenWrite _ _ _).trans (moved_setTok _ _ _)
  · exact moved_tokenRead _ _ _

theorem answer_write (s : State) (c g : Nat) (hg : s.granuleOf ((s.granuleLines g).headD g) = g) :
    ((s.answerRequest c g true).tok g).held.getD c 0 = 129 := by
  simp only [State.answerRequest, if_true]
  have h := tokenWrite_holds s c ((s.granuleLines g).headD g)
  rw [hg] at h
  rw [tok_setTok]
  rw [nonempty_of_getD _ c (by show Map.getD ((s.tokenWrite c _).tok g).held c 0 ≠ 0; omega)]
  exact h

theorem answer_read (s : State) (c g : Nat) (hg : s.granuleOf ((s.granuleLines g).headD g) = g) :
    ((s.answerRequest c g false).tok g).held.getD c 0 = if (s.tok g).held.getD c 0 ≠ 0 then (s.tok g).held.getD c 0
        else (s.tok g).home + ((s.tok g).held.filter fun e => 1 < e.2 && e.1 != c).length := by
  simp only [State.answerRequest, Bool.false_eq_true, if_false, State.tokenRead, hg]
  split
  · rfl
  · rw [tok_congr (tokens_llcTouch _ _), tok_setTok]
    rw [if_neg (by rw [put_nonempty]; simp)]
    exact Map.getD_put_self _ _ _ _

theorem snoopFirst_none (s : State) (ls : List Nat) (h : ∀ l ∈ ls, s.hostFilter.contains l = false) : s.snoopFirst ls = none := by
  have : ls.find? s.hostFilter.contains = none := by
    rw [List.find?_eq_none]; intro x hx; rw [h x hx]; simp
  simp only [State.snoopFirst, this]

theorem ev_tokens (s : State) (c g : Nat) (hc : c < 128) (h : Claim.GranuleFree s g) :
    (∃ t, exec (.tokenRequest c g true) s = .next t ∧ (t.tok g).held.getD c 0 = 129 ∧ t.mem = s.mem) ∧
    (∃ t, exec (.tokenRequest c g false) s = .next t ∧ t.mem = s.mem ∧ (t.tok g).held.getD c 0 =
      if (s.tok g).held.getD c 0 ≠ 0 then (s.tok g).held.getD c 0
      else (s.tok g).home + ((s.tok g).held.filter fun e => 1 < e.2 && e.1 != c).length) ∧
    (∀ w, (s.persistent.find? fun p => p.cluster == c && p.granule == g) = none →
      exec (.persistentRequest c g w) s = .next { s with
        persistent := s.persistent ++ [{ cluster := c, granule := g, write := w, clk := s.clk }] }) ∧
    (∀ w p, (s.persistent.find? fun p => p.cluster == c && p.granule == g) = some p → s.firstPersistent g = some p →
      ∃ t, exec (.persistentRequest c g w) s = .next t ∧ (t.tok g).held.getD c 0 = 129 ∧ t.persistent = s.persistent.erase p ∧
        t.mem = s.mem) := by
  obtain ⟨h1, h2, h3⟩ := h
  have hs := snoopFirst_none s _ h2
  have hm : c % 128 = c := Nat.mod_eq_of_lt hc
  refine ⟨⟨s.answerRequest c g true, ?_, answer_write s c g h3, (moved_answer _ _ _ _).mem⟩,
    ⟨s.answerRequest c g false, ?_, (moved_answer _ _ _ _).mem, answer_read s c g h3⟩, fun w hn => ?_, fun w p hp hf => ?_⟩
  · rw [exec_tokenRequest]; simp [execTokenRequest, event, h1, hs, hm]
  · rw [exec_tokenRequest]; simp [execTokenRequest, event, h1, hs, hm]
  · rw [exec_persistentRequest]
    simp only [execPersistentRequest, event, h1, hm, hn, Bool.not_true, Bool.false_eq_true, if_false]
  · refine ⟨{ s.answerRequest c g true with persistent := s.persistent.erase p }, ?_, answer_write s c g h3, rfl, (moved_answer _ _ _ _).mem⟩
    rw [exec_persistentRequest]
    simp only [execPersistentRequest, event, h1, hm, hp, hf, hs, Bool.not_true, Bool.false_eq_true, if_false, ne_eq, not_true_eq_false]

theorem ev_tokenSnoop (s : State) (c g : Nat) (w : Bool) (l : Nat) (h1 : s.isGranule g = true)
    (hl : (s.granuleLines g).find? s.hostFilter.contains = some l) :
    ∃ t, exec (.tokenRequest c g w) s = .next t ∧ (t.snoops.find l).isSome = true ∧ t.tokens = s.tokens ∧ t.mem = s.mem := by
  rw [exec_tokenRequest]
  simp only [execTokenRequest, event, h1, State.snoopFirst, hl, Bool.not_true, Bool.false_eq_true, if_false]
  refine ⟨_, rfl, ?_, ?_, ?_⟩
  · split
    · simp [Map.find_put_self]
    · rename_i h; cases hh : Map.find s.snoops l <;> simp [hh] at h ⊢
  · split <;> rfl
  · split <;> rfl

theorem moved_evict (s : State) (c g : Nat) : Moved s (s.evictTokens c g) := by
  simp only [State.evictTokens]
  refine Moved.trans ?_ (moved_setTok _ _ _)
  split
  · exact (moved_dropResvs _ _ _ _).trans (moved_llcTouch _ _)
  · exact moved_dropResvs _ _ _ _

theorem ev_tokenEviction (s : State) (c g : Nat) (h : (s.tok g).held.getD c 0 ≠ 0) :
    ∃ t, exec (.tokenEviction c g) s = .next t ∧ (t.tok g).held.getD c 0 = 0 ∧ (t.tok g).owner ≠ some c ∧ t.mem = s.mem := by
  refine ⟨s.evictTokens c g, ?_, ?_, ?_, (moved_evict _ _ _).mem⟩
  · rw [exec_tokenEviction]; simp only [execTokenEviction, event, h, if_false]
  · simp only [State.evictTokens, tok_setTok]
    split
    · rfl
    · simp [Map.getD, Map.find_del_self]
  · simp only [State.evictTokens, tok_setTok]
    split
    · simp
    · dsimp only; split
      · simp
      · assumption

theorem mem_insertNat (l : List Nat) (w x : Nat) : x ∈ insertNat l w ↔ x = w ∨ x ∈ l := by
  induction l with
  | nil => simp [insertNat]
  | cons k t ih =>
    simp only [insertNat]
    split
    · simp
    · split
      · rename_i h; subst h; simp
      · simp only [List.mem_cons, ih]
        constructor
        · rintro (h | h | h) <;> simp [h]
        · rintro (h | h | h) <;> simp [h]

theorem mem_foldl_insertNat (ws l : List Nat) (x : Nat) : x ∈ ws.foldl insertNat l ↔ x ∈ ws ∨ x ∈ l := by
  induction ws generalizing l with
  | nil => simp
  | cons w t ih =>
    simp only [List.foldl_cons, ih, mem_insertNat, List.mem_cons]
    constructor
    · rintro (h | h | h) <;> simp [h]
    · rintro ((h | h) | h) <;> simp [h]

theorem ev_homeRecall (s : State) (g : Nat) (hg : s.isGranule g = true) :
    ∃ t : State, exec (.homeRecall g) s = .next (t.logError 0 0 12 255
        (sliceCluster (if paKind ((s.granuleLines g).headD g * 256) = .host then 0 else dieOfPa ((s.granuleLines g).headD g * 256))
          (sliceOf ((s.granuleLines g).headD g * 256))) ((s.granuleLines g).headD g * 256) 0 0 0xFFFFFFFF) ∧
        t.tok g = {} ∧ t.mem = s.mem ∧ (((s.tok g).held.map (·.2)).sum = 129 → t.poison = s.poison) ∧
        (((s.tok g).held.map (·.2)).sum ≠ 129 → ∀ l ∈ s.granuleLines g, ∀ b, b < 32 → l * 32 + b ∈ t.poison) := by
  have hm : Moved s ((s.loseOthers 128 g (s.tok g).held).setTok g {}) := (moved_loseOthers _ _ _ _).trans (moved_setTok _ _ _)
  have ht : ((s.loseOthers 128 g (s.tok g).held).setTok g {}).tok g = {} := by rw [tok_setTok]; rfl
  have hk : ∀ p, (if paKind p == PaKind.host then 0 else dieOfPa p) = if paKind p = PaKind.host then 0 else dieOfPa p := by
    intro p; by_cases h : paKind p = PaKind.host <;> simp [h]
  rw [exec_homeRecall]
  simp only [execHomeRecall, event, hg, Bool.not_true, Bool.false_eq_true, if_false, hk]
  refine ⟨_, rfl, ?_, ?_, fun h => ?_, fun h l hl b hb => ?_⟩
  · split
    · rw [tok_congr (tokens_llcTouch _ _), ht]
    · exact ht
  · split
    · rw [(moved_llcTouch _ _).mem, hm.mem]
    · exact hm.mem
  · rw [if_pos h, (moved_llcTouch _ _).poison, hm.poison]
  · rw [if_neg h]
    refine (mem_foldl_insertNat _ _ _).2 (Or.inl ?_)
    refine List.mem_flatMap.2 ⟨l, hl, ?_⟩
    exact List.mem_map.2 ⟨b, by simpa using hb, rfl⟩

theorem tok_tokenHome (s : State) (l : Nat) : (s.tokenHome l).tok (s.granuleOf l) = {} := by
  simp only [State.tokenHome, tok_setTok]; rfl

theorem llc_loseOthers (l : List (Nat × Nat)) (s : State) (c g : Nat) : (s.loseOthers c g l).llc = s.llc := by
  induction l generalizing s with
  | nil => rfl
  | cons e t ih =>
    simp only [State.loseOthers]
    rw [ih]; split <;> rfl

theorem ev_hostSnoop (s : State) (line : Nat) (inv : Bool) (h : paKind (line * 256) = .host) :
    ∃ t, exec (.hostSnoop line inv) s = .next t ∧ t.tok (s.granuleOf line) = {} ∧ t.mem = s.mem ∧
      t.llc = if inv then s.llc.erase line else s.llc := by
  rw [exec_hostSnoop]
  simp only [execHostSnoop, event, h, ne_eq, not_true_eq_false, if_false]
  refine ⟨_, rfl, ?_, ?_, ?_⟩
  · split <;> exact tok_tokenHome s line
  · split <;> exact (moved_tokenHome s line).mem
  · split
    · show (s.tokenHome line).llc.erase line = _
      simp only [State.tokenHome]
      show (s.loseOthers _ _ _).llc.erase line = _
      rw [llc_loseOthers]
    · simp only [State.tokenHome]
      exact llc_loseOthers _ _ _ _

/-- Bytes written over a state that token moves have left: read back, with every other byte as before. -/
theorem poke_reads {s u : State} (h : u.mem = s.mem) (hm : MemoryOk s) (a : Nat) (l : List Byte) :
    (u.poke a l).peek a l.length = l ∧ Claim.OthersKept s (u.poke a l) a l.length := by
  refine ⟨?_, ?_⟩
  · show Memory.read (Memory.write u.mem a l) a l.length = l
    rw [h]; exact Memory.read_write _ _ _ hm
  · intro b hb
    show Memory.get (Memory.write u.mem a l) b = _
    rw [h]
    rcases hb with hb | hb
    · exact Memory.get_write_of_lt _ _ hb
    · exact Memory.get_write_of_ge _ _ hb

theorem filterLine_keeps (s : State) (l : Nat) : (s.filterLine l).mem = s.mem ∧ (s.filterLine l).snoops = s.snoops ∧ l ∈ (s.filterLine l).hostFilter := by
  simp only [State.filterLine]
  split
  · rename_i h; exact ⟨rfl, rfl, by simpa using h⟩
  · refine ⟨?_, ?_, by simp⟩
    · repeat' split
      all_goals rfl
    · repeat' split
      all_goals rfl

theorem ev_hostMemAccess (s : State) (addr : Nat) (data : List Byte) (h : paKind addr = .dram) :
    (MemoryOk s → ∃ t, exec (.hostMemAccess true addr data) s = .next t ∧
      t.peek addr (Claim.lineData addr data).length = Claim.lineData addr data ∧
      Claim.OthersKept s t addr (Claim.lineData addr data).length ∧ t.tok (s.granuleOf (addr / 256)) = {} ∧
      ((s.snoops.find (addr / 256)).isSome = true → t.snoops.find (addr / 256) = some true)) ∧
    (∃ t, exec (.hostMemAccess false addr data) s = .next t ∧ t.mem = s.mem ∧ (addr / 256) ∈ t.hostFilter ∧
      ((s.snoops.find (addr / 256)).isSome = true → t.snoops.find (addr / 256) = some true)) := by
  obtain ⟨u, hu, hum, huo, huh, hut⟩ : ∃ u : State, u = (if (s.snoops.find (addr / 256)).isSome then { s with snoops := s.snoops.put (addr / 256) true } else s) ∧
      u.mem = s.mem ∧ u.objects = s.objects ∧ ((s.snoops.find (addr / 256)).isSome = true → u.snoops.find (addr / 256) = some true) ∧ u.tokens = s.tokens := by
    refine ⟨_, rfl, ?_, ?_, ?_, ?_⟩
    · split <;> rfl
    · split <;> rfl
    · intro h; rw [if_pos h]; exact Map.find_put_self _ _ _
    · split <;> rfl
  have hg : u.granuleOf (addr / 256) = s.granuleOf (addr / 256) := by simp only [State.granuleOf, State.objectOf, huo]
  refine ⟨fun hm => ?_, ?_⟩
  · have hmv : Moved u ((u.tokenHome (addr / 256)).transfer addr) := (moved_tokenHome _ _).trans (moved_transfer _ _)
    have hp := poke_reads (s := s) (u := (u.tokenHome (addr / 256)).transfer addr) (by rw [hmv.mem, hum]) hm addr (Claim.lineData addr data)
    refine ⟨_, ?_, hp.1, hp.2, ?_, ?_⟩
    · rw [exec_hostMemAccess]
      simp only [execHostMemAccess, event, h, ne_eq, not_true_eq_false, if_false, if_true]
      rw [← hu]; rfl
    · show (((u.tokenHome _).transfer addr).poke addr _).tok _ = _
      have : (((u.tokenHome (addr / 256)).transfer addr).poke addr (Claim.lineData addr data)).tokens = (u.tokenHome (addr / 256)).tokens := tokens_transfer _ _
      rw [tok_congr this, ← hg]; exact tok_tokenHome _ _
    · intro hs
      show ((u.tokenHome _).transfer addr).snoops.find _ = _
      have : ((u.tokenHome (addr / 256)).transfer addr).snoops = u.snoops := by rw [hmv.rest]
      rw [this]; exact huh hs
  · have hmv : Moved u ((u.loseOthers 128 (u.granuleOf (addr / 256)) ((u.tok (u.granuleOf (addr / 256))).held.filter fun e => 1 < e.2)).transfer addr) :=
      (moved_loseOthers _ _ _ _).trans (moved_transfer _ _)
    have hf := filterLine_keeps ((u.loseOthers 128 (u.granuleOf (addr / 256)) ((u.tok (u.granuleOf (addr / 256))).held.filter fun e => 1 < e.2)).transfer addr) (addr / 256)
    refine ⟨_, ?_, ?_, hf.2.2, ?_⟩
    · rw [exec_hostMemAccess]
      simp only [execHostMemAccess, event, h, ne_eq, not_true_eq_false, if_false, Bool.false_eq_true]
      rw [← hu]
    · rw [hf.1, hmv.mem, hum]
    · intro hs
      rw [hf.2.1]
      have : ((u.loseOthers 128 (u.granuleOf (addr / 256)) ((u.tok (u.granuleOf (addr / 256))).held.filter fun e => 1 < e.2)).transfer addr).snoops = u.snoops := by rw [hmv.rest]
      rw [this]; exact huh hs

theorem ev_backInvalidation (s : State) (line : Nat) :
    (s.snoops.find line = some true → exec (.backInvalidationResponse line) s = .next { s with snoops := s.snoops.put line false }) ∧
    (s.snoops.find line = some false → exec (.backInvalidationResponse line) s = .next { s with
      snoops := s.snoops.del line
      hostFilter := s.hostFilter.erase line }) := by
  refine ⟨fun h => ?_, fun h => ?_⟩ <;>
  · rw [exec_backInvalidationResponse]; simp only [execBackInvalidationResponse, event, h]

theorem ev_peer (s : State) (addr : Nat) (data : List Byte) (hm : MemoryOk s) (h : paKind addr = .dram)
    (hf : s.hostFilter.contains (addr / 256) = false) :
    (∃ t, exec (.peerWindowAccess .fill addr data) s = .next t ∧ t.mem = s.mem ∧ t.tok (s.granuleOf (addr / 256)) = {}) ∧
    (∃ t, exec (.peerWindowAccess .writeBack addr data) s = .next t ∧ t.tok (s.granuleOf (addr / 256)) = {} ∧
      t.peek addr (Claim.lineData addr data).length = Claim.lineData addr data ∧
      Claim.OthersKept s t addr (Claim.lineData addr data).length) ∧
    (∀ code v, code ≠ 7 → (data.length = 4 ∨ data.length = 8) → addr % data.length = 0 → s.poisoned addr data.length = false →
      atomNew (.ofCode code) (8 * data.length) (natOfBytes (s.peek addr data.length)) (natOfBytes data) 0 = some v →
      ∃ t, exec (.peerWindowAccess (.atomic code) addr data) s = .next t ∧ t.tok (s.granuleOf (addr / 256)) = {} ∧
        t.peek addr data.length = leBytes data.length v ∧ Claim.OthersKept s t addr data.length) := by
  have hs := snoopFirst_none s [addr / 256] (by intro l hl; simp only [List.mem_singleton] at hl; rw [hl]; exact hf)
  have hmv : Moved s ((s.tokenHome (addr / 256)).llcTouch (addr / 256)) := (moved_tokenHome _ _).trans (moved_llcTouch _ _)
  have ht : ((s.tokenHome (addr / 256)).llcTouch (addr / 256)).tok (s.granuleOf (addr / 256)) = {} := by
    rw [tok_congr (tokens_llcTouch _ _)]; exact tok_tokenHome _ _
  refine ⟨⟨_, ?_, hmv.mem, ht⟩, ⟨((s.tokenHome (addr / 256)).llcTouch (addr / 256)).poke addr (Claim.lineData addr data), ?_, ht, poke_reads hmv.mem hm _ _⟩, fun code v h7 hl ha hp hv => ?_⟩
  · rw [exec_peerWindowAccess]
    simp only [execPeerWindowAccess, event, h, hs, ne_eq, not_true_eq_false, if_false]
  · rw [exec_peerWindowAccess]
    simp only [execPeerWindowAccess, event, h, hs, ne_eq, not_true_eq_false, if_false]
    rfl
  · have hpr := poke_reads hmv.mem hm addr (leBytes data.length v)
    rw [leBytes_length] at hpr
    refine ⟨((s.tokenHome (addr / 256)).llcTouch (addr / 256)).poke addr (leBytes data.length v), ?_, ht, hpr⟩
    rw [exec_peerWindowAccess]
    have hpk : ((s.tokenHome (addr / 256)).llcTouch (addr / 256)).peek addr data.length = s.peek addr data.length := by
      simp only [State.peek, hmv.mem]
    have hpo : ((s.tokenHome (addr / 256)).llcTouch (addr / 256)).poisoned addr data.length = false := by
      simp only [State.poisoned, hmv.poison]; exact hp
    have hta : data.take data.length = data := List.take_length
    have hdr : data.drop data.length = [] := List.drop_length
    simp only [execPeerWindowAccess, event, h, hs, ne_eq, not_true_eq_false, if_false, State.peerAtomic, if_neg h7, hl, ha, hpo, hpk, hta, hdr,
      Bool.not_false, and_self, if_true]
    have : natOfBytes [] = 0 := rfl
    rw [this, hv]

theorem ev_flitReplay (s : State) (link seq : Nat) : exec (.flitReplay link seq) s = .next { s with
    replays := s.replays.put link (seq % 4096, if (s.replays.find link).map (·.1) = some (seq % 4096)
      then ((s.replays.find link).map (·.2)).getD 0 + 1 else 1) } := by
  rw [exec_flitReplay]
  simp only [execFlitReplay, event]
  cases s.replays.find link with
  | none => simp
  | some x =>
    obtain ⟨q, n⟩ := x
    by_cases h : q = seq % 4096 <;> simp [h]

theorem ev_linkRetrain (s : State) (pair m : Nat) (hp : pair < 4) (hm : m < 24) (hr : 16 ≤ ((s.replays.find (pair * 24 + m)).map (·.2)).getD 0)
    (ha : (s.modules[pair]!).getLsbD m = true) :
    let u : State := { s with replays := s.replays.del (pair * 24 + m) }
    let left := s.modules[pair]! &&& ~~~BitVec.ofNat 24 (2 ^ m)
    let v : State := ({ u with modules := s.modules.set! pair left }).logError 0 0 4 255 0 0 0 0 0xFFFFFFFF
    exec (.linkRetrain pair m true) s = .next u ∧ (left ≠ 0 → exec (.linkRetrain pair m false) s = .next v) ∧
      (left = 0 → exec (.linkRetrain pair m false) s = .next (Claim.endAll v)) := by
  intro u left v
  have h1 : pair % 4 = pair := Nat.mod_eq_of_lt hp
  have h2 : m % 24 = m := Nat.mod_eq_of_lt hm
  have h3 : ¬(((s.replays.find (pair * 24 + m)).map (·.2)).getD 0 < 16) := by omega
  have he : ∀ ok, exec (.linkRetrain pair m ok) s = .next (if ok = true then u else if left = 0 then Claim.endAll v else v) := by
    intro ok
    rw [exec_linkRetrain]
    simp only [execLinkRetrain, event, h1, h2, h3, ha, Bool.not_true, Bool.false_eq_true, or_self, if_false]
    rfl
  refine ⟨he true, fun h => ?_, fun h => ?_⟩
  · rw [he false, if_neg (by simp), if_neg h]
  · rw [he false, if_neg (by simp), if_pos h]

theorem ev_halhel (s : State) (link : Nat) (hl : link < 8) (hu : s.linkUp.getLsbD link = true) :
    let u : State := { s with linkUp := s.linkUp &&& ~~~BitVec.ofNat 8 (2 ^ link) }
    exec (.halhelFailover link) s =
      .next (if (u.linkTo (s.links[link]!).toNat).isSome then u.logError 0 0 4 255 0 0 0 0 0xFFFFFFFF else u) := by
  intro u
  rw [exec_halhelFailover]
  simp only [execHalhelFailover, event, Nat.mod_eq_of_lt hl, hu, Bool.not_true, Bool.false_eq_true, if_false]
  rfl

theorem ev_eccCorrected (s : State) (c addr : Nat) (hc : c < 128) :
    ((∀ k, (s.cluster c).eccClk = some k → k + 2097152 ≤ s.clk) → exec (.eccCorrected c addr) s =
      .next ((s.setCluster c { s.cluster c with eccClk := some s.clk }).logError 0 0 4 255 c addr 0 0 0xFFFFFFFF)) ∧
    (∀ k, (s.cluster c).eccClk = some k → s.clk < k + 2097152 →
      exec (.eccCorrected c addr) s = .next { s with elLost := (s.elLost + 1) % 2 ^ 32 }) := by
  have hm : c % 128 = c := Nat.mod_eq_of_lt hc
  refine ⟨fun h => ?_, fun k h h2 => ?_⟩
  · rw [exec_eccCorrected]
    simp only [execEccCorrected, event, hm]
    cases he : (s.cluster c).eccClk with
    | none => simp
    | some k => have := h k he; simp [this]
  · rw [exec_eccCorrected]
    simp only [execEccCorrected, event, hm, h]
    rw [if_neg (by simpa using h2)]

theorem ev_eccUncorrected (s : State) (addr : Nat) (h : addr < 2 ^ 66) : ∃ t : State, exec (.eccUncorrected addr) s =
      .next (t.logError 22 0 5 255 0 (if addr < 2 ^ 56 then addr else 0) 0 0 0xFFFFFFFF) ∧ addr / 8 ∈ t.poison ∧
      t = { s with poison := t.poison } := by
  refine ⟨{ s with poison := insertNat s.poison (addr / 8) }, ?_, (mem_insertNat _ _ _).2 (Or.inl rfl), rfl⟩
  rw [exec_eccUncorrected]
  simp only [execEccUncorrected, event]
  rw [if_pos h]

theorem ev_eccRegister (s : State) (k b : Nat) (hl : (s.wave k).live = true) (hb : b < 2 ^ 14) : exec (.eccUncorrected (regKey k b)) s =
    .next ((s.setWave k { s.wave k with bad := insertNat (s.wave k).bad b }).logError 22 0 5 255 0 0 0 0 0xFFFFFFFF) := by
  rw [exec_eccUncorrected]
  have h1 : ¬ regKey k b < 2 ^ 66 := by simp only [regKey]; omega
  have h2 : ¬ regKey k b < 2 ^ 56 := by simp only [regKey]; omega
  have h3 : (regKey k b - 2 ^ 66) / 2 ^ 17 = k := by simp only [regKey]; omega
  have h4 : (regKey k b - 2 ^ 66) % 2 ^ 17 / 8 = b := by simp only [regKey]; omega
  simp only [execEccUncorrected, event]
  rw [if_neg h1, if_neg h2, h3, h4, hl, if_pos rfl]

theorem raiseStep_bounds (s : State) (c : Nat) : ∃ k, s.raiseStep c = { s with
    govStep := k
    govCause := c
    free := s.free + 1 } ∧ min 8 (s.govStep + 1) ≤ k ∧ k ≤ 8 := by
  refine ⟨min 8 (s.govStep + 1 + Config.freeNat s.free % (8 - s.govStep)), rfl, ?_, ?_⟩
  · omega
  · omega

theorem ev_governor (s : State) (watts tj : Nat) (hw : watts < 65536) (ht : tj < 256) :
    ∃ step cause, exec (.governorWindow watts tj) s = .next { s with
        govPwr := watts
        govTj := tj
        govStep := step
        govCause := cause
        free := s.free + 1 } ∧
      (100 ≤ tj → cause = 3 ∧ min 8 (s.govStep + 1) ≤ step ∧ step ≤ 8) ∧
      (tj < 100 → min s.plimit s.govCap < watts →
        cause = (if s.govCap < s.plimit then 2 else 1) ∧ min 8 (s.govStep + 1) ≤ step ∧ step ≤ 8) ∧
      (tj < 100 → watts ≤ min s.plimit s.govCap → step ≤ s.govStep ∧ (step = 0 → cause = 0)) := by
  have h1 : watts % 65536 = watts := Nat.mod_eq_of_lt hw
  have h2 : tj % 256 = tj := Nat.mod_eq_of_lt ht
  rw [exec_governorWindow]
  simp only [execGovernorWindow, event, h1, h2]
  by_cases h100 : 100 ≤ tj
  · rw [if_pos h100]
    obtain ⟨k, hk, hb⟩ := raiseStep_bounds { s with govPwr := watts, govTj := tj } 3
    exact ⟨k, 3, by rw [hk], fun _ => ⟨rfl, hb⟩, fun h => by omega, fun h => by omega⟩
  · rw [if_neg h100]
    by_cases hp : min s.plimit s.govCap < watts
    · rw [if_pos hp]
      obtain ⟨k, hk, hb⟩ := raiseStep_bounds { s with govPwr := watts, govTj := tj } (if s.govCap < s.plimit then 2 else 1)
      exact ⟨k, _, by rw [hk], fun h => by omega, fun _ _ => ⟨rfl, hb⟩, fun _ h => by omega⟩
    · rw [if_neg hp]
      refine ⟨Config.freeNat s.free % (s.govStep + 1), _, rfl, fun h => by omega, fun _ h => by omega, fun _ _ => ⟨?_, fun h => ?_⟩⟩
      · exact Nat.le_of_lt_succ (Nat.mod_lt (Config.freeNat s.free) (Nat.succ_pos s.govStep))
      · exact if_pos h

theorem ev_throttle (s : State) (tj : Nat) (h : 100 ≤ tj) (ht : tj < 256) : ∃ step, exec (.thermalThrottle tj) s = .next { s with
      govTj := tj
      govStep := step
      govCause := 3
      free := s.free + 1 } ∧ min 8 (s.govStep + 1) ≤ step ∧ step ≤ 8 := by
  rw [exec_thermalThrottle]
  simp only [execThermalThrottle, event, Nat.mod_eq_of_lt ht, if_pos h]
  obtain ⟨k, hk, hb⟩ := raiseStep_bounds { s with govTj := tj } 3
  exact ⟨k, by rw [hk], hb⟩

theorem ev_trip (s : State) (tj : Nat) (h : 110 ≤ tj) (ht : tj < 256) :
    exec (.thermalTrip tj) s = .next { Claim.endAll { s with govTj := tj } with halted := true } := by
  rw [exec_thermalTrip]
  simp only [execThermalTrip, event, Nat.mod_eq_of_lt ht, if_neg (show ¬ tj < 110 by omega)]
  rfl

theorem ev_attestation (s : State) (nonce : List Byte) (h : nonce.length = 48) : exec (.attestation nonce) s =
    .next { s with attested := (s.attested' nonce ++ Config.attestSignature (s.attested' nonce)) :: s.attested } := by
  rw [exec_attestation]; simp only [execAttestation, event, h, ne_eq, not_true_eq_false, if_false]

end Sys2Proof.Machine
end

