-- ==== Sys2Proof/Laws/Arrivals.lean ====
section
/-! SUPPORT. Messages and stqs on their way, handlers, signals, registers written from outside (R95 to R115, R244 to R254, R397 to R427). -/

namespace Sys2Proof.Machine

open Sys2Proof.Claim

set_option Elab.async false

theorem releaseUnit_empty (s : State) (u : UnitId) (n : Nat) (h : s.quantum = []) : s.releaseUnit u n = s := by
  simp [State.releaseUnit, State.performAll, h]

@[simp] theorem core_setCore (s : State) (k : Nat) (v : Core) : (s.setCore k v).core k = v := by simp [State.core, State.setCore]

@[simp] theorem wengine_setWengine (s : State) (k : Nat) (v : WaveEngine) : (s.setWengine k v).wengine k = v := by
  simp [State.wengine, State.setWengine]

@[simp] theorem engine_setEngine (s : State) (k : Nat) (v : Engine) : (s.setEngine k v).engine k = v := by simp [State.engine, State.setEngine]

theorem sendq_setSendq (s : State) (q : Nat) (m : Map SendEntry) : (s.setSendq q m).sendq q = m := by
  simp only [State.setSendq, State.sendq]
  by_cases h1 : q < 8192
  · simp [h1]
  · by_cases h2 : q < 16384
    · simp [h1, h2]
    · simp [h1, h2]

theorem setSendq_keeps (s : State) (q : Nat) (m : Map SendEntry) : (s.setSendq q m).net = s.net ∧ (s.setSendq q m).mem = s.mem ∧
    (s.setSendq q m).stqs = s.stqs ∧ (s.setSendq q m).heldMsgs = s.heldMsgs ∧ (s.setSendq q m).poison = s.poison := by
  simp only [State.setSendq]; repeat' split
  all_goals exact ⟨rfl, rfl, rfl, rfl, rfl⟩

theorem ev_messageDepart (s : State) (q n : Nat) (e : SendEntry) (he : (s.sendq q).find n = some e) (hr : sendReady (s.sendq q) n e = true) :
    (∀ m, e = .msg m → ∃ t, exec (.messageDepart q n) s = .next t ∧ t.net = s.net ++ [{ m with queue := q, entry := n }] ∧
      t.sendq q = (if m.handler.isSome then (s.sendq q).put n (.held m.origin) else (s.sendq q).del n) ∧ t.mem = s.mem ∧
      ∀ h, t.hart h = s.hart h) ∧
    (∀ o, e = .stq o → ∃ t, exec (.messageDepart q n) s = .next t ∧ t.stqs = s.stqs ++ [o] ∧ t.sendq q = (s.sendq q).del n ∧
      t.net = s.net ∧ t.mem = s.mem ∧ ∀ h, t.hart h = s.hart h) := by
  refine ⟨?_, ?_⟩
  · rintro m rfl
    rw [exec_messageDepart]
    simp only [execMessageDepart, event, he, hr, Bool.not_true, Bool.false_eq_true, if_false]
    refine ⟨_, rfl, ?_, ?_, ?_, ?_⟩
    · simp only [(setSendq_keeps _ _ _).1]
    · exact sendq_setSendq _ _ _
    · exact (setSendq_keeps _ _ _).2.1
    · intro h; exact hart_setSendq _ _ _ _
  · rintro o rfl
    rw [exec_messageDepart]
    simp only [execMessageDepart, event, he, hr, Bool.not_true, Bool.false_eq_true, if_false]
    refine ⟨_, rfl, ?_, ?_, ?_, ?_, ?_⟩
    · simp only [(setSendq_keeps _ _ _).2.2.1]
    · exact sendq_setSendq _ _ _
    · exact (setSendq_keeps _ _ _).1
    · exact (setSendq_keeps _ _ _).2.1
    · intro h; exact hart_setSendq _ _ _ _

theorem deliver_received (s : State) (m : Msg) (ctx : Nat) (h : m.handler = none ∨ (s.hart (.strand ctx)).run ≠ .idle) :
    s.deliverMsg m ctx = s.setHart (.strand ctx) (Claim.received (s.hart (.strand ctx)) m) := by
  simp only [State.deliverMsg, Claim.received]
  by_cases hh : m.handler.isSome = true
  · rw [if_pos hh, if_pos hh, if_neg (by rcases h with h | h; (· simp [h] at hh); exact h)]
  · rw [if_neg hh, if_neg hh]
    by_cases hd : m.dest.getLsbD 28 = true
    · rw [if_pos hd, if_pos hd]; rfl
    · rw [if_neg hd, if_neg hd]
      split <;> rfl

theorem delivered (s u : State) (m : Msg) (ctx : Nat) (hu : u.strands = s.strands) (h : m.handler = none ∨ (s.hart (.strand ctx)).run ≠ .idle) :
    (u.deliverMsg m ctx).net = u.net ∧ (u.deliverMsg m ctx).hart (.strand ctx) = Claim.received (s.hart (.strand ctx)) m ∧
      (u.deliverMsg m ctx).mem = u.mem ∧ (u.deliverMsg m ctx).heldMsgs = u.heldMsgs := by
  have e : u.hart (.strand ctx) = s.hart (.strand ctx) := by simp only [State.hart, hu]
  rw [deliver_received u m ctx (by rw [e]; exact h), e]
  exact ⟨rfl, by simp, rfl, rfl⟩

theorem freeHeld_none (s : State) (m : Msg) (h : m.handler = none) : s.freeHeld m = s := by
  simp [State.freeHeld, h]

theorem ev_messageArrival (s : State) (n : Nat) (m : Msg) (ha : Claim.Arrives s n m) (hp : m.pkg = none) :
    let r := s.hart (.strand m.target)
    (m.rank = none → (m.handler = none ∨ r.run ≠ .idle) → ∃ t, exec (.messageArrival n) s = .next t ∧ t.net = s.net.eraseIdx n ∧
      t.hart (.strand m.target) = Claim.received r m ∧ t.mem = s.mem) ∧
    (m.rank = none → m.handler.isSome = true → r.run = .idle →
      exec (.messageArrival n) s = .next ((Claim.offNet s n m).logError 0 0 10 255 (m.target / 512 % 128) 0 0 0 0xFFFFFFFF)) ∧
    (∀ launch linear, m.rank = some (launch, linear) →
      (s.crewGone launch linear = true → exec (.messageArrival n) s =
        .next ((Claim.offNet s n m).logError 0 0 10 255 (m.target / 512 % 128) 0 0 0 linear)) ∧
      (s.crewGone launch linear = false → s.rankCtx launch linear m.target = none →
        (s.heldMsgs.filter fun x => x.rank == m.rank).length < 4096 →
        exec (.messageArrival n) s = .next { s with
          net := s.net.eraseIdx n
          heldMsgs := s.heldMsgs ++ [m] }) ∧
      (s.crewGone launch linear = false → s.rankCtx launch linear m.target = none →
        4096 ≤ (s.heldMsgs.filter fun x => x.rank == m.rank).length → exec (.messageArrival n) s =
          .next ((Claim.offNet s n m).logError 0 0 10 255 (m.target / 512 % 128) 0 0 0 linear)) ∧
      (∀ ctx, s.crewGone launch linear = false → s.rankCtx launch linear m.target = some ctx →
        (s.heldMsgs.any fun x => x.rank == m.rank && x.target == m.target) = false →
        (m.handler = none ∨ (s.hart (.strand ctx)).run ≠ .idle) →
        ∃ t, exec (.messageArrival n) s = .next t ∧ t.net = s.net.eraseIdx n ∧
          t.hart (.strand ctx) = Claim.received (s.hart (.strand ctx)) m ∧ t.mem = s.mem)) := by
  intro r
  obtain ⟨h1, h2⟩ := ha
  have he : exec (.messageArrival n) s = .next (({ s with net := s.net.eraseIdx n } : State).arrive m) := by
    rw [exec_messageArrival]
    simp only [execMessageArrival, event, h1, h2, Bool.false_eq_true, if_false]
  refine ⟨fun hr hh => ?_, fun hr hh hi => ?_, fun launch linear hr => ⟨fun hg => ?_, fun hg hc hl => ?_, fun hg hc hl => ?_, fun ctx hg hc hn hh => ?_⟩⟩
  · rw [he]
    refine ⟨_, rfl, ?_⟩
    simp only [State.arrive, hp, hr, Option.isSome_none, Bool.false_eq_true, if_false]
    obtain ⟨d1, d2, d3, -⟩ := delivered s { s with net := s.net.eraseIdx n } m m.target rfl hh
    exact ⟨d1, d2, d3⟩
  · rw [he]
    simp only [State.arrive, hp, hr, Option.isSome_none, Bool.false_eq_true, if_false, State.deliverMsg, hh, if_true]
    have : (State.hart { s with net := s.net.eraseIdx n } (.strand m.target)).run = .idle := hi
    rw [if_pos this]
    simp only [State.dropMsg, hr]; rfl
  · rw [he]
    have hg' : State.crewGone { s with net := s.net.eraseIdx n } launch linear = true := hg
    simp only [State.arrive, hp, hr, Option.isSome_none, Bool.false_eq_true, if_false, hg', if_true]
    simp only [State.dropMsg, hr]; rfl
  · rw [he]
    have hg' : State.crewGone { s with net := s.net.eraseIdx n } launch linear = false := hg
    have hc' : State.rankCtx { s with net := s.net.eraseIdx n } launch linear m.target = none := hc
    rw [hr] at hl
    simp only [State.arrive, hp, hr, Option.isSome_none, Bool.false_eq_true, if_false, hg', hc', if_neg (Nat.not_le.2 hl)]
  · rw [he]
    have hg' : State.crewGone { s with net := s.net.eraseIdx n } launch linear = false := hg
    have hc' : State.rankCtx { s with net := s.net.eraseIdx n } launch linear m.target = none := hc
    rw [hr] at hl
    simp only [State.arrive, hp, hr, Option.isSome_none, Bool.false_eq_true, if_false, hg', hc', if_pos hl]
    simp only [State.dropMsg, hr]; rfl
  · rw [he]
    have hg' : State.crewGone { s with net := s.net.eraseIdx n } launch linear = false := hg
    have hc' : State.rankCtx { s with net := s.net.eraseIdx n } launch linear m.target = some ctx := hc
    refine ⟨_, rfl, ?_⟩
    rw [hr] at hn
    simp only [State.arrive, hp, hr, Option.isSome_none, Bool.false_eq_true, if_false, hg', hc', List.any_filter, hn]
    obtain ⟨d1, d2, d3, -⟩ := delivered s { s with net := s.net.eraseIdx n } m ctx rfl hh
    exact ⟨d1, d2, d3⟩

theorem ev_heldMessage (s : State) (crew : Nat) (c : Crew) (m : Msg) (ctx : Nat)
    (h1 : (s.cluster (crew / 8)).crews.find (crew % 8) = some c)
    (h2 : (s.heldMsgs.find? fun m => m.rank == some (c.launch, c.linear) && c.started.contains m.target) = some m)
    (h3 : c.ctxs[m.target]? = some ctx) (h4 : m.handler = none ∨ (s.hart (.strand ctx)).run ≠ .idle) :
    ∃ t, exec (.heldMessageDelivery crew) s = .next t ∧ t.heldMsgs = s.heldMsgs.erase m ∧
      t.hart (.strand ctx) = Claim.received (s.hart (.strand ctx)) m ∧ t.mem = s.mem := by
  rw [exec_heldMessageDelivery]
  simp only [execHeldMessageDelivery, event, h1, h2, h3]
  obtain ⟨-, d2, d3, d4⟩ := delivered s { s with heldMsgs := s.heldMsgs.erase m } m ctx rfl h4
  exact ⟨_, rfl, d4, d2, d3⟩

theorem addLidx_zero (c : Cont) : c.addLidx 0 = c := by
  have : c.code ||| BitVec.ofNat 64 ((c.lidx + 0) % 65536 * 2 ^ 48) = c.w0 := by
    apply BitVec.eq_of_getLsbD_eq
    intro i hi
    have hm : (0xFFFFFFFFFFFF#64) = BitVec.ofNat 64 (2 ^ 48 - 1) := rfl
    have hl : c.lidx < 65536 := (c.w0.extractLsb' 48 16).isLt
    rw [Nat.add_zero, Nat.mod_eq_of_lt hl]
    simp only [Cont.code, BitVec.getLsbD_or, BitVec.getLsbD_and, hm, BitVec.getLsbD_ofNat, Nat.testBit_two_pow_sub_one,
      Nat.testBit_mul_two_pow, hi, decide_true, Bool.true_and]
    by_cases h : i < 48
    · have h2 : ¬ 48 ≤ i := by omega
      simp [h, h2]
    · have h2 : 48 ≤ i := by omega
      have h3 : c.lidx.testBit (i - 48) = c.w0.getLsbD i := by
        show (c.w0.extractLsb' 48 16).getLsbD (i - 48) = _
        rw [BitVec.getLsbD_extractLsb']
        have : 48 + (i - 48) = i := by omega
        have h4 : i - 48 < 16 := by omega
        simp [this, h4]
      simp [h, h2, h3]
  show ({ c with w0 := _ } : Cont) = c
  rw [this]

theorem hart_poke (s : State) (a : Nat) (l : List Byte) (h : HartId) : (s.poke a l).hart h = s.hart h := by cases h <;> rfl

theorem get_set_ne (x : Vector Dword 32) (i : Nat) (v : Dword) (j : Nat) (h : j ≠ i) : (x.set! i v)[j]! = x[j]! := by
  rw [getElem!_def, getElem!_def, Vector.getElem?_set!_ne (Ne.symm h)]

theorem get_set_eq (x : Vector Dword 32) (i : Nat) (v : Dword) (h : i < 32) : (x.set! i v)[i]! = v := by
  simp [h]

/-- The eight registers that a handler start writes. -/
theorem started_x (r : Hart) (k : Nat) (m : Msg) (a b c d e : Dword) :
    (r.startHandler k m [a, b, c, d, e]).x = (((((((r.x.set! 10 (handlerBuffer k)).set! 11 m.sender).set! 12 m.dest).set! 13 a).set! 14 b).set! 15 c).set! 16 d).set! 17 e := rfl

theorem started_rx (r : Hart) (k : Nat) (m : Msg) (a b c d e : Dword) :
    let u := r.startHandler k m [a, b, c, d, e]
    u.rx 10 = handlerBuffer k ∧ u.rx 11 = m.sender ∧ u.rx 12 = m.dest ∧ ∀ j : Reg, (j.toNat < 10 ∨ 17 < j.toNat) → u.rx j = r.rx j := by
  intro u
  have hx := started_x r k m a b c d e
  have hr : ∀ j : Reg, u.rx j = if j = 0 then 0 else u.x[j.toNat]! := fun _ => rfl
  refine ⟨?_, ?_, ?_, fun j hj => ?_⟩
  · rw [hr, if_neg (by decide)]
    show (u.x)[10]! = _
    rw [hx, get_set_ne _ _ _ _ (by decide), get_set_ne _ _ _ _ (by decide), get_set_ne _ _ _ _ (by decide), get_set_ne _ _ _ _ (by decide),
      get_set_ne _ _ _ _ (by decide), get_set_ne _ _ _ _ (by decide), get_set_ne _ _ _ _ (by decide), get_set_eq _ _ _ (by decide)]
  · rw [hr, if_neg (by decide)]
    show (u.x)[11]! = _
    rw [hx, get_set_ne _ _ _ _ (by decide), get_set_ne _ _ _ _ (by decide), get_set_ne _ _ _ _ (by decide), get_set_ne _ _ _ _ (by decide),
      get_set_ne _ _ _ _ (by decide), get_set_ne _ _ _ _ (by decide), get_set_eq _ _ _ (by decide)]
  · rw [hr, if_neg (by decide)]
    show (u.x)[12]! = _
    rw [hx, get_set_ne _ _ _ _ (by decide), get_set_ne _ _ _ _ (by decide), get_set_ne _ _ _ _ (by decide), get_set_ne _ _ _ _ (by decide),
      get_set_ne _ _ _ _ (by decide), get_set_eq _ _ _ (by decide)]
  · rw [hr]
    show (if j = 0 then 0 else (u.x)[j.toNat]!) = if j = 0 then 0 else (r.x)[j.toNat]!
    rw [hx, get_set_ne _ _ _ _ (by omega), get_set_ne _ _ _ _ (by omega), get_set_ne _ _ _ _ (by omega), get_set_ne _ _ _ _ (by omega),
      get_set_ne _ _ _ _ (by omega), get_set_ne _ _ _ _ (by omega), get_set_ne _ _ _ _ (by omega), get_set_ne _ _ _ _ (by omega)]

theorem hart_freeHeld (s : State) (m : Msg) (h : HartId) : (s.freeHeld m).hart h = s.hart h := by
  simp only [State.freeHeld]; split
  · exact hart_setSendq _ _ _ _
  · rfl

theorem mem_freeHeld (s : State) (m : Msg) : (s.freeHeld m).mem = s.mem := by
  simp only [State.freeHeld]; split
  · exact (setSendq_keeps _ _ _).2.1
  · rfl

theorem started_fields (r : Hart) (k : Nat) (m : Msg) (l : List Dword) :
    let u := r.startHandler k m l
    u.handler = some {
        code := m.handler.getD []
        off := 0
        saved := (List.range 8).map fun i => r.x.toList.getD (10 + i) 0
        sender := m.sender
        dest := m.dest
        replied := false
        wasParked := match r.run with
          | .parked p => some p
          | _ => none } ∧ u.hm = true ∧ u.run = .running ∧ u.handlerQueue = r.handlerQueue.drop 1 ∧ u.pc = r.pc := by
  intro u
  exact ⟨rfl, rfl, rfl, rfl, rfl⟩

theorem handlerStart_exec (s : State) (k : Nat) (m : Msg) (rest : List Msg) (hq : (s.hart (.strand k)).handlerQueue = m :: rest)
    (hi : ¬ (s.hart (.strand k)).run = .idle) (hc : ¬((s.hart (.strand k)).handler.isSome = true ∨ (s.hart (.strand k)).tn = true ∨ (s.hart (.strand k)).run = .stopped)) :
    ∃ a b c d e n, exec (.handlerStart k) s = .next (((({ s with free := n } : State).setHart (.strand k)
      ((s.hart (.strand k)).startHandler k m [a, b, c, d, e])).freeHeld m).poke (hbufKey k 0) m.payload) := by
  obtain ⟨a, b, c, d, e, n, hf⟩ : ∃ a b c d e n, freeFive s = .ok [a, b, c, d, e] { s with free := n } := ⟨_, _, _, _, _, _, rfl⟩
  refine ⟨a, b, c, d, e, n, ?_⟩
  rw [exec_handlerStart]
  simp only [execHandlerStart, event, hq, hi, if_false, hc, runM, bind_run, hf, modify_run]

theorem ev_handlerStart (s : State) (k : Nat) (m : Msg) (rest : List Msg) (hq : (s.hart (.strand k)).handlerQueue = m :: rest) :
    let r := s.hart (.strand k)
    (r.run = .idle → exec (.handlerStart k) s = .next (((s.setHart (.strand k) { r with handlerQueue := rest }).freeHeld m).logError 0 0 10 255
      (k / 512 % 128) 0 0 0 ((m.rank.map (·.2)).getD 0xFFFFFFFF))) ∧
    (MemoryOk s → r.run ≠ .idle → r.run ≠ .stopped → r.handler = none → r.tn = false →
      ∃ t, exec (.handlerStart k) s = .next t ∧
        let u := t.hart (.strand k)
        u.handler = some {
          code := m.handler.getD []
          off := 0
          saved := (List.range 8).map fun i => r.x.toList.getD (10 + i) 0
          sender := m.sender
          dest := m.dest
          replied := false
          wasParked := match r.run with
            | .parked p => some p
            | _ => none } ∧
        u.hm = true ∧ u.run = .running ∧ u.handlerQueue = rest ∧ u.pc = r.pc ∧ u.rx 10 = handlerBuffer k ∧ u.rx 11 = m.sender ∧
        u.rx 12 = m.dest ∧ (∀ j : Reg, (j.toNat < 10 ∨ 17 < j.toNat) → u.rx j = r.rx j) ∧
        t.peek (hbufKey k 0) m.payload.length = m.payload ∧ Claim.OthersKept s t (hbufKey k 0) m.payload.length) := by
  intro r
  have hq' : r.handlerQueue = m :: rest := hq
  refine ⟨fun hi => ?_, fun hm hi hs hh ht => ?_⟩
  · rw [exec_handlerStart]
    have hr : r = s.hart (.strand k) := rfl
    simp only [execHandlerStart, event, ← hr, hq', hi, if_true, State.dropMsg]
    rfl
  · have hc : ¬(r.handler.isSome = true ∨ r.tn = true ∨ r.run = .stopped) := by simp [hh, ht, hs]
    obtain ⟨a, b, c, d, e, n, hexec⟩ := handlerStart_exec s k m rest hq hi hc
    have hr : r = s.hart (.strand k) := rfl
    clear_value r
    obtain ⟨r', hr'⟩ : ∃ r', r' = r.startHandler k m [a, b, c, d, e] := ⟨_, rfl⟩
    have hx := started_rx r k m a b c d e
    have hf := started_fields r k m [a, b, c, d, e]
    simp only [← hr'] at hf
    obtain ⟨hh1, hh2, hh3, hq2, hh4⟩ := hf
    rw [hq'] at hq2
    rw [← hr, ← hr'] at hexec
    simp only [← hr'] at hx
    clear hr'
    refine ⟨_, hexec, ?_⟩
    have hu : (((({ s with free := n } : State).setHart (.strand k) r').freeHeld m).poke (hbufKey k 0) m.payload).hart (.strand k) = r' := by
      rw [hart_poke, hart_freeHeld]; simp
    have hp := poke_reads (s := s) (u := (({ s with free := n } : State).setHart (.strand k) r').freeHeld m) (by rw [mem_freeHeld]; rfl) hm (hbufKey k 0) m.payload
    rw [hu]
    exact ⟨hh1, hh2, hh3, hq2, hh4, hx.1, hx.2.1, hx.2.2.1, hx.2.2.2, hp.1, hp.2⟩

theorem ev_stqTarget (s : State) (n : Nat) (o : StqOp) (ho : s.stqs[n]? = some o) :
    let t : State := { s with stqs := s.stqs.eraseIdx n }
    let w : Origin := { cluster := o.cluster, crew := o.crew, launch := o.launch, dcrew := o.dcrew, dptb := o.dptb }
    let q := w.queued t o.cont
    (∀ u, stqWork o t = .ok () u → exec (.stqTarget n) s = .next u) ∧
    (∀ e, Claim.Reaches t o.acc .store (BitVec.ofNat 64 o.target) o.payload.length e → MemoryOk s → s.quantum = [] → o.cont.join = 0 →
      s.canStart q.c = true → (o.cont.kind = 1 ∨ t.queueRoom (t.contCluster o.cluster q.c) o.cont.cls 1 = true) →
      let pa := (trOf e.pte e.size (o.target % 2 ^ 64 % 2 ^ 48)).pa
      ∃ u, exec (.stqTarget n) s = .next ((u.pushCont o.cluster q).stqSignal o) ∧ u.peek pa o.payload.length = o.payload ∧
        Claim.OthersKept s u pa o.payload.length ∧ MemoryOk u) ∧
    (∀ x u, resolve o.acc (BitVec.ofNat 64 o.target) o.payload.length .store t = .error (.exc x) u →
      exec (.stqTarget n) s = .next (u.recordDeferred o x)) := by
  intro t w q
  refine ⟨fun u hu => ?_, fun e hr hm hq hj hc hroom => ?_, fun x u hu => ?_⟩
  · rw [exec_stqTarget]
    simp only [execStqTarget, event, ho]
    rw [hu]
  · intro pa
    have hres := resolve_reaches hr
    have htn : (BitVec.ofNat 64 o.target).toNat = o.target % 2 ^ 64 := BitVec.toNat_ofNat _ _
    rw [htn] at hres
    -- the writes of vwrite, as they stand in the work
    obtain ⟨u, hv, hmem, hmoved⟩ : ∃ u, (gateSegs o.acc true [{ loc := .mem pa false, len := o.payload.length }] >>= fun _ =>
        writeSegs o.acc true [{ loc := .mem pa false, len := o.payload.length }] o.payload) t = .ok () u ∧
        u.mem = Memory.write s.mem pa o.payload ∧
        (u.quantum = [] ∧ u.clusters = s.clusters ∧ u.launches = s.launches ∧ u.clk = s.clk) := by
      obtain ⟨-, -, -, -, -, -, -, -, -, -, hho, hqq⟩ := hr
      rw [htn] at hho hqq
      have hg := gate_quiet t o.acc pa true hho hqq
      have hmv : Moved (t.dropResvs o.acc.cluster o.acc.hart fun r => decide (r.line = pa / 256 ∨ r.granule = t.granuleOf (pa / 256)))
        ((t.dropResvs o.acc.cluster o.acc.hart fun r => decide (r.line = pa / 256 ∨ r.granule = t.granuleOf (pa / 256))).tokenWrite o.acc.cluster (pa / 256)) := moved_tokenWrite _ _ _
      refine ⟨((t.dropResvs o.acc.cluster o.acc.hart fun r => decide (r.line = pa / 256 ∨ r.granule = t.granuleOf (pa / 256))).tokenWrite o.acc.cluster (pa / 256)).poke pa o.payload, ?_, ?_, ?_, ?_, ?_, ?_⟩
      · simp only [bind_run, gateSegs, hg, pure_run, writeSegs, writeSeg, writeMem, modify_run, List.take_length, Bool.false_eq_true, if_false]
      · show Memory.write (State.mem (State.tokenWrite _ _ _)) pa _ = _
        rw [hmv.mem]; rfl
      · show (State.tokenWrite _ _ _).quantum = _
        rw [hmv.quantum]; exact hq
      · show (State.tokenWrite _ _ _).clusters = _
        rw [hmv.rest]; rfl
      · show (State.tokenWrite _ _ _).launches = _
        rw [hmv.rest]; rfl
      · show (State.tokenWrite _ _ _).clk = _
        rw [hmv.rest]; rfl
    obtain ⟨hq', hcl, hla, hck⟩ := hmoved
    have hqe : w.queued u o.cont = q := by simp only [q, Origin.queued, hck]; rfl
    have hcs : u.canStart (w.queued u o.cont).c = true := by
      rw [hqe, ← hc]
      apply canStart_congr _ hla _ _ rfl
      intro r; simp only [State.crewOf, State.cluster, hcl]
    have hsp : spawnM o.acc w o.cont 1 u = .ok () (u.pushCont o.cluster q) := by
      simp only [spawnM]
      rw [if_neg (by simp [hj])]
      simp only [bind_run, pure_run, modify_run, releaseUnit_empty _ _ _ hq']
      have h1 : u.canStart (w.queued u (o.cont.addLidx 0)).c = true := by
        rw [← hcs]
        apply canStart_congr (fun _ => rfl) rfl
        simp only [Origin.queued]
        cases w.crew <;> simp [Cont.stamp, Cont.addLidx]
      have h0 : o.cont.addLidx 0 = o.cont := addLidx_zero _
      have h2 : enqueue o.acc w (o.cont.addLidx 0) 64 u = .ok () (u.pushCont o.cluster q) := by
        rw [enqueue_can o.acc w (o.cont.addLidx 0) 63 u h1, h0, hqe]
      show enqueueAll o.acc w o.cont [0] u = _
      simp only [enqueueAll, bind_run, h2, pure_run]
    refine ⟨u, ?_, ?_, ?_, ?_⟩
    · have hwork : stqWork o t = .ok () ((u.pushCont o.cluster q).stqSignal o) := by
        simp only [stqWork, bind_run, hres]
        rw [if_neg (by simp [hj])]
        simp only [bind_run, pure_run, get_run]
        have hwait : ¬ ((decide (o.cont.kind ≠ 1) && t.canStart (w.queued t o.cont).c && !t.queueRoom (t.contCluster o.cluster (w.queued t o.cont).c) o.cont.cls 1) = true) := by
          rcases hroom with h | h
          · simp [h]
          · have hh : t.queueRoom (t.contCluster o.cluster (w.queued t o.cont).c) o.cont.cls 1 = true := h
            simp [hh]
        rw [ite_run, if_neg hwait]
        simp only [bind_run] at hv ⊢
        revert hv
        cases hg : gateSegs o.acc true [{ loc := .mem pa false, len := o.payload.length }] t with
        | error a b => intro hv; cases hv
        | ok a b =>
          intro hv
          have hv' : writeSegs o.acc true [{ loc := Loc.mem (trOf e.pte e.size (o.target % 2 ^ 64 % 2 ^ 48)).pa false, len := o.payload.length }] o.payload b = .ok () u := hv
          have hsp' : spawnM o.acc { cluster := o.cluster, crew := o.crew, launch := o.launch, dcrew := o.dcrew, dptb := o.dptb } o.cont 1 u = .ok () (u.pushCont o.cluster q) := hsp
          simp only [hv', modify_run, releaseUnit_empty _ _ _ hq', hsp']
      rw [exec_stqTarget]
      simp only [execStqTarget, event, ho]
      rw [hwork]
    · show Memory.read u.mem pa _ = _
      rw [hmem]; exact Memory.read_write _ _ _ hm
    · intro b hb
      rw [hmem]
      rcases hb with hb | hb
      · exact Memory.get_write_of_lt _ _ hb
      · exact Memory.get_write_of_ge _ _ hb
    · show Memory.wf u.mem = true
      rw [hmem]; exact Memory.wf_write _ _ _ hm
  · rw [exec_stqTarget]
    simp only [execStqTarget, event, ho]
    have : stqWork o t = .error (.exc x) u := by
      simp only [stqWork, bind_run, hu]
    rw [this]

@[simp] theorem wave_setWave' (s : State) (k : Nat) (v : Wave) : (s.setWave k v).wave k = v := by simp [State.wave, State.setWave]

theorem eraseDups_one (k : Nat) : ([k] : List Nat).eraseDups = [k] := rfl

theorem ev_laneSignalLand (s : State) (k : Nat) (g : PendSignal) (hg : s.readySignal k = some g) (hq : s.quantum = []) :
    let x := s.sem (k / 128) g.sem
    x.waiters = [] → x.count + g.amount ≤ 65535 → (s.wave k).lanes ≠ 0 →
    exec (.laneSignalLand [k]) s = .next ((s.setWave k { s.wave k with signals := (s.wave k).signals.filter (· != g) }).setSem
      (k / 128) g.sem { x with count := x.count + g.amount }) := by
  intro x hw hc hl
  have hland : landing s [k] = [(k, g)] := by
    simp only [landing]
    rw [eraseDups_one]
    simp [hg]
  have hsum : landSum [(k, g)] (k / 128) g.sem = g.amount := by simp [landSum]
  have hn : ¬ 65535 < (s.sem (k / 128) g.sem).count + g.amount := by
    show ¬ 65535 < x.count + g.amount
    omega
  have h1 : landOne [(k, g)] s (k, g) = (s.setWave k { s.wave k with signals := (s.wave k).signals.filter (· != g) }).setSem
      (k / 128) g.sem { x with count := x.count + g.amount } := by
    simp only [landOne, hsum]
    rw [if_neg hn, releaseUnit_empty _ _ _ hq]
  have h2 : landAllOf [(k, g)] s [(k, g)] = landOne [(k, g)] s (k, g) := by
    simp only [landAllOf, hsum]
    rw [if_neg hn]
  have hsem : ((s.setWave k { s.wave k with signals := (s.wave k).signals.filter (· != g) }).setSem
      (k / 128) g.sem { x with count := x.count + g.amount }).sem (k / 128) g.sem = { x with count := x.count + g.amount } := by
    simp only [State.sem, State.setSem, cluster_setCluster]
    split
    · rename_i h
      simp only [Map.getD, Map.find_del_self, Option.getD_none]
      obtain ⟨h1, h2⟩ := h
      have : x.count = 0 ∧ g.amount = 0 := by
        have : x.count + g.amount = 0 := h1
        omega
      cases hx : x with
      | mk cnt ws =>
        rw [hx] at hw h2 this
        simp only at hw this ⊢
        rw [hw, this.1, this.2]
    · exact Map.getD_put_self _ _ _ _
  rw [exec_laneSignalLand]
  simp only [execLaneSignalLand, event, hland, h2, h1, grantAll]
  generalize hu : (s.setWave k { s.wave k with signals := (s.wave k).signals.filter (· != g) }).setSem
      (k / 128) g.sem { x with count := x.count + g.amount } = u at *
  have hwave : (u.wave k).lanes = (s.wave k).lanes := by
    rw [← hu]
    show (State.wave (State.setWave s k _) k).lanes = _
    rw [wave_setWave']
  have hgr : u.grantSem (k / 128) g.sem ((u.sem (k / 128) g.sem).waiters.length + 1) = u := by
    simp only [State.grantSem, hsem, hw]
  rw [hgr]
  have hend : runM (endWave k) u = u := by
    have hc : ((u.wave k).live && (u.wave k).uended && (u.wave k).lanes == 0 && (u.wave k).accesses.isEmpty && (u.wave k).signals.isEmpty && (u.wave k).sfx.isEmpty && !(u.wave k).trap.act) = false := by
      rw [hwave]
      have : ((s.wave k).lanes == 0) = false := by simpa using hl
      rw [this]; simp
    simp only [runM, endWave, bind_run, get_run, hc]
    rfl
  rw [hend]

theorem ev_timerCompare (s : State) (h : HartId) (h1 : (s.hart h).run = .parked .wfi) (h2 : (s.pending h &&& (s.hart h).sie).getLsbD 5 = true) :
    exec (.timerCompare h) s = .next (s.setHart h { s.hart h with run := .running }) := by
  rw [exec_timerCompare]
  simp only [execTimerCompare, event, h1, h2, beq_self_eq_true, Bool.and_self, if_true]

theorem ev_laneHandlerRun (s : State) (k : Nat) (off : Dword) (h1 : (s.wave k).live = true) (h2 : (s.wave k).lhandler = none)
    (h3 : (s.wave k).hart.priv = .s) (h4 : off.toNat % 12 = 0) :
    ∃ t, exec (.laneHandlerRun k off) s = .next t ∧ (t.wave k).hart = { (s.wave k).hart with run := .parked .laneHandler } ∧
      (t.wave k).lhandler = some {
        group := { mask := (s.wave k).lanes, pc := off.toNat % 2 ^ 48 }
        base := (s.wave k).trap.lvec.toNat
        regs := [] } ∧
      (t.wave k).p = (if (s.wave k).trap.act then (s.wave k).p.set! 7 (if (s.wave k).trap.src = 0 then (s.wave k).trap.failed else 0)
        else (s.wave k).p) ∧ t.mem = s.mem := by
  rw [exec_laneHandlerRun]
  simp only [execLaneHandlerRun, event, h1, h2, h3, h4, Option.isNone_none, beq_self_eq_true, decide_true, Bool.and_self, if_true,
    State.runLaneHandler]
  refine ⟨_, rfl, ?_, ?_, ?_, rfl⟩
  · rw [wave_setWave']
  · rw [wave_setWave']
  · rw [wave_setWave']
    cases (s.wave k).trap.act
    · simp
    · by_cases hs : (s.wave k).trap.src = 0 <;> simp [hs]

theorem get_clear_in (m : List Host.Cell) (lo hi a : Nat) (h1 : lo ≤ a) (h2 : a < hi) : Memory.get (Memory.clear m lo hi) a = 0 := by
  induction m with
  | nil => rfl
  | cons e t ih =>
    obtain ⟨k, b⟩ := e
    simp only [Memory.clear, List.filter_cons]
    split
    · rename_i h
      simp only [Bool.or_eq_true, decide_eq_true_eq] at h
      simp only [Memory.get]
      rw [if_neg (by omega)]
      exact ih
    · exact ih

theorem get_clear_out (m : List Host.Cell) (lo hi a : Nat) (h : a < lo ∨ hi ≤ a) : Memory.get (Memory.clear m lo hi) a = Memory.get m a := by
  induction m with
  | nil => rfl
  | cons e t ih =>
    obtain ⟨k, b⟩ := e
    simp only [Memory.clear, List.filter_cons]
    split
    · simp only [Memory.get]
      split
      · rfl
      · exact ih
    · rename_i hh
      simp only [Bool.or_eq_true, decide_eq_true_eq, not_or] at hh
      simp only [Memory.get]
      rw [if_neg (by omega)]
      exact ih

theorem sram_in (k b : Nat) (h : b < 0x20000) : sramKey k 0 ≤ sramKey k b ∧ sramKey k b < sramKey k 0x20000 := by
  simp only [sramKey]; omega

theorem ev_wectl (s : State) (e : Nat) (v : Dword) (h : e < 1024) : exec (.wectlWrite e v) s = .next (s.setWengine e { s.wengine e with
      roundRobin := v.getLsbD 0
      currentSince := s.clk }) := by
  rw [exec_wectlWrite]
  simp only [execWectlWrite, event, Nat.mod_eq_of_lt h, State.writeWectl]

theorem ev_split (s : State) (k : Nat) (v : Dword) :
    (s.splitOk k = true → v.toNat % 32 ≤ 16 → ∃ t, exec (.dlsplitWrite (.strand k) v) s = .next t ∧
      t.core (k / 8) = { s.core (k / 8) with scr := v.toNat % 32 } ∧ (∀ h, t.hart h = s.hart h) ∧
      (∀ b, b < 0x20000 → Memory.get t.mem (sramKey (k / 8) b) = 0) ∧
      ∀ a, (a < sramKey (k / 8) 0 ∨ sramKey (k / 8) 0x20000 ≤ a) → Memory.get t.mem a = Memory.get s.mem a) ∧
    (s.splitOk k = false ∨ 16 < v.toNat % 32 → exec (.dlsplitWrite (.strand k) v) s = .next s) ∧
    (s.splitOk k = true → ∃ t, exec (.dlgroupWrite (.strand k) v) s = .next t ∧
      t.core (k / 8) = { s.core (k / 8) with dlgroup := some (v.extractLsb' 0 8 ||| BitVec.ofNat 8 (2 ^ (k / 8 % 8))) } ∧
      (∀ h, t.hart h = s.hart h) ∧ (∀ b, b < 0x20000 → Memory.get t.mem (sramKey (k / 8) b) = 0)) ∧
    (s.splitOk k = false → exec (.dlgroupWrite (.strand k) v) s = .next s) := by
  refine ⟨fun h1 h2 => ?_, fun h => ?_, fun h1 => ?_, fun h => ?_⟩
  · rw [exec_dlsplitWrite]
    simp only [execDlsplitWrite, event, State.writeDlsplit, h1, h2, decide_true, Bool.and_self, if_true, State.resplit]
    refine ⟨_, rfl, ?_, ?_, ?_, ?_⟩
    · exact core_setCore s (k / 8) _
    · intro h; cases h <;> rfl
    · intro b hb; exact get_clear_in _ _ _ _ (sram_in _ _ hb).1 (sram_in _ _ hb).2
    · intro a ha; exact get_clear_out _ _ _ _ ha
  · rw [exec_dlsplitWrite]
    simp only [execDlsplitWrite, event, State.writeDlsplit]
    rcases h with h | h
    · simp [h]
    · rw [if_neg (by simp; intro; omega)]
  · rw [exec_dlgroupWrite]
    simp only [execDlgroupWrite, event, State.writeDlgroup, h1, if_true, State.resplit]
    refine ⟨_, rfl, ?_, ?_, ?_⟩
    · exact core_setCore s (k / 8) _
    · intro h; cases h <;> rfl
    · intro b hb; exact get_clear_in _ _ _ _ (sram_in _ _ hb).1 (sram_in _ _ hb).2
  · rw [exec_dlgroupWrite]
    simp only [execDlgroupWrite, event, State.writeDlgroup, h, Bool.false_eq_true, if_false]

theorem ev_csr (s : State) (h : HartId) (a : BitVec 12) (v : Dword) (he : HartKind.isEngine h = false) :
    ((csrLevel h a.toNat).isSome = true → a.toNat < 0xC00 → exec (.registerWrite (.csr h a) v) s = .next (s.writeCsr h a.toNat v)) ∧
    (∀ r, (a.toNat ≤ 3 → HartKind.isStrand h = true) → a.toNat ≠ 0x180 → Claim.csrWrite (s.hart h) a.toNat v = some r →
      exec (.registerWrite (.csr h a) v) s = .next (s.setHart h r)) := by
  have hA : (csrLevel h a.toNat).isSome = true → a.toNat < 0xC00 → exec (.registerWrite (.csr h a) v) s = .next (s.writeCsr h a.toNat v) := by
    intro h1 h2
    rw [exec_registerWrite]
    have h3 : ((csrLevel h a.toNat).isNone || a.toNat / 0x400 == 3) = false := by
      cases hl : csrLevel h a.toNat with
      | none => rw [hl] at h1; cases h1
      | some p =>
        have : ¬ a.toNat / 0x400 = 3 := by omega
        simp [this]
    simp only [execRegisterWrite, event, State.putCsr, h3, Bool.false_eq_true, if_false]
    cases h with
    | engine k => simp [HartKind.isEngine] at he
    | strand k => rfl
    | uniform k => rfl
  refine ⟨hA, fun r hf h180 hr => ?_⟩
  have key : (csrLevel h a.toNat).isSome = true ∧ a.toNat < 0xC00 ∧ s.writeCsr h a.toNat v = s.setHart h r := by
    generalize ha : a.toNat = n at *
    cases h with
    | engine k => simp [HartKind.isEngine] at he
    | strand k =>
      simp only [Claim.csrWrite] at hr
      split at hr
      all_goals first | (cases hr; done) | skip
      all_goals first | exact absurd rfl h180 | skip
      all_goals (injection hr with hr; subst hr; exact ⟨rfl, by decide, rfl⟩)
    | uniform k =>
      simp only [Claim.csrWrite] at hr
      split at hr
      all_goals first | (cases hr; done) | skip
      all_goals first | exact absurd rfl h180 | skip
      all_goals first | (exact absurd (hf (by decide)) (by simp [HartKind.isStrand])) | skip
      all_goals (injection hr with hr; subst hr; exact ⟨rfl, by decide, rfl⟩)
  rw [hA key.1 key.2.1, key.2.2]

theorem ev_csrNone (s : State) (h : HartId) (a : BitVec 12) (v : Dword) (hh : csrLevel h a.toNat = none ∨ 0xC00 ≤ a.toNat) :
    exec (.registerWrite (.csr h a) v) s = .next s := by
  rw [exec_registerWrite]
  have h3 : ((csrLevel h a.toNat).isNone || a.toNat / 0x400 == 3) = true := by
    rcases hh with hh | hh
    · simp [hh]
    · have := a.isLt
      have : a.toNat / 0x400 = 3 := by omega
      simp [this]
  simp only [execRegisterWrite, event, State.putCsr, h3, if_true]

theorem paKind_dev (off : Nat) (h : off < 0x50000) : paKind (devBase + off) = .device := by
  simp only [paKind]
  rw [if_neg (by simp only [devBase]; omega), if_pos (by simp only [devBase]; omega)]

theorem ev_device (s : State) :
    (∀ v, exec (.registerWrite (.device (devBase + 0x18)) v) s = .next { s with elHead := v.toNat % 2 ^ 32 }) ∧
    (∀ q v, q < 4096 →
      exec (.wqDoorbell q v) s = .next (s.setQueue q { s.queue q with
        tail := v.toNat % 2 ^ 32
        blocked := false }) ∧
      exec (.registerWrite (.device (devBase + 0x10000 + 64 * q + 0x10)) v) s = exec (.wqDoorbell q v) s ∧
      ((s.queue q).en = false → exec (.registerWrite (.device (devBase + 0x10000 + 64 * q)) v) s =
        .next (s.setQueue q { s.queue q with base := v.toNat / 128 % 2 ^ 41 * 128 })) ∧
      ((s.queue q).en = true → exec (.registerWrite (.device (devBase + 0x10000 + 64 * q)) v) s = .next s)) ∧
    (∀ pa v, (paKind pa ≠ .device ∨ pa % 8 ≠ 0) → exec (.registerWrite (.device pa) v) s = .next s) := by
  have hd : ∀ off v, off < 0x50000 → (devBase + off) % 8 = 0 → exec (.registerWrite (.device (devBase + off)) v) s = .next (s.writeDevice (devBase + off) v) := by
    intro off v h1 h2
    rw [exec_registerWrite]
    simp only [execRegisterWrite, event, paKind_dev off h1, h2, and_self, if_true]
  have hx : ∀ (v : Dword), (v.extractLsb' 0 32).toNat = v.toNat % 2 ^ 32 := by
    intro v; simp
  refine ⟨fun v => ?_, fun q v hq => ⟨?_, ?_, fun h => ?_, fun h => ?_⟩, fun pa v h => ?_⟩
  · rw [hd 0x18 v (by decide) (by decide)]
    show Host.Outcome.next { s with elHead := (v.extractLsb' 0 32).toNat } = _
    rw [hx]
  · rw [exec_wqDoorbell]
    simp only [execWqDoorbell, event, hq, if_true, State.writeTail, hx]
  · have e : devBase + 0x10000 + 64 * q + 0x10 = devBase + (0x10000 + 64 * q + 0x10) := by omega
    rw [e, hd _ v (by omega) (by simp only [devBase]; omega), exec_wqDoorbell]
    simp only [execWqDoorbell, event, hq, if_true, State.writeDevice]
    have h1 : devBase + (0x10000 + 64 * q + 0x10) - devBase = 0x10000 + 64 * q + 0x10 := by omega
    rw [h1, if_neg (by omega), if_pos (by omega)]
    have h2 : (0x10000 + 64 * q + 0x10 - 0x10000) / 64 = q := by omega
    have h3 : (0x10000 + 64 * q + 0x10 - 0x10000) % 64 = 0x10 := by omega
    rw [h2, h3]; rfl
  · have e : devBase + 0x10000 + 64 * q = devBase + (0x10000 + 64 * q) := by omega
    rw [e, hd _ v (by omega) (by simp only [devBase]; omega)]
    simp only [State.writeDevice]
    have h1 : devBase + (0x10000 + 64 * q) - devBase = 0x10000 + 64 * q := by omega
    rw [h1, if_neg (by omega), if_pos (by omega)]
    have h2 : (0x10000 + 64 * q - 0x10000) / 64 = q := by omega
    have h3 : (0x10000 + 64 * q - 0x10000) % 64 = 0 := by omega
    rw [h2, h3]
    simp only [State.writeQueue, h, Bool.false_eq_true, if_false]
    have : (v.extractLsb' 7 41).toNat = v.toNat / 128 % 2 ^ 41 := by
      simp [Nat.shiftRight_eq_div_pow]
    rw [this]
  · have e : devBase + 0x10000 + 64 * q = devBase + (0x10000 + 64 * q) := by omega
    rw [e, hd _ v (by omega) (by simp only [devBase]; omega)]
    simp only [State.writeDevice]
    have h1 : devBase + (0x10000 + 64 * q) - devBase = 0x10000 + 64 * q := by omega
    rw [h1, if_neg (by omega), if_pos (by omega)]
    have h2 : (0x10000 + 64 * q - 0x10000) / 64 = q := by omega
    have h3 : (0x10000 + 64 * q - 0x10000) % 64 = 0 := by omega
    rw [h2, h3]
    simp only [State.writeQueue, h, if_true]
  · rw [exec_registerWrite]
    simp only [execRegisterWrite, event]
    rw [if_neg (by rintro ⟨h1, h2⟩; rcases h with h | h; (· exact h h1); exact h h2)]

theorem dstrand_low (k : Nat) (h : k < 65536) : dieOf (k / 512) < 4 ∧ (dstrandOf k).toNat = dieOf (k / 512) * 2 ^ 16 + k := by
  have hd : dieOf (k / 512) < 4 := by simp only [dieOf]; omega
  refine ⟨hd, ?_⟩
  simp only [dstrandOf, BitVec.toNat_ofNat]
  omega

theorem ev_doorbell (s : State) (k : Nat) (v : Dword) (h : k < 65536) (hv : v.toNat % 2 ^ 18 = (dstrandOf k).toNat) :
    exec (.doorbell v) s = .next (s.setHart (.strand k) { s.hart (.strand k) with ssip := true }) := by
  obtain ⟨h1, h2⟩ := dstrand_low k h
  rw [exec_doorbell]
  have hx : (v.extractLsb' 0 18).toNat = v.toNat % 2 ^ 18 := by simp
  simp only [execDoorbell, event, State.ringDoorbell, hx, hv]
  have h3 : (dstrandOf k).toNat % 2 ^ 16 = k := by omega
  rw [h3, if_pos (by simp)]

theorem ev_hostInterrupt (s : State) (v : Dword) : exec (.hostInterrupt v) s = .next (if 2 ≤ v.toNat % 16
    then { s with
      hirqElen := v.getLsbD 63
      msix := v.toNat % 16 :: s.msix }
    else { s with hirqElen := v.getLsbD 63 }) := by
  rw [exec_hostInterrupt]
  have hx : (v.extractLsb' 0 4).toNat = v.toNat % 16 := by simp
  simp only [execHostInterrupt, event, State.writeHirq, hx]

theorem abandon_strands (s : State) (h : HartId) : (s.abandon h).strands = s.strands ∧ (s.abandon h).mem = s.mem := by
  simp only [State.abandon, State.leaveQueues]; split <;> exact ⟨rfl, rfl⟩

theorem coreReset_x (r : Hart) : r.coreReset.x = r.x := rfl

theorem coreReset_after (r : Hart) : Claim.AfterCoreReset r.coreReset :=
  ⟨rfl, rfl, rfl, rfl, rfl, rfl, rfl, rfl, rfl, rfl, rfl, rfl, rfl, rfl, rfl, rfl, rfl, rfl, rfl⟩

theorem resetContexts_spec (ks : List Nat) (hn : ks.Nodup) (s : State) : (s.resetContexts ks).mem = s.mem ∧
    ∀ k, (s.resetContexts ks).hart (.strand k) = if k ∈ ks then (s.hart (.strand k)).coreReset else s.hart (.strand k) := by
  induction ks generalizing s with
  | nil => exact ⟨rfl, fun k => by simp [State.resetContexts]⟩
  | cons j t ih =>
    obtain ⟨hj, hn⟩ := List.nodup_cons.1 hn
    simp only [State.resetContexts]
    obtain ⟨h1, h2⟩ := ih hn ((s.abandon (.strand j)).setHart (.strand j) (s.hart (.strand j)).coreReset)
    refine ⟨?_, fun k => ?_⟩
    · rw [h1]; exact (abandon_strands s _).2
    · rw [h2]
      have he : (((s.abandon (.strand j)).setHart (.strand j) (s.hart (.strand j)).coreReset).hart (.strand k)) = if k = j then (s.hart (.strand j)).coreReset else s.hart (.strand k) := by
        by_cases h : k = j
        · subst h; simp
        · rw [if_neg h]
          simp only [State.hart, State.setHart, (abandon_strands s (.strand j)).1]
          exact Map.getD_put_ne _ _ _ h
      rw [he]
      by_cases h : k = j
      · subst h; rw [if_neg hj]; simp
      · simp [h]

theorem eight_nodup (core : Nat) : ((List.range 8).map fun i => core * 8 + i).Nodup := by
  have : List.range 8 = [0, 1, 2, 3, 4, 5, 6, 7] := rfl
  rw [this]; simp

theorem clk_resetContexts (ks : List Nat) : ∀ s : State, (s.resetContexts ks).clk = s.clk := by
  induction ks with
  | nil => intro s; rfl
  | cons j t ih =>
    intro s
    simp only [State.resetContexts]
    rw [ih]
    show (s.abandon (.strand j)).clk = s.clk
    simp only [State.abandon, State.leaveQueues]; split <;> rfl

theorem ev_coreReset (s : State) (core : Nat) (h : core < 8192) : ∃ t, exec (.coreReset core) s = .next t ∧ t.mem = s.mem ∧
    (∀ i, i < 8 → Claim.AfterCoreReset (t.hart (.strand (core * 8 + i))) ∧
      (t.hart (.strand (core * 8 + i))).x = (s.hart (.strand (core * 8 + i))).x) ∧
    (t.core core).scr = 8 ∧ (t.core core).dlgroup = none ∧ (t.core core).since = s.clk := by
  have hx : exec (.coreReset core) s = .next ((s.resetContexts ((List.range 8).map fun i => core * 8 + i)).setCore core
      { (s.resetContexts ((List.range 8).map fun i => core * 8 + i)).core core with
        scr := 8
        dlgroup := none
        since := (s.resetContexts ((List.range 8).map fun i => core * 8 + i)).clk }) := by
    rw [exec_coreReset]
    simp only [execCoreReset, event, Nat.mod_eq_of_lt h]
  have hm : ∀ i, i < 8 → core * 8 + i ∈ ((List.range 8).map fun i => core * 8 + i) :=
    fun i hi => List.mem_map.2 ⟨i, by simpa using hi, rfl⟩
  have h1 := (resetContexts_spec _ (eight_nodup core) s).1
  have h2 := (resetContexts_spec _ (eight_nodup core) s).2
  have h3 := clk_resetContexts ((List.range 8).map fun i => core * 8 + i) s
  have h4 : ∀ i, i < 8 → (s.resetContexts ((List.range 8).map fun i => core * 8 + i)).hart (.strand (core * 8 + i)) = (s.hart (.strand (core * 8 + i))).coreReset :=
    fun i hi => by rw [h2, if_pos (hm i hi)]
  generalize s.resetContexts ((List.range 8).map fun i => core * 8 + i) = u at hx h1 h3 h4
  clear h2 hm
  refine ⟨_, hx, h1, fun i hi => ?_, ?_⟩
  · have e : ∀ c, (u.setCore core c).hart (.strand (core * 8 + i)) = (s.hart (.strand (core * 8 + i))).coreReset := fun c => h4 i hi
    rw [e]
    exact ⟨coreReset_after _, coreReset_x _⟩
  · rw [core_setCore]
    exact ⟨rfl, rfl, h3⟩

end Sys2Proof.Machine
end

