-- ==== Sys2Proof/Laws/Launches.lean ====
section
/-! SUPPORT. Launches, crews and their units (R119 to R140, R230 to R247, R404 to R411, R430 to R432). -/

namespace Sys2Proof.Machine

open Sys2Proof.Claim

set_option Elab.async false

@[simp] theorem queue_setQueue (s : State) (q : Nat) (v : WorkQueue) : (s.setQueue q v).queue q = v := by simp [State.queue, State.setQueue]

theorem launchOf_taken (s : State) (q n addr k : Nat) (r : LaunchRec) : (recordTaken s q k).launchOf q n addr r = s.launchOf q n addr r := by
  have h1 : (recordTaken s q k).images = s.images := rfl
  have h2 : ((recordTaken s q k).queue q).cls = (s.queue q).cls := by simp [recordTaken]
  simp only [State.launchOf, h1, h2]

theorem take_run (s : State) (q n addr : Nat) (h : RecordReady s q n addr) :
    exec (.launchRecordTake q) s = .next (match s.launchOf q n addr (s.peek addr 128) with
      | none => (recordTaken s q n).refuseRecord q n addr
      | some l => s.acceptLaunch (recordTaken s q n) q n addr l) := by
  obtain ⟨h1, h2, h3, h4, h5, h6, h7, rfl, rfl, h10, h11, h12, h13⟩ := h
  rw [exec_launchRecordTake]
  simp only [execLaunchRecordTake, event]
  rw [if_neg (by simp [h2, h3, h4, h1]), if_neg (by omega), if_neg (by omega)]
  have ha : s.askHost ((s.queue q).base + 128 * ((s.queue q).taken % 2 ^ (s.queue q).logn)) = none := by
    simp only [State.askHost, h10]; rfl
  simp only [ha]
  have hp : ((s.setQueue q { s.queue q with taken := ((s.queue q).taken + 1) % 2 ^ 32 }).poisoned ((s.queue q).base + 128 * ((s.queue q).taken % 2 ^ (s.queue q).logn)) 128) = false := h12
  have hk : (paKind ((s.queue q).base + 128 * ((s.queue q).taken % 2 ^ (s.queue q).logn)) == .dram || paKind ((s.queue q).base + 128 * ((s.queue q).taken % 2 ^ (s.queue q).logn)) == .host) = true := by
    rcases h11 with e | e <;> simp [e]
  rw [if_neg (by rw [hp, hk]; simpa using h13)]
  have hl := launchOf_taken s q (s.queue q).taken ((s.queue q).base + 128 * ((s.queue q).taken % 2 ^ (s.queue q).logn)) (s.queue q).taken
    (s.peek ((s.queue q).base + 128 * ((s.queue q).taken % 2 ^ (s.queue q).logn)) 128)
  have hd : (recordTaken s q (s.queue q).taken).peek ((s.queue q).base + 128 * ((s.queue q).taken % 2 ^ (s.queue q).logn)) 128 =
    s.peek ((s.queue q).base + 128 * ((s.queue q).taken % 2 ^ (s.queue q).logn)) 128 := rfl
  rw [← hl, ← hd]
  rfl

theorem ev_take (s : State) (q n addr : Nat) (h : RecordReady s q n addr) :
    (∀ l, s.launchOf q n addr (s.peek addr 128) = some l →
      (l.join = 0 → ∃ t : State, exec (.launchRecordTake q) s = .next t ∧ (t.queue q).taken = (n + 1) % 2 ^ 32 ∧
        (t.queue q).current = some s.nextLaunch ∧ t.launches.find s.nextLaunch = some l ∧ t.mem = s.mem) ∧
      (∀ old u, l.join ≠ 0 →
        vrmw (recordTaken s q n).accFrontEnd l.join 8 (fun v => some ((v + l.total) % 2 ^ 64)) (recordTaken s q n) = .ok old u →
        ∃ t : State, exec (.launchRecordTake q) s = .next t ∧ (t.queue q).current = some u.nextLaunch ∧
          t.launches.find u.nextLaunch = some l ∧ t.mem = u.mem)) ∧
    (s.launchOf q n addr (s.peek addr 128) = none →
      exec (.launchRecordTake q) s = .next ((recordTaken s q n).refuseRecord q n addr)) := by
  rw [take_run s q n addr h]
  refine ⟨fun l hl => ⟨fun hj => ?_, fun old u hj hv => ?_⟩, fun hl => ?_⟩
  · refine ⟨_, rfl, ?_⟩
    simp only [hl, State.acceptLaunch, bind_run, ite_run, hj, ne_eq, not_true, if_false, pure_run, modify_run]
    refine ⟨?_, ?_, ?_, ?_⟩
    · rw [queue_setQueue]
      show ((recordTaken s q n).queue q).taken = _
      simp [recordTaken]
    · rw [queue_setQueue]; rfl
    · exact Map.find_put_self _ _ _
    · rfl
  · refine ⟨_, rfl, ?_⟩
    simp only [hl, State.acceptLaunch, bind_run, ite_run, hj, ne_eq, not_false_iff, if_true, pure_run, modify_run, get_run, hv]
    refine ⟨?_, ?_, ?_⟩
    · rw [queue_setQueue]
    · exact Map.find_put_self _ _ _
    · rfl
  · simp only [hl]

theorem ev_badTail (s : State) (q : Nat) (h1 : q < 4096) (h2 : (s.queue q).en = true) (h3 : (s.queue q).blocked = false) (h4 : (s.queue q).current = none)
    (h5 : 2 ^ (s.queue q).logn < ((s.queue q).tail + 2 ^ 32 - (s.queue q).head) % 2 ^ 32) :
    exec (.launchRecordTake q) s = .next (s.setQueue q { s.queue q with
      badTail := true
      blocked := true }) := by
  rw [exec_launchRecordTake]
  simp only [execLaunchRecordTake, event]
  rw [if_neg (by simp [h2, h3, h4, h1]), if_pos h5]

theorem newTurn_is {s t : State} {cls q : Nat} (h : s.newTurn cls = some (q, t)) : t = { s with fe := t.fe } := by
  simp only [State.newTurn] at h
  obtain ⟨a, -, ha⟩ := Option.map_eq_some_iff.1 h
  cases ha; rfl

theorem choose_is {s t : State} {q : Nat} (h : s.chooseQueue = some (q, t)) : t = { s with fe := t.fe } := by
  simp only [State.chooseQueue] at h
  split at h
  · split at h
    · cases h; rfl
    · obtain ⟨⟨a, u⟩, ha, hb⟩ := Option.map_eq_some_iff.1 h
      have hn : u = _ := newTurn_is ha
      generalize u.fe = f at hn
      subst hn; cases hb; rfl
  · split at h
    · cases h; rfl
    · split at h
      · obtain ⟨⟨a, u⟩, ha, hb⟩ := Option.map_eq_some_iff.1 h
        have hn : u = _ := newTurn_is ha
        generalize u.fe = f at hn
        subst hn; cases hb; rfl
      · cases h

theorem ev_expand (s : State) (q : Nat) (t : State) (n : Nat) (l : Launch) (h1 : s.chooseQueue = some (q, t)) (h2 : s.queueWork q = some (n, l)) :
    let r : CrewReq := { launch := n, linear := l.again.headD l.next, since := s.clk }
    ∃ u : State, exec .crewExpand s = .next u ∧
      (u.cluster (s.placeCrew l)).adm.getD l.cls [] = (s.cluster (s.placeCrew l)).adm.getD l.cls [] ++ [r] ∧
      ∃ m, u.launches.find n = some m ∧ (l.again = [] → m = { l with next := l.next + 1, alive := l.alive + 1 }) ∧
        (l.again ≠ [] → m = { l with again := l.again.drop 1 }) := by
  intro r
  have ht := choose_is h1
  generalize t.fe = f at ht
  have hp : t.placeCrew l = s.placeCrew l := by rw [ht]; rfl
  have hc : t.clusters = s.clusters := by rw [ht]
  have hk : t.clk = s.clk := by rw [ht]
  rw [exec_crewExpand]
  simp only [execCrewExpand, event, h1, h2]
  refine ⟨_, rfl, ?_⟩
  simp only [State.expand, hp]
  cases ha : l.again with
  | cons k rest =>
    refine ⟨?_, ?_⟩
    · simp only [State.pushReq, State.cluster_setCluster, Map.getD_put_self]
      have : (t.setLaunch n { l with again := rest }).cluster (s.placeCrew l) = s.cluster (s.placeCrew l) := by simp only [State.cluster]; rw [show (t.setLaunch n { l with again := rest }).clusters = t.clusters from rfl, hc]
      rw [this]
      simp only [r, ha, hk]; rfl
    · exact ⟨_, Map.find_put_self _ _ _, by simp, by simp⟩
  | nil =>
    have hu : ∀ u : State, u.clusters = s.clusters → u.clk = s.clk → (((u.pushReq (s.placeCrew l) l.cls { launch := n, linear := l.next, since := u.clk }).cluster (s.placeCrew l)).adm.getD l.cls [] = (s.cluster (s.placeCrew l)).adm.getD l.cls [] ++ [r]) := by
      intro u e1 e2
      simp only [State.pushReq, State.cluster_setCluster, Map.getD_put_self]
      rw [show u.cluster (s.placeCrew l) = s.cluster (s.placeCrew l) by simp only [State.cluster, e1], e2]
      simp only [r, ha]; rfl
    simp only []
    split
    · exact ⟨hu _ (by rw [← hc]; rfl) hk, _, Map.find_put_self _ _ _, fun _ => rfl, by simp⟩
    · exact ⟨hu _ (by rw [← hc]; rfl) hk, _, Map.find_put_self _ _ _, fun _ => rfl, by simp⟩

theorem ev_ageLimit (s : State) (c k : Nat) (h1 : s.agedHead c = some k) (h2 : s.blockingHead c = some k) :
    exec (.admissionAgeLimit c) s = .next (s.setCluster c { s.cluster c with blocking := some k }) := by
  rw [exec_admissionAgeLimit]
  simp only [execAdmissionAgeLimit, event, h1, h2]
  rfl

/-- Two states that differ in memory and poison only. -/
theorem zeroUnits_is (l : List Nat) (s : State) (e : Nat) : s.zeroUnits e l = { s with mem := (s.zeroUnits e l).mem, poison := (s.zeroUnits e l).poison } := by
  induction l generalizing s with
  | nil => rfl
  | cons u t ih =>
    simp only [State.zeroUnits]
    rw [ih]; rfl

theorem zeroShares_is (l : List Nat) (s : State) (c k : Nat) : s.zeroShares c k l = { s with mem := (s.zeroShares c k l).mem, poison := (s.zeroShares c k l).poison } := by
  induction l generalizing s with
  | nil => rfl
  | cons u t ih =>
    simp only [State.zeroShares]
    rw [ih]; rfl

theorem zeroUnits_keeps (l : List Nat) (s : State) (e a : Nat) (h : Memory.get s.mem a = 0) : Memory.get (s.zeroUnits e l).mem a = 0 := by
  induction l generalizing s with
  | nil => exact h
  | cons u t ih =>
    simp only [State.zeroUnits]
    apply ih
    simp only [State.zero]
    by_cases h1 : poolKey e (u * 16384) ≤ a ∧ a < poolKey e (u * 16384 + 16384)
    · exact get_clear_in _ _ _ _ h1.1 h1.2
    · rw [get_clear_out _ _ _ _ (by omega)]; exact h

theorem zeroUnits_clears (l : List Nat) (s : State) (e u b : Nat) (hu : u ∈ l) (hb : b < 16384) :
    Memory.get (s.zeroUnits e l).mem (poolKey e (u * 16384 + b)) = 0 := by
  induction l generalizing s with
  | nil => cases hu
  | cons v t ih =>
    simp only [State.zeroUnits]
    rcases List.mem_cons.1 hu with rfl | h
    · apply zeroUnits_keeps
      exact get_clear_in _ _ _ _ (by simp only [poolKey]; omega) (by simp only [poolKey]; omega)
    · exact ih _ h

theorem find_filter_not {α : Type} (m : Map α) (p : Nat × α → Bool) (k : Nat) (h : ∀ v, p (k, v) = false) : Map.find (m.filter p) k = none := by
  induction m with
  | nil => rfl
  | cons e t ih =>
    obtain ⟨j, v⟩ := e
    simp only [List.filter_cons]
    split
    · rename_i hp
      simp only [Map.find]
      split
      · rename_i hj; subst hj; rw [h v] at hp; cases hp
      · exact ih
    · exact ih

theorem ev_admit (s : State) (c cls : Nat) (r : CrewReq) (l : Launch) (f : Fit) (h1 : ∀ k, k < cls → s.admissible c k = none)
    (h2 : s.admissible c cls = some (r, l, f)) (h3 : s.shapesPoisoned l = false) :
    let gen := ((s.cluster c).gens.getD f.slot 0 + 1) % 256
    (r.save = none → ∃ (t : State) (store : Map Byte), exec (.crewAdmit c cls) s = .next t ∧
      (t.cluster c).crews.find f.slot = some { l.crew r.launch gen c r f with store := store } ∧
      (t.cluster c).adm.getD cls [] = ((s.cluster c).adm.getD cls []).drop 1 ∧ (t.cluster c).gens.getD f.slot 0 = gen ∧
      (∀ i, i < 256 → t.sem c (256 * f.window + i) = {}) ∧
      ∀ u ∈ (l.crew r.launch gen c r f).scrUnits ++ (l.crew r.launch gen c r f).accUnits, ∀ b, b < 16384 →
        Memory.get t.mem (poolKey (c * 8 + f.engine) (u * 16384 + b)) = 0) ∧
    (∀ area x, r.save = some area → s.saved.find area = some x →
      exec (.crewAdmit c cls) s = .next ((s.popReq c cls).restore c r l f area x)) := by
  intro gen
  have hx : exec (.crewAdmit c cls) s = .next (match r.save with
      | none => (s.popReq c cls).admitCrew c r l f
      | some area =>
        match s.saved.find area with
        | some x => (s.popReq c cls).restore c r l f area x
        | none => s.popReq c cls) := by
    rw [exec_crewAdmit]
    simp only [execCrewAdmit, event]
    have e1 : ((List.range cls).any fun k => (s.admissible c k).isSome) = false := by
      rw [List.any_eq_false]; intro k hk
      rw [h1 k (List.mem_range.1 hk)]; simp
    have e2 : (s.popReq c cls).shapesPoisoned l = false := h3
    rw [e1, if_neg (by decide)]
    simp only [h2, e2, Bool.false_eq_true, if_false]
    rfl
  rw [hx]
  refine ⟨fun hs => ?_, fun area x hs hf => ?_⟩
  · simp only [hs]
    have hg : ((s.popReq c cls).cluster c).gens = (s.cluster c).gens := by simp [State.popReq]
    refine ⟨_, (s.popReq c cls).shapeStore l c f.slot (l.crew r.launch gen c r f), rfl, ?_⟩
    simp only [State.admitCrew, hg]
    rw [show ((s.cluster c).gens.getD f.slot 0 + 1) % 256 = gen from rfl]
    generalize hX : ({ l.crew r.launch gen c r f with store := (s.popReq c cls).shapeStore l c f.slot (l.crew r.launch gen c r f) } : Crew) = X
    have hu : (l.crew r.launch gen c r f).scrUnits = X.scrUnits ∧ (l.crew r.launch gen c r f).accUnits = X.accUnits := by rw [← hX]; exact ⟨rfl, rfl⟩
    rw [hu.1, hu.2]
    generalize hv : ((s.popReq c cls).setCluster c _) = v
    have hv1 : v.cluster c = { (s.popReq c cls).cluster c with gens := (s.cluster c).gens.put f.slot gen } := by rw [← hv, State.cluster_setCluster]
    clear hv hX
    have key : ∀ a : State, a = { (v.clearWindow c f.window).setCrew c f.slot X with mem := a.mem, poison := a.poison } →
       (a.cluster c).crews.find f.slot = some X ∧ (a.cluster c).adm.getD cls [] = ((s.cluster c).adm.getD cls []).drop 1 ∧
       (a.cluster c).gens.getD f.slot 0 = gen ∧ ∀ i, i < 256 → a.sem c (256 * f.window + i) = {} := by
      intro a ha
      have hc : a.cluster c = ((v.clearWindow c f.window).setCrew c f.slot X).cluster c := by rw [ha]; rfl
      rw [State.setCrew, State.cluster_setCluster, State.clearWindow, State.cluster_setCluster, hv1] at hc
      refine ⟨?_, ?_, ?_, fun i hi => ?_⟩
      · rw [hc]; exact Map.find_put_self _ _ _
      · rw [hc]; simp [State.popReq]
      · rw [hc]; simp
      · simp only [State.sem, hc, Map.getD]
        rw [find_filter_not]
        · rfl
        · intro w
          simp only [decide_eq_false_iff_not, Decidable.not_not]
          omega
    have ha := key (((((v.clearWindow c f.window).setCrew c f.slot X).zeroShares c f.slot (List.range 64)).zeroUnits (c * 8 + f.engine) X.scrUnits).zeroUnits (c * 8 + f.engine) X.accUnits)
      (by rw [zeroUnits_is, zeroUnits_is, zeroShares_is])
    refine ⟨ha.1, ha.2.1, ha.2.2.1, ha.2.2.2, ?_⟩
    intro u hu b hb
    rcases List.mem_append.1 hu with h | h
    · exact zeroUnits_keeps _ _ _ _ (zeroUnits_clears _ _ _ _ _ h hb)
    · exact zeroUnits_clears _ _ _ _ _ h hb
  · simp only [hs, hf]

theorem start_rx (h : Hart) (sp a0 a1 a2 a3 : Dword) (hx : h.x = startRegs sp a0 a1 a2 a3) :
    h.rx 2 = sp ∧ h.rx 10 = a0 ∧ h.rx 11 = a1 ∧ h.rx 12 = a2 ∧ ∀ j : Reg, j ≠ 2 → j ≠ 10 → j ≠ 11 → j ≠ 12 → j ≠ 13 → h.rx j = 0 := by
  refine ⟨?_, ?_, ?_, ?_, ?_⟩
  · simp only [Hart.rx, hx]; rfl
  · simp only [Hart.rx, hx]; rfl
  · simp only [Hart.rx, hx]; rfl
  · simp only [Hart.rx, hx]; rfl
  · intro j h1 h2 h3 h4 h5
    simp only [Hart.rx, hx, startRegs]
    split
    · rfl
    · have hj := j.isLt
      have n1 : j.toNat ≠ 2 := fun e => h1 (by apply BitVec.eq_of_toNat_eq; simpa using e)
      have n2 : j.toNat ≠ 10 := fun e => h2 (by apply BitVec.eq_of_toNat_eq; simpa using e)
      have n3 : j.toNat ≠ 11 := fun e => h3 (by apply BitVec.eq_of_toNat_eq; simpa using e)
      have n4 : j.toNat ≠ 12 := fun e => h4 (by apply BitVec.eq_of_toNat_eq; simpa using e)
      have n5 : j.toNat ≠ 13 := fun e => h5 (by apply BitVec.eq_of_toNat_eq; simpa using e)
      rw [getElem!_pos _ j.toNat hj]
      rw [Vector.getElem_set_ne _ _ (by omega), Vector.getElem_set_ne _ _ (by omega), Vector.getElem_set_ne _ _ (by omega),
        Vector.getElem_set_ne _ _ (by omega), Vector.getElem_set_ne _ _ (by omega), Vector.getElem_replicate]

theorem crewAt_crewOf {s : State} {crew : Nat} {ref : CrewRef} {c : Crew} (h : s.crewAt crew = some (ref, c)) : s.crewOf ref = some c := by
  simp only [State.crewAt] at h
  obtain ⟨a, ha, hb⟩ := Option.map_eq_some_iff.1 h
  cases hb
  simp [State.crewOf, ha]

theorem crewAt_find {s : State} {crew : Nat} {ref : CrewRef} {c : Crew} (h : s.crewAt crew = some (ref, c)) : (s.cluster ref.cluster).crews.find ref.slot = some c := by
  simp only [State.crewAt] at h
  obtain ⟨a, ha, hb⟩ := Option.map_eq_some_iff.1 h
  cases hb
  exact ha

theorem setCrew_find (s : State) (a b : Nat) (c : Crew) : ((s.setCrew a b c).cluster a).crews.find b = some c := by
  simp [State.setCrew, Map.find_put_self]

theorem ev_waveStart (s : State) (crew rank : Nat) (ref : CrewRef) (c : Crew) (l : Launch) (slot : Nat) (h : StartDue s crew rank ref c l)
    (hw : l.waveRole = true) (hs : c.waveSlots[rank]? = some slot) :
    let k := ref.cluster * 128 + c.engine * 16 + slot
    ∃ u : State, exec (.waveStart crew rank) s = .next (u.readBufs k) ∧
      Begun (u.wave k).hart ref (BitVec.ofNat 64 ((roleSection l.img.uniformCode l.kernel.role).va + l.kernel.entry)) 0 l.arg l.join
        (BitVec.ofNat 64 rank) ∧
      (u.wave k).live = true ∧ (u.wave k).bufDue = true ∧ (u.wave k).lanes = allLanes ∧
      (u.wave k).pri = some { mask := allLanes, pc := 0 } ∧ (u.wave k).rank = rank ∧
      (u.cluster ref.cluster).crews.find ref.slot = some { c with toStart := c.toStart - 1 } := by
  intro k
  obtain ⟨h1, h2, h3, h4, h5⟩ := h
  rw [exec_waveStart]
  simp only [execWaveStart, event, h1, h2, hs]
  rw [if_neg (by simp [hw, h3, h4, h5])]
  refine ⟨_, rfl, ?_⟩
  rw [show ref.cluster * 128 + c.engine * 16 + slot = k from rfl]
  simp only [State.startWave, wave_setWave']
  have hb := start_rx ((s.setCrew ref.cluster ref.slot { c with toStart := c.toStart - 1 }).wave k |>.hart.started (BitVec.ofNat 64 ((roleSection l.img.uniformCode l.kernel.role).va + l.kernel.entry))
    (startRegs 0 l.arg l.join (BitVec.ofNat 64 rank) (waveIdent k)) ref c.launch (c.dcrew ref.slot) true) 0 l.arg l.join (BitVec.ofNat 64 rank) (waveIdent k) rfl
  refine ⟨⟨rfl, hb.1, hb.2.1, hb.2.2.1, hb.2.2.2.1, rfl, rfl, rfl, rfl, rfl, rfl, hb.2.2.2.2⟩, ?_, ?_, ?_, ?_, ?_, ?_⟩
  all_goals first | rfl | trivial | exact setCrew_find _ _ _ _

theorem ev_strandStart (s : State) (crew rank : Nat) (ref : CrewRef) (c : Crew) (l : Launch) (k : Nat) (h : StartDue s crew rank ref c l)
    (hw : l.waveRole = false) (hs : c.ctxs[rank]? = some k) :
    ∃ t : State, exec (.frontEndStrandStart crew rank) s = .next t ∧
      Begun (t.hart (.strand k)) ref (BitVec.ofNat 64 ((roleSection l.img.strandCode l.kernel.role).va + l.kernel.entry))
        (l.stackTop c rank) l.arg l.join (BitVec.ofNat 64 rank) ∧
      (t.hart (.strand k)).fcsr = 0 ∧ (t.hart (.strand k)).rank = rank ∧
      (t.cluster ref.cluster).crews.find ref.slot = some { c with
        toStart := c.toStart - 1
        stackUse := c.stackUse ++ [rank]
        started := c.started ++ [rank] } := by
  obtain ⟨h1, h2, h3, h4, h5⟩ := h
  rw [exec_frontEndStrandStart]
  simp only [execFrontEndStrandStart, event, h1, h2, hs]
  rw [if_neg (by simp [hw, h3, h4, h5])]
  refine ⟨_, rfl, ?_⟩
  simp only [State.hart_setHart]
  generalize hg : { ((s.hart (.strand k)).started _ _ ref c.launch (c.dcrew ref.slot) true).strandStarted with rank := rank, stack := some rank } = g
  have hb := start_rx g (l.stackTop c rank) l.arg l.join (BitVec.ofNat 64 rank) 0 (by rw [← hg]; rfl)
  subst hg
  refine ⟨⟨rfl, hb.1, hb.2.1, hb.2.2.1, hb.2.2.2.1, rfl, rfl, rfl, rfl, rfl, rfl, hb.2.2.2.2⟩, ?_, ?_, ?_⟩
  all_goals first | rfl | trivial | exact setCrew_find _ _ _ _

theorem crewOf_popCont (s : State) (cl : Nat) (q : QCont) (r : CrewRef) : (s.popCont cl q).crewOf r = s.crewOf r := by
  simp only [State.popCont]; apply crewOf_setCluster; rfl

theorem ev_popStrand (s : State) (cl core ctx : Nat) (q : QCont) (c : Crew) (l : Launch) (hc : core < 64) (hx : ctx < 8)
    (hi : (s.hart (.strand (cl * 512 + core * 8 + ctx))).run = .idle) (hn : s.nextCont cl (s.runsOnContext (cl * 512 + core * 8 + ctx)) = some q)
    (hl : s.launches.find q.launch = some l) (hb : q.c.bound = true) (hr : s.crewOf q.c.ref = some c) (hg : q.gfx = none) :
    let k := cl * 512 + core * 8 + ctx
    (q.c.regs = false → ∃ t : State, exec (.continuationPop cl (.context core ctx)) s = .next t ∧
      Begun (t.hart (.strand k)) q.c.ref (addr48 q.c.code) (l.stackTop c (c.ctxs.findIdx (· == k))) (addr48 q.c.frame)
        (addr48 q.c.join) (BitVec.ofNat 64 q.c.lidx) ∧
      (t.hart (.strand k)).duty = true ∧ (t.hart (.strand k)).join = addr48 q.c.join ∧ t.mem = s.mem) ∧
    (∀ bs u, q.c.regs = true → takeBlock (.strand k) q.c.ref (addr48 q.c.frame) (s.popCont cl q) = .ok bs u →
      ∃ t : State, exec (.continuationPop cl (.context core ctx)) s = .next t ∧ (t.hart (.strand k)).pc = addr48 q.c.code ∧
        (t.hart (.strand k)).x = (blockRegs bs).1 ∧ (t.hart (.strand k)).f = (blockRegs bs).2.1 ∧
        (t.hart (.strand k)).fcsr = (blockRegs bs).2.2 ∧ (t.hart (.strand k)).run = .running) := by
  intro k
  have e1 : core % 64 = core := Nat.mod_eq_of_lt hc
  have e2 : ctx % 8 = ctx := Nat.mod_eq_of_lt hx
  rw [exec_continuationPop]
  simp only [execContinuationPop, event, e1, e2]
  rw [if_neg (by simp [hi])]
  simp only [hn]
  rw [show cl * 512 + core * 8 + ctx = k from rfl]
  have hl' : (s.popCont cl q).launches.find q.launch = some l := hl
  have hr' : (s.popCont cl q).crewOf q.c.ref = some c := by rw [crewOf_popCont]; exact hr
  have hm : (s.popCont cl q).mem = s.mem := rfl
  generalize s.popCont cl q = v at *
  have fin : ∀ (sp : Dword) (h : Hart), sp = l.stackTop c (c.ctxs.findIdx (· == k)) → h.x = startRegs sp (addr48 q.c.frame) (addr48 q.c.join) (BitVec.ofNat 64 q.c.lidx) 0 →
      h.pc = addr48 q.c.code → h.priv = .u → h.run = .running → h.resv = none → h.tn = false → h.hm = false → h.crew = some q.c.ref →
      Begun h q.c.ref (addr48 q.c.code) (l.stackTop c (c.ctxs.findIdx (· == k))) (addr48 q.c.frame) (addr48 q.c.join) (BitVec.ofNat 64 q.c.lidx) := by
    intro sp h e1 e2 e3 e4 e5 e6 e7 e8 e9
    have hb := start_rx h _ _ _ _ _ e2
    exact ⟨e3, hb.1.trans e1, hb.2.1, hb.2.2.1, hb.2.2.2.1, e4, e5, e6, e7, e8, e9, hb.2.2.2.2⟩
  have hz : l.stackSize = 0 → (0 : Dword) = l.stackTop c (c.ctxs.findIdx (· == k)) := fun h0 => by simp [Launch.stackTop, h0]
  refine ⟨fun hg0 => ?_, fun bs u hg1 ht => ?_⟩
  · by_cases h0 : l.stackSize = 0
    all_goals
      simp only [startStrand, bind_run, get_run, hl', hb, hr', if_true, hg0, Bool.false_eq_true, if_false, hg, State.deliverGfx, Option.map_some, Option.getD_some, h0, pure_run, modify_run]
      refine ⟨_, rfl, ?_⟩
      simp only [State.hart_setHart]
    · exact ⟨fin 0 _ (hz h0) rfl rfl rfl rfl rfl rfl rfl rfl, by first | rfl | trivial, by first | rfl | trivial, hm⟩
    · exact ⟨fin _ _ rfl rfl rfl rfl rfl rfl rfl rfl rfl, by first | rfl | trivial, by first | rfl | trivial, hm⟩
  · by_cases h0 : l.stackSize = 0
    all_goals
      simp only [startStrand, bind_run, get_run, hl', hb, hr', if_true, hg1, hg, State.deliverGfx, Option.map_some, Option.getD_some, h0, if_false, pure_run, modify_run, ht]
      refine ⟨_, rfl, ?_⟩
      simp only [State.hart_setHart]
      refine ⟨?_, ?_, ?_, ?_, ?_⟩ <;> first | rfl | trivial

theorem ev_popWave (s : State) (cl e i : Nat) (q : QCont) (c : Crew) (l : Launch) (he : e < 8) (hi : i < 16)
    (hv : (s.wave (cl * 128 + e * 16 + i)).live = false) (hn : s.nextCont cl (s.runsOnWave (cl * 128 + e * 16 + i)) = some q)
    (hr : s.crewOf q.c.ref = some c) (hl : s.launches.find q.launch = some l) (hg : q.gfx = none) :
    let k := cl * 128 + e * 16 + i
    ∃ u : State, exec (.continuationPop cl (.waveSlot e i)) s = .next (u.readBufs k) ∧
      Begun (u.wave k).hart q.c.ref (addr48 q.c.code) 0 (addr48 q.c.frame) (addr48 q.c.join) (BitVec.ofNat 64 q.c.lidx) ∧
      (u.wave k).hart.duty = true ∧ (u.wave k).lanes = allLanes ∧ (u.wave k).pri = some { mask := allLanes, pc := 0 } := by
  intro k
  have e1 : e % 8 = e := Nat.mod_eq_of_lt he
  have e2 : i % 16 = i := Nat.mod_eq_of_lt hi
  rw [exec_continuationPop]
  simp only [execContinuationPop, event, e1, e2, hv, hn, hr, hl, Bool.false_eq_true, if_false]
  rw [show cl * 128 + e * 16 + i = k from rfl]
  generalize s.popCont cl q = v
  simp only [State.startWaveCont, hg, State.deliverGfx]
  refine ⟨_, rfl, ?_⟩
  simp only [State.startWave, wave_setWave']
  have hb := start_rx ((v.wave k).hart.started (addr48 q.c.code)
    (startRegs 0 (addr48 q.c.frame) (addr48 q.c.join) (BitVec.ofNat 64 q.c.lidx) (waveIdent k)) q.c.ref c.launch (c.dcrew q.c.ref.slot) true) 0 (addr48 q.c.frame) (addr48 q.c.join) (BitVec.ofNat 64 q.c.lidx) (waveIdent k) rfl
  refine ⟨⟨rfl, hb.1, hb.2.1, hb.2.2.1, hb.2.2.2.1, rfl, rfl, rfl, rfl, rfl, rfl, hb.2.2.2.2⟩, ?_, ?_, ?_⟩
  all_goals first | rfl | trivial

theorem modFirst_first (ok : Gather → Bool) (f : Gather → Gather) (a b : List Gather) (g : Gather) (ha : ∀ x ∈ a, ok x = false) (hg : ok g = true) :
    modFirst ok f (a ++ g :: b) = a ++ f g :: b := by
  induction a with
  | nil => simp [modFirst, hg]
  | cons x t ih =>
    simp only [List.cons_append, modFirst]
    rw [ha x (by simp), if_neg (by decide), ih (fun y hy => ha y (by simp [hy]))]

theorem ev_atomiser (s : State) (cl : Nat) (q : QCont) (rest : List QCont) (h : (s.cluster cl).atomiser = q :: rest) :
    let c := s.cluster cl
    let mine (g : Gather) : Bool := g.crew == q.c.ref && g.target == (addr48 q.c.code).toNat && decide (g.arrivals.length < 64)
    (∀ g a b, c.gathers = a ++ g :: b → (∀ x ∈ a, mine x = false) → mine g = true →
      exec (.atomiserArrival cl) s = .next (s.setCluster cl { c with
        atomiser := rest
        gathers := a ++ { g with
          arrivals := g.arrivals ++ [q]
          isOpen := g.isOpen && decide (g.arrivals.length + 1 < 64) } :: b })) ∧
    (c.gathers.any mine = false → c.gathers.length < 64 →
      exec (.atomiserArrival cl) s = .next (s.setCluster cl { c with
        atomiser := rest
        gathers := c.gathers ++ [{ crew := q.c.ref, target := (addr48 q.c.code).toNat, arrivals := [q], since := s.clk }] })) ∧
    (∀ g a b, c.gathers.any mine = false → 64 ≤ c.gathers.length → c.gathers = a ++ g :: b → (∀ x ∈ a, x.isOpen = false) →
      g.isOpen = true → exec (.atomiserArrival cl) s = .next (s.setCluster cl { c with
        gathers := a ++ { g with isOpen := false } :: b })) := by
  intro c mine
  have hx : exec (.atomiserArrival cl) s = .next (
      if c.gathers.any mine then s.setCluster cl { c with
        atomiser := rest
        gathers := modFirst mine (·.join q) c.gathers }
      else if c.gathers.length < 64 then s.setCluster cl { c with
        atomiser := rest
        gathers := c.gathers ++ [{ crew := q.c.ref, target := (addr48 q.c.code).toNat, arrivals := [q], since := s.clk }] }
      else s.setCluster cl { c with gathers := modFirst (·.isOpen) (fun g => { g with isOpen := false }) c.gathers }) := by
    rw [exec_atomiserArrival]
    simp only [execAtomiserArrival, event, h, mine, c]
  rw [hx]
  refine ⟨fun g a b hs ha hg => ?_, fun hs hl => ?_, fun g a b hs hl he ha hg => ?_⟩
  · have : c.gathers.any mine = true := by rw [hs]; simp [hg]
    rw [if_pos this, hs, modFirst_first _ _ _ _ _ ha hg]; rfl
  · rw [if_neg (by rw [hs]; decide), if_pos hl]
  · rw [if_neg (by rw [hs]; decide), if_neg (by omega), he, modFirst_first _ _ _ _ _ ha hg]

theorem ev_expiry (s : State) (cl : Nat) : ∃ t : State, exec (.gatherWindowExpiry cl) s = .next t ∧ t = s.setCluster cl { s.cluster cl with gathers := (t.cluster cl).gathers } ∧
    (t.cluster cl).gathers = (s.cluster cl).gathers.map fun g =>
      if g.since + 4096 ≤ s.clk then { g with isOpen := false } else g := by
  rw [exec_gatherWindowExpiry]
  simp only [execGatherWindowExpiry, event]
  refine ⟨_, rfl, by rw [State.cluster_setCluster], ?_⟩
  rw [State.cluster_setCluster]
  apply List.map_congr_left
  intro g _
  by_cases hg : g.since + 4096 ≤ s.clk
  · rw [if_pos hg]
    have : decide (s.clk < g.since + 4096) = false := by simp; omega
    simp only [this, Bool.and_false]
  · rw [if_neg hg]
    have : decide (s.clk < g.since + 4096) = true := by simp; omega
    simp only [this, Bool.and_true]

theorem laneStarts_plain (k : Nat) (qs : List QCont) (s : State) (h : ∀ q ∈ qs, q.c.regs = false ∧ q.gfx = none) :
    ∃ ls, laneStarts k qs s = .ok ls s := by
  induction qs with
  | nil => exact ⟨[], rfl⟩
  | cons q t ih =>
    obtain ⟨ls, hl⟩ := ih (fun x hx => h x (by simp [hx]))
    simp only [laneStarts, bind_run, laneStart, (h q (by simp)).1, Bool.false_eq_true, if_false, pure_run, hl]
    exact ⟨_, rfl⟩

theorem deliverAll_plain (qs : List QCont) (s : State) (h : ∀ q ∈ qs, q.c.regs = false ∧ q.gfx = none) : deliverAll s qs = s := by
  induction qs generalizing s with
  | nil => rfl
  | cons q t ih =>
    simp only [deliverAll, (h q (by simp)).2, State.deliverGfx]
    exact ih _ (fun x hx => h x (by simp [hx]))

theorem ev_form (s : State) (cl n : Nat) (g : Gather) (c : Crew) (l : Launch) (k : Nat) (h1 : (s.cluster cl).gathers[n]? = some g)
    (h2 : g.isOpen = false) (h3 : s.crewOf g.crew = some c) (h4 : s.launches.find c.launch = some l) (h5 : c.preempt = false)
    (h6 : s.freeWaveSlot c l cl = some k) (h7 : ∀ q ∈ g.arrivals, q.c.regs = false ∧ q.gfx = none) :
    ∃ (u : State) (role : Nat), exec (.atomiserWaveForm cl n) s = .next (u.readBufs k) ∧ (u.wave k).live = true ∧
      (u.wave k).lanes = BitVec.ofNat 64 (2 ^ g.arrivals.length - 1) ∧ (u.wave k).uended = true ∧ (u.wave k).hart.run = .idle ∧
      (u.wave k).pri = some {
        mask := BitVec.ofNat 64 (2 ^ g.arrivals.length - 1)
        pc := g.target - (roleSection l.img.laneCode role).va } ∧
      (u.cluster cl).gathers = (s.cluster cl).gathers.eraseIdx n := by
  rw [exec_atomiserWaveForm]
  simp only [execAtomiserWaveForm, event, h1, h2, h3, h4, h5, h6, Bool.false_eq_true, if_false]
  obtain ⟨ls, hl⟩ := laneStarts_plain k g.arrivals (s.setCluster cl { s.cluster cl with gathers := (s.cluster cl).gathers.eraseIdx n }) h7
  simp only [formWave, bind_run, hl, modify_run, deliverAll_plain _ _ h7]
  refine ⟨_, ((sectionAt l.img.laneCode g.target).map (·.1.role)).getD l.kernel.role, rfl, ?_⟩
  simp only [wave_setWave']
  refine ⟨?_, ?_, ?_, ?_, ?_, ?_⟩
  all_goals first | rfl | trivial | skip
  simp only [State.setWave_clusters, State.cluster]
  simp [State.setCluster]

theorem ev_fragment (s : State) (k : Nat) (f : Group) (rest : List Group) (h1 : (s.wave k).frags = f :: rest) (h2 : f.since + 1024 ≤ s.clk)
    (h3 : (s.wave k).trap.act = false) (h4 : (s.wave k).lhandler = none) :
    exec (.fragmentAgeLimit k) s = .next (s.setWave k { s.wave k with
      sec := some f
      frags := rest ++ ((s.wave k).sec.map fun g => { g with since := s.clk }).toList }) := by
  rw [exec_fragmentAgeLimit]
  simp only [execFragmentAgeLimit, event, h1]
  rw [if_neg (by simp [h3, h4]; omega)]
  cases (s.wave k).sec <;> rfl

theorem ev_gto (s : State) (e i : Nat) (h1 : (s.wengine e).current = some i) (h2 : (s.wengine e).roundRobin = false)
    (h3 : (s.wengine e).currentSince + 1024 ≤ s.clk) :
    exec (.gtoAgeingLimit e) s = .next (s.setWengine e { s.wengine e with switch := true }) := by
  rw [exec_gtoAgeingLimit]
  simp only [execGtoAgeingLimit, event]
  rw [if_pos (by simp [h1, h2, h3])]

theorem ev_block (s : State) (crew : Nat) (ref : CrewRef) (c : Crew) (w : Waiter) (rest : List Waiter) (h1 : s.crewAt crew = some (ref, c))
    (h2 : c.blockWait = w :: rest) (h3 : w.amount + (c.blockGrant.map Waiter.amount).sum ≤ s.blockCount c - c.blocks.length) :
    exec (.migrationBlockGrant crew) s = .next (s.setCrew ref.cluster ref.slot { c with
      blockWait := rest
      blockGrant := c.blockGrant ++ [w] }) := by
  rw [exec_migrationBlockGrant]
  simp only [execMigrationBlockGrant, event, h1, h2]
  rw [if_pos h3]

theorem releaseCrew_free (s : State) (r : CrewRef) : SlotFree (s.releaseCrew r) r := by
  simp only [SlotFree, State.releaseCrew, State.cluster_setCluster]
  exact Map.find_del_self _ _

theorem endRequest_free (s : State) (r : CrewRef) (h : SlotFree s r) : SlotFree (s.endRequest r) r := by
  simp only [State.endRequest]
  split
  · simp only [SlotFree, State.cluster_setCluster]; exact h
  · exact h

theorem scrap_free (s : State) (r : CrewRef) (c : Crew) : SlotFree (s.scrapCrew r c) r := by
  simp only [State.scrapCrew]
  exact endRequest_free _ _ (releaseCrew_free _ _)

theorem leaveMatrix_launches (s : State) (r : CrewRef) : (s.leaveMatrix r).launches = s.launches := by
  simp only [State.leaveMatrix, State.modMatrix]
  split <;> split <;> rfl

theorem releaseCrew_launches (s : State) (r : CrewRef) : (s.releaseCrew r).launches = s.launches := by
  simp only [State.releaseCrew]; exact leaveMatrix_launches _ _

theorem endRequest_launches (s : State) (r : CrewRef) : (s.endRequest r).launches = s.launches := by
  simp only [State.endRequest]; split <;> rfl

theorem zeroBanks_launches (l : List Nat) (s : State) (c : Nat) : (s.zeroBanks c l).launches = s.launches := by
  induction l generalizing s with
  | nil => rfl
  | cons m t ih => simp only [State.zeroBanks]; rw [ih]; rfl

theorem stopCrew_launches (s : State) (r : CrewRef) (c : Crew) : (s.stopCrew r c).launches = s.launches := by
  simp only [State.stopCrew, State.setCluster_launches, State.leaveQueues]
  split <;> rfl

theorem scrubMatrix_launches (s : State) (r : CrewRef) : (s.scrubMatrix r).launches = s.launches := by
  simp only [State.scrubMatrix, State.modMatrix]
  split
  · exact zeroBanks_launches _ _ _
  · exact zeroBanks_launches _ _ _

theorem zeroUnits_launches (l : List Nat) (s : State) (e : Nat) : (s.zeroUnits e l).launches = s.launches := by
  induction l generalizing s with
  | nil => rfl
  | cons m t ih => simp only [State.zeroUnits]; rw [ih]; rfl

theorem zeroShares_launches (l : List Nat) (s : State) (c k : Nat) : (s.zeroShares c k l).launches = s.launches := by
  induction l generalizing s with
  | nil => rfl
  | cons m t ih => simp only [State.zeroShares]; rw [ih]; rfl

theorem scrap_launches (s : State) (r : CrewRef) (c : Crew) : (s.scrapCrew r c).launches = s.launches := by
  simp only [State.scrapCrew]
  rw [endRequest_launches, releaseCrew_launches, zeroShares_launches, zeroUnits_launches, zeroUnits_launches, zeroUnits_launches, scrubMatrix_launches, stopCrew_launches]

theorem ev_crewEnd (s : State) (crew : Nat) (ref : CrewRef) (c : Crew) (h1 : s.crewAt crew = some (ref, c)) (h2 : s.unitsEnded ref c = true)
    (h3 : s.crewQueued ref = false) (h4 : c.blocks = []) :
    let o : Origin := { cluster := ref.cluster, crew := none, launch := c.launch, dcrew := c.dcrew ref.slot, dptb := s.accFrontEnd.dptb }
    let t := ((s.lapseDeferred ref fun _ => true).releaseCrew ref).endRequest ref
    SlotFree t ref ∧
    (((s.launches.find c.launch).map (·.join)).getD 0 = 0 → exec (.crewEnd crew) s = .next (t.countCrew c.launch c.linear)) ∧
    (∀ u, joinSub s.accFrontEnd o (((s.launches.find c.launch).map (·.join)).getD 0) t = .ok () u →
      exec (.crewEnd crew) s = .next (u.countCrew c.launch c.linear)) ∧
    (∀ e u, joinSub s.accFrontEnd o (((s.launches.find c.launch).map (·.join)).getD 0) t = .error (.exc e) u →
      exec (.crewEnd crew) s = .next ((u.countCrew c.launch c.linear).endLaunch c.launch e.code e.detail 255 ref.cluster)) := by
  intro o t
  have hx : exec (.crewEnd crew) s = .next (match joinSub s.accFrontEnd o (((s.launches.find c.launch).map (·.join)).getD 0) t with
      | .ok _ u => u.countCrew c.launch c.linear
      | .error (.exc e) u => (u.countCrew c.launch c.linear).endLaunch c.launch e.code e.detail 255 ref.cluster
      | .error _ u => { s with snoops := u.snoops }) := by
    rw [exec_crewEnd]
    simp only [execCrewEnd, event, h1, h2, h3, h4]
    rfl
  rw [hx]
  refine ⟨endRequest_free _ _ (releaseCrew_free _ _), fun hj => ?_, fun u hj => ?_, fun e u hj => ?_⟩
  · rw [hj]
    have : joinSub s.accFrontEnd o 0 t = .ok () t := by simp only [joinSub, bind_run, ite_run]; rfl
    simp only [this]
  · simp only [hj]
  · simp only [hj]

theorem preSave_eq (v : Dword) : (v.extractLsb' 8 40).toNat * 256 = v.toNat / 256 % 2 ^ 40 * 256 ∧ (v.extractLsb' 0 3).toNat = v.toNat % 8 := by
  simp [BitVec.extractLsb'_toNat, Nat.shiftRight_eq_div_pow]

theorem saveState_spec (s : State) (area v : Nat) (hm : MemoryOk s) : (s.writeSaveState area v).peek area 4 = leBytes 4 v ∧ (s.writeSaveState area v).clusters = s.clusters := by
  have h := moved_tokenHome s (area / 256)
  refine ⟨?_, ?_⟩
  · simp only [State.writeSaveState]
    have := (poke_reads h.mem hm area (leBytes 4 v)).1
    rwa [leBytes_length] at this
  · simp only [State.writeSaveState, State.poke_clusters]
    rw [h.rest]

theorem ev_preempt (s : State) (c : Nat) (v : Dword) (hc : c < 128) (hm : MemoryOk s) :
    let save := v.toNat / 256 % 2 ^ 40 * 256
    let slot := v.toNat % 8
    ((s.cluster c).preReq = true → exec (.preemptRequest c v) s = .next s) ∧
    ((s.cluster c).preReq = false → v.getLsbD 3 = false →
      exec (.preemptRequest c v) s = .next (s.setCluster c { s.cluster c with preSave := save, preSlot := slot })) ∧
    ((s.cluster c).preReq = false → v.getLsbD 3 = true →
      (∀ x, (s.cluster c).crews.find slot = some x → x.cls ≠ 0 → ∃ t : State, exec (.preemptRequest c v) s = .next t ∧
        (t.cluster c).preReq = true ∧ (t.cluster c).preClk = s.clk ∧ (t.cluster c).preSave = save ∧ (t.cluster c).preSlot = slot ∧
        (t.cluster c).crews.find slot = some { x with preempt := true } ∧ t.mem = s.mem) ∧
      (((s.cluster c).crews.find slot = none ∨ ((s.cluster c).crews.find slot).map (·.cls) = some 0) →
        ∃ t : State, exec (.preemptRequest c v) s = .next t ∧ t.peek save 4 = [3, 0, 0, 0] ∧ (t.cluster c).preReq = false)) := by
  intro save slot
  have hx : exec (.preemptRequest c v) s = .next (s.writePreempt c v) := by
    rw [exec_preemptRequest]
    simp only [execPreemptRequest, event, Nat.mod_eq_of_lt hc]
  rw [hx]
  have e1 : (v.extractLsb' 8 40).toNat * 256 = save := (preSave_eq v).1
  have e2 : (v.extractLsb' 0 3).toNat = slot := (preSave_eq v).2
  clear_value save slot
  simp only [State.writePreempt, e1, e2]
  refine ⟨fun h => ?_, fun h hv => ?_, fun h hv => ⟨fun x hf hz => ?_, fun hf => ?_⟩⟩
  · rw [if_pos h]
  · rw [if_neg (by rw [h]; decide), if_pos (by rw [hv]; rfl)]
  · rw [if_neg (by rw [h]; decide), if_neg (by rw [hv]; decide)]
    simp only [hf, hz, if_false]
    refine ⟨_, rfl, ?_⟩
    simp only [State.setCrew, State.cluster_setCluster]
    exact ⟨by trivial, by trivial, by trivial, by trivial, Map.find_put_self _ _ _, rfl⟩
  · rw [if_neg (by rw [h]; decide), if_neg (by rw [hv]; decide)]
    have hs := saveState_spec (s.setCluster c { s.cluster c with preSave := save, preSlot := slot }) save 3 hm
    have hr : (((s.setCluster c { s.cluster c with preSave := save, preSlot := slot }).writeSaveState save 3).cluster c).preReq = false := by
      have key : ∀ (u w : State), u.clusters = w.clusters → u.cluster c = w.cluster c := by intro u w e; simp only [State.cluster, e]
      rw [key _ _ hs.2, State.cluster_setCluster]; exact h
    cases hk : (s.cluster c).crews.find slot with
    | none => exact ⟨_, rfl, hs.1, hr⟩
    | some x =>
      have hz : x.cls = 0 := by
        rcases hf with hf | hf
        · rw [hk] at hf; cases hf
        · rw [hk] at hf; simpa using hf
      simp only [hz, if_true]
      exact ⟨_, rfl, hs.1, hr⟩

theorem ev_deadline (s : State) (c : Nat) (h1 : (s.cluster c).preReq = true) (h2 : (s.cluster c).preClk + 420000 ≤ s.clk) :
    ∃ u : State, exec (.preemptDeadline c) s = .next ((u.setCluster c { u.cluster c with preReq := false }).writeSaveState (s.cluster c).preSave 2) ∧
      u = match s.crewAt (c * 8 + (s.cluster c).preSlot) with
        | some (ref, _) => s.killCrew ref 21 0 0
        | none => s := by
  rw [exec_preemptDeadline]
  simp only [execPreemptDeadline, event, h1]
  rw [if_pos (by simp [h2])]
  refine ⟨_, rfl, ?_⟩
  cases s.crewAt (c * 8 + (s.cluster c).preSlot) <;> rfl

theorem ev_kill (s : State) (crew : Nat) (ref : CrewRef) (c : Crew) (l : Launch) (code : Nat) (h1 : s.crewAt crew = some (ref, c))
    (h2 : s.launches.find c.launch = some l) (h3 : code = 20 ∨ code = 21) :
    SlotFree (s.scrapCrew ref c) ref ∧ exec (.crewKill crew code) s = .next (killed s ref c l code 0 0) := by
  refine ⟨scrap_free _ _ _, ?_⟩
  rw [exec_crewKill]
  simp only [execCrewKill, event, h1, h3, if_true, State.killCrew, crewAt_crewOf h1, scrap_launches, h2]
  rfl

theorem ev_save (s : State) (crew : Nat) (ref : CrewRef) (c : Crew) (h1 : s.crewAt crew = some (ref, c)) (h2 : c.preempt = true)
    (h3 : (s.cluster ref.cluster).preReq = true) (h4 : (s.cluster ref.cluster).preSlot = ref.slot) (h5 : s.crewStopped ref c = true) :
    let area := (s.cluster ref.cluster).preSave
    ∃ t : State, exec (.crewSave crew) s = .next (t.writeSaveState area 1) ∧ t.saved.find area = some (s.snapshot ref c) ∧ SlotFree t ref ∧
      (t.cluster ref.cluster).preReq = false := by
  intro area
  rw [exec_crewSave]
  simp only [execCrewSave, event, h1]
  rw [if_neg (by simp [h2, h3, h4, h5])]
  generalize (s.writeArea (s.cluster ref.cluster).preSave (s.snapshot ref c)) = v
  generalize (v.forgetInvals ref).stopCrew ref c = w
  refine ⟨_, rfl, ?_, ?_, ?_⟩
  · exact Map.find_put_self _ _ _
  · have := releaseCrew_free w ref
    simp only [SlotFree, State.cluster_setCluster]
    exact this
  · simp only [State.cluster_setCluster]

theorem ev_resume (s : State) (v : Dword) :
    let done : State := { s with resumes := s.resumes.erase v }
    let queued := s.clusters.any fun e => e.2.adm.any fun q => q.2.any fun r => r.save == some v.toNat
    (natOfBytes (s.peek v.toNat 4) ≠ 1 ∨ s.saved.find v.toNat = none ∨ queued = true →
      exec (.resume v) s = .next (done.logError 2 0 11 255 0 v.toNat 0 0 0xFFFFFFFF)) ∧
    (∀ x l, v &&& ~~~0xFFFFFFFFFF00#64 = 0 → queued = false → natOfBytes (s.peek v.toNat 4) = 1 → s.saved.find v.toNat = some x →
      s.launches.find x.crew.launch = some l →
      let c := s.placeCrew { l with place := false }
      (s.admRoom c l.cls = true → exec (.resume v) s =
        .next (done.pushReq c l.cls { launch := x.crew.launch, linear := x.crew.linear, since := s.clk, save := some v.toNat })) ∧
      (s.admRoom c l.cls = false → s.resumes.contains v = false → exec (.resume v) s = .next { s with resumes := s.resumes ++ [v] })) := by
  intro done queued
  rw [exec_resume]
  simp only [execResume, event]
  refine ⟨fun h => ?_, fun x l h1 h2 h3 h4 h5 => ?_⟩
  · by_cases hc : v &&& ~~~0xFFFFFFFFFF00#64 ≠ 0 ∨ queued = true ∨ natOfBytes (s.peek v.toNat 4) ≠ 1
    · rw [if_pos hc]
    · rw [if_neg hc]
      have hn : s.saved.find v.toNat = none := by
        rcases h with h | h | h
        · exact absurd (Or.inr (Or.inr h)) hc
        · exact h
        · exact absurd (Or.inr (Or.inl h)) hc
      simp only [hn]; rfl
  · have hc : ¬ (v &&& ~~~0xFFFFFFFFFF00#64 ≠ 0 ∨ queued = true ∨ natOfBytes (s.peek v.toNat 4) ≠ 1) := by
      rintro (h | h | h)
      · exact h h1
      · rw [h2] at h; cases h
      · exact h h3
    rw [if_neg hc]
    simp only [h4, h5]
    refine ⟨fun ha => ?_, fun ha hr => ?_⟩
    · rw [if_pos ha]
    · rw [if_neg (by rw [ha]; decide), if_neg (by rw [hr]; decide)]

theorem ev_imageLoad (s : State) (hb : s.ldBusy = true) :
    let r := s.loadRequest
    let bs := s.peek (le r 8 8) (max 64 (if le (s.peek (le r 8 8) 64) 0 4 = 0x4B594C50 then le (s.peek (le r 8 8) 64) 8 8 else 0))
    (s.up = some false → le r 0 1 ≠ 1 → ∃ n k, 1 ≤ n ∧ n ≤ 16 ∧ exec .imageLoad s = .next (({ s with free := k } : State).endLoad n s.ldImage)) ∧
    (s.up ≠ some false → le r 0 1 ≠ 1 →
      (requestBad r = true → exec .imageLoad s = .next (s.endLoad 16 s.ldImage)) ∧
      (requestBad r = false → s.imageRefusal bs ≠ 0 → exec .imageLoad s = .next (s.endLoad (s.imageRefusal bs) s.ldImage)) ∧
      (requestBad r = false → s.imageRefusal bs = 0 →
        let offs := placeSections 0 (directoryOf bs)
        let size := offs.getD (directoryOf bs).length 0
        (le r 0x18 8 < size → exec .imageLoad s = .next (s.endLoad 15 s.ldImage)) ∧
        (size ≤ le r 0x18 8 → ∃ t : State, exec .imageLoad s = .next t ∧ t.ldBusy = false ∧ t.ldResult = 0 ∧ t.ldImage = s.freeImage ∧
          t.images.find s.freeImage = some (imageOf bs (le r 0x10 8) (le r 0x20 8) offs)))) ∧
    (s.up ≠ some false → le r 0 1 = 1 →
      (∀ img, s.images.find (le r 2 2) = some img → img.loaded = true → requestBad r = false →
        exec .imageUnload s = .next (({ s with images := s.images.put (le r 2 2) { img with loaded := false } } : State).endLoad 0 s.ldImage)) ∧
      (s.images.find (le r 2 2) = none ∨ requestBad r = true → exec .imageUnload s = .next (s.endLoad 16 s.ldImage))) := by
  intro r bs
  have hl : le r 0 1 ≠ 1 → exec .imageLoad s = .next (if s.up == some false then s.failLoad
    else if requestBad r then s.endLoad 16 s.ldImage
    else s.loadImage r) := by
    intro h
    rw [exec_imageLoad]
    simp only [execImageLoad, event]
    rw [if_neg (by rw [hb]; simpa using h)]
  refine ⟨fun hu hr => ?_, fun hu hr => ?_, fun hu hr => ⟨fun img hi hld hq => ?_, fun h => ?_⟩⟩
  · rw [hl hr, if_pos (by simp [hu])]
    refine ⟨Config.freeNat s.free % 16 + 1, s.free + 1, by omega, by omega, rfl⟩
  · rw [hl hr, if_neg (by simpa using hu)]
    refine ⟨fun hq => by rw [if_pos hq], fun hq hi => ?_, fun hq hi => ?_⟩
    · rw [if_neg (by rw [hq]; decide)]
      simp only [State.loadImage]
      rw [if_pos hi]
    · intro offs size
      have hx : s.loadImage r = (if le r 0x18 8 < size then s.endLoad 15 s.ldImage else
        State.endLoad { ((s.homeRange (le r 0x10 8) size).writeSections (le r 0x10 8) bs ((directoryOf bs).zip offs)).relocateAll (le r 0x10 8) (le r 0x20 8) offs (entriesOf bs 14 16) with
          images := (((s.homeRange (le r 0x10 8) size).writeSections (le r 0x10 8) bs ((directoryOf bs).zip offs)).relocateAll (le r 0x10 8) (le r 0x20 8) offs (entriesOf bs 14 16)).images.put s.freeImage (imageOf bs (le r 0x10 8) (le r 0x20 8) offs) } 0 s.freeImage) := by
        simp only [State.loadImage]
        rw [if_neg (by simpa using hi)]
      rw [if_neg (by rw [hq]; decide), hx]
      refine ⟨fun h => by rw [if_pos h], fun h => ?_⟩
      rw [if_neg (by omega)]
      exact ⟨_, rfl, rfl, rfl, rfl, Map.find_put_self _ _ _⟩
  · rw [exec_imageUnload]
    simp only [execImageUnload, event]
    rw [if_neg (by rw [hb]; simpa using hr), if_neg (by simpa using hu)]
    rw [show s.loadRequest = r from rfl]
    simp only [hi]
    rw [if_neg (by rw [hq, hld]; decide)]
  · rw [exec_imageUnload]
    simp only [execImageUnload, event]
    rw [if_neg (by rw [hb]; simpa using hr), if_neg (by simpa using hu)]
    rw [show s.loadRequest = r from rfl]
    rcases h with h | h
    · simp only [h]
    · cases s.images.find (le r 2 2) with
      | none => rfl
      | some img => simp only [h, Bool.true_or, if_true]

theorem flashBytes_length (s : State) (o n : Nat) : (s.flashBytes o n).length = n := by simp [State.flashBytes]

theorem get_wipe (s : State) (a : Nat) (h : a < devBase) : Memory.get s.wipeDram.mem a = 0 := get_clear_in _ _ _ _ (by omega) h

theorem ev_bringUp (s : State) (hn : s.up = none) : ∃ t : State, exec .bringUp s = .next t ∧ (t.up = some false ∨ t.up = some true) ∧
    (t.up = some true →
      let r := s.flashBytes 0 0x440
      let ctx := HartId.strand (le r 0x10 4 % 65536)
      configOk s.rootDigest r = true ∧ t.pkg = le r 6 1 ∧ t.plimit = le r 0x14 2 ∧ (t.hart ctx).run = .running ∧
        (t.hart ctx).priv = .s ∧ (t.hart ctx).pc = BitVec.ofNat 64 (le r 0x38 8) ∧
        (t.hart ctx).dptb = BitVec.ofNat 64 (le r 0x30 8 / 4096) ∧
        ∀ a, a < devBase → (a < le r 0x28 8 ∨ le r 0x28 8 + le r 0x20 8 ≤ a) → Memory.get t.mem a = 0) := by
  have hh : ∀ (v : State) (k : Nat) (g : Hart), State.hart { v.setHart (.strand k) g with up := some true } (.strand k) = g := by
    intro v k g; simp [State.hart, State.setHart]
  rw [exec_bringUp]
  simp only [execBringUp, event, hn, Option.isSome_none, Bool.false_eq_true, if_false, State.drawNat]
  generalize hr : s.flashBytes 0 0x440 = r
  split
  · exact ⟨_, rfl, Or.inl rfl, fun h => by cases h⟩
  · rename_i hc
    have hok : configOk s.rootDigest r = true := by
      by_cases h : configOk s.rootDigest r = true
      · exact h
      · exact absurd (by simp [h]) hc
    refine ⟨_, rfl, ?_⟩
    simp only [State.applyConfig]
    split
    · exact ⟨Or.inl rfl, fun h => by cases h⟩
    · refine ⟨Or.inr rfl, fun _ => ⟨hok, rfl, rfl, ?_, ?_, ?_, ?_, ?_⟩⟩
      · rw [hh]
      · rw [hh]
      · rw [hh]
      · rw [hh]
      · intro a ha hb
        simp only [State.setHart, State.poke]
        have hlen := flashBytes_length s (le r 24 8) (le r 32 8)
        rcases hb with hb | hb
        · refine (Memory.get_write_of_lt _ _ hb).trans ?_
          exact get_clear_in _ _ _ _ (by omega) ha
        · refine (Memory.get_write_of_ge _ _ ?_).trans ?_
          · refine Nat.le_trans (Nat.le_of_eq ?_) hb
            congr 1
          · exact get_clear_in _ _ _ _ (by omega) ha

end Sys2Proof.Machine
end

