-- ==== Sys2Proof/Laws/Words.lean ====
section
/-! SUPPORT. The fields of an encoded word: what each layout of the scalar encoder puts where the decoder reads it, the
fields of a lane word, the standard instructions' round trip, and the bytes of a word. -/

namespace Sys2Proof.Laws.Words

theorem extract_low {v w : Nat} (x : BitVec v) (y : BitVec w) (a n : Nat) (h : a + n ≤ w) : (x ++ y).extractLsb' a n = y.extractLsb' a n := by
  apply BitVec.eq_of_getLsbD_eq
  intro i hi
  simp only [BitVec.getLsbD_extractLsb', BitVec.getLsbD_append]
  have : a + i < w := by omega
  simp [this]

theorem extract_high {v w : Nat} (x : BitVec v) (y : BitVec w) (a n : Nat) (h : w ≤ a) : (x ++ y).extractLsb' a n = x.extractLsb' (a - w) n := by
  apply BitVec.eq_of_getLsbD_eq
  intro i hi
  simp only [BitVec.getLsbD_extractLsb', BitVec.getLsbD_append]
  have h1 : ¬ a + i < w := by omega
  have h2 : a + i - w = a - w + i := by omega
  simp [h1, h2]

theorem extract_all {w : Nat} (x : BitVec w) : x.extractLsb' 0 w = x := by
  apply BitVec.eq_of_getLsbD_eq
  intro i hi
  simp [hi]

theorem bit_low {v w : Nat} (x : BitVec v) (y : BitVec w) (a : Nat) (h : a < w) : (x ++ y).getLsbD a = y.getLsbD a := by
  simp [BitVec.getLsbD_append, h]

theorem bit_high {v w : Nat} (x : BitVec v) (y : BitVec w) (a : Nat) (h : w ≤ a) : (x ++ y).getLsbD a = x.getLsbD (a - w) := by
  simp [BitVec.getLsbD_append, Nat.not_lt.2 h]

theorem flag_bit (b : Bool) : (Enc.b1 b).getLsbD 0 = b := by cases b <;> rfl

theorem laneFields_encode (op func : Nat) (w : LaneWord) : laneFields (encodeLaneFields op func w) = w := by
  obtain ⟨a1,a2,a3,a4,a5,a6,a7,a8,a9,a10,a11,a12,a13,a14⟩ := w
  simp (disch := omega) only [laneFields, encodeLaneFields, extract_low, extract_high, bit_low, bit_high, Nat.reduceSub, extract_all, flag_bit]

theorem rFields (op : BitVec 7) (rd : Reg) (f3 : BitVec 3) (rs1 rs2 : Reg) (f7 : BitVec 7) :
    (Enc.r op rd f3 rs1 rs2 f7).extractLsb' 0 7 = op ∧ Dec.rd (Enc.r op rd f3 rs1 rs2 f7) = rd ∧ Dec.f3 (Enc.r op rd f3 rs1 rs2 f7) = f3 ∧
    Dec.rs1 (Enc.r op rd f3 rs1 rs2 f7) = rs1 ∧ Dec.rs2 (Enc.r op rd f3 rs1 rs2 f7) = rs2 ∧ Dec.f7 (Enc.r op rd f3 rs1 rs2 f7) = f7 := by
  simp (disch := omega) only [Enc.r, Dec.rd, Dec.f3, Dec.rs1, Dec.rs2, Dec.f7, extract_low, extract_high, Nat.reduceSub, extract_all, and_self]

theorem iFields (op : BitVec 7) (rd : Reg) (f3 : BitVec 3) (rs1 : Reg) (imm : BitVec 12) :
    (Enc.i op rd f3 rs1 imm).extractLsb' 0 7 = op ∧ Dec.rd (Enc.i op rd f3 rs1 imm) = rd ∧ Dec.f3 (Enc.i op rd f3 rs1 imm) = f3 ∧
    Dec.rs1 (Enc.i op rd f3 rs1 imm) = rs1 ∧ Dec.imm12 (Enc.i op rd f3 rs1 imm) = imm := by
  simp (disch := omega) only [Enc.i, Dec.rd, Dec.f3, Dec.rs1, Dec.imm12, extract_low, extract_high, Nat.reduceSub, extract_all, and_self]

theorem extract_join {w : Nat} (x : BitVec w) (a n m : Nat) :
    x.extractLsb' (a + n) m ++ x.extractLsb' a n = x.extractLsb' a (m + n) := by
  apply BitVec.eq_of_getLsbD_eq
  intro k hk
  simp only [BitVec.getLsbD_append, BitVec.getLsbD_extractLsb', decide_eq_true hk, Bool.true_and]
  split
  · next h => rw [decide_eq_true h, Bool.true_and]
  · rw [decide_eq_true (by omega), Bool.true_and]; congr 1; omega

theorem sFields (op : BitVec 7) (f3 : BitVec 3) (rs1 rs2 : Reg) (imm : BitVec 12) :
    (Enc.s op f3 rs1 rs2 imm).extractLsb' 0 7 = op ∧ Dec.f3 (Enc.s op f3 rs1 rs2 imm) = f3 ∧
    Dec.rs1 (Enc.s op f3 rs1 rs2 imm) = rs1 ∧ Dec.rs2 (Enc.s op f3 rs1 rs2 imm) = rs2 ∧ Dec.immS (Enc.s op f3 rs1 rs2 imm) = imm := by
  simp (disch := omega) only [Enc.s, Dec.f3, Dec.rs1, Dec.rs2, Dec.immS, extract_low, extract_high, Nat.reduceSub, extract_all, true_and]
  exact (extract_join imm 0 5 7).trans (extract_all imm)

theorem bFields (f3 : BitVec 3) (rs1 rs2 : Reg) (off : BitVec 12) :
    (Enc.b f3 rs1 rs2 off).extractLsb' 0 7 = 0x63#7 ∧ Dec.f3 (Enc.b f3 rs1 rs2 off) = f3 ∧
    Dec.rs1 (Enc.b f3 rs1 rs2 off) = rs1 ∧ Dec.rs2 (Enc.b f3 rs1 rs2 off) = rs2 ∧ Dec.immB (Enc.b f3 rs1 rs2 off) = off := by
  simp (disch := omega) only [Enc.b, Dec.f3, Dec.rs1, Dec.rs2, Dec.immB, extract_low, extract_high, Nat.reduceSub, extract_all, true_and]
  have h1 : off.extractLsb' 11 1 ++ off.extractLsb' 10 1 = off.extractLsb' 10 2 := extract_join off 10 1 1
  have h2 : off.extractLsb' 10 2 ++ off.extractLsb' 4 6 = off.extractLsb' 4 8 := extract_join off 4 6 2
  rw [h1, h2]
  exact (extract_join off 0 4 8).trans (extract_all off)

theorem jFields (rd : Reg) (off : BitVec 20) :
    (Enc.j rd off).extractLsb' 0 7 = 0x6F#7 ∧ Dec.rd (Enc.j rd off) = rd ∧ Dec.immJ (Enc.j rd off) = off := by
  simp (disch := omega) only [Enc.j, Dec.rd, Dec.immJ, extract_low, extract_high, Nat.reduceSub, extract_all, true_and]
  have h1 : off.extractLsb' 19 1 ++ off.extractLsb' 11 8 = off.extractLsb' 11 9 := extract_join off 11 8 1
  have h2 : off.extractLsb' 11 9 ++ off.extractLsb' 10 1 = off.extractLsb' 10 10 := extract_join off 10 1 9
  rw [h1, h2]
  exact (extract_join off 0 10 10).trans (extract_all off)

theorem uFields (op : BitVec 7) (rd : Reg) (imm : BitVec 20) :
    (Enc.u op rd imm).extractLsb' 0 7 = op ∧ Dec.rd (Enc.u op rd imm) = rd ∧ (Enc.u op rd imm).extractLsb' 12 20 = imm := by
  simp (disch := omega) only [Enc.u, Dec.rd, extract_low, extract_high, Nat.reduceSub, extract_all, and_self]

theorem fpFields (f5 : BitVec 5) (dbl : Bool) (rs2 rs1 : Reg) (f3 : BitVec 3) (rd : Reg) :
    (Enc.fp f5 dbl rs2 rs1 f3 rd).extractLsb' 0 7 = 0x53#7 ∧ Dec.rd (Enc.fp f5 dbl rs2 rs1 f3 rd) = rd ∧ Dec.f3 (Enc.fp f5 dbl rs2 rs1 f3 rd) = f3 ∧
    Dec.rs1 (Enc.fp f5 dbl rs2 rs1 f3 rd) = rs1 ∧ Dec.rs2 (Enc.fp f5 dbl rs2 rs1 f3 rd) = rs2 ∧ Dec.rs3 (Enc.fp f5 dbl rs2 rs1 f3 rd) = f5 ∧
    (Enc.fp f5 dbl rs2 rs1 f3 rd).getLsbD 25 = dbl ∧ (Enc.fp f5 dbl rs2 rs1 f3 rd).getLsbD 26 = false := by
  simp (disch := omega) only [Enc.fp, Dec.rd, Dec.f3, Dec.rs1, Dec.rs2, Dec.rs3, extract_low, extract_high, bit_low, bit_high, Nat.reduceSub, extract_all, flag_bit, true_and]
  rfl

theorem amoFields {w : Word} {a : BitVec 5} {p q : Bool} {r2 r1 : Reg} {f3 : BitVec 3} {rd : Reg} {op : BitVec 7}
    (hw : w = a ++ Enc.b1 p ++ Enc.b1 q ++ r2 ++ r1 ++ f3 ++ rd ++ op) :
    w.extractLsb' 0 7 = op ∧ Dec.rd w = rd ∧ Dec.f3 w = f3 ∧ Dec.rs1 w = r1 ∧ Dec.rs2 w = r2 ∧ Dec.rs3 w = a ∧
    w.getLsbD 25 = q ∧ w.getLsbD 26 = p := by
  subst hw
  simp (disch := omega) only [Dec.rd, Dec.f3, Dec.rs1, Dec.rs2, Dec.rs3, extract_low, extract_high, bit_low, bit_high, Nat.reduceSub, extract_all, flag_bit, and_self]

theorem bFields_of {w : Word} {f3 : BitVec 3} {rs1 rs2 : Reg} {off : BitVec 12} (hw : w = Enc.b f3 rs1 rs2 off) :
    w.extractLsb' 0 7 = 0x63#7 ∧ Dec.f3 w = f3 ∧ Dec.rs1 w = rs1 ∧ Dec.rs2 w = rs2 ∧ Dec.immB w = off := by
  subst hw; exact bFields f3 rs1 rs2 off

theorem iFields_of {w : Word} {op : BitVec 7} {rd : Reg} {f3 : BitVec 3} {rs1 : Reg} {imm : BitVec 12} (hw : w = Enc.i op rd f3 rs1 imm) :
    w.extractLsb' 0 7 = op ∧ Dec.rd w = rd ∧ Dec.f3 w = f3 ∧ Dec.rs1 w = rs1 ∧ Dec.imm12 w = imm := by
  subst hw; exact iFields op rd f3 rs1 imm

theorem fpFields_of {w : Word} {f5 : BitVec 5} {dbl : Bool} {rs2 rs1 : Reg} {f3 : BitVec 3} {rd : Reg} (hw : w = Enc.fp f5 dbl rs2 rs1 f3 rd) :
    w.extractLsb' 0 7 = 0x53#7 ∧ Dec.rd w = rd ∧ Dec.f3 w = f3 ∧ Dec.rs1 w = rs1 ∧ Dec.rs2 w = rs2 ∧ Dec.rs3 w = f5 ∧
    w.getLsbD 25 = dbl ∧ w.getLsbD 26 = false := by
  subst hw; exact fpFields f5 dbl rs2 rs1 f3 rd

theorem rBits (op : BitVec 7) (rd : Reg) (f3 : BitVec 3) (rs1 rs2 : Reg) (f7 : BitVec 7) :
    (Enc.r op rd f3 rs1 rs2 f7).extractLsb' 28 4 = f7.extractLsb' 3 4 ∧ (Enc.r op rd f3 rs1 rs2 f7).extractLsb' 25 3 = f7.extractLsb' 0 3 ∧
    (Enc.r op rd f3 rs1 rs2 f7).extractLsb' 25 1 = f7.extractLsb' 0 1 ∧ (Enc.r op rd f3 rs1 rs2 f7).extractLsb' 26 4 = f7.extractLsb' 1 4 ∧
    (Enc.r op rd f3 rs1 rs2 f7).extractLsb' 30 2 = f7.extractLsb' 5 2 ∧ (Enc.r op rd f3 rs1 rs2 f7).getLsbD 25 = f7.getLsbD 0 ∧
    (Enc.r op rd f3 rs1 rs2 f7).extractLsb' 26 6 = f7.extractLsb' 1 6 := by
  simp (disch := omega) only [Enc.r, extract_high, bit_high, Nat.reduceSub, and_self]

theorem iBits (op : BitVec 7) (rd : Reg) (f3 : BitVec 3) (rs1 : Reg) (imm : BitVec 12) :
    (Enc.i op rd f3 rs1 imm).extractLsb' 20 8 = imm.extractLsb' 0 8 ∧ (Enc.i op rd f3 rs1 imm).extractLsb' 28 4 = imm.extractLsb' 8 4 ∧
    (Enc.i op rd f3 rs1 imm).extractLsb' 20 3 = imm.extractLsb' 0 3 ∧ (Enc.i op rd f3 rs1 imm).extractLsb' 23 9 = imm.extractLsb' 3 9 ∧
    (Enc.i op rd f3 rs1 imm).extractLsb' 24 4 = imm.extractLsb' 4 4 ∧ (Enc.i op rd f3 rs1 imm).extractLsb' 20 4 = imm.extractLsb' 0 4 ∧
    (Enc.i op rd f3 rs1 imm).extractLsb' 26 6 = imm.extractLsb' 6 6 ∧ (Enc.i op rd f3 rs1 imm).extractLsb' 20 6 = imm.extractLsb' 0 6 := by
  simp (disch := omega) only [Enc.i, extract_high, Nat.reduceSub, and_self]

theorem amo3Fields (f3 : BitVec 3) (a : AmoArgs) : (Enc.amo3 f3 a).extractLsb' 0 7 = 0x7B#7 ∧ Dec.f3 (Enc.amo3 f3 a) = f3 ∧ Dec.amoArgs (Enc.amo3 f3 a) = a := by
  obtain ⟨sc, sem, d, r2, r1, rd⟩ := a
  have h := rFields 0x7B#7 rd f3 r1 r2 (sc ++ sem ++ Enc.b1 d)
  simp only [Enc.amo3, h, Dec.amoArgs, true_and]
  simp (disch := omega) only [Enc.r, extract_low, extract_high, bit_low, bit_high, Nat.reduceSub, extract_all, flag_bit]
/-! ## Standard instructions, by their RvOp -/

theorem rv_lui (rd : Reg) (imm : BitVec 20) : decodeScalar (Enc.rvOp (.lui rd imm)) = .standardInstruction (.lui rd imm) := by
  have h := uFields 0x37#7 rd imm
  simp [Enc.rvOp, decodeScalar, h]

theorem rv_auipc (rd : Reg) (imm : BitVec 20) : decodeScalar (Enc.rvOp (.auipc rd imm)) = .standardInstruction (.auipc rd imm) := by
  have h := uFields 0x17#7 rd imm
  simp [Enc.rvOp, decodeScalar, h]

theorem rv_jal (rd : Reg) (off : BitVec 20) : decodeScalar (Enc.rvOp (.jal rd off)) = .standardInstruction (.jal rd off) := by
  have h := jFields rd off
  simp [Enc.rvOp, decodeScalar, h]

theorem rv_jalr (rd rs1 : Reg) (imm : BitVec 12) : decodeScalar (Enc.rvOp (.jalr rd rs1 imm)) = .standardInstruction (.jalr rd rs1 imm) := by
  have h := iFields 0x67#7 rd 0#3 rs1 imm
  simp [Enc.rvOp, decodeScalar, h]

theorem rv_branch (c : BrCond) (rs1 rs2 : Reg) (off : BitVec 12) :
    decodeScalar (Enc.rvOp (.branch c rs1 rs2 off)) = .standardInstruction (.branch c rs1 rs2 off) := by
  generalize hw : Enc.rvOp (.branch c rs1 rs2 off) = w
  have h := bFields_of hw.symm
  simp only [decodeScalar, Dec.branchD, h]
  cases c <;> rfl

theorem rv_opImm (o : ImmOp) (rd rs1 : Reg) (imm : BitVec 12) :
    decodeScalar (Enc.rvOp (.opImm o rd rs1 imm)) = .standardInstruction (.opImm o rd rs1 imm) := by
  generalize hw : Enc.rvOp (.opImm o rd rs1 imm) = w
  have h := iFields_of hw.symm
  simp only [decodeScalar, Dec.opImm, h]
  cases o <;> rfl

theorem shFields (f3 : BitVec 3) (op : BitVec 7) (rd rs1 : Reg) (a sh : BitVec 6) {w : Word} (hw : w = Enc.i op rd f3 rs1 (a ++ sh)) :
    w.extractLsb' 0 7 = op ∧ Dec.f3 w = f3 ∧ Dec.rd w = rd ∧ Dec.rs1 w = rs1 ∧ w.extractLsb' 26 6 = a ∧ w.extractLsb' 20 6 = sh := by
  subst hw
  have h := iFields op rd f3 rs1 (a ++ sh)
  have g := iBits op rd f3 rs1 (a ++ sh)
  simp (disch := omega) only [extract_low, extract_high, Nat.reduceSub, extract_all] at g
  exact ⟨h.1, h.2.2.1, h.2.1, h.2.2.2.1, g.2.2.2.2.2.2.1, g.2.2.2.2.2.2.2⟩

theorem rv_shImm (o : ShOp) (rd rs1 : Reg) (sh : BitVec 6) :
    decodeScalar (Enc.rvOp (.shImm o rd rs1 sh)) = .standardInstruction (.shImm o rd rs1 sh) := by
  generalize hw : Enc.rvOp (.shImm o rd rs1 sh) = w
  cases o <;> have h := shFields _ _ _ _ _ _ hw.symm <;> simp [decodeScalar, Dec.opImm, Dec.opImm32, h]

theorem rv_addiw (rd rs1 : Reg) (imm : BitVec 12) : decodeScalar (Enc.rvOp (.addiw rd rs1 imm)) = .standardInstruction (.addiw rd rs1 imm) := by
  have h := iFields 0x1B#7 rd 0#3 rs1 imm
  simp [Enc.rvOp, decodeScalar, Dec.opImm32, h]

theorem rv_shImmW (o : ShWOp) (rd rs1 : Reg) (sh : BitVec 5) :
    decodeScalar (Enc.rvOp (.shImmW o rd rs1 sh)) = .standardInstruction (.shImmW o rd rs1 sh) := by
  cases o
  · have h := rFields 0x1B#7 rd 1#3 rs1 sh 0#7
    have g := rBits 0x1B#7 rd 1#3 rs1 sh 0#7
    simp [Enc.rvOp, decodeScalar, Dec.opImm32, h, g]
  · have h := rFields 0x1B#7 rd 5#3 rs1 sh 0#7
    simp [Enc.rvOp, decodeScalar, Dec.opImm32, h]
  · have h := rFields 0x1B#7 rd 5#3 rs1 sh 0x20#7
    simp [Enc.rvOp, decodeScalar, Dec.opImm32, h]
  · have h := rFields 0x1B#7 rd 5#3 rs1 sh 0x30#7
    simp [Enc.rvOp, decodeScalar, Dec.opImm32, h]

theorem rv_op (o : AluOp) (rd rs1 rs2 : Reg) : decodeScalar (Enc.rvOp (.op o rd rs1 rs2)) = .standardInstruction (.op o rd rs1 rs2) := by
  have h := rFields 0x33#7 rd (Enc.aluCodes o).2 rs1 rs2 (Enc.aluCodes o).1
  simp only [Enc.rvOp, decodeScalar, Dec.op, h]
  cases o <;> rfl

theorem rv_opW (o : AluWOp) (rd rs1 rs2 : Reg) : decodeScalar (Enc.rvOp (.opW o rd rs1 rs2)) = .standardInstruction (.opW o rd rs1 rs2) := by
  have h := rFields 0x3B#7 rd (Enc.aluWCodes o).2 rs1 rs2 (Enc.aluWCodes o).1
  simp only [Enc.rvOp, decodeScalar, Dec.op32, h]
  cases o <;> rfl

theorem unFields (f3 : BitVec 3) (op : BitVec 7) (rd rs1 : Reg) (imm : BitVec 12) {w : Word} (hw : w = Enc.i op rd f3 rs1 imm) :
    w.extractLsb' 0 7 = op ∧ Dec.f3 w = f3 ∧ Dec.rd w = rd ∧ Dec.rs1 w = rs1 ∧ Dec.imm12 w = imm ∧ w.extractLsb' 26 6 = imm.extractLsb' 6 6 ∧
    Dec.f7 w = imm.extractLsb' 5 7 := by
  subst hw
  have h := iFields op rd f3 rs1 imm
  have g := iBits op rd f3 rs1 imm
  refine ⟨h.1, h.2.2.1, h.2.1, h.2.2.2.1, h.2.2.2.2, g.2.2.2.2.2.2.1, ?_⟩
  simp (disch := omega) only [Enc.i, Dec.f7, extract_high, Nat.reduceSub]

theorem rv_un (o : UnOp) (rd rs1 : Reg) : decodeScalar (Enc.rvOp (.un o rd rs1)) = .standardInstruction (.un o rd rs1) := by
  cases o
  case zextH =>
    have h := rFields 0x3B#7 rd 4#3 rs1 0#5 4#7
    simp [Enc.rvOp, decodeScalar, Dec.op32, Dec.aluWOp, h]
  all_goals
    generalize hw : Enc.rvOp _ = w
    have h := unFields _ _ _ _ _ hw.symm
    simp [decodeScalar, Dec.opImm, Dec.opImm32, h]

theorem rv_csr (o : CsrOp) (imm : Bool) (rd src : Reg) (addr : BitVec 12) :
    decodeScalar (Enc.rvOp (.csr o imm rd src addr)) = .standardInstruction (.csr o imm rd src addr) := by
  generalize hw : Enc.rvOp (.csr o imm rd src addr) = w
  have h := iFields_of hw.symm
  simp only [decodeScalar, Dec.system, h]
  cases imm <;> cases o <;> rfl

theorem rv_fma (o : FmaOp) (dbl : Bool) (rd rs1 rs2 rs3 : Reg) (rm : BitVec 3) :
    decodeScalar (Enc.rvOp (.fma o dbl rd rs1 rs2 rs3 rm)) = .standardInstruction (.fma o dbl rd rs1 rs2 rs3 rm) := by
  generalize hw : Enc.rvOp (.fma o dbl rd rs1 rs2 rs3 rm) = w
  have h := amoFields (p := false) hw.symm
  have g : (w.extractLsb' 25 2) = 0#1 ++ Enc.b1 dbl := by
    obtain ⟨-, -, -, -, -, -, h25, h26⟩ := h
    apply BitVec.eq_of_getLsbD_eq
    intro k hk
    have : k = 0 ∨ k = 1 := by omega
    rcases this with rfl | rfl
    · rw [BitVec.getLsbD_extractLsb', h25]; cases dbl <;> rfl
    · rw [BitVec.getLsbD_extractLsb', h26]; cases dbl <;> rfl
  simp only [decodeScalar, Dec.fmaD, h, g]
  cases dbl <;> cases o <;> rfl

theorem rv_fop (o : FpOp) (dbl : Bool) (rd rs1 rs2 : Reg) (rm : BitVec 3) :
    decodeScalar (Enc.rvOp (.fop o dbl rd rs1 rs2 rm)) = .standardInstruction (.fop o dbl rd rs1 rs2 rm) := by
  generalize hw : Enc.rvOp (.fop o dbl rd rs1 rs2 rm) = w
  have h := fpFields_of hw.symm
  simp only [decodeScalar, Dec.opFp, h]
  cases o <;> rfl

theorem rv_fsqrt (dbl : Bool) (rd rs1 : Reg) (rm : BitVec 3) :
    decodeScalar (Enc.rvOp (.fsqrt dbl rd rs1 rm)) = .standardInstruction (.fsqrt dbl rd rs1 rm) := by
  generalize hw : Enc.rvOp (.fsqrt dbl rd rs1 rm) = w
  have h := fpFields_of hw.symm
  simp only [decodeScalar, Dec.opFp, h]
  rfl

theorem rv_fsgn (o : FsgnOp) (dbl : Bool) (rd rs1 rs2 : Reg) :
    decodeScalar (Enc.rvOp (.fsgn o dbl rd rs1 rs2)) = .standardInstruction (.fsgn o dbl rd rs1 rs2) := by
  generalize hw : Enc.rvOp (.fsgn o dbl rd rs1 rs2) = w
  have h := fpFields_of hw.symm
  simp only [decodeScalar, Dec.opFp, h]
  cases o <;> rfl

theorem rv_fminmax (mx dbl : Bool) (rd rs1 rs2 : Reg) :
    decodeScalar (Enc.rvOp (.fminmax mx dbl rd rs1 rs2)) = .standardInstruction (.fminmax mx dbl rd rs1 rs2) := by
  generalize hw : Enc.rvOp (.fminmax mx dbl rd rs1 rs2) = w
  have h := fpFields_of hw.symm
  simp only [decodeScalar, Dec.opFp, h]
  cases mx <;> rfl

theorem rv_fcmp (o : FcmpOp) (dbl : Bool) (rd rs1 rs2 : Reg) :
    decodeScalar (Enc.rvOp (.fcmp o dbl rd rs1 rs2)) = .standardInstruction (.fcmp o dbl rd rs1 rs2) := by
  generalize hw : Enc.rvOp (.fcmp o dbl rd rs1 rs2) = w
  have h := fpFields_of hw.symm
  simp only [decodeScalar, Dec.opFp, h]
  cases o <;> rfl

theorem rv_fclass (dbl : Bool) (rd rs1 : Reg) : decodeScalar (Enc.rvOp (.fclass dbl rd rs1)) = .standardInstruction (.fclass dbl rd rs1) := by
  generalize hw : Enc.rvOp (.fclass dbl rd rs1) = w
  have h := fpFields_of hw.symm
  simp only [decodeScalar, Dec.opFp, h]
  rfl

theorem rv_fcvtInt (t : IntFmt) (dbl : Bool) (rd rs1 : Reg) (rm : BitVec 3) :
    decodeScalar (Enc.rvOp (.fcvtInt t dbl rd rs1 rm)) = .standardInstruction (.fcvtInt t dbl rd rs1 rm) := by
  generalize hw : Enc.rvOp (.fcvtInt t dbl rd rs1 rm) = w
  have h := fpFields_of hw.symm
  simp only [decodeScalar, Dec.opFp, h]
  cases t <;> rfl

theorem rv_fcvtFrom (t : IntFmt) (dbl : Bool) (rd rs1 : Reg) (rm : BitVec 3) :
    decodeScalar (Enc.rvOp (.fcvtFrom t dbl rd rs1 rm)) = .standardInstruction (.fcvtFrom t dbl rd rs1 rm) := by
  generalize hw : Enc.rvOp (.fcvtFrom t dbl rd rs1 rm) = w
  have h := fpFields_of hw.symm
  simp only [decodeScalar, Dec.opFp, h]
  cases t <;> rfl

theorem rv_fcvtFmt (d : Bool) (rd rs1 : Reg) (rm : BitVec 3) :
    decodeScalar (Enc.rvOp (.fcvtFmt d rd rs1 rm)) = .standardInstruction (.fcvtFmt d rd rs1 rm) := by
  generalize hw : Enc.rvOp (.fcvtFmt d rd rs1 rm) = w
  have h := fpFields_of hw.symm
  simp only [decodeScalar, Dec.opFp, h]
  cases d <;> rfl

theorem rv_fmvToX (dbl : Bool) (rd rs1 : Reg) : decodeScalar (Enc.rvOp (.fmvToX dbl rd rs1)) = .standardInstruction (.fmvToX dbl rd rs1) := by
  generalize hw : Enc.rvOp (.fmvToX dbl rd rs1) = w
  have h := fpFields_of hw.symm
  simp only [decodeScalar, Dec.opFp, h]
  rfl

theorem rv_fmvFromX (dbl : Bool) (rd rs1 : Reg) : decodeScalar (Enc.rvOp (.fmvFromX dbl rd rs1)) = .standardInstruction (.fmvFromX dbl rd rs1) := by
  generalize hw : Enc.rvOp (.fmvFromX dbl rd rs1) = w
  have h := fpFields_of hw.symm
  simp only [decodeScalar, Dec.opFp, h]
  rfl

theorem lane_op (op func : Nat) (w : LaneWord) (ho : op < 256) : ((encodeLaneFields op func w).extractLsb' 0 8).toNat = op := by
  simp (disch := omega) only [encodeLaneFields, extract_low, extract_all]
  exact Nat.mod_eq_of_lt ho

theorem lane_func (op func : Nat) (w : LaneWord) (ho : func < 256) : ((encodeLaneFields op func w).extractLsb' 8 8).toNat = func := by
  simp (disch := omega) only [encodeLaneFields, extract_low, extract_high, Nat.reduceSub, extract_all]
  exact Nat.mod_eq_of_lt ho

theorem sel_of {w : LaneWord} {n : Nat} (h : w.vc.toNat / 16 = n) (hn : n < 8) : (w.vc.extractLsb' 4 3).toNat = n := by
  rw [BitVec.extractLsb'_toNat, Nat.shiftRight_eq_div_pow]; omega

theorem extra_of {i : Instr} (h : laneOk i = true) : laneExtra i = true := by
  unfold laneOk at h
  split at h
  · exact (Bool.and_eq_true _ _ ▸ h).2
  · cases h

theorem leNat_leBytes (n v : Nat) (h : v < 256 ^ n) : leNat (leBytes n v) = v := by
  induction n generalizing v with
  | zero => simp only [Nat.pow_zero] at h; simp [leBytes, leNat]; omega
  | succ n ih =>
    have h2 : v / 256 < 256 ^ n := by
      rw [Nat.div_lt_iff_lt_mul (by decide)]; rw [Nat.pow_succ] at h; exact h
    simp only [leBytes, leNat, ih _ h2, BitVec.toNat_ofNat]
    omega

theorem leBytes_length (n v : Nat) : (leBytes n v).length = n := by
  induction n generalizing v with
  | zero => rfl
  | succ n ih => simp [leBytes, ih]

theorem scalar_bytes (w : Word) (rest : List Byte) : decodeBytes false (leBytes 4 w.toNat ++ rest) = some (decodeScalar w, rest) := by
  have h := leNat_leBytes 4 w.toNat w.isLt
  have l := leBytes_length 4 w.toNat
  simp [decodeBytes, l, h]

theorem lane_bytes (w : BitVec 96) (rest : List Byte) : decodeBytes true (leBytes 12 w.toNat ++ rest) = some (decodeLane w, rest) := by
  have h := leNat_leBytes 12 w.toNat w.isLt
  have l := leBytes_length 12 w.toNat
  simp [decodeBytes, l, h]

end Sys2Proof.Laws.Words
end

