-- ==== Sys2Proof/Laws/PerInstr.lean ====
section
/-! SUPPORT. Statements for every instruction, one lemma per constructor of Instr. Family Encoding: the word that the
encoder gives a well-formed instruction is a word that the decoder reads as that instruction; an event has no word. -/

namespace Sys2Proof.Laws.Encoding

open Sys2Proof.Laws.Words

set_option Elab.async false

/-- The words of a well-formed instruction decode to it. -/
def Statement (i : Instr) : Prop :=
  wf i = true →
    (∀ w, encodeScalar i = some w → decodeScalar w = i) ∧
    (encodeScalar i = none → ∀ w, encodeLane i = some w → decodeLane w = i)

theorem of_scalar {i : Instr} {w : Word} (e : encodeScalar i = some w) (d : wf i = true → decodeScalar w = i) : Statement i := by
  intro h
  refine ⟨fun v hv => ?_, fun hn => ?_⟩
  · rw [e] at hv; rw [← Option.some.inj hv]; exact d h
  · rw [e] at hn; cases hn

theorem of_word {i : Instr} {w : Word} (e : encodeScalar i = some w) (d : ∀ v, v = w → decodeScalar v = i) : Statement i :=
  of_scalar e fun _ => d w rfl

theorem of_event {i : Instr} (e : encodeScalar i = none) (l : encodeLane i = none) : Statement i :=
  fun _ => ⟨fun v hv => by (rw [e] at hv; cases hv), fun _ v hv => by (rw [l] at hv; cases hv)⟩

theorem of_lane {i : Instr} (op func : Nat) (w : LaneWord) (ho : op < 256) (e : encodeScalar i = none)
    (l : encodeLane i = some (encodeLaneFields op func w)) (d : wf i = true → func < 256 ∧ laneCtor op func w = some i) :
    Statement i := by
  intro h
  refine ⟨fun v hv => ?_, fun _ v hv => ?_⟩
  · rw [e] at hv; cases hv
  · obtain ⟨hf, hc⟩ := d h
    rw [l] at hv; rw [← Option.some.inj hv, decodeLane, lane_op _ _ _ ho, lane_func _ _ _ hf, laneFields_encode, hc]

theorem semWait (rd rs1 rs2 : Reg) : Statement (.semWait rd rs1 rs2) :=
  of_scalar rfl fun _ => by
    have h := rFields 0x0B#7 rd 0#3 rs1 rs2 0#7
    simp [decodeScalar, Dec.custom0, h]

theorem semSig (rd rs1 rs2 : Reg) : Statement (.semSig rd rs1 rs2) :=
  of_scalar rfl fun _ => by
    have h := rFields 0x0B#7 rd 0#3 rs1 rs2 1#7
    simp [decodeScalar, Dec.custom0, h]

theorem semTry (rd rs1 rs2 : Reg) : Statement (.semTry rd rs1 rs2) :=
  of_scalar rfl fun _ => by
    have h := rFields 0x0B#7 rd 0#3 rs1 rs2 2#7
    simp [decodeScalar, Dec.custom0, h]

theorem semRead (rd rs1 : Reg) : Statement (.semRead rd rs1) :=
  of_scalar rfl fun _ => by
    have h := rFields 0x0B#7 rd 0#3 rs1 0#5 3#7
    simp [decodeScalar, Dec.custom0, h]

theorem semWaiti (rd : Reg) (sem : BitVec 8) (n : BitVec 4) : Statement (.semWaiti rd sem n) :=
  of_scalar rfl fun _ => by
    have h := iFields 0x0B#7 rd 1#3 0#5 (n ++ sem)
    have g := iBits 0x0B#7 rd 1#3 0#5 (n ++ sem)
    simp (disch := omega) only [extract_low, extract_high, Nat.reduceSub, extract_all] at g
    simp [decodeScalar, Dec.custom0, h, g]

theorem semSigi (rd : Reg) (sem : BitVec 8) (n : BitVec 4) : Statement (.semSigi rd sem n) :=
  of_scalar rfl fun _ => by
    have h := iFields 0x0B#7 rd 2#3 0#5 (n ++ sem)
    have g := iBits 0x0B#7 rd 2#3 0#5 (n ++ sem)
    simp (disch := omega) only [extract_low, extract_high, Nat.reduceSub, extract_all] at g
    simp [decodeScalar, Dec.custom0, h, g]

theorem futNew (rd : Reg) : Statement (.futNew rd) :=
  of_scalar rfl fun _ => by
    have h := rFields 0x0B#7 rd 3#3 0#5 0#5 0#7
    simp [decodeScalar, Dec.custom0, h]

theorem futSet (rs1 rs2 : Reg) : Statement (.futSet rs1 rs2) :=
  of_scalar rfl fun _ => by
    have h := rFields 0x0B#7 0#5 3#3 rs1 rs2 1#7
    simp [decodeScalar, Dec.custom0, h]

theorem futWait (rd rs1 : Reg) : Statement (.futWait rd rs1) :=
  of_scalar rfl fun _ => by
    have h := rFields 0x0B#7 rd 3#3 rs1 0#5 2#7
    simp [decodeScalar, Dec.custom0, h]

theorem futPoll (rd rs1 : Reg) : Statement (.futPoll rd rs1) :=
  of_scalar rfl fun _ => by
    have h := rFields 0x0B#7 rd 3#3 rs1 0#5 3#7
    simp [decodeScalar, Dec.custom0, h]

theorem futPoison (rs1 : Reg) : Statement (.futPoison rs1) :=
  of_scalar rfl fun _ => by
    have h := rFields 0x0B#7 0#5 3#3 rs1 0#5 4#7
    simp [decodeScalar, Dec.custom0, h]

theorem futFree (rs1 : Reg) : Statement (.futFree rs1) :=
  of_scalar rfl fun _ => by
    have h := rFields 0x0B#7 0#5 3#3 rs1 0#5 5#7
    simp [decodeScalar, Dec.custom0, h]

theorem contSpawn (rs1 rs2 : Reg) : Statement (.contSpawn rs1 rs2) :=
  of_scalar rfl fun _ => by
    have h := rFields 0x2B#7 0#5 0#3 rs1 rs2 0#7
    simp [decodeScalar, Dec.custom1, h]

theorem joinAdd (rd rs1 rs2 : Reg) : Statement (.joinAdd rd rs1 rs2) :=
  of_scalar rfl fun _ => by
    have h := rFields 0x2B#7 rd 0#3 rs1 rs2 2#7
    simp [decodeScalar, Dec.custom1, h]

theorem msgSend (rs1 rs2 : Reg) : Statement (.msgSend rs1 rs2) :=
  of_scalar rfl fun _ => by
    have h := rFields 0x2B#7 0#5 1#3 rs1 rs2 0#7
    simp [decodeScalar, Dec.custom1, h]

theorem msgReply (rs1 rs2 : Reg) : Statement (.msgReply rs1 rs2) :=
  of_scalar rfl fun _ => by
    have h := rFields 0x2B#7 0#5 1#3 rs1 rs2 1#7
    simp [decodeScalar, Dec.custom1, h]

theorem msgSendh (rs1 rs2 : Reg) : Statement (.msgSendh rs1 rs2) :=
  of_scalar rfl fun _ => by
    have h := rFields 0x2B#7 0#5 1#3 rs1 rs2 2#7
    simp [decodeScalar, Dec.custom1, h]

theorem msgRecv (rd rs1 : Reg) : Statement (.msgRecv rd rs1) :=
  of_scalar rfl fun _ => by
    have h := rFields 0x2B#7 rd 1#3 rs1 0#5 3#7
    simp [decodeScalar, Dec.custom1, h]

theorem mbRead (rd : Reg) (mb : BitVec 3) : Statement (.mbRead rd mb) :=
  of_scalar rfl fun _ => by
    have h := iFields 0x2B#7 rd 2#3 0#5 (0#9 ++ mb)
    have g := iBits 0x2B#7 rd 2#3 0#5 (0#9 ++ mb)
    simp (disch := omega) only [extract_low, extract_high, Nat.reduceSub, extract_all] at g
    simp [decodeScalar, Dec.custom1, h, g]

theorem mbWrite (mb : BitVec 3) (rs1 : Reg) : Statement (.mbWrite mb rs1) :=
  of_scalar rfl fun _ => by
    have h := iFields 0x2B#7 0#5 3#3 rs1 (0#9 ++ mb)
    have g := iBits 0x2B#7 0#5 3#3 rs1 (0#9 ++ mb)
    simp (disch := omega) only [extract_low, extract_high, Nat.reduceSub, extract_all] at g
    simp [decodeScalar, Dec.custom1, h, g]

theorem mbSwap (rd : Reg) (mb : BitVec 3) (rs1 : Reg) : Statement (.mbSwap rd mb rs1) :=
  of_scalar rfl fun _ => by
    have h := iFields 0x2B#7 rd 4#3 rs1 (0#9 ++ mb)
    have g := iBits 0x2B#7 rd 4#3 rs1 (0#9 ++ mb)
    simp (disch := omega) only [extract_low, extract_high, Nat.reduceSub, extract_all] at g
    simp [decodeScalar, Dec.custom1, h, g]

theorem engKick (rs1 rs2 : Reg) (scope : BitVec 3) : Statement (.engKick rs1 rs2 scope) :=
  of_scalar rfl fun _ => by
    have h := rFields 0x5B#7 0#5 0#3 rs1 rs2 (0#4 ++ scope)
    have g := rBits 0x5B#7 0#5 0#3 rs1 rs2 (0#4 ++ scope)
    simp (disch := omega) only [extract_low, extract_high, Nat.reduceSub, extract_all] at g
    simp [decodeScalar, Dec.custom2, h, g]

theorem engRdv (rd rs1 : Reg) : Statement (.engRdv rd rs1) :=
  of_scalar rfl fun _ => by
    have h := rFields 0x5B#7 rd 1#3 rs1 0#5 0#7
    simp [decodeScalar, Dec.custom2, h]

theorem cohDecl (rd rs1 : Reg) : Statement (.cohDecl rd rs1) :=
  of_scalar rfl fun _ => by
    have h := rFields 0x5B#7 rd 2#3 rs1 0#5 0#7
    simp [decodeScalar, Dec.custom2, h]

theorem cohRel (rs1 : Reg) : Statement (.cohRel rs1) :=
  of_scalar rfl fun _ => by
    have h := rFields 0x5B#7 0#5 2#3 rs1 0#5 1#7
    simp [decodeScalar, Dec.custom2, h]

theorem scalarCwb (rs1 rs2 : Reg) : Statement (.scalarCwb rs1 rs2) :=
  of_scalar rfl fun _ => by
    have h := rFields 0x5B#7 0#5 3#3 rs1 rs2 0#7
    simp [decodeScalar, Dec.custom2, h]

theorem scalarCinv (rs1 rs2 : Reg) : Statement (.scalarCinv rs1 rs2) :=
  of_scalar rfl fun _ => by
    have h := rFields 0x5B#7 0#5 3#3 rs1 rs2 1#7
    simp [decodeScalar, Dec.custom2, h]

theorem scalarCflush (rs1 rs2 : Reg) : Statement (.scalarCflush rs1 rs2) :=
  of_scalar rfl fun _ => by
    have h := rFields 0x5B#7 0#5 3#3 rs1 rs2 2#7
    simp [decodeScalar, Dec.custom2, h]

theorem hotRead (rd rs1 : Reg) : Statement (.hotRead rd rs1) :=
  of_scalar rfl fun _ => by
    have h := rFields 0x5B#7 rd 4#3 rs1 0#5 0#7
    simp [decodeScalar, Dec.custom2, h]

theorem hotClr (rs1 : Reg) : Statement (.hotClr rs1) :=
  of_scalar rfl fun _ => by
    have h := rFields 0x5B#7 0#5 4#3 rs1 0#5 1#7
    simp [decodeScalar, Dec.custom2, h]

theorem fenceS (scope : BitVec 2) (sem : BitVec 4) : Statement (.fenceS scope sem) :=
  of_scalar rfl fun _ => by
    have h := rFields 0x5B#7 0#5 5#3 0#5 0#5 (scope ++ sem ++ 0#1)
    have g := rBits 0x5B#7 0#5 5#3 0#5 0#5 (scope ++ sem ++ 0#1)
    simp (disch := omega) only [extract_low, extract_high, Nat.reduceSub, extract_all] at g
    simp [decodeScalar, Dec.custom2, h, g]

theorem scalarStq (rs1 rs2 : Reg) : Statement (.scalarStq rs1 rs2) :=
  of_scalar rfl fun _ => by
    have h := rFields 0x5B#7 0#5 6#3 rs1 rs2 0#7
    simp [decodeScalar, Dec.custom2, h]

theorem tlbInv (rs1 rs2 : Reg) : Statement (.tlbInv rs1 rs2) :=
  of_scalar rfl fun _ => by
    have h := rFields 0x5B#7 0#5 7#3 rs1 rs2 2#7
    simp [decodeScalar, Dec.custom2, h]

theorem amoAdd (a : AmoArgs) : Statement (.amoAdd a) :=
  of_scalar rfl fun _ => by
    have h := amo3Fields 0#3 a
    simp [decodeScalar, Dec.custom3, h]

theorem amoSwap (a : AmoArgs) : Statement (.amoSwap a) :=
  of_scalar rfl fun _ => by
    have h := amo3Fields 1#3 a
    simp [decodeScalar, Dec.custom3, h]

theorem amoAnd (a : AmoArgs) : Statement (.amoAnd a) :=
  of_scalar rfl fun _ => by
    have h := amo3Fields 2#3 a
    simp [decodeScalar, Dec.custom3, h]

theorem amoOr (a : AmoArgs) : Statement (.amoOr a) :=
  of_scalar rfl fun _ => by
    have h := amo3Fields 3#3 a
    simp [decodeScalar, Dec.custom3, h]

theorem amoXor (a : AmoArgs) : Statement (.amoXor a) :=
  of_scalar rfl fun _ => by
    have h := amo3Fields 4#3 a
    simp [decodeScalar, Dec.custom3, h]

theorem amoMax (a : AmoArgs) : Statement (.amoMax a) :=
  of_scalar rfl fun _ => by
    have h := amo3Fields 5#3 a
    simp [decodeScalar, Dec.custom3, h]

theorem amoFadd (a : AmoArgs) : Statement (.amoFadd a) :=
  of_scalar rfl fun _ => by
    have h := amo3Fields 6#3 a
    simp [decodeScalar, Dec.custom3, h]

theorem amoCas (a : AmoArgs) : Statement (.amoCas a) :=
  of_scalar rfl fun _ => by
    have h := amo3Fields 7#3 a
    simp [decodeScalar, Dec.custom3, h]

theorem fenceRv (fm pred succ : BitVec 4) (rd rs1 : Reg) : Statement (.fenceRv fm pred succ rd rs1) :=
  of_scalar rfl fun _ => by
    have h := iFields 0x0F#7 rd 0#3 rs1 (fm ++ pred ++ succ)
    have g := iBits 0x0F#7 rd 0#3 rs1 (fm ++ pred ++ succ)
    simp (disch := omega) only [extract_low, extract_high, Nat.reduceSub, extract_all] at g
    simp [decodeScalar, Dec.miscMem, h, g]

theorem fenceI (imm : BitVec 12) (rd rs1 : Reg) : Statement (.fenceI imm rd rs1) :=
  of_scalar rfl fun _ => by
    have h := iFields 0x0F#7 rd 1#3 rs1 imm
    simp [decodeScalar, Dec.miscMem, h]

theorem sfenceVma (rs1 rs2 : Reg) : Statement (.sfenceVma rs1 rs2) :=
  of_scalar rfl fun _ => by
    have h := rFields 0x73#7 0#5 0#3 rs1 rs2 9#7
    simp [decodeScalar, Dec.system, h]

theorem laneAdd (w : LaneWord) : Statement (.laneAdd w) :=
  of_lane 0x00 0 w (by decide) rfl rfl fun _ => ⟨by decide, rfl⟩

theorem laneSub (w : LaneWord) : Statement (.laneSub w) :=
  of_lane 0x00 1 w (by decide) rfl rfl fun _ => ⟨by decide, rfl⟩

theorem laneMul (w : LaneWord) : Statement (.laneMul w) :=
  of_lane 0x00 2 w (by decide) rfl rfl fun _ => ⟨by decide, rfl⟩

theorem mulhi (w : LaneWord) : Statement (.mulhi w) :=
  of_lane 0x00 3 w (by decide) rfl rfl fun _ => ⟨by decide, rfl⟩

theorem laneMin (w : LaneWord) : Statement (.laneMin w) :=
  of_lane 0x00 4 w (by decide) rfl rfl fun _ => ⟨by decide, rfl⟩

theorem laneMax (w : LaneWord) : Statement (.laneMax w) :=
  of_lane 0x00 5 w (by decide) rfl rfl fun _ => ⟨by decide, rfl⟩

theorem laneAbs (w : LaneWord) : Statement (.laneAbs w) :=
  of_lane 0x00 6 w (by decide) rfl rfl fun _ => ⟨by decide, rfl⟩

theorem laneNeg (w : LaneWord) : Statement (.laneNeg w) :=
  of_lane 0x00 7 w (by decide) rfl rfl fun _ => ⟨by decide, rfl⟩

theorem addLi (w : LaneWord) : Statement (.addLi w) :=
  of_lane 0x40 0 w (by decide) rfl rfl fun _ => ⟨by decide, rfl⟩

theorem subLi (w : LaneWord) : Statement (.subLi w) :=
  of_lane 0x40 1 w (by decide) rfl rfl fun _ => ⟨by decide, rfl⟩

theorem mulLi (w : LaneWord) : Statement (.mulLi w) :=
  of_lane 0x40 2 w (by decide) rfl rfl fun _ => ⟨by decide, rfl⟩

theorem mulhiLi (w : LaneWord) : Statement (.mulhiLi w) :=
  of_lane 0x40 3 w (by decide) rfl rfl fun _ => ⟨by decide, rfl⟩

theorem minLi (w : LaneWord) : Statement (.minLi w) :=
  of_lane 0x40 4 w (by decide) rfl rfl fun _ => ⟨by decide, rfl⟩

theorem maxLi (w : LaneWord) : Statement (.maxLi w) :=
  of_lane 0x40 5 w (by decide) rfl rfl fun _ => ⟨by decide, rfl⟩

theorem imad (w : LaneWord) : Statement (.imad w) :=
  of_lane 0x01 0 w (by decide) rfl rfl fun _ => ⟨by decide, rfl⟩

theorem laneAnd (w : LaneWord) : Statement (.laneAnd w) :=
  of_lane 0x02 0 w (by decide) rfl rfl fun _ => ⟨by decide, rfl⟩

theorem laneOr (w : LaneWord) : Statement (.laneOr w) :=
  of_lane 0x02 1 w (by decide) rfl rfl fun _ => ⟨by decide, rfl⟩

theorem laneXor (w : LaneWord) : Statement (.laneXor w) :=
  of_lane 0x02 2 w (by decide) rfl rfl fun _ => ⟨by decide, rfl⟩

theorem laneNot (w : LaneWord) : Statement (.laneNot w) :=
  of_lane 0x02 3 w (by decide) rfl rfl fun _ => ⟨by decide, rfl⟩

theorem andn (w : LaneWord) : Statement (.andn w) :=
  of_lane 0x02 4 w (by decide) rfl rfl fun _ => ⟨by decide, rfl⟩

theorem andLi (w : LaneWord) : Statement (.andLi w) :=
  of_lane 0x42 0 w (by decide) rfl rfl fun _ => ⟨by decide, rfl⟩

theorem orLi (w : LaneWord) : Statement (.orLi w) :=
  of_lane 0x42 1 w (by decide) rfl rfl fun _ => ⟨by decide, rfl⟩

theorem xorLi (w : LaneWord) : Statement (.xorLi w) :=
  of_lane 0x42 2 w (by decide) rfl rfl fun _ => ⟨by decide, rfl⟩

theorem andnLi (w : LaneWord) : Statement (.andnLi w) :=
  of_lane 0x42 4 w (by decide) rfl rfl fun _ => ⟨by decide, rfl⟩

theorem shl (w : LaneWord) : Statement (.shl w) :=
  of_lane 0x03 0 w (by decide) rfl rfl fun _ => ⟨by decide, rfl⟩

theorem shr (w : LaneWord) : Statement (.shr w) :=
  of_lane 0x03 1 w (by decide) rfl rfl fun _ => ⟨by decide, rfl⟩

theorem sha (w : LaneWord) : Statement (.sha w) :=
  of_lane 0x03 2 w (by decide) rfl rfl fun _ => ⟨by decide, rfl⟩

theorem rol (w : LaneWord) : Statement (.rol w) :=
  of_lane 0x03 3 w (by decide) rfl rfl fun _ => ⟨by decide, rfl⟩

theorem ror (w : LaneWord) : Statement (.ror w) :=
  of_lane 0x03 4 w (by decide) rfl rfl fun _ => ⟨by decide, rfl⟩

theorem shlLi (w : LaneWord) : Statement (.shlLi w) :=
  of_lane 0x43 0 w (by decide) rfl rfl fun _ => ⟨by decide, rfl⟩

theorem shrLi (w : LaneWord) : Statement (.shrLi w) :=
  of_lane 0x43 1 w (by decide) rfl rfl fun _ => ⟨by decide, rfl⟩

theorem shaLi (w : LaneWord) : Statement (.shaLi w) :=
  of_lane 0x43 2 w (by decide) rfl rfl fun _ => ⟨by decide, rfl⟩

theorem rolLi (w : LaneWord) : Statement (.rolLi w) :=
  of_lane 0x43 3 w (by decide) rfl rfl fun _ => ⟨by decide, rfl⟩

theorem rorLi (w : LaneWord) : Statement (.rorLi w) :=
  of_lane 0x43 4 w (by decide) rfl rfl fun _ => ⟨by decide, rfl⟩

theorem popc (w : LaneWord) : Statement (.popc w) :=
  of_lane 0x04 0 w (by decide) rfl rfl fun _ => ⟨by decide, rfl⟩

theorem clz (w : LaneWord) : Statement (.clz w) :=
  of_lane 0x04 1 w (by decide) rfl rfl fun _ => ⟨by decide, rfl⟩

theorem ctz (w : LaneWord) : Statement (.ctz w) :=
  of_lane 0x04 2 w (by decide) rfl rfl fun _ => ⟨by decide, rfl⟩

theorem brev (w : LaneWord) : Statement (.brev w) :=
  of_lane 0x04 3 w (by decide) rfl rfl fun _ => ⟨by decide, rfl⟩

theorem bfx (w : LaneWord) : Statement (.bfx w) :=
  of_lane 0x04 4 w (by decide) rfl rfl fun _ => ⟨by decide, rfl⟩

theorem bfi (w : LaneWord) : Statement (.bfi w) :=
  of_lane 0x04 5 w (by decide) rfl rfl fun _ => ⟨by decide, rfl⟩

theorem fadd (w : LaneWord) : Statement (.fadd w) :=
  of_lane 0x05 0 w (by decide) rfl rfl fun _ => ⟨by decide, rfl⟩

theorem fsub (w : LaneWord) : Statement (.fsub w) :=
  of_lane 0x05 1 w (by decide) rfl rfl fun _ => ⟨by decide, rfl⟩

theorem fmul (w : LaneWord) : Statement (.fmul w) :=
  of_lane 0x05 2 w (by decide) rfl rfl fun _ => ⟨by decide, rfl⟩

theorem fmin (w : LaneWord) : Statement (.fmin w) :=
  of_lane 0x05 3 w (by decide) rfl rfl fun _ => ⟨by decide, rfl⟩

theorem fmax (w : LaneWord) : Statement (.fmax w) :=
  of_lane 0x05 4 w (by decide) rfl rfl fun _ => ⟨by decide, rfl⟩

theorem fabs (w : LaneWord) : Statement (.fabs w) :=
  of_lane 0x05 5 w (by decide) rfl rfl fun _ => ⟨by decide, rfl⟩

theorem fneg (w : LaneWord) : Statement (.fneg w) :=
  of_lane 0x05 6 w (by decide) rfl rfl fun _ => ⟨by decide, rfl⟩

theorem faddLi (w : LaneWord) : Statement (.faddLi w) :=
  of_lane 0x45 0 w (by decide) rfl rfl fun _ => ⟨by decide, rfl⟩

theorem fsubLi (w : LaneWord) : Statement (.fsubLi w) :=
  of_lane 0x45 1 w (by decide) rfl rfl fun _ => ⟨by decide, rfl⟩

theorem fmulLi (w : LaneWord) : Statement (.fmulLi w) :=
  of_lane 0x45 2 w (by decide) rfl rfl fun _ => ⟨by decide, rfl⟩

theorem fminLi (w : LaneWord) : Statement (.fminLi w) :=
  of_lane 0x45 3 w (by decide) rfl rfl fun _ => ⟨by decide, rfl⟩

theorem fmaxLi (w : LaneWord) : Statement (.fmaxLi w) :=
  of_lane 0x45 4 w (by decide) rfl rfl fun _ => ⟨by decide, rfl⟩

theorem fma (w : LaneWord) : Statement (.fma w) :=
  of_lane 0x06 0 w (by decide) rfl rfl fun _ => ⟨by decide, rfl⟩

theorem fms (w : LaneWord) : Statement (.fms w) :=
  of_lane 0x06 1 w (by decide) rfl rfl fun _ => ⟨by decide, rfl⟩

theorem fnma (w : LaneWord) : Statement (.fnma w) :=
  of_lane 0x06 2 w (by decide) rfl rfl fun _ => ⟨by decide, rfl⟩

theorem fdiv (w : LaneWord) : Statement (.fdiv w) :=
  of_lane 0x07 0 w (by decide) rfl rfl fun _ => ⟨by decide, rfl⟩

theorem fsqrt (w : LaneWord) : Statement (.fsqrt w) :=
  of_lane 0x07 1 w (by decide) rfl rfl fun _ => ⟨by decide, rfl⟩

theorem icmp (w : LaneWord) : Statement (.icmp w) :=
  of_lane 0x08 0 w (by decide) rfl rfl fun _ => ⟨by decide, rfl⟩

theorem fcmp (w : LaneWord) : Statement (.fcmp w) :=
  of_lane 0x08 1 w (by decide) rfl rfl fun _ => ⟨by decide, rfl⟩

theorem fclass (w : LaneWord) : Statement (.fclass w) :=
  of_lane 0x08 2 w (by decide) rfl rfl fun _ => ⟨by decide, rfl⟩

theorem icmpLi (w : LaneWord) : Statement (.icmpLi w) :=
  of_lane 0x48 0 w (by decide) rfl rfl fun _ => ⟨by decide, rfl⟩

theorem fcmpLi (w : LaneWord) : Statement (.fcmpLi w) :=
  of_lane 0x48 1 w (by decide) rfl rfl fun _ => ⟨by decide, rfl⟩

theorem sel (w : LaneWord) : Statement (.sel w) :=
  of_lane 0x09 0 w (by decide) rfl rfl fun _ => ⟨by decide, rfl⟩

theorem selLi (w : LaneWord) : Statement (.selLi w) :=
  of_lane 0x49 0 w (by decide) rfl rfl fun _ => ⟨by decide, rfl⟩

theorem pand (w : LaneWord) : Statement (.pand w) :=
  of_lane 0x13 0 w (by decide) rfl rfl fun _ => ⟨by decide, rfl⟩

theorem por (w : LaneWord) : Statement (.por w) :=
  of_lane 0x13 1 w (by decide) rfl rfl fun _ => ⟨by decide, rfl⟩

theorem pxor (w : LaneWord) : Statement (.pxor w) :=
  of_lane 0x13 2 w (by decide) rfl rfl fun _ => ⟨by decide, rfl⟩

theorem pnot (w : LaneWord) : Statement (.pnot w) :=
  of_lane 0x13 3 w (by decide) rfl rfl fun _ => ⟨by decide, rfl⟩

theorem pmov (w : LaneWord) : Statement (.pmov w) :=
  of_lane 0x13 4 w (by decide) rfl rfl fun _ => ⟨by decide, rfl⟩

theorem cvt (w : LaneWord) : Statement (.cvt w) :=
  of_lane 0x0A 0 w (by decide) rfl rfl fun _ => ⟨by decide, rfl⟩

theorem qnt (w : LaneWord) : Statement (.qnt w) :=
  of_lane 0x0B 0 w (by decide) rfl rfl fun _ => ⟨by decide, rfl⟩

theorem aln (w : LaneWord) : Statement (.aln w) :=
  of_lane 0x0C 0 w (by decide) rfl rfl fun _ => ⟨by decide, rfl⟩

theorem shflIdx (w : LaneWord) : Statement (.shflIdx w) :=
  of_lane 0x0D 0 w (by decide) rfl rfl fun _ => ⟨by decide, rfl⟩

theorem shflXor (w : LaneWord) : Statement (.shflXor w) :=
  of_lane 0x0D 1 w (by decide) rfl rfl fun _ => ⟨by decide, rfl⟩

theorem shflUp (w : LaneWord) : Statement (.shflUp w) :=
  of_lane 0x0D 2 w (by decide) rfl rfl fun _ => ⟨by decide, rfl⟩

theorem shflDn (w : LaneWord) : Statement (.shflDn w) :=
  of_lane 0x0D 3 w (by decide) rfl rfl fun _ => ⟨by decide, rfl⟩

theorem bcst (w : LaneWord) : Statement (.bcst w) :=
  of_lane 0x0E 0 w (by decide) rfl rfl fun _ => ⟨by decide, rfl⟩

theorem voteAny (w : LaneWord) : Statement (.voteAny w) :=
  of_lane 0x0F 0 w (by decide) rfl rfl fun _ => ⟨by decide, rfl⟩

theorem voteAll (w : LaneWord) : Statement (.voteAll w) :=
  of_lane 0x0F 1 w (by decide) rfl rfl fun _ => ⟨by decide, rfl⟩

theorem voteMask (w : LaneWord) : Statement (.voteMask w) :=
  of_lane 0x0F 2 w (by decide) rfl rfl fun _ => ⟨by decide, rfl⟩

theorem reduce (w : LaneWord) : Statement (.reduce w) :=
  of_lane 0x10 0 w (by decide) rfl rfl fun _ => ⟨by decide, rfl⟩

theorem scan (w : LaneWord) : Statement (.scan w) :=
  of_lane 0x11 0 w (by decide) rfl rfl fun _ => ⟨by decide, rfl⟩

theorem mov (w : LaneWord) : Statement (.mov w) :=
  of_lane 0x12 0 w (by decide) rfl rfl fun _ => ⟨by decide, rfl⟩

theorem movu (w : LaneWord) : Statement (.movu w) :=
  of_lane 0x12 1 w (by decide) rfl rfl fun _ => ⟨by decide, rfl⟩

theorem movx (w : LaneWord) : Statement (.movx w) :=
  of_lane 0x12 2 w (by decide) rfl rfl fun _ => ⟨by decide, rfl⟩

theorem movi (w : LaneWord) : Statement (.movi w) :=
  of_lane 0x52 0 w (by decide) rfl rfl fun _ => ⟨by decide, rfl⟩

theorem krd (w : LaneWord) : Statement (.krd w) :=
  of_lane 0x14 0 w (by decide) rfl rfl fun _ => ⟨by decide, rfl⟩

theorem kwr (w : LaneWord) : Statement (.kwr w) :=
  of_lane 0x14 1 w (by decide) rfl rfl fun _ => ⟨by decide, rfl⟩

theorem lfmRd (w : LaneWord) : Statement (.lfmRd w) :=
  of_lane 0x15 0 w (by decide) rfl rfl fun _ => ⟨by decide, rfl⟩

theorem lfmWr (w : LaneWord) : Statement (.lfmWr w) :=
  of_lane 0x15 1 w (by decide) rfl rfl fun _ => ⟨by decide, rfl⟩

theorem sfx (fn : BitVec 8) (w : LaneWord) : Statement (.sfx fn w) :=
  of_lane 0x16 fn.toNat w (by decide) rfl rfl fun h => by
    have h' : laneExtra (.sfx fn w) = true := extra_of h
    have hf : fn.toNat ≤ 8 := of_decide_eq_true h'
    refine ⟨by omega, ?_⟩
    show (if fn.toNat ≤ 8 then _ else _) = _
    rw [if_pos hf]
    simp

theorem sfxWait (w : LaneWord) : Statement (.sfxWait w) :=
  of_lane 0x17 0 w (by decide) rfl rfl fun _ => ⟨by decide, rfl⟩

theorem rsvSeed (w : LaneWord) : Statement (.rsvSeed w) :=
  of_lane 0x20 0 w (by decide) rfl rfl fun _ => ⟨by decide, rfl⟩

theorem rsvUpd (w : LaneWord) : Statement (.rsvUpd w) :=
  of_lane 0x20 1 w (by decide) rfl rfl fun _ => ⟨by decide, rfl⟩

theorem rsvMrg (w : LaneWord) : Statement (.rsvMrg w) :=
  of_lane 0x20 2 w (by decide) rfl rfl fun _ => ⟨by decide, rfl⟩

theorem rsvFin (w : LaneWord) : Statement (.rsvFin w) :=
  of_lane 0x20 3 w (by decide) rfl rfl fun _ => ⟨by decide, rfl⟩

theorem rsvGet (w : LaneWord) : Statement (.rsvGet w) :=
  of_lane 0x20 4 w (by decide) rfl rfl fun _ => ⟨by decide, rfl⟩

theorem rsvDraw (w : LaneWord) : Statement (.rsvDraw w) :=
  of_lane 0x20 5 w (by decide) rfl rfl fun _ => ⟨by decide, rfl⟩

theorem ld (w : LaneWord) : Statement (.ld w) :=
  of_lane 0x80 0 w (by decide) rfl rfl fun _ => ⟨by decide, rfl⟩

theorem st (w : LaneWord) : Statement (.st w) :=
  of_lane 0x81 0 w (by decide) rfl rfl fun _ => ⟨by decide, rfl⟩

theorem stn (w : LaneWord) : Statement (.stn w) :=
  of_lane 0x82 0 w (by decide) rfl rfl fun _ => ⟨by decide, rfl⟩

theorem atomAdd (w : LaneWord) : Statement (.atomAdd w) :=
  of_lane 0x83 0 w (by decide) rfl rfl fun _ => ⟨by decide, rfl⟩

theorem atomSwap (w : LaneWord) : Statement (.atomSwap w) :=
  of_lane 0x83 1 w (by decide) rfl rfl fun _ => ⟨by decide, rfl⟩

theorem atomAnd (w : LaneWord) : Statement (.atomAnd w) :=
  of_lane 0x83 2 w (by decide) rfl rfl fun _ => ⟨by decide, rfl⟩

theorem atomOr (w : LaneWord) : Statement (.atomOr w) :=
  of_lane 0x83 3 w (by decide) rfl rfl fun _ => ⟨by decide, rfl⟩

theorem atomXor (w : LaneWord) : Statement (.atomXor w) :=
  of_lane 0x83 4 w (by decide) rfl rfl fun _ => ⟨by decide, rfl⟩

theorem atomMax (w : LaneWord) : Statement (.atomMax w) :=
  of_lane 0x83 5 w (by decide) rfl rfl fun _ => ⟨by decide, rfl⟩

theorem atomFadd (w : LaneWord) : Statement (.atomFadd w) :=
  of_lane 0x83 6 w (by decide) rfl rfl fun _ => ⟨by decide, rfl⟩

theorem atomCas (w : LaneWord) : Statement (.atomCas w) :=
  of_lane 0x83 7 w (by decide) rfl rfl fun _ => ⟨by decide, rfl⟩

theorem lds (w : LaneWord) : Statement (.lds w) :=
  of_lane 0x84 0 w (by decide) rfl rfl fun _ => ⟨by decide, rfl⟩

theorem sts (w : LaneWord) : Statement (.sts w) :=
  of_lane 0x85 0 w (by decide) rfl rfl fun _ => ⟨by decide, rfl⟩

theorem fence (w : LaneWord) : Statement (.fence w) :=
  of_lane 0x86 0 w (by decide) rfl rfl fun _ => ⟨by decide, rfl⟩

theorem cwb (w : LaneWord) : Statement (.cwb w) :=
  of_lane 0x87 0 w (by decide) rfl rfl fun _ => ⟨by decide, rfl⟩

theorem cinv (w : LaneWord) : Statement (.cinv w) :=
  of_lane 0x87 1 w (by decide) rfl rfl fun _ => ⟨by decide, rfl⟩

theorem cflush (w : LaneWord) : Statement (.cflush w) :=
  of_lane 0x87 2 w (by decide) rfl rfl fun _ => ⟨by decide, rfl⟩

theorem stq (w : LaneWord) : Statement (.stq w) :=
  of_lane 0x88 0 w (by decide) rfl rfl fun _ => ⟨by decide, rfl⟩

theorem pfh (w : LaneWord) : Statement (.pfh w) :=
  of_lane 0x89 0 w (by decide) rfl rfl fun _ => ⟨by decide, rfl⟩

theorem texSmp (w : LaneWord) : Statement (.texSmp w) :=
  of_lane 0x8A 0 w (by decide) rfl rfl fun _ => ⟨by decide, rfl⟩

theorem texFch (w : LaneWord) : Statement (.texFch w) :=
  of_lane 0x8A 1 w (by decide) rfl rfl fun _ => ⟨by decide, rfl⟩

theorem bra (w : LaneWord) : Statement (.bra w) :=
  of_lane 0xC0 0 w (by decide) rfl rfl fun _ => ⟨by decide, rfl⟩

theorem brx (w : LaneWord) : Statement (.brx w) :=
  of_lane 0xC1 0 w (by decide) rfl rfl fun _ => ⟨by decide, rfl⟩

theorem reconv (w : LaneWord) : Statement (.reconv w) :=
  of_lane 0xC2 0 w (by decide) rfl rfl fun _ => ⟨by decide, rfl⟩

theorem exit (w : LaneWord) : Statement (.exit w) :=
  of_lane 0xC3 0 w (by decide) rfl rfl fun _ => ⟨by decide, rfl⟩

theorem mig (w : LaneWord) : Statement (.mig w) :=
  of_lane 0xC4 0 w (by decide) rfl rfl fun _ => ⟨by decide, rfl⟩

theorem barArv (w : LaneWord) : Statement (.barArv w) :=
  of_lane 0xC5 0 w (by decide) rfl rfl fun _ => ⟨by decide, rfl⟩

theorem barWait (w : LaneWord) : Statement (.barWait w) :=
  of_lane 0xC5 1 w (by decide) rfl rfl fun _ => ⟨by decide, rfl⟩

theorem safe (w : LaneWord) : Statement (.safe w) :=
  of_lane 0xC6 0 w (by decide) rfl rfl fun _ => ⟨by decide, rfl⟩

theorem yield (w : LaneWord) : Statement (.yield w) :=
  of_lane 0xC7 0 w (by decide) rfl rfl fun _ => ⟨by decide, rfl⟩

theorem nop (w : LaneWord) : Statement (.nop w) :=
  of_lane 0xCB 0 w (by decide) rfl rfl fun _ => ⟨by decide, rfl⟩

theorem spawn (w : LaneWord) : Statement (.spawn w) :=
  of_lane 0xC8 0 w (by decide) rfl rfl fun _ => ⟨by decide, rfl⟩

theorem fwait (w : LaneWord) : Statement (.fwait w) :=
  of_lane 0xC9 0 w (by decide) rfl rfl fun _ => ⟨by decide, rfl⟩

theorem send (w : LaneWord) : Statement (.send w) :=
  of_lane 0xCA 0 w (by decide) rfl rfl fun _ => ⟨by decide, rfl⟩

theorem mld (w : LaneWord) : Statement (.mld w) :=
  of_lane 0x21 0 w (by decide) rfl rfl fun _ => ⟨by decide, rfl⟩

theorem mmaG (w : LaneWord) : Statement (.mmaG w) :=
  of_lane 0x22 0 w (by decide) rfl rfl fun _ => ⟨by decide, rfl⟩

theorem accZero (w : LaneWord) : Statement (.accZero w) :=
  of_lane 0x23 0 w (by decide) rfl rfl fun _ => ⟨by decide, rfl⟩

theorem ringAdv (w : LaneWord) : Statement (.ringAdv w) :=
  of_lane 0x23 1 w (by decide) rfl rfl fun _ => ⟨by decide, rfl⟩

theorem ringWait (w : LaneWord) : Statement (.ringWait w) :=
  of_lane 0x23 2 w (by decide) rfl rfl fun _ => ⟨by decide, rfl⟩

theorem blmEmit (w : LaneWord) : Statement (.blmEmit w) :=
  of_lane 0x24 0 w (by decide) rfl rfl fun _ => ⟨by decide, rfl⟩

theorem blmRead (w : LaneWord) : Statement (.blmRead w) :=
  of_lane 0x24 1 w (by decide) rfl rfl fun _ => ⟨by decide, rfl⟩

theorem blmAdvance (w : LaneWord) : Statement (.blmAdvance w) :=
  of_lane 0x24 2 w (by decide) rfl rfl fun h => by
    have h' : laneExtra (.blmAdvance w) = true := extra_of h
    refine ⟨by decide, ?_⟩
    show some (blmWrite w) = _
    rw [blmWrite, sel_of (of_decide_eq_true h') (by decide)]
    rfl

theorem blmFlush (w : LaneWord) : Statement (.blmFlush w) :=
  of_lane 0x24 2 w (by decide) rfl rfl fun h => by
    have h' : laneExtra (.blmFlush w) = true := extra_of h
    refine ⟨by decide, ?_⟩
    show some (blmWrite w) = _
    rw [blmWrite, sel_of (of_decide_eq_true h') (by decide)]
    rfl

theorem blmClear (w : LaneWord) : Statement (.blmClear w) :=
  of_lane 0x24 2 w (by decide) rfl rfl fun h => by
    have h' : laneExtra (.blmClear w) = true := extra_of h
    refine ⟨by decide, ?_⟩
    show some (blmWrite w) = _
    rw [blmWrite, sel_of (of_decide_eq_true h') (by decide)]
    rfl

theorem resv (w : LaneWord) : Statement (.resv w) :=
  of_lane 0x25 0 w (by decide) rfl rfl fun _ => ⟨by decide, rfl⟩

theorem commit (w : LaneWord) : Statement (.commit w) :=
  of_lane 0x25 1 w (by decide) rfl rfl fun _ => ⟨by decide, rfl⟩

theorem cancel (w : LaneWord) : Statement (.cancel w) :=
  of_lane 0x25 2 w (by decide) rfl rfl fun _ => ⟨by decide, rfl⟩

theorem emitV (w : LaneWord) : Statement (.emitV w) :=
  of_lane 0x25 3 w (by decide) rfl rfl fun _ => ⟨by decide, rfl⟩

theorem emitP (w : LaneWord) : Statement (.emitP w) :=
  of_lane 0x25 4 w (by decide) rfl rfl fun _ => ⟨by decide, rfl⟩

theorem reservedLaneOpcode (w : BitVec 96) : Statement (.reservedLaneOpcode w) :=
  fun h => ⟨fun _ e => (by cases e), fun _ v e => by
    have hv : w = v := Option.some.inj e
    rw [← hv]; exact of_decide_eq_true h⟩

theorem messageDepart (queue : Nat) (n : Nat) : Statement (.messageDepart queue n) :=
  of_event rfl rfl

theorem messageArrival (n : Nat) : Statement (.messageArrival n) :=
  of_event rfl rfl

theorem laneSignalLand (waves : List Nat) : Statement (.laneSignalLand waves) :=
  of_event rfl rfl

theorem laneMemoryComplete (wave : Nat) (n : Nat) : Statement (.laneMemoryComplete wave n) :=
  of_event rfl rfl

theorem sfxResult (wave : Nat) (tok : Nat) : Statement (.sfxResult wave tok) :=
  of_event rfl rfl

theorem migrationBlockGrant (crew : Nat) : Statement (.migrationBlockGrant crew) :=
  of_event rfl rfl

theorem mldStart (cluster : Nat) (n : Nat) : Statement (.mldStart cluster n) :=
  of_event rfl rfl

theorem mldComplete (cluster : Nat) (n : Nat) : Statement (.mldComplete cluster n) :=
  of_event rfl rfl

theorem mmaLatch (crew : Nat) : Statement (.mmaLatch crew) :=
  of_event rfl rfl

theorem mmaStart (cluster : Nat) : Statement (.mmaStart cluster) :=
  of_event rfl rfl

theorem mmaComplete (cluster : Nat) : Statement (.mmaComplete cluster) :=
  of_event rfl rfl

theorem launchRecordTake (q : Nat) : Statement (.launchRecordTake q) :=
  of_event rfl rfl

theorem crewAdmit (cluster : Nat) (cls : Nat) : Statement (.crewAdmit cluster cls) :=
  of_event rfl rfl

theorem admissionAgeLimit (cluster : Nat) : Statement (.admissionAgeLimit cluster) :=
  of_event rfl rfl

theorem waveStart (crew : Nat) (rank : Nat) : Statement (.waveStart crew rank) :=
  of_event rfl rfl

theorem frontEndStrandStart (crew : Nat) (rank : Nat) : Statement (.frontEndStrandStart crew rank) :=
  of_event rfl rfl

theorem continuationPop (cluster : Nat) (slot : UnitSlot) : Statement (.continuationPop cluster slot) :=
  of_event rfl rfl

theorem atomiserArrival (cluster : Nat) : Statement (.atomiserArrival cluster) :=
  of_event rfl rfl

theorem gatherWindowExpiry (cluster : Nat) : Statement (.gatherWindowExpiry cluster) :=
  of_event rfl rfl

theorem atomiserWaveForm (cluster : Nat) (n : Nat) : Statement (.atomiserWaveForm cluster n) :=
  of_event rfl rfl

theorem fragmentAgeLimit (wave : Nat) : Statement (.fragmentAgeLimit wave) :=
  of_event rfl rfl

theorem gtoAgeingLimit (engine : Nat) : Statement (.gtoAgeingLimit engine) :=
  of_event rfl rfl

theorem crewEnd (crew : Nat) : Statement (.crewEnd crew) :=
  of_event rfl rfl

theorem heldMessageDelivery (crew : Nat) : Statement (.heldMessageDelivery crew) :=
  of_event rfl rfl

theorem handlerStart (strand : Nat) : Statement (.handlerStart strand) :=
  of_event rfl rfl

theorem stqTarget (n : Nat) : Statement (.stqTarget n) :=
  of_event rfl rfl

theorem engineKickStart (engine : Nat) : Statement (.engineKickStart engine) :=
  of_event rfl rfl

theorem copyMove (engine : Nat) : Statement (.copyMove engine) :=
  of_event rfl rfl

theorem copyGather (engine : Nat) : Statement (.copyGather engine) :=
  of_event rfl rfl

theorem copyScatter (engine : Nat) : Statement (.copyScatter engine) :=
  of_event rfl rfl

theorem copyConvert (engine : Nat) : Statement (.copyConvert engine) :=
  of_event rfl rfl

theorem copyDelta (engine : Nat) : Statement (.copyDelta engine) :=
  of_event rfl rfl

theorem copyRle (engine : Nat) : Statement (.copyRle engine) :=
  of_event rfl rfl

theorem bloomEventArrival (n : Nat) : Statement (.bloomEventArrival n) :=
  of_event rfl rfl

theorem bloomFanoutJob (engine : Nat) : Statement (.bloomFanoutJob engine) :=
  of_event rfl rfl

theorem rasterMesh (cluster : Nat) : Statement (.rasterMesh cluster) :=
  of_event rfl rfl

theorem rasterBlockEmit (cluster : Nat) : Statement (.rasterBlockEmit cluster) :=
  of_event rfl rfl

theorem blendTicket (node : Nat) (block : Nat) : Statement (.blendTicket node block) :=
  of_event rfl rfl

theorem traverseRay (cluster : Nat) : Statement (.traverseRay cluster) :=
  of_event rfl rfl

theorem interruptTake (h : HartId) : Statement (.interruptTake h) :=
  of_event rfl rfl

theorem timerCompare (h : HartId) : Statement (.timerCompare h) :=
  of_event rfl rfl

theorem crewSave (crew : Nat) : Statement (.crewSave crew) :=
  of_event rfl rfl

theorem preemptDeadline (cluster : Nat) : Statement (.preemptDeadline cluster) :=
  of_event rfl rfl

theorem invalidationReceive (inv : Nat) (cluster : Nat) : Statement (.invalidationReceive inv cluster) :=
  of_event rfl rfl

theorem invalidationAck (inv : Nat) (cluster : Nat) : Statement (.invalidationAck inv cluster) :=
  of_event rfl rfl

theorem hotnessHalving (die : Nat) : Statement (.hotnessHalving die) :=
  of_event rfl rfl

theorem quantumFlush (n : Nat) : Statement (.quantumFlush n) :=
  of_event rfl rfl

theorem wqDoorbell (q : Nat) (v : Dword) : Statement (.wqDoorbell q v) :=
  of_event rfl rfl

theorem dmgangWrite (cluster : Nat) (v : Dword) : Statement (.dmgangWrite cluster v) :=
  of_event rfl rfl

theorem dmringWrite (cluster : Nat) (ring : Nat) (v : Dword) : Statement (.dmringWrite cluster ring v) :=
  of_event rfl rfl

theorem matrixKilled (cluster : Nat) (crew : Nat) (code : Nat) (addr : Dword) : Statement (.matrixKilled cluster crew code addr) :=
  of_event rfl rfl

theorem sillageInstall (cluster : Nat) (addr : Dword) : Statement (.sillageInstall cluster addr) :=
  of_event rfl rfl

theorem sillageTileRequest (cluster : Nat) (addr : Dword) : Statement (.sillageTileRequest cluster addr) :=
  of_event rfl rfl

theorem bloomInstall (cluster : Nat) (addr : Dword) : Statement (.bloomInstall cluster addr) :=
  of_event rfl rfl

theorem bloomUninstall (cluster : Nat) (v : Dword) : Statement (.bloomUninstall cluster v) :=
  of_event rfl rfl

theorem laneHandlerRun (wave : Nat) (offset : Dword) : Statement (.laneHandlerRun wave offset) :=
  of_event rfl rfl

theorem preemptRequest (cluster : Nat) (v : Dword) : Statement (.preemptRequest cluster v) :=
  of_event rfl rfl

theorem resume (v : Dword) : Statement (.resume v) :=
  of_event rfl rfl

theorem crewKill (crew : Nat) (code : Nat) : Statement (.crewKill crew code) :=
  of_event rfl rfl

theorem doorbell (v : Dword) : Statement (.doorbell v) :=
  of_event rfl rfl

theorem hostInterrupt (v : Dword) : Statement (.hostInterrupt v) :=
  of_event rfl rfl

theorem wectlWrite (engine : Nat) (v : Dword) : Statement (.wectlWrite engine v) :=
  of_event rfl rfl

theorem dlsplitWrite (h : HartId) (v : Dword) : Statement (.dlsplitWrite h v) :=
  of_event rfl rfl

theorem dlgroupWrite (h : HartId) (v : Dword) : Statement (.dlgroupWrite h v) :=
  of_event rfl rfl

theorem registerWrite (t : RegTarget) (v : Dword) : Statement (.registerWrite t v) :=
  of_event rfl rfl

theorem pageWalk (h : HartId) (va : Dword) (kind : AccessKind) : Statement (.pageWalk h va kind) :=
  of_event rfl rfl

theorem tokenRequest (cluster : Nat) (granule : Nat) (write : Bool) : Statement (.tokenRequest cluster granule write) :=
  of_event rfl rfl

theorem persistentRequest (cluster : Nat) (granule : Nat) (write : Bool) : Statement (.persistentRequest cluster granule write) :=
  of_event rfl rfl

theorem tokenEviction (cluster : Nat) (granule : Nat) : Statement (.tokenEviction cluster granule) :=
  of_event rfl rfl

theorem homeRecall (granule : Nat) : Statement (.homeRecall granule) :=
  of_event rfl rfl

theorem hostSnoop (line : Nat) (invalidate : Bool) : Statement (.hostSnoop line invalidate) :=
  of_event rfl rfl

theorem hostMemAccess (write : Bool) (addr : Nat) (data : List Byte) : Statement (.hostMemAccess write addr data) :=
  of_event rfl rfl

theorem backInvalidationResponse (line : Nat) : Statement (.backInvalidationResponse line) :=
  of_event rfl rfl

theorem flitReplay (link : Nat) (seq : Nat) : Statement (.flitReplay link seq) :=
  of_event rfl rfl

theorem linkRetrain (pair : Nat) (module : Nat) (ok : Bool) : Statement (.linkRetrain pair module ok) :=
  of_event rfl rfl

theorem halhelFailover (link : Nat) : Statement (.halhelFailover link) :=
  of_event rfl rfl

theorem eccCorrected (cluster : Nat) (addr : Nat) : Statement (.eccCorrected cluster addr) :=
  of_event rfl rfl

theorem eccUncorrected (addr : Nat) : Statement (.eccUncorrected addr) :=
  of_event rfl rfl

theorem coreReset (core : Nat) : Statement (.coreReset core) :=
  of_event rfl rfl

theorem attestation (nonce : List Byte) : Statement (.attestation nonce) :=
  of_event rfl rfl

theorem governorWindow (watts : Nat) (tj : Nat) : Statement (.governorWindow watts tj) :=
  of_event rfl rfl

theorem thermalTrip (tj : Nat) : Statement (.thermalTrip tj) :=
  of_event rfl rfl

theorem peerWindowAccess (op : PeerOp) (addr : Nat) (data : List Byte) : Statement (.peerWindowAccess op addr data) :=
  of_event rfl rfl

theorem thermalThrottle (tj : Nat) : Statement (.thermalThrottle tj) :=
  of_event rfl rfl

theorem contExit : Statement .contExit :=
  of_scalar rfl fun _ => by
    have h := rFields 0x2B#7 0#5 0#3 0#5 0#5 1#7
    simp [decodeScalar, Dec.custom1, h]

theorem migW : Statement .migW :=
  of_scalar rfl fun _ => by
    have h := rFields 0x2B#7 0#5 5#3 0#5 0#5 0#7
    simp [decodeScalar, Dec.custom1, h]

theorem scalarYield : Statement .scalarYield :=
  of_scalar rfl fun _ => by
    have h := rFields 0x5B#7 0#5 7#3 0#5 0#5 0#7
    simp [decodeScalar, Dec.custom2, h]

theorem scalarSafe : Statement .scalarSafe :=
  of_scalar rfl fun _ => by
    have h := rFields 0x5B#7 0#5 7#3 0#5 0#5 1#7
    simp [decodeScalar, Dec.custom2, h]

theorem crewExpand : Statement .crewExpand :=
  of_event rfl rfl

theorem imageLoad : Statement .imageLoad :=
  of_event rfl rfl

theorem imageUnload : Statement .imageUnload :=
  of_event rfl rfl

theorem bringUp : Statement .bringUp :=
  of_event rfl rfl

theorem standardLoadStore (op : LsOp) : Statement (.standardLoadStore op) :=
  of_scalar rfl fun _ => by
    cases op with
    | load x rd rs1 imm =>
      have h := iFields 0x03#7 rd (match x with | .b => 0#3 | .h => 1#3 | .w => 2#3 | .d => 3#3 | .bu => 4#3 | .hu => 5#3 | .wu => 6#3) rs1 imm
      cases x <;> simp only [Enc.lsOp] <;> simp [decodeScalar, Dec.load, h]
    | store x rs1 rs2 imm =>
      have h := sFields 0x23#7 (match x with | .b => 0#3 | .h => 1#3 | .w => 2#3 | .d => 3#3) rs1 rs2 imm
      cases x <;> simp only [Enc.lsOp] <;> simp [decodeScalar, Dec.store, h]
    | fload d rd rs1 imm =>
      have h := iFields 0x07#7 rd (if d then 3#3 else 2#3) rs1 imm
      simp only [Enc.lsOp, decodeScalar, Dec.loadFp, h]
      cases d <;> rfl
    | fstore d rs1 rs2 imm =>
      have h := sFields 0x27#7 (if d then 3#3 else 2#3) rs1 rs2 imm
      simp only [Enc.lsOp, decodeScalar, Dec.storeFp, h]
      cases d <;> rfl

theorem lr (d aq rl : Bool) (rd rs1 : Reg) : Statement (.lr d aq rl rd rs1) :=
  of_word rfl fun w hw => by
    have h := amoFields hw
    simp only [decodeScalar, Dec.amo, h]
    cases d <;> rfl

theorem sc (d aq rl : Bool) (rd rs1 rs2 : Reg) : Statement (.sc d aq rl rd rs1 rs2) :=
  of_word rfl fun w hw => by
    have h := amoFields hw
    simp only [decodeScalar, Dec.amo, h]
    cases d <;> rfl

theorem standardAmo (op : AmoOp) (d aq rl : Bool) (rd rs1 rs2 : Reg) : Statement (.standardAmo op d aq rl rd rs1 rs2) :=
  of_word rfl fun w hw => by
    have h := amoFields hw
    simp only [decodeScalar, Dec.amo, h]
    cases d <;> cases op <;> rfl

theorem ecall : Statement .ecall := of_scalar rfl fun _ => rfl

theorem ebreak : Statement .ebreak := of_scalar rfl fun _ => rfl

theorem sret : Statement .sret := of_scalar rfl fun _ => rfl

theorem wfi : Statement .wfi := of_scalar rfl fun _ => rfl

theorem standardInstruction (op : RvOp) : Statement (.standardInstruction op) :=
  of_scalar rfl fun h => by
    cases op with
    | lui rd imm => exact rv_lui rd imm
    | auipc rd imm => exact rv_auipc rd imm
    | jal rd off => exact rv_jal rd off
    | jalr rd rs1 imm => exact rv_jalr rd rs1 imm
    | branch c rs1 rs2 off => exact rv_branch c rs1 rs2 off
    | opImm o rd rs1 imm => exact rv_opImm o rd rs1 imm
    | shImm o rd rs1 sh => exact rv_shImm o rd rs1 sh
    | addiw rd rs1 imm => exact rv_addiw rd rs1 imm
    | shImmW o rd rs1 sh => exact rv_shImmW o rd rs1 sh
    | op o rd rs1 rs2 => exact rv_op o rd rs1 rs2
    | opW o rd rs1 rs2 => exact rv_opW o rd rs1 rs2
    | un o rd rs1 => exact rv_un o rd rs1
    | csr o imm rd src addr => exact rv_csr o imm rd src addr
    | fma o dbl rd rs1 rs2 rs3 rm => exact rv_fma o dbl rd rs1 rs2 rs3 rm
    | fop o dbl rd rs1 rs2 rm => exact rv_fop o dbl rd rs1 rs2 rm
    | fsqrt dbl rd rs1 rm => exact rv_fsqrt dbl rd rs1 rm
    | fsgn o dbl rd rs1 rs2 => exact rv_fsgn o dbl rd rs1 rs2
    | fminmax mx dbl rd rs1 rs2 => exact rv_fminmax mx dbl rd rs1 rs2
    | fcmp o dbl rd rs1 rs2 => exact rv_fcmp o dbl rd rs1 rs2
    | fclass dbl rd rs1 => exact rv_fclass dbl rd rs1
    | fcvtInt t dbl rd rs1 rm => exact rv_fcvtInt t dbl rd rs1 rm
    | fcvtFrom t dbl rd rs1 rm => exact rv_fcvtFrom t dbl rd rs1 rm
    | fcvtFmt d rd rs1 rm => exact rv_fcvtFmt d rd rs1 rm
    | fmvToX dbl rd rs1 => exact rv_fmvToX dbl rd rs1
    | fmvFromX dbl rd rs1 => exact rv_fmvFromX dbl rd rs1
    | illegal w => exact of_decide_eq_true h

end Sys2Proof.Laws.Encoding
end

