-- ==== Sys2Proof/Laws/Units.lean ====
section
/-! SUPPORT. Units that work on their own: special functions, the matrix engine, kicks, copy channels, Sillage, Bloom, graphics (R319 to R385). -/

namespace Sys2Proof.Machine

open Sys2Proof.Claim

set_option Elab.async false

theorem endWave_alive (s : State) (k : Nat) (h : (s.wave k).lanes ≠ 0) : runM (endWave k) s = s := by
  simp only [runM, endWave, bind_run, get_run, ite_run]
  have : ((s.wave k).lanes == 0) = false := by simpa using h
  rw [if_neg (by rw [this]; simp)]
  rfl

theorem writeReg_lanes (w : Wave) (n : Nat) (m : Mask) (f : Nat → Word) : (w.writeReg n m f).lanes = w.lanes := by
  simp only [Wave.writeReg]
  split
  · rfl
  · simp only [Wave.setRow]; split <;> rfl

theorem ev_sfx (s : State) (k tok : Nat) (op : SfxOp) (h1 : (s.wave k).sfx.find tok = some op) (h2 : (s.wave k).lanes ≠ 0) (h3 : (s.wave k).lhandler = none) :
    ∃ t : State, exec (.sfxResult k tok) s = .next t ∧ t = s.setWave k (t.wave k) ∧ (t.wave k).sfx = (s.wave k).sfx.del tok ∧
      (∀ l, l < 64 → Mask.has (op.mask &&& (s.wave k).lanes) l = true →
        (t.wave k).reg op.vd l = (sfxLane op l).val.setWidth 32) ∧
      (∀ r l, l < 64 → (r ≠ op.vd ∨ Mask.has (op.mask &&& (s.wave k).lanes) l = false) → (t.wave k).reg r l = (s.wave k).reg r l) := by
  rw [exec_sfxResult]
  simp only [execSfxResult, event, h1]
  refine ⟨_, rfl, ?_⟩
  have hA : ((s.wave k).applySfx op (op.mask &&& (s.wave k).lanes)).lanes = (s.wave k).lanes := by
    simp only [Wave.applySfx, Wave.orFlags, writeReg_lanes]
  have hB : ∀ n l, ((s.wave k).applySfx op (op.mask &&& (s.wave k).lanes)).reg n l =
      ((s.wave k).writeReg op.vd (op.mask &&& (s.wave k).lanes) fun l => (sfxLane op l).val.setWidth 32).reg n l := by
    intro n l
    simp only [Wave.applySfx]
    have := orFlags_regs ((s.wave k).writeReg op.vd (op.mask &&& (s.wave k).lanes) fun l => (sfxLane op l).val.setWidth 32) (op.mask &&& (s.wave k).lanes) (fun l => (sfxLane op l).flags)
    simp only [Wave.reg, Wave.row, this.1, this.2.1]
  generalize (s.wave k).applySfx op (op.mask &&& (s.wave k).lanes) = A at hA hB
  have hl : ((s.setWave k { A with sfx := (s.wave k).sfx.del tok }).wave k).lanes ≠ 0 := by
    rw [wave_setWave']
    exact hA ▸ h2
  rw [endWave_alive _ _ hl, wave_setWave']
  have hr : ∀ n l, Wave.reg { A with sfx := (s.wave k).sfx.del tok } n l = A.reg n l := fun _ _ => rfl
  refine ⟨rfl, rfl, fun l hl hm => ?_, fun r l hl h => ?_⟩
  · rw [hr, hB, reg_writeReg_on _ _ _ _ l hl hm (.inl h3)]
  · rw [hr, hB]
    rcases h with h | h
    · exact reg_writeReg_ne _ _ _ _ h
    · exact reg_writeReg_off _ _ _ _ _ l hl h

theorem cmd_n {s : State} {c n : Nat} {x : MatCmd} (h : s.cmd c n = some x) : x.n = n := by
  have := List.find?_some h
  simpa using this

theorem ev_mld (s : State) (c n : Nat) (x : MatCmd) (h : s.cmd c n = some x) :
    let m := (s.cluster c).matrix
    (m.mldFree x = true → (x.cls = 0 ∨ m.cmds.all (fun y => !(y.cls == 0 && m.mldFree y)) = true) →
      exec (.mldStart c n) s = .next (s.setCmd c n fun x => { x with started := true })) ∧
    (m.mldFree x = false → exec (.mldStart c n) s = .next s) ∧
    (∀ form src ns dptb, x.op = .mld form src ns dptb → x.started = true → x.fault = none →
      let acc := matAcc x.crew dptb
      let size := formCols form * formCb form
      (∀ bs ws u v, readTile acc src.toNat size 200 s = .ok bs u →
        (if ns then v = u ∧ ws = (List.range (4 * formCols form)).flatMap (fun _ => leBytes 4 0x7F7F)
         else readTile acc (src.toNat + size) (16 * formCols form) 200 u = .ok ws v) →
        ∃ t : State, exec (.mldComplete c n) s = .next t ∧
          (let mac := x.macs.headD 0
           let b := (v.cluster c).matrix.idleBank mac
           t.mem = Memory.write (Memory.write v.mem (bankKey c mac b 0) bs) (bankKey c mac b 0x8000) ws)) ∧
      (∀ e u, readTile acc src.toNat size 200 s = .error (.exc e) u →
        exec (.mldComplete c n) s = .next (u.setCmd c x.n fun x => { x with fault := some (e.code, e.tval) }))) := by
  intro m
  refine ⟨fun hf hc => ?_, fun hf => ?_, fun form src ns dptb ho hs hz => ?_⟩
  · rw [exec_mldStart]
    simp only [execMldStart, event, h]
    rw [if_pos]
    rw [show (s.cluster c).matrix = m from rfl, hf, Bool.true_and]
    rcases hc with hc | hc
    · simp [hc]
    · have : (m.cmds.any fun y => y.cls == 0 && m.mldFree y) = false := by
        rw [List.any_eq_false]; intro y hy
        have := List.all_eq_true.1 hc y hy
        rw [Bool.not_eq_true'] at this; rw [this]; decide
      rw [this]; simp
  · rw [exec_mldStart]
    simp only [execMldStart, event, h]
    rw [if_neg]
    rw [show (s.cluster c).matrix = m from rfl, hf]; simp
  · intro acc size
    have hx : exec (.mldComplete c n) s = .next (mldComplete c x form src ns dptb s) := by
      rw [exec_mldComplete]
      simp only [execMldComplete, event, h, ho, hs, hz]
      rfl
    rw [hx]
    refine ⟨fun bs ws u v hr hw => ?_, fun e u hr => ?_⟩
    · refine ⟨_, rfl, ?_⟩
      simp only [acc, size] at hr hw
      cases ns with
      | true =>
        simp only [if_true] at hw
        obtain ⟨rfl, rfl⟩ := hw
        simp only [mldComplete, bind_run, hr, if_true, pure_run]
        split
        · simp only [State.addAnom]; split <;> rfl
        · rfl
      | false =>
        simp only [Bool.false_eq_true, if_false] at hw
        simp only [mldComplete, bind_run, hr, Bool.false_eq_true, if_false, hw, pure_run]
        split
        · simp only [State.addAnom]; split <;> rfl
        · rfl
    · simp only [acc, size] at hr
      simp only [mldComplete, bind_run, hr]

theorem releaseWaves_none (l : List Nat) (s : State) (h : s.quantum = []) : s.releaseWaves l = s := by
  induction l with
  | nil => rfl
  | cons k t ih =>
    simp only [State.releaseWaves]
    rw [show s.releaseUnit (.wave k) 1 = s by simp [State.releaseUnit, State.performAll, h], ih]

theorem ev_latch (s : State) (crew : Nat) (r : CrewRef) (c : Crew) (as' : List MmaArrival) (h1 : s.crewAt crew = some (r, c))
    (h2 : (s.matCrew r.cluster r.slot).heads = as'.map some) (h3 : as' ≠ []) (h4 : ∀ a ∈ as', (s.wave a.wave).accesses = []) (h5 : s.quantum = []) :
    let m := s.matCrew r.cluster r.slot
    let check := latchCheck m (c.accRows (s.kernelOf c).waves) as'
    let fmt := gangFormat as'
    let q := (s.cluster r.cluster).matrix
    (∀ e, check = some e → exec (.mmaLatch crew) s = .next (s.settleMma r as' (some e) none)) ∧
    (check = none → (∀ a ∈ as', a.act = 0) → exec (.mmaLatch crew) s = .next (s.settleMma r as' none none)) ∧
    (check = none → (∃ a ∈ as', a.act ≠ 0) → (q.freeEntry c.cls = none → exec (.mmaLatch crew) s = .next s) ∧
      ∀ entry, q.freeEntry c.cls = some entry → exec (.mmaLatch crew) s =
        .next ((s.queueCmd r.cluster entry r c.cls ((Mma.macros fmt).map (Gang.mbase m.gang + ·))
          (.mma fmt (as'.map fun a => (a.rank, a.place.toNat)))).settleMma r as' none (some q.next))) := by
  intro m check fmt q
  have hf : (as'.map some).filterMap id = as' := by simp
  have hx : exec (.mmaLatch crew) s = .next (match check with
    | some e => s.settleMma r as' (some e) none
    | none =>
      if as'.all fun a => a.act == 0 then s.settleMma r as' none none
      else
        match q.freeEntry c.cls with
        | none => s
        | some entry => (s.queueCmd r.cluster entry r c.cls ((Mma.macros fmt).map (Gang.mbase m.gang + ·))
          (.mma fmt (as'.map fun a => (a.rank, a.place.toNat)))).settleMma r as' none (some q.next)) := by
    rw [exec_mmaLatch]
    simp only [execMmaLatch, event, h1, State.latch, h2, hf, List.length_map, Nat.lt_irrefl, if_false]
    rw [if_neg (by simpa using h3), if_neg (by simpa using h4)]
    simp only [releaseWaves_none _ _ h5]
    rfl
  rw [hx]
  refine ⟨fun e he => by simp only [he], fun he ha => ?_, fun he ha => ?_⟩
  · have : as'.all (fun a => a.act == 0) = true := by simpa using ha
    simp only [he, this, if_true]
  · have : as'.all (fun a => a.act == 0) = false := by
      rw [List.all_eq_false]
      obtain ⟨a, hm, hz⟩ := ha
      exact ⟨a, hm, by simpa using hz⟩
    simp only [he, this, Bool.false_eq_true, if_false]
    refine ⟨fun hn => by simp only [hn], fun entry hn => by simp only [hn]⟩

theorem setMatCrew_mem (s : State) (c k : Nat) (m : MatCrew) : (s.setMatCrew c k m).mem = s.mem := rfl

theorem modMatrix_mem (s : State) (c : Nat) (f : Matrix → Matrix) : (s.modMatrix c f).mem = s.mem := rfl

theorem setCmd_mem (s : State) (c n : Nat) (f : MatCmd → MatCmd) : (s.setCmd c n f).mem = s.mem := rfl

theorem setRing_mem (s : State) (r : CrewRef) (i : Nat) (x : Ring) : (s.setRing r i x).mem = s.mem := rfl

theorem addAnom_mem (s : State) (r : CrewRef) (n : Nat) : (s.addAnom r n).mem = s.mem := by
  simp only [State.addAnom]; split <;> rfl

theorem freeStat_mem (s : State) (r : CrewRef) (n : Nat) : (s.freeStat r n).mem = s.mem := rfl

theorem mmaRun_mem (s : State) (x : MatCmd) (c : Crew) (fmt : Word) (members : List (Nat × Nat)) : (mmaRun s x c fmt members).mem = s.mem := by
  simp only [mmaRun]
  have hs : (if Mma.swap fmt = true then
      s.modMatrix x.crew.cluster fun m => { m with active := m.active ^^^ BitVec.ofNat 32 ((x.macs.map (2 ^ ·)).sum) }
    else s).mem = s.mem := by split <;> rfl
  generalize (if Mma.swap fmt = true then
      s.modMatrix x.crew.cluster fun m => { m with active := m.active ^^^ BitVec.ofNat 32 ((x.macs.map (2 ^ ·)).sum) }
    else s) = u at *
  split
  · rw [setCmd_mem, hs]
  · split
    · rw [setCmd_mem]; exact hs
    · rw [setCmd_mem, setRing_mem]
      split
      · simp only [addAnom_mem, hs]
      · simp only [freeStat_mem, hs]

theorem ev_mmaStart (s : State) (c : Nat) (x : MatCmd) (fmt : Word) (members : List (Nat × Nat)) (crew : Crew)
    (h1 : (s.cluster c).matrix.nextMma = some x) (h2 : x.op = .mma fmt members) (h4 : s.crewOf x.crew = some crew) :
    let ring := (s.matCrew c x.crew.slot).ring (Mma.ring fmt)
    let waits := Mma.swap fmt && (s.cluster c).matrix.cmds.any fun y => y.op.isMld && decide (y.n < x.n) && y.meets x
    (ring.filled = ring.consumed ∨ waits = true → exec (.mmaStart c) s = .next s) ∧
    (ring.filled ≠ ring.consumed → waits = false → exec (.mmaStart c) s = .next (mmaRun s x crew fmt members) ∧
      (mmaRun s x crew fmt members).mem = s.mem) := by
  intro ring waits
  have hx : exec (.mmaStart c) s = .next (if ring.filled = ring.consumed ∨ waits = true then s else mmaRun s x crew fmt members) := by
    rw [exec_mmaStart]
    simp only [execMmaStart, event, h1, h2, h4]
    simp only [Bool.or_eq_true, decide_eq_true_eq, ring, waits]
  rw [hx]
  refine ⟨fun h => by rw [if_pos h], fun h hw => ⟨?_, mmaRun_mem _ _ _ _ _⟩⟩
  rw [if_neg]
  rintro (h' | h')
  · exact h h'
  · rw [hw] at h'; cases h'

theorem writeOuts_spec (os : List MatOut) (s : State) (f : Nat) : ∃ p, s.writeOuts os f = ({ s with mem := outsWritten os s.mem, poison := p }, os.foldl (fun f o => f ||| o.value.2) f) := by
  induction os generalizing s f with
  | nil => exact ⟨s.poison, rfl⟩
  | cons o t ih =>
    simp only [State.writeOuts]
    obtain ⟨p, hp⟩ := ih (s.poke o.key (leBytes 4 o.value.1.toNat)) (f ||| o.value.2)
    rw [hp]
    exact ⟨p, rfl⟩

theorem ev_mmaComplete (s : State) (c : Nat) (x : MatCmd) (h : ((s.cluster c).matrix.cmds.find? fun x => !x.op.isMld && x.started && x.fault.isNone) = some x) :
    ∃ t : State, exec (.mmaComplete c) s = .next t ∧ t.mem = outsWritten x.outs s.mem ∧
      t.matCrew c x.crew.slot = { s.matCrew c x.crew.slot with
        flags := (s.matCrew c x.crew.slot).flags ||| BitVec.ofNat 5 (outFlags x.outs) } ∧
      (t.cluster c).matrix.cmds = (s.cluster c).matrix.cmds.filter fun y => y.n != x.n := by
  rw [exec_mmaComplete]
  simp only [execMmaComplete, event, h]
  obtain ⟨p, hp⟩ := writeOuts_spec x.outs s 0
  rw [hp]
  refine ⟨_, rfl, rfl, ?_, ?_⟩
  · simp only [State.endCmd, State.setMatCrew, State.matCrew, State.modMatrix, State.cluster_setCluster, Map.getD_put_self]
    rfl
  · simp only [State.endCmd, State.setMatCrew, State.matCrew, State.modMatrix, State.cluster_setCluster]
    rfl

theorem ev_matKill (s : State) (cl crew code : Nat) (addr : Dword) (x : MatCmd) (c : Crew) (l : Launch)
    (h1 : ((s.cluster cl).matrix.cmds.find? fun x => x.crew.slot == crew % 8 && x.fault == some (code, addr)) = some x)
    (h2 : s.crewOf x.crew = some c) (h3 : s.launches.find c.launch = some l) :
    exec (.matrixKilled cl crew code addr) s = .next (killed s x.crew c l 20 code addr.toNat) := by
  rw [exec_matrixKilled]
  simp only [execMatrixKilled, event, h1, State.killCrew, h2, scrap_launches, h3]
  rfl

theorem ev_matWrite (s : State) (c : Nat) (r : CrewRef) (x : Crew) (h1 : s.sequencer c = true) (h2 : (s.engine (c * 7 + 4)).crew = some r)
    (h3 : s.crewOf r = some x) (h4 : s.matBusy r = false) :
    let k := c * 7 + 4
    (∀ v, (v.getLsbD 63 = true → Gang.ok v (s.kernelOf x).waves = true ∧ s.windowTaken r.cluster r.slot v = false) →
      exec (.dmgangWrite c v) s = .next (s.setMatCrew c (s.matSlot k) { s.matCrew c (s.matSlot k) with gang := v &&& Gang.mask })) ∧
    (∀ v, v.getLsbD 63 = true → Gang.ok v (s.kernelOf x).waves = false →
      exec (.dmgangWrite c v) s = .next (s.endKick k 2 0 0)) ∧
    (∀ ring v, ring < 4 → (v.getLsbD 63 = true → ({ desc := v } : Ring).size ≠ 0 ∧
        ({ desc := v } : Ring).base + ({ desc := v } : Ring).stages * ({ desc := v } : Ring).size ≤ x.scr * 16384) →
      exec (.dmringWrite c ring v) s = .next (s.setMatCrew c (s.matSlot k) { s.matCrew c (s.matSlot k) with
        rings := (s.matCrew c (s.matSlot k)).rings.set! ring { desc := v &&& Ring.mask } })) := by
  intro k
  have hk : k / 7 = c := by simp only [k]; omega
  have hb : ((s.engine k).crew.bind fun r => (s.crewOf r).map fun c => (r, c)) = some (r, x) := by
    rw [show (s.engine k).crew = some r from h2]; simp [h3]
  have hw : ∀ a v, s.matWrite c a v = match matGuard k a v s with
      | .ok _ t => t.writeMatrix k a v
      | .error (.exc e) t => t.endKick k e.code e.detail e.tval
      | .error _ t => t := by
    intro a v
    simp only [State.matWrite]
    rw [if_neg (by rw [h1]; decide)]
    all_goals rfl
  have hg0 : ∀ a v, a ≠ 0x8E6 → v.getLsbD 63 = false → matGuard k a v s = .ok () s := by
    intro a v ha hv
    simp only [matGuard, bind_run, get_run, ite_run, ha, ne_eq, not_false_iff, if_true, hb, h4, Bool.false_eq_true, if_false, pure_run, hv]
  refine ⟨fun v hv => ?_, fun v hv ho => ?_, fun ring v hr hv => ?_⟩
  · rw [exec_dmgangWrite]
    simp only [execDmgangWrite, event, hw]
    have hg : matGuard k 0x8E0 v s = .ok () s := by
      cases h : v.getLsbD 63
      · exact hg0 _ _ (by decide) h
      · obtain ⟨a1, a2⟩ := hv h
        have e1 : (0x8E0 : Nat) ≠ 0x8E6 := by decide
        simp only [matGuard, bind_run, get_run, ite_run, e1, ne_eq, not_false_iff, if_true, hb, h4, Bool.false_eq_true, if_false, pure_run, h, a1, a2, guardM_true]
    simp only [hg, State.writeMatrix, if_true, State.writeGang, hk]
  · rw [exec_dmgangWrite]
    simp only [execDmgangWrite, event, hw]
    have e1 : (0x8E0 : Nat) ≠ 0x8E6 := by decide
    have hg : matGuard k 0x8E0 v s = .error (.exc (excReserved 0)) s := by
      simp only [matGuard, bind_run, get_run, ite_run, e1, ne_eq, not_false_iff, if_true, hb, h4, Bool.false_eq_true, if_false, pure_run, hv, ho, guardM_false]
    simp only [hg]; rfl
  · rw [exec_dmringWrite]
    simp only [execDmringWrite, event, hr, if_true, hw]
    have e1 : 0x8E2 + ring ≠ 0x8E6 := by omega
    have e2 : 0x8E2 + ring ≠ 0x8E0 := by omega
    have hg : matGuard k (0x8E2 + ring) v s = .ok () s := by
      cases h : v.getLsbD 63
      · exact hg0 _ _ e1 h
      · obtain ⟨a1, a2⟩ := hv h
        simp only [matGuard, bind_run, get_run, ite_run, e1, ne_eq, not_false_iff, if_true, hb, h4, Bool.false_eq_true, if_false, pure_run, h, e2]
        have : ((({ desc := v } : Ring).size != 0) && decide (({ desc := v } : Ring).base + ({ desc := v } : Ring).stages * ({ desc := v } : Ring).size ≤ x.scr * 16384)) = true := by
          simp [a1, a2]
        rw [this]; rfl
    have e3 : 0x8E2 + ring - 0x8E2 = ring := by omega
    simp only [hg, State.writeMatrix, e2, e1, if_false, State.writeRing, hk, e3]

theorem leBytes4 (n : Nat) (h : n < 2 ^ 32) : natOfBytes (leBytes 4 n) = n := by
  simp [leBytes, natOfBytes]
  omega

theorem kickEntry_ok {s : State} {k : Nat} {kick : Kick} {rest : List Kick} {e : TlbEntry} {sec : Section} {entry : Nat}
    (h : KickReady s k kick rest e sec entry) : ∃ u : State, kickEntry k kick (kickTaken s k kick rest) = .ok (BitVec.ofNat 64 (sec.va + entry)) u ∧
      u.mem = s.mem ∧ LikeHarts (kickTaken s k kick rest) u := by
  obtain ⟨-, -, ⟨role, hr, hsec⟩, ha, hre, hw, hn, he, hi⟩ := h
  obtain ⟨u, hu, hm, hl⟩ := vread_reaches hre
  refine ⟨u, ?_, hm, hl⟩
  have hl' : (((kickTaken s k kick rest).launches.find kick.launch).map (·.img)).getD {} = imgOf s kick := rfl
  have t4 : (leBytes 4 entry ++ [(0 : Byte), 0, 0, 0]).take 4 = leBytes 4 entry := by simp [leBytes]
  have d4 : (leBytes 4 entry ++ [(0 : Byte), 0, 0, 0]).drop 4 = [0, 0, 0, 0] := by simp [leBytes]
  rw [hw] at hu
  simp only [kickEntry, bind_run, get_run, hl', hr, ha, hu, t4, d4, leBytes4 entry hn, he, hsec, hi, decide_true, guardM_true, pure_run]
  rfl

theorem kicked_rx (h : Hart) (a w i : Dword) (hx : h.x = (((Vector.replicate 32 (0 : Dword)).set 10 a).set 11 w).set 12 i) :
    h.rx 10 = a ∧ h.rx 11 = w ∧ h.rx 12 = i ∧ ∀ j : Reg, j ≠ 10 → j ≠ 11 → j ≠ 12 → h.rx j = 0 := by
  refine ⟨?_, ?_, ?_, ?_⟩
  · simp only [Hart.rx, hx]; rfl
  · simp only [Hart.rx, hx]; rfl
  · simp only [Hart.rx, hx]; rfl
  · intro j h2 h3 h4
    simp only [Hart.rx, hx]
    split
    · rfl
    · have hj := j.isLt
      have n2 : j.toNat ≠ 10 := fun e => h2 (by apply BitVec.eq_of_toNat_eq; simpa using e)
      have n3 : j.toNat ≠ 11 := fun e => h3 (by apply BitVec.eq_of_toNat_eq; simpa using e)
      have n4 : j.toNat ≠ 12 := fun e => h4 (by apply BitVec.eq_of_toNat_eq; simpa using e)
      rw [getElem!_pos _ j.toNat hj]
      rw [Vector.getElem_set_ne _ _ (by omega), Vector.getElem_set_ne _ _ (by omega), Vector.getElem_set_ne _ _ (by omega), Vector.getElem_replicate]

theorem engine_setEngine' (s : State) (k : Nat) (v : Engine) : (s.setEngine k v).engine k = v := by simp [State.engine, State.setEngine]

theorem kick_run (s : State) (k : Nat) (kick : Kick) (rest : List Kick) (h1 : (s.engine k).running = none) (h2 : (s.engine k).queue = kick :: rest) :
    exec (.engineKickStart k) s = .next (match kickEntry k kick (kickTaken s k kick rest) with
      | .ok pc u => u.setHart (.engine k) { u.hart (.engine k) with pc := pc }
      | .error (.exc x) u => u.endKick k x.code x.detail x.tval
      | .error _ u => { s with snoops := u.snoops }) := by
  rw [exec_engineKickStart]
  simp only [execEngineKickStart, event, h1, h2]
  rfl

theorem ev_kick (s : State) (k : Nat) (kick : Kick) (rest : List Kick) (e : TlbEntry) (sec : Section) (entry : Nat) (h : KickReady s k kick rest e sec entry) :
    ∃ t : State, exec (.engineKickStart k) s = .next t ∧ t.mem = s.mem ∧ (t.engine k).running = some kick ∧ (t.engine k).queue = rest ∧
      (let r := (t.engine k).hart
       r.pc = BitVec.ofNat 64 (sec.va + entry) ∧ r.rx 10 = kick.arg ∧ r.rx 11 = kick.word ∧ r.rx 12 = kick.ident ∧ r.priv = .u ∧
         r.run = .running ∧ r.crew = kick.crew ∧ ∀ j : Reg, j ≠ 10 → j ≠ 11 → j ≠ 12 → r.rx j = 0) := by
  obtain ⟨u, hu, hm, hl⟩ := kickEntry_ok h
  rw [kick_run s k kick rest h.idle h.queue, hu]
  obtain ⟨v, hv⟩ := hl.engine k
  have hk : (kickTaken s k kick rest).engine k = { s.engine k with
    running := some kick
    queue := rest
    hart := (s.engine k).hart.kicked kick 0
    flags := if k % 7 < 4 then 0 else (s.engine k).flags } := engine_setEngine' _ _ _
  rw [hk] at hv
  refine ⟨_, rfl, ?_⟩
  simp only [State.setHart, State.hart, engine_setEngine', hv, State.setEngine_mem, hm]
  have hx := kicked_rx { (s.engine k).hart.kicked kick 0 with resv := v, pc := BitVec.ofNat 64 (sec.va + entry) } kick.arg kick.word kick.ident rfl
  refine ⟨?_, ?_, ?_, ?_, hx.1, hx.2.1, hx.2.2.1, ?_, ?_, ?_, hx.2.2.2⟩ <;> first | trivial | rfl

theorem copy_run (s : State) (k : Nat) (i : Instr) (op : Nat) (f : Nat → CopyJob → M Unit) (h : (i, op, f) ∈ copySteps k) : exec i s = copyEvent op k f s := by
  simp only [copySteps, List.mem_cons, List.not_mem_nil, or_false, Prod.mk.injEq] at h
  rcases h with ⟨rfl, rfl, rfl⟩ | ⟨rfl, rfl, rfl⟩ | ⟨rfl, rfl, rfl⟩ | ⟨rfl, rfl, rfl⟩ | ⟨rfl, rfl, rfl⟩ | ⟨rfl, rfl, rfl⟩
  · rw [exec_copyMove]; rfl
  · rw [exec_copyGather]; rfl
  · rw [exec_copyScatter]; rfl
  · rw [exec_copyConvert]; rfl
  · rw [exec_copyDelta]; rfl
  · rw [exec_copyRle]; rfl

theorem ev_copy (s : State) (k : Nat) (i : Instr) (op : Nat) (f : Nat → CopyJob → M Unit) (hr : ChannelRuns s k) (h : (i, op, f) ∈ copySteps k) :
    let acc := s.copyAcc k
    (∀ at' rest b u0 bs u, (s.engine k).copy = none → (s.engine k).ops = at' :: rest → vread acc at' 1 s = .ok b u0 →
      natOfBytes b = op → vread acc at' 64 s = .ok bs u →
      (({ desc := bs } : CopyJob).refused = false → exec i s = .next (withCopy u k { desc := bs })) ∧
      (({ desc := bs } : CopyJob).refused = true → exec i s = .next (u.endKick k 2 0 at'))) ∧
    (∀ j, (s.engine k).copy = some j → j.op = op →
      (∀ t, (op = 2 ∨ j.lineP ≤ j.acct) → j.moved < j.total → f k j s = .ok () t → exec i s = .next t) ∧
      (∀ e t, (op = 2 ∨ j.lineP ≤ j.acct) → j.moved < j.total → f k j s = .error (.exc e) t →
        exec i s = .next (t.endKick k e.code e.detail e.tval)) ∧
      (j.wpaddr = 0 → op ≠ 2 → j.acct < j.lineP → exec i s = .next (s.setEngine k { s.engine k with
        dxwp := (s.engine k).dxwp + BitVec.ofNat 64 (j.lineP - j.acct)
        copy := some { j with acct := j.lineP } })) ∧
      (j.wpaddr = 0 → (op = 2 ∨ j.lineP ≤ j.acct) → j.total ≤ j.moved → exec i s = .next (s.setEngine k { s.engine k with
        dxwp := (s.engine k).dxwp + BitVec.ofNat 64 (j.bytes - j.acct)
        copy := none
        ops := (s.engine k).ops.drop 1 }))) := by
  intro acc
  obtain ⟨hr1, hr2⟩ := hr
  have hx : copyDue k op s = true → exec i s = .next (match (match (s.engine k).copy with
      | some j => copyPart k j f
      | none => copyOpen k (s.copyAt k)) s with
    | .ok _ t => t
    | .error (.exc e) t => t.endKick k e.code e.detail e.tval
    | .error _ t => { s with snoops := t.snoops }) := by
    intro hd
    rw [copy_run s k i op f h]
    simp only [copyEvent, event]
    rw [if_neg]
    case hnc =>
      rw [hd]
      have : (s.engine k).running.isNone = false := by
        cases hh : (s.engine k).running with
        | none => rw [hh] at hr1; cases hr1
        | some _ => rfl
      simp [this, hr2]
    all_goals rfl
  refine ⟨fun at' rest b u0 bs u hc ho hb hop hbs => ?_, fun j hc hop => ?_⟩
  · have hd : copyDue k op s = true := by
      simp only [copyDue, hc, ho]
      rw [show s.copyAcc k = acc from rfl, hb]
      simp [hop]
    rw [hx hd]
    have hat : s.copyAt k = at' := by simp [State.copyAt, ho]
    simp only [hc, hat, copyOpen, bind_run, get_run]
    rw [show s.copyAcc k = acc from rfl, hbs]
    refine ⟨fun hz => ?_, fun hz => ?_⟩
    · simp only [hz, Bool.not_false, guardM_true, setCopy, modify_run]; rfl
    · simp only [hz, Bool.not_true, guardM_false]; rfl
  · have hd : copyDue k op s = true := by simp [copyDue, hc, hop]
    rw [hx hd]
    simp only [hc, copyPart, ite_run]
    rw [hop]
    refine ⟨fun t hl hm hf => ?_, fun e t hl hm hf => ?_, fun hw ho hl => ?_, fun hw hl hm => ?_⟩
    · rw [if_neg (by omega), if_pos hm, hf]
    · rw [if_neg (by omega), if_pos hm, hf]
    · rw [if_pos ⟨ho, hl⟩]
      simp only [advanceP, bind_run, get_run, ite_run, hw, ne_eq, not_true, false_and, if_false, pure_run, modify_run, setCopy, engine_setEngine', State.setEngine_setEngine]
    · rw [if_neg (by omega), if_neg (by omega)]
      simp only [advanceP, bind_run, get_run, ite_run, hw, ne_eq, not_true, false_and, if_false, pure_run, modify_run, setCopy, engine_setEngine', State.setEngine_setEngine]

theorem ev_elements (s : State) (k : Nat) (j : CopyJob) (bs : List Byte) (u v : State) : let acc := s.copyAcc k
    (∀ n, n = (if (j.src + BitVec.ofNat 64 j.moved).toNat % j.size = 0 ∧ (j.dst + BitVec.ofNat 64 j.moved).toNat % j.size = 0 ∧
        j.moved + j.size ≤ j.len then j.size else 1) →
      vread acc (j.src + BitVec.ofNat 64 j.moved) n s = .ok bs u → vwrite acc (j.dst + BitVec.ofNat 64 j.moved) bs u = .ok () v →
      moveStep k j s = .ok () (withCopy v k { j with moved := j.moved + n })) ∧
    (∀ is w, vread acc (eltVa j.idx j.moved 4) 4 s = .ok is w →
      (vread acc (eltVa j.src (natOfBytes is) j.size) j.size w = .ok bs u → vwrite acc (eltVa j.dst j.moved j.size) bs u = .ok () v →
        gatherStep k j s = .ok () (withCopy v k { j with moved := j.moved + 1 })) ∧
      (j.dst.toNat % 2 ^ 48 + natOfBytes is * j.size + j.size ≤ 2 ^ 48 → vread acc (eltVa j.src j.moved j.size) j.size w = .ok bs u →
        vwrite acc (eltVa j.dst (natOfBytes is) j.size) bs u = .ok () v →
        scatterStep k j s = .ok () (withCopy v k { j with moved := j.moved + 1 }))) := by
  intro acc
  refine ⟨fun n hn hr hw => ?_, fun is w hi => ⟨fun hr hw => ?_, fun hl hr hw => ?_⟩⟩
  · subst hn
    simp only [moveStep, bind_run, get_run]
    rw [show s.copyAcc k = acc from rfl]
    simp only [hr, hw]; rfl
  · simp only [gatherStep, bind_run, get_run, nextIndex, map_run]
    rw [show s.copyAcc k = acc from rfl]
    simp only [hi, pure_run, hr, hw]; rfl
  · simp only [scatterStep, bind_run, get_run, nextIndex, map_run]
    rw [show s.copyAcc k = acc from rfl]
    simp only [hi, pure_run, hl, decide_true, guardM_true, hr, hw]; rfl

theorem work_run (s : State) (k : Nat) (m : M Unit) (h : (s.engine k).running.isSome = true) : engineWork k m s = match m s with
    | .ok _ t => t
    | .error (.exc e) t => t.endKick k e.code e.detail e.tval
    | .error _ t => t := by
  simp only [engineWork]
  rw [if_neg]
  case hnc =>
    cases hh : (s.engine k).running with
    | none => rw [hh] at h; cases h
    | some _ => simp
  all_goals rfl

theorem ev_sillage (s : State) (c : Nat) (addr : Dword) : let k := c * 7 + 5
    (s.engine k).running.isSome = true →
      (∀ head u ws v, addr.toNat % 8 = 0 → vread (s.accOf (.engine k)) addr 8 s = .ok head u → 1 ≤ (head.headD 0).toNat →
        (head.headD 0).toNat ≤ 32 → (head.drop 1).all (· == 0) = true →
        vread (s.accOf (.engine k)) (addr + 8) (4 * (head.headD 0).toNat) u = .ok ws v →
        let p := wordsOf ws (head.headD 0).toNat
        (Mask.check [] 1 p = none → exec (.sillageInstall c addr) s = .next (v.setProg k p true)) ∧
        (∀ i r, Mask.check [] 1 p = some (i, r) → exec (.sillageInstall c addr) s =
          .next ((v.setProg k [] false).endKick k 16 (16 * i + r) (addr + BitVec.ofNat 64 (4 + 4 * i))))) ∧
      (addr.toNat % 8 ≠ 0 → exec (.sillageInstall c addr) s = .next (s.endKick k 4 0 addr)) ∧
      (∀ t, silAll k addr 4200 s = .ok () t → exec (.sillageTileRequest c addr) s = .next t) ∧
      (∀ e t, silAll k addr 4200 s = .error (.exc e) t →
        exec (.sillageTileRequest c addr) s = .next (t.endKick k e.code e.detail e.tval)) := by
  intro k hk
  have hx : exec (.sillageInstall c addr) s = .next (match silInstall k addr s with
    | .ok _ t => t
    | .error (.exc e) t => t.endKick k e.code e.detail e.tval
    | .error _ t => t) := by
    rw [exec_sillageInstall]
    simp only [execSillageInstall, event]
    rw [work_run s _ _ hk]
  have hy : exec (.sillageTileRequest c addr) s = .next (match silAll k addr 4200 s with
    | .ok _ t => t
    | .error (.exc e) t => t.endKick k e.code e.detail e.tval
    | .error _ t => t) := by
    rw [exec_sillageTileRequest]
    simp only [execSillageTileRequest, event]
    rw [work_run s _ _ hk]
  rw [hx, hy]
  refine ⟨fun head u ws v h1 h2 h3 h4 h5 h6 => ?_, fun h => ?_, fun t h => by rw [h], fun e t h => by rw [h]⟩
  · intro p
    have hd : (List.drop 1 head).any (fun x => x != 0) = false := by
      rw [List.any_eq_false]; intro x hx
      have := List.all_eq_true.1 h5 x hx
      simpa using this
    refine ⟨fun hc => ?_, fun i r hc => ?_⟩
    · simp only [silInstall, h1, decide_true, bind_run, guardM_true, get_run, h2, ite_run]
      rw [if_neg (by omega)]
      simp only [bind_run, ite_run, hd, Bool.false_eq_true, if_false, pure_run, h6]
      rw [show wordsOf ws (head.headD 0).toNat = p from rfl, hc]
      rfl
    · simp only [silInstall, h1, decide_true, bind_run, guardM_true, get_run, h2, ite_run]
      rw [if_neg (by omega)]
      simp only [bind_run, ite_run, hd, Bool.false_eq_true, if_false, pure_run, h6]
      rw [show wordsOf ws (head.headD 0).toNat = p from rfl, hc]
      rfl
  · simp only [silInstall, bind_run, h, decide_false, guardM_false]
    rfl

theorem ev_bloomRegs (s : State) (c : Nat) (addr v : Dword) : let k := c * 7 + 6
    (s.engine k).running.isSome = true →
      (∀ t, bloomInstall k addr s = .ok () t → exec (.bloomInstall c addr) s = .next t) ∧
      (∀ e t, bloomInstall k addr s = .error (.exc e) t → exec (.bloomInstall c addr) s = .next (t.endKick k e.code e.detail e.tval)) ∧
      (∀ x, s.bank c (v.toNat % 16) = some x → some x.crew = (s.engine k).crew → exec (.bloomUninstall c v) s =
        .next (s.setCluster c { s.cluster c with bloom := (s.cluster c).bloom.del (v.toNat % 16) })) ∧
      (s.bank c (v.toNat % 16) = none → exec (.bloomUninstall c v) s = .next s) := by
  intro k hk
  have hkc : k / 7 = c := by simp only [k]; omega
  have hx : exec (.bloomInstall c addr) s = .next (match bloomInstall k addr s with
    | .ok _ t => t
    | .error (.exc e) t => t.endKick k e.code e.detail e.tval
    | .error _ t => t) := by
    rw [exec_bloomInstall]
    simp only [execBloomInstall, event]
    rw [work_run s _ _ hk]
  have hy : exec (.bloomUninstall c v) s = .next (s.bloomFree k v) := by
    rw [exec_bloomUninstall]
    simp only [execBloomUninstall, event]
    rw [work_run s _ _ hk]
    rfl
  rw [hx, hy]
  refine ⟨fun t h => by rw [h], fun e t h => by rw [h], fun x hb hc => ?_, fun hb => ?_⟩
  · simp only [State.bloomFree, hkc, hb, hc, if_true]
  · simp only [State.bloomFree, hkc, hb]

theorem ev_arrival (s : State) (n : Nat) (e : BloomEvent) (h1 : s.events.find? (fun f => f.n == n) = some e)
    (h2 : ∀ f ∈ s.events, f.n < n → ¬ (f.unit = e.unit ∧ f.cluster = e.cluster ∧ Event.bank f.word = Event.bank e.word)) :
    let c := e.cluster
    let t : State := { s with events := s.events.filter fun f => f.n != n }
    let lost := Event.reserved e.word || (unpack .bf16 (Event.w e.word)).isNan
    (s.bank c (Event.bank e.word) = none ∨ lost = true → exec (.bloomEventArrival n) s =
      .next (t.setCluster c { t.cluster c with bloomDrop := (s.cluster c).bloomDrop + 1 })) ∧
    (∀ x, s.bank c (Event.bank e.word) = some x → lost = false →
      (∀ u, acceptEvent c (Event.bank e.word) x e.word t = .ok () u → exec (.bloomEventArrival n) s = .next u) ∧
      (x.plain = true → Event.nidx e.word < x.ncount →
        let key := neuronKey s c x x.vrow (Event.nidx e.word)
        s.runningOut c key = none → ∃ u : State, exec (.bloomEventArrival n) s = .next u ∧ u.events = t.events ∧
          u.mem = Memory.write s.mem key (leBytes 4 (addF32 (BitVec.ofNat 32 (natOfBytes (s.peek key 4)))
            (BitVec.ofNat 32 (Event.w e.word * 65536))).toNat))) := by
  intro c t lost
  have hx : exec (.bloomEventArrival n) s = .next (match s.bank c (Event.bank e.word) with
        | some x =>
          if lost then t.setCluster c { t.cluster c with bloomDrop := (t.cluster c).bloomDrop + 1 }
          else
            match orStall (acceptEvent c (Event.bank e.word) x e.word) t with
            | .ok _ u => u
            | .error _ u => { s with snoops := u.snoops }
        | none => t.setCluster c { t.cluster c with bloomDrop := (t.cluster c).bloomDrop + 1 }) := by
    rw [exec_bloomEventArrival]
    simp only [execBloomEventArrival, event, h1]
    rw [if_neg]
    · rfl
    · intro hh
      obtain ⟨f, hm, hf⟩ := List.any_eq_true.1 hh
      simp only [Bool.and_eq_true, decide_eq_true_eq, beq_iff_eq] at hf
      exact h2 f hm hf.1.1.1 ⟨hf.1.1.2, hf.1.2, hf.2⟩
  rw [hx]
  refine ⟨fun h => ?_, fun x hb hl => ⟨fun u hu => ?_, fun hp hn => ?_⟩⟩
  · rcases h with h | h
    · simp only [h]; rfl
    · cases s.bank c (Event.bank e.word) with
      | none => rfl
      | some x => simp only [h, if_true]; rfl
  · simp only [hb, hl, Bool.false_eq_true, if_false, orStall, hu]
  · intro key hk
    have hb' : t.bank c (Event.bank e.word) = some x := hb
    have hk' : t.runningOut c (neuronKey t c x x.vrow (Event.nidx e.word)) = none := hk
    simp only [hb, hl, Bool.false_eq_true, if_false, orStall, acceptEvent, ite_run, hp, if_true, deliver, bind_run, get_run, hb',
      Nat.not_le.2 hn, readAcc, hk', pure_run, writeAcc, modify_run]
    exact ⟨_, rfl, rfl, rfl⟩

theorem ev_fanout (s : State) (k : Nat) (j : FanJob) (rest : List FanJob) (h : (s.engine k).jobs = j :: rest) :
    let acc : Acc := { bloomAcc (k / 7) j.crew j.dptb with tlb := .engine k, who := .engine k }
    let t : State := s.setEngine k { s.engine k with jobs := rest }
    ((s.engine k).ops ≠ [] → exec (.bloomFanoutJob k) s = .next s) ∧
    ((s.engine k).ops = [] →
      (∀ u, fanOut k acc j.ts j.list j.count t = .ok () u → exec (.bloomFanoutJob k) s = .next u) ∧
      (∀ e u, fanOut k acc j.ts j.list j.count t = .error (.exc e) u → exec (.bloomFanoutJob k) s =
        .next (u.logError e.code e.detail 8 78 (k / 7) e.tval.toNat 0 0 (u.crewIx (some j.crew))))) := by
  intro acc t
  have hx : exec (.bloomFanoutJob k) s = .next (if !(s.engine k).ops.isEmpty then s else
      match orStall (fanOut k acc j.ts j.list j.count) t with
      | .ok _ t => t
      | .error (.exc x) t => runM (bloomLog (k / 7) j.crew x) t
      | .error _ t => { s with snoops := t.snoops }) := by
    rw [exec_bloomFanoutJob]
    simp only [execBloomFanoutJob, event, h]
    rfl
  rw [hx]
  refine ⟨fun ho => ?_, fun ho => ⟨fun u hu => ?_, fun e u hu => ?_⟩⟩
  · rw [if_pos (by simpa using ho)]
  · rw [if_neg (by simp [ho])]
    simp only [orStall, hu]
  · rw [if_neg (by simp [ho])]
    simp only [orStall, hu]
    rfl

end Sys2Proof.Machine
end

