-- ==== Sys2Proof/Tests/Fixtures.lean ====
section
/-! SUPPORT. Small states and the pieces that the tests and the witnesses of the statements are made of. -/

namespace Sys2Proof.Tests

open Sys2Proof Sys2Proof.Machine

set_option Elab.async false

/-! ## Small states -/

/-- The next state of an outcome. -/
def nextOf (o : Host.Outcome State Fault Refusal) : Option State :=
  match o with
  | .next t => some t
  | _ => none

/-- A hart at 0x1000 that runs in U. -/
def runner : Hart := { pc := 0x1000, run := .running }

/-- Strand 0 acts, with these registers. -/
def onStrand (r : Hart) : State := { State.reset.setHart (.strand 0) r with actor := some (.hart (.strand 0)) }

/-- What a strand's instruction leaves in x10, with `a` in x11 and `b` in x12. -/
def xAfter (i : Instr) (a b : Dword) : Option Dword :=
  (nextOf (exec i (onStrand ((runner.wx 11 a).wx 12 b)))).map fun t => (t.hart (.strand 0)).rx 10

/-- The strand after an instruction. -/
def hartAfter (i : Instr) (r : Hart) : Option Hart := (nextOf (exec i (onStrand r))).map fun t => t.hart (.strand 0)

/-- Wave 0 with lanes 0 to 3 in its primary group at lane pc 24. -/
def lanes4 : Wave :=
  { live := true, lanes := 0xF, pri := some { mask := 0xF, pc := 24 }, hart := runner, code := { va := 0x2000, size := 240 } }

/-- The primary group of wave 0 acts. -/
def onLanes (w : Wave) : State := { State.reset.setWave 0 w with actor := some (.lanes 0 false) }

/-- The wave after a lane instruction. -/
def waveAfter (i : Instr) (w : Wave) : Option Wave := (nextOf (exec i (onLanes w))).map fun t => t.wave 0

/-- An integer word on v4, v6 and v8. -/
def word32 : LaneWord := { Claim.blank with vd := 4, va := 6, vb := 8, ty := 3 }

/-- Lanes with `a` in v6 and `b` plus the lane number in v8. -/
def withOps (a b : Word) : Wave := (lanes4.writeReg 6 0xF fun _ => a).writeReg 8 0xF fun l => b + BitVec.ofNat 32 l

/-- What a lane instruction leaves in v4 of lane `l`. -/
def vAfter (i : Instr) (a b : Word) (l : Nat) : Option Word := (waveAfter i (withOps a b)).map fun w => w.reg 4 l

/-- Operands of a scoped atomic with a semantics code. -/
def atomic (sem : BitVec 4) : AmoArgs := { scope := 3, sem := sem, dbl := true, rs2 := 12, rs1 := 11, rd := 10 }

/-! ## What witnesses are made of -/

/-- The result of a computation on the state is an answer that has property `p`. -/
def okWith {α : Type} (r : EStateM.Result Stop State α) (p : α → State → Bool) : Bool :=
  match r with
  | .ok a t => p a t
  | .error _ _ => false

theorem ok_with {α : Type} {r : EStateM.Result Stop State α} (p : α → State → Bool) (h : okWith r p = true) :
    ∃ a t, r = .ok a t ∧ p a t = true := by
  cases r with
  | ok a t => exact ⟨a, t, rfl, h⟩
  | error e t => simp [okWith] at h

theorem ok_exists {α : Type} {r : EStateM.Result Stop State α} (h : okWith r (fun _ _ => true) = true) : ∃ a t, r = .ok a t := by
  obtain ⟨a, t, e, -⟩ := ok_with _ h
  exact ⟨a, t, e⟩

/-- The result is an exception. -/
def isExc {α : Type} (r : EStateM.Result Stop State α) : Bool :=
  match r with
  | .error (.exc _) _ => true
  | _ => false

theorem exc_exists {α : Type} {r : EStateM.Result Stop State α} (h : isExc r = true) : ∃ e t, r = .error (.exc e) t := by
  cases r with
  | ok a t => simp [isExc] at h
  | error e t =>
    cases e with
    | exc e => exact ⟨e, t, rfl⟩
    | _ => simp [isExc] at h

end Sys2Proof.Tests
end

