-- ==== Sys2Proof/Tests/Slice0.lean ====
section
/-! SUPPORT. Tests of the decoder, of well-formedness, of values and of single steps. Words and expected values come from the encoding tables, the rules and the worked cases of the spec. -/

namespace Sys2Proof.Tests

open Sys2Proof Sys2Proof.Machine

set_option Elab.async false

/-- A lane word with a value in every field. -/
def sample : LaneWord :=
  { vd := 0x12, va := 0x34, vb := 0x56, vc := 0x78, gp := 5, gn := true, lra := false, lrb := true, lrc := false, sm := true, mh := false, ty := 11, rm := 4,
    hi := 0x9ABCDEF0 }

/-- INT and IMAD, with their immediate forms (R169, R171). -/
theorem test_decode_int :
    decodeLane 0x9ABCDEF096AD785634120000#96 = .laneAdd sample ∧
    decodeLane 0x9ABCDEF096AD785634120100#96 = .laneSub sample ∧
    decodeLane 0x9ABCDEF096AD785634120200#96 = .laneMul sample ∧
    decodeLane 0x9ABCDEF096AD785634120300#96 = .mulhi sample ∧
    decodeLane 0x9ABCDEF096AD785634120400#96 = .laneMin sample ∧
    decodeLane 0x9ABCDEF096AD785634120500#96 = .laneMax sample ∧
    decodeLane 0x9ABCDEF096AD785634120600#96 = .laneAbs sample ∧
    decodeLane 0x9ABCDEF096AD785634120700#96 = .laneNeg sample ∧
    decodeLane 0x9ABCDEF096AD785634120001#96 = .imad sample ∧
    decodeLane 0x9ABCDEF096AD785634120040#96 = .addLi sample ∧
    decodeLane 0x9ABCDEF096AD785634120140#96 = .subLi sample ∧
    decodeLane 0x9ABCDEF096AD785634120240#96 = .mulLi sample ∧
    decodeLane 0x9ABCDEF096AD785634120340#96 = .mulhiLi sample ∧
    decodeLane 0x9ABCDEF096AD785634120440#96 = .minLi sample ∧
    decodeLane 0x9ABCDEF096AD785634120540#96 = .maxLi sample := by decide

/-- LOGIC, SHIFT and BITF (R172 to R174). -/
theorem test_decode_logic :
    decodeLane 0x9ABCDEF096AD785634120002#96 = .laneAnd sample ∧
    decodeLane 0x9ABCDEF096AD785634120102#96 = .laneOr sample ∧
    decodeLane 0x9ABCDEF096AD785634120202#96 = .laneXor sample ∧
    decodeLane 0x9ABCDEF096AD785634120302#96 = .laneNot sample ∧
    decodeLane 0x9ABCDEF096AD785634120402#96 = .andn sample ∧
    decodeLane 0x9ABCDEF096AD785634120042#96 = .andLi sample ∧
    decodeLane 0x9ABCDEF096AD785634120142#96 = .orLi sample ∧
    decodeLane 0x9ABCDEF096AD785634120242#96 = .xorLi sample ∧
    decodeLane 0x9ABCDEF096AD785634120442#96 = .andnLi sample ∧
    decodeLane 0x9ABCDEF096AD785634120003#96 = .shl sample ∧
    decodeLane 0x9ABCDEF096AD785634120103#96 = .shr sample ∧
    decodeLane 0x9ABCDEF096AD785634120203#96 = .sha sample ∧
    decodeLane 0x9ABCDEF096AD785634120303#96 = .rol sample ∧
    decodeLane 0x9ABCDEF096AD785634120403#96 = .ror sample ∧
    decodeLane 0x9ABCDEF096AD785634120043#96 = .shlLi sample ∧
    decodeLane 0x9ABCDEF096AD785634120143#96 = .shrLi sample ∧
    decodeLane 0x9ABCDEF096AD785634120243#96 = .shaLi sample ∧
    decodeLane 0x9ABCDEF096AD785634120343#96 = .rolLi sample ∧
    decodeLane 0x9ABCDEF096AD785634120443#96 = .rorLi sample ∧
    decodeLane 0x9ABCDEF096AD785634120004#96 = .popc sample ∧
    decodeLane 0x9ABCDEF096AD785634120104#96 = .clz sample ∧
    decodeLane 0x9ABCDEF096AD785634120204#96 = .ctz sample ∧
    decodeLane 0x9ABCDEF096AD785634120304#96 = .brev sample ∧
    decodeLane 0x9ABCDEF096AD785634120404#96 = .bfx sample ∧
    decodeLane 0x9ABCDEF096AD785634120504#96 = .bfi sample := by decide

/-- FARITH, FMA and FDIV (R175, R176). -/
theorem test_decode_farith :
    decodeLane 0x9ABCDEF096AD785634120005#96 = .fadd sample ∧
    decodeLane 0x9ABCDEF096AD785634120105#96 = .fsub sample ∧
    decodeLane 0x9ABCDEF096AD785634120205#96 = .fmul sample ∧
    decodeLane 0x9ABCDEF096AD785634120305#96 = .fmin sample ∧
    decodeLane 0x9ABCDEF096AD785634120405#96 = .fmax sample ∧
    decodeLane 0x9ABCDEF096AD785634120505#96 = .fabs sample ∧
    decodeLane 0x9ABCDEF096AD785634120605#96 = .fneg sample ∧
    decodeLane 0x9ABCDEF096AD785634120045#96 = .faddLi sample ∧
    decodeLane 0x9ABCDEF096AD785634120145#96 = .fsubLi sample ∧
    decodeLane 0x9ABCDEF096AD785634120245#96 = .fmulLi sample ∧
    decodeLane 0x9ABCDEF096AD785634120345#96 = .fminLi sample ∧
    decodeLane 0x9ABCDEF096AD785634120445#96 = .fmaxLi sample ∧
    decodeLane 0x9ABCDEF096AD785634120006#96 = .fma sample ∧
    decodeLane 0x9ABCDEF096AD785634120106#96 = .fms sample ∧
    decodeLane 0x9ABCDEF096AD785634120206#96 = .fnma sample ∧
    decodeLane 0x9ABCDEF096AD785634120007#96 = .fdiv sample ∧
    decodeLane 0x9ABCDEF096AD785634120107#96 = .fsqrt sample := by decide

/-- CMP, SEL, CVT, QNT and ALN (R177, R178, R180 to R182). -/
theorem test_decode_cmp :
    decodeLane 0x9ABCDEF096AD785634120008#96 = .icmp sample ∧
    decodeLane 0x9ABCDEF096AD785634120108#96 = .fcmp sample ∧
    decodeLane 0x9ABCDEF096AD785634120208#96 = .fclass sample ∧
    decodeLane 0x9ABCDEF096AD785634120048#96 = .icmpLi sample ∧
    decodeLane 0x9ABCDEF096AD785634120148#96 = .fcmpLi sample ∧
    decodeLane 0x9ABCDEF096AD785634120009#96 = .sel sample ∧
    decodeLane 0x9ABCDEF096AD785634120049#96 = .selLi sample ∧
    decodeLane 0x9ABCDEF096AD78563412000A#96 = .cvt sample ∧
    decodeLane 0x9ABCDEF096AD78563412000B#96 = .qnt sample ∧
    decodeLane 0x9ABCDEF096AD78563412000C#96 = .aln sample := by decide

/-- SHFL, BCST, VOTE, REDUCE and SCAN (R183 to R185). -/
theorem test_decode_exchange :
    decodeLane 0x9ABCDEF096AD78563412000D#96 = .shflIdx sample ∧
    decodeLane 0x9ABCDEF096AD78563412010D#96 = .shflXor sample ∧
    decodeLane 0x9ABCDEF096AD78563412020D#96 = .shflUp sample ∧
    decodeLane 0x9ABCDEF096AD78563412030D#96 = .shflDn sample ∧
    decodeLane 0x9ABCDEF096AD78563412000E#96 = .bcst sample ∧
    decodeLane 0x9ABCDEF096AD78563412000F#96 = .voteAny sample ∧
    decodeLane 0x9ABCDEF096AD78563412010F#96 = .voteAll sample ∧
    decodeLane 0x9ABCDEF096AD78563412020F#96 = .voteMask sample ∧
    decodeLane 0x9ABCDEF096AD785634120010#96 = .reduce sample ∧
    decodeLane 0x9ABCDEF096AD785634120011#96 = .scan sample := by decide

/-- MOV, PRED, KMOV and LFM (R179, R188, R189, R191). -/
theorem test_decode_move :
    decodeLane 0x9ABCDEF096AD785634120012#96 = .mov sample ∧
    decodeLane 0x9ABCDEF096AD785634120112#96 = .movu sample ∧
    decodeLane 0x9ABCDEF096AD785634120212#96 = .movx sample ∧
    decodeLane 0x9ABCDEF096AD785634120052#96 = .movi sample ∧
    decodeLane 0x9ABCDEF096AD785634120013#96 = .pand sample ∧
    decodeLane 0x9ABCDEF096AD785634120113#96 = .por sample ∧
    decodeLane 0x9ABCDEF096AD785634120213#96 = .pxor sample ∧
    decodeLane 0x9ABCDEF096AD785634120313#96 = .pnot sample ∧
    decodeLane 0x9ABCDEF096AD785634120413#96 = .pmov sample ∧
    decodeLane 0x9ABCDEF096AD785634120014#96 = .krd sample ∧
    decodeLane 0x9ABCDEF096AD785634120114#96 = .kwr sample ∧
    decodeLane 0x9ABCDEF096AD785634120015#96 = .lfmRd sample ∧
    decodeLane 0x9ABCDEF096AD785634120115#96 = .lfmWr sample := by decide

/-- SFX, the matrix engine and the accumulators, Accord (R222, R328, R329, R340, R341, R346). -/
theorem test_decode_units :
    decodeLane 0x9ABCDEF096AD785634120816#96 = .sfx 8 sample ∧
    decodeLane 0x9ABCDEF096AD785634120017#96 = .sfxWait sample ∧
    decodeLane 0x9ABCDEF096AD785634120021#96 = .mld sample ∧
    decodeLane 0x9ABCDEF096AD785634120022#96 = .mmaG sample ∧
    decodeLane 0x9ABCDEF096AD785634120023#96 = .accZero sample ∧
    decodeLane 0x9ABCDEF096AD785634120123#96 = .ringAdv sample ∧
    decodeLane 0x9ABCDEF096AD785634120223#96 = .ringWait sample ∧
    decodeLane 0x9ABCDEF096AD785634120020#96 = .rsvSeed sample ∧
    decodeLane 0x9ABCDEF096AD785634120120#96 = .rsvUpd sample ∧
    decodeLane 0x9ABCDEF096AD785634120220#96 = .rsvMrg sample ∧
    decodeLane 0x9ABCDEF096AD785634120320#96 = .rsvFin sample ∧
    decodeLane 0x9ABCDEF096AD785634120420#96 = .rsvGet sample ∧
    decodeLane 0x9ABCDEF096AD785634120520#96 = .rsvDraw sample := by decide

/-- BLM and GFX (R369, R377). -/
theorem test_decode_graph :
    decodeLane 0x9ABCDEF096AD785634120024#96 = .blmEmit sample ∧
    decodeLane 0x9ABCDEF096AD785634120124#96 = .blmRead sample ∧
    decodeLane 0x9ABCDEF096AD085634120224#96 = .blmAdvance { sample with vc := 0x08 } ∧
    decodeLane 0x9ABCDEF096AD185634120224#96 = .blmFlush { sample with vc := 0x18 } ∧
    decodeLane 0x9ABCDEF096AD285634120224#96 = .blmClear { sample with vc := 0x28 } ∧
    decodeLane 0x9ABCDEF096AD785634120025#96 = .resv sample ∧
    decodeLane 0x9ABCDEF096AD785634120125#96 = .commit sample ∧
    decodeLane 0x9ABCDEF096AD785634120225#96 = .cancel sample ∧
    decodeLane 0x9ABCDEF096AD785634120325#96 = .emitV sample ∧
    decodeLane 0x9ABCDEF096AD785634120425#96 = .emitP sample := by decide

/-- The memory class (R192, R273, R280, R287, R388). -/
theorem test_decode_memory :
    decodeLane 0x9ABCDEF096AD785634120080#96 = .ld sample ∧
    decodeLane 0x9ABCDEF096AD785634120081#96 = .st sample ∧
    decodeLane 0x9ABCDEF096AD785634120082#96 = .stn sample ∧
    decodeLane 0x9ABCDEF096AD785634120083#96 = .atomAdd sample ∧
    decodeLane 0x9ABCDEF096AD785634120183#96 = .atomSwap sample ∧
    decodeLane 0x9ABCDEF096AD785634120283#96 = .atomAnd sample ∧
    decodeLane 0x9ABCDEF096AD785634120383#96 = .atomOr sample ∧
    decodeLane 0x9ABCDEF096AD785634120483#96 = .atomXor sample ∧
    decodeLane 0x9ABCDEF096AD785634120583#96 = .atomMax sample ∧
    decodeLane 0x9ABCDEF096AD785634120683#96 = .atomFadd sample ∧
    decodeLane 0x9ABCDEF096AD785634120783#96 = .atomCas sample ∧
    decodeLane 0x9ABCDEF096AD785634120084#96 = .lds sample ∧
    decodeLane 0x9ABCDEF096AD785634120085#96 = .sts sample ∧
    decodeLane 0x9ABCDEF096AD785634120086#96 = .fence sample ∧
    decodeLane 0x9ABCDEF096AD785634120087#96 = .cwb sample ∧
    decodeLane 0x9ABCDEF096AD785634120187#96 = .cinv sample ∧
    decodeLane 0x9ABCDEF096AD785634120287#96 = .cflush sample ∧
    decodeLane 0x9ABCDEF096AD785634120088#96 = .stq sample ∧
    decodeLane 0x9ABCDEF096AD785634120089#96 = .pfh sample ∧
    decodeLane 0x9ABCDEF096AD78563412008A#96 = .texSmp sample ∧
    decodeLane 0x9ABCDEF096AD78563412018A#96 = .texFch sample := by decide

/-- The control class (R199). -/
theorem test_decode_control :
    decodeLane 0x9ABCDEF096AD7856341200C0#96 = .bra sample ∧
    decodeLane 0x9ABCDEF096AD7856341200C1#96 = .brx sample ∧
    decodeLane 0x9ABCDEF096AD7856341200C2#96 = .reconv sample ∧
    decodeLane 0x9ABCDEF096AD7856341200C3#96 = .exit sample ∧
    decodeLane 0x9ABCDEF096AD7856341200C4#96 = .mig sample ∧
    decodeLane 0x9ABCDEF096AD7856341200C5#96 = .barArv sample ∧
    decodeLane 0x9ABCDEF096AD7856341201C5#96 = .barWait sample ∧
    decodeLane 0x9ABCDEF096AD7856341200C6#96 = .safe sample ∧
    decodeLane 0x9ABCDEF096AD7856341200C7#96 = .yield sample ∧
    decodeLane 0x9ABCDEF096AD7856341200C8#96 = .spawn sample ∧
    decodeLane 0x9ABCDEF096AD7856341200C9#96 = .fwait sample ∧
    decodeLane 0x9ABCDEF096AD7856341200CA#96 = .send sample ∧
    decodeLane 0x9ABCDEF096AD7856341200CB#96 = .nop sample := by decide

/-- custom-0 (R65). -/
theorem test_decode_custom0 :
    decodeScalar 0x00C5850B#32 = .semWait 10 11 12 ∧
    decodeScalar 0x02C5850B#32 = .semSig 10 11 12 ∧
    decodeScalar 0x04C5850B#32 = .semTry 10 11 12 ∧
    decodeScalar 0x0605850B#32 = .semRead 10 11 ∧
    decodeScalar 0xF810150B#32 = .semWaiti 10 0x81 15 ∧
    decodeScalar 0xF810250B#32 = .semSigi 10 0x81 15 ∧
    decodeScalar 0x0000350B#32 = .futNew 10 ∧
    decodeScalar 0x02C5B00B#32 = .futSet 11 12 ∧
    decodeScalar 0x0405B50B#32 = .futWait 10 11 ∧
    decodeScalar 0x0605B50B#32 = .futPoll 10 11 ∧
    decodeScalar 0x0805B00B#32 = .futPoison 11 ∧
    decodeScalar 0x0A05B00B#32 = .futFree 11 := by decide

/-- custom-1 (R65). -/
theorem test_decode_custom1 :
    decodeScalar 0x00C5802B#32 = .contSpawn 11 12 ∧
    decodeScalar 0x0200002B#32 = .contExit ∧
    decodeScalar 0x04C5852B#32 = .joinAdd 10 11 12 ∧
    decodeScalar 0x00C5902B#32 = .msgSend 11 12 ∧
    decodeScalar 0x02C5902B#32 = .msgReply 11 12 ∧
    decodeScalar 0x04C5902B#32 = .msgSendh 11 12 ∧
    decodeScalar 0x0605952B#32 = .msgRecv 10 11 ∧
    decodeScalar 0x0050252B#32 = .mbRead 10 5 ∧
    decodeScalar 0x0055B02B#32 = .mbWrite 5 11 ∧
    decodeScalar 0x0055C52B#32 = .mbSwap 10 5 11 ∧
    decodeScalar 0x0000502B#32 = .migW := by decide

/-- custom-2 (R65 to R67). -/
theorem test_decode_custom2 :
    decodeScalar 0x08C5805B#32 = .engKick 11 12 4 ∧
    decodeScalar 0x0005955B#32 = .engRdv 10 11 ∧
    decodeScalar 0x0005A55B#32 = .cohDecl 10 11 ∧
    decodeScalar 0x0205A05B#32 = .cohRel 11 ∧
    decodeScalar 0x00C5B05B#32 = .scalarCwb 11 12 ∧
    decodeScalar 0x02C5B05B#32 = .scalarCinv 11 12 ∧
    decodeScalar 0x04C5B05B#32 = .scalarCflush 11 12 ∧
    decodeScalar 0x0005C55B#32 = .hotRead 10 11 ∧
    decodeScalar 0x0205C05B#32 = .hotClr 11 ∧
    decodeScalar 0x9C00505B#32 = .fenceS 2 7 ∧
    decodeScalar 0x00C5E05B#32 = .scalarStq 11 12 ∧
    decodeScalar 0x0000705B#32 = .scalarYield ∧
    decodeScalar 0x0200705B#32 = .scalarSafe ∧
    decodeScalar 0x04C5F05B#32 = .tlbInv 11 12 := by decide

/-- custom-3 (R67, R68). -/
theorem test_decode_custom3 :
    decodeScalar 0xD4C5857B#32 = .amoAdd { scope := 3, sem := 5, dbl := false, rs2 := 12, rs1 := 11, rd := 10 } ∧
    decodeScalar 0xD6C5957B#32 = .amoSwap { scope := 3, sem := 5, dbl := true, rs2 := 12, rs1 := 11, rd := 10 } ∧
    decodeScalar 0xD4C5A57B#32 = .amoAnd { scope := 3, sem := 5, dbl := false, rs2 := 12, rs1 := 11, rd := 10 } ∧
    decodeScalar 0xD6C5B57B#32 = .amoOr { scope := 3, sem := 5, dbl := true, rs2 := 12, rs1 := 11, rd := 10 } ∧
    decodeScalar 0xD4C5C57B#32 = .amoXor { scope := 3, sem := 5, dbl := false, rs2 := 12, rs1 := 11, rd := 10 } ∧
    decodeScalar 0xD6C5D57B#32 = .amoMax { scope := 3, sem := 5, dbl := true, rs2 := 12, rs1 := 11, rd := 10 } ∧
    decodeScalar 0xD4C5E57B#32 = .amoFadd { scope := 3, sem := 5, dbl := false, rs2 := 12, rs1 := 11, rd := 10 } ∧
    decodeScalar 0xD6C5F57B#32 = .amoCas { scope := 3, sem := 5, dbl := true, rs2 := 12, rs1 := 11, rd := 10 } := by decide

/-- The standard loads, stores, LR, SC, AMOs, fences and system instructions (R10). -/
theorem test_decode_memory_standard :
    decodeScalar 0xFFC58503#32 = .standardLoadStore (.load .b 10 11 0xFFC) ∧
    decodeScalar 0xFFC59503#32 = .standardLoadStore (.load .h 10 11 0xFFC) ∧
    decodeScalar 0xFFC5A503#32 = .standardLoadStore (.load .w 10 11 0xFFC) ∧
    decodeScalar 0xFFC5B503#32 = .standardLoadStore (.load .d 10 11 0xFFC) ∧
    decodeScalar 0xFFC5C503#32 = .standardLoadStore (.load .bu 10 11 0xFFC) ∧
    decodeScalar 0xFFC5D503#32 = .standardLoadStore (.load .hu 10 11 0xFFC) ∧
    decodeScalar 0xFFC5E503#32 = .standardLoadStore (.load .wu 10 11 0xFFC) ∧
    decodeScalar 0xFEC58E23#32 = .standardLoadStore (.store .b 11 12 0xFFC) ∧
    decodeScalar 0xFEC59E23#32 = .standardLoadStore (.store .h 11 12 0xFFC) ∧
    decodeScalar 0xFEC5AE23#32 = .standardLoadStore (.store .w 11 12 0xFFC) ∧
    decodeScalar 0xFEC5BE23#32 = .standardLoadStore (.store .d 11 12 0xFFC) ∧
    decodeScalar 0x0085A507#32 = .standardLoadStore (.fload false 10 11 8) ∧
    decodeScalar 0x0085B507#32 = .standardLoadStore (.fload true 10 11 8) ∧
    decodeScalar 0x00C5A427#32 = .standardLoadStore (.fstore false 11 12 8) ∧
    decodeScalar 0x00C5B427#32 = .standardLoadStore (.fstore true 11 12 8) ∧
    decodeScalar 0x1405A52F#32 = .lr false true false 10 11 ∧
    decodeScalar 0x1AC5B52F#32 = .sc true false true 10 11 12 ∧
    decodeScalar 0x08C5B52F#32 = .standardAmo .swap true false false 10 11 12 ∧
    decodeScalar 0x00C5B52F#32 = .standardAmo .add true false false 10 11 12 ∧
    decodeScalar 0x20C5B52F#32 = .standardAmo .xor true false false 10 11 12 ∧
    decodeScalar 0x60C5B52F#32 = .standardAmo .and true false false 10 11 12 ∧
    decodeScalar 0x40C5B52F#32 = .standardAmo .or true false false 10 11 12 ∧
    decodeScalar 0x80C5B52F#32 = .standardAmo .min true false false 10 11 12 ∧
    decodeScalar 0xA0C5B52F#32 = .standardAmo .max true false false 10 11 12 ∧
    decodeScalar 0xC0C5B52F#32 = .standardAmo .minu true false false 10 11 12 ∧
    decodeScalar 0xE0C5B52F#32 = .standardAmo .maxu true false false 10 11 12 ∧
    decodeScalar 0x0FF0000F#32 = .fenceRv 0 15 15 0 0 ∧
    decodeScalar 0x8330000F#32 = .fenceRv 8 3 3 0 0 ∧
    decodeScalar 0x0000100F#32 = .fenceI 0 0 0 ∧
    decodeScalar 0x12C58073#32 = .sfenceVma 11 12 ∧
    decodeScalar 0x00000073#32 = .ecall ∧
    decodeScalar 0x00100073#32 = .ebreak ∧
    decodeScalar 0x10200073#32 = .sret ∧
    decodeScalar 0x10500073#32 = .wfi := by decide

/-- The integer instructions of I, M, Zba and Zbb (R10). -/
theorem test_decode_integer :
    decodeScalar 0xFFFFF537#32 = .standardInstruction (.lui 10 0xFFFFF) ∧
    decodeScalar 0x00001517#32 = .standardInstruction (.auipc 10 1) ∧
    decodeScalar 0x0080056F#32 = .standardInstruction (.jal 10 4) ∧
    decodeScalar 0xFFF58567#32 = .standardInstruction (.jalr 10 11 0xFFF) ∧
    decodeScalar 0xFEC58EE3#32 = .standardInstruction (.branch .eq 11 12 0xFFE) ∧
    decodeScalar 0x00C59463#32 = .standardInstruction (.branch .ne 11 12 4) ∧
    decodeScalar 0x00C5C463#32 = .standardInstruction (.branch .lt 11 12 4) ∧
    decodeScalar 0x00C5D463#32 = .standardInstruction (.branch .ge 11 12 4) ∧
    decodeScalar 0x00C5E463#32 = .standardInstruction (.branch .ltu 11 12 4) ∧
    decodeScalar 0x00C5F463#32 = .standardInstruction (.branch .geu 11 12 4) ∧
    decodeScalar 0x00558513#32 = .standardInstruction (.opImm .addi 10 11 5) ∧
    decodeScalar 0x0055A513#32 = .standardInstruction (.opImm .slti 10 11 5) ∧
    decodeScalar 0x0055B513#32 = .standardInstruction (.opImm .sltiu 10 11 5) ∧
    decodeScalar 0x0055C513#32 = .standardInstruction (.opImm .xori 10 11 5) ∧
    decodeScalar 0x0055E513#32 = .standardInstruction (.opImm .ori 10 11 5) ∧
    decodeScalar 0x0055F513#32 = .standardInstruction (.opImm .andi 10 11 5) ∧
    decodeScalar 0x03F59513#32 = .standardInstruction (.shImm .slli 10 11 63) ∧
    decodeScalar 0x03F5D513#32 = .standardInstruction (.shImm .srli 10 11 63) ∧
    decodeScalar 0x43F5D513#32 = .standardInstruction (.shImm .srai 10 11 63) ∧
    decodeScalar 0x63F5D513#32 = .standardInstruction (.shImm .rori 10 11 63) ∧
    decodeScalar 0x0BF5951B#32 = .standardInstruction (.shImm .slliUw 10 11 63) ∧
    decodeScalar 0xFFF5851B#32 = .standardInstruction (.addiw 10 11 0xFFF) ∧
    decodeScalar 0x01F5951B#32 = .standardInstruction (.shImmW .slliw 10 11 31) ∧
    decodeScalar 0x01F5D51B#32 = .standardInstruction (.shImmW .srliw 10 11 31) ∧
    decodeScalar 0x41F5D51B#32 = .standardInstruction (.shImmW .sraiw 10 11 31) ∧
    decodeScalar 0x61F5D51B#32 = .standardInstruction (.shImmW .roriw 10 11 31) := by decide

/-- The register forms of I, M, Zba and Zbb (R10). -/
theorem test_decode_register :
    decodeScalar 0x00C58533#32 = .standardInstruction (.op .add 10 11 12) ∧
    decodeScalar 0x40C58533#32 = .standardInstruction (.op .sub 10 11 12) ∧
    decodeScalar 0x00C59533#32 = .standardInstruction (.op .sll 10 11 12) ∧
    decodeScalar 0x00C5A533#32 = .standardInstruction (.op .slt 10 11 12) ∧
    decodeScalar 0x00C5B533#32 = .standardInstruction (.op .sltu 10 11 12) ∧
    decodeScalar 0x00C5C533#32 = .standardInstruction (.op .xor 10 11 12) ∧
    decodeScalar 0x00C5D533#32 = .standardInstruction (.op .srl 10 11 12) ∧
    decodeScalar 0x40C5D533#32 = .standardInstruction (.op .sra 10 11 12) ∧
    decodeScalar 0x00C5E533#32 = .standardInstruction (.op .or 10 11 12) ∧
    decodeScalar 0x00C5F533#32 = .standardInstruction (.op .and 10 11 12) ∧
    decodeScalar 0x02C58533#32 = .standardInstruction (.op .mul 10 11 12) ∧
    decodeScalar 0x02C59533#32 = .standardInstruction (.op .mulh 10 11 12) ∧
    decodeScalar 0x02C5A533#32 = .standardInstruction (.op .mulhsu 10 11 12) ∧
    decodeScalar 0x02C5B533#32 = .standardInstruction (.op .mulhu 10 11 12) ∧
    decodeScalar 0x02C5C533#32 = .standardInstruction (.op .div 10 11 12) ∧
    decodeScalar 0x02C5D533#32 = .standardInstruction (.op .divu 10 11 12) ∧
    decodeScalar 0x02C5E533#32 = .standardInstruction (.op .rem 10 11 12) ∧
    decodeScalar 0x02C5F533#32 = .standardInstruction (.op .remu 10 11 12) ∧
    decodeScalar 0x20C5A533#32 = .standardInstruction (.op .sh1add 10 11 12) ∧
    decodeScalar 0x20C5C533#32 = .standardInstruction (.op .sh2add 10 11 12) ∧
    decodeScalar 0x20C5E533#32 = .standardInstruction (.op .sh3add 10 11 12) ∧
    decodeScalar 0x40C5F533#32 = .standardInstruction (.op .andn 10 11 12) ∧
    decodeScalar 0x40C5E533#32 = .standardInstruction (.op .orn 10 11 12) ∧
    decodeScalar 0x40C5C533#32 = .standardInstruction (.op .xnor 10 11 12) ∧
    decodeScalar 0x0AC5C533#32 = .standardInstruction (.op .min 10 11 12) ∧
    decodeScalar 0x0AC5D533#32 = .standardInstruction (.op .minu 10 11 12) ∧
    decodeScalar 0x0AC5E533#32 = .standardInstruction (.op .max 10 11 12) ∧
    decodeScalar 0x0AC5F533#32 = .standardInstruction (.op .maxu 10 11 12) ∧
    decodeScalar 0x60C59533#32 = .standardInstruction (.op .rol 10 11 12) ∧
    decodeScalar 0x60C5D533#32 = .standardInstruction (.op .ror 10 11 12) ∧
    decodeScalar 0x00C5853B#32 = .standardInstruction (.opW .addw 10 11 12) ∧
    decodeScalar 0x40C5853B#32 = .standardInstruction (.opW .subw 10 11 12) ∧
    decodeScalar 0x00C5953B#32 = .standardInstruction (.opW .sllw 10 11 12) ∧
    decodeScalar 0x00C5D53B#32 = .standardInstruction (.opW .srlw 10 11 12) ∧
    decodeScalar 0x40C5D53B#32 = .standardInstruction (.opW .sraw 10 11 12) ∧
    decodeScalar 0x02C5853B#32 = .standardInstruction (.opW .mulw 10 11 12) ∧
    decodeScalar 0x02C5C53B#32 = .standardInstruction (.opW .divw 10 11 12) ∧
    decodeScalar 0x02C5D53B#32 = .standardInstruction (.opW .divuw 10 11 12) ∧
    decodeScalar 0x02C5E53B#32 = .standardInstruction (.opW .remw 10 11 12) ∧
    decodeScalar 0x02C5F53B#32 = .standardInstruction (.opW .remuw 10 11 12) ∧
    decodeScalar 0x08C5853B#32 = .standardInstruction (.opW .addUw 10 11 12) ∧
    decodeScalar 0x20C5A53B#32 = .standardInstruction (.opW .sh1addUw 10 11 12) ∧
    decodeScalar 0x20C5C53B#32 = .standardInstruction (.opW .sh2addUw 10 11 12) ∧
    decodeScalar 0x20C5E53B#32 = .standardInstruction (.opW .sh3addUw 10 11 12) ∧
    decodeScalar 0x60C5953B#32 = .standardInstruction (.opW .rolw 10 11 12) ∧
    decodeScalar 0x60C5D53B#32 = .standardInstruction (.opW .rorw 10 11 12) ∧
    decodeScalar 0x60059513#32 = .standardInstruction (.un .clz 10 11) ∧
    decodeScalar 0x60159513#32 = .standardInstruction (.un .ctz 10 11) ∧
    decodeScalar 0x60259513#32 = .standardInstruction (.un .cpop 10 11) ∧
    decodeScalar 0x60459513#32 = .standardInstruction (.un .sextB 10 11) ∧
    decodeScalar 0x60559513#32 = .standardInstruction (.un .sextH 10 11) ∧
    decodeScalar 0x6B85D513#32 = .standardInstruction (.un .rev8 10 11) ∧
    decodeScalar 0x2875D513#32 = .standardInstruction (.un .orcB 10 11) ∧
    decodeScalar 0x0805C53B#32 = .standardInstruction (.un .zextH 10 11) ∧
    decodeScalar 0x6005951B#32 = .standardInstruction (.un .clzw 10 11) ∧
    decodeScalar 0x6015951B#32 = .standardInstruction (.un .ctzw 10 11) ∧
    decodeScalar 0x6025951B#32 = .standardInstruction (.un .cpopw 10 11) := by decide

/-- CSR and floating-point instructions (R10, R18). -/
theorem test_decode_csr_float :
    decodeScalar 0x14059573#32 = .standardInstruction (.csr .rw false 10 11 0x140) ∧
    decodeScalar 0x1405A573#32 = .standardInstruction (.csr .rs false 10 11 0x140) ∧
    decodeScalar 0x1405B573#32 = .standardInstruction (.csr .rc false 10 11 0x140) ∧
    decodeScalar 0x1405D573#32 = .standardInstruction (.csr .rw true 10 11 0x140) ∧
    decodeScalar 0x1405E573#32 = .standardInstruction (.csr .rs true 10 11 0x140) ∧
    decodeScalar 0x1405F573#32 = .standardInstruction (.csr .rc true 10 11 0x140) ∧
    decodeScalar 0x00C5F553#32 = .standardInstruction (.fop .add false 10 11 12 7) ∧
    decodeScalar 0x0AC5F553#32 = .standardInstruction (.fop .sub true 10 11 12 7) ∧
    decodeScalar 0x10C5F553#32 = .standardInstruction (.fop .mul false 10 11 12 7) ∧
    decodeScalar 0x1AC5F553#32 = .standardInstruction (.fop .div true 10 11 12 7) ∧
    decodeScalar 0x6AC58543#32 = .standardInstruction (.fma .madd true 10 11 12 13 0) ∧
    decodeScalar 0x6AC58547#32 = .standardInstruction (.fma .msub true 10 11 12 13 0) ∧
    decodeScalar 0x6AC5854B#32 = .standardInstruction (.fma .nmsub true 10 11 12 13 0) ∧
    decodeScalar 0x6AC5854F#32 = .standardInstruction (.fma .nmadd true 10 11 12 13 0) ∧
    decodeScalar 0x58059553#32 = .standardInstruction (.fsqrt false 10 11 1) ∧
    decodeScalar 0x20C58553#32 = .standardInstruction (.fsgn .j false 10 11 12) ∧
    decodeScalar 0x22C59553#32 = .standardInstruction (.fsgn .jn true 10 11 12) ∧
    decodeScalar 0x20C5A553#32 = .standardInstruction (.fsgn .jx false 10 11 12) ∧
    decodeScalar 0x28C58553#32 = .standardInstruction (.fminmax false false 10 11 12) ∧
    decodeScalar 0x2AC59553#32 = .standardInstruction (.fminmax true true 10 11 12) ∧
    decodeScalar 0xA0C5A553#32 = .standardInstruction (.fcmp .eq false 10 11 12) ∧
    decodeScalar 0xA2C59553#32 = .standardInstruction (.fcmp .lt true 10 11 12) ∧
    decodeScalar 0xA0C58553#32 = .standardInstruction (.fcmp .le false 10 11 12) ∧
    decodeScalar 0xE2059553#32 = .standardInstruction (.fclass true 10 11) ∧
    decodeScalar 0xC0059553#32 = .standardInstruction (.fcvtInt .w false 10 11 1) ∧
    decodeScalar 0xC2359553#32 = .standardInstruction (.fcvtInt .lu true 10 11 1) ∧
    decodeScalar 0xD215F553#32 = .standardInstruction (.fcvtFrom .wu true 10 11 7) ∧
    decodeScalar 0xD025F553#32 = .standardInstruction (.fcvtFrom .l false 10 11 7) ∧
    decodeScalar 0x4015F553#32 = .standardInstruction (.fcvtFmt false 10 11 7) ∧
    decodeScalar 0x42058553#32 = .standardInstruction (.fcvtFmt true 10 11 0) ∧
    decodeScalar 0xE0058553#32 = .standardInstruction (.fmvToX false 10 11) ∧
    decodeScalar 0xE2058553#32 = .standardInstruction (.fmvToX true 10 11) ∧
    decodeScalar 0xF0058553#32 = .standardInstruction (.fmvFromX false 10 11) ∧
    decodeScalar 0xF2058553#32 = .standardInstruction (.fmvFromX true 10 11) := by decide

/-! ## Well-formedness: one ill-formed term for each check -/

/-- Scalar operand fields (R65 to R69). -/
theorem test_wf_scalar :
    wf (.semWaiti 10 3 1) = true ∧ wf (.semWaiti 10 3 0) = false ∧ wf (.semSigi 10 3 0) = false ∧
    wf (.engKick 11 12 4) = true ∧ wf (.engKick 11 12 5) = false ∧
    wf (.fenceS 0 5) = true ∧ wf (.fenceS 0 4) = false ∧ wf (.fenceS 0 9) = false ∧
    wf (.amoAdd (atomic 8)) = true ∧ wf (.amoAdd (atomic 9)) = false ∧ wf (.amoSwap (atomic 9)) = false ∧
    wf (.amoSwap (atomic 1)) = false ∧ wf (.amoAnd (atomic 9)) = false ∧ wf (.amoOr (atomic 9)) = false ∧
    wf (.amoXor (atomic 9)) = false ∧ wf (.amoMax (atomic 9)) = false ∧ wf (.amoFadd (atomic 9)) = false ∧
    wf (.amoCas (atomic 9)) = false ∧ wf (.amoCas (atomic 1)) = false ∧
    wf (.standardInstruction (.illegal 0x7F)) = true ∧ wf (.standardInstruction (.illegal 0x13)) = false ∧
    wf (.reservedLaneOpcode 0x18) = true ∧ wf (.reservedLaneOpcode 0x00) = false := by decide

/-- The ranges of event operands. -/
theorem test_wf_events :
    wf (.wqDoorbell 4096 0) = false ∧ wf (.launchRecordTake 4096) = false ∧ wf (.crewAdmit 128 0) = false ∧
    wf (.crewAdmit 0 4) = false ∧ wf (.dmringWrite 128 0 0) = false ∧ wf (.dmringWrite 0 4 0) = false ∧
    wf (.hotnessHalving 4) = false ∧ wf (.coreReset 8192) = false ∧ wf (.attestation []) = false ∧
    wf (.wqDoorbell 4095 0) = true ∧ wf (.coreReset 8191) = true := by decide

/-- Fields common to every class (R150, R152 to R154, R156). -/
theorem test_wf_common :
    wf (.laneAdd word32) = true ∧ wf (.laneAdd { word32 with gn := true }) = false ∧
    wf (.fence { Claim.blank with gp := 1, hi := 0x05000000 }) = false ∧ wf (.fence { Claim.blank with hi := 0x05000000 }) = true ∧
    wf (.atomAdd { Claim.blank with ty := 7, sm := true }) = false ∧ wf (.nop { Claim.blank with mh := true }) = false ∧
    wf (.mig { Claim.blank with mh := true }) = true ∧ wf (.movu { Claim.blank with lra := true }) = false ∧
    wf (.mov { Claim.blank with lrb := true }) = false ∧ wf (.laneAdd { word32 with lrc := true }) = false ∧
    wf (.laneAdd { word32 with ty := 11 }) = false ∧ wf (.laneAdd { word32 with rm := 1 }) = false ∧
    wf (.fadd { word32 with ty := 11, rm := 6 }) = false ∧ wf (.fadd { word32 with ty := 11, rm := 7 }) = true := by decide

/-- Class L (R36, R147, R153, R155, R156). -/
theorem test_wf_l :
    wf (.laneAdd { word32 with ty := 4, vd := 3 }) = false ∧ wf (.laneAdd { word32 with ty := 4, va := 3 }) = false ∧
    wf (.laneAdd { word32 with ty := 4, vb := 3 }) = false ∧ wf (.laneAdd { word32 with vc := 1 }) = false ∧
    wf (.mov { Claim.blank with vb := 1 }) = false ∧ wf (.mov { Claim.blank with hi := 0x80000000 }) = false ∧
    wf (.mld { Claim.blank with ty := 1 }) = false ∧ wf (.mld { Claim.blank with ty := 1, hi := 0x80000000 }) = true ∧
    wf (.laneAdd { word32 with vb := 32, hi := 0x80000000 }) = false ∧
    wf (.laneAdd { word32 with lrb := true, hi := 0x80000000 }) = false ∧ wf (.laneAdd { word32 with lrb := true }) = true ∧
    wf (.mulhi { word32 with hi := 0x10000000 }) = false ∧ wf (.laneAdd { word32 with hi := 0x10000000 }) = true ∧
    wf (.laneAdd { word32 with hi := 0x01000000 }) = false ∧ wf (.laneAdd { word32 with hi := 0x20000000 }) = false ∧
    wf (.laneAdd { word32 with hi := 0x00000001 }) = false ∧ wf (.laneAdd { word32 with hi := 0x00004000 }) = false ∧
    wf (.laneAdd { word32 with hi := 0x00404101 }) = true ∧ wf (.icmp { word32 with vc := 6 }) = false ∧
    wf (.icmp { word32 with vd := 0 }) = false ∧ wf (.icmp { word32 with vd := 8 }) = false ∧ wf (.pmov { word32 with vb := 0 }) = false ∧
    wf (.pmov { Claim.blank with vd := 1, va := 200 }) = true ∧ wf (.pnot { Claim.blank with vd := 1, va := 8 }) = false ∧
    wf (.movu { Claim.blank with va := 32 }) = false ∧ wf (.voteMask { Claim.blank with vd := 1 }) = false ∧
    wf (.rsvGet { Claim.blank with vd := 2 }) = false := by decide

/-- Classes LI, LM and LC (R147 to R149). -/
theorem test_wf_li_lm_lc :
    wf (.addLi { word32 with vb := 0, hi := 0xFFFFFFFF }) = true ∧ wf (.addLi { word32 with vb := 1 }) = false ∧
    wf (.ld { Claim.blank with ty := 11, vb := 0x42, vc := 0xFF, hi := 0x30000000 }) = true ∧
    wf (.ld { Claim.blank with hi := 0x40000000 }) = false ∧ wf (.ld { Claim.blank with vb := 0x80 }) = false ∧
    wf (.ld { Claim.blank with hi := 0x01000000 }) = false ∧ wf (.ld { Claim.blank with vb := 0x50 }) = false ∧
    wf (.cwb { Claim.blank with vb := 0x10 }) = false ∧ wf (.stq { Claim.blank with ty := 8, hi := 0x10000000 }) = false ∧
    wf (.fence { Claim.blank with vb := 1, hi := 0x05000000 }) = false ∧
    wf (.fence { Claim.blank with vc := 1, hi := 0x05000000 }) = false ∧ wf (.ld { Claim.blank with va := 254 }) = false ∧
    wf (.bra { Claim.blank with hi := 0x0000C000 }) = true ∧ wf (.bra { Claim.blank with va := 1, hi := 0x0000C000 }) = false ∧
    wf (.bra { Claim.blank with hi := 0x00004000 }) = false ∧ wf (.bra Claim.blank) = false ∧
    wf (.nop { Claim.blank with hi := 0x0000C000 }) = false ∧ wf (.brx { Claim.blank with va := 3, hi := 0x0000C000 }) = false ∧
    wf (.nop { Claim.blank with hi := 1 }) = false ∧ wf (.fwait { Claim.blank with vd := 2 }) = false ∧
    wf (.barWait { Claim.blank with vd := 16 }) = false := by decide

/-- Checks of single entries (R180 to R182, R185, R202, R281, R328, R348, R369). -/
theorem test_wf_entries :
    wf (.cvt { Claim.blank with ty := 11, hi := 0x03000000 }) = true ∧ wf (.cvt { Claim.blank with ty := 11, hi := 0x0B000000 }) = false ∧
    wf (.cvt { Claim.blank with ty := 11, vb := 1, hi := 0x03000000 }) = false ∧
    wf (.cvt { Claim.blank with ty := 11, vc := 2, hi := 0x09000000 }) = false ∧
    wf (.qnt { Claim.blank with ty := 15, va := 249, hi := 0x0B000000 }) = false ∧
    wf (.qnt { Claim.blank with ty := 15, va := 248, hi := 0x0B000000 }) = true ∧
    wf (.aln { Claim.blank with ty := 2, hi := 0x0D000000 }) = false ∧ wf (.reduce { Claim.blank with ty := 3, vc := 6 }) = false ∧
    wf (.reduce { Claim.blank with ty := 11, rm := 7 }) = false ∧ wf (.scan { Claim.blank with ty := 3, vc := 17 }) = true ∧
    wf (.atomCas { Claim.blank with ty := 8, vd := 2 }) = false ∧ wf (.ringWait Claim.blank) = false ∧
    wf (.ringWait { Claim.blank with vc := 64 }) = true ∧ wf (.blmRead { Claim.blank with vc := 0x50 }) = false ∧
    wf (.blmFlush { Claim.blank with hi := 0x80000000 }) = false ∧ wf (.bra { Claim.blank with vd := 8, hi := 0x0000C000 }) = false ∧
    wf (.sfx 9 { Claim.blank with ty := 11 }) = false ∧ wf (.sfx 8 { Claim.blank with ty := 11 }) = true := by decide

/-! ## Scalar results, from the standard's corner cases (R10, R13) -/

theorem test_alu_divide :
    aluVal .div 7 0 = BitVec.allOnes 64 ∧ aluVal .div 0x8000000000000000 (-1) = 0x8000000000000000 ∧ aluVal .rem 0x8000000000000000 (-1) = 0 ∧
    aluVal .rem 7 0 = 7 ∧ aluVal .rem (-7) 2 = -1 ∧ aluVal .divu 7 0 = BitVec.allOnes 64 ∧ aluVal .remu 7 0 = 7 ∧
    aluWVal .divw 0x80000000 (-1) = 0xFFFFFFFF80000000 ∧ aluWVal .remw 0x80000000 (-1) = 0 ∧
    aluWVal .divuw 0x100000001 0 = BitVec.allOnes 64 ∧ aluWVal .remuw 0xFFFFFFFF 0 = BitVec.allOnes 64 := by decide
theorem test_alu_multiply :
    aluVal .mul (-1) (-1) = 1 ∧ aluVal .mulh (-1) (-1) = 0 ∧ aluVal .mulhu (-1) (-1) = 0xFFFFFFFFFFFFFFFE ∧
    aluVal .mulhsu (-1) (-1) = BitVec.allOnes 64 ∧ aluWVal .mulw 0x10000 0x8000 = 0xFFFFFFFF80000000 := by decide
theorem test_alu_bits :
    aluVal .add (-1) 1 = 0 ∧ aluVal .sub 0 1 = -1 ∧ aluVal .sll 1 0x7F = 0x8000000000000000 ∧ aluVal .srl (-1) 0x44 = 0x0FFFFFFFFFFFFFFF ∧
    aluVal .sra 0x8000000000000000 4 = 0xF800000000000000 ∧ aluVal .slt (-1) 1 = 1 ∧ aluVal .sltu (-1) 1 = 0 ∧
    aluVal .xor 0xFF 0x0F = 0xF0 ∧ aluVal .or 0xF0 0x0F = 0xFF ∧ aluVal .and 0xFF 0x0F = 0x0F ∧
    aluVal .sh1add 3 5 = 11 ∧ aluVal .sh2add 3 5 = 17 ∧ aluVal .sh3add 3 5 = 29 ∧ aluVal .andn 0xF0 0x30 = 0xC0 ∧
    aluVal .orn 0 (-1) = 0 ∧ aluVal .xnor 5 5 = -1 ∧ aluVal .max (-1) 1 = 1 ∧ aluVal .maxu (-1) 1 = -1 ∧ aluVal .min (-1) 1 = -1 ∧
    aluVal .minu (-1) 1 = 1 ∧ aluVal .rol 0x8000000000000001 1 = 3 ∧ aluVal .ror 1 1 = 0x8000000000000000 := by decide
theorem test_alu_words :
    aluWVal .addw 0x7FFFFFFF 1 = 0xFFFFFFFF80000000 ∧ aluWVal .subw 0 1 = -1 ∧ aluWVal .sllw 1 0x3F = 0xFFFFFFFF80000000 ∧
    aluWVal .srlw 0xFFFFFFFF80000000 4 = 0x08000000 ∧ aluWVal .sraw 0x80000000 4 = 0xFFFFFFFFF8000000 ∧
    aluWVal .addUw 0xFFFFFFFF00000001 1 = 2 ∧ aluWVal .sh1addUw 0xFFFFFFFF80000000 1 = 0x100000001 ∧
    aluWVal .rolw 0x80000001 1 = 3 ∧ aluWVal .rorw 1 1 = 0xFFFFFFFF80000000 := by decide
theorem test_unary :
    unVal .clz 1 = 63 ∧ unVal .clz 0 = 64 ∧ unVal .ctz 0 = 64 ∧ unVal .ctz 8 = 3 ∧ unVal .cpop (-1) = 64 ∧ unVal .sextB 0x80 = 0xFFFFFFFFFFFFFF80 ∧
    unVal .sextH 0x18000 = 0xFFFFFFFFFFFF8000 ∧ unVal .zextH 0x12348765 = 0x8765 ∧ unVal .rev8 0x0102030405060708 = 0x0807060504030201 ∧
    unVal .orcB 0x0100002000000300 = 0xFF0000FF0000FF00 ∧ unVal .clzw 0xFFFFFFFF00000001 = 31 ∧ unVal .ctzw 0 = 32 ∧
    unVal .cpopw (-1) = 32 := by decide
theorem test_immediates :
    immVal .sltiu 5 (-1) = 1 ∧ immVal .slti 5 (-1) = 0 ∧ immVal .xori 5 (-1) = 0xFFFFFFFFFFFFFFFA ∧
    shVal .slliUw 0xFFFFFFFF80000000 1 = 0x100000000 ∧ shVal .srai 0x8000000000000000 63 = -1 ∧ shVal .rori 1 1 = 0x8000000000000000 ∧
    shWVal .sraiw 0x80000000 31 = -1 ∧ shWVal .roriw 1 1 = 0xFFFFFFFF80000000 ∧ shWVal .srliw 0x80000000 31 = 1 := by decide
theorem test_fp_add_mul :
    (fadd .f32 { mode := 0 } false (unpack .f32 0x3F800000) (unpack .f32 0x33800000)) = { bits := 0x3F800000, flags := Flag.nx } ∧
    (fadd .f32 { mode := 3 } false (unpack .f32 0x3F800000) (unpack .f32 0x33800000)) = { bits := 0x3F800001, flags := Flag.nx } ∧
    (fsub .f32 { mode := 2 } false (unpack .f32 0x3F800000) (unpack .f32 0x3F800000)) = { bits := 0x80000000, flags := 0 } ∧
    (fmul .f32 { mode := 0 } false (unpack .f32 0x7F000000) (unpack .f32 0x40000000)).bits = 0x7F800000 ∧
    (fmul .f32 { mode := 1 } false (unpack .f32 0x7F000000) (unpack .f32 0x40000000)).bits = 0x7F7FFFFF ∧
    (fadd .f64 { mode := 0 } false (unpack .f64 0x3FF0000000000000) (unpack .f64 0x4000000000000000)).bits = 0x4008000000000000 ∧
    (fadd .f32 { mode := 0 } false (.inf false) (.inf true)) = { bits := 0x7FC00000, flags := Flag.nv } := by decide +kernel
theorem test_fp_divide_root_fused :
    (fdiv .f32 { mode := 0 } false (unpack .f32 0x3F800000) (unpack .f32 0)) = { bits := 0x7F800000, flags := Flag.dz } ∧
    (fdiv .f32 { mode := 0 } false (unpack .f32 0x3F800000) (unpack .f32 0x40400000)) = { bits := 0x3EAAAAAB, flags := Flag.nx } ∧
    (fsqrt .f32 { mode := 0 } false (unpack .f32 0xBF800000)) = { bits := 0x7FC00000, flags := Flag.nv } ∧
    (fsqrt .f32 { mode := 0 } false (unpack .f32 0x41100000)) = { bits := 0x40400000, flags := 0 } ∧
    (ffma .f32 { mode := 0 } false (unpack .f32 0x3F800001) (unpack .f32 0x3F7FFFFF) (unpack .f32 0xBF800000)).bits = 0x337FFFFE := by decide +kernel
theorem test_fp_compare_convert :
    fminmaxRes .f32 false 0x7FC00000 0x3F800000 = { bits := 0x3F800000, flags := 0 } ∧
    fminmaxRes .f32 true 0x80000000 0 = { bits := 0, flags := 0 } ∧ (fcmpRes .eq (.nan false) (.nan false)) = (false, 0) ∧
    (fcmpRes .lt (.nan false) (.nan false)) = (false, Flag.nv) ∧ fclassOf .f32 0xFF800000 = 1 ∧ fclassOf .f32 0x7F800001 = 256 ∧
    (toIntStd { mode := 0 } true 32 (.nan false)) = { bits := 0x7FFFFFFF, flags := Flag.nv } ∧
    (toIntStd { mode := 1 } false 32 (unpack .f32 0xBF000000)) = { bits := 0, flags := Flag.nx } ∧
    (toIntStd { mode := 0 } true 32 (unpack .f32 0x40200000)) = { bits := 2, flags := Flag.nx } := by decide

/-! ## Lane results, from the worked cases of the spec and hand calculation -/

/-- R9's sat_i32 and wrap, MULHI, MIN, MAX, ABS and NEG (R171). -/
theorem test_lane_int :
    vAfter (.laneAdd word32) 0x7FFFFFFF 1 0 = some 0x80000000 ∧ vAfter (.laneAdd { word32 with hi := 0x10000000 }) 0x7FFFFFFF 1 0 = some 0x7FFFFFFF ∧
    vAfter (.laneAdd { word32 with ty := 1 }) 0x7F01FF80 0x01010101 0 = some 0x80020081 ∧ vAfter (.laneSub word32) 0 1 3 = some 0xFFFFFFFC ∧
    vAfter (.laneMul { word32 with hi := 0x10000000 }) 0x10000 0x8000 0 = some 0x7FFFFFFF ∧
    vAfter (.mulhi word32) 0xFFFFFFFF 0xFFFFFFFF 0 = some 0 ∧ vAfter (.mulhi { word32 with ty := 7 }) 0xFFFFFFFF 0xFFFFFFFF 0 = some 0xFFFFFFFE ∧
    vAfter (.laneMin word32) 0xFFFFFFFF 1 0 = some 0xFFFFFFFF ∧ vAfter (.laneMax { word32 with ty := 7 }) 0xFFFFFFFF 1 0 = some 0xFFFFFFFF ∧
    vAfter (.laneAbs { word32 with vb := 0 }) 0x80000000 0 0 = some 0x80000000 ∧ vAfter (.laneNeg { word32 with vb := 0 }) 5 0 0 = some 0xFFFFFFFB ∧
    vAfter (.imad { word32 with vc := 8 }) 3 4 0 = some 16 ∧ vAfter (.addLi { word32 with vb := 0, hi := 0xFFFFFFFF }) 5 0 0 = some 4 := by decide

/-- LOGIC and SHIFT, with the worked SHA of R173. -/
theorem test_lane_logic_shift :
    vAfter (.laneAnd { word32 with ty := 0 }) 0xF0F0 0xFF00 0 = some 0xF000 ∧ vAfter (.laneOr { word32 with ty := 0 }) 0xF0F0 0xFF00 0 = some 0xFFF0 ∧
    vAfter (.laneXor { word32 with ty := 0 }) 0xF0F0 0xFF00 0 = some 0x0FF0 ∧ vAfter (.laneNot { word32 with ty := 0, vb := 0 }) 0 0 0 = some 0xFFFFFFFF ∧
    vAfter (.andn { word32 with ty := 0 }) 0xF0F0 0xFF00 0 = some 0x00F0 ∧ vAfter (.sha { word32 with ty := 0 }) 0x800000F0 0x24 0 = some 0xF800000F ∧
    vAfter (.shl { word32 with ty := 0 }) 1 31 0 = some 0x80000000 ∧ vAfter (.shr { word32 with ty := 0 }) 0x80000000 31 0 = some 1 ∧
    vAfter (.rol { word32 with ty := 0 }) 0x80000001 1 0 = some 3 ∧ vAfter (.ror { word32 with ty := 0 }) 1 1 0 = some 0x80000000 ∧
    vAfter (.shlLi { word32 with ty := 5, vb := 0, hi := 0x01020304 }) 0x01010101 0 0 = some 0x02040810 := by decide

/-- BITF (R174). -/
theorem test_lane_bitf :
    vAfter (.popc { word32 with ty := 0, vb := 0 }) 0xF0 0 0 = some 4 ∧ vAfter (.clz { word32 with ty := 0, vb := 0 }) 0 0 0 = some 32 ∧
    vAfter (.ctz { word32 with ty := 0, vb := 0 }) 0x100 0 0 = some 8 ∧ vAfter (.brev { word32 with ty := 0, vb := 0 }) 1 0 0 = some 0x80000000 ∧
    vAfter (.bfx { word32 with ty := 3 }) 0x00000F00 0x0408 0 = some 0xFFFFFFFF ∧ vAfter (.bfx { word32 with ty := 7 }) 0xABCD1234 0x2010 0 = some 0xABCD ∧
    bfiVal 0xFFFFFFFF 0 0x0408 = 0xFFFFF0FF := by decide +kernel

/-- FARITH, FMA, FDIV, CMP and SEL (R175 to R178). -/
theorem test_lane_float :
    vAfter (.fadd { word32 with ty := 11 }) 0x3F800000 0x40000000 0 = some 0x40400000 ∧ vAfter (.fsub { word32 with ty := 11 }) 0x3F800000 0x40000000 0 = some 0xBF800000 ∧
    vAfter (.fmul { word32 with ty := 9 }) 0x3C004000 0x40003C00 0 = some 0x40004000 ∧ vAfter (.fmin { word32 with ty := 11 }) 0x7FC00000 0x40000000 0 = some 0x40000000 ∧
    vAfter (.fabs { word32 with ty := 11, vb := 0 }) 0xBF800000 0 0 = some 0x3F800000 ∧ vAfter (.fneg { word32 with ty := 10, vb := 0 }) 0x3F80BF80 0 0 = some 0xBF803F80 ∧
    vAfter (.fma { word32 with ty := 11, vc := 6 }) 0x40000000 0x40400000 0 = some 0x41000000 ∧ vAfter (.fdiv { word32 with ty := 11 }) 0x40400000 0x40000000 0 = some 0x3FC00000 ∧
    vAfter (.fsqrt { word32 with ty := 11, vb := 0 }) 0x40800000 0 0 = some 0x40000000 ∧ vAfter (.fclass { word32 with ty := 11, vb := 0 }) 0x80000000 0 0 = some 8 := by decide +kernel

set_option maxRecDepth 8192 in
theorem test_lane_predicates :
    ((waveAfter (.icmp { word32 with vd := 1, vc := 2 }) (withOps 2 0)).map fun w => w.pred 1) = some 0x8 ∧
    ((waveAfter (.icmp { word32 with vd := 1, vc := 0 }) (withOps 2 0)).map fun w => w.pred 1) = some 0x4 ∧
    ((waveAfter (.pmov { Claim.blank with vd := 2, va := 8 }) (withOps 2 0)).map fun w => w.pred 2) = some 0xE ∧
    ((waveAfter (.voteAny { Claim.blank with vd := 2, va := 1 }) { lanes4 with p := lanes4.p.set! 1 0x10 }).map fun w => w.pred 2) = some 0 ∧
    ((waveAfter (.voteAll { Claim.blank with vd := 2, va := 0 }) lanes4).map fun w => w.pred 2) = some 0xF ∧
    ((waveAfter (.pnot { Claim.blank with vd := 2, va := 1 }) { lanes4 with p := lanes4.p.set! 1 0x5 }).map fun w => w.pred 2) = some 0xA ∧
    vAfter (.sel { word32 with ty := 0, vc := 1 }) 7 9 0 = some 9 := by decide

set_option maxRecDepth 8192 in
/-- Exchanges read the old values of the group's lanes (R166, R183, R185). -/
theorem test_lane_exchange :
    vAfter (.shflIdx { word32 with ty := 0, va := 8, vb := 8 }) 0 1 2 = some 4 ∧ vAfter (.shflXor { word32 with ty := 0, va := 8, vb := 0, vc := 1 }) 0 10 2 = some 13 ∧
    vAfter (.shflUp { word32 with ty := 0, va := 8, vb := 0, vc := 1 }) 0 10 0 = some 10 ∧ vAfter (.shflDn { word32 with ty := 0, va := 8, vb := 0, vc := 1 }) 0 10 3 = some 13 ∧
    vAfter (.bcst { word32 with ty := 0, va := 8, vb := 0, vc := 2 }) 0 10 0 = some 12 ∧ vAfter (.reduce { word32 with va := 8, vb := 0 }) 0 10 0 = some 46 ∧
    vAfter (.scan { word32 with va := 8, vb := 0 }) 0 10 2 = some 33 ∧ vAfter (.scan { word32 with va := 8, vb := 0, vc := 16 }) 0 10 2 = some 21 := by decide

theorem test_lane_moves :
    vAfter (.mov { word32 with ty := 0, va := 8, vb := 0 }) 0 5 1 = some 6 ∧ vAfter (.movi { word32 with ty := 0, va := 0, vb := 0, hi := 0xDEADBEEF }) 0 0 1 = some 0xDEADBEEF ∧
    vAfter (.movx { word32 with ty := 0, va := 0, vb := 0 }) 0 0 1 = some 1 ∧
    ((waveAfter (.movu { word32 with ty := 8, va := 5, vb := 0 }) { lanes4 with hart := runner.wx 5 0x0123456789ABCDEF }).map fun w => (w.reg 4 1, w.reg 5 1)) =
      some (0x89ABCDEF, 0x01234567) ∧
    ((waveAfter (.lfmWr { Claim.blank with va := 6 }) (withOps 0xBF 0)).map fun w => w.lfmOf 0) = some 0x1F := by decide

/-- The worked conversions: CVT of R180, the SR case of R45, ALN of R57 and the quads of R59. -/
theorem test_lane_convert :
    ((waveAfter (.cvt { Claim.blank with vd := 4, va := 6, vc := 1, ty := 10, hi := 0x0B000000 })
      ((withOps 0x3F808000 0).writeReg 4 0xF fun _ => 0x12345678)).map fun w => w.reg 4 0) = some 0x3F805678 ∧
    (roundTo .bf16 { mode := 5, u := 0x200000 } false false 513 (-9) false).bits = 0x3F81 ∧
    (roundTo .bf16 { mode := 5, u := 0x800000 } false false 513 (-9) false).bits = 0x3F80 ∧
    alignWord [unpack .bf16 0x40C0, unpack .bf16 0x3DD0] 12 = 0x77 ∧ (alignElem 12 0x77 (unpack .bf16 0x40C0)).1 = 1536 ∧
    (alignElem 12 0x77 (unpack .bf16 0x3DD0)).1 = 26 ∧ (alignElem 12 0x77 (unpack .bf16 0x3B40)).1 = 1 ∧
    (alignElem 12 0x77 (unpack .bf16 0xBB00)).1 = 0 := by decide
theorem test_lane_quantise :
    (qntQuad [⟨40, 0⟩, ⟨13, -2⟩, ⟨-1, 0⟩, ⟨11, -2⟩] 0x7F7F).1 = 0x3628 ∧ (qntQuad [⟨8, 0⟩, ⟨2, 0⟩, ⟨1, 0⟩, ⟨0, 0⟩] 0x7F7F).1 = 0x0127 ∧
    decodeQuad 0x3628 = { e := [0, 0, 0, 3], out := some (0, 0x62) } ∧ (oq4ToF32 { mode := 0 } false 0x3628 0x7F7F 0).bits = 0x42200000 := by decide

/-- The draws worked for the Accord program (R221), and lane 0 of its first pass (R223, R224). -/
theorem test_accord :
    drawU 1 0 = 0x08AED0 ∧ drawU 2 0 = 0x3FB679 ∧ drawU 0 0 = 0 ∧
    (let a := (accept 0x41000000 1 0x40000000 1 (accept 0x40800000 0 0x3F800000 1 { a := { key := 1 } })).a
     (a.smp, a.ph, a.m, (finish a).a.ws)) = (1, 0x40000000, 2, 0x40400000) := by decide

/-- Special inputs of SFX (R327), and exact results. -/
theorem test_sfx :
    sfxElem 0 11 0x80000000 = { bits := 0xFF800000, flags := Flag.dz } ∧ sfxElem 1 11 0xBF800000 = { bits := 0x7FC00000, flags := Flag.nv } ∧
    sfxElem 2 11 0x40400000 = { bits := 0x41000000, flags := 0 } ∧ sfxElem 3 11 0x41000000 = { bits := 0x40400000, flags := 0 } ∧
    sfxElem 4 11 0x3E800000 = { bits := 0x3F800000, flags := 0 } ∧ sfxElem 8 11 0 = { bits := 0x3F000000, flags := 0 } := by decide

/-- Mask operations (R355), and the worked word of R354. -/
theorem test_mask :
    (Mask.op 0x23A8, Mask.rd 0x23A8, Mask.ra 0x23A8, Mask.rb 0x23A8) = (8, 5, 3, 4) ∧ Mask.apply 0x23A8 [] (1, 4) (3, 3) = (0, 1) ∧
    Mask.apply 0x23A8 [] (3, 3) (3, 3) = (1, 1) ∧ Mask.apply 0x23A3 [] (1, 4) (2, 3) = (-2, 2) ∧ Mask.apply 0x23A6 [] (1, 2) (3, 3) = (1, 1) := by decide

/-- New values of an atomic's location (R68, R280, R281) and of a standard AMO. -/
theorem test_atomics :
    atomNew .add 32 0xFFFFFFFF 2 0 = some 1 ∧ atomNew .max 32 0xFFFFFFFF 1 0 = some 1 ∧ atomNew .maxu 32 0xFFFFFFFF 1 0 = some 0xFFFFFFFF ∧
    atomNew .cas 32 5 7 5 = some 7 ∧ atomNew .cas 32 5 7 6 = none ∧ atomNew .fadd 32 0x3F800000 0x3F800000 0 = some 0x40000000 ∧
    amoNew .minu 64 5 3 = 3 ∧ amoNew .max 32 0xFFFFFFFF 1 = 1 := by decide

/-! ## Steps of the machine, from the worked cases of the spec -/

/-- A placed scalar word runs as the next step: ADDI a0, x0, 1. -/
theorem test_step_scalar :
    ((nextOf (step (State.reset.withFetchWord 32 0x00100513))).map fun t => ((t.hart (.strand 0)).rx 10, (t.hart (.strand 0)).pc)) =
      some (1, 0x1004) := by decide +kernel

/-- A placed lane word runs as the next step: MOVI v4, 0x2A in all 64 lanes. -/
theorem test_step_lane :
    ((nextOf (step (State.reset.withFetchWord 96 0x0000002A0000000000040052))).map fun t =>
      ((t.wave 0).reg 4 0, (t.wave 0).reg 4 63, (t.wave 0).pri.map (·.pc))) = some (0x2A, 0x2A, some 12) := by decide +kernel

/-- A word of zeros is no instruction: it traps with scause 2, dcause 1 (R33). -/
theorem test_step_illegal :
    ((nextOf (step (State.reset.withFetchWord 32 0))).map fun t => ((t.hart (.strand 0)).scause, (t.hart (.strand 0)).dcause)) = some (2, 1) := by decide +kernel

/-- dstrand of context 5 of core 12 in the cluster at (11, 5) reads 0x3B665 (R19). -/
theorem test_dstrand :
    ((nextOf (exec (.standardInstruction (.csr .rs false 10 0 0xCC0))
      { State.reset.setHart (.strand 46693) runner with actor := some (.hart (.strand 46693)) })).map fun t =>
        (t.hart (.strand 46693)).rx 10) = some 0x3B665 := by decide +kernel

/-- The worked case of R30: ld a0, 0(a1) across a line. -/
theorem test_line_crossing_load :
    ((hartAfter (.standardLoadStore (.load .d 10 11 0))
      { (runner.wx 11 0x700000FC).wx 10 77 with pc := 0x20000404, stvec := 0x8000 }).map fun r =>
        ([r.sepc, r.scause, r.stval, r.dcause, r.pc, r.rx 10], r.sstatus.getLsbD 8, r.tn)) =
      some ([0x20000404, 4, 0x700000FC, 4, 0x8000, 77], false, true) := by decide +kernel

/-- A jump sets the link and clears bit 0 of a register target; a misaligned target traps at the jump (R29). -/
theorem test_jump :
    ((hartAfter (.standardInstruction (.jalr 1 11 3)) (runner.wx 11 0x2002)).map fun r => (r.pc, r.rx 1)) = some (0x2004, 0x1004) ∧
    ((hartAfter (.standardInstruction (.jalr 1 11 0)) { runner.wx 11 0x2002 with stvec := 0x8000 }).map fun r =>
      [r.pc, r.rx 1, r.sepc, r.scause, r.stval]) = some [0x8000, 0, 0x1000, 0, 0x2002] ∧
    ((hartAfter (.standardInstruction (.branch .ltu 0 11 0xFFE)) (runner.wx 11 1)).map fun r => r.pc) = some 0xFFC := by decide +kernel

/-- ECALL from U enters S; SRET returns to it (R28, R29). -/
theorem test_ecall_sret :
    ((hartAfter .ecall { runner with stvec := 0x8001 }).map fun r => ([r.pc, r.sepc, r.scause, r.dcause], r.tn, r.priv == .s)) =
      some ([0x8000, 0x1000, 8, 0], true, true) ∧
    ((hartAfter .sret { runner with priv := .s, sepc := 0x2000, tn := true, sstatus := 0x20 }).map fun r =>
      (r.pc, r.priv == .u, r.tn, r.sstatus)) = some (0x2000, true, false, 0x22) := by decide +kernel

/-- CSR fields: sie keeps bits 1, 5 and 9, sepc its bits above 1, and a clear of x0 writes nothing (R18, R22). -/
theorem test_csr :
    ((hartAfter (.standardInstruction (.csr .rw false 10 11 0x104)) { runner.wx 11 0xFFF with priv := .s }).map fun r => r.sie) = some 0x222 ∧
    ((hartAfter (.standardInstruction (.csr .rw false 10 11 0x141)) { runner.wx 11 0xFFF with priv := .s }).map fun r => r.sepc) = some 0xFFC ∧
    ((hartAfter (.standardInstruction (.csr .rc true 10 0 0x140)) { runner with priv := .s, sscratch := 5 }).map fun r =>
      (r.sscratch, r.rx 10)) = some (5, 5) ∧
    ((hartAfter (.standardInstruction (.csr .rs false 10 0 0x140)) runner).map fun r => (r.scause, r.dcause)) = some (2, 3) := by decide +kernel

/-- Mailboxes: a swap answers the old value; a deposit of the same clk beats a write and sets OVR (R105). -/
theorem test_mailbox :
    ((hartAfter (.mbSwap 10 3 11) { runner.wx 11 9 with mb := runner.mb.set! 3 7, mbFull := 0x08 }).map fun r => (r.rx 10, r.mb[3]!, r.mbFull)) =
      some (7, 9, 0) ∧
    ((hartAfter (.mbWrite 3 11) { runner.wx 11 9 with deps := [(3, 1)] }).map fun r => (r.mb[3]!, r.mbOvr)) = some (0, 0x08) := by decide +kernel

/-- The tables of the walk worked after R267. -/
def walked : State :=
  (((State.reset.poke 0x100008 (leBytes 8 0x404001)).poke 0x101008 (leBytes 8 0x408001)).poke 0x102018 (leBytes 8 0x40C001)).poke 0x103080
    (leBytes 8 0x4000048D0D3)

/-- The accessor of a strand in U whose page table is at page 0x100. -/
def walker : Acc := { cluster := 0, tlb := .core 0, who := .strand 0, dptb := 0x100, priv := .u }

/-- A load of the worked address reaches its bytes; a store faults with DETAIL 2. -/
theorem test_walk :
    (match Machine.translate walker 0x008040610ABC .load walked with
      | .ok t _ => some t.pa
      | .error _ _ => none) = some 0x10000123ABC ∧
    (match Machine.translate walker 0x008040610ABC .store walked with
      | .error (.exc e) _ => some (e.scause, e.detail, e.tval)
      | _ => none) = some (15, 2, 0x008040610ABC) := by decide +kernel

/-- A crew of one core in slot 2 of cluster 91, with 8 KiB of local SRAM on each core. -/
def crewAt91 : State :=
  State.reset.setCluster 91 { crews := [(2, { gen := 0, launch := 0, linear := 0, x := 0, y := 0, z := 0, stage := 0, cls := 1,
                                              partition := BitVec.ofNat 32 (8 * 2 ^ 7), window := 0, home := 91, homeSlot := 2 })] }

/-- The local window worked after R257: byte 0x40 of a crew's share of core 12, and the first byte past the share. -/
theorem test_window :
    let a : Acc := { walker with cluster := 91, crew := some (CrewRef.mk 91 2 0), bound := true }
    windowByte crewAt91 a 0x7F10B6830040 .load = some (.key (sramKey (91 * 64 + 12) 0x4040)) ∧
      windowByte crewAt91 a 0x7F10B6832000 .load = none := by decide +kernel

/-- x5 of a migrating strand goes to the block as v10 and v11 read it (R137, R138). -/
theorem test_migration_block :
    let bs := blockBytes (fun i => if i = 5 then 0x00000001FFFFFFFE else 0) 0xE3 fun j => if j = 31 then 7 else 0
    (bs.drop 32).take 8 = [0xFE, 0xFF, 0xFF, 0xFF, 1, 0, 0, 0] ∧ bs.length = 512 ∧
    ((blockRegs bs).1[5], (blockRegs bs).2.1[31], (blockRegs bs).2.2) = (0x00000001FFFFFFFE, 7, 0xE3) := by decide +kernel

/-- A translation of one page at 0x2000 to physical page 5, for U, tracked, with A and D set. -/
def page2 : TlbEntry := { asid := 0, va := 0x2000, size := 4096, pte := 0x140DF, line := 0 }

/-- A loaded word, sign-extended and not, and a store (R15, R5). -/
theorem test_load_store :
    let s := { onStrand (runner.wx 11 0x2010) with cores := [(0, { tlb := [page2] })] }
    ((nextOf (exec (.standardLoadStore (.load .w 10 11 0)) (s.poke 0x5010 (leBytes 4 0x80000001)))).map fun t => (t.hart (.strand 0)).rx 10) =
      some 0xFFFFFFFF80000001 ∧
    ((nextOf (exec (.standardLoadStore (.load .wu 10 11 0)) (s.poke 0x5010 (leBytes 4 0x80000001)))).map fun t => (t.hart (.strand 0)).rx 10) =
      some 0x80000001 ∧
    ((nextOf (exec (.standardLoadStore (.store .h 11 11 1)) s)).map fun t => t.peek 0x5010 4) = some [0, 0x10, 0x20, 0] := by decide +kernel

/-- Two lane groups part at a branch: the first step of the case worked after R136, with lanes 0 to 19 taken. -/
theorem test_divergence :
    ((waveAfter (.bra { Claim.blank with vd := 1, va := 0x18, hi := 0x000C0000 })
      { lanes4 with lanes := allLanes, pri := some { mask := allLanes, pc := 24 }, p := lanes4.p.set! 1 0xFFFFF }).map fun w =>
        (w.pri.map (·.mask), w.sec.map (·.mask), w.sec.map (·.pc), w.recs.map fun r => r.2.pending)) =
      some (some 0xFFFFFFFFFFF00000, some 0xFFFFF, some 0x78, [allLanes]) := by decide +kernel

end Sys2Proof.Tests
end

