-- ==== Sys2Proof/Tests/ScalarWitness.lean ====
section
/-! SUPPORT. For each statement about scalar harts, states and operands that meet its hypotheses, at boundary values. -/

namespace Sys2Proof.Tests

open Sys2Proof Sys2Proof.Machine

set_option Elab.async false

/-! ## Steps, integers, jumps, traps -/

/-- A strand in S. -/
def ruler : Hart := { runner with priv := .s, stvec := 0x8000, sepc := 0x2000 }

theorem executes_strand (r : Hart) (h : r.handler = none) : Executes (onStrand r) (.strand 0) := ⟨rfl, h⟩

/-- A wave whose uniform hart acts. -/
def onUniform (w : Wave) : State := { State.reset.setWave 0 w with actor := some (.hart (.uniform 0)) }
theorem executes_uniform (w : Wave) (h : w.hart.handler = none) : Executes (onUniform w) (.uniform 0) := ⟨rfl, h⟩

/-- An engine that acts; it runs a kick of strand 0. -/
def kick0 : Kick := { word := 0, arg := 0x2000, kicker := .strand 0, ident := 0, scope := 1, crew := none, launch := 0, dcrew := 0, dptb := 0 }
def onEngine (e : Engine) : State := { State.reset.setEngine 0 e with actor := some (.hart (.engine 0)) }
def engine0 : Engine := { hart := runner, running := some kick0 }
theorem executes_engine (e : Engine) (h : e.hart.handler = none) : Executes (onEngine e) (.engine 0) := ⟨rfl, h⟩

/-- The hypotheses of StepRunsTheDecodedInstruction: of a strand. -/
theorem meets_step_scalar :
    let s := State.reset.withFetchWord 32 0x00100513
    let u : State := { s with sched := [], actor := some (.hart (.strand 0)) }
    s.halted = false ∧ s.sched = Claim.turnOf (.strand 0) :: [] ∧ Claim.Fetches u (.strand 0) ∧
      ∃ bs t, fetchBytes (u.accOf (.strand 0)) (u.hart (.strand 0)).pc 4 u = .ok bs t :=
  ⟨by decide +kernel, by decide +kernel, by unfold Claim.Fetches; decide +kernel, ok_exists (by decide +kernel)⟩
/-- Of a lane group. -/
theorem meets_step_lane :
    let s := State.reset.withFetchWord 96 0x0000002A0000000000040052
    let u : State := { s with sched := [], actor := some (.lanes 0 false) }
    s.halted = false ∧ s.sched = .lanes 0 false :: [] ∧ ∃ g, (u.wave 0).group false = some g ∧ (u.wave 0).lanesIssue = true ∧
      u.waveBufsDue 0 = false ∧ (u.wave 0).lhandler = none ∧ g.pc + 12 ≤ (u.wave 0).code.size ∧
      ∃ bs t, fetchBytes (u.laneAcc 0) (BitVec.ofNat 64 ((u.wave 0).code.va + g.pc)) 12 u = .ok bs t :=
  ⟨by decide +kernel, by decide +kernel, { mask := allLanes, pc := 0 }, by decide +kernel, by decide +kernel, by decide +kernel, by decide +kernel,
    by decide +kernel, ok_exists (by decide +kernel)⟩

/-- Every form of IntegerInstructionWritesItsResult, with x0 as its destination. -/
theorem meets_integer : Executes (onStrand runner) (.strand 0) ∧
    ∀ op ∈ [RvOp.lui 0 1, .auipc 0 1, .opImm .addi 0 1 1, .shImm .slli 0 1 1, .addiw 0 1 1, .shImmW .slliw 0 1 1, .op .add 0 1 1, .opW .addw 0 1 1,
      .un .clz 0 1], ((Claim.integerResult runner op).map (·.1)) = some 0 :=
  ⟨executes_strand _ rfl, by decide +kernel⟩

/-- JumpReachesItsTargetOrTraps: aligned and not, taken and not. -/
theorem meets_jump : Executes (onStrand runner) (.strand 0) ∧
    Claim.jump runner (.jal 0 2) = some (0, 0x1004) ∧ Claim.jump runner (.jal 0 1) = some (0, 0x1002) ∧
    Claim.jump runner (.jalr 1 0 4) = some (1, 4) ∧ Claim.jump runner (.jalr 1 0 2) = some (1, 2) ∧
    Claim.jump runner (.branch .eq 0 0 2) = some (0, 0x1004) ∧ Claim.jump runner (.branch .eq 0 0 1) = some (0, 0x1002) ∧
    Machine.taken .ne (runner.rx 0) (runner.rx 0) = false :=
  ⟨executes_strand _ rfl, by decide +kernel⟩

/-- StrandExceptionEntersS and StandardExceptionsAreRaised, in U and in S. -/
theorem meets_exceptions : ∀ r ∈ [runner, ruler], ((onStrand r).hart (.strand 0)).tn = false ∧
    ((onStrand r).hart (.strand 0)).handler = none ∧ Claim.jump r (.jal 0 1) = some (0, 0x1002) := by decide +kernel
theorem meets_standard_exceptions : Executes (onStrand runner) (.strand 0) ∧ Executes (onStrand ruler) (.strand 0) :=
  ⟨executes_strand _ rfl, executes_strand _ rfl⟩

/-- An access that no instruction of the tests awaits. -/
def pend : PendAccess := { n := 0, op := .load, vd := 4, ty := 11, size := 4, elems := [], scope := 0, hint := 0, hold := false, lag := false, asid := 0 }

/-- UniformExceptionTrapsTheWave: a wave at rest, and one with an access outstanding. -/
theorem meets_uniform_trap : (lanes4.hart.tn = false ∧ lanes4.accesses = [] ∧ lanes4.sfx = [] ∧ lanes4.uended = false) ∧
    ({ lanes4 with accesses := [pend] } : Wave).accesses ≠ [] := by decide +kernel

/-- SretReturns: a strand; a uniform hart at a lane trap of either slot, at one of its own, revived or not, and without a trap. -/
theorem meets_sret : (Executes (onStrand ruler) (.strand 0) ∧ ((onStrand ruler).hart (.strand 0)).priv = .s) ∧
    ∀ p : Bool × Nat × Bool × Bool, let w := { lanes4 with hart := ruler, trap := { act := p.1, src := p.2.1, grp := p.2.2.1, revived := p.2.2.2 } }
      Executes (onUniform w) (.uniform 0) ∧ ((onUniform w).wave 0).hart.priv = .s ∧ ((onUniform w).wave 0).trap.act = p.1 :=
  ⟨⟨executes_strand _ rfl, rfl⟩, fun _ => ⟨executes_uniform _ rfl, rfl, rfl⟩⟩

/-- PrivilegedInstructionInUTraps, of a strand and of a uniform hart. -/
theorem meets_privileged : Executes (onStrand runner) (.strand 0) ∧ Executes (onUniform lanes4) (.uniform 0) ∧
    ((onStrand runner).hart (.strand 0)).priv = .u ∧ ((onUniform lanes4).hart (.uniform 0)).priv = .u ∧
    ∀ i ∈ [Instr.sret, .wfi, .sfenceVma 0 0, .hotRead 1 2, .hotClr 1, .tlbInv 1 2], (encodeScalar i).isSome = true :=
  ⟨executes_strand _ rfl, executes_uniform _ rfl, rfl, rfl, by decide +kernel⟩

/-- AbsentInstructionIsIllegal: each kind of hart, each instruction with a word, a word of no instruction. -/
theorem meets_absent : Executes (onUniform lanes4) (.uniform 0) ∧ Executes (onEngine engine0) (.engine 0) ∧ Executes (onStrand runner) (.strand 0) ∧
    (∀ i ∈ [Instr.mbRead 1 0, .mbWrite 0 1, .mbSwap 1 7 2, .msgRecv 1 2, .msgReply 1 2, .migW, .fenceI 0 0 0, .sret, .wfi, .scalarYield, .scalarSafe,
      .futNew 1, .futSet 1 2, .futWait 1 2, .futPoll 1 2, .futPoison 1, .futFree 1, .contSpawn 1 2, .joinAdd 1 2 3, .msgSend 1 2, .msgSendh 1 2,
      .engKick 1 2 1, .engRdv 1 2, .cohDecl 1 2, .cohRel 1, .hotRead 1 2, .hotClr 1, .tlbInv 1 2, .sfenceVma 0 0],
      (encodeScalar i).isSome = true) ∧ ((0 : Word).extractLsb' 0 7).toNat ∉ [0x0B, 0x2B, 0x5B] :=
  ⟨executes_uniform _ rfl, executes_engine _ rfl, executes_strand _ rfl, by decide +kernel, by decide⟩

/-- A strand whose timer compare has passed, with a vectored handler. -/
def timed : Hart := { runner with sie := 0x20, dtimecmp := 0, stvec := 0x8001 }

/-- InterruptEntersS: due; while TN is set; the timer in U. -/
theorem meets_interrupt : (onStrand timed).dueInterrupt (.strand 0) = some 5 ∧
    ((onStrand { timed with tn := true }).hart (.strand 0)).tn = true ∧ timed.run = .running ∧ timed.tn = false ∧ timed.handler = none ∧
    timed.granted = none ∧ timed.priv = .u ∧ timed.sie = 0x20 ∧ timed.dtimecmp.toNat ≤ (onStrand timed).now % 2 ^ 64 := by decide +kernel

/-! ## CSRs, floating point, memory -/

/-- CsrInstructionReadsAndWrites: each register of a hart in S with FS on, and what U may read. -/
theorem meets_csr : Executes (onStrand runner) (.strand 0) ∧
    (∀ a ∈ [0x001, 0x002, 0x003, 0x104, 0x105, 0x106, 0x140, 0x141, 0x142, 0x143, 0x180, 0x5C0, 0x5C2, 0x5C5],
      (Claim.csrRead { ruler with sstatus := 0x2000 } a).isSome = true ∧
      (Claim.csrWrite { ruler with sstatus := 0x2000 } a 5).isSome = true) ∧
    (∀ a ∈ [0x001, 0x002, 0x003, 0x104, 0x105, 0x106, 0x140, 0x141, 0x142, 0x143, 0x180, 0x5C0, 0x5C2, 0x5C5, 0xC02, 0xCC1],
      Claim.csrAllowed { ruler with sstatus := 0x2000 } a) ∧
    Claim.csrAllowed { runner with scounteren := 4 } 0xC02 ∧ Claim.csrAllowed runner 0xCC1 := by
  refine ⟨executes_strand _ rfl, ?_, ?_, ?_, ?_⟩ <;> (try unfold Claim.csrAllowed) <;> decide +kernel

/-- CsrAccessOutsideItsLevelTraps: the ends of the ranges of absent CSRs. -/
theorem meets_csr_traps : Executes (onStrand runner) (.strand 0) ∧ Executes (onUniform lanes4) (.uniform 0) ∧
    HartKind.isUniform (.uniform 0) = true ∧ ((onStrand runner).hart (.strand 0)).priv = .u ∧
    ∀ n ∈ [4, 0xFF, 0x200, 0x5BF, 0xF00, 0xFFF], let a := BitVec.ofNat 12 n
      (a.toNat < 0x100 ∧ 3 < a.toNat ∨ 0x200 ≤ a.toNat ∧ a.toNat < 0x5C0 ∨ 0xF00 ≤ a.toNat) :=
  ⟨executes_strand _ rfl, executes_uniform _ rfl, rfl, rfl, by decide⟩

/-- FloatInstructionResult: with the largest rounding mode; with mode 5, with a dynamic mode of 5, with FS off. -/
theorem meets_float : Executes (onStrand { runner with sstatus := 0x2000 }) (.strand 0) ∧ Executes (onStrand runner) (.strand 0) ∧
    (∀ op ∈ [RvOp.fop .add true 1 2 3 4, .fop .add true 1 2 3 5, .fop .add true 1 2 3 7, .fma .madd false 1 2 3 4 0, .fsqrt true 1 2 0,
      .fcvtFmt true 1 2 0, .fcvtFrom .w true 1 2 0, .fminmax true true 1 2 3, .fsgn .j true 1 2 3, .fcmp .le true 1 2 3, .fclass true 1 2,
      .fmvToX true 1 2, .fmvFromX false 1 2, .fcvtInt .lu true 1 2 0],
      (Claim.floatResult { runner with sstatus := 0x2000 } (fun rm => { mode := Claim.modeOf runner rm }) op).isSome = true) ∧
    Claim.modeOf runner 4 = 4 ∧ Claim.modeOf runner 5 = 5 ∧ Claim.modeOf { runner with fcsr := 0xA0 } 7 = 5 ∧ Claim.modeOf runner 7 = 0 ∧
    Sstatus.fs runner.sstatus = 0 ∧ Sstatus.fs ({ runner with sstatus := 0x2000 } : Hart).sstatus ≠ 0 :=
  ⟨executes_strand _ rfl, executes_strand _ rfl, by decide +kernel⟩

/-- Strand 0 with a translation of the page at 0x2000 to physical page 5. -/
def paged (r : Hart) : State := { onStrand r with cores := [(0, { tlb := [page2] })] }
/-- x11 at 0x2010, x12 at 0x20FC, the last word of a line. -/
def pager : Hart := (runner.wx 11 0x2010).wx 12 0x20FC

/-- LoadsAndStoresComplete: the last bytes of a line, of integer and float registers. -/
theorem meets_loads_and_stores : let r := { pager with sstatus := 0x2000 }
    Executes (paged r) (.strand 0) ∧ ((r.rx 12).toNat % 256 + loadBytes .w ≤ 256 ∧ (r.rx 12).toNat % 256 + storeBytes .w ≤ 256) ∧
    Sstatus.fs r.sstatus ≠ 0 ∧
    (∃ bs t, vread (Claim.stdAccOf (paged r) (.strand 0)) (r.rx 12 + (0 : BitVec 12).signExtend 64) (loadBytes .w) (Claim.inside (paged r) (.strand 0)) = .ok bs t) ∧
    (∃ x t, vwrite (Claim.stdAccOf (paged r) (.strand 0)) (r.rx 12 + (0 : BitVec 12).signExtend 64) (leBytes 4 5) (Claim.inside (paged r) (.strand 0)) = .ok x t) :=
  ⟨⟨rfl, rfl⟩, by decide +kernel, by decide +kernel, ok_exists (by decide +kernel), ok_exists (by decide +kernel)⟩

/-- LineCrossingAccessTraps: one byte past a line, and a word that is not aligned inside one. -/
theorem meets_line_crossing : Executes (onStrand (pager.wx 13 0x20FD)) (.strand 0) ∧
    256 < ((pager.wx 13 0x20FD).rx 13).toNat % 256 + loadBytes .w ∧ 256 < ((pager.wx 13 0x20FD).rx 13).toNat % 256 + storeBytes .w ∧ ((pager.wx 13 0x20FD).rx 13).toNat % amoWidth false ≠ 0 ∧
    ((Claim.released (Claim.inside (onStrand (pager.wx 13 0x20FD)) (.strand 0)) (.strand 0) true).hart (.strand 0)).x =
      ((onStrand (pager.wx 13 0x20FD)).hart (.strand 0)).x :=
  ⟨executes_strand _ rfl, by decide +kernel⟩

/-- A reservation on the line of 0x5010. -/
def reserved : Hart := { pager with resv := some { granule := State.reset.granuleOf 0x50, line := 0x50, untracked := false } }

/-- LoadReservedAndStoreConditional: LR; SC with a reservation on its granule and without one. -/
theorem meets_lr : Executes (paged pager) (.strand 0) ∧
    ∃ l t, atomicLoc (Claim.stdAccOf (paged pager) (.strand 0)) (pager.rx 11) (amoWidth true) .load (Claim.inside (paged pager) (.strand 0)) = .ok l t ∧
      ∃ bs u, vread (Claim.stdAccOf (paged pager) (.strand 0)) (pager.rx 11) (amoWidth true) t = .ok bs u := by
  obtain ⟨l, t, h, p⟩ := ok_with (fun _ t => okWith (vread (Claim.stdAccOf (paged pager) (.strand 0)) (pager.rx 11) (amoWidth true) t) fun _ _ => true)
    (show okWith (atomicLoc (Claim.stdAccOf (paged pager) (.strand 0)) (pager.rx 11) (amoWidth true) .load (Claim.inside (paged pager) (.strand 0))) _ = true
      by decide +kernel)
  exact ⟨⟨rfl, rfl⟩, l, t, h, ok_exists p⟩

/-- SC whose reservation covers its word, and SC without one. -/
theorem meets_sc : ∀ p ∈ [(reserved, true), (pager, false)],
    let s := paged p.1
    let r := Claim.released (Claim.inside s (.strand 0)) (.strand 0) true
    Executes s (.strand 0) ∧ (r.hart (.strand 0)).x = (s.hart (.strand 0)).x ∧
    ∃ l t, atomicLoc { r.accOf (.strand 0) with std := true } (p.1.rx 11) (amoWidth true) .store r = .ok l t ∧
      decide ((t.hart (.strand 0)).resv.map (·.granule) = some (resvOf t l).granule) = p.2 ∧
      ∃ x u, vwrite { r.accOf (.strand 0) with std := true } (p.1.rx 11) (leBytes (amoWidth true) (p.1.rx 12).toNat) t = .ok x u := by
  intro p hp
  have hs : ∀ p ∈ [(reserved, true), (pager, false)],
      let s := paged p.1
      let r := Claim.released (Claim.inside s (.strand 0)) (.strand 0) true
      (s.actor = some (.hart (.strand 0)) ∧ (s.hart (.strand 0)).handler = none) ∧ (r.hart (.strand 0)).x = (s.hart (.strand 0)).x ∧
      okWith (atomicLoc { r.accOf (.strand 0) with std := true } (p.1.rx 11) (amoWidth true) .store r) (fun l t =>
        decide ((t.hart (.strand 0)).resv.map (·.granule) = some (resvOf t l).granule) == p.2 &&
        okWith (vwrite { r.accOf (.strand 0) with std := true } (p.1.rx 11) (leBytes (amoWidth true) (p.1.rx 12).toNat) t) fun _ _ => true) = true := by
    decide +kernel
  obtain ⟨e, x, h⟩ := hs p hp
  obtain ⟨l, t, hl, q⟩ := ok_with _ h
  simp only [Bool.and_eq_true, beq_iff_eq] at q
  exact ⟨e, x, l, t, hl, q.1, ok_exists q.2⟩

/-- AmoReadsModifiesWrites: the largest operation on a doubleword. -/
theorem meets_amo : let r := Claim.released (Claim.inside (paged pager) (.strand 0)) (.strand 0) true
    Executes (paged pager) (.strand 0) ∧ (r.hart (.strand 0)).x = ((paged pager).hart (.strand 0)).x ∧ (pager.rx 11).toNat % amoWidth true = 0 ∧
    ∃ old t, vrmw { r.accOf (.strand 0) with std := true } (pager.rx 11) (amoWidth true)
      (fun v => some (amoNew .maxu (8 * amoWidth true) v (pager.rx 12).toNat)) r = .ok old t :=
  ⟨⟨rfl, rfl⟩, by decide +kernel, by decide +kernel, ok_exists (by decide +kernel)⟩

/-- ScopedAtomicReadsModifiesWrites: reserved codes, a word that is not aligned, relaxed, quantum, speculative, and a release. -/
theorem meets_scoped : (Executes (paged pager) (.strand 0) ∧ Claim.scopedAmo .add (atomic 9) = some (.amoAdd (atomic 9)) ∧
      (encodeScalar (.amoAdd (atomic 9))).isSome = true ∧ Claim.scopedAmo .cas (atomic 1) = some (.amoCas (atomic 1)) ∧
      (encodeScalar (.amoCas (atomic 1))).isSome = true ∧ ((pager.wx 11 0x2014).rx 11).toNat % 8 ≠ 0) ∧
    (∀ k ∈ [0, 1, 4, 6, 8],
      let r := if 6 ≤ k then (Claim.inside (paged pager) (.strand 0)).releaseUnit ((Claim.inside (paged pager) (.strand 0)).accOf (.strand 0)).who 4
        else Claim.inside (paged pager) (.strand 0)
      ∃ old t, vrmw (r.accOf (.strand 0)) (pager.rx 11) 8 (fun v => atomNew .add (8 * 8) v ((pager.rx 12).toNat % 2 ^ (8 * 8))
        ((pager.rx 10).toNat % 2 ^ (8 * 8))) r = .ok old t) ∧
    ∃ old t, quantumIssue ((Claim.inside (paged pager) (.strand 0)).accOf (.strand 0)) (pager.rx 11) 8 .add ((pager.rx 12).toNat % 2 ^ (8 * 8))
      ((pager.rx 10).toNat % 2 ^ (8 * 8)) 4 (Claim.inside (paged pager) (.strand 0)) = .ok old t := by
  refine ⟨⟨⟨rfl, rfl⟩, by decide +kernel⟩, ?_, ok_exists (by decide +kernel)⟩
  intro k hk
  have h : ∀ k ∈ [0, 1, 4, 6, 8],
      let r := if 6 ≤ k then (Claim.inside (paged pager) (.strand 0)).releaseUnit ((Claim.inside (paged pager) (.strand 0)).accOf (.strand 0)).who 4
        else Claim.inside (paged pager) (.strand 0)
      okWith (vrmw (r.accOf (.strand 0)) (pager.rx 11) 8 (fun v => atomNew .add (8 * 8) v ((pager.rx 12).toNat % 2 ^ (8 * 8))
        ((pager.rx 10).toNat % 2 ^ (8 * 8))) r) (fun _ _ => true) = true := by decide +kernel
  exact ok_exists (h k hk)

/-- FencesAndHintsGoOn: a hart with nothing pending, each end of the fields; in S, with an interrupt and without; a wave that is current. -/
theorem meets_fences : Executes (onStrand ruler) (.strand 0) ∧ Executes (onUniform lanes4) (.uniform 0) ∧ Claim.Drained (onStrand ruler) (.strand 0) ∧
    ¬((1 : BitVec 4) = 0 ∨ (1 : BitVec 4) = 0 ∨ (1 : BitVec 4) = 2 ∧ (1 : BitVec 4) = 3) ∧
    (∀ w ∈ [4, 9], (encodeScalar (.fenceS 1 (BitVec.ofNat 4 w))).isSome = true) ∧
    (onStrand { ruler with sie := 0x20, dtimecmp := 0 }).pending (.strand 0) &&& 0x20 ≠ 0 ∧ (onStrand ruler).pending (.strand 0) &&& ruler.sie = 0 ∧
    (onStrand ruler).scalarHonoured (.strand 0) ruler.pc = false ∧ ((onUniform lanes4).wengine 0).current ≠ some 0 ∧
    (({ onUniform lanes4 with wengines := [(0, { current := some 0 })] } : State).wengine 0).current = some 0 := by
  refine ⟨executes_strand _ rfl, executes_uniform _ rfl, ?_, by decide +kernel⟩
  unfold Claim.Drained
  decide +kernel

/-- A strand of a crew that stops for a pre-emption at a safe point of its image. -/
def safeCrew : Crew :=
  { gen := 0, launch := 1, linear := 0, x := 0, y := 0, z := 0, stage := 0, cls := 1, partition := 0, window := 0, home := 0, homeSlot := 0,
    preempt := true }

/-- MailboxInstructions: the last register, empty, full and with a deposit of the same clk. -/
theorem meets_mailbox : ∀ r ∈ [runner, { runner with mbFull := 0x80 }, { runner with deps := [(7, 1)] }],
    (onStrand r).actor = some (.hart (.strand 0)) ∧ ((onStrand r).hart (.strand 0)).handler = none ∧
      (r.deps.any fun d => d.1 = (7 : BitVec 3).toNat) = decide (r.deps ≠ []) := by decide +kernel

/-! ## A small world: one launch with one crew in slot 0 of cluster 0, and a page of data at 0x2000 -/

def img0 : Image :=
  { roles := [0, 1, 2], strandCode := [{ role := 0, va := 0x1000, pa := 0x1000, size := 4096 }],
    uniformCode := [{ role := 1, va := 0x3000, pa := 0x3000, size := 4096 }], laneCode := [{ role := 1, va := 0x4000, pa := 0x4000, size := 4092 }],
    engineCode := [{ role := 2, va := 0x6000, pa := 0x6000, size := 4096 }], placement := [(0, 127, 0, 6, 2)], shapes := [(0, 0, 0x5400)],
    migs := [{ src := 0, srcRole := 0, lane := false, dst := 24, dstRole := 1 }, { src := 24, srcRole := 1, lane := true, dst := 0, dstRole := 0 }],
    safes := [{ off := 0, role := 0, lane := false, count := 1 }] }
def kernel0 : Kernel := { role := 1, waves := 1, strands := 1, peak := 64 }
def launch0 : Launch :=
  { queue := 0, record := 0, addr := 0x7000, image := 1, img := img0, kernelIx := 0, kernel := kernel0, cls := 1, idem := false, gx := 1, gy := 1,
    gz := 1, stages := 1, partition := 0, arg := 0x2000, join := 0, stack := 0, stackSize := 0, migpool := 0x2200, migblk := 2, place := false,
    hx := 0, hy := 0, radius := 0, next := 1, alive := 1 }
def ref0 : CrewRef := { cluster := 0, slot := 0, gen := 0 }
def crew0 : Crew :=
  { gen := 0, launch := 1, linear := 0, x := 0, y := 0, z := 0, stage := 0, cls := 1, partition := BitVec.ofNat 32 (2 ^ 14 + 64 * 2 ^ 21), window := 0,
    home := 0, homeSlot := 0, ctxs := [0], waveSlots := [0], accUnits := [0] }
/-- A continuation record of class 1, whose other bytes are 0, stands at 0x2100. -/
def world : State :=
  { State.reset.poke 0x5118 [4] with
    launches := [(1, launch0)]
    cores := [(0, { tlb := [page2] })]
    wengines := [(0, { tlb := [page2] })]
    engines := [(0, { tlb := [page2] })]
    clusters := [(0, { crews := [(0, crew0)], tlb := [page2] })] }
/-- A strand of the crew. -/
def member : Hart := { pager with crew := some ref0, launch := 1, bound := true }
def inWorld (r : Hart) : State := { world.setHart (.strand 0) r with actor := some (.hart (.strand 0)) }
def sysMember : Hart := { member with priv := .s }

/-! ## Semaphores, futures, continuations, messages, kicks -/

/-- The world with the count and the waits of semaphore 255. -/
def semWorld (r : Hart) (x : Sem) : State := (inWorld r).setSem 0 255 x

theorem meets_member : Claim.Member (semWorld member {}) (.strand 0) ref0 crew0 ∧ Claim.Member (semWorld (member.wx 11 65535) {}) (.strand 0) ref0 crew0 := by
  unfold Claim.Member; decide +kernel

/-- SemaphoreWaitsAreGrantedInOrder: granted; of no crew; the largest amount and one more; amount 0; enough; not enough; waiting already. -/
theorem meets_sem_wait : Executes (semWorld member {}) (.strand 0) ∧
    Claim.semWait member (.semWaiti 10 255 15) = some (10, 255, 15) ∧ Claim.semWait ((member.wx 13 255).wx 14 65535) (.semWait 10 13 14) = some (10, 255, 65535) ∧
    Claim.semWait ((member.wx 13 255).wx 14 65536) (.semWait 10 13 14) = some (10, 255, 65536) ∧ Claim.semWait member (.semWait 10 0 0) = some (10, 0, 0) ∧
    ({ member with granted := some (.value 3) } : Hart).granted = some (.value 3) ∧ runner.crew = none ∧ member.granted = none ∧
    Claim.NoDeferred crew0 (.strand 0) 255 ∧
    (let x := (semWorld member { count := 15 }).sem 0 (crew0.semIndex 255)
     x.waiters = [] ∧ 15 ≤ x.count) ∧
    (let x := (semWorld member { count := 14 }).sem 0 (crew0.semIndex 255)
     ¬(x.waiters = [] ∧ 15 ≤ x.count) ∧ Waiter.hart (.strand 0) 15 ∉ x.waiters) ∧
    Waiter.hart (.strand 0) 15 ∈ ((semWorld member { count := 14, waiters := [.hart (.strand 0) 15] }).sem 0 (crew0.semIndex 255)).waiters := by
  refine ⟨⟨rfl, rfl⟩, by decide +kernel, by decide +kernel, by decide +kernel, by decide +kernel, rfl, rfl, rfl, ?_, by decide +kernel⟩
  intro d h
  cases h

/-- SemaphoreSignalsTriesAndReads: no wait; a first wait granted with the next one too large; a wait that stays; the largest sum and one more. -/
theorem meets_sem_signal : Claim.semSig member (.semSigi 10 255 15) = some (10, 255, 15) ∧
    Claim.semSig ((member.wx 13 255).wx 14 65536) (.semSig 10 13 14) = some (10, 255, 65536) ∧
    Claim.Drained (semWorld member { count := 65520 }) (.strand 0) ∧
    ((semWorld member { count := 65520 }).sem 0 (crew0.semIndex 255)).count + 15 ≤ 65535 ∧
    65535 < ((semWorld member { count := 65521 }).sem 0 (crew0.semIndex 255)).count + 15 ∧
    (let x := (semWorld member { count := 1, waiters := [.hart (.strand 1) 16, .hart (.strand 2) 1] }).sem 0 (crew0.semIndex 255)
     x.waiters = .hart (.strand 1) 16 :: [.hart (.strand 2) 1] ∧ 16 ≤ x.count + 15 ∧ ∀ w ∈ [Waiter.hart (.strand 2) 1].head?, x.count + 15 - 16 < w.amount) ∧
    (let x := (semWorld member { count := 1, waiters := [.hart (.strand 1) 17] }).sem 0 (crew0.semIndex 255)
     x.waiters = .hart (.strand 1) 17 :: [] ∧ x.count + 15 < 17) := by
  unfold Claim.Drained; decide +kernel

/-- The world with an entry 1 of the futures of die 0, and a handle of it in x11. -/
def futWorld (e : Future) : State := { inWorld (member.wx 11 1) with futures := [(1, e)] }

/-- FuturesFollowTheirStates: no live entry; each state, with no waiter, with one and as its waiter; a grant. -/
theorem meets_futures : (∀ e ∈ [({ allocated := true } : Future), { allocated := true, st := 1 }, { allocated := true, st := 2 }, { allocated := true, st := 3 },
      { allocated := true, st := 1, waiters := [.hart (.strand 1)] }],
      ((futWorld e).actor = some (.hart (.strand 0)) ∧ ((futWorld e).hart (.strand 0)).handler = none) ∧ ((futWorld e).hart (.strand 0)).granted = none ∧
      ((futWorld e).futures.getD (futKey (((member.wx 11 1).rx 11).toNat % 2 ^ 32)) {} = e ∧ bits (((member.wx 11 1).rx 11).toNat % 2 ^ 32) 0 22 ≠ 0 ∧
        e.allocated = true ∧ e.gen = bits (((member.wx 11 1).rx 11).toNat % 2 ^ 32) 22 8) ∧ FutWaiter.hart (.strand 0) ∉ e.waiters ∧
      ∀ q ∈ (futWorld e).quantum, q.unit ≠ ((Claim.inside (futWorld e) (.strand 0)).accOf (.strand 0)).who.code) ∧
    ¬ ∃ f, Claim.Live (inWorld member) 0 f := by
  refine ⟨by decide +kernel, ?_⟩
  rintro ⟨f, -, h, -⟩
  exact h (by decide)

/-- FutureNewAllocates and SpawnEnqueuesItsChildren: a hart that is no engine. -/
theorem meets_kinds : Executes (inWorld member) (.strand 0) ∧ HartKind.isEngine (.strand 0) = false := ⟨⟨rfl, rfl⟩, rfl⟩

/-- SpawnEnqueuesItsChildren: a record not aligned, 4,096 children and one more, none, and a record of zeros that is started. -/
theorem meets_spawn : (∀ p ∈ [(0x2010, 1), (0x2000, 4097), (0x2000, 4096), (0x2000, 0)],
      ((inWorld ((member.wx 11 (BitVec.ofNat 64 p.1)).wx 12 (BitVec.ofNat 64 p.2))).hart (.strand 0)).rx 11 = BitVec.ofNat 64 p.1) ∧
    (let s := inWorld ((member.wx 11 0x2100).wx 12 1)
    ∃ bs t, vread ((Claim.inside s (.strand 0)).accOf (.strand 0)) 0x2100 32 (Claim.inside s (.strand 0)) = .ok bs t ∧
      (let c := contOfBytes bs
      refuseCont t (t.hart (.strand 0)).crew (t.hart (.strand 0)).launch c = none ∧
      t.queueRoom (t.contCluster 0 ((originOf t (.strand 0)).queued t c).c) c.cls 1 = true ∧ c.join = 0 ∧
      (Claim.rel t (.strand 0) 3).canStart ((originOf t (.strand 0)).queued (Claim.rel t (.strand 0) 3) c).c = true)) := by
  refine ⟨by decide +kernel, ?_⟩
  obtain ⟨bs, t, h, p⟩ := ok_with (fun bs t => let c := contOfBytes bs
      decide (refuseCont t (t.hart (.strand 0)).crew (t.hart (.strand 0)).launch c = none) &&
      t.queueRoom (t.contCluster 0 ((originOf t (.strand 0)).queued t c).c) c.cls 1 && decide (c.join = 0) &&
      (Claim.rel t (.strand 0) 3).canStart ((originOf t (.strand 0)).queued (Claim.rel t (.strand 0) 3) c).c)
    (show okWith (vread ((Claim.inside (inWorld ((member.wx 11 0x2100).wx 12 1)) (.strand 0)).accOf (.strand 0)) 0x2100 32
      (Claim.inside (inWorld ((member.wx 11 0x2100).wx 12 1)) (.strand 0))) _ = true by decide +kernel)
  simp only [Bool.and_eq_true, decide_eq_true_eq] at p
  exact ⟨bs, t, h, p.1.1.1, p.1.1.2, p.1.2, p.2⟩

/-! ## Joins, exits, messages, kicks, coherence, ranges -/

/-- JoinsAndExits: a counter not aligned; one that stays above 0; one that becomes 0, with a parent of class 1. -/
theorem meets_join : let s := inWorld ((member.wx 11 0x20E0).wx 12 1)
    let r := Claim.rel (Claim.inside s (.strand 0)) (.strand 0) 3
    (member.wx 11 0x20FC).rx 11 % 8 ≠ 0 ∧ Executes s (.strand 0) ∧ canonical 0x20E0 = true ∧
    (∃ old t, vrmw (r.accOf (.strand 0)) 0x20E0 8 (fun o => some ((BitVec.ofNat 64 o + 1).toNat)) r = .ok old t ∧ BitVec.ofNat 64 old + 1 ≠ 0#64) ∧
    (∃ old t, vrmw (r.accOf (.strand 0)) 0x20E0 8 (fun o => some ((BitVec.ofNat 64 o + 0).toNat)) r = .ok old t ∧ BitVec.ofNat 64 old + 0 = 0#64 ∧
      ∃ bs u, vread (r.accOf (.strand 0)) (0x20E0 + 32) 32 t = .ok bs u ∧
        u.canStart ((originOf r (.strand 0)).queued u (contOfBytes bs)).c = true) := by
  refine ⟨by decide +kernel, ⟨rfl, rfl⟩, by decide +kernel, ?_, ?_⟩
  · obtain ⟨old, t, h, p⟩ := ok_with (fun old _ => decide (BitVec.ofNat 64 old + 1 ≠ 0#64))
      (show okWith (vrmw ((Claim.rel (Claim.inside (inWorld ((member.wx 11 0x20E0).wx 12 1)) (.strand 0)) (.strand 0) 3).accOf (.strand 0)) 0x20E0 8
        (fun o => some ((BitVec.ofNat 64 o + 1).toNat)) (Claim.rel (Claim.inside (inWorld ((member.wx 11 0x20E0).wx 12 1)) (.strand 0)) (.strand 0) 3)) _ = true
        by decide +kernel)
    exact ⟨old, t, h, of_decide_eq_true p⟩
  · obtain ⟨old, t, h, p⟩ := ok_with (fun old t => decide (BitVec.ofNat 64 old + 0 = 0#64) &&
        okWith (vread ((Claim.rel (Claim.inside (inWorld ((member.wx 11 0x20E0).wx 12 1)) (.strand 0)) (.strand 0) 3).accOf (.strand 0)) (0x20E0 + 32) 32 t)
          fun bs u => u.canStart ((originOf (Claim.rel (Claim.inside (inWorld ((member.wx 11 0x20E0).wx 12 1)) (.strand 0)) (.strand 0) 3) (.strand 0)).queued u
            (contOfBytes bs)).c)
      (show okWith (vrmw ((Claim.rel (Claim.inside (inWorld ((member.wx 11 0x20E0).wx 12 1)) (.strand 0)) (.strand 0) 3).accOf (.strand 0)) 0x20E0 8
        (fun o => some ((BitVec.ofNat 64 o + 0).toNat)) (Claim.rel (Claim.inside (inWorld ((member.wx 11 0x20E0).wx 12 1)) (.strand 0)) (.strand 0) 3)) _ = true
        by decide +kernel)
    simp only [Bool.and_eq_true, decide_eq_true_eq] at p
    exact ⟨old, t, h, p.1, ok_with _ p.2⟩

/-- Its exits: a strand with an entry in its send queue, one without; a wave with lanes. -/
def sending : State := { inWorld member with cores := [(0, { tlb := [page2], sendq := [(0, .msg { origin := some (.strand 0) })] })] }
theorem meets_exit : Executes sending (.strand 0) ∧ (Claim.inside sending (.strand 0)).sendsGone (.strand 0) = false ∧
    Executes (inWorld member) (.strand 0) ∧ (Claim.inside (inWorld member) (.strand 0)).sendsGone (.strand 0) = true ∧
    ((inWorld member).hart (.strand 0)).duty = false ∧ Claim.Drained (inWorld member) (.strand 0) ∧ Claim.NoFaultsLeft (inWorld member) (.strand 0) ∧
    Executes (onUniform lanes4) (.uniform 0) ∧ (Claim.inside (onUniform lanes4) (.uniform 0)).sendsGone (.uniform 0) = true ∧
    ((onUniform lanes4).wave 0).lanes ≠ 0 ∧ ((onUniform lanes4).wave 0).uended = false := by
  refine ⟨⟨rfl, rfl⟩, by decide +kernel, ⟨rfl, rfl⟩, by decide +kernel, by decide +kernel, ?_, ?_, executes_uniform _ rfl, by decide +kernel, by decide +kernel,
    by decide +kernel⟩
  · unfold Claim.Drained; decide +kernel
  · intro ref c hr hc d hd
    have : some c = some crew0 := hc.symm.trans (by rw [← Option.some.inj (hr.symm.trans (show _ = some ref0 from rfl)) |>.symm]; rfl)
    cases this
    cases hd

/-- MessagesEnterTheSendQueue: a bad destination, one to strand 5, a body not aligned, full and free queues, handlers and replies. -/
theorem meets_send : Executes (inWorld ((member.wx 11 0xFF0005).wx 12 0x2040)) (.strand 0) ∧
    Claim.sendForm member (.strand 0) (.msgSend 11 12) = some (member.rx 11, member.rx 12, false, false) ∧
    Claim.sendForm member (.strand 0) (.msgSendh 11 12) = some (member.rx 11, member.rx 12, false, true) ∧
    Claim.sendForm member (.strand 0) (.msgReply 11 12) = some (member.rx 11, member.rx 12, true, false) ∧
    (∀ p ∈ [(false, false), (false, true), (true, false)],
      (Claim.inside (inWorld member) (.strand 0)).destOf (some ref0) (BitVec.ofNat 64 (2 ^ 24)) p.1 p.2 = none ∧
      ((Claim.inside (inWorld member) (.strand 0)).destOf (some ref0) 0xFF0005 p.1 p.2).isSome = true) ∧
    (∃ bs t, vread ((Claim.inside (inWorld member) (.strand 0)).accOf (.strand 0)) 0x2040 96 (Claim.inside (inWorld member) (.strand 0)) = .ok bs t ∧
      0 < t.sendFree (sendQueueOf (.strand 0)) ∧ t.replyFree (sendQueueOf (.strand 0)) = true ∧ (t.hart (.strand 0)).handler = none) ∧
    (let full : State := { inWorld member with cores := [(0, { tlb := [page2], sendq := (List.range 8).map fun n => (n, .msg {}) })] }
    ∃ bs t, vread ((Claim.inside full (.strand 0)).accOf (.strand 0)) 0x2040 64 (Claim.inside full (.strand 0)) = .ok bs t ∧
      t.sendFree (sendQueueOf (.strand 0)) = 0 ∧ t.replyFree (sendQueueOf (.strand 0)) = false) := by
  refine ⟨⟨rfl, rfl⟩, rfl, rfl, rfl, by decide +kernel, ?_, ?_⟩
  · obtain ⟨bs, t, h, p⟩ := ok_with (fun _ t => decide (0 < t.sendFree (sendQueueOf (.strand 0))) && t.replyFree (sendQueueOf (.strand 0)) &&
        decide ((t.hart (.strand 0)).handler = none))
      (show okWith (vread ((Claim.inside (inWorld member) (.strand 0)).accOf (.strand 0)) 0x2040 96 (Claim.inside (inWorld member) (.strand 0))) _ = true
        by decide +kernel)
    simp only [Bool.and_eq_true, decide_eq_true_eq] at p
    exact ⟨bs, t, h, p.1.1, p.1.2, p.2⟩
  · intro full
    obtain ⟨bs, t, h, p⟩ := ok_with (fun _ t => decide (t.sendFree (sendQueueOf (.strand 0)) = 0) && !t.replyFree (sendQueueOf (.strand 0)))
      (show okWith (vread ((Claim.inside full (.strand 0)).accOf (.strand 0)) 0x2040 64 (Claim.inside full (.strand 0))) _ = true by decide +kernel)
    simp only [Bool.and_eq_true, decide_eq_true_eq, Bool.not_eq_true'] at p
    exact ⟨bs, t, h, p.1, p.2⟩

/-- ReceiveTakesTheOldestMessage: an address not aligned; an empty inbox; one message; a later one of high priority. -/
def mail (pri : Bool) : Msg := { pri := pri, payload := List.replicate 64 7 }
theorem meets_receive : (member.wx 11 0x2020).rx 11 % 64 ≠ 0 ∧ Executes (inWorld (member.wx 11 0x2040)) (.strand 0) ∧ member.inbox = [] ∧
    (let r := { member.wx 11 0x2040 with inbox := [mail false, mail true] }
    (mail true).pri = true ∧ r.inbox = [mail false] ++ mail true :: [] ∧ (∀ x ∈ [mail false], x.pri = false) ∧
      ∃ a t, vwrite ((Claim.inside (inWorld r) (.strand 0)).accOf (.strand 0)) 0x2040 (mail true).payload (Claim.inside (inWorld r) (.strand 0)) = .ok a t) ∧
    (let r := { member with inbox := [mail false] }
    r.inbox = mail false :: [] ∧ ∀ x ∈ r.inbox, x.pri = false) :=
  ⟨by decide +kernel, ⟨rfl, rfl⟩, rfl, ⟨by decide +kernel, by decide +kernel, by decide +kernel, ok_exists (by decide +kernel)⟩, by decide +kernel⟩

/-- KicksAndRendezvous: the largest word and one more, the last engine and the one after; a free place, a full queue; kicks outstanding or not. -/
theorem meets_kicks : Executes (inWorld (member.wx 11 0x76)) (.strand 0) ∧ Claim.Drained (inWorld (member.wx 11 0x76)) (.strand 0) ∧
    (∀ p ∈ [(0x76, 6), (0x77, 7), (0x7F, 15), (0x100, 0)], ((BitVec.ofNat 64 p.1).extractLsb' 0 4).toNat = p.2 ∧ (BitVec.ofNat 64 p.1).getLsbD 7 = false) ∧
    ((inWorld member).engine 6).queue.length < 4 ∧ ((inWorld member).engine 6).parked = [] ∧
    (let s := (inWorld member).setEngine 6 { queue := List.replicate 4 kick0 }
    4 ≤ (s.engine 6).queue.length ∧ HartId.strand 0 ∉ (s.engine 6).parked) ∧
    ((member.kicks.getD 6 {}).outstanding = 0 ∧ (({ member with kicks := [(6, { outstanding := 1 })] } : Hart).kicks.getD 6 {}).outstanding ≠ 0) := by
  refine ⟨⟨rfl, rfl⟩, ?_, by decide +kernel⟩
  unfold Claim.Drained; decide +kernel

/-- The world whose shape record 0 names the page at 0x2000. -/
def shaped : State := ((inWorld (member.wx 11 0)).poke 0x5401 [0x20]).poke 0x5439 [0x10]
/-- CoherenceObjects: a record of one page; without an object of it and with one; a full table; an object of the own launch, of another. -/
theorem meets_coherence : Executes shaped (.strand 0) ∧ (∃ l, shaped.launches.find 1 = some l ∧ l.shapeAddr 0 = some 0x5400) ∧
    (let base := natOfBytes (shaped.peek 0x5400 8)
    let span := natOfBytes (shaped.peek (0x5400 + 0x38) 8)
    base = 0x2000 ∧ (base % 4096 = 0 ∧ span % 4096 = 0 ∧ 4096 ≤ span ∧ span ≤ 2 ^ 24) ∧ canonical (BitVec.ofNat 64 base) = true ∧ inWindow base = false) ∧
    (∃ ts t, regionPages ((Claim.inside shaped (.strand 0)).accOf (.strand 0)) 0x2000 (4096 / 4096) (Claim.inside shaped (.strand 0)) = .ok ts t ∧
      (let ps := ts.map fun x => x.pa / 4096
      (ts.any (·.untracked) || t.objects.any fun o => o.2.pages.any ps.contains) = false ∧ t.freeObject (dieOfPa (ps.headD 0 * 4096)) = some 0)) ∧
    (let s : State := { shaped with objects := [(0, { launch := 1, pages := [5] })] }
    ∃ ts t, regionPages ((Claim.inside s (.strand 0)).accOf (.strand 0)) 0x2000 (4096 / 4096) (Claim.inside s (.strand 0)) = .ok ts t ∧
      (let ps := ts.map fun x => x.pa / 4096
      (ts.any (·.untracked) || t.objects.any fun o => o.2.pages.any ps.contains) = true)) ∧
    (let s : State := { shaped with objects := [(0, { launch := 1, pages := [5] }), (1, { launch := 2, pages := [6] })] }
    (s.objects.find 0).map (·.launch) = some 1 ∧ (s.objects.find 1).map (·.launch) = some 2 ∧ s.objects.find 2 = none) := by
  refine ⟨⟨rfl, rfl⟩, ⟨launch0, by decide +kernel, by decide +kernel⟩, by decide +kernel, ?_, ?_, by decide +kernel⟩
  · obtain ⟨ts, t, h, p⟩ := ok_with (fun ts t => let ps := ts.map fun (x : Tr) => x.pa / 4096
      !(ts.any (·.untracked) || t.objects.any fun o => o.2.pages.any ps.contains) && decide (t.freeObject (dieOfPa (ps.headD 0 * 4096)) = some 0))
      (show okWith (regionPages ((Claim.inside shaped (.strand 0)).accOf (.strand 0)) 0x2000 (4096 / 4096) (Claim.inside shaped (.strand 0))) _ = true
        by decide +kernel)
    simp only [Bool.and_eq_true, decide_eq_true_eq, Bool.not_eq_true'] at p
    exact ⟨ts, t, h, p.1, p.2⟩
  · intro s
    exact ok_with _ (show okWith (regionPages ((Claim.inside s (.strand 0)).accOf (.strand 0)) 0x2000 (4096 / 4096) (Claim.inside s (.strand 0))) _ = true
      by decide +kernel)

theorem find_const {α : Type} (v : α) (i : Nat) (l : List Nat) (h : i ∈ l) : Map.find (l.map fun j => (j, v)) i = some v := by
  induction l with
  | nil => cases h
  | cons a t ih =>
    simp only [List.map_cons, Map.find]
    split
    · rfl
    · rename_i hne
      rcases List.mem_cons.mp h with e | e
      · exact absurd e.symm hne
      · exact ih e

theorem inside_objects (s : State) (o : Map CohObj) : (Claim.inside { s with objects := o } (.strand 0)).objects = o := rfl

/-- Its full table. -/
def fullTable : Map CohObj := (List.range 4096).map fun i => (i, { launch := 2, pages := [] })
theorem meets_full_table : let s : State := { shaped with objects := fullTable }
    ∃ ts t, regionPages ((Claim.inside s (.strand 0)).accOf (.strand 0)) 0x2000 (4096 / 4096) (Claim.inside s (.strand 0)) = .ok ts t ∧
      t.freeObject (dieOfPa (((ts.map fun x => x.pa / 4096).headD 0) * 4096)) = none := by
  intro s
  have hf : ((Claim.inside s (.strand 0)).tlb ((Claim.inside s (.strand 0)).accOf (.strand 0)).tlb).find? (fun e =>
      e.hits (asidOf ((Claim.inside s (.strand 0)).accOf (.strand 0)).dptb) 0x2000 && e.serves ((Claim.inside s (.strand 0)).accOf (.strand 0)) .load) =
      some page2 := by decide +kernel
  have hp : permitted ((Claim.inside s (.strand 0)).accOf (.strand 0)) .load page2.pte = true := by decide +kernel
  have hc : Pte.c page2.pte = false := by decide +kernel
  have ho : (Claim.inside s (.strand 0)).objects = fullTable := inside_objects shaped fullTable
  have hd : dieOfPa ((([trOf page2.pte page2.size 0x2000].map fun x => x.pa / 4096).headD 0) * 4096) = 0 := by decide +kernel
  refine ⟨[trOf page2.pte page2.size 0x2000], Claim.inside s (.strand 0), ?_, ?_⟩
  · simp only [regionPages, show 4096 / 4096 = 0 + 1 from rfl, Machine.translate, bind_run, get_run, hf, checkHit, hp, hc, Bool.not_true, Bool.false_and]
    rfl
  · rw [State.freeObject, hd, List.find?_eq_none]
    intro i hi
    obtain ⟨j, hj, rfl⟩ := List.mem_map.mp hi
    have hj : Map.find fullTable j = some { launch := 2, pages := [] } := find_const _ j (List.range 4096) hj
    intro hc
    simp only [Nat.zero_mul, Nat.zero_add] at hc
    rw [ho, hj] at hc
    exact Bool.false_ne_true hc

/-- RangeOperationsWorkOnLines: a start that is not canonical; a range to 2^48 and one past it; an empty range; the last bytes of a line, of a tracked
and of an untracked page. -/
theorem meets_ranges : Executes (inWorld ((member.wx 11 0x20F0).wx 12 16)) (.strand 0) ∧ canonical 0x800000000000 = false ∧
    canonical 0xFFFFFFFFFFFFFFF0 = true ∧ 2 ^ 48 < (0xFFFFFFFFFFFFFFF0#64).toNat % 2 ^ 48 + 17 ∧ ¬ 2 ^ 48 < (0xFFFFFFFFFFFFFFF0#64).toNat % 2 ^ 48 + 16 ∧
    canonical 0x20F0 = true ∧ 0x20F0 % 256 + 16 ≤ 256 ∧ inWindow 0x20F0 = false ∧
    (∀ k ∈ [AccessKind.load, .store], ∃ x t, mapped ((Claim.inside (inWorld member) (.strand 0)).accOf (.strand 0)) k 0x20F0
      (Claim.inside (inWorld member) (.strand 0)) = .ok x t ∧ x.untracked = false) ∧
    (let s : State := (inWorld member).setCluster 0 { crews := [(0, crew0)], tlb := [{ page2 with pte := 0x140DF ||| 0x100 }] }
    ∃ x t, mapped ((Claim.inside s (.strand 0)).accOf (.strand 0)) .store 0x20F0 (Claim.inside s (.strand 0)) = .ok x t ∧ x.untracked = true) := by
  refine ⟨⟨rfl, rfl⟩, by decide +kernel, by decide +kernel, by decide +kernel, by decide +kernel, by decide +kernel, by decide +kernel, by decide +kernel, ?_, ?_⟩
  · intro k hk
    obtain ⟨x, t, h, p⟩ := ok_with (fun (x : Tr) _ => !x.untracked) ((by decide +kernel : ∀ k ∈ [AccessKind.load, .store],
      okWith (mapped ((Claim.inside (inWorld member) (.strand 0)).accOf (.strand 0)) k 0x20F0 (Claim.inside (inWorld member) (.strand 0)))
        (fun (x : Tr) _ => !x.untracked) = true) k hk)
    exact ⟨x, t, h, by simpa using p⟩
  · intro s
    exact ok_with (fun (x : Tr) _ => x.untracked)
      (show okWith (mapped ((Claim.inside s (.strand 0)).accOf (.strand 0)) .store 0x20F0 (Claim.inside s (.strand 0))) _ = true by decide +kernel)

/-- HotnessCounters: the last region of DRAM and the first address past it. -/
theorem meets_hotness : Executes (inWorld (sysMember.wx 11 0x2FFFFFFFFFF)) (.strand 0) ∧ sysMember.priv = .s ∧ HartKind.isEngine (.strand 0) = false ∧
    (0x2FFFFFFFFFF : Dword).toNat < 0x30000000000 ∧ 0x30000000000 ≤ (0x30000000000 : Dword).toNat := ⟨⟨rfl, rfl⟩, by decide +kernel⟩

/-- The descriptor of an stq at 0x2140 with 8 bytes for 0x2080, a signal of 1 and a continuation of class 1; with LEN 0 it is bad. -/
def descriptor (len : Nat) : List Byte := leBytes 8 0x2080 ++ leBytes 2 len ++ [255, 1] ++ List.replicate 20 0 ++ List.replicate 24 0 ++ leBytes 8 4
def stqWorld (len : Nat) (r : Hart) : State := (inWorld r).poke 0x5140 (descriptor len)
/-- ScalarStqEntersTheSendQueue: a descriptor not aligned; bad; good, with a free queue and a full one. -/
theorem meets_stq : (member.wx 11 0x2120).rx 11 % 64 ≠ 0 ∧ Executes (stqWorld 8 (member.wx 11 0x2140)) (.strand 0) ∧
    (let s := stqWorld 0 (member.wx 11 0x2140)
    ∃ d t, vread ((Claim.inside s (.strand 0)).accOf (.strand 0)) 0x2140 64 (Claim.inside s (.strand 0)) = .ok d t ∧
      stqOf t (t.hart (.strand 0)).crew (t.hart (.strand 0)).launch d = .error 1) ∧
    (∀ full, let s : State := if full then { stqWorld 8 (member.wx 11 0x2140) with
        cores := [(0, { tlb := [page2], sendq := (List.range 8).map fun n => (n, .msg {}) })] } else stqWorld 8 (member.wx 11 0x2140)
    ∃ d t, vread ((Claim.inside s (.strand 0)).accOf (.strand 0)) 0x2140 64 (Claim.inside s (.strand 0)) = .ok d t ∧
      (∃ o, stqOf t (t.hart (.strand 0)).crew (t.hart (.strand 0)).launch d = .ok o) ∧
      ∃ bs u, vread ((Claim.inside s (.strand 0)).accOf (.strand 0)) 0x2040 (stqLen d) t = .ok bs u ∧
        (u.sendFree (sendQueueOf (.strand 0)) == 0) = full) := by
  refine ⟨by decide +kernel, ⟨rfl, rfl⟩, ?_, ?_⟩
  · intro s
    obtain ⟨d, t, h, p⟩ := ok_with (fun d t => match stqOf t (t.hart (.strand 0)).crew (t.hart (.strand 0)).launch d with
        | .error 1 => true
        | _ => false)
      (show okWith (vread ((Claim.inside s (.strand 0)).accOf (.strand 0)) 0x2140 64 (Claim.inside s (.strand 0))) _ = true by decide +kernel)
    refine ⟨d, t, h, ?_⟩
    split at p
    · assumption
    · cases p
  · intro full s
    obtain ⟨d, t, h, p⟩ := ok_with (fun d t => (match stqOf t (t.hart (.strand 0)).crew (t.hart (.strand 0)).launch d with
        | .ok _ => true
        | _ => false) && okWith (vread ((Claim.inside s (.strand 0)).accOf (.strand 0)) 0x2040 (stqLen d) t)
          fun _ u => (u.sendFree (sendQueueOf (.strand 0)) == 0) == full)
      (show okWith (vread ((Claim.inside s (.strand 0)).accOf (.strand 0)) 0x2140 64 (Claim.inside s (.strand 0))) _ = true by
        cases full <;> decide +kernel)
    rw [Bool.and_eq_true] at p
    obtain ⟨bs, u, hu, q⟩ := ok_with _ p.2
    refine ⟨d, t, h, ?_, bs, u, hu, by simpa using q⟩
    have p1 := p.1
    split at p1
    · rename_i o ho
      exact ⟨o, ho⟩
    · cases p1

/-! ## Shoot-downs, migration, accesses, handlers, kicks that end -/

/-- ShootDownWaitsForAcknowledges: acknowledged; the largest operand and one more; with sharers (every cluster, without a directory) -/
theorem meets_shoot_down : Executes (inWorld ((sysMember.wx 11 0x2000).wx 12 0x3FFFF)) (.strand 0) ∧ sysMember.priv = .s ∧ sysMember.granted = none ∧
    (∀ e ∈ (inWorld sysMember).invals, e.2.hart ≠ some (.strand 0)) ∧ ({ sysMember with granted := some (.value 0) } : Hart).granted ≠ none ∧
    (0x3FFFF : Dword).toNat < 2 ^ 18 ∧ 2 ^ 18 ≤ (0x40000 : Dword).toNat ∧ (canonical 0x2000 = true ∨ (0x3FFFF : Dword).getLsbD 16 = true) ∧
    Claim.Drained (inWorld sysMember) (.strand 0) ∧ (Claim.inside (inWorld sysMember) (.strand 0)).invalTargets 0 0x2000 0 ≠ 0 := by
  refine ⟨⟨rfl, rfl⟩, by decide +kernel, by decide +kernel, by decide +kernel, by decide +kernel, by decide +kernel, by decide +kernel, by decide +kernel, ?_,
    by decide +kernel⟩
  unfold Claim.Drained; decide +kernel

/-- A strand at its image's migration point. -/
def leaver : Hart := { member with pc := 0x1000 }
/-- MigrationToALane: no entry; one, with two blocks free. -/
theorem meets_migration : (inWorld { leaver with pc := 0x1004 }).migTarget 1 0x1004 = none ∧ Executes (inWorld leaver) (.strand 0) ∧
    (let s := inWorld leaver
    (s.migTarget 1 leaver.pc).isSome = true ∧ leaver.fcsr.toNat / 32 < 5 ∧ leaver.crew = some ref0 ∧ s.crewOf ref0 = some crew0 ∧
      (s.kernelOf crew0).waves ≠ 0 ∧ (Claim.inside s (.strand 0)).sendsGone (.strand 0) = true ∧
      ∃ b bs t, askBlocks ref0 (.hart (.strand 0) 1) (Claim.inside s (.strand 0)) = .ok (some (b :: bs)) t ∧
      ∃ gs u, resolve (t.accOf (.strand 0)) ((Claim.inside s (.strand 0)).blockAddr crew0 b) 512 .store t = .ok gs u ∧
      ∃ x v, gateSegs (t.accOf (.strand 0)) true gs u = .ok x v ∧
      ∃ y w, writeSegs (t.accOf (.strand 0)) true gs (blockBytes (fun i => leaver.rx (BitVec.ofNat 5 i)) leaver.fcsr
        (fun j => leaver.rf (BitVec.ofNat 5 j))) (Claim.rel v (.strand 0) 1) = .ok y w) := by
  refine ⟨by decide +kernel, ⟨rfl, rfl⟩, by decide +kernel, by decide +kernel, by decide +kernel, by decide +kernel, by decide +kernel, by decide +kernel, ?_⟩
  obtain ⟨o, t, h, p⟩ := ok_with (fun o t => match o with
      | some (b :: _) => okWith (resolve (t.accOf (.strand 0)) ((Claim.inside (inWorld leaver) (.strand 0)).blockAddr crew0 b) 512 .store t) fun gs u =>
          okWith (gateSegs (t.accOf (.strand 0)) true gs u) fun _ v => okWith (writeSegs (t.accOf (.strand 0)) true gs
            (blockBytes (fun i => leaver.rx (BitVec.ofNat 5 i)) leaver.fcsr (fun j => leaver.rf (BitVec.ofNat 5 j))) (Claim.rel v (.strand 0) 1)) fun _ _ => true
      | _ => false)
    (show okWith (askBlocks ref0 (.hart (.strand 0) 1) (Claim.inside (inWorld leaver) (.strand 0))) _ = true by decide +kernel)
  match o, h, p with
  | some (b :: bs), h, p =>
    obtain ⟨gs, u, hu, p⟩ := ok_with _ p
    obtain ⟨x, v, hv, p⟩ := ok_with _ p
    exact ⟨b, bs, t, h, gs, u, hu, x, v, hv, ok_exists p⟩

/-- The world whose strand's core shares its storage in the local window. -/
def windowed : Hart := { member with crew := some ref0, bound := true }
/-- AccessReachesItsBytes: the last word of a line of the page, and a word of the window. -/
theorem meets_access : Executes (inWorld member) (.strand 0) ∧ MemoryOk (inWorld member) ∧
    Claim.Reaches (Claim.inside (inWorld member) (.strand 0)) (Claim.stdAccOf (inWorld member) (.strand 0)) .load 0x20FC 4 page2 ∧
    Claim.Reaches (Claim.inside (inWorld member) (.strand 0)) (Claim.stdAccOf (inWorld member) (.strand 0)) .store 0x20FC 4 page2 := by
  refine ⟨⟨rfl, rfl⟩, ?_, ?_, ?_⟩
  · unfold MemoryOk; decide +kernel
  · unfold Claim.Reaches; decide +kernel
  · unfold Claim.Reaches; decide +kernel

/-- A crew of a core with 8 KiB of storage. -/
def local0 : State := (inWorld member).setCluster 0 { crews := [(0, { crew0 with partition := BitVec.ofNat 32 (8 * 2 ^ 7) })], tlb := [page2] }
theorem meets_window : Executes local0 (.strand 0) ∧ MemoryOk local0 ∧
    ∀ k ∈ [AccessKind.load, .store], Claim.ReachesSram (Claim.inside local0 (.strand 0)) (Claim.stdAccOf local0 (.strand 0)) k 0x7F1000001FFC 4 (sramKey 0 0x1FFC) := by
  refine ⟨⟨rfl, rfl⟩, ?_, ?_⟩
  · unfold MemoryOk; decide +kernel
  · unfold Claim.ReachesSram; decide +kernel

/-- A handler at its first, and at its last instruction. -/
def handling (off : Nat) (replied : Bool) : Hart :=
  { member with
    hm := true
    stvec := 0x8000
    handler := some { code := [], off := off, saved := List.replicate 8 5, sender := 0, dest := 0, replied := replied, wasParked := none } }
/-- HandlerViolationsEndTheHandler and HandlerRunsToByte32: every violation; going on, and the end. -/
theorem meets_handler : (∀ off ∈ [0, 24, 28], ((inWorld (handling off true)).actor = some (.hart (.strand 0)) ∧
      ((inWorld (handling off true)).hart (.strand 0)).handler = (handling off true).handler ∧ ((handling off true).handler.map (·.off)) = some off ∧
      ((inWorld (handling off true)).hart (.strand 0)).tn = false)) ∧
    (Claim.violations (handling 0 true) 9 0 0 0 0).length = 29 ∧ 10 ≤ (10 : Reg).toNat ∧ (17 : Reg).toNat ≤ 17 ∧ 24 + 4 < 32 ∧ 32 ≤ 28 + 4 := by decide +kernel

/-- SecondExceptionIsFatal and EngineKicksEnd: a strand with TN set; an engine that runs a kick of a strand, with and without an operation outstanding. -/
theorem meets_fatal : ((onStrand { ruler with tn := true }).hart (.strand 0)).tn = true ∧ Executes (onStrand ruler) (.strand 0) ∧ ruler.priv = .s ∧
    Executes (onEngine engine0) (.engine 0) ∧ ((onEngine engine0).engine 0).running = some kick0 ∧ HartKind.isEngine kick0.kicker = false ∧
    kick0.word.getLsbD 7 = false ∧ ((onEngine engine0).engine 0).ops = [] ∧ (Claim.inside (onEngine engine0) (.engine 0)).sendsGone (.engine 0) = true ∧
    Claim.Drained (onEngine engine0) (.engine 0) ∧ ((onEngine { engine0 with ops := [0x2000] }).engine 0).ops ≠ [] ∧
    (Claim.inside (onEngine { engine0 with ops := [0x2000] }) (.engine 0)).sendsGone (.engine 0) = true := by
  refine ⟨rfl, executes_strand _ rfl, rfl, executes_engine _ rfl, by decide +kernel, rfl, by decide +kernel, by decide +kernel, by decide +kernel, ?_,
    by decide +kernel, by decide +kernel⟩
  unfold Claim.Drained; decide +kernel

/-- FencesAndHintsGoOn: an honoured safe point of a strand. -/
theorem meets_safe_point : let s := (inWorld member).setCluster 0 { crews := [(0, { crew0 with preempt := true })] }
    Executes s (.strand 0) ∧ s.scalarHonoured (.strand 0) (s.hart (.strand 0)).pc = true := ⟨⟨rfl, rfl⟩, by decide +kernel⟩

end Sys2Proof.Tests
end

