-- ==== Sys2Proof/Tests/LaneWitness.lean ====
section
/-! SUPPORT. For each statement about lanes, states and operands that meet its hypotheses. -/

namespace Sys2Proof.Tests

open Sys2Proof Sys2Proof.Machine

set_option Elab.async false

/-! ## Lanes -/

/-- LaneReady as one test. -/
def readyIn (s : State) (c : LCtx) : Bool := decide (s.actor = some (.lanes c.k c.sec) ∧ (s.wave c.k).group c.sec = some c.g ∧
    lctx (s.wave c.k) c.k c.sec c.g c.i c.w = c ∧ laneOk c.i = true ∧
    ((s.wave c.k).lhandler.isSome = true → handlerForbids c.i c.w = false) ∧
    ((ruleOf c.i).cls = .LM → (ruleOf c.i).slot = true → c.w.slot ≠ 0#4 → ((s.wave c.k).buf.find c.w.slot.toNat).isSome = true) ∧
    honoured s c = false ∧ (waitAmount c.i c.w = 0 ∨ waitGranted c (s.wave c.k) = true) ∧
    (laneNames c.i c.w).any (s.wave c.k).loading = false ∧ seenTokens c (s.wave c.k) = [] ∧
    ((laneWrites c.i c.w).any fun n => (s.wave c.k).sfx.any fun e => e.2.vd == n) = false ∧ poisonedLanes c (s.wave c.k) = 0#64 ∧
    (c.act ≠ 0#64 → overPeak s c.k (laneFrees c (s.wave c.k)) (laneWrites c.i c.w) = false) ∧
    (sigAmount c.i c.w ≠ 0 → (s.waveSem c.k c.w.sign.toNat).isSome = true))

theorem laneReady_of {s : State} {c : LCtx} (h : readyIn s c = true) : Claim.LaneReady s c := by
  have h := of_decide_eq_true h
  exact ⟨h.1, h.2.1, h.2.2.1, h.2.2.2.1, h.2.2.2.2.1, h.2.2.2.2.2.1, h.2.2.2.2.2.2.1, h.2.2.2.2.2.2.2.1, h.2.2.2.2.2.2.2.2.1, h.2.2.2.2.2.2.2.2.2.1,
    h.2.2.2.2.2.2.2.2.2.2.1, h.2.2.2.2.2.2.2.2.2.2.2.1, h.2.2.2.2.2.2.2.2.2.2.2.2.1, h.2.2.2.2.2.2.2.2.2.2.2.2.2⟩

/-- A wave of the crew at the migration point of its lane code, with buffer record 1 flat over the page at 0x2000. -/
def laneWave : Wave :=
  { lanes4 with
    hart := { member with pc := 0x3000 }
    front := true
    code := { role := 1, va := 0x4000, pa := 0x4000, size := 4092 } }
def laneWorld (w : Wave) : State := { world.setWave 0 w with actor := some (.lanes 0 false) }
/-- The context of an instruction in the primary slot of that wave. -/
def ctxOf (w : Wave) (i : Instr) (lw : LaneWord) : LCtx := lctx w 0 false (w.pri.getD { mask := 0, pc := 0 }) i lw

/-- The words with which the instructions that compute pass their decode checks. -/
def readyWords : List LaneWord :=
  [word32, { word32 with vb := 0 }, { word32 with ty := 0 }, { word32 with ty := 0, vb := 0 }, { word32 with ty := 11 },
    { word32 with ty := 11, vb := 0 }, { word32 with ty := 0, va := 0, vb := 0 }, { word32 with ty := 0, vb := 2 },
    { word32 with ty := 0, vd := 0, vb := 0 }, { word32 with ty := 11, vd := 0 }, { word32 with ty := 11, vd := 0, va := 0 },
    { word32 with ty := 11, vd := 0, va := 0, vb := 0 }, { word32 with ty := 11, va := 0, vb := 0 },
    { word32 with ty := 1, va := 8, vb := 0, hi := 0x0B000000 }, { word32 with ty := 15, va := 8, vb := 12, hi := 0x0B000000 },
    { word32 with ty := 1, va := 8, vb := 12, hi := 0x0E000000 }, { word32 with ty := 8, vd := 0, va := 8, vb := 12 },
    { word32 with ty := 11, vd := 0, va := 8, vb := 12 }]

/-- Instruction `n` of those that compute, in the word `lw`, is ready in wave 0. -/
def computes (n : Nat) (lw : LaneWord) : Bool :=
  match (Claim.laneEffects lw)[n]? with
  | some e => laneOk e.1 && readyIn (onLanes lanes4) (ctxOf lanes4 e.1 lw)
  | none => false

/-- LaneInstructionsComplete, LaneInstructionsKeepTheRest and LaneResultsAreWritten: each of the instructions that compute is ready with some word. -/
theorem meets_compute : ∀ n < 94, readyWords.any (computes n) = true := by decide +kernel

/-- Lanes 0 to 3 with the addresses 0x20F0 to 0x20FC in v6 and v7, and the lane number in v10; record 1 has 3 elements. -/
def memWave : Wave :=
  { ((laneWave.writeReg 6 0xF fun l => 0x20F0 + BitVec.ofNat 32 (4 * l)).writeReg 10 0xF fun l => BitVec.ofNat 32 l).writeReg 12 0xF fun _ => 1 with
    buf := [(1, BitVec.ofNat 256 (0x2000 + 3 * 2 ^ 48 + 3 * 2 ^ 64 + 2 ^ 96 + 2 ^ 128))] }
/-- A word of class LM on v4 with its address in v6 through slot 0, and with an index in v10 through slot 1. -/
def flatWord : LaneWord := { Claim.blank with vd := 4, va := 6, ty := 11 }
def bufWord : LaneWord := { Claim.blank with vd := 4, va := 10, vb := 1, ty := 11 }
def memCtx (i : Instr) (lw : LaneWord) : LCtx := ctxOf memWave i lw

theorem lanesReach_of {s : State} {c : LCtx} {k : AccessKind} {whole : Bool} {e : Nat → TlbEntry}
    (h : badRecord (Claim.recordOf s c) c.w.ty = none ∧ (BufRec.flat (Claim.recordOf s c) = true → c.w.va.getLsbD 0 = false) ∧
      (BufRec.bnd (Claim.recordOf s c) = 1 → ∀ l ∈ lanesOf c.act, (Claim.wordAt s c l).oob = false) ∧
      (∀ l ∈ Claim.inBounds s c, (Claim.wordAt s c l).mis = false ∧ (whole = true → (Claim.wordAt s c l).va.toNat % wordSize c.w.ty = 0) ∧
        Claim.Reaches s (s.laneAcc c.k) k (Claim.wordAt s c l).va (wordSize c.w.ty) (e l)) ∧
      (∀ a ∈ (s.wave c.k).accesses, a.hold = false) ∧ (semReleases c.w.sem.toNat = true → c.act ≠ 0#64 →
        (s.wave c.k).accesses = [] ∧ ∀ q ∈ s.quantum, q.unit ≠ (UnitId.wave c.k).code)) : Claim.LanesReach s c k whole e :=
  ⟨h.1, h.2.1, h.2.2.1, h.2.2.2.1, h.2.2.2.2.1, h.2.2.2.2.2⟩

/-- LaneLoadsAndStoresIssue and LaneAtomicsReadModifyWrite: through the flat record to the end of a line, and through a record of three elements with
lane 3 out of bounds. -/
theorem meets_lane_memory_ready : ∀ p ∈ [(Instr.ld flatWord, flatWord), (.lds flatWord, flatWord), (.st flatWord, flatWord), (.sts flatWord, flatWord),
    (.atomAdd { flatWord with ty := 3 }, { flatWord with ty := 3 }), (.atomCas { flatWord with ty := 0 }, { flatWord with ty := 0 }),
    (.ld bufWord, bufWord), (.lds bufWord, bufWord), (.st bufWord, bufWord), (.sts bufWord, bufWord)],
    readyIn (laneWorld memWave) (memCtx p.1 p.2) = true := by decide +kernel
theorem meets_lane_memory : (∀ k ∈ [AccessKind.load, .store], ∀ w ∈ [flatWord, bufWord],
      Claim.LanesReach (laneWorld memWave) (memCtx (.ld w) w) k true fun _ => page2) ∧
    Claim.inBounds (laneWorld memWave) (memCtx (.ld flatWord) flatWord) = [0, 1, 2, 3] ∧
    Claim.inBounds (laneWorld memWave) (memCtx (.ld bufWord) bufWord) = [0, 1, 2] ∧
    ((laneWorld memWave).wave 0).meetsPending ((Claim.inBounds (laneWorld memWave) (memCtx (.atomAdd flatWord) flatWord)).map fun l =>
      Claim.segOf page2 (Claim.wordAt (laneWorld memWave) (memCtx (.atomAdd flatWord) flatWord) l).va 4) = false := by
  have h (k : AccessKind) (w : LaneWord) (hk : k = .load ∨ k = .store) (hw : w = flatWord ∨ w = bufWord) :
      Claim.LanesReach (laneWorld memWave) (memCtx (.ld w) w) k true fun _ => page2 := by
    apply lanesReach_of
    unfold Claim.Reaches
    rcases hk with rfl | rfl <;> rcases hw with rfl | rfl <;> decide +kernel
  exact ⟨fun k hk w hw => h k w (by simpa using hk) (by simpa using hw), by decide +kernel⟩

/-- The access that an LD or ST of lane 0 leaves outstanding. -/
def pendWord (op : AccessOp) : PendAccess :=
  { pend with op := op, elems := [{ lane := 0, va := 0x20FC, segs := [{ loc := .mem 0x50FC false, len := 4 }], data := 7 }] }
/-- LaneAccessesArePerformed. -/
theorem meets_access_performed : ∀ op ∈ [AccessOp.load, .store],
    let s := laneWorld { memWave with accesses := [pendWord op] }
    (s.wave 0).accesses.find? (fun b => b.n == 0) = some (pendWord op) ∧ (s.wave 0).accesses.any (pendWord op).after = false ∧ (s.wave 0).lanes ≠ 0#64 ∧
      (∀ el ∈ (pendWord op).elems, (el.segs = [{ loc := .mem 0x50FC false, len := (pendWord op).size }] ∧ s.hostFilter.contains (0x50FC / 256) = false ∧
        ∀ q ∈ s.quantum, q.unit = (UnitId.wave 0).code → q.pa / 256 ≠ 0x50FC / 256) ∧ s.poisoned 0x50FC (pendWord op).size = false) ∧
      (pendWord op).lag = false ∧ (pendWord op).op = op := by decide +kernel

/-! ## Lane control -/

/-- BRA at lane pc 24 to 0x78 with a record for 0x6C, on predicate 1. -/
def braWord : LaneWord := { Claim.blank with vd := 1, va := 0x15, hi := 0x00060000 }
def braWave (p : Mask) : Wave := { laneWave with p := laneWave.p.set! 1 p }
/-- BRX with offsets in v6. -/
def brxWord : LaneWord := { Claim.blank with vd := 6, hi := 0x00060000 }
def brxWave (f : Nat → Word) : Wave := laneWave.writeReg 6 0xF f
/-- A wave whose primary group, of lanes 0 and 1, stands at lane pc 24 under record 1. -/
def recWave (addr : Nat) (pending : Mask) : Wave :=
  { laneWave with
    pri := some { mask := 3, pc := 24, token := 1 }
    sec := some { mask := 0xC, pc := 48, token := 1 }
    recs := [(1, { addr := addr, parent := 0, pending := pending, arrived := 0 })] }

/-- LaneControlMovesGroups: what completes at once, with the wave current and not. -/
theorem meets_lane_hints : ∀ i ∈ [Instr.nop Claim.blank, .safe { Claim.blank with sm := true }, .yield Claim.blank, .reconv Claim.blank],
    readyIn (laneWorld laneWave) (ctxOf laneWave i (match i with
      | .safe w => w
      | _ => Claim.blank)) = true := by decide +kernel

/-- BRA: no lane taken, all, one, all but one; the target 0x6C lies in the section. -/
theorem meets_bra : ∀ n ∈ [0, 0xF, 1, 7],
    let p : Mask := BitVec.ofNat 64 n
    let s := laneWorld (braWave p)
    let c := ctxOf (braWave p) (.bra braWord) braWord
    readyIn s c = true ∧ Claim.branching s c = p ∧ c.g.mask &&& ~~~(Claim.branching s c) = 0xF &&& ~~~p ∧ (braWave p).lhandler = none ∧
      (let target := (c.g.pc : Int) + 4 * c.w.off24.toInt
       inSection (braWave p) target = true ∧ 0 ≤ target ∧ target < 2 ^ 48) ∧
      (let v := if popMask p ≤ popMask (0xF &&& ~~~p)
          then Claim.divided s c (braWave p).newRec (parcels c.g.pc c.w.rcv.toInt) (0xF &&& ~~~p, 36) (p, 108)
          else Claim.divided s c (braWave p).newRec (parcels c.g.pc c.w.rcv.toInt) (p, 108) (0xF &&& ~~~p, 36)
       (braWave p).frags.length ≤ 4 ∧ v.frags.length ≤ 4 ∧ v.recs.length ≤ 8) := by decide +kernel

/-- BRX: one target, two, four. -/
theorem meets_brx : ∀ p ∈ [([48, 48, 48, 48], 1), ([48, 48, 60, 60], 2), ([48, 60, 72, 84], 4)],
    let f := fun l => BitVec.ofNat 32 (p.1.getD l 0)
    let s := laneWorld (brxWave f)
    let c := ctxOf (brxWave f) (.brx brxWord) brxWord
    readyIn s c = true ∧ (∀ l ∈ lanesOf c.act, Claim.branchTo s c l % 12 = 0 ∧ inSection (brxWave f) (Claim.branchTo s c l) = true) ∧
      (Claim.branchSets s c).length = p.2 ∧ (brxWave f).lhandler = none ∧
      (let v := (brxWave f).diverge false c.g (parcels c.g.pc c.w.rcv.toInt) s.clk (Claim.branchSets s c)
       v.frags.length ≤ 4 ∧ v.recs.length ≤ 8) := by decide +kernel

/-- RECONV: of a group without a record, at another record's place, the last to arrive, and an earlier one. -/
theorem meets_reconv : (ctxOf laneWave (.reconv Claim.blank) Claim.blank).g.token = 0 ∧
    ∀ p ∈ [(36, 0xF), (24, 3), (24, 0xF)],
      let w := recWave p.1 (BitVec.ofNat 64 p.2)
      let c := ctxOf w (.reconv Claim.blank) Claim.blank
      readyIn (laneWorld w) c = true ∧ c.g.token ≠ 0 ∧ w.recs.find c.g.token = some { addr := p.1, parent := 0, pending := BitVec.ofNat 64 p.2, arrived := 0 } ∧
        (w.frags.length ≤ 4 ∧ ({ w with recs := w.recs.del c.g.token } : Wave).recs.length ≤ 8) ∧ w.settle.frags.length ≤ 4 ∧ w.settle.recs.length ≤ 8 := by
  decide +kernel

/-! ## Lanes that leave, meet and start others -/

theorem waveQuiet_of {s : State} {k : Nat} (h : (s.wave k).accesses = [] ∧ (∀ q ∈ s.quantum, q.unit ≠ (UnitId.wave k).code) ∧ (s.wave k).sfx = [] ∧
    s.waveSendsGone k = true) : Claim.WaveQuiet s k := ⟨h.1, h.2.1, h.2.2.1, h.2.2.2⟩

/-- An answer with the state as it was. -/
theorem ok_same {α : Type} {r : EStateM.Result Stop State α} {s : State} (h : okWith r (fun _ t => decide (t = s)) = true) : ∃ a, r = .ok a s := by
  obtain ⟨a, t, e, p⟩ := ok_with _ h
  exact ⟨a, by rw [e, of_decide_eq_true p]⟩

/-- Predicate 1 holds in lane 0 alone. -/
def oneLane (w : Wave) : Wave := { w with p := w.p.set! 1 1 }
def guarded : LaneWord := { Claim.blank with gp := 1 }

/-- EXIT: in the lane handler; with no lane active; of lane 0 with a join counter at 0x20E0. -/
def joining : Wave := { oneLane laneWave with laneJoin := [(0, 0x20E0)] }
theorem meets_exit_lanes :
    (let w := { laneWave with lhandler := some { group := { mask := 0xF, pc := 24 }, base := 0, regs := [] }, trap := { act := true } }
     w.lhandler.isSome = true ∧ w.accesses = [] ∧ readyIn (laneWorld w) (lctx w 0 false { mask := 0xF, pc := 24 } (.exit Claim.blank) Claim.blank) = true) ∧
    readyIn (laneWorld laneWave) (ctxOf laneWave (.exit guarded) guarded) = true ∧ (ctxOf laneWave (.exit guarded) guarded).act = 0 ∧
    (let s := laneWorld joining
     let c := ctxOf joining (.exit guarded) guarded
     readyIn s c = true ∧ c.act ≠ 0 ∧ joining.lhandler = none ∧ Claim.WaveQuiet s 0 ∧ lanesOf c.act = [0] ∧
      Claim.Resolves s (s.laneAcc 0) (canonOf 0x20E0) 8 .store ∧
      ∃ t, discharge (s.laneAcc 0) (originOf s (.uniform 0)) (heldJoins joining [0]) s = .ok () t ∧
      ∃ u, dischargeLanes ([0].filterMap joining.laneGfx.find) t = .ok () u ∧ Claim.LanesStay u c c.act) := by
  refine ⟨by decide +kernel, by decide +kernel, by decide +kernel, by decide +kernel, by decide +kernel, by decide +kernel, waveQuiet_of (by decide +kernel),
    by decide +kernel, ok_same (by decide +kernel), ?_⟩
  obtain ⟨⟨⟩, t, h, p⟩ := ok_with (fun _ t => okWith (dischargeLanes ([0].filterMap joining.laneGfx.find) t) fun _ u =>
      decide ((u.wave 0).frags.length ≤ 4 ∧ ((u.wave 0).leave false { mask := 0xF, pc := 24 } 1 u.clk).frags.length ≤ 4 ∧
        ((u.wave 0).leave false { mask := 0xF, pc := 24 } 1 u.clk).recs.length ≤ 8 ∧ (u.wave 0).lanes &&& ~~~1 ≠ 0#64))
    (show okWith (discharge ((laneWorld joining).laneAcc 0) (originOf (laneWorld joining) (.uniform 0)) (heldJoins joining [0]) (laneWorld joining)) _ = true
      by decide +kernel)
  obtain ⟨⟨⟩, u, hu, q⟩ := ok_with _ p
  have q := of_decide_eq_true q
  exact ⟨t, h, u, hu, ⟨⟨q.1, q.2.1, q.2.2.1⟩, q.2.2.2⟩⟩

/-- MIG: with no lane active; with no block free; with one. -/
def migWord (gp : Nat) : LaneWord := { Claim.blank with mh := true, gp := BitVec.ofNat _ gp }
def migWave : Wave := oneLane laneWave
def migWorld (blocks : List Nat) : State := (laneWorld migWave).setCluster 0 { crews := [(0, { crew0 with blocks := blocks })], tlb := [page2] }
theorem meets_mig_ready : ∀ p ∈ [([0, 1], 2, false), ([0, 1], 1, true), ([], 1, true)],
    let s := migWorld p.1
    let c := ctxOf migWave (.mig (migWord p.2.1)) (migWord p.2.1)
    readyIn s c = true ∧ c.w.mh = true ∧ (s.wave 0).hart.crew = some ref0 ∧ s.crewOf ref0 = some { crew0 with blocks := p.1 } ∧
      (s.kernelOf { crew0 with blocks := p.1 }).strands ≠ 0 ∧ s.laneMigTarget 0 c.g.pc = some 0x1000 ∧ (c.act != 0) = p.2.2 ∧
      (s.wave 0).newDuties (lanesOf c.act) = 0 ∧
      ((s.wave 0).accesses = [] ∧ (∀ q ∈ s.quantum, q.unit ≠ (UnitId.wave 0).code) ∧ (s.wave 0).sfx = [] ∧ s.waveSendsGone 0 = true) := by decide +kernel
theorem meets_mig_waits : ∃ t, askBlocks ref0 (.lane 0 0 1) (migWorld [0, 1]) = .ok none t := by
  obtain ⟨o, t, h, p⟩ := ok_with (fun o _ => decide (o = none)) (show okWith (askBlocks ref0 (.lane 0 0 1) (migWorld [0, 1])) _ = true by decide +kernel)
  exact ⟨t, by rw [h, of_decide_eq_true p]⟩
theorem meets_mig : let s := migWorld []
    let c := ctxOf migWave (.mig (migWord 1)) (migWord 1)
    ∃ free t, askBlocks ref0 (.lane 0 (lowLane c.act) (lanesOf c.act).length) s = .ok (some free) t ∧
      (let bs := (lanesOf c.act).zip (free.map (s.blockAddr crew0))
       (∀ l ∈ lanesOf c.act, Claim.Resolves t (t.laneAcc 0) ((bs.find? fun b => b.1 == l).map (·.2) |>.getD 0) 512 .store) ∧
       ∃ u, writeBlocks (t.laneAcc 0) migWave bs t = .ok () u ∧
         (let v := (u.releaseUnit (.wave 0) 1).useBlocks ref0 free
          let x := Claim.pushMigrated (originOf v (.uniform 0)) migWave 0x1000 crew0.cls bs v
          Claim.LanesStay x c c.act)) := by
  intro s c
  obtain ⟨o, t, h, p⟩ := ok_with (fun o t => match o with
      | none => false
      | some free =>
        let bs := (lanesOf c.act).zip (free.map (s.blockAddr crew0))
        ((lanesOf c.act).all fun l => okWith (resolve (t.laneAcc 0) ((bs.find? fun b => b.1 == l).map (·.2) |>.getD 0) 512 .store t) fun _ u => decide (u = t)) &&
        okWith (writeBlocks (t.laneAcc 0) migWave bs t) fun _ u =>
          let v := (u.releaseUnit (.wave 0) 1).useBlocks ref0 free
          let x := Claim.pushMigrated (originOf v (.uniform 0)) migWave 0x1000 crew0.cls bs v
          decide (((x.wave 0).frags.length ≤ 4 ∧ ((x.wave 0).leave false c.g c.act x.clk).frags.length ≤ 4 ∧
            ((x.wave 0).leave false c.g c.act x.clk).recs.length ≤ 8) ∧ (x.wave 0).lanes &&& ~~~c.act ≠ 0#64))
    (show okWith (askBlocks ref0 (.lane 0 (lowLane c.act) (lanesOf c.act).length) s) _ = true by decide +kernel)
  match o, h, p with
  | some free, h, p =>
    rw [Bool.and_eq_true] at p
    obtain ⟨⟨⟩, u, hu, q⟩ := ok_with _ p.2
    have q := of_decide_eq_true q
    refine ⟨free, t, h, ?_, u, hu, ⟨⟨q.1.1, q.1.2.1, q.1.2.2⟩, q.2⟩⟩
    intro l hl
    exact ok_same (List.all_eq_true.mp p.1 l hl)

/-- BAR.ARV and BAR.WAIT: held in the open phase; a phase later; lanes still to come; the last of them. -/
def barWord : LaneWord := { Claim.blank with vd := 1 }
def barWave (mask : Nat) (b : BarWave) : Wave := { laneWave with pri := some { mask := BitVec.ofNat 64 mask, pc := 24 }, bars := [(1, b)] }
theorem meets_barriers : ∀ p ∈ [(0xF, ({ held := true } : BarWave), true, true), (0xF, { held := true, ticket := 1 }, false, true), (0xF, {}, false, true),
      (3, {}, false, false), (3, { arrived := 0xC }, false, true)],
    let w := barWave p.1 p.2.1
    let s := laneWorld w
    let x := w.bars.getD 1 {}
    readyIn s (ctxOf w (.barArv barWord) barWord) = true ∧ readyIn s (ctxOf w (.barWait barWord) barWord) = true ∧ w.front = true ∧
      w.hart.crew = some ref0 ∧ s.crewOf ref0 = some crew0 ∧ (decide (x.held = true ∧ x.ticket = (s.barrier crew0 1).phase) = p.2.2.1) ∧
      (w.lanes &&& ~~~((if x.held then 0#64 else x.arrived) ||| BitVec.ofNat 64 p.1) == 0#64) = p.2.2.2 ∧
      (w.accesses = [] ∧ (∀ q ∈ s.quantum, q.unit ≠ (UnitId.wave 0).code) ∧ w.sfx = [] ∧ s.waveSendsGone 0 = true) := by decide +kernel

/-- Lanes 0 to 3 with an address in v20 and v21, its line's tokens held by the cluster. -/
def pairWave (a : Nat) : Wave := laneWave.writeReg 20 0xF fun _ => BitVec.ofNat 32 a
def heldWorld (w : Wave) : State := { laneWorld w with tokens := [(State.reset.granuleOf 0x51, { held := [(0, 129)], owner := some 0 })] }
def spawnWord : LaneWord := { Claim.blank with vd := 20 }
/-- SPAWN: four children from the record at 0x2100. -/
theorem meets_spawn_lanes : let w := pairWave 0x2100
    let s := heldWorld w
    let c := ctxOf w (.spawn spawnWord) spawnWord
    readyIn s c = true ∧ Claim.WaveQuiet s 0 ∧ ∃ bs, (∀ l ∈ lanesOf c.act, ((w.pair 20 l).toNat % 32 = 0 ∧ canonical (w.pair 20 l) = true) ∧
        vread (s.laneAcc 0) (w.pair 20 l) 32 s = .ok bs s) ∧ refuseCont s w.hart.crew w.hart.launch (contOfBytes bs) = none ∧ (contOfBytes bs).join = 0 ∧
      (let cs := (lanesOf c.act).map fun _ => contOfBytes bs
       let o := originOf s (.uniform 0)
       lacksRoom s o cs = false ∧ ∃ t, addJoins (s.laneAcc 0) cs s = .ok () t ∧
         ∀ k ∈ cs, (t.releaseUnit (.wave 0) 3).canStart (o.queued (t.releaseUnit (.wave 0) 3) k).c = true) := by
  intro w s c
  refine ⟨by decide +kernel, waveQuiet_of (by decide +kernel), List.replicate 24 0 ++ [4, 0, 0, 0, 0, 0, 0, 0], ?_, by decide +kernel, by decide +kernel,
    by decide +kernel, ?_⟩
  · intro l hl
    have h : ∀ l ∈ lanesOf c.act, ((w.pair 20 l).toNat % 32 = 0 ∧ canonical (w.pair 20 l) = true) ∧
        okWith (vread (s.laneAcc 0) (w.pair 20 l) 32 s) (fun b t => decide (b = List.replicate 24 0 ++ [4, 0, 0, 0, 0, 0, 0, 0] ∧ t = s)) = true := by
      decide +kernel
    refine ⟨(h l hl).1, ?_⟩
    obtain ⟨b, t, e, q⟩ := ok_with _ (h l hl).2
    have q := of_decide_eq_true q
    rw [e, q.1, q.2]
  · obtain ⟨⟨⟩, t, h, p⟩ := ok_with (fun _ t => ((lanesOf c.act).map fun _ => contOfBytes (List.replicate 24 0 ++ [4, 0, 0, 0, 0, 0, 0, 0])).all fun k =>
        (t.releaseUnit (.wave 0) 3).canStart ((originOf s (.uniform 0)).queued (t.releaseUnit (.wave 0) 3) k).c)
      (show okWith (addJoins (s.laneAcc 0) ((lanesOf c.act).map fun _ => contOfBytes (List.replicate 24 0 ++ [4, 0, 0, 0, 0, 0, 0, 0])) s) _ = true
        by decide +kernel)
    exact ⟨t, h, fun k hk => List.all_eq_true.mp p k hk⟩

/-- FWAIT: futures that are ready, and one that lane 0 waits for. -/
def fwaitWord (gp : Nat) : LaneWord := { Claim.blank with vd := 20, gp := BitVec.ofNat _ gp }
/-- Handle 1 in v20 of each lane, a block address in v22 and v23. -/
def fwaitWave : Wave := oneLane ((laneWave.writeReg 20 0xF fun _ => 1).writeReg 22 0xF fun _ => 0x2100)
def fwaitWorld (st : Nat) : State := { heldWorld fwaitWave with futures := [(1, { allocated := true, st := st, value := 9 })] }
theorem meets_fwait : ∀ p ∈ [(2, 0), (0, 1)],
    let s := fwaitWorld p.1
    let c := ctxOf fwaitWave (.fwait (fwaitWord p.2)) (fwaitWord p.2)
    readyIn s c = true ∧ ((s.wave 0).accesses = [] ∧ (∀ q ∈ s.quantum, q.unit ≠ (UnitId.wave 0).code) ∧ (s.wave 0).sfx = [] ∧ s.waveSendsGone 0 = true) ∧
      (∀ l ∈ lanesOf c.act, (s.futures.getD (futKey ((s.wave 0).reg 20 l).toNat) {} = { allocated := true, st := p.1, value := 9 } ∧
        bits ((s.wave 0).reg 20 l).toNat 0 22 ≠ 0 ∧ bits ((s.wave 0).reg 20 l).toNat 22 8 = 0) ∧ p.1 ≠ 3 ∧ ((s.wave 0).pair 22 l).toNat % 64 = 0 ∧
        okWith (vread (s.laneAcc 0) ((s.wave 0).pair 22 l) 32 s) (fun bs t => decide (t = s) &&
          (refuseCont s (s.wave 0).hart.crew (s.wave 0).hart.launch (contOfBytes bs)).isNone) = true ∧
        okWith (resolve (s.laneAcc 0) ((s.wave 0).pair 22 l) 64 .store s) (fun _ t => decide (t = s)) = true) ∧
      overPeak s 0 (laneFrees c (s.wave 0)) [20, 21] = false ∧ (s.wave 0).newDuties ((lanesOf c.act).filter fun _ => p.1 != 2) = 0 ∧
      okWith (futWaitLanes 0 (s.laneAcc 0) (s.wave 0) 20 ((lanesOf c.act).filter fun _ => p.1 != 2) s) (fun _ t => p.1 == 2 ||
        (let u := t.setWave 0 ((t.wave 0).writeOperand true 20 0 fun _ => 9)
         decide (((u.wave 0).frags.length ≤ 4 ∧ ((u.wave 0).leave false c.g c.act u.clk).frags.length ≤ 4 ∧
           ((u.wave 0).leave false c.g c.act u.clk).recs.length ≤ 8) ∧ (u.wave 0).lanes &&& ~~~c.act ≠ 0#64))) = true := by decide +kernel

/-- SEND: a message of lane 0 to strand 5, its 64 bytes at 0x2100. -/
def sendWord : LaneWord := { Claim.blank with vd := 20, gp := 1 }
def sendWave : Wave := oneLane ((laneWave.writeReg 20 0xF fun _ => 0xFF0005).writeReg 22 0xF fun _ => 0x2100)
theorem meets_send_lanes : let s := heldWorld sendWave
    let c := ctxOf sendWave (.send sendWord) sendWord
    readyIn s c = true ∧ Claim.WaveQuiet s 0 ∧ (∀ l ∈ lanesOf c.act, (s.destOf sendWave.hart.crew (sendWave.pair 20 l) false false).isSome = true ∧
      (sendWave.pair 22 l).toNat % 64 = 0 ∧ ∃ bs, vread (s.laneAcc 0) (sendWave.pair 22 l) 64 s = .ok bs s) ∧
      (lanesOf c.act).length ≤ s.sendFree (8192 + 0 / 16) := by
  intro s c
  refine ⟨by decide +kernel, waveQuiet_of (by decide +kernel), ?_, by decide +kernel⟩
  intro l hl
  have h : ∀ l ∈ lanesOf c.act, ((s.destOf sendWave.hart.crew (sendWave.pair 20 l) false false).isSome = true ∧ (sendWave.pair 22 l).toNat % 64 = 0) ∧
      okWith (vread (s.laneAcc 0) (sendWave.pair 22 l) 64 s) (fun _ t => decide (t = s)) = true := by decide +kernel
  exact ⟨(h l hl).1.1, (h l hl).1.2, ok_same (h l hl).2⟩

/-! ## Other lane memory instructions, matrix and functions -/

/-- A wave with, in lanes 0 to 3: 0x2140 in v6 and v7, the lane in v10, 1 in v12, 0x2180 in v4 and v5, zeros in v8 to v11 of lane 0; records of
4-bit elements (1) and of a texture of one texel (2). -/
def otherWave : Wave :=
  { (((laneWave.writeReg 6 0xF fun _ => 0x2140).writeReg 10 0xF fun l => BitVec.ofNat 32 l).writeReg 12 0xF fun _ => 1).writeReg 4 0xF fun _ => 0x2180 with
    buf := [(1, BitVec.ofNat 256 (0x2000 + 3 * 2 ^ 64 + 2 ^ 96 + 2 ^ 128)), (2, BitVec.ofNat 256 (0x2000 + 0x2040 * 2 ^ 64 + (1 + 2 ^ 16 + 2 ^ 32) * 2 ^ 128))] }
def otherWorld : State := (heldWorld otherWave).poke 0x5140 (descriptor 8)
def lenWord : LaneWord := { Claim.blank with vd := 12, va := 6 }
def fenceWord : LaneWord := { Claim.blank with vb := 0x30, hi := 0x08000000 }
def stnWord : LaneWord := { Claim.blank with vd := 4, va := 10, vb := 1, ty := 15 }
def stqWord : LaneWord := { Claim.blank with vd := 4, va := 6, ty := 8 }
def texWord : LaneWord := { Claim.blank with vd := 20, va := 16, vb := 2, ty := 11 }

/-- OtherLaneMemoryInstructionsComplete: the words, ready. -/
theorem meets_other_ready : ∀ p ∈ [(Instr.fence fenceWord, fenceWord), (.stn stnWord, stnWord), (.cwb lenWord, lenWord), (.cinv lenWord, lenWord),
    (.cflush lenWord, lenWord), (.stq stqWord, stqWord), (.pfh { Claim.blank with va := 6 }, { Claim.blank with va := 6 }), (.texSmp texWord, texWord),
    (.texFch texWord, texWord)],
    readyIn otherWorld (ctxOf otherWave p.1 p.2) = true ∧ sigAmount p.1 p.2 = 0 ∧ otherWave.accesses = [] := by decide +kernel

/-- STN: nibbles 0 to 2 in bounds. -/
theorem meets_stn : let c := ctxOf otherWave (.stn stnWord) stnWord
    BufRec.reserved (Claim.recordOf otherWorld c) = false ∧ BufRec.esize (Claim.recordOf otherWorld c) = 0 ∧ BufRec.swz (Claim.recordOf otherWorld c) = 0 ∧
      BufRec.bnd (Claim.recordOf otherWorld c) ≠ 1 ∧ Claim.nibblesIn otherWorld c = [0, 1, 2] ∧
      (∀ l ∈ [0, 1, 2], Claim.Reaches otherWorld (otherWorld.laneAcc 0) .store (Claim.nibbleOf otherWorld c l).1.va 1 page2) ∧
      otherWave.meetsPending ([0, 1, 2].map fun l => Claim.segOf page2 (Claim.nibbleOf otherWorld c l).1.va 1) = false := by
  refine ⟨by decide +kernel, by decide +kernel, by decide +kernel, by decide +kernel, by decide +kernel, ?_, by decide +kernel⟩
  unfold Claim.Reaches; decide +kernel

theorem lanesPlaced_of {s : State} {c : LCtx} (h : badRecord (Claim.recordOf s c) c.w.ty = none ∧
    (BufRec.flat (Claim.recordOf s c) = true → c.w.va.getLsbD 0 = false) ∧
    (BufRec.bnd (Claim.recordOf s c) = 1 → ∀ l ∈ lanesOf c.act, (Claim.wordAt s c l).oob = false) ∧
    (∀ a ∈ (s.wave c.k).accesses, a.hold = false)) : Claim.LanesPlaced s c := ⟨h.1, h.2.1, h.2.2.1, h.2.2.2⟩

/-- CWB, CINV and CFLUSH over one byte of a line in each lane, and a range that ends at 2^48. -/
theorem meets_lane_ranges : let c := ctxOf otherWave (.cwb lenWord) lenWord
    Claim.LanesPlaced otherWorld c ∧ Claim.WordsAligned otherWorld c ∧
      (∀ l ∈ Claim.inBounds otherWorld c, (Claim.wordAt otherWorld c l).va.toNat % 2 ^ 48 + (otherWave.reg 12 l).toNat ≤ 2 ^ 48) ∧
      ∀ o ∈ [RangeOp.cwb, .cinv, .cflush], ∃ t, rangesM c (otherWorld.laneAcc 0) o (Claim.rangesOf otherWorld c)
        (joinRanges ((Claim.rangesOf otherWorld c).foldr insertRange [])) (Claim.notes otherWorld c (Claim.inBounds otherWorld c) false) = .ok () t := by
  intro c
  refine ⟨lanesPlaced_of (by decide +kernel), ?_, by decide +kernel, ?_⟩
  · unfold Claim.WordsAligned; decide +kernel
  · intro o ho
    have h : ∀ o ∈ [RangeOp.cwb, .cinv, .cflush], okWith (rangesM c (otherWorld.laneAcc 0) o (Claim.rangesOf otherWorld c)
        (joinRanges ((Claim.rangesOf otherWorld c).foldr insertRange [])) (Claim.notes otherWorld c (Claim.inBounds otherWorld c) false))
        (fun _ _ => true) = true := by decide +kernel
    obtain ⟨⟨⟩, t, e⟩ := ok_exists (h o ho)
    exact ⟨t, e⟩

/-- STQ of four lanes, and PFH. -/
theorem meets_lane_stq : let c := ctxOf otherWave (.stq stqWord) stqWord
    Claim.LanesPlaced otherWorld c ∧ (Claim.inBounds otherWorld c).length ≤ otherWorld.sendFree (8192 + 0 / 16) ∧
      ∀ l ∈ Claim.inBounds otherWorld c, (Claim.wordAt otherWorld c l).va.toNat % 64 = 0 ∧
        ∃ d, vread (otherWorld.laneAcc 0) (Claim.wordAt otherWorld c l).va 64 otherWorld = .ok d otherWorld := by
  intro c
  refine ⟨lanesPlaced_of (by decide +kernel), by decide +kernel, ?_⟩
  intro l hl
  have h : ∀ l ∈ Claim.inBounds otherWorld c, (Claim.wordAt otherWorld c l).va.toNat % 64 = 0 ∧
      okWith (vread (otherWorld.laneAcc 0) (Claim.wordAt otherWorld c l).va 64 otherWorld) (fun _ t => decide (t = otherWorld)) = true := by decide +kernel
  exact ⟨(h l hl).1, ok_same (h l hl).2⟩
theorem meets_lane_stq_descriptor :
    okWith (vread (otherWorld.laneAcc 0) 0x2140 64 otherWorld) (fun d t => (match stqOf t otherWave.hart.crew otherWave.hart.launch d with
      | .ok _ => true
      | _ => false) && okWith (vread (otherWorld.laneAcc 0) 0x2180 (stqLen d) t) fun _ u => decide (u = otherWorld)) = true := by decide +kernel
theorem meets_prefetch : let c := ctxOf otherWave (.pfh { Claim.blank with va := 6 }) { Claim.blank with va := 6 }
    badRecord (Claim.recordOf otherWorld c) c.w.ty = none ∧
      ∃ t, prefetchLanes (otherWorld.laneAcc 0) c.w.hint.toNat (wordSize c.w.ty) (Claim.fetched otherWorld c) otherWorld = .ok () t := by
  intro c
  obtain ⟨⟨⟩, t, e⟩ := ok_exists (show okWith (prefetchLanes (otherWorld.laneAcc 0) c.w.hint.toNat (wordSize c.w.ty) (Claim.fetched otherWorld c)
    otherWorld) _ = true by decide +kernel)
  exact ⟨by decide +kernel, t, e⟩

/-- TEX: each unit gives the texel and the sample, with the side index in the crew's scratch. -/
def texWave : Wave :=
  { otherWave with buf := [(2, BitVec.ofNat 256 (0x2000 + 0x7F1000000000 * 2 ^ 64 + (1 + 2 ^ 16 + 2 ^ 32) * 2 ^ 128))] }
def texWorld : State :=
  { (heldWorld texWave).setCluster 0 { crews := [(0, { crew0 with scrUnits := [1], partition := BitVec.ofNat 32 (2 ^ 14 + 2 ^ 7 + 64 * 2 ^ 21) })],
                                       tlb := [page2], gtlbs := [(2, [page2]), (3, [page2])] } with actor := some (.lanes 0 false) }
theorem meets_texture : let c := ctxOf texWave (.texFch texWord) texWord
    let r := Claim.recordOf texWorld c
    let acc (u : Nat) : Acc := { texWorld.laneAcc 0 with tlb := .unit 0 (2 + u), decomp := true }
    TexRec.ok r = true ∧ (lanesOf c.act).filter (fetchInside c r texWave) = [0, 1, 2, 3] ∧ ∀ u < 2,
      (∃ rs v, laneCollect [0, 1, 2, 3] (fun l => texel 0 (acc u) u (c.w.hint != 3) r (texCoord c texWave l 3) (texCoord c texWave l 0)
        (texCoord c texWave l 1) (texCoord c texWave l 2)) (texWorld.drawNat 2).2 = .ok rs v) ∧
      ∃ rs v, laneCollect [0, 1, 2, 3] (sampleLane c r texWave (acc u) u) (texWorld.drawNat 2).2 = .ok rs v := by
  intro c r acc
  refine ⟨by decide +kernel, by decide +kernel, fun u hu => ?_⟩
  have h : ∀ u < 2, okWith (laneCollect [0, 1, 2, 3] (fun l => texel 0 (acc u) u (c.w.hint != 3) r (texCoord c texWave l 3) (texCoord c texWave l 0)
      (texCoord c texWave l 1) (texCoord c texWave l 2)) (texWorld.drawNat 2).2) (fun _ _ => true) = true ∧
      okWith (laneCollect [0, 1, 2, 3] (sampleLane c r texWave (acc u) u) (texWorld.drawNat 2).2) (fun _ _ => true) = true := by decide +kernel
  exact ⟨ok_exists (h u hu).1, ok_exists (h u hu).2⟩

/-! ## Matrix engine and special functions -/

/-- SFX: no lane active; token 15, not outstanding. SFX.WAIT of a token that is outstanding, and of none. -/
def sfxWord (gp : Nat) : LaneWord := { Claim.blank with vd := 4, va := 6, vc := 15, ty := 11, gp := BitVec.ofNat _ gp }
def sfxWave : Wave := { laneWave with sfx := [(5, { fn := 0, ty := 11, vd := 9, mask := 1, src := Vector.replicate 64 0 })] }
def sfxWaitWord (va : Nat) : LaneWord := { Claim.blank with va := BitVec.ofNat 8 va }
theorem meets_sfx : (∀ p ∈ [(1, 0#64 == 0), (0, false)],
      let c := ctxOf sfxWave (.sfx 4 (sfxWord p.1)) (sfxWord p.1)
      readyIn (laneWorld sfxWave) c = true ∧ sigAmount c.i c.w = 0 ∧ (c.act == 0) = p.2 ∧ sfxWave.sfx.find c.w.vc.toNat = none ∧
        (laneWorld sfxWave).sfxCount 0 < 16 ∧ (c.act ≠ 0#64 → overPeak (laneWorld sfxWave) 0 (laneFrees c ((laneWorld sfxWave).wave 0)) [4] = false)) ∧
    ∀ p ∈ [(32, true), (16, false)],
      readyIn (laneWorld sfxWave) (ctxOf sfxWave (.sfxWait (sfxWaitWord p.1)) (sfxWaitWord p.1)) = true ∧
        (sfxWave.sfx.any fun e => (p.1 + 256 * 0).testBit e.1) = p.2 := by decide +kernel

/-- KRD, KWR and ACC.ZERO: the last row of the wave's 64. -/
def krdWord : LaneWord := { Claim.blank with vd := 4, va := 63 }
def kwrWord : LaneWord := { Claim.blank with vd := 63, va := 4 }
def zeroWord (vd vc : Nat) : LaneWord := { Claim.blank with vd := BitVec.ofNat 8 vd, vc := BitVec.ofNat 8 vc }
theorem meets_rows : let s := laneWorld laneWave
    (let c := ctxOf laneWave (.krd krdWord) krdWord
     readyIn s c = true ∧ rowOf c c.w.va = 63 ∧ s.waveRows 0 = 64 ∧ (c.act ≠ 0#64 → overPeak s 0 (laneFrees c (s.wave 0)) [4] = false) ∧
       ∀ l ∈ lanesOf c.act, s.runningOut 0 (s.rowKey 0 63 l) = none ∧ s.poisoned (s.rowKey 0 63 l) 4 = false) ∧
    (let c := ctxOf laneWave (.kwr kwrWord) kwrWord
     readyIn s c = true ∧ rowOf c c.w.vd + 1 ≤ s.waveRows 0 ∧ ∀ e ∈ Claim.rowWrite s c, s.runningOut 0 e.1 = none) ∧
    ∀ p ∈ [(63, 0), (62, 1)], let c := ctxOf laneWave (.accZero (zeroWord p.1 p.2)) (zeroWord p.1 p.2)
     readyIn s c = true ∧ rowOf c c.w.vd + (c.w.vc.toNat + 1) ≤ s.waveRows 0 ∧ ∀ e ∈ Claim.rowZero s c, s.runningOut 0 e.1 = none := by decide +kernel

/-- A crew with a gang of the wave ranks 0 and 1, two macros, and ring 1 of two stages. -/
def gang0 : Dword := BitVec.ofNat 64 (2 ^ 63 + 2 * 2 ^ 40 + 2 * 2 ^ 24 + 2 ^ 4)
def mat0 (filled : Nat) : MatCrew :=
  { gang := gang0, rings := Vector.ofFn fun i => if i = 1 then { desc := BitVec.ofNat 64 (2 ^ 63 + 2 ^ 45 + 2 ^ 32), filled := filled } else {} }
def matWorld (w : Wave) (m : MatCrew) : State := (laneWorld w).setMatCrew 0 0 m
def ringAdvWord (gp : Nat) : LaneWord := { Claim.blank with vc := 1, gp := BitVec.ofNat _ gp }
def ringWaitWord (n : Nat) : LaneWord := { Claim.blank with vd := 4, vc := BitVec.ofNat 8 (4 * n + 1) }
def mldWord (ty gp vc : Nat) : LaneWord :=
  { Claim.blank with vb := 11, vc := BitVec.ofNat 8 vc, ty := BitVec.ofNat 4 ty, gp := BitVec.ofNat _ gp, hi := 0x80000000 }
def mldWave : Wave := { laneWave with hart := laneWave.hart.wx 11 0x2000 }
def mmaWord : LaneWord := { Claim.blank with va := 4, vb := 6 }

/-- RING.ADV with no lane active and with room for one stage more; RING.WAIT with one stage free of the two asked for, and with both. -/
theorem meets_rings : (∀ p ∈ [(1, true), (0, false)],
      let s := matWorld laneWave (mat0 1)
      let c := ctxOf laneWave (.ringAdv (ringAdvWord p.1)) (ringAdvWord p.1)
      readyIn s c = true ∧ s.waveMat 0 = some (ref0, crew0, mat0 1) ∧ ((mat0 1).ring 1).v = true ∧ ((mat0 1).ring 1).used ≠ ((mat0 1).ring 1).stages ∧
        (c.act == 0) = p.2 ∧ ((s.wave 0).accesses = [] ∧ (∀ q ∈ s.quantum, q.unit ≠ (UnitId.wave 0).code) ∧ (s.wave 0).sfx = [] ∧ s.waveSendsGone 0 = true)) ∧
    ∀ p ∈ [(1, true), (0, false)],
      let s := matWorld laneWave (mat0 p.1)
      let c := ctxOf laneWave (.ringWait (ringWaitWord 2)) (ringWaitWord 2)
      readyIn s c = true ∧ s.waveMat 0 = some (ref0, crew0, mat0 p.1) ∧ ((mat0 p.1).ring (c.w.vc.toNat % 4)).v = true ∧ c.w.vc.toNat / 4 = 2 ∧
        2 ≤ ((mat0 p.1).ring 1).stages ∧ decide (((mat0 p.1).ring 1).stages - ((mat0 p.1).ring 1).used < 2) = p.2 ∧
        overPeak s 0 (laneFrees c (s.wave 0)) [4] = false := by decide +kernel

/-- MLD: each form, the last macro; with no lane active, and with a free entry of the queue. MMA.G: arriving, waiting, and decided. -/
theorem meets_mld : ∀ p ∈ [(15, 0, 1), (1, 0, 1), (2, 0, 0), (15, 1, 1)],
    let s := matWorld mldWave (mat0 0)
    let w := mldWord p.1 p.2.1 p.2.2
    let c := ctxOf mldWave (.mld w) w
    let mac := c.w.vc.toNat % 32
    readyIn s c = true ∧ s.waveMat 0 = some (ref0, crew0, mat0 0) ∧ (mat0 0).gang.getLsbD 63 = true ∧ mldWave.front = true ∧
      (Gang.ranks (mat0 0).gang).contains mldWave.rank = true ∧ mac < Gang.mcnt (mat0 0).gang ∧
      (mldForm c.w.ty = 2 → mac % 2 = 0 ∧ mac + 1 < Gang.mcnt (mat0 0).gang) ∧ (mldWave.uni c.w.vb.toNat).toNat % 256 = 0 ∧
      ((s.cluster 0).matrix.freeEntry crew0.cls).isSome = true ∧ sigAmount c.i c.w = 0 ∧
      ((s.wave 0).accesses = [] ∧ (∀ q ∈ s.quantum, q.unit ≠ (UnitId.wave 0).code) ∧ (s.wave 0).sfx = [] ∧ s.waveSendsGone 0 = true) := by decide +kernel

def verdict0 : MmaVerdict := { wave := 0, lane := 0, pc := 24, refused := none, cmd := some 0 }
theorem meets_mma : (∀ p ∈ [(mat0 0, false), ({ mat0 0 with arrivals := [{ wave := 0, rank := 0, lane := 0, pc := 24, act := 0xF, vals := [] }] }, true)],
      let s := matWorld laneWave p.1
      let c := ctxOf laneWave (.mmaG mmaWord) mmaWord
      readyIn s c = true ∧ s.waveMat 0 = some (ref0, crew0, p.1) ∧ p.1.verdictOf 0 (lowLane c.g.mask) c.g.pc = none ∧
        p.1.arrivalOf 0 (lowLane c.g.mask) c.g.pc = p.2 ∧ sigAmount c.i c.w = 0) ∧
    (let m := { mat0 0 with verdicts := [verdict0] }
     let c := ctxOf laneWave (.mmaG mmaWord) mmaWord
     readyIn (matWorld laneWave m) c = true ∧ (matWorld laneWave m).waveMat 0 = some (ref0, crew0, m) ∧
       m.verdictOf 0 (lowLane c.g.mask) c.g.pc = some verdict0 ∧ verdict0.refused = none) := by decide +kernel

/-! ## Bloom and graphics -/

/-- A bank of the crew. -/
def bank0 : BloomBank :=
  { crew := ref0, launch := 1, dcrew := 0, dptb := 0, rank := 0, plain := true, vrow := 0, arow := 0, ncount := 1, leak := 0, theta := 0, vreset := 0, refr := 0,
    reset := 0, fire := 0, ch := 0, target := 0, td := 0, h := 0 }
def bankWorld (w : Wave) : State :=
  { laneWorld w with clusters := [(0, { crews := [(0, crew0)], tlb := [page2], bloom := [(15, bank0)] })] }
def emitWord (gp : Nat) : LaneWord := { Claim.blank with va := 8, ty := 8, gp := BitVec.ofNat _ gp }
def readWord : LaneWord := { Claim.blank with vd := 4, vc := 0x4F }
def writeWord (sel gp : Nat) : LaneWord := { Claim.blank with vb := 11, vc := BitVec.ofNat 8 (16 * sel + 15), gp := BitVec.ofNat _ gp, hi := 0x80000000 }

/-- BLM.EMIT, BLM.READ and BLM.WRITE on the last bank, with lanes active and with none. -/
theorem meets_bloom : let s := bankWorld laneWave
    (∀ gp ∈ [0, 1], readyIn s (ctxOf laneWave (.blmEmit (emitWord gp)) (emitWord gp)) = true ∧ readyIn s (ctxOf laneWave (.blmAdvance (writeWord 0 gp)) (writeWord 0 gp)) = true ∧
      readyIn s (ctxOf laneWave (.blmFlush (writeWord 1 gp)) (writeWord 1 gp)) = true ∧
      readyIn s (ctxOf laneWave (.blmClear (writeWord 2 gp)) (writeWord 2 gp)) = true) ∧
    (laneWave.accesses = [] ∧ (∀ q ∈ s.quantum, q.unit ≠ (UnitId.wave 0).code) ∧ laneWave.sfx = [] ∧ s.waveSendsGone 0 = true) ∧
    readyIn s (ctxOf laneWave (.blmRead readWord) readWord) = true ∧ s.bank 0 15 = some bank0 ∧ some bank0.crew = laneWave.hart.crew := by decide +kernel
theorem meets_bloom_writes : let s := bankWorld laneWave
    (∃ t, (do
        modBank 0 15 fun x => { x with h := if 0 < sd ((laneWave.uni 11).setWidth 16) x.h then (laneWave.uni 11).setWidth 16 else x.h }
        drainBank 0 15 false 1025 : M Unit) s = .ok () t) ∧
    (∃ t, (do
        drainBank 0 15 true 1025
        modBank 0 15 fun x => { x with td := x.h } : M Unit) s = .ok () t) ∧
    ∃ t, (modBank 0 15 fun x => { x with
        late := 0
        fires := 0
        drop := 0 } : M Unit) s = .ok () t := by
  intro s
  refine ⟨?_, ?_, ?_⟩
  · obtain ⟨⟨⟩, t, e⟩ := ok_exists (show okWith ((do
        modBank 0 15 fun x => { x with h := if 0 < sd ((laneWave.uni 11).setWidth 16) x.h then (laneWave.uni 11).setWidth 16 else x.h }
        drainBank 0 15 false 1025 : M Unit) s) _ = true by decide +kernel)
    exact ⟨t, e⟩
  · obtain ⟨⟨⟩, t, e⟩ := ok_exists (show okWith ((do
        drainBank 0 15 true 1025
        modBank 0 15 fun x => { x with td := x.h } : M Unit) s) _ = true by decide +kernel)
    exact ⟨t, e⟩
  · obtain ⟨⟨⟩, t, e⟩ := ok_exists (show okWith ((modBank 0 15 fun x => { x with
        late := 0
        fires := 0
        drop := 0 } : M Unit) s) _ = true by decide +kernel)
    exact ⟨t, e⟩

/-- A program node at 0x2300 with 16 records at 0x2600, whose template is a continuation of class 1, and a rasteriser's node at 0x2400; lane 0 holds the
handle of a record in v8 and v9. -/
def gfxWave : Wave := (oneLane { laneWave with hart := laneWave.hart.wx 11 0x2300 }).writeReg 8 0xF fun _ => 0x2610
def rec0 (st : GfxSt) : GfxRec :=
  { id := 0, c := 0, crew := some ref0, launch := 1, dcrew := 0, dptb := 0, cluster := 0, nodeVa := 0x2400, handle := 0x2610, st := st }
def gfxWorld (recs : List (Nat × GfxNode)) : State :=
  { (((laneWorld gfxWave).poke 0x5300 ([0, 1, 1, 0, 16, 0, 0, 0, 0, 0x26] ++ List.replicate 6 0 ++ [0x80, 0x23] ++ List.replicate 6 0 ++ [0x88, 0x23])).poke 0x5358
      [4]).poke 0x5400 ([1, 1, 1, 0, 16, 0, 0, 0, 0, 0x26] ++ List.replicate 70 0 ++ [0, 0x20]) with
    tokens := [(State.reset.granuleOf 0x53, { held := [(0, 129)], owner := some 0 })]
    nodes := recs }
def resvWord : LaneWord := { Claim.blank with vd := 20, vb := 11, vc := 3, ty := 8, gp := 1, hi := 0x80000000 }
def commitWord : LaneWord := { Claim.blank with va := 8, vb := 11, ty := 8, gp := 1, hi := 0x80000000 }
def emitMeshWord : LaneWord := { Claim.blank with va := 8, vb := 10, vc := 16, gp := 1 }
def recAt (st : GfxSt) : List (Nat × GfxNode) := [(0xA6, { recs := [(0, rec0 st)] })]

theorem meets_gfx_ready : (readyIn (gfxWorld []) (ctxOf gfxWave (.resv resvWord) resvWord) = true ∧
      readyIn (gfxWorld (recAt .reserved)) (ctxOf gfxWave (.commit commitWord) commitWord) = true ∧
      readyIn (gfxWorld (recAt .reserved)) (ctxOf gfxWave (.cancel commitWord) commitWord) = true ∧
      readyIn (gfxWorld (recAt .reserved)) (ctxOf gfxWave (.emitV emitMeshWord) emitMeshWord) = true ∧
      readyIn (gfxWorld (recAt .reserved)) (ctxOf gfxWave (.emitP emitMeshWord) emitMeshWord) = true) ∧
    (gfxWave.accesses = [] ∧ (∀ q ∈ (gfxWorld []).quantum, q.unit ≠ (UnitId.wave 0).code) ∧ gfxWave.sfx = [] ∧ (gfxWorld []).waveSendsGone 0 = true) := by
  decide +kernel

def node0 : NodeD := { va := 0x2300, bytes := (gfxWorld []).peek 0x5300 128 }
theorem node_of {c : LCtx} {s : State} (h : okWith (laneNode c s) (fun a t => decide (a = (0xA6, node0) ∧ t = s)) = true) :
    laneNode c s = .ok (0xA6, node0) s := by
  obtain ⟨a, t, e, p⟩ := ok_with _ h
  have p := of_decide_eq_true p
  rw [e, p.1, p.2]

/-- RESV of one lane; COMMIT of a reserved record. -/
theorem meets_resv : let s := gfxWorld []
    let c := ctxOf gfxWave (.resv resvWord) resvWord
    laneNode c s = .ok (0xA6, node0) s ∧ (c.act ≠ 0#64 → overPeak s 0 (laneFrees c (s.wave 0)) (vdRegs c.i c.w) = false) ∧
      ∃ t, reserveLanes c (s.laneAcc 0) 0xA6 node0 (lanesOf c.act) s = .ok () t := by
  intro s c
  refine ⟨node_of (by decide +kernel), by decide +kernel, ?_⟩
  obtain ⟨⟨⟩, t, e⟩ := ok_exists (show okWith (reserveLanes c (s.laneAcc 0) 0xA6 node0 (lanesOf c.act) s) _ = true by decide +kernel)
  exact ⟨t, e⟩
theorem meets_commit : let s := gfxWorld (recAt .reserved)
    let c := ctxOf gfxWave (.commit commitWord) commitWord
    laneNode c s = .ok (0xA6, node0) s ∧ (∀ l ∈ lanesOf c.act, laneRec s c 0xA6 node0 l = some (0, rec0 .reserved)) ∧ (lanesOf c.act).length = 1 ∧
      ∃ t, commitLanes (s.laneAcc 0) node0 0xA6 [0] s = .ok () t := by
  intro s c
  refine ⟨node_of (by decide +kernel), by decide +kernel, by decide +kernel, ?_⟩
  · obtain ⟨⟨⟩, t, e⟩ := ok_exists (show okWith (commitLanes (s.laneAcc 0) node0 0xA6 [0] s) _ = true by decide +kernel)
    exact ⟨t, e⟩

/-- CANCEL of a record that carries a ticket. -/
def ticketRec : GfxRec := { rec0 .reserved with ticket := true }
theorem meets_cancel : let s := gfxWorld [(0xA6, { recs := [(0, ticketRec)] })]
    let c := ctxOf gfxWave (.cancel commitWord) commitWord
    readyIn s c = true ∧ laneNode c s = .ok (0xA6, node0) s ∧ (∀ l ∈ lanesOf c.act, laneRec s c 0xA6 node0 l = some (0, ticketRec)) ∧ ticketRec.st = .reserved ∧
      ∃ t, cancelLanes 0xA6 [(0, ticketRec)] s = .ok () t := by
  intro s c
  refine ⟨by decide +kernel, node_of (by decide +kernel), by decide +kernel, rfl, ?_⟩
  obtain ⟨⟨⟩, t, e⟩ := ok_exists (show okWith (cancelLanes 0xA6 [(0, ticketRec)] s) _ = true by decide +kernel)
  exact ⟨t, e⟩

/-- EMIT.V and EMIT.P of lane 0 past the mesh's counts: the node's counters take it. -/
theorem meets_emit : let s := { gfxWorld (recAt .reserved) with tokens := [(State.reset.granuleOf 0x54, { held := [(0, 129)], owner := some 0 }),
        (State.reset.granuleOf 0x56, { held := [(0, 129)], owner := some 0 })] }
    ∀ p ∈ [(true, (0x2428 : Nat)), (false, 0x242C)],
      let c := ctxOf gfxWave (if p.1 then .emitV emitMeshWord else .emitP emitMeshWord) emitMeshWord
      ((lanesOf c.act).all fun l => okWith (meshElem c p.1 l s) (fun a t => decide (a = (BitVec.ofNat 64 p.2, false) ∧ t = s)) &&
        okWith (resolve (s.laneAcc 0) (BitVec.ofNat 64 p.2) 4 .store s) (fun gs t => decide (t = s) && !gfxWave.meetsPending gs &&
          okWith (gateSegs (s.laneAcc 0) true gs s) fun _ u =>
            okWith (emitLanes c (s.laneAcc 0) gfxWave p.1 [(l, BitVec.ofNat 64 p.2, false)] u) fun _ _ => true)) = true := by decide +kernel

end Sys2Proof.Tests
end

