-- ==== Sys2Proof/Tests/EventWitness.lean ====
section
/-! SUPPORT. For each statement about events, states that meet its hypotheses. -/

namespace Sys2Proof.Tests

open Sys2Proof Sys2Proof.Machine

set_option Elab.async false

/-! ## Coherence, the host, links, memory and power -/

def inval0 (receive : Nat) : Inval :=
  { hart := some (.strand 0), line := none, va := 0x2000, asid := 0, allVa := false, allAsid := false, flushPage := some 5,
    toReceive := BitVec.ofNat 128 receive, toAck := BitVec.ofNat 128 (2 ^ 127 + 1) }
def lastInval : Inval := { inval0 0 with toAck := BitVec.ofNat 128 (2 ^ 127) }
def invalWorld (i : Inval) : State :=
  { world.setHart (.strand 0) { member with run := .parked .inval } with invals := [(0, i)] }

/-- An invalidation to receive at the last cluster; an acknowledgement that is not the last, and one that is, with its hart parked. -/
theorem meets_invalidation : (let i := inval0 (2 ^ 127)
   (invalWorld i).invals.find 0 = some i ∧ i.toReceive.getLsbD 127 = true ∧ i.flushPage = some 5 ∧ 95 / 16 = 5 ∧ 1023 / 8 = 127) ∧
    (let i := inval0 0
     (invalWorld i).invals.find 0 = some i ∧ i.toReceive.getLsbD 127 = false ∧ i.toAck.getLsbD 127 = true ∧
        Claim.NoUse (invalWorld i) i 127 ∧ i.toAck &&& ~~~clusterBit 127 ≠ 0) ∧
    ((invalWorld lastInval).invals.find 0 = some lastInval ∧ lastInval.toReceive.getLsbD 127 = false ∧ lastInval.toAck.getLsbD 127 = true ∧
      Claim.NoUse (invalWorld lastInval) lastInval 127 ∧ lastInval.toAck &&& ~~~clusterBit 127 = 0 ∧ lastInval.hart = some (.strand 0) ∧
      ((invalWorld lastInval).hart (.strand 0)).run = .parked .inval) := by
  refine ⟨by decide +kernel, ⟨by decide +kernel, by decide +kernel, by decide +kernel, ?_, by decide +kernel⟩,
    by decide +kernel, by decide +kernel, by decide +kernel, ?_, by decide +kernel, by decide +kernel, by decide +kernel⟩
  all_goals exact fun e he => nomatch he

/-- The last die's counters a whole period old, one of them with a value. -/
theorem meets_halving : let s : State := { State.reset with
      clk := 4194304
      hot := [(3 * 2 ^ 28, 5)] }
    3 < 4 ∧ s.clk / 4194304 - s.halvings[3]! ≠ 0 ∧ (3 * 2 ^ 28, 5) ∈ s.hot := by decide +kernel

/-- A quantum update in the first line of memory. -/
def update0 : QUpdate := { pa := 0x5000, op := 0, dbl := true, data := 1, data2 := 0, deadline := 0, unit := 0, scope := 0 }
theorem meets_quantum : let s : State := { State.reset with quantum := [update0] }
    MemoryOk s ∧ s.quantum[0]? = some update0 ∧ (∀ x ∈ s.quantum.eraseIdx 0, x ≠ update0) ∧
      (∀ x ∈ s.quantum.take 0, ¬(x.unit = update0.unit ∧ x.pa / 256 = update0.pa / 256)) ∧
      atomNew (.ofCode update0.op) (8 * 8) (natOfBytes (s.peek update0.pa 8)) update0.data.toNat update0.data2.toNat = some 1 := by
  refine ⟨?_, by decide +kernel⟩
  unfold MemoryOk
  decide +kernel

/-- A walk that ends at a page the TLB holds, and one that faults: the last canonical address below the windows' end. -/
theorem meets_walk : let s := inWorld member
    canonical 0x2000 = true ∧ inWindow (0x2000 % 2 ^ 48) = false ∧
      (∃ tr t, Machine.translate (s.accOf (.strand 0)) (0x2000 % 2 ^ 48) .load s = .ok tr t) ∧
      ∃ e t, Machine.translate (s.accOf (.strand 0)) (0x9000 % 2 ^ 48) .load s = .error (.exc e) t :=
  ⟨by decide +kernel, by decide +kernel,
    ok_exists (show okWith (Machine.translate ((inWorld member).accOf (.strand 0)) (0x2000 % 2 ^ 48) .load (inWorld member)) (fun _ _ => true) = true by decide +kernel),
    exc_exists (show isExc (Machine.translate ((inWorld member).accOf (.strand 0)) (0x9000 % 2 ^ 48) .load (inWorld member)) = true by decide +kernel)⟩

/-- A granule of one line, with no request of the cluster and with one; one whose line the host holds; tokens to evict. -/
def reqOf (c : Nat) : PersReq := { cluster := c, granule := 0x50, write := true, clk := 0 }
theorem meets_tokens : (127 < 128 ∧ Claim.GranuleFree State.reset 0x50 ∧
      (State.reset.persistent.find? fun p => p.cluster == 127 && p.granule == 0x50) = none) ∧
    (let s : State := { State.reset with persistent := [reqOf 127] }
     Claim.GranuleFree s 0x50 ∧ (s.persistent.find? fun p => p.cluster == 127 && p.granule == 0x50) = some (reqOf 127) ∧
        s.firstPersistent 0x50 = some (reqOf 127)) ∧
    (let s : State := { State.reset with hostFilter := [0x50] }
     s.isGranule 0x50 = true ∧ (s.granuleLines 0x50).find? s.hostFilter.contains = some 0x50) ∧
    (({ State.reset with tokens := [(0x50, { held := [(127, 1)] })] } : State).tok 0x50).held.getD 127 0 ≠ 0 := by
  refine ⟨⟨by decide +kernel, ⟨by decide +kernel, by decide +kernel, by decide +kernel⟩, by decide +kernel⟩,
    ⟨⟨by decide +kernel, by decide +kernel, by decide +kernel⟩, by decide +kernel⟩, by decide +kernel⟩

/-- A home record of 129 tokens at the caches, and one short of them. -/
theorem meets_recall : let full : State := { State.reset with tokens := [(0x50, { held := [(0, 128), (1, 1)] })] }
    full.isGranule 0x50 = true ∧ ((full.tok 0x50).held.map (·.2)).sum = 129 ∧ State.reset.isGranule 0x50 = true ∧
      ((State.reset.tok 0x50).held.map (·.2)).sum ≠ 129 := by decide +kernel

/-- A host line; a DRAM line that the host writes and reads during a snoop; an answer to a snoop, raced and not; a peer's access of the
last 8 bytes of a line. -/
theorem meets_hosts : paKind (2 ^ 43 * 256) = .host ∧ paKind 0x50F8 = .dram ∧ MemoryOk State.reset ∧
    (let s : State := { State.reset with snoops := [(0x50, false), (0x51, true)] }
     (s.snoops.find (0x50F8 / 256)).isSome = true ∧ s.snoops.find 0x50 = some false ∧ s.snoops.find 0x51 = some true) ∧
    State.reset.hostFilter.contains (0x50F8 / 256) = false ∧
    (0 ≠ 7 ∧ (leBytes 8 1).length = 8 ∧ 0x50F8 % (leBytes 8 1).length = 0 ∧ State.reset.poisoned 0x50F8 (leBytes 8 1).length = false ∧
      atomNew (.ofCode 0) (8 * (leBytes 8 1).length) (natOfBytes (State.reset.peek 0x50F8 (leBytes 8 1).length)) (natOfBytes (leBytes 8 1)) 0 =
        some 1) := by
  refine ⟨by decide +kernel, by decide +kernel, ?_, by decide +kernel⟩
  unfold MemoryOk
  decide +kernel

/-- A module with 16 replays, of 24 and as the last of its pair; a link that is up; the last cluster, with an error of its window before
it and without; an address of the last key; a wave's word; watts and temperatures at the edges of their ranges. -/
theorem meets_links_and_power :
    (let s : State := { State.reset with replays := [(95, (0, 16))] }
     3 < 4 ∧ 23 < 24 ∧ 16 ≤ ((s.replays.find (3 * 24 + 23)).map (·.2)).getD 0 ∧ (s.modules[3]!).getLsbD 23 = true ∧
        s.modules[3]! &&& ~~~BitVec.ofNat 24 (2 ^ 23) ≠ 0) ∧
    (let s : State := { State.reset with
        replays := [(95, (0, 16))]
        modules := Vector.replicate 4 (BitVec.ofNat 24 (2 ^ 23)) }
     16 ≤ ((s.replays.find (3 * 24 + 23)).map (·.2)).getD 0 ∧ (s.modules[3]!).getLsbD 23 = true ∧
        s.modules[3]! &&& ~~~BitVec.ofNat 24 (2 ^ 23) = 0) ∧
    (7 < 8 ∧ ({ State.reset with linkUp := BitVec.ofNat 8 128 } : State).linkUp.getLsbD 7 = true) ∧
    (127 < 128 ∧ (State.reset.cluster 127).eccClk = none ∧
      (let s := State.reset.setCluster 127 { eccClk := some 0 }
       (s.cluster 127).eccClk = some 0 ∧ s.clk < 0 + 2097152)) ∧
    2 ^ 66 - 1 < 2 ^ 66 ∧ ((State.reset.setWave 16383 lanes4).wave 16383).live = true ∧ 2 ^ 14 - 1 < 2 ^ 14 ∧
    (65535 < 65536 ∧ 99 < 100 ∧ min State.reset.plimit State.reset.govCap < 8001 ∧ 8000 ≤ min State.reset.plimit State.reset.govCap ∧ 110 < 256) ∧
    (List.replicate 48 (0 : Byte)).length = 48 := by decide +kernel

/-! ## Messages and stqs on their way -/

def stq0 (target : Nat) : StqOp :=
  { queue := 0, target := target, payload := leBytes 8 7, sem := 0, inc := 0, cont := { w0 := 0x1000, w1 := 0, w2 := 0, w3 := BitVec.ofNat 64 4 },
    launch := 1, crew := some ref0, cluster := 0, dptb := 0, priv := .u, bound := true, sender := some (.strand 0), wave := none }
def queued0 (es : Map SendEntry) : State := { State.reset with cores := [(0, { sendq := es })] }

/-- MessagesAndStqsArrive: a message, a handler message and an stq at the head of a send queue. -/
theorem meets_depart : (∀ h ∈ [none, some []], let e : SendEntry := .msg { handler := h }
      let s := queued0 [(0, e)]
      (s.sendq 0).find 0 = some e ∧ sendReady (s.sendq 0) 0 e = true) ∧
    (let s := queued0 [(0, .stq (stq0 0x20F8))]
     (s.sendq 0).find 0 = some (.stq (stq0 0x20F8)) ∧ sendReady (s.sendq 0) 0 (.stq (stq0 0x20F8)) = true) := by decide +kernel

def onNet (m : Msg) (r : Hart) : State := { world.setHart (.strand 0) r with net := [m] }
def toRank : Msg := { rank := some (1, 0) }
def startedWorld (m : Msg) : State := (onNet m member).setCluster 0 { crews := [(0, { crew0 with started := [0] })], tlb := [page2] }

/-- Messages for a context that runs, with and without a handler, and for an idle one; for a rank of a crew that is gone, that has not
started, with room at the front end and without, and that has. -/
theorem meets_arrival : (∀ h ∈ [none, some []], let m : Msg := { handler := h }
      Claim.Arrives (onNet m member) 0 m ∧ m.pkg = none ∧ m.rank = none ∧ ((onNet m member).hart (.strand 0)).run ≠ .idle) ∧
    (let m : Msg := { handler := some [] }
     Claim.Arrives (onNet m {}) 0 m ∧ m.handler.isSome = true ∧ ((onNet m {}).hart (.strand m.target)).run = .idle) ∧
    (let s : State := { State.reset with net := [toRank] }
     Claim.Arrives s 0 toRank ∧ s.crewGone 1 0 = true) ∧
    (let s := onNet toRank member
     Claim.Arrives s 0 toRank ∧ s.crewGone 1 0 = false ∧ s.rankCtx 1 0 toRank.target = none ∧
       (s.heldMsgs.filter fun x => x.rank == toRank.rank).length < 4096) ∧
    (let s : State := { onNet toRank member with heldMsgs := List.replicate 4096 toRank }
     Claim.Arrives s 0 toRank ∧ s.crewGone 1 0 = false ∧ s.rankCtx 1 0 toRank.target = none ∧
       4096 ≤ (s.heldMsgs.filter fun x => x.rank == toRank.rank).length) ∧
    (let s := startedWorld toRank
     Claim.Arrives s 0 toRank ∧ s.crewGone 1 0 = false ∧ s.rankCtx 1 0 toRank.target = some 0 ∧
       (s.heldMsgs.any fun x => x.rank == toRank.rank && x.target == toRank.target) = false ∧ toRank.handler = none) := by
  unfold Claim.Arrives
  decide +kernel

/-- A held message of a rank that has started; a handler for an idle context, and for one that runs. -/
theorem meets_held : (let s : State := { startedWorld toRank with heldMsgs := [toRank] }
     let c : Crew := { crew0 with started := [0] }
     (s.cluster (0 / 8)).crews.find (0 % 8) = some c ∧
       (s.heldMsgs.find? fun m => m.rank == some (c.launch, c.linear) && c.started.contains m.target) = some toRank ∧ c.ctxs[toRank.target]? = some 0 ∧
       toRank.handler = none) ∧
    (∀ r ∈ [Run.idle, .running, .parked .recv], let h : Hart := { member with handlerQueue := [{ handler := some [] }], run := r }
     let s := world.setHart (.strand 0) h
     (s.hart (.strand 0)).handlerQueue = [{ handler := some [] }] ∧ (s.hart (.strand 0)).run = r ∧ r ≠ .stopped ∧
       (s.hart (.strand 0)).handler = none ∧ (s.hart (.strand 0)).tn = false) ∧ MemoryOk world := by
  refine ⟨by decide +kernel, by decide +kernel, ?_⟩
  unfold MemoryOk
  decide +kernel

/-- The cluster translates for arriving stqs. -/
def stqArrives (target : Nat) : State :=
  { world.setCluster 0 { world.cluster 0 with gtlbs := [(6, [page2])] } with stqs := [stq0 target] }
/-- An stq to the last 8 bytes of a line, and one to a page that is absent. -/
theorem meets_stq_arrival : (let s := stqArrives 0x20F8
     let o := stq0 0x20F8
     let t : State := { s with stqs := s.stqs.eraseIdx 0 }
     let w : Origin := { cluster := o.cluster, crew := o.crew, launch := o.launch, dcrew := o.dcrew, dptb := o.dptb }
     let q := w.queued t o.cont
     s.stqs[0]? = some o ∧ Claim.Reaches t o.acc .store (BitVec.ofNat 64 o.target) o.payload.length page2 ∧ s.quantum = [] ∧ o.cont.join = 0 ∧
       s.canStart q.c = true ∧ t.queueRoom (t.contCluster o.cluster q.c) o.cont.cls 1 = true) ∧
    (stqArrives 0x9000).stqs[0]? = some (stq0 0x9000) ∧
    (let t : State := { stqArrives 0x9000 with stqs := (stqArrives 0x9000).stqs.eraseIdx 0 }
     ∃ x u, resolve (stq0 0x9000).acc (BitVec.ofNat 64 (stq0 0x9000).target) (stq0 0x9000).payload.length .store t = .error (.exc x) u) ∧
    (let t : State := { stqArrives 0x20F8 with stqs := (stqArrives 0x20F8).stqs.eraseIdx 0 }
     ∃ x u, stqWork (stq0 0x20F8) t = .ok x u) := by
  refine ⟨?_, by decide +kernel, ?_, ?_⟩
  · unfold Claim.Reaches
    decide +kernel
  · exact exc_exists (by decide +kernel)
  · exact ok_exists (by decide +kernel)

/-! ## Signals, timers, registers written from outside -/

def signal0 : PendSignal := { sem := 0, amount := 4095, after := 0 }
/-- A signal to land on a semaphore that reaches its limit; a timer compare that has passed; a wave of the supervisor, at the last
handler offset. -/
theorem meets_signals : (let s := (State.reset.setWave 0 { lanes4 with signals := [signal0] }).setSem 0 0 { count := 65535 - 4095 }
     s.readySignal 0 = some signal0 ∧ s.quantum = [] ∧ (s.sem (0 / 128) signal0.sem).waiters = [] ∧
       (s.sem (0 / 128) signal0.sem).count + signal0.amount ≤ 65535 ∧ (s.wave 0).lanes ≠ 0) ∧
    (let s := onStrand { runner with dtimecmp := 0, sie := 0x20, run := .parked .wfi }
     (s.hart (.strand 0)).run = .parked .wfi ∧ (s.pending (.strand 0) &&& (s.hart (.strand 0)).sie).getLsbD 5 = true) ∧
    (let s := State.reset.setWave 0 { lanes4 with hart := { runner with priv := .s } }
     (s.wave 0).live = true ∧ (s.wave 0).lhandler = none ∧ (s.wave 0).hart.priv = .s ∧ (12 : Dword).toNat % 12 = 0) := by decide +kernel

/-- A core with no other crew and no other strand, and one whose cluster has a crew; SCR at its limit and above it; CSRs below and at
0xC00; a queue that is on, and off; a register past the device's last; contexts, cores and MSI-X vectors at the ends of their ranges. -/
theorem meets_registers : 1023 < 1024 ∧ State.reset.splitOk 65535 = true ∧ world.splitOk 0 = false ∧ (16 : Dword).toNat % 32 ≤ 16 ∧ 16 < (17 : Dword).toNat % 32 ∧
    (csrLevel (.strand 0) (0x100 : BitVec 12).toNat).isSome = true ∧ (0x100 : BitVec 12).toNat < 0xC00 ∧ HartKind.isEngine (.strand 0) = false ∧
    (Claim.csrWrite runner (0x140 : BitVec 12).toNat 5).isSome = true ∧ (Claim.csrWrite runner (0x003 : BitVec 12).toNat 5).isSome = true ∧
    csrLevel (.strand 0) (0x300 : BitVec 12).toNat = none ∧ 0xC00 ≤ (0xC00 : BitVec 12).toNat ∧
    4095 < 4096 ∧ (State.reset.queue 4095).en = false ∧
    (({ State.reset with queues := [(4095, { en := true })] } : State).queue 4095).en = true ∧ paKind (devBase + 0x50000) ≠ .device ∧ (devBase + 4) % 8 ≠ 0 ∧
    65535 < 65536 ∧ (dstrandOf 65535).toNat % 2 ^ 18 = (dstrandOf 65535).toNat ∧ 2 ≤ (2 : Dword).toNat % 16 ∧ ¬2 ≤ (1 : Dword).toNat % 16 ∧ 8191 < 8192 := by decide +kernel

/-! ## Launches -/

def kernelOne : Kernel := { strands := 1 }
def imgOne : Image := { roles := [0], kernels := [kernelOne], strandCode := [{ role := 0, va := 0x1000, pa := 0x1000, size := 4096 }] }
/-- Queue 4095 with records up to `tail`, the first of them with this JOIN, and the front end's translation of the page at 0x2000. -/
def queueWorld (tail image join : Nat) : State :=
  { (State.reset.poke 0x5000 (leBytes 4 image)).poke 0x5020 (leBytes 8 join) with
    images := [(1, imgOne)]
    queues := [(4095, { en := true, base := 0x5000, tail := tail })]
    clusters := [(0, { gtlbs := [(5, [page2])] })] }

theorem ready (image join : Nat) (h : (queueWorld 1 image join).poisoned 0x5000 128 = false) : Claim.RecordReady (queueWorld 1 image join) 4095 0 0x5000 :=
  { queue := by decide +kernel, en := rfl, blocked := rfl, current := rfl, tail := (by decide : (1 + 2 ^ 32 - 0) % 2 ^ 32 ≤ 2 ^ 4), waits := (by decide : (1 + 2 ^ 32 - 0) % 2 ^ 32 ≠ 0),
    most := (by decide : (1 + 2 ^ 32 - 0) % 2 ^ 32 ≤ 2 ^ 4), isNext := rfl, isAddr := rfl, host := rfl, place := by decide +kernel, clean := h,
    up := fun h => nomatch h }

/-- LaunchesCrewsAndUnits: a record taken, without and with a JOIN; one refused; a TAIL one too far. -/
theorem meets_records : Claim.RecordReady (queueWorld 1 1 0) 4095 0 0x5000 ∧
    (((queueWorld 1 1 0).launchOf 4095 0 0x5000 ((queueWorld 1 1 0).peek 0x5000 128)).map (·.join)) = some 0 ∧
    Claim.RecordReady (queueWorld 1 1 0x20E0) 4095 0 0x5000 ∧
    (((queueWorld 1 1 0x20E0).launchOf 4095 0 0x5000 ((queueWorld 1 1 0x20E0).peek 0x5000 128)).map (·.join)) = some 0x20E0 ∧
    (let r := Claim.recordTaken (queueWorld 1 1 0x20E0) 4095 0
     ∃ old u, vrmw r.accFrontEnd 0x20E0 8 (fun v => some ((v + 1) % 2 ^ 64)) r = .ok old u) ∧
    Claim.RecordReady (queueWorld 1 2 0) 4095 0 0x5000 ∧
    ((queueWorld 1 2 0).launchOf 4095 0 0x5000 ((queueWorld 1 2 0).peek 0x5000 128)).isNone = true ∧
    2 ^ ((queueWorld 17 1 0).queue 4095).logn < (((queueWorld 17 1 0).queue 4095).tail + 2 ^ 32 - ((queueWorld 17 1 0).queue 4095).head) % 2 ^ 32 := by
  refine ⟨ready _ _ (by decide +kernel), by decide +kernel, ready _ _ (by decide +kernel), by decide +kernel, ?_, ready _ _ (by decide +kernel), by decide +kernel,
    by decide +kernel⟩
  exact ok_exists (by decide +kernel)

def launchOne : Launch := { launch0 with kernel := kernelOne, img := imgOne, cls := 3, next := 0, alive := 0, gx := 2, migblk := 0 }
def expandWorld (again : List Nat) : State :=
  { State.reset with
    launches := [(1, { launchOne with again := again })]
    queues := [(0, { en := true, current := some 1 })] }
/-- A crew to expand, and one to expand again. -/
theorem meets_expand : ∀ a ∈ [[], [0]], (((expandWorld a).chooseQueue.map (·.1)) = some 0 ∧ (((expandWorld a).queueWork 0).map (·.1)) = some 1) := by decide +kernel

def admWorld (r : CrewReq) (since : Nat) : State :=
  { State.reset with
    clk := 262144
    launches := [(1, launchOne)]
    clusters := [(127, { adm := [(3, [{ r with since := since }])] })]
    saved := [(0x10000, { ref := ref0, crew := crew0, waves := [], strands := [], sems := [], conts := [], gathers := [], matrix := none, banks := [],
                          bankBytes := [], sillage := none, bloom := [] })] }
def req0 : CrewReq := { launch := 1, linear := 0, since := 0 }
/-- A head of class 3 at the age limit; one to admit, new and resumed. -/
theorem meets_admission : (admWorld req0 0).agedHead 127 = some 3 ∧ (admWorld req0 0).blockingHead 127 = some 3 ∧
    ∀ r ∈ [req0, { req0 with save := some 0x10000 }], let s := admWorld r 1
      (∀ k ∈ [0, 1, 2], s.admissible 127 k = none) ∧ ((s.admissible 127 3).map fun e => (e.1.save, s.shapesPoisoned e.2.1)) = some (r.save, false) ∧
        (s.saved.find 0x10000).isSome = true := by decide +kernel

/-! ## Units that start -/

def withCrew (c : Crew) (l : Launch) : State := { world.setCluster 0 { world.cluster 0 with crews := [(7, c)] } with launches := [(1, l)] }
def ref7 : CrewRef := { cluster := 0, slot := 7, gen := 0 }
def twoStrands : Kernel := { kernel0 with role := 0, strands := 2 }

/-- The front end starts the last wave, and the last strand, of a crew. -/
theorem meets_starts :
    (let l := { launch0 with kernel := { kernel0 with waves := 2 } }
     let c := { crew0 with toStart := 1, waveSlots := [3, 15] }
     Claim.StartDue (withCrew c l) 7 1 ref7 c l ∧ l.waveRole = true ∧ c.waveSlots[1]? = some 15) ∧
    (let l := { launch0 with kernel := twoStrands, stackSize := 4096 }
     let c := { crew0 with toStart := 1, ctxs := [0, 511] }
     Claim.StartDue (withCrew c l) 7 1 ref7 c l ∧ l.waveRole = false ∧ c.ctxs[1]? = some 511) := by
  refine ⟨⟨⟨?_, ?_, ?_, ?_, ?_⟩, ?_, ?_⟩, ⟨⟨?_, ?_, ?_, ?_, ?_⟩, ?_, ?_⟩⟩ <;> decide +kernel

def waiting (w3 : Nat) : QCont := { c := { w0 := 0x1000, w1 := 0x2200, w2 := 0x20E0, w3 := BitVec.ofNat 64 (4 + w3) }, launch := 1, since := 0 }
def contWorld (q : QCont) : State := world.setCluster 0 { world.cluster 0 with conts := [(1, [q])] }
/-- A continuation of class 1 for a context of its crew, without and with registers, and for a wave slot. -/
theorem meets_pop : (∀ w3 ∈ [2 ^ 17, 2 ^ 17 + 2 ^ 18], let q := waiting w3
      let s := contWorld q
      (s.hart (.strand (0 * 512 + 0 * 8 + 0))).run = .idle ∧ s.nextCont 0 (s.runsOnContext (0 * 512 + 0 * 8 + 0)) = some q ∧
        s.launches.find q.launch = some launch0 ∧ q.c.bound = true ∧ s.crewOf q.c.ref = some crew0 ∧ q.gfx = none ∧
        q.c.regs = decide (w3 ≠ 2 ^ 17)) ∧
    (let q := waiting (2 ^ 17 + 2 ^ 18)
     ∃ bs u, takeBlock (.strand 0) q.c.ref (addr48 q.c.frame) ((contWorld q).popCont 0 q) = .ok bs u) ∧
    (let q := waiting 2
     let s := contWorld q
     (s.wave (0 * 128 + 0 * 16 + 0)).live = false ∧ s.nextCont 0 (s.runsOnWave (0 * 128 + 0 * 16 + 0)) = some q ∧ s.crewOf q.c.ref = some crew0 ∧
       s.launches.find q.launch = some launch0 ∧ q.gfx = none) := by
  refine ⟨by decide +kernel, ?_, by decide +kernel⟩
  exact ok_exists (by decide +kernel)

def gather (target n : Nat) (op : Bool) : Gather :=
  { crew := ref0, target := target, arrivals := List.replicate n (waiting 1), isOpen := op, since := 0 }
def atomWorld (gs : List Gather) : State := world.setCluster 0 { world.cluster 0 with atomiser := [waiting 1], gathers := gs }
/-- The 64th arrival of a gather; an arrival that opens one; one that finds 64 of them; a gather to form a wave. -/
theorem meets_atomiser :
    (let s := atomWorld [gather 0x1000 64 false, gather 0x1000 63 true]
     let mine (g : Gather) : Bool := g.crew == (waiting 1).c.ref && g.target == (addr48 (waiting 1).c.code).toNat && decide (g.arrivals.length < 64)
     (s.cluster 0).atomiser = [waiting 1] ∧ (s.cluster 0).gathers = [gather 0x1000 64 false] ++ gather 0x1000 63 true :: [] ∧
       mine (gather 0x1000 64 false) = false ∧ mine (gather 0x1000 63 true) = true ∧
       ((atomWorld []).cluster 0).gathers.any mine = false ∧ ((atomWorld []).cluster 0).gathers.length < 64 ∧
       (let gs := gather 0x100C 1 false :: List.replicate 63 (gather 0x100C 1 true)
        ((atomWorld gs).cluster 0).gathers.any mine = false ∧ 64 ≤ ((atomWorld gs).cluster 0).gathers.length ∧
          ((atomWorld gs).cluster 0).gathers = [gather 0x100C 1 false] ++ gather 0x100C 1 true :: List.replicate 62 (gather 0x100C 1 true))) ∧
    (let s := atomWorld [gather 0x4000 64 false]
     (s.cluster 0).gathers[0]? = some (gather 0x4000 64 false) ∧ s.crewOf ref0 = some crew0 ∧ s.launches.find crew0.launch = some launch0 ∧
       crew0.preempt = false ∧ s.freeWaveSlot crew0 launch0 0 = some 0 ∧ (waiting 1).c.regs = false ∧ (waiting 1).gfx = none) := by decide +kernel

/-- A fragment and a current wave at their limits; a migration that gets its two blocks of two. -/
theorem meets_limits : (let f : Group := { mask := 1, pc := 24 }
     let s : State := { State.reset.setWave 0 { lanes4 with frags := [f] } with clk := 1024 }
     (s.wave 0).frags = [f] ∧ f.since + 1024 ≤ s.clk ∧ (s.wave 0).trap.act = false ∧ (s.wave 0).lhandler = none) ∧
    (let s : State := { State.reset with
       clk := 1024
       wengines := [(1023, { current := some 15 })] }
     (s.wengine 1023).current = some 15 ∧ (s.wengine 1023).roundRobin = false ∧ (s.wengine 1023).currentSince + 1024 ≤ s.clk) ∧
    (let w : Waiter := .hart (.strand 0) 2
     let c := { crew0 with blockWait := [w] }
     let s := withCrew c launch0
     s.crewAt 7 = some (ref7, c) ∧ w.amount + (c.blockGrant.map Waiter.amount).sum ≤ s.blockCount c - c.blocks.length) := by decide +kernel

/-! ## Crews that end and move -/

/-- The crew with all its units ended, its launch with this JOIN. -/
def endWorld (join : Dword) : State :=
  { world.setCluster 0 { world.cluster 0 with gtlbs := [(5, [page2])] } with launches := [(1, { launch0 with join := join })] }
def endOrigin (s : State) : Origin := { cluster := 0, crew := none, launch := crew0.launch, dcrew := crew0.dcrew 0, dptb := s.accFrontEnd.dptb }
def endedCrew (s : State) : State := ((s.lapseDeferred ref0 fun _ => true).releaseCrew ref0).endRequest ref0

/-- A crew to end, with no JOIN, with one that is reached and with one that is not. -/
theorem meets_crew_end : (∀ join ∈ [0, 0x20E0, 0x9000], let s := endWorld (BitVec.ofNat 64 join)
      s.crewAt 0 = some (ref0, crew0) ∧ s.unitsEnded ref0 crew0 = true ∧ s.crewQueued ref0 = false ∧ crew0.blocks = [] ∧
        ((s.launches.find crew0.launch).map (·.join)) = some (BitVec.ofNat 64 join)) ∧
    (∃ x u, joinSub (endWorld 0x20E0).accFrontEnd (endOrigin (endWorld 0x20E0)) 0x20E0 (endedCrew (endWorld 0x20E0)) = .ok x u) ∧
    ∃ e u, joinSub (endWorld 0x9000).accFrontEnd (endOrigin (endWorld 0x9000)) 0x9000 (endedCrew (endWorld 0x9000)) = .error (.exc e) u :=
  ⟨by decide +kernel, ok_exists (by decide +kernel), exc_exists (by decide +kernel)⟩

/-- PREEMPT written during a request; without REQ; with REQ for a crew, for none and for one of class 0; its deadline. -/
theorem meets_preempt : 127 < 128 ∧ MemoryOk world ∧
    ((State.reset.setCluster 127 { preReq := true }).cluster 127).preReq = true ∧ (State.reset.cluster 127).preReq = false ∧
    (7 : Dword).getLsbD 3 = false ∧ (8 : Dword).getLsbD 3 = true ∧ (world.cluster 0).crews.find ((8 : Dword).toNat % 8) = some crew0 ∧ crew0.cls ≠ 0 ∧
    (world.cluster 0).crews.find ((15 : Dword).toNat % 8) = none ∧
    (((world.setCluster 0 { crews := [(7, { crew0 with cls := 0 })] }).cluster 0).crews.find 7).map (·.cls) = some 0 ∧
    (let s : State := { State.reset.setCluster 127 { preReq := true } with clk := 420000 }
     (s.cluster 127).preReq = true ∧ (s.cluster 127).preClk + 420000 ≤ s.clk) ∧
    world.crewAt 0 = some (ref0, crew0) ∧ world.launches.find crew0.launch = some launch0 := by
  refine ⟨by decide +kernel, ?_, by decide +kernel⟩
  unfold MemoryOk
  decide +kernel

/-- A crew named by PREEMPT whose units have stopped. -/
def stoppedCrew : Crew := { crew0 with preempt := true }
def stoppedWorld : State := { world with clusters := [(0, { crews := [(0, stoppedCrew)], preReq := true, preSave := 0x10000 })] }
def savedCrew : SavedCrew :=
  { ref := ref0, crew := crew0, waves := [], strands := [], sems := [], conts := [], gathers := [], matrix := none, banks := [], bankBytes := [],
    sillage := none, bloom := [] }
def savedWorld (n : Nat) (adm : List CrewReq) : State :=
  { world.poke 0x10000 [BitVec.ofNat 8 n] with
    saved := [(0x10000, savedCrew)]
    clusters := (List.range 128).map fun c => (c, { adm := [(1, adm)] }) }
/-- A crew to save; a resume that is refused, one that is queued and one that waits for room. -/
theorem meets_save : (stoppedWorld.crewAt 0 = some (ref0, stoppedCrew) ∧ stoppedCrew.preempt = true ∧ (stoppedWorld.cluster 0).preReq = true ∧
      (stoppedWorld.cluster 0).preSlot = ref0.slot ∧ stoppedWorld.crewStopped ref0 stoppedCrew = true) ∧
    natOfBytes ((savedWorld 3 []).peek 0x10000 4) ≠ 1 ∧
    ∀ p ∈ [([], true), (List.replicate 64 req0, false)], let s := savedWorld 1 p.1
      let v : Dword := 0x10000
      v &&& ~~~0xFFFFFFFFFF00#64 = 0 ∧ (s.clusters.any fun e => e.2.adm.any fun q => q.2.any fun r => r.save == some v.toNat) = false ∧
        natOfBytes (s.peek v.toNat 4) = 1 ∧ s.saved.find v.toNat = some savedCrew ∧ s.launches.find savedCrew.crew.launch = some launch0 ∧
        s.admRoom (s.placeCrew { launch0 with place := false }) launch0.cls = p.2 ∧ s.resumes.contains v = false := by decide +kernel

/-! ## The management core -/

/-- The cells of some bytes from an address on. -/
def cellsAt (pa : Nat) (bs : List Byte) : List Host.Cell :=
  match bs with
  | [] => []
  | b :: t => if b = 0 then cellsAt (pa + 1) t else (pa, b) :: cellsAt (pa + 1) t

/-- An image of one strand role with one instruction and one kernel, signed with a key whose private half nobody knows: r and s are the digest, and the
public point is the one of that abscissa less the base point. -/
def image0 : List Byte :=
  leBytes 64 0x40000000000000000600000000000001d8000000014b594c50 ++
    leBytes 64 0x80000000000000040000000000000012000000000ffff000700000000000000080000000000000020000000000000010000000000ffff0006 ++
    leBytes 64 0x80000000000000004000000000000016800000000ffff000b00000000000000080000000000000008000000000000016000000000ffff000a ++
    leBytes 64 0x80000000000000068000000000000017000000000ffff000f00000000000000080000000000000004000000000000016c0000000000000001 ++
    leBytes 64 0x1000000000000000000000000000000000000000000000000000000006e69616d ++
    leBytes 64 0xec52104dbe5316220000000000000000000000130000000000000000000000000000000000000000000000010001000100010000000000010001000000000000 ++
    leBytes 64 0xc276bc2cc19d64a71b9779340d054e81ec52104dbe531622f8b55dc86e899aed2936ec3afcc5f005f79fd7f282ad8cf1c276bc2cc19d64a71b9779340d054e81 ++
    leBytes 24 0xf8b55dc86e899aed2936ec3afcc5f005f79fd7f282ad8cf1

/-- Its public key, as a package holds it. -/
def key0 : List Byte :=
  leBytes 64 0xcaae2c78ca8db0bca9004b01db54e71b67a9567d67fe4b4ecabb9ddd7a63e5856a5853d01024ef7440ba5c9e248f0b80eed6fde4cc092300406689182a34ace6 ++
    leBytes 32 0xb77697930c4c613575f885d7197e0e980da002f0fa991bd6247e250daf2d64be

/-- A request under way at 0x8000: to load the image at 0x9000 to 0x20000, or to unload image 1. -/
def request (op room : Nat) : List Byte :=
  leBytes 8 (op + 65536) ++ leBytes 8 0x9000 ++ leBytes 8 0x20000 ++ leBytes 8 room ++ leBytes 8 0x100000 ++ List.replicate 24 0
def loadWorld (up : Option Bool) (r : List Byte) (bs : List Byte) : State :=
  { State.reset with
    up := up
    ldReq := 0x8000
    ldBusy := true
    mem := cellsAt 0x8000 r ++ cellsAt 0x9000 bs
    images := [(1, imgOne)]
    config := (7, 1) :: ((List.range 96).map (0xE0 + ·)).zip key0 }

/-- SHA-384 of "abc", the known answer of FIPS 180. -/
theorem test_sha384 : sha384 [0x61, 0x62, 0x63] =
    beBytes 48 0xcb00753f45a35e8bb5a03d699ac65007272c32ab0eded1631a8b605a43ff5bed8086072ba1e7cc2358baeca134c825a7 := by decide +kernel

/-- The image is accepted: its signature holds. -/
theorem test_image_accepted : (loadWorld none [] []).imageRefusal image0 = 0 := by decide +kernel

/-- The bytes that the loader reads are the image. -/
theorem image_read : let s := loadWorld none (request 0 0x1000) image0
    s.loadRequest = request 0 0x1000 ∧ s.peek 0x9000 (max 64 (if le (s.peek 0x9000 64) 0 4 = 0x4B594C50 then le (s.peek 0x9000 64) 8 8 else 0)) = image0 := by
  decide +kernel

/-- A load that succeeds in a region that holds it, and one too large for its region; one in the management-only state; one of no image; a
request with a reserved byte set. -/
theorem meets_load : (∀ room ∈ [0x1000, 0x10], let r := request 0 room
      let offs := placeSections 0 (directoryOf image0)
      le r 0 1 ≠ 1 ∧ requestBad r = false ∧ decide (offs.getD (directoryOf image0).length 0 ≤ le r 0x18 8) = decide (room = 0x1000)) ∧
    (loadWorld (some false) (request 0 0) []).up = some false ∧ (loadWorld none (request 0 0) []).up ≠ some false ∧
    requestBad (request 2 0) = true ∧ (loadWorld none [] []).imageRefusal [] ≠ 0 := by decide +kernel

/-- An unload of an image that is loaded, of none, and with a reserved byte set; power-on. -/
theorem meets_unload : (let s := loadWorld none (request 1 0) []
     le s.loadRequest 0 1 = 1 ∧ s.images.find (le s.loadRequest 2 2) = some imgOne ∧ imgOne.loaded = true ∧ requestBad s.loadRequest = false) ∧
    ({ loadWorld none (request 1 0) [] with images := [] } : State).images.find 1 = none ∧ requestBad ((request 1 0).set 4 1) = true ∧
    State.reset.up = none := by decide +kernel

/-! ## Special functions and the matrix engine on their own -/

def ranks2 : Launch := { launch0 with kernel := { kernel0 with waves := 2 } }
def crewMat : Crew := { crew0 with partition := BitVec.ofNat 32 (2 ^ 14 + 2 ^ 7 + 64 * 2 ^ 21) }
/-- A 64 KiB page at 0x10000. -/
def page64 : TlbEntry := { asid := 0, va := 0x10000, size := 65536, pte := 0x400DF, line := 0 }
def kickOf (crew : Option CrewRef) : Kick := { kick0 with crew := crew }
def matState (cmds : List MatCmd) (m : MatCrew) : State :=
  { world with
    launches := [(1, ranks2)]
    clusters := [(0, { crews := [(0, crewMat)], matrix := { slots := [(0, m)], cmds := cmds } })]
    engines := [(4, { running := some (kickOf (some ref0)), tlb := [page64] })] }
def mldCmd (n cls mac : Nat) (started : Bool) : MatCmd :=
  { n := n, entry := n, crew := ref0, cls := cls, macs := [mac], op := .mld 0 0x10000 true 0, started := started }

/-- UnitsWorkOnTheirOwn: the result of a token whose mask has the last lane. -/
def sfxDue : Wave := { lanes4 with lanes := allLanes, sfx := [(63, { fn := 0, ty := 11, vd := 255, mask := 1 <<< 63, src := Vector.replicate 64 0 })] }
theorem meets_sfx_result : let s := State.reset.setWave 0 sfxDue
    ((s.wave 0).sfx.find 63).isSome = true ∧ (s.wave 0).lanes ≠ 0 ∧ (s.wave 0).lhandler = none := by decide +kernel

/-- A load of the last macro to start, one of class 0 beside it, one behind an earlier load of its macro. -/
theorem meets_mld_start :
    (let s := matState [mldCmd 0 1 31 false] (mat0 0)
     s.cmd 0 0 = some (mldCmd 0 1 31 false) ∧ (s.cluster 0).matrix.mldFree (mldCmd 0 1 31 false) = true ∧
       (s.cluster 0).matrix.cmds.all (fun y => !(y.cls == 0 && (s.cluster 0).matrix.mldFree y)) = true) ∧
    (let s := matState [mldCmd 0 1 31 false, mldCmd 1 0 30 false] (mat0 0)
     s.cmd 0 1 = some (mldCmd 1 0 30 false) ∧ (s.cluster 0).matrix.mldFree (mldCmd 1 0 30 false) = true) ∧
    (let s := matState [mldCmd 0 1 31 true, mldCmd 1 1 31 false] (mat0 0)
     s.cmd 0 1 = some (mldCmd 1 1 31 false) ∧ (s.cluster 0).matrix.mldFree (mldCmd 1 1 31 false) = false) := by decide +kernel

/-- A tile that is read, without scale words and with those after it; one on an absent page. -/
theorem meets_mld_complete : (let x := mldCmd 0 1 31 true
     let s := matState [x] (mat0 0)
     s.cmd 0 0 = some x ∧ x.started = true ∧ x.fault = none) ∧
    (∃ bs u, readTile (matAcc ref0 0) 0x10000 (formCols 0 * formCb 0) 200 (matState [mldCmd 0 1 31 true] (mat0 0)) = .ok bs u) ∧
    (∃ bs u, readTile (matAcc ref0 0) (0x10000 + formCols 0 * formCb 0) (16 * formCols 0) 200 (matState [mldCmd 0 1 31 true] (mat0 0)) = .ok bs u) ∧
    ∃ e u, readTile (matAcc ref0 0) 0x30000 (formCols 0 * formCb 0) 200 (matState [mldCmd 0 1 31 true] (mat0 0)) = .error (.exc e) u :=
  ⟨by decide +kernel, ok_exists (by decide +kernel), ok_exists (by decide +kernel), exc_exists (by decide +kernel)⟩

/-- A command of one row of ring 1, macro 0, and the members' arrivals with `act` lanes each. -/
def fmt1 : Word := 0x00800010
def arrivals2 (act : Nat × Nat) : List MmaArrival :=
  let a (rank act : Nat) : MmaArrival :=
    { wave := rank, rank := rank, lane := 0, pc := 24, act := BitVec.ofNat 64 act, vals := if act = 0 then [] else [(0, fmt1, 0)] }
  [a 0 act.1, a 1 act.2]
def latchState (act : Nat × Nat) (cmds : List MatCmd) : State := matState cmds { mat0 0 with arrivals := arrivals2 act }
def full : List MatCmd := (List.range 7).map fun n => mldCmd n 1 n false

/-- The latch: a check that fails, no active lane, a full queue, a free entry. -/
theorem meets_latch : ∀ p ∈ [((1, 0), [], some (12, 2), some 0), ((0, 0), [], none, some 0), ((1, 1), full, none, none), ((1, 1), [], none, some 0)],
    let s := latchState p.1 p.2.1
    s.crewAt 0 = some (ref0, crewMat) ∧ (s.matCrew 0 0).heads = (arrivals2 p.1).map some ∧ arrivals2 p.1 ≠ [] ∧
      (∀ a ∈ arrivals2 p.1, (s.wave a.wave).accesses = []) ∧ s.quantum = [] ∧
      latchCheck (s.matCrew 0 0) (crewMat.accRows (s.kernelOf crewMat).waves) (arrivals2 p.1) = p.2.2.1 ∧
      (s.cluster 0).matrix.freeEntry crewMat.cls = p.2.2.2 := by decide +kernel

def mmaCmd (started : Bool) (fault : Option (Nat × Dword)) : MatCmd :=
  { n := 5, entry := 5, crew := ref0, cls := 1, macs := [0], op := .mma fmt1 [(0, 0), (1, 0)], started := started, fault := fault,
    outs := if started then [{ key := 0x8000, c0 := 0, blks := [] }] else [] }
/-- A command whose ring has no stage filled, and one that has; a running one; one whose operand fetch met a fault. -/
theorem meets_mma_runs : (∀ n ∈ [0, 1], let s := matState [mmaCmd false none] (mat0 n)
      (s.cluster 0).matrix.nextMma = some (mmaCmd false none) ∧ s.crewOf ref0 = some crewMat ∧
        decide (((s.matCrew 0 0).ring (Mma.ring fmt1)).filled = ((s.matCrew 0 0).ring (Mma.ring fmt1)).consumed) = decide (n = 0) ∧
        (Mma.swap fmt1 && (s.cluster 0).matrix.cmds.any fun y => y.op.isMld && decide (y.n < 5) && y.meets (mmaCmd false none)) = false) ∧
    (let s := matState [mmaCmd true none] (mat0 0)
     ((s.cluster 0).matrix.cmds.find? fun x => !x.op.isMld && x.started && x.fault.isNone) = some (mmaCmd true none)) ∧
    (let x := mmaCmd true (some (8, 0x2000))
     let s := matState [x] (mat0 0)
     ((s.cluster 0).matrix.cmds.find? fun x => x.crew.slot == 0 % 8 && x.fault == some (8, 0x2000)) = some x ∧ s.crewOf x.crew = some crewMat ∧
       s.launches.find crewMat.launch = some ranks2) := by decide +kernel

/-- The sequencer of a crew with nothing queued: a gang that R338 accepts, one that it refuses, the last ring. -/
theorem meets_matrix_writes : let s := matState [] {}
    s.sequencer 0 = true ∧ (s.engine (0 * 7 + 4)).crew = some ref0 ∧ s.crewOf ref0 = some crewMat ∧ s.matBusy ref0 = false ∧ gang0.getLsbD 63 = true ∧
      Gang.ok gang0 (s.kernelOf crewMat).waves = true ∧ s.windowTaken 0 0 gang0 = false ∧ (0x8000000000000000 : Dword).getLsbD 63 = true ∧
      Gang.ok 0x8000000000000000 (s.kernelOf crewMat).waves = false ∧ 3 < 4 ∧
      (let v : Dword := BitVec.ofNat 64 (2 ^ 63 + 2 ^ 45 + 2 ^ 32)
       v.getLsbD 63 = true ∧ ({ desc := v } : Ring).size ≠ 0 ∧
         ({ desc := v } : Ring).base + ({ desc := v } : Ring).stages * ({ desc := v } : Ring).size ≤ crewMat.scr * 16384) := by decide +kernel

/-! ## Kicks and the copy channels -/

def kickWorld (arg launch : Nat) : State :=
  { (world.poke 0x5010 (leBytes 4 4092)) with
    engines := [(6, { queue := [{ kick0 with arg := BitVec.ofNat 64 arg, launch := launch, crew := some ref0 }], tlb := [page2] })] }
def waitingKick (arg launch : Nat) : Kick := { kick0 with arg := BitVec.ofNat 64 arg, launch := launch, crew := some ref0 }
def engineImg : Image := { img0 with engineCode := [{ role := 2, va := 0x6000, pa := 0x6000, size := 4096 }] }
def kickSection : Section := { role := 2, va := 0x6000, pa := 0x6000, size := 4096 }

/-- A kick that starts on the last unit of a cluster, at the last instruction of its section; one of a launch without a placement. -/
theorem meets_kick_start : Claim.KickReady (kickWorld 0x2010 1) 6 (waitingKick 0x2010 1) [] page2 kickSection 4092 ∧
    (((kickWorld 0x2010 2).engine 6).running = none ∧ ((kickWorld 0x2010 2).engine 6).queue = waitingKick 0x2010 2 :: [] ∧
      ∃ e u, kickEntry 6 (waitingKick 0x2010 2) (Claim.kickTaken (kickWorld 0x2010 2) 6 (waitingKick 0x2010 2) []) = .error (.exc e) u) := by
  refine ⟨⟨by decide +kernel, by decide +kernel, ⟨2, by decide +kernel, by decide +kernel⟩, by decide +kernel, ?_, by decide +kernel, by decide +kernel,
    by decide +kernel, by decide +kernel⟩, by decide +kernel, by decide +kernel, exc_exists (by decide +kernel)⟩
  unfold Claim.Reaches
  decide +kernel

/-- A descriptor: OP, TYPE, STYPE, RM and ESZ in `w`, SRC, DST, LEN, IDX, WPADDR and SRCLEN. -/
def descOf (w src dst len idx wp srclen : Nat) : List Byte :=
  leBytes 8 w ++ leBytes 8 src ++ leBytes 8 dst ++ leBytes 8 len ++ leBytes 8 idx ++ leBytes 8 wp ++ leBytes 8 srclen ++ leBytes 8 0
def opWord (op : Nat) : Nat := op + 2 * 2 ^ 32 + (if op = 3 then 3 * 2 ^ 8 + 4 * 2 ^ 16 else 0)
/-- A part of each operation on the page at 0x2000: sources from 0x2000, destinations at 0x2400, an index at 0x2600. -/
def jobOf (op : Nat) : CopyJob := { desc := descOf (opWord op) 0x2000 0x2400 8 0x2600 0 64 }
def copyWorld (e : Engine) : State :=
  { world.poke 0x5000 (descOf (opWord 0) 0x2100 0x2400 8 0 0 0 ++ descOf (opWord 7) 0 0 0 0 0 0) with
    engines := [(3, { e with running := some (kickOf (some ref0)), tlb := [page2] })] }

/-- A channel opens a descriptor, and refuses one. -/
theorem meets_copy_open : ∀ p ∈ [(0x2000, 0, false), (0x2040, 7, true)], let s := copyWorld { ops := [BitVec.ofNat 64 p.1] }
    Claim.ChannelRuns s 3 ∧ (s.engine 3).copy = none ∧ (s.engine 3).ops = BitVec.ofNat 64 p.1 :: [] ∧
      okWith (vread (s.copyAcc 3) (BitVec.ofNat 64 p.1) 1 s) (fun b _ => decide (natOfBytes b = p.2.1)) = true ∧
      okWith (vread (s.copyAcc 3) (BitVec.ofNat 64 p.1) 64 s) (fun bs _ => decide (({ desc := bs } : CopyJob).refused = p.2.2)) = true := by
  unfold Claim.ChannelRuns
  decide +kernel

def jobWorld (j : CopyJob) : State := copyWorld { ops := [0x2000], copy := some j }
/-- A part that each operation moves, and one that meets a fault; a line of P and an end of the operation. -/
theorem meets_copy_parts : (∀ op ∈ [0, 1, 2, 3, 5], let j := jobOf op
      let s := jobWorld j
      (s.engine 3).copy = some j ∧ j.op = op ∧ (op = 2 ∨ j.lineP ≤ j.acct) ∧ j.moved < j.total ∧ j.wpaddr = 0) ∧
    (okWith (moveStep 3 (jobOf 0) (jobWorld (jobOf 0))) fun _ _ => true) = true ∧ (okWith (gatherStep 3 (jobOf 1) (jobWorld (jobOf 1))) fun _ _ => true) = true ∧
    (okWith (scatterStep 3 (jobOf 2) (jobWorld (jobOf 2))) fun _ _ => true) = true ∧
    (okWith (convertStep 3 (jobOf 3) (jobWorld (jobOf 3))) fun _ _ => true) = true ∧
    (okWith (deltaStep 3 (jobOf 4) (jobWorld (jobOf 4))) fun _ _ => true) = true ∧ (okWith (rleStep 3 (jobOf 5) (jobWorld (jobOf 5))) fun _ _ => true) = true ∧
    (let j : CopyJob := { desc := descOf (opWord 0) 0x9000 0x2400 8 0 0 0 }
     isExc (moveStep 3 j (jobWorld j)) = true) ∧
    (let j : CopyJob := { desc := descOf (opWord 0) 0x2000 0x2400 512 0 0 0, moved := 256 }
     j.acct < j.lineP ∧ j.wpaddr = 0) ∧
    (let j : CopyJob := { desc := descOf (opWord 0) 0x2000 0x2400 8 0 0 0, moved := 8 }
     j.lineP ≤ j.acct ∧ j.total ≤ j.moved ∧ j.wpaddr = 0) := by decide +kernel

/-- DELTA has elements to move whatever the number of channels. -/
theorem meets_delta : let j := jobOf 4
    j.op = 4 ∧ j.lineP ≤ j.acct ∧ j.moved < j.total := by
  refine ⟨by decide +kernel, ?_, ?_⟩
  · have h : (jobOf 4).lineP = 0 := by decide +kernel
    exact Nat.le_of_eq h
  · have h : (jobOf 4).total = (jobOf 4).len * 64 * (jobOf 4).chans := by rw [CopyJob.total, if_pos (by decide +kernel)]
    have hl : (jobOf 4).len = 8 := by decide +kernel
    have hm : (jobOf 4).moved = 0 := rfl
    rw [hm, h, hl, CopyJob.chans]
    omega

/-! ## Sillage and Bloom on their own -/

def silProgram : List Word := [0x00000000, 0x00000027, 0x0000010D]
def silBytes (ws : List Word) : List Byte := leBytes 8 ws.length ++ ws.flatMap fun w => leBytes 4 w.toNat
/-- Sillage of cluster 0 runs a kick of the crew: a program at 0x2000, a request of one tile at 0x2040, one that is misaligned. -/
def silWorld (ws : List Word) : State :=
  { (world.poke 0x5000 (silBytes ws)).poke 0x5040 (leBytes 8 0 ++ leBytes 2 1 ++ leBytes 2 1 ++ leBytes 4 0 ++ leBytes 16 0 ++ leBytes 8 0x2100 ++ leBytes 8 0x2800 ++
      leBytes 4 128 ++ leBytes 4 128 ++ leBytes 8 0) with
    engines := [(5, { running := some (kickOf (some ref0)), tlb := [page2] })]
    clusters := [(0, { crews := [(0, crew0)], sillage := [(0, { prog := silProgram, pv := true })] })] }

theorem meets_sillage : ((silWorld silProgram).engine (0 * 7 + 5)).running.isSome = true ∧ (0x2000 : Dword).toNat % 8 = 0 ∧ (0x2004 : Dword).toNat % 8 ≠ 0 ∧
    (∀ p ∈ [(silProgram, none), ([0x0000000E], some (1, 2))], let s := silWorld p.1
      okWith (vread (s.accOf (.engine 5)) 0x2000 8 s) (fun head u => decide (1 ≤ (head.headD 0).toNat ∧ (head.headD 0).toNat ≤ 32 ∧ (head.drop 1).all (· == 0) = true) &&
        okWith (vread (s.accOf (.engine 5)) 0x2008 (4 * (head.headD 0).toNat) u) fun ws _ =>
          decide (Mask.check [] 1 (wordsOf ws (head.headD 0).toNat) = p.2)) = true) ∧
    (∃ x t, silAll 5 0x2040 4200 (silWorld silProgram) = .ok x t) ∧ ∃ e t, silAll 5 0x2050 4200 (silWorld silProgram) = .error (.exc e) t :=
  ⟨by decide +kernel, by decide +kernel, by decide +kernel, by decide +kernel, ok_exists (by decide +kernel), exc_exists (by decide +kernel)⟩

def spikeBank (plain : Bool) : BloomBank :=
  { crew := ref0, launch := 1, dcrew := 0, dptb := 0, rank := 0, plain := plain, vrow := 0, arow := 1, ncount := 1, leak := 0x3F800000, theta := 0x3F800000,
    vreset := 0, refr := 0, reset := 0, fire := 0, ch := 0, target := 0, td := 0, h := 0 }
/-- Bloom of cluster 0 runs a kick of the crew: a descriptor at 0x2000 with its dynamics at 0x2020; a bank 15. -/
def spikeWorld (plain : Bool) (es : List BloomEvent) : State :=
  { world.poke 0x5000 (leBytes 8 (3 + 2 ^ 16) ++ leBytes 8 1 ++ leBytes 8 0x2020) with
    events := es
    engines := [(6, { running := some (kickOf (some ref0)), tlb := [page2] })]
    clusters := [(0, { crews := [(0, crew0)], bloom := [(15, spikeBank plain)] })] }
/-- An event of weight 1.0 for neuron 0 of a bank. -/
def spike (bank : Nat) : BloomEvent := { n := 3, cluster := 0, word := BitVec.ofNat 64 (0x3F80 * 2 ^ 32 + bank * 2 ^ 16), unit := 0 }

/-- A bank installed, a descriptor misaligned, a bank freed, a bank number that is empty. -/
theorem meets_bloom_install : let s := spikeWorld true []
    (s.engine (0 * 7 + 6)).running.isSome = true ∧ s.bank 0 15 = some (spikeBank true) ∧ some (spikeBank true).crew = (s.engine 6).crew ∧ s.bank 0 14 = none ∧
      (∃ x t, bloomInstall 6 0x2000 s = .ok x t) ∧ ∃ e t, bloomInstall 6 0x2004 s = .error (.exc e) t :=
  ⟨by decide +kernel, by decide +kernel, by decide +kernel, by decide +kernel, ok_exists (by decide +kernel), exc_exists (by decide +kernel)⟩

/-- Events for an empty bank and with a reserved bit set; for a plain bank and one with a leak. -/
theorem meets_bloom_event : (∀ e ∈ [spike 14, spike 15, { spike 15 with word := (spike 15).word ||| 0x10000000 }], let s := spikeWorld true [e]
      s.events.find? (fun f => f.n == 3) = some e ∧ (s.events.all fun f => decide (3 ≤ f.n)) = true ∧
        (Event.reserved e.word || (unpack .bf16 (Event.w e.word)).isNan) = Event.reserved e.word ∧
        decide (s.bank 0 (Event.bank e.word) = none ∨ Event.reserved e.word = true) = decide (e ≠ spike 15)) ∧
    (∃ x u, acceptEvent 0 15 (spikeBank true) (spike 15).word { spikeWorld true [spike 15] with events := [] } = .ok x u) ∧
    (∃ x u, acceptEvent 0 15 (spikeBank false) (spike 15).word { spikeWorld false [spike 15] with events := [] } = .ok x u) ∧
    (spikeBank true).plain = true ∧ Event.nidx (spike 15).word < (spikeBank true).ncount ∧
    (spikeWorld true [spike 15]).runningOut 0 (neuronKey (spikeWorld true [spike 15]) 0 (spikeBank true) 0 0) = none :=
  ⟨by decide +kernel, ok_exists (by decide +kernel), ok_exists (by decide +kernel), by decide +kernel, by decide +kernel, by decide +kernel⟩

/-- A fan-out of two words at 0x20F0, one from an absent page, and one behind an operation. -/
def job0 (list : Dword) : FanJob := { list := list, count := 2, ts := 5, crew := ref0, dptb := 0 }
def fanWorld (list : Dword) (ops : List Dword) : State := { world with engines := [(3, { jobs := [job0 list], ops := ops, tlb := [page2] })] }
theorem meets_fanout : (∀ p ∈ [(0x20F0, []), (0x9000, []), (0x20F0, [(0x2000 : Dword)])],
      ((fanWorld (BitVec.ofNat 64 p.1) p.2).engine 3).jobs = job0 (BitVec.ofNat 64 p.1) :: [] ∧ ((fanWorld (BitVec.ofNat 64 p.1) p.2).engine 3).ops = p.2) ∧
    (let s := fanWorld 0x20F0 []
     ∃ x u, fanOut 3 { bloomAcc 0 ref0 0 with tlb := .engine 3, who := .engine 3 } 5 0x20F0 2 (s.setEngine 3 { s.engine 3 with jobs := [] }) = .ok x u) ∧
    (let s := fanWorld 0x9000 []
     ∃ e u, fanOut 3 { bloomAcc 0 ref0 0 with tlb := .engine 3, who := .engine 3 } 5 0x9000 2 (s.setEngine 3 { s.engine 3 with jobs := [] }) = .error (.exc e) u) :=
  ⟨by decide +kernel, ok_exists (by decide +kernel), exc_exists (by decide +kernel)⟩

/-! ## Graphics units -/

/-- A page of 64 KiB at 0x20000 whose lines are untracked. -/
def pageU : TlbEntry := { asid := 0, va := 0x20000, size := 65536, pte := 0x801DF, line := 0 }
/-- A node of one crew and 16 records: its kind, RSZ, ring, the rest from 0x40 on; HELD of a record in use. -/
def nodeBytes (kind rsz ring n : Nat) (rest : List Byte) : List Byte :=
  leBytes 1 kind ++ leBytes 1 rsz ++ leBytes 2 1 ++ leBytes 4 16 ++ leBytes 8 ring ++ leBytes 8 (0x10400 + 8 * n) ++ leBytes 8 (0x10600 + 8 * n) ++ leBytes 32 0 ++ rest
def meshRef : GfxRef := { node := 0x200, slot := 0, id := 0 }
def gfxRecOf (node handle : Nat) (st : GfxSt) : GfxRec :=
  { id := 0, c := 0, crew := some ref0, launch := 1, dcrew := 0, dptb := 0, cluster := 0, nodeVa := BitVec.ofNat 64 (node * 128), handle := BitVec.ofNat 64 handle, st := st }
/-- A rasteriser's node with its fragment, blend and arena, a traversal node and the node behind it; rings on the untracked page. Record 0 of the first holds
a mesh of one triangle over the pixels of block 0, record 0 of the traversal node a ray with the box node at 0x20000. -/
def unitsWorld (st : GfxSt) (job : Option RasterJob) (rq tq : List GfxRef) : State :=
  let m : List Host.Cell :=
    cellsAt 0x10000 (nodeBytes 1 1 0x21000 0 (leBytes 8 0x10080 ++ leBytes 8 0x10100 ++ leBytes 8 0x13000)) ++
    cellsAt 0x10080 (nodeBytes 0 3 0x21400 1 (leBytes 24 0 ++ [4])) ++
    cellsAt 0x10100 (nodeBytes 3 1 0x21800 2 (leBytes 8 0x7F1000000000 ++ leBytes 4 0x10001 ++ leBytes 4 0 ++ leBytes 8 0x14000)) ++
    cellsAt 0x10180 (nodeBytes 2 3 0x21C00 3 (leBytes 8 0x10200)) ++
    cellsAt 0x10200 (nodeBytes 0 6 0x22000 4 (leBytes 24 0 ++ [4])) ++
    cellsAt 0x13020 (leBytes 4 0x41000000) ++
    cellsAt 0x13044 (leBytes 4 0x41000000) ++
    cellsAt 0x13800 [0, 1, 2] ++
    cellsAt 0x21010 [3, 0, 1] ++
    cellsAt 0x21C30 (leBytes 8 0x20000)
  { world with
    mem := m
    clusters := [(0, { crews := [(0, { crew0 with scrUnits := [0], partition := BitVec.ofNat 32 (2 ^ 7 + 64 * 2 ^ 21) })], rasterQ := rq, traverseQ := tq, raster := job,
                       gtlbs := [(0, [page64, pageU]), (1, [page64, pageU]), (4, [page64, pageU])] })]
    nodes := [(0x200, { recs := [(0, gfxRecOf 0x200 0x21010 st)] }), (0x202, { recs := [(0, gfxRecOf 0x202 0x21810 st)], tickets := [(0, [0])] }),
              (0x203, { recs := [(0, gfxRecOf 0x203 0x21C10 st)] })] }
def picked (r : GfxRef) (t : Bool) : State :=
  unitsWorld .queued none (if t then [] else if r = meshRef then [] else [r]) []
def triangle : RasterBlock := { prim := 0, bx := 0, bY := 0, mask := 1 }

/-- A mesh that the rasteriser takes, and a record that is gone; one at work; a block to emit. -/
theorem meets_raster : (unitsWorld .taken (some { mesh := meshRef, work := [triangle] }) [] []).gfxRec meshRef = some (gfxRecOf 0x200 0x21010 .taken) ∧
    (unitsWorld .queued none [meshRef] []).gfxRec meshRef = some (gfxRecOf 0x200 0x21010 .queued) ∧
    pickHead (unitsWorld .queued none [meshRef] []) [meshRef] = some (meshRef, unitsWorld .queued none [meshRef] []) ∧
    (unitsWorld .queued none [] []).gfxRec { meshRef with id := 1 } = none ∧
    (∃ x u, takeMesh meshRef { gfxRecOf 0x200 0x21010 .queued with cluster := 0 } (unitsWorld .queued none [] []) = .ok x u) ∧
    ∃ x u, emitBlock { mesh := meshRef, work := [triangle] } { gfxRecOf 0x200 0x21010 .taken with cluster := 0 } triangle []
      (unitsWorld .taken (some { mesh := meshRef, work := [triangle] }) [] []) = .ok x u :=
  ⟨by decide +kernel, by decide +kernel, rfl, by decide +kernel, ok_exists (by decide +kernel), ok_exists (by decide +kernel)⟩

def rayRef : GfxRef := { node := 0x203, slot := 0, id := 0 }
def ticketRef : GfxRef := { node := 0x202, slot := 0, id := 0 }
/-- A ray of a traversal node; a block's head ticket, committed, skipped and neither. -/
theorem meets_traverse : pickHead (unitsWorld .queued none [] [rayRef]) [rayRef] = some (rayRef, unitsWorld .queued none [] [rayRef]) ∧
    (unitsWorld .queued none [] []).gfxRec rayRef = some (gfxRecOf 0x203 0x21C10 .queued) ∧
    (∃ x u, traverse rayRef { gfxRecOf 0x203 0x21C10 .queued with cluster := 0 } (unitsWorld .queued none [] []) = .ok x u) ∧
    (∀ st ∈ [GfxSt.queued, .skipped, .reserved], ((unitsWorld st none [] []).node 0x202).tickets.getD 0 [] = 0 :: [] ∧
      ((unitsWorld st none [] []).node 0x202).recs.find 0 = some (gfxRecOf 0x202 0x21810 st)) ∧
    (let s := unitsWorld .queued none [] []
     ∃ x u, applyTicket ticketRef (gfxRecOf 0x202 0x21810 .queued) (s.setNode 0x202 { s.node 0x202 with tickets := (s.node 0x202).tickets.put 0 [] }) = .ok x u) ∧
    (let s := unitsWorld .skipped none [] []
     ∃ x u, freeRec ticketRef (s.setNode 0x202 { s.node 0x202 with tickets := (s.node 0x202).tickets.put 0 [] }) = .ok x u) :=
  ⟨rfl, by decide +kernel, ok_exists (by decide +kernel), by decide +kernel, ok_exists (by decide +kernel), ok_exists (by decide +kernel)⟩

/-! ## The whole machine -/

/-- EncodedInstructionsDecodeBack: a scalar and a lane instruction with every operand at its highest value, an event, and an operand out of its range. -/
theorem meets_encoded : wf (.standardInstruction (.op .and 31 31 31)) = true ∧
    wf (.fma { Claim.blank with vd := 255, va := 255, vb := 255, vc := 255, ty := 11 }) = true ∧ wf (.crewEnd 0) = true ∧
    Claim.isEvent (.crewEnd 0) = true ∧ Claim.isEvent (.standardInstruction (.op .and 31 31 31)) = false := by decide +kernel

/-- EveryStepKeepsMemoryCanonical: a store by the strand whose turn it is. -/
theorem meets_step_keeps : MemoryOk (State.reset.poke 0x5000 [1]) ∧
    (nextOf (step ((State.reset.poke 0x5000 [1]).withFetchWord 32 0x00100513))).isSome = true := by
  constructor
  · unfold MemoryOk
    decide +kernel
  · decide +kernel

end Sys2Proof.Tests
end

/-! PROOFS. The scope of the scalar machine: integer and CSR instructions, accesses by translation and through the local window, and
what reaches registers from outside an instruction (R5, R7, R9 to R12, R18 to R25, R32, R93, R255, R256, R263, R269, R397, R427). -/

namespace Sys2Proof.Machine

/-! ## Integer instructions (R9, R10) -/

/-- AUIPC names its own pc, which the running meaning finds 4 bytes back; every other result depends on registers alone. -/
theorem rvOp_integer {s : State} {h : HartId} {op : RvOp} {rd : Reg} {v : Dword} (hh : (s.hart h).handler = none)
    (hr : Claim.integerResult (s.hart h) op = some (rd, v)) (csr : CsrOp → Bool → Reg → Reg → BitVec 12 → Word → M Unit)
    (ill : Word → M Unit) (w : Word) :
    rvOp csr ill h op w (s.setHart h (s.hart h).past) = .ok () (s.setHart h ((s.hart h).past.wx rd v)) := by
  cases op <;> simp only [Claim.integerResult, Option.some.injEq, Prod.mk.injEq, reduceCtorEq] at hr
  case auipc =>
    obtain ⟨rfl, rfl⟩ := hr
    simp [rvOp, instrPc, immU, hh]
  all_goals
    obtain ⟨rfl, rfl⟩ := hr
    simp [rvOp, immU, sext32]

/-- Settles O3: the meaning writes one register, and the frame of scalar instructions adds pc and instret. -/
theorem integerInstructionWritesItsResult : Obligations.IntegerInstructionWritesItsResult := by
  intro s h op rd v hx hr
  exact scalar_reg hx _ _ rd v (rvOp_integer hx.2 hr _ _ _)

/-! ## CSRs held in a hart (R12, R18)

`Claim.csrRead` and `Claim.csrWrite` list the CSRs by number, so each fact about the model's `State.csr`, `State.writeCsr` and
`csrLevel` is one case per listed number. -/

theorem csrRead_past (r : Hart) (a : Nat) : Claim.csrRead r.past a = Claim.csrRead r a := rfl

theorem csrWrite_past (r : Hart) (a : Nat) (v : Dword) : Claim.csrWrite r.past a v = (Claim.csrWrite r a v).map Hart.past := by
  simp only [Claim.csrWrite]
  split <;> rfl

theorem csrWrite_handler {r q : Hart} {a : Nat} {v : Dword} (hw : Claim.csrWrite r a v = some q) : q.handler = r.handler := by
  simp only [Claim.csrWrite] at hw
  split at hw <;> cases hw <;> rfl

/-- The writable CSRs lie below the numbers of the read-only ones. -/
theorem csrWrite_addr {r q : Hart} {a : Nat} {v : Dword} (hw : Claim.csrWrite r a v = some q) : a < 0xC00 := by
  simp only [Claim.csrWrite] at hw
  split at hw <;> cases hw <;> omega

/-- The read-only CSRs that a hart holds are instret and the crew number. -/
theorem csrRead_readOnly {r : Hart} {a : Nat} {old : Dword} (hr : Claim.csrRead r a = some old) (ha : 0xC00 ≤ a) :
    a = 0xC02 ∨ a = 0xCC1 := by
  simp only [Claim.csrRead] at hr
  split at hr <;> cases hr <;> omega

theorem csr_of_csrRead {s : State} {h : HartId} {a : Nat} {old : Dword} (hr : Claim.csrRead (s.hart h) a = some old) :
    s.csr h a = old := by
  simp only [Claim.csrRead] at hr
  split at hr <;> cases hr
  case h_1 => exact fcsr_low _
  case h_2 => exact fcsr_high _
  case h_11 => cases h <;> rfl
  all_goals rfl

/-- satp (0x180) has no field, so that its write leaves the hart as it is. -/
theorem writeCsr_of_csrWrite {s : State} {h : HartId} {q r : Hart} {a : Nat} {v : Dword} (he : HartKind.isEngine h = false)
    (hw : Claim.csrWrite q a v = some r) : (s.setHart h q).writeCsr h a v = s.setHart h r := by
  simp only [Claim.csrWrite] at hw
  split at hw <;> cases hw
  case h_11 =>
    cases h
    case engine => cases he
    all_goals rfl
  all_goals simp [State.writeCsr, Hart.writeFcsr]

/-- A uniform hart has no floating-point CSRs (R33), which the last hypothesis keeps from it. -/
theorem csrLevel_of_csrRead {h : HartId} {r : Hart} {a : Nat} {old : Dword} (he : HartKind.isEngine h = false)
    (hr : Claim.csrRead r a = some old) (hf : a ≤ 3 → HartKind.isStrand h = true) :
    csrLevel h a = some (if a ≤ 3 ∨ 0xC00 ≤ a then .u else .s) := by
  simp only [Claim.csrRead] at hr
  cases h with
  | engine k => cases he
  | strand k => split at hr <;> cases hr <;> rfl
  | uniform k =>
    have hn : 3 < a := Nat.lt_of_not_le fun ha => Bool.false_ne_true (hf ha)
    split at hr <;> cases hr
    case h_1 | h_2 | h_3 => omega
    all_goals rfl

/-- An access that the state of the hart allows passes the checks of R21. -/
theorem csrCheck_allowed {s : State} {h : HartId} {a : Nat} {old : Dword} {write : Bool} (w : Word)
    (he : HartKind.isEngine h = false) (hr : Claim.csrRead (s.hart h) a = some old) (hf : a ≤ 3 → HartKind.isStrand h = true)
    (hp : Claim.csrAllowed (s.hart h) a) (hw : write = true → a < 0xC00) : csrCheck h a write w s = .ok () s := by
  obtain ⟨hlevel, hfs, hcount⟩ := hp
  refine csrCheck_ok h a write w s _ (csrLevel_of_csrRead he hr hf) (fun hs => ?_) (fun hwr => ?_) (fun _ => hfs) fun ha hb => ?_
  · split at hs
    · cases hs
    · rename_i hn
      exact hlevel.resolve_right hn
  · have := hw hwr
    omega
  · obtain rfl | rfl := csrRead_readOnly hr ha
    · exact hcount rfl
    · omega

/-- Settles O12: the checks pass, the read gives the old value, and the write, if the form has one, the hart of `Claim.csrWrite`. -/
theorem csrInstructionReadsAndWrites : Obligations.CsrInstructionReadsAndWrites := by
  intro s h o imm rd src a old hx he hr hf hp
  have hin : (s.setHart h (s.hart h).past).hart h = (s.hart h).past := State.hart_setHart ..
  have hread : Claim.csrRead ((s.setHart h (s.hart h).past).hart h) a.toNat = some old := by rw [hin, csrRead_past, hr]
  have hcheck : ∀ write w, (write = true → a.toNat < 0xC00) →
      csrCheck h a.toNat write w (s.setHart h (s.hart h).past) = .ok () (s.setHart h (s.hart h).past) :=
    fun write w => csrCheck_allowed w he hread hf (by rw [hin]; exact hp)
  refine ⟨fun hn => ?_, fun r hn hw => ?_⟩
  · refine csr_read_ok hx o imm rd src a old (hcheck _ _ fun hwr => ?_) (csr_of_csrRead hread) hn
    obtain ⟨ho, rfl⟩ := hn
    simp [ho] at hwr
  · have hpast := csrWrite_past (s.hart h) a.toNat (Claim.csrNew o old (Claim.csrSource (s.hart h) imm src))
    rw [hw] at hpast
    refine csr_write_ok hx he o imm rd src a old (hcheck _ _ fun _ => csrWrite_addr hw) (csr_of_csrRead hread) hn ?_ ?_ r
      (writeCsr_of_csrWrite he hpast) ((csrWrite_handler hw).trans hx.2)
    all_goals
      intro ha
      rw [ha] at hw
      cases hw

/-! ## Accesses (R5, R93, R255, R256, R263, R269) -/

/-- Settles O37: through a TLB entry by `access_reaches`, through the local window by `window_reaches`. -/
theorem accessReachesItsBytes : Obligations.AccessReachesItsBytes := by
  intro s h rs1 rs2 rd imm hx hok
  exact ⟨fun e => access_reaches s h e rs1 rs2 rd imm hx hok, fun key => window_reaches s h key rs1 rs2 rd imm hx hok⟩

/-! ## Signals, timers and registers written from outside (R7, R25, R32, R95, R244, R253, R254, R397, R414, R427) -/

/-- Settles O56, event by event. That a core reset keeps the registers x is the model's choice (log 82), as are the level and fcsr
that it leaves (log 4). -/
theorem signalsAndRegisterWrites : Obligations.SignalsAndRegisterWrites := by
  intro s
  obtain ⟨hhead, hqueue, hother⟩ := ev_device s
  exact ⟨ev_laneSignalLand s, ev_timerCompare s, ev_laneHandlerRun s, ev_wectl s, ev_split s, ev_csr s, ev_csrNone s,
    hhead, hqueue, hother, ev_doorbell s, ev_hostInterrupt s, ev_coreReset s⟩

end Sys2Proof.Machine

/-! PROOFS. The encodings of the scalar machine (R10, R64 to R69, R144 to R165). -/

namespace Sys2Proof.Laws.Encoding

open Sys2Proof.Laws.Words

/-- Family Encoding for every instruction, its lemmas in the order of the constructors. -/
theorem encoded_word_decodes (i : Instr) : Statement i :=
  Instr.casesOn i
    semWait semSig semTry semRead semWaiti semSigi futNew futSet futWait futPoll futPoison futFree contSpawn joinAdd msgSend
    msgReply msgSendh msgRecv mbRead mbWrite mbSwap engKick engRdv cohDecl cohRel scalarCwb scalarCinv scalarCflush hotRead
    hotClr fenceS scalarStq tlbInv amoAdd amoSwap amoAnd amoOr amoXor amoMax amoFadd amoCas standardLoadStore lr sc
    standardAmo fenceRv fenceI sfenceVma laneAdd laneSub laneMul mulhi laneMin laneMax laneAbs laneNeg addLi subLi mulLi
    mulhiLi minLi maxLi imad laneAnd laneOr laneXor laneNot andn andLi orLi xorLi andnLi shl shr sha rol ror shlLi shrLi shaLi
    rolLi rorLi popc clz ctz brev bfx bfi fadd fsub fmul fmin fmax fabs fneg faddLi fsubLi fmulLi fminLi fmaxLi fma fms fnma
    fdiv fsqrt icmp fcmp fclass icmpLi fcmpLi sel selLi pand por pxor pnot pmov cvt qnt aln shflIdx shflXor shflUp shflDn bcst
    voteAny voteAll voteMask reduce scan mov movu movx movi krd kwr lfmRd lfmWr sfx sfxWait rsvSeed rsvUpd rsvMrg rsvFin
    rsvGet rsvDraw ld st stn atomAdd atomSwap atomAnd atomOr atomXor atomMax atomFadd atomCas lds sts fence cwb cinv cflush
    stq pfh texSmp texFch bra brx reconv exit mig barArv barWait safe yield nop spawn fwait send mld mmaG accZero ringAdv
    ringWait blmEmit blmRead blmAdvance blmFlush blmClear resv commit cancel emitV emitP standardInstruction
    reservedLaneOpcode messageDepart messageArrival laneSignalLand laneMemoryComplete sfxResult migrationBlockGrant mldStart
    mldComplete mmaLatch mmaStart mmaComplete launchRecordTake crewAdmit admissionAgeLimit waveStart frontEndStrandStart
    continuationPop atomiserArrival gatherWindowExpiry atomiserWaveForm fragmentAgeLimit gtoAgeingLimit crewEnd
    heldMessageDelivery handlerStart stqTarget engineKickStart copyMove copyGather copyScatter copyConvert copyDelta copyRle
    bloomEventArrival bloomFanoutJob rasterMesh rasterBlockEmit blendTicket traverseRay interruptTake timerCompare crewSave
    preemptDeadline invalidationReceive invalidationAck hotnessHalving quantumFlush wqDoorbell dmgangWrite dmringWrite
    matrixKilled sillageInstall sillageTileRequest bloomInstall bloomUninstall laneHandlerRun preemptRequest resume crewKill
    doorbell hostInterrupt wectlWrite dlsplitWrite dlgroupWrite registerWrite pageWalk tokenRequest persistentRequest
    tokenEviction homeRecall hostSnoop hostMemAccess backInvalidationResponse flitReplay linkRetrain halhelFailover
    eccCorrected eccUncorrected coreReset attestation governorWindow thermalTrip peerWindowAccess thermalThrottle contExit
    migW scalarYield scalarSafe ecall ebreak sret wfi crewExpand imageLoad imageUnload bringUp

/-- The events are the instructions that neither encoder gives a word. -/
theorem isEvent_eq (i : Instr) : Claim.isEvent i = ((encodeScalar i).isNone && (encodeLane i).isNone) := by
  cases i <;> rfl

theorem encode_scalar {i : Instr} {w : Word} (h : encodeScalar i = some w) : encode i = some (leBytes 4 w.toNat) := by
  simp only [encode, h]

theorem encode_lane {i : Instr} (h : encodeScalar i = none) : encode i = (encodeLane i).map fun w => leBytes 12 w.toNat := by
  simp only [encode, h]

/-- A well-formed instruction with a scalar word: its 4 bytes decode to it. -/
theorem scalar_roundTrip {i : Instr} {w : Word} (hi : wf i = true) (h : encodeScalar i = some w) (rest : List Byte) :
    decodeBytes false (leBytes 4 w.toNat ++ rest) = some (i, rest) := by
  rw [scalar_bytes, (encoded_word_decodes i hi).1 w h]

/-- A well-formed instruction with a lane word and no scalar one: its 12 bytes decode to it. -/
theorem lane_roundTrip {i : Instr} {w : BitVec 96} (hi : wf i = true) (h : encodeScalar i = none) (hl : encodeLane i = some w)
    (rest : List Byte) : decodeBytes true (leBytes 12 w.toNat ++ rest) = some (i, rest) := by
  rw [lane_bytes, (encoded_word_decodes i hi).2 h w hl]

/-- Settles O59: by the kind of word that the instruction has, scalar, lane or none. -/
theorem encodedInstructionsDecodeBack : Obligations.EncodedInstructionsDecodeBack := by
  intro i hi
  have hev := isEvent_eq i
  cases hs : encodeScalar i with
  | some w =>
    simp only [hs, Option.isNone_some, Bool.false_and] at hev
    rw [hev]
    exact ⟨_, encode_scalar hs, leBytes_length .., scalar_roundTrip hi hs⟩
  | none =>
    cases hl : encodeLane i with
    | some w =>
      simp only [hs, hl, Option.isNone_some, Bool.and_false] at hev
      rw [hev]
      exact ⟨_, by rw [encode_lane hs, hl]; rfl, leBytes_length .., lane_roundTrip hi hs hl⟩
    | none =>
      simp only [hs, hl, Option.isNone_none, Bool.and_self] at hev
      rw [hev]
      exact (encode_lane hs).trans (by rw [hl]; rfl)

end Sys2Proof.Laws.Encoding

/-! PROOFS. Jumps, traps and returns of the scalar machine (R10, R12, R21, R27 to R29, R33, R69, R319, R394 to R398). -/

namespace Sys2Proof.Machine

/-! ## Frames of a meaning by what it leaves of its own hart -/

@[simp] theorem inside_hart (s : State) (h : HartId) : (Claim.inside s h).hart h = (s.hart h).past := State.hart_setHart ..

section
variable {s t : State} {h : HartId} (hx : Executes s h) (v : Hart → Option Nat) (m : HartId → M Unit)
include hx

/-- A meaning that leaves its own hart as `q`: `q` retires. -/
theorem scalar_retired (q : Hart) (hm : m h (Claim.inside s h) = .ok () (t.setHart h q)) :
    scalar v m s = .next (t.setHart h q.retired) := by
  rw [scalar_ok hx v m hm, State.setHart_setHart, State.hart_setHart]

/-- A meaning that leaves its own hart past the instruction and may change something else. -/
theorem scalar_other (hm : m h (Claim.inside s h) = .ok () (t.setHart h (s.hart h).past)) :
    scalar v m s = .next (t.setHart h (s.hart h).stepped) := by
  rw [scalar_retired hx v m _ hm, Hart.past_retired _ (s.hart h) hx.2 rfl]

/-- A meaning that changes nothing: the hart goes on at the next instruction. -/
theorem scalar_on (hm : m h (Claim.inside s h) = .ok () (Claim.inside s h)) :
    scalar v m s = .next (s.setHart h (s.hart h).stepped) :=
  scalar_other hx v m hm

end

/-! ## Jumps (R10, R29) -/

/-- A jump or a taken branch to an aligned target moves the pc and writes the link. -/
theorem rvOp_jump {s : State} {h : HartId} {op : RvOp} {rd : Reg} {t : Dword} (hh : (s.hart h).handler = none)
    (hj : Claim.jump (s.hart h) op = some (rd, t)) (ha : t.toNat % 4 = 0)
    (csr : CsrOp → Bool → Reg → Reg → BitVec 12 → Word → M Unit) (ill : Word → M Unit) (w : Word) :
    rvOp csr ill h op w (s.setHart h (s.hart h).past) =
      .ok () (s.setHart h ({ (s.hart h).past with pc := t }.wx rd ((s.hart h).pc + 4))) := by
  cases op <;> simp only [Claim.jump, Option.ite_none_right_eq_some, Option.some.injEq, Prod.mk.injEq, reduceCtorEq] at hj
  case jal rd off =>
    obtain ⟨rfl, rfl⟩ := hj
    simp [rvOp, instrPc, jumpBy, jalOff, hh, ha, -BitVec.toNat_add, -BitVec.toNat_sub]
  case jalr rd rs1 imm =>
    obtain ⟨rfl, rfl⟩ := hj
    simp [rvOp, instrPc, jumpTo, hh, ha, -BitVec.toNat_add, -BitVec.toNat_and, -BitVec.reduceNot]
  case branch c rs1 rs2 off =>
    obtain ⟨ht, rfl, rfl⟩ := hj
    simp [rvOp, jumpBy, brOff, ht, hh, ha, -BitVec.toNat_add, -BitVec.toNat_sub]

theorem jump_aligned {s : State} {h : HartId} {op : RvOp} {rd : Reg} {t : Dword} (hx : Executes s h)
    (hj : Claim.jump (s.hart h) op = some (rd, t)) (ha : t.toNat % 4 = 0) :
    exec (.standardInstruction op) s = .next (s.setHart h ({ (s.hart h).stepped with pc := t }.wx rd ((s.hart h).pc + 4))) := by
  refine (scalar_retired hx _ _ _ (rvOp_jump hx.2 hj ha _ _ _)).trans ?_
  rw [Hart.retired_eq _ (by rw [Hart.wx_handler]; exact hx.2)]
  simp only [Hart.wx]
  split <;> rfl

/-- Settles O4: a transfer to an aligned target by `jump_aligned`, to another by `jump_misaligned`, whose device cause is the
model's choice (log 7); a branch not taken changes nothing. -/
theorem jumpReachesItsTargetOrTraps : Obligations.JumpReachesItsTargetOrTraps := by
  refine ⟨fun s h op rd t hx hj => ⟨jump_aligned hx hj, jump_misaligned s h op rd t hx hj⟩,
    fun s h c rs1 rs2 off hx ht => scalar_on hx _ _ ?_⟩
  simp [rvOp, ht]

/-! ## Entry of a strand into S (R21, R27, R29) -/

/-- Outside handlers and while TN is clear, a strand takes its exception by the entry of R27. -/
theorem takeExc_strand {s : State} {k : Nat} (ht : (s.hart (.strand k)).tn = false) (hh : (s.hart (.strand k)).handler = none)
    (epc : Dword) (e : Exc) : s.takeExc (.strand k) epc e = s.setHart (.strand k)
      ((s.hart (.strand k)).enterS epc (BitVec.ofNat 64 e.scause) e.tval (dcauseOf e.code e.detail) none) := by
  simp [State.takeExc, State.trapStrand, ht, hh]

/-- Settles O5: the entry of R27 by `entersS`. -/
theorem strandExceptionEntersS : Obligations.StrandExceptionEntersS :=
  fun _ _ epc e ht hh => ⟨_, takeExc_strand ht hh epc e, entersS _ epc (BitVec.ofNat 64 e.scause) e.tval (dcauseOf e.code e.detail)⟩

/-- A meaning of a strand that raises an exception and has changed nothing of its hart: R27 with sepc at the instruction. -/
theorem strand_exc {s u : State} {k : Nat} (hx : Executes s (.strand k)) (ht : (s.hart (.strand k)).tn = false)
    (v : Hart → Option Nat) (m : HartId → M Unit) (e : Exc)
    (hm : m (.strand k) (s.setHart (.strand k) (s.hart (.strand k)).past) =
      .error (.exc e) (u.setHart (.strand k) (s.hart (.strand k)).past)) :
    scalar v m s = .next (u.setHart (.strand k) ((s.hart (.strand k)).enterS (s.hart (.strand k)).pc (BitVec.ofNat 64 e.scause)
      e.tval (dcauseOf e.code e.detail) none)) := by
  rw [scalar_exc hx v m e hm, State.setHart_setHart, State.hart_setHart]
  exact congrArg _ ((take_running s k (u.setHart (.strand k) { s.hart (.strand k) with run := .running }) e ht hx.2
    (State.hart_setHart ..) _).trans (State.setHart_setHart ..))

/-- ECALL of a strand: scause by its level, no value and no device cause (R29). -/
theorem ecall_strand {s : State} {k : Nat} (hx : Executes s (.strand k)) (ht : (s.hart (.strand k)).tn = false) :
    exec .ecall s = .next (s.setHart (.strand k) ((s.hart (.strand k)).enterS (s.hart (.strand k)).pc
      (if (s.hart (.strand k)).priv = .s then 9 else 8) 0 0 none)) := by
  rw [exec_ecall, execEcall, strand_exc (u := s) hx ht _ _
    { code := 0, detail := 0, tval := 0, scause := if (s.hart (.strand k)).priv = .s then 9 else 8 } (by simp [HartKind.isEngine] <;> rfl)]
  split <;> rfl

/-- EBREAK of a strand: scause 3 with dcause BREAK and a stval chosen freely between 0 and the pc (R29, log 34). -/
theorem ebreak_strand {s : State} {k : Nat} (hx : Executes s (.strand k)) (ht : (s.hart (.strand k)).tn = false) :
    exec .ebreak s = .next (({ s with free := s.free + 1 } : State).setHart (.strand k)
      ((s.hart (.strand k)).enterS (s.hart (.strand k)).pc 3
        (if (s.drawNat 2).1 = 0 then 0 else (s.hart (.strand k)).pc) 23 none)) := by
  rw [exec_ebreak, execEbreak, strand_exc (u := (s.drawNat 2).2) hx ht _ _
    { code := 23, detail := 0, tval := if (s.drawNat 2).1 = 0 then 0 else (s.hart (.strand k)).pc, scause := 3 }
    (by simp [HartKind.isEngine]), show dcauseOf 23 0 = 23 by decide]
  rfl

/-- A misaligned jump of a strand: scause 0 at the jump, with the target as its value (R29); the device cause is log 7. -/
theorem jump_misaligned_strand {s : State} {k : Nat} {op : RvOp} {rd : Reg} {t : Dword} (hx : Executes s (.strand k))
    (ht : (s.hart (.strand k)).tn = false) (hj : Claim.jump (s.hart (.strand k)) op = some (rd, t)) (ha : t.toNat % 4 ≠ 0) :
    exec (.standardInstruction op) s = .next (s.setHart (.strand k)
      ((s.hart (.strand k)).enterS (s.hart (.strand k)).pc 0 t (dcauseOf 4 0) none)) := by
  rw [jump_misaligned s (.strand k) op rd t hx hj ha, take_running s k _ _ ht hx.2 (State.hart_setHart ..), State.setHart_setHart]
  rfl

/-- Settles O6: the entry of R27 with the causes of `ecall_strand`, `ebreak_strand` and `jump_misaligned_strand`. -/
theorem standardExceptionsAreRaised : Obligations.StandardExceptionsAreRaised :=
  fun _ _ hx ht => ⟨⟨_, ecall_strand hx ht, entersS ..⟩, ⟨_, _, ebreak_strand hx ht, entersS ..⟩,
    fun _ _ _ hj ha => ⟨_, _, jump_misaligned_strand hx ht hj ha, entersS ..⟩⟩

/-! ## Returns from S (R28, R398, R403) -/

/-- SRET of a strand: its hart leaves S and retires. -/
theorem sret_strand_eq {s : State} {k : Nat} (hx : Executes s (.strand k)) (hp : (s.hart (.strand k)).priv = .s) :
    exec .sret s = .next (s.setHart (.strand k) { (s.hart (.strand k)).past.leaveS with
      instret := (s.hart (.strand k)).instret + 1, granted := none }) := by
  rw [sret_run hx rfl hp]
  simp only [State.returnS, State.hart_setHart, State.setHart_setHart]
  rw [Hart.retired_eq (s.hart (.strand k)).past.leaveS hx.2]
  rfl

/-- SRET of a uniform hart whose wave is not trapped. -/
theorem sret_uniform_eq {s : State} {k : Nat} (hx : Executes s (.uniform k)) (hp : (s.wave k).hart.priv = .s)
    (hact : (s.wave k).trap.act = false) :
    exec .sret s = .next (s.setHart (.uniform k) { (s.wave k).hart.past.leaveS with
      instret := (s.wave k).hart.instret + 1, granted := none }) := by
  have hw : ((s.setHart (.uniform k) (s.hart (.uniform k)).past).wave k).trap.act = false := by
    simp [State.setHart, hact]
  rw [sret_run hx rfl hp]
  simp only [State.returnS, hw, State.hart_setHart, State.setHart_setHart, Bool.false_eq_true, if_false]
  rw [Hart.retired_eq (s.hart (.uniform k)).past.leaveS hx.2]
  rfl

theorem leaveTrap_handler (w : Wave) : w.leaveTrap.hart.handler = w.hart.handler := by
  simp only [Wave.leaveTrap]
  split <;> rfl

/-- The wave of a uniform hart that returns from a trap: the trap ends (R398), and the hart retires. -/
def returned (w : Wave) : Wave :=
  let v := { w with hart := w.hart.past }.leaveTrap
  { v with hart := { v.hart with instret := v.hart.instret + 1, granted := none } }

/-- SRET of a uniform hart whose wave is trapped. -/
theorem sret_trapped_eq {s : State} {k : Nat} (hx : Executes s (.uniform k)) (hp : (s.wave k).hart.priv = .s)
    (hact : (s.wave k).trap.act = true) : exec .sret s = .next (s.setWave k (returned (s.wave k))) := by
  rw [sret_run hx rfl hp]
  simp only [State.returnS, hact, if_true, State.setHart, State.hart, State.wave_setWave, State.setWave_setWave, returned]
  rw [Hart.retired_eq _ (by rw [leaveTrap_handler]; exact hx.2)]

theorem returned_tn (w : Wave) : (returned w).hart.tn = false := by
  simp only [returned, Wave.leaveTrap]
  split <;> rfl

/-- Settles O8: a strand's hart leaves S by `leave_bits`; a trapped wave returns by `Wave.leaveTrap`. -/
theorem sretReturns : Obligations.SretReturns := by
  refine ⟨fun s k hx hp => ?_, fun s k hx hp hact => ?_, fun s k hx hp hact => ?_⟩
  · obtain ⟨hsie, hspie, hspp, hrest⟩ := leave_bits (s.hart (.strand k)).sstatus
    exact ⟨_, sret_strand_eq hx hp, rfl, rfl, rfl, rfl, hsie, hspie, hspp, hrest, rfl, rfl, rfl, rfl, rfl, rfl⟩
  · refine ⟨_, sret_trapped_eq hx hp hact, rfl, returned_tn _, ?_, rfl, rfl, rfl, rfl, fun hsrc hgrp => ?_, fun hsrc hgrp => ?_,
      fun hsrc => ?_, fun hrev => ?_, fun hrev => ?_⟩
    · simp [returned, Wave.leaveTrap]
    · simp [returned, Wave.leaveTrap, hsrc, hgrp, Function.comp_def]
    · simp [returned, Wave.leaveTrap, hsrc, hgrp, Function.comp_def]
    · simp [returned, Wave.leaveTrap, hsrc]
    · simp [returned, Wave.leaveTrap, hrev]
    · simp [returned, Wave.leaveTrap, hrev, Hart.leaveS]
  · exact ⟨_, sret_uniform_eq hx hp hact, rfl, rfl, rfl, rfl⟩

/-! ## Instructions that the level or the kind of hart forbids (R12, R21, R33, R69, R319) -/

theorem wordOf_encoded {i : Instr} {w : Word} (hw : encodeScalar i = some w) : wordOf i = w := by
  rw [wordOf, hw]
  rfl

/-- An instruction that a check of its kind of hart or of its level refuses, before any effect. -/
theorem refused_trap {s : State} {h : HartId} {i : Instr} {w : Word} {v : Hart → Option Nat} {m : HartId → M Unit} (c : Nat)
    (hx : Executes s h) (hw : encodeScalar i = some w)
    (hm : m h (s.setHart h (s.hart h).past) = .error (.exc (excIllegal c (wordOf i))) (s.setHart h (s.hart h).past)) :
    scalar v m s = .next ((s.setHart h { s.hart h with run := .running }).takeExc h (s.hart h).pc
      { code := c, detail := 0, tval := w.setWidth 64, scause := 2 }) := by
  rw [wordOf_encoded hw] at hm
  exact scalar_exc_first hx _ _ (excIllegal c w) hm

/-- The checks of a privileged instruction on a hart in U that has it. -/
theorem levelS_user {s : State} {h : HartId} (he : HartKind.isEngine h = false) (hp : (s.hart h).priv = .u) (i : Instr)
    (rest : M Unit) : (kindM (notEngine h) i >>= fun _ => levelS h i >>= fun _ => rest) s =
      .error (.exc (excIllegal 3 (wordOf i))) s := by
  simp [kindM, levelS, notEngine, he, hp, show (Priv.u == Priv.s) = false from rfl]

/-- Settles O9: each of the six instructions checks the level after the kind of hart and before anything else. -/
theorem privilegedInstructionInUTraps : Obligations.PrivilegedInstructionInUTraps := by
  intro s h i w hx he hp hi hw
  obtain rfl | rfl | ⟨a, b, rfl⟩ | ⟨a, b, rfl⟩ | ⟨a, rfl⟩ | ⟨a, b, rfl⟩ := hi <;>
    exact refused_trap 3 hx hw (levelS_user he (by rw [State.hart_setHart]; exact hp) _ _)

/-- A word of a major opcode other than the three custom ones has no listed custom slot (R65, R69). -/
theorem customPresent_major {h : HartId} {w : Word} (hw : (w.extractLsb' 0 7).toNat ∉ [0x0B, 0x2B, 0x5B]) :
    customPresent h w = false := by
  simp only [List.mem_cons, List.not_mem_nil, or_false, not_or] at hw
  obtain ⟨h0, h1, h2⟩ := hw
  simp only [customPresent]

/-- Settles O10: a form that checks for a strand by its absence from a uniform hart, one that checks against engines by its absence
from an engine hart, and a word that encodes nothing by `customPresent_major`. -/
theorem absentInstructionIsIllegal : Obligations.AbsentInstructionIsIllegal := by
  refine ⟨fun s k i w hx hw hi => ?_, fun s k i w hx hw hi => ?_, fun s h w hx hw => scalar_exc_first hx _ _ (excIllegal 1 w) ?_⟩
  · obtain ⟨rd, n, rfl⟩ | ⟨n, rs, rfl⟩ | ⟨rd, n, rs, rfl⟩ | ⟨a, b, rfl⟩ | ⟨a, b, rfl⟩ | rfl | ⟨imm, a, b, rfl⟩ := hi
    all_goals exact refused_trap 1 hx hw rfl
  · obtain rfl | rfl | rfl | rfl | ⟨rd, rfl⟩ | ⟨a, b, rfl⟩ | ⟨a, b, rfl⟩ | ⟨a, b, rfl⟩ | ⟨a, rfl⟩ | ⟨a, rfl⟩ | ⟨a, b, rfl⟩ |
      ⟨a, b, c, rfl⟩ | ⟨a, b, rfl⟩ | ⟨a, b, rfl⟩ | ⟨a, b, rfl⟩ | ⟨a, b, rfl⟩ | ⟨a, b, c, rfl⟩ | ⟨a, b, rfl⟩ | ⟨a, b, rfl⟩ |
      ⟨a, rfl⟩ | ⟨a, b, rfl⟩ | ⟨a, rfl⟩ | ⟨a, b, rfl⟩ | ⟨a, b, rfl⟩ := hi
    all_goals exact refused_trap 1 hx hw rfl
  · simp [rvOp, illegalWord, Enc.rvOp, customPresent_major hw]

/-! ## Interrupts (R25, R27, R28) -/

/-- An interrupt that a strand takes enters S at the vectored target. -/
theorem enterS_interrupt (r : Hart) (c : Nat) : Claim.EntersS r (r.enterS r.pc (BitVec.ofNat 64 (2 ^ 63 + c)) 0 0 (some c)) r.pc
    (BitVec.ofNat 64 (2 ^ 63 + c)) 0 0
    ((r.stvec &&& ~~~3#64) + (if r.stvec.getLsbD 0 then BitVec.ofNat 64 (4 * c) else 0)) := by
  obtain ⟨hspie, hsie, hspp, hrest⟩ := enter_bits r.sstatus r.priv
  have htarget : trapTarget r.stvec (some c) =
      (r.stvec &&& ~~~3#64) + (if r.stvec.getLsbD 0 then BitVec.ofNat 64 (4 * c) else 0) := by
    simp only [trapTarget]
    split
    · rfl
    · exact (BitVec.add_zero _).symm
  exact ⟨rfl, rfl, rfl, rfl, htarget, rfl, rfl, rfl, rfl, hspie, hsie, hspp, hrest, rfl, rfl, rfl, rfl, rfl, rfl, rfl, rfl, rfl, rfl⟩

/-- No interrupt is due while TN is set. -/
theorem dueInterrupt_tn {s : State} {h : HartId} (ht : (s.hart h).tn = true) : s.dueInterrupt h = none := by
  simp [State.dueInterrupt, ht]

/-- The timer's bit is pending once time has reached dtimecmp (R25). -/
theorem pending_timer {s : State} {k : Nat} (hd : (s.hart (.strand k)).dtimecmp.toNat ≤ s.now % 2 ^ 64) :
    s.pending (.strand k) &&& 0x20#64 = 0x20#64 := by
  simp only [State.pending, if_pos hd]
  split_ifs <;> rfl

/-- A strand that issues in U with only the timer enabled takes its interrupt once it is pending. -/
theorem dueInterrupt_timer {s : State} {k : Nat} (hrun : (s.hart (.strand k)).run = .running) (ht : (s.hart (.strand k)).tn = false)
    (hh : (s.hart (.strand k)).handler = none) (hg : (s.hart (.strand k)).granted = none) (hp : (s.hart (.strand k)).priv = .u)
    (hs : (s.hart (.strand k)).sie = 0x20#64) (hd : (s.hart (.strand k)).dtimecmp.toNat ≤ s.now % 2 ^ 64) :
    s.dueInterrupt (.strand k) = some 5 := by
  have hsave : s.stoppedForSave (.strand k) = false := by
    change ((s.hart (.strand k)).run == .parked .safe) = false
    rw [hrun]
    rfl
  simp [State.dueInterrupt, hrun, hsave, ht, hh, hg, hp, hs, pending_timer hd]

/-- Settles O11: the strand itself stays as it is while it leaves the wait queues, and enters S by `enterS_interrupt`. -/
theorem interruptEntersS : Obligations.InterruptEntersS := by
  refine ⟨fun s k c hc => ?_, fun s h ht => dueInterrupt_tn ht, fun s k hrun ht hh hg hp hs hd => ?_⟩
  · obtain ⟨hstrands, hmem⟩ := abandon_strands s (.strand k)
    have hr : (s.abandon (.strand k)).hart (.strand k) = s.hart (.strand k) := by simp only [State.hart, hstrands]
    refine ⟨_, ⟨s.takeInterrupt (.strand k) c, ?_, rfl, ?_⟩, ?_⟩
    · simp only [exec_interruptTake, execInterruptTake, event, hc]
    · simp [State.takeInterrupt, hmem]
    · simp only [State.takeInterrupt, hr, State.hart_setHart]
      exact enterS_interrupt ..
  · exact dueInterrupt_timer hrun ht hh hg hp hs hd

/-! ## Fatal exceptions (R28) -/

/-- The error log keeps what a strand does. -/
theorem run_logError (s : State) (code detail kind unit cluster addr queue record crew k : Nat) :
    ((s.logError code detail kind unit cluster addr queue record crew).hart (.strand k)).run = (s.hart (.strand k)).run := by
  obtain ⟨v, hv⟩ := (like_logError s code detail kind unit cluster addr queue record crew).strand k
  simp only [State.hart, hv]

theorem crewIx_setHart (s : State) (h : HartId) (v : Hart) (r : Option CrewRef) : (s.setHart h v).crewIx r = s.crewIx r := by
  have hcrew : (s.setHart h v).crewOf = s.crewOf := funext fun r => State.crewOf_setHart s h v r
  simp only [State.crewIx, hcrew]

/-- Settles O40: the second exception by the fatal trap, SRET by `sret_strand`. -/
theorem secondExceptionIsFatal : Obligations.SecondExceptionIsFatal := by
  refine ⟨fun s k epc e ht => ⟨?_, ?_⟩, fun s k ht => dueInterrupt_tn ht, fun s k hx hp => sret_strand s k hx hp⟩
  · simp only [State.takeExc, State.trapStrand, ht, if_true, State.fatalTrap, crewIx_setHart]
    rfl
  · rw [run_logError, State.hart_setHart]

end Sys2Proof.Machine

/-! PROOFS. CSR accesses that are refused, and floating point of the scalar machine (R12, R13, R18, R21). -/

namespace Sys2Proof.Machine

/-! ## CSR accesses that are not permitted (R18, R21) -/

theorem csrCheck_absent {h : HartId} {a : Nat} (hl : csrLevel h a = none) (write : Bool) (w : Word) (s : State) :
    csrCheck h a write w s = .error (.exc (excIllegal 1 w)) s := by
  simp [csrCheck, hl, illegalM]

theorem csrCheck_level {h : HartId} {a : Nat} {s : State} (hl : csrLevel h a = some .s) (hp : (s.hart h).priv = .u) (write : Bool)
    (w : Word) : csrCheck h a write w s = .error (.exc (excIllegal 3 w)) s := by
  simp [csrCheck, hl, hp]

theorem csrCheck_readOnly {h : HartId} {a : Nat} (hl : csrLevel h a = some .u) (ha : a / 0x400 = 3) (w : Word) (s : State) :
    csrCheck h a true w s = .error (.exc (excIllegal 1 w)) s := by
  simp [csrCheck, hl, ha, illegalM]

/-- The numbers that name no CSR of a strand or a uniform hart. -/
theorem csrLevel_gap {h : HartId} (he : HartKind.isEngine h = false) {a : Nat}
    (ha : a < 0x100 ∧ 3 < a ∨ 0x200 ≤ a ∧ a < 0x5C0 ∨ 0xF00 ≤ a) : csrLevel h a = none := by
  cases h with
  | engine k => cases he
  | strand k => simp only [csrLevel, HartKind.isStrand]; split_ifs <;> first | rfl | omega
  | uniform k => simp only [csrLevel, HartKind.isStrand]; split_ifs <;> first | rfl | omega

/-- The CSRs of S that both a strand and a uniform hart have. -/
theorem csrLevel_supervisor {h : HartId} (he : HartKind.isEngine h = false) {a : Nat}
    (ha : a ∈ [0x100, 0x104, 0x105, 0x106, 0x140, 0x141, 0x142, 0x143, 0x144, 0x180, 0x5C0, 0x5C1, 0x5C2, 0x5C5, 0xDC0]) :
    csrLevel h a = some .s := by
  cases h with
  | engine k => cases he
  | strand k => revert a; simp [csrLevel]
  | uniform k => revert a; simp [csrLevel]

/-- The counters and the numbers of the context and the crew. -/
theorem csrLevel_readOnly {h : HartId} (he : HartKind.isEngine h = false) {a : Nat}
    (ha : a ∈ [0xC00, 0xC01, 0xC02, 0xCC0, 0xCC1]) : csrLevel h a = some .u ∧ a / 0x400 = 3 := by
  cases h with
  | engine k => cases he
  | strand k => revert a; simp [csrLevel]
  | uniform k => revert a; simp [csrLevel]

/-- The CSRs of a strand that a uniform hart lacks (R33). -/
theorem csrLevel_uniform {h : HartId} (hu : HartKind.isUniform h = true) {a : Nat} (ha : a ∈ [1, 2, 3, 0x5C3, 0x5C4]) :
    csrLevel h a = none := by
  cases h with
  | uniform k => revert a; simp [csrLevel, HartKind.isStrand]
  | strand k => cases hu
  | engine k => cases hu

/-- Settles O13: the check of R21 fails before the CSR is read. -/
theorem csrAccessOutsideItsLevelTraps : Obligations.CsrAccessOutsideItsLevelTraps := by
  intro s h o imm rd src a hx he
  refine ⟨fun ha => ?_, fun hp ha => ?_, fun hw ha => ?_, fun hu ha => ?_⟩
  · exact csr_trap hx o imm rd src a 1 (csrCheck_absent (csrLevel_gap he ha) ..)
  · exact csr_trap hx o imm rd src a 3 (csrCheck_level (csrLevel_supervisor he ha) (by simpa using hp) ..)
  · obtain ⟨hl, h3⟩ := csrLevel_readOnly he ha
    have hwrite : (decide (o = .rw) || decide (src ≠ 0)) = true := by simpa using hw
    exact csr_trap hx o imm rd src a 1 (by rw [hwrite]; exact csrCheck_readOnly hl h3 ..)
  · exact csr_trap hx o imm rd src a 1 (csrCheck_absent (csrLevel_uniform hu ha) ..)

/-! ## Floating point (R12, R13) -/

/-- What a floating-point instruction does to its hart: a register of f or of x written, and its flags raised. -/
theorem floatResult_shape {r : Hart} {rnd : BitVec 3 → Rnd} {op : RvOp} {f : Hart → Hart}
    (hf : Claim.floatResult r rnd op = some f) :
    ∃ rd v fl, (f = fun x => (x.wf rd v).raise fl) ∨ f = fun x => (x.wx rd v).raise fl := by
  cases op <;> simp only [Claim.floatResult, reduceCtorEq] at hf
  case fop o dbl rd rs1 rs2 rm => cases o <;> cases hf <;> exact ⟨_, _, _, .inl rfl⟩
  case fma | fsqrt | fcvtFmt | fcvtFrom | fminmax | fsgn => cases hf; exact ⟨_, _, _, .inl rfl⟩
  case fcmp | fcvtInt => cases hf; exact ⟨_, _, _, .inr rfl⟩
  case fclass => cases hf; exact ⟨_, _, 0, .inr (funext fun x => (raise_zero _).symm)⟩
  case fmvToX dbl rd rs1 => cases dbl <;> cases hf <;> exact ⟨_, _, 0, .inr (funext fun x => (raise_zero _).symm)⟩
  case fmvFromX dbl rd rs1 => cases dbl <;> cases hf <;> exact ⟨_, _, 0, .inl (funext fun x => (raise_zero _).symm)⟩

/-- A meaning that does to its hart what a floating-point instruction does. -/
theorem scalar_float {s : State} {k : Nat} (hx : Executes s (.strand k)) {rnd : BitVec 3 → Rnd} {op : RvOp} {f : Hart → Hart}
    (hf : Claim.floatResult (s.hart (.strand k)) rnd op = some f) (v : Hart → Option Nat) (m : HartId → M Unit)
    (hm : m (.strand k) (s.setHart (.strand k) (s.hart (.strand k)).past) =
      .ok () (s.setHart (.strand k) (f (s.hart (.strand k)).past))) :
    scalar v m s = .next (s.setHart (.strand k) (f (s.hart (.strand k)).stepped)) := by
  obtain ⟨rd, x, fl, rfl | rfl⟩ := floatResult_shape hf
  · exact ser_wf hx v m rd x fl hm
  · exact ser_wx hx v m rd x fl hm

theorem fsrc_past (r : Hart) (dbl : Bool) (q : Reg) : fsrc r.past dbl q = fsrc r dbl q := rfl

theorem sext32_ofNat (n : Nat) : sext32 (BitVec.ofNat 64 n) = (BitVec.ofNat 32 n).signExtend 64 := by
  rw [sext32, BitVec.setWidth_ofNat_of_le (by decide)]

section
variable {s : State} {k : Nat} {op : RvOp} {f : Hart → Hart} (csr : CsrOp → Bool → Reg → Reg → BitVec 12 → Word → M Unit)
  (ill : Word → M Unit) (w : Word)

/-- With FS on and a legal rounding mode, the meaning has the effect of the result rounded in that mode. -/
theorem rvOp_float (hf : Claim.floatResult (s.hart (.strand k)) (fun rm => { mode := Claim.modeOf (s.hart (.strand k)) rm }) op = some f)
    (hfs : Sstatus.fs (s.hart (.strand k)).sstatus ≠ 0)
    (hrm : ∀ rm, Claim.rmOf op = some rm → Claim.modeOf (s.hart (.strand k)) rm < 5) :
    rvOp csr ill (.strand k) op w (s.setHart (.strand k) (s.hart (.strand k)).past) =
      .ok () (s.setHart (.strand k) (f (s.hart (.strand k)).past)) := by
  have hon : fpOn (.strand k) w (s.setHart (.strand k) (s.hart (.strand k)).past) =
      .ok () (s.setHart (.strand k) (s.hart (.strand k)).past) := fpOn_ok k w _ (by simpa using hfs)
  have hround : ∀ rm, Claim.rmOf op = some rm → fpRound (.strand k) rm w (s.setHart (.strand k) (s.hart (.strand k)).past) =
      .ok { mode := Claim.modeOf (s.hart (.strand k)) rm } (s.setHart (.strand k) (s.hart (.strand k)).past) := fun rm hop => by
    have h := fpRound_ok k rm w (s.setHart (.strand k) (s.hart (.strand k)).past) (by simpa using hfs)
      (by rw [State.hart_setHart]; exact hrm rm hop)
    rwa [State.hart_setHart] at h
  cases op <;> simp only [Claim.floatResult, reduceCtorEq] at hf
  case fop o dbl rd rs1 rs2 rm =>
    cases o <;> cases hf <;> simp [rvOp, hround rm rfl, fput, fsrc_past]
  case fma o dbl rd rs1 rs2 rs3 rm =>
    cases o <;> cases hf <;> simp [rvOp, hround rm rfl, fput, fsrc_past]
  case fsqrt dbl rd rs1 rm => cases hf; simp [rvOp, hround rm rfl, fput, fsrc_past]
  case fcvtFmt d rd rs1 rm => cases hf; simp [rvOp, hround rm rfl, fput, fsrc_past]
  case fcvtFrom t dbl rd rs1 rm => cases hf; simp [rvOp, hround rm rfl, fput]
  case fcvtInt t dbl rd rs1 rm =>
    cases t <;> cases hf <;> simp [rvOp, hround rm rfl, xput, fsrc_past, intFmtOf, sext32_ofNat]
  case fminmax => cases hf; simp [rvOp, hon, fput]
  case fsgn => cases hf; simp [rvOp, hon, fput]
  case fcmp => cases hf; simp [rvOp, hon, xput, fsrc_past] <;> rfl
  case fclass => cases hf; simp [rvOp, hon]
  case fmvToX dbl rd rs1 => cases dbl <;> cases hf <;> simp [rvOp, hon, sext32]
  case fmvFromX dbl rd rs1 =>
    cases dbl <;> cases hf
    · rw [← box_false]
      simp [rvOp, hon]
    · simp [rvOp, hon]

/-- With FS off or a rounding mode that is none, the meaning is illegal. -/
theorem rvOp_float_illegal {rnd : BitVec 3 → Rnd} (hf : Claim.floatResult (s.hart (.strand k)) rnd op = some f)
    (hbad : Sstatus.fs (s.hart (.strand k)).sstatus = 0 ∨
      ∃ rm, Claim.rmOf op = some rm ∧ 5 ≤ Claim.modeOf (s.hart (.strand k)) rm) :
    rvOp csr ill (.strand k) op w (s.setHart (.strand k) (s.hart (.strand k)).past) =
      .error (.exc (excIllegal 1 w)) (s.setHart (.strand k) (s.hart (.strand k)).past) := by
  have hround : ∀ rm, Claim.rmOf op = some rm → fpRound (.strand k) rm w (s.setHart (.strand k) (s.hart (.strand k)).past) =
      .error (.exc (excIllegal 1 w)) (s.setHart (.strand k) (s.hart (.strand k)).past) := fun rm hop => by
    refine fpRound_bad k rm w _ ?_
    rw [State.hart_setHart]
    refine hbad.imp id fun ⟨q, hq, h5⟩ => ?_
    rw [hop, Option.some.injEq] at hq
    rw [hq]
    exact h5
  have hoff : Claim.rmOf op = none → fpOn (.strand k) w (s.setHart (.strand k) (s.hart (.strand k)).past) =
      .error (.exc (excIllegal 1 w)) (s.setHart (.strand k) (s.hart (.strand k)).past) := fun hop => by
    refine fpOn_off k w _ ?_
    rw [State.hart_setHart]
    exact hbad.resolve_right fun ⟨q, hq, _⟩ => by rw [hop] at hq; cases hq
  cases op <;> simp only [Claim.floatResult, reduceCtorEq] at hf
  case fop | fma | fsqrt | fcvtFmt | fcvtFrom | fcvtInt => simp [rvOp, hround _ rfl]
  case fminmax | fsgn | fcmp | fclass | fmvToX | fmvFromX => simp [rvOp, hoff rfl]

end

/-- Settles O14: the meaning by `rvOp_float`, its frame by `scalar_float`; the illegal cases raise before any effect. -/
theorem floatInstructionResult : Obligations.FloatInstructionResult :=
  fun _ _ _ _ hx hf => ⟨fun ⟨hfs, hrm⟩ => scalar_float hx hf _ _ (rvOp_float _ _ _ hf hfs hrm),
    fun hbad => scalar_exc_first hx _ _ (excIllegal 1 _) (rvOp_float_illegal _ _ _ hf hbad)⟩

end Sys2Proof.Machine

/-! PROOFS. Loads, stores, atomics and fences of the scalar machine (R15 to R17, R114, R116, R304). -/

namespace Sys2Proof.Machine

/-! ## Loads and stores (R15) -/

theorem stdAcc_run (s : State) (h : HartId) : stdAcc h s = .ok { s.accOf h with std := true } s := rfl

theorem loadStd_ok {s t : State} {h : HartId} {va : Dword} {n : Nat} {bs : List Byte} (hl : va.toNat % 256 + n ≤ 256)
    (hr : vread (Claim.stdAccOf s h) va n (Claim.inside s h) = .ok bs t) :
    loadStd h va n (Claim.inside s h) = .ok (natOfBytes bs) t := by
  rw [Claim.stdAccOf] at hr
  simp [loadStd, Nat.not_lt.mpr hl, stdAcc_run, hr]

theorem storeStd_ok {s t : State} {h : HartId} {va : Dword} {n v : Nat} (hl : va.toNat % 256 + n ≤ 256)
    (hw : vwrite (Claim.stdAccOf s h) va (leBytes n v) (Claim.inside s h) = .ok () t) :
    storeStd h va n v (Claim.inside s h) = .ok () t := by
  rw [Claim.stdAccOf] at hw
  simp [storeStd, Nat.not_lt.mpr hl, stdAcc_run, hw]

theorem loadStd_crossing {s : State} {h : HartId} {va : Dword} {n : Nat} (hl : 256 < va.toNat % 256 + n) :
    loadStd h va n s = .error (.exc (misaligned 4 va)) s := by
  simp [loadStd, hl]

theorem storeStd_crossing {s : State} {h : HartId} {va : Dword} {n v : Nat} (hl : 256 < va.toNat % 256 + n) :
    storeStd h va n v s = .error (.exc (misaligned 6 va)) s := by
  simp [storeStd, hl]

theorem fpOn_inside {s : State} {k : Nat} (hfs : Sstatus.fs (s.hart (.strand k)).sstatus ≠ 0) (w : Word) :
    fpOn (.strand k) w (Claim.inside s (.strand k)) = .ok () (Claim.inside s (.strand k)) :=
  fpOn_ok k w _ (by simpa using hfs)

/-- Settles O15: an access that completes by `loadStd_ok` or `storeStd_ok`, then the register of a load. -/
theorem loadsAndStoresComplete : Obligations.LoadsAndStoresComplete := by
  refine ⟨fun s t h width rd rs1 imm bs hx hl hr => ?_, fun s t h width rs1 rs2 imm hx hl hw => ?_,
    fun s t k dbl rd rs1 imm bs hx hfs hl hr => ?_, fun s t k dbl rs1 rs2 imm hx hfs hl hw => ?_⟩
  · refine scalar_retired hx _ _ _ ?_
    simp [loadStore, loadStd_ok hl hr]
  · refine scalar_ok hx _ _ ?_
    simpa [loadStore, accOf_inside] using storeStd_ok hl hw
  · refine scalar_retired hx _ _ _ ?_
    simp [loadStore, fpOn_inside hfs, loadStd_ok hl hr]
  · refine scalar_ok hx _ _ ?_
    simpa [loadStore, accOf_inside, fpOn_inside hfs] using storeStd_ok hl hw

/-! ## Atomics (R16, R17) -/

theorem relM_run (t : State) (h : HartId) (rl : Bool) : relM h rl t = .ok () (Claim.released t h rl) := by
  cases rl <;> rfl

theorem rx_congr {r q : Hart} (hx : r.x = q.x) (n : Reg) : r.rx n = q.rx n := by
  simp only [Hart.rx, hx]

section
variable {r : State} {h : HartId} {d : Bool} {rd rs1 rs2 : Reg}

theorem loadReserved_misaligned (ha : ((r.hart h).rx rs1).toNat % amoWidth d ≠ 0) :
    loadReserved h d rd rs1 r = .error (.exc (misaligned 6 ((r.hart h).rx rs1))) r := by
  simp [loadReserved, stdAcc_run, atomicLoc, ha]

theorem storeConditional_misaligned (ha : ((r.hart h).rx rs1).toNat % amoWidth d ≠ 0) :
    storeConditional h d rd rs1 rs2 r = .error (.exc (misaligned 6 ((r.hart h).rx rs1))) r := by
  simp [storeConditional, stdAcc_run, atomicLoc, ha]

theorem amoStd_misaligned {o : AmoOp} (ha : ((r.hart h).rx rs1).toNat % amoWidth d ≠ 0) :
    amoStd h o d rd rs1 rs2 r = .error (.exc (misaligned 6 ((r.hart h).rx rs1))) r := by
  simp [amoStd, stdAcc_run, ha]

/-- LR reads the word and holds a reservation on it. -/
theorem loadReserved_ok {t u : State} {l : Loc} {bs : List Byte}
    (hl : atomicLoc { r.accOf h with std := true } ((r.hart h).rx rs1) (amoWidth d) .load r = .ok l t)
    (hr : vread { r.accOf h with std := true } ((r.hart h).rx rs1) (amoWidth d) t = .ok bs u) :
    loadReserved h d rd rs1 r =
      .ok () (u.setHart h { (u.hart h).wx rd (amoResult d (natOfBytes bs)) with resv := some (resvOf u l) }) := by
  simp [loadReserved, stdAcc_run, hl, hr]

/-- SC under a reservation of the word's granule stores. -/
theorem storeConditional_held {t u : State} {l : Loc}
    (hl : atomicLoc { r.accOf h with std := true } ((r.hart h).rx rs1) (amoWidth d) .store r = .ok l t)
    (hg : (t.hart h).resv.map (·.granule) = some (resvOf t l).granule)
    (hw : vwrite { r.accOf h with std := true } ((r.hart h).rx rs1) (leBytes (amoWidth d) ((r.hart h).rx rs2).toNat) t = .ok () u) :
    storeConditional h d rd rs1 rs2 r = .ok () (u.setHart h { (u.hart h).wx rd 0 with resv := none }) := by
  simp [storeConditional, stdAcc_run, hl, hg, hw, -Option.map_eq_some_iff]

/-- SC without one stores nothing. -/
theorem storeConditional_lost {t : State} {l : Loc}
    (hl : atomicLoc { r.accOf h with std := true } ((r.hart h).rx rs1) (amoWidth d) .store r = .ok l t)
    (hg : (t.hart h).resv.map (·.granule) ≠ some (resvOf t l).granule) :
    storeConditional h d rd rs1 rs2 r = .ok () (t.setHart h { (t.hart h).wx rd 1 with resv := none }) := by
  simp [storeConditional, stdAcc_run, hl, hg, -Option.map_eq_some_iff]

theorem amoStd_ok {t : State} {o : AmoOp} {old : Nat} (ha : ((r.hart h).rx rs1).toNat % amoWidth d = 0)
    (hm : vrmw { r.accOf h with std := true } ((r.hart h).rx rs1) (amoWidth d)
      (fun v => some (amoNew o (8 * amoWidth d) v ((r.hart h).rx rs2).toNat)) r = .ok old t) :
    amoStd h o d rd rs1 rs2 r = .ok () (t.setHart h ((t.hart h).wx rd (amoResult d old))) := by
  simp [amoStd, stdAcc_run, ha, hm]

end

/-- Settles O16: the checks of the address come before the access, and after the release of rl. -/
theorem lineCrossingAccessTraps : Obligations.LineCrossingAccessTraps := by
  intro s h rd rs1 rs2 imm loadW storeW d aq rl o hx
  refine ⟨fun hl => ?_, fun hl => ?_, fun ha => ⟨?_, fun hreg => ⟨?_, ?_⟩⟩⟩
  · refine scalar_exc_first hx _ _ (misaligned 4 _) ?_
    simp [loadStore, loadStd_crossing hl]
  · refine scalar_exc_first hx _ _ (misaligned 6 _) ?_
    simp [loadStore, storeStd_crossing hl]
  · refine scalar_exc_first hx _ _ (misaligned 6 _) ?_
    rw [bind_run, loadReserved_misaligned (by simpa using ha), State.hart_setHart]
    rfl
  · refine scalar_exc hx _ _ (misaligned 6 _) ?_
    rw [accOf_inside, bind_run, relM_run, ← rx_congr hreg]
    exact storeConditional_misaligned (by rwa [rx_congr hreg])
  · refine scalar_exc hx _ _ (misaligned 6 _) ?_
    rw [accOf_inside, bind_run, relM_run, ← rx_congr hreg]
    exact amoStd_misaligned (by rwa [rx_congr hreg])

/-- Settles O17: LR by `loadReserved_ok` and then its release; SC after its release, with the reservation and without it. -/
theorem loadReservedAndStoreConditional : Obligations.LoadReservedAndStoreConditional := by
  refine ⟨fun s t u h d aq rl rd rs1 l bs hx hl hr => scalar_ok hx _ _ ?_,
    fun s r t u h d aq rl rd rs1 rs2 l hx hrel hreg hl => ⟨fun hg hw => ?_, fun hg => ?_⟩⟩
  · have hrx : (s.hart h).rx rs1 = ((Claim.inside s h).hart h).rx rs1 := by rw [inside_hart, Hart.past_rx]
    rw [hrx] at hl hr
    rw [accOf_inside, bind_run, loadReserved_ok hl hr]
    exact relM_run ..
  · subst hrel
    rw [← rx_congr hreg] at hl hw
    rw [← rx_congr hreg rs2] at hw
    refine scalar_retired hx _ _ _ ?_
    rw [bind_run, relM_run]
    exact storeConditional_held hl hg hw
  · subst hrel
    rw [← rx_congr hreg] at hl
    refine scalar_retired hx _ _ _ ?_
    rw [bind_run, relM_run]
    exact storeConditional_lost hl hg

/-- Settles O18: after the release, `amoStd_ok`. -/
theorem amoReadsModifiesWrites : Obligations.AmoReadsModifiesWrites := by
  intro s r t h o d aq rl rd rs1 rs2 old hx hr hreg ha hm
  subst hr
  rw [← rx_congr hreg] at ha hm
  rw [← rx_congr hreg rs2] at hm
  refine scalar_retired hx _ _ _ ?_
  rw [bind_run, relM_run]
  exact amoStd_ok ha hm

/-! ## Fences and hints (R12, R16, R114, R116, R304) -/

theorem releaseM_run (s : State) (h : HartId) (scope : Nat) : releaseM h scope s = .ok () (s.releaseUnit (s.accOf h).who scope) := rfl

/-- A hart stands at the same safe point while its instruction executes. -/
theorem scalarHonoured_inside (s : State) (h : HartId) (pc : Dword) :
    (Claim.inside s h).scalarHonoured h pc = s.scalarHonoured h pc := by
  simp [State.scalarHonoured, State.safeEntry, Claim.inside]

/-- The same interrupts are pending while an instruction executes. -/
theorem pending_inside (s : State) (h : HartId) : (Claim.inside s h).pending h = s.pending h := by
  cases h <;> simp [State.pending, State.now, Claim.inside] <;> rfl

/-- A privileged instruction passes its checks in S on a hart that has it. -/
theorem levelS_supervisor {s : State} {h : HartId} (he : HartKind.isEngine h = false) (hp : (s.hart h).priv = .s) (i : Instr)
    (rest : M Unit) : (kindM (notEngine h) i >>= fun _ => levelS h i >>= fun _ => rest) s = rest s := by
  simp [kindM, levelS, notEngine, he, hp]

/-- The forms of FENCE without a release. -/
theorem fenceRv_on {s : State} {h : HartId} (hx : Executes s h) {fm pred succ : BitVec 4} {rd rs1 : Reg}
    (hf : pred = 0 ∨ succ = 0 ∨ pred = 2 ∧ succ = 3) :
    exec (.fenceRv fm pred succ rd rs1) s = .next (s.setHart h (s.hart h).stepped) := by
  refine scalar_on hx _ _ ?_
  have hc : (decide (pred = 0) || decide (succ = 0) || (decide (pred = 2) && decide (succ = 3))) = true := by
    simpa [or_assoc] using hf
  simp only [hc, if_true, pure_run]

theorem fenceRv_releases {s : State} {h : HartId} (hx : Executes s h) {fm pred succ : BitVec 4} {rd rs1 : Reg}
    (hf : ¬(pred = 0 ∨ succ = 0 ∨ pred = 2 ∧ succ = 3)) :
    exec (.fenceRv fm pred succ rd rs1) s = .next (Claim.retire (Claim.rel (Claim.inside s h) h 4) h) := by
  refine scalar_ok hx _ _ ?_
  have hc : (decide (pred = 0) || decide (succ = 0) || (decide (pred = 2) && decide (succ = 3))) = false := by
    rw [← Bool.not_eq_true]
    simpa [or_assoc] using hf
  simp only [hc, Bool.false_eq_true, if_false, accOf_inside]
  exact releaseM_run ..

theorem fenceS_acquires {s : State} {h : HartId} (hx : Executes s h) (scope : BitVec 2) :
    exec (.fenceS scope 5) s = .next (s.setHart h (s.hart h).stepped) :=
  scalar_on hx _ _ rfl

theorem fenceS_releases {s : State} {h : HartId} (hx : Executes s h) {scope : BitVec 2} {sem : BitVec 4} (h6 : 6 ≤ sem.toNat)
    (h8 : sem.toNat ≤ 8) :
    exec (.fenceS scope sem) s = .next (Claim.retire (Claim.rel (Claim.inside s h) h (scope.toNat + 1)) h) := by
  refine scalar_ok hx _ _ ?_
  have hok : decide (5 ≤ sem.toNat ∧ sem.toNat ≤ 8) = true := decide_eq_true ⟨by omega, h8⟩
  have hne : (sem != 5) = true := by
    rw [bne_iff_ne]
    rintro rfl
    exact absurd h6 (by decide)
  simp only [hok, hne, guardM_true, bind_run, if_true, accOf_inside]
  exact releaseM_run ..

theorem fenceS_reserved {s : State} {h : HartId} (hx : Executes s h) {scope : BitVec 2} {sem : BitVec 4} {w : Word}
    (hs : sem.toNat < 5 ∨ 8 < sem.toNat) (hw : encodeScalar (.fenceS scope sem) = some w) :
    exec (.fenceS scope sem) s = Claim.traps s h 2 0 (w.setWidth 64) 2 := by
  refine refused_trap 2 hx hw ?_
  have hno : decide (5 ≤ sem.toNat ∧ sem.toNat ≤ 8) = false := decide_eq_false fun ⟨h5, h8⟩ => by omega
  simp only [hno, guardM_false, bind_run]

theorem wfi_pending {s : State} {h : HartId} (hx : Executes s h) (he : HartKind.isEngine h = false) (hp : (s.hart h).priv = .s)
    (hi : s.pending h &&& (s.hart h).sie ≠ 0) : exec .wfi s = .next (s.setHart h (s.hart h).stepped) := by
  refine scalar_on hx _ _ ?_
  rw [levelS_supervisor he (by simpa using hp)]
  simpa [pending_inside] using hi

theorem wfi_parks {s : State} {h : HartId} (hx : Executes s h) (he : HartKind.isEngine h = false) (hp : (s.hart h).priv = .s)
    (hi : s.pending h &&& (s.hart h).sie = 0) : exec .wfi s = .next (s.setHart h { s.hart h with run := .parked .wfi }) := by
  refine (scalar_park hx _ _ .wfi (t := Claim.inside s h) ?_).trans ?_
  · rw [accOf_inside, levelS_supervisor he (by simpa using hp)]
    simpa [pending_inside] using hi
  · rw [Claim.inside, State.setHart_setHart, State.hart_setHart]
    rfl

/-- An entry that SFENCE.VMA with these operands names (R16): x0 stands for every address, or for every ASID with the global
entries. -/
def fenceNames (r : Hart) (rs1 rs2 : Reg) (e : TlbEntry) : Bool :=
  (rs1 == 0 || decide (e.va ≤ (r.rx rs1).toNat % 2 ^ 48 ∧ (r.rx rs1).toNat % 2 ^ 48 < e.va + e.size)) &&
    (rs2 == 0 || (e.asid == (r.rx rs2).toNat % 2 ^ 16 && !Pte.g e.pte))

theorem fenceNames_iff (r : Hart) (rs1 rs2 : Reg) (e : TlbEntry) : fenceNames r rs1 rs2 e = true ↔
    (rs1 = 0 ∨ e.va ≤ (r.rx rs1).toNat % 2 ^ 48 ∧ (r.rx rs1).toNat % 2 ^ 48 < e.va + e.size) ∧
      (rs2 = 0 ∨ e.asid = (r.rx rs2).toNat % 2 ^ 16 ∧ Pte.g e.pte = false) := by
  simp [fenceNames]

theorem sfenceVma_drops {s : State} {h : HartId} (hx : Executes s h) (he : HartKind.isEngine h = false) (hp : (s.hart h).priv = .s)
    (rs1 rs2 : Reg) : exec (.sfenceVma rs1 rs2) s = .next ((s.setHart h (s.hart h).stepped).setTlb ((Claim.inside s h).accOf h).tlb
      ((s.tlb ((Claim.inside s h).accOf h).tlb).filter fun e => !fenceNames (s.hart h) rs1 rs2 e)) := by
  refine (scalar_other hx (t := s.setTlb _ _) _ _ ?_).trans (congrArg _ (State.setTlb_setHart s h he ..).symm)
  rw [levelS_supervisor he (by simpa using hp), ← State.setTlb_setHart s h he]
  simp [ownAcc, fenceNames, Claim.inside, State.tlb_setHart s h he] <;> rfl

theorem safe_on {s : State} {h : HartId} (hx : Executes s h) (he : HartKind.isEngine h = false)
    (hs : s.scalarHonoured h (s.hart h).pc = false) : exec .scalarSafe s = .next (s.setHart h (s.hart h).stepped) := by
  refine scalar_on hx _ _ ?_
  simp [kindM, notEngine, he, scalarHonoured_inside, hs]

theorem safe_parks {s : State} {h : HartId} (hx : Executes s h) (he : HartKind.isEngine h = false)
    (hs : s.scalarHonoured h (s.hart h).pc = true) :
    exec .scalarSafe s = .next (s.setHart h { s.hart h with run := .parked .safe }) := by
  refine (scalar_park hx _ _ .safe (t := Claim.inside s h) ?_).trans ?_
  · rw [accOf_inside]
    simp [kindM, notEngine, he, scalarHonoured_inside, hs]
  · rw [Claim.inside, State.setHart_setHart, State.hart_setHart]
    rfl

theorem fenceI_on {s : State} {h : HartId} (hx : Executes s h) (hk : HartKind.isStrand h = true) (imm : BitVec 12) (rd rs1 : Reg) :
    exec (.fenceI imm rd rs1) s = .next (s.setHart h (s.hart h).stepped) := by
  refine scalar_on hx _ _ ?_
  rw [hk]
  rfl

theorem yield_strand {s : State} {k : Nat} (hx : Executes s (.strand k)) :
    exec .scalarYield s = .next ((s.setCore (k / 8) { s.core (k / 8) with rr := k % 8 }).setHart (.strand k)
      (s.hart (.strand k)).stepped) := by
  refine scalar_other hx _ _ ?_
  simp [Claim.inside, kindM, notEngine, HartKind.isEngine]

theorem yield_other {s : State} {k : Nat} (hx : Executes s (.uniform k)) (hc : (s.wengine (k / 16)).current ≠ some (k % 16)) :
    exec .scalarYield s = .next (s.setHart (.uniform k) (s.hart (.uniform k)).stepped) := by
  refine scalar_on hx _ _ ?_
  simp [Claim.inside, kindM, notEngine, HartKind.isEngine, hc]

theorem yield_current {s : State} {k : Nat} (hx : Executes s (.uniform k)) (hc : (s.wengine (k / 16)).current = some (k % 16)) :
    exec .scalarYield s = .next ((s.setWengine (k / 16) { s.wengine (k / 16) with switch := true, currentSince := s.clk }).setHart
      (.uniform k) (s.hart (.uniform k)).stepped) := by
  refine scalar_other hx _ _ ?_
  simp [Claim.inside, kindM, notEngine, HartKind.isEngine, hc]

/-- Settles O20: one lemma for each way that a fence or a hint goes on. That WFI waits for an interrupt pending and enabled is the
model's reading of R12. -/
theorem fencesAndHintsGoOn : Obligations.FencesAndHintsGoOn := by
  intro s h hx
  refine ⟨fun _ _ _ _ _ => fenceRv_on hx, fun _ _ _ _ _ => fenceRv_releases hx, rel_drained, fenceS_acquires hx,
    fun _ _ => fenceS_releases hx, fun _ _ _ => fenceS_reserved hx, fun imm rd rs1 hk => fenceI_on hx hk imm rd rs1,
    fun he hp => ⟨wfi_pending hx he hp, wfi_parks hx he hp, fun rs1 rs2 => ⟨_, sfenceVma_drops hx he hp rs1 rs2, ?_, fun e => ?_⟩⟩,
    fun he => ⟨safe_on hx he, safe_parks hx he⟩, ?_, ?_, ?_⟩
  · rintro rfl rfl
    simp [fenceNames]
  · rw [List.mem_filter, Bool.not_eq_true', ← Bool.not_eq_true, fenceNames_iff]
  · rintro k rfl
    exact yield_strand hx
  · rintro k rfl
    exact yield_other hx
  · rintro k rfl
    exact yield_current hx

end Sys2Proof.Machine

/-! PROOFS. Words written from the encoding tables, and the state after reset (R10, R20, R22 to R25, R32, R65 to R69, R144, R165). -/

namespace Sys2Proof.Machine

/-- Settles O2: each word is decoded. -/
theorem writtenWordsDecode : Obligations.WrittenWordsDecode :=
  ⟨rfl, rfl, rfl, rfl, rfl, rfl, rfl, rfl, rfl, rfl, rfl, rfl, rfl, rfl, rfl, rfl, rfl, rfl, rfl, rfl⟩

/-- Every register of a strand reads 0 after reset (log 4). -/
theorem rx_reset (k : Nat) (q : Reg) : (State.reset.hart (.strand k)).rx q = 0 := by
  have hx : (State.reset.hart (.strand k)).x = Vector.replicate 32 0 := rfl
  have hq : q.toNat < 32 := q.isLt
  simp [Hart.rx, hx, hq]

/-- No interrupt is pending after reset: time has not reached dtimecmp and the error log is empty. -/
theorem pending_reset (k : Nat) : State.reset.pending (.strand k) = 0 := by
  have hssip : (State.reset.hart (.strand k)).ssip = false := rfl
  have htime : ¬(State.reset.hart (.strand k)).dtimecmp.toNat ≤ State.reset.now % 2 ^ 64 :=
    show ¬(BitVec.allOnes 64).toNat ≤ 0 % 2 ^ 64 by decide
  have hlog : State.reset.elTail = State.reset.elHead := rfl
  simp only [State.pending, hssip, htime, hlog, ne_eq, not_true_eq_false, and_false, Bool.false_eq_true, if_false]
  rfl

/-- Settles O42: the maps of units and bytes are empty after reset, so that each unit and byte reads its default; the zeros of memory,
registers and level are the model's choice (logs 3 and 4). -/
theorem resetState : Obligations.ResetState :=
  ⟨fun k => ⟨rfl, rfl, rfl, rfl, rfl, rfl, rfl, rfl, rfl, rfl, rfl, rfl, rfl, rfl, rfl, rfl, rfl, rfl, rx_reset k, pending_reset k⟩,
    fun _ => rfl, fun _ => rfl, rfl⟩

end Sys2Proof.Machine

/-! PROOFS. A step as exec of the decoded instruction, of a hart and of a lane group (R69, R144, R147, R242). -/

namespace Sys2Proof.Machine

theorem step_scheduled {s : State} {t : Turn} {rest : List Turn} (hh : s.halted = false) (hs : s.sched = t :: rest) :
    step s = runTurn t { s with sched := rest } := by
  simp [step, turn, hh, hs]

theorem runTurn_turnOf (h : HartId) (s : State) : runTurn (Claim.turnOf h) s = hartTurn h s := by
  cases h <;> rfl

/-- A hart with nothing to do before its next instruction runs the word that it fetches. -/
theorem hartTurn_runs {v u t : State} {h : HartId} {w : Word} (hu : u = { v with actor := some (.hart h) })
    (hf : Claim.Fetches u h) (hw : fetchScalar h u = .ok w t) : hartTurn h v = exec (decodeScalar w) t := by
  obtain ⟨hbufs, hhandler, hintr, hrun, -, -⟩ := hf
  subst hu
  simp [hartTurn, hbufs, hhandler, hintr, hrun, hw]

theorem fetchScalar_ok {u t : State} {h : HartId} {bs : List Byte} (hf : Claim.Fetches u h)
    (hb : fetchBytes (u.accOf h) (u.hart h).pc 4 u = .ok bs t) : fetchScalar h u = .ok (BitVec.ofNat 32 (natOfBytes bs)) t := by
  obtain ⟨-, -, -, -, hcode, halign⟩ := hf
  rw [fetchScalar_eq h u hcode halign, hb]

/-- A group that may issue, of a wave with its buffer records read, runs the word that it fetches. -/
theorem laneTurn_runs {v u t : State} {k : Nat} {sec : Bool} {g : Group} {w : BitVec 96}
    (hu : u = { v with actor := some (.lanes k sec) }) (hg : (u.wave k).group sec = some g) (hi : (u.wave k).lanesIssue = true)
    (hb : u.waveBufsDue k = false) (hw : fetchLane k g u = .ok w t) : laneTurn k sec v = exec (decodeLane w) t := by
  subst hu
  simp only [laneTurn, hg, hi, hb, hw, Bool.not_true, Bool.false_eq_true, if_false]

/-- Inside the lane section a group's word is the 12 bytes at its pc. -/
theorem fetchLane_ok {u t : State} {k : Nat} {g : Group} {bs : List Byte} (hl : (u.wave k).lhandler = none)
    (hin : g.pc + 12 ≤ (u.wave k).code.size)
    (hb : fetchBytes (u.laneAcc k) (BitVec.ofNat 64 ((u.wave k).code.va + g.pc)) 12 u = .ok bs t) :
    fetchLane k g u = .ok (BitVec.ofNat 96 (natOfBytes bs)) t := by
  simp [fetchLane, Wave.codeAddr, hl, Nat.not_lt.mpr hin, hb]

/-- Settles O1: the turn at the head of the schedule fetches its word and runs what the word decodes to. -/
theorem stepRunsTheDecodedInstruction : Obligations.StepRunsTheDecodedInstruction := by
  refine ⟨fun s u t h rest bs hh hs hu hf hb => ?_, fun s u t k sec g rest bs hh hs hu hg hi hbufs hl hin hb => ?_⟩
  · rw [step_scheduled hh hs, runTurn_turnOf]
    exact hartTurn_runs hu hf (fetchScalar_ok hf hb)
  · rw [step_scheduled hh hs]
    exact laneTurn_runs hu hg hi hbufs (fetchLane_ok hl hin hb)

end Sys2Proof.Machine

/-! PROOFS. Scoped atomics of a hart: their SEM codes, their release and their one access (R65, R67, R68, R281, R282, R285). -/

namespace Sys2Proof.Machine

theorem semCodeOk_iff (o : AtomOp) (sem : BitVec 4) :
    semCodeOk o sem = true ↔ sem.toNat ≤ 8 ∧ ¬(sem = 1 ∧ (o = .swap ∨ o = .cas)) := by
  simp [semCodeOk, imp_iff_not_or]

/-- The state in which a scoped atomic makes its access: after its release, if its SEM code orders one (R67, R304). -/
def semReleased (s : State) (h : HartId) (a : AmoArgs) : State :=
  if 6 ≤ a.sem.toNat then s.releaseUnit (s.accOf h).who (a.scope.toNat + 1) else s

/-- The word that a scoped atomic takes from a register of its hart. -/
def amoOperand (a : AmoArgs) (r : Hart) (q : Reg) : Nat := (r.rx q).toNat % 2 ^ (8 * amoWidth a.dbl)

section
variable {s : State} {h : HartId} {o : AtomOp} {i : Instr} {a : AmoArgs}

theorem amoM_reserved (hc : semCodeOk o a.sem = false) : amoM o i a h s = .error (.exc (excIllegal 2 (wordOf i))) s := by
  simp only [amoM, hc, bind_run, guardM_false]

theorem amoM_misaligned (hc : semCodeOk o a.sem = true) (ha : ((s.hart h).rx a.rs1).toNat % amoWidth a.dbl ≠ 0) :
    amoM o i a h s = .error (.exc (excDev 4 0 ((s.hart h).rx a.rs1))) s := by
  rw [amoWidth] at ha
  simp only [amoM, hc, bind_run, guardM_true, getHart_run, aligned, decide_eq_false ha, guardM_false]

/-- Past its checks a scoped atomic takes its operands, releases, makes its access and writes rd. -/
theorem amoM_aligned (hc : semCodeOk o a.sem = true) (ha : ((s.hart h).rx a.rs1).toNat % amoWidth a.dbl = 0) :
    amoM o i a h s = (atomAccess ((semReleased s h a).accOf h) ((s.hart h).rx a.rs1) (amoWidth a.dbl) o
        (amoOperand a (s.hart h) a.rs2) (amoOperand a (s.hart h) a.rd) a.sem.toNat (a.scope.toNat + 1) >>= fun old =>
      setReg h a.rd (amoResult a.dbl old)) (semReleased s h a) := by
  simp only [amoWidth, amoOperand, semReleased] at ha ⊢
  simp only [amoM, hc, bind_run, guardM_true, getHart_run, aligned, ha, decide_true]
  by_cases h6 : 6 ≤ a.sem.toNat
  · simp only [h6, if_true, releaseM_run, ownAcc, bind_run, get_run, pure_run]
  · simp only [h6, if_false, ownAcc, bind_run, get_run, pure_run]

end

/-! ## The access by its declared use (R282) -/

section
variable {s t : State} {acc : Acc} {va : Dword} {n d c scope old : Nat} {o : AtomOp}

theorem atomAccess_quantum : atomAccess acc va n o d c 3 scope = quantumIssue acc va n o d c scope := rfl

theorem atomAccess_rmw {sem : BitVec 4} (h3 : sem ≠ 3) (h4 : sem ≠ 4)
    (hm : vrmw acc va n (fun v => atomNew o (8 * n) v d c) s = .ok old t) :
    atomAccess acc va n o d c sem.toNat scope s = .ok (if sem = 1 then 0 else old) t := by
  have hn3 : sem.toNat ≠ 3 := fun e => h3 (BitVec.eq_of_toNat_eq e)
  have hn4 : sem.toNat ≠ 4 := fun e => h4 (BitVec.eq_of_toNat_eq e)
  have hn1 : sem.toNat = 1 ↔ sem = 1 := ⟨fun e => BitVec.eq_of_toNat_eq e, fun e => congrArg BitVec.toNat e⟩
  simp only [atomAccess, hn3, hn4, hn1, if_false, bind_run, hm]
  split <;> rfl

/-- A speculative use answers the old value or a free one (log 15), and the draws change nothing else. -/
theorem atomAccess_speculative (hm : vrmw acc va n (fun v => atomNew o (8 * n) v d c) s = .ok old t) :
    atomAccess acc va n o d c 4 scope s =
      .ok (if (t.drawNat 2).1 = 0 then old else (t.drawNat 2).2.drawDword.1.toNat % 2 ^ (8 * n)) { t with free := t.free + 2 } := by
  simp only [atomAccess, Nat.reduceEqDiff, if_false, if_true, bind_run, hm, freeNatM_run, freeDwordM_run]
  rfl

end

theorem amoResult_zero (d : Bool) : amoResult d 0 = 0 := by
  cases d <;> rfl

/-- A scoped atomic whose access answers `old`: rd is written and the hart retires. -/
theorem scoped_completes {s t : State} {h : HartId} {o : AtomOp} {a : AmoArgs} {i : Instr} {old : Nat} (hx : Executes s h)
    (hi : Claim.scopedAmo o a = some i) (hc : semCodeOk o a.sem = true)
    (ha : ((s.hart h).rx a.rs1).toNat % amoWidth a.dbl = 0)
    (hm : atomAccess ((semReleased (Claim.inside s h) h a).accOf h) ((s.hart h).rx a.rs1) (amoWidth a.dbl) o
      (amoOperand a (s.hart h) a.rs2) (amoOperand a (s.hart h) a.rd) a.sem.toNat (a.scope.toNat + 1)
      (semReleased (Claim.inside s h) h a) = .ok old t) :
    exec i s = .next (t.setHart h ((t.hart h).wx a.rd (amoResult a.dbl old)).retired) := by
  rw [scoped_exec hi]
  refine scalar_retired hx _ _ _ ?_
  rw [amoM_aligned hc (by rwa [inside_hart])]
  simp only [inside_hart, amoOperand, Hart.past_rx] at hm ⊢
  rw [bind_run, hm]
  rfl

/-- Settles O19: the SEM code and the alignment are checked before any effect, then `scoped_completes` with the access of the declared
use. That a misaligned address stands in stval (log 9) and that a speculative use answers the old value or a free one (log 15) are
the model's choices. -/
theorem scopedAtomicReadsModifiesWrites : Obligations.ScopedAtomicReadsModifiesWrites := by
  intro s r t h o a i old n hx hi hn
  subst hn
  refine ⟨fun hbad w hw => ?_, fun h8 huse => ?_⟩
  · rw [scoped_exec hi]
    refine refused_trap 2 hx hw (amoM_reserved ?_)
    rw [← Bool.not_eq_true, semCodeOk_iff]
    exact fun ⟨h8, huse⟩ => hbad.elim (Nat.not_lt.mpr h8) huse
  · have hc : semCodeOk o a.sem = true := (semCodeOk_iff o a.sem).2 ⟨h8, huse⟩
    refine ⟨fun ha => ?_, fun ha hr => ?_⟩
    · rw [scoped_exec hi]
      refine scalar_exc_first hx _ _ (excDev 4 0 _) ?_
      rw [accOf_inside, amoM_misaligned hc (by rwa [inside_hart]), inside_hart, Hart.past_rx]
    · change r = semReleased (Claim.inside s h) h a at hr
      subst hr
      refine ⟨fun h3 hm => ⟨fun h4 => ?_, fun h4 => ?_⟩, fun h3 hm => ?_⟩
      · rw [scoped_completes hx hi hc ha (atomAccess_rmw h3 h4 hm), apply_ite (amoResult a.dbl), amoResult_zero]
      · exact ⟨{ t with free := t.free + 2 }, _, scoped_completes hx hi hc ha (by rw [h4]; exact atomAccess_speculative hm), rfl⟩
      · refine scoped_completes hx hi hc ha ?_
        rw [h3]
        exact hm

end Sys2Proof.Machine

/-! PROOFS. Ways that a meaning of a hart ends, and mailboxes (R90, R91, R105, R142). -/

namespace Sys2Proof.Machine

/-! ## Ways that a meaning ends (R90, R91) -/

section
variable {s t : State} {h : HartId} (hx : Executes s h) (v : Hart → Option Nat) (m : HartId → M Unit)
include hx

/-- A meaning that raises an exception before any effect. -/
theorem scalar_traps {code detail scause : Nat} {tval : Dword}
    (hm : m h (Claim.inside s h) =
      .error (.exc { code := code, detail := detail, tval := tval, scause := scause }) (Claim.inside s h)) :
    scalar v m s = Claim.traps s h code detail tval scause :=
  scalar_exc_first hx v m _ hm

/-- A meaning that parks and may have changed something else: the hart stays at the instruction. -/
theorem scalar_parks {p : Park} (hm : m h (Claim.inside s h) = .error (.park p) (t.setHart h (s.hart h).past)) :
    scalar v m s = .next (t.setHart h { s.hart h with run := .parked p }) := by
  rw [scalar_park hx v m p hm, park_at]

/-- A meaning that writes one register and may change something else. -/
theorem scalar_writes {rd : Reg} {x : Dword} (hm : m h (Claim.inside s h) = .ok () (t.setHart h ((s.hart h).past.wx rd x))) :
    scalar v m s = .next (t.setHart h ((s.hart h).stepped.wx rd x)) := by
  rw [scalar_ok hx v m hm, semState_done hx.2]

/-- A meaning that leaves its own hart past the instruction. -/
theorem scalar_leaves (ht : t.hart h = (s.hart h).past) (hm : m h (Claim.inside s h) = .ok () t) :
    scalar v m s = .next (t.setHart h (s.hart h).stepped) := by
  rw [scalar_ok hx v m hm, ht, Hart.past_retired _ (s.hart h) hx.2 rfl]

variable {m} in
/-- Meanings that do the same inside the instruction have the same frame. -/
theorem scalar_congr {m' : HartId → M Unit} (hm : m h (Claim.inside s h) = m' h (Claim.inside s h)) :
    scalar v m s = scalar v m' s := by
  rw [scalar_run hx, scalar_run hx]
  exact congrArg _ (congrArg _ hm)

end

/-- A hart other than an engine's passes the check of an instruction that engine harts lack (R319). -/
theorem kindM_other {h : HartId} (he : HartKind.isEngine h = false) (i : Instr) (s : State) :
    kindM (notEngine h) i s = .ok () s := by
  simp only [kindM, notEngine, he, Bool.not_false, guardM_true]

/-- A strand passes the check of an instruction that only strands have. -/
theorem kindM_strand (k : Nat) (i : Instr) (s : State) : kindM (HartKind.isStrand (.strand k)) i s = .ok () s := rfl

/-! ## Mailboxes (R105, R142) -/

theorem clearFull_past (r : Hart) (n : Nat) : r.past.clearFull n = (Claim.mbTaken r n).past := rfl

theorem writeMb_past (r : Hart) (n : Nat) (v : Dword) : r.past.writeMb n v = (Claim.mbWritten r n v).past := mbWritten_past r n v

/-- Settles O21: each instruction changes its own hart alone, by the model's `Hart.clearFull` and `Hart.writeMb`. -/
theorem mailboxInstructions : Obligations.MailboxInstructions := by
  intro s k n rd rs1 hx r went
  refine ⟨?_, ?_, ?_⟩
  · rw [Hart.wx_stepped]
    refine scalar_to hx _ _ _ ((Hart.wx_handler ..).trans hx.2) ?_
    simp only [bind_run, kindM_strand, modHart_run, State.hart_setHart, State.setHart_setHart, clearFull_past, Hart.wx_past,
      Hart.past_mb]
    rfl
  · refine scalar_to hx _ _ _ ((mbWritten_handler ..).trans hx.2) ?_
    simp only [bind_run, kindM_strand, modHart_run, State.hart_setHart, State.setHart_setHart, writeMb_past, Hart.past_rx]
    rfl
  · rw [Hart.wx_stepped]
    refine scalar_to hx _ _ _ (((Hart.wx_handler ..).trans (mbWritten_handler ..)).trans hx.2) ?_
    simp only [bind_run, kindM_strand, modHart_run, State.hart_setHart, State.setHart_setHart, clearFull_past, writeMb_past,
      Hart.wx_past, Hart.past_rx, Hart.past_mb]
    rfl

end Sys2Proof.Machine

/-! PROOFS. Semaphores of a crew (R91, R94, R95). -/

namespace Sys2Proof.Machine

/-! ## Members of a crew (R94, R127, R400) -/

/-- A hart of no crew has no semaphores. -/
theorem crewM_stranger {s : State} {h : HartId} (hc : (s.hart h).crew = none) : crewM h s = .error (.exc (excReserved 2)) s := by
  simp only [crewM, bind_run, get_run, hc, fail_run]

section
variable {s : State} {h : HartId} {ref : CrewRef} {c : Crew} {rd : Reg} {n a : Nat}

theorem crewM_member (hm : Claim.Member s h ref c) : crewM h (Claim.inside s h) = .ok (ref, c) (Claim.inside s h) := crewM_ok hm

theorem takeDeferred_none (hm : Claim.Member s h ref c) (hd : Claim.NoDeferred c h n) :
    takeDeferred ref n (fun d => d.sender == some h) (Claim.inside s h) = .ok () (Claim.inside s h) := deferred_ok hm n hd

theorem inside_sem (s : State) (h : HartId) (c i : Nat) : (Claim.inside s h).sem c i = s.sem c i := sem_setHart ..

theorem inside_setSem (s : State) (h : HartId) (c i : Nat) (x : Sem) :
    (Claim.inside s h).setSem c i x = (s.setSem c i x).setHart h (s.hart h).past := setSem_setHart ..

/-- The write of rd that ends a meaning. -/
theorem setReg_inside (t : State) (rd : Reg) (v : Dword) :
    setReg h rd v (t.setHart h (s.hart h).past) = .ok () (t.setHart h ((s.hart h).past.wx rd v)) := by
  rw [setReg_run, State.hart_setHart, State.setHart_setHart]

theorem setReg_first (rd : Reg) (v : Dword) : setReg h rd v (Claim.inside s h) = .ok () (s.setHart h ((s.hart h).past.wx rd v)) :=
  setReg_inside ..

/-! ## Waits (R94, R95) -/

theorem semWaitM_granted {v : Dword} (hg : (s.hart h).granted = some (.value v)) :
    semWaitM h rd n a (Claim.inside s h) = .ok () (s.setHart h ((s.hart h).past.wx rd v)) := by
  simp only [semWaitM, bind_run, getHart_run, inside_hart, Hart.past_granted, hg, setReg_first]

theorem semWaitM_stranger (hg : (s.hart h).granted = none) (hc : (s.hart h).crew = none) :
    semWaitM h rd n a (Claim.inside s h) = .error (.exc (excReserved 2)) (Claim.inside s h) := by
  have hcrew : ((Claim.inside s h).hart h).crew = none := by rw [inside_hart, Hart.past_crew, hc]
  simp only [semWaitM, bind_run, getHart_run, inside_hart, Hart.past_granted, hg, crewM_stranger hcrew]

theorem semWaitM_amount (hg : (s.hart h).granted = none) (hm : Claim.Member s h ref c) (ha : 65535 < a) :
    semWaitM h rd n a (Claim.inside s h) = .error (.exc (excReserved 1)) (Claim.inside s h) := by
  simp only [semWaitM, bind_run, getHart_run, inside_hart, Hart.past_granted, hg, crewM_member hm,
    decide_eq_false (Nat.not_le.mpr ha), guardM_false]

section
variable (hg : (s.hart h).granted = none) (hm : Claim.Member s h ref c) (ha : a ≤ 65535) (hd : Claim.NoDeferred c h n)
include hg hm ha hd

/-- Past its checks a wait acts on its semaphore. -/
theorem semWaitM_acts : semWaitM h rd n a (Claim.inside s h) =
    let x := s.sem ref.cluster (c.semIndex n)
    if a = 0 then .ok () (s.setHart h ((s.hart h).past.wx rd (BitVec.ofNat 64 x.count)))
    else if Waiter.hart h a ∈ x.waiters then .error (.park .sem) (Claim.inside s h)
    else if x.waiters = [] ∧ a ≤ x.count then
      .ok () ((s.setSem ref.cluster (c.semIndex n) { x with count := x.count - a }).setHart h
        ((s.hart h).past.wx rd (BitVec.ofNat 64 x.count)))
    else .error (.park .sem) ((s.setSem ref.cluster (c.semIndex n) { x with waiters := x.waiters ++ [.hart h a] }).setHart h
      (s.hart h).past) := by
  simp only [semWaitM, bind_run, getHart_run, inside_hart, Hart.past_granted, hg, crewM_member hm, ha, decide_true, guardM_true,
    takeDeferred_none hm hd, get_run, inside_sem, ite_run, setReg_first, parkFor_run, modify_run, inside_setSem, setReg_inside,
    List.contains_iff_mem, Bool.and_eq_true, List.isEmpty_iff, decide_eq_true_eq]

end

end

/-- Settles O22: the grant, the checks of crew and amount, then the four ways of `semWaitM_acts`. -/
theorem semaphoreWaitsAreGrantedInOrder : Obligations.SemaphoreWaitsAreGrantedInOrder := by
  intro s h i rd n a hx hi
  obtain ⟨m, hexec, hm⟩ := semWait_exec hx hi
  rw [hexec]
  rw [accOf_inside] at hm
  refine ⟨fun v hg => scalar_writes hx _ m (hm.trans (semWaitM_granted hg)),
    fun hg hc => scalar_traps hx _ m (hm.trans (semWaitM_stranger hg hc)), fun ref c hg hc => ⟨fun ha => ?_, fun ha hd => ?_⟩⟩
  · exact scalar_traps hx _ m (hm.trans (semWaitM_amount hg hc ha))
  · intro x
    have hacts := hm.trans (semWaitM_acts hg hc ha hd)
    refine ⟨fun h0 => ?_, fun h0 hw hle => ?_, fun h0 hfull hnew => ?_, fun h0 hold => ?_⟩
    · exact scalar_writes hx _ m (hacts.trans (if_pos h0))
    · have hnew : Waiter.hart h a ∉ x.waiters := by simp [hw]
      exact scalar_writes hx _ m (hacts.trans (by rw [if_neg h0, if_neg hnew, if_pos ⟨hw, hle⟩]))
    · exact scalar_parks hx _ m (hacts.trans (by rw [if_neg h0, if_neg hnew, if_neg hfull]))
    · exact scalar_parks hx _ m (hacts.trans (by rw [if_neg h0, if_pos hold]; rfl))

/-! ## Signals (R95) -/

/-- A semaphore whose oldest wait, a hart's, is granted and whose next one is not. -/
theorem grantSem_oldest {x : Sem} {g : HartId} {b : Nat} {rest : List Waiter} (hw : x.waiters = .hart g b :: rest)
    (hb : b ≤ x.count) (hrest : ∀ w ∈ rest.head?, x.count - b < w.amount) (u : State) (k i fuel : Nat) :
    (u.setSem k i x).grantSem k i (fuel + 2) =
      (u.setHart g { u.hart g with granted := some (.value (BitVec.ofNat 64 x.count)) }).setSem k i
        { count := x.count - b, waiters := rest } := by
  have hne : x.waiters ≠ [] := by simp [hw]
  rw [grant_one (g := g) (b := b) (rest := rest) (hw := by rw [sem_setSem, hw]) (hb := by rwa [sem_setSem]), sem_setSem,
    setSem_setSem _ _ _ _ _ hne, State.grant, hart_setSem, ← setSem_setHart, grant_stop]
  rwa [sem_setSem]

section
variable {u : State} {k i a : Nat} (hfit : (u.sem k i).count + a ≤ 65535)
include hfit

theorem signalSem_fits : u.signalSem k i a = some ((u.setSem k i { u.sem k i with count := (u.sem k i).count + a }).grantSem k i
    ((u.sem k i).waiters.length + 1)) :=
  if_neg (Nat.not_lt.mpr hfit)

/-- A signal that does not suffice for the oldest wait, or that nobody waits for. -/
theorem signalSem_counts (hw : ∀ w ∈ (u.sem k i).waiters.head?, (u.sem k i).count + a < w.amount) :
    u.signalSem k i a = some (u.setSem k i { u.sem k i with count := (u.sem k i).count + a }) := by
  rw [signalSem_fits hfit, grant_stop]
  rwa [sem_setSem]

/-- A signal that grants the oldest wait, a hart's, and leaves too little for the next one. -/
theorem signalSem_grants {g : HartId} {b : Nat} {rest : List Waiter} (hw : (u.sem k i).waiters = .hart g b :: rest)
    (hb : b ≤ (u.sem k i).count + a) (hrest : ∀ w ∈ rest.head?, (u.sem k i).count + a - b < w.amount) :
    u.signalSem k i a = some
      ((u.setHart g { u.hart g with granted := some (.value (BitVec.ofNat 64 ((u.sem k i).count + a))) }).setSem k i
        { count := (u.sem k i).count + a - b, waiters := rest }) := by
  rw [signalSem_fits hfit, hw, List.length_cons]
  exact congrArg some (grantSem_oldest (x := { u.sem k i with count := (u.sem k i).count + a }) hw hb hrest u k i _)

end

section
variable {s t : State} {h : HartId} {rd : Reg} {n a : Nat} {ref : CrewRef} {c : Crew} (hm : Claim.Member s h ref c)
include hm

theorem semSigM_amount (ha : 65535 < a) :
    semSigM h rd n a (Claim.inside s h) = .error (.exc (excReserved 1)) (Claim.inside s h) := by
  simp only [semSigM, bind_run, crewM_member hm, decide_eq_false (Nat.not_le.mpr ha), guardM_false]

theorem semSigM_overflow (ha : a ≤ 65535) (hover : 65535 < (s.sem ref.cluster (c.semIndex n)).count + a) :
    semSigM h rd n a (Claim.inside s h) = .error (.exc (excDev 18 0 0)) (Claim.inside s h) := by
  simp only [semSigM, bind_run, crewM_member hm, ha, decide_true, guardM_true, get_run, inside_sem,
    decide_eq_false (Nat.not_le.mpr hover), guardM_false]

/-- A signal that fits grants what it can, then answers the count before it. -/
theorem semSigM_lands (hd : Claim.Drained s h) (hfit : (s.sem ref.cluster (c.semIndex n)).count + a ≤ 65535)
    (ht : t.hart h = (s.hart h).past) (hs : (Claim.inside s h).signalSem ref.cluster (c.semIndex n) a = some t) :
    semSigM h rd n a (Claim.inside s h) =
      .ok () (t.setHart h ((s.hart h).past.wx rd (BitVec.ofNat 64 (s.sem ref.cluster (c.semIndex n)).count))) := by
  have ha : a ≤ 65535 := by omega
  simp only [semSigM, bind_run, crewM_member hm, ha, decide_true, guardM_true, get_run, inside_sem, hfit, releaseM_inside hd, hs,
    set_run, setReg_run, ht]

/-- A signal that grants no wait. -/
theorem semSigM_counts (hd : Claim.Drained s h) (hfit : (s.sem ref.cluster (c.semIndex n)).count + a ≤ 65535)
    (hw : ∀ w ∈ (s.sem ref.cluster (c.semIndex n)).waiters.head?, (s.sem ref.cluster (c.semIndex n)).count + a < w.amount) :
    semSigM h rd n a (Claim.inside s h) =
      .ok () ((s.setSem ref.cluster (c.semIndex n) { s.sem ref.cluster (c.semIndex n) with
        count := (s.sem ref.cluster (c.semIndex n)).count + a }).setHart h
          ((s.hart h).past.wx rd (BitVec.ofNat 64 (s.sem ref.cluster (c.semIndex n)).count))) := by
  rw [← inside_sem s h] at hfit hw
  have hs := signalSem_counts hfit hw
  rw [inside_sem] at hfit
  rw [inside_setSem, inside_sem] at hs
  rw [semSigM_lands hm hd hfit (State.hart_setHart ..) hs, State.setHart_setHart]

/-- A signal that grants the oldest wait alone. -/
theorem semSigM_grants {g : HartId} {b : Nat} {rest : List Waiter} (hd : Claim.Drained s h)
    (hfit : (s.sem ref.cluster (c.semIndex n)).count + a ≤ 65535)
    (hw : (s.sem ref.cluster (c.semIndex n)).waiters = .hart g b :: rest) (hg : g ≠ h)
    (hb : b ≤ (s.sem ref.cluster (c.semIndex n)).count + a)
    (hrest : ∀ w ∈ rest.head?, (s.sem ref.cluster (c.semIndex n)).count + a - b < w.amount) :
    semSigM h rd n a (Claim.inside s h) = .ok () ((((Claim.inside s h).setHart g { s.hart g with
        granted := some (.value (BitVec.ofNat 64 ((s.sem ref.cluster (c.semIndex n)).count + a))) }).setSem ref.cluster
          (c.semIndex n) { count := (s.sem ref.cluster (c.semIndex n)).count + a - b, waiters := rest }).setHart h
      ((s.hart h).past.wx rd (BitVec.ofNat 64 (s.sem ref.cluster (c.semIndex n)).count))) := by
  have hother : (Claim.inside s h).hart g = s.hart g := State.hart_setHart_ne _ _ hg
  rw [← inside_sem s h] at hfit hw hb hrest
  have hs := signalSem_grants hfit hw hb hrest
  rw [inside_sem] at hfit
  rw [inside_sem, hother] at hs
  refine semSigM_lands hm hd hfit ?_ hs
  rw [hart_setSem, State.hart_setHart_ne _ _ hg.symm, inside_hart]

/-! ## Tries (R96) -/

theorem semTryM_amount (ha : 65535 < a) :
    semTryM h rd n a (Claim.inside s h) = .error (.exc (excReserved 1)) (Claim.inside s h) := by
  simp only [semTryM, bind_run, crewM_member hm, decide_eq_false (Nat.not_le.mpr ha), guardM_false]

/-- Past its checks a try takes its amount or answers the count with bit 63 set. -/
theorem semTryM_acts (ha : a ≤ 65535) (hd : Claim.NoDeferred c h n) : semTryM h rd n a (Claim.inside s h) =
    let x := s.sem ref.cluster (c.semIndex n)
    if x.waiters = [] ∧ a ≤ x.count then
      .ok () ((s.setSem ref.cluster (c.semIndex n) { x with count := x.count - a }).setHart h
        ((s.hart h).past.wx rd (BitVec.ofNat 64 x.count)))
    else .ok () (s.setHart h ((s.hart h).past.wx rd (BitVec.ofNat 64 (x.count + 2 ^ 63)))) := by
  simp only [semTryM, bind_run, crewM_member hm, ha, decide_true, guardM_true, takeDeferred_none hm hd, get_run, inside_sem,
    ite_run, setReg_first, modify_run, inside_setSem, setReg_inside, Bool.and_eq_true, List.isEmpty_iff, decide_eq_true_eq]

end

/-- Settles O23: a signal by `semSigM_counts` or `semSigM_grants`, a try by `semTryM_acts`. -/
theorem semaphoreSignalsTriesAndReads : Obligations.SemaphoreSignalsTriesAndReads := by
  intro s h ref c hx hc
  refine ⟨fun i rd n a hi => ?_, fun rd rs1 rs2 => ?_, fun rd rs1 => ?_⟩
  · obtain ⟨m, hexec, hm⟩ := semSig_exec hx hi
    rw [hexec]
    rw [accOf_inside] at hm
    refine ⟨fun ha => ?_, fun ha hover => ?_, fun hd hfit => ⟨fun hw => ?_, fun g b rest hw hg hb hrest => ?_,
      fun w rest hw hlt => ?_⟩⟩
    · exact scalar_traps hx _ m (hm.trans (semSigM_amount hc ha))
    · exact scalar_traps hx _ m (hm.trans (semSigM_overflow hc ha hover))
    · exact scalar_writes hx _ m (hm.trans (semSigM_counts hc hd hfit (by simp [hw])))
    · exact scalar_writes hx _ m (hm.trans (semSigM_grants hc hd hfit hw hg hb hrest))
    · exact scalar_writes hx _ m (hm.trans (semSigM_counts hc hd hfit (by simpa [hw] using hlt)))
  · have hrun : ∀ r, semTryM h rd (((s.hart h).rx rs1).toNat % 256) ((s.hart h).rx rs2).toNat (Claim.inside s h) = r →
        (do
          let r ← getHart h
          semTryM h rd ((r.rx rs1).toNat % 256) (r.rx rs2).toNat : M Unit) (Claim.inside s h) = r := fun r hr => by
      rw [bind_run, getHart_run, inside_hart]
      exact hr
    refine ⟨fun ha => ?_, fun ha hd => ⟨fun hw hle => ?_, fun hno => ?_⟩⟩
    · exact scalar_traps hx _ _ (hrun _ (semTryM_amount hc ha))
    · exact scalar_writes hx _ _ (hrun _ ((semTryM_acts hc ha hd).trans (if_pos ⟨hw, hle⟩)))
    · exact scalar_writes hx _ _ (hrun _ ((semTryM_acts hc ha hd).trans (if_neg hno)))
  · refine scalar_writes hx _ _ ?_
    simp only [bind_run, getHart_run, inside_hart, crewM_member hc, get_run, inside_sem, setReg_first, Hart.past_rx]

end Sys2Proof.Machine

/-! PROOFS. Futures (R97, R98, R130, R131). -/

namespace Sys2Proof.Machine

/-! ## Entries that handles name (R97) -/

section
variable {s : State} {h : HartId} {rd : Reg} {handle : Nat} {e : Future}

theorem futEntry_live (hl : Claim.Live s handle e) : futEntry handle (Claim.inside s h) = .ok e (Claim.inside s h) :=
  entry_ok (live_setHart.2 hl)

theorem futEntry_stale (hl : ¬∃ f, Claim.Live s handle f) :
    futEntry handle (Claim.inside s h) = .error (.exc (excDev 19 0 0)) (Claim.inside s h) :=
  entry_stale fun ⟨f, hf⟩ => hl ⟨f, live_setHart.1 hf⟩

theorem inside_setFuture (s : State) (h : HartId) (k : Nat) (f : Future) :
    (Claim.inside s h).setFuture k f = (s.setFuture k f).setHart h (s.hart h).past := setFuture_setHart ..

/-! ## Set and poison (R97, R98) -/

/-- A future as fut.set or fut.poison leaves it. -/
def resolved (e : Future) (v : Dword) (poisoned : Bool) : Future :=
  { e with value := if poisoned then e.value else v, st := if poisoned then 3 else 2, waiters := [] }

variable {v : Dword} {poisoned : Bool}

theorem resolveM_stale (hl : ¬∃ f, Claim.Live s handle f) :
    resolveM h handle v poisoned (Claim.inside s h) = .error (.exc (excDev 19 0 0)) (Claim.inside s h) := by
  rw [resolveM, bind_run, futEntry_stale hl]

theorem resolveM_again (hl : Claim.Live s handle e) (hst : 1 < e.st) :
    resolveM h handle v poisoned (Claim.inside s h) = .error (.exc (excDev 19 1 0)) (Claim.inside s h) := by
  simp only [resolveM, bind_run, futEntry_live hl, decide_eq_false (Nat.not_le.mpr hst), guardM_false]

theorem resolveM_ends (hl : Claim.Live s handle e) (hst : e.st ≤ 1) (hd : Claim.Drained s h) :
    resolveM h handle v poisoned (Claim.inside s h) =
      wakeAll (((Claim.inside s h).setFuture (futKey handle) (resolved e v poisoned)).accOf h) v poisoned e.waiters
        ((Claim.inside s h).setFuture (futKey handle) (resolved e v poisoned)) := by
  simp only [resolveM, bind_run, futEntry_live hl, hst, decide_true, guardM_true, releaseM_inside hd, modify_run, ownAcc, get_run,
    pure_run, resolved]

theorem wakeAll_none (acc : Acc) (v : Dword) (poisoned : Bool) (s : State) : wakeAll acc v poisoned [] s = .ok () s := rfl

theorem wakeAll_hart (acc : Acc) (v : Dword) (poisoned : Bool) (g : HartId) (s : State) :
    wakeAll acc v poisoned [.hart g] s =
      .ok () (s.setHart g { s.hart g with granted := some (if poisoned then .poison else .value v) }) := rfl

/-! ## Waits (R97) -/

theorem futJoinM_stale (hl : ¬∃ f, Claim.Live s handle f) :
    futJoinM h rd handle (Claim.inside s h) = .error (.exc (excDev 19 0 0)) (Claim.inside s h) := by
  rw [futJoinM, bind_run, futEntry_stale hl]

theorem futJoinM_ready (hl : Claim.Live s handle e) (hst : e.st = 2) :
    futJoinM h rd handle (Claim.inside s h) = .ok () (s.setHart h ((s.hart h).past.wx rd e.value)) := by
  simp only [futJoinM, bind_run, futEntry_live hl, hst, if_true, setReg_first]

theorem futJoinM_poisoned (hl : Claim.Live s handle e) (hst : e.st = 3) :
    futJoinM h rd handle (Claim.inside s h) = .error (.exc (excDev 22 1 0)) (Claim.inside s h) := by
  simp only [futJoinM, bind_run, futEntry_live hl, hst, if_true, fail_run, Nat.reduceEqDiff, if_false]

theorem futJoinM_parks (hl : Claim.Live s handle e) (hst : e.st < 2) (hnew : FutWaiter.hart h ∉ e.waiters) :
    futJoinM h rd handle (Claim.inside s h) = .error (.park .fut)
      ((s.setFuture (futKey handle) { e with st := 1, waiters := e.waiters ++ [.hart h] }).setHart h (s.hart h).past) := by
  have h2 : e.st ≠ 2 := by omega
  have h3 : e.st ≠ 3 := by omega
  have hc : e.waiters.contains (.hart h) = false := by simpa using hnew
  simp only [futJoinM, bind_run, futEntry_live hl, h2, h3, if_false, hc, Bool.not_false, if_true, modify_run, parkFor_run,
    inside_setFuture]

end

section
variable {s : State} {h : HartId} (hx : Executes s h) {handle : Nat} {e : Future} (hl : Claim.Live s handle e) (hst : e.st ≤ 1)
  (hd : Claim.Drained s h) (v : Dword) (poisoned : Bool)
include hx hl hst hd

/-- The end of a future that nobody waits for. -/
theorem resolve_alone (hw : e.waiters = []) : scalar (handlerRule false 0) (fun g => resolveM g handle v poisoned) s =
    .next ((s.setFuture (futKey handle) (resolved e v poisoned)).setHart h (s.hart h).stepped) := by
  refine scalar_other hx _ _ ?_
  rw [resolveM_ends hl hst hd, hw, wakeAll_none, inside_setFuture]

/-- The end of a future that one other hart waits for. -/
theorem resolve_wakes {g : HartId} (hw : e.waiters = [.hart g]) (hg : g ≠ h) :
    scalar (handlerRule false 0) (fun g => resolveM g handle v poisoned) s =
      .next (((((Claim.inside s h).setFuture (futKey handle) (resolved e v poisoned)).setHart g
        { s.hart g with granted := some (if poisoned then .poison else .value v) }).setHart h (s.hart h).stepped)) := by
  refine scalar_leaves hx _ _ ?_ ((resolveM_ends hl hst hd).trans ?_)
  · rw [State.hart_setHart_ne _ _ hg.symm, hart_setFuture, inside_hart]
  · rw [hw, wakeAll_hart, hart_setFuture, Claim.inside, State.hart_setHart_ne _ _ hg]

end

/-! ## The instructions by the state of their future (R97, R98) -/

section
variable {s : State} {h : HartId} (hx : Executes s h) (he : HartKind.isEngine h = false) (rd rs1 rs2 : Reg)
include hx he

theorem futSet_runs : exec (.futSet rs1 rs2) s =
    scalar (handlerRule false 0) (fun g => resolveM g (((s.hart h).rx rs1).toNat % 2 ^ 32) ((s.hart h).rx rs2) false) s := by
  refine scalar_congr hx _ ?_
  simp only [bind_run, kindM_other he, getHart_run, inside_hart, Hart.past_rx]

theorem futPoison_runs : exec (.futPoison rs1) s =
    scalar (handlerRule false 0) (fun g => resolveM g (((s.hart h).rx rs1).toNat % 2 ^ 32) 0 true) s := by
  refine scalar_congr hx _ ?_
  simp only [bind_run, kindM_other he, getHart_run, inside_hart, Hart.past_rx]

theorem futPoll_runs : exec (.futPoll rd rs1) s =
    scalar (handlerRule false rd) (fun g => do
      let e ← futEntry (((s.hart h).rx rs1).toNat % 2 ^ 32)
      setReg g rd (BitVec.ofNat 64 e.st)) s := by
  refine scalar_congr hx _ ?_
  simp only [bind_run, kindM_other he, getHart_run, inside_hart, Hart.past_rx]

theorem futFree_runs : exec (.futFree rs1) s =
    scalar (handlerRule false 0) (fun _ => do
      let e ← futEntry (((s.hart h).rx rs1).toNat % 2 ^ 32)
      guardM (e.st != 1) (excDev 19 2 0)
      modify fun s' => s'.setFuture (futKey (((s.hart h).rx rs1).toNat % 2 ^ 32)) { gen := (e.gen + 1) % 256 }) s := by
  refine scalar_congr hx _ ?_
  simp only [bind_run, kindM_other he, getHart_run, inside_hart, Hart.past_rx]

theorem futWait_runs : exec (.futWait rd rs1) s =
    scalar (handlerRule true rd) (fun g => futWaitM g rd (((s.hart h).rx rs1).toNat % 2 ^ 32) (s.hart h).granted) s := by
  refine scalar_congr hx _ ?_
  simp only [bind_run, kindM_other he, getHart_run, inside_hart, Hart.past_rx, Hart.past_granted]

/-- A handle of no live entry: set, poison, poll and free. -/
theorem fut_stale (hl : ¬∃ f, Claim.Live s (((s.hart h).rx rs1).toNat % 2 ^ 32) f) {i : Instr}
    (hi : i ∈ [Instr.futSet rs1 rs2, .futPoison rs1, .futPoll rd rs1, .futFree rs1]) : exec i s = Claim.traps s h 19 0 0 24 := by
  simp only [List.mem_cons, List.not_mem_nil, or_false] at hi
  obtain rfl | rfl | rfl | rfl := hi
  · rw [futSet_runs hx he]
    exact scalar_traps hx _ _ (resolveM_stale hl)
  · rw [futPoison_runs hx he]
    exact scalar_traps hx _ _ (resolveM_stale hl)
  · rw [futPoll_runs hx he]
    exact scalar_traps hx _ _ (by rw [bind_run, futEntry_stale hl]; rfl)
  · rw [futFree_runs hx he]
    exact scalar_traps hx _ _ (by rw [bind_run, futEntry_stale hl]; rfl)

section
variable {e : Future} (hl : Claim.Live s (((s.hart h).rx rs1).toNat % 2 ^ 32) e)
include hl

theorem futPoll_live : exec (.futPoll rd rs1) s = .next (s.setHart h ((s.hart h).stepped.wx rd (BitVec.ofNat 64 e.st))) := by
  rw [futPoll_runs hx he]
  exact scalar_writes hx _ _ (by rw [bind_run, futEntry_live hl]; exact setReg_first ..)

theorem futFree_live (hst : e.st ≠ 1) : exec (.futFree rs1) s =
    .next ((s.setFuture (futKey (((s.hart h).rx rs1).toNat % 2 ^ 32)) { gen := (e.gen + 1) % 256 }).setHart h
      (s.hart h).stepped) := by
  rw [futFree_runs hx he]
  refine scalar_other hx _ _ ?_
  simp only [bind_run, futEntry_live hl, bne_iff_ne.mpr hst, guardM_true, modify_run, inside_setFuture]

theorem futFree_pending (hst : e.st = 1) : exec (.futFree rs1) s = Claim.traps s h 19 2 0 24 := by
  rw [futFree_runs hx he]
  refine scalar_traps hx _ _ ?_
  simp only [bind_run, futEntry_live hl, hst, bne_self_eq_false, guardM_false]
  rfl

theorem fut_again (hst : 1 < e.st) :
    exec (.futSet rs1 rs2) s = Claim.traps s h 19 1 0 24 ∧ exec (.futPoison rs1) s = Claim.traps s h 19 1 0 24 := by
  rw [futSet_runs hx he, futPoison_runs hx he]
  exact ⟨scalar_traps hx _ _ (resolveM_again hl hst), scalar_traps hx _ _ (resolveM_again hl hst)⟩

end

theorem futWait_first (hg : (s.hart h).granted = none) : exec (.futWait rd rs1) s =
    scalar (handlerRule true rd) (fun g => futJoinM g rd (((s.hart h).rx rs1).toNat % 2 ^ 32)) s := by
  rw [futWait_runs hx he, hg]
  rfl

theorem futWait_granted {v : Dword} (hg : (s.hart h).granted = some (.value v)) :
    exec (.futWait rd rs1) s = .next (s.setHart h ((s.hart h).stepped.wx rd v)) := by
  rw [futWait_runs hx he, hg]
  exact scalar_writes hx _ _ (setReg_first ..)

theorem futWait_poison (hg : (s.hart h).granted = some .poison) : exec (.futWait rd rs1) s = Claim.traps s h 22 1 0 24 := by
  rw [futWait_runs hx he, hg]
  exact scalar_traps hx _ _ rfl

end

/-- Settles O24: by the state of the entry that the handle names; a wait by what its wake-up granted. -/
theorem futuresFollowTheirStates : Obligations.FuturesFollowTheirStates := by
  intro s h rd rs1 rs2 e hx he handle keep
  refine ⟨fun i hi hl => fut_stale hx he rd rs1 rs2 hl hi, fun hg hl => ?_, fun hl => ⟨futPoll_live hx he rd rs1 hl,
    futFree_live hx he rs1 hl, futFree_pending hx he rs1 hl, fut_again hx he rs1 rs2 hl, fun hst hw hd => ⟨?_, ?_⟩,
    fun g hst hw hg hd => ?_, fun hg => ?_⟩, fun v => futWait_granted hx he rd rs1, futWait_poison hx he rd rs1⟩
  · rw [futWait_first hx he rd rs1 hg]
    exact scalar_traps hx _ _ (futJoinM_stale hl)
  · rw [futSet_runs hx he]
    exact resolve_alone hx hl hst hd _ false hw
  · rw [futPoison_runs hx he]
    exact resolve_alone hx hl hst hd 0 true hw
  · rw [futSet_runs hx he]
    exact resolve_wakes hx hl hst hd _ false hw hg
  · rw [futWait_first hx he rd rs1 hg]
    exact ⟨fun hst => scalar_writes hx _ _ (futJoinM_ready hl hst), fun hst => scalar_traps hx _ _ (futJoinM_poisoned hl hst),
      fun hst hnew => scalar_parks hx _ _ (futJoinM_parks hl hst hnew)⟩

/-! ## Allocation (R98, R130) -/

/-- fut.new draws a place to search from, and takes the free entry that its search finds. -/
theorem futNew_searches {s : State} {h : HartId} (hx : Executes s h) (he : HartKind.isEngine h = false) (rd : Reg) : ∃ start,
    (s.freeFuture (dieOf h.cluster) start (s.futures.length + 2) = none →
      exec (.futNew rd) s = .next (({ s with free := s.free + 1 } : State).setHart h ((s.hart h).stepped.wx rd 0))) ∧
    (∀ i, s.freeFuture (dieOf h.cluster) start (s.futures.length + 2) = some i →
      let e := s.futures.getD (dieOf h.cluster * 2 ^ 22 + i) {}
      exec (.futNew rd) s = .next ((({ s with free := s.free + 1 } : State).setFuture (dieOf h.cluster * 2 ^ 22 + i)
        { gen := e.gen, allocated := true }).setHart h
          ((s.hart h).stepped.wx rd (BitVec.ofNat 64 (dieOf h.cluster * 2 ^ 30 + e.gen % 256 * 2 ^ 22 + i))))) := by
  let u : State := { s with free := s.free + 1 }
  obtain ⟨start, hdraw⟩ : ∃ start, freeNatM (2 ^ 22) (Claim.inside s h) = .ok start (u.setHart h (s.hart h).past) :=
    ⟨_, by rw [freeNatM_run, Claim.inside, State.drawNat_setHart]; rfl⟩
  have hfuts : (u.setHart h (s.hart h).past).futures = s.futures := State.setHart_futures ..
  have hsearch : (u.setHart h (s.hart h).past).freeFuture (dieOf h.cluster) start (s.futures.length + 2) =
      s.freeFuture (dieOf h.cluster) start (s.futures.length + 2) := by rw [freeFuture_setHart, freeFuture_free]
  refine ⟨start, fun hf => scalar_writes hx _ _ ?_, fun i hf => scalar_writes hx _ _ ?_⟩
  · simp only [bind_run, kindM_other he, hdraw, get_run, hfuts, hsearch, hf, setReg_inside]
    rfl
  · simp only [bind_run, kindM_other he, hdraw, get_run, hfuts, hsearch, hf, modify_run, setFuture_setHart, setReg_inside]
    rfl

/-- Settles O25: the search of `State.freeFuture` finds an entry that is free (`freeFuture_spec`), or the table is full
(`freeFuture_none`). -/
theorem futureNewAllocates : Obligations.FutureNewAllocates := by
  intro s h rd hx he
  obtain ⟨start, hnone, hsome⟩ := futNew_searches hx he rd
  cases hf : s.freeFuture (dieOf h.cluster) start (s.futures.length + 2) with
  | none => exact ⟨_, _, hnone hf, .inl ⟨rfl, rfl, freeFuture_none s _ start _ le_rfl hf⟩⟩
  | some i =>
    obtain ⟨hpos, hlt, hfree⟩ := freeFuture_spec s _ _ _ _ hf
    exact ⟨_, _, hsome i hf, .inr ⟨i, _, hpos, hlt, rfl, hfree, rfl, rfl⟩⟩

end Sys2Proof.Machine

/-! PROOFS. Continuations spawned, messages and writes-with-enqueue of a hart (R99, R102 to R104, R115, R126). -/

namespace Sys2Proof.Machine

/-! ## Addresses and accessors (R90) -/

theorem aligned_ok {va : Dword} {n : Nat} (ha : va.toNat % n = 0) (s : State) : aligned va n s = .ok () s := by
  simp only [aligned, ha, decide_true, guardM_true]

theorem aligned_not {va : Dword} {n : Nat} (ha : va.toNat % n ≠ 0) (s : State) :
    aligned va n s = .error (.exc (excDev 4 0 va)) s := by
  simp only [aligned, decide_eq_false ha, guardM_false]

@[simp] theorem ownAcc_run (h : HartId) (s : State) : ownAcc h s = .ok (s.accOf h) s := rfl

/-! ## cont.spawn (R99, R126) -/

/-- KIND 3 is reserved. -/
theorem refuseCont_reserved {c : Cont} (hc : c.kind = 3) (s : State) (crew : Option CrewRef) (launch : Nat) :
    refuseCont s crew launch c = some 1 := by
  simp [refuseCont, hc]

section
variable {s t : State} {h : HartId} {va : Dword} {n : Nat} {bs : List Byte}

theorem contSpawnM_misaligned (ha : va.toNat % 32 ≠ 0) : contSpawnM h va n s = .error (.exc (excDev 4 0 va)) s := by
  rw [contSpawnM, bind_run, aligned_not ha]

theorem contSpawnM_many (ha : va.toNat % 32 = 0) (hn : 4096 < n) : contSpawnM h va n s = .error (.exc (excReserved 1)) s := by
  simp only [contSpawnM, bind_run, aligned_ok ha, decide_eq_false (Nat.not_le.mpr hn), guardM_false]

variable (ha : va.toNat % 32 = 0) (hn : n ≤ 4096) (hr : vread (s.accOf h) va 32 s = .ok bs t)
include ha hn hr

theorem contSpawnM_refused {d : Nat} (hc : refuseCont t (t.hart h).crew (t.hart h).launch (contOfBytes bs) = some d) :
    contSpawnM h va n s = .error (.exc (excReserved d)) t := by
  simp only [contSpawnM, bind_run, aligned_ok ha, hn, decide_true, guardM_true, ownAcc_run, hr, get_run, hc, fail_run]

variable (hc : refuseCont t (t.hart h).crew (t.hart h).launch (contOfBytes bs) = none)
include hc

theorem contSpawnM_none (h0 : n = 0) : contSpawnM h va n s = .ok () t := by
  subst h0
  simp only [contSpawnM, bind_run, aligned_ok ha, hn, decide_true, guardM_true, ownAcc_run, hr, get_run, hc, if_true, pure_run]

/-- With room in the queue of the children the spawn takes effect. -/
theorem contSpawnM_spawns (h0 : 0 < n) (hroom : (contOfBytes bs).kind = 1 ∨
      t.queueRoom (t.contCluster h.cluster ((originOf t h).queued t (contOfBytes bs)).c) (contOfBytes bs).cls n = true) :
    contSpawnM h va n s = spawnM (s.accOf h) (originOf t h) (contOfBytes bs) n t := by
  have hno : (decide ((contOfBytes bs).kind ≠ 1) && t.canStart ((originOf t h).queued t (contOfBytes bs)).c &&
      !t.queueRoom (t.contCluster (originOf t h).cluster ((originOf t h).queued t (contOfBytes bs)).c) (contOfBytes bs).cls n) =
        false := by
    obtain hk | hq := hroom
    · simp [hk]
    · rw [show (originOf t h).cluster = h.cluster from rfl, hq, Bool.not_true, Bool.and_false]
  simp only [contSpawnM, bind_run, aligned_ok ha, hn, decide_true, guardM_true, ownAcc_run, hr, get_run, hc, ite_run,
    Nat.pos_iff_ne_zero.mp h0, if_false]
  rw [if_neg (by rw [hno]; exact Bool.false_ne_true)]

end

theorem contSpawn_runs {s : State} {h : HartId} (hx : Executes s h) (he : HartKind.isEngine h = false) (rs1 rs2 : Reg) :
    exec (.contSpawn rs1 rs2) s =
      scalar (handlerRule true 0) (fun g => contSpawnM g ((s.hart h).rx rs1) ((s.hart h).rx rs2).toNat) s := by
  refine scalar_congr hx _ ?_
  simp only [bind_run, kindM_other he, getHart_run, inside_hart, Hart.past_rx]

/-- Settles O26: the checks of the record, then `spawnM` without a join counter or with one. That a misaligned record stands in
stval (log 9), that the record of no child is checked (log 13) and that the address of the join is sign-extended (log 18) are the
model's choices. -/
theorem spawnEnqueuesItsChildren : Obligations.SpawnEnqueuesItsChildren := by
  intro s t h rs1 rs2 bs c hx he va n
  rw [contSpawn_runs hx he]
  refine ⟨fun ha => scalar_traps hx _ _ (contSpawnM_misaligned ha), fun ha hn => scalar_traps hx _ _ (contSpawnM_many ha hn),
    fun ha hn hr hc => ?_⟩
  subst hc
  refine ⟨fun h3 => scalar_exc hx _ _ _ (contSpawnM_refused ha hn hr (refuseCont_reserved h3 ..)), fun hc =>
    ⟨fun h0 => scalar_ok hx _ _ (contSpawnM_none ha hn hr hc h0), fun h0 hroom => ?_⟩⟩
  have hspawns := contSpawnM_spawns ha hn hr hc h0 hroom
  refine ⟨fun v hj hv hs => ?_, fun old u v hj hu hv hs => ?_⟩
  · rw [Claim.rel, who_eq t (Claim.inside s h)] at hv
    exact scalar_ok hx _ _ (hspawns.trans (spawnM_none _ _ _ _ hj hv hs))
  · exact scalar_ok hx _ _ (hspawns.trans (spawnM_join _ _ _ _ hj hu hv hs))

/-! ## Messages (R102 to R104) -/

theorem send_traps {s : State} {h : HartId} {i : Instr} {dest body : Dword} {reply handler : Bool} (hx : Executes s h)
    (he : HartKind.isEngine h = false) (hs : Claim.sendForm (s.hart h) h i = some (dest, body, reply, handler))
    {code detail : Nat} {tval : Dword}
    (hm : sendM h dest body reply handler (Claim.inside s h) = .error (.exc (excDev code detail tval)) (Claim.inside s h)) :
    exec i s = Claim.traps s h code detail tval 24 := by
  rw [(send_scalar hx he hs).1 _ _ hm, Claim.inside, State.setHart_setHart, State.hart_setHart]
  rfl

/-- Settles O28: a bad destination or body by `send_traps`; the entry and the full queue by `send_body`. That a misaligned body
stands in stval is the model's choice (log 9). -/
theorem messagesEnterTheSendQueue : Obligations.MessagesEnterTheSendQueue := by
  intro s t h i dest body reply handler m bs hx he hs n
  have hcrew : ((Claim.inside s h).hart h).crew = (s.hart h).crew := by rw [inside_hart, Hart.past_crew]
  refine ⟨fun hd => send_traps hx he hs ?_, fun hd => ⟨fun ha => send_traps hx he hs ?_, fun ha hr => ?_⟩⟩
  · simp only [sendM, bind_run, get_run, hcrew, hd, fail_run]
    rfl
  · simp only [sendM, bind_run, get_run, hcrew, hd, aligned_not (show body.toNat % (if handler then 32 else 64) ≠ 0 from ha)]
  · obtain ⟨hfull, hroom⟩ := send_body hd ha hr
    obtain ⟨hexc, hok⟩ := send_scalar hx he hs
    refine ⟨fun hf => hexc _ _ (hfull hf hx.2), fun hf => hok _ (hroom ?_) fun hrep => ?_⟩
    · cases reply with
      | true => exact hf.1
      | false => exact hf
    · subst hrep
      rw [hart_pushSend, Claim.rel, (like_releaseUnit ..).handler]
      exact hf.2

section
variable {s t : State} {h : HartId} {rd : Reg} {va : Dword}

theorem msgRecvM_misaligned (ha : va.toNat % 64 ≠ 0) : msgRecvM h rd va s = .error (.exc (excDev 4 0 va)) s := by
  rw [msgRecvM, bind_run, aligned_not ha]

theorem msgRecvM_empty (ha : va.toNat % 64 = 0) (hi : (s.hart h).inbox = []) : msgRecvM h rd va s = .error (.park .recv) s := by
  simp only [msgRecvM, bind_run, aligned_ok ha, getHart_run, hi, takeMsg, List.find?_nil, parkFor_run]

/-- The message that `takeMsg` names is written, and leaves the inbox. -/
theorem msgRecvM_takes {m : Msg} {rest : List Msg} (ha : va.toNat % 64 = 0) (hi : takeMsg (s.hart h).inbox = some (m, rest))
    (hw : vwrite (s.accOf h) va m.payload s = .ok () t) :
    msgRecvM h rd va s = .ok () (t.setHart h ((t.hart h).received rd m rest)) := by
  simp only [msgRecvM, bind_run, aligned_ok ha, getHart_run, hi, ownAcc_run, hw, modHart_run]

end

/-- Settles O29: which message is taken by `takeMsg_none` and `takeMsg_pri`. That a misaligned buffer stands in stval is the model's
choice (log 9). -/
theorem receiveTakesTheOldestMessage : Obligations.ReceiveTakesTheOldestMessage := by
  intro s t k rd rs1 hx h va
  have hruns : exec (.msgRecv rd rs1) s = scalar (handlerRule true rd) (fun g => msgRecvM g rd va) s := by
    refine scalar_congr hx _ ?_
    simp only [bind_run, kindM_strand, getHart_run, inside_hart, Hart.past_rx]
    rfl
  have hinbox : ((Claim.inside s h).hart h).inbox = (s.hart h).inbox := by rw [inside_hart, Hart.past_inbox]
  rw [hruns]
  refine ⟨fun ha => scalar_traps hx _ _ (msgRecvM_misaligned ha),
    fun ha hi => scalar_parks hx _ _ (msgRecvM_empty ha (hinbox.trans hi)), fun m rest ha hi hw => ?_⟩
  refine scalar_ok hx _ _ (msgRecvM_takes ha ?_ hw)
  rw [accOf_inside, hinbox]
  obtain ⟨hi, hlow⟩ | ⟨hm, a, b, hi, hlow, rfl⟩ := hi
  · rw [hi] at hlow ⊢
    exact takeMsg_none hlow
  · exact takeMsg_pri hm hi hlow

/-! ## stq (R115) -/

section
variable {s t u : State} {h : HartId} {va pay : Dword} {d bs : List Byte}

theorem scalarStqM_misaligned (ha : va.toNat % 64 ≠ 0) : scalarStqM h va pay s = .error (.exc (excDev 4 0 va)) s := by
  rw [scalarStqM, bind_run, aligned_not ha]

variable (ha : va.toNat % 64 = 0) (hd : vread (s.accOf h) va 64 s = .ok d t)
include ha hd

theorem scalarStqM_refused {n : Nat} (ho : stqOf t (t.hart h).crew (t.hart h).launch d = .error n) :
    scalarStqM h va pay s = .error (.exc (excReserved n)) t := by
  simp only [scalarStqM, bind_run, aligned_ok ha, ownAcc_run, hd, get_run, ho, fail_run]

variable {o : StqOp} (ho : stqOf t (t.hart h).crew (t.hart h).launch d = .ok o) (hp : vread (s.accOf h) pay (stqLen d) t = .ok bs u)
include ho hp

theorem scalarStqM_full (hf : u.sendFree (sendQueueOf h) = 0) : scalarStqM h va pay s = .error (.exc (excDev 14 0 0)) u := by
  simp only [scalarStqM, bind_run, aligned_ok ha, ownAcc_run, hd, get_run, ho, hp, hf, lt_irrefl, decide_false, guardM_false]

theorem scalarStqM_enters (hf : 0 < u.sendFree (sendQueueOf h)) : scalarStqM h va pay s =
    .ok () (u.pushSend (sendQueueOf h) (.stq { o with
      queue := sendQueueOf h
      payload := bs
      cluster := h.cluster
      dptb := (t.hart h).dptb
      priv := (t.hart h).priv
      bound := (t.hart h).bound
      dcrew := (t.hart h).dcrew
      sender := some h })) := by
  simp only [scalarStqM, bind_run, aligned_ok ha, ownAcc_run, hd, get_run, ho, hp, hf, decide_true, guardM_true, modify_run]

end

/-- Settles O34: the descriptor, the payload, then the queue. That a misaligned descriptor stands in stval is the model's choice
(log 9). -/
theorem scalarStqEntersTheSendQueue : Obligations.ScalarStqEntersTheSendQueue := by
  intro s t u h rs1 rs2 d bs hx va
  have hruns : exec (.scalarStq rs1 rs2) s = scalar (handlerRule true 0) (fun g => scalarStqM g va ((s.hart h).rx rs2)) s := by
    refine scalar_congr hx _ ?_
    simp only [bind_run, getHart_run, inside_hart, Hart.past_rx]
    rfl
  rw [hruns]
  exact ⟨fun ha => scalar_traps hx _ _ (scalarStqM_misaligned ha), fun ha hd =>
    ⟨fun n ho => scalar_exc hx _ _ _ (scalarStqM_refused ha hd ho), fun o ho hp =>
      ⟨fun hf => scalar_exc hx _ _ _ (scalarStqM_full ha hd ho hp hf),
        fun hf => scalar_ok hx _ _ (scalarStqM_enters ha hd ho hp hf)⟩⟩⟩

end Sys2Proof.Machine

/-! PROOFS. Coherence objects, ranges, hotness and shoot-downs of a hart (R109 to R113, R261, R271, R290). -/

namespace Sys2Proof.Machine

/-- A hart accesses memory from its own cluster. -/
theorem accOf_cluster (s : State) (h : HartId) : (s.accOf h).cluster = h.cluster := by cases h <;> rfl

/-- The fault of a custom access, whatever its kind (R393). -/
theorem accessFault_custom {acc : Acc} (hstd : acc.std = false) {k : AccessKind} (hk : k ≠ .fetch) (detail va : Nat) :
    accessFault acc k detail va = { code := 10, detail := detail, tval := BitVec.ofNat 64 va, scause := 24 } := by
  cases k with
  | fetch => exact absurd rfl hk
  | load | store => simp [accessFault, hstd]

/-! ## Coherence objects (R109, R110, R290) -/

section
variable {s t : State} {h : HartId} {rd : Reg} {n pa base span : Nat} {l : Launch} {ts : List Tr} {ps : List Nat}
  (hl : s.launches.find (s.hart h).launch = some l) (hpa : l.shapeAddr n = some pa) (hbase : natOfBytes (s.peek pa 8) = base)
  (hspan : natOfBytes (s.peek (pa + 0x38) 8) = span) (hok : base % 4096 = 0 ∧ span % 4096 = 0 ∧ 4096 ≤ span ∧ span ≤ 2 ^ 24)
  (hc : canonical (BitVec.ofNat 64 base) = true) (hw : inWindow base = false)
  (hr : regionPages (s.accOf h) base (span / 4096) s = .ok ts t) (hps : (ts.map fun x => x.pa / 4096) = ps)
include hl hpa hbase hspan hok hc hw hr hps

/-- A page that is untracked or in an object already. -/
theorem cohDeclM_taken (htaken : (ts.any (·.untracked) || t.objects.any fun o => o.2.pages.any ps.contains) = true) :
    cohDeclM h rd n s = .ok () (t.setHart h ((t.hart h).wx rd (BitVec.allOnes 64))) := by
  simp only [cohDeclM, bind_run, get_run, hl, Option.bind_some, hpa, hbase, hspan, hok, and_true, decide_true, guardM_true,
    ownAcc_run, hc, hw, Bool.not_false, Bool.and_true, hr, hps, htaken, if_true, setReg_run]

variable (hfree : (ts.any (·.untracked) || t.objects.any fun o => o.2.pages.any ps.contains) = false)
include hfree

theorem cohDeclM_full (hf : t.freeObject (dieOfPa (ps.headD 0 * 4096)) = none) :
    cohDeclM h rd n s = .ok () (t.setHart h ((t.hart h).wx rd 0)) := by
  simp only [cohDeclM, bind_run, get_run, hl, Option.bind_some, hpa, hbase, hspan, hok, and_true, decide_true, guardM_true,
    ownAcc_run, hc, hw, Bool.not_false, Bool.and_true, hr, hps, hfree, Bool.false_eq_true, if_false, hf, setReg_run]

theorem cohDeclM_declares {i : Nat} (hf : t.freeObject (dieOfPa (ps.headD 0 * 4096)) = some i) {u v : State}
    (hu : u = (Claim.rel t h 3).gatherLines (pageLines ps))
    (hv : v = { u with objects := u.objects.put i { launch := (s.hart h).launch, pages := ps } }) :
    cohDeclM h rd n s = .ok () (v.setHart h ((v.hart h).wx rd (BitVec.ofNat 64 (i + 1)))) := by
  subst hu hv
  simp only [cohDeclM, bind_run, get_run, hl, Option.bind_some, hpa, hbase, hspan, hok, and_true, decide_true, guardM_true,
    ownAcc_run, hc, hw, Bool.not_false, Bool.and_true, hr, hps, hfree, Bool.false_eq_true, if_false, hf, releaseM_run, modify_run,
    setReg_run, Claim.rel]

end

section
variable {s : State} {h : HartId} {n : Dword}

theorem cohRelM_other (ho : ∀ o, s.objects.find (n - 1).toNat = some o → o.launch ≠ (s.hart h).launch) :
    cohRelM h n s = .error (.exc (excReserved 1)) s := by
  cases hf : s.objects.find (n - 1).toNat with
  | none => simp only [cohRelM, bind_run, get_run, hf, fail_run]
  | some o => simp only [cohRelM, bind_run, get_run, hf, ho o hf, if_false, fail_run]

theorem cohRelM_own {o : CohObj} (hf : s.objects.find (n - 1).toNat = some o) (ho : o.launch = (s.hart h).launch) {u : State}
    (hu : u = (Claim.rel s h 3).gatherLines (pageLines (o.pages.take 1))) :
    cohRelM h n s = .ok () { u with objects := u.objects.del (n - 1).toNat } := by
  subst hu
  simp only [cohRelM, bind_run, get_run, hf, ho, if_true, releaseM_run, modify_run, Claim.rel]

end

theorem cohDecl_runs {s : State} {h : HartId} (hx : Executes s h) (he : HartKind.isEngine h = false) (rd rs1 : Reg) :
    exec (.cohDecl rd rs1) s =
      scalar (handlerRule false rd) (fun g => cohDeclM g rd (((s.hart h).rx rs1).extractLsb' 0 4).toNat) s := by
  refine scalar_congr hx _ ?_
  simp only [bind_run, kindM_other he, getHart_run, inside_hart, Hart.past_rx]

theorem cohRel_runs {s : State} {h : HartId} (hx : Executes s h) (he : HartKind.isEngine h = false) (rs1 : Reg) :
    exec (.cohRel rs1) s = scalar (handlerRule false 0) (fun g => cohRelM g ((s.hart h).rx rs1)) s := by
  refine scalar_congr hx _ ?_
  simp only [bind_run, kindM_other he, getHart_run, inside_hart, Hart.past_rx]

/-- Settles O31: the pages of the region, the table of their die, then the object; an object of the own launch ends (R109, R110,
R290). The table of each die is the model's choice (log 33). -/
theorem coherenceObjects : Obligations.CoherenceObjects := by
  constructor
  · intro s t h rd rs1 l pa ts hx he hl hpa base span hok hc hw hr ps
    have hlaunch : ((Claim.inside s h).hart h).launch = (s.hart h).launch := by rw [inside_hart, Hart.past_launch]
    have hl' : (Claim.inside s h).launches.find ((Claim.inside s h).hart h).launch = some l := by
      rw [hlaunch, Claim.inside, State.setHart_launches, hl]
    have hpeek : ∀ a n, (Claim.inside s h).peek a n = s.peek a n := fun a n => by
      simp only [State.peek, Claim.inside, State.setHart_mem]
    have hbase : natOfBytes ((Claim.inside s h).peek pa 8) = base := by rw [hpeek]
    have hspan : natOfBytes ((Claim.inside s h).peek (pa + 0x38) 8) = span := by rw [hpeek]
    rw [cohDecl_runs hx he]
    refine ⟨fun ht => scalar_ok hx _ _ (cohDeclM_taken hl' hpa hbase hspan hok hc hw hr rfl ht), fun hfree =>
      ⟨fun hf => scalar_ok hx _ _ (cohDeclM_full hl' hpa hbase hspan hok hc hw hr rfl hfree hf), fun i hf => ?_⟩⟩
    rw [← hlaunch]
    exact scalar_ok hx _ _ (cohDeclM_declares hl' hpa hbase hspan hok hc hw hr rfl hfree hf rfl rfl)
  · intro s h rs1 hx he i
    have hobj : (Claim.inside s h).objects = s.objects := State.setHart_objects ..
    have hlaunch : ((Claim.inside s h).hart h).launch = (s.hart h).launch := by rw [inside_hart, Hart.past_launch]
    rw [cohRel_runs hx he]
    refine ⟨fun ho => scalar_traps hx _ _ (cohRelM_other ?_), fun o hf ho => ?_⟩
    · rwa [hobj, hlaunch]
    · exact scalar_ok hx _ _ (cohRelM_own (s := Claim.inside s h) (by rwa [hobj]) (by rwa [hlaunch]) rfl)

/-! ## Ranges within one line (R111) -/

section
variable {s t : State} {h : HartId} {o : RangeOp} {va len : Dword}

theorem rangeM_canonical (hc : canonical va = false) : rangeM h o va len s =
    .error (.exc { code := 10, detail := 0, tval := va, scause := 24 }) s := by
  have hk : (if o = .cinv then AccessKind.load else .store) ≠ .fetch := by split <;> exact nofun
  simp only [rangeM, bind_run, ownAcc_run, hc, guardM_false, accessFault_custom (std_false s h) hk, BitVec.ofNat_toNat,
    BitVec.setWidth_eq]

theorem rangeM_past (hc : canonical va = true) (hn : 2 ^ 48 < va.toNat % 2 ^ 48 + len.toNat) :
    rangeM h o va len s = .error (.exc (excReserved 1)) s := by
  simp only [rangeM, bind_run, ownAcc_run, hc, guardM_true, decide_eq_false (Nat.not_le.mpr hn), guardM_false]

theorem rangeM_lines (hc : canonical va = true) (hn : va.toNat % 2 ^ 48 + len.toNat ≤ 2 ^ 48) :
    rangeM h o va len s = rangeLines (s.accOf h) o (va.toNat % 2 ^ 48) len.toNat (len.toNat / 256 + 2) s := by
  simp only [rangeM, bind_run, ownAcc_run, hc, guardM_true, hn, decide_true]

theorem rangeLines_empty (acc : Acc) (o : RangeOp) (a fuel : Nat) (s : State) : rangeLines acc o a 0 fuel s = .ok () s := by
  cases fuel <;> rfl

/-- A range within one line: the line is worked on when its page is untracked, and left alone otherwise. -/
theorem rangeLines_line {acc : Acc} {a n fuel : Nat} {x : Tr} (h0 : 0 < n) (hl : a % 256 + n ≤ 256) (hw : inWindow a = false)
    (hm : mapped acc (if o = .cinv then .load else .store) a s = .ok x t) :
    rangeLines acc o a n (fuel + 1) s = .ok () (if x.untracked then t.rangeLine o acc.cluster (x.pa / 256) else t) := by
  have hlen : min n (256 - a % 256) = n := by omega
  simp only [rangeLines, ite_run, Nat.pos_iff_ne_zero.mp h0, if_false, hlen, Nat.sub_self, hw, Bool.not_false, if_true, bind_run,
    hm]
  cases x.untracked <;> simp only [if_true, if_false, Bool.false_eq_true, modify_run, rangeLines_empty]

end

/-- Settles O32: the checks of the range, then its one line by `rangeLines_line`. -/
theorem rangeOperationsWorkOnLines : Obligations.RangeOperationsWorkOnLines := by
  intro s t h rs1 rs2 o i x hx hi va n a
  have hruns : exec i s = scalar (handlerRule false 0) (fun g => rangeM g o va ((s.hart h).rx rs2)) s := by
    rw [range_exec hi]
    refine scalar_congr hx _ ?_
    simp only [bind_run, getHart_run, inside_hart, Hart.past_rx]
    rfl
  rw [hruns]
  refine ⟨fun hc => scalar_traps hx _ _ (rangeM_canonical hc), fun hc hn => scalar_traps hx _ _ (rangeM_past hc hn),
    fun hc h0 => scalar_on hx _ _ ?_, fun hc h0 hl hn hw hm => ?_⟩
  · have hfit : va.toNat % 2 ^ 48 + ((s.hart h).rx rs2).toNat ≤ 2 ^ 48 := by
      rw [show ((s.hart h).rx rs2).toNat = 0 from h0]
      omega
    rw [rangeM_lines hc hfit, show ((s.hart h).rx rs2).toNat = 0 from h0, rangeLines_empty]
  · have hline := (rangeM_lines hc hn).trans (rangeLines_line (fuel := n / 256 + 1) h0 hl hw hm)
    rw [accOf_cluster] at hline
    refine ⟨fun hu => ?_, fun hu => ?_⟩
    · rw [if_neg (by rw [hu]; exact Bool.false_ne_true)] at hline
      exact scalar_ok hx _ _ hline
    · rw [if_pos hu] at hline
      exact (scalar_ok hx _ _ hline).trans (by cases o <;> rfl)

/-! ## Hotness (R112, R261) -/

theorem halveHot_setHart (s : State) (h : HartId) (v : Hart) (die : Nat) :
    (s.setHart h v).halveHot die = (s.halveHot die).setHart h v := by
  simp only [State.halveHot, State.setHart_clk, State.setHart_halvings]
  split
  · rfl
  · cases h <;> rfl

theorem hotRegion_dram {pa : Dword} (hpa : pa.toNat < devBase) (h : HartId) (s : State) :
    hotRegion h pa s = .ok (pa.toNat / 65536) s := by
  simp only [hotRegion, bind_run, ownAcc_run, hpa, decide_true, guardM_true, pure_run]

theorem hotRegion_other {pa : Dword} (hpa : devBase ≤ pa.toNat) (h : HartId) (s : State) :
    hotRegion h pa s = .error (.exc { code := 10, detail := 8, tval := BitVec.ofNat 64 pa.toNat, scause := 24 }) s := by
  simp only [hotRegion, bind_run, ownAcc_run, decide_eq_false (Nat.not_lt.mpr hpa), guardM_false,
    accessFault_custom (std_false s h) (k := .load) nofun]

section
variable {s : State} {h : HartId} (hx : Executes s h) (he : HartKind.isEngine h = false) (hp : (s.hart h).priv = .s) (rd rs1 : Reg)
include hx he hp

theorem hotRead_runs : exec (.hotRead rd rs1) s = scalar (handlerRule false rd) (fun g => do
    let region ← hotRegion g ((s.hart h).rx rs1)
    modify fun u => u.halveHot (dieOfPa (region * 65536))
    setReg g rd (BitVec.ofNat 64 ((← get).hot.getD region 0))) s := by
  refine scalar_congr hx _ ?_
  rw [levelS_supervisor he (by rw [inside_hart, Hart.past_priv, hp])]
  simp only [bind_run, getHart_run, inside_hart, Hart.past_rx]

theorem hotClr_runs : exec (.hotClr rs1) s = scalar (handlerRule false 0) (fun g => do
    let region ← hotRegion g ((s.hart h).rx rs1)
    modify fun u =>
      let u := u.halveHot (dieOfPa (region * 65536))
      { u with hot := u.hot.del region }) s := by
  refine scalar_congr hx _ ?_
  rw [levelS_supervisor he (by rw [inside_hart, Hart.past_priv, hp])]
  simp only [bind_run, getHart_run, inside_hart, Hart.past_rx]

end

/-- Settles O33: the region of the address, then its counter. The halvings that are due (R261) and the end of DRAM (R259) are of the
model; that the fault names the physical address is its choice (log 8). -/
theorem hotnessCounters : Obligations.HotnessCounters := by
  intro s h rd rs1 hx he hp pa u
  rw [hotRead_runs hx he hp, hotClr_runs hx he hp]
  refine ⟨fun hpa => ⟨scalar_writes hx _ _ ?_, scalar_other hx _ _ ?_⟩, fun hpa =>
    ⟨8, scalar_traps hx _ _ ?_, scalar_traps hx _ _ ?_⟩⟩
  · simp only [bind_run, hotRegion_dram hpa, modify_run, Claim.inside, halveHot_setHart, get_run, State.setHart_hot, setReg_inside]
    rfl
  · simp only [bind_run, hotRegion_dram hpa, modify_run, Claim.inside, halveHot_setHart, State.setHart_hot]
    cases h <;> rfl
  · rw [bind_run, hotRegion_other hpa]
  · rw [bind_run, hotRegion_other hpa]

end Sys2Proof.Machine

/-! PROOFS. Shoot-downs and migration of a hart (R106, R113, R137, R138, R271). -/

namespace Sys2Proof.Machine

/-! ## tlb.inv (R113, R271) -/

/-- The state with an invalidation that a hart sends to the clusters `targets`, with the fields of the operand word (R113). -/
def sentInval (s : State) (h : HartId) (va ops : Dword) (targets : BitVec 128) : State :=
  { s with nextInval := s.nextInval + 1, invals := s.invals.put s.nextInval {
    hart := some h
    line := none
    va := va.toNat % 2 ^ 48
    asid := ops.toNat % 2 ^ 16
    allVa := ops.getLsbD 16
    allAsid := ops.getLsbD 17
    toReceive := targets
    toAck := targets } }

theorem inside_sentInval (s : State) (h : HartId) (va ops : Dword) (targets : BitVec 128) :
    sentInval (Claim.inside s h) h va ops targets = (sentInval s h va ops targets).setHart h (s.hart h).past := by
  cases h <;> rfl

section
variable {s : State} {h : HartId} {va ops : Dword} (hi : (s.invals.any fun e => e.2.hart == some h) = false)
include hi

/-- What the acknowledges have granted lets the hart go on. -/
theorem tlbInvM_granted (hg : (s.hart h).granted ≠ none) : tlbInvM h va ops s = .ok () s := by
  simp only [tlbInvM, bind_run, get_run, hi, Bool.false_eq_true, if_false, pure_run, Option.isSome_iff_ne_none.mpr hg, if_true]

variable (hg : (s.hart h).granted = none)
include hg

theorem tlbInvM_operand (ho : 2 ^ 18 ≤ ops.toNat) : tlbInvM h va ops s = .error (.exc (excReserved 1)) s := by
  simp only [tlbInvM, bind_run, get_run, hi, Bool.false_eq_true, if_false, hg, Option.isSome_none,
    decide_eq_false (Nat.not_lt.mpr ho), guardM_false]

variable (ho : ops.toNat < 2 ^ 18) (hc : (canonical va || ops.getLsbD 16) = true)
  (hd : s.releaseUnit (s.accOf h).who 3 = s)
include ho hc hd

theorem tlbInvM_alone (ht : s.invalTargets (s.hart h).dptb (va.toNat % 2 ^ 48) ops.toNat = 0) : tlbInvM h va ops s = .ok () s := by
  simp only [tlbInvM, bind_run, get_run, hi, Bool.false_eq_true, if_false, pure_run, hg, Option.isSome_none, ho, decide_true,
    guardM_true, ownAcc_run, hc, releaseM_run, hd, ht, if_true]

theorem tlbInvM_sends {targets : BitVec 128} (ht : s.invalTargets (s.hart h).dptb (va.toNat % 2 ^ 48) ops.toNat = targets)
    (h0 : targets ≠ 0) : tlbInvM h va ops s = .error (.park .inval) (sentInval s h va ops targets) := by
  simp only [tlbInvM, bind_run, get_run, hi, Bool.false_eq_true, if_false, hg, Option.isSome_none, ho, decide_true,
    guardM_true, ownAcc_run, hc, releaseM_run, hd, ht, h0, set_run, parkFor_run, sentInval]

end

theorem tlbInv_runs {s : State} {h : HartId} (hx : Executes s h) (he : HartKind.isEngine h = false) (hp : (s.hart h).priv = .s)
    (rs1 rs2 : Reg) : exec (.tlbInv rs1 rs2) s =
      scalar (handlerRule true 0) (fun g => tlbInvM g ((s.hart h).rx rs1) ((s.hart h).rx rs2)) s := by
  refine scalar_congr hx _ ?_
  rw [levelS_supervisor he (by rw [inside_hart, Hart.past_priv, hp])]
  simp only [bind_run, getHart_run, inside_hart, Hart.past_rx]

/-- Settles O35: by what was granted, the operand word, then the sharers. -/
theorem shootDownWaitsForAcknowledges : Obligations.ShootDownWaitsForAcknowledges := by
  intro s h rs1 rs2 hx he hp hinv va ops
  have hi : ((Claim.inside s h).invals.any fun e => e.2.hart == some h) = false := by
    rw [Claim.inside, State.setHart_invals, List.any_eq_false]
    exact fun e hm => by simpa using hinv e hm
  have hgrant : ((Claim.inside s h).hart h).granted = (s.hart h).granted := by rw [inside_hart, Hart.past_granted]
  have hdptb : ((Claim.inside s h).hart h).dptb = (s.hart h).dptb := by rw [inside_hart, Hart.past_dptb]
  rw [tlbInv_runs hx he hp]
  rw [← hgrant]
  refine ⟨fun hg => scalar_on hx _ _ (tlbInvM_granted hi hg), fun hg ho => scalar_traps hx _ _ (tlbInvM_operand hi hg ho),
    fun hg ho hor hd => ?_⟩
  have hc : (canonical va || ops.getLsbD 16) = true := by simpa using hor
  rw [← hdptb]
  refine ⟨fun ht => scalar_on hx _ _ (tlbInvM_alone hi hg ho hc (rel_drained hd 3) ht), fun ht => scalar_parks hx _ _
    ((tlbInvM_sends hi hg ho hc (rel_drained hd 3) rfl ht).trans (congrArg _ (inside_sentInval ..)))⟩

/-! ## mig.w (R106, R137, R138) -/

/-- The lane continuation that a strand `r` of a crew of class `cls` becomes: code at `target`, its migration block at `va`. -/
def migrated (r : Hart) (cls target : Nat) (va : Dword) : Cont :=
  { w0 := BitVec.ofNat 64 target
    w1 := va &&& 0xFFFFFFFFFFFF#64
    w2 := if r.duty then r.join else 0
    w3 := BitVec.ofNat 64 (1 + cls % 4 * 4 + 2 ^ 17 + 2 ^ 18) }

/-- The fields of the record, whatever the crew stamped on it: the stamp leaves the low half of w3 (`stamp_low`). -/
theorem migrated_fields (r : Hart) (cls target : Nat) (va : Dword) (ref : CrewRef) :
    let c := (migrated r cls target va).stamp ref
    c.code = BitVec.ofNat 64 target &&& 0xFFFFFFFFFFFF#64 ∧ c.kind = 1 ∧ c.regs = true ∧ c.cls = cls % 4 := by
  refine ⟨rfl, ?_, ?_, ?_⟩
  · simp only [Cont.kind, Cont.stamp, stamp_low _ ref 0 2 (by decide), migrated, BitVec.extractLsb'_toNat, BitVec.toNat_ofNat]
    omega
  · simp only [Cont.regs, Cont.stamp, stamp_bit, migrated, BitVec.getLsbD_ofNat, Nat.testBit_eq_decide_div_mod_eq]
    simp
    omega
  · simp only [Cont.cls, Cont.stamp, stamp_low _ ref 2 2 (by decide), migrated, BitVec.extractLsb'_toNat, BitVec.toNat_ofNat]
    omega

section
variable {s : State} {h : HartId}

theorem migWM_unmarked (hm : s.migTarget (s.hart h).launch ((s.hart h).pc - 4) = none) :
    migWM h s = .error (.exc (excDev 13 0 0)) s := by
  simp only [migWM, bind_run, get_run, hm, fail_run]

/-- A strand that may migrate and has a block: its registers are written to the block, its continuation is queued, its context is
freed. -/
theorem migWM_migrates {t u v w : State} {target b : Nat} {bs : List Nat} {ref : CrewRef} {c : Crew} {gs : List Seg} {r : Hart}
    (hr : s.hart h = r) (hm : s.migTarget r.launch (r.pc - 4) = some target) (hfrm : r.fcsr.toNat / 32 < 5)
    (hcrew : r.crew = some ref) (hc : s.crewOf ref = some c) (hwaves : (s.kernelOf c).waves ≠ 0) (hsends : s.sendsGone h = true)
    (hask : askBlocks ref (.hart h 1) s = .ok (some (b :: bs)) t)
    (hgs : resolve (t.accOf h) (s.blockAddr c b) 512 .store t = .ok gs u) (hgate : gateSegs (t.accOf h) true gs u = .ok () v)
    (hwrite : writeSegs (t.accOf h) true gs
      (blockBytes (fun i => r.rx (BitVec.ofNat 5 i)) r.fcsr (fun j => r.rf (BitVec.ofNat 5 j))) (Claim.rel v h 1) = .ok () w)
    {q : QCont} {x : State} (hq : q = ({ originOf s h with gfx := r.gfx } : Origin).queued (w.useBlocks ref [b])
      (migrated r c.cls target (s.blockAddr c b)))
    (hx : x = (((w.useBlocks ref [b]).pushCont h.cluster q).lapseSender h).freeStack h) :
    migWM h s = .ok () (x.setHart h (x.hart h).freed) := by
  subst hq hx
  rw [Claim.rel] at hwrite
  simp only [migWM, bind_run, get_run, hr, hm, hfrm, decide_true, guardM_true, hcrew, Option.bind_some, hc, Option.map_some,
    bne_iff_ne.mpr hwaves, hsends, Bool.not_true, Bool.false_eq_true, if_false, hask, List.headD_cons, ownAcc_run, hgs, hgate,
    releaseM_run, hwrite, modify_run, modHart_run]
  rfl

end

/-- The migration entries are those of the image, whatever the hart does. -/
theorem migTarget_inside (s : State) (h : HartId) (launch : Nat) (pc : Dword) :
    (Claim.inside s h).migTarget launch pc = s.migTarget launch pc := by
  simp only [State.migTarget, Claim.inside, State.setHart_launches]

theorem kernelOf_inside (s : State) (h : HartId) (c : Crew) : (Claim.inside s h).kernelOf c = s.kernelOf c := by
  simp only [State.kernelOf, Claim.inside, State.setHart_launches]

/-- A continuation of a crew carries the crew's stamp. -/
theorem queued_stamped {o : Origin} {ref : CrewRef} (ho : o.crew = some ref) (s : State) (c : Cont) :
    (o.queued s c).c = c.stamp ref := by
  simp only [Origin.queued, ho]

/-- Settles O36: without an entry by `migWM_unmarked`, with one by `migWM_migrates`, whose record holds what `migrated_fields`
says. -/
theorem migrationToALane : Obligations.MigrationToALane := by
  intro s t u v w k b bs gs ref c target hx h r
  have hruns : exec .migW s = scalar (handlerRule true 0) migWM s := by
    refine scalar_congr hx _ ?_
    rw [bind_run, kindM_strand]
  have hr : (Claim.inside s h).hart h = r.past := inside_hart s h
  have hpc : r.past.pc - 4 = r.pc := Hart.past_back r
  rw [hruns]
  refine ⟨fun hm => scalar_traps hx _ _ (migWM_unmarked ?_), fun hm hfrm hcrew hc hwaves hsends hask hgs hgate hwrite => ?_⟩
  · rw [hr, hpc, migTarget_inside]
    exact hm
  · let q := ({ originOf (Claim.inside s h) h with gfx := r.past.gfx } : Origin).queued (w.useBlocks ref [b])
      (migrated r.past c.cls target ((Claim.inside s h).blockAddr c b))
    have hmig := migWM_migrates hr (by rw [hpc, migTarget_inside]; exact hm) hfrm hcrew
      (by rw [Claim.inside, State.crewOf_setHart, hc]) (by rwa [kernelOf_inside]) hsends hask hgs hgate hwrite (q := q) rfl rfl
    have hq : q.c = (migrated r.past c.cls target ((Claim.inside s h).blockAddr c b)).stamp ref :=
      queued_stamped (o := { originOf (Claim.inside s h) h with gfx := r.past.gfx }) ((congrArg Hart.crew hr).trans hcrew) ..
    obtain ⟨hcode, hkind, hregs, hcls⟩ := migrated_fields r.past c.cls target ((Claim.inside s h).blockAddr c b) ref
    rw [← hq] at hcode hkind hregs hcls
    exact ⟨q, _, scalar_ok hx _ _ hmig, hcode, hkind, hregs, hcls, rfl⟩

end Sys2Proof.Machine

/-! PROOFS. Kicks, handlers that end, and messages on their way (R92, R102 to R108, R115, R320, R400 to R403). -/

namespace Sys2Proof.Machine

/-! ## eng.kick and eng.rdv (R107, R108, R320) -/

section
variable {s : State} {h : HartId} {word arg : Dword} {scope : Nat}

theorem engKickM_word (hw : 256 ≤ word.toNat ∨ 7 ≤ (word.extractLsb' 0 4).toNat) :
    engKickM h word arg scope s = .error (.exc (excReserved 1)) s := by
  have hno : ¬(word.toNat < 256 ∧ (word.extractLsb' 0 4).toNat < 7) := by omega
  simp only [engKickM, bind_run, decide_eq_false hno, guardM_false]

/-- The engine that a kick word names in the hart's cluster. -/
def kickedEngine (h : HartId) (word : Dword) : Nat := h.cluster * 7 + (word.extractLsb' 0 4).toNat

/-- The kick that a hart stores (R320). -/
def kickOf (r : Hart) (h : HartId) (word arg : Dword) (scope : Nat) : Kick :=
  { word := word, arg := arg, kicker := h, ident := kickIdent h, scope := scope, crew := r.crew, launch := r.launch
    dcrew := r.dcrew, dptb := r.dptb }

/-- The hart's record of the kicks of engine `e` counts one more. -/
def Hart.countsKick (r : Hart) (e scope : Nat) : Hart :=
  { r with kicks := r.kicks.put e { r.kicks.getD e {} with
    outstanding := (r.kicks.getD e {}).outstanding + 1, scope := scope, unmet := true } }

variable (hw : word.toNat < 256) (he : (word.extractLsb' 0 4).toNat < 7)
  (hmb : (word.getLsbD 7 && HartKind.isUniform h) = false)
include hw he hmb

/-- An engine with room that no kicker waits for takes the kick. -/
theorem engKickM_stores (hroom : (s.engine (kickedEngine h word)).queue.length < 4)
    (hparked : (s.engine (kickedEngine h word)).parked = []) (hd : s.releaseUnit (s.accOf h).who scope = s) {u : State}
    (hk : u = s.setEngine (kickedEngine h word) { s.engine (kickedEngine h word) with
      queue := (s.engine (kickedEngine h word)).queue ++ [kickOf (s.hart h) h word arg scope]
      parked := [] }) :
    engKickM h word arg scope s =
      .ok () (u.setHart h ((u.hart h).countsKick (word.extractLsb' 0 4).toNat scope)) := by
  subst hk
  rw [kickedEngine] at hroom hparked ⊢
  simp only [engKickM, bind_run, hw, he, and_self, decide_true, guardM_true, hmb, Bool.not_false, get_run, hparked,
    decide_eq_false (Nat.not_le.mpr hroom), List.head?_nil, List.isEmpty_nil, List.contains_nil, Bool.and_self,
    Bool.or_true, Bool.not_true, Bool.or_self, Bool.false_eq_true, if_false, releaseM_run, hd, modify_run,
    List.filter_nil, modHart_run]
  rfl

/-- A full queue parks a kicker that does not wait yet. -/
theorem engKickM_full (hfull : 4 ≤ (s.engine (kickedEngine h word)).queue.length)
    (hnew : h ∉ (s.engine (kickedEngine h word)).parked) :
    engKickM h word arg scope s = .error (.park .kickFull) (s.setEngine (kickedEngine h word)
      { s.engine (kickedEngine h word) with parked := (s.engine (kickedEngine h word)).parked ++ [h] }) := by
  have hc : (s.engine (kickedEngine h word)).parked.contains h = false := by simpa using hnew
  rw [kickedEngine] at hfull hc ⊢
  simp only [engKickM, bind_run, hw, he, and_self, decide_true, guardM_true, hmb, Bool.not_false, get_run, hfull, Bool.true_or,
    if_true, hc, modify_run, parkFor_run]

end

section
variable {s : State} {h : HartId} {rd : Reg} {e : Nat}

theorem engRdvM_engine {k : KickRec} {known : Bool} (h7 : 7 ≤ e) : engRdvM h rd e k known s = .error (.exc (excReserved 1)) s := by
  simp only [engRdvM, bind_run, decide_eq_false (Nat.not_lt.mpr h7), guardM_false]

theorem engRdvM_waits {k : KickRec} {known : Bool} (h7 : e < 7) (ho : k.outstanding ≠ 0) :
    engRdvM h rd e k known s = .error (.park .rendezvous) s := by
  simp only [engRdvM, bind_run, h7, decide_true, guardM_true, ho, ne_eq, not_false_eq_true, if_true, parkFor_run]

/-- The hart with its record of engine `e` met. -/
def Hart.meets (r : Hart) (e : Nat) (k : KickRec) (known : Bool) : Hart :=
  if known then { r with kicks := r.kicks.put e { k with unmet := false } } else r

theorem meets_past (r : Hart) (e : Nat) (k : KickRec) (known : Bool) : r.past.meets e k known = (r.meets e k known).past := by
  cases known <;> rfl

theorem meets_handler (r : Hart) (e : Nat) (k : KickRec) (known : Bool) : (r.meets e k known).handler = r.handler := by
  cases known <;> rfl

/-- A rendezvous with nothing outstanding answers the completion word. -/
theorem engRdvM_answers {k : KickRec} {known : Bool} (h7 : e < 7) (ho : k.outstanding = 0) :
    engRdvM h rd e k known (Claim.inside s h) = .ok () (s.setHart h (((s.hart h).meets e k known).wx rd k.word).past) := by
  rw [← Hart.wx_past, ← meets_past]
  cases known <;>
    simp only [engRdvM, bind_run, h7, decide_true, guardM_true, ho, ne_eq, not_true_eq_false, if_false, if_true,
      Bool.false_eq_true, modHart_run, setReg_run, State.hart_setHart, Claim.inside, State.setHart_setHart, Hart.meets]

variable (hx : Executes s h) (he : HartKind.isEngine h = false) (rs1 rs2 : Reg)
include hx he

theorem engKick_runs {scope : BitVec 3} (h4 : scope.toNat ≤ 4) (h0 : scope ≠ 0 ∨ HartKind.isUniform h = true) :
    exec (.engKick rs1 rs2 scope) s = scalar (handlerRule false 0)
      (fun g => engKickM g ((s.hart h).rx rs1) ((s.hart h).rx rs2) scope.toNat) s := by
  have hs : (decide (scope.toNat ≤ 4) && (scope != 0 || HartKind.isUniform h)) = true := by simpa [h4] using h0
  refine scalar_congr hx _ ?_
  simp only [bind_run, kindM_other he, hs, guardM_true, getHart_run, inside_hart, Hart.past_rx]

theorem engRdv_runs : exec (.engRdv rd rs1) s =
    let e := (((s.hart h).rx rs1).extractLsb' 0 4).toNat
    scalar (handlerRule true rd) (fun g => engRdvM g rd e ((s.hart h).kicks.getD e {}) ((s.hart h).kicks.find e).isSome) s := by
  refine scalar_congr hx _ ?_
  simp only [bind_run, kindM_other he, getHart_run, inside_hart, Hart.past_rx, Hart.past_kicks]

end

/-- Settles O30: a kick by `engKickM_word`, `engKickM_stores` and `engKickM_full`, a rendezvous by what is outstanding. -/
theorem kicksAndRendezvous : Obligations.KicksAndRendezvous := by
  intro s h rd rs1 rs2 scope hx he word e x
  have hengine : (Claim.inside s h).engine (kickedEngine h word) = x := engine_setHart s he ..
  refine ⟨fun h4 h0 => ?_, ?_⟩
  · rw [engKick_runs hx he rs1 rs2 h4 h0]
    refine ⟨fun hw => scalar_traps hx _ _ (engKickM_word hw), fun hw h7 hu => ?_⟩
    have hmb : (word.getLsbD 7 && HartKind.isUniform h) = false :=
      hu.elim (fun h7 => by rw [h7, Bool.false_and]) fun hk => by rw [hk, Bool.and_false]
    refine ⟨fun hroom hparked hd => ?_, fun hfull hnew => scalar_parks hx _ _ ((engKickM_full hw h7 hmb ?_ ?_).trans ?_)⟩
    · have hstore := engKickM_stores (arg := (s.hart h).rx rs2) hw h7 hmb (by rwa [hengine]) (by rwa [hengine])
        (rel_drained hd scope.toNat) rfl
      rw [hart_setEngine _ he, inside_hart, hengine] at hstore
      refine ⟨_, (scalar_retired hx _ _ _ hstore).trans (congrArg _ (congrArg _ (Hart.past_retired _
        ((s.hart h).countsKick e scope.toNat) hx.2 rfl))), ?_, ?_, ?_, ?_, ?_⟩
      · rw [State.setHart_mem, State.setEngine_mem, Claim.inside, State.setHart_mem]
      · rw [engine_setHart _ he, show h.cluster * 7 + e = kickedEngine h word from rfl, State.engine_setEngine]
        exact List.map_append
      · rw [State.hart_setHart]
        exact congrArg KickRec.outstanding (Map.getD_put_self ..)
      · rw [State.hart_setHart]
        rfl
      · rw [State.hart_setHart]
        rfl
    · rwa [hengine]
    · rwa [hengine]
    · rw [hengine, Claim.inside, setEngine_setHart s he]
      rfl
  · rw [engRdv_runs hx he]
    refine ⟨fun h7 => scalar_traps hx _ _ (engRdvM_engine h7), fun h7 ho => scalar_parks hx _ _ (engRdvM_waits h7 ho),
      fun h7 ho => ?_⟩
    refine ⟨(s.hart h).meets e ((s.hart h).kicks.getD e {}) ((s.hart h).kicks.find e).isSome, ?_, ?_⟩
    · rw [Hart.wx_stepped]
      exact scalar_to hx _ _ _ (((Hart.wx_handler ..).trans (meets_handler ..)).trans hx.2) (engRdvM_answers h7 ho)
    · cases ((s.hart h).kicks.find e).isSome
      · exact .inl rfl
      · exact .inr rfl

/-! ## Handler mode (R92, R402, R403) -/

/-- Settles O38: each listed instruction raises its violation (`violations_exec`), which ends the handler (`trap_handler`). -/
theorem handlerViolationsEndTheHandler : Obligations.HandlerViolationsEndTheHandler := by
  intro s k a i d rd rs1 rs2 imm off ha r hh ht hv
  have hsome : (s.hart (.strand k)).handler.isSome = true := Option.isSome_of_eq_some hh
  obtain ⟨hd, hexec⟩ := violations_exec s k d i rd rs1 rs2 imm off ha hsome hv
  exact ⟨_, hexec, trap_handler s k a d hh ht hd⟩

/-! ## Messages and stqs on their way (R102 to R105, R115, R400, R402) -/

/-- Settles O55, event by event. That a dropped message has UNIT 255 (log 61) and the order of the steps of an stq's target (log 62)
are the model's choices. -/
theorem messagesAndStqsArrive : Obligations.MessagesAndStqsArrive :=
  fun s => ⟨ev_messageDepart s, ev_messageArrival s, ev_heldMessage s, ev_handlerStart s, ev_stqTarget s⟩

end Sys2Proof.Machine

/-! PROOFS. Branches, reconvergence and hints of lane groups (R132 to R134, R202 to R206, R213). -/

namespace Sys2Proof.Machine

open Sys2Proof.Claim

section
variable {s : State} {c : LCtx}

/-! ## The group of a slot moves (R151, R213) -/

theorem modGroup_at (pc : Nat) : modGroup c (fun g => g.at pc) s = .ok () (s.setWave c.k (groupTo c pc (s.wave c.k))) := rfl

theorem retire_setWave (w : Wave) : Machine.retire c (s.setWave c.k w) = .ok () (laneTo s c w) := retire_lane c _

/-- YIELD goes on, and then asks the engine for another wave if this one is current. -/
theorem exec_yield_ready (h : LaneReady s c) (hi : c.i = .yield c.w) :
    let on := laneTo s c (groupOn c (s.wave c.k))
    exec c.i s = .next (if (on.wengine (c.k / 16)).current = some (c.k % 16) then
      on.setWengine (c.k / 16) { on.wengine (c.k / 16) with switch := true } else on) :=
  laneReady_exec h (by rw [hi]; exact exec_yield s c.w) (by simp only [bind_run, advance_run, retire_setWave, modify_run])

/-! ## BRA (R202, R203) -/

/-- The lanes that fall through BRA. -/
def falling (s : State) (c : LCtx) : Mask := c.g.mask &&& ~~~(branching s c)

/-- The two parts of a group that BRA divides: the larger first, the one that falls through if neither is larger. -/
def branchParts (s : State) (c : LCtx) (target : Nat) : List (Mask × Nat) :=
  if popMask (branching s c) ≤ popMask (falling s c) then [(falling s c, c.g.pc + 12), (branching s c, target)]
  else [(branching s c, target), (falling s c, c.g.pc + 12)]

/-- Unless a lane takes it out of the lane section, BRA is its case split on the lanes that take it. -/
theorem braM_checked {target : Int} (hpc : (c.g.pc : Int) + 4 * c.w.off24.toInt = target)
    (hin : branching s c ≠ 0 → inSection (s.wave c.k) target = true) : braM c s = (do
      if branching s c = 0 then advance c
      else if falling s c = 0 then modGroup c fun g => g.at (target % (2 ^ 48 : Nat)).toNat
      else do
        noHandler c
        regroup c fun w => w.diverge c.sec c.g (parcels c.g.pc c.w.rcv.toInt) s.clk (branchParts s c (target % (2 ^ 48 : Nat)).toNat)
      Machine.retire c) s := by
  have hstay : ¬ (branching s c ≠ 0 ∧ inSection (s.wave c.k) target = false) := fun ⟨ht, hout⟩ => by simp [hin ht] at hout
  subst hpc
  simp only [braM, bind_run, get_run, ite_run]
  exact if_neg hstay

theorem braM_none_taken (ht : branching s c = 0) : braM c s = .ok () (laneTo s c (groupOn c (s.wave c.k))) := by
  simp only [braM_checked rfl fun h => absurd ht h, bind_run, if_pos ht, advance_run, retire_setWave]

section
variable {target : Int} (hpc : (c.g.pc : Int) + 4 * c.w.off24.toInt = target) (ht : branching s c ≠ 0)
  (hin : inSection (s.wave c.k) target = true) (h0 : 0 ≤ target) (h48 : target < 2 ^ 48)
include hpc ht hin h0 h48

theorem braM_all_taken (hf : falling s c = 0) : braM c s = .ok () (laneTo s c (groupTo c target.toNat (s.wave c.k))) := by
  have hlane : target % (2 ^ 48 : Nat) = target := Int.emod_eq_of_lt h0 h48
  simp only [braM_checked hpc fun _ => hin, bind_run, if_neg ht, if_pos hf, hlane, modGroup_at, retire_setWave]

theorem braM_some_taken (h : LaneReady s c) (hf : falling s c ≠ 0) (hl : (s.wave c.k).lhandler = none) {x y : Mask × Nat}
    (hparts : branchParts s c target.toNat = [x, y])
    (ho : OnChip (s.wave c.k) (divided s c (s.wave c.k).newRec (parcels c.g.pc c.w.rcv.toInt) x y)) :
    braM c s = .ok () (laneTo s c (divided s c (s.wave c.k).newRec (parcels c.g.pc c.w.rcv.toInt) x y)) := by
  have hlane : target % (2 ^ 48 : Nat) = target := Int.emod_eq_of_lt h0 h48
  have hmove := regroup_two h hl (parcels c.g.pc c.w.rcv.toInt) x y ho
  simp only [braM_checked hpc fun _ => hin, bind_run, if_neg ht, if_neg hf, hlane, noHandler_run c s hl, hparts, hmove,
    retire_setWave]

end

/-! ## BRX (R204) -/

/-- The targets of BRX are aligned and within the lane section. -/
def TargetsGood (s : State) (c : LCtx) : Prop :=
  ∀ l ∈ lanesOf c.act, branchTo s c l % 12 = 0 ∧ inSection (s.wave c.k) (branchTo s c l) = true

theorem has_of_mem_lanesOf {m : Mask} {l : Nat} (h : l ∈ lanesOf m) : Mask.has m l = true := (List.mem_filter.1 h).2

theorem branchTo_active {l : Nat} (hl : l ∈ lanesOf c.act) : branchTo s c l = ((s.wave c.k).reg c.w.vd.toNat l).toNat :=
  if_pos (has_of_mem_lanesOf hl)

theorem brx_aligned (hg : TargetsGood s c) : laneCheck (lanesOf c.act) (fun l =>
    guardM (((s.wave c.k).reg c.w.vd.toNat l).toNat % 12 == 0)
      (excDev 4 0 ((s.wave c.k).offsetVa ((s.wave c.k).reg c.w.vd.toNat l).toNat))) s = .ok () s :=
  laneCheck_ok _ _ _ fun l hl => by simp [guardM_run, ← branchTo_active hl, (hg l hl).1]

theorem brx_inside (hg : TargetsGood s c) : laneCheck (lanesOf c.act) (fun l =>
    guardM (inSection (s.wave c.k) ((s.wave c.k).reg c.w.vd.toNat l).toNat)
      (excDev 10 0 ((s.wave c.k).offsetVa ((s.wave c.k).reg c.w.vd.toNat l).toNat))) s = .ok () s :=
  laneCheck_ok _ _ _ fun l hl => by simp [guardM_run, ← branchTo_active hl, (hg l hl).2]

theorem brxM_one {x : Mask × Nat} (hg : TargetsGood s c) (hx : branchSets s c = [x]) :
    brxM c s = .ok () (laneTo s c (groupTo c x.2 (s.wave c.k))) := by
  simp only [branchSets, branchTo] at hx
  simp only [brxM, bind_run, get_run, brx_aligned hg, brx_inside hg, hx, modGroup_at, retire_setWave]

theorem brxM_many {x y : Mask × Nat} {t : List (Mask × Nat)} (hg : TargetsGood s c) (hx : branchSets s c = x :: y :: t)
    (hl : (s.wave c.k).lhandler = none)
    (ho : OnChip (s.wave c.k) ((s.wave c.k).diverge c.sec c.g (parcels c.g.pc c.w.rcv.toInt) s.clk (x :: y :: t))) :
    brxM c s = .ok () (laneTo s c ((s.wave c.k).diverge c.sec c.g (parcels c.g.pc c.w.rcv.toInt) s.clk (x :: y :: t))) := by
  have hmove := regroup_run c (fun w => w.diverge c.sec c.g (parcels c.g.pc c.w.rcv.toInt) s.clk (x :: y :: t)) s ho
  simp only [branchSets, branchTo] at hx
  simp only [brxM, bind_run, get_run, brx_aligned hg, brx_inside hg, hx, noHandler_run c s hl, hmove, retire_setWave]

/-! ## RECONV (R134, R206) -/

theorem reconvM_arrives {r : RecRec} (htok : c.g.token ≠ 0) (hr : (s.wave c.k).recs.find c.g.token = some r) (ha : r.addr = c.g.pc)
    (ho : OnChip (s.wave c.k) ((s.wave c.k).arrive c.sec c.g r)) :
    reconvM c s = .ok () (laneTo s c ((s.wave c.k).arrive c.sec c.g r)) := by
  have hmove := regroup_run c (fun w => w.arrive c.sec c.g r) s ho
  simp only [reconvM, bind_run, getWave_run, hr, ite_run, htok, ha, ne_eq, not_false_eq_true, and_self, if_true, hmove, retire_setWave]

theorem reconvM_passes (hp : c.g.token = 0 ∨ ∀ r, (s.wave c.k).recs.find c.g.token = some r → r.addr ≠ c.g.pc) :
    reconvM c s = .ok () (laneTo s c (groupOn c (s.wave c.k))) := by
  cases hr : (s.wave c.k).recs.find c.g.token with
  | none => simp only [reconvM, bind_run, getWave_run, hr, advance_run, retire_setWave]
  | some r =>
    have hpass : ¬ (c.g.token ≠ 0 ∧ r.addr = c.g.pc) := fun ⟨htok, ha⟩ => hp.elim htok fun hn => hn r hr ha
    simp only [reconvM, bind_run, getWave_run, hr, ite_run, if_neg hpass, advance_run, retire_setWave]

theorem arrive_last {w : Wave} {sec : Bool} {g : Group} {r : RecRec} (hp : r.pending &&& ~~~g.mask = 0) : w.arrive sec g r =
    { (w.setGroup sec (some { mask := r.arrived ||| g.mask, pc := r.addr + 12, token := r.parent })) with recs := w.recs.del g.token } := by
  simp only [Wave.arrive, hp, if_true]

theorem arrive_earlier {w : Wave} {sec : Bool} {g : Group} {r : RecRec} (hp : r.pending &&& ~~~g.mask ≠ 0) : w.arrive sec g r =
    ({ (w.setGroup sec none) with recs := w.recs.put g.token { r with
      arrived := r.arrived ||| g.mask
      pending := r.pending &&& ~~~g.mask } } : Wave).settle := by
  simp only [Wave.arrive, if_neg hp]

/-- A record that closes leaves the fragments as they are. -/
theorem onChip_arrive_last {w : Wave} {sec : Bool} {g : Group} {r : RecRec} (hp : r.pending &&& ~~~g.mask = 0)
    (ho : OnChip w { w with recs := w.recs.del g.token }) : OnChip w (w.arrive sec g r) := by
  rw [arrive_last hp, setGroup_rest]
  exact ho

end

/-- Settles O49: each instruction by the lemma for how its group moves, divides or arrives. -/
theorem laneControlMovesGroups : Obligations.LaneControlMovesGroups := by
  intro s c h w on
  refine ⟨fun hi => ?_, exec_yield_ready h, fun hi => ?_, fun hi hgood => ?_, fun hi => ?_⟩
  · rcases hi with hi | hi
    · exact laneReady_exec h (by rw [hi]; exact exec_nop s c.w) (stepOver_run c s)
    · exact laneReady_exec h (by rw [hi]; exact exec_safe s c.w) (stepOver_run c s)
  · have hbra : exec c.i s = laneInstr c.i c.w (fun _ => pure ()) braM s := by rw [hi]; exact exec_bra s c.w
    intro taken fall target
    refine ⟨fun ht => laneReady_exec h hbra (braM_none_taken ht), fun ht hin h0 h48 => ⟨fun hf => ?_, ?_⟩⟩
    · exact laneReady_exec h hbra (braM_all_taken rfl ht hin h0 h48 hf)
    · intro hf hl v
      by_cases hm : popMask taken ≤ popMask fall
      · rw [show v = divided s c w.newRec (parcels c.g.pc c.w.rcv.toInt) (fall, c.g.pc + 12) (taken, target.toNat) from if_pos hm]
        exact fun ho => laneReady_exec h hbra (braM_some_taken rfl ht hin h0 h48 h hf hl (if_pos hm) ho)
      · rw [show v = divided s c w.newRec (parcels c.g.pc c.w.rcv.toInt) (taken, target.toNat) (fall, c.g.pc + 12) from if_neg hm]
        exact fun ho => laneReady_exec h hbra (braM_some_taken rfl ht hin h0 h48 h hf hl (if_neg hm) ho)
  · have hbrx : exec c.i s = laneInstr c.i c.w (fun _ => pure ()) brxM s := by rw [hi]; exact exec_brx s c.w
    refine ⟨fun x hx => laneReady_exec h hbrx (brxM_one hgood hx), ?_, ?_⟩
    · intro x y hx hl v
      rw [show v = w.diverge c.sec c.g (parcels c.g.pc c.w.rcv.toInt) s.clk [x, y] from (diverge_two h hl ..).symm]
      exact fun ho => laneReady_exec h hbrx (brxM_many hgood hx hl ho)
    · intro x y t hx hl v ho
      exact laneReady_exec h hbrx (brxM_many hgood hx hl ho)
  · have hreconv : exec c.i s = laneInstr c.i c.w (fun _ => pure ()) reconvM s := by rw [hi]; exact exec_reconv s c.w
    refine ⟨fun r htok hr ha => ⟨fun hp ho => ?_, ?_⟩, fun hp => laneReady_exec h hreconv (reconvM_passes hp)⟩
    · rw [← arrive_last hp]
      exact laneReady_exec h hreconv (reconvM_arrives htok hr ha (onChip_arrive_last hp ho))
    · intro hp v
      rw [show v = w.arrive c.sec c.g r from (arrive_earlier hp).symm]
      exact fun ho => laneReady_exec h hreconv (reconvM_arrives htok hr ha ho)

end Sys2Proof.Machine

/-! PROOFS. Launches, crews, their units and images (R31, R83 to R89, R119 to R125, R136, R138, R140, R230 to R247, R404 to R411,
R430 to R432). -/

namespace Sys2Proof.Machine

open Sys2Proof.Claim

/-- From work queues to crews. The JOIN field as a canonical address (log 18), the page table of the front end (log 22), the error
entry of a refused record (log 64), the crews that placement counts (log 65) and the lowest units that fit (log 66) are the model's
choices. -/
theorem launchEvents (s : State) : LaunchEvents s :=
  ⟨ev_take s, ev_badTail s, ev_expand s, ev_ageLimit s, ev_admit s⟩

/-- How units start. CODE, FRAME and JOIN as canonical addresses (log 18), the continuation that a free unit takes (log 66), the stack
of a bound context (log 67) and the registers of a lane continuation's wave (log 68) are the model's choices. -/
theorem startEvents (s : State) : StartEvents s :=
  ⟨ev_waveStart s, ev_strandStart s, ev_popStrand s, ev_popWave s, ev_atomiser s, ev_expiry s, ev_form s, ev_fragment s, ev_gto s,
    ev_block s⟩

/-- How crews end and move. The launch that ends when its JOIN faults (log 69) and the entry of a refused RESUME (log 73) are the
model's choices. -/
theorem crewEvents (s : State) : CrewEvents s :=
  ⟨ev_crewEnd s, ev_preempt s, ev_deadline s, ev_kill s, ev_save s, ev_resume s⟩

/-- What the management core does. The reasons of some refusals (log 83) and the free RESULT of a load in the management-only state
(log 84) are the model's choices. -/
theorem managementEvents (s : State) : ManagementEvents s :=
  ⟨ev_imageLoad s, ev_bringUp s⟩

/-- Settles O57 by its four groups of events; the lemma of each names the model's choices that it rests on. -/
theorem launchesCrewsAndUnits : Obligations.LaunchesCrewsAndUnits :=
  fun s => ⟨launchEvents s, startEvents s, crewEvents s, managementEvents s⟩

end Sys2Proof.Machine

/-! PROOFS. Lane instructions that compute: their completion, their frame and their results (R152, R153, R157, R158, R161, R166, R167,
R171 to R189, R200, R220 to R225). -/

namespace Sys2Proof.Machine

open Sys2Proof.Claim

/-! ## What a completed instruction leaves of the machine (R152, R153, R161) -/

section
variable (s : State) (c : LCtx) (on : Await)

theorem laneDone_rest (v : Wave) : laneDone (s.setWave c.k v) c on = { s with
    waves := (laneDone (s.setWave c.k v) c on).waves
    wengines := (laneDone (s.setWave c.k v) c on).wengines } := rfl

theorem laneDone_wave_ne (v : Wave) {j : Nat} (hj : j ≠ c.k) : (laneDone (s.setWave c.k v) c on).wave j = s.wave j := by
  simp only [laneDone, laneRetired, State.wave_setWave_ne _ _ hj, State.wave_setWengine]

theorem laneDone_wengine_ne (v : Wave) {j : Nat} (hj : j ≠ c.k / 16) :
    (laneDone (s.setWave c.k v) c on).wengine j = s.wengine j := by
  simp only [laneDone, laneRetired, State.wengine_setWave, State.wengine_setWengine_ne _ _ hj]

end

section
variable {s : State} {c : LCtx} (h : LaneReady s c)
include h

/-- An instruction of the tables has its effect on the wave and completes. -/
theorem exec_effect {eff : LCtx → Wave → Wave} (he : (c.i, eff) ∈ laneEffects c.w) :
    exec c.i s = .next (laneDone (s.setWave c.k (eff c (s.wave c.k))) c {}) :=
  (exec_table c.w s _ he).trans (laneWave_run s c eff h (effects_hart c c.w _ he _))

theorem waveKept_effect {eff : LCtx → Wave → Wave} (he : (c.i, eff) ∈ laneEffects c.w) :
    WaveKept c (s.wave c.k) ((laneDone (s.setWave c.k (eff c (s.wave c.k))) c {}).wave c.k) := by
  rw [wave_laneDone]
  exact keeps_of _ c {} _ _ (effects_kept c _ eff he) h.group

/-! ## What each lane's table makes of its operands (R152, R167) -/

section
variable (hw : laneWrites c.i c.w = destOf c.w)
include hw

/-- A function of the elements of a, b and c, applied at each element of every lane. -/
theorem perElem_elements (draws : Nat) (F : Nat → Nat → Nat → Nat → Nat → FRes) :
    ElementsAre c (s.wave c.k) ((laneDone (s.setWave c.k (writeResults c (ty64 c.w.ty) draws
      (fun l => perElem c.w.ty (F l) (opA c (s.wave c.k) l) (opB c (s.wave c.k) l) (opC c (s.wave c.k) l)) (s.wave c.k))) c {}).wave
        c.k) F :=
  elements_run s c draws F _ h hw (fun _ => rfl) fun _ => pack_flags ..

/-- A function of the elements of a and b alone. -/
theorem perElem_elements_two (f : Nat → Nat → FRes) :
    ElementsAre c (s.wave c.k) ((laneDone (s.setWave c.k (writeResults c (ty64 c.w.ty) 0
      (fun l => perElem c.w.ty (fun _ x y _ => f x y) (opA c (s.wave c.k) l) (opB c (s.wave c.k) l) 0) (s.wave c.k))) c {}).wave
        c.k) fun _ _ x y _ => f x y :=
  elements_run s c 0 (fun _ _ x y _ => f x y) _ h hw (fun _ => rfl) fun _ => pack_flags ..

end

theorem elem_written {f : Nat → Nat → Nat → Nat} (hi : (c.i, f) ∈ elemTable c.w) : ∃ t, exec c.i s = .next t ∧
    ElementsAre c (s.wave c.k) (t.wave c.k) fun _ _ x y z => { bits := f x y z } :=
  ⟨_, exec_effect h (mem_elem hi), perElem_elements h (elems_writes _ _ hi) 0 _⟩

theorem flag_written {f : Nat → Nat → FRes} (hi : (c.i, f) ∈ flagTable c.w) : ∃ t, exec c.i s = .next t ∧
    ElementsAre c (s.wave c.k) (t.wave c.k) fun _ _ x y _ => f x y :=
  ⟨_, exec_effect h (mem_flag hi), perElem_elements_two h (writes_flagTable _ _ hi) f⟩

theorem round_written {f : Rnd → FVal → FVal → FVal → FRes} (hi : (c.i, f) ∈ roundTable c.w) : ∃ t, exec c.i s = .next t ∧
    ElementsAre c (s.wave c.k) (t.wave c.k) (fun l e x y z => f ((s.wave c.k).rnd c.w.rm.toNat l e) (unpack (laneFmt c.w.ty) x)
      (unpack (laneFmt c.w.ty) y) (unpack (laneFmt c.w.ty) z)) ∧
    ∀ l, l < 64 → Mask.has c.act l = true → (t.wave c.k).acc l = { (s.wave c.k).acc l with
      ctr := ((s.wave c.k).acc l).ctr + BitVec.ofNat 64 (if c.w.rm.toNat = 5 then tyCount c.w.ty else 0) } := by
  have hw := writes_roundTable _ _ hi
  obtain ⟨hlow, hhigh⟩ := dest_mem c hw
  refine ⟨_, exec_effect h (mem_round hi), perElem_elements h hw _ _, fun l hl ha => ?_⟩
  exact (results_run s c _ _ _ h hlow hhigh l hl ha).2.2

theorem move_written {wide : Bool} {f : LCtx → Wave → Nat → Dword} (hi : (c.i, wide, f) ∈ moveTable c.w) :
    ∃ t, exec c.i s = .next t ∧ ∀ l, l < 64 → Mask.has c.act l = true →
      (t.wave c.k).operand wide c.w.vd.toNat l =
        (if wide then f c (s.wave c.k) l else f c (s.wave c.k) l &&& 0xFFFFFFFF#64) := by
  obtain ⟨hlow, hhigh⟩ := writes_move _ _ hi
  exact ⟨_, exec_effect h (mem_move hi), fun l hl ha => (results_run s c wide 0 _ h hlow hhigh l hl ha).1⟩

/-- The checks at decode keep the destination of a predicate instruction off p0, which reads as all ones (R152, R157). -/
theorem pred_written {f : LCtx → Wave → Mask} (hi : (c.i, f) ∈ predTable c.w) : ∃ t, exec c.i s = .next t ∧
    ∀ l, l < 64 → Mask.has c.act l = true →
      Mask.has ((t.wave c.k).pred c.w.vd.toNat) l = Mask.has (f c (s.wave c.k)) l := by
  have hvd : (ruleOf c.i).vd = .pw := writes_pred _ _ hi
  have hrange := pw_range c.i c.w (parts_pred _ _ hi) h.decodes hvd
  refine ⟨_, exec_effect h (mem_pred hi), fun l hl ha => ?_⟩
  obtain ⟨-, -, -, hp⟩ := done_reads s c {} (s.wave c.k) _ (kept_writePred c (s.wave c.k) (f c (s.wave c.k)) hvd)
  rw [← pred_on c (s.wave c.k) (f c (s.wave c.k)) l hl ha hrange]
  simp only [Wave.pred, hp]

end

/-- Settles O43: each table's entries run as the frame of lane instructions around their effect (`exec_table`). -/
theorem laneInstructionsComplete : Obligations.LaneInstructionsComplete :=
  fun _ _ _ h he => exec_effect h he

/-- Settles O44: the machine by what completion leaves of it, the wave by what its effect keeps (`effects_kept`). -/
theorem laneInstructionsKeepTheRest : Obligations.LaneInstructionsKeepTheRest :=
  fun s c _ h he => ⟨_, exec_effect h he, laneDone_rest s c {} _, fun _ hj => laneDone_wave_ne s c {} _ hj,
    fun _ hj => laneDone_wengine_ne s c {} _ hj, waveKept_effect h he⟩

/-- Settles O45, table by table: element-wise results by `elements_run`, values by `results_run`, predicates by `pred_on`. -/
theorem laneResultsAreWritten : Obligations.LaneResultsAreWritten :=
  fun _ _ h => ⟨fun _ => elem_written h, fun _ => flag_written h, fun _ => round_written h, fun _ _ => move_written h,
    fun _ => pred_written h⟩

end Sys2Proof.Machine

/-! PROOFS. Outstanding accesses of lanes that are performed (R159, R196, R198). -/

namespace Sys2Proof.Machine

open Sys2Proof.Claim

/-! ## The wave stays alive -/

theorem writeOperand_lanes (w : Wave) (wide : Bool) (n : Nat) (m : Mask) (f : Nat → Dword) :
    (w.writeOperand wide n m f).lanes = w.lanes := by
  cases wide with
  | false => simp only [Wave.writeOperand, Bool.false_eq_true, if_false, writeReg_lanes]
  | true => simp only [Wave.writeOperand, if_true, writeReg_lanes]

theorem performed_lanes (a : PendAccess) (w : Wave) : (performed a w).lanes = w.lanes := rfl

/-! ## The words of a load

`loadElems` answers a word by lane for each element; here each word depends on its lane alone. -/

theorem any_words (es : List Elem) (g : Nat → Dword) (l : Nat) :
    ((es.map fun el => (el.lane, g el.lane)).any fun v => v.1 == l) = (es.map Elem.lane).contains l := by
  simp only [List.any_map, List.contains_eq_any_beq, Function.comp_def, BEq.comm]

theorem find_words {es : List Elem} (g : Nat → Dword) {l : Nat} (hl : (es.map Elem.lane).contains l = true) :
    (((es.map fun el => (el.lane, g el.lane)).find? fun v => v.1 == l).map (·.2)).getD 0 = g l := by
  rw [← any_words es g, List.any_eq_true, ← List.find?_isSome] at hl
  obtain ⟨v, hv⟩ := Option.isSome_iff_exists.1 hl
  obtain ⟨el, -, rfl⟩ := List.mem_map.1 (List.mem_of_find?_eq_some hv)
  have hlane : el.lane = l := by simpa using List.find?_some hv
  rw [hv, ← hlane]
  rfl

theorem writeOperand_words (w : Wave) (wide : Bool) (n : Nat) (es : List Elem) (g : Nat → Dword) :
    (w.writeOperand wide n (maskOf fun l => (es.map fun el => (el.lane, g el.lane)).any fun v => v.1 == l) fun l =>
      (((es.map fun el => (el.lane, g el.lane)).find? fun v => v.1 == l).map (·.2)).getD 0) =
      w.writeOperand wide n (maskOf (es.map Elem.lane).contains) g := by
  simp only [any_words]
  refine writeOperand_congr _ _ _ _ _ _ fun l _ hm => find_words g ?_
  rw [maskOf_has, Bool.and_eq_true] at hm
  exact hm.2

/-! ## Loads and stores that no earlier access holds back -/

section
variable {s : State} {k : Nat} {a : PendAccess} {pa : Nat → Nat}
  (hf : (s.wave k).accesses.find? (fun b => b.n == a.n) = some a) (ha : (s.wave k).accesses.any a.after = false)
  (hl : (s.wave k).lanes ≠ 0#64) (hs : ∀ el ∈ a.elems, Settled s k a el (pa el.lane))
include hf ha hl hs

theorem load_performed (hop : a.op = .load) (hlag : a.lag = false)
    (hp : ∀ el ∈ a.elems, s.poisoned (pa el.lane) a.size = false) :
    ∃ t v, exec (.laneMemoryComplete k a.n) s = .next t ∧ t.mem = s.mem ∧
      t.wave k = performed a (({ s.wave k with hart := { (s.wave k).hart with resv := v } }).writeOperand (a.size == 8) a.vd
        (maskOf (a.elems.map Elem.lane).contains) fun l => BitVec.ofNat 64 (natOfBytes (s.peek (pa l) a.size))) := by
  have hwho := laneAcc_who s k
  obtain ⟨u, hu, hrun⟩ := loadElems_run (s.laneAcc k) hwho a.hint a.elems (fun el hel => ⟨hs el hel, hp el hel⟩) s (.refl s)
  have hclean : (a.elems.filter fun e => a.op == .load && segsPoisoned s (s.laneAcc k).cluster e.segs) = [] :=
    List.filter_eq_nil_iff.2 fun el hel => by simp [settled_clean (hs el hel), hp el hel]
  have hdone := completeAccess_load s u k a _ hop hlag hclean (gateElems_quiet _ s _ _ hwho hs) hrun
  obtain ⟨v, hv⟩ := hu.harts.wave k
  rw [writeOperand_words _ _ _ a.elems fun l => BitVec.ofNat 64 (natOfBytes (s.peek (pa l) a.size)), hv] at hdone
  refine ⟨_, v, memoryComplete s _ k a hf ha hdone ?_, hu.mem, State.wave_setWave ..⟩
  rw [State.wave_setWave, performed_lanes, writeOperand_lanes]
  exact hl

theorem store_performed (hop : a.op = .store) : ∃ t v, exec (.laneMemoryComplete k a.n) s = .next t ∧
    t.mem = a.elems.foldl (fun m el => Memory.write m (pa el.lane) (leBytes a.size el.data.toNat)) s.mem ∧
    t.wave k = performed a { s.wave k with hart := { (s.wave k).hart with resv := v } } := by
  have hwho := laneAcc_who s k
  obtain ⟨u, hu, hrun, hmem⟩ := storeElems_run (s.laneAcc k) hwho a.hint a.elems hs s ⟨.refl s, rfl, rfl⟩
  have hdone := completeAccess_store s u k a hop (gateElems_quiet _ s _ _ hwho hs) hrun
  obtain ⟨v, hv⟩ := hu.harts.wave k
  rw [hv] at hdone
  refine ⟨_, v, memoryComplete s _ k a hf ha hdone ?_, hmem, State.wave_setWave ..⟩
  rw [State.wave_setWave]
  exact hl

end

/-- Settles O47: what a performed access does to its bytes is `loadElems_run` or `storeElems_run`, and the wave stays alive. -/
theorem laneAccessesArePerformed : Obligations.LaneAccessesArePerformed :=
  fun _ _ _ _ hf ha hl hs => ⟨load_performed hf ha hl hs, store_performed hf ha hl hs⟩

end Sys2Proof.Machine

/-! PROOFS. Lane loads, stores and atomics that issue, and the matrix and function instructions of lanes (R191 to R198, R274 to R284,
R328 to R348). -/

namespace Sys2Proof.Machine

open Sys2Proof.Claim

/-! ## Loads and stores (R192 to R198, R274 to R277) -/

/-- LD and LDS share one meaning, and write what their VD field names. -/
theorem loads_run (w : LaneWord) (s : State) : ∀ e ∈ [(Instr.ld w, false), (.lds w, true)],
    exec e.1 s = laneInstr e.1 w (fun _ => pure ()) (laneLoad e.2) s ∧ laneWrites e.1 w = destOf w ∧
      vdRegs e.1 w = laneWrites e.1 w := by
  simp only [List.forall_mem_cons]
  exact ⟨⟨rfl, rfl, rfl⟩, ⟨rfl, rfl, rfl⟩, by simp⟩

/-- ST and STS share one meaning. -/
theorem stores_run (w : LaneWord) (s : State) : ∀ e ∈ [(Instr.st w, false), (.sts w, true)],
    exec e.1 s = laneInstr e.1 w (fun _ => pure ()) (laneStore e.2) s := by
  simp only [List.forall_mem_cons]
  exact ⟨rfl, rfl, by simp⟩

/-- Settles O46: the meanings of `loads_run` and `stores_run` issue by `laneLoad_run` and `laneStore_run`. That a load takes
VD at issue and gets its bytes by a later event is the model's choice (log 36). -/
theorem laneLoadsAndStoresIssue : Obligations.LaneLoadsAndStoresIssue := by
  intro s c e h
  refine ⟨fun whole hi hr => ?_, fun whole hi hr => ?_⟩
  · obtain ⟨hexec, hdest, hvd⟩ := loads_run c.w s _ hi
    exact laneReady_exec h hexec (laneLoad_run s c whole e h (dest_mem c hdest).1 hr hvd)
  · exact laneReady_exec h (stores_run c.w s _ hi) (laneStore_run s c whole e h hr)

/-! ## Atomics (R195, R274, R280 to R284) -/

theorem atoms_run (w : LaneWord) (s : State) : ∀ e ∈ laneAtoms w,
    exec e.1 s = laneInstr e.1 w (fun _ => pure ()) (atomM e.2) s := by
  simp only [laneAtoms, List.forall_mem_cons]
  exact ⟨rfl, rfl, rfl, rfl, rfl, rfl, rfl, rfl, by simp⟩

/-- Each atomic writes its result alone; the new value that CAS names stays (R281). -/
theorem writes_atoms (w : LaneWord) : ∀ e ∈ laneAtoms w, laneWrites e.1 w = destOf w := by
  simp only [laneAtoms, List.forall_mem_cons]
  exact ⟨rfl, rfl, rfl, rfl, rfl, rfl, rfl, rfl, by simp⟩

/-- A word of a type fits the registers that an operand of the type takes. -/
theorem word_fits {ty : BitVec 4} {v : Nat} (hv : v < 256 ^ wordSize ty) :
    (if ty64 ty then BitVec.ofNat 64 v else BitVec.ofNat 64 v &&& 0xFFFFFFFF#64) = BitVec.ofNat 64 v := by
  split
  · rfl
  · next hn =>
    have hlt : v < 2 ^ 32 := by simpa [wordSize, hn] using hv
    apply BitVec.eq_of_toNat_eq
    rw [BitVec.toNat_and, BitVec.toNat_ofNat, Nat.mod_eq_of_lt (by omega)]
    exact (Nat.and_two_pow_sub_one_eq_mod v 32).trans (Nat.mod_eq_of_lt hlt)

/-- The value that a lane receives, where the lanes of `vs` have one each and the others 0. -/
def valueOf (vs : List (Nat × Dword)) (l : Nat) : Dword := ((vs.find? fun v => v.1 == l).map (·.2)).getD 0

theorem valueOf_mem {vs : List (Nat × Dword)} (hn : (vs.map (·.1)).Nodup) {l : Nat} {x : Dword} (hx : (l, x) ∈ vs) :
    valueOf vs l = x := by
  rw [valueOf, find_key vs l x hn hx]
  rfl

theorem valueOf_absent {vs : List (Nat × Dword)} {l : Nat} (hl : l ∉ vs.map (·.1)) : valueOf vs l = 0 := by
  have hnone : vs.find? (fun v => v.1 == l) = none := by
    rw [List.find?_eq_none]
    intro v hv heq
    exact hl (List.mem_map.2 ⟨v, hv, by simpa using heq⟩)
  rw [valueOf, hnone]
  rfl

section
variable {s : State} {c : LCtx} {e : Nat → TlbEntry} {o : AtomOp} (h : LaneReady s c) (hi : (c.i, o) ∈ laneAtoms c.w)
include h hi

/-- An atomic completes with memory after its read-modify-writes, and with the value of each lane in VD. -/
theorem atom_completes (h3 : c.w.sem ≠ 3#4) (hr : LanesReach s c .store true e)
    (hm : (s.wave c.k).meetsPending ((inBounds s c).map fun l => segOf (e l) (wordAt s c l).va (wordSize c.w.ty)) = false) :
    ∃ t vs, exec c.i s = .next t ∧ t.mem = (atomsOf s c o (placeAt s c e) (inBounds s c) s.mem).1 ∧
      vs.map (·.1) = inBounds s c ∧
      (c.w.sem.toNat ≠ 4 → vs = (atomsOf s c o (placeAt s c e) (inBounds s c) s.mem).2.map fun x =>
        (x.1, if c.w.sem.toNat = 1 then 0#64 else BitVec.ofNat 64 x.2)) ∧
      ∀ l, l < 64 → Mask.has c.act l = true → (t.wave c.k).operand (ty64 c.w.ty) c.w.vd.toNat l =
        if ty64 c.w.ty then valueOf vs l else valueOf vs l &&& 0xFFFFFFFF#64 := by
  obtain ⟨u, hmem, ⟨v, hu⟩, hsem, vs, hkeys, hvs, hrun⟩ := atomM_run s c o e h h3 hr hm
  obtain ⟨hlow, hhigh⟩ := dest_mem c (writes_atoms _ _ hi)
  have hsig : Signals (u.setWave c.k ((u.wave c.k).writeOperand (ty64 c.w.ty) c.w.vd.toNat c.act (valueOf vs))) c :=
    signals_wave (fun ha => by rw [hsem]; exact h.signal ha) _ (by rw [writeOperand_hart])
  have hhandler : (u.wave c.k).lhandler = none ∨ 248 ≤ c.w.vd.toNat := by
    have := writes_high s c h _ hlow
    rwa [← (noted_hart s c true).2.1, show (noted s c true).lhandler = (u.wave c.k).lhandler by rw [hu]] at this
  refine ⟨_, vs, laneReady_exec h (atoms_run _ s _ hi) (hrun.trans (completed_ok c _ hsig)), hmem, hkeys, hvs, fun l hl ha => ?_⟩
  rw [operand_laneDone u c {} (u.wave c.k) _ _ l (kept_writeOperand c _ _ _ _ hlow hhigh) hlow hhigh]
  exact operand_on _ _ _ _ _ l hl ha hhandler

end

/-- Settles O48: what VD receives is `atom_completes`, lane by lane. That ATOM acts at issue (log 36), and that a speculative use may
receive a free value (log 15), are the model's choices. -/
theorem laneAtomicsReadModifyWrite : Obligations.LaneAtomicsReadModifyWrite := by
  intro s c e o h hi h3 hr hm
  obtain ⟨t, vs, hexec, hmem, hkeys, hvs, hvd⟩ := atom_completes h hi h3 hr hm
  refine ⟨t, hexec, hmem, fun l hl ha => ⟨fun v hv h4 => ?_, fun hstray => ?_⟩⟩
  · have hold : (l, if c.w.sem = 1#4 then 0#64 else BitVec.ofNat 64 v) ∈ vs := by
      rw [hvs fun hc => h4 (BitVec.eq_of_toNat_eq hc)]
      exact List.mem_map.2 ⟨_, hv, by simp [BitVec.toNat_eq]⟩
    rw [hvd l hl ha, valueOf_mem (hkeys ▸ inBounds_nodup s c) hold]
    by_cases h1 : c.w.sem = 1#4
    · simp [h1]
    · rw [if_neg h1]
      exact word_fits (atomsOf_lt s c o _ _ _ _ hv)
  · rw [hvd l hl ha, valueOf_absent (hkeys ▸ hstray)]
    simp

/-! ## Matrix engine and special functions (R191, R328, R329, R339 to R348) -/

/-- Settles O52, instruction by instruction. That MLD takes the lowest free entry of the queue is the model's choice (log 50). -/
theorem matrixAndFunctionInstructions : Obligations.MatrixAndFunctionInstructions := by
  intro s c h hs
  refine ⟨p_sfx s c h hs, p_wait s c h hs, p_krd s c h hs, p_rows s c h hs, fun r crew m hm => ?_⟩
  obtain ⟨hadv, hwait⟩ := p_ring s c h hs r crew m hm
  refine ⟨hadv, hwait, fun hgang hfront hrank => ⟨p_mld s c h hs r crew m hm hgang hfront hrank, fun hi => ?_⟩, fun v hi => ?_⟩
  · exact (p_mma s c h r crew m hm hi).1 hgang hfront hrank
  · exact (p_mma s c h r crew m hm hi).2 v

end Sys2Proof.Machine

/-! PROOFS. Lanes that leave their wave, meet at barriers and start others (R207, R208, R210, R211, R214, R216, R217). -/

namespace Sys2Proof.Machine

/-- Settles O50, instruction by instruction. That the translations of join objects and blocks are checked before anything is done (log 44),
and that FWAIT checks the blocks of lanes with ready futures too (log 43), are the model's choices. -/
theorem lanesLeaveMeetAndStart : Obligations.LanesLeaveMeetAndStart := by
  intro s c h
  refine ⟨p_exit s c h, fun hi ref crew code hmh href hcrew hstrands htarget => ?_, fun ref crew hfront href hcrew => ?_,
    fun hi rec t u hquiet => ?_, fun hi e rec t hquiet => ?_, fun hi m body hquiet => ?_⟩
  · exact p_mig s c h hi ref crew code hmh href hcrew hstrands htarget
  · exact p_bars s c h ref crew hfront href hcrew
  · exact p_spawn s c h hi rec t u hquiet
  · exact p_fwait s c h hi e rec t hquiet
  · exact p_send s c h hi m body hquiet

end Sys2Proof.Machine


/-! PROOFS. What coherence, translation, the host, the links, the memory and the governor do on their own (R261, R266, R269, R271, R272,
R304, R311, R312, R317, R412, R419, R421 to R426, R433, R434). -/

namespace Sys2Proof.Machine

/-- Settles O54, event by event. Choices of the model: how a persistent request is served (log 76), that a lost home record is
recalled as an input and its entry (log 77), that a host read holds no tokens (log 78), the numbers of links, the 16 replays and the
entries of KIND 4 (log 79), the ECC entries and the keys of registers (log 80), STEP, CAUSE and the CODE of a trip (log 81), and the
contents of an attestation (log 84). -/
theorem memoryHostAndPowerEvents : Obligations.MemoryHostAndPowerEvents := by
  intro s
  refine ⟨ev_invalidationReceive s, ev_invalidationAck s, ev_hotnessHalving s, ev_quantumFlush s, ev_pageWalk s, ev_tokens s,
    ev_tokenSnoop s, ev_tokenEviction s, ev_homeRecall s, ev_hostSnoop s, ev_hostMemAccess s, ev_backInvalidation s, ev_peer s,
    ev_flitReplay s, ev_linkRetrain s, ev_halhel s, ev_eccCorrected s, ev_eccUncorrected s, ev_eccRegister s, ev_governor s,
    ev_throttle s, ev_trip s, ev_attestation s⟩

end Sys2Proof.Machine

/-! PROOFS. Every step keeps memory in its canonical form (R250, R259, R260, log 3).

The proof follows the model. Of all its functions six write memory themselves, and each does so by a write, a clear or a change of
one key of the map, which keep it canonical (`Memory.wf_write`, `Memory.wf_clear`, `Memory.wf_set`). Every other function writes it
only by calling these. So each function has one lemma here, named after it, whose proof is the shape of its program with the lemmas
of the functions it calls in their places: `MemoryOk.f` for a function of the state, `Keeps.f` for a meaning in the monad, whichever
way it ends. They stand in the order of the model's files; a function that cannot be told from the record update it is has none. -/

namespace Sys2Proof

open Machine

set_option Elab.async false

/-- A result whose state has memory in its canonical form, however the meaning ended. -/
def Canonical {α : Type} (r : EStateM.Result Stop State α) : Prop :=
  match r with
  | .ok _ t => MemoryOk t
  | .error _ t => MemoryOk t

/-- A meaning keeps memory canonical: where it completes and where it stops. -/
def Keeps {α : Type} (m : M α) : Prop := ∀ s, MemoryOk s → Canonical (m s)

/-- An outcome that goes on does so with memory in its canonical form. -/
def StaysOk (o : Out) : Prop :=
  match o with
  | .next t => MemoryOk t
  | _ => True

/-! ## The building blocks of meanings -/

section

variable {α β : Type}

theorem Keeps.ok {m : M α} {s t : State} {a : α} (hm : Keeps m) (h : m s = .ok a t) (hs : MemoryOk s) : MemoryOk t := by
  have hc := hm s hs
  rw [h] at hc
  exact hc

theorem Keeps.error {m : M α} {s t : State} {e : Stop} (hm : Keeps m) (h : m s = .error e t) (hs : MemoryOk s) : MemoryOk t := by
  have hc := hm s hs
  rw [h] at hc
  exact hc

theorem Keeps.pure {a : α} : Keeps (pure a : M α) := fun _ hs => hs

theorem Keeps.throw {e : Stop} : Keeps (throw e : M α) := fun _ hs => hs

theorem Keeps.throwThen {e : Stop} {f : α → M β} : Keeps (MonadExcept.throw e >>= f) := fun _ hs => hs

theorem Keeps.failThen {e : Exc} {f : α → M β} : Keeps (fail e >>= f) := fun _ hs => hs

theorem Keeps.failLaneThen {code detail : Nat} {tval : Dword} {failed : Mask} {f : α → M β} :
    Keeps (failLane code detail tval failed >>= f) := fun _ hs => hs

theorem Keeps.parkForThen {p : Park} {f : α → M β} : Keeps (parkFor p >>= f) := fun _ hs => hs

theorem Keeps.bind {m : M α} {f : α → M β} (hm : Keeps m) (hf : ∀ a, Keeps (f a)) : Keeps (m >>= f) := by
  intro s hs
  rw [bind_run]
  cases h : m s with
  | ok a t => exact hf a t (hm.ok h hs)
  | error e t => exact hm.error h hs

theorem Keeps.map {f : α → β} {m : M α} (hm : Keeps m) : Keeps (f <$> m) := by
  intro s hs
  rw [map_run]
  cases h : m s with
  | ok a t => exact hm.ok h hs
  | error e t => exact hm.error h hs

/-- What follows a read of the state may use that its memory is canonical. -/
theorem Keeps.get {f : State → M β} (hf : ∀ s, MemoryOk s → Keeps (f s)) : Keeps (get >>= f) := fun s hs => hf s hs s hs

theorem Keeps.set {t : State} (ht : MemoryOk t) : Keeps (set t : M PUnit) := fun _ _ => ht

theorem Keeps.modify {f : State → State} (hf : ∀ s, MemoryOk s → MemoryOk (f s)) : Keeps (modify f : M PUnit) := hf

theorem Keeps.ite {c : Prop} [Decidable c] {m n : M α} (hm : Keeps m) (hn : Keeps n) : Keeps (if c then m else n) := by
  split
  · exact hm
  · exact hn

/-- A conditional step before the rest of a meaning. -/
theorem Keeps.when {c : Prop} [Decidable c] {m : M PUnit} {f : PUnit → M α} (hm : Keeps m) (hf : ∀ a, Keeps (f a)) :
    Keeps (if c then m >>= f else f ⟨⟩) := .ite (.bind hm hf) (hf _)

theorem MemoryOk.ite {c : Prop} [Decidable c] {s t : State} (hs : MemoryOk s) (ht : MemoryOk t) :
    MemoryOk (if c then s else t) := by
  split
  · exact hs
  · exact ht

theorem MemoryOk.foldl {f : State → α → State} {l : List α} {s : State} (hs : MemoryOk s)
    (hf : ∀ {t a}, MemoryOk t → MemoryOk (f t a)) : MemoryOk (l.foldl f s) := by
  induction l generalizing s with
  | nil => exact hs
  | cons a l ih => exact ih (hf hs)

theorem StaysOk.next {t : State} (ht : MemoryOk t) : StaysOk (.next t) := ht

theorem StaysOk.fault {e : Fault} : StaysOk (.fault e) := trivial

theorem StaysOk.ite {c : Prop} [Decidable c] {o p : Out} (ho : StaysOk o) (hp : StaysOk p) : StaysOk (if c then o else p) := by
  split
  · exact ho
  · exact hp

end

/-! ## Base -/

theorem MemoryOk.setCluster {s c v} (hs : MemoryOk s) : MemoryOk (State.setCluster s c v) := hs

theorem MemoryOk.setCore {s k v} (hs : MemoryOk s) : MemoryOk (State.setCore s k v) := hs

theorem MemoryOk.setWave {s k v} (hs : MemoryOk s) : MemoryOk (State.setWave s k v) := hs

theorem MemoryOk.setEngine {s k v} (hs : MemoryOk s) : MemoryOk (State.setEngine s k v) := hs

theorem MemoryOk.setHart {s h v} (hs : MemoryOk s) : MemoryOk (State.setHart s h v) := by
  simp only [State.setHart]
  split
  · exact hs
  · exact hs
  · exact hs

theorem MemoryOk.setCrew {s cluster slot c} (hs : MemoryOk s) : MemoryOk (State.setCrew s cluster slot c) := hs

theorem MemoryOk.setLaunch {s n l} (hs : MemoryOk s) : MemoryOk (State.setLaunch s n l) := hs

theorem MemoryOk.poke {s a l} (hs : MemoryOk s) : MemoryOk (State.poke s a l) := Memory.wf_write _ _ _ hs

theorem MemoryOk.zero {s lo hi} (hs : MemoryOk s) : MemoryOk (State.zero s lo hi) := Memory.wf_clear _ _ _ hs

theorem MemoryOk.halveHot {s die} (hs : MemoryOk s) : MemoryOk (State.halveHot s die) := .ite hs hs

theorem MemoryOk.transfer {s pa} (hs : MemoryOk s) : MemoryOk (State.transfer s pa) := .ite hs.halveHot hs

theorem MemoryOk.llcTouch {s line} (hs : MemoryOk s) : MemoryOk (State.llcTouch s line) := .ite hs (.transfer hs)

theorem MemoryOk.setTok {s g t} (hs : MemoryOk s) : MemoryOk (State.setTok s g t) := hs

theorem MemoryOk.loseOthers {s c g l} (hs : MemoryOk s) : MemoryOk (State.loseOthers s c g l) := by
  induction l generalizing s with
  | nil => exact hs
  | cons _ _ ih => exact ih (.ite hs hs)

theorem MemoryOk.tokenRead {s c line} (hs : MemoryOk s) : MemoryOk (State.tokenRead s c line) :=
  .ite hs hs.loseOthers.setTok.llcTouch

theorem MemoryOk.tokenWrite {s c line} (hs : MemoryOk s) : MemoryOk (State.tokenWrite s c line) :=
  .ite hs (.ite hs.loseOthers.setTok.llcTouch hs.loseOthers.setTok)

theorem MemoryOk.tokenHome {s line} (hs : MemoryOk s) : MemoryOk (State.tokenHome s line) := hs.loseOthers.setTok

theorem MemoryOk.logError {s code detail kind unit cluster addr queue record crew} (hs : MemoryOk s) :
    MemoryOk (State.logError s code detail kind unit cluster addr queue record crew) :=
  .ite (.ite hs.tokenHome.poke hs) (.ite (.ite hs.tokenHome.poke hs) (.ite hs.tokenHome.poke hs))

/-! ## Monad -/

theorem Keeps.fail {α : Type} {e} : Keeps (fail e : M α) := .throw

theorem Keeps.failLane {α : Type} {code detail tval failed} : Keeps (failLane code detail tval failed : M α) := .throw

theorem Keeps.parkFor {α : Type} {p} : Keeps (parkFor p : M α) := .throw

theorem Keeps.guardM {ok e} : Keeps (guardM ok e) := .ite .pure .fail

theorem Keeps.attempt {α : Type} {m : M α} (hm : Keeps m) : Keeps (attempt m) := by
  intro s hs
  unfold Machine.attempt
  split
  · exact hm.ok ‹_› hs
  · exact hm.error ‹_› hs
  · exact hm.error ‹_› hs

theorem Keeps.freeDwordM : Keeps freeDwordM := fun _ hs => hs

theorem Keeps.freeNatM {n} : Keeps (freeNatM n) := fun _ hs => hs

theorem Keeps.getHart {h} : Keeps (getHart h) := .get fun _ _ => .pure

theorem Keeps.setHart {h v} : Keeps (setHart h v) := .modify fun _ hs => hs.setHart

theorem Keeps.modHart {h f} : Keeps (modHart h f) := .modify fun _ hs => hs.setHart

/-! ## Translate -/

theorem MemoryOk.setTlb {s t l} (hs : MemoryOk s) : MemoryOk (State.setTlb s t l) := by
  simp only [State.setTlb]
  split
  · exact hs
  · exact hs
  · exact hs
  · exact hs

theorem MemoryOk.dropTlb {s cluster drop} (hs : MemoryOk s) : MemoryOk (State.dropTlb s cluster drop) := .ite hs hs

theorem MemoryOk.writeBackLine {s c line} (hs : MemoryOk s) : MemoryOk (State.writeBackLine s c line) := by
  unfold State.writeBackLine
  split
  · exact .ite hs (MemoryOk.llcTouch (Memory.wf_write _ _ _ hs))
  · exact hs

theorem MemoryOk.dropLine {s c line} (hs : MemoryOk s) : MemoryOk (State.dropLine s c line) := by
  simp only [State.dropLine]
  split
  · exact hs
  · exact hs

theorem MemoryOk.flushLines {s c ls} (hs : MemoryOk s) : MemoryOk (State.flushLines s c ls) := by
  induction ls generalizing s with
  | nil => exact hs
  | cons _ _ ih => exact ih hs.writeBackLine.dropLine

theorem MemoryOk.clearAlias {s c page pages} (hs : MemoryOk s) : MemoryOk (State.clearAlias s c page pages) :=
  hs.flushLines.dropTlb

theorem MemoryOk.clearAliases {s cs page pages} (hs : MemoryOk s) : MemoryOk (State.clearAliases s cs page pages) := by
  induction cs generalizing s with
  | nil => exact hs
  | cons _ _ ih => exact ih hs.clearAlias

theorem MemoryOk.registerMode {s c page pages untracked} (hs : MemoryOk s) :
    MemoryOk (State.registerMode s c page pages untracked).2 := by
  simp only [State.registerMode]
  split
  · exact .logError (MemoryOk.clearAliases hs)
  · exact hs

theorem Keeps.checkHit {acc k va e} : Keeps (checkHit acc k va e) := .ite .fail (.ite .fail .pure)

theorem Keeps.setAD {k l} : Keeps (setAD k l) := .when (.modify fun _ hs => hs.tokenHome.poke) fun _ => .pure

theorem MemoryOk.fillClusterTlb {s c va e} (hs : MemoryOk s) : MemoryOk (State.fillClusterTlb s c va e) := by
  simp only [State.fillClusterTlb]
  exact .setCluster (.ite hs (by split; exacts [.dropTlb hs, hs]))

theorem Keeps.walkFill {acc va k} : Keeps (walkFill acc va k) := by
  refine .get fun s hs => ?_
  split
  · exact .fail
  · refine .bind .setAD fun pte => .bind (.modify fun _ hs => hs) fun _ => ?_
    extract_lets untracked base kind fill
    have hf : ∀ p, Keeps (fill p) := fun _ => .bind (.modify fun _ hs => hs.fillClusterTlb) fun _ => .pure
    exact .ite (.get fun _ hs => .bind (.set hs.registerMode) fun _ => .bind .pure hf) (.bind .pure hf)

theorem Keeps.fillOwn {acc va e} : Keeps (fillOwn acc va e) := .modify fun _ hs => .ite hs.setTlb hs.setTlb

theorem Keeps.translate {acc va k} : Keeps (translate acc va k) := by
  simp only [Machine.translate]
  refine .get fun _ _ => ?_
  split
  · exact .checkHit
  · split
    · exact .bind .checkHit fun _ => .bind .fillOwn fun _ => .pure
    · exact .bind .walkFill fun _ => .bind .fillOwn fun _ => .pure

/-! ## Atom -/

theorem MemoryOk.perform {s q} (hs : MemoryOk s) : MemoryOk (State.perform s q) := by
  simp only [State.perform]
  split
  · exact hs.tokenHome.poke
  · exact hs

theorem MemoryOk.performAll {s due} (hs : MemoryOk s) : MemoryOk (State.performAll s due) :=
  .ite hs (.foldl hs fun ht => ht.perform)

theorem MemoryOk.performOwn {s u line} (hs : MemoryOk s) : MemoryOk (State.performOwn s u line) := hs.performAll

theorem MemoryOk.releaseUnit {s u scope} (hs : MemoryOk s) : MemoryOk (State.releaseUnit s u scope) := hs.performAll

theorem MemoryOk.pushQuantum {s q} (hs : MemoryOk s) : MemoryOk (State.pushQuantum s q) := by
  simp only [State.pushQuantum]
  split
  · exact .ite hs.performAll hs
  · exact hs

/-! ## Device -/

theorem MemoryOk.ringDoorbell {s v} (hs : MemoryOk s) : MemoryOk (State.ringDoorbell s v) := .ite hs.setHart hs

theorem MemoryOk.writeHirq {s v} (hs : MemoryOk s) : MemoryOk (State.writeHirq s v) := .ite hs hs

theorem MemoryOk.writePackage {s off v} (hs : MemoryOk s) : MemoryOk (State.writePackage s off v) := by
  simp only [State.writePackage]
  split
  · exact .ite hs hs
  · exact .ite hs hs
  · exact hs
  · exact hs
  · exact hs
  · exact hs.ringDoorbell
  · exact hs.writeHirq
  · exact .ite hs hs
  · exact .ite hs hs
  · exact hs

theorem MemoryOk.writeQueue {s q off v} (hs : MemoryOk s) : MemoryOk (State.writeQueue s q off v) := by
  simp only [State.writeQueue]
  split
  · exact .ite hs hs
  · exact hs
  · exact hs
  · exact hs
  · exact hs

theorem MemoryOk.writeSaveState {s area v} (hs : MemoryOk s) : MemoryOk (State.writeSaveState s area v) := hs.tokenHome.poke

theorem MemoryOk.writePreempt {s c v} (hs : MemoryOk s) : MemoryOk (State.writePreempt s c v) := by
  simp only [State.writePreempt]
  exact .ite hs (.ite hs (by split; exacts [.ite (.writeSaveState hs) hs, .writeSaveState hs]))

theorem MemoryOk.writeClusterReg {s c off v} (hs : MemoryOk s) : MemoryOk (State.writeClusterReg s c off v) :=
  .ite hs (.ite hs.writePreempt hs)

theorem MemoryOk.writeDevice {s pa v} (hs : MemoryOk s) : MemoryOk (State.writeDevice s pa v) := by
  simp only [State.writeDevice]
  exact .ite hs.writePackage (.ite hs.writeQueue (.ite hs.writeClusterReg hs))

/-! ## Access -/

theorem Keeps.locOf {acc k va t} : Keeps (locOf acc k va t) := .get fun _ _ => .ite .fail (.ite (.ite .fail .pure) .pure)

theorem Keeps.resolveLines {acc k va n fuel} : Keeps (resolveLines acc k va n fuel) := by
  induction fuel generalizing va n with
  | zero => exact .pure
  | succ _ ih => exact .ite .pure (.bind .translate fun _ => .bind .locOf fun _ => .bind ih fun _ => .pure)

theorem Keeps.resolve {acc va n k} : Keeps (resolve acc va n k) := by
  simp only [Machine.resolve]
  exact .ite .failThen (.ite (.get fun _ _ => by split; exacts [.pure, .fail]) .resolveLines)

theorem Keeps.hostGate {acc pa write} : Keeps (hostGate acc pa write) :=
  .bind (.modify fun _ hs => hs.performOwn) fun _ => .get fun _ _ => .ite (.when (.modify fun _ ht => ht) fun _ => .throw) .pure

theorem MemoryOk.fillLine {s c line} (hs : MemoryOk s) : MemoryOk (State.fillLine s c line) := by
  simp only [State.fillLine]
  split
  · exact hs
  · exact hs.llcTouch.setCluster

theorem Keeps.readMem {acc pa n va untracked fill} : Keeps (readMem acc pa n va untracked fill) := by
  simp only [Machine.readMem]
  exact .bind .hostGate fun _ => .get fun _ hs =>
    .ite
      (by
          split
          · exact .ite .failThen (.bind (.set (.ite hs.fillLine hs)) fun _ => .pure)
          · exact .ite .failThen (.bind (.set (.transfer (.ite hs.fillLine hs))) fun _ => .pure))
      (.ite .failThen (.bind (.set hs.tokenRead) fun _ => .pure))

theorem Keeps.writeMem {acc pa bs untracked fill} : Keeps (writeMem acc pa bs untracked fill) := by
  simp only [Machine.writeMem]
  exact .bind .hostGate fun _ => .modify fun _ hs =>
      (.ite
          (by split; exacts [.setCluster (.ite (.fillLine hs) hs), .transfer (.poke (.ite (.fillLine hs) hs))])
          (.poke (.tokenWrite hs)))

theorem MemoryOk.writeCtx {s k off b} (hs : MemoryOk s) : MemoryOk (State.writeCtx s k off b) := by
  simp only [State.writeCtx]
  split
  · exact hs.setHart
  · exact hs.setHart
  · exact hs

theorem Keeps.readSeg {acc va fill g} : Keeps (readSeg acc va fill g) := by
  simp only [Machine.readSeg]
  split
  · exact .readMem
  · exact .ite (.get fun _ _ => .pure) .pure
  · exact .get fun _ _ => .ite .failThen .pure
  · exact .get fun _ _ => .pure
  · exact .get fun _ _ => .pure

theorem Keeps.writeSeg {acc fill g bs} : Keeps (writeSeg acc fill g bs) := by
  simp only [Machine.writeSeg]
  split
  · exact .writeMem
  · exact .ite (.modify fun _ hs => hs.writeDevice) .pure
  · exact .modify fun _ hs => .poke hs
  · exact .modify fun _ hs => hs.writeCtx
  · exact .pure

theorem Keeps.readSegs {acc va fill gs} : Keeps (readSegs acc va fill gs) := by
  induction gs generalizing va with
  | nil => exact .pure
  | cons _ _ ih => exact .bind .readSeg fun _ => .bind ih fun _ => .pure

theorem Keeps.writeSegs {acc fill gs bs} : Keeps (writeSegs acc fill gs bs) := by
  induction gs generalizing bs with
  | nil => exact .pure
  | cons _ _ ih => exact .bind .writeSeg fun _ => ih

theorem Keeps.gateSegs {acc write gs} : Keeps (gateSegs acc write gs) := by
  induction gs with
  | nil => exact .pure
  | cons _ _ ih =>
    simp only [Machine.gateSegs]
    split
    · exact .bind .hostGate fun _ => ih
    · exact ih

theorem Keeps.vread {acc va n} : Keeps (vread acc va n) := .bind .resolve fun _ => .readSegs

theorem Keeps.vwrite {acc va bs} : Keeps (vwrite acc va bs) := .bind .resolve fun _ => .bind .gateSegs fun _ => .writeSegs

theorem Keeps.vread64 {acc va} : Keeps (vread64 acc va) := .bind .vread fun _ => .pure

theorem MemoryOk.rmwStore {s acc pa atHome new} (hs : MemoryOk s) : MemoryOk (State.rmwStore s acc pa atHome new) := by
  simp only [State.rmwStore]
  split
  · exact .poke (.ite (.llcTouch (.tokenHome hs)) (.tokenWrite hs))
  · exact .ite hs.llcTouch hs.tokenRead

theorem Keeps.vrmwAt {home acc va n f} : Keeps (vrmwAt home acc va n f) := by
  simp only [Machine.vrmwAt]
  refine .bind .resolve fun _ => ?_
  split
  · exact .fail
  · exact .bind .hostGate fun _ => .bind (.modify fun _ hs => .ite hs.writeBackLine.dropLine hs) fun _ => .get fun _ _ =>
      .ite .failThen (.bind (.modify fun _ ht => ht.rmwStore) fun _ => .pure)
  · exact .bind .readSegs fun _ => by split; exacts [.bind .writeSegs fun _ => .pure, .pure]

theorem Keeps.vrmw {acc va n f} : Keeps (vrmw acc va n f) := .vrmwAt

theorem MemoryOk.rangeLine {s o c line} (hs : MemoryOk s) : MemoryOk (State.rangeLine s o c line) := by
  simp only [State.rangeLine]
  split
  · exact hs.writeBackLine
  · exact hs.dropLine
  · exact hs.writeBackLine.dropLine

theorem Keeps.mapped {acc k va} : Keeps (mapped acc k va) := by
  simp only [Machine.mapped]
  refine .get fun _ _ => ?_
  split
  · exact .pure
  · split
    · exact .pure
    · exact .ite .fail .fail

theorem Keeps.rangeLines {acc o va n fuel} : Keeps (rangeLines acc o va n fuel) := by
  induction fuel generalizing va n with
  | zero => exact .pure
  | succ _ ih =>
    exact .ite .pure (.ite (.bind .mapped fun _ => .ite (.bind (.modify fun _ hs => hs.rangeLine) fun _ => ih) ih) ih)

/-! ## Gfx -/

theorem Keeps.readNode {acc va} : Keeps (readNode acc va) := .bind .vread fun _ => .pure

theorem Keeps.linkCheck {acc va kind rsz} : Keeps (linkCheck acc va kind rsz) := .bind .readNode fun _ => .guardM

theorem Keeps.useNode {acc va} : Keeps (useNode acc va) := by
  simp only [Machine.useNode]
  refine .bind .readNode fun _ => .bind .guardM fun _ => ?_
  split
  · exact .bind .linkCheck fun _ => .bind .linkCheck fun _ => .pure
  · exact .bind .linkCheck fun _ => .pure
  · exact .pure

theorem Keeps.nodeKey {acc va} : Keeps (nodeKey acc va) := by
  simp only [Machine.nodeKey]
  exact .bind .resolve fun _ => by split; exacts [.pure, .fail]

theorem Keeps.writeHeader {acc handle} : Keeps (writeHeader acc handle) :=
  .bind .freeDwordM fun _ => .bind .freeDwordM fun _ => .vwrite

theorem Keeps.takeMapBit {acc d word fuel} : Keeps (takeMapBit acc d word fuel) := by
  induction fuel generalizing word with
  | zero => exact .pure
  | succ _ ih =>
    simp only [Machine.takeMapBit]
    exact .ite .pure (.bind .vrmwAt fun _ => by split; exacts [.pure, ih])

theorem Keeps.reserveM {acc node d proto} : Keeps (reserveM acc node d proto) := by
  refine .bind .guardM fun _ => ?_
  extract_lets heldVa add slot
  have hslot : ∀ got, Keeps (slot got) := by
    refine fun _ => .ite .pure (.bind .takeMapBit fun _ => ?_)
    split
    · exact .pure
    · exact .bind .writeHeader fun _ => .bind (.modify fun _ hs => hs) fun _ => .pure
  refine .bind .vrmwAt fun _ => ?_
  exact .ite (.bind .pure hslot) (.bind .vrmwAt fun _ => .ite (.bind .vrmwAt fun _ => .bind .pure hslot) (.bind .pure hslot))

theorem Keeps.freeWords {acc d slot c} : Keeps (freeWords acc d slot c) :=
  .bind .vrmwAt fun _ => .bind .vrmwAt fun _ =>
  .ite (.bind .vrmwAt fun _ => .bind .vrmwAt fun _ => .pure) (.bind .vrmwAt fun _ => .pure)

theorem Keeps.gfxLog {cluster u crew e} : Keeps (gfxLog cluster u crew e) := .modify fun _ hs => hs.logError

theorem Keeps.freeOne {r} : Keeps (freeOne r) := by
  simp only [Machine.freeOne]
  refine .get fun _ _ => ?_
  split
  · exact .pure
  · refine .bind (.modify fun _ ht => ht) fun _ => .bind (.attempt (.bind .readNode fun _ => .bind .writeHeader fun _ =>
      .freeWords)) fun _ => ?_
    split
    · exact .pure
    · exact .gfxLog

theorem Keeps.freeMesh {m} : Keeps (freeMesh m) := by
  simp only [Machine.freeMesh]
  exact .get fun _ _ => by split; exacts [.ite .freeOne .pure, .pure]

theorem Keeps.freeRec {r} : Keeps (freeRec r) := by
  simp only [Machine.freeRec]
  exact .get fun _ _ => .bind .freeOne fun _ => by split; exacts [.freeMesh, .pure]

theorem Keeps.dischargeGfx {r} : Keeps (dischargeGfx r) := by
  simp only [Machine.dischargeGfx]
  split
  · exact .pure
  · exact .get fun _ _ => by split; exacts [.ite .freeRec .pure, .pure]

theorem MemoryOk.deliverGfx {s r} (hs : MemoryOk s) : MemoryOk (State.deliverGfx s r) := by
  simp only [State.deliverGfx]
  split
  · split
    · exact hs
    · exact hs
  · exact hs

/-! ## Crew -/

theorem MemoryOk.pushCont {s cluster q} (hs : MemoryOk s) : MemoryOk (State.pushCont s cluster q) := .ite hs hs

theorem Keeps.joinStep {acc va delta} : Keeps (joinStep acc va delta) :=
  .bind .vrmw fun _ => .ite (.bind .vread fun _ => .pure) .pure

theorem Keeps.enqueue {acc o c fuel} : Keeps (enqueue acc o c fuel) := by
  induction fuel generalizing o c with
  | zero => exact .pure
  | succ _ ih =>
    simp only [Machine.enqueue]
    exact .get fun _ _ => .get fun _ _ =>
      .ite (.modify fun _ hu => hu.pushCont)
        (.bind (.modify fun _ hu => hu.logError) fun _ =>
          .ite
            (.bind (.attempt .joinStep) fun _ => by split; exacts [.bind ih fun _ => .dischargeGfx, .dischargeGfx])
            .dischargeGfx)

theorem Keeps.joinAddM {acc o va delta} : Keeps (joinAddM acc o va delta) := by
  simp only [Machine.joinAddM]
  exact .bind .joinStep fun _ => by split; exacts [.bind .enqueue fun _ => .pure, .pure]

theorem Keeps.joinSub {acc o va} : Keeps (joinSub acc o va) := .ite (.bind .joinAddM fun _ => .pure) .pure

theorem MemoryOk.leaveQueues {s cluster dead deadWave} (hs : MemoryOk s) :
    MemoryOk (State.leaveQueues s cluster dead deadWave) :=
  .ite hs hs

theorem MemoryOk.zeroUnits {s engine units} (hs : MemoryOk s) : MemoryOk (State.zeroUnits s engine units) := by
  induction units generalizing s with
  | nil => exact hs
  | cons _ _ ih => exact ih hs.zero

theorem MemoryOk.zeroShares {s cluster slot cores} (hs : MemoryOk s) : MemoryOk (State.zeroShares s cluster slot cores) := by
  induction cores generalizing s with
  | nil => exact hs
  | cons _ _ ih => exact ih hs.zero

theorem MemoryOk.stopCrew {s r crew} (hs : MemoryOk s) : MemoryOk (State.stopCrew s r crew) := .setCluster hs.leaveQueues

theorem MemoryOk.modMatrix {s c f} (hs : MemoryOk s) : MemoryOk (State.modMatrix s c f) := hs

theorem MemoryOk.zeroBanks {s c ms} (hs : MemoryOk s) : MemoryOk (State.zeroBanks s c ms) := by
  induction ms generalizing s with
  | nil => exact hs
  | cons _ _ ih => exact ih hs.zero

theorem MemoryOk.leaveMatrix {s r} (hs : MemoryOk s) : MemoryOk (State.leaveMatrix s r) := .ite (.ite hs hs) (.ite hs hs)

theorem MemoryOk.releaseCrew {s r} (hs : MemoryOk s) : MemoryOk (State.releaseCrew s r) := hs.leaveMatrix.setCluster

theorem MemoryOk.scrubMatrix {s r} (hs : MemoryOk s) : MemoryOk (State.scrubMatrix s r) :=
  .ite hs.zeroBanks hs.zeroBanks.modMatrix

theorem MemoryOk.endRequest {s r} (hs : MemoryOk s) : MemoryOk (State.endRequest s r) := .ite hs hs

theorem MemoryOk.scrapCrew {s r crew} (hs : MemoryOk s) : MemoryOk (State.scrapCrew s r crew) :=
  hs.stopCrew.scrubMatrix.zeroUnits.zeroUnits.zeroUnits.zeroShares.releaseCrew.endRequest

theorem MemoryOk.logDeferred {s ref d} (hs : MemoryOk s) : MemoryOk (State.logDeferred s ref d) := hs.logError

theorem MemoryOk.lapseDeferred {s ref gone} (hs : MemoryOk s) : MemoryOk (State.lapseDeferred s ref gone) := by
  simp only [State.lapseDeferred]
  split
  · exact .ite (.setCrew (.foldl hs fun ht => ht.logDeferred)) hs
  · exact hs

theorem MemoryOk.lapseSender {s h} (hs : MemoryOk s) : MemoryOk (State.lapseSender s h) := by
  simp only [State.lapseSender]
  split
  · exact hs.lapseDeferred
  · exact hs

theorem MemoryOk.finishRecord {s q n} (hs : MemoryOk s) : MemoryOk (State.finishRecord s q n) := hs

theorem MemoryOk.dropHeld {s launch} (hs : MemoryOk s) : MemoryOk (State.dropHeld s launch) := .foldl hs fun ht => ht.logError

theorem MemoryOk.closeLaunch {s n} (hs : MemoryOk s) : MemoryOk (State.closeLaunch s n) := by
  simp only [State.closeLaunch]
  split
  · exact .ite hs (.finishRecord (.dropHeld (.ite hs hs)))
  · exact hs

theorem MemoryOk.endLaunch {s n code detail unit cluster} (hs : MemoryOk s) :
    MemoryOk (State.endLaunch s n code detail unit cluster) := by
  simp only [State.endLaunch]
  split
  · exact .ite hs (.logError (.closeLaunch (.foldl hs fun ht => ht.scrapCrew)))
  · exact hs

theorem MemoryOk.killCrew {s r code detail addr} (hs : MemoryOk s) : MemoryOk (State.killCrew s r code detail addr) := by
  simp only [State.killCrew]
  split
  · exact hs
  · split
    · exact hs.scrapCrew
    · exact .ite hs.scrapCrew.logError.setLaunch hs.scrapCrew.logError.setLaunch.endLaunch

theorem MemoryOk.fatalTrap {s h e} (hs : MemoryOk s) : MemoryOk (State.fatalTrap s h e) := hs.setHart.logError.endLaunch

/-! ## Ops -/

theorem MemoryOk.trapStrand {s k epc e} (hs : MemoryOk s) : MemoryOk (State.trapStrand s k epc e) := by
  have hq : ∀ c p q, MemoryOk ((s.setHart (.strand k) (s.hart (.strand k)).endHandler).leaveQueues c p q) :=
    fun _ _ _ => hs.setHart.leaveQueues
  unfold State.trapStrand
  refine .ite hs.fatalTrap (.setHart ?_)
  cases (s.hart (.strand k)).handler.isSome
  · exact hs
  · exact hq _ _ _

theorem MemoryOk.trapUniform {s k epc e} (hs : MemoryOk s) : MemoryOk (State.trapUniform s k epc e) :=
  .ite hs.fatalTrap (.ite hs.setHart hs)

theorem MemoryOk.abandon {s h} (hs : MemoryOk s) : MemoryOk (State.abandon s h) := hs.leaveQueues

theorem MemoryOk.trapLanes {s k secondary g code detail tval failed held} (hs : MemoryOk s) :
    MemoryOk (State.trapLanes s k secondary g code detail tval failed held) :=
  .ite hs.fatalTrap (.ite hs (.setWave (.abandon hs)))

theorem MemoryOk.endKick {s k code detail value} (hs : MemoryOk s) : MemoryOk (State.endKick s k code detail value) := by
  simp only [State.endKick]
  split
  · exact hs
  · exact .ite
        (.setHart (.setHart (.setEngine (.ite hs.lapseSender hs.lapseSender.logError))))
        (.setHart (.setEngine (.ite hs.lapseSender hs.lapseSender.logError)))

theorem MemoryOk.trapEngine {s k e} (hs : MemoryOk s) : MemoryOk (State.trapEngine s k e) := hs.endKick

theorem MemoryOk.takeExc {s h epc e} (hs : MemoryOk s) : MemoryOk (State.takeExc s h epc e) := by
  simp only [State.takeExc]
  split
  · exact hs.trapStrand
  · exact hs.trapUniform
  · exact hs.trapEngine

theorem MemoryOk.takeInterrupt {s h cause} (hs : MemoryOk s) : MemoryOk (State.takeInterrupt s h cause) := by
  simp only [State.takeInterrupt]
  split
  · exact hs.abandon.setHart
  · exact .ite hs hs.abandon.setWave
  · exact hs

theorem MemoryOk.returnS {s h} (hs : MemoryOk s) : MemoryOk (State.returnS s h) := by
  simp only [State.returnS]
  split
  · exact .ite hs hs.setHart
  · exact hs.setHart

theorem MemoryOk.scalarEnd {h s r} (hr : Canonical r) : MemoryOk (scalarEnd h s r) := by
  unfold Machine.scalarEnd
  split
  · exact MemoryOk.setHart hr
  · exact MemoryOk.takeExc (MemoryOk.setHart hr)
  · exact MemoryOk.setHart hr
  · exact MemoryOk.setHart hr
  · exact MemoryOk.setHart hr

theorem MemoryOk.scalar {violation m s} (hs : MemoryOk s) (hm : ∀ h, Keeps (m h)) : StaysOk (scalar violation m s) := by
  simp only [Machine.scalar]
  split
  · exact .fault
  · split
    · exact hs.takeExc
    · exact .scalarEnd (hm _ _ hs.setHart)

theorem StaysOk.event {f : State → State} {s} (h : MemoryOk (f s)) : StaysOk (Machine.event f s) := h

/-! ## Fetch -/

theorem Keeps.fetchBytes {acc va n} : Keeps (fetchBytes acc va n) := by
  simp only [Machine.fetchBytes]
  exact .bind .resolve fun _ => .bind (.attempt .readSegs) fun _ => by split; exacts [.pure, .fail]

theorem Keeps.fetchScalar {h} : Keeps (fetchScalar h) := by
  simp only [Machine.fetchScalar]
  exact .get fun _ _ => by split; exacts [.pure, .ite .failThen (.bind .fetchBytes fun _ => .pure)]

theorem Keeps.fetchLane {k g} : Keeps (fetchLane k g) :=
  .get fun _ _ => .ite (.bind .resolve fun _ => .failThen) (.bind .fetchBytes fun _ => .pure)

theorem MemoryOk.tick {s n} (hs : MemoryOk s) : MemoryOk (State.tick s n) := hs.performAll

/-! ## Rv -/

theorem Keeps.illegalM {α : Type} {w} : Keeps (illegalM w : M α) := .fail

theorem Keeps.instrPc {h} : Keeps (instrPc h) := .bind .getHart fun _ => .ite .freeDwordM .pure

theorem Keeps.jumpBy {h off} : Keeps (jumpBy h off) := by
  simp only [Machine.jumpBy]
  exact .bind .getHart fun _ => by split; exacts [.ite .fail .setHart, .ite .fail .setHart]

theorem Keeps.jumpTo {h t} : Keeps (jumpTo h t) := .bind .getHart fun _ => .ite .fail .setHart

theorem Keeps.setReg {h rd v} : Keeps (setReg h rd v) := .modHart

theorem Keeps.fpOn {h w} : Keeps (fpOn h w) := .bind .getHart fun _ => .ite .illegalM .pure

theorem Keeps.fpRound {h rm w} : Keeps (fpRound h rm w) := .bind .fpOn fun _ => .bind .getHart fun _ => .ite .illegalM .pure

theorem Keeps.fput {h dbl rd r} : Keeps (fput h dbl rd r) := .modHart

theorem Keeps.xput {h rd v flags} : Keeps (xput h rd v flags) := .modHart

theorem Keeps.rvOp {csr ill h op w} (hcsr : ∀ i j k m n p, Keeps (csr i j k m n p)) (hill : ∀ w, Keeps (ill w)) :
    Keeps (rvOp csr ill h op w) := by
  simp only [Machine.rvOp]
  refine .bind .getHart fun _ => ?_
  split
  · exact .setReg
  · exact .bind .instrPc fun _ => .setReg
  · exact .bind .instrPc fun _ => .bind .jumpBy fun _ => .setReg
  · exact .bind .instrPc fun _ => .bind .jumpTo fun _ => .setReg
  · exact .ite .jumpBy .pure
  · exact .setReg
  · exact .setReg
  · exact .setReg
  · exact .setReg
  · exact .setReg
  · exact .setReg
  · exact .setReg
  · exact hcsr _ _ _ _ _ _
  · exact .bind .fpRound fun _ => .fput
  · exact .bind .fpRound fun _ => .fput
  · exact .bind .fpRound fun _ => .fput
  · exact .bind .fpOn fun _ => .fput
  · exact .bind .fpOn fun _ => .fput
  · exact .bind .fpOn fun _ => .xput
  · exact .bind .fpOn fun _ => .setReg
  · exact .bind .fpRound fun _ => .xput
  · exact .bind .fpRound fun _ => .fput
  · exact .bind .fpRound fun _ => .fput
  · exact .bind .fpOn fun _ => .setReg
  · exact .bind .fpOn fun _ => .modHart
  · exact hill _

theorem Keeps.stdAcc {h} : Keeps (stdAcc h) := .get fun _ _ => .pure

theorem Keeps.loadStd {h va n} : Keeps (loadStd h va n) := .ite .failThen (.bind .stdAcc fun _ => .bind .vread fun _ => .pure)

theorem Keeps.storeStd {h va n v} : Keeps (storeStd h va n v) := .ite .failThen (.bind .stdAcc fun _ => .vwrite)

theorem Keeps.loadStore {h o w} : Keeps (loadStore h o w) := by
  simp only [Machine.loadStore]
  refine .bind .getHart fun _ => ?_
  split
  · exact .bind .loadStd fun _ => .setReg
  · exact .storeStd
  · exact .bind .fpOn fun _ => .bind .loadStd fun _ => .modHart
  · exact .bind .fpOn fun _ => .storeStd

theorem Keeps.atomicLoc {acc va n k} : Keeps (atomicLoc acc va n k) := by
  simp only [Machine.atomicLoc]
  refine .ite .failThen (.bind .resolve fun _ => ?_)
  split
  · split
    · exact .fail
    · exact .pure
  · exact .pure
  · exact .pure

theorem Keeps.loadReserved {h d rd rs1} : Keeps (loadReserved h d rd rs1) :=
  .bind .getHart fun _ => .bind .stdAcc fun _ => .bind .atomicLoc fun _ => .bind .vread fun _ => .get fun _ _ => .modHart

theorem Keeps.storeConditional {h d rd rs1 rs2} : Keeps (storeConditional h d rd rs1 rs2) :=
  .bind .getHart fun _ => .bind .stdAcc fun _ => .bind .atomicLoc fun _ => .bind .getHart fun _ => .get fun _ _ =>
  .when .vwrite fun _ => .modHart

theorem Keeps.amoStd {h o d rd rs1 rs2} : Keeps (amoStd h o d rd rs1 rs2) :=
  .bind .getHart fun _ => .bind .stdAcc fun _ => .ite .failThen (.bind .vrmw fun _ => .setReg)

/-! ## Units -/

theorem MemoryOk.runM {m s} (hs : MemoryOk s) (hm : Keeps m) : MemoryOk (runM m s) := by
  simp only [Machine.runM]
  split
  · exact hm.ok ‹_› hs
  · exact hm.error ‹_› hs

theorem MemoryOk.setSem {s c i v} (hs : MemoryOk s) : MemoryOk (State.setSem s c i v) := hs

theorem MemoryOk.grant {s w old} (hs : MemoryOk s) : MemoryOk (State.grant s w old) := by
  simp only [State.grant]
  split
  · exact hs.setHart
  · exact hs

theorem MemoryOk.grantSem {s c i fuel} (hs : MemoryOk s) : MemoryOk (State.grantSem s c i fuel) := by
  induction fuel generalizing s with
  | zero => exact hs
  | succ _ ih =>
    simp only [State.grantSem]
    split
    · exact hs
    · exact .ite (ih (.grant hs)) hs

theorem MemoryOk.signalSem {s t c i a} (hs : MemoryOk s) (h : s.signalSem c i a = some t) : MemoryOk t := by
  simp only [State.signalSem] at h
  split at h
  · cases h
  · cases h
    exact .grantSem hs

theorem Keeps.crewM {h} : Keeps (crewM h) := by
  simp only [Machine.crewM]
  refine .get fun _ _ => ?_
  split
  · split
    · exact .ite .pure .fail
    · exact .fail
  · exact .fail

theorem Keeps.takeDeferred {ref n mine} : Keeps (takeDeferred ref n mine) := by
  simp only [Machine.takeDeferred]
  refine .get fun _ _ => ?_
  split
  · split
    · exact .ite (.bind (.modify fun _ ht => ht) fun _ => .fail) .pure
    · exact .pure
  · exact .pure

theorem Keeps.futEntry {handle} : Keeps (futEntry handle) := .get fun _ _ => .ite .fail .pure

theorem Keeps.wakeFut {acc w v poisoned} : Keeps (wakeFut acc w v poisoned) := by
  simp only [Machine.wakeFut]
  split
  · exact .modHart
  · exact .bind (.modify fun _ hs => hs.tokenHome.poke) fun _ => .enqueue

theorem Keeps.wakeAll {acc v poisoned ws} : Keeps (wakeAll acc v poisoned ws) := by
  induction ws with
  | nil => exact .pure
  | cons _ _ ih => exact .bind .wakeFut fun _ => ih

theorem MemoryOk.setSendq {s q m} (hs : MemoryOk s) : MemoryOk (State.setSendq s q m) := .ite hs (.ite hs hs)

theorem MemoryOk.pushSend {s q e} (hs : MemoryOk s) : MemoryOk (State.pushSend s q e) := hs.setSendq

theorem Keeps.askBlocks {ref w} : Keeps (askBlocks ref w) := by
  simp only [Machine.askBlocks]
  refine .get fun _ _ => ?_
  split
  · exact .fail
  · exact .ite (.bind (.modify fun _ ht => ht) fun _ => .pure) (.when (.modify fun _ ht => ht) fun _ => .pure)

theorem MemoryOk.useBlocks {s ref bs} (hs : MemoryOk s) : MemoryOk (State.useBlocks s ref bs) := by
  simp only [State.useBlocks]
  split
  · exact hs
  · exact hs

theorem MemoryOk.freeBlock {s ref b} (hs : MemoryOk s) : MemoryOk (State.freeBlock s ref b) := by
  simp only [State.freeBlock]
  split
  · exact hs
  · exact hs

theorem Keeps.releaseM {h scope} : Keeps (releaseM h scope) := .modify fun _ hs => hs.releaseUnit

theorem MemoryOk.barArrive {s k ref c b} (hs : MemoryOk s) : MemoryOk (State.barArrive s k ref c b) := hs

theorem MemoryOk.barCover {s k bs} (hs : MemoryOk s) : MemoryOk (State.barCover s k bs) := by
  induction bs generalizing s with
  | nil => exact hs
  | cons _ _ ih =>
    simp only [State.barCover]
    exact ih
        (.ite
            (by
                split
                · split
                  · exact hs
                  · exact hs
                · exact hs) hs)

theorem MemoryOk.barLeave {s k bs} (hs : MemoryOk s) : MemoryOk (State.barLeave s k bs) := by
  induction bs generalizing s with
  | nil => exact hs
  | cons _ _ ih =>
    simp only [State.barLeave]
    refine ih ?_
    split
    · split
      · exact hs
      · exact hs
    · exact hs

theorem MemoryOk.freeStack {s h} (hs : MemoryOk s) : MemoryOk (State.freeStack s h) := by
  simp only [State.freeStack]
  split
  · split
    · exact hs
    · exact hs
  · exact hs

theorem MemoryOk.freeWave {s k} (hs : MemoryOk s) : MemoryOk (State.freeWave s k) := by
  simp only [State.freeWave]
  exact .setWave (by split; exacts [hs.lapseDeferred, hs])

theorem Keeps.endWave {k} : Keeps (endWave k) :=
  .get fun _ _ =>
  .ite
    (.ite
        (.bind (.attempt .joinSub) fun _ => .bind .dischargeGfx fun _ =>
          .ite
            (.bind (.modify fun _ ht => ht.barLeave) fun _ => .modify fun _ ht => ht.freeWave) (.modify fun _ ht => ht.freeWave))
        (.ite
            (.bind (.modify fun _ ht => ht.barLeave) fun _ => .modify fun _ ht => ht.freeWave) (.modify fun _ ht => ht.freeWave)))
    .pure

/-! ## Accum -/

theorem Keeps.readAcc {cluster key} : Keeps (readAcc cluster key) := by
  simp only [Machine.readAcc]
  exact .get fun _ _ => by split; exacts [.bind .freeNatM fun _ => .pure, .pure]

theorem Keeps.writeAcc {cluster key v} : Keeps (writeAcc cluster key v) := by
  simp only [Machine.writeAcc]
  refine .get fun _ _ => ?_
  split
  · exact .bind .freeNatM fun _ =>
      .ite
        (.bind (.modify fun _ ht => ht) fun _ => .modify fun _ ht => .poke ht)
        (.ite (.bind (.modify fun _ ht => ht) fun _ => .modify fun _ ht => .poke ht) (.modify fun _ ht => .poke ht))
  · exact .modify fun _ ht => .poke ht

theorem Keeps.orStall {m} (hm : Keeps m) : Keeps (orStall m) := by
  intro s hs
  unfold Machine.orStall
  split
  · exact hs
  · exact hm s hs

/-! ## Custom -/

theorem Keeps.kindM {ok i} : Keeps (kindM ok i) := .guardM

theorem Keeps.levelS {h i} : Keeps (levelS h i) := .bind .getHart fun _ => .guardM

theorem Keeps.aligned {va n} : Keeps (aligned va n) := .guardM

theorem Keeps.ownAcc {h} : Keeps (ownAcc h) := .get fun _ _ => .pure

theorem Keeps.semWaitM {h rd n a} : Keeps (semWaitM h rd n a) := by
  simp only [Machine.semWaitM]
  refine .bind .getHart fun _ => ?_
  split
  · exact .setReg
  · exact .bind .crewM fun _ => .bind .guardM fun _ => .bind .takeDeferred fun _ => .get fun _ _ =>
      .ite .setReg
        (.ite .parkFor
            (.ite (.bind (.modify fun _ ht => ht) fun _ => .setReg) (.bind (.modify fun _ ht => ht) fun _ => .parkFor)))

theorem Keeps.semSigM {h rd n a} : Keeps (semSigM h rd n a) := by
  simp only [Machine.semSigM]
  refine .bind .crewM fun _ => .bind .guardM fun _ => .get fun _ _ => .bind .guardM fun _ => .bind .releaseM fun _ =>
    .get fun _ ht => ?_
  split
  · rename_i h
    exact .bind (.set (ht.signalSem h)) fun _ => .setReg
  · exact .setReg

theorem Keeps.semTryM {h rd n a} : Keeps (semTryM h rd n a) :=
  .bind .crewM fun _ => .bind .guardM fun _ => .bind .takeDeferred fun _ => .get fun _ _ =>
  .ite (.bind (.modify fun _ ht => ht) fun _ => .setReg) .setReg

theorem MemoryOk.execFutNew {rd s} (hs : MemoryOk s) : StaysOk (execFutNew rd s) := by
  simp only [Machine.execFutNew]
  refine hs.scalar fun _ => .bind .kindM fun _ => .bind .freeNatM fun _ => .get fun _ _ => ?_
  split
  · exact .bind (.modify fun _ hu => hu) fun _ => .setReg
  · exact .setReg

theorem Keeps.resolveM {h handle v poisoned} : Keeps (resolveM h handle v poisoned) :=
  .bind .futEntry fun _ => .bind .guardM fun _ => .bind .releaseM fun _ => .bind (.modify fun _ hs => hs) fun _ =>
  .bind .ownAcc fun _ => .wakeAll

theorem Keeps.futJoinM {h rd handle} : Keeps (futJoinM h rd handle) :=
  .bind .futEntry fun _ => .ite .setReg (.ite .fail (.when (.modify fun _ hs => hs) fun _ => .parkFor))

theorem Keeps.futWaitM {h rd handle g} : Keeps (futWaitM h rd handle g) := by
  simp only [Machine.futWaitM]
  split
  · exact .futJoinM
  · exact .setReg
  · exact .fail
  · exact .futJoinM

theorem MemoryOk.execFutFree {rs1 s} (hs : MemoryOk s) : StaysOk (execFutFree rs1 s) :=
  hs.scalar fun _ => .bind .kindM fun _ => .bind .getHart fun _ => .bind .futEntry fun _ => .bind .guardM fun _ =>
  .modify fun _ ht => ht

theorem Keeps.enqueueAll {acc o c is} : Keeps (enqueueAll acc o c is) := by
  induction is with
  | nil => exact .pure
  | cons _ _ ih => exact .bind .enqueue fun _ => ih

theorem Keeps.spawnM {acc o c n} : Keeps (spawnM acc o c n) :=
  .ite
    (.bind .vrmw fun _ => .bind (.modify fun _ hs => hs.releaseUnit) fun _ => .enqueueAll)
    (.bind (.modify fun _ hs => hs.releaseUnit) fun _ => .enqueueAll)

theorem Keeps.contSpawnM {h va n} : Keeps (contSpawnM h va n) := by
  simp only [Machine.contSpawnM]
  refine .bind .aligned fun _ => .bind .guardM fun _ => .bind .ownAcc fun _ => .bind .vread fun _ => .get fun _ _ => ?_
  split
  · exact .fail
  · exact .ite .pure (.ite .parkFor .spawnM)

theorem Keeps.joinAddHartM {h rd va delta} : Keeps (joinAddHartM h rd va delta) :=
  .bind .aligned fun _ => .bind .ownAcc fun _ => .bind .guardM fun _ => .bind .releaseM fun _ => .get fun _ _ =>
  .bind .joinAddM fun _ => .setReg

theorem Keeps.contExitM {h} : Keeps (contExitM h) := by
  simp only [Machine.contExitM]
  refine .get fun _ _ => .ite .parkForThen ?_
  split
  · exact .bind .getHart fun _ => .bind .releaseM fun _ =>
      .ite
        (.bind .ownAcc fun _ => .get fun _ _ => .bind .joinSub fun _ => .bind .dischargeGfx fun _ =>
          .bind (.modify fun _ hu => hu.lapseSender.freeStack) fun _ => .modHart)
        (.bind (.modify fun _ ht => ht.lapseSender.freeStack) fun _ => .modHart)
  · exact .bind (.modify fun _ ht => ht) fun _ => .endWave
  · exact .get fun _ _ => .ite .parkForThen (.bind .releaseM fun _ => .modify fun _ hu => hu.endKick)

theorem Keeps.sendM {h dest body reply handler} : Keeps (sendM h dest body reply handler) := by
  simp only [Machine.sendM]
  refine .get fun _ _ => ?_
  split
  · exact .fail
  · exact .bind .aligned fun _ => .bind .ownAcc fun _ => .bind .vread fun _ => .get fun _ _ =>
      .ite
        (.ite (.ite .parkForThen .failThen) (.bind .releaseM fun _ => .modify fun _ hu => hu.pushSend))
        (.bind .guardM fun _ => .bind .releaseM fun _ => .modify fun _ hu => hu.pushSend)

theorem Keeps.msgRecvM {h rd va} : Keeps (msgRecvM h rd va) := by
  simp only [Machine.msgRecvM]
  refine .bind .aligned fun _ => .bind .getHart fun _ => ?_
  split
  · exact .parkFor
  · exact .bind .ownAcc fun _ => .bind .vwrite fun _ => .modHart

theorem Keeps.migWM {h} : Keeps (migWM h) := by
  simp only [Machine.migWM]
  refine .get fun _ _ => ?_
  split
  · exact .fail
  · refine .bind .guardM fun _ => ?_
    split
    · exact .fail
    · refine .bind .guardM fun _ => .ite .parkForThen (.bind .askBlocks fun _ => ?_)
      split
      · exact .parkFor
      · exact .bind .ownAcc fun _ => .bind .resolve fun _ => .bind .gateSegs fun _ => .bind .releaseM fun _ =>
          .bind .writeSegs fun _ => .bind (.modify fun _ ht => ht.useBlocks) fun _ =>
          .bind (.modify fun _ ht => ht.pushCont) fun _ =>
          .bind (.modify fun _ ht => ht.lapseSender.freeStack) fun _ => .modHart

theorem Keeps.engKickM {h word arg scope} : Keeps (engKickM h word arg scope) :=
  .bind .guardM fun _ => .bind .guardM fun _ => .get fun _ _ =>
  .ite (.when (.modify fun _ ht => ht) fun _ => .parkForThen)
    (.bind .releaseM fun _ => .bind (.modify fun _ ht => ht) fun _ => .modHart)

theorem Keeps.engRdvM {h rd e k known} : Keeps (engRdvM h rd e k known) :=
  .bind .guardM fun _ => .ite .parkFor (.when .modHart fun _ => .setReg)

theorem Keeps.regionPages {acc va n} : Keeps (regionPages acc va n) := by
  induction n generalizing va with
  | zero => exact .pure
  | succ _ ih => exact .bind .translate fun _ => .bind ih fun _ => .pure

theorem MemoryOk.gatherLines {s ls} (hs : MemoryOk s) : MemoryOk (State.gatherLines s ls) := by
  induction ls generalizing s with
  | nil => exact hs
  | cons _ _ ih => exact ih hs.tokenHome

theorem Keeps.cohDeclM {h rd n} : Keeps (cohDeclM h rd n) := by
  refine .get fun _ _ => ?_
  extract_lets
  split
  · exact .fail
  · extract_lets base span
    clear_value base span
    refine .bind .guardM fun _ => .bind .ownAcc fun _ => .bind .guardM fun _ => .bind .regionPages fun _ => ?_
    extract_lets
    refine .get fun _ _ => .ite .setReg ?_
    split
    · exact .setReg
    · refine .bind .releaseM fun _ => ?_
      refine .bind ?_ ?_
      · exact .modify fun _ hs => hs.gatherLines
      · exact fun _ => .setReg

theorem Keeps.cohRelM {h n} : Keeps (cohRelM h n) := by
  simp only [Machine.cohRelM]
  exact .get fun _ _ => by split; exacts [.ite (.bind .releaseM fun _ => .modify fun _ ht => ht.gatherLines) .fail, .fail]

theorem Keeps.rangeM {h o va len} : Keeps (rangeM h o va len) :=
  .bind .ownAcc fun _ => .bind .guardM fun _ => .bind .guardM fun _ => .rangeLines

theorem Keeps.hotRegion {h pa} : Keeps (hotRegion h pa) := .bind .ownAcc fun _ => .bind .guardM fun _ => .pure

theorem MemoryOk.execHotRead {rd rs1 s} (hs : MemoryOk s) : StaysOk (execHotRead rd rs1 s) :=
  hs.scalar fun _ => .bind .kindM fun _ => .bind .levelS fun _ => .bind .getHart fun _ => .bind .hotRegion fun _ =>
  .bind (.modify fun _ ht => ht.halveHot) fun _ => .get fun _ _ => .setReg

theorem MemoryOk.execHotClr {rs1 s} (hs : MemoryOk s) : StaysOk (execHotClr rs1 s) :=
  hs.scalar fun _ => .bind .kindM fun _ => .bind .levelS fun _ => .bind .getHart fun _ => .bind .hotRegion fun _ =>
  .modify fun _ ht => ht.halveHot

theorem MemoryOk.execScalarYield {s} (hs : MemoryOk s) : StaysOk (execScalarYield s) := by
  simp only [Machine.execScalarYield]
  refine hs.scalar fun _ => .bind .kindM fun _ => ?_
  split
  · exact .modify fun _ ht => ht
  · exact .modify fun _ ht => .ite ht ht
  · exact .pure

theorem Keeps.scalarStqM {h va pay} : Keeps (scalarStqM h va pay) := by
  simp only [Machine.scalarStqM]
  refine .bind .aligned fun _ => .bind .ownAcc fun _ => .bind .vread fun _ => .get fun _ _ => ?_
  split
  · exact .fail
  · exact .bind .vread fun _ => .get fun _ _ => .bind .guardM fun _ => .modify fun _ hu => hu.pushSend

theorem Keeps.tlbInvM {h va ops} : Keeps (tlbInvM h va ops) :=
  .get fun _ _ =>
  .ite .parkForThen
    (.ite .pure
        (.bind .guardM fun _ => .bind .ownAcc fun _ => .bind .guardM fun _ => .bind .releaseM fun _ => .get fun _ ht =>
          .ite .pure (.bind (.set ht) fun _ => .parkFor)))

/-! ## Bloom -/

theorem Keeps.modBank {c b f} : Keeps (modBank c b f) := by
  simp only [Machine.modBank]
  exact .modify fun _ hs => by split; exacts [hs, hs]

theorem Keeps.bloomLog {c r e} : Keeps (bloomLog c r e) := .modify fun _ hs => hs.logError

theorem Keeps.fireM {c x n ts} : Keeps (fireM c x n ts) := by
  simp only [Machine.fireM]
  refine .ite (.bind (.attempt .vread) fun _ => ?_)
    (.bind (.modify fun _ hs => hs.releaseUnit) fun _ => .bind (.attempt .vread) fun _ => ?_)
  · split
    · exact .bloomLog
    · exact .modify fun _ hs => hs
  · split
    · exact .bloomLog
    · refine .get fun _ _ => ?_
      split
      · exact .bloomLog
      · refine .ite .throwThen (.bind (.attempt .spawnM) fun _ => ?_)
        split
        · exact .pure
        · exact .bloomLog

theorem Keeps.deliver {c b e} : Keeps (deliver c b e) := by
  simp only [Machine.deliver]
  refine .get fun _ _ => ?_
  split
  · exact .pure
  · exact .ite .modBank
        (.bind .readAcc fun _ =>
          .ite .writeAcc
            (.bind .readAcc fun _ =>
              .ite (.bind .writeAcc fun _ => .writeAcc)
                (.ite
                    (.bind (.bind .writeAcc fun _ => .writeAcc) fun _ => .bind .modBank fun _ => .fireM)
                    (.bind .writeAcc fun _ => .writeAcc))))

theorem Keeps.deliverLeast {c b} : Keeps (deliverLeast c b) := by
  simp only [Machine.deliverLeast]
  refine .get fun _ _ => ?_
  split
  · exact .pure
  · split
    · exact .pure
    · exact .bind .modBank fun _ => .deliver

theorem Keeps.drainBank {c b all fuel} : Keeps (drainBank c b all fuel) := by
  induction fuel with
  | zero => exact .pure
  | succ _ ih =>
    simp only [Machine.drainBank]
    exact .get fun _ _ => by split; exacts [.pure, .ite (.bind .deliverLeast fun _ => ih) .pure]

theorem Keeps.acceptEvent {c b x e} : Keeps (acceptEvent c b x e) :=
  .ite .deliver (.ite (.bind .modBank fun _ => .deliver) (.when .deliverLeast fun _ => .bind .modBank fun _ => .drainBank))

theorem MemoryOk.execBloomEventArrival {n s} (hs : MemoryOk s) : StaysOk (execBloomEventArrival n s) := by
  simp only [Machine.execBloomEventArrival]
  refine .event ?_
  split
  · exact hs
  · refine .ite hs ?_
    split
    · refine .ite hs ?_
      split
      · rename_i h
        exact Keeps.ok (.orStall .acceptEvent) h hs
      · rename_i h
        exact hs
    · exact hs

theorem Keeps.bloomInstall {k addr} : Keeps (bloomInstall k addr) := by
  simp only [Machine.bloomInstall]
  refine .bind .guardM fun _ => .get fun _ _ => .bind .vread fun _ => .bind .guardM fun _ => .bind .vread fun _ =>
    .get fun _ _ => ?_
  split
  · exact .fail
  · exact .bind .guardM fun _ => .bind .guardM fun _ => .bind .guardM fun _ => .bind .guardM fun _ => .bind .guardM fun _ =>
      .bind .guardM fun _ => .bind .guardM fun _ => .modify fun _ hu => hu

theorem MemoryOk.bloomFree {s k v} (hs : MemoryOk s) : MemoryOk (State.bloomFree s k v) := by
  simp only [State.bloomFree]
  split
  · exact .ite hs hs
  · exact hs

theorem Keeps.fanOut {k acc ts at' n} : Keeps (fanOut k acc ts at' n) := by
  induction n generalizing at' with
  | zero => exact .pure
  | succ _ ih => exact .bind .vread64 fun _ => .bind (.modify fun _ hs => hs) fun _ => ih

/-! ## Lane -/

theorem Keeps.getWave {k} : Keeps (getWave k) := .get fun _ _ => .pure

theorem Keeps.modWave {k f} : Keeps (modWave k f) := .modify fun _ hs => hs

theorem Keeps.peakCheck {c ns} : Keeps (peakCheck c ns) := .get fun _ _ => .ite .failLane .pure

theorem Keeps.scoreboard {c} : Keeps (scoreboard c) := .bind .getWave fun _ => .ite .throwThen (.ite .throw .pure)

theorem Keeps.decodeChecks {c} : Keeps (decodeChecks c) :=
  .bind .getWave fun _ => .ite .failLaneThen (.ite .failLaneThen (.ite .failLane .pure))

theorem Keeps.modGroup {c f} : Keeps (modGroup c f) := .modWave

theorem Keeps.laneDeferred {c ref crew} : Keeps (laneDeferred c ref crew) := by
  simp only [Machine.laneDeferred]
  split
  · exact .ite
        (.bind (.modify fun _ hs => hs) fun _ => .bind (.modify fun _ hs => hs) fun _ => .bind .modGroup fun _ => .failLane)
        .pure
  · exact .pure

theorem Keeps.laneWait {c} : Keeps (laneWait c) := by
  simp only [Machine.laneWait]
  refine .ite .pure (.get fun _ _ => .ite .pure ?_)
  split
  · exact .failLane
  · split
    · exact .failLane
    · exact .bind .laneDeferred fun _ =>
        .ite (.bind (.modify fun _ ht => ht) fun _ => .modGroup)
          (.ite (.bind (.modify fun _ ht => ht) fun _ => .bind .modGroup fun _ => .throw) .throw)

theorem Keeps.issued {c} : Keeps (issued c) := .get fun _ hs => .set hs

theorem Keeps.retire {c} : Keeps (retire c) := .bind .modWave fun _ => .issued

theorem Keeps.advance {c} : Keeps (advance c) := .modGroup

theorem Keeps.laneSignal {c on} : Keeps (laneSignal c on) := by
  simp only [Machine.laneSignal]
  exact .get fun _ _ => .ite (by split; exacts [.modWave, .failLane]) .pure

theorem Keeps.completedBy {c on} : Keeps (completedBy c on) :=
  .bind .laneSignal fun _ => .get fun _ _ => .bind .modWave fun _ => .bind .advance fun _ => .retire

theorem Keeps.completed {c token} : Keeps (completed c token) := .completedBy

/-! ## LaneFrame -/

theorem MemoryOk.laneEnd {c r} (hr : Canonical r) : MemoryOk (laneEnd c r) := by
  unfold Machine.laneEnd
  split
  · exact hr
  · exact MemoryOk.trapLanes hr
  · exact MemoryOk.trapLanes hr
  · exact hr

theorem Keeps.earlyResults {k ops} : Keeps (earlyResults k ops) := by
  induction ops with
  | nil => exact .pure
  | cons _ _ ih => exact .bind .freeDwordM fun _ => .bind .modWave fun _ => ih

theorem Keeps.poisonCheck {c} : Keeps (poisonCheck c) := .get fun _ _ => .ite .failLane .pure

theorem Keeps.stopAtSafe {c} : Keeps (stopAtSafe c) := .get fun _ hs => .ite (.bind (.set hs) fun _ => .throw) .pure

theorem MemoryOk.laneInstr {i f uni eff s} (hs : MemoryOk s) (hu : ∀ c, Keeps (uni c)) (he : ∀ c, Keeps (eff c)) :
    StaysOk (laneInstr i f uni eff s) := by
  unfold Machine.laneInstr
  split
  · split
    · refine MemoryOk.laneEnd (Keeps.bind .decodeChecks (fun _ => ?_) _ hs)
      exact .bind .stopAtSafe fun _ => .bind (hu _) fun _ => .bind .laneWait fun _ => .bind .scoreboard fun _ =>
        .bind .earlyResults fun _ => .bind .poisonCheck fun _ => he _
    · exact .fault
  · exact .fault

theorem MemoryOk.laneWave {i f eff s} (hs : MemoryOk s) : StaysOk (laneWave i f eff s) :=
  hs.laneInstr (fun _ => .pure) fun _ => .bind .peakCheck fun _ => .bind .modWave fun _ => .completed

theorem MemoryOk.execReservedLaneOpcode {w s} (hs : MemoryOk s) : StaysOk (execReservedLaneOpcode w s) := by
  simp only [Machine.execReservedLaneOpcode]
  split
  · split
    · exact .next hs.trapLanes
    · exact .fault
  · exact .fault

/-! ## LaneControl -/

theorem Keeps.laneFailures {ls f} (hf : ∀ l, Keeps (f l)) : Keeps (laneFailures ls f) := by
  induction ls with
  | nil => exact .pure
  | cons _ _ ih => exact .bind (.attempt (hf _)) fun _ => .bind ih fun _ => .pure

theorem Keeps.laneCheck {ls f} (hf : ∀ l, Keeps (f l)) : Keeps (laneCheck ls f) := by
  simp only [Machine.laneCheck]
  exact .bind (.laneFailures fun _ => hf _) fun _ => by split; exacts [.pure, .failLane]

theorem Keeps.forLanes {α : Type} {ls} {f : Nat → M α} (hf : ∀ l, Keeps (f l)) : Keeps (forLanes ls f) := by
  induction ls with
  | nil => exact .pure
  | cons l _ ih => exact .bind (hf l) fun _ => .bind ih fun _ => .pure

theorem Keeps.spillM {c old new} : Keeps (spillM c old new) := by
  refine .get fun _ _ => ?_
  extract_lets acc run
  have hrun : ∀ va bs, Keeps (run va bs) := by
    refine fun _ _ => .bind (.attempt .vwrite) fun _ => ?_
    split
    · exact .pure
    · exact .failLane
  split
  · exact .pure
  · extract_lets last
    have hlast : ∀ u, Keeps (last u) := fun _ => .ite
      (.bind .freeDwordM fun _ => .bind .freeDwordM fun _ => .bind .freeDwordM fun _ => .bind .freeDwordM fun _ => hrun _ _) .pure
    refine .ite (.ite (.bind (hrun _ _) hlast) (.bind (.attempt .vread) fun _ => ?_)) (hlast ⟨⟩)
    split
    · exact hlast ⟨⟩
    · exact .failLaneThen

theorem Keeps.regroup {c f} : Keeps (regroup c f) := .bind .getWave fun _ => .bind .spillM fun _ => .modWave

theorem Keeps.quietly {m} (hm : Keeps m) : Keeps (quietly m) := by
  intro s hs
  unfold Machine.quietly
  split
  · exact hm.ok ‹_› hs
  · exact hm.error ‹_› hs

theorem Keeps.regroupQuiet {c f} : Keeps (regroupQuiet c f) :=
  .bind .getWave fun _ => .bind (.quietly .spillM) fun _ => .modWave

theorem Keeps.noHandler {c} : Keeps (noHandler c) := .bind .getWave fun _ => .ite .failLane .pure

theorem Keeps.braM {c} : Keeps (braM c) :=
  .get fun _ _ =>
  .ite .failLaneThen
    (.ite (.bind .advance fun _ => .retire)
        (.ite (.bind .modGroup fun _ => .retire) (.bind .noHandler fun _ => .bind .regroup fun _ => .retire)))

theorem MemoryOk.execBra {w s} (hs : MemoryOk s) : StaysOk (execBra w s) := hs.laneInstr (fun _ => .pure) fun _ => .braM

theorem Keeps.brxM {c} : Keeps (brxM c) := by
  simp only [Machine.brxM]
  refine .get fun _ _ => .bind (.laneCheck fun _ => .guardM) fun _ => .bind (.laneCheck fun _ => .guardM) fun _ => ?_
  split
  · exact .bind .advance fun _ => .retire
  · exact .bind .modGroup fun _ => .retire
  · exact .bind .noHandler fun _ => .bind .regroup fun _ => .retire

theorem MemoryOk.execBrx {w s} (hs : MemoryOk s) : StaysOk (execBrx w s) := hs.laneInstr (fun _ => .pure) fun _ => .brxM

theorem Keeps.reconvM {c} : Keeps (reconvM c) := by
  simp only [Machine.reconvM]
  refine .bind .getWave fun _ => ?_
  split
  · exact .ite (.bind .regroup fun _ => .retire) (.bind .advance fun _ => .retire)
  · exact .bind .advance fun _ => .retire

theorem MemoryOk.execReconv {w s} (hs : MemoryOk s) : StaysOk (execReconv w s) :=
  hs.laneInstr (fun _ => .pure) fun _ => .reconvM

theorem Keeps.drainM {k} : Keeps (drainM k) := .bind .getWave fun _ => .ite .throw .pure

theorem Keeps.sfxDrained {k} : Keeps (sfxDrained k) := .bind .getWave fun _ => .ite .throw .pure

theorem Keeps.sendsDrained {k} : Keeps (sendsDrained k) := .get fun _ _ => .ite .throw .pure

theorem Keeps.departM {c m} : Keeps (departM c m) := by
  refine .get fun _ _ => .bind .regroupQuiet fun _ => .bind ?_ ?_
  · exact .modify fun s hs => hs.barCover
  · exact fun _ => .bind .retire fun _ => .endWave

theorem Keeps.discharge {acc o js} : Keeps (discharge acc o js) := by
  induction js with
  | nil => exact .pure
  | cons _ _ ih => exact .bind .joinAddM fun _ => ih

theorem Keeps.dischargeLanes {rs} : Keeps (dischargeLanes rs) := by
  induction rs with
  | nil => exact .pure
  | cons _ _ ih => exact .bind .dischargeGfx fun _ => ih

theorem Keeps.endLaneHandler {k} : Keeps (endLaneHandler k) := .modWave

theorem Keeps.exitM {c} : Keeps (exitM c) :=
  .bind .getWave fun _ =>
  .ite (.bind .drainM fun _ => .bind .endLaneHandler fun _ => .issued)
    (.ite (.bind .advance fun _ => .retire)
        (.bind .sfxDrained fun _ => .bind .sendsDrained fun _ => .when .drainM fun _ => .get fun _ _ =>
          .bind (.laneCheck fun _ => .bind .resolve fun _ => .pure) fun _ =>
          .ite
            (.bind (.modify fun _ ht => ht.releaseUnit) fun _ => .get fun _ _ => .bind .discharge fun _ =>
              .bind .dischargeLanes fun _ => .departM) (.bind .dischargeLanes fun _ => .departM)))

theorem MemoryOk.execExit {w s} (hs : MemoryOk s) : StaysOk (execExit w s) := hs.laneInstr (fun _ => .pure) fun _ => .exitM

theorem Keeps.migCheck {c} : Keeps (migCheck c) := by
  simp only [Machine.migCheck]
  exact .get fun _ _ => .ite .failLaneThen (by split; exacts [.ite .failLane .pure, .failLane])

theorem Keeps.addDuties {k n} : Keeps (addDuties k n) :=
  .ite (.get fun _ _ => .bind .vrmw fun _ => .modify fun _ ht => ht.releaseUnit) .pure

theorem Keeps.writeBlocks {acc w bs} : Keeps (writeBlocks acc w bs) := by
  induction bs with
  | nil => exact .pure
  | cons _ _ ih => exact .bind .vwrite fun _ => ih

theorem Keeps.pushMigrants {o w code cls bs} : Keeps (pushMigrants o w code cls bs) := by
  induction bs with
  | nil => exact .pure
  | cons _ _ ih => exact .bind (.modify fun _ hs => hs.pushCont) fun _ => ih

theorem Keeps.migM {c} : Keeps (migM c) := by
  simp only [Machine.migM]
  refine .ite (.bind .advance fun _ => .retire) (.get fun _ _ => ?_)
  split
  · refine .bind .sfxDrained fun _ => .bind .sendsDrained fun _ => .bind .drainM fun _ => .bind .askBlocks fun _ => ?_
    split
    · exact .throw
    · exact .get fun _ _ => .bind (.laneCheck fun _ => .bind .resolve fun _ => .pure) fun _ =>
        .when (.laneCheck fun _ => .bind .resolve fun _ => .pure) fun _ => .bind .addDuties fun _ =>
        .bind .writeBlocks fun _ => .bind (.modify fun _ hu => hu.releaseUnit) fun _ =>
        .bind (.modify fun _ hu => hu.useBlocks) fun _ => .get fun _ _ => .bind .pushMigrants fun _ => .departM
  · exact .failLane

theorem MemoryOk.execMig {w s} (hs : MemoryOk s) : StaysOk (execMig w s) := hs.laneInstr (fun _ => .migCheck) fun _ => .migM

theorem Keeps.barCheck {c} : Keeps (barCheck c) := .bind .getWave fun _ => .ite .failLane .pure

theorem Keeps.barArvM {c} : Keeps (barArvM c) := by
  simp only [Machine.barArvM]
  refine .get fun _ _ => ?_
  split
  · exact .failLane
  · exact .ite .throwThen
        (.ite
            (.bind .drainM fun _ => .bind (.modify fun _ ht => ht.releaseUnit.barArrive) fun _ => .bind .advance fun _ =>
              .retire) (.bind .modWave fun _ => .bind .advance fun _ => .retire))

theorem MemoryOk.execBarArv {w s} (hs : MemoryOk s) : StaysOk (execBarArv w s) :=
  hs.laneInstr (fun _ => .barCheck) fun _ => .barArvM

theorem Keeps.barWaitM {c} : Keeps (barWaitM c) := by
  simp only [Machine.barWaitM]
  exact .get fun _ _ => by split; exacts [.failLane, .ite .throwThen (.bind .advance fun _ => .retire)]

theorem MemoryOk.execBarWait {w s} (hs : MemoryOk s) : StaysOk (execBarWait w s) :=
  hs.laneInstr (fun _ => .barCheck) fun _ => .barWaitM

theorem Keeps.stepOver {c} : Keeps (stepOver c) := .bind .advance fun _ => .retire

theorem MemoryOk.execSafe {w s} (hs : MemoryOk s) : StaysOk (execSafe w s) := hs.laneInstr (fun _ => .pure) fun _ => .stepOver

theorem MemoryOk.execNop {w s} (hs : MemoryOk s) : StaysOk (execNop w s) := hs.laneInstr (fun _ => .pure) fun _ => .stepOver

theorem MemoryOk.execYield {w s} (hs : MemoryOk s) : StaysOk (execYield w s) :=
  hs.laneInstr (fun _ => .pure) fun _ => .bind .advance fun _ => .bind .retire fun _ => .modify fun _ ht => .ite ht ht

theorem Keeps.addJoins {acc cs} : Keeps (addJoins acc cs) := by
  induction cs with
  | nil => exact .pure
  | cons _ _ ih => exact .ite (.bind .vrmw fun _ => ih) ih

theorem Keeps.enqueueEach {acc o cs} : Keeps (enqueueEach acc o cs) := by
  induction cs with
  | nil => exact .pure
  | cons _ _ ih => exact .bind .enqueue fun _ => ih

theorem Keeps.refuseM {k c} : Keeps (refuseM k c) := by
  simp only [Machine.refuseM]
  exact .get fun _ _ => by split; exacts [.fail, .pure]

theorem Keeps.spawnLanes {c} : Keeps (spawnLanes c) :=
  .get fun _ _ => .bind (.laneCheck fun _ => .aligned) fun _ => .bind (.laneCheck fun _ => .guardM) fun _ =>
  .bind (.laneCheck fun _ => .bind .vread fun _ => .pure) fun _ =>
  .bind (.forLanes fun _ => .bind .vread fun _ => .pure) fun _ =>
  .bind (.laneCheck fun _ => .bind .vread fun _ => .refuseM) fun _ =>
  .bind (.laneCheck fun _ => .bind .vread fun _ => .ite (.bind .resolve fun _ => .pure) .pure) fun _ => .get fun _ _ =>
  .get fun _ _ =>
  .ite .throwThen
    (.bind .drainM fun _ => .bind .addJoins fun _ => .bind (.modify fun _ hv => hv.releaseUnit) fun _ =>
      .bind .enqueueEach fun _ => .stepOver)

theorem MemoryOk.execSpawn {w s} (hs : MemoryOk s) : StaysOk (execSpawn w s) :=
  hs.laneInstr (fun _ => .pure) fun _ => .spawnLanes

theorem Keeps.futWaitLane {k acc handle va join gfx} : Keeps (futWaitLane k acc handle va join gfx) :=
  .bind .futEntry fun _ => .bind .vread fun _ => .bind .vwrite fun _ => .bind .translate fun _ => .get fun _ _ =>
  .modify fun _ ht => ht

theorem Keeps.futWaitLanes {k acc w n ls} : Keeps (futWaitLanes k acc w n ls) := by
  induction ls with
  | nil => exact .pure
  | cons _ _ ih => exact .bind .futWaitLane fun _ => ih

theorem Keeps.fwaitCheck {c acc w entry} : Keeps (fwaitCheck c acc w entry) := by
  simp only [Machine.fwaitCheck]
  exact .bind (.laneCheck fun _ => .bind .futEntry fun _ => .pure) fun _ => .bind (.laneCheck fun _ => .guardM) fun _ =>
    .bind (.laneCheck fun _ => .aligned) fun _ =>
    .bind (.laneCheck fun _ => .bind (.attempt .vread) fun _ => by split; exacts [.refuseM, .pure]) fun _ => .laneCheck fun _ =>
    .bind .resolve fun _ => .pure

theorem Keeps.fwaitHold {c w} : Keeps (fwaitHold c w) := .bind .sendsDrained fun _ => .ite .drainM .pure

theorem Keeps.fwaitDuties {c acc w wait} : Keeps (fwaitDuties c acc w wait) :=
  .when (.laneCheck fun _ => .bind .resolve fun _ => .pure) fun _ => .addDuties

theorem Keeps.sfxDrainedFor {c} : Keeps (sfxDrainedFor c) := .ite .pure .sfxDrained

theorem Keeps.peakCheckFor {c m ns} : Keeps (peakCheckFor c m ns) := .ite .pure .peakCheck

theorem Keeps.fwaitM {c} : Keeps (fwaitM c) :=
  .bind .sfxDrainedFor fun _ => .get fun _ _ => .bind .fwaitCheck fun _ => .bind .peakCheckFor fun _ =>
  .ite (.bind .modWave fun _ => .stepOver)
    (.bind .fwaitHold fun _ => .bind .fwaitDuties fun _ => .bind .futWaitLanes fun _ => .bind .modWave fun _ => .departM)

theorem MemoryOk.execFwait {w s} (hs : MemoryOk s) : StaysOk (execFwait w s) := hs.laneInstr (fun _ => .pure) fun _ => .fwaitM

theorem Keeps.pushSends {k ms} : Keeps (pushSends k ms) := by
  induction ms with
  | nil => exact .pure
  | cons _ _ ih => exact .bind (.modify fun _ hs => hs.pushSend) fun _ => ih

theorem Keeps.sendLanes {c} : Keeps (sendLanes c) := by
  simp only [Machine.sendLanes]
  exact .get fun _ _ => .bind (.laneCheck fun _ => .guardM) fun _ => .bind (.laneCheck fun _ => .aligned) fun _ =>
    .bind (.laneCheck fun _ => .bind .vread fun _ => .pure) fun _ => .get fun _ _ =>
    .ite .failLaneThen
      (.bind .drainM fun _ => .bind (.forLanes fun _ => .bind .vread fun _ => by split; exacts [.pure, .pure]) fun _ =>
        .bind (.modify fun _ hu => hu.releaseUnit) fun _ => .bind .pushSends fun _ => .stepOver)

theorem MemoryOk.execSend {w s} (hs : MemoryOk s) : StaysOk (execSend w s) := hs.laneInstr (fun _ => .pure) fun _ => .sendLanes

/-! ## Sillage -/

theorem Keeps.silInstall {k addr} : Keeps (silInstall k addr) := by
  simp only [Machine.silInstall]
  refine .bind .guardM fun _ => .get fun _ _ => .bind .vread fun _ => .when (.bind (.modify fun _ ht => ht) fun _ =>
    .fail) fun _ => .when (.bind (.modify fun _ ht => ht) fun _ => .fail) fun _ => .bind .vread fun _ => ?_
  split
  · exact .bind (.modify fun _ ht => ht) fun _ => .fail
  · exact .modify fun _ ht => ht

theorem Keeps.identRecord {acc used at' req} : Keeps (identRecord acc used at' req) :=
  .ite .pure (.bind .guardM fun _ => .bind .vread fun _ => .bind .guardM fun _ => .pure)

theorem Keeps.tileStart {k addr} : Keeps (tileStart k addr) :=
  .get fun _ _ => .bind .guardM fun _ => .bind .guardM fun _ => .bind .vread fun _ => .bind .guardM fun _ =>
  .bind .guardM fun _ => .bind .guardM fun _ => .bind .guardM fun _ => .bind .guardM fun _ => .bind .identRecord fun _ =>
  .bind .identRecord fun _ => .pure

theorem Keeps.readIdents {acc r ps} : Keeps (readIdents acc r ps) := by
  induction ps with
  | nil => exact .pure
  | cons _ _ ih =>
    exact .ite (.bind .vread fun _ => .bind ih fun _ => .pure) (.ite .failThen (.bind .pure fun _ => .bind ih fun _ => .pure))

theorem Keeps.doTile {k r} : Keeps (doTile k r) := by
  refine .get fun _ _ => ?_
  extract_lets slot x acc t q kk qs ks at' write
  have hwrite : ∀ qd, Keeps (write qd) := by
    intro qd
    unfold write
    extract_lets write'
    have hwrite' : ∀ kd, Keeps (write' kd) := by
      refine fun _ => .bind .guardM fun _ => ?_
      split
      · exact .fail
      · exact .bind .resolve fun _ => .when .vwrite fun _ => .bind (.modify fun _ hs => hs.releaseUnit) fun _ =>
          .bind .vwrite fun _ => .modify fun _ hs => hs
    exact .ite (.bind .readIdents hwrite') (.bind .pure hwrite')
  exact .ite (.bind .readIdents hwrite) (.bind .pure hwrite)

theorem Keeps.silStep {k addr} : Keeps (silStep k addr) := by
  simp only [Machine.silStep]
  refine .get fun _ _ => ?_
  split
  · exact .bind .tileStart fun _ => .bind (.modify fun _ ht => ht) fun _ => .pure
  · exact .ite
        (.bind .doTile fun _ => .bind (.modify fun _ ht => ht) fun _ => .pure)
        (.bind (.modify fun _ ht => ht) fun _ => .pure)

theorem Keeps.silAll {k addr fuel} : Keeps (silAll k addr fuel) := by
  induction fuel with
  | zero => exact .pure
  | succ _ ih => exact .bind .silStep fun _ => .ite ih .pure

theorem MemoryOk.engineWork {k m s} (hs : MemoryOk s) (hm : Keeps m) : MemoryOk (engineWork k m s) := by
  simp only [Machine.engineWork]
  refine .ite hs ?_
  split
  · exact hm.ok ‹_› hs
  · exact .endKick (hm.error ‹_› hs)
  · exact hm.error ‹_› hs

theorem MemoryOk.execSillageInstall {cluster addr s} (hs : MemoryOk s) : StaysOk (execSillageInstall cluster addr s) :=
  .event (hs.engineWork .silInstall)

theorem MemoryOk.execSillageTileRequest {cluster addr s} (hs : MemoryOk s) : StaysOk (execSillageTileRequest cluster addr s) :=
  .event (hs.engineWork .silAll)

/-! ## EngineCsr -/

theorem MemoryOk.setMatCrew {s c slot m} (hs : MemoryOk s) : MemoryOk (State.setMatCrew s c slot m) := hs

theorem Keeps.matGuard {k a v} : Keeps (matGuard k a v) := by
  simp only [Machine.matGuard]
  exact .get fun _ _ =>
    .ite
      (by split; exacts [.fail, .ite .parkForThen (.ite (.ite (.bind .guardM fun _ => .ite .parkFor .pure) .guardM) .pure)])
      .pure

theorem MemoryOk.writeMatrix {s k a v} (hs : MemoryOk s) : MemoryOk (State.writeMatrix s k a v) := .ite hs (.ite hs hs)

theorem Keeps.engineCsrGuard {k a v} : Keeps (engineCsrGuard k a v) :=
  .get fun _ _ =>
  .ite (.bind .guardM fun _ => .ite .parkFor .pure)
    (.ite .matGuard (.ite .silInstall (.ite (.bind .silStep fun _ => .ite .parkFor .pure) (.ite .bloomInstall .pure))))

theorem MemoryOk.writeEngineCsr {s k a v} (hs : MemoryOk s) : MemoryOk (State.writeEngineCsr s k a v) := by
  simp only [State.writeEngineCsr]
  split
  · exact hs
  · exact hs
  · exact hs.bloomFree
  · exact hs
  · exact hs
  · exact hs
  · exact .ite hs.writeMatrix hs

/-! ## Csr -/

theorem MemoryOk.resplit {s core c} (hs : MemoryOk s) : MemoryOk (State.resplit s core c) := .zero hs

theorem MemoryOk.writeDlsplit {s h v} (hs : MemoryOk s) : MemoryOk (State.writeDlsplit s h v) := by
  simp only [State.writeDlsplit]
  split
  · exact .ite hs.resplit hs
  · exact hs

theorem MemoryOk.writeDlgroup {s h v} (hs : MemoryOk s) : MemoryOk (State.writeDlgroup s h v) := by
  simp only [State.writeDlgroup]
  split
  · exact .ite hs.resplit hs
  · exact hs

theorem MemoryOk.writeTrapCsr {s h a v} (hs : MemoryOk s) : MemoryOk (State.writeTrapCsr s h a v) := by
  simp only [State.writeTrapCsr]
  split
  · split
    · exact hs
    · exact hs
    · exact hs
    · exact hs
  · exact hs

theorem MemoryOk.writeCsr {s h a v} (hs : MemoryOk s) : MemoryOk (State.writeCsr s h a v) := by
  simp only [State.writeCsr]
  split
  · exact hs.setHart
  · exact hs.setHart
  · exact hs.setHart
  · exact hs.setHart
  · exact hs.setHart
  · exact hs.setHart
  · exact hs.setHart
  · exact hs.setHart
  · exact hs.setHart
  · exact hs.setHart
  · exact hs.setHart
  · exact hs.setHart
  · exact hs.setHart
  · exact hs.setHart
  · exact hs.setHart
  · exact hs.writeDlsplit
  · exact hs.writeDlgroup
  · exact hs.setHart
  · split
    · exact hs.writeEngineCsr
    · exact hs.writeTrapCsr

theorem Keeps.csrCheck {h a write w} : Keeps (csrCheck h a write w) := by
  simp only [Machine.csrCheck]
  refine .bind .getHart fun _ => ?_
  split
  · exact .illegalM
  · exact .ite .failThen
        (.ite
            (.bind .illegalM fun _ => .ite (.bind .illegalM fun _ => .ite .illegalM .pure) (.ite .illegalM .pure))
            (.ite (.bind .illegalM fun _ => .ite .illegalM .pure) (.ite .illegalM .pure)))

theorem Keeps.csrOp {h o imm rd src addr w} : Keeps (csrOp h o imm rd src addr w) := by
  simp only [Machine.csrOp]
  exact .bind .csrCheck fun _ => .get fun _ _ =>
    .ite
      (by
          split
          · exact .bind .guardM fun _ => .bind .setReg fun _ => .modify fun _ ht => ht
          · exact .bind .engineCsrGuard fun _ => .bind (.modify fun _ ht => ht.writeCsr) fun _ => .setReg
          · exact .bind (.modify fun _ ht => ht.writeCsr) fun _ => .setReg) .setReg

/-! ## Scalar -/

theorem Keeps.illegalWord {h w} : Keeps (illegalWord h w) := .fail

theorem Keeps.relM {h rl} : Keeps (relM h rl) := .ite .releaseM .pure

theorem MemoryOk.execSfenceVma {rs1 rs2 s} (hs : MemoryOk s) : StaysOk (execSfenceVma rs1 rs2 s) :=
  hs.scalar fun _ => .bind .kindM fun _ => .bind .levelS fun _ => .bind .ownAcc fun _ => .bind .getHart fun _ =>
  .modify fun _ ht => ht.setTlb

theorem Keeps.quantumIssue {acc va n o d c scope} : Keeps (quantumIssue acc va n o d c scope) := by
  simp only [Machine.quantumIssue]
  refine .bind .resolve fun _ => ?_
  split
  · exact .bind .hostGate fun _ => .bind (.modify fun _ hs => .ite hs.writeBackLine.dropLine hs) fun _ => .get fun _ _ =>
      .ite .failThen (.bind (.modify fun _ ht => ht.pushQuantum) fun _ => .pure)
  · exact .vrmw

theorem Keeps.atomAccess {acc va n o d c sem scope} : Keeps (atomAccess acc va n o d c sem scope) :=
  .ite .quantumIssue (.bind .vrmw fun _ => .ite .pure (.ite (.bind .freeNatM fun _ => .bind .freeDwordM fun _ => .pure) .pure))

theorem Keeps.amoM {o i a h} : Keeps (amoM o i a h) :=
  .bind .guardM fun _ => .bind .getHart fun _ => .bind .aligned fun _ => .when .releaseM fun _ => .bind .ownAcc fun _ =>
  .bind .atomAccess fun _ => .setReg

/-! ## LaneMemory -/

theorem Keeps.recordCheck {c} : Keeps (recordCheck c) := by
  simp only [Machine.recordCheck]
  exact .bind .getWave fun _ => by split; exacts [.failLane, .ite .failLaneThen .pure]

theorem Keeps.lanesInBounds {c r whole} : Keeps (lanesInBounds c r whole) :=
  .get fun _ _ => .when (.laneCheck fun _ => .guardM) fun _ => .bind (.laneCheck fun _ => .guardM) fun _ =>
  .bind (.laneCheck fun _ => .guardM) fun _ => .pure

theorem Keeps.laneResolve {c ls va n k atomic consume} : Keeps (laneResolve c ls va n k atomic consume) :=
  .get fun _ _ => .laneCheck fun _ => .bind .resolve fun _ => .ite .failThen (.get fun _ _ => .ite .fail .pure)

theorem Keeps.noteOob {c inside store} : Keeps (noteOob c inside store) := .ite .modWave .pure

theorem Keeps.heldBack {c} : Keeps (heldBack c) := .bind .getWave fun _ => .ite .throw .pure

theorem Keeps.issueAccess {c op elems} : Keeps (issueAccess c op elems) := .get fun _ _ => .modWave

theorem Keeps.laneRelease {c} : Keeps (laneRelease c) := .bind .drainM fun _ => .modify fun _ hs => hs.releaseUnit

theorem Keeps.laneLoad {whole c} : Keeps (laneLoad whole c) :=
  .bind .heldBack fun _ => .bind .recordCheck fun _ => .bind .getWave fun _ => .bind .lanesInBounds fun _ =>
  .bind .laneResolve fun _ => .bind .peakCheck fun _ => .when .laneRelease fun _ => .bind .noteOob fun _ => .get fun _ _ =>
  .bind (.forLanes fun _ => .bind .resolve fun _ => .pure) fun _ => .bind .modWave fun _ => .bind .issueAccess fun _ =>
  .completed

theorem Keeps.laneStore {whole c} : Keeps (laneStore whole c) :=
  .bind .heldBack fun _ => .bind .recordCheck fun _ => .bind .getWave fun _ => .bind .lanesInBounds fun _ =>
  .bind .laneResolve fun _ => .when .laneRelease fun _ => .bind .noteOob fun _ => .get fun _ _ =>
  .bind (.forLanes fun _ => .bind .resolve fun _ => .pure) fun _ => .bind .issueAccess fun _ => .completed

theorem MemoryOk.execLd {w s} (hs : MemoryOk s) : StaysOk (execLd w s) := hs.laneInstr (fun _ => .pure) fun _ => .laneLoad

theorem MemoryOk.execSt {w s} (hs : MemoryOk s) : StaysOk (execSt w s) := hs.laneInstr (fun _ => .pure) fun _ => .laneStore

theorem MemoryOk.execLds {w s} (hs : MemoryOk s) : StaysOk (execLds w s) := hs.laneInstr (fun _ => .pure) fun _ => .laneLoad

theorem MemoryOk.execSts {w s} (hs : MemoryOk s) : StaysOk (execSts w s) := hs.laneInstr (fun _ => .pure) fun _ => .laneStore

theorem Keeps.gateElems {acc write es} : Keeps (gateElems acc write es) := by
  induction es with
  | nil => exact .pure
  | cons _ _ ih => exact .bind .gateSegs fun _ => ih

theorem Keeps.storeElems {acc size hint es} : Keeps (storeElems acc size hint es) := by
  induction es with
  | nil => exact .pure
  | cons _ _ ih => exact .bind .writeSegs fun _ => ih

theorem Keeps.loadElems {acc hint es} : Keeps (loadElems acc hint es) := by
  induction es with
  | nil => exact .pure
  | cons _ _ ih => exact .bind .readSegs fun _ => .bind ih fun _ => .pure

theorem Keeps.lagging {vs} : Keeps (lagging vs) := by
  induction vs with
  | nil => exact .pure
  | cons _ _ ih => exact .bind .freeNatM fun _ => .bind .freeDwordM fun _ => .bind ih fun _ => .pure

theorem Keeps.completeAccess {k a} : Keeps (completeAccess k a) := by
  refine .get fun _ _ => ?_
  extract_lets acc
  refine .get fun _ _ => ?_
  extract_lets poisoned trap
  have htrap : ∀ u, Keeps (trap u) := by
    refine fun _ => .bind .modWave fun _ => ?_
    clear_value poisoned
    cases poisoned with
    | nil => exact .pure
    | cons =>
      refine .bind .getWave fun _ => ?_
      extract_lets failed hit
      split
      · exact .modify fun _ hs => hs.trapLanes
      · exact .pure
  refine .bind .gateElems fun _ => ?_
  split
  · exact .bind .storeElems htrap
  · exact .bind .loadElems fun _ => .ite (.bind .lagging fun _ => .bind .modWave htrap) (.bind .pure fun _ => .bind .modWave htrap)

theorem MemoryOk.execLaneMemoryComplete {wave n s} (hs : MemoryOk s) : StaysOk (execLaneMemoryComplete wave n s) := by
  simp only [Machine.execLaneMemoryComplete]
  exact .event (by split; exacts [.ite hs (hs.runM (.bind .completeAccess fun _ => .endWave)), hs])

theorem MemoryOk.overflowTrap {s k g} (hs : MemoryOk s) : MemoryOk (overflowTrap s k g) := by
  simp only [Machine.overflowTrap]
  split
  · exact hs.trapLanes
  · exact hs.trapLanes

theorem MemoryOk.landOne {all s e} (hs : MemoryOk s) : MemoryOk (landOne all s e) :=
  .ite (.ite (.overflowTrap hs) hs) hs.releaseUnit.setWave.setSem

theorem MemoryOk.landAllOf {all s es} (hs : MemoryOk s) : MemoryOk (landAllOf all s es) := by
  induction es generalizing s with
  | nil => exact hs
  | cons _ _ ih => exact .ite (ih hs.landOne) (ih hs.landOne)

theorem MemoryOk.grantAll {s es} (hs : MemoryOk s) : MemoryOk (grantAll s es) := by
  induction es generalizing s with
  | nil => exact hs
  | cons _ _ ih => exact ih (hs.grantSem.runM .endWave)

theorem MemoryOk.execLaneSignalLand {waves s} (hs : MemoryOk s) : StaysOk (execLaneSignalLand waves s) :=
  .event hs.landAllOf.grantAll

theorem Keeps.stnLanes {c acc w r ls} : Keeps (stnLanes c acc w r ls) := by
  induction ls with
  | nil => exact .pure
  | cons _ _ ih => exact .bind .resolve fun _ => .bind .readSegs fun _ => .bind .writeSegs fun _ => ih

theorem Keeps.laneGate {c acc ls va n} : Keeps (laneGate c acc ls va n) :=
  .bind (.forLanes fun _ => .resolve) fun _ => .bind .getWave fun _ => .ite .throwThen .gateSegs

theorem Keeps.stnM {c} : Keeps (stnM c) :=
  .bind .heldBack fun _ => .get fun _ _ =>
  .ite .failLaneThen
    (.ite .failLaneThen
        (.ite .failLaneThen
            (.ite
                (.bind (.laneCheck fun _ => .guardM) fun _ => .bind .laneResolve fun _ => .bind .laneGate fun _ =>
                  .bind .noteOob fun _ => .bind .stnLanes fun _ => .completed)
                (.bind .laneResolve fun _ => .bind .laneGate fun _ => .bind .noteOob fun _ => .bind .stnLanes fun _ =>
                  .completed))))

theorem MemoryOk.execStn {w s} (hs : MemoryOk s) : StaysOk (execStn w s) := hs.laneInstr (fun _ => .pure) fun _ => .stnM

theorem Keeps.atomLanes {o c acc w r ls} : Keeps (atomLanes o c acc w r ls) := by
  induction ls with
  | nil => exact .pure
  | cons _ _ ih => exact .bind .atomAccess fun _ => .bind ih fun _ => .pure

theorem Keeps.atomM {o c} : Keeps (atomM o c) :=
  .bind .heldBack fun _ => .bind .recordCheck fun _ => .get fun _ _ => .bind .lanesInBounds fun _ => .bind .laneResolve fun _ =>
  .bind .peakCheck fun _ =>
  .ite
    (.ite
        (.bind .laneRelease fun _ => .bind .laneGate fun _ => .bind .noteOob fun _ => .bind .atomLanes fun _ =>
          .bind .modWave fun _ => .completed)
        (.bind .laneGate fun _ => .bind .noteOob fun _ => .bind .atomLanes fun _ => .bind .modWave fun _ => .completed))
    (.bind .laneGate fun _ => .bind .noteOob fun _ => .bind .atomLanes fun _ => .bind .modWave fun _ => .completed)

theorem MemoryOk.execAtomAdd {w s} (hs : MemoryOk s) : StaysOk (execAtomAdd w s) :=
  hs.laneInstr (fun _ => .pure) fun _ => .atomM

theorem MemoryOk.execAtomSwap {w s} (hs : MemoryOk s) : StaysOk (execAtomSwap w s) :=
  hs.laneInstr (fun _ => .pure) fun _ => .atomM

theorem MemoryOk.execAtomAnd {w s} (hs : MemoryOk s) : StaysOk (execAtomAnd w s) :=
  hs.laneInstr (fun _ => .pure) fun _ => .atomM

theorem MemoryOk.execAtomOr {w s} (hs : MemoryOk s) : StaysOk (execAtomOr w s) := hs.laneInstr (fun _ => .pure) fun _ => .atomM

theorem MemoryOk.execAtomXor {w s} (hs : MemoryOk s) : StaysOk (execAtomXor w s) :=
  hs.laneInstr (fun _ => .pure) fun _ => .atomM

theorem MemoryOk.execAtomMax {w s} (hs : MemoryOk s) : StaysOk (execAtomMax w s) :=
  hs.laneInstr (fun _ => .pure) fun _ => .atomM

theorem MemoryOk.execAtomFadd {w s} (hs : MemoryOk s) : StaysOk (execAtomFadd w s) :=
  hs.laneInstr (fun _ => .pure) fun _ => .atomM

theorem MemoryOk.execAtomCas {w s} (hs : MemoryOk s) : StaysOk (execAtomCas w s) :=
  hs.laneInstr (fun _ => .pure) fun _ => .atomM

theorem MemoryOk.execFence {w s} (hs : MemoryOk s) : StaysOk (execFence w s) :=
  hs.laneInstr (fun _ => .pure) fun _ => .bind .drainM fun _ => .when (.modify fun _ ht => ht.releaseUnit) fun _ => .completed

theorem Keeps.rangesM {c acc o all us} : Keeps (rangesM c acc o all us) := by
  induction us with
  | nil => exact .pure
  | cons _ _ ih =>
    simp only [Machine.rangesM]
    exact .bind (.attempt .rangeLines) fun _ => by split; exacts [ih, .failLane]

theorem Keeps.rangeLanes {o c} : Keeps (rangeLanes o c) := by
  simp only [Machine.rangeLanes]
  refine .bind .heldBack fun _ => .bind .recordCheck fun _ => .get fun _ _ => .bind .lanesInBounds fun _ => ?_
  split
  · exact .failLaneThen
  · exact .ite
        (.bind .drainM fun _ => .bind .noteOob fun _ => .bind .rangesM fun _ => .completed)
        (.bind .noteOob fun _ => .bind .rangesM fun _ => .completed)

theorem MemoryOk.execCwb {w s} (hs : MemoryOk s) : StaysOk (execCwb w s) := hs.laneInstr (fun _ => .pure) fun _ => .rangeLanes

theorem MemoryOk.execCinv {w s} (hs : MemoryOk s) : StaysOk (execCinv w s) := hs.laneInstr (fun _ => .pure) fun _ => .rangeLanes

theorem MemoryOk.execCflush {w s} (hs : MemoryOk s) : StaysOk (execCflush w s) :=
  hs.laneInstr (fun _ => .pure) fun _ => .rangeLanes

theorem Keeps.pushStqs {k os} : Keeps (pushStqs k os) := by
  induction os with
  | nil => exact .pure
  | cons _ _ ih => exact .bind (.modify fun _ hs => hs.pushSend) fun _ => ih

theorem Keeps.strictCheck {c r at'} : Keeps (strictCheck c r at') := .ite (.laneCheck fun _ => .guardM) .pure

theorem Keeps.drainFor {c} : Keeps (drainFor c) := .ite .pure .drainM

theorem Keeps.stqLanes {c} : Keeps (stqLanes c) := by
  refine .bind .heldBack fun _ => .bind .recordCheck fun _ => .get fun _ _ => ?_
  extract_lets w h acc addr ls inside desc body op
  have hop : ∀ l, Keeps (op l) := by
    refine fun _ => .get fun _ _ => .bind .vread fun _ => ?_
    split
    · exact .pure
    · exact .fail
  refine .bind .strictCheck fun _ => .bind .drainFor fun _ => .bind (.laneCheck fun _ => .aligned) fun _ =>
    .bind (.laneCheck fun _ => .bind .vread fun _ => .pure) fun _ =>
    .bind (.laneCheck fun l => .bind (hop l) fun _ => .pure) fun _ =>
    .bind (.laneCheck fun _ => .bind .vread fun _ => .bind .vread fun _ => .pure) fun _ => .get fun _ _ => ?_
  exact .ite .failLaneThen (.bind (.forLanes fun l => .bind (hop l) fun _ => .bind .vread fun _ => .bind .vread fun _ => .pure)
    fun _ => .bind .noteOob fun _ => .bind .pushStqs fun _ => .completed)

theorem MemoryOk.execStq {w s} (hs : MemoryOk s) : StaysOk (execStq w s) := hs.laneInstr (fun _ => .pure) fun _ => .stqLanes

theorem Keeps.prefetch {acc hint va n} : Keeps (prefetch acc hint va n) := by
  simp only [Machine.prefetch]
  refine .bind (.attempt .resolve) fun _ => ?_
  split
  · split
    · exact .modify fun _ hs => (.ite hs (.ite hs.llcTouch (.ite hs.fillLine hs.tokenRead)))
    · exact .pure
  · exact .pure

theorem Keeps.prefetchLanes {acc hint n vs} : Keeps (prefetchLanes acc hint n vs) := by
  induction vs with
  | nil => exact .pure
  | cons _ _ ih => exact .bind .prefetch fun _ => ih

theorem Keeps.pfhM {c} : Keeps (pfhM c) := .bind .recordCheck fun _ => .get fun _ _ => .bind .prefetchLanes fun _ => .completed

theorem MemoryOk.execPfh {w s} (hs : MemoryOk s) : StaysOk (execPfh w s) := hs.laneInstr (fun _ => .pure) fun _ => .pfhM

/-! ## BloomLane -/

theorem Keeps.sendEvents {k es} : Keeps (sendEvents k es) := by
  induction es with
  | nil => exact .pure
  | cons _ _ ih => exact .bind (.modify fun _ hs => hs) fun _ => ih

theorem MemoryOk.execBlmEmit {w s} (hs : MemoryOk s) : StaysOk (execBlmEmit w s) :=
  hs.laneInstr (fun _ => .pure) fun _ =>
  .ite
    (.bind .drainM fun _ => .bind (.modify fun _ ht => ht.releaseUnit) fun _ => .get fun _ _ => .bind .sendEvents fun _ =>
      .get fun _ _ => .completedBy)
    (.get fun _ _ => .bind .sendEvents fun _ => .get fun _ _ => .completedBy)

theorem Keeps.ownBank {c} : Keeps (ownBank c) := by
  simp only [Machine.ownBank]
  exact .get fun _ _ => by split; exacts [.ite .pure .failLane, .failLane]

theorem MemoryOk.execBlmRead {w s} (hs : MemoryOk s) : StaysOk (execBlmRead w s) :=
  hs.laneInstr (fun _ => .pure) fun _ => .bind .ownBank fun _ => .bind .peakCheck fun _ => .bind .modWave fun _ => .completed

theorem Keeps.blmWrite {f c} (hf : ∀ i j k m, Keeps (f i j k m)) : Keeps (Machine.blmWrite f c) :=
  .bind .ownBank fun _ => .ite (.bind .getWave fun _ => .bind (.orStall (hf _ _ _ _)) fun _ => .completed) .completed

theorem MemoryOk.execBlmAdvance {w s} (hs : MemoryOk s) : StaysOk (execBlmAdvance w s) :=
  hs.laneInstr (fun _ => .pure) fun _ => .blmWrite fun _ _ _ _ => .bind .modBank fun _ => .drainBank

theorem MemoryOk.execBlmFlush {w s} (hs : MemoryOk s) : StaysOk (execBlmFlush w s) :=
  hs.laneInstr (fun _ => .pure) fun _ => .blmWrite fun _ _ _ _ => .bind .drainBank fun _ => .modBank

theorem MemoryOk.execBlmClear {w s} (hs : MemoryOk s) : StaysOk (execBlmClear w s) :=
  hs.laneInstr (fun _ => .pure) fun _ => .blmWrite fun _ _ _ _ => .modBank

theorem MemoryOk.execBloomInstall {cluster addr s} (hs : MemoryOk s) : StaysOk (execBloomInstall cluster addr s) :=
  .event (hs.engineWork .bloomInstall)

theorem MemoryOk.execBloomUninstall {cluster v s} (hs : MemoryOk s) : StaysOk (execBloomUninstall cluster v s) :=
  .event (hs.engineWork (.modify fun _ ht => ht.bloomFree))

theorem MemoryOk.execBloomFanoutJob {engine s} (hs : MemoryOk s) : StaysOk (execBloomFanoutJob engine s) := by
  simp only [Machine.execBloomFanoutJob]
  refine .event ?_
  split
  · exact hs
  · refine .ite hs ?_
    split
    · rename_i h
      exact Keeps.ok (.orStall .fanOut) h hs
    · rename_i h
      exact .runM (Keeps.error (.orStall .fanOut) h hs) .bloomLog
    · rename_i h
      exact hs

/-! ## Coherence -/

theorem MemoryOk.execInvalidationReceive {inv cluster s} (hs : MemoryOk s) :
    StaysOk (execInvalidationReceive inv cluster s) := by
  simp only [Machine.execInvalidationReceive]
  refine .event ?_
  split
  · exact .ite hs (by split; exacts [hs.dropTlb.flushLines, hs.dropTlb])
  · exact hs

theorem MemoryOk.endInval {s inv i} (hs : MemoryOk s) : MemoryOk (State.endInval s inv i) := by
  simp only [State.endInval]
  split
  · exact .ite (.setHart hs) hs
  · exact hs

theorem MemoryOk.execInvalidationAck {inv cluster s} (hs : MemoryOk s) : StaysOk (execInvalidationAck inv cluster s) := by
  simp only [Machine.execInvalidationAck]
  exact .event (by split; exacts [.ite hs (.ite (.endInval hs) hs), hs])

theorem MemoryOk.execHotnessHalving {die s} (hs : MemoryOk s) : StaysOk (execHotnessHalving die s) := .event hs.halveHot

theorem MemoryOk.execQuantumFlush {n s} (hs : MemoryOk s) : StaysOk (execQuantumFlush n s) := by
  simp only [Machine.execQuantumFlush]
  exact .event (by split; exacts [hs.performAll, hs])

theorem MemoryOk.execPageWalk {h va kind s} (hs : MemoryOk s) : StaysOk (execPageWalk h va kind s) := by
  simp only [Machine.execPageWalk]
  exact .event
      (.ite
          (by
              split
              · rename_i h
                exact Keeps.ok .translate h hs
              · exact hs) hs)

theorem MemoryOk.homeRange {s lo n} (hs : MemoryOk s) : MemoryOk (State.homeRange s lo n) :=
  .foldl (.foldl hs fun ht => ht.tokenHome) fun ht => ht.tokenHome

theorem MemoryOk.snoopFirst {s t ls} (hs : MemoryOk s) (h : s.snoopFirst ls = some t) : MemoryOk t := by
  unfold State.snoopFirst at h
  split at h
  · cases h
    exact .ite hs hs
  · cases h

theorem MemoryOk.answerRequest {s c g write} (hs : MemoryOk s) : MemoryOk (State.answerRequest s c g write) :=
  .ite hs.tokenWrite.setTok hs.tokenRead

theorem MemoryOk.execTokenRequest {cluster granule write s} (hs : MemoryOk s) :
    StaysOk (execTokenRequest cluster granule write s) := by
  simp only [Machine.execTokenRequest]
  refine .event (.ite hs ?_)
  split
  · rename_i h
    exact hs.snoopFirst h
  · exact hs.answerRequest

theorem MemoryOk.execPersistentRequest {cluster granule write s} (hs : MemoryOk s) :
    StaysOk (execPersistentRequest cluster granule write s) := by
  simp only [Machine.execPersistentRequest]
  refine .event (.ite hs ?_)
  split
  · exact hs
  · refine .ite hs ?_
    split
    · rename_i h
      exact hs.snoopFirst h
    · exact hs.answerRequest

theorem MemoryOk.evictTokens {s c g} (hs : MemoryOk s) : MemoryOk (State.evictTokens s c g) := .setTok (.ite (.llcTouch hs) hs)

theorem MemoryOk.execTokenEviction {cluster granule s} (hs : MemoryOk s) : StaysOk (execTokenEviction cluster granule s) :=
  .event (.ite hs hs.evictTokens)

theorem MemoryOk.poisonLines {s ls} (hs : MemoryOk s) : MemoryOk (State.poisonLines s ls) := hs

theorem MemoryOk.execHomeRecall {granule s} (hs : MemoryOk s) : StaysOk (execHomeRecall granule s) :=
  .event (.ite hs (.logError (.ite hs.loseOthers.setTok.llcTouch hs.loseOthers.setTok.poisonLines)))

/-! ## LaneConvert -/

theorem MemoryOk.execCvt {w s} (hs : MemoryOk s) : StaysOk (execCvt w s) := hs.laneWave

theorem MemoryOk.execQnt {w s} (hs : MemoryOk s) : StaysOk (execQnt w s) := hs.laneWave

theorem MemoryOk.execAln {w s} (hs : MemoryOk s) : StaysOk (execAln w s) := hs.laneWave

/-! ## Texture -/

theorem Keeps.texRead {k acc fill va n} : Keeps (texRead k acc fill va n) :=
  .bind .resolve fun _ => .bind .getWave fun _ => .ite .throwThen .readSegs

theorem Keeps.fillTexLine {k acc u a} : Keeps (fillTexLine k acc u a) := by
  simp only [Machine.fillTexLine]
  refine .bind (.attempt .texRead) fun _ => ?_
  split
  · exact .modify fun _ hs => by split; exacts [hs, hs]
  · exact .pure

theorem Keeps.indexEntry {k acc u va} : Keeps (indexEntry k acc u va) := by
  simp only [Machine.indexEntry]
  refine .get fun _ _ => ?_
  split
  · exact .bind .freeNatM fun _ => .ite .pure (.bind .texRead fun _ => .bind .fillTexLine fun _ => .pure)
  · exact .bind .texRead fun _ => .when .fillTexLine fun _ => .pure

theorem Keeps.streamBits {k acc fill base at' n} : Keeps (streamBits k acc fill base at' n) :=
  .ite .pure (.bind .texRead fun _ => .pure)

theorem Keeps.texChannels {k acc fill r base b t ch n} : Keeps (texChannels k acc fill r base b t ch n) := by
  induction n generalizing ch with
  | zero => exact .pure
  | succ _ ih => exact .bind .streamBits fun _ => .bind .streamBits fun _ => .bind ih fun _ => .pure

theorem Keeps.texel {k acc u fill r l x y z} : Keeps (texel k acc u fill r l x y z) :=
  .bind .indexEntry fun _ => .ite .failThen (.bind .texChannels fun _ => .pure)

theorem Keeps.sampleLevel {k acc u fill r l su sv sw} : Keeps (sampleLevel k acc u fill r l su sv sw) :=
  .ite
    (.bind
        (.bind (.bind .texel fun _ => .bind .texel fun _ => .pure) fun _ =>
          .bind (.bind .texel fun _ => .bind .texel fun _ => .pure) fun _ => .pure) fun _ =>
      .bind
        (.bind (.bind .texel fun _ => .bind .texel fun _ => .pure) fun _ =>
          .bind (.bind .texel fun _ => .bind .texel fun _ => .pure) fun _ => .pure) fun _ => .pure)
    (.bind (.bind .texel fun _ => .bind .texel fun _ => .pure) fun _ =>
      .bind (.bind .texel fun _ => .bind .texel fun _ => .pure) fun _ => .pure)

theorem Keeps.laneCollect {α : Type} {ls} {f : Nat → M α} (hf : ∀ l, Keeps (f l)) : Keeps (laneCollect ls f) :=
  .bind (.forLanes fun l => .attempt (hf l)) fun _ => .bind
    (.laneCheck fun _ => by
      split
      · exact .fail
      · exact .pure)
    fun _ => .pure

theorem Keeps.texM {inside f c} (hf : ∀ i j k m n, Keeps (f i j k m n)) : Keeps (texM inside f c) :=
  .bind .getWave fun _ =>
  .ite .failLaneThen
    (.bind .heldBack fun _ => .bind .peakCheck fun _ => .bind .freeNatM fun _ => .get fun _ _ =>
      .bind (.laneCollect fun _ => hf _ _ _ _ _) fun _ => .bind .noteOob fun _ => .bind .modWave fun _ => .completed)

theorem Keeps.sampleLane {c r w acc u l} : Keeps (sampleLane c r w acc u l) :=
  .bind .sampleLevel fun _ => .bind .sampleLevel fun _ => .pure

theorem MemoryOk.execTexSmp {w s} (hs : MemoryOk s) : StaysOk (execTexSmp w s) :=
  hs.laneInstr (fun _ => .pure) fun _ => .texM fun _ _ _ _ _ => .sampleLane

theorem MemoryOk.execTexFch {w s} (hs : MemoryOk s) : StaysOk (execTexFch w s) :=
  hs.laneInstr (fun _ => .pure) fun _ => .texM fun _ _ _ _ _ => .texel

/-! ## Copy -/

theorem Keeps.kickEntry {k kick} : Keeps (kickEntry k kick) := by
  simp only [Machine.kickEntry]
  refine .get fun _ _ => ?_
  split
  · exact .fail
  · refine .bind .guardM fun _ => .bind .vread fun _ => .bind .guardM fun _ => .bind .guardM fun _ => ?_
    split
    · exact .bind .guardM fun _ => .pure
    · exact .fail

theorem MemoryOk.execEngineKickStart {engine s} (hs : MemoryOk s) : StaysOk (execEngineKickStart engine s) := by
  simp only [Machine.execEngineKickStart]
  refine .event ?_
  split
  · split
    · rename_i h
      exact .setHart (Keeps.ok .kickEntry h hs)
    · rename_i h
      exact .endKick (Keeps.error .kickEntry h hs)
    · exact hs
  · exact hs

theorem Keeps.setCopy {k j} : Keeps (setCopy k j) := .modify fun _ hs => hs

theorem Keeps.moveStep {k j} : Keeps (moveStep k j) := .get fun _ _ => .bind .vread fun _ => .bind .vwrite fun _ => .setCopy

theorem Keeps.nextIndex {acc j} : Keeps (nextIndex acc j) := .bind .vread fun _ => .pure

theorem Keeps.gatherStep {k j} : Keeps (gatherStep k j) :=
  .get fun _ _ => .bind .nextIndex fun _ => .bind .vread fun _ => .bind .vwrite fun _ => .setCopy

theorem Keeps.scatterStep {k j} : Keeps (scatterStep k j) :=
  .get fun _ _ => .bind .nextIndex fun _ => .bind .guardM fun _ => .bind .vread fun _ => .bind .vwrite fun _ => .setCopy

theorem Keeps.convertStep {k j} : Keeps (convertStep k j) :=
  .get fun _ _ => .bind .vread fun _ =>
  .ite
    (.bind .freeDwordM fun _ => .bind .pure fun _ => .bind .vwrite fun _ => .bind (.modify fun _ ht => ht) fun _ => .setCopy)
    (.bind .pure fun _ => .bind .vwrite fun _ => .bind (.modify fun _ ht => ht) fun _ => .setCopy)

theorem Keeps.copyBits {acc base at' n} : Keeps (copyBits acc base at' n) := .ite .pure (.bind .vread fun _ => .pure)

theorem Keeps.deltaStep {k j} : Keeps (deltaStep k j) :=
  .get fun _ _ => .bind .vread fun _ => .bind .guardM fun _ => .bind .copyBits fun _ => .bind .copyBits fun _ =>
  .bind .vwrite fun _ => .setCopy

theorem Keeps.rleRead {acc j at' n} : Keeps (rleRead acc j at' n) := .bind .guardM fun _ => .vread

theorem Keeps.rleStep {k j} : Keeps (rleStep k j) := by
  refine .get fun _ _ => ?_
  extract_lets acc write
  have hwrite : ∀ j, Keeps (write j) := by
    intro j
    simp only [write]
    split
    · exact .bind .vwrite fun _ => .setCopy
    · exact .bind .rleRead fun _ => .bind .vwrite fun _ => .setCopy
  exact .ite (.bind .pure hwrite) (.bind .rleRead fun _ => .ite (.bind .pure hwrite) (.bind .rleRead fun _ => .bind .pure hwrite))

theorem Keeps.advanceP {k j p} : Keeps (advanceP k j p) :=
  .get fun _ _ =>
  .ite
    (.bind .aligned fun _ => .bind (.modify fun _ ht => ht.releaseUnit) fun _ => .bind .vwrite fun _ =>
      .bind (.modify fun _ ht => ht) fun _ => .setCopy) (.bind (.modify fun _ ht => ht) fun _ => .setCopy)

theorem Keeps.copyOpen {k at'} : Keeps (copyOpen k at') := .get fun _ _ => .bind .vread fun _ => .bind .guardM fun _ => .setCopy

theorem Keeps.copyPart {k j f} (hf : ∀ n j, Keeps (f n j)) : Keeps (copyPart k j f) :=
  .ite .advanceP (.ite (hf _ _) (.bind .advanceP fun _ => .modify fun _ hs => hs))

theorem MemoryOk.copyEvent {op k f s} (hs : MemoryOk s) (hf : ∀ n j, Keeps (f n j)) : StaysOk (copyEvent op k f s) := by
  unfold Machine.copyEvent
  refine .event (.ite hs ?_)
  extract_lets m
  have hm : Keeps m := by
    unfold m
    split
    · exact .copyPart hf
    · exact .copyOpen
  split
  · exact hm.ok ‹_› hs
  · exact (hm.error ‹_› hs).endKick
  · exact hs

theorem MemoryOk.execCopyMove {engine s} (hs : MemoryOk s) : StaysOk (execCopyMove engine s) :=
  hs.copyEvent fun _ _ => .moveStep

theorem MemoryOk.execCopyGather {engine s} (hs : MemoryOk s) : StaysOk (execCopyGather engine s) :=
  hs.copyEvent fun _ _ => .gatherStep

theorem MemoryOk.execCopyScatter {engine s} (hs : MemoryOk s) : StaysOk (execCopyScatter engine s) :=
  hs.copyEvent fun _ _ => .scatterStep

theorem MemoryOk.execCopyConvert {engine s} (hs : MemoryOk s) : StaysOk (execCopyConvert engine s) :=
  hs.copyEvent fun _ _ => .convertStep

theorem MemoryOk.execCopyDelta {engine s} (hs : MemoryOk s) : StaysOk (execCopyDelta engine s) :=
  hs.copyEvent fun _ _ => .deltaStep

theorem MemoryOk.execCopyRle {engine s} (hs : MemoryOk s) : StaysOk (execCopyRle engine s) := hs.copyEvent fun _ _ => .rleStep

/-! ## FrontEnd -/

theorem MemoryOk.refuseRecord {s q n addr} (hs : MemoryOk s) : MemoryOk (State.refuseRecord s q n addr) :=
  .finishRecord (.logError hs)

theorem MemoryOk.acceptLaunch {s0 s q n addr l} (hs : MemoryOk s0) (ht : MemoryOk s) :
    MemoryOk (State.acceptLaunch s0 s q n addr l) := by
  unfold State.acceptLaunch
  extract_lets accept m
  have ha : Keeps (accept ()) := fun _ ht => ht
  have hm : Keeps m := .ite (.get fun _ _ => .bind .vrmw fun _ => ha) ha
  split
  · exact hm.ok ‹_› ht
  · exact (hm.error ‹_› ht).refuseRecord
  · exact hs

theorem MemoryOk.askHost {s t pa} (hs : MemoryOk s) (h : s.askHost pa = some t) : MemoryOk t := by
  unfold State.askHost at h
  split at h
  · cases h
    exact .ite hs hs
  · cases h

theorem MemoryOk.execLaunchRecordTake {q s} (hs : MemoryOk s) : StaysOk (execLaunchRecordTake q s) := by
  simp only [Machine.execLaunchRecordTake]
  refine .event (.ite hs (.ite hs (.ite hs ?_)))
  split
  · rename_i h
    exact hs.askHost h
  · exact .ite (.refuseRecord hs) (by split; exacts [.refuseRecord hs, hs.acceptLaunch hs])

theorem MemoryOk.pushReq {s c cls r} (hs : MemoryOk s) : MemoryOk (State.pushReq s c cls r) := hs

theorem MemoryOk.newTurn {s cls q t} (hs : MemoryOk s) (h : s.newTurn cls = some (q, t)) : MemoryOk t := by
  unfold State.newTurn at h
  obtain ⟨_, _, e⟩ := Option.map_eq_some_iff.mp h
  cases e
  exact hs

theorem MemoryOk.chooseQueue {s q t} (hs : MemoryOk s) (h : s.chooseQueue = some (q, t)) : MemoryOk t := by
  have hn : ∀ {cls} {f : Nat × State → Nat × State}, (s.newTurn cls).map f = some (q, t) →
      (∀ x, (f x).2.mem = x.2.mem) → MemoryOk t := by
    intro cls f h hf
    obtain ⟨x, hn, e⟩ := Option.map_eq_some_iff.mp h
    have hx := hf x
    rw [e] at hx
    unfold MemoryOk
    rw [hx]
    exact hs.newTurn hn
  unfold State.chooseQueue at h
  extract_lets used live at h
  split at h
  · split at h
    · cases h
      exact hs
    · exact hn h fun _ => rfl
  · split at h
    · cases h
      exact hs
    · split at h
      · exact hn h fun _ => rfl
      · cases h

theorem MemoryOk.expand {s n l} (hs : MemoryOk s) : MemoryOk (State.expand s n l) := by
  simp only [State.expand]
  split
  · exact hs
  · exact .pushReq (.ite hs hs)

theorem MemoryOk.execCrewExpand {s} (hs : MemoryOk s) : StaysOk (execCrewExpand s) := by
  simp only [Machine.execCrewExpand]
  refine .event ?_
  split
  · rename_i h
    split
    · exact .expand (hs.chooseQueue h)
    · exact hs
  · exact hs

theorem MemoryOk.execAdmissionAgeLimit {cluster s} (hs : MemoryOk s) : StaysOk (execAdmissionAgeLimit cluster s) := by
  simp only [Machine.execAdmissionAgeLimit]
  exact .event (by split; exacts [.ite hs hs, hs])

theorem MemoryOk.clearWindow {s c w} (hs : MemoryOk s) : MemoryOk (State.clearWindow s c w) := hs

theorem MemoryOk.admitCrew {s c r l f} (hs : MemoryOk s) : MemoryOk (State.admitCrew s c r l f) :=
  .zeroUnits (.zeroUnits (.zeroShares hs))

/-! ## GfxLane -/

theorem Keeps.commitRec {acc d node slot} : Keeps (commitRec acc d node slot) := by
  simp only [Machine.commitRec]
  refine .get fun _ _ => ?_
  split
  · exact .fail
  · split
    · split
      · exact .fail
      · exact .ite .throwThen (.bind (.modify fun _ ht => ht) fun _ => .spawnM)
    · exact .modify fun _ ht => ht
    · exact .modify fun _ ht => ht
    · exact .modify fun _ ht => ht

theorem Keeps.uniformM {α : Type} {c} {m : M α} (hm : Keeps m) : Keeps (uniformM c m) :=
  .bind hm.attempt fun _ => by
    split
    · exact .pure
    · exact .failLane

theorem Keeps.laneUndo {c m} (hm : Keeps m) : Keeps (laneUndo c m) := by
  intro s hs
  unfold Machine.laneUndo
  split
  · exact hm.ok ‹_› hs
  · exact hs
  · exact hs
  · exact hs

theorem Keeps.laneNode {c} : Keeps (laneNode c) :=
  .get fun _ _ => .ite .failLaneThen (.uniformM (.bind .useNode fun _ => .bind .nodeKey fun _ => .pure))

theorem Keeps.reserveLanes {c acc node d ls} : Keeps (reserveLanes c acc node d ls) := by
  induction ls with
  | nil => exact .pure
  | cons _ _ ih => exact .get fun _ _ => .bind .reserveM fun _ => .bind .modWave fun _ => ih

theorem MemoryOk.execResv {w s} (hs : MemoryOk s) : StaysOk (execResv w s) :=
  hs.laneInstr (fun _ => .pure) fun _ => .bind .laneNode fun _ => .bind .peakCheck fun _ => .get fun _ _ =>
  .bind (.laneUndo .reserveLanes) fun _ => .completed

theorem Keeps.commitLanes {acc d node slots} : Keeps (commitLanes acc d node slots) := by
  induction slots with
  | nil => exact .pure
  | cons _ _ ih => exact .bind .commitRec fun _ => ih

theorem MemoryOk.execCommit {w s} (hs : MemoryOk s) : StaysOk (execCommit w s) :=
  hs.laneInstr (fun _ => .pure) fun _ => .bind .laneNode fun _ => .get fun _ _ => .bind (.laneCheck fun _ => .guardM) fun _ =>
  .bind .guardM fun _ =>
  .ite
    (.bind .drainM fun _ => .bind (.modify fun _ hu => hu.releaseUnit) fun _ => .bind (.laneUndo .commitLanes) fun _ =>
      .completed) (.bind (.laneUndo .commitLanes) fun _ => .completed)

theorem Keeps.cancelRec {node slot x} : Keeps (cancelRec node slot x) := .ite (.modify fun _ hs => hs) .freeRec

theorem Keeps.cancelLanes {node rs} : Keeps (cancelLanes node rs) := by
  induction rs with
  | nil => exact .pure
  | cons _ _ ih => exact .bind .cancelRec fun _ => ih

theorem MemoryOk.execCancel {w s} (hs : MemoryOk s) : StaysOk (execCancel w s) :=
  hs.laneInstr (fun _ => .pure) fun _ => .bind .laneNode fun _ => .get fun _ _ => .bind (.laneCheck fun _ => .guardM) fun _ =>
  .bind .guardM fun _ => .bind (.laneUndo .cancelLanes) fun _ => .completed

theorem Keeps.meshElem {c vertex l} : Keeps (meshElem c vertex l) := by
  simp only [Machine.meshElem]
  refine .get fun _ _ => ?_
  split
  · exact .fail
  · exact .bind .readNode fun _ => .bind .guardM fun _ => .bind .resolve fun _ =>
      .ite .throwThen (.bind .readSegs fun _ => .ite .pure .pure)

theorem Keeps.emitLanes {c acc w vertex es} : Keeps (emitLanes c acc w vertex es) := by
  induction es with
  | nil => exact .pure
  | cons _ _ ih => exact .ite (.bind .vwrite fun _ => ih) (.bind .vrmwAt fun _ => ih)

theorem Keeps.emitM {vertex c} : Keeps (emitM vertex c) := by
  simp only [Machine.emitM]
  exact .bind .heldBack fun _ => .get fun _ _ => .bind (.laneCheck fun _ => .bind .meshElem fun _ => .pure) fun _ =>
    .bind (.forLanes fun _ => .bind .meshElem fun _ => .pure) fun _ =>
    .bind (.laneCheck fun _ => by split; exacts [.bind .resolve fun _ => .pure, .pure]) fun _ =>
    .bind (.forLanes fun _ => by split; exacts [.resolve, .pure]) fun _ => .bind .getWave fun _ =>
    .ite .throwThen (.bind .gateSegs fun _ => .bind .emitLanes fun _ => .completed)

theorem MemoryOk.execEmitV {w s} (hs : MemoryOk s) : StaysOk (execEmitV w s) := hs.laneInstr (fun _ => .pure) fun _ => .emitM

theorem MemoryOk.execEmitP {w s} (hs : MemoryOk s) : StaysOk (execEmitP w s) := hs.laneInstr (fun _ => .pure) fun _ => .emitM

/-! ## GfxUnits -/

theorem MemoryOk.unitWork {r x u m s} (hs : MemoryOk s) (hm : Keeps m) : MemoryOk (unitWork r x u m s) := by
  simp only [Machine.unitWork]
  split
  · exact hm.ok ‹_› hs
  · rename_i h
    exact .runM (Keeps.error hm h hs) (.bind (.modify fun _ ht => ht) fun _ => .bind .gfxLog fun _ => .freeRec)
  · exact hs

theorem MemoryOk.pickHead {s q r t} (hs : MemoryOk s) (h : pickHead s q = some (r, t)) : MemoryOk t := by
  unfold Machine.pickHead at h
  split at h
  · cases h
  · cases h
    exact hs
  · obtain ⟨_, _, e⟩ := Option.map_eq_some_iff.mp h
    cases e
    exact hs

theorem Keeps.freeBlocks {p es} : Keeps (freeBlocks p es) := by
  induction es with
  | nil => exact .pure
  | cons _ _ ih => exact .bind .freeDwordM fun _ => .bind ih fun _ => .pure

theorem Keeps.primsOf {nv tw th vert idx ps} : Keeps (primsOf nv tw th vert idx ps) := by
  induction ps with
  | nil => exact .pure
  | cons _ _ ih =>
    unfold Machine.primsOf
    extract_lets w i0 i1 i2 vs any rest
    have hrest : ∀ own, Keeps (rest own) := by
      refine fun _ => .bind ih fun _ => ?_
      split
      split
      · exact .pure
      · exact .pure
    exact .ite (.bind .pure hrest)
      (.ite (.bind .freeNatM fun _ => .ite (.bind .pure hrest) (.bind (.map .freeBlocks) hrest)) (.bind .pure hrest))

theorem Keeps.addCounter {acc d off n} : Keeps (addCounter acc d off n) := .ite (.bind .vrmwAt fun _ => .pure) .pure

theorem Keeps.takeMesh {r x} : Keeps (takeMesh r x) := by
  refine .bind .useNode fun _ => .bind .readNode fun _ => .bind .vread fun _ => ?_
  extract_lets nv np arena word
  refine .bind (.modify fun _ hs => hs) fun _ => .ite (.bind .addCounter fun _ => .freeRec) (.bind .vread fun _ => ?_)
  extract_lets vert rest
  have hr : ∀ v, Keeps (rest v) := by
    intro _
    refine .bind .primsOf fun _ => ?_
    exact .bind .addCounter fun _ => .ite .freeRec (.modify fun _ hs => hs)
  refine .ite ?_ ?_
  · exact .bind .pure hr
  · refine .bind ?_ ?_
    · exact .vread
    · exact hr

theorem MemoryOk.execRasterMesh {cluster s} (hs : MemoryOk s) : StaysOk (execRasterMesh cluster s) := by
  simp only [Machine.execRasterMesh]
  refine .event (.ite hs ?_)
  split
  · exact hs
  · rename_i h
    split
    · exact .setCluster (hs.pickHead h)
    · split
      · rename_i h₂
        exact hs
      · exact .unitWork (.setCluster (hs.pickHead h)) .takeMesh

theorem Keeps.emitBlock {job x b rest} : Keeps (emitBlock job x b rest) := by
  simp only [Machine.emitBlock]
  refine .bind .useNode fun _ => .bind .useNode fun _ => .bind .useNode fun _ => .bind .nodeKey fun _ =>
    .bind .nodeKey fun _ => .bind .reserveM fun _ => ?_
  split
  · exact .throwThen
  · refine .bind .reserveM fun _ => ?_
    split
    · exact .throwThen
    · exact .bind .pure fun _ => .get fun _ _ => .bind .vwrite fun _ => .bind (.modify fun _ ht => ht) fun _ =>
        .bind .vwrite fun _ => .bind (.modify fun _ ht => ht) fun _ => .bind .commitRec fun _ => .freeMesh

theorem MemoryOk.execRasterBlockEmit {cluster s} (hs : MemoryOk s) : StaysOk (execRasterBlockEmit cluster s) := by
  simp only [Machine.execRasterBlockEmit]
  refine .event ?_
  split
  · exact hs
  · split
    · exact hs.unitWork .emitBlock
    · exact hs

theorem Keeps.blendPixel {acc d st ti k} : Keeps (blendPixel acc d st ti k) :=
  .bind .vread fun _ => .bind .vread fun _ => .bind .vread fun _ => .bind .vread fun _ =>
  .ite (.bind .vwrite fun _ => .ite .vwrite .pure) .pure

theorem Keeps.blendPixels {acc d st ti mask ks} : Keeps (blendPixels acc d st ti mask ks) := by
  induction ks with
  | nil => exact .pure
  | cons _ _ ih => exact .ite (.bind .blendPixel fun _ => ih) ih

theorem Keeps.applyTicket {r x} : Keeps (applyTicket r x) :=
  .bind .useNode fun _ => .get fun _ _ => .bind .guardM fun _ => .bind .vread fun _ => .bind .blendPixels fun _ => .freeRec

theorem MemoryOk.execBlendTicket {node block s} (hs : MemoryOk s) : StaysOk (execBlendTicket node block s) := by
  simp only [Machine.execBlendTicket]
  refine .event ?_
  split
  · exact hs
  · split
    · exact hs
    · split
      · exact .runM hs .freeRec
      · split
        · exact hs
        · exact .unitWork hs .applyTicket
      · exact hs

theorem Keeps.traverse {r x} : Keeps (traverse r x) := by
  simp only [Machine.traverse]
  refine .bind .useNode fun _ => .bind .vread fun _ => .bind .guardM fun _ => .bind .vread fun _ => .bind .useNode fun _ =>
    .bind .nodeKey fun _ => .bind .reserveM fun _ => ?_
  split
  · exact .throw
  · exact .bind .vwrite fun _ => .bind .commitRec fun _ => .freeRec

theorem MemoryOk.execTraverseRay {cluster s} (hs : MemoryOk s) : StaysOk (execTraverseRay cluster s) := by
  simp only [Machine.execTraverseRay]
  refine .event ?_
  split
  · exact hs
  · rename_i h
    split
    · exact .setCluster (hs.pickHead h)
    · split
      · rename_i h₂
        exact hs
      · exact .unitWork (.setCluster (hs.pickHead h)) .traverse

/-! ## HostPort -/

theorem MemoryOk.execHostSnoop {line invalidate s} (hs : MemoryOk s) : StaysOk (execHostSnoop line invalidate s) :=
  .event (.ite hs (.ite hs.tokenHome hs.tokenHome))

theorem MemoryOk.filterLine {s line} (hs : MemoryOk s) : MemoryOk (State.filterLine s line) := by
  simp only [State.filterLine]
  exact .ite hs (by split; exacts [.ite hs hs, hs])

theorem MemoryOk.execHostMemAccess {write addr data s} (hs : MemoryOk s) : StaysOk (execHostMemAccess write addr data s) :=
  .event (.ite hs (.ite (.poke (.transfer (.tokenHome (.ite hs hs)))) (.filterLine (.transfer (.loseOthers (.ite hs hs))))))

theorem MemoryOk.execBackInvalidationResponse {line s} (hs : MemoryOk s) : StaysOk (execBackInvalidationResponse line s) := by
  simp only [Machine.execBackInvalidationResponse]
  exact .event (by split; exacts [hs, hs, hs])

theorem MemoryOk.peerAtomic {s addr code data} (hs : MemoryOk s) : MemoryOk (State.peerAtomic s addr code data) := by
  simp only [State.peerAtomic]
  exact .ite (by split; exacts [hs.poke, hs]) hs

theorem MemoryOk.execPeerWindowAccess {op addr data s} (hs : MemoryOk s) : StaysOk (execPeerWindowAccess op addr data s) := by
  simp only [Machine.execPeerWindowAccess]
  refine .event (.ite hs ?_)
  split
  · rename_i h
    exact hs.snoopFirst h
  · split
    · exact hs.tokenHome.llcTouch
    · exact hs.tokenHome.llcTouch.poke
    · exact hs.tokenHome.llcTouch.peerAtomic

theorem MemoryOk.execFlitReplay {link seq s} (hs : MemoryOk s) : StaysOk (execFlitReplay link seq s) := .event hs

theorem MemoryOk.execLinkRetrain {pair module ok s} (hs : MemoryOk s) : StaysOk (execLinkRetrain pair module ok s) :=
  .event (.ite hs (.ite hs (.ite (.foldl (.logError hs) fun ht => ht.endLaunch) (.logError hs))))

theorem MemoryOk.execHalhelFailover {link s} (hs : MemoryOk s) : StaysOk (execHalhelFailover link s) :=
  .event (.ite hs (.ite (.logError hs) hs))

theorem MemoryOk.execEccCorrected {cluster addr s} (hs : MemoryOk s) : StaysOk (execEccCorrected cluster addr s) :=
  .event (.ite (.logError hs) hs)

theorem MemoryOk.execEccUncorrected {addr s} (hs : MemoryOk s) : StaysOk (execEccUncorrected addr s) :=
  .event (.logError (.ite hs (.ite hs hs)))

theorem MemoryOk.execGovernorWindow {watts tj s} (hs : MemoryOk s) : StaysOk (execGovernorWindow watts tj s) :=
  .event (.ite hs (.ite hs hs))

theorem MemoryOk.execThermalThrottle {tj s} (hs : MemoryOk s) : StaysOk (execThermalThrottle tj s) := .event (.ite hs hs)

theorem MemoryOk.execThermalTrip {tj s} (hs : MemoryOk s) : StaysOk (execThermalTrip tj s) :=
  .event (.ite hs (.foldl hs fun ht => ht.endLaunch))

/-! ## LaneAccord -/

theorem MemoryOk.execRsvSeed {w s} (hs : MemoryOk s) : StaysOk (execRsvSeed w s) := hs.laneWave

theorem MemoryOk.execRsvUpd {w s} (hs : MemoryOk s) : StaysOk (execRsvUpd w s) := hs.laneWave

theorem MemoryOk.execRsvMrg {w s} (hs : MemoryOk s) : StaysOk (execRsvMrg w s) := hs.laneWave

theorem MemoryOk.execRsvFin {w s} (hs : MemoryOk s) : StaysOk (execRsvFin w s) := hs.laneWave

theorem MemoryOk.execRsvGet {w s} (hs : MemoryOk s) : StaysOk (execRsvGet w s) := hs.laneWave

theorem MemoryOk.execRsvDraw {w s} (hs : MemoryOk s) : StaysOk (execRsvDraw w s) := hs.laneWave

/-! ## LaneFloat -/

theorem MemoryOk.floatOp {i w f s} (hs : MemoryOk s) : StaysOk (floatOp i w f s) := hs.laneWave

theorem MemoryOk.flagOp {i w f s} (hs : MemoryOk s) : StaysOk (flagOp i w f s) := hs.laneWave

theorem MemoryOk.icmpOp {i w s} (hs : MemoryOk s) : StaysOk (icmpOp i w s) := hs.laneWave

theorem MemoryOk.fcmpOp {i w s} (hs : MemoryOk s) : StaysOk (fcmpOp i w s) := hs.laneWave

theorem MemoryOk.selOp {i w s} (hs : MemoryOk s) : StaysOk (selOp i w s) := hs.laneWave

theorem MemoryOk.predOp {i w f s} (hs : MemoryOk s) : StaysOk (predOp i w f s) := hs.laneWave

theorem MemoryOk.execFadd {w s} (hs : MemoryOk s) : StaysOk (execFadd w s) := hs.floatOp

theorem MemoryOk.execFaddLi {w s} (hs : MemoryOk s) : StaysOk (execFaddLi w s) := hs.floatOp

theorem MemoryOk.execFsub {w s} (hs : MemoryOk s) : StaysOk (execFsub w s) := hs.floatOp

theorem MemoryOk.execFsubLi {w s} (hs : MemoryOk s) : StaysOk (execFsubLi w s) := hs.floatOp

theorem MemoryOk.execFmul {w s} (hs : MemoryOk s) : StaysOk (execFmul w s) := hs.floatOp

theorem MemoryOk.execFmulLi {w s} (hs : MemoryOk s) : StaysOk (execFmulLi w s) := hs.floatOp

theorem MemoryOk.execFmin {w s} (hs : MemoryOk s) : StaysOk (execFmin w s) := hs.flagOp

theorem MemoryOk.execFminLi {w s} (hs : MemoryOk s) : StaysOk (execFminLi w s) := hs.flagOp

theorem MemoryOk.execFmax {w s} (hs : MemoryOk s) : StaysOk (execFmax w s) := hs.flagOp

theorem MemoryOk.execFmaxLi {w s} (hs : MemoryOk s) : StaysOk (execFmaxLi w s) := hs.flagOp

theorem MemoryOk.execFabs {w s} (hs : MemoryOk s) : StaysOk (execFabs w s) := hs.flagOp

theorem MemoryOk.execFneg {w s} (hs : MemoryOk s) : StaysOk (execFneg w s) := hs.flagOp

theorem MemoryOk.execFma {w s} (hs : MemoryOk s) : StaysOk (execFma w s) := hs.floatOp

theorem MemoryOk.execFms {w s} (hs : MemoryOk s) : StaysOk (execFms w s) := hs.floatOp

theorem MemoryOk.execFnma {w s} (hs : MemoryOk s) : StaysOk (execFnma w s) := hs.floatOp

theorem MemoryOk.execFdiv {w s} (hs : MemoryOk s) : StaysOk (execFdiv w s) := hs.floatOp

theorem MemoryOk.execFsqrt {w s} (hs : MemoryOk s) : StaysOk (execFsqrt w s) := hs.floatOp

theorem MemoryOk.execIcmp {w s} (hs : MemoryOk s) : StaysOk (execIcmp w s) := hs.icmpOp

theorem MemoryOk.execIcmpLi {w s} (hs : MemoryOk s) : StaysOk (execIcmpLi w s) := hs.icmpOp

theorem MemoryOk.execFcmp {w s} (hs : MemoryOk s) : StaysOk (execFcmp w s) := hs.fcmpOp

theorem MemoryOk.execFcmpLi {w s} (hs : MemoryOk s) : StaysOk (execFcmpLi w s) := hs.fcmpOp

theorem MemoryOk.execFclass {w s} (hs : MemoryOk s) : StaysOk (execFclass w s) := hs.flagOp

theorem MemoryOk.execSel {w s} (hs : MemoryOk s) : StaysOk (execSel w s) := hs.selOp

theorem MemoryOk.execSelLi {w s} (hs : MemoryOk s) : StaysOk (execSelLi w s) := hs.selOp

theorem MemoryOk.execPand {w s} (hs : MemoryOk s) : StaysOk (execPand w s) := hs.predOp

theorem MemoryOk.execPor {w s} (hs : MemoryOk s) : StaysOk (execPor w s) := hs.predOp

theorem MemoryOk.execPxor {w s} (hs : MemoryOk s) : StaysOk (execPxor w s) := hs.predOp

theorem MemoryOk.execPnot {w s} (hs : MemoryOk s) : StaysOk (execPnot w s) := hs.predOp

theorem MemoryOk.execPmov {w s} (hs : MemoryOk s) : StaysOk (execPmov w s) := hs.predOp

/-! ## LaneInt -/

theorem MemoryOk.elemOp {i w f s} (hs : MemoryOk s) : StaysOk (elemOp i w f s) := hs.laneWave

theorem MemoryOk.intOp {i w f s} (hs : MemoryOk s) : StaysOk (intOp i w f s) := hs.elemOp

theorem MemoryOk.bvOp {i w f s} (hs : MemoryOk s) : StaysOk (bvOp i w f s) := hs.elemOp

theorem MemoryOk.shiftOp {i w f s} (hs : MemoryOk s) : StaysOk (shiftOp i w f s) := hs.bvOp

theorem MemoryOk.execLaneAdd {w s} (hs : MemoryOk s) : StaysOk (execLaneAdd w s) := hs.intOp

theorem MemoryOk.execAddLi {w s} (hs : MemoryOk s) : StaysOk (execAddLi w s) := hs.intOp

theorem MemoryOk.execLaneSub {w s} (hs : MemoryOk s) : StaysOk (execLaneSub w s) := hs.intOp

theorem MemoryOk.execSubLi {w s} (hs : MemoryOk s) : StaysOk (execSubLi w s) := hs.intOp

theorem MemoryOk.execLaneMul {w s} (hs : MemoryOk s) : StaysOk (execLaneMul w s) := hs.intOp

theorem MemoryOk.execMulLi {w s} (hs : MemoryOk s) : StaysOk (execMulLi w s) := hs.intOp

theorem MemoryOk.execMulhi {w s} (hs : MemoryOk s) : StaysOk (execMulhi w s) := hs.elemOp

theorem MemoryOk.execMulhiLi {w s} (hs : MemoryOk s) : StaysOk (execMulhiLi w s) := hs.elemOp

theorem MemoryOk.execLaneMin {w s} (hs : MemoryOk s) : StaysOk (execLaneMin w s) := hs.intOp

theorem MemoryOk.execMinLi {w s} (hs : MemoryOk s) : StaysOk (execMinLi w s) := hs.intOp

theorem MemoryOk.execLaneMax {w s} (hs : MemoryOk s) : StaysOk (execLaneMax w s) := hs.intOp

theorem MemoryOk.execMaxLi {w s} (hs : MemoryOk s) : StaysOk (execMaxLi w s) := hs.intOp

theorem MemoryOk.execLaneAbs {w s} (hs : MemoryOk s) : StaysOk (execLaneAbs w s) := hs.intOp

theorem MemoryOk.execLaneNeg {w s} (hs : MemoryOk s) : StaysOk (execLaneNeg w s) := hs.intOp

theorem MemoryOk.execImad {w s} (hs : MemoryOk s) : StaysOk (execImad w s) := hs.elemOp

theorem MemoryOk.execLaneAnd {w s} (hs : MemoryOk s) : StaysOk (execLaneAnd w s) := hs.bvOp

theorem MemoryOk.execAndLi {w s} (hs : MemoryOk s) : StaysOk (execAndLi w s) := hs.bvOp

theorem MemoryOk.execLaneOr {w s} (hs : MemoryOk s) : StaysOk (execLaneOr w s) := hs.bvOp

theorem MemoryOk.execOrLi {w s} (hs : MemoryOk s) : StaysOk (execOrLi w s) := hs.bvOp

theorem MemoryOk.execLaneXor {w s} (hs : MemoryOk s) : StaysOk (execLaneXor w s) := hs.bvOp

theorem MemoryOk.execXorLi {w s} (hs : MemoryOk s) : StaysOk (execXorLi w s) := hs.bvOp

theorem MemoryOk.execLaneNot {w s} (hs : MemoryOk s) : StaysOk (execLaneNot w s) := hs.bvOp

theorem MemoryOk.execAndn {w s} (hs : MemoryOk s) : StaysOk (execAndn w s) := hs.bvOp

theorem MemoryOk.execAndnLi {w s} (hs : MemoryOk s) : StaysOk (execAndnLi w s) := hs.bvOp

theorem MemoryOk.execShl {w s} (hs : MemoryOk s) : StaysOk (execShl w s) := hs.shiftOp

theorem MemoryOk.execShlLi {w s} (hs : MemoryOk s) : StaysOk (execShlLi w s) := hs.shiftOp

theorem MemoryOk.execShr {w s} (hs : MemoryOk s) : StaysOk (execShr w s) := hs.shiftOp

theorem MemoryOk.execShrLi {w s} (hs : MemoryOk s) : StaysOk (execShrLi w s) := hs.shiftOp

theorem MemoryOk.execSha {w s} (hs : MemoryOk s) : StaysOk (execSha w s) := hs.shiftOp

theorem MemoryOk.execShaLi {w s} (hs : MemoryOk s) : StaysOk (execShaLi w s) := hs.shiftOp

theorem MemoryOk.execRol {w s} (hs : MemoryOk s) : StaysOk (execRol w s) := hs.shiftOp

theorem MemoryOk.execRolLi {w s} (hs : MemoryOk s) : StaysOk (execRolLi w s) := hs.shiftOp

theorem MemoryOk.execRor {w s} (hs : MemoryOk s) : StaysOk (execRor w s) := hs.shiftOp

theorem MemoryOk.execRorLi {w s} (hs : MemoryOk s) : StaysOk (execRorLi w s) := hs.shiftOp

theorem MemoryOk.execPopc {w s} (hs : MemoryOk s) : StaysOk (execPopc w s) := hs.elemOp

theorem MemoryOk.execClz {w s} (hs : MemoryOk s) : StaysOk (execClz w s) := hs.elemOp

theorem MemoryOk.execCtz {w s} (hs : MemoryOk s) : StaysOk (execCtz w s) := hs.elemOp

theorem MemoryOk.execBrev {w s} (hs : MemoryOk s) : StaysOk (execBrev w s) := hs.bvOp

theorem MemoryOk.execBfx {w s} (hs : MemoryOk s) : StaysOk (execBfx w s) := hs.elemOp

theorem MemoryOk.execBfi {w s} (hs : MemoryOk s) : StaysOk (execBfi w s) := hs.elemOp

/-! ## LaneMove -/

theorem MemoryOk.exchange {i w src s} (hs : MemoryOk s) : StaysOk (exchange i w src s) := hs.laneWave

theorem MemoryOk.voteOp {i w f s} (hs : MemoryOk s) : StaysOk (voteOp i w f s) := hs.laneWave

theorem MemoryOk.moveOp {i w wide f s} (hs : MemoryOk s) : StaysOk (moveOp i w wide f s) := hs.laneWave

theorem MemoryOk.execShflIdx {w s} (hs : MemoryOk s) : StaysOk (execShflIdx w s) := hs.exchange

theorem MemoryOk.execShflXor {w s} (hs : MemoryOk s) : StaysOk (execShflXor w s) := hs.exchange

theorem MemoryOk.execShflUp {w s} (hs : MemoryOk s) : StaysOk (execShflUp w s) := hs.exchange

theorem MemoryOk.execShflDn {w s} (hs : MemoryOk s) : StaysOk (execShflDn w s) := hs.exchange

theorem MemoryOk.execBcst {w s} (hs : MemoryOk s) : StaysOk (execBcst w s) := hs.exchange

theorem MemoryOk.execVoteAny {w s} (hs : MemoryOk s) : StaysOk (execVoteAny w s) := hs.voteOp

theorem MemoryOk.execVoteAll {w s} (hs : MemoryOk s) : StaysOk (execVoteAll w s) := hs.voteOp

theorem MemoryOk.execVoteMask {w s} (hs : MemoryOk s) : StaysOk (execVoteMask w s) := hs.moveOp

theorem MemoryOk.execReduce {w s} (hs : MemoryOk s) : StaysOk (execReduce w s) := hs.laneWave

theorem MemoryOk.execScan {w s} (hs : MemoryOk s) : StaysOk (execScan w s) := hs.laneWave

theorem MemoryOk.execMov {w s} (hs : MemoryOk s) : StaysOk (execMov w s) := hs.moveOp

theorem MemoryOk.execMovu {w s} (hs : MemoryOk s) : StaysOk (execMovu w s) := hs.moveOp

theorem MemoryOk.execMovx {w s} (hs : MemoryOk s) : StaysOk (execMovx w s) := hs.moveOp

theorem MemoryOk.execMovi {w s} (hs : MemoryOk s) : StaysOk (execMovi w s) := hs.moveOp

theorem MemoryOk.execLfmRd {w s} (hs : MemoryOk s) : StaysOk (execLfmRd w s) := hs.moveOp

theorem MemoryOk.execLfmWr {w s} (hs : MemoryOk s) : StaysOk (execLfmWr w s) := hs.laneWave

/-! ## Loader -/

theorem MemoryOk.relocateAll {s rpa vbase offs l} (hs : MemoryOk s) : MemoryOk (State.relocateAll s rpa vbase offs l) := by
  induction l generalizing s with
  | nil => exact hs
  | cons _ _ ih => exact ih hs.poke

theorem MemoryOk.writeSections {s rpa bs l} (hs : MemoryOk s) : MemoryOk (State.writeSections s rpa bs l) := by
  induction l generalizing s with
  | nil => exact hs
  | cons _ _ ih => exact ih hs.poke

theorem MemoryOk.endLoad {s result image} (hs : MemoryOk s) : MemoryOk (State.endLoad s result image) := hs

theorem MemoryOk.loadImage {s r} (hs : MemoryOk s) : MemoryOk (State.loadImage s r) := by
  unfold State.loadImage
  extract_lets img bs reason ds offs size rpa vbase n homed written
  have hh : MemoryOk homed := hs.homeRange
  have hw : MemoryOk written := hh.writeSections.relocateAll
  exact .ite hs.endLoad (.ite hs.endLoad (.endLoad hw))

theorem MemoryOk.execImageLoad {s} (hs : MemoryOk s) : StaysOk (execImageLoad s) :=
  .event (.ite hs (.ite hs (.ite hs hs.loadImage)))

theorem MemoryOk.execImageUnload {s} (hs : MemoryOk s) : StaysOk (execImageUnload s) := by
  simp only [Machine.execImageUnload]
  exact .event (.ite hs (.ite hs (by split; exacts [.ite hs hs, hs])))

theorem MemoryOk.wipeDram {s} (hs : MemoryOk s) : MemoryOk (State.wipeDram s) := Memory.wf_clear _ _ _ hs

theorem MemoryOk.applyConfig {s rec'} (hs : MemoryOk s) : MemoryOk (State.applyConfig s rec') :=
  .ite (.poke hs.wipeDram) (.setHart (.poke hs.wipeDram))

theorem MemoryOk.execBringUp {s} (hs : MemoryOk s) : StaysOk (execBringUp s) := .event (.ite hs (.ite hs (.applyConfig hs)))

theorem MemoryOk.execAttestation {nonce s} (hs : MemoryOk s) : StaysOk (execAttestation nonce s) := .event (.ite hs hs)

/-! ## Matrix -/

theorem Keeps.rowCheck {c row} : Keeps (rowCheck c row) := .get fun _ _ => .ite .failLane .pure

theorem Keeps.writeEach {cluster ks} : Keeps (writeEach cluster ks) := by
  induction ks with
  | nil => exact .pure
  | cons _ _ ih => exact .bind .writeAcc fun _ => ih

theorem Keeps.writeAccs {cluster ks} : Keeps (writeAccs cluster ks) := .bind .writeEach fun _ => .modify fun _ hs => hs

theorem MemoryOk.execKrd {w s} (hs : MemoryOk s) : StaysOk (execKrd w s) :=
  hs.laneInstr (fun _ => .pure) fun _ => .bind .rowCheck fun _ => .bind .peakCheck fun _ => .get fun _ _ =>
  .ite .failLaneThen (.bind (.forLanes fun _ => .bind .readAcc fun _ => .pure) fun _ => .bind .modWave fun _ => .completed)

theorem MemoryOk.execKwr {w s} (hs : MemoryOk s) : StaysOk (execKwr w s) :=
  hs.laneInstr (fun _ => .pure) fun _ => .bind .rowCheck fun _ => .get fun _ _ => .bind .writeAccs fun _ => .completed

theorem MemoryOk.execAccZero {w s} (hs : MemoryOk s) : StaysOk (execAccZero w s) :=
  hs.laneInstr (fun _ => .pure) fun _ => .get fun _ _ =>
  .ite .failLaneThen (.get fun _ _ => .when .writeAccs fun _ => .completed)

theorem MemoryOk.setRing {s r i x} (hs : MemoryOk s) : MemoryOk (State.setRing s r i x) := hs

theorem MemoryOk.execRingAdv {w s} (hs : MemoryOk s) : StaysOk (execRingAdv w s) := by
  simp only [Machine.execRingAdv]
  refine hs.laneInstr (fun _ => .pure) fun _ => .get fun _ _ => ?_
  split
  · exact .failLane
  · exact .ite .failLaneThen
        (.ite (.bind .drainM fun _ => .bind (.modify fun _ hu => hu.releaseUnit.setRing) fun _ => .completed) .completed)

theorem MemoryOk.execRingWait {w s} (hs : MemoryOk s) : StaysOk (execRingWait w s) := by
  simp only [Machine.execRingWait]
  refine hs.laneInstr (fun _ => .pure) fun _ => .get fun _ _ => ?_
  split
  · exact .failLane
  · exact .ite .failLaneThen (.bind .peakCheck fun _ => .ite .throwThen (.bind .modWave fun _ => .completed))

theorem MemoryOk.queueCmd {s cluster entry r cls macs op} (hs : MemoryOk s) :
    MemoryOk (State.queueCmd s cluster entry r cls macs op) :=
  hs

theorem Keeps.mldM {c} : Keeps (mldM c) := by
  simp only [Machine.mldM]
  refine .get fun _ _ => ?_
  split
  · exact .failLane
  · refine .ite .failLaneThen (.ite .failLaneThen (.ite .failLaneThen (.ite .completed (.bind .drainM fun _ => ?_))))
    split
    · exact .throw
    · exact .bind (.modify fun _ ht => ht.releaseUnit.queueCmd) fun _ => .completedBy

theorem Keeps.mldReady {c} : Keeps (mldReady c) := by
  simp only [Machine.mldReady]
  exact .get fun _ _ => by split; exacts [.ite .throw .pure, .pure]

theorem MemoryOk.execMld {w s} (hs : MemoryOk s) : StaysOk (execMld w s) := hs.laneInstr (fun _ => .mldReady) fun _ => .mldM

theorem MemoryOk.setCmd {s cluster n f} (hs : MemoryOk s) : MemoryOk (State.setCmd s cluster n f) := hs

theorem MemoryOk.execMldStart {cluster n s} (hs : MemoryOk s) : StaysOk (execMldStart cluster n s) := by
  simp only [Machine.execMldStart]
  exact .event (by split; exacts [.ite hs hs, hs])

theorem Keeps.readTile {acc va n fuel} : Keeps (readTile acc va n fuel) := by
  induction fuel generalizing va n with
  | zero => exact .pure
  | succ _ ih => exact .ite .pure (.bind .vread fun _ => .bind ih fun _ => .pure)

theorem MemoryOk.addAnom {s r n} (hs : MemoryOk s) : MemoryOk (State.addAnom s r n) := .ite hs hs

theorem MemoryOk.endCmd {s cluster n} (hs : MemoryOk s) : MemoryOk (State.endCmd s cluster n) := hs

theorem MemoryOk.mldComplete {cluster x form src ns dptb s} (hs : MemoryOk s) :
    MemoryOk (mldComplete cluster x form src ns dptb s) := by
  unfold Machine.mldComplete
  extract_lets cols size acc read
  have hr : Keeps read := .bind .readTile fun _ => .ite (.bind .pure fun _ => .pure) (.bind .readTile fun _ => .pure)
  split
  · next t h =>
    extract_lets m mac poked loaded logged
    have hl : MemoryOk loaded := ((hr.ok h hs).poke.poke).modMatrix
    exact .endCmd (.ite hl.addAnom hl)
  · exact (hr.error ‹_› hs).setCmd
  · exact hr.error ‹_› hs

theorem MemoryOk.execMldComplete {cluster n s} (hs : MemoryOk s) : StaysOk (execMldComplete cluster n s) := by
  simp only [Machine.execMldComplete]
  refine .event ?_
  split
  · split
    · exact .ite hs.mldComplete hs
    · exact hs
  · exact hs

theorem Keeps.mmaM {c} : Keeps (mmaM c) := by
  simp only [Machine.mmaM]
  refine .get fun _ _ => ?_
  split
  · exact .failLane
  · split
    · split
      · exact .bind (.modify fun _ ht => ht) fun _ => .completedBy
      · exact .when (.modify fun _ ht => ht) fun _ => .failLane
    · exact .ite .throwThen (.ite .failLaneThen (.bind (.modify fun _ ht => ht) fun _ => .throw))

theorem MemoryOk.execMmaG {w s} (hs : MemoryOk s) : StaysOk (execMmaG w s) := hs.laneInstr (fun _ => .pure) fun _ => .mmaM

theorem MemoryOk.settleMma {s r as' refused cmd} (hs : MemoryOk s) : MemoryOk (State.settleMma s r as' refused cmd) := hs

theorem MemoryOk.releaseWaves {s ks} (hs : MemoryOk s) : MemoryOk (State.releaseWaves s ks) := by
  induction ks generalizing s with
  | nil => exact hs
  | cons _ _ ih => exact ih hs.releaseUnit

theorem MemoryOk.latch {s r c} (hs : MemoryOk s) : MemoryOk (State.latch s r c) := by
  simp only [State.latch]
  refine .ite hs (.ite (.ite hs hs) (.ite hs ?_))
  split
  · exact hs
  · exact .ite hs (by split; exacts [hs, hs.releaseWaves.queueCmd.settleMma])

theorem MemoryOk.execMmaLatch {crew s} (hs : MemoryOk s) : StaysOk (execMmaLatch crew s) := by
  simp only [Machine.execMmaLatch]
  exact .event (by split; exacts [hs.latch, hs])

theorem MemoryOk.freeStat {s r n} (hs : MemoryOk s) : MemoryOk (State.freeStat s r n) := hs

theorem MemoryOk.mmaRun {s x c fmt members} (hs : MemoryOk s) : MemoryOk (mmaRun s x c fmt members) := by
  unfold Machine.mmaRun
  extract_lets r mc ring off s m run size outs
  have hs : MemoryOk s := .ite hs.modMatrix hs
  split
  · exact hs.setCmd
  · split
    · exact .setCmd hs
    · rename_i bases good rowBytes ring' _ _ _
      clear_value good
      cases good
      · exact .setCmd (.setRing hs.freeStat)
      · exact .setCmd (.setRing hs.addAnom)

theorem MemoryOk.execMmaStart {cluster s} (hs : MemoryOk s) : StaysOk (execMmaStart cluster s) := by
  simp only [Machine.execMmaStart]
  refine .event ?_
  split
  · split
    · exact .ite hs hs.mmaRun
    · exact hs
  · exact hs

theorem MemoryOk.writeOuts {s os flags} (hs : MemoryOk s) : MemoryOk (State.writeOuts s os flags).1 := by
  induction os generalizing s flags with
  | nil => exact hs
  | cons _ _ ih => exact ih hs.poke

theorem MemoryOk.execMmaComplete {cluster s} (hs : MemoryOk s) : StaysOk (execMmaComplete cluster s) := by
  refine .event ?_
  split
  · exact hs.writeOuts.setMatCrew.endCmd
  · exact hs

theorem MemoryOk.execMatrixKilled {cluster crew code addr s} (hs : MemoryOk s) :
    StaysOk (execMatrixKilled cluster crew code addr s) := by
  simp only [Machine.execMatrixKilled]
  exact .event (by split; exacts [hs.killCrew, hs])

theorem MemoryOk.matWrite {s cluster a v} (hs : MemoryOk s) : MemoryOk (State.matWrite s cluster a v) := by
  simp only [State.matWrite]
  refine .ite hs ?_
  split
  · rename_i h
    exact .writeMatrix (Keeps.ok .matGuard h hs)
  · rename_i h
    exact .endKick (Keeps.error .matGuard h hs)
  · rename_i h
    exact Keeps.error .matGuard h hs

theorem MemoryOk.execDmgangWrite {cluster v s} (hs : MemoryOk s) : StaysOk (execDmgangWrite cluster v s) := .event hs.matWrite

theorem MemoryOk.execDmringWrite {cluster ring v s} (hs : MemoryOk s) : StaysOk (execDmringWrite cluster ring v s) :=
  .event (.ite hs.matWrite hs)

/-! ## Message -/

theorem MemoryOk.execMessageDepart {queue n s} (hs : MemoryOk s) : StaysOk (execMessageDepart queue n s) := by
  simp only [Machine.execMessageDepart]
  refine .event ?_
  split
  · exact .ite hs (by split; exacts [hs.setSendq, hs.setSendq, hs])
  · exact hs

theorem MemoryOk.freeHeld {s m} (hs : MemoryOk s) : MemoryOk (State.freeHeld s m) := .ite hs.setSendq hs

theorem MemoryOk.dropMsg {s m} (hs : MemoryOk s) : MemoryOk (State.dropMsg s m) := hs.freeHeld.logError

theorem MemoryOk.deliverMsg {s m ctx} (hs : MemoryOk s) : MemoryOk (State.deliverMsg s m ctx) :=
  .ite (.ite hs.dropMsg hs.setHart) (.ite hs.setHart (.ite hs.setHart hs.setHart))

theorem MemoryOk.arrive {s m} (hs : MemoryOk s) : MemoryOk (State.arrive s m) := by
  simp only [State.arrive]
  refine .ite hs.freeHeld ?_
  split
  · exact hs.deliverMsg
  · exact .ite hs.dropMsg (by split; exacts [.ite hs hs.deliverMsg, .ite hs.dropMsg hs])

theorem MemoryOk.execMessageArrival {n s} (hs : MemoryOk s) : StaysOk (execMessageArrival n s) := by
  simp only [Machine.execMessageArrival]
  exact .event (by split; exacts [.ite hs (.arrive hs), hs])

theorem MemoryOk.execHeldMessageDelivery {crew s} (hs : MemoryOk s) : StaysOk (execHeldMessageDelivery crew s) := by
  simp only [Machine.execHeldMessageDelivery]
  refine .event ?_
  split
  · split
    · split
      · exact .deliverMsg hs
      · exact hs
    · exact hs
  · exact hs

theorem Keeps.freeFive : Keeps freeFive :=
  .bind .freeDwordM fun _ => .bind .freeDwordM fun _ => .bind .freeDwordM fun _ => .bind .freeDwordM fun _ =>
  .bind .freeDwordM fun _ => .pure

theorem MemoryOk.execHandlerStart {strand s} (hs : MemoryOk s) : StaysOk (execHandlerStart strand s) := by
  simp only [Machine.execHandlerStart]
  refine .event ?_
  split
  · exact hs
  · exact .ite hs.setHart.dropMsg
        (.ite hs (hs.runM (.bind .freeFive fun _ => .modify fun _ ht => ht.setHart.freeHeld.poke)))

theorem MemoryOk.recordDeferred {s o e} (hs : MemoryOk s) : MemoryOk (State.recordDeferred s o e) := by
  simp only [State.recordDeferred]
  split
  · exact .ite hs.logDeferred hs
  · exact hs.logDeferred

theorem MemoryOk.stqSignal {s o} (hs : MemoryOk s) : MemoryOk (State.stqSignal s o) := by
  simp only [State.stqSignal]
  refine .ite hs ?_
  split
  · split
    · rename_i h
      exact hs.signalSem h
    · exact hs.recordDeferred
  · exact hs

theorem Keeps.stqWork {o} : Keeps (stqWork o) :=
  .bind .resolve fun _ =>
  .ite
    (.bind .resolve fun _ => .get fun _ _ =>
      .ite .throwThen
        (.bind .gateSegs fun _ => .bind .writeSegs fun _ => .bind (.modify fun _ ht => ht.releaseUnit) fun _ =>
          .bind .spawnM fun _ => .modify fun _ ht => ht.stqSignal))
    (.get fun _ _ =>
      .ite .throwThen
        (.bind .gateSegs fun _ => .bind .writeSegs fun _ => .bind (.modify fun _ ht => ht.releaseUnit) fun _ =>
          .bind .spawnM fun _ => .modify fun _ ht => ht.stqSignal))

theorem MemoryOk.execStqTarget {n s} (hs : MemoryOk s) : StaysOk (execStqTarget n s) := by
  simp only [Machine.execStqTarget]
  refine .event ?_
  split
  · split
    · rename_i h
      exact Keeps.ok .stqWork h hs
    · rename_i h
      exact .recordDeferred (Keeps.error .stqWork h hs)
    · exact hs
  · exact hs

/-! ## Start -/

theorem Keeps.copyBufs {k acc l} : Keeps (copyBufs k acc l) := by
  induction l with
  | nil => exact .pure
  | cons _ _ ih => exact .bind .vread fun _ => .bind (.modify fun _ hs => hs) fun _ => ih

theorem MemoryOk.readBufs {s k} (hs : MemoryOk s) : MemoryOk (State.readBufs s k) := by
  simp only [State.readBufs]
  split
  · rename_i h
    exact .setWave (Keeps.ok .copyBufs h hs)
  · rename_i h
    exact .trapUniform (Keeps.error .copyBufs h hs)
  · exact hs

theorem MemoryOk.execWaveStart {crew rank s} (hs : MemoryOk s) : StaysOk (execWaveStart crew rank s) := by
  simp only [Machine.execWaveStart]
  refine .event ?_
  split
  · split
    · exact .ite hs (by split; exacts [.readBufs hs, hs])
    · exact hs
  · exact hs

theorem MemoryOk.execFrontEndStrandStart {crew rank s} (hs : MemoryOk s) : StaysOk (execFrontEndStrandStart crew rank s) := by
  simp only [Machine.execFrontEndStrandStart]
  refine .event ?_
  split
  · split
    · exact .ite hs (by split; exacts [.setHart hs, hs])
    · exact hs
  · exact hs

theorem Keeps.takeBlock {h ref frame} : Keeps (takeBlock h ref frame) := by
  simp only [Machine.takeBlock]
  exact .get fun _ _ => .bind .vread fun _ => by split; exacts [.bind (.modify fun _ ht => ht.freeBlock) fun _ => .pure, .pure]

theorem Keeps.startStrand {k q} : Keeps (startStrand k q) := by
  refine .get fun _ _ => ?_
  extract_lets h crew l rank dcrew start
  have hstart : ∀ sp, Keeps (start sp) := by
    intro sp
    unfold start
    extract_lets x h set
    have hset : ∀ regs, Keeps (set regs) := by
      refine fun _ => .modify fun s hs => .deliverGfx (.setHart ?_)
      split
      · exact .ite hs hs
      · exact hs
    exact .ite (.bind .takeBlock fun _ => .bind .pure hset) (.bind .pure hset)
  clear_value l crew
  split
  · refine .ite (.bind .pure hstart) ?_
    split
    · exact .bind .pure hstart
    · exact .bind .freeDwordM hstart
  · exact .bind .freeDwordM hstart

theorem MemoryOk.startWaveCont {s k q c l} (hs : MemoryOk s) : MemoryOk (State.startWaveCont s k q c l) :=
  .readBufs (.deliverGfx hs)

theorem MemoryOk.execContinuationPop {cluster slot s} (hs : MemoryOk s) : StaysOk (execContinuationPop cluster slot s) := by
  simp only [Machine.execContinuationPop]
  refine .event ?_
  split
  · refine .ite hs ?_
    split
    · split
      · rename_i h
        exact Keeps.ok .startStrand h hs
      · exact hs
    · exact hs
  · refine .ite hs ?_
    split
    · split
      · exact .startWaveCont hs
      · exact hs
    · exact hs

theorem MemoryOk.execAtomiserArrival {cluster s} (hs : MemoryOk s) : StaysOk (execAtomiserArrival cluster s) := by
  simp only [Machine.execAtomiserArrival]
  exact .event (by split; exacts [hs, .ite hs (.ite hs hs)])

theorem MemoryOk.execGatherWindowExpiry {cluster s} (hs : MemoryOk s) : StaysOk (execGatherWindowExpiry cluster s) := .event hs

theorem Keeps.laneStart {k q} : Keeps (laneStart k q) := .ite (.bind .takeBlock fun _ => .pure) .pure

theorem Keeps.laneStarts {k qs} : Keeps (laneStarts k qs) := by
  induction qs with
  | nil => exact .pure
  | cons _ _ ih => exact .bind .laneStart fun _ => .bind ih fun _ => .pure

theorem MemoryOk.deliverAll {s qs} (hs : MemoryOk s) : MemoryOk (deliverAll s qs) := by
  induction qs generalizing s with
  | nil => exact hs
  | cons _ _ ih => exact ih hs.deliverGfx

theorem Keeps.formWave {k ref c l g} : Keeps (formWave k ref c l g) :=
  .bind .laneStarts fun _ => .modify fun _ hs => .readBufs (.deliverAll hs)

theorem MemoryOk.execAtomiserWaveForm {cluster n s} (hs : MemoryOk s) : StaysOk (execAtomiserWaveForm cluster n s) := by
  simp only [Machine.execAtomiserWaveForm]
  refine .event ?_
  split
  · refine .ite hs ?_
    split
    · split
      · split
        · split
          · rename_i h
            exact Keeps.ok .formWave h hs
          · exact hs
        · exact hs
      · exact hs
    · exact hs
  · exact hs

theorem MemoryOk.execMigrationBlockGrant {crew s} (hs : MemoryOk s) : StaysOk (execMigrationBlockGrant crew s) := by
  simp only [Machine.execMigrationBlockGrant]
  refine .event ?_
  split
  · split
    · exact .ite hs hs
    · exact hs
  · exact hs

theorem MemoryOk.execFragmentAgeLimit {wave s} (hs : MemoryOk s) : StaysOk (execFragmentAgeLimit wave s) := by
  simp only [Machine.execFragmentAgeLimit]
  exact .event (by split; exacts [.ite hs hs, hs])

theorem MemoryOk.execGtoAgeingLimit {engine s} (hs : MemoryOk s) : StaysOk (execGtoAgeingLimit engine s) := .event (.ite hs hs)

theorem MemoryOk.launchOver {s n} (hs : MemoryOk s) : MemoryOk (State.launchOver s n) := by
  simp only [State.launchOver]
  split
  · exact .ite hs.closeLaunch hs
  · exact hs

theorem MemoryOk.countCrew {s n linear} (hs : MemoryOk s) : MemoryOk (State.countCrew s n linear) := by
  simp only [State.countCrew]
  split
  · exact .launchOver hs
  · exact hs

theorem MemoryOk.execCrewEnd {crew s} (hs : MemoryOk s) : StaysOk (execCrewEnd crew s) := by
  simp only [Machine.execCrewEnd]
  refine .event ?_
  split
  · refine .ite hs ?_
    split
    · rename_i h
      exact .countCrew (Keeps.ok .joinSub h hs.lapseDeferred.releaseCrew.endRequest)
    · rename_i h
      exact .endLaunch (.countCrew (Keeps.error .joinSub h hs.lapseDeferred.releaseCrew.endRequest))
    · rename_i h
      exact hs
  · exact hs

/-! ## Preempt -/

theorem MemoryOk.execInterruptTake {h s} (hs : MemoryOk s) : StaysOk (execInterruptTake h s) := by
  simp only [Machine.execInterruptTake]
  exact .event (by split; exacts [hs.takeInterrupt, hs])

theorem MemoryOk.execTimerCompare {h s} (hs : MemoryOk s) : StaysOk (execTimerCompare h s) := .event (.ite hs.setHart hs)

theorem MemoryOk.execLaneHandlerRun {wave offset s} (hs : MemoryOk s) : StaysOk (execLaneHandlerRun wave offset s) :=
  .event (.ite hs hs)

theorem MemoryOk.execPreemptRequest {cluster v s} (hs : MemoryOk s) : StaysOk (execPreemptRequest cluster v s) :=
  .event hs.writePreempt

theorem MemoryOk.execPreemptDeadline {cluster s} (hs : MemoryOk s) : StaysOk (execPreemptDeadline cluster s) := by
  simp only [Machine.execPreemptDeadline]
  exact .event (.ite (.writeSaveState (.setCluster (by split; exacts [hs.killCrew, hs]))) hs)

theorem MemoryOk.execCrewKill {crew code s} (hs : MemoryOk s) : StaysOk (execCrewKill crew code s) := by
  simp only [Machine.execCrewKill]
  exact .event (by split; exacts [.ite hs.killCrew hs, hs])

theorem wf_foldl_set {α : Type} {key : α → Nat} {val : α → Byte} {l : List α} {m : List Host.Cell} (hm : Memory.wf m = true) :
    Memory.wf (l.foldl (fun m c => Memory.set m (key c) (val c)) m) = true := by
  induction l generalizing m with
  | nil => exact hm
  | cons _ _ ih => exact ih (Memory.wf_set _ _ _ hm)

theorem MemoryOk.moveRange {s src dst len} (hs : MemoryOk s) : MemoryOk (State.moveRange s src dst len) :=
  wf_foldl_set hs.zero

theorem MemoryOk.packRanges {s l dst} (hs : MemoryOk s) : MemoryOk (State.packRanges s l dst) := by
  induction l generalizing s dst with
  | nil => exact hs
  | cons _ _ ih => exact ih hs.moveRange

theorem MemoryOk.unpackRanges {s l ns src} (hs : MemoryOk s) : MemoryOk (State.unpackRanges s l ns src) := by
  induction l generalizing s ns src with
  | nil => exact hs
  | cons _ _ ih =>
    cases ns
    · exact hs
    · exact ih hs.moveRange

theorem MemoryOk.pokeFree {s pa n} (hs : MemoryOk s) : MemoryOk (State.pokeFree s pa n) := .poke hs

theorem MemoryOk.writeWaves {s pa l} (hs : MemoryOk s) : MemoryOk (State.writeWaves s pa l) := by
  induction l generalizing s pa with
  | nil => exact hs
  | cons _ _ ih => exact ih hs.poke.pokeFree.poke

theorem MemoryOk.writeStrands {s pa l} (hs : MemoryOk s) : MemoryOk (State.writeStrands s pa l) := by
  induction l generalizing s pa with
  | nil => exact hs
  | cons _ _ ih =>
    apply ih
    exact hs.poke.pokeFree

theorem MemoryOk.writeArea {s area x} (hs : MemoryOk s) : MemoryOk (State.writeArea s area x) :=
  .pokeFree
    (.pokeFree
        (.packRanges
            (.poke (.writeStrands (.writeWaves (.pokeFree (.pokeFree (.poke (.poke (.pokeFree (.poke (.homeRange hs))))))))))))

theorem MemoryOk.forgetInvals {s ref} (hs : MemoryOk s) : MemoryOk (State.forgetInvals s ref) := hs

theorem MemoryOk.execCrewSave {crew s} (hs : MemoryOk s) : StaysOk (execCrewSave crew s) := by
  refine .event ?_
  split
  · rename_i ref c _
    extract_lets k x written stopped marked k
    have hw : MemoryOk ((written.forgetInvals ref).stopCrew ref c) :=
      MemoryOk.stopCrew (s := written.forgetInvals ref) hs.writeArea
    have ht : MemoryOk stopped := hw.releaseCrew
    clear_value stopped
    have hm : MemoryOk marked := ht
    exact .ite hs (MemoryOk.setCluster hm).writeSaveState
  · exact hs

theorem MemoryOk.execResume {v s} (hs : MemoryOk s) : StaysOk (execResume v s) := by
  simp only [Machine.execResume]
  refine .event (.ite (.logError hs) ?_)
  split
  · split
    · exact .ite hs (.ite hs hs)
    · exact .logError hs
  · exact .logError hs

theorem MemoryOk.resumeWaves {s cluster c ref dcrew l} (hs : MemoryOk s) :
    MemoryOk (State.resumeWaves s cluster c ref dcrew l) := by
  induction l generalizing s with
  | nil => exact hs
  | cons _ _ ih => exact ih hs

theorem MemoryOk.resumeStrands {s c ref dcrew l} (hs : MemoryOk s) : MemoryOk (State.resumeStrands s c ref dcrew l) := by
  induction l generalizing s with
  | nil => exact hs
  | cons _ _ ih => exact ih hs.setHart

theorem MemoryOk.renameCrew {s old new dcrew} (hs : MemoryOk s) : MemoryOk (State.renameCrew s old new dcrew) := hs

theorem MemoryOk.restore {s c r l f area x} (hs : MemoryOk s) : MemoryOk (State.restore s c r l f area x) := by
  unfold State.restore
  extract_lets gen ref _ y dcrew lens k placed cleared unpacked resumed k renamed queued k gathered banked
  have hr : MemoryOk resumed := (MemoryOk.unpackRanges hs.setCluster.clearWindow.setCrew).resumeWaves.resumeStrands
  have hq : MemoryOk queued := .foldl (MemoryOk.setCluster hr.renameCrew) fun ht => ht.pushCont
  have hb : MemoryOk banked := by
    have hg : MemoryOk gathered := hq.setCluster
    unfold banked
    split
    · exact hg.zeroBanks.modMatrix
    · exact hg
  exact wf_foldl_set hb

theorem MemoryOk.execCrewAdmit {cluster cls s} (hs : MemoryOk s) : StaysOk (execCrewAdmit cluster cls s) := by
  simp only [Machine.execCrewAdmit]
  refine .event (.ite hs ?_)
  split
  · refine .ite (.endLaunch hs) ?_
    split
    · exact .admitCrew hs
    · split
      · exact .restore hs
      · exact hs
  · exact hs

/-! ## Registers -/

theorem MemoryOk.execWqDoorbell {q v s} (hs : MemoryOk s) : StaysOk (execWqDoorbell q v s) := .event (.ite hs hs)

theorem MemoryOk.execDoorbell {v s} (hs : MemoryOk s) : StaysOk (execDoorbell v s) := .event hs.ringDoorbell

theorem MemoryOk.execHostInterrupt {v s} (hs : MemoryOk s) : StaysOk (execHostInterrupt v s) := .event hs.writeHirq

theorem MemoryOk.execWectlWrite {engine v s} (hs : MemoryOk s) : StaysOk (execWectlWrite engine v s) := .event hs

theorem MemoryOk.execDlsplitWrite {h v s} (hs : MemoryOk s) : StaysOk (execDlsplitWrite h v s) := .event hs.writeDlsplit

theorem MemoryOk.execDlgroupWrite {h v s} (hs : MemoryOk s) : StaysOk (execDlgroupWrite h v s) := .event hs.writeDlgroup

theorem MemoryOk.putCsr {s h a v} (hs : MemoryOk s) : MemoryOk (State.putCsr s h a v) := by
  simp only [State.putCsr]
  refine .ite hs ?_
  split
  · split
    · rename_i h
      exact .writeCsr (Keeps.ok .engineCsrGuard h hs)
    · exact hs
  · exact hs.writeCsr

theorem MemoryOk.execRegisterWrite {t v s} (hs : MemoryOk s) : StaysOk (execRegisterWrite t v s) := by
  simp only [Machine.execRegisterWrite]
  exact .event (by split; exacts [.ite hs.writeDevice hs, hs.putCsr])

theorem MemoryOk.resetContexts {s ks} (hs : MemoryOk s) : MemoryOk (State.resetContexts s ks) := by
  induction ks generalizing s with
  | nil => exact hs
  | cons _ _ ih => exact ih hs.abandon.setHart

theorem MemoryOk.execCoreReset {core s} (hs : MemoryOk s) : StaysOk (execCoreReset core s) := .event hs.resetContexts.setCore

/-! ## Sfx -/

theorem MemoryOk.execSfx {fn w s} (hs : MemoryOk s) : StaysOk (execSfx fn w s) :=
  hs.laneInstr (fun _ => .pure) fun _ =>
  .ite .completed (.get fun _ _ => .ite .throwThen (.bind .peakCheck fun _ => .bind .modWave fun _ => .completed))

theorem MemoryOk.execSfxWait {w s} (hs : MemoryOk s) : StaysOk (execSfxWait w s) :=
  hs.laneInstr (fun _ => .pure) fun _ => .bind .getWave fun _ => .ite .throwThen .completed

theorem MemoryOk.execSfxResult {wave tok s} (hs : MemoryOk s) : StaysOk (execSfxResult wave tok s) := by
  simp only [Machine.execSfxResult]
  exact .event (by split; exacts [.runM hs .endWave, hs])

/-! ## Dispatch -/

/-- Every instruction and every event keeps memory canonical: an arm of `exec` whose meaning is one scalar operation is proved in
place, any other by the lemma of its function. -/
theorem MemoryOk.exec {s : State} (hs : MemoryOk s) : ∀ i, StaysOk (exec i s)
  | .semWait .. => hs.scalar fun _ => .bind .getHart fun _ => .semWaitM
  | .semSig .. => hs.scalar fun _ => .bind .getHart fun _ => .semSigM
  | .semTry .. => hs.scalar fun _ => .bind .getHart fun _ => .semTryM
  | .semRead .. => hs.scalar fun _ => .bind .getHart fun _ => .bind .crewM fun _ => .get fun _ _ => .setReg
  | .semWaiti .. => hs.scalar fun _ => .bind .guardM fun _ => .semWaitM
  | .semSigi .. => hs.scalar fun _ => .bind .guardM fun _ => .semSigM
  | .futNew .. => hs.execFutNew
  | .futSet .. => hs.scalar fun _ => .bind .kindM fun _ => .bind .getHart fun _ => .resolveM
  | .futWait .. => hs.scalar fun _ => .bind .kindM fun _ => .bind .getHart fun _ => .futWaitM
  | .futPoll .. => hs.scalar fun _ => .bind .kindM fun _ => .bind .getHart fun _ => .bind .futEntry fun _ => .setReg
  | .futPoison .. => hs.scalar fun _ => .bind .kindM fun _ => .bind .getHart fun _ => .resolveM
  | .futFree .. => hs.execFutFree
  | .contSpawn .. => hs.scalar fun _ => .bind .kindM fun _ => .bind .getHart fun _ => .contSpawnM
  | .joinAdd .. => hs.scalar fun _ => .bind .kindM fun _ => .bind .getHart fun _ => .joinAddHartM
  | .msgSend .. => hs.scalar fun _ => .bind .kindM fun _ => .bind .getHart fun _ => .sendM
  | .msgReply .. => hs.scalar fun _ => .bind .kindM fun _ => .bind .getHart fun _ => .bind .sendM fun _ => .modHart
  | .msgSendh .. => hs.scalar fun _ => .bind .kindM fun _ => .bind .getHart fun _ => .sendM
  | .msgRecv .. => hs.scalar fun _ => .bind .kindM fun _ => .bind .getHart fun _ => .msgRecvM
  | .mbRead .. => hs.scalar fun _ => .bind .kindM fun _ => .modHart
  | .mbWrite .. => hs.scalar fun _ => .bind .kindM fun _ => .modHart
  | .mbSwap .. => hs.scalar fun _ => .bind .kindM fun _ => .modHart
  | .engKick .. => hs.scalar fun _ => .bind .kindM fun _ => .bind .guardM fun _ => .bind .getHart fun _ => .engKickM
  | .engRdv .. => hs.scalar fun _ => .bind .kindM fun _ => .bind .getHart fun _ => .engRdvM
  | .cohDecl .. => hs.scalar fun _ => .bind .kindM fun _ => .bind .getHart fun _ => .cohDeclM
  | .cohRel .. => hs.scalar fun _ => .bind .kindM fun _ => .bind .getHart fun _ => .cohRelM
  | .scalarCwb .. => hs.scalar fun _ => .bind .getHart fun _ => .rangeM
  | .scalarCinv .. => hs.scalar fun _ => .bind .getHart fun _ => .rangeM
  | .scalarCflush .. => hs.scalar fun _ => .bind .getHart fun _ => .rangeM
  | .hotRead .. => hs.execHotRead
  | .hotClr .. => hs.execHotClr
  | .fenceS .. => hs.scalar fun _ => .bind .guardM fun _ => .ite .releaseM .pure
  | .scalarStq .. => hs.scalar fun _ => .bind .getHart fun _ => .scalarStqM
  | .tlbInv .. => hs.scalar fun _ => .bind .kindM fun _ => .bind .levelS fun _ => .bind .getHart fun _ => .tlbInvM
  | .amoAdd .. => hs.scalar fun _ => .amoM
  | .amoSwap .. => hs.scalar fun _ => .amoM
  | .amoAnd .. => hs.scalar fun _ => .amoM
  | .amoOr .. => hs.scalar fun _ => .amoM
  | .amoXor .. => hs.scalar fun _ => .amoM
  | .amoMax .. => hs.scalar fun _ => .amoM
  | .amoFadd .. => hs.scalar fun _ => .amoM
  | .amoCas .. => hs.scalar fun _ => .amoM
  | .standardLoadStore .. => hs.scalar fun _ => .loadStore
  | .lr .. => hs.scalar fun _ => .bind .loadReserved fun _ => .relM
  | .sc .. => hs.scalar fun _ => .bind .relM fun _ => .storeConditional
  | .standardAmo .. => hs.scalar fun _ => .bind .relM fun _ => .amoStd
  | .fenceRv .. => hs.scalar fun _ => .ite .pure .releaseM
  | .fenceI .. => hs.scalar fun _ => .kindM
  | .sfenceVma .. => hs.execSfenceVma
  | .laneAdd .. => hs.execLaneAdd
  | .laneSub .. => hs.execLaneSub
  | .laneMul .. => hs.execLaneMul
  | .mulhi .. => hs.execMulhi
  | .laneMin .. => hs.execLaneMin
  | .laneMax .. => hs.execLaneMax
  | .laneAbs .. => hs.execLaneAbs
  | .laneNeg .. => hs.execLaneNeg
  | .addLi .. => hs.execAddLi
  | .subLi .. => hs.execSubLi
  | .mulLi .. => hs.execMulLi
  | .mulhiLi .. => hs.execMulhiLi
  | .minLi .. => hs.execMinLi
  | .maxLi .. => hs.execMaxLi
  | .imad .. => hs.execImad
  | .laneAnd .. => hs.execLaneAnd
  | .laneOr .. => hs.execLaneOr
  | .laneXor .. => hs.execLaneXor
  | .laneNot .. => hs.execLaneNot
  | .andn .. => hs.execAndn
  | .andLi .. => hs.execAndLi
  | .orLi .. => hs.execOrLi
  | .xorLi .. => hs.execXorLi
  | .andnLi .. => hs.execAndnLi
  | .shl .. => hs.execShl
  | .shr .. => hs.execShr
  | .sha .. => hs.execSha
  | .rol .. => hs.execRol
  | .ror .. => hs.execRor
  | .shlLi .. => hs.execShlLi
  | .shrLi .. => hs.execShrLi
  | .shaLi .. => hs.execShaLi
  | .rolLi .. => hs.execRolLi
  | .rorLi .. => hs.execRorLi
  | .popc .. => hs.execPopc
  | .clz .. => hs.execClz
  | .ctz .. => hs.execCtz
  | .brev .. => hs.execBrev
  | .bfx .. => hs.execBfx
  | .bfi .. => hs.execBfi
  | .fadd .. => hs.execFadd
  | .fsub .. => hs.execFsub
  | .fmul .. => hs.execFmul
  | .fmin .. => hs.execFmin
  | .fmax .. => hs.execFmax
  | .fabs .. => hs.execFabs
  | .fneg .. => hs.execFneg
  | .faddLi .. => hs.execFaddLi
  | .fsubLi .. => hs.execFsubLi
  | .fmulLi .. => hs.execFmulLi
  | .fminLi .. => hs.execFminLi
  | .fmaxLi .. => hs.execFmaxLi
  | .fma .. => hs.execFma
  | .fms .. => hs.execFms
  | .fnma .. => hs.execFnma
  | .fdiv .. => hs.execFdiv
  | .fsqrt .. => hs.execFsqrt
  | .icmp .. => hs.execIcmp
  | .fcmp .. => hs.execFcmp
  | .fclass .. => hs.execFclass
  | .icmpLi .. => hs.execIcmpLi
  | .fcmpLi .. => hs.execFcmpLi
  | .sel .. => hs.execSel
  | .selLi .. => hs.execSelLi
  | .pand .. => hs.execPand
  | .por .. => hs.execPor
  | .pxor .. => hs.execPxor
  | .pnot .. => hs.execPnot
  | .pmov .. => hs.execPmov
  | .cvt .. => hs.execCvt
  | .qnt .. => hs.execQnt
  | .aln .. => hs.execAln
  | .shflIdx .. => hs.execShflIdx
  | .shflXor .. => hs.execShflXor
  | .shflUp .. => hs.execShflUp
  | .shflDn .. => hs.execShflDn
  | .bcst .. => hs.execBcst
  | .voteAny .. => hs.execVoteAny
  | .voteAll .. => hs.execVoteAll
  | .voteMask .. => hs.execVoteMask
  | .reduce .. => hs.execReduce
  | .scan .. => hs.execScan
  | .mov .. => hs.execMov
  | .movu .. => hs.execMovu
  | .movx .. => hs.execMovx
  | .movi .. => hs.execMovi
  | .krd .. => hs.execKrd
  | .kwr .. => hs.execKwr
  | .lfmRd .. => hs.execLfmRd
  | .lfmWr .. => hs.execLfmWr
  | .sfx .. => hs.execSfx
  | .sfxWait .. => hs.execSfxWait
  | .rsvSeed .. => hs.execRsvSeed
  | .rsvUpd .. => hs.execRsvUpd
  | .rsvMrg .. => hs.execRsvMrg
  | .rsvFin .. => hs.execRsvFin
  | .rsvGet .. => hs.execRsvGet
  | .rsvDraw .. => hs.execRsvDraw
  | .ld .. => hs.execLd
  | .st .. => hs.execSt
  | .stn .. => hs.execStn
  | .atomAdd .. => hs.execAtomAdd
  | .atomSwap .. => hs.execAtomSwap
  | .atomAnd .. => hs.execAtomAnd
  | .atomOr .. => hs.execAtomOr
  | .atomXor .. => hs.execAtomXor
  | .atomMax .. => hs.execAtomMax
  | .atomFadd .. => hs.execAtomFadd
  | .atomCas .. => hs.execAtomCas
  | .lds .. => hs.execLds
  | .sts .. => hs.execSts
  | .fence .. => hs.execFence
  | .cwb .. => hs.execCwb
  | .cinv .. => hs.execCinv
  | .cflush .. => hs.execCflush
  | .stq .. => hs.execStq
  | .pfh .. => hs.execPfh
  | .texSmp .. => hs.execTexSmp
  | .texFch .. => hs.execTexFch
  | .bra .. => hs.execBra
  | .brx .. => hs.execBrx
  | .reconv .. => hs.execReconv
  | .exit .. => hs.execExit
  | .mig .. => hs.execMig
  | .barArv .. => hs.execBarArv
  | .barWait .. => hs.execBarWait
  | .safe .. => hs.execSafe
  | .yield .. => hs.execYield
  | .nop .. => hs.execNop
  | .spawn .. => hs.execSpawn
  | .fwait .. => hs.execFwait
  | .send .. => hs.execSend
  | .mld .. => hs.execMld
  | .mmaG .. => hs.execMmaG
  | .accZero .. => hs.execAccZero
  | .ringAdv .. => hs.execRingAdv
  | .ringWait .. => hs.execRingWait
  | .blmEmit .. => hs.execBlmEmit
  | .blmRead .. => hs.execBlmRead
  | .blmAdvance .. => hs.execBlmAdvance
  | .blmFlush .. => hs.execBlmFlush
  | .blmClear .. => hs.execBlmClear
  | .resv .. => hs.execResv
  | .commit .. => hs.execCommit
  | .cancel .. => hs.execCancel
  | .emitV .. => hs.execEmitV
  | .emitP .. => hs.execEmitP
  | .standardInstruction .. => hs.scalar fun _ => .rvOp (fun _ _ _ _ _ _ => .csrOp) fun _ => .illegalWord
  | .reservedLaneOpcode .. => hs.execReservedLaneOpcode
  | .messageDepart .. => hs.execMessageDepart
  | .messageArrival .. => hs.execMessageArrival
  | .laneSignalLand .. => hs.execLaneSignalLand
  | .laneMemoryComplete .. => hs.execLaneMemoryComplete
  | .sfxResult .. => hs.execSfxResult
  | .migrationBlockGrant .. => hs.execMigrationBlockGrant
  | .mldStart .. => hs.execMldStart
  | .mldComplete .. => hs.execMldComplete
  | .mmaLatch .. => hs.execMmaLatch
  | .mmaStart .. => hs.execMmaStart
  | .mmaComplete .. => hs.execMmaComplete
  | .launchRecordTake .. => hs.execLaunchRecordTake
  | .crewAdmit .. => hs.execCrewAdmit
  | .admissionAgeLimit .. => hs.execAdmissionAgeLimit
  | .waveStart .. => hs.execWaveStart
  | .frontEndStrandStart .. => hs.execFrontEndStrandStart
  | .continuationPop .. => hs.execContinuationPop
  | .atomiserArrival .. => hs.execAtomiserArrival
  | .gatherWindowExpiry .. => hs.execGatherWindowExpiry
  | .atomiserWaveForm .. => hs.execAtomiserWaveForm
  | .fragmentAgeLimit .. => hs.execFragmentAgeLimit
  | .gtoAgeingLimit .. => hs.execGtoAgeingLimit
  | .crewEnd .. => hs.execCrewEnd
  | .heldMessageDelivery .. => hs.execHeldMessageDelivery
  | .handlerStart .. => hs.execHandlerStart
  | .stqTarget .. => hs.execStqTarget
  | .engineKickStart .. => hs.execEngineKickStart
  | .copyMove .. => hs.execCopyMove
  | .copyGather .. => hs.execCopyGather
  | .copyScatter .. => hs.execCopyScatter
  | .copyConvert .. => hs.execCopyConvert
  | .copyDelta .. => hs.execCopyDelta
  | .copyRle .. => hs.execCopyRle
  | .bloomEventArrival .. => hs.execBloomEventArrival
  | .bloomFanoutJob .. => hs.execBloomFanoutJob
  | .rasterMesh .. => hs.execRasterMesh
  | .rasterBlockEmit .. => hs.execRasterBlockEmit
  | .blendTicket .. => hs.execBlendTicket
  | .traverseRay .. => hs.execTraverseRay
  | .interruptTake .. => hs.execInterruptTake
  | .timerCompare .. => hs.execTimerCompare
  | .crewSave .. => hs.execCrewSave
  | .preemptDeadline .. => hs.execPreemptDeadline
  | .invalidationReceive .. => hs.execInvalidationReceive
  | .invalidationAck .. => hs.execInvalidationAck
  | .hotnessHalving .. => hs.execHotnessHalving
  | .quantumFlush .. => hs.execQuantumFlush
  | .wqDoorbell .. => hs.execWqDoorbell
  | .dmgangWrite .. => hs.execDmgangWrite
  | .dmringWrite .. => hs.execDmringWrite
  | .matrixKilled .. => hs.execMatrixKilled
  | .sillageInstall .. => hs.execSillageInstall
  | .sillageTileRequest .. => hs.execSillageTileRequest
  | .bloomInstall .. => hs.execBloomInstall
  | .bloomUninstall .. => hs.execBloomUninstall
  | .laneHandlerRun .. => hs.execLaneHandlerRun
  | .preemptRequest .. => hs.execPreemptRequest
  | .resume .. => hs.execResume
  | .crewKill .. => hs.execCrewKill
  | .doorbell .. => hs.execDoorbell
  | .hostInterrupt .. => hs.execHostInterrupt
  | .wectlWrite .. => hs.execWectlWrite
  | .dlsplitWrite .. => hs.execDlsplitWrite
  | .dlgroupWrite .. => hs.execDlgroupWrite
  | .registerWrite .. => hs.execRegisterWrite
  | .pageWalk .. => hs.execPageWalk
  | .tokenRequest .. => hs.execTokenRequest
  | .persistentRequest .. => hs.execPersistentRequest
  | .tokenEviction .. => hs.execTokenEviction
  | .homeRecall .. => hs.execHomeRecall
  | .hostSnoop .. => hs.execHostSnoop
  | .hostMemAccess .. => hs.execHostMemAccess
  | .backInvalidationResponse .. => hs.execBackInvalidationResponse
  | .flitReplay .. => hs.execFlitReplay
  | .linkRetrain .. => hs.execLinkRetrain
  | .halhelFailover .. => hs.execHalhelFailover
  | .eccCorrected .. => hs.execEccCorrected
  | .eccUncorrected .. => hs.execEccUncorrected
  | .coreReset .. => hs.execCoreReset
  | .attestation .. => hs.execAttestation
  | .governorWindow .. => hs.execGovernorWindow
  | .thermalTrip .. => hs.execThermalTrip
  | .peerWindowAccess .. => hs.execPeerWindowAccess
  | .thermalThrottle .. => hs.execThermalThrottle
  | .contExit => hs.scalar fun _ => .contExitM
  | .migW => hs.scalar fun _ => .bind .kindM fun _ => .migWM
  | .scalarYield => hs.execScalarYield
  | .scalarSafe => hs.scalar fun _ => .bind .kindM fun _ => .get fun _ _ => .ite .parkFor .pure
  | .ecall => hs.scalar fun _ => .bind .getHart fun _ => .ite .fail .fail
  | .ebreak => hs.scalar fun _ => .bind .getHart fun _ => .bind .freeNatM fun _ => .fail
  | .sret => hs.scalar fun _ => .bind .kindM fun _ => .bind .levelS fun _ => .modify fun _ ht => ht.returnS
  | .wfi => hs.scalar fun _ => .bind .kindM fun _ => .bind .levelS fun _ => .get fun _ _ => .ite .parkFor .pure
  | .crewExpand => hs.execCrewExpand
  | .imageLoad => hs.execImageLoad
  | .imageUnload => hs.execImageUnload
  | .bringUp => hs.execBringUp

/-! ## What hardware may do on its own, and the turns of a schedule

A turn is a function of the state; the machine collects the turns that could be due in lists, and picks one of them. -/

/-- A turn keeps memory canonical. -/
def Safe (f : State → Out) : Prop := ∀ s, MemoryOk s → StaysOk (f s)

def AllSafe (l : List (State → Out)) : Prop := ∀ f ∈ l, Safe f

section

variable {α : Type}

theorem AllSafe.nil : AllSafe [] := fun _ hf => nomatch hf

theorem AllSafe.cons {f : State → Out} {l : List (State → Out)} (hf : Safe f) (hl : AllSafe l) : AllSafe (f :: l) :=
  List.forall_mem_cons.mpr ⟨hf, hl⟩

theorem AllSafe.one {f : State → Out} (hf : Safe f) : AllSafe [f] := .cons hf .nil

theorem AllSafe.append {l m : List (State → Out)} (hl : AllSafe l) (hm : AllSafe m) : AllSafe (l ++ m) :=
  List.forall_mem_append.mpr ⟨hl, hm⟩

theorem AllSafe.map {l : List α} {f : α → State → Out} (hf : ∀ a, Safe (f a)) : AllSafe (l.map f) :=
  List.forall_mem_map.mpr fun a _ => hf a

theorem AllSafe.flatMap {l : List α} {f : α → List (State → Out)} (hf : ∀ a, AllSafe (f a)) : AllSafe (l.flatMap f) := by
  intro g hg
  obtain ⟨a, _, hga⟩ := List.mem_flatMap.mp hg
  exact hf a g hga

theorem AllSafe.ite {c : Prop} [Decidable c] {l m : List (State → Out)} (hl : AllSafe l) (hm : AllSafe m) :
    AllSafe (if c then l else m) := by
  split
  · exact hl
  · exact hm

/-- A turn that is listed unless there is nothing for it to do. -/
theorem AllSafe.unless {c : Prop} [Decidable c] {f : State → Out} (hf : Safe f) : AllSafe (if c then [] else [f]) :=
  .ite .nil (.one hf)

/-- A turn that is listed when it is due. -/
theorem AllSafe.onlyIf {c : Prop} [Decidable c] {f : State → Out} (hf : Safe f) : AllSafe (if c then [f] else []) :=
  .ite (.one hf) .nil

theorem AllSafe.eachIx {l : List α} {f : Nat → State → Out} (hf : ∀ i, Safe (f i)) : AllSafe (eachIx l f) := .map hf

end

theorem AllSafe.waveEvents {k w} : AllSafe (waveEvents k w) :=
  .append (.append (.append
    (.map fun _ _ hs => hs.execSfxResult)
    (.map fun _ _ hs => hs.execLaneMemoryComplete))
    (.unless fun _ hs => hs.execLaneSignalLand))
    (.unless fun _ hs => hs.execFragmentAgeLimit)

theorem AllSafe.crewEvents {s cluster slot c} : AllSafe (State.crewEvents s cluster slot c) :=
  .append (.append (.append (.append
    (.ite (.one fun _ hs => hs.execCrewEnd) (.cons (fun _ hs => hs.execWaveStart) (.one fun _ hs => hs.execFrontEndStrandStart)))
    (.unless fun _ hs => hs.execMigrationBlockGrant))
    (.onlyIf fun _ hs => hs.execCrewSave))
    (.unless fun _ hs => hs.execHeldMessageDelivery))
    (.unless fun _ hs => hs.execMmaLatch)

theorem AllSafe.matrixEvents {cluster m} : AllSafe (matrixEvents cluster m) := by
  refine .append (.flatMap fun _ => ?_) (.ite .nil (.cons (fun _ hs => hs.execMmaStart) (.one fun _ hs => hs.execMmaComplete)))
  refine .append (.cons (fun _ hs => hs.execMldStart) (.one fun _ hs => hs.execMldComplete)) ?_
  split
  · exact .one fun _ hs => hs.execMatrixKilled
  · exact .nil

theorem AllSafe.popEvents {cluster c} : AllSafe (popEvents cluster c) :=
  .ite .nil (.append (.map fun _ _ hs => hs.execContinuationPop) (.map fun _ _ hs => hs.execContinuationPop))

theorem AllSafe.clusterEvents {s k c} : AllSafe (State.clusterEvents s k c) :=
  .append (.append (.append (.append (.append (.append (.append (.append (.append
    (.flatMap fun _ => .crewEvents)
    .matrixEvents)
    .popEvents)
    (.ite .nil (.append (.map fun _ _ hs => hs.execCrewAdmit) (.one fun _ hs => hs.execAdmissionAgeLimit))))
    (.unless fun _ hs => hs.execAtomiserArrival))
    (.ite .nil (.cons (fun _ hs => hs.execGatherWindowExpiry) (.eachIx fun _ _ hs => hs.execAtomiserWaveForm))))
    (.unless fun _ hs => hs.execRasterMesh))
    (.unless fun _ hs => hs.execRasterBlockEmit))
    (.unless fun _ hs => hs.execTraverseRay))
    (.onlyIf fun _ hs => hs.execPreemptDeadline)

theorem AllSafe.copyEvents {k} :
    AllSafe [execCopyMove k, execCopyGather k, execCopyScatter k, execCopyConvert k, execCopyDelta k, execCopyRle k] :=
  .cons (fun _ hs => hs.execCopyMove) (.cons (fun _ hs => hs.execCopyGather) (.cons (fun _ hs => hs.execCopyScatter)
    (.cons (fun _ hs => hs.execCopyConvert) (.cons (fun _ hs => hs.execCopyDelta) (.one fun _ hs => hs.execCopyRle)))))

theorem AllSafe.engineEvents {k e} : AllSafe (engineEvents k e) :=
  .append (.append
    (.unless fun _ hs => hs.execEngineKickStart)
    (.ite .nil .copyEvents))
    (.unless fun _ hs => hs.execBloomFanoutJob)

theorem AllSafe.departs {q m} : AllSafe (departs q m) := .map fun _ _ hs => hs.execMessageDepart

theorem AllSafe.invalEvents {n i} : AllSafe (invalEvents n i) :=
  .flatMap fun _ => .append (.onlyIf fun _ hs => hs.execInvalidationReceive) (.onlyIf fun _ hs => hs.execInvalidationAck)

theorem AllSafe.packageEvents {s} : AllSafe (State.packageEvents s) :=
  .append (.append (.append (.append (.append (.append (.append (.append (.append (.append (.append (.append (.append (.append
    (.append (.append (.append
    (.map fun _ _ hs => hs.execLaunchRecordTake)
    (.unless fun _ hs => hs.execCrewExpand))
    (.flatMap fun _ => .departs))
    (.flatMap fun _ => .departs))
    (.flatMap fun _ => .departs))
    (.eachIx fun _ _ hs => hs.execMessageArrival))
    (.eachIx fun _ _ hs => hs.execStqTarget))
    (.map fun _ _ hs => hs.execBloomEventArrival))
    (.flatMap fun _ => .map fun _ _ hs => hs.execBlendTicket))
    (.map fun _ _ hs => hs.execGtoAgeingLimit))
    (.flatMap fun _ => .invalEvents))
    (.ite .nil (.map fun _ _ hs => hs.execHotnessHalving)))
    (.eachIx fun _ _ hs => hs.execQuantumFlush))
    (.map fun _ _ hs => hs.execPersistentRequest))
    (.map fun _ _ hs => hs.execBackInvalidationResponse))
    (.map fun _ _ hs => hs.execResume))
    (.ite (.cons (fun _ hs => hs.execImageLoad) (.one fun _ hs => hs.execImageUnload)) .nil))
    (.onlyIf fun _ hs => hs.execBringUp)

theorem AllSafe.dueEvents {s} : AllSafe (State.dueEvents s) :=
  .append (.append (.append
    (.flatMap fun _ => .waveEvents)
    (.flatMap fun _ => .clusterEvents))
    (.flatMap fun _ => .engineEvents))
    .packageEvents

/-! ## Turn -/

theorem MemoryOk.hartTurn {h s} (hs : MemoryOk s) : StaysOk (hartTurn h s) := by
  unfold Machine.hartTurn
  extract_lets u
  have hu : MemoryOk u := hs
  refine .ite (.next hu.readBufs) ?_
  split
  · exact hu.exec _
  · refine .ite (hu.exec _) (.ite hu ?_)
    split
    · exact MemoryOk.exec (Keeps.fetchScalar.ok ‹_› hu) _
    · exact .next (.takeExc (Keeps.fetchScalar.error ‹_› hu))
    · exact Keeps.fetchScalar.error ‹_› hu

theorem MemoryOk.laneTurn {k secondary s} (hs : MemoryOk s) : StaysOk (laneTurn k secondary s) := by
  unfold Machine.laneTurn
  extract_lets u w
  have hu : MemoryOk u := hs
  split
  · exact hu
  · refine .ite hu (.ite (.next hu.readBufs) ?_)
    split
    · exact MemoryOk.exec (Keeps.fetchLane.ok ‹_› hu) _
    · exact .next (.trapLanes (Keeps.fetchLane.error ‹_› hu))
    · exact Keeps.fetchLane.error ‹_› hu

theorem MemoryOk.firstTurn {s l} (hs : MemoryOk s) (hl : AllSafe l) : StaysOk (firstTurn s l) := by
  induction l with
  | nil => exact hs
  | cons _ _ ih =>
    obtain ⟨hf, hl⟩ := List.forall_mem_cons.mp hl
    exact .ite (hf s hs) (ih hl)

theorem MemoryOk.coreTurn {k s} (hs : MemoryOk s) : StaysOk (coreTurn k s) :=
  hs.firstTurn (.map fun _ _ hu => MemoryOk.hartTurn (.setCore hu))

theorem MemoryOk.waveTurn {k s} (hs : MemoryOk s) : StaysOk (waveTurn k s) := by
  unfold Machine.waveTurn
  extract_lets first issued
  have hl : StaysOk (Machine.laneTurn k first s) := hs.laneTurn
  split
  · next t h =>
    rw [h] at hl
    exact .ite hl (MemoryOk.laneTurn hl)
  · exact hl

theorem MemoryOk.tryWaves {e s ks} (hs : MemoryOk s) : StaysOk (tryWaves e s ks) := by
  induction ks generalizing s with
  | nil => exact hs
  | cons k _ ih =>
    have hw : StaysOk (Machine.waveTurn k s) := hs.waveTurn
    unfold Machine.tryWaves
    split
    · next t h =>
      rw [h] at hw
      exact .ite hw (ih hw)
    · exact hw

theorem MemoryOk.issueTurn {e s} (hs : MemoryOk s) : StaysOk (issueTurn e s) := hs.tryWaves

theorem MemoryOk.runTurn {s} (hs : MemoryOk s) : ∀ t, StaysOk (runTurn t s)
  | .core _ => hs.coreTurn
  | .strand k => hs.hartTurn (h := .strand k)
  | .uniform k => hs.hartTurn (h := .uniform k)
  | .lanes .. => hs.laneTurn
  | .issue _ => hs.issueTurn
  | .engine k => hs.hartTurn (h := .engine k)
  | .clk _ => .next (.tick hs)
  | .event i => MemoryOk.exec (s := { s with actor := some .event }) hs i

theorem AllSafe.candidates {s} : AllSafe (State.candidates s) := by
  refine .append (.map fun t _ hu => hu.runTurn t) fun f hf => ?_
  obtain ⟨g, hg, rfl⟩ := List.mem_map.mp hf
  exact fun _ hu => AllSafe.dueEvents g hg _ hu

/-- Whichever of the candidates the machine chooses, that turn keeps memory canonical. -/
theorem MemoryOk.arbiter {s} (hs : MemoryOk s) : StaysOk (arbiter s) := by
  unfold Machine.arbiter
  extract_lets ready
  have hr : AllSafe ready := fun f hf => AllSafe.candidates f (List.mem_of_mem_filter hf)
  clear_value ready
  cases ready with
  | nil => exact hs.runTurn _
  | cons f l =>
    have ha : AllSafe (f :: l ++ [Machine.runTurn (.clk 1)]) := hr.append (.one fun _ hu => hu.runTurn _)
    dsimp only
    split
    · exact ha _ (List.mem_of_getElem? ‹_›) _ hs
    · exact hs

/-! ## Step -/

theorem MemoryOk.turn {s} (hs : MemoryOk s) : StaysOk (turn s) := by
  unfold Machine.turn
  split
  · next t rest _ => exact MemoryOk.runTurn (s := { s with sched := rest }) hs t
  · exact hs.arbiter

theorem MemoryOk.step {s} (hs : MemoryOk s) : StaysOk (step s) := .ite hs hs.turn

/-- Settles O60: each function of the model through which a step acts keeps memory canonical (log 3), up to the
instructions and events of `MemoryOk.exec` and the turns of `MemoryOk.turn`. -/
theorem everyStepKeepsMemoryCanonical : Obligations.EveryStepKeepsMemoryCanonical := by
  unfold Obligations.EveryStepKeepsMemoryCanonical
  intro s t hs h
  have ht : StaysOk (Machine.step s) := hs.step
  rw [h] at ht
  exact ht

end Sys2Proof

/-! PROOFS. Fences, nibble stores, ranges, writes-with-enqueue, prefetches and textures of lanes (R278, R279, R286 to R289, R388). -/

namespace Sys2Proof.Machine

open Sys2Proof.Claim

section
variable {s t : State} {c : LCtx}

/-- A ready instruction whose meaning comes down to its completion in `t` goes on from there. -/
theorem ready_completes (h : LaneReady s c) (hsig : Signals t c) {eff : LCtx → M Unit}
    (hexec : exec c.i s = laneInstr c.i c.w (fun _ => pure ()) eff s) (hrun : eff c s = completed c none t) :
    exec c.i s = .next (laneDone t c {}) :=
  laneReady_exec h hexec (hrun.trans (completed_ok c t hsig))

/-- The address of a lane's word under its record, by name. -/
theorem laneAddr_record : laneAddr c (s.wave c.k) (recordOf s c) = wordAt s c := rfl

/-! ## FENCE (R286) -/

/-- FENCE: earlier accesses come first, and a releasing order performs the quantum updates of its scope. -/
def fenceM (c : LCtx) : M Unit := do
  drainM c.k
  if semReleases c.w.sem.toNat then modify fun s => s.releaseUnit (.wave c.k) c.w.scope.toNat
  completed c none

theorem exec_fenceM (w : LaneWord) (s : State) : exec (.fence w) s = laneInstr (.fence w) w (fun _ => pure ()) fenceM s := rfl

theorem fenceM_run (ha : (s.wave c.k).accesses = []) :
    fenceM c s = completed c none (if semReleases c.w.sem.toNat then s.releaseUnit (.wave c.k) c.w.scope.toNat else s) := by
  simp only [fenceM, bind_run, drainM_ok s c.k ha]
  rw [ite_run]
  split <;> rfl

/-! ## CWB, CINV and CFLUSH (R287) -/

/-- The three share one meaning. -/
theorem ranges_run (w : LaneWord) (s : State) : ∀ e ∈ [(Instr.cwb w, RangeOp.cwb), (.cinv w, .cinv), (.cflush w, .cflush)],
    exec e.1 s = laneInstr e.1 w (fun _ => pure ()) (rangeLanes e.2) s := by
  simp only [List.forall_mem_cons]
  exact ⟨rfl, rfl, rfl, by simp⟩

/-- Ranges that end within 2^48 meet no cause: what is left is the operation over their union. -/
theorem rangeLanes_run {o : RangeOp} (hp : LanesPlaced s c) (hw : WordsAligned s c) (ha : (s.wave c.k).accesses = [])
    (hend : ∀ l ∈ inBounds s c, (wordAt s c l).va.toNat % 2 ^ 48 + ((s.wave c.k).reg c.w.vd.toNat l).toNat ≤ 2 ^ 48)
    (hops : rangesM c (s.laneAcc c.k) o (rangesOf s c) (joinRanges ((rangesOf s c).foldr insertRange []))
      (notes s c (inBounds s c) false) = .ok () t) : rangeLanes o c s = completed c none t := by
  have hpast : (inBounds s c).filter (fun l => decide (2 ^ 48 <
      (laneAddr c (s.wave c.k) (recordOf s c) l).va.toNat % 2 ^ 48 + ((s.wave c.k).reg c.w.vd.toNat l).toNat)) = [] :=
    List.filter_eq_nil_iff.2 fun l hl => by rw [decide_eq_true_iff]; exact Nat.not_lt.2 (hend l hl)
  simp only [rangeLanes, bind_run, heldBack_ok c s hp.held, recordCheck_ok c s hp.record hp.pair, get_run, placed_ok hp hw]
  beta_reduce
  rw [hpast]
  simp only [laneAddr_record, ite_run, bind_run, drainM_ok s c.k ha, noteOob_ok, ← rangesOf.eq_def, hops, ite_self]

/-! ## STQ (R288) -/

theorem strictCheck_ok (hp : LanesPlaced s c) : strictCheck c (recordOf s c) (wordAt s c) s = .ok () s := by
  rw [strictCheck, ite_run]
  split
  · next hb => exact laneCheck_ok _ _ _ fun l hl => by rw [hp.strict hb l hl]; rfl
  · rfl

theorem drainFor_ok (ha : (s.wave c.k).accesses = []) : drainFor c s = .ok () s := by
  rw [drainFor, ite_run, drainM_ok s c.k ha, pure_run, ite_self]

/-- A lane's operation as it leaves with its payload. -/
def laneStqOp (s : State) (c : LCtx) (l : Nat) (o : StqOp) (payload : List Byte) : StqOp :=
  { o with
    queue := 8192 + c.k / 16
    payload := payload
    cluster := c.k / 128
    dptb := (s.wave c.k).hart.dptb
    priv := .u
    dcrew := (s.wave c.k).hart.dcrew
    wave := some c.k
    lane := l }

theorem laneStq_op (s : State) (c : LCtx) (l : Nat) (o : StqOp) (payload : List Byte) :
    laneStq s c l o payload = .stq (laneStqOp s c l o payload) := rfl

/-- Aligned descriptors and payloads that can be read, with room for all of them, pass the four checks over the lanes; each lane's
operation enters the send queue. -/
theorem stqLanes_run {d p : Nat → List Byte} {o : Nat → StqOp} (hp : LanesPlaced s c) (ha : (s.wave c.k).accesses = [])
    (hread : ∀ l ∈ inBounds s c, (wordAt s c l).va.toNat % 64 = 0 ∧ vread (s.laneAcc c.k) (wordAt s c l).va 64 s = .ok (d l) s ∧
      stqOf s (s.wave c.k).hart.crew (s.wave c.k).hart.launch (d l) = .ok (o l) ∧
      vread (s.laneAcc c.k) ((s.wave c.k).pair c.w.vd.toNat l) (stqLen (d l)) s = .ok (p l) s)
    (hroom : (inBounds s c).length ≤ s.sendFree (8192 + c.k / 16)) :
    stqLanes c s = completed c none ((inBounds s c).foldl (fun t l => t.pushSend (8192 + c.k / 16) (laneStq s c l (o l) (p l)))
      (notes s c (inBounds s c) false)) := by
  simp only [imp_and, forall_and] at hread
  obtain ⟨haligned, hdesc, hop, hbody⟩ := hread
  have hinside : (lanesOf c.act).filter (fun l => !(wordAt s c l).oob) = inBounds s c := rfl
  simp only [stqLanes, bind_run, heldBack_ok c s hp.held, recordCheck_ok c s hp.record hp.pair, get_run, laneAddr_record,
    strictCheck_ok hp, drainFor_ok ha, hinside]
  rw [laneCheck_ok]
  case h => exact fun l hl => aligned_ok (haligned l hl) s
  dsimp only
  rw [laneCheck_ok]
  case h => exact fun l hl => by simp only [bind_run, hdesc l hl, pure_run]
  dsimp only
  rw [laneCheck_ok]
  case h => exact fun l hl => by simp only [bind_run, get_run, hdesc l hl, hop l hl, pure_run]
  dsimp only
  rw [laneCheck_ok]
  case h => exact fun l hl => by simp only [bind_run, hdesc l hl, hbody l hl, pure_run]
  dsimp only
  rw [ite_run, if_neg (Nat.not_lt.2 hroom), bind_run, forLanes_ok (g := fun l => laneStqOp s c l (o l) (p l))]
  case h => exact fun l hl => by simp only [bind_run, get_run, hdesc l hl, hop l hl, hbody l hl, pure_run, laneStqOp]
  simp only [bind_run, noteOob_ok, pushStqs_run, List.foldl_map, laneStq_op]

/-! ## PFH (R289) -/

theorem pfhM_run (hrec : badRecord (recordOf s c) c.w.ty = none) (hpair : BufRec.flat (recordOf s c) = true → c.w.va.getLsbD 0 = false)
    (hfills : prefetchLanes (s.laneAcc c.k) c.w.hint.toNat (wordSize c.w.ty) (fetched s c) s = .ok () t) :
    pfhM c s = completed c none t := by
  rw [fetched] at hfills
  simp only [pfhM, bind_run, recordCheck_ok c s hrec hpair, get_run, laneAddr_record, hfills]

end

/-- Settles O51: each meaning comes down to its completion, `p_stn` and `p_tex` for nibble stores and textures. That STN acts at issue
(log 36), that the lanes of STQ out of bounds are dropped (log 45), and that the texture unit is chosen freely (log 57), are the
model's choices. -/
theorem otherLaneMemoryInstructionsComplete : Obligations.OtherLaneMemoryInstructionsComplete := by
  intro s t c h hsig
  refine ⟨fun hi ha ht => ?_, fun hi e => p_stn s c h hi e, fun o hi hp hw ha hend hops => ?_,
    fun hi d o p hp ha hread hroom ht => ?_, fun hi hrec hpair hfills => ?_, fun inside f rs u v => p_tex s t c h hsig inside f rs u v⟩
  · exact ready_completes h hsig (by rw [hi]; exact exec_fenceM c.w s) (ht ▸ fenceM_run ha)
  · exact ready_completes h hsig (ranges_run c.w s _ hi) (rangeLanes_run hp hw ha hend hops)
  · exact ready_completes h hsig (by rw [hi]; exact exec_stq s c.w) (ht ▸ stqLanes_run hp ha hread hroom)
  · exact ready_completes h hsig (by rw [hi]; exact exec_pfh s c.w) (pfhM_run hrec hpair hfills)

end Sys2Proof.Machine

/-! PROOFS. Exceptions of a uniform hart, and handlers that go on and end (R91, R394 to R396, R402). -/

namespace Sys2Proof.Machine

/-! ## A trap of a whole wave by its uniform hart (R394 to R396) -/

theorem Wave.quiet_iff (w : Wave) : w.quiet = true ↔ w.accesses = [] ∧ w.sfx = [] := by
  simp [Wave.quiet]

section
variable {s : State} {k : Nat} (ht : (s.wave k).hart.tn = false) (epc : Dword) (e : Exc)
include ht

/-- A quiet wave enters S at the exception of its uniform hart. -/
theorem takeExc_uniform_quiet (hq : (s.wave k).quiet = true) : s.takeExc (.uniform k) epc e = s.setWave k
    ((s.wave k).enterTrap 1 false (s.wave k).priPc 0 0 epc (BitVec.ofNat 64 e.scause) e.tval e.code e.detail none) := by
  simp [State.takeExc, State.trapUniform, ht, hq]

/-- A wave that is not quiet waits: its uniform hart stays at the instruction and issues it again. -/
theorem takeExc_uniform_waits (hq : (s.wave k).quiet = false) : s.takeExc (.uniform k) epc e =
    s.setWave k { s.wave k with hart := { (s.wave k).hart with pc := epc, run := .running } } := by
  simp [State.takeExc, State.trapUniform, ht, hq, State.setHart]

end

/-- A wave whose uniform stream has not ended needs no revival: its hart enters S as a strand's does. -/
theorem enterTrap_hart {w : Wave} (hu : w.uended = false) (src : Nat) (grp : Bool) (lpc : Nat) (mask failed : Mask)
    (epc scause stval : Dword) (code detail : Nat) (interrupt : Option Nat) :
    (w.enterTrap src grp lpc mask failed epc scause stval code detail interrupt).hart =
      w.hart.enterS epc scause stval (dcauseOf code detail) interrupt := by
  simp [Wave.enterTrap, hu]

theorem dcauseOf_fits {code detail : Nat} (hc : code < 65536) (hd : detail < 65536) :
    dcauseOf code detail = BitVec.ofNat 64 (detail * 65536 + code) := by
  rw [dcauseOf, Nat.mod_eq_of_lt hc, Nat.mod_eq_of_lt hd]

/-- Settles O7: a quiet wave enters S by `entersS`, with CODE and DETAIL whole in their 16 bits; one with accesses outstanding waits. -/
theorem uniformExceptionTrapsTheWave : Obligations.UniformExceptionTrapsTheWave := by
  refine fun s k epc e ht hc hd => ⟨fun ha hs hu => ?_, fun ha => takeExc_uniform_waits ht epc e ?_⟩
  · refine ⟨_, takeExc_uniform_quiet ht epc e ((Wave.quiet_iff _).2 ⟨ha, hs⟩), ?_, rfl, rfl, Nat.mod_eq_of_lt hc,
      Nat.mod_eq_of_lt hd, rfl, rfl, rfl, Vector.getElem_set!_self _, rfl, rfl, rfl, rfl, rfl, rfl, rfl⟩
    rw [enterTrap_hart hu, dcauseOf_fits hc hd]
    exact entersS ..
  · exact Bool.eq_false_iff.2 fun hq => ha ((Wave.quiet_iff _).1 hq).1

/-! ## Instructions that a handler runs (R91, R402) -/

/-- The hart with its handler `a` past the instruction that it runs; the pc is that of the interrupted instruction. -/
def Hart.advanced (r : Hart) (a : Handler) : Hart := { r with handler := some { a with off := a.off + 4 }, run := .running }

section
variable {s : State} {h : HartId} {a : Handler} (ha : s.actor = some (.hart h)) (hh : (s.hart h).handler = some a)
  (v : Hart → Option Nat) (hv : v (s.hart h) = none) (m : HartId → M Unit)
include ha hh hv

/-- An instruction that handler mode allows: its meaning runs with the handler past it. -/
theorem scalar_in_handler : scalar v m s = .next (scalarEnd h s (m h (s.setHart h ((s.hart h).advanced a)))) := by
  simp [scalar, State.actorHart, ha, hh, hv, Hart.pastInstr, Hart.advanced]

/-- A meaning that writes one register, in a handler. -/
theorem scalar_reg_in_handler (rd : Reg) (x : Dword) (hm : m h (s.setHart h ((s.hart h).advanced a)) =
      .ok () (s.setHart h (((s.hart h).advanced a).wx rd x))) :
    scalar v m s = .next (s.setHart h (((s.hart h).advanced a).wx rd x).retired) := by
  rw [scalar_in_handler ha hh v hv m, hm]
  simp only [scalarEnd, State.setHart_setHart, State.hart_setHart]

end

section
variable {r : Hart} {a : Handler} (hh : r.handler = some a)
include hh

/-- A handler below byte 32 goes on. -/
theorem retired_in_handler (hoff : a.off < 32) : r.retired = { r with instret := r.instret + 1 } := by
  simp [Hart.retired, Hart.afterInstr, hh, Nat.not_le.2 hoff]

/-- A handler that has reached byte 32 ends, and leaves the grant to the instruction that it interrupted. -/
theorem retired_ends_handler (hoff : 32 ≤ a.off) :
    r.retired = { r.endHandler with hm := false, instret := r.instret + 1, granted := r.granted } := by
  simp [Hart.retired, Hart.afterInstr, hh, hoff]

theorem endHandler_pc : r.endHandler.pc = r.pc := by simp only [Hart.endHandler, hh]
theorem endHandler_handler : r.endHandler.handler = none := by simp only [Hart.endHandler, hh]

/-- The strand is parked again where it was parked. -/
theorem endHandler_run : r.endHandler.run = a.wasParked.elim .running .parked := by
  simp only [Hart.endHandler, hh]
  cases a.wasParked <;> rfl

end

/-- A handler may write x10 to x17. -/
theorem handlerRd_shadowed {rd : Reg} (h10 : 10 ≤ rd.toNat) (h17 : rd.toNat ≤ 17) : handlerRd rd = false := by
  simp [handlerRd, h10, h17]

/-- ADDI in a handler, to a register that it may write. -/
theorem addi_in_handler {s : State} {h : HartId} {a : Handler} {rd : Reg} (ha : s.actor = some (.hart h))
    (hh : (s.hart h).handler = some a) (hrd : handlerRd rd = false) (rs1 : Reg) (imm : BitVec 12) :
    exec (.standardInstruction (.opImm .addi rd rs1 imm)) s =
      .next (s.setHart h (((s.hart h).advanced a).wx rd ((s.hart h).rx rs1 + imm.signExtend 64)).retired) := by
  have hrule : rvRule (.opImm .addi rd rs1 imm) (s.hart h) = none := by simp [rvRule, rvRd, hrd]
  rw [exec_standardInstruction, execStandardInstruction]
  refine scalar_reg_in_handler ha hh _ hrule _ rd _ ?_
  simp only [rvOp, bind_run, getHart_run, setReg_run, State.hart_setHart, State.setHart_setHart, immVal]
  rfl

theorem advanced_wx_x (r : Hart) (a : Handler) (rd : Reg) (v : Dword) : ((r.advanced a).wx rd v).x = (r.wx rd v).x := by
  simp only [Hart.wx]
  split <;> rfl

/-- Settles O39: the hart that ADDI leaves retires below byte 32 by `retired_in_handler`, at byte 32 by `retired_ends_handler`. That
the pc stays the interrupted one while the handler runs is the model's choice (log 30). -/
theorem handlerRunsToByte32 : Obligations.HandlerRunsToByte32 := by
  intro s k a rd rs1 imm hactor r hh h10 h17
  let q := (r.advanced a).wx rd (r.rx rs1 + imm.signExtend 64)
  have hq : q.handler = some { a with off := a.off + 4 } := Hart.wx_handler ..
  have hpc : q.pc = r.pc := Hart.wx_pc ..
  have hinstret : q.instret = r.instret := Hart.wx_instret ..
  have hgranted : q.granted = r.granted := Hart.wx_granted ..
  refine ⟨q.retired, addi_in_handler hactor hh (handlerRd_shadowed h10 h17) rs1 imm, ?_⟩
  rcases Nat.lt_or_ge (a.off + 4) 32 with hoff | hoff
  · rw [retired_in_handler hq hoff]
    exact ⟨hpc, congrArg (· + 1) hinstret, hgranted, fun _ => ⟨hq, Hart.wx_hm .., advanced_wx_x ..⟩,
      fun hend => absurd hoff (Nat.not_lt.2 hend)⟩
  · rw [retired_ends_handler hq hoff]
    refine ⟨(endHandler_pc hq).trans hpc, congrArg (· + 1) hinstret, hgranted, fun hon => absurd hon (Nat.not_lt.2 hoff),
      fun _ => ⟨endHandler_handler hq, rfl, (endHandler_run hq).trans ?_, rx_endHandler q { a with off := a.off + 4 } hq⟩⟩
    cases a.wasParked <;> rfl

end Sys2Proof.Machine
